-- ==== Sys2Proof/Word.lean ====
section
/-! DEFINITION. The word types and their plainest arithmetic (00 R4, R8). -/

namespace Sys2Proof

/-- One byte of memory. -/
abbrev Byte := BitVec 8

/-- A 64-bit word: a virtual address, a register of the device, one Laold or Chifin word. -/
abbrev Word := BitVec 64

/-- The widest value a lane holds, `.b128` (13 R283); a narrower value is its low bits. -/
abbrev Bits := BitVec 128

/-- A 16-byte sector or a lane mask of up to 64 lanes is a list or a word, as the manual treats it. -/
abbrev Mask := BitVec 64

namespace Word

/-- Bits(v, hi, lo) of R8 on a natural number. -/
def field (v hi lo : Nat) : Nat := (v / 2 ^ lo) % 2 ^ (hi + 1 - lo)

/-- Bit `i` of a natural number. -/
def bit (v i : Nat) : Bool := v / 2 ^ i % 2 == 1

/-- A Bool as the number 0 or 1. -/
def ofBool (b : Bool) : Nat := if b then 1 else 0

/-- SignExtend(v, bits) of R8: the low `bits` bits of `v` as a two's-complement integer. -/
def signExtend (v bits : Nat) : Int :=
  let x := v % 2 ^ bits
  if bits = 0 then 0 else if x < 2 ^ (bits - 1) then (x : Int) else (x : Int) - 2 ^ bits

/-- Bits(x, w-1, 0) of a mathematical integer: its residue modulo 2^w. -/
def wrapInt (x : Int) (w : Nat) : Nat := (x % (2 ^ w : Int)).toNat

/-- ⌈a / b⌉. -/
def ceilDiv (a b : Nat) : Nat := (a + b - 1) / b

end Word
end Sys2Proof
end

