-- ==== Sys2Proof/Syntax.lean ====
section
/-! DEFINITION. The syntax: Laold type codes (13 Table 13.3), operands (13 Table 13.2), and `Instr`, one
constructor for each row of the table of operations and events. -/

namespace Sys2Proof

/-- The Laold types of 13 Table 13.3. `none` is code 0x00, the TYPE of an untyped instruction. -/
inductive Ty where
  | none | i4 | i8 | i16 | i32 | i64 | n4 | n8 | n16 | n32 | n64 | f16 | bf16 | f32 | f64
  | e4m3 | e5m2 | e3m2 | e2m3 | e2m1 | e8m0 | p | b128 | h | bf16x2 | f16x2 | f32x2 | b32 | b64
  deriving DecidableEq, Repr

/-- An operand (13 R279, R281, R282); `reg` is a native register number of a Chifin word (12 Table 12.1). -/
inductive Opnd where
  | none
  | dist (d : Nat)
  | arg (k : Nat)
  | imm (v : Int)
  | pool (k : Nat)
  | reg (n : Nat)
  deriving DecidableEq, Repr

/-- What a Chifin word carries besides its counterpart's type, modifiers and operands (12 Table 12.3). -/
structure NatInfo where
  tokens : Nat
  queue  : Nat
  d      : Nat
  deriving DecidableEq, Repr

/-- The main word of an instruction (13 Table 13.1); `nat` is present in a Chifin word only. -/
structure Main where
  ty  : Ty
  mod : Nat
  a   : Opnd
  b   : Opnd
  c   : Opnd
  nat : Option NatInfo
  deriving DecidableEq, Repr

/-- An Operands extension word (13 Table 13.4b). -/
structure X4 where
  a : Opnd
  b : Opnd
  c : Opnd
  d : Opnd
  deriving DecidableEq, Repr

/-- A Target extension word with its operand words (13 Table 13.4b). -/
structure Target where
  block : Nat
  args  : List Opnd
  deriving DecidableEq, Repr

/-- A native-only word (12 Table 12.4). -/
structure NatWord where
  tokens : Nat
  queue  : Nat
  ty     : Nat
  d      : Nat
  a      : Nat
  b      : Nat
  c      : Nat
  deriving DecidableEq, Repr

/-- Queue `q` of owner 0 to 15 (a tenant) or 16 (the physical function's management queues), 03 R50. -/
structure QId where
  owner : Nat
  q     : Nat
  deriving DecidableEq, Repr

/-- A stack that fails step 4 of bring-up: in training or in self-test (01 Table 1.12). -/
structure StackFailure where
  train : Bool
  stack : Nat
  deriving DecidableEq, Repr

/-- The tenant registers that TEN_CONFIG_WRITE names (02 R33). -/
inductive TenConfig where
  | clmask
  | cemask
  | win (n : Nat)
  deriving DecidableEq, Repr

/-- A host change of one slot of one resource's table (02 R41): owner 0 to 15, or 31 for unassigned. -/
structure SlotChange where
  res   : Nat
  slot  : Nat
  owner : Nat
  deriving DecidableEq, Repr

/-- What the sensors report at a throttle trigger or release (01 R26): junction temperatures in °C, the die power
and module power tests with their spans elapsed, inlet temperature in °C, flow in tenths of a litre per minute. -/
structure Readings where
  junction    : List Nat
  dieOver     : List Bool
  dieUnder    : List Bool
  moduleOver  : Bool
  moduleUnder : Bool
  inlet       : Nat
  flow        : Nat
  flow100ms   : Bool
  deriving DecidableEq, Repr

/-- The states of a fabric port (01 R24). -/
inductive PortState where
  | down | training | up | error
  deriving DecidableEq, Repr

/-- The host atomics of 01 Table 1.6. -/
inductive HostOp where
  | fetchAdd | swap | cas
  deriving DecidableEq, Repr

/-- What a host access names (01 R22): device memory by its physical address, the device-memory aperture of the physical function by
an offset in it, that aperture's size, or the physical function's configuration space. -/
inductive HostAt where
  | mem (pa : Nat)
  | bar4 (off : Nat)
  | barSize
  | config (reg : Nat)
  deriving DecidableEq, Repr

/-- An access from a peer module (08 R182): a read, a write, or an atomic of 09 Table 9.1 given by its AOP. -/
inductive PeerAcc where
  | read (pa n : Nat)
  | write (pa : Nat) (data : List Byte)
  | atomic (aop pa : Nat) (signed ftz : Bool) (rm : Nat) (v c : Bits)
  deriving DecidableEq, Repr

/-- The three queues of a core (12 R254). -/
inductive QName where
  | a | x | s
  deriving DecidableEq, Repr

/-- One constructor for each row of the table of operations and events. A Laold instruction carries its main word
and its extension words; a packet row carries the queue at whose QUE.RP the packet stands; an event row carries what
the host or the world outside the device supplies. The events that only the host and the world raise stand last: the
compiler of Lean builds no constructor numbered above 244, and no definition of the model builds one of them. -/
inductive Instr where
  /-- `nop`, R317. -/
  | nop (w : Main)
  /-- `br`, R310. -/
  | br (w : Main) (t : Target)
  /-- `brc`, R311. -/
  | brc (w : Main) (rc : Nat) (tt nt : Target)
  /-- `brsw`, R312. -/
  | brsw (w : Main) (rc : Nat) (d : Target) (cs : List Target)
  /-- `call`, R314. -/
  | call (w : Main) (t : Target)
  /-- `calli`, R314. -/
  | calli (w : Main) (t : Target)
  /-- `ret`, R315. -/
  | ret (w : Main) (xs : List X4)
  /-- `retire`, R316. -/
  | retire (w : Main)
  /-- `itemidx`, R318. -/
  | itemidx (w : Main)
  /-- `coord`, R318. -/
  | coord (w : Main)
  /-- `laneid`, R318. -/
  | laneid (w : Main)
  /-- `groupid`, R318. -/
  | groupid (w : Main)
  /-- `gwidth`, R318. -/
  | gwidth (w : Main)
  /-- `nitems`, R318. -/
  | nitems (w : Main)
  /-- `dimext`, R318. -/
  | dimext (w : Main)
  /-- `domid`, R318. -/
  | domid (w : Main)
  /-- `domsize`, R318. -/
  | domsize (w : Main)
  /-- `coreid`, R318. -/
  | coreid (w : Main)
  /-- `clusterid`, R318. -/
  | clusterid (w : Main)
  /-- `dieid`, R318. -/
  | dieid (w : Main)
  /-- `launchid`, R318. -/
  | launchid (w : Main)
  /-- `actmask`, R318. -/
  | actmask (w : Main)
  /-- `add`, R319. -/
  | add (w : Main)
  /-- `sub`, R319. -/
  | sub (w : Main)
  /-- `mul`, R319. -/
  | mul (w : Main)
  /-- `mulhi`, R319. -/
  | mulhi (w : Main)
  /-- `mad`, R319. -/
  | mad (w : Main)
  /-- `div`, R320. -/
  | div (w : Main)
  /-- `rem`, R320. -/
  | rem (w : Main)
  /-- `neg`, R319. -/
  | neg (w : Main)
  /-- `abs`, R319. -/
  | abs (w : Main)
  /-- `min`, R321. -/
  | min (w : Main)
  /-- `max`, R321. -/
  | max (w : Main)
  /-- `clamp`, R321. -/
  | clamp (w : Main)
  /-- `adiff`, R321. -/
  | adiff (w : Main)
  /-- `addc`, R322. -/
  | addc (w : Main)
  /-- `subb`, R322. -/
  | subb (w : Main)
  /-- `and`, R323. -/
  | and (w : Main)
  /-- `or`, R323. -/
  | or (w : Main)
  /-- `xor`, R323. -/
  | xor (w : Main)
  /-- `not`, R323. -/
  | not (w : Main)
  /-- `bfn3`, R324. -/
  | bfn3 (w : Main) (l : Nat)
  /-- `shl`, R325. -/
  | shl (w : Main)
  /-- `shr`, R325. -/
  | shr (w : Main)
  /-- `sra`, R325. -/
  | sra (w : Main)
  /-- `rotl`, R325. -/
  | rotl (w : Main)
  /-- `bfe`, R326. -/
  | bfe (w : Main)
  /-- `bfi`, R326. -/
  | bfi (w : Main) (x : X4)
  /-- `clz`, R327. -/
  | clz (w : Main)
  /-- `ctz`, R327. -/
  | ctz (w : Main)
  /-- `bcnt`, R327. -/
  | bcnt (w : Main)
  /-- `brev`, R327. -/
  | brev (w : Main)
  /-- `bswap`, R327. -/
  | bswap (w : Main)
  /-- `cmp`, R328. -/
  | cmp (w : Main)
  /-- `sel`, R329. -/
  | sel (w : Main)
  /-- `cvti`, R330. -/
  | cvti (w : Main)
  /-- `lea`, R331. -/
  | lea (w : Main)
  /-- `mov`, R332. -/
  | mov (w : Main)
  /-- `fadd`, R336. -/
  | fadd (w : Main)
  /-- `fsub`, R336. -/
  | fsub (w : Main)
  /-- `fmul`, R336. -/
  | fmul (w : Main)
  /-- `fdiv`, R336. -/
  | fdiv (w : Main)
  /-- `fma`, R336. -/
  | fma (w : Main)
  /-- `sqrt`, R336. -/
  | sqrt (w : Main)
  /-- `rcp`, R336. -/
  | rcp (w : Main)
  /-- `rsqrt`, R336. -/
  | rsqrt (w : Main)
  /-- `exp2`, R336. -/
  | exp2 (w : Main)
  /-- `log2`, R336. -/
  | log2 (w : Main)
  /-- `sin`, R336. -/
  | sin (w : Main)
  /-- `cos`, R336. -/
  | cos (w : Main)
  /-- `ldexp`, R336. -/
  | ldexp (w : Main)
  /-- `frexp`, R338. -/
  | frexp (w : Main)
  /-- `frnd`, R337. -/
  | frnd (w : Main)
  /-- `fmin`, R339. -/
  | fmin (w : Main)
  /-- `fmax`, R339. -/
  | fmax (w : Main)
  /-- `fclamp`, R339. -/
  | fclamp (w : Main)
  /-- `fabs`, R340. -/
  | fabs (w : Main)
  /-- `fneg`, R340. -/
  | fneg (w : Main)
  /-- `fsgn`, R340. -/
  | fsgn (w : Main)
  /-- `fcmp`, R341. -/
  | fcmp (w : Main)
  /-- `fclass`, R342. -/
  | fclass (w : Main)
  /-- `cvt`, R343. -/
  | cvt (w : Main)
  /-- `cvtef`, R344. -/
  | cvtef (w : Main)
  /-- `shfl`, R345. -/
  | shfl (w : Main)
  /-- `shflx`, R345. -/
  | shflx (w : Main)
  /-- `shfld`, R345. -/
  | shfld (w : Main)
  /-- `shflu`, R345. -/
  | shflu (w : Main)
  /-- `bcast`, R345. -/
  | bcast (w : Main)
  /-- `ballot`, R346. -/
  | ballot (w : Main)
  /-- `popc`, R346. -/
  | popc (w : Main)
  /-- `elect`, R346. -/
  | elect (w : Main)
  /-- `redadd`, R347. -/
  | redadd (w : Main)
  /-- `redmin`, R347. -/
  | redmin (w : Main)
  /-- `redmax`, R347. -/
  | redmax (w : Main)
  /-- `redand`, R347. -/
  | redand (w : Main)
  /-- `redor`, R347. -/
  | redor (w : Main)
  /-- `sprs`, R348. -/
  | sprs (w : Main)
  /-- `rndk`, R349. -/
  | rndk (w : Main)
  /-- `ld.g`, R353. -/
  | ldG (w : Main)
  /-- `st.g`, R353. -/
  | stG (w : Main)
  /-- `ld.s`, R354. -/
  | ldS (w : Main)
  /-- `st.s`, R354. -/
  | stS (w : Main)
  /-- `pref`, R356. -/
  | pref (w : Main)
  /-- `evict`, R356. -/
  | evict (w : Main)
  /-- `tnseal`, R358. -/
  | tnseal (w : Main)
  /-- `tnflush`, R358. -/
  | tnflush (w : Main)
  /-- `tnld`, R360. -/
  | tnld (w : Main) (x : X4)
  /-- `tnst`, R360. -/
  | tnst (w : Main) (x y : X4)
  /-- `tninfo`, R361. -/
  | tninfo (w : Main)
  /-- `tnrelay`, R364. -/
  | tnrelay (w : Main) (x : X4)
  /-- `tnidx`, R362. -/
  | tnidx (w : Main) (x : X4)
  /-- `tnpref`, R363. -/
  | tnpref (w : Main) (x : X4)
  /-- `cpy`, R366. -/
  | cpy (w : Main) (x : X4)
  /-- `cpyh`, R367. -/
  | cpyh (w : Main) (x y : X4)
  /-- `seqset`, R370. -/
  | seqset (w : Main)
  /-- `seqgo`, R370. -/
  | seqgo (w : Main)
  /-- `seqstat`, R370. -/
  | seqstat (w : Main)
  /-- `gath`, R368. -/
  | gath (w : Main) (x : X4)
  /-- `gathh`, R368. -/
  | gathh (w : Main) (x : X4)
  /-- `cbatch`, R371. -/
  | cbatch (w : Main)
  /-- `cwait`, R371. -/
  | cwait (w : Main)
  /-- `cntwait`, R371. -/
  | cntwait (w : Main)
  /-- `spset`, R369. -/
  | spset (w : Main) (x : X4)
  /-- `ringcfg`, R376. -/
  | ringcfg (w : Main) (x : X4)
  /-- `ringrd`, R377. -/
  | ringrd (w : Main)
  /-- `mma`, R382. -/
  | mma (w : Main) (l : Nat)
  /-- `mmab`, R383. -/
  | mmab (w : Main) (l : Nat)
  /-- `mmas`, R384. -/
  | mmas (w : Main) (l : Nat)
  /-- `mmaconv`, R385. -/
  | mmaconv (w : Main) (l : Nat) (x : X4)
  /-- `mmard`, R387. -/
  | mmard (w : Main)
  /-- `tlld`, R388. -/
  | tlld (w : Main)
  /-- `tlst`, R388. -/
  | tlst (w : Main)
  /-- `tlzero`, R388. -/
  | tlzero (w : Main)
  /-- `tlmov`, R388. -/
  | tlmov (w : Main)
  /-- `tlrotr`, R391. -/
  | tlrotr (w : Main)
  /-- `tlrotc`, R391. -/
  | tlrotc (w : Main)
  /-- `tlbcr`, R391. -/
  | tlbcr (w : Main)
  /-- `tlbcc`, R391. -/
  | tlbcc (w : Main)
  /-- `tlredr`, R392. -/
  | tlredr (w : Main)
  /-- `tlredc`, R392. -/
  | tlredc (w : Main)
  /-- `tlgetr`, R390. -/
  | tlgetr (w : Main)
  /-- `tlgetc`, R390. -/
  | tlgetc (w : Main)
  /-- `tlputr`, R390. -/
  | tlputr (w : Main)
  /-- `tlputc`, R390. -/
  | tlputc (w : Main)
  /-- `dp4`, R394. -/
  | dp4 (w : Main)
  /-- `dp8`, R394. -/
  | dp8 (w : Main)
  /-- `dp2`, R395. -/
  | dp2 (w : Main)
  /-- `pack`, R396. -/
  | pack (w : Main)
  /-- `unpack`, R396. -/
  | unpack (w : Main)
  /-- `amo.add`, R401. -/
  | amoAdd (w : Main)
  /-- `amo.and`, R401. -/
  | amoAnd (w : Main)
  /-- `amo.or`, R401. -/
  | amoOr (w : Main)
  /-- `amo.xor`, R401. -/
  | amoXor (w : Main)
  /-- `amo.min`, R401. -/
  | amoMin (w : Main)
  /-- `amo.max`, R401. -/
  | amoMax (w : Main)
  /-- `amo.swap`, R401. -/
  | amoSwap (w : Main)
  /-- `amo.cas`, R401. -/
  | amoCas (w : Main)
  /-- `amo.fadd.rn`, R401. -/
  | amoFaddRn (w : Main)
  /-- `amo.fadd.rz`, R401. -/
  | amoFaddRz (w : Main)
  /-- `amo.fadd.ru`, R401. -/
  | amoFaddRu (w : Main)
  /-- `amo.fadd.rd`, R401. -/
  | amoFaddRd (w : Main)
  /-- `amo.fadd.x`, R403. -/
  | amoFaddX (w : Main)
  /-- `amo.fmin`, R401. -/
  | amoFmin (w : Main)
  /-- `amo.fmax`, R401. -/
  | amoFmax (w : Main)
  /-- `cas128`, R402. -/
  | cas128 (w : Main)
  /-- `txbeg`, R404. -/
  | txbeg (w : Main)
  /-- `txend`, R404. -/
  | txend (w : Main)
  /-- `txabort`, R404. -/
  | txabort (w : Main)
  /-- `txmask`, R404. -/
  | txmask (w : Main)
  /-- `txcause`, R404. -/
  | txcause (w : Main)
  /-- `txdepth`, R404. -/
  | txdepth (w : Main)
  /-- `txserial`, R404. -/
  | txserial (w : Main)
  /-- `fence`, R406. -/
  | fence (w : Main)
  /-- `barr`, R407. -/
  | barr (w : Main)
  /-- `bararr`, R407. -/
  | bararr (w : Main)
  /-- `barwait`, R407. -/
  | barwait (w : Main)
  /-- `bartest`, R407. -/
  | bartest (w : Main)
  /-- `barphase`, R407. -/
  | barphase (w : Main)
  /-- `dmember`, R407. -/
  | dmember (w : Main)
  /-- `qpush`, R408. -/
  | qpush (w : Main)
  /-- `qpop`, R408. -/
  | qpop (w : Main)
  /-- `qcount`, R408. -/
  | qcount (w : Main)
  /-- `qspace`, R408. -/
  | qspace (w : Main)
  /-- `icinv`, R409. -/
  | icinv (w : Main)
  /-- `fbar`, R409. -/
  | fbar (w : Main)
  /-- `l1inv`, R409. -/
  | l1inv (w : Main)
  /-- `rdctl`, R410. -/
  | rdctl (w : Main)
  /-- `wrctl`, R410. -/
  | wrctl (w : Main)
  /-- `rdclk`, R412. -/
  | rdclk (w : Main)
  /-- `nap`, R412. -/
  | nap (w : Main)
  /-- `yield`, R412. -/
  | yield (w : Main)
  /-- `hint`, R412. -/
  | hint (w : Main)
  /-- `trap`, R413. -/
  | trap (w : Main)
  /-- `brk`, R414. -/
  | brk (w : Main)
  /-- `chk`, R413. -/
  | chk (w : Main)
  /-- QUEUE_ENGINE_ROUND, R67. -/
  | queueEngineRound
  /-- NOP_PACKET, R64. -/
  | nopPacket (q : QId)
  /-- WRAP, R56. -/
  | wrap (q : QId)
  /-- WAITCNT, R64. -/
  | waitcnt (q : QId)
  /-- WAITCNT_POLL, R64. -/
  | waitcntPoll (q : QId)
  /-- SIGNAL, R64. -/
  | signal (q : QId)
  /-- LOAD, R45. -/
  | load (q : QId)
  /-- UNLOAD, R64. -/
  | unload (q : QId)
  /-- LAUNCH, R76. -/
  | launch (q : QId)
  /-- LAUNCH_PLACEMENT, R126. -/
  | launchPlacement
  /-- LAUNCH_COMPLETE, R80. -/
  | launchComplete (l : Nat)
  /-- GRAPH, R83. -/
  | graph (q : QId)
  /-- GRAPH_REPLAY_WAIT_END, R83. -/
  | graphReplayWaitEnd (r : Nat)
  /-- GRAPH_NODE_DISPATCH, R84. -/
  | graphNodeDispatch (q : QId)
  /-- GRAPH_NODE_RETIRE, R83. -/
  | graphNodeRetire (r n : Nat)
  /-- PATCH, R86. -/
  | patch (q : QId)
  /-- PATCH_WAIT_END, R86. -/
  | patchWaitEnd (p : Nat)
  /-- PREEMPT, R88. -/
  | preempt (q : QId)
  /-- PREEMPT_SAVE_DONE, R89. -/
  | preemptSaveDone (t k : Nat)
  /-- RESUME, R91. -/
  | resume (q : QId)
  /-- REPLAY_ALL, R155. -/
  | replayAll (q : QId)
  /-- ATTEST, R43. -/
  | attest (q : QId)
  /-- INVAL_DONE, R150. -/
  | invalDone (t k : Nat)
  /-- ISSUE_CYCLE, R132. -/
  | issueCycle (core : Nat) (queue : QName)
  /-- PIECE_PLACEMENT, R128. -/
  | piecePlacement
  /-- TRANSLATION_DONE, R260. -/
  | translationDone (cl : Nat)
  /-- TEXT_PAGE_FETCH_DONE, R46. -/
  | textPageFetchDone (t k obj page : Nat)
  /-- DUMP_DONE, R93. -/
  | dumpDone (t k : Nat)
  /-- PAGE_WALK_DONE, R146. -/
  | pageWalkDone (w : Nat)
  /-- FIRST_TOUCH, R152. -/
  | firstTouch (f : Nat)
  /-- MEMORY_REPLY, R252. -/
  | memoryReply (g : Nat)
  /-- ATOMIC_QUEUE_DRAIN, R190. -/
  | atomicQueueDrain (core : Nat)
  /-- ACC_SPILL_DONE, R197. -/
  | accSpillDone (slice : Nat)
  /-- ENGINE_COMMAND_COMPLETE, R162. -/
  | engineCommandComplete (id : Nat)
  /-- SEQUENCER_EMIT, R245. -/
  | sequencerEmit (core slot : Nat)
  /-- MATRIX_RETIRE, R382. -/
  | matrixRetire (core : Nat)
  /-- RELAYOUT_TILE_QUEUE, R238. -/
  | relayoutTileQueue (r : Nat)
  /-- TILE_CONVERSION_START, R238. -/
  | tileConversionStart (stack : Nat)
  /-- TILE_CONVERSION_DONE, R238. -/
  | tileConversionDone (stack : Nat)
  /-- SERIAL_GRANT, R207. -/
  | serialGrant
  /-- NAP_EXPIRY, R412. -/
  | napExpiry (g : Nat)
  /-- SPILL, R258. -/
  | spill (n : NatWord)
  /-- FILL, R258. -/
  | fill (n : NatWord)
  /-- MAT, R258. -/
  | mat (n : NatWord)
  /-- TNOP, R258. -/
  | tnop (n : NatWord)
  /-- HMOV, R258. -/
  | hmov (n : NatWord)
  /-- LDK, R258. -/
  | ldk (n : NatWord)
  /-- UNF, R272. -/
  | unf (n : NatWord)
  /-- ENGINE_ACCESS_FAULT, R243. -/
  | engineAccessFault (id : Nat)
  /-- STORE_PERFORMED, R255. -/
  | storePerformed (g : Nat)
  /-- ICINV_DONE, R409. -/
  | icinvDone (id : Nat)
  /-- POWER_GOOD, R27. -/
  | powerGood
  /-- PERST, R27. -/
  | perst
  /-- PF_FUNCTION_LEVEL_RESET, R23. -/
  | pfFlr
  /-- VF_FUNCTION_LEVEL_RESET, R23. -/
  | vfFlr (t : Nat)
  /-- PCIE_LINK_UP, R27. -/
  | pcieLinkUp
  /-- FIRMWARE_CHECK_DONE, R28. -/
  | firmwareCheckDone
  /-- STACKS_READY, R27. -/
  | stacksReady (fail : Option StackFailure)
  /-- LINKS_TRAINED, R27. -/
  | linksTrained (fail : Option Nat) (portsUp : Nat)
  /-- DIES_LEAVE_RESET, R27. -/
  | diesLeaveReset (fail : Option Nat)
  /-- IDENTITY_READY, R42. -/
  | identityReady (ok : Bool)
  /-- RECOVERY_GO, R31. -/
  | recoveryGo (v : Word)
  /-- RECOVERY_CHECK_DONE, R31. -/
  | recoveryCheckDone
  /-- COOLWARN_CLEAR, R30. -/
  | coolwarnClear (v : Word)
  /-- REFUSED_CLEAR, R37. -/
  | refusedClear (tgt : Option Nat) (v : Word)
  /-- REGISTER_WRITE, R430. -/
  | registerWrite (fn off : Nat) (v : Word)
  /-- TEN_CONFIG_WRITE, R34. -/
  | tenConfigWrite (t : Nat) (reg : TenConfig) (v : Word)
  /-- TEN_ENABLE, R37. -/
  | tenEnable (t : Nat) (v : Word)
  /-- SIGNER_KEY_REGISTER, R38. -/
  | signerKeyRegister (t : Nat) (v : Word)
  /-- SIGNER_KEY_COPY_DONE, R38. -/
  | signerKeyCopyDone (t : Nat)
  /-- SIGNER_KEY_REMOVE, R38. -/
  | signerKeyRemove (t : Nat) (v : Word)
  /-- TEN_MODE_WRITE, R70. -/
  | tenModeWrite (t : Nat) (v : Word)
  /-- ASSISTPEND_CLEAR, R71. -/
  | assistpendClear (t : Nat) (v : Word)
  /-- FBCFG_WRITE, R153. -/
  | fbcfgWrite (t : Nat) (v : Word)
  /-- FAULT_CANCEL_WRITE, R153. -/
  | faultCancelWrite (t d k : Nat) (v : Word)
  /-- SLOT_TABLE_UPDATE, R41. -/
  | slotTableUpdate (changes : List SlotChange)
  /-- SLOT_GRANT, R39. -/
  | slotGrant (res cycle : Nat) (ready : List Nat)
  /-- QUEUE_ENABLE, R52. -/
  | queueEnable (q : QId) (v : Word)
  /-- QUEUE_DISABLE, R52. -/
  | queueDisable (q : QId) (v : Word)
  /-- QUEUE_RESTART, R57. -/
  | queueRestart (q : QId) (v : Word)
  /-- QUEUE_WP_WRITE, R55. -/
  | queueWpWrite (q : QId) (v : Word)
  /-- QUEUE_GATE_WRITE, R69. -/
  | queueGateWrite (q : QId) (v : Word)
  /-- PREEMPT_DRAIN_EXPIRY, R88. -/
  | preemptDrainExpiry (t k : Nat)
  /-- PREEMPT_TX_TIMEOUT, R88. -/
  | preemptTxTimeout (t k : Nat)
  /-- CTX_ENABLE, R431. -/
  | ctxEnable (t k : Nat) (v : Word)
  /-- CTX_RESET, R92. -/
  | ctxReset (t k : Nat) (v : Word)
  /-- CTX_INVAL, R150. -/
  | ctxInval (t k : Nat) (v : Word)
  /-- ENBUDGET_WRITE, R250. -/
  | enbudgetWrite (t k : Nat) (v : Word)
  /-- ENRATE_WRITE, R250. -/
  | enrateWrite (t k : Nat) (v : Word)
  /-- ENERGY_REPLENISH, R250. -/
  | energyReplenish
  /-- DBG_HIT_CLEAR, R414. -/
  | dbgHitClear (t k : Nat) (v : Word)
  /-- FLUX_ESTIMATE_UPDATE, R26. -/
  | fluxEstimateUpdate (pair flux : Nat)
  /-- CLOCK_STEP, R26. -/
  | clockStep (die : Nat)
  /-- THERMAL_TRIGGER, R26. -/
  | thermalTrigger (r : Readings)
  /-- COOLANT_OUT_OF_RATING, R25. -/
  | coolantOutOfRating (inlet flow : Nat)
  /-- SCRUB_ERROR, R17. -/
  | scrubError (pa : Nat) (corrected : Bool)
  /-- FABRIC_PORT_STATE_CHANGE, R24. -/
  | fabricPortStateChange (p : Nat) (st : PortState)
  /-- HOST_WRITE, R181. -/
  | hostWrite (at_ : HostAt) (data : List Byte)
  /-- HOST_READ, R181. -/
  | hostRead (at_ : HostAt) (n : Nat)
  /-- HOST_ATOMIC, R22. -/
  | hostAtomic (op : HostOp) (at_ : HostAt) (size : Nat) (v c : Word)
  /-- PEER_ACCESS, R182. -/
  | peerAccess (a : PeerAcc)
  /-- REVOCATION_TIMEOUT, R48. -/
  | revocationTimeout (t k : Nat)
  deriving DecidableEq, Repr

end Sys2Proof
end

