-- ==== Sys2Proof/Machine/Types.lean ====
section
/-! DEFINITION. Type codes, widths and ranges of the Laold types (13 Table 13.3, 14 Table 14.1). -/

namespace Sys2Proof

/-- The type code of Table 13.3. -/
def Ty.code : Ty → Nat
  | .none => 0 | .i4 => 1 | .i8 => 2 | .i16 => 3 | .i32 => 4 | .i64 => 5
  | .n4 => 6 | .n8 => 7 | .n16 => 8 | .n32 => 9 | .n64 => 10
  | .f16 => 11 | .bf16 => 12 | .f32 => 13 | .f64 => 14
  | .e4m3 => 15 | .e5m2 => 16 | .e3m2 => 17 | .e2m3 => 18 | .e2m1 => 19 | .e8m0 => 20
  | .p => 21 | .b128 => 22 | .h => 23 | .bf16x2 => 24 | .f16x2 => 25 | .f32x2 => 26
  | .b32 => 27 | .b64 => 28

/-- The type of a code; codes 0x1D to 0x1F are not types (R283). -/
def Ty.ofCode : Nat → Option Ty
  | 0 => some .none | 1 => some .i4 | 2 => some .i8 | 3 => some .i16 | 4 => some .i32 | 5 => some .i64
  | 6 => some .n4 | 7 => some .n8 | 8 => some .n16 | 9 => some .n32 | 10 => some .n64
  | 11 => some .f16 | 12 => some .bf16 | 13 => some .f32 | 14 => some .f64
  | 15 => some .e4m3 | 16 => some .e5m2 | 17 => some .e3m2 | 18 => some .e2m3 | 19 => some .e2m1
  | 20 => some .e8m0 | 21 => some .p | 22 => some .b128 | 23 => some .h | 24 => some .bf16x2
  | 25 => some .f16x2 | 26 => some .f32x2 | 27 => some .b32 | 28 => some .b64
  | _ => none

/-- The width in bits (Table 13.3). -/
def Ty.width : Ty → Nat
  | .none => 0 | .i4 => 4 | .i8 => 8 | .i16 => 16 | .i32 => 32 | .i64 => 64
  | .n4 => 4 | .n8 => 8 | .n16 => 16 | .n32 => 32 | .n64 => 64
  | .f16 => 16 | .bf16 => 16 | .f32 => 32 | .f64 => 64
  | .e4m3 => 8 | .e5m2 => 8 | .e3m2 => 6 | .e2m3 => 6 | .e2m1 => 4 | .e8m0 => 8
  | .p => 1 | .b128 => 128 | .h => 64 | .bf16x2 => 32 | .f16x2 => 32 | .f32x2 => 64
  | .b32 => 32 | .b64 => 64

/-- Bytes of an element in memory, for the types of 8 bits and wider (R213). -/
def Ty.bytes (t : Ty) : Nat := t.width / 8

/-- Set I of Table 14.1. -/
def Ty.isInt (t : Ty) : Bool := decide (1 ≤ t.code) && decide (t.code ≤ 10)

/-- The signed integer types. -/
def Ty.signed (t : Ty) : Bool := decide (1 ≤ t.code) && decide (t.code ≤ 5)

/-- Set F of Table 14.1. -/
def Ty.isF (t : Ty) : Bool := decide (11 ≤ t.code) && decide (t.code ≤ 14)

/-- Set NF of Table 14.1. -/
def Ty.isNF (t : Ty) : Bool := decide (15 ≤ t.code) && decide (t.code ≤ 19)

/-- The packed pairs `.bf16x2`, `.f16x2` and `.f32x2`. -/
def Ty.isPair (t : Ty) : Bool := t == .bf16x2 || t == .f16x2 || t == .f32x2

/-- The element type of a packed pair, else the type itself (R333). -/
def Ty.elem : Ty → Ty
  | .bf16x2 => .bf16 | .f16x2 => .f16 | .f32x2 => .f32 | t => t

/-- A value of type `t` read as an integer: signed for `.i`, natural otherwise (R307). -/
def Ty.toInt (t : Ty) (v : Nat) : Int :=
  if t.signed then Word.signExtend v t.width else (v % 2 ^ t.width : Nat)

/-- The least value of an integer type. -/
def Ty.minInt (t : Ty) : Int := if t.signed then -(2 ^ (t.width - 1) : Int) else 0

/-- The largest value of an integer type. -/
def Ty.maxInt (t : Ty) : Int := if t.signed then 2 ^ (t.width - 1) - 1 else 2 ^ t.width - 1

/-- Wrap(x, T) of R307, as the bits of the value. -/
def Ty.wrap (t : Ty) (x : Int) : Nat := Word.wrapInt x t.width

/-- Sat(x, T) of R307, as the bits of the value. -/
def Ty.sat (t : Ty) (x : Int) : Nat :=
  t.wrap (if x < t.minInt then t.minInt else if t.maxInt < x then t.maxInt else x)

/-- An immediate may stand for an operand of this type (R281). -/
def Ty.immOk (t : Ty) : Bool := t.isInt || t == .b32 || t == .b64 || t.isF

theorem Ty.ofCode_code (t : Ty) : Ty.ofCode t.code = some t := by cases t <;> rfl

theorem Ty.code_lt (t : Ty) : t.code < 29 := by cases t <;> decide

end Sys2Proof
end

