-- ==== Sys2Proof/Machine/OpTable.lean ====
section
/-! DEFINITION. The opcode maps (chapter 14), the generic form of a Laold instruction, and the checks on an
instruction that its own words decide (13 Table 13.4 rows 1 to 5, 8, 9 and 12; R169, R192, R218, R389, R396). -/

namespace Sys2Proof

/-- The extension words of an instruction, by kind and order (14 Table 14.3). -/
inductive Ext where
  | none
  | ops (xs : List X4)
  | lit (l : Nat)
  | litOps (l : Nat) (x : X4)
  | target (t : Target)
  | c2 (rc : Nat) (tt nt : Target)
  | sw (rc : Nat) (d : Target) (cs : List Target)
  deriving DecidableEq, Repr

/-- A Laold instruction as its opcode, main word and extension words. -/
structure Raw where
  op  : Nat
  w   : Main
  ext : Ext
  deriving DecidableEq, Repr

/-- The modifier classes of Table 14.2. -/
inductive ModClass where
  | n | ar | cp | ct | ord | oa | mm
  deriving DecidableEq, Repr

/-- The extension-word codes of Table 14.3. -/
inductive ExtCode where
  | e0 | o1 | o2 | l1 | lo | t | c2 | sw | rt
  deriving DecidableEq, Repr

/-- What an operand place requires: the instruction's type, a fixed type, an immediate in 0 to max, an immediate 0 or
8, the index of `lea`, the source of `cvti`, `cvt` or `cvtef`, the container of `sprs`, an operand of `rndk`, a packed
pair of `dp2`, a selector of `pack`, or the callee of `call`. -/
inductive SlotKind where
  | ty | fix (t : Ty) | imm (max : Nat) | imm08 | idx | srcI | srcC | srcE | cont | w64 | pair | psel | callee
  deriving DecidableEq, Repr

/-- An operand place; `opt` when the operand may be absent. -/
structure Slot where
  kind : SlotKind
  opt  : Bool
  deriving DecidableEq, Repr

/-- The type of a result: TYPE, a fixed type, the source type, the container of `sprs`, or by `unpack`'s selector. -/
inductive ResKind where
  | t | fix (ty : Ty) | src | cont | unpack
  deriving DecidableEq, Repr

/-- Terminator mark, minor revision, and the modifiers an AR form offers. -/
structure OpFlags where
  term  : Bool
  minor : Nat
  rm    : Bool
  sat   : Bool
  ftz   : Bool
  deriving DecidableEq, Repr

/-- One row of the opcode maps. -/
structure OpRow where
  op    : Nat
  types : List Ty
  mc    : ModClass
  ext   : ExtCode
  slots : List Slot
  res   : List ResKind
  flags : OpFlags
  deriving DecidableEq, Repr

/-! ### Type sets (Table 14.1) -/

def setU : List Ty := [.none]
def setI : List Ty := [.i4, .i8, .i16, .i32, .i64, .n4, .n8, .n16, .n32, .n64]
def setIW : List Ty := [.i8, .i16, .i32, .i64, .n8, .n16, .n32, .n64]
def setIL : List Ty := [.i32, .i64, .n32, .n64]
def setF : List Ty := [.f16, .bf16, .f32, .f64]
def setFP : List Ty := setF ++ [.bf16x2, .f16x2, .f32x2]
def setAF : List Ty := [.bf16, .f32, .f64, .bf16x2, .f32x2]
def setNF : List Ty := [.e4m3, .e5m2, .e3m2, .e2m3, .e2m1]
def setB : List Ty := [.b128, .b32, .b64]
def setM : List Ty := setIW ++ setF ++ setB ++ [.e4m3, .e5m2, .e8m0, .bf16x2, .f16x2, .f32x2]
def setV : List Ty := setI ++ setF ++ setNF ++ setB ++ [.e8m0, .p, .h, .bf16x2, .f16x2, .f32x2]

/-- Table 14.4. -/
def rowsControl : List OpRow := [
  ⟨0x000, setU, .n, .e0, [], [], ⟨false, 0, false, false, false⟩⟩,
  ⟨0x001, setU, .n, .t, [], [], ⟨true, 0, false, false, false⟩⟩,
  ⟨0x002, setU, .n, .c2, [⟨(.fix .p), false⟩], [], ⟨true, 0, false, false, false⟩⟩,
  ⟨0x003, setU, .n, .sw, [⟨(.fix .n32), false⟩], [], ⟨true, 0, false, false, false⟩⟩,
  ⟨0x004, setU, .n, .t, [⟨.callee, false⟩], [], ⟨true, 0, false, false, false⟩⟩,
  ⟨0x005, setU, .n, .t, [⟨(.fix .n32), false⟩], [], ⟨true, 0, false, false, false⟩⟩,
  ⟨0x006, setU, .ct, .rt, [], [], ⟨true, 0, false, false, false⟩⟩,
  ⟨0x007, setU, .n, .e0, [], [], ⟨true, 0, false, false, false⟩⟩,
  ⟨0x010, [.n32, .n64], .n, .e0, [], [.t], ⟨false, 0, false, false, false⟩⟩,
  ⟨0x011, [.n32, .n64], .n, .e0, [⟨(.imm 2), false⟩], [.t], ⟨false, 0, false, false, false⟩⟩,
  ⟨0x012, [.n32, .n64], .n, .e0, [], [.t], ⟨false, 0, false, false, false⟩⟩,
  ⟨0x013, [.n32, .n64], .n, .e0, [], [.t], ⟨false, 0, false, false, false⟩⟩,
  ⟨0x014, [.n32, .n64], .n, .e0, [], [.t], ⟨false, 0, false, false, false⟩⟩,
  ⟨0x015, [.n32, .n64], .n, .e0, [], [.t], ⟨false, 0, false, false, false⟩⟩,
  ⟨0x016, [.n32, .n64], .n, .e0, [⟨(.imm 2), false⟩], [.t], ⟨false, 0, false, false, false⟩⟩,
  ⟨0x017, [.n32, .n64], .n, .e0, [], [.t], ⟨false, 0, false, false, false⟩⟩,
  ⟨0x018, [.n32, .n64], .n, .e0, [], [.t], ⟨false, 0, false, false, false⟩⟩,
  ⟨0x019, [.n32, .n64], .n, .e0, [], [.t], ⟨false, 0, false, false, false⟩⟩,
  ⟨0x01A, [.n32, .n64], .n, .e0, [], [.t], ⟨false, 0, false, false, false⟩⟩,
  ⟨0x01B, [.n32, .n64], .n, .e0, [], [.t], ⟨false, 0, false, false, false⟩⟩,
  ⟨0x01C, [.n32, .n64], .n, .e0, [], [.t], ⟨false, 0, false, false, false⟩⟩,
  ⟨0x01D, [.b64], .n, .e0, [], [.t], ⟨false, 0, false, false, false⟩⟩]

/-- Table 14.5. -/
def rowsInteger : List OpRow := [
  ⟨0x040, setIW, .ar, .e0, [⟨.ty, false⟩, ⟨.ty, false⟩], [.t], ⟨false, 0, false, true, false⟩⟩,
  ⟨0x041, setIW, .ar, .e0, [⟨.ty, false⟩, ⟨.ty, false⟩], [.t], ⟨false, 0, false, true, false⟩⟩,
  ⟨0x042, setIW, .ar, .e0, [⟨.ty, false⟩, ⟨.ty, false⟩], [.t], ⟨false, 0, false, true, false⟩⟩,
  ⟨0x043, setIW, .ar, .e0, [⟨.ty, false⟩, ⟨.ty, false⟩], [.t], ⟨false, 0, false, false, false⟩⟩,
  ⟨0x044, setIW, .ar, .e0, [⟨.ty, false⟩, ⟨.ty, false⟩, ⟨.ty, false⟩], [.t], ⟨false, 0, false, true, false⟩⟩,
  ⟨0x045, setIW, .n, .e0, [⟨.ty, false⟩, ⟨.ty, false⟩], [.t], ⟨false, 0, false, false, false⟩⟩,
  ⟨0x046, setIW, .n, .e0, [⟨.ty, false⟩, ⟨.ty, false⟩], [.t], ⟨false, 0, false, false, false⟩⟩,
  ⟨0x047, [.i8, .i16, .i32, .i64], .ar, .e0, [⟨.ty, false⟩], [.t], ⟨false, 0, false, true, false⟩⟩,
  ⟨0x048, [.i8, .i16, .i32, .i64], .ar, .e0, [⟨.ty, false⟩], [.t], ⟨false, 0, false, true, false⟩⟩,
  ⟨0x049, setIW, .n, .e0, [⟨.ty, false⟩, ⟨.ty, false⟩], [.t], ⟨false, 0, false, false, false⟩⟩,
  ⟨0x04A, setIW, .n, .e0, [⟨.ty, false⟩, ⟨.ty, false⟩], [.t], ⟨false, 0, false, false, false⟩⟩,
  ⟨0x04B, setIW, .n, .e0, [⟨.ty, false⟩, ⟨.ty, false⟩, ⟨.ty, false⟩], [.t], ⟨false, 0, false, false, false⟩⟩,
  ⟨0x04C, setIW, .n, .e0, [⟨.ty, false⟩, ⟨.ty, false⟩], [.t], ⟨false, 0, false, false, false⟩⟩,
  ⟨0x04D, setIL, .n, .e0, [⟨.ty, false⟩, ⟨.ty, false⟩, ⟨.ty, true⟩], [.t, .t], ⟨false, 0, false, false, false⟩⟩,
  ⟨0x04E, setIL, .n, .e0, [⟨.ty, false⟩, ⟨.ty, false⟩, ⟨.ty, true⟩], [.t, .t], ⟨false, 0, false, false, false⟩⟩,
  ⟨0x050, (setIW ++ setB ++ [.p]), .n, .e0, [⟨.ty, false⟩, ⟨.ty, false⟩], [.t], ⟨false, 0, false, false, false⟩⟩,
  ⟨0x051, (setIW ++ setB ++ [.p]), .n, .e0, [⟨.ty, false⟩, ⟨.ty, false⟩], [.t], ⟨false, 0, false, false, false⟩⟩,
  ⟨0x052, (setIW ++ setB ++ [.p]), .n, .e0, [⟨.ty, false⟩, ⟨.ty, false⟩], [.t], ⟨false, 0, false, false, false⟩⟩,
  ⟨0x053, (setIW ++ setB ++ [.p]), .n, .e0, [⟨.ty, false⟩], [.t], ⟨false, 0, false, false, false⟩⟩,
  ⟨0x054, (setIW ++ setB), .n, .l1, [⟨.ty, false⟩, ⟨.ty, false⟩, ⟨.ty, false⟩], [.t], ⟨false, 0, false, false, false⟩⟩,
  ⟨0x058, (setIW ++ setB), .n, .e0, [⟨.ty, false⟩, ⟨(.fix .n32), false⟩], [.t], ⟨false, 0, false, false, false⟩⟩,
  ⟨0x059, (setIW ++ setB), .n, .e0, [⟨.ty, false⟩, ⟨(.fix .n32), false⟩], [.t], ⟨false, 0, false, false, false⟩⟩,
  ⟨0x05A, (setIW ++ setB), .n, .e0, [⟨.ty, false⟩, ⟨(.fix .n32), false⟩], [.t], ⟨false, 0, false, false, false⟩⟩,
  ⟨0x05B, (setIW ++ setB), .n, .e0, [⟨.ty, false⟩, ⟨(.fix .n32), false⟩], [.t], ⟨false, 0, false, false, false⟩⟩,
  ⟨0x05C, (setIL ++ setB), .n, .e0, [⟨.ty, false⟩, ⟨(.fix .n32), false⟩, ⟨(.fix .n32), false⟩], [.t], ⟨false, 0, false, false, false⟩⟩,
  ⟨0x05D, (setIL ++ setB), .n, .o1, [⟨.ty, false⟩, ⟨.ty, false⟩, ⟨(.fix .n32), false⟩, ⟨(.fix .n32), false⟩], [.t], ⟨false, 0, false, false, false⟩⟩,
  ⟨0x05E, (setIL ++ setB), .n, .e0, [⟨.ty, false⟩], [.t], ⟨false, 0, false, false, false⟩⟩,
  ⟨0x05F, (setIL ++ setB), .n, .e0, [⟨.ty, false⟩], [.t], ⟨false, 0, false, false, false⟩⟩,
  ⟨0x060, (setIL ++ setB), .n, .e0, [⟨.ty, false⟩], [.t], ⟨false, 0, false, false, false⟩⟩,
  ⟨0x061, (setIL ++ setB), .n, .e0, [⟨.ty, false⟩], [.t], ⟨false, 0, false, false, false⟩⟩]

/-- Table 14.5. -/
def rowsInteger2 : List OpRow := [
  ⟨0x062, (setIL ++ setB), .n, .e0, [⟨.ty, false⟩], [.t], ⟨false, 0, false, false, false⟩⟩,
  ⟨0x068, setIW, .cp, .e0, [⟨.ty, false⟩, ⟨.ty, false⟩], [.fix .p], ⟨false, 0, false, false, false⟩⟩,
  ⟨0x069, setV, .n, .e0, [⟨(.fix .p), false⟩, ⟨.ty, false⟩, ⟨.ty, false⟩], [.t], ⟨false, 0, false, false, false⟩⟩,
  ⟨0x06A, setI, .ar, .e0, [⟨.srcI, false⟩], [.t], ⟨false, 0, false, true, false⟩⟩,
  ⟨0x06B, [.i64, .n64], .n, .e0, [⟨.ty, false⟩, ⟨.idx, false⟩, ⟨(.imm 7), false⟩], [.t], ⟨false, 0, false, false, false⟩⟩,
  ⟨0x06C, setV, .n, .e0, [⟨.ty, false⟩], [.t], ⟨false, 0, false, false, false⟩⟩]

/-- Table 14.6. -/
def rowsFloat : List OpRow := [
  ⟨0x0C0, setFP, .ar, .e0, [⟨.ty, false⟩, ⟨.ty, false⟩], [.t], ⟨false, 0, true, true, true⟩⟩,
  ⟨0x0C1, setFP, .ar, .e0, [⟨.ty, false⟩, ⟨.ty, false⟩], [.t], ⟨false, 0, true, true, true⟩⟩,
  ⟨0x0C2, setFP, .ar, .e0, [⟨.ty, false⟩, ⟨.ty, false⟩], [.t], ⟨false, 0, true, true, true⟩⟩,
  ⟨0x0C3, setF, .ar, .e0, [⟨.ty, false⟩, ⟨.ty, false⟩], [.t], ⟨false, 0, true, true, true⟩⟩,
  ⟨0x0C4, setFP, .ar, .e0, [⟨.ty, false⟩, ⟨.ty, false⟩, ⟨.ty, false⟩], [.t], ⟨false, 0, true, true, true⟩⟩,
  ⟨0x0C5, setF, .ar, .e0, [⟨.ty, false⟩], [.t], ⟨false, 0, true, false, true⟩⟩,
  ⟨0x0C6, setF, .ar, .e0, [⟨.ty, false⟩], [.t], ⟨false, 0, true, true, true⟩⟩,
  ⟨0x0C7, setF, .ar, .e0, [⟨.ty, false⟩], [.t], ⟨false, 0, true, false, true⟩⟩,
  ⟨0x0C8, setF, .ar, .e0, [⟨.ty, false⟩], [.t], ⟨false, 0, true, true, true⟩⟩,
  ⟨0x0C9, setF, .ar, .e0, [⟨.ty, false⟩], [.t], ⟨false, 0, true, false, true⟩⟩,
  ⟨0x0CA, setF, .ar, .e0, [⟨.ty, false⟩], [.t], ⟨false, 0, true, false, true⟩⟩,
  ⟨0x0CB, setF, .ar, .e0, [⟨.ty, false⟩], [.t], ⟨false, 0, true, false, true⟩⟩,
  ⟨0x0CC, setF, .ar, .e0, [⟨.ty, false⟩, ⟨(.fix .i32), false⟩], [.t], ⟨false, 0, true, true, true⟩⟩,
  ⟨0x0CD, setF, .ar, .e0, [⟨.ty, false⟩], [.t, .fix .i32], ⟨false, 0, false, false, true⟩⟩,
  ⟨0x0CE, setF, .ar, .e0, [⟨.ty, false⟩], [.t], ⟨false, 0, true, false, true⟩⟩,
  ⟨0x0D0, setFP, .ar, .e0, [⟨.ty, false⟩, ⟨.ty, false⟩], [.t], ⟨false, 0, false, false, true⟩⟩,
  ⟨0x0D1, setFP, .ar, .e0, [⟨.ty, false⟩, ⟨.ty, false⟩], [.t], ⟨false, 0, false, false, true⟩⟩,
  ⟨0x0D2, setF, .ar, .e0, [⟨.ty, false⟩, ⟨.ty, false⟩, ⟨.ty, false⟩], [.t], ⟨false, 0, false, false, true⟩⟩,
  ⟨0x0D3, setFP, .n, .e0, [⟨.ty, false⟩], [.t], ⟨false, 0, false, false, false⟩⟩,
  ⟨0x0D4, setFP, .n, .e0, [⟨.ty, false⟩], [.t], ⟨false, 0, false, false, false⟩⟩,
  ⟨0x0D5, setFP, .n, .e0, [⟨.ty, false⟩, ⟨.ty, false⟩], [.t], ⟨false, 0, false, false, false⟩⟩,
  ⟨0x0D6, setF, .cp, .e0, [⟨.ty, false⟩, ⟨.ty, false⟩], [.fix .p], ⟨false, 0, false, false, false⟩⟩,
  ⟨0x0D7, setF, .n, .e0, [⟨.ty, false⟩], [.fix .n32], ⟨false, 0, false, false, false⟩⟩,
  ⟨0x0E0, (setF ++ setNF ++ setI ++ [.e8m0]), .ar, .e0, [⟨.srcC, false⟩], [.t], ⟨false, 0, true, true, true⟩⟩,
  ⟨0x0E1, (setF ++ setNF), .ar, .e0, [⟨.srcE, false⟩], [.t, .src], ⟨false, 1, true, true, true⟩⟩,
  ⟨0x0F0, setV, .n, .e0, [⟨.ty, false⟩, ⟨(.fix .n32), false⟩], [.t], ⟨false, 0, false, false, false⟩⟩,
  ⟨0x0F1, setV, .n, .e0, [⟨.ty, false⟩, ⟨(.fix .n32), false⟩], [.t], ⟨false, 0, false, false, false⟩⟩,
  ⟨0x0F2, setV, .n, .e0, [⟨.ty, false⟩, ⟨(.fix .n32), false⟩], [.t], ⟨false, 0, false, false, false⟩⟩,
  ⟨0x0F3, setV, .n, .e0, [⟨.ty, false⟩, ⟨(.fix .n32), false⟩], [.t], ⟨false, 0, false, false, false⟩⟩,
  ⟨0x0F4, setV, .n, .e0, [⟨.ty, false⟩, ⟨(.fix .n32), false⟩], [.t], ⟨false, 0, false, false, false⟩⟩]

/-- Table 14.6. -/
def rowsFloat2 : List OpRow := [
  ⟨0x0F5, [.b64], .n, .e0, [⟨(.fix .p), false⟩], [.t], ⟨false, 0, false, false, false⟩⟩,
  ⟨0x0F6, [.b32, .b64], .n, .e0, [⟨.ty, false⟩, ⟨(.fix .n32), true⟩], [.fix .n32], ⟨false, 0, false, false, false⟩⟩,
  ⟨0x0F7, [.p], .n, .e0, [], [.t], ⟨false, 0, false, false, false⟩⟩,
  ⟨0x100, (setF ++ setIW), .ar, .e0, [⟨.ty, false⟩], [.t], ⟨false, 0, true, true, true⟩⟩,
  ⟨0x101, (setF ++ setIW), .ar, .e0, [⟨.ty, false⟩], [.t], ⟨false, 0, false, false, true⟩⟩,
  ⟨0x102, (setF ++ setIW), .ar, .e0, [⟨.ty, false⟩], [.t], ⟨false, 0, false, false, true⟩⟩,
  ⟨0x103, (setIW ++ setB), .n, .e0, [⟨.ty, false⟩], [.t], ⟨false, 0, false, false, false⟩⟩,
  ⟨0x104, (setIW ++ setB), .n, .e0, [⟨.ty, false⟩], [.t], ⟨false, 0, false, false, false⟩⟩,
  ⟨0x110, [.e4m3, .e5m2, .i8, .f16, .bf16], .n, .e0, [⟨.cont, false⟩], [.cont], ⟨false, 2, false, false, false⟩⟩,
  ⟨0x111, [.b64], .n, .e0, [⟨.w64, false⟩, ⟨.w64, false⟩], [.t], ⟨false, 1, false, false, false⟩⟩]

/-- Table 14.7. -/
def rowsMemory : List OpRow := [
  ⟨0x140, setM, .ord, .e0, [⟨(.fix .n64), false⟩, ⟨(.fix .i64), true⟩], [.t], ⟨false, 0, false, false, false⟩⟩,
  ⟨0x141, setM, .ord, .e0, [⟨(.fix .n64), false⟩, ⟨.ty, false⟩, ⟨(.fix .i64), true⟩], [], ⟨false, 0, false, false, false⟩⟩,
  ⟨0x142, setM, .n, .e0, [⟨(.fix .n32), false⟩, ⟨(.fix .i32), true⟩], [.t], ⟨false, 0, false, false, false⟩⟩,
  ⟨0x143, setM, .n, .e0, [⟨(.fix .n32), false⟩, ⟨.ty, false⟩, ⟨(.fix .i32), true⟩], [], ⟨false, 0, false, false, false⟩⟩,
  ⟨0x144, setU, .n, .e0, [⟨(.fix .n64), false⟩, ⟨(.imm 1), false⟩], [], ⟨false, 0, false, false, false⟩⟩,
  ⟨0x145, setU, .n, .e0, [⟨(.fix .n64), false⟩, ⟨(.imm 1), false⟩], [], ⟨false, 0, false, false, false⟩⟩,
  ⟨0x150, [.h], .n, .e0, [⟨(.fix .n64), false⟩], [.t], ⟨false, 0, false, false, false⟩⟩,
  ⟨0x151, setU, .n, .e0, [⟨(.fix .h), false⟩], [], ⟨false, 0, false, false, false⟩⟩,
  ⟨0x152, setM, .ord, .o1, [⟨(.fix .h), false⟩, ⟨(.fix .i64), false⟩, ⟨(.fix .i64), true⟩, ⟨(.fix .i64), true⟩, ⟨(.fix .i64), true⟩, ⟨(.fix .i64), true⟩, ⟨(.fix .i64), true⟩], [.t], ⟨false, 0, false, false, false⟩⟩,
  ⟨0x153, setM, .ord, .o2, [⟨(.fix .h), false⟩, ⟨.ty, false⟩, ⟨(.fix .i64), false⟩, ⟨(.fix .i64), true⟩, ⟨(.fix .i64), true⟩, ⟨(.fix .i64), true⟩, ⟨(.fix .i64), true⟩, ⟨(.fix .i64), true⟩], [], ⟨false, 0, false, false, false⟩⟩,
  ⟨0x154, [.n64], .n, .e0, [⟨(.fix .h), false⟩, ⟨(.imm 24), false⟩], [.t], ⟨false, 0, false, false, false⟩⟩,
  ⟨0x155, setU, .n, .o1, [⟨(.fix .h), false⟩, ⟨(.fix .n32), false⟩, ⟨(.fix .n64), false⟩, ⟨(.fix .n64), false⟩, ⟨(.fix .n64), false⟩, ⟨(.fix .n32), false⟩], [], ⟨false, 0, false, false, false⟩⟩,
  ⟨0x156, [.n64], .n, .o1, [⟨(.fix .h), false⟩, ⟨(.fix .i64), false⟩, ⟨(.fix .i64), true⟩, ⟨(.fix .i64), true⟩, ⟨(.fix .i64), true⟩, ⟨(.fix .i64), true⟩, ⟨(.fix .i64), true⟩], [.t], ⟨false, 0, false, false, false⟩⟩,
  ⟨0x157, setU, .n, .o1, [⟨(.fix .h), false⟩, ⟨(.fix .i64), false⟩, ⟨(.fix .i64), true⟩, ⟨(.fix .i64), true⟩, ⟨(.fix .i64), true⟩, ⟨(.fix .i64), true⟩, ⟨(.fix .i64), true⟩], [], ⟨false, 0, false, false, false⟩⟩,
  ⟨0x160, setU, .n, .o1, [⟨(.fix .n64), false⟩, ⟨(.fix .n64), false⟩, ⟨(.fix .n64), false⟩, ⟨(.fix .n64), false⟩, ⟨(.fix .n32), false⟩, ⟨(.imm 3), false⟩], [], ⟨false, 0, false, false, false⟩⟩,
  ⟨0x161, setU, .n, .o2, [⟨(.fix .h), false⟩, ⟨(.fix .n32), false⟩, ⟨(.imm 1), false⟩, ⟨(.fix .i64), false⟩, ⟨(.fix .i64), false⟩, ⟨(.fix .i64), false⟩, ⟨(.fix .i64), false⟩, ⟨(.fix .n32), false⟩, ⟨(.fix .n32), false⟩, ⟨(.fix .n64), false⟩, ⟨(.fix .n32), false⟩], [], ⟨false, 0, false, false, false⟩⟩,
  ⟨0x162, setU, .n, .e0, [⟨(.imm 3), false⟩, ⟨(.fix .n32), false⟩], [], ⟨false, 0, false, false, false⟩⟩,
  ⟨0x163, setU, .n, .e0, [⟨(.imm 3), false⟩], [], ⟨false, 0, false, false, false⟩⟩,
  ⟨0x164, [.n32], .n, .e0, [⟨(.imm 3), false⟩], [.t], ⟨false, 0, false, false, false⟩⟩,
  ⟨0x165, setU, .n, .o1, [⟨(.fix .n32), false⟩, ⟨(.fix .n32), false⟩, ⟨(.fix .n32), false⟩, ⟨(.fix .n64), false⟩, ⟨(.imm 12), false⟩, ⟨(.fix .n64), false⟩, ⟨(.fix .n32), false⟩], [], ⟨false, 0, false, false, false⟩⟩,
  ⟨0x166, setU, .n, .o1, [⟨(.fix .n32), false⟩, ⟨(.fix .n32), false⟩, ⟨(.fix .n32), false⟩, ⟨(.fix .h), false⟩, ⟨.imm08, false⟩, ⟨(.fix .n64), false⟩, ⟨(.fix .n32), false⟩], [], ⟨false, 0, false, false, false⟩⟩,
  ⟨0x170, [.n64], .n, .e0, [], [.t], ⟨false, 0, false, false, false⟩⟩,
  ⟨0x171, setU, .n, .e0, [⟨(.fix .n64), false⟩], [], ⟨false, 0, false, false, false⟩⟩,
  ⟨0x172, setU, .n, .e0, [⟨(.fix .n64), false⟩, ⟨(.fix .n64), false⟩], [], ⟨false, 0, false, false, false⟩⟩,
  ⟨0x173, setU, .n, .o1, [⟨(.fix .n32), false⟩, ⟨(.fix .n32), false⟩, ⟨(.fix .b64), false⟩, ⟨(.fix .n64), true⟩, ⟨(.fix .n32), true⟩], [], ⟨false, 0, false, false, false⟩⟩]

/-- Table 14.8. -/
def rowsMatrix : List OpRow := [
  ⟨0x1C0, setU, .n, .o1, [⟨(.imm 5), false⟩, ⟨(.fix .n32), false⟩, ⟨(.fix .n32), false⟩, ⟨(.fix .n32), false⟩], [], ⟨false, 0, false, false, false⟩⟩,
  ⟨0x1C1, [.n32], .n, .e0, [⟨(.imm 5), false⟩], [.t, .t], ⟨false, 0, false, false, false⟩⟩,
  ⟨0x1C8, (setF ++ setNF), .mm, .l1, [], [], ⟨false, 0, false, false, false⟩⟩,
  ⟨0x1C9, setU, .mm, .l1, [], [], ⟨false, 0, false, false, false⟩⟩,
  ⟨0x1CA, (setF ++ setNF), .mm, .l1, [], [], ⟨false, 0, false, false, false⟩⟩,
  ⟨0x1CB, (setF ++ setNF), .mm, .lo, [⟨(.fix .h), false⟩, ⟨(.fix .n64), false⟩, ⟨(.fix .n64), false⟩], [], ⟨false, 0, false, false, false⟩⟩,
  ⟨0x1CC, (setF ++ setNF), .ar, .e0, [⟨(.fix .n32), false⟩, ⟨(.imm 7), false⟩, ⟨(.imm 1), false⟩], [], ⟨false, 0, true, true, true⟩⟩,
  ⟨0x1D0, [.b32], .n, .e0, [⟨(.imm 7), false⟩, ⟨(.fix .n32), false⟩], [], ⟨false, 0, false, false, false⟩⟩,
  ⟨0x1D1, [.b32], .n, .e0, [⟨(.imm 7), false⟩, ⟨(.fix .n32), false⟩], [], ⟨false, 0, false, false, false⟩⟩,
  ⟨0x1D2, [.b32], .n, .e0, [⟨(.imm 7), false⟩], [], ⟨false, 0, false, false, false⟩⟩,
  ⟨0x1D3, [.b32], .n, .e0, [⟨(.imm 7), false⟩, ⟨(.imm 7), false⟩], [], ⟨false, 0, false, false, false⟩⟩,
  ⟨0x1D8, [.b32], .n, .e0, [⟨(.imm 511), false⟩, ⟨(.fix .n32), true⟩, ⟨(.fix .n32), false⟩], [], ⟨false, 0, false, false, false⟩⟩,
  ⟨0x1D9, [.b32], .n, .e0, [⟨(.imm 511), false⟩, ⟨(.fix .n32), true⟩, ⟨(.fix .n32), false⟩], [], ⟨false, 0, false, false, false⟩⟩,
  ⟨0x1DA, [.b32], .n, .e0, [⟨(.imm 511), false⟩, ⟨(.fix .n32), true⟩], [], ⟨false, 0, false, false, false⟩⟩,
  ⟨0x1DB, [.b32], .n, .e0, [⟨(.imm 511), false⟩, ⟨(.fix .n32), true⟩], [], ⟨false, 0, false, false, false⟩⟩,
  ⟨0x1DC, [.f32, .f16, .bf16, .i32, .n32], .ar, .e0, [⟨(.imm 511), false⟩, ⟨(.fix .n32), true⟩], [.t], ⟨false, 0, true, true, true⟩⟩,
  ⟨0x1DD, [.f32, .f16, .bf16, .i32, .n32], .ar, .e0, [⟨(.imm 511), false⟩, ⟨(.fix .n32), true⟩], [.t], ⟨false, 0, true, true, true⟩⟩,
  ⟨0x1DE, [.b32, .f32, .i32, .n32], .n, .e0, [⟨(.imm 511), false⟩, ⟨(.fix .n32), true⟩], [.t], ⟨false, 0, false, false, false⟩⟩,
  ⟨0x1DF, [.b32, .f32, .i32, .n32], .n, .e0, [⟨(.imm 511), false⟩, ⟨(.fix .n32), true⟩], [.t], ⟨false, 0, false, false, false⟩⟩,
  ⟨0x1E0, [.b32, .f32, .i32, .n32], .n, .e0, [⟨(.imm 511), false⟩, ⟨(.fix .n32), true⟩, ⟨.ty, false⟩], [], ⟨false, 0, false, false, false⟩⟩,
  ⟨0x1E1, [.b32, .f32, .i32, .n32], .n, .e0, [⟨(.imm 511), false⟩, ⟨(.fix .n32), true⟩, ⟨.ty, false⟩], [], ⟨false, 0, false, false, false⟩⟩,
  ⟨0x1F0, [.i32, .n32], .ar, .e0, [⟨(.fix .b32), false⟩, ⟨(.fix .b32), false⟩, ⟨.ty, false⟩], [.t], ⟨false, 0, false, true, false⟩⟩,
  ⟨0x1F1, [.i32, .n32], .ar, .e0, [⟨(.fix .b32), false⟩, ⟨(.fix .b32), false⟩, ⟨.ty, false⟩], [.t], ⟨false, 0, false, true, false⟩⟩,
  ⟨0x1F2, [.f32], .ar, .e0, [⟨.pair, false⟩, ⟨.pair, false⟩, ⟨(.fix .f32), false⟩], [.t], ⟨false, 0, true, true, true⟩⟩,
  ⟨0x1F3, [.b32], .ar, .e0, [⟨(.fix .b32), false⟩, ⟨(.fix .f32), false⟩, ⟨.psel, false⟩], [.t], ⟨false, 0, true, true, true⟩⟩,
  ⟨0x1F4, [.b32], .ar, .e0, [⟨(.fix .b32), false⟩, ⟨.psel, false⟩], [.unpack], ⟨false, 0, false, false, true⟩⟩]

/-- Table 14.9. -/
def rowsSync : List OpRow := [
  ⟨0x240, setIL, .oa, .e0, [⟨(.fix .n64), false⟩, ⟨.ty, false⟩], [.t], ⟨false, 0, false, false, false⟩⟩,
  ⟨0x241, setIL, .oa, .e0, [⟨(.fix .n64), false⟩, ⟨.ty, false⟩], [.t], ⟨false, 0, false, false, false⟩⟩,
  ⟨0x242, setIL, .oa, .e0, [⟨(.fix .n64), false⟩, ⟨.ty, false⟩], [.t], ⟨false, 0, false, false, false⟩⟩,
  ⟨0x243, setIL, .oa, .e0, [⟨(.fix .n64), false⟩, ⟨.ty, false⟩], [.t], ⟨false, 0, false, false, false⟩⟩,
  ⟨0x244, setIL, .oa, .e0, [⟨(.fix .n64), false⟩, ⟨.ty, false⟩], [.t], ⟨false, 0, false, false, false⟩⟩,
  ⟨0x245, setIL, .oa, .e0, [⟨(.fix .n64), false⟩, ⟨.ty, false⟩], [.t], ⟨false, 0, false, false, false⟩⟩,
  ⟨0x246, setIL, .oa, .e0, [⟨(.fix .n64), false⟩, ⟨.ty, false⟩], [.t], ⟨false, 0, false, false, false⟩⟩,
  ⟨0x247, setIL, .oa, .e0, [⟨(.fix .n64), false⟩, ⟨.ty, false⟩, ⟨.ty, false⟩], [.t], ⟨false, 0, false, false, false⟩⟩,
  ⟨0x248, setAF, .oa, .e0, [⟨(.fix .n64), false⟩, ⟨.ty, false⟩], [.t], ⟨false, 0, false, false, false⟩⟩,
  ⟨0x249, setAF, .oa, .e0, [⟨(.fix .n64), false⟩, ⟨.ty, false⟩], [.t], ⟨false, 0, false, false, false⟩⟩,
  ⟨0x24A, setAF, .oa, .e0, [⟨(.fix .n64), false⟩, ⟨.ty, false⟩], [.t], ⟨false, 0, false, false, false⟩⟩,
  ⟨0x24B, setAF, .oa, .e0, [⟨(.fix .n64), false⟩, ⟨.ty, false⟩], [.t], ⟨false, 0, false, false, false⟩⟩,
  ⟨0x24C, setAF, .oa, .e0, [⟨(.fix .n64), false⟩, ⟨.ty, false⟩], [.t], ⟨false, 0, false, false, false⟩⟩,
  ⟨0x24D, setAF, .oa, .e0, [⟨(.fix .n64), false⟩, ⟨.ty, false⟩], [.t], ⟨false, 0, false, false, false⟩⟩,
  ⟨0x24E, setAF, .oa, .e0, [⟨(.fix .n64), false⟩, ⟨.ty, false⟩], [.t], ⟨false, 0, false, false, false⟩⟩,
  ⟨0x24F, [.b128], .oa, .e0, [⟨(.fix .n64), false⟩, ⟨.ty, false⟩, ⟨.ty, false⟩], [.t], ⟨false, 0, false, false, false⟩⟩,
  ⟨0x260, setU, .n, .e0, [], [], ⟨false, 0, false, false, false⟩⟩,
  ⟨0x261, [.b64], .n, .e0, [], [.t], ⟨false, 0, false, false, false⟩⟩,
  ⟨0x262, setU, .n, .e0, [], [], ⟨false, 0, false, false, false⟩⟩,
  ⟨0x263, [.b64], .n, .e0, [], [.t], ⟨false, 0, false, false, false⟩⟩,
  ⟨0x264, [.n32], .n, .e0, [], [.t], ⟨false, 0, false, false, false⟩⟩,
  ⟨0x265, [.n32], .n, .e0, [], [.t], ⟨false, 0, false, false, false⟩⟩,
  ⟨0x266, [.n32], .n, .e0, [], [.t], ⟨false, 0, false, false, false⟩⟩,
  ⟨0x270, setU, .ord, .e0, [], [], ⟨false, 0, false, false, false⟩⟩,
  ⟨0x271, setU, .n, .e0, [⟨(.fix .n32), true⟩], [], ⟨false, 0, false, false, false⟩⟩,
  ⟨0x272, setU, .n, .e0, [⟨(.fix .n32), true⟩], [], ⟨false, 0, false, false, false⟩⟩,
  ⟨0x273, setU, .n, .e0, [], [], ⟨false, 0, false, false, false⟩⟩,
  ⟨0x274, [.p], .n, .e0, [], [.t], ⟨false, 0, false, false, false⟩⟩,
  ⟨0x275, [.n32], .n, .e0, [], [.t], ⟨false, 0, false, false, false⟩⟩,
  ⟨0x276, [.n64], .n, .e0, [], [.t], ⟨false, 0, false, false, false⟩⟩]

/-- Table 14.9. -/
def rowsSync2 : List OpRow := [
  ⟨0x280, [.b32, .b64], .n, .e0, [⟨(.imm 15), false⟩, ⟨.ty, false⟩], [], ⟨false, 0, false, false, false⟩⟩,
  ⟨0x281, [.b32, .b64], .n, .e0, [⟨(.imm 15), false⟩], [.t], ⟨false, 0, false, false, false⟩⟩,
  ⟨0x282, [.n32], .n, .e0, [⟨(.imm 15), false⟩], [.t], ⟨false, 0, false, false, false⟩⟩,
  ⟨0x283, [.n32], .n, .e0, [⟨(.imm 15), false⟩], [.t], ⟨false, 0, false, false, false⟩⟩,
  ⟨0x290, setU, .n, .e0, [⟨(.fix .n64), false⟩, ⟨(.fix .n64), false⟩], [], ⟨false, 0, false, false, false⟩⟩,
  ⟨0x291, setU, .n, .e0, [], [], ⟨false, 0, false, false, false⟩⟩,
  ⟨0x292, setU, .n, .e0, [⟨(.fix .n64), false⟩, ⟨(.fix .n64), false⟩], [], ⟨false, 0, false, false, false⟩⟩,
  ⟨0x2A0, [.b64], .n, .e0, [⟨(.imm 2047), false⟩, ⟨(.fix .n32), true⟩], [.t], ⟨false, 0, false, false, false⟩⟩,
  ⟨0x2A1, [.b64], .n, .e0, [⟨(.imm 2047), false⟩, ⟨(.fix .n32), false⟩, ⟨(.fix .b64), false⟩], [], ⟨false, 0, false, false, false⟩⟩,
  ⟨0x2A2, [.n64], .n, .e0, [], [.t], ⟨false, 0, false, false, false⟩⟩,
  ⟨0x2A3, [.n64], .n, .e0, [⟨(.fix .n64), false⟩], [], ⟨false, 0, false, false, false⟩⟩,
  ⟨0x2A4, [.n64], .n, .e0, [], [], ⟨false, 0, false, false, false⟩⟩,
  ⟨0x2A5, [.n64], .n, .e0, [⟨(.imm 2047), false⟩], [], ⟨false, 0, false, false, false⟩⟩,
  ⟨0x2B0, setU, .n, .e0, [⟨(.imm 2047), false⟩], [], ⟨true, 0, false, false, false⟩⟩,
  ⟨0x2B1, setU, .n, .e0, [⟨(.imm 2047), false⟩], [], ⟨false, 0, false, false, false⟩⟩,
  ⟨0x2B2, setU, .n, .e0, [⟨(.fix .p), false⟩, ⟨(.imm 2047), false⟩], [], ⟨false, 0, false, false, false⟩⟩]

/-- The Laold opcode maps (R302); every other opcode is reserved (R298). -/
def opTable : List OpRow :=
  rowsControl ++ rowsInteger ++ rowsInteger2 ++ rowsFloat ++ rowsFloat2 ++ rowsMemory ++ rowsMatrix ++ rowsSync ++ rowsSync2

/-- The row of an opcode. -/
def opRow (op : Nat) : Option OpRow := opTable.find? (fun r => r.op == op)

/-! ### Instructions and their generic form -/

/-- The generic form of a Laold instruction; events and native-only words have none. -/
def Instr.toRaw : Instr → Option Raw
  | .nop w => some ⟨0x000, w, .none⟩
  | .br w t => some ⟨0x001, w, (.target t)⟩
  | .brc w rc tt nt => some ⟨0x002, w, (.c2 rc tt nt)⟩
  | .brsw w rc d cs => some ⟨0x003, w, (.sw rc d cs)⟩
  | .call w t => some ⟨0x004, w, (.target t)⟩
  | .calli w t => some ⟨0x005, w, (.target t)⟩
  | .ret w xs => some ⟨0x006, w, (.ops xs)⟩
  | .retire w => some ⟨0x007, w, .none⟩
  | .itemidx w => some ⟨0x010, w, .none⟩
  | .coord w => some ⟨0x011, w, .none⟩
  | .laneid w => some ⟨0x012, w, .none⟩
  | .groupid w => some ⟨0x013, w, .none⟩
  | .gwidth w => some ⟨0x014, w, .none⟩
  | .nitems w => some ⟨0x015, w, .none⟩
  | .dimext w => some ⟨0x016, w, .none⟩
  | .domid w => some ⟨0x017, w, .none⟩
  | .domsize w => some ⟨0x018, w, .none⟩
  | .coreid w => some ⟨0x019, w, .none⟩
  | .clusterid w => some ⟨0x01A, w, .none⟩
  | .dieid w => some ⟨0x01B, w, .none⟩
  | .launchid w => some ⟨0x01C, w, .none⟩
  | .actmask w => some ⟨0x01D, w, .none⟩
  | .add w => some ⟨0x040, w, .none⟩
  | .sub w => some ⟨0x041, w, .none⟩
  | .mul w => some ⟨0x042, w, .none⟩
  | .mulhi w => some ⟨0x043, w, .none⟩
  | .mad w => some ⟨0x044, w, .none⟩
  | .div w => some ⟨0x045, w, .none⟩
  | .rem w => some ⟨0x046, w, .none⟩
  | .neg w => some ⟨0x047, w, .none⟩
  | .abs w => some ⟨0x048, w, .none⟩
  | .min w => some ⟨0x049, w, .none⟩
  | .max w => some ⟨0x04A, w, .none⟩
  | .clamp w => some ⟨0x04B, w, .none⟩
  | .adiff w => some ⟨0x04C, w, .none⟩
  | .addc w => some ⟨0x04D, w, .none⟩
  | .subb w => some ⟨0x04E, w, .none⟩
  | .and w => some ⟨0x050, w, .none⟩
  | .or w => some ⟨0x051, w, .none⟩
  | .xor w => some ⟨0x052, w, .none⟩
  | .not w => some ⟨0x053, w, .none⟩
  | .bfn3 w l => some ⟨0x054, w, (.lit l)⟩
  | .shl w => some ⟨0x058, w, .none⟩
  | .shr w => some ⟨0x059, w, .none⟩
  | .sra w => some ⟨0x05A, w, .none⟩
  | .rotl w => some ⟨0x05B, w, .none⟩
  | .bfe w => some ⟨0x05C, w, .none⟩
  | .bfi w x => some ⟨0x05D, w, (.ops [x])⟩
  | .clz w => some ⟨0x05E, w, .none⟩
  | .ctz w => some ⟨0x05F, w, .none⟩
  | .bcnt w => some ⟨0x060, w, .none⟩
  | .brev w => some ⟨0x061, w, .none⟩
  | .bswap w => some ⟨0x062, w, .none⟩
  | .cmp w => some ⟨0x068, w, .none⟩
  | .sel w => some ⟨0x069, w, .none⟩
  | .cvti w => some ⟨0x06A, w, .none⟩
  | .lea w => some ⟨0x06B, w, .none⟩
  | .mov w => some ⟨0x06C, w, .none⟩
  | .fadd w => some ⟨0x0C0, w, .none⟩
  | .fsub w => some ⟨0x0C1, w, .none⟩
  | .fmul w => some ⟨0x0C2, w, .none⟩
  | .fdiv w => some ⟨0x0C3, w, .none⟩
  | .fma w => some ⟨0x0C4, w, .none⟩
  | .sqrt w => some ⟨0x0C5, w, .none⟩
  | .rcp w => some ⟨0x0C6, w, .none⟩
  | .rsqrt w => some ⟨0x0C7, w, .none⟩
  | .exp2 w => some ⟨0x0C8, w, .none⟩
  | .log2 w => some ⟨0x0C9, w, .none⟩
  | .sin w => some ⟨0x0CA, w, .none⟩
  | .cos w => some ⟨0x0CB, w, .none⟩
  | .ldexp w => some ⟨0x0CC, w, .none⟩
  | .frexp w => some ⟨0x0CD, w, .none⟩
  | .frnd w => some ⟨0x0CE, w, .none⟩
  | .fmin w => some ⟨0x0D0, w, .none⟩
  | .fmax w => some ⟨0x0D1, w, .none⟩
  | .fclamp w => some ⟨0x0D2, w, .none⟩
  | .fabs w => some ⟨0x0D3, w, .none⟩
  | .fneg w => some ⟨0x0D4, w, .none⟩
  | .fsgn w => some ⟨0x0D5, w, .none⟩
  | .fcmp w => some ⟨0x0D6, w, .none⟩
  | .fclass w => some ⟨0x0D7, w, .none⟩
  | .cvt w => some ⟨0x0E0, w, .none⟩
  | .cvtef w => some ⟨0x0E1, w, .none⟩
  | .shfl w => some ⟨0x0F0, w, .none⟩
  | .shflx w => some ⟨0x0F1, w, .none⟩
  | .shfld w => some ⟨0x0F2, w, .none⟩
  | .shflu w => some ⟨0x0F3, w, .none⟩
  | .bcast w => some ⟨0x0F4, w, .none⟩
  | .ballot w => some ⟨0x0F5, w, .none⟩
  | .popc w => some ⟨0x0F6, w, .none⟩
  | .elect w => some ⟨0x0F7, w, .none⟩
  | .redadd w => some ⟨0x100, w, .none⟩
  | .redmin w => some ⟨0x101, w, .none⟩
  | .redmax w => some ⟨0x102, w, .none⟩
  | .redand w => some ⟨0x103, w, .none⟩
  | .redor w => some ⟨0x104, w, .none⟩
  | .sprs w => some ⟨0x110, w, .none⟩
  | .rndk w => some ⟨0x111, w, .none⟩
  | .ldG w => some ⟨0x140, w, .none⟩
  | .stG w => some ⟨0x141, w, .none⟩
  | .ldS w => some ⟨0x142, w, .none⟩
  | .stS w => some ⟨0x143, w, .none⟩
  | .pref w => some ⟨0x144, w, .none⟩
  | .evict w => some ⟨0x145, w, .none⟩
  | .tnseal w => some ⟨0x150, w, .none⟩
  | .tnflush w => some ⟨0x151, w, .none⟩
  | .tnld w x => some ⟨0x152, w, (.ops [x])⟩
  | .tnst w x y => some ⟨0x153, w, (.ops [x, y])⟩
  | .tninfo w => some ⟨0x154, w, .none⟩
  | .tnrelay w x => some ⟨0x155, w, (.ops [x])⟩
  | .tnidx w x => some ⟨0x156, w, (.ops [x])⟩
  | .tnpref w x => some ⟨0x157, w, (.ops [x])⟩
  | .cpy w x => some ⟨0x160, w, (.ops [x])⟩
  | .cpyh w x y => some ⟨0x161, w, (.ops [x, y])⟩
  | .seqset w => some ⟨0x162, w, .none⟩
  | .seqgo w => some ⟨0x163, w, .none⟩
  | .seqstat w => some ⟨0x164, w, .none⟩
  | .gath w x => some ⟨0x165, w, (.ops [x])⟩
  | .gathh w x => some ⟨0x166, w, (.ops [x])⟩
  | .cbatch w => some ⟨0x170, w, .none⟩
  | .cwait w => some ⟨0x171, w, .none⟩
  | .cntwait w => some ⟨0x172, w, .none⟩
  | .spset w x => some ⟨0x173, w, (.ops [x])⟩
  | .ringcfg w x => some ⟨0x1C0, w, (.ops [x])⟩
  | .ringrd w => some ⟨0x1C1, w, .none⟩
  | .mma w l => some ⟨0x1C8, w, (.lit l)⟩
  | .mmab w l => some ⟨0x1C9, w, (.lit l)⟩
  | .mmas w l => some ⟨0x1CA, w, (.lit l)⟩
  | .mmaconv w l x => some ⟨0x1CB, w, (.litOps l x)⟩
  | .mmard w => some ⟨0x1CC, w, .none⟩
  | .tlld w => some ⟨0x1D0, w, .none⟩
  | .tlst w => some ⟨0x1D1, w, .none⟩
  | .tlzero w => some ⟨0x1D2, w, .none⟩
  | .tlmov w => some ⟨0x1D3, w, .none⟩
  | .tlrotr w => some ⟨0x1D8, w, .none⟩
  | .tlrotc w => some ⟨0x1D9, w, .none⟩
  | .tlbcr w => some ⟨0x1DA, w, .none⟩
  | .tlbcc w => some ⟨0x1DB, w, .none⟩
  | .tlredr w => some ⟨0x1DC, w, .none⟩
  | .tlredc w => some ⟨0x1DD, w, .none⟩
  | .tlgetr w => some ⟨0x1DE, w, .none⟩
  | .tlgetc w => some ⟨0x1DF, w, .none⟩
  | .tlputr w => some ⟨0x1E0, w, .none⟩
  | .tlputc w => some ⟨0x1E1, w, .none⟩
  | .dp4 w => some ⟨0x1F0, w, .none⟩
  | .dp8 w => some ⟨0x1F1, w, .none⟩
  | .dp2 w => some ⟨0x1F2, w, .none⟩
  | .pack w => some ⟨0x1F3, w, .none⟩
  | .unpack w => some ⟨0x1F4, w, .none⟩
  | .amoAdd w => some ⟨0x240, w, .none⟩
  | .amoAnd w => some ⟨0x241, w, .none⟩
  | .amoOr w => some ⟨0x242, w, .none⟩
  | .amoXor w => some ⟨0x243, w, .none⟩
  | .amoMin w => some ⟨0x244, w, .none⟩
  | .amoMax w => some ⟨0x245, w, .none⟩
  | .amoSwap w => some ⟨0x246, w, .none⟩
  | .amoCas w => some ⟨0x247, w, .none⟩
  | .amoFaddRn w => some ⟨0x248, w, .none⟩
  | .amoFaddRz w => some ⟨0x249, w, .none⟩
  | .amoFaddRu w => some ⟨0x24A, w, .none⟩
  | .amoFaddRd w => some ⟨0x24B, w, .none⟩
  | .amoFaddX w => some ⟨0x24C, w, .none⟩
  | .amoFmin w => some ⟨0x24D, w, .none⟩
  | .amoFmax w => some ⟨0x24E, w, .none⟩
  | .cas128 w => some ⟨0x24F, w, .none⟩
  | .txbeg w => some ⟨0x260, w, .none⟩
  | .txend w => some ⟨0x261, w, .none⟩
  | .txabort w => some ⟨0x262, w, .none⟩
  | .txmask w => some ⟨0x263, w, .none⟩
  | .txcause w => some ⟨0x264, w, .none⟩
  | .txdepth w => some ⟨0x265, w, .none⟩
  | .txserial w => some ⟨0x266, w, .none⟩
  | .fence w => some ⟨0x270, w, .none⟩
  | .barr w => some ⟨0x271, w, .none⟩
  | .bararr w => some ⟨0x272, w, .none⟩
  | .barwait w => some ⟨0x273, w, .none⟩
  | .bartest w => some ⟨0x274, w, .none⟩
  | .barphase w => some ⟨0x275, w, .none⟩
  | .dmember w => some ⟨0x276, w, .none⟩
  | .qpush w => some ⟨0x280, w, .none⟩
  | .qpop w => some ⟨0x281, w, .none⟩
  | .qcount w => some ⟨0x282, w, .none⟩
  | .qspace w => some ⟨0x283, w, .none⟩
  | .icinv w => some ⟨0x290, w, .none⟩
  | .fbar w => some ⟨0x291, w, .none⟩
  | .l1inv w => some ⟨0x292, w, .none⟩
  | .rdctl w => some ⟨0x2A0, w, .none⟩
  | .wrctl w => some ⟨0x2A1, w, .none⟩
  | .rdclk w => some ⟨0x2A2, w, .none⟩
  | .nap w => some ⟨0x2A3, w, .none⟩
  | .yield w => some ⟨0x2A4, w, .none⟩
  | .hint w => some ⟨0x2A5, w, .none⟩
  | .trap w => some ⟨0x2B0, w, .none⟩
  | .brk w => some ⟨0x2B1, w, .none⟩
  | .chk w => some ⟨0x2B2, w, .none⟩
  | _ => none

def of0 (x : Ext) (i : Instr) : Option Instr := match x with | .none => some i | _ => none
def ofO1 (x : Ext) (i : X4 → Instr) : Option Instr := match x with | .ops [x] => some (i x) | _ => none
def ofO2 (x : Ext) (i : X4 → X4 → Instr) : Option Instr := match x with | .ops [x, y] => some (i x y) | _ => none
def ofL1 (x : Ext) (i : Nat → Instr) : Option Instr := match x with | .lit l => some (i l) | _ => none
def ofLO (x : Ext) (i : Nat → X4 → Instr) : Option Instr := match x with | .litOps l x => some (i l x) | _ => none
def ofT (x : Ext) (i : Target → Instr) : Option Instr := match x with | .target t => some (i t) | _ => none
def ofC2 (x : Ext) (i : Nat → Target → Target → Instr) : Option Instr :=
  match x with | .c2 rc a b => some (i rc a b) | _ => none
def ofSW (x : Ext) (i : Nat → Target → List Target → Instr) : Option Instr :=
  match x with | .sw rc d cs => some (i rc d cs) | _ => none
def ofRT (x : Ext) (i : List X4 → Instr) : Option Instr := match x with | .ops xs => some (i xs) | _ => none

/-- The instruction of an opcode with its main word and extension words. -/
def instrOf (op : Nat) (w : Main) (x : Ext) : Option Instr :=
  match op with
  | 0x000 => of0 x (.nop w)
  | 0x001 => ofT x (.br w)
  | 0x002 => ofC2 x (.brc w)
  | 0x003 => ofSW x (.brsw w)
  | 0x004 => ofT x (.call w)
  | 0x005 => ofT x (.calli w)
  | 0x006 => ofRT x (.ret w)
  | 0x007 => of0 x (.retire w)
  | 0x010 => of0 x (.itemidx w)
  | 0x011 => of0 x (.coord w)
  | 0x012 => of0 x (.laneid w)
  | 0x013 => of0 x (.groupid w)
  | 0x014 => of0 x (.gwidth w)
  | 0x015 => of0 x (.nitems w)
  | 0x016 => of0 x (.dimext w)
  | 0x017 => of0 x (.domid w)
  | 0x018 => of0 x (.domsize w)
  | 0x019 => of0 x (.coreid w)
  | 0x01A => of0 x (.clusterid w)
  | 0x01B => of0 x (.dieid w)
  | 0x01C => of0 x (.launchid w)
  | 0x01D => of0 x (.actmask w)
  | 0x040 => of0 x (.add w)
  | 0x041 => of0 x (.sub w)
  | 0x042 => of0 x (.mul w)
  | 0x043 => of0 x (.mulhi w)
  | 0x044 => of0 x (.mad w)
  | 0x045 => of0 x (.div w)
  | 0x046 => of0 x (.rem w)
  | 0x047 => of0 x (.neg w)
  | 0x048 => of0 x (.abs w)
  | 0x049 => of0 x (.min w)
  | 0x04A => of0 x (.max w)
  | 0x04B => of0 x (.clamp w)
  | 0x04C => of0 x (.adiff w)
  | 0x04D => of0 x (.addc w)
  | 0x04E => of0 x (.subb w)
  | 0x050 => of0 x (.and w)
  | 0x051 => of0 x (.or w)
  | 0x052 => of0 x (.xor w)
  | 0x053 => of0 x (.not w)
  | 0x054 => ofL1 x (.bfn3 w)
  | 0x058 => of0 x (.shl w)
  | 0x059 => of0 x (.shr w)
  | 0x05A => of0 x (.sra w)
  | 0x05B => of0 x (.rotl w)
  | 0x05C => of0 x (.bfe w)
  | 0x05D => ofO1 x (.bfi w)
  | 0x05E => of0 x (.clz w)
  | 0x05F => of0 x (.ctz w)
  | 0x060 => of0 x (.bcnt w)
  | 0x061 => of0 x (.brev w)
  | 0x062 => of0 x (.bswap w)
  | 0x068 => of0 x (.cmp w)
  | 0x069 => of0 x (.sel w)
  | 0x06A => of0 x (.cvti w)
  | 0x06B => of0 x (.lea w)
  | 0x06C => of0 x (.mov w)
  | 0x0C0 => of0 x (.fadd w)
  | 0x0C1 => of0 x (.fsub w)
  | 0x0C2 => of0 x (.fmul w)
  | 0x0C3 => of0 x (.fdiv w)
  | 0x0C4 => of0 x (.fma w)
  | 0x0C5 => of0 x (.sqrt w)
  | 0x0C6 => of0 x (.rcp w)
  | 0x0C7 => of0 x (.rsqrt w)
  | 0x0C8 => of0 x (.exp2 w)
  | 0x0C9 => of0 x (.log2 w)
  | 0x0CA => of0 x (.sin w)
  | 0x0CB => of0 x (.cos w)
  | 0x0CC => of0 x (.ldexp w)
  | 0x0CD => of0 x (.frexp w)
  | 0x0CE => of0 x (.frnd w)
  | 0x0D0 => of0 x (.fmin w)
  | 0x0D1 => of0 x (.fmax w)
  | 0x0D2 => of0 x (.fclamp w)
  | 0x0D3 => of0 x (.fabs w)
  | 0x0D4 => of0 x (.fneg w)
  | 0x0D5 => of0 x (.fsgn w)
  | 0x0D6 => of0 x (.fcmp w)
  | 0x0D7 => of0 x (.fclass w)
  | 0x0E0 => of0 x (.cvt w)
  | 0x0E1 => of0 x (.cvtef w)
  | 0x0F0 => of0 x (.shfl w)
  | 0x0F1 => of0 x (.shflx w)
  | 0x0F2 => of0 x (.shfld w)
  | 0x0F3 => of0 x (.shflu w)
  | 0x0F4 => of0 x (.bcast w)
  | 0x0F5 => of0 x (.ballot w)
  | 0x0F6 => of0 x (.popc w)
  | 0x0F7 => of0 x (.elect w)
  | 0x100 => of0 x (.redadd w)
  | 0x101 => of0 x (.redmin w)
  | 0x102 => of0 x (.redmax w)
  | 0x103 => of0 x (.redand w)
  | 0x104 => of0 x (.redor w)
  | 0x110 => of0 x (.sprs w)
  | 0x111 => of0 x (.rndk w)
  | 0x140 => of0 x (.ldG w)
  | 0x141 => of0 x (.stG w)
  | 0x142 => of0 x (.ldS w)
  | 0x143 => of0 x (.stS w)
  | 0x144 => of0 x (.pref w)
  | 0x145 => of0 x (.evict w)
  | 0x150 => of0 x (.tnseal w)
  | 0x151 => of0 x (.tnflush w)
  | 0x152 => ofO1 x (.tnld w)
  | 0x153 => ofO2 x (.tnst w)
  | 0x154 => of0 x (.tninfo w)
  | 0x155 => ofO1 x (.tnrelay w)
  | 0x156 => ofO1 x (.tnidx w)
  | 0x157 => ofO1 x (.tnpref w)
  | 0x160 => ofO1 x (.cpy w)
  | 0x161 => ofO2 x (.cpyh w)
  | 0x162 => of0 x (.seqset w)
  | 0x163 => of0 x (.seqgo w)
  | 0x164 => of0 x (.seqstat w)
  | 0x165 => ofO1 x (.gath w)
  | 0x166 => ofO1 x (.gathh w)
  | 0x170 => of0 x (.cbatch w)
  | 0x171 => of0 x (.cwait w)
  | 0x172 => of0 x (.cntwait w)
  | 0x173 => ofO1 x (.spset w)
  | 0x1C0 => ofO1 x (.ringcfg w)
  | 0x1C1 => of0 x (.ringrd w)
  | 0x1C8 => ofL1 x (.mma w)
  | 0x1C9 => ofL1 x (.mmab w)
  | 0x1CA => ofL1 x (.mmas w)
  | 0x1CB => ofLO x (.mmaconv w)
  | 0x1CC => of0 x (.mmard w)
  | 0x1D0 => of0 x (.tlld w)
  | 0x1D1 => of0 x (.tlst w)
  | 0x1D2 => of0 x (.tlzero w)
  | 0x1D3 => of0 x (.tlmov w)
  | 0x1D8 => of0 x (.tlrotr w)
  | 0x1D9 => of0 x (.tlrotc w)
  | 0x1DA => of0 x (.tlbcr w)
  | 0x1DB => of0 x (.tlbcc w)
  | 0x1DC => of0 x (.tlredr w)
  | 0x1DD => of0 x (.tlredc w)
  | 0x1DE => of0 x (.tlgetr w)
  | 0x1DF => of0 x (.tlgetc w)
  | 0x1E0 => of0 x (.tlputr w)
  | 0x1E1 => of0 x (.tlputc w)
  | 0x1F0 => of0 x (.dp4 w)
  | 0x1F1 => of0 x (.dp8 w)
  | 0x1F2 => of0 x (.dp2 w)
  | 0x1F3 => of0 x (.pack w)
  | 0x1F4 => of0 x (.unpack w)
  | 0x240 => of0 x (.amoAdd w)
  | 0x241 => of0 x (.amoAnd w)
  | 0x242 => of0 x (.amoOr w)
  | 0x243 => of0 x (.amoXor w)
  | 0x244 => of0 x (.amoMin w)
  | 0x245 => of0 x (.amoMax w)
  | 0x246 => of0 x (.amoSwap w)
  | 0x247 => of0 x (.amoCas w)
  | 0x248 => of0 x (.amoFaddRn w)
  | 0x249 => of0 x (.amoFaddRz w)
  | 0x24A => of0 x (.amoFaddRu w)
  | 0x24B => of0 x (.amoFaddRd w)
  | 0x24C => of0 x (.amoFaddX w)
  | 0x24D => of0 x (.amoFmin w)
  | 0x24E => of0 x (.amoFmax w)
  | 0x24F => of0 x (.cas128 w)
  | 0x260 => of0 x (.txbeg w)
  | 0x261 => of0 x (.txend w)
  | 0x262 => of0 x (.txabort w)
  | 0x263 => of0 x (.txmask w)
  | 0x264 => of0 x (.txcause w)
  | 0x265 => of0 x (.txdepth w)
  | 0x266 => of0 x (.txserial w)
  | 0x270 => of0 x (.fence w)
  | 0x271 => of0 x (.barr w)
  | 0x272 => of0 x (.bararr w)
  | 0x273 => of0 x (.barwait w)
  | 0x274 => of0 x (.bartest w)
  | 0x275 => of0 x (.barphase w)
  | 0x276 => of0 x (.dmember w)
  | 0x280 => of0 x (.qpush w)
  | 0x281 => of0 x (.qpop w)
  | 0x282 => of0 x (.qcount w)
  | 0x283 => of0 x (.qspace w)
  | 0x290 => of0 x (.icinv w)
  | 0x291 => of0 x (.fbar w)
  | 0x292 => of0 x (.l1inv w)
  | 0x2A0 => of0 x (.rdctl w)
  | 0x2A1 => of0 x (.wrctl w)
  | 0x2A2 => of0 x (.rdclk w)
  | 0x2A3 => of0 x (.nap w)
  | 0x2A4 => of0 x (.yield w)
  | 0x2A5 => of0 x (.hint w)
  | 0x2B0 => of0 x (.trap w)
  | 0x2B1 => of0 x (.brk w)
  | 0x2B2 => of0 x (.chk w)
  | _ => none

/-- The instruction of a generic form. -/
def Raw.toInstr (r : Raw) : Option Instr := instrOf r.op r.w r.ext

/-! ### Operands of an instruction -/

def X4.list (x : X4) : List Opnd := [x.a, x.b, x.c, x.d]

/-- The operand places in order: A, B, C, then the extension operands. -/
def Raw.operands (r : Raw) : List Opnd :=
  let m := [r.w.a, r.w.b, r.w.c]
  match r.ext with
  | .ops xs => m ++ xs.flatMap X4.list
  | .litOps _ x => m ++ x.list
  | _ => m

/-- Number of words the extension code of `ret` carries for `n` results. -/
def rtWords (n : Nat) : Nat := if 3 < n then Word.ceilDiv (n - 3) 4 else 0

/-- Operand places of a row: `mmaconv` (code LO) takes its operands from the extension word alone (R378), and `ret`
takes as many results as MOD counts (R315). -/
def Raw.places (row : OpRow) (r : Raw) : List (Option Slot) :=
  match row.ext with
  | .lo => [none, none, none] ++ row.slots.map some
  | .rt => (List.range r.w.mod).map (fun _ => some ⟨.cont, false⟩)
  | _ => row.slots.map some

/-- Format codes that a selector of `pack` and `unpack` may name, with the element width (R396). -/
def selFmt (code : Nat) : Option (Ty × Nat) :=
  match code with
  | 0x01 => some (.i4, 4) | 0x02 => some (.i8, 8) | 0x06 => some (.n4, 4) | 0x07 => some (.n8, 8)
  | 0x0B => some (.f16, 16) | 0x0C => some (.bf16, 16) | 0x0F => some (.e4m3, 8) | 0x10 => some (.e5m2, 8)
  | 0x11 => some (.e3m2, 6) | 0x12 => some (.e2m3, 6) | 0x13 => some (.e2m1, 4) | 0x14 => some (.e8m0, 8)
  | _ => none

/-- A selector of `pack` or `unpack`: element index, format and element width. -/
def selector (v : Int) : Option (Nat × Ty × Nat) :=
  if v < 0 ∨ 255 < v then none
  else
    let n := v.toNat
    match selFmt (n / 8) with
    | none => none
    | some (t, b) =>
      let per := if b = 4 then 8 else if b = 16 then 2 else 4
      if n % 8 < per then some (n % 8, t, b) else none

/-- An operand that an encoding can hold. -/
def Opnd.encodable : Opnd → Bool
  | .none => true
  | .dist d => decide (1 ≤ d) && decide (d < 4096)
  | .arg k => decide (k < 4096)
  | .imm v => decide (-2048 ≤ v) && decide (v ≤ 2047)
  | .pool k => decide (k < 4096)
  | .reg _ => false

/-- The types an immediate or pool operand of this place may take. -/
def SlotKind.immOk (ty : Ty) : SlotKind → Bool
  | .ty => ty.immOk
  | .fix t => t.immOk
  | .idx => true
  | .cont => true
  | .w64 => true
  | .callee => true
  | _ => false

/-- Whether the place can take a pool operand, and of which width (R282). -/
def SlotKind.poolOk (ty : Ty) (k : Nat) : SlotKind → Bool
  | .ty => ty != .b128 || k % 2 == 0
  | .fix t => t != .b128 || k % 2 == 0
  | .idx => true
  | .cont => true
  | .w64 => true
  | .callee => true
  | .pair => true
  | _ => false

/-- The class of an operand suits its place (rows 5, 6 and 12 as far as the word decides). -/
def Slot.okClass (s : Slot) (ty : Ty) (o : Opnd) : Bool :=
  match o with
  | .none => s.opt
  | .reg _ => false
  | .imm v =>
    match s.kind with
    | .imm max => decide (0 ≤ v) && decide (v ≤ max)
    | .imm08 => decide (v = 0) || decide (v = 8)
    | .psel => (selector v).isSome
    | k => k.immOk ty
  | .pool k => s.kind.poolOk ty k
  | _ =>
    match s.kind with
    | .imm _ => false
    | .imm08 => false
    | .psel => false
    | .callee => false
    | _ => true

/-- Every operand suits its place, and every place beyond the row's holds none (row 8). -/
def placesOk (ty : Ty) : List (Option Slot) → List Opnd → Bool
  | [], os => os.all (fun o => o == .none)
  | _ :: _, [] => false
  | none :: ss, o :: os => (o == .none) && placesOk ty ss os
  | some s :: ss, o :: os => s.okClass ty o && placesOk ty ss os

/-! ### Modifiers -/

/-- Order and scope of R169: [4:3] order, [2:0] scope; `rd` and `wr` say whether the form reads and writes memory,
`atom` that it is a returning atomic. -/
def orderOk (rd wr atom : Bool) (mod : Nat) : Bool :=
  let order := mod / 8 % 4
  let scope := mod % 8
  decide (scope ≤ 5) &&
  (match order with
   | 0 => atom || scope == 0
   | 1 => rd && scope != 0
   | 2 => wr && scope != 0
   | _ => atom && scope != 0)

/-- The result of `mmard` is rounded: its tile holds FP32 (operand C is 0) or FP64 (1), and TYPE is narrower (R392). -/
def mmardRounds (w : Main) : Bool :=
  match w.c with
  | .imm 0 => !(w.ty == .f32 || w.ty == .f64)
  | .imm 1 => w.ty != .f64
  | _ => true

/-- The modifiers an AR form offers for the types the word holds (R218, R330, R347, R392, R396). -/
def offers (row : OpRow) (w : Main) : Bool × Bool × Bool :=
  let f := row.flags
  let intArea := w.ty.isInt && (row.op == 0x100 || row.op == 0x101 || row.op == 0x102 || row.op == 0x1DC || row.op == 0x1DD)
  if intArea then (false, f.sat, false)
  else if row.op = 0x1F3 then
    match w.c with
    | .imm v => (match selector v with | some (_, t, _) => (true, !t.isInt, true) | none => (false, false, false))
    | _ => (false, false, false)
  else if row.op = 0x1F4 then
    match w.b with
    | .imm v => (match selector v with | some (_, t, _) => (false, false, !t.isInt) | none => (false, false, false))
    | _ => (false, false, true)
  else if row.op = 0x1CC then (mmardRounds w, f.sat, f.ftz)
  else if row.op = 0x0E0 ∧ w.ty.isInt then (f.rm, false, f.ftz)
  else (f.rm, f.sat, f.ftz)

/-- MOD obeys the modifier class (Table 14.2). -/
def modOk (row : OpRow) (w : Main) : Bool :=
  let m := w.mod
  match row.mc with
  | .n => m == 0
  | .ct => decide (m < 128)
  | .ar =>
    let (rm, sat, ftz) := offers row w
    decide (m < 16) && (rm || m % 4 == 0) && (ftz || m / 4 % 2 == 0) && (sat || m / 8 % 2 == 0)
  | .cp =>
    decide (m < 128) && decide (m / 16 ≤ 5) && m % 4 == 0 && m / 8 % 2 == 0 && (row.op == 0x0D6 || m / 4 % 2 == 0)
  | .mm => decide (m < 128)
  | .ord =>
    if row.op = 0x270 then decide (1 ≤ m) && decide (m ≤ 5)
    else if row.op = 0x140 then decide (m < 128) && m / 32 % 2 == 0 && orderOk true false false (m % 32)
    else decide (m < 32) && orderOk (row.op == 0x152) (row.op == 0x141 || row.op == 0x153) false m
  | .oa =>
    let ftz := m / 64 % 2 == 1
    let nr := m / 32 % 2 == 1
    let intKind := decide (row.op < 0x248) || row.op == 0x24F
    decide (m < 128) && (!ftz || !(intKind || row.op == 0x24C)) &&
    (!nr || !(row.op == 0x247 || row.op == 0x24F)) && (nr || row.op != 0x24C) &&
    (if nr then decide (m / 8 % 4 = 0 ∨ m / 8 % 4 = 2) else true) && orderOk true true true (m % 32)

/-! ### Extension words -/

def Target.ok (t : Target) : Bool :=
  decide (t.block < 2 ^ 32) && decide (t.args.length < 2 ^ 16) &&
    t.args.all (fun o => o.encodable && o != .none)

/-- The matrix literal of Table 18.2: fields. -/
structure MatLit where
  bfmt : Nat
  tc   : Nat
  td   : Nat
  ns   : Nat
  kb   : Nat
  rb   : Nat
  ra   : Nat
  deriving DecidableEq, Repr

def matLit (l : Nat) : MatLit :=
  ⟨Word.field l 31 27, Word.field l 25 23, Word.field l 22 20, Word.field l 19 16 + 1, Word.field l 15 13 + 1,
    Word.field l 12 10, Word.field l 9 7⟩

/-- The pairs of element types that R379 allows. -/
def matPairOk (op : Nat) (ty : Ty) (bfmt : Nat) : Bool :=
  match op with
  | 0x1C9 => bfmt == 0
  | 0x1CA =>
    ([.e4m3, .e5m2] : List Ty).contains ty && (setNF.map Ty.code).contains bfmt ||
      ([.f16, .bf16] : List Ty).contains ty && bfmt == ty.code
  | _ => if ty.isNF then (setNF.map Ty.code).contains bfmt else bfmt == ty.code

/-- R378 and R379 on a matrix literal. -/
def matLitOk (op : Nat) (w : Main) (l : Nat) : Bool :=
  let m := matLit l
  decide (l < 2 ^ 32) && !Word.bit l 26 && l % 128 == 0 && (w.mod / 16 % 2 == 1 || m.tc == 0) &&
    decide (m.rb ≤ 5) && (if op = 0x1CB then m.ra == 0 else decide (m.ra ≤ 5) && m.ra != m.rb) &&
    matPairOk op w.ty m.bfmt

/-- The extension words suit the row's code (R286, Table 14.3). -/
def extOk (row : OpRow) (r : Raw) : Bool :=
  match row.ext, r.ext with
  | .e0, .none => true
  | .o1, .ops [_] => true
  | .o2, .ops [_, _] => true
  | .l1, .lit l => if row.op = 0x054 then decide (l < 256) else matLitOk row.op r.w l
  | .lo, .litOps l _ => matLitOk row.op r.w l
  | .t, .target t => t.ok
  | .c2, .c2 rc a b => decide (rc < 2 ^ 32) && a.ok && b.ok
  | .sw, .sw rc d cs =>
    decide (rc < 2 ^ 32) && d.ok && cs.all Target.ok && decide (1 ≤ cs.length) && decide (cs.length < 4096)
  | .rt, .ops xs => xs.length == rtWords r.w.mod
  | _, _ => false

/-- Forms whose operands depend on one another: `spset` takes both of cnt and inc or neither (R369). -/
def formOk (r : Raw) : Bool :=
  if r.op = 0x173 then
    match r.ext with
    | .ops [x] => (x.a == .none) == (x.b == .none)
    | _ => false
  else true

/-- An instruction, as far as its own words decide. -/
def rawOk (row : OpRow) (r : Raw) : Bool :=
  row.op == r.op && row.types.contains r.w.ty && r.w.nat.isNone && r.operands.all Opnd.encodable &&
    modOk row r.w && extOk row r && placesOk r.w.ty (r.places row) r.operands && formOk r

/-- The form is an instruction: its opcode is listed and its words obey the row. -/
def Raw.ok (r : Raw) : Bool :=
  match opRow r.op with
  | some row => rawOk row r
  | none => false

end Sys2Proof
end

