-- ==== Sys2Proof/WellFormed.lean ====
section
/-! DEFINITION. Which terms of `Instr` stand for an instruction or an event of the device. -/

namespace Sys2Proof

/-- The native queue field of an opcode with a Laold counterpart (Table 14.10): 0 A, 1 X, 2 S, 3 control; a store has
an A word and an S word. -/
def nativeQueueOk (op q : Nat) : Bool :=
  if op ≤ 0x03F then q == 3
  else if op ≤ 0x13F then q == 1
  else if op ≤ 0x173 then q == 0 || (q == 2 && (op == 0x141 || op == 0x143 || op == 0x153))
  else if op ≤ 0x1E1 then q == 0
  else if op ≤ 0x1F4 then q == 1
  else if op ≤ 0x24F then q == 0
  else q == 3

/-- A register number that Table 12.1 does not reserve, whatever the budget. -/
def nativeRegOk (n : Nat) : Bool := decide (n < 320) || (decide (480 ≤ n) && decide (n ≤ 495)) || n == 511

/-- What a register field of a Chifin word names: nothing (it holds 511), a register, pair or quad of an operand of that many
bits (0 where the word does not decide), or an exit record. -/
inductive NatField where
  | unused
  | reg (bits : Nat) (opt : Bool)
  | exit
  deriving DecidableEq, Repr

/-- Bits of the register operand in a place; an immediate of the counterpart is a 32-bit value in a register, since a native
word has register fields only (20, the W2 body; log 9). -/
def Slot.natBits (ty : Ty) (s : Slot) : Nat :=
  match s.kind with
  | .ty => ty.width
  | .fix t => t.width
  | .w64 => 64
  | .imm _ => 32
  | .imm08 => 32
  | .psel => 32
  | .pair => 32
  | .cont => if ty.width = 8 then 32 else 64
  | _ => 0

def Slot.natField (ty : Ty) : Option Slot → NatField
  | Option.none => .unused
  | some s => .reg (s.natBits ty) s.opt

/-- The opcodes of stores, which are issued as an A word and an S word (R256). -/
def storeOp (op : Nat) : Bool := op == 0x141 || op == 0x143 || op == 0x153

/-- Fields A, B and C of a Chifin word. A transfer names exit records (R266, log 9): `br` and `ret` in A, `brc` in B and C,
`brsw` its default's in B, `call` and `calli` in B. A store's A word leaves B unused and its S word uses B alone (R256). -/
def natFields (row : OpRow) (ty : Ty) (queue : Nat) : List NatField :=
  match row.op with
  | 0x001 => [.exit, .unused, .unused]
  | 0x002 => [.reg 1 false, .exit, .exit]
  | 0x003 => [.reg 32 false, .exit, .unused]
  | 0x004 => [.unused, .exit, .unused]
  | 0x005 => [.reg 32 false, .exit, .unused]
  | 0x006 => [.exit, .unused, .unused]
  | op =>
    let f (i : Nat) : NatField := Slot.natField ty row.slots[i]?
    if storeOp op then (if queue = 2 then [.unused, f 1, .unused] else [f 0, .unused, f 2]) else [f 0, f 1, f 2]

/-- The heads of the load queues. -/
def natHead (n : Nat) : Bool := decide (480 ≤ n) && decide (n ≤ 495)

/-- A register that holds a value of so many bits: a pair starts at an even number, a quad at a multiple of 4 (R251). -/
def natAligned (bits n : Nat) : Bool := n == 511 || (decide (bits ≤ 32) || if bits ≤ 64 then n % 2 == 0 else n % 4 == 0 && decide (n < 320))

/-- A source register: a head in a word of X or S alone (Table 12.1). -/
def natSource (queue bits n : Nat) : Bool := nativeRegOk n && natAligned bits n && (!natHead n || queue == 1 || queue == 2)

/-- Field and operand agree. -/
def NatField.ok (queue : Nat) (f : NatField) (o : Opnd) : Bool :=
  match f, o with
  | .unused, .reg n => n == 511
  | .reg bits opt, .reg n => natSource queue bits n && !(opt && n == 511)
  | .reg _ opt, .none => opt
  | .exit, .reg n => decide (n < 512)
  | _, _ => false

/-- Bits of a result; 0 where the word does not decide. -/
def ResKind.natBits (ty : Ty) : ResKind → Nat
  | .t => ty.width
  | .fix x => x.width
  | .cont => if ty.width = 8 then 32 else 64
  | _ => 0

/-- The first register of the result of `w2` bits that follows one of `w1` bits at `d`, where R251 lets it start (log 9). -/
def nextDest (w1 w2 d : Nat) : Nat :=
  let regs (w : Nat) : Nat := if w ≤ 32 then 1 else if w ≤ 64 then 2 else 4
  if d = 511 then 511 else (d + regs w1 + regs w2 - 1) / regs w2 * regs w2

/-- The first registers of a word's results, `src` bits for a result that the word does not decide. -/
def resultRegs (row : OpRow) (ty : Ty) (src d : Nat) : List Nat :=
  let bits (k : ResKind) : Nat := if k.natBits ty = 0 then src else k.natBits ty
  match row.res with
  | [k1, k2] => [d, nextDest (bits k1) (bits k2) d]
  | _ => [d]

/-- The destination: 511 where there is no result, a head for a load of the A queue of at most 64 bits, else a register. A no-return
atomic has no result. -/
def natDest (row : OpRow) (ty : Ty) (mod queue d : Nat) : Bool :=
  match if row.mc = .oa ∧ mod / 32 % 2 = 1 then [] else row.res with
  | [] => d == 511
  | k :: _ =>
    let bits := k.natBits ty
    (resultRegs row ty 0 d).all nativeRegOk && natAligned bits d &&
      (!natHead d || (queue == 0 && (row.op == 0x140 || row.op == 0x142 || row.op == 0x152) && decide (bits ≤ 64)))

/-- Operations that no revision has as one native word (Table 14.11). -/
def neverDirect (op : Nat) (ty : Ty) : Bool :=
  op == 0x045 || op == 0x046 || (ty == .f64 && decide (0x0C8 ≤ op) && decide (op ≤ 0x0CB))

/-- Operations that the narrow revision expands besides (Table 14.11). -/
def narrowExpands (op : Nat) (ty : Ty) : Bool :=
  ((op == 0x043 || op == 0x044) && (ty == .i64 || ty == .n64)) ||
    ((op == 0x0C3 || op == 0x0C5 || op == 0x0C6 || op == 0x0C7) && ty == .f64) || op == 0x111 || (op == 0x100 && ty == .f64)

/-- MOD as far as a word decides it: what `pack` offers depends on a selector that lies in a register. -/
def natModOk (row : OpRow) (w : Main) : Bool := if row.op = 0x1F3 then decide (w.mod < 16) else modOk row w

/-- A Chifin word with a Laold counterpart, whatever extension words the counterpart carries (R251, R255, R257, R305). -/
def nativeForm (r : Raw) : Bool :=
  match opRow r.op, r.w.nat with
  | some row, some n =>
    r.ext == .none && row.op == r.op && row.types.contains r.w.ty && natModOk row r.w && nativeQueueOk r.op n.queue &&
    decide (n.tokens < 16) && (n.queue != 3 || n.tokens == 0) && decide (r.w.mod < 128) && natDest row r.w.ty r.w.mod n.queue n.d && !neverDirect r.op r.w.ty &&
    (match natFields row r.w.ty n.queue with
     | [fa, fb, fc] => fa.ok n.queue r.w.a && fb.ok n.queue r.w.b && fc.ok n.queue r.w.c
     | _ => false)
  | _, _ => false

/-- A Chifin word whose counterpart carries no extension words: it is an instruction by itself. -/
def nativeOk (r : Raw) : Bool := (match opRow r.op with | some row => row.ext == .e0 | none => false) && nativeForm r

/-- The fields of a native-only word (Table 12.4); `op` is 0x3F0 + k. Type 2 of `spill` and `fill`, the operands of `mat` and
the destination of `ldk` are uniform registers. -/
def NatWord.ok (k : Nat) (n : NatWord) : Bool :=
  let uni (r : Nat) : Bool := (decide (256 ≤ r) && decide (r < 320)) || r == 511
  let data (ty r : Nat) : Bool := nativeRegOk r && !natHead r && natAligned (if ty = 0 then 32 else 64) r && (ty != 2 || uni r)
  decide (n.tokens < 16) && decide (n.d < 512) && decide (n.a < 512) && decide (n.b < 512) && decide (n.c < 512) &&
  (match k with
   | 0 => n.queue == 0 && decide (n.ty ≤ 2) && n.d == 511 && data n.ty n.b
   | 1 => n.queue == 0 && decide (n.ty ≤ 2) && n.b == 511 && data n.ty n.d
   | 2 => n.queue == 1 && decide (n.ty ≤ 1) && data n.ty n.d && data 1 n.a && data 1 n.b && uni n.a && uni n.b && n.c == 511
   | 3 => decide (n.queue < 3) && n.ty == 0 && n.d == 511 && n.a == 511 && n.b == 511 && n.c == 511
   | 4 => (n.queue == 1 || n.queue == 2) && decide (n.ty ≤ 1) && data n.ty n.d && natHead n.a
          && n.b == 511 && n.c == 511 && (n.ty == 0 || n.a % 2 == 0)
   | 5 => (n.queue == 0 || n.queue == 1) && decide (n.ty ≤ 1) && data n.ty n.d && uni n.d && n.b == 511
   | _ => n.queue == 3 && n.ty == 0 && n.tokens == 0 && n.d == 511 && n.b == 511)

/-- The lane registers of a word lie in a bank of `b` (Table 12.1). -/
def bankOk (b : Nat) (rs : List Nat) : Bool := rs.all (fun r => decide (256 ≤ r) || decide (r < b))

/-- A queue number of its owner: 64 for a tenant, 8 for the physical function (R50). -/
def QId.ok (q : QId) : Bool := (decide (q.owner < 16) && decide (q.q < 64)) || (q.owner == 16 && decide (q.q < 8))

/-- The device memory bytes an access spans exist (R140). -/
def deviceSpan (pa n : Nat) : Bool := decide (pa + n ≤ 384 * 2 ^ 30)

/-- A host access lies in device memory or in what else the physical function shows (R22). -/
def HostAt.ok (x : HostAt) (n : Nat) : Bool :=
  match x with
  | .mem pa => deviceSpan pa n
  | .bar4 off => decide (off + n ≤ 512 * 2 ^ 30)
  | .barSize => decide (n ≤ 2)
  | .config reg => decide (reg + n ≤ 4096)

/-- Bounds of the events' arguments. -/
def Instr.eventOk : Instr → Bool
  | .vfFlr t => decide (t < 16)
  | .stacksReady f => f.all (fun x => decide (x.stack < 8))
  | .linksTrained f u => f.all (fun x => decide (x < 256)) && decide (u < 256)
  | .diesLeaveReset f => f.all (fun x => decide (x < 4))
  | .registerWrite fn _ _ => decide (fn ≤ 16)
  | .refusedClear t _ => t.all (fun x => decide (x < 16))
  | .tenConfigWrite t r _ => decide (t < 16) && (match r with | .win n => decide (n < 16) | _ => true)
  | .tenEnable t _ | .signerKeyRegister t _ | .signerKeyCopyDone t | .signerKeyRemove t _ | .tenModeWrite t _
  | .assistpendClear t _ | .fbcfgWrite t _ => decide (t < 16)
  | .faultCancelWrite t d _ _ => decide (t < 16) && decide (d < 4)
  | .slotTableUpdate cs => cs.all (fun c => decide (c.res < 150) && decide (c.slot < 64) && (decide (c.owner < 16) || c.owner == 31))
  | .slotGrant r _ _ => decide (r < 150)
  | .queueEnable q _ | .queueDisable q _ | .queueRestart q _ | .queueWpWrite q _ | .queueGateWrite q _ => q.ok
  | .nopPacket q | .wrap q | .waitcnt q | .waitcntPoll q | .signal q | .load q | .unload q | .launch q | .graph q
  | .graphNodeDispatch q | .patch q | .preempt q | .resume q | .replayAll q | .attest q => q.ok
  | .preemptDrainExpiry t k | .preemptTxTimeout t k | .preemptSaveDone t k | .invalDone t k | .revocationTimeout t k
  | .dumpDone t k => decide (t < 16) && decide (k < 16)
  | .ctxEnable t k _ | .ctxReset t k _ | .ctxInval t k _ | .enbudgetWrite t k _ | .enrateWrite t k _
  | .dbgHitClear t k _ => decide (t < 16) && decide (k < 16)
  | .textPageFetchDone t k _ _ => decide (t < 16) && decide (k < 16)
  | .fluxEstimateUpdate p _ => decide (p < 160)
  | .clockStep d => decide (d < 4)
  | .scrubError pa _ => deviceSpan pa 1
  | .fabricPortStateChange p _ => decide (p < 8)
  | .hostWrite x d => x.ok d.length
  | .hostRead x n => x.ok n
  | .hostAtomic _ x sz _ _ =>
    (sz == 4 || sz == 8) && x.ok sz && (match x with | .mem pa | .bar4 pa => pa % sz == 0 | .barSize | .config _ => false)
  | .issueCycle c _ | .atomicQueueDrain c | .sequencerEmit c _ | .matrixRetire c => decide (c < 320)
  | .translationDone cl => decide (cl < 40)
  | .accSpillDone s => decide (s < 128)
  | .tileConversionStart s | .tileConversionDone s => decide (s < 8)
  | _ => true

/-- Well-formed instructions and events. -/
def Instr.wf (i : Instr) : Bool :=
  match i.toRaw with
  | some r => if r.w.nat.isSome then nativeOk r else r.ok
  | none =>
    match i with
    | .spill n => n.ok 0
    | .fill n => n.ok 1
    | .mat n => n.ok 2
    | .tnop n => n.ok 3
    | .hmov n => n.ok 4
    | .ldk n => n.ok 5
    | .unf n => n.ok 6
    | i => i.eventOk

end Sys2Proof
end

