-- ==== Sys2Proof/Decode.lean ====
section
/-! DEFINITION. The Laold decoder and encoder (chapter 13) and those of Chifin words (R257, R258). An instruction is a
list of 64-bit words; a word is its numeral. -/

namespace Sys2Proof

/-! ### Operands and words -/

/-- The 14-bit field of an operand (Table 13.2). -/
def Opnd.encode : Opnd → Nat
  | .none => 0
  | .dist d => d
  | .arg k => 0x1000 + k
  | .imm v => 0x2000 + Word.wrapInt v 12
  | .pool k => 0x3000 + k
  | .reg n => n

/-- The operand of a 14-bit field. -/
def Opnd.decode (n : Nat) : Opnd :=
  let p := n % 0x1000
  match n / 0x1000 % 4 with
  | 0 => if p = 0 then .none else .dist p
  | 1 => .arg p
  | 2 => .imm (Word.signExtend p 12)
  | _ => .pool p

/-- Four operand fields side by side (Table 13.4b). -/
def X4.encode (x : X4) : Nat :=
  x.a.encode * 2 ^ 42 + x.b.encode * 2 ^ 28 + x.c.encode * 2 ^ 14 + x.d.encode

/-- An Operands word; its rsvd bits must be 0. -/
def X4.decode (w : Nat) : Option X4 :=
  if w < 2 ^ 56 then
    some ⟨Opnd.decode (w / 2 ^ 42 % 2 ^ 14), Opnd.decode (w / 2 ^ 28 % 2 ^ 14), Opnd.decode (w / 2 ^ 14 % 2 ^ 14),
      Opnd.decode (w % 2 ^ 14)⟩
  else none

/-- The main word (Table 13.1). -/
def encodeMain (op : Nat) (w : Main) : Nat :=
  op * 2 ^ 54 + w.ty.code * 2 ^ 49 + w.mod * 2 ^ 42 + w.a.encode * 2 ^ 28 + w.b.encode * 2 ^ 14 + w.c.encode

/-- Opcode and main word of a word; `none` for a TYPE that is no type. -/
def decodeMain (v : Nat) : Option (Nat × Main) :=
  match Ty.ofCode (v / 2 ^ 49 % 2 ^ 5) with
  | none => none
  | some ty =>
    some (v / 2 ^ 54 % 2 ^ 10,
      { ty := ty, mod := v / 2 ^ 42 % 2 ^ 7, a := Opnd.decode (v / 2 ^ 28 % 2 ^ 14),
        b := Opnd.decode (v / 2 ^ 14 % 2 ^ 14), c := Opnd.decode (v % 2 ^ 14), nat := none })

/-! ### Targets -/

/-- The operand words of an argument list, four to a word. -/
def encodeArgs : List Opnd → List Nat
  | [] => []
  | [a] => [X4.encode ⟨a, .none, .none, .none⟩]
  | [a, b] => [X4.encode ⟨a, b, .none, .none⟩]
  | [a, b, c] => [X4.encode ⟨a, b, c, .none⟩]
  | a :: b :: c :: d :: r => X4.encode ⟨a, b, c, d⟩ :: encodeArgs r

/-- Read `n` operands from operand words; unused trailing fields must hold 0. -/
def decodeArgs : Nat → List Nat → Option (List Opnd × List Nat)
  | 0, ws => some ([], ws)
  | 1, w :: ws =>
    match X4.decode w with
    | some ⟨a, .none, .none, .none⟩ => some ([a], ws)
    | _ => none
  | 2, w :: ws =>
    match X4.decode w with
    | some ⟨a, b, .none, .none⟩ => some ([a, b], ws)
    | _ => none
  | 3, w :: ws =>
    match X4.decode w with
    | some ⟨a, b, c, .none⟩ => some ([a, b, c], ws)
    | _ => none
  | n + 4, w :: ws =>
    match X4.decode w with
    | none => none
    | some x =>
      match decodeArgs n ws with
      | none => none
      | some (r, ws) => some (x.a :: x.b :: x.c :: x.d :: r, ws)
  | _, [] => none

def Target.encode (t : Target) : List Nat := (t.args.length * 2 ^ 32 + t.block) :: encodeArgs t.args

def decodeTarget : List Nat → Option (Target × List Nat)
  | [] => none
  | w :: ws =>
    if w < 2 ^ 48 then
      match decodeArgs (w / 2 ^ 32) ws with
      | none => none
      | some (as, ws) => some (⟨w % 2 ^ 32, as⟩, ws)
    else none

def decodeTargets : Nat → List Nat → Option (List Target × List Nat)
  | 0, ws => some ([], ws)
  | n + 1, ws =>
    match decodeTarget ws with
    | none => none
    | some (t, ws) =>
      match decodeTargets n ws with
      | none => none
      | some (ts, ws) => some (t :: ts, ws)

def decodeX4s : Nat → List Nat → Option (List X4 × List Nat)
  | 0, ws => some ([], ws)
  | _ + 1, [] => none
  | n + 1, w :: ws =>
    match X4.decode w with
    | none => none
    | some x =>
      match decodeX4s n ws with
      | none => none
      | some (xs, ws) => some (x :: xs, ws)

/-! ### Extension words -/

def Ext.encode : Ext → List Nat
  | .none => []
  | .ops xs => xs.map X4.encode
  | .lit l => [l]
  | .litOps l x => [l, x.encode]
  | .target t => t.encode
  | .c2 rc a b => rc :: (a.encode ++ b.encode)
  | .sw rc d cs => (cs.length * 2 ^ 32 + rc) :: (d.encode ++ cs.flatMap Target.encode)

/-- The extension words that a row's code asks for (Table 14.3); `mod` is the count of `ret`. -/
def decodeExt (code : ExtCode) (mod : Nat) (ws : List Nat) : Option (Ext × List Nat) :=
  match code with
  | .e0 => some (.none, ws)
  | .o1 => (decodeX4s 1 ws).map (fun p => (.ops p.1, p.2))
  | .o2 => (decodeX4s 2 ws).map (fun p => (.ops p.1, p.2))
  | .rt => (decodeX4s (rtWords mod) ws).map (fun p => (.ops p.1, p.2))
  | .l1 =>
    match ws with
    | [] => none
    | l :: ws => some (.lit l, ws)
  | .lo =>
    match ws with
    | l :: w :: ws => (X4.decode w).map (fun x => (.litOps l x, ws))
    | _ => none
  | .t => (decodeTarget ws).map (fun p => (.target p.1, p.2))
  | .c2 =>
    match ws with
    | [] => none
    | rc :: ws =>
      match decodeTarget ws with
      | none => none
      | some (a, ws) => (decodeTarget ws).map (fun p => (.c2 rc a p.1, p.2))
  | .sw =>
    match ws with
    | [] => none
    | l :: ws =>
      if l < 2 ^ 48 then
        match decodeTarget ws with
        | none => none
        | some (d, ws) => (decodeTargets (l / 2 ^ 32) ws).map (fun p => (.sw (l % 2 ^ 32) d p.1, p.2))
      else none

/-! ### Laold instructions -/

def Raw.encode (r : Raw) : List Nat := encodeMain r.op r.w :: r.ext.encode

/-- The generic form at the head of a word list, with the words that follow; `none` where the encoding is not an
instruction as far as its own words decide. -/
def decodeRaw : List Nat → Option (Raw × List Nat)
  | [] => none
  | v :: ws =>
    match decodeMain v with
    | none => none
    | some (op, w) =>
      match opRow op with
      | none => none
      | some row =>
        match decodeExt row.ext w.mod ws with
        | none => none
        | some (x, ws) => if rawOk row ⟨op, w, x⟩ then some (⟨op, w, x⟩, ws) else none

/-- Decode one Laold instruction from the head of a word list. -/
def decode (ws : List Nat) : Option (Instr × List Nat) :=
  match decodeRaw ws with
  | none => none
  | some (r, ws) => r.toInstr.map (fun i => (i, ws))

/-! ### Chifin words -/

/-- The nine-bit field of an operand of a Chifin word. -/
def Opnd.encodeReg : Opnd → Nat
  | .reg n => n
  | _ => 511

/-- A Chifin word's fields, most significant first (Table 12.3). -/
def packChifin (tokens queue op ty mod d a b c : Nat) : Nat :=
  tokens * 2 ^ 60 + queue * 2 ^ 58 + op * 2 ^ 48 + ty * 2 ^ 44 + mod * 2 ^ 36 + d * 2 ^ 27 + a * 2 ^ 18 + b * 2 ^ 9 + c

def NatWord.encode (k : Nat) (n : NatWord) : Nat :=
  packChifin n.tokens n.queue (0x3F0 + k) n.ty 0 n.d n.a n.b n.c

/-- A Chifin word with a Laold counterpart (R257). -/
def Raw.encodeChifin (r : Raw) (n : NatInfo) : Nat :=
  packChifin n.tokens n.queue r.op (r.w.ty.code % 16) (r.w.ty.code / 16 * 128 + r.w.mod) n.d r.w.a.encodeReg
    r.w.b.encodeReg r.w.c.encodeReg

/-- The operand that a register field stands for: none where an operand that may be absent holds 511. -/
def NatField.decode (f : NatField) (n : Nat) : Opnd :=
  match f with
  | .reg _ opt => if opt && n == 511 then .none else .reg n
  | _ => .reg n

/-- The native-only instruction k of Table 12.4. -/
def natInstr (k : Nat) (n : NatWord) : Option Instr :=
  match k with
  | 0 => some (.spill n)
  | 1 => some (.fill n)
  | 2 => some (.mat n)
  | 3 => some (.tnop n)
  | 4 => some (.hmov n)
  | 5 => some (.ldk n)
  | 6 => some (.unf n)
  | _ => none

/-- The fields of a Chifin word with a Laold counterpart, where it is a native instruction. -/
def chifinRaw (v : Nat) : Option Raw :=
  let queue := v / 2 ^ 58 % 4
  let mod := v / 2 ^ 36 % 256
  match opRow (v / 2 ^ 48 % 1024), Ty.ofCode (mod / 128 * 16 + v / 2 ^ 44 % 16) with
  | some row, some t =>
    match natFields row t queue with
    | [fa, fb, fc] =>
      let r : Raw := ⟨v / 2 ^ 48 % 1024,
        { ty := t, mod := mod % 128, a := fa.decode (v / 2 ^ 18 % 512), b := fb.decode (v / 2 ^ 9 % 512), c := fc.decode (v % 512),
          nat := some ⟨v / 2 ^ 60 % 16, queue, v / 2 ^ 27 % 512⟩ }, .none⟩
      if nativeForm r then some r else none
    | _ => none
  | _, _ => none

/-- A native-only word. -/
def chifinOnly (v : Nat) : Option Instr :=
  let op := v / 2 ^ 48 % 1024
  let n : NatWord := ⟨v / 2 ^ 60 % 16, v / 2 ^ 58 % 4, v / 2 ^ 44 % 16, v / 2 ^ 27 % 512, v / 2 ^ 18 % 512, v / 2 ^ 9 % 512, v % 512⟩
  if 0x3F0 ≤ op ∧ v / 2 ^ 36 % 256 = 0 ∧ n.ok (op - 0x3F0) then natInstr (op - 0x3F0) n else none

/-- Decode one Chifin word. A counterpart with extension words is read with them as it issues. -/
def decodeChifin (v : Nat) : Option Instr :=
  if 0x3F0 ≤ v / 2 ^ 48 % 1024 then chifinOnly v
  else
    match chifinRaw v with
    | some r => if nativeOk r then r.toInstr else none
    | none => none

/-- The words of a well-formed instruction; an event has none. -/
def encode (i : Instr) : List Nat :=
  match i.toRaw with
  | some r =>
    match r.w.nat with
    | none => r.encode
    | some n => [r.encodeChifin n]
  | none =>
    match i with
    | .spill n => [n.encode 0]
    | .fill n => [n.encode 1]
    | .mat n => [n.encode 2]
    | .tnop n => [n.encode 3]
    | .hmov n => [n.encode 4]
    | .ldk n => [n.encode 5]
    | .unf n => [n.encode 6]
    | _ => []

/-- The words of a numeral, lowest first, `n` of them. -/
def splitWords : Nat → Nat → List Nat
  | 0, _ => []
  | n + 1, w => w % 2 ^ 64 :: splitWords n (w / 2 ^ 64)

/-- The instruction of the bits `w`, numbered from the first word up, with zero words above: a Laold instruction where
the first word is one, else a Chifin word. -/
def decodeTableWord (nbits w : Nat) : Option Instr :=
  match decode (splitWords (Word.ceilDiv nbits 64 + 8) (w % 2 ^ nbits)) with
  | some (i, _) => some i
  | none => decodeChifin (w % 2 ^ 64)

end Sys2Proof
end

