-- ==== Sys2Proof/Machine/Numbers.lean ====
section
/-! DEFINITION. Number formats, the one rounding, exact and ordered sums, and the correctly rounded functions
(chapter 10). A floating-point value is decoded exactly, computed on exactly, and rounded once. -/

namespace Sys2Proof.Num

/-- A decoded value: NaN, an infinity, or (-1)^neg × m × 2^e. -/
inductive FVal where
  | nan
  | inf (neg : Bool)
  | fin (neg : Bool) (m : Nat) (e : Int)
  deriving DecidableEq, Repr

/-- How a format spends its highest exponents (Table 10.1). -/
inductive Style where
  | ieee | e4m3 | plain | e8m0
  deriving DecidableEq, Repr

/-- A format of Table 10.1. -/
structure Fmt where
  exp   : Nat
  frac  : Nat
  bias  : Nat
  style : Style
  deriving DecidableEq, Repr

/-- Rounding modes by their RM code (R218): 0 RN, 1 RZ, 2 RU, 3 RD. -/
structure Mode where
  rm  : Nat
  sat : Bool
  ftz : Bool
  deriving DecidableEq, Repr

/-- The format of a floating-point type (Table 10.1). -/
def fmtOf : Ty → Option Fmt
  | .f64 => some ⟨11, 52, 1023, .ieee⟩
  | .f32 => some ⟨8, 23, 127, .ieee⟩
  | .f16 => some ⟨5, 10, 15, .ieee⟩
  | .bf16 => some ⟨8, 7, 127, .ieee⟩
  | .e4m3 => some ⟨4, 3, 7, .e4m3⟩
  | .e5m2 => some ⟨5, 2, 15, .ieee⟩
  | .e3m2 => some ⟨3, 2, 3, .plain⟩
  | .e2m3 => some ⟨2, 3, 1, .plain⟩
  | .e2m1 => some ⟨2, 1, 1, .plain⟩
  | .e8m0 => some ⟨8, 0, 127, .e8m0⟩
  | _ => none

/-- Bits of the encoding. -/
def Fmt.width (f : Fmt) : Nat := f.exp + f.frac + (if f.style = .e8m0 then 0 else 1)

/-- The magnitude code of the largest finite value. -/
def Fmt.maxCode (f : Fmt) : Nat :=
  match f.style with
  | .ieee => (2 ^ f.exp - 1) * 2 ^ f.frac - 1
  | .e4m3 => 2 ^ (f.exp + f.frac) - 2
  | .plain => 2 ^ (f.exp + f.frac) - 1
  | .e8m0 => 254

/-- The weight of the sign bit. -/
def Fmt.signBit (f : Fmt) : Nat := 2 ^ (f.exp + f.frac)

/-- The default NaN (Table 10.1); formats without NaN convert NaN to +0 (Table 10.4). -/
def Fmt.nan (f : Fmt) : Nat :=
  match f.style with
  | .ieee => (2 ^ f.exp - 1) * 2 ^ f.frac + 2 ^ (f.frac - 1)
  | .e4m3 => 2 ^ (f.exp + f.frac) - 1
  | .plain => 0
  | .e8m0 => 255

/-- Decode(q) of R210. -/
def Fmt.decode (f : Fmt) (q : Nat) : FVal :=
  if f.style = .e8m0 then
    let e := q % 256
    if e = 255 then .nan else .fin false 1 ((e : Int) - 127)
  else
    let neg := Word.bit q (f.exp + f.frac)
    let e := q / 2 ^ f.frac % 2 ^ f.exp
    let x := q % 2 ^ f.frac
    let special : Option FVal :=
      match f.style with
      | .ieee => if e = 2 ^ f.exp - 1 then some (if x = 0 then .inf neg else .nan) else none
      | .e4m3 => if e = 2 ^ f.exp - 1 ∧ x = 2 ^ f.frac - 1 then some .nan else none
      | _ => none
    match special with
    | some v => v
    | none =>
      if e = 0 then .fin neg x (1 - (f.bias : Int) - f.frac)
      else .fin neg (2 ^ f.frac + x) ((e : Int) - f.bias - f.frac)

/-- The encoding of an operand is a subnormal of a format that `.ftz` flushes (R220). -/
def Fmt.subnormal (f : Fmt) (q : Nat) : Bool :=
  let m := q % 2 ^ (f.exp + f.frac)
  decide (0 < m) && decide (m < 2 ^ f.frac)

/-- Flush a subnormal encoding to the zero of its sign. -/
def Fmt.flush (f : Fmt) (q : Nat) : Nat :=
  if f.subnormal q then (if Word.bit q (f.exp + f.frac) then f.signBit else 0) else q

/-- The source flush of R220: FP64, FP32, FP16 and BF16 only. -/
def flushSrc (ty : Ty) (ftz : Bool) (q : Nat) : Nat :=
  if ftz && ty.isF then (match fmtOf ty with | some f => f.flush q | none => q) else q

/-- Decode an operand of a floating-point type, flushed first under `.ftz`. -/
def decodeTy (ty : Ty) (ftz : Bool) (q : Nat) : FVal :=
  match fmtOf ty with
  | some f => f.decode (flushSrc ty ftz q)
  | none => .nan

/-- m × 2^e truncated to an integer multiple of 2^q, with the discarded part: (quotient, remainder, divisor). -/
def quantize (m : Nat) (e q : Int) : Nat × Nat × Nat :=
  if q ≤ e then (m * 2 ^ (e - q).toNat, 0, 1)
  else
    let d := 2 ^ (q - e).toNat
    (m / d, m % d, d)

/-- One up on the magnitude, under a rounding mode (R217). -/
def roundsUp (rm : Nat) (neg : Bool) (n r d : Nat) : Bool :=
  match rm with
  | 0 => decide (d < 2 * r) || (2 * r == d && n % 2 == 1)
  | 1 => false
  | 2 => !neg && decide (0 < r)
  | _ => neg && decide (0 < r)

/-- Round a positive magnitude to an integer multiple of 2^q. -/
def roundQ (rm : Nat) (neg : Bool) (m : Nat) (e q : Int) : Nat :=
  let (n, r, d) := quantize m e q
  if roundsUp rm neg n r d then n + 1 else n

/-- The magnitude code, before the overflow test: unbounded exponent above, gradual underflow below (R217). -/
def Fmt.magCode (f : Fmt) (rm : Nat) (neg : Bool) (m : Nat) (e : Int) : Nat :=
  let top : Int := (Nat.log2 m : Int) + e
  let emin : Int := 1 - (f.bias : Int)
  let q : Int := (if top < emin then emin else top) - f.frac
  (q + f.frac + f.bias - 1).toNat * 2 ^ f.frac + roundQ rm neg m e q

/-- Overflow of a finite result by destination and mode (Table 10.4, R219). -/
def Fmt.overflow (f : Fmt) (md : Mode) (neg : Bool) : Nat :=
  let s := if neg then f.signBit else 0
  let toInf := md.rm == 0 || (md.rm == 2 && !neg) || (md.rm == 3 && neg)
  match f.style with
  | .ieee => if md.sat || !toInf then s + f.maxCode else s + f.maxCode + 1
  | .e4m3 => if md.sat || !toInf then s + f.maxCode else f.nan
  | .plain => s + f.maxCode
  | .e8m0 => if md.sat then 254 else 255

/-- The exponent to which a positive value rounds in E8M0 (R217), as a field that may lie out of range. -/
def e8m0Field (rm : Nat) (m : Nat) (e : Int) : Int :=
  let l := Nat.log2 m
  let fld : Int := (l : Int) + e + 127
  let low := 2 ^ l
  let up :=
    match rm with
    | 0 => decide (3 * low < 2 * m) || (2 * m == 3 * low && fld % 2 != 0)
    | 2 => decide (low < m)
    | _ => false
  if up then fld + 1 else fld

/-- Round(x, fmt, mode) with the overflow, special-value and flush rules (R217, R219, R220). The sign of an exact
zero is the one `x` carries. -/
def Fmt.round (f : Fmt) (md : Mode) (x : FVal) : Nat :=
  match x with
  | .nan => f.nan
  | .inf neg =>
    let s := if neg then f.signBit else 0
    match f.style with
    | .ieee => s + f.maxCode + 1
    | .e4m3 => if md.sat then s + f.maxCode else f.nan
    | .plain => s + f.maxCode
    | .e8m0 => if !neg && md.sat then 254 else 255
  | .fin neg m e =>
    if f.style = .e8m0 then
      if m = 0 ∨ neg then 255
      else
        let k := e8m0Field md.rm m e
        if k < 0 then 0 else if 254 < k then f.overflow md neg else k.toNat
    else
      let s := if neg then f.signBit else 0
      if m = 0 then s
      else
        let c := f.magCode md.rm neg m e
        if f.maxCode < c then f.overflow md neg
        else if md.ftz && decide (c < 2 ^ f.frac) then s
        else s + c

/-- Round to a floating-point type; `.ftz` reaches only FP64, FP32, FP16 and BF16 results (R220). -/
def roundTy (ty : Ty) (md : Mode) (x : FVal) : Nat :=
  match fmtOf ty with
  | some f => f.round { md with ftz := md.ftz && ty.isF } x
  | none => 0

/-! ### Exact arithmetic on decoded values -/

/-- The sign flipped. -/
def FVal.neg : FVal → FVal
  | .nan => .nan
  | .inf s => .inf (!s)
  | .fin s m e => .fin (!s) m e

/-- The value as m × 2^q for a q at or below its exponent. -/
def FVal.scaled (q : Int) : FVal → Int
  | .fin s m e =>
    let v : Int := m * 2 ^ (e - q).toNat
    if s then -v else v
  | _ => 0

/-- The exponent of a finite value. -/
def FVal.exp : FVal → Int
  | .fin _ _ e => e
  | _ => 0

def FVal.isNan : FVal → Bool
  | .nan => true
  | _ => false

def FVal.isInf : FVal → Bool
  | .inf _ => true
  | _ => false

def FVal.isZero : FVal → Bool
  | .fin _ 0 _ => true
  | _ => false

/-- The sign bit of a value that is no NaN. -/
def FVal.sign : FVal → Bool
  | .nan => false
  | .inf s => s
  | .fin s _ _ => s

/-- A dyadic integer multiple of 2^q as a value, an exact zero taking the sign given. -/
def ofScaled (v : Int) (q : Int) (zeroNeg : Bool) : FVal :=
  if v = 0 then .fin zeroNeg 0 0 else .fin (decide (v < 0)) v.natAbs q

/-- The exact sum of two values, with the zero rules of R336. -/
def add (rm : Nat) (a b : FVal) : FVal :=
  match a, b with
  | .nan, _ => .nan
  | _, .nan => .nan
  | .inf s, .inf t => if s = t then .inf s else .nan
  | .inf s, _ => .inf s
  | _, .inf t => .inf t
  | .fin s m e, .fin t n g =>
    let q := if e ≤ g then e else g
    let zneg := if m = 0 ∧ n = 0 ∧ s = t then s else rm == 3
    ofScaled ((FVal.fin s m e).scaled q + (FVal.fin t n g).scaled q) q zneg

/-- The exact product; 0 × ±Inf is NaN. -/
def mul (a b : FVal) : FVal :=
  match a, b with
  | .nan, _ => .nan
  | _, .nan => .nan
  | .inf s, .inf t => .inf (s != t)
  | .inf s, .fin t n _ => if n = 0 then .nan else .inf (s != t)
  | .fin s m _, .inf t => if m = 0 then .nan else .inf (s != t)
  | .fin s m e, .fin t n g => .fin (s != t) (m * n) (e + g)

/-- a × b + c with the product exact (one step of R223). -/
def fma (rm : Nat) (a b c : FVal) : FVal := add rm (mul a b) c

/-- A truncated magnitude with a sticky bit below it: rounding it equals rounding the exact value. -/
def sticky (neg : Bool) (q : Nat) (inexact : Bool) (e : Int) : FVal :=
  .fin neg (2 * q + (if inexact then 1 else 0)) (e - 1)

/-- Guard bits of a quotient or root beyond its divisor. -/
def guardBits : Nat := 130

/-- The quotient of R221, to a sticky bit where it is not dyadic. -/
def div (a b : FVal) : FVal :=
  match a, b with
  | .nan, _ => .nan
  | _, .nan => .nan
  | .inf _, .inf _ => .nan
  | .inf s, .fin t _ _ => .inf (s != t)
  | .fin s _ _, .inf t => .fin (s != t) 0 0
  | .fin s m e, .fin t n g =>
    if n = 0 then (if m = 0 then .nan else .inf (s != t))
    else if m = 0 then .fin (s != t) 0 0
    else
      let k := guardBits + Nat.log2 n
      let x := m * 2 ^ k
      sticky (s != t) (x / n) (x % n != 0) (e - g - k)

/-- One bit of a square root by trial, from bit `i` down. -/
def sqrtBits (n : Nat) : Nat → Nat → Nat
  | 0, r => r
  | i + 1, r => sqrtBits n i (if (r + 2 ^ i) * (r + 2 ^ i) ≤ n then r + 2 ^ i else r)

/-- ⌊√n⌋. -/
def isqrt (n : Nat) : Nat := sqrtBits n (Nat.log2 n / 2 + 1) 0

/-- A finite magnitude with an even exponent. -/
def evenExp (m : Nat) (e : Int) : Nat × Int := if e % 2 = 0 then (m, e) else (2 * m, e - 1)

/-- √a by Table 10.5. -/
def sqrt (a : FVal) : FVal :=
  match a with
  | .nan => .nan
  | .inf s => if s then .nan else .inf false
  | .fin s m e =>
    if m = 0 then .fin s 0 0
    else if s then .nan
    else
      let (m, e) := evenExp m e
      let x := m * 2 ^ (2 * guardBits)
      let r := isqrt x
      sticky false r (r * r != x) (e / 2 - guardBits)

/-- 1 / √a by Table 10.5. -/
def rsqrt (a : FVal) : FVal :=
  match a with
  | .nan => .nan
  | .inf s => if s then .nan else .fin false 0 0
  | .fin s m e =>
    if m = 0 then .inf s
    else if s then .nan
    else
      let (m, e) := evenExp m e
      let k := guardBits + Nat.log2 m
      let r := isqrt (2 ^ (2 * k) / m)
      sticky false r (r * r * m != 2 ^ (2 * k)) (-(e / 2) - k)

/-- 1 / a. -/
def rcp (a : FVal) : FVal := div (.fin false 1 0) a

/-- a × 2^n; ±Inf and ±0 give a (Table 16.1). -/
def ldexp (a : FVal) (n : Int) : FVal :=
  match a with
  | .fin s m e => .fin s m (e + n)
  | v => v

/-! ### Elementary functions, in fixed point with guard bits far below any rounding boundary (log 8) -/

/-- Fraction bits of the fixed-point work. -/
def prec : Nat := 640

/-- Σ_{k=1}^{n} ⌊2^p / (k 2^k)⌋, that is ln 2 in p fraction bits. -/
def ln2Sum (p : Nat) : Nat → Nat
  | 0 => 0
  | k + 1 => ln2Sum p k + 2 ^ p / ((k + 1) * 2 ^ (k + 1))

def ln2 (p : Nat) : Nat := ln2Sum p (p + 8)

/-- Horner's rule for e^t, t < 1, over n terms, in p fraction bits. -/
def expSum (p t : Nat) : Nat → Nat → Nat
  | 0, acc => acc
  | n + 1, acc => expSum p t n (2 ^ p + t * acc / 2 ^ p / (n + 1))

def expFix (p t : Nat) : Nat := expSum p t 160 (2 ^ p)

/-- 2^a by Table 10.5. -/
def exp2 (a : FVal) : FVal :=
  match a with
  | .nan => .nan
  | .inf s => if s then .fin false 0 0 else .inf false
  | .fin s m e =>
    if m = 0 then .fin false 1 0
    else if 0 ≤ e ∨ m % 2 ^ (-e).toNat = 0 then
      let n : Nat := if 0 ≤ e then (if 20 < e then 2 ^ 20 else min (m * 2 ^ e.toNat) (2 ^ 20)) else min (m / 2 ^ (-e).toNat) (2 ^ 20)
      .fin false 1 (if s then -(n : Int) else n)
    else
      let d := 2 ^ (-e).toNat
      let whole : Int := (m / d : Nat)
      let part := m % d
      let n : Int := if s then -whole - 1 else whole
      let f := if s then d - part else part
      let n : Int := if n < -(2 ^ 20 : Int) then -(2 ^ 20 : Int) else if 2 ^ 20 < n then 2 ^ 20 else n
      let t := f * 2 ^ prec / d * ln2 prec / 2 ^ prec
      sticky false (expFix prec t) true (n - prec)

/-- The bits of log₂ of y / 2^p, 1 ≤ y / 2^p < 2, most significant first, by repeated squaring. -/
def log2Bits (p : Nat) : Nat → Nat → Nat → Nat
  | 0, _, acc => acc
  | k + 1, y, acc =>
    let z := y * y / 2 ^ p
    if 2 ^ (p + 1) ≤ z then log2Bits p k (z / 2) (2 * acc + 1) else log2Bits p k z (2 * acc)

/-- log₂ a by Table 10.5. -/
def log2 (a : FVal) : FVal :=
  match a with
  | .nan => .nan
  | .inf s => if s then .nan else .inf false
  | .fin s m e =>
    if m = 0 then .inf true
    else if s then .nan
    else
      let l := Nat.log2 m
      let top : Int := (l : Int) + e
      if m = 2 ^ l then ofScaled top 0 false
      else
        let y := m * 2 ^ (1200 - l)
        let v : Int := top * 2 ^ 400 + log2Bits 1200 400 y 0
        if 0 ≤ v then sticky false v.toNat true (-400) else sticky true (-v - 1).toNat true (-400)

/-- The terms of arctan(1/x) in p fraction bits: Σ ± 2^p / (x^(2k+1) (2k+1)). -/
def arctanSum (x2 : Nat) : Nat → Nat → Nat → Int → Int
  | 0, _, _, acc => acc
  | n + 1, pow, k, acc =>
    let t : Int := (pow / (2 * k + 1) : Nat)
    arctanSum x2 n (pow / x2) (k + 1) (if k % 2 = 0 then acc + t else acc - t)

/-- π in p fraction bits (Machin). -/
def piFix (p : Nat) : Nat :=
  (16 * arctanSum 25 (p / 4 + 8) (2 ^ p / 5) 0 0 - 4 * arctanSum 57121 (p / 15 + 8) (2 ^ p / 239) 0 0).toNat

/-- Σ (-1)^k r^(2k+i) / (2k+i)! in p fraction bits: cosine from term 1, sine from term r. -/
def trigSum (p r2 : Nat) : Nat → Nat → Nat → Int → Int
  | 0, _, _, acc => acc
  | n + 1, term, i, acc =>
    let next := term * r2 / 2 ^ p / ((i + 1) * (i + 2))
    trigSum p r2 n next (i + 2) (acc + (if i / 2 % 2 = 0 then (term : Int) else -(term : Int)))

/-- sin (which = 0) or cos (which = 1) of a finite magnitude that is not below 2^-100, with exact range reduction. -/
def trigBig (which : Nat) (neg : Bool) (m : Nat) (e : Int) : FVal :=
  let q : Nat := 1900
  let half := piFix (q + 1100) / 2 ^ 1101
  let x := if 0 ≤ e then m * 2 ^ (e.toNat + q) else m * 2 ^ q / 2 ^ (-e).toNat
  let k := x / half
  let r := (x % half) / 2 ^ (q - prec)
  let r2 := r * r / 2 ^ prec
  let quad := (k + which) % 4
  let v := if quad % 2 = 0 then trigSum prec r2 100 r 1 0 else trigSum prec r2 100 (2 ^ prec) 0 0
  let sneg := (decide (2 ≤ quad)) != (neg && which == 0)
  sticky sneg v.toNat true (-(prec : Int))

/-- sin or cos by Table 10.5. -/
def trig (which : Nat) (a : FVal) : FVal :=
  match a with
  | .nan => .nan
  | .inf _ => .nan
  | .fin s m e =>
    if m = 0 then (if which = 0 then .fin s 0 0 else .fin false 1 0)
    else if (Nat.log2 m : Int) + e < -100 then
      if which = 0 then .fin s (m * 2 ^ 190 - 1) (e - 190) else .fin false (2 ^ 190 - 1) (-190)
    else trigBig which s m e

/-! ### Sums (R222, R223) -/

/-- The least exponent of a list of terms. -/
def minExp : List FVal → Int → Int
  | [], q => q
  | .fin _ m e :: r, q => minExp r (if m ≠ 0 ∧ e < q then e else q)
  | _ :: r, q => minExp r q

/-- The exact sum of finite terms, scaled by 2^q. -/
def sumScaled (q : Int) : List FVal → Int
  | [] => 0
  | .fin s m e :: r => (if m = 0 then 0 else (FVal.fin s m e).scaled q) + sumScaled q r
  | _ :: r => sumScaled q r

/-- The value of R222, before its one rounding. -/
def exactSum (rm : Nat) (ts : List FVal) : FVal :=
  let pos := ts.any (fun t => t == .inf false)
  let ng := ts.any (fun t => t == .inf true)
  if ts.any FVal.isNan || (pos && ng) then .nan
  else if pos then .inf false
  else if ng then .inf true
  else
    let q := minExp ts 0
    let x := sumScaled q ts
    let zeroNeg :=
      if rm = 3 then !(ts.all (fun t => t.isZero && !t.sign))
      else ts.all (fun t => t.isZero && t.sign) && !ts.isEmpty
    ofScaled x q zeroNeg

/-! ### Comparison, minimum and maximum -/

/-- a < b on values that are not NaNs; zeros are equal. -/
def ltVal (a b : FVal) : Bool :=
  match a, b with
  | .nan, _ => false
  | _, .nan => false
  | .inf s, .inf t => s && !t
  | .inf s, .fin _ _ _ => s
  | .fin _ _ _, .inf t => !t
  | .fin s m e, .fin t n g =>
    let q := if e ≤ g then e else g
    decide ((FVal.fin s m e).scaled q < (FVal.fin t n g).scaled q)

/-- Numeric equality; +0 equals −0 and NaN equals nothing. -/
def eqVal (a b : FVal) : Bool := !a.isNan && !b.isNan && !ltVal a b && !ltVal b a

/-- The total preorder of R189 on numbers: −0 is below +0. -/
def ltOrd (a b : FVal) : Bool :=
  ltVal a b || (a.isZero && b.isZero && a.sign && !b.sign)

/-- fmin or fmax of two encodings (R189): a number before a NaN, −0 below +0, the chosen bits returned. -/
def minMax (f : Fmt) (isMax : Bool) (a b : Nat) : Nat :=
  let x := f.decode a
  let y := f.decode b
  if x.isNan then (if y.isNan then f.nan else b)
  else if y.isNan then a
  else if isMax then (if ltOrd x y then b else a)
  else (if ltOrd y x then b else a)

/-- The predicate codes of R300 on two decoded values (R341). -/
def fcompare (pred : Nat) (a b : FVal) : Bool :=
  if a.isNan || b.isNan then pred == 1
  else
    match pred with
    | 0 => eqVal a b
    | 1 => !eqVal a b
    | 2 => ltVal a b
    | 3 => !ltVal b a
    | 4 => ltVal b a
    | _ => !ltVal a b

/-! ### Rounding to integers -/

/-- Round(x, integer, RM) of a finite value. -/
def roundInt (rm : Nat) (neg : Bool) (m : Nat) (e : Int) : Int :=
  let n : Int := if m = 0 then 0 else (roundQ rm neg m e 0 : Nat)
  if neg then -n else n

/-- frnd (R337): an integral value, a zero result taking the sign of the operand. -/
def frnd (rm : Nat) (a : FVal) : FVal :=
  match a with
  | .fin s m e => .fin s (if m = 0 then 0 else roundQ rm s m e 0) 0
  | v => v

/-- Float to integer (R212, R343). -/
def toIntTy (ty : Ty) (rm : Nat) (a : FVal) : Nat :=
  match a with
  | .nan => 0
  | .inf s => ty.wrap (if s then ty.minInt else ty.maxInt)
  | .fin s m e => ty.sat (roundInt rm s m e)

/-- An integer as an exact value; its zero is +0. -/
def ofInt (x : Int) : FVal := ofScaled x 0 false

/-- Decode a source of any convertible type (R343). -/
def decodeAny (ty : Ty) (ftz : Bool) (q : Nat) : FVal :=
  if ty.isInt then ofInt (ty.toInt q) else decodeTy ty ftz q

/-- cvt (R343) of the bits `q` of type `src` to `dst`. -/
def cvt (src dst : Ty) (md : Mode) (q : Nat) : Nat :=
  let x := decodeAny src md.ftz q
  if dst.isInt then toIntTy dst md.rm x else roundTy dst md x

/-- cvtef (R226, R344): the narrowed value and the residual. -/
def cvtef (src dst : Ty) (md : Mode) (q : Nat) : Nat × Nat :=
  let x := decodeTy src md.ftz q
  let hi := roundTy dst md x
  let rmd : Mode := ⟨0, false, md.ftz⟩
  match x with
  | .nan => (hi, roundTy src rmd .nan)
  | .inf _ => (hi, 0)
  | .fin _ _ _ =>
    match decodeTy dst false hi with
    | .fin s m e => (hi, roundTy src rmd (add 0 x (FVal.fin s m e).neg))
    | _ => (hi, roundTy src rmd .nan)

/-- frexp (R338): mantissa bits and exponent. -/
def frexp (ty : Ty) (ftz : Bool) (q : Nat) : Nat × Int :=
  match decodeTy ty ftz q with
  | .fin s m e =>
    if m = 0 then (flushSrc ty ftz q, 0)
    else
      let k : Int := (Nat.log2 m : Int) + 1
      (roundTy ty ⟨0, false, false⟩ (.fin s m (-k)), e + k)
  | .inf _ => (q % 2 ^ ty.width, 0)
  | .nan => (roundTy ty ⟨0, false, false⟩ .nan, 0)

/-- fclass (Table 16.2). -/
def fclass (f : Fmt) (q : Nat) : Nat :=
  let neg := Word.bit q (f.exp + f.frac)
  let pick (n p : Nat) := 2 ^ (if neg then n else p)
  match f.decode q with
  | .nan => 2 ^ (if Word.bit q (f.frac - 1) then 9 else 8)
  | .inf _ => pick 0 7
  | .fin _ m _ => if m = 0 then pick 3 4 else if f.subnormal q then pick 2 5 else pick 1 6

/-- Every finite value of `src` is a value of `dst`, so a `cvt` between them never rounds (R343). -/
def exactIn (src dst : Ty) : Bool :=
  if src == dst then true
  else if src.isInt then
    match fmtOf dst with
    | none => false
    | some f =>
      if f.style = .e8m0 ∨ dst.isNF then
        -- every value of a 4-bit integer is exact only where precision and range allow
        (List.range (2 ^ (min src.width 8))).all (fun v =>
          decide (src.width ≤ 8) &&
          (f.decode (f.round ⟨0, false, false⟩ (ofInt (src.toInt v))) == f.decode (f.round ⟨1, false, false⟩ (ofInt (src.toInt v))))
            && eqVal (f.decode (f.round ⟨0, false, false⟩ (ofInt (src.toInt v)))) (ofInt (src.toInt v)))
      else decide ((if src.signed then src.width - 1 else src.width) ≤ f.frac + 1)
            && decide (src.width ≤ f.bias + 1)
  else
    match fmtOf src, fmtOf dst with
    | some s, some d =>
      if d.style = .e8m0 then false
      else if s.style = .e8m0 then decide (d.bias + d.frac ≥ 128) && decide (127 ≤ d.bias)
      else
        decide (s.frac ≤ d.frac) && decide (s.bias + s.frac ≤ d.bias + d.frac) &&
          ltOrd (s.decode s.maxCode) (d.decode d.maxCode) && (s.style != .ieee || d.style == .ieee)
    | _, _ => false

/-! ### Sparse ranking and random numbers -/

/-- Element `x` outranks `y` (R227); `lower` breaks ties. -/
def outranks (x y : FVal) (lower : Bool) : Bool :=
  let mag (v : FVal) : FVal := match v with | .fin _ m e => .fin false m e | .inf _ => .inf false | .nan => .nan
  match x.isNan, y.isNan with
  | true, true => lower
  | true, false => true
  | false, true => false
  | false, false => if ltVal (mag y) (mag x) then true else if ltVal (mag x) (mag y) then false else lower

/-- The indices of the two elements kept of a group of four (R227). -/
def kept (xs : List FVal) : List Nat :=
  (List.range 4).filter (fun i =>
    decide (((List.range 4).filter (fun j => j ≠ i ∧ outranks (xs.getD j .nan) (xs.getD i .nan) (decide (j < i)))).length < 2))

/-- Rotl(v, n) of R228 on 32 bits. -/
def rotl32 (v n : Nat) : Nat := (v * 2 ^ n + v / 2 ^ (32 - n)) % 2 ^ 32

/-- One round of Mix. -/
def mixRound (ka kb i : Nat) (st : Nat × Nat × Nat × Nat) : Nat × Nat × Nat × Nat :=
  let (a, b, c, d) := st
  let a := (a + c) % 2 ^ 32
  let d := rotl32 (d ^^^ a) 16
  let b := (b + d) % 2 ^ 32
  let c := rotl32 (c ^^^ b) 12
  let a := (a + c) % 2 ^ 32
  let d := rotl32 (d ^^^ a) 8
  let b := (b + d) % 2 ^ 32
  let c := rotl32 (c ^^^ b) 7
  ((a + ka + i) % 2 ^ 32, (b + kb) % 2 ^ 32, c, d)

/-- Mix(key, ctr) of R228. -/
def mix (key ctr : Nat) : Nat :=
  let ka := key % 2 ^ 32
  let kb := key / 2 ^ 32 % 2 ^ 32
  let st := (ctr % 2 ^ 32, ctr / 2 ^ 32 % 2 ^ 32, ka ^^^ 0x9E3779B9, kb ^^^ 0xBB67AE85)
  let (a, b, c, d) := mixRound ka kb 3 (mixRound ka kb 2 (mixRound ka kb 1 (mixRound ka kb 0 st)))
  (a ^^^ c) + 2 ^ 32 * (b ^^^ d)

end Sys2Proof.Num
end

