-- ==== Sys2Proof/Config.lean ====
section
/-! DEFINITION. What an implementation fixes and the values the manual leaves open. No constant of this file has a
body: nothing can be proved of its value, and a claim holds whatever it is. -/

namespace Sys2Proof.Config

/-- A free choice the manual leaves open, numbered by `State.choices` (logs 3, 4, 5): the order of the lanes of one
atomic at one location (R167), which galleys a JOIN without WAIT merges (R111), which of the listed outcomes occurs. -/
opaque freeNat : Nat → Nat

/-- Of so many choices of what happens next, one more takes the event that has been able to happen for longest (R120; log 3). -/
opaque patience : Nat

/-- A free byte, for state the manual gives no layout (log 6). -/
opaque freeByte : Nat → BitVec 8

/-- ML-DSA-87 verification of a signature over a message under a public key (R38, R44; log 7). -/
opaque mlDsaVerify : List (BitVec 8) → List (BitVec 8) → List (BitVec 8) → Bool

/-- The device's ML-DSA-87 signature over a message (R43; log 7). -/
opaque mlDsaSign : List (BitVec 8) → List (BitVec 8)

/-- What the firmware check of an image finds (R28, Table 1.12). -/
inductive FirmwareVerdict where
  | pass | badSignature | badHeader
  deriving DecidableEq, Repr, Inhabited

/-- The outcome of the firmware check of an image (R28; log 7). -/
opaque firmwareCheck : List (BitVec 8) → FirmwareVerdict

/-- The fabric port that carries an access to a peer address (R24; log 31). -/
opaque peerPort : Nat → Nat

/-- What a native register holds that nothing has written since a body's entry, by entry and register cell (R265; log 9). -/
opaque freeReg : Nat → Nat → Nat

/-- The words that stand for one which a die revision has not, by revision and word (R259, R306; log 9). -/
opaque expansion : Nat → Nat → List Nat

/-- The firmware image held in flash (R27; log 7). -/
opaque flashImage : List (BitVec 8)

/-- The identity public key, endorsement and endorsement-key identifier of R42 (log 7). -/
opaque identityKey : List (BitVec 8)
opaque endorsement : List (BitVec 8)
opaque endorsementKeyId : Nat

end Sys2Proof.Config
end

