-- ==== Sys2Proof/Machine/Memory.lean ====
section
/-! DEFINITION. Byte memory as a sorted list of cells in one canonical form, and sparse tables. An unlisted byte reads
0 (R27 zero-fills device memory at bring-up; R160 and R375 zero a core's scratchpad and tiles). -/

namespace Sys2Proof.Machine

/-- A byte memory: addresses strictly rising, no cell equal to what an unlisted address reads as. -/
abbrev Memory := List Host.Cell

/-- What an unlisted address reads as (R27). -/
def Memory.unlisted : Byte := 0

/-- The byte at an address. -/
def Memory.read : Memory → Nat → Byte
  | [], _ => Memory.unlisted
  | (k, b) :: r, a => if k = a then b else if a < k then Memory.unlisted else Memory.read r a

/-- Store one byte, keeping the canonical form. -/
def Memory.write : Memory → Nat → Byte → Memory
  | [], a, v => if v = Memory.unlisted then [] else [(a, v)]
  | (k, b) :: r, a, v =>
    if k = a then (if v = Memory.unlisted then r else (a, v) :: r)
    else if a < k then (if v = Memory.unlisted then (k, b) :: r else (a, v) :: (k, b) :: r)
    else (k, b) :: Memory.write r a v

/-- Addresses above `lo` strictly rising and no listed unlisted value. -/
def Memory.wfFrom : Nat → Memory → Bool
  | _, [] => true
  | lo, (k, b) :: r => decide (lo ≤ k) && (b != Memory.unlisted) && Memory.wfFrom (k + 1) r

/-- The canonical form. -/
def Memory.wf (m : Memory) : Bool := Memory.wfFrom 0 m

/-- `n` bytes from an address up. -/
def Memory.readBytes (m : Memory) : Nat → Nat → List Byte
  | _, 0 => []
  | a, n + 1 => m.read a :: Memory.readBytes m (a + 1) n

/-- Store a run of bytes. -/
def Memory.writeBytes (m : Memory) : Nat → List Byte → Memory
  | _, [] => m
  | a, b :: bs => Memory.writeBytes (m.write a b) (a + 1) bs

/-- A little-endian number from its bytes (R4). -/
def leNat : List Byte → Nat
  | [] => 0
  | b :: bs => b.toNat + 256 * leNat bs

/-- The `n` little-endian bytes of a number. -/
def leBytes : Nat → Nat → List Byte
  | 0, _ => []
  | n + 1, v => BitVec.ofNat 8 v :: leBytes n (v / 256)

/-- Mem[a, n] as a number. -/
def Memory.readNat (m : Memory) (a n : Nat) : Nat := leNat (m.readBytes a n)

/-- Mem[a, n] := v. -/
def Memory.writeNat (m : Memory) (a n v : Nat) : Memory := m.writeBytes a (leBytes n v)

/-- Zero `n` bytes: drop every cell of the span. -/
def Memory.zero (m : Memory) (a n : Nat) : Memory := m.filter (fun c => !(decide (a ≤ c.1) && decide (c.1 < a + n)))

/-- A sparse table; a missing key reads as the table's default. -/
abbrev Tbl (α : Type) := List (Nat × α)

def Tbl.get? {α : Type} : Tbl α → Nat → Option α
  | [], _ => none
  | (k, v) :: r, i => if k = i then some v else Tbl.get? r i

def Tbl.getD {α : Type} (t : Tbl α) (i : Nat) (d : α) : α :=
  match t.get? i with
  | some v => v
  | none => d

def Tbl.set {α : Type} : Tbl α → Nat → α → Tbl α
  | [], i, v => [(i, v)]
  | (k, x) :: r, i, v => if k = i then (i, v) :: r else if i < k then (i, v) :: (k, x) :: r else (k, x) :: Tbl.set r i v

def Tbl.erase {α : Type} (t : Tbl α) (i : Nat) : Tbl α := t.filter (fun e => e.1 != i)

end Sys2Proof.Machine
end

