-- ==== Sys2Proof/Machine/State.lean ====
section
/-! DEFINITION. The state of the device as plain data, and the state right after a cold reset. Each structure names
the rules that give its fields. -/

namespace Sys2Proof.Machine

open Sys2Proof

/-- Why the machine stops with a fault. -/
inductive Fault where
  /-- Raised by `execHostWrite`, `execHostRead`, `execHostAtomic` and `execPeerAccess` when the physical address lies
  outside device memory (R140): there is no such address. Safe. -/
  | noSuchAddress (pa : Nat)
  deriving DecidableEq, Repr

/-- Why the machine has no meaning for something. -/
inductive Refusal where
  /-- Raised by the arms of `exec` that have no meaning yet. Safe. -/
  | notModelled (mnemonic : String)
  deriving DecidableEq, Repr

/-! ### Values and threads (chapter 5) -/

/-- A value of class U, A or S (R95, R96). `cmp` is an R103 compare that no branch has evaluated yet. -/
inductive Val where
  | u (v : Bits)
  | a (base step : Word)
  | cmp (pred : Nat) (ty : Ty) (base step : Word) (u : Bits) (affineFirst : Bool)
  | s (lanes : List Bits)
  deriving DecidableEq, Repr

/-- A value with its Laold type. -/
structure TVal where
  ty  : Ty
  val : Val
  deriving DecidableEq, Repr

/-- Translation of one page: what a TLB entry holds (R148). `tgt` is 0 device, 1 host, 2 peer memory. -/
structure TlbEntry where
  tenant : Nat
  ctx    : Nat
  va     : Nat
  size   : Nat
  pa     : Nat
  tgt    : Nat
  tso    : Bool
  w      : Bool
  deriving DecidableEq, Repr

/-- The result of a walk, held for the access that asked: the entry it found, or the check of Table 7.3 it failed. -/
structure WalkResult where
  page   : Nat
  entry  : Option TlbEntry
  code   : Nat
  deriving DecidableEq, Repr

/-- A physical target found by a translation: memory kind and address. -/
structure PTarget where
  tgt : Nat
  pa  : Nat
  deriving DecidableEq, Repr

/-- Why a candidate is parked (Table 6.2 and the waits of the instruction chapters). -/
inductive Wait where
  | none
  /-- Translation miss at a block entry. -/
  | xlate
  /-- A walk in progress, and a page fault in service. -/
  | mem
  | fault
  /-- At the entry of the recorded reconvergence block (R106), or of the per-item one (R108). -/
  | reconv
  /-- Standing at a barrier or a JOIN WAIT, with the count operand; `split` for `bararr`, which does not wait for the
  phase once the group has arrived (R114). -/
  | barrier (count : Nat) (split : Bool)
  | join
  /-- `barwait` for the recorded phase. -/
  | phase (p : Nat)
  | queueSpace (q n : Nat)
  | queueData (q n : Nat)
  | batch (b : Nat)
  | batchRoom
  /-- `cntwait`: the counter and the value it waits for; `met` once an add that landed has satisfied it (R371). -/
  | counter (tgt pa target : Nat) (met : Bool)
  | seqSlot (k : Nat)
  | ringIdle (k : Nat)
  | rangeRoom
  /-- An engine command that the range checker holds behind an earlier one (Table 6.2). -/
  | rangeHeld (command : Nat)
  /-- A matrix instruction: too few unclaimed full slots, or an energy budget that cannot pay its cost. -/
  | slots (rings : List Nat) (n : Nat)
  | energy (cost : Nat)
  /-- A tile that an unretired matrix operation writes (R375). -/
  | tile (t : Nat)
  /-- An access that waits while its lines are owned by an engine, or, for a write, locked in serial mode. -/
  | lines (ts : List PTarget) (write : Bool)
  /-- A tile in CONVERTING (R239): record address and tile. -/
  | tileConv (record tile : Nat)
  | grant
  | fbar
  /-- Earlier stores or no-return atomics of the groups are still to be performed. -/
  | drain
  /-- A native body is left once the stores whose two halves have issued are performed (R256). -/
  | pairs
  | txUnits (beg : Bool)
  | nap
  /-- Stopped at a `brk`, or a bare stop of the fatal state (R48). -/
  | stopped
  deriving DecidableEq, Repr

/-- A shape that a body serves (R263): entry index, galley or leaf, classes of the live values. -/
structure Shape where
  instr   : Nat
  galley  : Bool
  classes : List Nat
  deriving DecidableEq, Repr

/-! ### Native bodies (chapter 12) -/

/-- An entry of a native load queue (R252): its lanes' data, whether the reply has arrived, and the push bits of the load
word, which take effect when it has. -/
structure LoadEntry where
  arrived : Bool
  lanes   : List Nat
  push    : Nat
  deriving DecidableEq, Repr

/-- The A half of a native store: lanes with their targets, bytes per target, and push bits; `spad` for `st.s`; `narrow` gives the
first bit and the bits of the lanes' elements where a `tnst` stores less than a byte each (R256); `seq` its number in the order of issue. -/
structure StoreA where
  spad    : Bool
  targets : List (Nat × Nat × Nat)
  narrow  : List (Nat × Nat × Nat)
  bytes   : Nat
  push    : Nat
  seq     : Nat
  deriving DecidableEq, Repr

/-- The S half: the data of every lane, and push bits. -/
structure StoreS where
  lanes : List Nat
  push  : Nat
  deriving DecidableEq, Repr

/-- A value record (Table 12.9): class, type, ARG mark, number, and descriptors. -/
structure ConcVal where
  cls   : Nat
  ty    : Ty
  arg   : Bool
  idx   : Nat
  descs : List Nat
  deriving DecidableEq, Repr

/-- A concordance entry (Table 12.7). -/
structure ConcEnt where
  noff  : Nat
  kind  : Nat
  block : Nat
  instr : Nat
  aoff  : Nat
  xoff  : Nat
  soff  : Nat
  tok   : Nat
  vals  : List ConcVal
  deriving DecidableEq, Repr

/-- An exit record (R266). -/
structure ExitRec where
  target : Nat
  vals   : List ConcVal
  deriving DecidableEq, Repr

/-- A native body as an image holds it (Table 12.6): the entry word of each queue, TOKINIT, its
words, exit records and concordance. -/
structure NatCode where
  aoff    : Nat
  xoff    : Nat
  soff    : Nat
  tok     : Nat
  words   : List Nat
  exits   : List ExitRec
  conc    : List ConcEnt
  deriving DecidableEq, Repr

/-- A unit that runs a native body (R251 to R256): the body, the word index of each prefetcher, the queue that issues next,
lane registers (512·register + lane), uniform registers, load queues, token counters in ring order A>X X>S S>A X>A S>X A>S,
the store halves that have no partner yet, the type of the operand that the next word converts, the scratchpad byte and the
bytes of its spill share, and the number of its entry, which names what a register nothing has written holds. `affine` holds, for a
galley of several groups, the class A values and the compares of R103 that lane registers carry (R96, R98), by twice the register plus 1
for a pair; `lone` says of a compare about to execute that only branches use it. -/
structure NativeRun where
  code    : NatCode
  aoff    : Nat
  xoff    : Nat
  soff    : Nat
  turn    : Nat
  lanes   : Tbl Nat
  uni     : Tbl Nat
  loads   : Tbl (List LoadEntry)
  tokens  : List Nat
  stores  : List StoreA
  data    : List StoreS
  src     : Ty
  share   : Nat
  shareLen : Nat
  entry   : Option Nat
  affine  : Tbl Val
  lone    : Bool
  deriving DecidableEq, Repr

/-- One running piece of program state: a path, an item, or a whole galley. `vals` holds the values the block has
defined, the newest first, so that distance d names entry d − 1 (R280). `body` and `shape` name the translation and the
body it runs (R263), and `native` is its run where that body is native words. `entering` holds from a transfer to a block's
entry until its JOIN is passed (R110). -/
structure Thread where
  mask   : Mask
  block  : Nat
  instr  : Nat
  args   : List TVal
  vals   : List TVal
  stack  : List Nat
  split  : Nat
  wait   : Wait
  body   : Option Nat
  shape  : Shape
  native : Option NativeRun
  walks  : List WalkResult
  brkOk  : Bool
  entering : Bool
  deriving DecidableEq, Repr

/-- An item in per-item mode (R108). -/
structure Item where
  lane : Nat
  th   : Thread
  deriving DecidableEq, Repr

/-- A byte that an item has stored in per-item mode: memory (3 for scratchpad), address, and the highest lane that wrote it. -/
structure ItemMark where
  space : Nat
  addr  : Nat
  lane  : Nat
  deriving DecidableEq, Repr

/-- A path (R105): its thread, the reconvergence block it recorded, its items in per-item mode and the bytes they have stored
(R109). -/
structure Path where
  th       : Thread
  reconv   : Option Nat
  items    : List Item
  piReconv : Option Nat
  marks    : List ItemMark
  deriving DecidableEq, Repr

/-- A galley or leaf (R95). A piece on a pending list has no core (R128). -/
structure Galley where
  id      : Nat
  launch  : Nat
  first   : Nat
  count   : Nat
  core    : Option Nat
  slot    : Nat
  age     : Nat
  home    : Nat
  paths   : List Path
  phase   : Nat
  pending : Bool
  recorded : Nat
  arrived : Bool
  /-- A captured piece that a RESUME has bound to its image's core (R91). -/
  fixed   : Bool
  deriving DecidableEq, Repr

/-- Unit of execution: galley id, path slot, and the item's lane in per-item mode. -/
structure UnitId where
  galley : Nat
  path   : Nat
  item   : Option Nat
  deriving DecidableEq, Repr

/-! ### Transactions and per-group state (R163, R199, R404, R409) -/

/-- Read-log entry: sector, logged value, lanes (R201). -/
structure ReadEnt where
  tgt   : Nat
  pa    : Nat
  val   : List Byte
  lanes : Mask
  deriving DecidableEq, Repr

/-- One buffered byte: offset in the sector, value, writing lane. -/
structure WByte where
  off  : Nat
  val  : Byte
  lane : Nat
  deriving DecidableEq, Repr

/-- Write-log entry (R201). -/
structure WriteEnt where
  tgt   : Nat
  pa    : Nat
  bytes : List WByte
  deriving DecidableEq, Repr

/-- A tile reached through a handle inside a transaction (R206). -/
structure TxTile where
  record : Nat
  tile  : Nat
  lanes : Mask
  deriving DecidableEq, Repr

structure Tx where
  depth   : Nat
  excess  : Nat
  fails   : Nat
  serial  : Bool
  lanes   : Mask
  inTx    : Mask
  aborted : Mask
  causes  : Tbl Nat
  /-- Some of its accesses were translated before a CTX.INVAL that is still BUSY (R150). -/
  old     : Bool
  reads   : List ReadEnt
  writes  : List WriteEnt
  tiles   : List TxTile
  deriving DecidableEq, Repr

/-- State a group keeps even inside a multi-group galley: batches (R163), transaction (R199), and its lanes that have retired. -/
structure GroupSt where
  lastClosed : Nat
  openCmds   : List Nat
  batches    : List (Nat × List Nat)
  tx         : Tx
  gone       : Mask
  deriving DecidableEq, Repr

/-- A domain and its barrier (R113). `first` is the count operand the phase recorded; `live` groups not retired. -/
structure Domain where
  placed   : Bool
  phase    : Nat
  expected : Nat
  arrived  : Nat
  first    : Nat
  live     : Nat
  deriving DecidableEq, Repr

/-! ### Launches, graphs, packets (chapters 3 and 4) -/

/-- A started packet that has not completed (R61, R62), with the context its queue had at the start; `walks` are the walks that a
REPLAY_ALL began (R155), and the galleys that a RESUME has still to place and prime (R90). -/
structure Packet where
  id     : Nat
  q      : QId
  ctx    : Nat
  opcode : Nat
  hdr    : List Byte
  body   : List Byte
  sig    : Option PTarget
  irq    : Bool
  vec    : Nat
  status : Option PTarget
  walks  : List Nat
  deriving DecidableEq, Repr

/-- A launch (Table 4.4). -/
structure Launch where
  id      : Nat
  tenant  : Nat
  ctx     : Nat
  hdr     : List Byte
  body    : List Byte
  objId   : Nat
  obj     : Nat
  entry   : Nat
  g       : Nat
  n       : Nat
  ext     : List Nat
  budget  : Nat
  spad    : Nat
  domLevel : Nat
  domGroups : Nat
  clmask  : Nat
  tag     : Nat
  idem    : Bool
  args    : List TVal
  status  : Option PTarget
  packet  : Option Nat
  node    : Option (Nat × Nat)
  placed  : Bool
  restored : Bool
  retired : Nat
  groups  : Tbl GroupSt
  domains : Tbl Domain
  deriving DecidableEq, Repr

/-- A graph replay (R83 to R85). `wait` while it waits for STATE 0; `ready` holds the nodes to dispatch next, `abandon` the
code, the node and the launch check's own code; `via` the queue of the RESUME packet that has restored it, which has no packet. -/
structure Replay where
  id      : Nat
  tenant  : Nat
  ctx     : Nat
  graph   : Nat
  recAddr : Nat
  packet  : Option Nat
  wait    : Bool
  gen     : Nat
  nodes   : Nat
  ready   : List Nat
  dispatched : List Nat
  running : List Nat
  retired : Nat
  records : Nat
  abandon : Option (Nat × Nat × Nat)
  assisted : Bool
  via     : Option QId
  deriving DecidableEq, Repr

/-- A PATCH in progress (R86). -/
structure PatchOp where
  id     : Nat
  tenant : Nat
  ctx    : Nat
  graph  : Nat
  src    : Nat
  count  : Nat
  packet : Nat
  gen    : Option Nat
  deriving DecidableEq, Repr

/-! ### Code objects and translations (chapters 2, 12, 13) -/

/-- A loaded object (R45, R289): the header fields in use, the page hashes, and the verified text shadows. -/
structure CodeObj where
  inst     : Nat
  objId    : Nat
  va       : Nat
  bytes    : Nat
  minor    : Nat
  behaviour : Nat
  signer   : Nat
  pageBase : Nat
  npage    : Nat
  nfunc    : Nat
  nblock   : Nat
  nsect    : Nat
  funcOff  : Nat
  blockOff : Nat
  textOff  : Nat
  textWords : Nat
  sectOff  : Nat
  hashes   : List (List Byte)
  shadows  : Tbl (List Byte)
  digest   : List Byte
  deriving DecidableEq, Repr

/-- A body of a translation (R263): its shape, its bytes in a cache, its words, exit records and concordance, and whether a compositor
made it: such a body runs as its Laold block (R261, R262; log 9). -/
structure Body where
  shape : Shape
  bytes : Nat
  code  : Option NatCode
  made  : Bool
  deriving DecidableEq, Repr

/-- A translation (R263, R264): its key, the block's words and pool as the compositor read them, the argument
types of the blocks and the first blocks of the functions that it names, the virtual addresses of its words and its pool, the die whose
store part holds its image (none once it has left the store), its SPILLBYTES, and its bodies, the latest used first. -/
structure Xlat where
  id     : Nat
  tenant : Nat
  ctx    : Nat
  obj    : Nat
  block  : Nat
  rev    : Nat
  budget : Nat
  width  : Nat
  words  : List Nat
  pool   : List Nat
  argTys : List Ty
  flags  : Nat
  heads  : List (Nat × List Ty)
  callees : List (Nat × Nat)
  textAt : Nat
  poolAt : Nat
  die    : Option Nat
  spill  : Nat
  bodies : List Body
  live   : Bool
  deriving DecidableEq, Repr

/-- A request that a compositor queues (R138). -/
structure XReq where
  tenant : Nat
  ctx    : Nat
  obj    : Nat
  block  : Nat
  budget : Nat
  width  : Nat
  shape  : Shape
  deriving DecidableEq, Repr

/-- An upper-level entry that a cluster's walker holds (R150): the level it was read at, the part of the virtual address above that level's
reach, and the table it names. -/
structure UpperEnt where
  tenant : Nat
  ctx    : Nat
  level  : Nat
  part   : Nat
  table  : Nat
  deriving DecidableEq, Repr

/-- A cluster's share of the machine: L2 TLB, record cache, rotation pointer, compositor queue, the bodies of its
translation cache (translation, shape), the counters of Table 12.11, and the walker's upper-level entries. -/
structure Cluster where
  tlb    : List TlbEntry
  recs   : List (Nat × Nat × Nat × List Byte)
  rot    : Nat
  queue  : List XReq
  cache  : List (Nat × Shape)
  counts : List Nat
  upper  : List UpperEnt
  deriving DecidableEq, Repr

/-! ### Cores (chapters 5, 6, 7, 9, 11, 18) -/

/-- A matrix ring (R247, R376). -/
structure Ring where
  valid : Bool
  base  : Nat
  slots : Nat
  bytes : Nat
  head  : Nat
  tail  : Nat
  deriving DecidableEq, Repr

/-- A running sequencer slot (R245): its number among engine commands, its descriptor, who started it, the index of its
next emission, TAIL at issue, and the counter. -/
structure SeqRun where
  id     : Nat
  desc   : List Byte
  launch : Nat
  group  : Nat
  next   : Nat
  t0     : Nat
  counter : PTarget
  deriving DecidableEq, Repr

/-- A sequencer slot (R244). -/
structure SeqSlot where
  desc : Option (List Byte)
  run  : Option SeqRun
  deriving DecidableEq, Repr

/-- Production of a ring by a run (R247): TAIL at issue, copies per iteration, iterations, copies completed by iteration. -/
structure RingRun where
  ring    : Nat
  t0      : Nat
  per     : Nat
  iters   : Nat
  done    : Tbl Nat
  deriving DecidableEq, Repr

/-- Who issued a no-return atomic, which memory its page names, and its number in the order of issue. -/
structure AqMeta where
  launch : Nat
  group  : Nat
  tgt    : Nat
  seq    : Nat
  deriving DecidableEq, Repr

/-- An entry of the atomic queue, 16 bytes (Table 9.2); those of an entry in the overflow region (`spilled`) lie in scratchpad (R190,
R191). -/
structure AqEntry where
  lo   : Nat
  hi   : Nat
  spilled : Bool
  own  : AqMeta
  deriving DecidableEq, Repr

/-- A tensor record's bytes with its virtual address, as an engine command copies it (R235). -/
structure RecCopy where
  va    : Nat
  bytes : List Byte
  deriving DecidableEq, Repr

/-- A matrix operation in flight (R381, R382). -/
structure MatOp where
  id     : Nat
  launch : Nat
  group  : Nat
  op     : Nat
  ty     : Ty
  mod    : Nat
  lit    : Nat
  conv   : Option (RecCopy × Nat × Nat)
  slotA  : Nat
  slotB  : Nat
  tcCopy : Option Memory
  deriving DecidableEq, Repr

/-- A sector of an L1 as it was filled, and the virtual lines through which the core has read it (R156, R409). -/
structure L1Sec where
  bytes : List Byte
  lines : List Nat
  deriving DecidableEq, Repr

/-- A core. Tiles and scratchpad are byte memories; tile t's element (i, j) lies at 4096 t + 256 i + 4 j. `overHead` is the overflow
region's place of its oldest entry. -/
structure Core where
  launch  : Option Nat
  spad    : Memory
  tiles   : Memory
  queues  : List (Nat × Nat)
  l1      : Tbl L1Sec
  tlb     : List TlbEntry
  rings   : List Ring
  seqs    : List SeqSlot
  runs    : List RingRun
  mats    : List MatOp
  aq      : List AqEntry
  overHead : Nat
  evsel   : Nat
  evcnt   : List Nat
  nextAge : Nat
  rounds  : List (List (Nat × Nat))
  last    : List (Nat × Nat × Nat)
  deriving DecidableEq, Repr

/-! ### Engines, slices, faults (chapters 7, 9, 11) -/

/-- What an engine command does (Table 17.3); a matrix operation names the ring of each of its scratchpad reads. -/
inductive CmdKind where
  | cpy (srcSpad dstSpad : Bool) (src dst len : Nat)
  | cpyh (record : RecCopy) (sp dir : Nat) (c : List Int) (e0 e1 : Nat)
  | gath (sp ix n base esize : Nat) (wide : Bool)
  | gathh (sp ix n : Nat) (record : RecCopy) (wide : Bool)
  | spset (sp n : Nat) (pat : Nat)
  | matrix (rings : List Nat)
  deriving DecidableEq, Repr

/-- One end of a move of an engine: scratchpad or global memory, first byte, and bit in it. -/
structure Place where
  spad : Bool
  addr : Nat
  bit  : Nat
  deriving DecidableEq, Repr

/-- `bits` bits go from a place, or from a constant, to a place. -/
structure Move where
  src  : Option Place
  val  : Nat
  dst  : Place
  bits : Nat
  deriving DecidableEq, Repr

/-- An engine command that has not completed: the sequencer run that emitted it, its ranges for the checker (R164), the
ring iteration it writes, its counter, the lines it owns, those it will own once a serial lock on them is released (R206), the parts of
its global destination whose pages map no memory yet, the lines of which it owns once they do (R177), and,
once it has begun to write, the moves it has still to make. -/
structure Command where
  id      : Nat
  parent  : Option Nat
  kind    : CmdKind
  tenant  : Nat
  ctx     : Nat
  launch  : Nat
  group   : Nat
  core    : Nat
  engine  : Option Nat
  reads   : List (Nat × Nat)
  writes  : List (Nat × Nat)
  ring    : Option (Nat × Nat)
  counter : Option (PTarget × Nat)
  owns    : List Nat
  later   : List Nat
  dsts    : List (Nat × Nat)
  todo    : Option (List Move)
  walks   : List WalkResult
  deriving DecidableEq, Repr

/-- An `icinv` that has not completed on every cluster, and the groups that issued it (R409). -/
structure IcInv where
  id     : Nat
  tenant : Nat
  ctx    : Nat
  va     : Nat
  len    : Nat
  launch : Nat
  first  : Nat
  count  : Nat
  deriving DecidableEq, Repr

/-- An element of an exact entry (R193). -/
structure AccElem where
  acc     : Nat
  nan     : Bool
  posInf  : Bool
  negInf  : Bool
  nonNegZero : Bool
  deriving DecidableEq, Repr

/-- An exact-accumulator entry (R193); `fmt` 0 BF16, 1 FP32, 2 FP64; touched elements only are listed. -/
structure AccEntry where
  line   : Nat
  fmt    : Nat
  tenant : Nat
  ctx    : Nat
  elems  : Tbl AccElem
  deriving DecidableEq, Repr

/-- A line with a backing record (R197): its record number, the record's first byte, the bytes on that page and the
page that holds the rest; `busy` while the line is in SPILLING. -/
structure SpillRec where
  line   : Nat
  fmt    : Nat
  tenant : Nat
  ctx    : Nat
  index  : Nat
  pa     : Nat
  split  : Nat
  pa2    : Nat
  busy   : Bool
  deriving DecidableEq, Repr

/-- An L2 slice: entries most recently used first, the spill directory, and the counters of R197. -/
structure Slice where
  entries : List AccEntry
  dir     : List SpillRec
  spills  : Nat
  finals  : Nat
  deriving DecidableEq, Repr

/-- Who asked for a translation. -/
inductive Asker where
  /-- A unit, for the accesses of one of its groups: each group of a galley asks for a page once (R420). -/
  | unit (u : UnitId) (group : Nat)
  | command (id : Nat)
  | relayout (id : Nat)
  | queue (q : QId)
  /-- The fetch of a text page that a compositor needs (R46). -/
  | fetch (tenant ctx obj page : Nat)
  deriving DecidableEq, Repr

/-- A walk in progress (R148, R149) with the address of its first access; `cluster` 0xFFFF for the queue engine. -/
structure Walk where
  id      : Nat
  cluster : Nat
  tenant  : Nat
  ctx     : Nat
  page    : Nat
  va      : Nat
  access  : Nat
  askers  : List Asker
  deriving DecidableEq, Repr

/-- A page fault in service (R151); `entry` is its fault-buffer entry, if it has one. -/
structure PFault where
  id      : Nat
  cluster : Nat
  tenant  : Nat
  ctx     : Nat
  page    : Nat
  va      : Nat
  access  : Nat
  firstTouch : Bool
  slot    : Option Nat
  joined  : Nat
  askers  : List Asker
  deriving DecidableEq, Repr

/-- A fault-buffer entry (Table 7.6). -/
structure FbEntry where
  va      : Nat
  ctx     : Nat
  cause   : Nat
  access  : Nat
  cancel  : Bool
  cluster : Nat
  joined  : Nat
  seq     : Nat
  deriving DecidableEq, Repr

/-- A tenant's fault buffer on one die (R153, Table 7.7). -/
structure FaultBuf where
  entries : List FbEntry
  dropped : Bool
  deriving DecidableEq, Repr

/-- A tile that a stack's engine converts (R238): the lines it owns, the targets of its bitmap word and of the page-local parts
of both copies, and the scale words of its blocks as they were read. -/
structure TileConv where
  stack  : Nat
  tile   : Nat
  lines  : List Nat
  entry  : PTarget
  old    : List PTarget
  new    : List PTarget
  scales : List Nat
  deriving DecidableEq, Repr

/-- A relayout job (R237, R238): per-stack queues of tiles, the tile each engine converts, tiles done. -/
structure Relayout where
  id      : Nat
  tenant  : Nat
  ctx     : Nat
  record  : RecCopy
  recPa   : PTarget
  newTag  : Nat
  newBase : Nat
  map     : Nat
  counter : PTarget × Nat
  total   : Nat
  queued  : Nat
  tiles   : List (Nat × Nat)
  active  : List TileConv
  done    : Nat
  stopped : Bool
  walks   : List WalkResult
  parked  : Bool
  cluster : Nat
  deriving DecidableEq, Repr

/-- A group of a launch. -/
structure GroupRef where
  launch : Nat
  group  : Nat
  deriving DecidableEq, Repr

/-- A sector locked in serial mode with its bytes before the first write, and whether an undo record holds it. -/
structure SerialLock where
  tgt   : Nat
  pa    : Nat
  prior : List Byte
  wrote : Bool
  deriving DecidableEq, Repr

/-- The serial grant (R207, R208). -/
structure Serial where
  holder : Option GroupRef
  queue  : List GroupRef
  locks  : List SerialLock
  undo   : List PTarget
  deriving DecidableEq, Repr

/-! ### Contexts, queues, tenants, package (chapters 1 to 4) -/

/-- CTX.STAT.STATE (Table 4.2). -/
inductive CtxState where
  | disabled | running | preempted | fatal
  deriving DecidableEq, Repr

/-- What the colophon records of the first cause (Table 4.10); `dumping` until DUMP_DONE, `assisted` in host-assisted dump
mode at the entry (R70). -/
structure FatalRec where
  cause  : Nat
  count  : Nat
  die    : Nat
  core   : Nat
  time   : Nat
  tag    : Nat
  objId  : Nat
  block  : Nat
  instr  : Nat
  faddr  : Nat
  detail : Nat
  dumping : Bool
  assisted : Bool
  deriving DecidableEq, Repr

/-- A pre-emption in progress (R88): steps 1 drain, 2 stopping, 3 draining engines, 4 saved. -/
structure Preempt where
  packet  : Option Nat
  mode    : Nat
  stopping : Bool
  txOver  : Bool
  saveVa  : Nat
  saveLen : Nat
  brk     : Bool
  deriving DecidableEq, Repr

/-- A unit whose matrix instruction waits for the energy budget, with the cycle and core in which it parked (R139). -/
structure EnergyPark where
  unit  : UnitId
  clock : Nat
  core  : Nat
  deriving DecidableEq, Repr

/-- A context (R73 and the context registers of chapters 4, 7, 9, 11 and 19). -/
structure Ctx where
  state    : CtxState
  enable   : Bool
  fatalVec : Nat
  ptRoot   : Nat
  dumpBase : Nat
  dumpSize : Nat
  accBase  : Nat
  poolBase : Nat
  poolMap  : Nat
  poolPages : Nat
  inval    : Nat
  invalBusy : Bool
  /-- Commands, sequencer runs and relayouts numbered below this were issued before the CTX.INVAL write (R150). -/
  invalFrom : Nat
  accSize  : Nat
  undoBase : Nat
  undoSize : Nat
  enUnlimited : Bool
  enBudget : Nat
  enRate   : Nat
  dbgCtl   : Nat
  dbgSave  : Nat
  dbgSize  : Nat
  dbgGroup : Nat
  dbgCode  : Nat
  dbgHit   : Bool
  objs     : List CodeObj
  fatal    : Option FatalRec
  preempt  : Option Preempt
  energy   : List EnergyPark
  revoking : List Nat
  deriving DecidableEq, Repr

/-- QUE.STAT.STATE (03 R51). -/
inductive QState where
  | idle | active | blocked | stopped
  deriving DecidableEq, Repr

/-- A queue's registers (03 R51), its last eight parsed headers (R94), whether the header at RP is the last of them, and whether the packet
at RP has passed its checks, with its bytes as they were read for these (R54, R59). -/
structure Queue where
  base    : Nat
  enable  : Bool
  errVec  : Nat
  ctx     : Nat
  logSize : Nat
  wp      : Nat
  rp      : Nat
  gate    : Nat
  state   : QState
  cause   : Nat
  subcode : Nat
  opcode  : Nat
  actErr  : Bool
  heads   : List (List Byte)
  blocker : Option Nat
  walks   : List WalkResult
  gateSet : Bool
  parsed  : Bool
  checked : Bool
  packet  : List Byte
  deriving DecidableEq, Repr

/-- A tenant (02 R32 to R38). `wins` holds TEN.WINn. -/
structure Tenant where
  enable  : Bool
  refOff  : Nat
  refused : Bool
  clmask  : Nat
  cemask  : Nat
  wins    : Tbl Nat
  mode    : Nat
  assist  : Nat
  fbLog   : Nat
  enAllow : Nat
  signAddr : Nat
  signBusy : Option Nat
  signRemove : Nat
  keys    : Tbl (List Byte)
  w2ptr   : Nat
  n1ptr   : Nat
  bufs    : Tbl FaultBuf
  deriving DecidableEq, Repr

/-- A press pair's flux estimate (R26): updates in a row above 700 and below 650 W/cm², whether level 1 acts, and
whether the last estimate is above 750. -/
structure Flux where
  above : Nat
  below : Nat
  acts  : Bool
  high  : Bool
  deriving DecidableEq, Repr

/-- A compute die (R15, R26): its clock step, whether level 2 acts and is being released, and the flux of its pairs. -/
structure Die where
  clkStep : Nat
  level2  : Bool
  cooling2 : Bool
  flux    : Tbl Flux
  deriving DecidableEq, Repr

/-- Package-level state (chapter 1; slot tables of 02 R39 to R41). `flash` is a firmware image that recovery has stored; `aperture` the
size of the physical function's device-memory aperture in GiB (Table 1.6);
`lastCl` and `lastWin` hold the last owner of a cluster and of a GiB of memory, plus 1 (R34). -/
structure Package where
  powered : Bool
  step    : Nat
  ready   : Bool
  failed  : Bool
  coolwarn : Bool
  coolBad : Bool
  unit    : Nat
  failCode : Nat
  refOff  : Nat
  refused : Bool
  recBusy : Bool
  recLen  : Nat
  recBuf  : Memory
  flash   : Option (List Byte)
  linkUp  : Bool
  aperture : Nat
  level3  : Bool
  cooling3 : Bool
  level4  : Bool
  dies    : Tbl Die
  ports   : Tbl PortState
  slots   : Tbl Nat
  served  : Tbl Nat
  slotGen : Nat
  lastCl  : Tbl Nat
  lastWin : Tbl Nat
  clock   : Nat
  attests : Nat
  fwHash  : List Byte
  identity : Bool
  softErrors : Nat
  poison  : List Nat
  fbSeq   : Tbl Nat
  deriving DecidableEq, Repr

/-- The queue engine (03 R67). -/
structure QEngine where
  start : Nat
  given : Tbl Nat
  deriving DecidableEq, Repr

/-- Where a unit stands: its translation and body, and the instruction, or a native word's index plus 1 (R133). -/
abbrev CodePlace := Option Nat × Shape × Nat × Nat

/-- The issue slot that runs: its core and queue, the event that it counts (R132, Table 19.4), the place at which its units stand, and
the units that it has chosen so far (R133). -/
structure IssueSlot where
  core  : Nat
  queue : Nat
  event : Nat
  place : CodePlace
  tried : List UnitId
  deriving DecidableEq, Repr

/-- A queue that has issued and for how many more cycles it issues nothing else (R131, R134, R135). -/
structure Issued where
  core  : Nat
  queue : Nat
  left  : Nat
  deriving DecidableEq, Repr

/-- Something that may happen next: an instruction of the table (the events of the device and of its surroundings among them), by
name where its number is high, the next act of the agenda, and a tick of the clocks. -/
inductive Ev where
  | act (i : Instr)
  | stored (galley : Nat)
  | icinv (id : Nat)
  | keyCopied (tenant : Nat)
  | drainExpiry (tenant ctx : Nat)
  | txTimeout (tenant ctx : Nat)
  | revTimeout (tenant ctx : Nat)
  | agenda
  | tick
  deriving DecidableEq, Repr

/-- The whole device. `agenda` is what the host and the world still do, in order; `cur` holds the units of
the issue slot that runs next, the leader first (R132, R133); `waiting` holds the events that can happen, in the order in which they became able to (R120);
`peerAcc` the peer modules' exact entries that this module's groups made (R186, R192); `hostRetry` says that the host's last
configuration read got Request Retry Status (R22); `choices` numbers the free values taken so far, and `turns` the free choices
of what happens next (log 3); `nextId` names new records. -/
structure State where
  pkg       : Package
  mem       : Memory
  hostMem   : Memory
  peerMem   : Memory
  peerAcc   : List AccEntry
  tenants   : Tbl Tenant
  ctxs      : Tbl Ctx
  queues    : Tbl Queue
  qe        : QEngine
  packets   : List Packet
  launches  : List Launch
  galleys   : List Galley
  replays   : List Replay
  patches   : List PatchOp
  xlats     : List Xlat
  clusters  : Tbl Cluster
  cores     : Tbl Core
  slices    : Tbl Slice
  commands  : List Command
  icinvs    : List IcInv
  walks     : List Walk
  faults    : List PFault
  relayouts : List Relayout
  serial    : Serial
  msix      : List (Nat × Nat)
  hostRet   : List Byte
  hostRetry : Bool
  cur       : List UnitId
  slot      : Option IssueSlot
  issued    : List Issued
  waiting   : List Ev
  agenda    : List Instr
  choices   : Nat
  turns     : Nat
  nextId    : Nat
  deriving DecidableEq, Repr

/-! ### Values at reset -/

def Thread.empty : Thread := ⟨0, 0, 0, [], [], [], 0, .none, none, ⟨0, false, []⟩, none, [], false, false⟩
def Tx.empty : Tx := ⟨0, 0, 0, false, 0, 0, 0, [], false, [], [], []⟩
def GroupSt.empty : GroupSt := ⟨0, [], [], .empty, 0⟩
def Ring.empty : Ring := ⟨false, 0, 0, 0, 0, 0⟩
def Core.reset : Core :=
  { launch := none, spad := [], tiles := [], queues := List.replicate 16 (0, 0), l1 := [], tlb := [],
    rings := List.replicate 6 Ring.empty, seqs := List.replicate 4 ⟨none, none⟩, runs := [], mats := [], aq := [],
    overHead := 0, evsel := 0, evcnt := [0, 0, 0, 0], nextAge := 0, rounds := [[], [], []], last := [] }
def Cluster.reset : Cluster := ⟨[], [], 0, [], [], List.replicate 10 0, []⟩
def Slice.reset : Slice := ⟨[], [], 0, 0⟩
def FaultBuf.reset : FaultBuf := ⟨[], false⟩
def Ctx.reset : Ctx :=
  { state := .disabled, enable := false, fatalVec := 0, ptRoot := 0, dumpBase := 0, dumpSize := 0, accBase := 0,
    poolBase := 0, poolMap := 0, poolPages := 0, inval := 0, invalBusy := false, invalFrom := 0, accSize := 0, undoBase := 0,
    undoSize := 0, enUnlimited := false, enBudget := 0, enRate := 0, dbgCtl := 0, dbgSave := 0, dbgSize := 0,
    dbgGroup := 0, dbgCode := 0, dbgHit := false, objs := [], fatal := none, preempt := none, energy := [],
    revoking := [] }
def Queue.reset : Queue :=
  { base := 0, enable := false, errVec := 0, ctx := 0, logSize := 12, wp := 0, rp := 0, gate := 0, state := .idle,
    cause := 0, subcode := 0, opcode := 0, actErr := false, heads := [], blocker := none, walks := [],
    gateSet := false, parsed := false, checked := false, packet := [] }
def Tenant.reset : Tenant :=
  { enable := false, refOff := 0, refused := false, clmask := 0, cemask := 0, wins := [], mode := 0, assist := 0,
    fbLog := 8, enAllow := 0, signAddr := 0, signBusy := none, signRemove := 0, keys := [], w2ptr := 0, n1ptr := 16,
    bufs := [] }
def Die.reset : Die := ⟨0, false, false, []⟩
def Package.reset : Package :=
  { powered := true, step := 1, ready := false, failed := false, coolwarn := false, coolBad := false, unit := 0xFF,
    failCode := 0, refOff := 0, refused := false, recBusy := false, recLen := 0, recBuf := [], flash := none,
    linkUp := false, aperture := 1, level3 := false, cooling3 := false, level4 := false, dies := [], ports := [], slots := [],
    served := [], slotGen := 0, lastCl := [], lastWin := [], clock := 0, attests := 0, fwHash := [],
    identity := false, softErrors := 0, poison := [], fbSeq := [] }

/-- The machine right after power-good: bring-up stands in step 1 (R27), no tenant is enabled, nothing is loaded. -/
def State.reset : State :=
  { pkg := .reset, mem := [], hostMem := [], peerMem := [], peerAcc := [], tenants := [], ctxs := [], queues := [],
    qe := ⟨0, []⟩, packets := [], launches := [], galleys := [], replays := [], patches := [], xlats := [],
    clusters := [], cores := [], slices := [], commands := [], icinvs := [], walks := [], faults := [],
    relayouts := [], serial := ⟨none, [], [], []⟩, msix := [], hostRet := [], hostRetry := false, cur := [], slot := none, issued := [], waiting := [], agenda := [],
    choices := 0, turns := 0, nextId := 1 }

end Sys2Proof.Machine
end

