-- ==== Sys2Proof/Machine/Tables.lean ====
section
/-! DEFINITION. The state's tables read and written by number, and the fixed facts of the package (R12 to R18). -/

namespace Sys2Proof.Machine

open Sys2Proof

/-! ### Fixed facts -/

/-- The cluster of a core: eight cores to a cluster. -/
def clusterOf (core : Nat) : Nat := core / 8

/-- The die of a cluster: dies 0 and 1 have 8 clusters each, dies 2 and 3 have 12. -/
def dieOfCluster (cl : Nat) : Nat := if cl < 16 then cl / 8 else 2 + (cl - 16) / 12

def dieOf (core : Nat) : Nat := dieOfCluster (clusterOf core)

/-- A die of narrow (N1) cores. -/
def narrowDie (d : Nat) : Bool := decide (2 ≤ d)

/-- Revision code (Table 1.1). -/
def revOf (d : Nat) : Nat := if narrowDie d then 0x21 else 0x12

/-- Lanes per core. -/
def lanesOf (core : Nat) : Nat := if narrowDie (dieOf core) then 32 else 64

/-- Scratchpad bytes per core (R160). -/
def spadOf (core : Nat) : Nat := if narrowDie (dieOf core) then 384 * 1024 else 512 * 1024

/-- The cores of a cluster. -/
def coresOfCluster (cl : Nat) : List Nat := (List.range 8).map (fun i => 8 * cl + i)

/-- The clusters of a die. -/
def clustersOfDie (d : Nat) : List Nat := (List.range 40).filter (fun c => dieOfCluster c == d)

/-- The registers of a budget code (Table 4.4). -/
def budgetRegs (code : Nat) : Nat := 16 * 2 ^ code

/-- Bytes of device memory (R140). -/
def deviceBytes : Nat := 384 * 2 ^ 30

/-- The home slice of a device physical address, as die and slice (R158). -/
def homeSlice (pa : Nat) : Nat × Nat :=
  (Word.field pa 38 30 / 96,
    Word.field pa 11 7 ^^^ Word.field pa 16 12 ^^^ Word.field pa 21 17 ^^^ Word.field pa 26 22 ^^^ Word.field pa 31 27)

/-- The home stack of a device physical address (R158). -/
def homeStack (pa : Nat) : Nat :=
  2 * (Word.field pa 38 30 / 96) +
    (Word.field pa 7 7 ^^^ Word.field pa 12 12 ^^^ Word.field pa 17 17 ^^^ Word.field pa 22 22 ^^^ Word.field pa 27 27)

/-- The slice number 0 to 127 of an address, the resource order of R41 less 8. -/
def sliceOf (pa : Nat) : Nat := 32 * (homeSlice pa).1 + (homeSlice pa).2

/-- Bit `i` of a lane mask. -/
def laneIn (m : Mask) (i : Nat) : Bool := m.getLsbD i

/-- The lanes of a mask, ascending. -/
def lanesIn (m : Mask) : List Nat := (List.range 64).filter (laneIn m)

/-- The mask of a list of lanes. -/
def maskOf : List Nat → Mask
  | [] => 0
  | l :: r => maskOf r ||| BitVec.ofNat 64 (2 ^ l)

/-- Lanes 0 to n − 1. -/
def maskBelow (n : Nat) : Mask := BitVec.ofNat 64 (2 ^ n - 1)

/-! ### Reading and writing the tables -/

namespace State

def core (s : State) (c : Nat) : Core := s.cores.getD c .reset
def setCore (s : State) (c : Nat) (x : Core) : State := { s with cores := s.cores.set c x }
def cluster (s : State) (c : Nat) : Cluster := s.clusters.getD c .reset
def setCluster (s : State) (c : Nat) (x : Cluster) : State := { s with clusters := s.clusters.set c x }
def slice (s : State) (c : Nat) : Slice := s.slices.getD c .reset
def setSlice (s : State) (c : Nat) (x : Slice) : State := { s with slices := s.slices.set c x }
def tenant (s : State) (t : Nat) : Tenant := s.tenants.getD t .reset
def setTenant (s : State) (t : Nat) (x : Tenant) : State := { s with tenants := s.tenants.set t x }
def ctx (s : State) (t k : Nat) : Ctx := s.ctxs.getD (16 * t + k) .reset
def setCtx (s : State) (t k : Nat) (x : Ctx) : State := { s with ctxs := s.ctxs.set (16 * t + k) x }
def queue (s : State) (q : QId) : Queue := s.queues.getD (64 * q.owner + q.q) .reset
def setQueue (s : State) (q : QId) (x : Queue) : State := { s with queues := s.queues.set (64 * q.owner + q.q) x }
def die (s : State) (d : Nat) : Die := s.pkg.dies.getD d .reset

def launch? (s : State) (i : Nat) : Option Launch := s.launches.find? (fun l => l.id == i)
def galley? (s : State) (i : Nat) : Option Galley := s.galleys.find? (fun g => g.id == i)
def xlat? (s : State) (i : Nat) : Option Xlat := s.xlats.find? (fun x => x.id == i)
def command? (s : State) (i : Nat) : Option Command := s.commands.find? (fun x => x.id == i)
def packet? (s : State) (i : Nat) : Option Packet := s.packets.find? (fun x => x.id == i)
def replay? (s : State) (i : Nat) : Option Replay := s.replays.find? (fun x => x.id == i)

def setLaunch (s : State) (l : Launch) : State :=
  { s with launches := s.launches.map (fun x => if x.id = l.id then l else x) }
def setGalley (s : State) (g : Galley) : State :=
  { s with galleys := s.galleys.map (fun x => if x.id = g.id then g else x) }
def setCommand (s : State) (c : Command) : State :=
  { s with commands := s.commands.map (fun x => if x.id = c.id then c else x) }
def setReplay (s : State) (r : Replay) : State :=
  { s with replays := s.replays.map (fun x => if x.id = r.id then r else x) }
def dropGalley (s : State) (i : Nat) : State := { s with galleys := s.galleys.filter (fun g => g.id != i) }
def dropCommand (s : State) (i : Nat) : State := { s with commands := s.commands.filter (fun c => c.id != i) }

/-- A new record number. -/
def fresh (s : State) : Nat × State := (s.nextId, { s with nextId := s.nextId + 1 })

/-- A free choice below `n` (log 3). -/
def choose (s : State) (n : Nat) : Nat × State :=
  (if n = 0 then 0 else Config.freeNat s.choices % n, { s with choices := s.choices + 1 })

/-- Send an MSI-X message: function (0 the physical function, t + 1 tenant t) and vector (R62, R72). The physical function has
16 vectors, a virtual function 64 (Table 1.6); a vector that the function does not have sends nothing (log 31). -/
def sendMsi (s : State) (fn vec : Nat) : State :=
  if vec < (if fn = 0 then 16 else 64) then { s with msix := s.msix ++ [(fn, vec)] } else s

def groupSt (l : Launch) (j : Nat) : GroupSt := l.groups.getD j .empty

/-- A group's state by reference. -/
def group (s : State) (launch j : Nat) : GroupSt :=
  match s.launch? launch with
  | some l => l.groups.getD j .empty
  | none => .empty

def setGroup (s : State) (launch j : Nat) (x : GroupSt) : State :=
  match s.launch? launch with
  | some l => s.setLaunch { l with groups := l.groups.set j x }
  | none => s

end State

/-- Revision, budget code and width that a launch's translations use on a core (R263). -/
def Launch.budgetOn (l : Launch) (core : Nat) : Nat :=
  if narrowDie (dieOf core) then l.budget / 8 % 8 else l.budget % 8

def Launch.widthCode (l : Launch) : Nat := if l.g = 8 then 0 else if l.g = 16 then 1 else if l.g = 32 then 2 else 3

/-- Groups of a launch: ⌈N / G⌉ (R75). -/
def Launch.groupCount (l : Launch) : Nat := Word.ceilDiv l.n l.g

/-- The domain of a group (R77); a launch-level launch is one domain. -/
def Launch.domainOf (l : Launch) (j : Nat) : Nat := if l.domLevel = 0 ∨ l.domGroups = 0 then 0 else j / l.domGroups

/-- Groups of one domain. -/
def Launch.domainSize (l : Launch) : Nat := if l.domLevel = 0 then l.groupCount else l.domGroups

/-- Lanes of group `j` that hold items (R75). -/
def Launch.itemLanes (l : Launch) (j : Nat) : Mask := maskBelow (min l.g (l.n - j * l.g))

/-- Group slots per core for a launch (Table 6.1). -/
def Launch.slots (l : Launch) (core : Nat) : Nat :=
  let b := budgetRegs (l.budgetOn core)
  if l.g = 64 ∧ narrowDie (dieOf core) then 512 / b / 2 else (512 / b) * (lanesOf core / l.g)

/-- Scratchpad byte of overflow entry `i` of a core under a launch's SPADBYTES (R190). -/
def Core.overAt (x : Core) (spad i : Nat) : Nat := spad - 24576 + 16 * ((x.overHead + i) % 1024)

/-- Entries of a core's FIFO that lie in the overflow region. -/
def Core.overCount (x : Core) : Nat := (x.aq.filter AqEntry.spilled).length

/-- The no-return atomics of a core that have not been performed, oldest first, with their first words (R190). -/
def State.queuedAtomics (s : State) (core : Nat) : List (AqMeta × Nat) :=
  let x := s.core core
  let spad (a : AqEntry) : Nat := match s.launch? a.own.launch with | some l => l.spad | none => 0
  (x.aq.foldl (fun (r : List (AqMeta × Nat) × Nat) a =>
    if a.spilled then (r.1 ++ [(a.own, x.spad.readNat (x.overAt (spad a) r.2) 8)], r.2 + 1) else (r.1 ++ [(a.own, a.lo)], r.2)) ([], 0)).1

/-- A tenant's clusters and copy engines as lists. -/
def Tenant.clusters (t : Tenant) : List Nat := (List.range 40).filter (fun c => Word.bit t.clmask c)
def Tenant.engines (t : Tenant) : List Nat := (List.range 32).filter (fun e => Word.bit t.cemask e)

/-- The owner of a cluster, if any tenant owns it. -/
def State.ownerOf (s : State) (cl : Nat) : Option Nat := (List.range 16).find? (fun t => Word.bit (s.tenant t).clmask cl)

/-- A device address lies in a valid window of the tenant (R35). -/
def Tenant.inWindow (t : Tenant) (pa : Nat) : Bool :=
  (List.range 16).any (fun n => let v := t.wins.getD n 0; Word.bit v 31 && v % 512 == pa / 2 ^ 30)

/-- Every byte of a span lies in valid windows; spans are below 1 GiB. -/
def Tenant.spanIn (t : Tenant) (pa n : Nat) : Bool := t.inWindow pa && t.inWindow (pa + n - 1)

/-- Fault codes of Table 19.6. -/
inductive Code where
  | nonCanonical | misaligned | pteFormat | translation | writeProtect | atomicTarget | windowViolation | memoryPoison
  | spadRange | linkError | codeFormat | codeIntegrity | nativeFormat | tokenOverflow | xlateFail | reconvergeMismatch
  | callTarget | callSignature | callDepth | barrierDivergent | barrierCount | barrierOverrun | barrierState
  | domainScope | queueSpace | nrOverflow | exactFormatConflict | accBackingFull | txUndoFull | txCapacity | txState
  | batchRange | tnRecord | tnStale | tnRelayBusy | tnFormat | engineFormat | noCopyEngine | seqFormat
  | matrixFollower | matrixFormat | tileIndex | ctlAccess | trap | check
  deriving DecidableEq, Repr

/-- The number of a fault code (Table 19.6). -/
def Code.num : Code → Nat
  | .nonCanonical => 1 | .misaligned => 2 | .pteFormat => 3 | .translation => 4 | .writeProtect => 5
  | .atomicTarget => 6 | .windowViolation => 7 | .memoryPoison => 8 | .spadRange => 9 | .linkError => 0xA
  | .codeFormat => 0x10 | .codeIntegrity => 0x11 | .nativeFormat => 0x12 | .tokenOverflow => 0x13 | .xlateFail => 0x14
  | .reconvergeMismatch => 0x20 | .callTarget => 0x21 | .callSignature => 0x22 | .callDepth => 0x23
  | .barrierDivergent => 0x28 | .barrierCount => 0x29 | .barrierOverrun => 0x2A | .barrierState => 0x2B
  | .domainScope => 0x2C | .queueSpace => 0x2D | .nrOverflow => 0x30 | .exactFormatConflict => 0x31
  | .accBackingFull => 0x32 | .txUndoFull => 0x33 | .txCapacity => 0x34 | .txState => 0x35 | .batchRange => 0x38
  | .tnRecord => 0x39 | .tnStale => 0x3A | .tnRelayBusy => 0x3B | .tnFormat => 0x3C | .engineFormat => 0x3D
  | .noCopyEngine => 0x3E | .seqFormat => 0x3F | .matrixFollower => 0x40 | .matrixFormat => 0x41 | .tileIndex => 0x42
  | .ctlAccess => 0x48 | .trap => 0x50 | .check => 0x51

/-- Every code, in the order of Table 19.6. -/
def Code.all : List Code :=
  [.nonCanonical, .misaligned, .pteFormat, .translation, .writeProtect, .atomicTarget, .windowViolation, .memoryPoison,
   .spadRange, .linkError, .codeFormat, .codeIntegrity, .nativeFormat, .tokenOverflow, .xlateFail, .reconvergeMismatch,
   .callTarget, .callSignature, .callDepth, .barrierDivergent, .barrierCount, .barrierOverrun, .barrierState,
   .domainScope, .queueSpace, .nrOverflow, .exactFormatConflict, .accBackingFull, .txUndoFull, .txCapacity, .txState,
   .batchRange, .tnRecord, .tnStale, .tnRelayBusy, .tnFormat, .engineFormat, .noCopyEngine, .seqFormat,
   .matrixFollower, .matrixFormat, .tileIndex, .ctlAccess, .trap, .check]

/-- The code of a number; TRANSLATION where the number is no code. -/
def Code.ofNum (n : Nat) : Code := (Code.all.find? (fun c => c.num == n)).getD .translation

end Sys2Proof.Machine
end

