-- ==== Sys2Proof/Machine/Slices.lean ====
section
/-! DEFINITION. Atomic operations and exact accumulation at the home slices (R186 to R195), and reads and writes of
device, host and peer memory. -/

namespace Sys2Proof.Machine

open Sys2Proof

/-! ### Slice operations (Table 9.1) -/

/-- The element type of an AOP's data kind, for the floating-point kinds. -/
def aopFloat (kind : Nat) : Option (Ty × Bool) :=
  match kind with
  | 2 => some (.bf16, false)
  | 3 => some (.f32, false)
  | 4 => some (.f64, false)
  | 5 => some (.bf16, true)
  | 6 => some (.f32, true)
  | _ => none

/-- Bytes of an AOP's data kind. -/
def aopBytes (kind : Nat) : Nat :=
  match kind with
  | 0 => 4 | 1 => 8 | 2 => 2 | 3 => 4 | 4 => 8 | 5 => 4 | 6 => 8 | _ => 16

/-- An AOP that Table 9.1 lists. -/
def aopListed (aop : Nat) : Bool :=
  let kind := aop / 8 % 8
  let op := aop % 8
  if kind < 2 then true else if kind < 7 then op == 0 || op == 1 || op == 4 || op == 5 else op == 7

/-- New value of the integer kinds. -/
def intNew (w op : Nat) (signed : Bool) (old v c : Nat) : Nat :=
  let lt (x y : Nat) : Bool :=
    if signed then decide (Word.signExtend x w < Word.signExtend y w) else decide (x % 2 ^ w < y % 2 ^ w)
  match op with
  | 0 => (old + v) % 2 ^ w
  | 1 => (old &&& v) % 2 ^ w
  | 2 => (old ||| v) % 2 ^ w
  | 3 => (old ^^^ v) % 2 ^ w
  | 4 => if lt v old then v % 2 ^ w else old
  | 5 => if lt old v then v % 2 ^ w else old
  | 6 => v % 2 ^ w
  | _ => if old % 2 ^ w = c % 2 ^ w then v % 2 ^ w else old

/-- New value of one floating-point element: fadd, fmin or fmax (R188, R189). -/
def floatNew (ty : Ty) (op rm : Nat) (ftz : Bool) (old v : Nat) : Nat :=
  match op with
  | 0 => Num.roundTy ty ⟨rm, false, ftz⟩ (Num.add rm (Num.decodeTy ty ftz old) (Num.decodeTy ty ftz v))
  | _ =>
    match Num.fmtOf ty with
    | some f => Num.minMax f (op == 5) (Num.flushSrc ty ftz old) (Num.flushSrc ty ftz v)
    | none => old

/-- New(old, v, c) of Table 9.1. -/
def aopNew (aop rm : Nat) (signed ftz : Bool) (old v c : Nat) : Nat :=
  let kind := aop / 8 % 8
  let op := aop % 8
  match aopFloat kind with
  | some (ty, false) => floatNew ty op rm ftz old v
  | some (ty, true) =>
    let w := ty.width
    floatNew ty op rm ftz (old % 2 ^ w) (v % 2 ^ w) + 2 ^ w * floatNew ty op rm ftz (old / 2 ^ w % 2 ^ w) (v / 2 ^ w % 2 ^ w)
  | none => intNew (8 * aopBytes kind) op signed old v c

/-! ### Exact entries (Table 9.3, R193, R195) -/

/-- Element type of an entry format: 0 BF16, 1 FP32, 2 FP64. -/
def accTy (fmt : Nat) : Ty := if fmt = 0 then .bf16 else if fmt = 1 then .f32 else .f64

def accWidth (fmt : Nat) : Nat := if fmt = 2 then 2176 else 320

/-- Exponent of the lowest bit. -/
def accLsb (fmt : Nat) : Int := if fmt = 2 then -1074 else -149

def accSlots (fmt : Nat) : Nat := if fmt = 0 then 2 else if fmt = 1 then 1 else 4

def accElems (fmt : Nat) : Nat := 128 / (accTy fmt).bytes

def AccElem.empty : AccElem := ⟨0, false, false, false, false⟩

/-- AddTerm of R193. -/
def AccElem.addTerm (fmt : Nat) (e : AccElem) (t : Nat) : AccElem :=
  match Num.decodeTy (accTy fmt) false t with
  | .nan => { e with nan := true }
  | .inf false => { e with posInf := true }
  | .inf true => { e with negInf := true }
  | .fin neg m x =>
    { e with
      acc := Word.wrapInt (e.acc + (Num.FVal.fin neg m x).scaled (accLsb fmt)) (accWidth fmt)
      nonNegZero := e.nonNegZero || !(m == 0 && neg) }

/-- The value an element finalises to (R195). -/
def AccElem.final (fmt : Nat) (e : AccElem) : Nat :=
  let ty := accTy fmt
  let md : Num.Mode := ⟨0, false, false⟩
  if e.nan || (e.posInf && e.negInf) then Num.roundTy ty md .nan
  else if e.posInf then Num.roundTy ty md (.inf false)
  else if e.negInf then Num.roundTy ty md (.inf true)
  else Num.roundTy ty md (Num.ofScaled (Word.signExtend e.acc (accWidth fmt)) (accLsb fmt) (!e.nonNegZero))

/-- Write the finalised elements of a line. -/
def writeElems (m : Memory) (line fmt : Nat) : Tbl AccElem → Memory
  | [] => m
  | (k, e) :: r =>
    let n := (accTy fmt).bytes
    writeElems (m.writeNat (line + n * k) n (e.final fmt)) line fmt r

/-! ### Backing records (Table 9.5) -/

/-- Bytes of one element's accumulator in a record. -/
def accBytes (fmt : Nat) : Nat := accWidth fmt / 8

/-- The record as bytes. -/
def recordBytes (e : AccEntry) : List Byte :=
  let bitsOf (f : AccElem → Bool) : Nat := (e.elems.map (fun p => if f p.2 then 2 ^ p.1 else 0)).sum
  leBytes 8 (e.line + 1) ++ leBytes 1 e.fmt ++ leBytes 7 0 ++ leBytes 8 (bitsOf (fun _ => true)) ++
    leBytes 8 (bitsOf AccElem.nonNegZero) ++ leBytes 8 (bitsOf AccElem.nan) ++ leBytes 8 (bitsOf AccElem.posInf) ++
    leBytes 8 (bitsOf AccElem.negInf) ++ leBytes 8 0 ++
    (List.range (accElems e.fmt)).flatMap (fun k => leBytes (accBytes e.fmt) (e.elems.getD k .empty).acc)

/-- Address of byte `i` of a record. -/
def SpillRec.at (r : SpillRec) (i : Nat) : Nat := if i < r.split then r.pa + i else r.pa2 + (i - r.split)

/-- Number read from a record. -/
def SpillRec.nat (r : SpillRec) (m : Memory) (off n : Nat) : Nat := leNat ((List.range n).map (fun i => m.read (r.at (off + i))))

/-- The elements a record holds, as read back from memory. -/
def SpillRec.elems (r : SpillRec) (m : Memory) : Tbl AccElem :=
  let touched := r.nat m 0x10 8
  ((List.range (accElems r.fmt)).filter (fun k => Word.bit touched k)).map (fun k =>
    (k, { acc := r.nat m (0x40 + accBytes r.fmt * k) (accBytes r.fmt), nonNegZero := Word.bit (r.nat m 0x18 8) k,
          nan := Word.bit (r.nat m 0x20 8) k, posInf := Word.bit (r.nat m 0x28 8) k,
          negInf := Word.bit (r.nat m 0x30 8) k }))

/-! ### Finalisation and physical access -/

/-- The line of a physical address. -/
def lineOf (pa : Nat) : Nat := pa / 128 * 128

/-- A line is in SPILLING, or its entry is being written out (R198). -/
def State.spilling (s : State) (pa : Nat) : Bool :=
  (s.slice (sliceOf pa)).dir.any (fun r => r.busy && r.line == lineOf pa)

/-- The record of a spill in progress is written, its slots are freed, and the line leaves SPILLING (R197 steps 2 to 4). -/
def State.completeSpill (s : State) (i : Nat) : State :=
  let sl := s.slice i
  match sl.dir.find? (fun r => r.busy) with
  | none => s
  | some r =>
    match sl.entries.find? (fun e => e.line == r.line) with
    | none => s
    | some e =>
      let bs := recordBytes e
      { s.setSlice i { sl with
          entries := sl.entries.filter (fun x => x.line != r.line)
          dir := sl.dir.map (fun x => if x.line = r.line then { x with busy := false } else x)
          spills := (sl.spills + 1) % 2 ^ 64 } with
        mem := (s.mem.writeBytes r.pa (bs.take r.split)).writeBytes r.pa2 (bs.drop r.split) }

/-- Finalise the line that holds `pa`, from its entry or its backing record (R195); an access that meets a line in
SPILLING waits for the spill first (R198). -/
def State.finalizeLine (s : State) (pa : Nat) : State :=
  let i := sliceOf pa
  let s := if s.spilling pa then s.completeSpill i else s
  let sl := s.slice i
  let line := lineOf pa
  match sl.entries.find? (fun e => e.line == line) with
  | some e =>
    { s.setSlice i { sl with entries := sl.entries.filter (fun x => x.line != line), finals := (sl.finals + 1) % 2 ^ 64 } with
      mem := writeElems s.mem line e.fmt e.elems }
  | none =>
    match sl.dir.find? (fun r => r.line == line) with
    | some r =>
      { s.setSlice i { sl with dir := sl.dir.filter (fun x => x.line != line), finals := (sl.finals + 1) % 2 ^ 64 } with
        mem := writeElems s.mem line r.fmt (r.elems s.mem) }
    | none => s

/-- The lines that a span of bytes touches. -/
def spanLines (pa n : Nat) : List Nat :=
  if n = 0 then [] else (List.range ((pa + n - 1) / 128 - pa / 128 + 1)).map (fun i => lineOf pa + 128 * i)

/-- Finalise every line of a span. -/
def State.finalizeSpan (s : State) (pa n : Nat) : State := (spanLines pa n).foldl State.finalizeLine s

/-- The memory a page's TGT names: 0 device, 1 host, 2 peer (Table 7.2). -/
def State.memOf (s : State) (tgt : Nat) : Memory :=
  if tgt = 0 then s.mem else if tgt = 1 then s.hostMem else s.peerMem

def State.setMemOf (s : State) (tgt : Nat) (m : Memory) : State :=
  if tgt = 0 then { s with mem := m } else if tgt = 1 then { s with hostMem := m } else { s with peerMem := m }

/-- Finalise the exact entries that this module's groups made at a peer module's slices over a span (R186, R195). -/
def State.finalizePeer (s : State) (pa n : Nat) : State :=
  let hit (e : AccEntry) : Bool := decide (e.line < pa + n) && decide (pa < e.line + 128)
  { s with
    peerMem := (s.peerAcc.filter hit).foldl (fun m e => writeElems m e.line e.fmt e.elems) s.peerMem
    peerAcc := s.peerAcc.filter (fun e => !hit e) }

/-- Finalise what an access that is no exact add meets (R195). -/
def State.finalizeAt (s : State) (t : PTarget) (n : Nat) : State :=
  if t.tgt = 0 then s.finalizeSpan t.pa n else if t.tgt = 2 then s.finalizePeer t.pa n else s

/-- Read bytes at their home, after finalising their lines. -/
def State.readPhys (s : State) (t : PTarget) (n : Nat) : List Byte × State :=
  let s := s.finalizeAt t n
  ((s.memOf t.tgt).readBytes t.pa n, s)

/-- Write bytes at their home, after finalising their lines. -/
def State.writePhys (s : State) (t : PTarget) (bs : List Byte) : State :=
  let s := s.finalizeAt t bs.length
  s.setMemOf t.tgt ((s.memOf t.tgt).writeBytes t.pa bs)

/-- The lock of a sector in serial mode. -/
def State.lock? (s : State) (t : PTarget) : Option SerialLock :=
  s.serial.locks.find? (fun l => l.tgt == t.tgt && l.pa == t.pa / 16 * 16)

/-- A sector locked in serial mode by another group (R208). -/
def State.lockedBy (s : State) (me : Option GroupRef) (t : PTarget) : Bool := (s.lock? t).isSome && s.serial.holder != me

/-- A span meets a sector locked in serial mode. -/
def State.spanLocked (s : State) (t : PTarget) (n : Nat) : Bool :=
  s.serial.locks.any (fun l => l.tgt == t.tgt && decide (l.pa < t.pa + n) && decide (t.pa < l.pa + 16))

/-- Bytes from `t.pa` on as they were before the serial transaction wrote them. -/
def State.priorBytes (s : State) (t : PTarget) (bs : List Byte) : List Byte :=
  bs.mapIdx (fun i b =>
    match s.serial.locks.find? (fun l => l.wrote && l.tgt == t.tgt && l.pa == (t.pa + i) / 16 * 16) with
    | some l => l.prior.getD ((t.pa + i) % 16) b
    | none => b)

/-- Read at the home or the link; to all but its group a sector that a serial transaction wrote reads as before it (R208). -/
def State.readFor (s : State) (me : Option GroupRef) (t : PTarget) (n : Nat) : List Byte × State :=
  let (bs, s) := s.readPhys t n
  (if s.serial.locks.isEmpty || s.serial.holder == me && me.isSome then bs else s.priorBytes t bs, s)

/-- Invalidate a core's L1 copies of a span (R157). -/
def l1Drop (s : State) (core : Nat) (t : PTarget) (n : Nat) : State :=
  if t.tgt ≠ 0 then s
  else
    let x := s.core core
    s.setCore core { x with l1 := x.l1.filter (fun e => !(decide (16 * e.1 < t.pa + n) && decide (t.pa < 16 * e.1 + 16))) }

/-- Read a number. -/
def State.readPhysNat (s : State) (t : PTarget) (n : Nat) : Nat × State :=
  let (bs, s) := s.readPhys t n
  (leNat bs, s)

/-- A sector holds an uncorrectable error (R17). -/
def State.poisoned (s : State) (t : PTarget) (n : Nat) : Bool :=
  t.tgt == 0 && s.pkg.poison.any (fun p => decide (p < t.pa + n) && decide (t.pa < p + 16))

/-- An access to a span finalises a line from a backing record that holds an uncorrectable error (R17, R195). -/
def State.recordPoisoned (s : State) (t : PTarget) (n : Nat) : Bool :=
  t.tgt == 0 && (spanLines t.pa n).any (fun line => (s.slice (sliceOf line)).dir.any (fun r =>
    r.line == line && !r.busy && (s.poisoned ⟨0, r.pa⟩ r.split || (r.split != 4608 && s.poisoned ⟨0, r.pa2⟩ (4608 - r.split)))))

/-- A unit that waits at `cntwait` for the counter at `t` has been satisfied where the counter has reached its target (R162, R371). -/
def Wait.landed (t : PTarget) (v : Nat) (w : Wait) : Wait :=
  match w with
  | .counter tgt pa target met => .counter tgt pa target (met || (tgt == t.tgt && pa == t.pa / 8 * 8 && decide (target ≤ v)))
  | w => w

/-- Threads with another wait. -/
def Thread.mapWait (f : Wait → Wait) (th : Thread) : Thread := { th with wait := f th.wait }

def Galley.mapWait (f : Wait → Wait) (g : Galley) : Galley :=
  { g with paths := g.paths.map (fun p =>
      { p with th := p.th.mapWait f, items := p.items.map (fun i => { i with th := i.th.mapWait f }) }) }

/-- An add has landed at `t`: every parked `cntwait` of its counter examines it again (R162). -/
def State.landed (s : State) (t : PTarget) : State :=
  let v := leNat ((s.memOf t.tgt).readBytes (t.pa / 8 * 8) 8)
  { s with galleys := s.galleys.map (Galley.mapWait (Wait.landed t v)) }

/-- One atomic read-modify-write at the home slice; the old value (R186, R401). -/
def State.atomicAt (s : State) (t : PTarget) (aop rm : Nat) (signed ftz : Bool) (v c : Nat) : Nat × State :=
  let n := aopBytes (aop / 8 % 8)
  let (old, s) := s.readPhysNat t n
  (old, s.setMemOf t.tgt ((s.memOf t.tgt).writeNat t.pa n (aopNew aop rm signed ftz old v c)))

/-- An integer add. -/
def aopAdds (aop : Nat) : Bool := decide (aop / 8 % 8 < 2) && aop % 8 == 0

/-- One atomic read-modify-write; an integer add is seen by the parked `cntwait`s of its counter (R162, R371). -/
def State.atomicSeen (s : State) (t : PTarget) (aop rm : Nat) (signed ftz : Bool) (v c : Nat) : Nat × State :=
  let (old, s) := s.atomicAt t aop rm signed ftz v c
  (old, if aopAdds aop then s.landed t else s)

/-- Add to a 64-bit counter at its home slice, modulo 2^64 (R62, R162). -/
def State.addCounter (s : State) (t : PTarget) (inc : Nat) : State :=
  (s.atomicSeen t 8 0 false false inc 0).2

end Sys2Proof.Machine
end

