-- ==== Sys2Proof/Machine/Translate.lean ====
section
/-! DEFINITION. Address translation (R140 to R152): the walk, the TLBs, the checks of Table 7.3, page-fault service and
the fault buffer. -/

namespace Sys2Proof.Machine

open Sys2Proof

/-- Where a walk ends. A page fault carries the entry's address and bits. -/
inductive WalkOut where
  | ok (e : TlbEntry)
  | fail (c : Code)
  | pageFault (pte bits : Nat)
  deriving DecidableEq, Repr

/-- An index of Table 7.1: the level's field of the virtual address. -/
def levelIndex (level va : Nat) : Nat :=
  match level with
  | 0 => va / 2 ^ 55 % 4
  | 1 => va / 2 ^ 42 % 8192
  | 2 => va / 2 ^ 29 % 8192
  | _ => va / 2 ^ 16 % 8192

/-- Reserved bits of a valid or first-touch entry (Table 7.2). -/
def pteRsvd (v : Nat) : Bool := Word.field v 55 52 == 0 && Word.field v 15 10 == 0 && !Word.bit v 4

/-- Read one entry at its home slice, as it stood before a serial transaction wrote it (R208): a WINDOW_VIOLATION outside the tenant's windows, MEMORY_POISON over an uncorrectable error
(R17, R35). -/
def readPte (s : State) (t pa : Nat) : Except Code Nat × State :=
  if !(s.tenant t).inWindow pa then (.error .windowViolation, s)
  else if s.poisoned ⟨0, pa⟩ 8 then (.error .memoryPoison, s)
  else
    let (bs, s) := s.readFor none ⟨0, pa⟩ 8
    (.ok (leNat bs), s)

/-- Entries `i`, …, of a large page, all equal to `v` in bits [55:0] (R145). -/
def largeEqual (t tbl v : Nat) : Nat → Nat → State → Except Code Bool × State
  | _, 0, s => (.ok true, s)
  | i, n + 1, s =>
    match readPte s t (tbl + 8 * i) with
    | (.error c, s) => (.error c, s)
    | (.ok x, s) => if x % 2 ^ 56 = v % 2 ^ 56 then largeEqual t tbl v (i + 1) n s else (.ok false, s)

/-- The page a leaf maps; `n` entries make the page, the first at index `i`. -/
def leafOut (s : State) (t k va tbl i n size v : Nat) : WalkOut × State :=
  let pa := Word.field v 51 16 * 2 ^ 16
  if Word.field v 8 7 = 3 ∨ pa % size ≠ 0 ∨ !pteRsvd v then (.fail .pteFormat, s)
  else
    match largeEqual t tbl v i n s with
    | (.error c, s) => (.fail c, s)
    | (.ok false, s) => (.fail .pteFormat, s)
    | (.ok true, s) =>
      (.ok { tenant := t, ctx := k, va := va / size * size, size := size, pa := pa, tgt := Word.field v 8 7,
             tso := Word.bit v 6, w := Word.bit v 5 }, s)

/-- The walk from a level down (R143 to R145); `fuel` is 4 − level. -/
def walkFrom (t k va : Nat) : Nat → Nat → State → WalkOut × State
  | 0, _, s => (.fail .pteFormat, s)
  | fuel + 1, tbl, s =>
    let level := 3 - fuel
    let i := levelIndex level va
    match readPte s t (tbl + 8 * i) with
    | (.error c, s) => (.fail c, s)
    | (.ok v, s) =>
      let leaf := Word.bit v 1
      let size := Word.field v 3 2
      if !Word.bit v 0 then
        if Word.bit v 9 then
          if level = 3 ∧ leaf ∧ size = 0 ∧ Word.field v 8 7 = 0 ∧ pteRsvd v then (.pageFault (tbl + 8 * i) v, s)
          else (.fail .pteFormat, s)
        else (.pageFault (tbl + 8 * i) v, s)
      else if leaf then
        if level = 3 ∧ size = 0 then leafOut s t k va tbl i 1 (2 ^ 16) v
        else if level = 3 ∧ size = 1 then leafOut s t k va tbl (i / 32 * 32) 32 (2 ^ 21) v
        else if level = 2 ∧ size = 2 then leafOut s t k va tbl (i / 2 * 2) 2 (2 ^ 30) v
        else (.fail .pteFormat, s)
      else if level = 3 ∨ !pteRsvd v ∨ Word.field v 9 2 ≠ 0 then (.fail .pteFormat, s)
      else walkFrom t k va fuel (Word.field v 51 16 * 2 ^ 16) s

/-- The part of a virtual address above the reach of an entry of a level. -/
def upperPart (level va : Nat) : Nat := va / 2 ^ (55 - 13 * level)

/-- The upper-level entries that a walk from a level down passes: a valid one that names a table, at each level (R143). -/
def upperEnts (s : State) (t k va : Nat) : Nat → Nat → List UpperEnt
  | 0, _ => []
  | fuel + 1, tbl =>
    let level := 3 - fuel
    let v := leNat (s.readFor none ⟨0, tbl + 8 * levelIndex level va⟩ 8).1
    if level = 3 ∨ !(s.tenant t).inWindow tbl ∨ !Word.bit v 0 ∨ Word.bit v 1 then []
    else ⟨t, k, level, upperPart level va, Word.field v 51 16 * 2 ^ 16⟩ :: upperEnts s t k va fuel (Word.field v 51 16 * 2 ^ 16)

/-- The walk of a cluster's walker: it begins at the root, or, a free choice, at a table that an upper-level entry it holds names, which a
later change of that entry in memory does not reach before a CTX.INVAL (R150, log 10). The entries that it passes are held. -/
def walkVia (s : State) (cl t k va : Nat) : WalkOut × State :=
  let held := (s.cluster cl).upper.filter (fun u => u.tenant == t && u.ctx == k && u.part == upperPart u.level va)
  let (n, s) := if held.isEmpty then (0, s) else s.choose (held.length + 1)
  let (fuel, tbl) := match if n = 0 then none else held[n - 1]? with
    | some u => (3 - u.level, u.table)
    | none => (4, (s.ctx t k).ptRoot)
  let new := upperEnts s t k va fuel tbl
  let (out, s) := walkFrom t k va fuel tbl s
  let c := s.cluster cl
  (out, s.setCluster cl { c with
    upper := new ++ c.upper.filter (fun u => !new.any (fun v => v.tenant == u.tenant && v.ctx == u.ctx && v.level == u.level && v.part == u.part)) })

/-- A walk from CTX.PTROOT. -/
def walk (s : State) (t k va : Nat) : WalkOut × State := walkFrom t k va 4 (s.ctx t k).ptRoot s

/-! ### Entries and their use -/

/-- An entry maps an address of a context. -/
def TlbEntry.maps (e : TlbEntry) (t k va : Nat) : Bool :=
  e.tenant == t && e.ctx == k && decide (e.va ≤ va) && decide (va < e.va + e.size)

def tlbFind (es : List TlbEntry) (t k va : Nat) : Option TlbEntry := es.find? (fun e => e.maps t k va)

/-- Add an entry, replacing the one it overlaps; at most `cap` entries, the newest first (log 10). -/
def tlbAdd (es : List TlbEntry) (e : TlbEntry) (cap : Nat) : List TlbEntry :=
  (e :: es.filter (fun x => !(x.tenant == e.tenant && x.ctx == e.ctx && decide (x.va < e.va + e.size) &&
    decide (e.va < x.va + x.size)))).take cap

/-- The host address space of a context: pages with TGT = 01 are reached under the PASID of the context, on its tenant's function
(R147). Each has its own range of `hostMem`; an address that ATS has translated names the same byte (log 32). -/
def hostSpace (t k : Nat) : Nat := 2 ^ 52 * (64 * t + k + 1)

/-- The physical target of an address under an entry. -/
def TlbEntry.target (e : TlbEntry) (va : Nat) : PTarget :=
  ⟨e.tgt, e.pa + (va - e.va) + (if e.tgt = 1 then hostSpace e.tenant e.ctx else 0)⟩

/-- What an access does, for its checks and its fault-buffer ACCESS bits (Tables 7.3 and 7.6). -/
structure Access where
  write  : Bool
  atomic : Bool
  nr     : Bool
  tx     : Bool
  engine : Bool
  queue  : Bool
  deriving DecidableEq, Repr

def Access.rd : Access := ⟨false, false, false, false, false, false⟩
def Access.wr : Access := ⟨true, false, false, false, false, false⟩

/-- The ACCESS byte of Table 7.6. -/
def Access.bits (a : Access) : Nat :=
  (if a.atomic || !a.write then 1 else 0) + (if a.atomic || a.write then 2 else 0) + (if a.atomic || a.tx then 4 else 0) +
    (if a.engine then 8 else 0) + (if a.queue then 16 else 0)

/-- The port that carries an access to a peer address is in the error state (R24). Which port that is, is an open function of the
address (DESIGN CHOICE, log 31: the manual does not say). -/
def State.linkBroken (s : State) (p : PTarget) : Bool :=
  p.tgt == 2 && s.pkg.ports.getD (Config.peerPort p.pa % 8) .down == .error

/-- Checks 5 to 8 of Table 7.3 on an entry, with LINK_ERROR for a peer access through a port in the error state (R24); a
no-return atomic is checked up to check 7 (R190). -/
def entryCheck (s : State) (e : TlbEntry) (va n : Nat) (a : Access) : Option Code :=
  let p := e.target va
  if (a.write || a.atomic) && !e.w then some .writeProtect
  else if (a.atomic || a.tx) && e.tgt == 1 then some .atomicTarget
  else if e.tgt = 0 ∧ !(s.tenant e.tenant).inWindow p.pa then some .windowViolation
  else if s.linkBroken p then some .linkError
  else if !a.nr && (((!a.write || a.atomic) && s.poisoned p n) || s.recordPoisoned p n) then some .memoryPoison
  else none

/-- What an access that was translated earlier finds when it is performed: a window that is no longer its tenant's (R32, R35), a port in
error (R24), or, where it reads, an uncorrectable error (R17). -/
def State.lateFail (s : State) (t : Nat) (p : PTarget) (n : Nat) (read : Bool) : Option Code :=
  if p.tgt = 0 ∧ !(s.tenant t).inWindow p.pa then some .windowViolation
  else if s.linkBroken p then some .linkError
  else if (read && s.poisoned p n) || s.recordPoisoned p n then some .memoryPoison
  else none

/-- Translate without TLBs and without page-fault service, as the queue engine's targets, spill records and save areas
are (R148, R197); a page fault gives TRANSLATION. -/
def translateNow (s : State) (t k va n : Nat) (a : Access) : Except Code PTarget × State :=
  if 2 ^ 57 ≤ va then (.error .nonCanonical, s)
  else
    match walk s t k va with
    | (.fail c, s) => (.error c, s)
    | (.pageFault _ _, s) => (.error .translation, s)
    | (.ok e, s) =>
      match entryCheck s e va n a with
      | some c => (.error c, s)
      | none => (.ok (e.target va), s)

/-! ### Page-fault service (R151 to R154) -/

def pageOf (va : Nat) : Nat := va / 2 ^ 16

/-- Record a fault in the tenant's buffer of a die, or count it dropped; ASSISTPEND bit 3 and ASSISTVEC follow (R154,
R71). The entry's index is answered. -/
def fbRecord (s : State) (t d : Nat) (e : FbEntry) : Option Nat × State :=
  let tn := s.tenant t
  let b := tn.bufs.getD d .reset
  let seq := s.pkg.fbSeq.getD d 0
  let assist (s : State) : State :=
    let tn := s.tenant t
    (s.setTenant t { tn with assist := tn.assist ||| 8 }).sendMsi (t + 1) (Word.field tn.mode 13 8)
  if b.entries.length < 2 ^ tn.fbLog then
    let s := s.setTenant t { tn with bufs := tn.bufs.set d { b with entries := b.entries ++ [{ e with seq := seq }] } }
    (some b.entries.length, assist { s with pkg := { s.pkg with fbSeq := s.pkg.fbSeq.set d (seq + 1) } })
  else (none, assist (s.setTenant t { tn with bufs := tn.bufs.set d { b with dropped := true } }))

/-- A fault of the same cluster, context and page joins one in service (R149). -/
def sameFault (cl t k page : Nat) (f : PFault) : Bool :=
  f.cluster == cl && f.tenant == t && f.ctx == k && f.page == page

/-- `n` more requests join an entry; its JOINED count saturates. -/
def fbJoin (s : State) (t d : Nat) (i n : Nat) : State :=
  let tn := s.tenant t
  let b := tn.bufs.getD d .reset
  let b' := { b with entries := b.entries.mapIdx (fun j e => if j = i then { e with joined := min (e.joined + n) 65535 } else e) }
  s.setTenant t { tn with bufs := tn.bufs.set d b' }

/-- The die whose buffer records a fault (R154). -/
def faultDie (cl : Nat) : Nat := if cl = 0xFFFF then 0 else dieOfCluster cl

/-- Begin or join the service of a page fault (R149, R151); of the requests that shared one walk the first begins it and
the others join (R420). `ft` says the entry is first-touch eligible. -/
def serviceFault (s : State) (cl t k va access : Nat) (ft : Bool) (who : List Asker) : State :=
  let page := pageOf va
  match s.faults.find? (sameFault cl t k page) with
  | some f =>
    let s := match f.slot with
      | some i => fbJoin s t (faultDie cl) i who.length
      | none => s
    { s with faults := s.faults.map (fun x => if x.id = f.id then { x with askers := x.askers ++ who, joined := x.joined + who.length } else x) }
  | none =>
    let (id, s) := s.fresh
    let assisted := Word.bit (s.tenant t).mode 3
    let f : PFault :=
      { id := id, cluster := cl, tenant := t, ctx := k, page := page, va := va, access := access,
        firstTouch := ft && !assisted, slot := none, joined := who.length - 1, askers := who }
    if ft && !assisted then { s with faults := s.faults ++ [f] }
    else
      let (slot, s) := fbRecord s t (faultDie cl)
        { va := va, ctx := k, cause := 1, access := access, cancel := false, cluster := cl, joined := min (who.length - 1) 65535, seq := 0 }
      { s with faults := s.faults ++ [{ f with slot := slot }] }

/-- A page fault is served; in hardware mode an entry without FT ends as TRANSLATION instead (Table 7.5). -/
def servable (s : State) (t : Nat) (ft : Bool) : Bool := ft || Word.bit (s.tenant t).mode 3

/-- The code that an access's own walk of a page ended in, among the results held for it. -/
def heldCode (ws : List WalkResult) (page : Nat) : Option Code :=
  (ws.find? (fun w => w.page == page && w.entry.isNone)).map (fun w => Code.ofNum w.code)

/-- The lowest one bit of a word at or after bit `i`, among `n`. -/
def lowestBit (v : Nat) : Nat → Nat → Option Nat
  | 0, _ => none
  | n + 1, i => if Word.bit v i then some i else lowestBit v n (i + 1)

/-- A page of a first-touch pool: the lowest index below `pages` whose bitmap bit is 1, the words of the bitmap read at their home slices
from word `i` on (R152 step 1); MEMORY_POISON over an uncorrectable error (R17). -/
def poolFind (s : State) (map pages : Nat) : Nat → Nat → Except Code (Option Nat) × State
  | 0, _ => (.ok none, s)
  | n + 1, i =>
    let word : PTarget := ⟨0, map + 8 * i⟩
    if s.poisoned word 8 || s.recordPoisoned word 8 then (.error .memoryPoison, s)
    else
      let (bs, s) := s.readFor none word 8
      match lowestBit (leNat bs) (min 64 (pages - 64 * i)) 0 with
      | some b => (.ok (some (64 * i + b)), s)
      | none => poolFind s map pages n (i + 1)

/-- Set or clear a pool bit by an atomic at its word (R152). -/
def poolBit (s : State) (map i : Nat) (v : Bool) : State :=
  let word : PTarget := ⟨0, map + i / 64 * 8⟩
  if v then (s.atomicAt word 10 0 false false (2 ^ (i % 64)) 0).2
  else (s.atomicAt word 9 0 false false (2 ^ 64 - 1 - 2 ^ (i % 64)) 0).2

end Sys2Proof.Machine
end

