-- ==== Sys2Proof/Machine/Ops.lean ====
section
/-! DEFINITION. Shared operations: aborting the lanes of a transaction (R200, R208), taking a group fault and entering
the fatal state (R92, R122, R203, R415), and the reset that leaves it (R92). -/

namespace Sys2Proof.Machine

open Sys2Proof

/-! ### Aborting transaction lanes -/

/-- A sector of device memory lies in a window of the tenant that holds the serial grant (R35). -/
def State.holderOwns (s : State) (pa : Nat) : Bool :=
  match s.serial.holder.bind (fun r => s.launch? r.launch) with
  | some l => (s.tenant l.tenant).inWindow pa
  | none => true

/-- Put back one serial undo record: the 16 bytes at its start go to the sector whose address it holds at +16. -/
def undoRecord (s : State) (rec : PTarget) : State :=
  let (bs, s) := s.readPhys rec 32
  let pa := leNat ((bs.drop 16).take 8) / 16 * 16 % 2 ^ 52
  if s.holderOwns pa then s.writePhys ⟨0, pa⟩ (bs.take 16) else s

/-- Restore every undo record in reverse order, then the peer sectors written in place (R208). -/
def undoAll (s : State) : State :=
  let s := s.serial.undo.foldl undoRecord s
  let s := (s.serial.locks.filter (fun l => l.wrote && l.tgt != 0)).foldl (fun s l => s.writePhys ⟨l.tgt, l.pa⟩ l.prior) s
  { s with serial := { s.serial with undo := [], locks := s.serial.locks.map (fun l => { l with wrote := false }) } }

/-- Record a cause for the lanes that have none yet. -/
def setCauses (cs : Tbl Nat) (lanes : Mask) (cause : Nat) : Tbl Nat :=
  (lanesIn lanes).foldl (fun cs l => cs.set l cause) cs

/-- The transaction after `lanes` abort with `cause` (R200): their buffered bytes are discarded, and read entries no longer
count for them. An entry that no lane needs any more still fills its place in the log (log 26). -/
def Tx.abort (x : Tx) (lanes : Mask) (cause : Nat) : Tx :=
  let new := lanes &&& x.inTx &&& ~~~x.aborted
  { x with
    aborted := x.aborted ||| new
    causes := setCauses x.causes new cause
    reads := x.reads.map (fun r => { r with lanes := r.lanes &&& ~~~new })
    writes := x.writes.map (fun w => { w with bytes := w.bytes.filter (fun b => !laneIn new b.lane) })
    tiles := (x.tiles.map (fun r => { r with lanes := r.lanes &&& ~~~new })).filter (fun r => r.lanes != 0) }

/-- Core event 11 of Table 19.4 counts lanes aborted; events are counted through this one operation (R411). -/
def countEvent (s : State) (c event n : Nat) : State :=
  let x := s.core c
  s.setCore c { x with
    evcnt := x.evcnt.mapIdx (fun j v => if x.evsel / 256 ^ j % 256 = event ∧ event ≠ 0 then (v + n) % 2 ^ 64 else v) }

/-- The core that holds a group, if it is resident. -/
def State.coreOfGroup (s : State) (launch j : Nat) : Option Nat :=
  match s.galleys.find? (fun g => g.launch == launch && decide (g.first ≤ j) && decide (j < g.first + g.count)) with
  | some g => g.core
  | none => none

/-- Replace a group's transaction, counting the lanes that it newly aborts. -/
def putAborted (s : State) (launch j : Nat) (x : Tx) : State :=
  let g := s.group launch j
  let n := (lanesIn (x.aborted &&& ~~~g.tx.aborted)).length
  let s := s.setGroup launch j { g with tx := x }
  match s.coreOfGroup launch j with
  | some c => countEvent s c 11 n
  | none => s

/-- Abort lanes of a group with a cause of Table 9.7; in serial mode every lane of the group, after the restoration, which a group
that has given up its grant has had already (R207, R208). -/
def abortLanes (s : State) (launch j : Nat) (lanes : Mask) (cause : Nat) : State :=
  let g := s.group launch j
  if g.tx.depth = 0 then s
  else if g.tx.serial then
    putAborted (if s.serial.holder = some ⟨launch, j⟩ then undoAll s else s) launch j (g.tx.abort g.tx.inTx cause)
  else putAborted s launch j (g.tx.abort lanes cause)

/-- A cause that counts towards TXFAILS (Table 9.7). -/
def causeCounts (c : Nat) : Bool := c == 1 || c == 2 || c == 8 || c == 9 || c == 10

/-- The transaction after its outermost `txend` (R204 step 5, R208): ABORTED and CAUSE stay readable (R404). -/
def Tx.close (x : Tx) : Tx :=
  { x with
    depth := 0
    excess := 0
    serial := false
    inTx := 0
    old := false
    reads := []
    writes := []
    tiles := []
    fails := if x.serial then 0
      else if x.aborted &&& x.lanes = 0 then 0
      else if x.causes.any (fun c => causeCounts c.2) then min 8 (x.fails + 1) else x.fails }

/-- Lines that a command was to own once a serial lock on them was released are owned (R206). -/
def State.ownLater (s : State) : State :=
  { s with commands := s.commands.map (fun c => { c with owns := c.owns ++ c.later, later := [] }) }

/-- Release the serial grant and its locks, where this group holds it; the core's copies of the sectors that it wrote are
invalidated, since the writes commit now (R157, R208). -/
def releaseSerial (s : State) (launch j : Nat) : State :=
  if s.serial.holder = some ⟨launch, j⟩ then
    let s := match s.coreOfGroup launch j with
      | some c => (s.serial.locks.filter SerialLock.wrote).foldl (fun s (l : SerialLock) => l1Drop s c ⟨l.tgt, l.pa⟩ 16) s
      | none => s
    { s with serial := { s.serial with holder := none, locks := [], undo := [] } }.ownLater
  else { s with serial := { s.serial with queue := s.serial.queue.filter (fun r => r != ⟨launch, j⟩) } }

/-- Close a group's transaction. -/
def closeTx (s : State) (launch j : Nat) : State :=
  let g := s.group launch j
  let s := if g.tx.serial then releaseSerial s launch j else s
  s.setGroup launch j { g with tx := g.tx.close }

/-! ### The fatal state -/

/-- What a fault says of itself: block, instruction, fault address, lane and subcode (R415). -/
structure FaultAt where
  die   : Nat
  core  : Nat
  tag   : Nat
  objId : Nat
  block : Nat
  instr : Nat
  faddr : Nat
  deriving DecidableEq, Repr

/-- No group is named: a cause of the queue engine, an engine or the management die. -/
def FaultAt.nowhere : FaultAt := ⟨0xFF, 0xFFFF, 0, 0, 0, 0, 0⟩

/-- The queues of a context (R50). -/
def State.queuesOf (s : State) (t k : Nat) : List QId :=
  ((List.range 64).map (fun q => (⟨t, q⟩ : QId))).filter (fun q => (s.queue q).enable && (s.queue q).ctx == k)

/-- The relayouts of a context convert no further tile (R241). -/
def stopRelayouts (s : State) (t k : Nat) : State :=
  { s with relayouts := s.relayouts.map (fun r => { r with stopped := r.stopped || (r.tenant == t && r.ctx == k) }) }

/-- A context enters the fatal state on its first cause; later causes only count (R92). -/
def enterFatal (s : State) (t k cause detail : Nat) (w : FaultAt) : State :=
  let c := s.ctx t k
  match c.fatal with
  | some f => s.setCtx t k { c with fatal := some { f with count := min (f.count + 1) 65535 } }
  | none =>
    if c.state = .disabled then s
    else
      let f : FatalRec :=
        { cause := cause, count := 1, die := w.die, core := w.core, time := s.pkg.clock, tag := w.tag, objId := w.objId,
          block := w.block, instr := w.instr, faddr := w.faddr, detail := detail, dumping := true,
          assisted := Word.bit (s.tenant t).mode 5 }
      let s := s.setCtx t k { c with state := .fatal, fatal := some f }
      let s := (s.queuesOf t k).foldl
        (fun s q => let x := s.queue q; if x.state = .stopped then s else s.setQueue q { x with state := .blocked }) s
      stopRelayouts s t k

/-- DETAIL of a group fault (R415). -/
def faultDetail (c : Code) (lane sub : Nat) : Nat := c.num + lane * 2 ^ 16 + sub * 2 ^ 32

/-- Where a thread of a galley stands. -/
def faultAt (g : Galley) (l : Launch) (th : Thread) (faddr : Nat) : FaultAt :=
  let core := g.core.getD g.home
  { die := dieOf core, core := core, tag := l.tag, objId := l.objId, block := th.block, instr := th.instr, faddr := faddr }

/-- Every thread of a path stops. -/
def Path.stop (p : Path) : Path :=
  { p with
    th := { p.th with wait := .stopped }
    items := p.items.map (fun i => { i with th := { i.th with wait := .stopped } }) }

/-- The lanes of an open transaction abort with FAULT, after the restoration of serial mode, whose grant is then released
(R203, R207). -/
def faultTx (s : State) (launch j : Nat) (lanes : Mask) : State :=
  let s := abortLanes s launch j lanes 7
  if (s.group launch j).tx.serial then releaseSerial s launch j else s

/-- Taking a fault: the lanes of an open transaction abort (R203), the whole galley stops, and the context enters the fatal
state with cause GROUP_FAULT (R122, R92, R415). -/
def takeFault (s : State) (g : Galley) (l : Launch) (th : Thread) (c : Code) (lane sub faddr : Nat) : State :=
  let s := if g.count = 1 then faultTx s l.id g.first th.mask else s
  let s := match s.galley? g.id with
    | some g => s.setGalley { g with paths := g.paths.map Path.stop }
    | none => s
  enterFatal s l.tenant l.ctx 1 (faultDetail c lane sub) (faultAt g l th faddr)

/-- An imprecise fault of an engine or a slice: cause GROUP_FAULT with the code in DETAIL and lane 0xFF (R191, R243). -/
def asyncFault (s : State) (t k : Nat) (l : Option Launch) (core : Nat) (c : Code) (faddr : Nat) : State :=
  let w : FaultAt :=
    match l with
    | some l => { die := dieOf core, core := core, tag := l.tag, objId := l.objId, block := 0, instr := 0, faddr := faddr }
    | none => { FaultAt.nowhere with faddr := faddr }
  enterFatal s t k 1 (faultDetail c 0xFF 0) w

/-- A page whose hash does not match (R48): the object is revoked, its translations and shadows are discarded, and the
context enters the fatal state with cause CODE_INTEGRITY, the object's identity and the page index. -/
def codeIntegrity (s : State) (t k inst page : Nat) (w : FaultAt) : State :=
  let c := s.ctx t k
  let s := s.setCtx t k { c with
    revoking := if c.revoking.contains inst then c.revoking else c.revoking ++ [inst]
    objs := c.objs.map (fun o => if o.inst = inst then { o with shadows := [] } else o) }
  let s := { s with xlats := s.xlats.map (fun x => if x.tenant = t ∧ x.ctx = k ∧ x.obj = inst then { x with live := false } else x) }
  enterFatal s t k 2 page { w with faddr := 0, objId := ((c.objs.find? (fun o => o.inst == inst)).map CodeObj.objId).getD w.objId }

/-! ### Leaving the fatal state (R92, R196, R241) -/

/-- Finalise every exact entry and record that a context owns (R196). -/
def finalizeCtx (s : State) (t k : Nat) : State :=
  (List.range 128).foldl (fun s i =>
    let sl := s.slice i
    let lines := (sl.entries.filter (fun e => e.tenant == t && e.ctx == k)).map AccEntry.line ++
      (sl.dir.filter (fun e => e.tenant == t && e.ctx == k)).map SpillRec.line
    lines.foldl State.finalizeLine s) s

/-- Discard every exact entry and record of a tenant without writing their lines: its windows are zero-filled (R196). -/
def discardExact (s : State) (t : Nat) : State :=
  { s with slices := s.slices.map (fun p => (p.1, { p.2 with
      entries := p.2.entries.filter (fun e => e.tenant != t)
      dir := p.2.dir.filter (fun e => e.tenant != t) })) }

/-- A core without the work of launches that are gone. -/
def Core.drop (x : Core) (mine : Nat → Bool) : Core :=
  let x := { x with aq := x.aq.filter (fun a => !mine a.own.launch) }
  if (match x.launch with | some l => mine l | none => false) || x.mats.any (fun m => mine m.launch) ||
      x.seqs.any (fun q => match q.run with | some r => mine r.launch | none => false) then
    { x with
      launch := match x.launch with | some l => if mine l then none else some l | none => none
      overHead := 0, mats := [], runs := [], seqs := List.replicate 4 ⟨none, none⟩ }
  else x

/-- Discard a context's launches, galleys, commands, replays, patches, walks and faults, and free its cores. -/
def dropWork (s : State) (t k : Nat) : State :=
  let gone := (s.launches.filter (fun l => l.tenant == t && l.ctx == k)).map Launch.id
  let mine (l : Nat) : Bool := gone.contains l
  { s with
    launches := s.launches.filter (fun l => !mine l.id)
    galleys := s.galleys.filter (fun g => !mine g.launch)
    commands := s.commands.filter (fun c => !(c.tenant == t && c.ctx == k))
    icinvs := s.icinvs.filter (fun c => !(c.tenant == t && c.ctx == k))
    replays := s.replays.filter (fun r => !(r.tenant == t && r.ctx == k))
    patches := s.patches.filter (fun r => !(r.tenant == t && r.ctx == k))
    walks := s.walks.filter (fun w => !(w.tenant == t && w.ctx == k))
    faults := s.faults.filter (fun w => !(w.tenant == t && w.ctx == k))
    xlats := s.xlats.filter (fun x => !(x.tenant == t && x.ctx == k))
    cores := s.cores.map (fun p => (p.1, p.2.drop mine))
    serial := { s.serial with
      queue := s.serial.queue.filter (fun r => !mine r.launch)
      holder := match s.serial.holder with | some r => if mine r.launch then none else some r | none => none
      locks := match s.serial.holder with | some r => if mine r.launch then [] else s.serial.locks | none => s.serial.locks
      undo := match s.serial.holder with | some r => if mine r.launch then [] else s.serial.undo | none => s.serial.undo }
    cur := s.cur.filter (fun u => match s.galley? u.galley with | some g => !mine g.launch | none => false) }

/-- The return from the fatal or pre-empted state: CTX.CTL.RESET discards the context's launches, replays, objects,
translations, shadows and save state, finalises its exact entries, disables its queues and shows it disabled. -/
def contextReset (s : State) (t k : Nat) : State :=
  let s := match s.serial.holder with
    | some r => if (s.launches.any (fun l => l.id == r.launch && l.tenant == t && l.ctx == k)) then undoAll s else s
    | none => s
  let s := finalizeCtx s t k
  let s := { s with packets := s.packets.filter (fun p => !(p.q.owner == t && p.ctx == k)) }
  let s := (s.queuesOf t k).foldl (fun s q => s.setQueue q { s.queue q with enable := false, state := .idle, blocker := none, walks := [], parsed := false, checked := false }) s
  let s := dropWork s t k
  let s := if s.serial.locks.isEmpty then s.ownLater else s
  let s := stopRelayouts s t k
  let s := { s with relayouts := s.relayouts.filter (fun r => !(r.tenant == t && r.ctx == k && r.active.isEmpty)) }
  let c := s.ctx t k
  s.setCtx t k { c with state := .disabled, enable := false, objs := [], fatal := none, preempt := none, energy := [], revoking := [] }

end Sys2Proof.Machine
end

