-- ==== Sys2Proof/Machine/Blocks.lean ====
section
/-! DEFINITION. A block's words as instructions (R284, R285), the results an instruction defines (R280), and the uses of
a value inside its block (R103). -/

namespace Sys2Proof.Machine

open Sys2Proof

/-- A block header (Table 13.4a): length in words, flags JOIN WAIT LOOP ENTRY, and argument types. -/
structure BlockHdr where
  words : Nat
  join  : Bool
  wait  : Bool
  loop  : Bool
  entry : Bool
  args  : List Ty
  deriving DecidableEq, Repr

/-- Type codes packed five bits each; slots beyond `n` must be 0, and 0 is no type of a value. -/
def typeSlots (w : Nat) : Nat → Nat → Option (List Ty)
  | 0, _ => some []
  | slots + 1, n =>
    let c := w % 32
    if n = 0 then (if c = 0 then typeSlots (w / 32) slots 0 else none)
    else
      match Ty.ofCode c with
      | some t => if t = .none then none else (typeSlots (w / 32) slots (n - 1)).map (fun r => t :: r)
      | none => none

/-- Argument types from the words that follow the header, 12 to a word. -/
def typeWords : Nat → Nat → List Nat → Option (List Ty × List Nat)
  | 0, _, ws => some ([], ws)
  | _ + 1, _, [] => none
  | k + 1, n, w :: ws =>
    if 2 ^ 60 ≤ w then none
    else
      match typeSlots w 12 (min n 12), typeWords k (n - 12) ws with
      | some a, some (b, ws) => some (a ++ b, ws)
      | _, _ => none

/-- Parse a header; the words that follow it and its type words are answered too. -/
def parseHdr : List Nat → Option (BlockHdr × List Nat)
  | [] => none
  | h :: ws =>
    let n := h / 2 ^ 40 % 256
    match typeSlots (h % 2 ^ 40) 8 (min n 8), typeWords (Word.ceilDiv (n - 8) 12) (n - 8) ws with
    | some a, some (b, ws) =>
      some ({ words := h / 2 ^ 52 % 4096 + 1, join := Word.bit h 51, wait := Word.bit h 50, loop := Word.bit h 49,
              entry := Word.bit h 48, args := a ++ b }, ws)
    | _, _ => none

/-- Every instruction of a word list; `none` where a word is not an instruction. -/
def decodeAll : Nat → List Nat → Option (List Instr)
  | 0, ws => if ws.isEmpty then some [] else none
  | fuel + 1, ws =>
    if ws.isEmpty then some []
    else
      match decode ws with
      | none => none
      | some (i, ws) => (decodeAll fuel ws).map (fun r => i :: r)

/-- The instructions of a block's words, header first. -/
def blockInstrs (words : List Nat) : Option (List Instr) :=
  match parseHdr words with
  | none => none
  | some (_, ws) => decodeAll ws.length ws

/-- How many values a generic form defines (R280, R399). -/
def resultCount (r : Raw) : Nat :=
  match opRow r.op with
  | none => 0
  | some row => if row.mc = .oa ∧ r.w.mod / 32 % 2 = 1 then 0 else row.res.length

/-- Every operand an instruction reads, its targets' arguments among them. -/
def allOperands (r : Raw) : List Opnd :=
  r.operands ++
    (match r.ext with
     | .target t => t.args
     | .c2 _ a b => a.args ++ b.args
     | .sw _ d cs => d.args ++ cs.flatMap Target.args
     | _ => [])

/-- No later instruction names value `n` except as the condition of a `brc`; `v` values are defined so far. -/
def branchOnly (n : Nat) : Nat → List Instr → Bool
  | _, [] => true
  | v, i :: r =>
    match i.toRaw with
    | none => branchOnly n v r
    | some x =>
      let uses := (allOperands x).countP (fun o => match o with | .dist d => d ≤ v && v - d == n | _ => false)
      let cond := x.op == 2 && (match x.w.a with | .dist d => d ≤ v && v - d == n | _ => false)
      decide (uses = (if cond then 1 else 0)) && branchOnly n (v + resultCount x) r

/-- How many values the instructions of a block before index `i` define. -/
def valuesBefore (words : List Nat) (i : Nat) : Nat :=
  ((((blockInstrs words).getD []).take i).map (fun x => match x.toRaw with | some r => resultCount r | none => 0)).sum

end Sys2Proof.Machine
end

