-- ==== Sys2Proof/Machine/Operands.lean ====
section
/-! DEFINITION. Operand forms (R280 to R282, R251), value classes (R95 to R97), unfolding (R101), and how an instruction
defines its results and moves on (R280, R200). -/

namespace Sys2Proof.Machine

open Sys2Proof

/-! ### The executing unit -/

/-- What an instruction of the executing unit sees: its galley, launch, core, path, thread and active lanes. -/
structure Exe where
  uid  : UnitId
  g    : Galley
  l    : Launch
  core : Nat
  path : Path
  th   : Thread
  act  : Mask
  deriving DecidableEq, Repr

/-- The thread of a unit. -/
def Galley.thread? (g : Galley) (u : UnitId) : Option Thread :=
  match g.paths[u.path]? with
  | none => none
  | some p =>
    match u.item with
    | none => some p.th
    | some lane => (p.items.find? (fun i => i.lane == lane)).map Item.th

/-- Replace the thread of a unit. -/
def Galley.setThread (g : Galley) (u : UnitId) (th : Thread) : Galley :=
  { g with paths := g.paths.mapIdx (fun i p =>
      if i = u.path then
        match u.item with
        | none => { p with th := th }
        | some lane => { p with items := p.items.map (fun x => if x.lane = lane then { x with th := th } else x) }
      else p) }

/-- Lanes of a thread that are active: those an open transaction has not aborted and does not exclude (R200, R405). -/
def activeLanes (l : Launch) (g : Galley) (m : Mask) : Mask :=
  let x := (State.groupSt l g.first).tx
  if g.count = 1 ∧ x.depth ≠ 0 then m &&& x.inTx &&& ~~~x.aborted else m

/-- The executing unit, if it still exists. -/
def exe? (s : State) : Option Exe :=
  match s.cur with
  | [] => none
  | u :: _ =>
    match s.galley? u.galley with
    | none => none
    | some g =>
      match s.launch? g.launch, g.paths[u.path]?, g.thread? u, g.core with
      | some l, some p, some th, some c =>
        some { uid := u, g := g, l := l, core := c, path := p, th := th, act := activeLanes l g th.mask }
      | _, _, _, _ => none

/-- Run a meaning on the executing unit; without one the instruction does not occur. -/
def onUnit (s : State) (f : Exe → State) : Host.Outcome State Fault Refusal :=
  match exe? s with
  | some e => .next (f e)
  | none => .next s

/-- A galley of more than one group. -/
def Exe.multi (e : Exe) : Bool := decide (1 < e.g.count)

/-- The lane whose value a group-level operand takes (R350): the lowest active one. -/
def Exe.leadLane (e : Exe) : Nat :=
  match lanesIn e.act with
  | l :: _ => l
  | [] => (lanesIn e.th.mask).headD 0

/-- Put a thread back. -/
def Exe.put (e : Exe) (s : State) (th : Thread) : State :=
  match s.galley? e.uid.galley with
  | some g => s.setGalley (g.setThread e.uid th)
  | none => s

/-- Park the unit (Table 6.2); its instruction executes again when the wait is over. In a native body the A queue parks, or a
control word on which all three stand; the X and S queues take no notice of the wait. -/
def Exe.park (e : Exe) (s : State) (w : Wait) : State := e.put s { e.th with wait := w }

/-- Raise a group fault at this instruction (R122, R415). -/
def Exe.fault (e : Exe) (s : State) (c : Code) (lane : Nat) (faddr : Nat := 0) (sub : Nat := 0) : State :=
  takeFault s e.g e.l e.th c lane sub faddr

/-- The lane that a fault no single lane's operand caused names: 0xFF (log 11), and an item's own lane in per-item mode (R122). -/
def faultLane (u : UnitId) : Nat := u.item.getD 0xFF

/-- Raise a fault that no single lane's operand caused. -/
def Exe.faultAll (e : Exe) (s : State) (c : Code) (faddr : Nat := 0) : State := e.fault s c (faultLane e.uid) faddr

/-! ### Values -/

/-- Number of the class: 0 U, 1 A, 2 S. -/
def Val.cls : Val → Nat
  | .u _ => 0
  | .a _ _ => 1
  | .cmp _ _ _ _ _ _ => 2
  | .s _ => 2

/-- The predicate codes of R300 on integers. -/
def comparePred (pred : Nat) (a b : Int) : Bool :=
  match pred with
  | 0 => decide (a = b)
  | 1 => decide (a ≠ b)
  | 2 => decide (a < b)
  | 3 => decide (a ≤ b)
  | 4 => decide (b < a)
  | _ => decide (b ≤ a)

/-- An A value at linear item offset `o` (R96). -/
def affineAt (base step : Word) (o : Nat) : Nat := (base.toNat + step.toNat * o) % 2 ^ 64

/-- The bits of a value of type `ty` in lane `lane` of group `j` of width `g` (R75, R96). -/
def Val.lane (ty : Ty) (g j lane : Nat) : Val → Nat
  | .u v => v.toNat
  | .a b st => affineAt b st (j * g + lane) % 2 ^ ty.width
  | .cmp pred t b st w first =>
    let x := t.toInt (affineAt b st (j * g + lane))
    let y := t.toInt w.toNat
    Word.ofBool (if first then comparePred pred x y else comparePred pred y x)
  | .s ls => (ls.getD lane 0).toNat

def Val.ofNat (v : Nat) : Val := .u (BitVec.ofNat 128 v)

/-- A lane's value in the executing group. -/
def Exe.lane (e : Exe) (v : TVal) (lane : Nat) : Nat := v.val.lane v.ty e.l.g e.g.first lane

/-- A group-level operand (R350). -/
def Exe.scalar (e : Exe) (v : TVal) : Nat := e.lane v e.leadLane

/-! ### Operands -/

/-- An immediate in the type an operand requires (R281). -/
def immValue (ty : Ty) (v : Int) : Nat :=
  if ty.isF then Num.roundTy ty ⟨0, false, false⟩ (Num.ofInt v) else ty.wrap v

/-- A pool entry in the type an operand requires (R282). -/
def poolValue (pool : List Nat) (ty : Ty) (k : Nat) : Nat :=
  if ty = .b128 then pool.getD k 0 + 2 ^ 64 * pool.getD (k + 1) 0 else pool.getD k 0 % 2 ^ ty.width

/-- The translation a thread runs. -/
def Exe.xlat? (e : Exe) (s : State) : Option Xlat :=
  match e.th.body with
  | some i => s.xlat? i
  | none => none

/-- What register cell `k` holds when nothing has written it since its body's entry: 0 in the run that stands for a loaded
word, else a value the manual leaves open (R265; log 9). -/
def NativeRun.unwritten (n : NativeRun) (k : Nat) : Nat :=
  match n.entry with
  | none => 0
  | some j => Config.freeReg j k % 2 ^ 32

/-- A 32-bit native register in a lane (Table 12.1). -/
def NativeRun.reg (n : NativeRun) (r lane : Nat) : Nat :=
  if r < 256 then n.lanes.getD (512 * r + lane) (n.unwritten (512 * r + lane))
  else if r < 320 then n.uni.getD (r - 256) (n.unwritten (512 * r))
  else if 480 ≤ r ∧ r ≤ 495 then
    match n.loads.getD (r - 480) [] with
    | x :: _ => x.lanes.getD lane 0
    | [] => 0
  else 0

/-- A value of `w` bits from consecutive registers. -/
def NativeRun.value (n : NativeRun) (r lane w : Nat) : Nat :=
  if r = 511 then 0
  else if w ≤ 32 then n.reg r lane % 2 ^ w
  else if w ≤ 64 then n.reg r lane + 2 ^ 32 * n.reg (r + 1) lane
  else n.reg r lane + 2 ^ 32 * n.reg (r + 1) lane + 2 ^ 64 * n.reg (r + 2) lane + 2 ^ 96 * n.reg (r + 3) lane

/-- The class A value or compare that lane registers of a galley carry, for an operand of `w` bits (R98, R103). -/
def NativeRun.affineOf (n : NativeRun) (r w : Nat) : Option Val :=
  if 64 < w then none
  else
    match n.affine.get? (2 * r + 1) with
    | some x => some x
    | none => if w ≤ 32 then n.affine.get? (2 * r) else none

/-- A native register operand as a value: uniform registers give class U, the lane registers of a galley of several groups that carry an
A value give it, and the others S. -/
def NativeRun.operand (n : NativeRun) (ty : Ty) (r g : Nat) : Val :=
  if (256 ≤ r ∧ r < 320) ∨ r = 511 then .ofNat (n.value r 0 ty.width)
  else
    match n.affineOf r ty.width with
    | some v => v
    | none => .s ((List.range g).map (fun l => BitVec.ofNat 128 (n.value r l ty.width)))

/-- An operand as a value; an immediate or pool operand takes the type the place requires. -/
def Exe.opnd (e : Exe) (s : State) (ty : Ty) (o : Opnd) : TVal :=
  let dflt : TVal := ⟨ty, .u 0⟩
  match o with
  | .none => dflt
  | .dist d => (e.th.vals[d - 1]?).getD dflt
  | .arg k => (e.th.args[k]?).getD dflt
  | .imm v => ⟨ty, .ofNat (immValue ty v)⟩
  | .pool k => ⟨ty, .ofNat (poolValue (match e.xlat? s with | some x => x.pool | none => []) ty k)⟩
  | .reg r => match e.th.native with
    | some n => ⟨ty, n.operand ty r e.l.g⟩
    | none => dflt

/-- The operand that an instruction converts: a Laold value has its own type, a register that of the counterpart's operand, which
the word does not hold (log 9); an immediate or pool operand takes `ty`. -/
def Exe.srcOpnd (e : Exe) (s : State) (ty : Ty) (o : Opnd) : TVal :=
  match o, e.th.native with
  | .reg r, some n => ⟨n.src, n.operand n.src r e.l.g⟩
  | _, _ => e.opnd s ty o

/-- The immediate payload of an operand. -/
def immNat : Opnd → Nat
  | .imm v => v.toNat
  | _ => 0

/-! ### Defining results and moving on -/

/-- A result as the block keeps it: where a transaction has aborted lanes of the path, they hold 0 (R200, log 12). -/
def Exe.settle (e : Exe) (v : TVal) : TVal :=
  if e.act = e.th.mask then v
  else ⟨v.ty, .s ((List.range e.l.g).map (fun l => if laneIn e.act l then BitVec.ofNat 128 (e.lane v l) else 0))⟩

/-- Write a 32-bit native register for the lanes of a mask, or once for a uniform one. -/
def NativeRun.setReg (n : NativeRun) (r : Nat) (act : Mask) (f : Nat → Nat) : NativeRun :=
  if r < 256 then
    { n with
      lanes := (lanesIn act).foldl (fun t l => t.set (512 * r + l) (f l % 2 ^ 32)) n.lanes
      affine := n.affine.filter (fun x => x.1 != 2 * r && x.1 != 2 * r + 1 && x.1 + 1 != 2 * r) }
  else if r < 320 then { n with uni := n.uni.set (r - 256) (f ((lanesIn act).headD 0) % 2 ^ 32) }
  else n

/-- Write a value of `w` bits to consecutive registers. -/
def NativeRun.setValue (n : NativeRun) (r w : Nat) (act : Mask) (f : Nat → Nat) : NativeRun :=
  if r = 511 then n
  else
    let n := n.setReg r act f
    let n := if 32 < w then n.setReg (r + 1) act (fun l => f l / 2 ^ 32) else n
    if 64 < w then (n.setReg (r + 2) act (fun l => f l / 2 ^ 64)).setReg (r + 3) act (fun l => f l / 2 ^ 96) else n

/-- Lane registers of a galley of several groups carry an A value of `w` bits, or a compare of R103 (R96, R98). -/
def NativeRun.setAffine (n : NativeRun) (multi : Bool) (r w : Nat) (v : Val) : NativeRun :=
  let kept : Bool := match v with | .a _ _ => true | .cmp _ _ _ _ _ _ => true | _ => false
  if kept && multi && decide (r < 256) && decide (w ≤ 64) then { n with affine := n.affine.set (2 * r + (if w ≤ 32 then 0 else 1)) v } else n

/-- Pop once each load-queue head that a word names (R252). -/
def NativeRun.popHeads (n : NativeRun) (rs : List Nat) : NativeRun :=
  { n with loads := ((rs.filter (fun r => 480 ≤ r ∧ r ≤ 495)).dedup).foldl (fun t r =>
      t.set (r - 480) ((t.getD (r - 480) []).drop 1)) n.loads }

/-- Token counters after a word with these bits issues in a queue and its result is written (R255): wait bits take one
from the edges into the queue, push bits add one to the edges out of it. Edges 0 to 5 are A>X X>S S>A X>A S>X A>S. -/
def tokenEdges (queue : Nat) : Nat × Nat × Nat × Nat :=
  -- (edge in from next, edge in from previous, edge out to next, edge out to previous)
  match queue with
  | 0 => (3, 2, 0, 5)
  | 1 => (4, 0, 1, 3)
  | _ => (5, 1, 2, 4)

def takeTokens (queue tokens : Nat) (ts : List Nat) : List Nat :=
  let (inN, inP, _, _) := tokenEdges queue
  ts.mapIdx (fun i v => v - (if i = inN ∧ tokens / 8 % 2 = 1 then 1 else 0) - (if i = inP ∧ tokens / 4 % 2 = 1 then 1 else 0))

def pushTokens (queue tokens : Nat) (ts : List Nat) : List Nat :=
  let (_, _, outN, outP) := tokenEdges queue
  ts.mapIdx (fun i v => v + (if i = outN ∧ tokens / 2 % 2 = 1 then 1 else 0) + (if i = outP ∧ tokens % 2 = 1 then 1 else 0))

/-- The next word index at or after `i` that a queue takes: its own words and control words (R254). -/
def nextWord (queue : Nat) : List Nat → Nat → Nat → Nat
  | [], _, i => i
  | w :: ws, skip, i =>
    if skip = 0 ∧ (w / 2 ^ 58 % 4 = queue ∨ w / 2 ^ 58 % 4 = 3) then i
    else nextWord queue ws (skip - 1) (i + 1)

/-- Move a queue's prefetcher past the word it stands on; a control word moves all three (R254). -/
def NativeRun.step (n : NativeRun) (queue : Nat) : NativeRun :=
  let adv (q off : Nat) : Nat := nextWord q n.code.words (off + 1) 0
  match queue with
  | 0 => { n with aoff := adv 0 n.aoff }
  | 1 => { n with xoff := adv 1 n.xoff }
  | 2 => { n with soff := adv 2 n.soff }
  | _ => { n with aoff := adv 0 n.aoff, xoff := adv 1 n.xoff, soff := adv 2 n.soff }

/-- Bits of an operand field. -/
def NatField.bits : NatField → Nat
  | .reg b _ => b
  | _ => 0

/-- The registers that the word at a queue's head reads: the fields that name operands, and the second register of each
64-bit one; `src` is the type of an operand that the word does not decide (R252). -/
def readRegs (src : Ty) (v : Nat) : List Nat :=
  let pair (bits r : Nat) : List Nat := if 32 < (if bits = 0 then src.width else bits) ∧ r ≠ 511 then [r, r + 1] else [r]
  if v / 2 ^ 48 % 1024 = 0x3F4 then pair (if v / 2 ^ 44 % 16 = 1 then 64 else 32) (v / 2 ^ 18 % 512)
  else match chifinRaw v with
  | none => []
  | some r =>
    match opRow r.op, r.w.nat with
    | some row, some n =>
      ((natFields row r.w.ty n.queue).zip [r.w.a, r.w.b, r.w.c]).flatMap (fun p =>
        match p.1, p.2 with
        | .reg bits _, .reg k => pair bits k
        | _, _ => [])
    | _, _ => []

/-- The word a native queue stands on. -/
def NativeRun.wordAt (n : NativeRun) (q : Nat) : Option Nat :=
  n.code.words[if q = 0 then n.aoff else if q = 1 then n.xoff else n.soff]?

/-- Add a load's data to its queue: one entry for each 32 bits, queue k and, for 64 bits, k + 1 (R252). The push bits go
with the last. -/
def NativeRun.enqueue (n : NativeRun) (k w g push : Nat) (f : Nat → Nat) : NativeRun :=
  let put (n : NativeRun) (k sh p : Nat) : NativeRun :=
    { n with loads := n.loads.set k (n.loads.getD k [] ++ [⟨false, (List.range g).map (fun l => f l / 2 ^ sh % 2 ^ 32), p⟩]) }
  if w ≤ 32 then put n k 0 push else put (put n k 0 0) (k + 1) 32 push

/-- A queue that a load of `w` bits would fill has no free entry (R252). -/
def NativeRun.queueFull (n : NativeRun) (k w : Nat) : Bool :=
  decide (8 ≤ (n.loads.getD k []).length) || (decide (32 < w) && decide (8 ≤ (n.loads.getD (k + 1) []).length))

/-- A native word defines a value of `w` bits in D: lanes that a transaction has aborted receive 0 (R200). -/
def NativeRun.put (n : NativeRun) (e : Exe) (d w : Nat) (f : Nat → Nat) : NativeRun :=
  n.setValue d w e.th.mask (fun l => if laneIn e.act l ∨ 256 ≤ d then f l else 0)

/-- Results of a native word go to D and the registers after it, or to a load queue; lanes that a transaction has aborted
receive 0 (R200). -/
def NativeRun.results (n : NativeRun) (e : Exe) (d push : Nat) : List TVal → NativeRun
  | [] => n
  | v :: vs =>
    if natHead d then n.enqueue (d - 480) v.ty.width e.l.g push (fun l => e.lane v l)
    else NativeRun.results ((n.put e d v.ty.width (fun l => e.lane v l)).setAffine e.multi d v.ty.width v.val) e
      (match vs with | x :: _ => nextDest v.ty.width x.ty.width d | [] => d) push vs

/-- A counter above 255 (R255). -/
def NativeRun.overflow (n : NativeRun) : Bool := n.tokens.any (fun v => decide (255 < v))

/-- Issue of a native word of a queue (R252, R255): its wait bits are taken, the heads it names are popped, its push bits
take effect unless `held`, and the prefetcher moves on. A counter above 255 raises TOKEN_OVERFLOW. -/
def Exe.nativeIssue (e : Exe) (s : State) (n : NativeRun) (queue tokens : Nat) (reads : List Nat) (held : Bool) : State :=
  let ts := if queue = 3 then n.tokens else takeTokens queue tokens n.tokens
  let n := { n with tokens := if queue = 3 ∨ held then ts else pushTokens queue tokens ts }
  if n.overflow then e.faultAll s .tokenOverflow
  else
    let th := { e.th with native := some ((n.popHeads reads).step queue) }
    e.put s (if queue = 0 ∨ queue = 3 then { th with walks := [], wait := .none, brkOk := false } else th)

/-- The registers that the word of the queue in turn reads. -/
def NativeRun.reads (n : NativeRun) : List Nat :=
  match n.wordAt n.turn with
  | some v => readRegs n.src v
  | none => []

/-- The instruction is done: its results take the next value numbers (R280), and the next instruction follows. -/
def Exe.define (e : Exe) (s : State) (w : Main) (vs : List TVal) : State :=
  match w.nat, e.th.native with
  | some i, some n => e.nativeIssue s (n.results e i.d i.tokens vs) i.queue i.tokens n.reads (natHead i.d)
  | _, _ =>
    e.put s { e.th with instr := e.th.instr + 1, vals := (vs.map e.settle).reverse ++ e.th.vals, walks := [], wait := .none,
                        brkOk := false }

/-- The instruction is done and defines no value. -/
def Exe.done (e : Exe) (s : State) (w : Main) : State := e.define s w []

/-- The compare that the thread is about to execute has no use but the condition of branches of its block (R103). -/
def Exe.branchOnlyUse (e : Exe) (s : State) : Bool :=
  match e.th.native, e.xlat? s with
  | some n, _ => n.lone
  | none, none => false
  | none, some x =>
    match blockInstrs x.words with
    | none => false
    | some is => branchOnly e.th.vals.length (e.th.vals.length + 1) (is.drop (e.th.instr + 1))

/-! ### Capture of a native unit (R271) -/

/-- Rank of a descriptor's kind in the prescribed order. -/
def descRank (d : Nat) : Nat :=
  match d / 2 ^ 29 with
  | 5 => 0
  | 4 => 1
  | 2 => if Word.bit d 20 then 2 else 6
  | 3 => 3
  | 0 => 4
  | _ => 5

/-- The prescribed descriptor: the first of the lowest rank. -/
def prescribed : List Nat → Option Nat
  | [] => none
  | d :: ds =>
    match prescribed ds with
    | some x => if descRank x < descRank d then some x else some d
    | none => some d

/-- Element `depth` of a load queue in a lane. -/
def NativeRun.entryAt (n : NativeRun) (k depth lane : Nat) : Nat := (((n.loads.getD k [])[depth]?.map LoadEntry.lanes).getD []).getD lane 0

/-- A register descriptor's value in a lane, heads by their depth. -/
def NativeRun.descReg (n : NativeRun) (d lane w : Nat) : Nat :=
  let r := d % 512
  if natHead r then n.entryAt (r - 480) (d / 512 % 16) lane + (if 32 < w then 2 ^ 32 * n.entryAt (r - 479) (d / 512 % 16) lane else 0)
  else n.value r lane w

/-- Bytes of a lane's spill slot for a value of `w` bits. -/
def slotBytes (w : Nat) : Nat := if w ≤ 32 then 4 else if w ≤ 64 then 8 else 16

/-- A value of group `j` of width `g` as one of class `cls`: U takes lane 0's, S every lane's but for a compare of R103, which stays one; A keeps base and step, and of lane copies
takes them from the first two lanes. -/
def Val.asClass (cls : Nat) (ty : Ty) (g j : Nat) (x : Val) : Val :=
  match cls with
  | 0 => .ofNat (x.lane ty g j 0)
  | 1 =>
    match x with
    | .u v => .a (v.truncate 64) 0
    | .a b st => .a b st
    | _ =>
      let step := Word.signExtend ((x.lane ty g j 1 + 2 ^ ty.width - x.lane ty g j 0) % 2 ^ ty.width) ty.width
      .a (BitVec.ofInt 64 (x.lane ty g j 0 - step * (j * g))) (BitVec.ofInt 64 step)
  | _ =>
    match x with
    | .cmp _ _ _ _ _ _ => x
    | _ => .s ((List.range g).map (fun l => BitVec.ofNat 128 (x.lane ty g j l)))

/-- The value that a descriptor holds: `spad` is the core's scratchpad, `pool` the function's constant pool, `g` the group width. -/
def NativeRun.descValue (n : NativeRun) (spad : Memory) (pool : List Nat) (g : Nat) (ty : Ty) (d : Nat) : Val :=
  let w := ty.width
  let lanes (f : Nat → Nat) : Val := .s ((List.range g).map (fun l => BitVec.ofNat 128 (f l % 2 ^ w)))
  match d / 2 ^ 29 with
  | 5 => .ofNat (poolValue pool ty (d % 2 ^ 20))
  | 4 => .ofNat (n.value (d % 512) 0 w)
  | 2 =>
    let off := n.share + 4 * (d % 2 ^ 20)
    if Word.bit d 20 then .ofNat (spad.readNat off 8 % 2 ^ w)
    else lanes (fun l => spad.readNat (off + slotBytes w * l) (slotBytes w))
  | 3 =>
    let r := d % 512
    let base := if Word.bit d 28 then spad.readNat (n.share + 8 * r) 8 else n.value r 0 64
    let f := d / 512 % 2 ^ 18
    let step : Nat := if Word.bit d 27 then pool.getD f 0 else Word.wrapInt (Word.signExtend f 18) 64
    .a (BitVec.ofNat 64 base) (BitVec.ofNat 64 step)
  | _ =>
    match n.affineOf (d % 512) w with
    | some v => v
    | none => lanes (fun l => n.descReg d l w)

/-- The value that the prescribed descriptor holds, in the class of its record, for group `j` of width `g` (R271). -/
def NativeRun.capture (n : NativeRun) (spad : Memory) (pool : List Nat) (g j : Nat) (v : ConcVal) : TVal :=
  match prescribed v.descs with
  | none => ⟨v.ty, .u 0⟩
  | some d => ⟨v.ty, (n.descValue spad pool g v.ty d).asClass v.cls v.ty g j⟩

/-- Put a captured value among a thread's arguments or values; values are held newest first. -/
def putCaptured (x : TVal) (nvals : Nat) (th : Thread) (v : ConcVal) : Thread :=
  if v.arg then { th with args := th.args.set v.idx x } else { th with vals := th.vals.set (nvals - 1 - v.idx) x }

/-- The thread as its Laold values at a concordance entry of a block of these words: live values captured, the others left 0. -/
def NativeRun.captureAt (n : NativeRun) (spad : Memory) (words pool : List Nat) (g j : Nat) (th : Thread) (c : ConcEnt) : Thread :=
  let nv := c.vals.foldl (fun m v => if v.arg then m else max m (v.idx + 1)) (max th.vals.length (valuesBefore words c.instr))
  let na := c.vals.foldl (fun m v => if v.arg then max m (v.idx + 1) else m)
    (match parseHdr words with | some (h, _) => h.args.length | none => 0)
  let pad (xs : List TVal) (k : Nat) : List TVal := List.replicate (k - xs.length) ⟨.none, .u 0⟩
  let th := { th with instr := c.instr, vals := pad th.vals nv ++ th.vals, args := th.args.take na ++ pad th.args na }
  c.vals.foldl (fun th v => putCaptured (n.capture spad pool g j v) nv th v) th

/-- The concordance entry of the word that the A queue stands on. -/
def NativeRun.entryHere (n : NativeRun) : Option ConcEnt := n.code.conc.find? (fun c => c.noff == n.aoff)

/-- A thread on a core as its Laold values at the entry that `pick` finds; a native body is left. -/
def Thread.captured (s : State) (core g j : Nat) (pick : NativeRun → Option ConcEnt) (th : Thread) : Thread :=
  match th.native with
  | none => th
  | some n =>
    let x := th.body.bind s.xlat?
    let th' := match pick n with
      | some c => n.captureAt (s.core core).spad ((x.map Xlat.words).getD []) ((x.map Xlat.pool).getD []) g j th c
      | none => th
    { th' with native := none }

/-! ### Accesses that are issued and not performed (R183, R256) -/

/-- No-return atomics of groups `first`, … of a launch that no slice has accepted, on whichever core they were issued. -/
def State.owedBy (s : State) (launch first count : Nat) : List (AqMeta × Nat) :=
  s.cores.flatMap (fun p => (s.queuedAtomics p.1).filter (fun a => a.1.launch == launch && decide (first ≤ a.1.group) &&
    decide (a.1.group < first + count)))

/-- No-return atomics of the unit's groups that have not been performed. -/
def Exe.owed (e : Exe) (s : State) : List (AqMeta × Nat) := s.owedBy e.l.id e.g.first e.g.count

/-- The threads that run in a galley: its paths outside per-item mode, and its items. -/
def Galley.threads (g : Galley) : List Thread :=
  g.paths.flatMap (fun p => if p.items.isEmpty then [p.th] else p.items.map Item.th)

/-- Stores or no-return atomics that a group issued before number `id` are still to be performed: they happen before an engine command of
that number (R177). -/
def State.owedBefore (s : State) (launch j id : Nat) : Bool :=
  (s.owedBy launch j 1).any (fun a => decide (a.1.seq < id)) ||
    s.galleys.any (fun g => g.launch == launch && decide (g.first ≤ j) && decide (j < g.first + g.count) &&
      g.threads.any (fun t => match t.native with | some n => n.stores.any (fun a => decide (a.seq < id)) | none => false))

/-- A native store whose two halves have issued is still to be performed. -/
def NativeRun.pairOwed (n : NativeRun) : Bool := !n.stores.isEmpty && !n.data.isEmpty

/-- A native store is still to be performed. One whose data word lies behind a control word on which all three queues stand is not
waited for: it cannot issue first. -/
def NativeRun.storeOwed (n : NativeRun) : Bool :=
  !n.stores.isEmpty && (!n.data.isEmpty || !(n.aoff == n.xoff && n.aoff == n.soff))

/-- A native store of a galley has a half that is issued and has not been performed. -/
def Galley.storesOwed (g : Galley) : Bool :=
  g.threads.any (fun t => match t.native with | some n => n.storeOwed | none => false)

/-- A galley has stores or no-return atomics that are issued and not performed. -/
def galleyOwes (s : State) (g : Galley) : Bool := !(s.owedBy g.launch g.first g.count).isEmpty || g.storesOwed

/-- The executing unit's groups have stores or no-return atomics that are not performed. -/
def Exe.owes (e : Exe) (s : State) : Bool := !(e.owed s).isEmpty || e.g.storesOwed

/-! ### Unfolding (R101) -/

/-- Lanes of group `j` that hold items and have not retired while their group stood in a galley. -/
def Launch.liveLanes (l : Launch) (j : Nat) : Mask := l.itemLanes j &&& ~~~(State.groupSt l j).gone

/-- Leaf `j` of a galley at the same instruction. -/
def leafOf (l : Launch) (g : Galley) (j : Nat) : Galley :=
  { g with
    first := j
    count := 1
    paths := g.paths.map (fun p => { p with th :=
      { p.th with mask := l.liveLanes j, wait := .none, walks := [], body := none, native := none } }) }

/-- The galley becomes one leaf for each of its groups, all at this instruction. The first keeps its slot; the others
wait on the launch's pending list (R128). -/
def unfold (s : State) (l : Launch) (g : Galley) (core : Nat) : State :=
  let s := s.setGalley (leafOf l g g.first)
  let rest := (List.range (g.count - 1)).map (fun i =>
    { leafOf l g (g.first + 1 + i) with id := s.nextId + i, core := none, slot := 0, home := core })
  { s with galleys := s.galleys ++ rest, nextId := s.nextId + (g.count - 1) }

/-- The unit's galley unfolds. It waits until every access it issued is accepted (R102). A native body's values are captured at
the entry of its instruction, as `unf` does. -/
def Exe.unfold (e : Exe) (s : State) : State :=
  if e.owes s then e.park s .drain
  else
    let th := e.th.captured s e.core e.l.g e.g.first (fun n => n.code.conc.find? (fun c => c.instr == e.th.instr))
    Machine.unfold s e.l (e.g.setThread e.uid th) e.core

/-! ### Lane-wise computation -/

/-- An S result of a leaf: `f` of each active lane's operands. -/
def Exe.spread (e : Exe) (xs : List TVal) (f : List Nat → Nat) : Val :=
  .s ((List.range e.l.g).map (fun l => if laneIn e.act l then BitVec.ofNat 128 (f (xs.map (fun x => e.lane x l))) else 0))

/-- An operation computed lane by lane from its operands: U when every operand is U, and S otherwise, a multi-group
galley unfolding first (Table 5.1, R101). `fs` gives one function per result. -/
def Exe.lanewise (e : Exe) (s : State) (w : Main) (tys : List Ty) (xs : List TVal) (fs : List (List Nat → Nat)) : State :=
  if xs.all (fun x => x.val.cls == 0) then
    e.define s w ((tys.zip fs).map (fun p => ⟨p.1, .ofNat (p.2 (xs.map (fun x => e.lane x 0)))⟩))
  else if e.multi then e.unfold s
  else e.define s w ((tys.zip fs).map (fun p => ⟨p.1, e.spread xs p.2⟩))

/-- Base and step of a U or A value (R96). -/
def Val.affine : Val → Option (Word × Word)
  | .u v => some (v.truncate 64, 0)
  | .a b st => some (b, st)
  | _ => none

/-- An A result (R96, Table 5.1), or the lane-wise one where an operand is neither U nor A, or none is A. -/
def Exe.affineOr (e : Exe) (s : State) (w : Main) (ty : Ty) (xs : List TVal) (v : Option (Word × Word)) (f : List Nat → Nat) :
    State :=
  match v with
  | some (b, st) => if xs.any (fun x => x.val.cls == 1) then e.define s w [⟨ty, .a b st⟩] else e.lanewise s w [ty] xs [f]
  | none => e.lanewise s w [ty] xs [f]

/-- The form acts on a group: a multi-group galley unfolds first (R99). -/
def Exe.leafOnly (e : Exe) (s : State) (f : State) : State := if e.multi then e.unfold s else f

end Sys2Proof.Machine
end

