-- ==== Sys2Proof/Machine/Flags.lean ====
section
/-! DEFINITION. Conditions and carries. The device has no flag register: a compare defines a value of type `.p` (R328,
R341), and `addc` and `subb` define their carry as a second result (R322). -/

namespace Sys2Proof.Machine

open Sys2Proof

/-- PRED of a compare, MOD [6:4] (R300). -/
def predOf (mod : Nat) : Nat := mod / 16 % 8

/-- An integer compare of two values of type `ty` (R328). -/
def cmpInt (ty : Ty) (pred a b : Nat) : Nat := Word.ofBool (comparePred pred (ty.toInt a) (ty.toInt b))

/-- Sum and carry-out of `addc` (R322). -/
def addCarry (w a b c : Nat) : Nat × Nat :=
  let t := a % 2 ^ w + b % 2 ^ w + c % 2
  (t % 2 ^ w, t / 2 ^ w)

/-- Difference and borrow-out of `subb` (R322). -/
def subBorrow (w a b c : Nat) : Nat × Nat :=
  let t : Int := ((a % 2 ^ w : Nat) : Int) - (b % 2 ^ w : Nat) - (c % 2 : Nat)
  (Word.wrapInt t w, Word.ofBool (decide (t < 0)))

/-- SAT, FTZ and RM of an AR or MM form (R218). -/
def arMode (mod : Nat) : Num.Mode := ⟨mod % 4, Word.bit mod 3, Word.bit mod 2⟩

end Sys2Proof.Machine
end

