-- ==== Sys2Proof/Machine/Integer.lean ====
section
/-! DEFINITION. Identity, integer, logical, shift, bit-field, compare, select, conversion, address and move
instructions (R318 to R332). -/

namespace Sys2Proof.Machine

open Sys2Proof

/-! ### Shapes -/

/-- Operands A, B and C in the instruction's type. -/
def Exe.opA (e : Exe) (s : State) (w : Main) : TVal := e.opnd s w.ty w.a
def Exe.opB (e : Exe) (s : State) (w : Main) : TVal := e.opnd s w.ty w.b
def Exe.opC (e : Exe) (s : State) (w : Main) : TVal := e.opnd s w.ty w.c

/-- Element `i` of an operand list. -/
def arg (xs : List Nat) (i : Nat) : Nat := xs.getD i 0

/-- One operand of the instruction's type, computed lane by lane. -/
def unary (w : Main) (f : Nat → Nat) (s : State) : Host.Outcome State Fault Refusal :=
  onUnit s (fun e => e.lanewise s w [w.ty] [e.opA s w] [fun xs => f (arg xs 0)])

/-- Two operands of the instruction's type, computed lane by lane. -/
def binary (w : Main) (f : Nat → Nat → Nat) (s : State) : Host.Outcome State Fault Refusal :=
  onUnit s (fun e => e.lanewise s w [w.ty] [e.opA s w, e.opB s w] [fun xs => f (arg xs 0) (arg xs 1)])

/-- Three operands of the instruction's type, computed lane by lane. -/
def ternary (w : Main) (f : Nat → Nat → Nat → Nat) (s : State) : Host.Outcome State Fault Refusal :=
  onUnit s (fun e => e.lanewise s w [w.ty] [e.opA s w, e.opB s w, e.opC s w] [fun xs => f (arg xs 0) (arg xs 1) (arg xs 2)])

/-- Wrap, or Sat under `.sat` (R319). -/
def wrapOrSat (w : Main) (x : Int) : Nat := if Word.bit w.mod 3 then w.ty.sat x else w.ty.wrap x

/-! ### Identity (Table 15.2) -/

/-- A result of the executing unit that is class U. -/
def uniform (w : Main) (f : State → Exe → Nat) (s : State) : Host.Outcome State Fault Refusal :=
  onUnit s (fun e => e.define s w [⟨w.ty, .ofNat (f s e % 2 ^ w.ty.width)⟩])

/-- First and last item of a galley. -/
def Exe.itemSpan (e : Exe) : Nat × Nat := (e.g.first * e.l.g, min e.l.n ((e.g.first + e.g.count) * e.l.g) - 1)

/-- Coordinate `k` of a linear index (R75). -/
def coordOf (l : Launch) (k i : Nat) : Nat :=
  let e0 := max 1 (l.ext.getD 0 1)
  let e1 := max 1 (l.ext.getD 1 1)
  if k = 0 then i % e0 else if k = 1 then i / e0 % e1 else i / e0 / e1

def execItemidx (w : Main) (s : State) : Host.Outcome State Fault Refusal :=
  onUnit s (fun e => e.define s w [⟨w.ty, .a 0 1⟩])

/-- Dimension 0 is A where all the galley's items share coordinates 1 and 2; the others are U where constant. -/
def execCoord (w : Main) (s : State) : Host.Outcome State Fault Refusal :=
  onUnit s (fun e =>
    let k := immNat w.a
    let (lo, hi) := e.itemSpan
    let e0 := max 1 (e.l.ext.getD 0 1)
    let const : Bool := if k = 0 then lo / e0 == hi / e0
      else if k = 1 then lo / e0 == hi / e0 || decide (e.l.ext.getD 1 1 ≤ 1)
      else coordOf e.l 2 lo == coordOf e.l 2 hi
    if const then
      if k = 0 then e.define s w [⟨w.ty, .a (BitVec.ofInt 64 (-((lo / e0 * e0 : Nat) : Int))) 1⟩]
      else e.define s w [⟨w.ty, .ofNat (coordOf e.l k lo % 2 ^ w.ty.width)⟩]
    else if e.multi then e.unfold s
    else e.define s w [⟨w.ty, .s ((List.range e.l.g).map (fun l =>
      if laneIn e.act l then BitVec.ofNat 128 (coordOf e.l k (e.g.first * e.l.g + l) % 2 ^ w.ty.width) else 0))⟩])

def execLaneid (w : Main) (s : State) : Host.Outcome State Fault Refusal :=
  onUnit s (fun e => e.leafOnly s (e.define s w [⟨w.ty, .a (BitVec.ofInt 64 (-((e.g.first * e.l.g : Nat) : Int))) 1⟩]))
def execGroupid (w : Main) (s : State) : Host.Outcome State Fault Refusal :=
  onUnit s (fun e => e.leafOnly s (e.define s w [⟨w.ty, .ofNat (e.g.first % 2 ^ w.ty.width)⟩]))
def execGwidth (w : Main) (s : State) : Host.Outcome State Fault Refusal := uniform w (fun _ e => e.l.g) s
def execNitems (w : Main) (s : State) : Host.Outcome State Fault Refusal := uniform w (fun _ e => e.l.n) s
def execDimext (w : Main) (s : State) : Host.Outcome State Fault Refusal :=
  uniform w (fun _ e => e.l.ext.getD (immNat w.a) 1) s
def execDomid (w : Main) (s : State) : Host.Outcome State Fault Refusal := uniform w (fun _ e => e.l.domainOf e.g.first) s
def execDomsize (w : Main) (s : State) : Host.Outcome State Fault Refusal := uniform w (fun _ e => e.l.domainSize) s
def execCoreid (w : Main) (s : State) : Host.Outcome State Fault Refusal := uniform w (fun _ e => e.core) s
def execClusterid (w : Main) (s : State) : Host.Outcome State Fault Refusal := uniform w (fun _ e => clusterOf e.core) s
def execDieid (w : Main) (s : State) : Host.Outcome State Fault Refusal := uniform w (fun _ e => dieOf e.core) s
def execLaunchid (w : Main) (s : State) : Host.Outcome State Fault Refusal := uniform w (fun _ e => e.l.tag) s
def execActmask (w : Main) (s : State) : Host.Outcome State Fault Refusal :=
  onUnit s (fun e => e.leafOnly s (e.define s w [⟨w.ty, .ofNat e.act.toNat⟩]))

/-! ### Arithmetic (R319 to R322) -/

/-- An integer form of Table 15.3 with its affine rule. -/
def intForm (w : Main) (xs : Exe → List TVal) (f : List Int → Int) (aff : List (Word × Word) → Option (Word × Word))
    (s : State) : Host.Outcome State Fault Refusal :=
  onUnit s (fun e =>
    let vs := xs e
    let v := if Word.bit w.mod 3 then none else (vs.mapM (fun (x : TVal) => x.val.affine)).bind aff
    e.affineOr s w w.ty vs v (fun ns => wrapOrSat w (f (ns.map w.ty.toInt))))

/-- Element `i` of an integer list. -/
def iarg (xs : List Int) (i : Nat) : Int := xs.getD i 0

def execAdd (w : Main) (s : State) : Host.Outcome State Fault Refusal :=
  intForm w (fun e => [e.opA s w, e.opB s w]) (fun x => iarg x 0 + iarg x 1)
    (fun v => match v with | [a, b] => some (a.1 + b.1, a.2 + b.2) | _ => none) s
def execSub (w : Main) (s : State) : Host.Outcome State Fault Refusal :=
  intForm w (fun e => [e.opA s w, e.opB s w]) (fun x => iarg x 0 - iarg x 1)
    (fun v => match v with | [a, b] => some (a.1 - b.1, a.2 - b.2) | _ => none) s

/-- A × U scales base and step; A × A is S (Table 5.1). -/
def execMul (w : Main) (s : State) : Host.Outcome State Fault Refusal :=
  onUnit s (fun e =>
    let a := e.opA s w
    let b := e.opB s w
    let v : Option (Word × Word) :=
      if Word.bit w.mod 3 then none
      else
        match a.val, b.val with
        | .a x y, .u u => some (x * u.truncate 64, y * u.truncate 64)
        | .u u, .a x y => some (x * u.truncate 64, y * u.truncate 64)
        | _, _ => none
    e.affineOr s w w.ty [a, b] v (fun ns => wrapOrSat w (w.ty.toInt (arg ns 0) * w.ty.toInt (arg ns 1))))
def execMulhi (w : Main) (s : State) : Host.Outcome State Fault Refusal :=
  binary w (fun a b => w.ty.wrap (w.ty.toInt a * w.ty.toInt b / 2 ^ w.ty.width)) s
def execMad (w : Main) (s : State) : Host.Outcome State Fault Refusal :=
  ternary w (fun a b c => wrapOrSat w (w.ty.toInt a * w.ty.toInt b + w.ty.toInt c)) s
def execNeg (w : Main) (s : State) : Host.Outcome State Fault Refusal :=
  intForm w (fun e => [e.opA s w]) (fun x => -iarg x 0)
    (fun v => match v with | [a] => some (-a.1, -a.2) | _ => none) s
def execAbs (w : Main) (s : State) : Host.Outcome State Fault Refusal :=
  unary w (fun a => wrapOrSat w ((w.ty.toInt a).natAbs : Int)) s

/-- Quotient towards zero with the cases of Table 15.4. -/
def divTy (ty : Ty) (a b : Nat) : Nat :=
  let y := ty.toInt b
  if y = 0 then 2 ^ ty.width - 1 else ty.wrap ((ty.toInt a).tdiv y)

/-- Remainder with the sign of the dividend (Table 15.4). -/
def remTy (ty : Ty) (a b : Nat) : Nat :=
  let y := ty.toInt b
  if y = 0 then a % 2 ^ ty.width else ty.wrap ((ty.toInt a).tmod y)

def execDiv (w : Main) (s : State) : Host.Outcome State Fault Refusal := binary w (divTy w.ty) s
def execRem (w : Main) (s : State) : Host.Outcome State Fault Refusal := binary w (remTy w.ty) s

def minTy (ty : Ty) (a b : Nat) : Nat := if ty.toInt b < ty.toInt a then b else a
def maxTy (ty : Ty) (a b : Nat) : Nat := if ty.toInt a < ty.toInt b then b else a

def execMin (w : Main) (s : State) : Host.Outcome State Fault Refusal := binary w (minTy w.ty) s
def execMax (w : Main) (s : State) : Host.Outcome State Fault Refusal := binary w (maxTy w.ty) s
def execClamp (w : Main) (s : State) : Host.Outcome State Fault Refusal :=
  ternary w (fun a lo hi => maxTy w.ty lo (minTy w.ty a hi)) s
def execAdiff (w : Main) (s : State) : Host.Outcome State Fault Refusal :=
  binary w (fun a b => w.ty.wrap ((w.ty.toInt a - w.ty.toInt b).natAbs : Int)) s

/-- Carry-in is bit 0 of the third operand, or 0 without one. -/
def execAddc (w : Main) (s : State) : Host.Outcome State Fault Refusal :=
  onUnit s (fun e => e.lanewise s w [w.ty, w.ty] [e.opA s w, e.opB s w, e.opC s w]
    [fun x => (addCarry w.ty.width (arg x 0) (arg x 1) (arg x 2)).1, fun x => (addCarry w.ty.width (arg x 0) (arg x 1) (arg x 2)).2])
def execSubb (w : Main) (s : State) : Host.Outcome State Fault Refusal :=
  onUnit s (fun e => e.lanewise s w [w.ty, w.ty] [e.opA s w, e.opB s w, e.opC s w]
    [fun x => (subBorrow w.ty.width (arg x 0) (arg x 1) (arg x 2)).1, fun x => (subBorrow w.ty.width (arg x 0) (arg x 1) (arg x 2)).2])

/-! ### Logic, shifts, bit fields (R323 to R327) -/

def execAnd (w : Main) (s : State) : Host.Outcome State Fault Refusal := binary w (fun a b => a &&& b) s
def execOr (w : Main) (s : State) : Host.Outcome State Fault Refusal := binary w (fun a b => a ||| b) s
def execXor (w : Main) (s : State) : Host.Outcome State Fault Refusal := binary w (fun a b => a ^^^ b) s

/-- Bitwise not of `w` bits. -/
def notBits (w a : Nat) : Nat := 2 ^ w - 1 - a % 2 ^ w

def execNot (w : Main) (s : State) : Host.Outcome State Fault Refusal :=
  onUnit s (fun e =>
    let a := e.opA s w
    let v : Option (Word × Word) := match a.val with | .a b st => some (-b - 1, -st) | _ => none
    e.affineOr s w w.ty [a] v (fun x => notBits w.ty.width (arg x 0)))

/-- Bit i of the result is bit ai + 2 bi + 4 ci of the table (R324). -/
def bfn3Bits (f a b c : Nat) : Nat → Nat
  | 0 => 0
  | n + 1 =>
    bfn3Bits f a b c n + (if Word.bit f (Word.ofBool (Word.bit a n) + 2 * Word.ofBool (Word.bit b n) + 4 * Word.ofBool (Word.bit c n)) then 2 ^ n else 0)

def execBfn3 (w : Main) (l : Nat) (s : State) : Host.Outcome State Fault Refusal :=
  ternary w (fun a b c => bfn3Bits l a b c w.ty.width) s

/-- Value and a `.n32` amount. -/
def shiftForm (w : Main) (f : Nat → Nat → Nat) (s : State) : Host.Outcome State Fault Refusal :=
  onUnit s (fun e => e.lanewise s w [w.ty] [e.opA s w, e.opnd s .n32 w.b] [fun x => f (arg x 0) (arg x 1)])

def shlBits (w a n : Nat) : Nat := if w ≤ n then 0 else a * 2 ^ n % 2 ^ w
def shrBits (w a n : Nat) : Nat := if w ≤ n then 0 else a % 2 ^ w / 2 ^ n
def sraBits (w a n : Nat) : Nat :=
  Word.wrapInt (Word.signExtend a w / 2 ^ (min n w)) w
def rotlBits (w a n : Nat) : Nat :=
  let k := n % w
  (a * 2 ^ k + a % 2 ^ w / 2 ^ (w - k)) % 2 ^ w

/-- An A operand shifted by a U amount stays A (Table 5.1). -/
def execShl (w : Main) (s : State) : Host.Outcome State Fault Refusal :=
  onUnit s (fun e =>
    let a := e.opA s w
    let n := e.opnd s .n32 w.b
    let v : Option (Word × Word) :=
      match a.val, n.val with
      | .a b st, .u k => if 64 ≤ k.toNat then some (0, 0) else some (b <<< k.toNat, st <<< k.toNat)
      | _, _ => none
    e.affineOr s w w.ty [a, n] v (fun x => shlBits w.ty.width (arg x 0) (arg x 1)))
def execShr (w : Main) (s : State) : Host.Outcome State Fault Refusal := shiftForm w (shrBits w.ty.width) s
def execSra (w : Main) (s : State) : Host.Outcome State Fault Refusal := shiftForm w (sraBits w.ty.width) s
def execRotl (w : Main) (s : State) : Host.Outcome State Fault Refusal := shiftForm w (rotlBits w.ty.width) s

/-- bfe of R326. -/
def bfeBits (ty : Ty) (a p l : Nat) : Nat :=
  let w := ty.width
  if l = 0 ∨ w ≤ p then 0
  else
    let top := min (p + l) w - 1
    let f := Word.field a top p
    if ty.signed then ty.wrap (Word.signExtend f (top - p + 1)) else f

/-- bfi of R326. -/
def bfiBits (w a b p l : Nat) : Nat :=
  if l = 0 ∨ w ≤ p then a
  else
    let n := min (p + l) w - p
    a % 2 ^ p + b % 2 ^ n * 2 ^ p + a / 2 ^ (p + n) * 2 ^ (p + n)

def execBfe (w : Main) (s : State) : Host.Outcome State Fault Refusal :=
  onUnit s (fun e => e.lanewise s w [w.ty] [e.opA s w, e.opnd s .n32 w.b, e.opnd s .n32 w.c]
    [fun x => bfeBits w.ty (arg x 0) (arg x 1) (arg x 2)])
def execBfi (w : Main) (x : X4) (s : State) : Host.Outcome State Fault Refusal :=
  onUnit s (fun e => e.lanewise s w [w.ty] [e.opA s w, e.opB s w, e.opnd s .n32 w.c, e.opnd s .n32 x.a]
    [fun x => bfiBits w.ty.width (arg x 0) (arg x 1) (arg x 2) (arg x 3)])

/-- Number of leading zeros among `n` bits. -/
def clzBits (a : Nat) : Nat → Nat
  | 0 => 0
  | n + 1 => if Word.bit a n then 0 else clzBits a n + 1

/-- Number of trailing zeros among the bits from `i` up. -/
def ctzBits (a : Nat) : Nat → Nat → Nat
  | 0, _ => 0
  | n + 1, i => if Word.bit a i then 0 else ctzBits a n (i + 1) + 1

/-- One bits among the low `n`. -/
def oneBits (a : Nat) : Nat → Nat
  | 0 => 0
  | n + 1 => oneBits a n + Word.ofBool (Word.bit a n)

/-- The bits of `a` in reverse order. -/
def revBits (a : Nat) : Nat → Nat
  | 0 => 0
  | n + 1 => revBits (a / 2) n + (a % 2) * 2 ^ n

def execClz (w : Main) (s : State) : Host.Outcome State Fault Refusal := unary w (fun a => clzBits a w.ty.width % 2 ^ w.ty.width) s
def execCtz (w : Main) (s : State) : Host.Outcome State Fault Refusal := unary w (fun a => ctzBits a w.ty.width 0 % 2 ^ w.ty.width) s
def execBcnt (w : Main) (s : State) : Host.Outcome State Fault Refusal := unary w (fun a => oneBits a w.ty.width) s
def execBrev (w : Main) (s : State) : Host.Outcome State Fault Refusal := unary w (fun a => revBits a w.ty.width) s
def execBswap (w : Main) (s : State) : Host.Outcome State Fault Refusal :=
  unary w (fun a => leNat ((leBytes (w.ty.width / 8) a).reverse)) s

/-! ### Compare, select, conversion, address, move (R328 to R332) -/

/-- A compare of A against U whose only uses are branch conditions of its block stays unevaluated (R103). -/
def execCmp (w : Main) (s : State) : Host.Outcome State Fault Refusal :=
  onUnit s (fun e =>
    let a := e.opA s w
    let b := e.opB s w
    let p := predOf w.mod
    let other := e.lanewise s w [.p] [a, b] [fun x => cmpInt w.ty p (arg x 0) (arg x 1)]
    match a.val, b.val with
    | .a x y, .u u => if e.branchOnlyUse s then e.define s w [⟨.p, .cmp p w.ty x y u true⟩] else other
    | .u u, .a x y => if e.branchOnlyUse s then e.define s w [⟨.p, .cmp p w.ty x y u false⟩] else other
    | _, _ => other)

/-- A U condition gives the greater class of the two values (Table 5.1); every other condition gives S. -/
def execSel (w : Main) (s : State) : Host.Outcome State Fault Refusal :=
  onUnit s (fun e =>
    let c := e.opnd s .p w.a
    let a := e.opB s w
    let b := e.opC s w
    let spread := e.lanewise s w [w.ty] [c, a, b] [fun x => if arg x 0 % 2 = 1 then arg x 1 else arg x 2]
    match c.val with
    | .u v =>
      let pick := if v.toNat % 2 = 1 then a else b
      match a.val.affine, b.val.affine, pick.val.affine with
      | some _, some _, some (x, y) =>
        if a.val.cls = 1 ∨ b.val.cls = 1 then e.define s w [⟨w.ty, .a x y⟩] else e.define s w [⟨w.ty, pick.val⟩]
      | _, _, _ => spread
    | _ => spread)

/-- A narrowing or equal-width `cvti` without `.sat` keeps class A; a widening one extends by the source's sign, with `.sat` too (R330). -/
def execCvti (w : Main) (s : State) : Host.Outcome State Fault Refusal :=
  onUnit s (fun e =>
    let a := e.srcOpnd s w.ty w.a
    let v := if Word.bit w.mod 3 ∨ a.ty.width < w.ty.width then none else a.val.affine
    e.affineOr s w w.ty [a] v (fun x =>
      let n := a.ty.toInt (arg x 0)
      if a.ty.width < w.ty.width then w.ty.wrap n else wrapOrSat w n))

/-- An immediate or pool index is read as `.i64` (R331). -/
def execLea (w : Main) (s : State) : Host.Outcome State Fault Refusal :=
  onUnit s (fun e =>
    let i := e.srcOpnd s .i64 w.b
    e.lanewise s w [w.ty] [e.opA s w, i]
      [fun x => w.ty.wrap ((arg x 0 : Nat) + i.ty.toInt (arg x 1) * 2 ^ immNat w.c)])

def execMov (w : Main) (s : State) : Host.Outcome State Fault Refusal :=
  onUnit s (fun e => e.define s w [⟨w.ty, (e.opA s w).val⟩])

end Sys2Proof.Machine
end

