-- ==== Sys2Proof/Machine/Float.lean ====
section
/-! DEFINITION. Floating-point arithmetic, minimum and maximum, signs, compares and conversions (R336 to R344). -/

namespace Sys2Proof.Machine

open Sys2Proof

/-! ### Shapes -/

/-- A packed-pair form computes its halves independently, each as the scalar form of the element type (R333). -/
def halves (ty : Ty) (f : List Nat → Nat) (xs : List Nat) : Nat :=
  if ty.isPair then
    let w := ty.elem.width
    f (xs.map (fun x => x % 2 ^ w)) + 2 ^ w * f (xs.map (fun x => x / 2 ^ w % 2 ^ w))
  else f xs

/-- Decode operand `i` under the form's FTZ. -/
def farg (ty : Ty) (mod : Nat) (xs : List Nat) (i : Nat) : Num.FVal := Num.decodeTy ty (arMode mod).ftz (arg xs i)

/-- A form of Table 16.1: the exact result, rounded once (R336). -/
def floatForm (w : Main) (ops : Exe → List TVal) (f : List Num.FVal → Num.FVal) (s : State) :
    Host.Outcome State Fault Refusal :=
  onUnit s (fun e => e.lanewise s w [w.ty] (ops e)
    [halves w.ty (fun xs => Num.roundTy w.ty.elem (arMode w.mod)
      (f (xs.map (fun x => Num.decodeTy w.ty.elem (arMode w.mod).ftz x))))])

def fval (xs : List Num.FVal) (i : Nat) : Num.FVal := xs.getD i .nan

def float1 (w : Main) (f : Num.FVal → Num.FVal) (s : State) : Host.Outcome State Fault Refusal :=
  floatForm w (fun e => [e.opA s w]) (fun x => f (fval x 0)) s

def float2 (w : Main) (f : Num.FVal → Num.FVal → Num.FVal) (s : State) : Host.Outcome State Fault Refusal :=
  floatForm w (fun e => [e.opA s w, e.opB s w]) (fun x => f (fval x 0) (fval x 1)) s

/-! ### Arithmetic (Table 16.1) -/

def execFadd (w : Main) (s : State) : Host.Outcome State Fault Refusal := float2 w (Num.add (w.mod % 4)) s
def execFsub (w : Main) (s : State) : Host.Outcome State Fault Refusal := float2 w (fun a b => Num.add (w.mod % 4) a b.neg) s
def execFmul (w : Main) (s : State) : Host.Outcome State Fault Refusal := float2 w Num.mul s
def execFdiv (w : Main) (s : State) : Host.Outcome State Fault Refusal := float2 w Num.div s
def execFma (w : Main) (s : State) : Host.Outcome State Fault Refusal :=
  floatForm w (fun e => [e.opA s w, e.opB s w, e.opC s w])
    (fun x => Num.fma (w.mod % 4) (fval x 0) (fval x 1) (fval x 2)) s
def execSqrt (w : Main) (s : State) : Host.Outcome State Fault Refusal := float1 w Num.sqrt s
def execRcp (w : Main) (s : State) : Host.Outcome State Fault Refusal := float1 w Num.rcp s
def execRsqrt (w : Main) (s : State) : Host.Outcome State Fault Refusal := float1 w Num.rsqrt s
def execExp2 (w : Main) (s : State) : Host.Outcome State Fault Refusal := float1 w Num.exp2 s
def execLog2 (w : Main) (s : State) : Host.Outcome State Fault Refusal := float1 w Num.log2 s
def execSin (w : Main) (s : State) : Host.Outcome State Fault Refusal := float1 w (Num.trig 0) s
def execCos (w : Main) (s : State) : Host.Outcome State Fault Refusal := float1 w (Num.trig 1) s

/-- The exponent operand is `.i32`. -/
def execLdexp (w : Main) (s : State) : Host.Outcome State Fault Refusal :=
  onUnit s (fun e => e.lanewise s w [w.ty] [e.opA s w, e.opnd s .i32 w.b]
    [fun x => Num.roundTy w.ty (arMode w.mod) (Num.ldexp (farg w.ty w.mod x 0) (Ty.i32.toInt (arg x 1)))])

/-- Mantissa and exponent (R338). -/
def execFrexp (w : Main) (s : State) : Host.Outcome State Fault Refusal :=
  onUnit s (fun e => e.lanewise s w [w.ty, .i32] [e.opA s w]
    [fun x => (Num.frexp w.ty (arMode w.mod).ftz (arg x 0)).1, fun x => Ty.i32.wrap (Num.frexp w.ty (arMode w.mod).ftz (arg x 0)).2])

def execFrnd (w : Main) (s : State) : Host.Outcome State Fault Refusal := float1 w (Num.frnd (w.mod % 4)) s

/-! ### Minimum, maximum, sign (R339, R340) -/

/-- fmin or fmax of two encodings of a type, sources flushed under `.ftz`. -/
def fminmax (ty : Ty) (mod : Nat) (isMax : Bool) (a b : Nat) : Nat :=
  match Num.fmtOf ty with
  | some f => Num.minMax f isMax (Num.flushSrc ty (arMode mod).ftz a) (Num.flushSrc ty (arMode mod).ftz b)
  | none => a

def execFmin (w : Main) (s : State) : Host.Outcome State Fault Refusal :=
  onUnit s (fun e => e.lanewise s w [w.ty] [e.opA s w, e.opB s w]
    [halves w.ty (fun x => fminmax w.ty.elem w.mod false (arg x 0) (arg x 1))])
def execFmax (w : Main) (s : State) : Host.Outcome State Fault Refusal :=
  onUnit s (fun e => e.lanewise s w [w.ty] [e.opA s w, e.opB s w]
    [halves w.ty (fun x => fminmax w.ty.elem w.mod true (arg x 0) (arg x 1))])

/-- fmax(lo, fmin(a, hi)) (R339). -/
def execFclamp (w : Main) (s : State) : Host.Outcome State Fault Refusal :=
  ternary w (fun a lo hi => fminmax w.ty w.mod true lo (fminmax w.ty w.mod false a hi)) s

/-- Bits below the sign. -/
def magBits (ty : Ty) (a : Nat) : Nat := a % 2 ^ (ty.width - 1)

def execFabs (w : Main) (s : State) : Host.Outcome State Fault Refusal :=
  unary w (fun a => halves w.ty (fun x => magBits w.ty.elem (arg x 0)) [a]) s

/-- The sign bit inverted. -/
def flipSign (ty : Ty) (a : Nat) : Nat := a % 2 ^ ty.width ^^^ 2 ^ (ty.width - 1)

def execFneg (w : Main) (s : State) : Host.Outcome State Fault Refusal :=
  unary w (fun a => halves w.ty (fun x => flipSign w.ty.elem (arg x 0)) [a]) s

/-- `a` with the sign bit of `b`. -/
def copySign (ty : Ty) (a b : Nat) : Nat := magBits ty a + (b % 2 ^ ty.width - magBits ty b)

def execFsgn (w : Main) (s : State) : Host.Outcome State Fault Refusal :=
  binary w (fun a b => halves w.ty (fun x => copySign w.ty.elem (arg x 0) (arg x 1)) [a, b]) s

/-! ### Compare, classify, convert (R341 to R344) -/

def execFcmp (w : Main) (s : State) : Host.Outcome State Fault Refusal :=
  onUnit s (fun e => e.lanewise s w [.p] [e.opA s w, e.opB s w]
    [fun x => Word.ofBool (Num.fcompare (predOf w.mod) (farg w.ty w.mod x 0) (farg w.ty w.mod x 1))])

def execFclass (w : Main) (s : State) : Host.Outcome State Fault Refusal :=
  onUnit s (fun e => e.lanewise s w [.n32] [e.opA s w]
    [fun x => match Num.fmtOf w.ty with | some f => Num.fclass f (arg x 0) | none => 0])

/-- The source type is that of the operand (R343). -/
def execCvt (w : Main) (s : State) : Host.Outcome State Fault Refusal :=
  onUnit s (fun e =>
    let a := e.srcOpnd s w.ty w.a
    e.lanewise s w [w.ty] [a] [fun x => Num.cvt a.ty w.ty (arMode w.mod) (arg x 0)])

def execCvtef (w : Main) (s : State) : Host.Outcome State Fault Refusal :=
  onUnit s (fun e =>
    let a := e.srcOpnd s w.ty w.a
    e.lanewise s w [w.ty, a.ty] [a]
      [fun x => (Num.cvtef a.ty w.ty (arMode w.mod) (arg x 0)).1, fun x => (Num.cvtef a.ty w.ty (arMode w.mod) (arg x 0)).2])

end Sys2Proof.Machine
end

