-- ==== Sys2Proof/Machine/Vector.lean ====
section
/-! DEFINITION. Cross-lane movement, reports on active lanes, reductions, sparse compress and random numbers (R345 to
R349). A cross-lane instruction acts on a leaf (R334). -/

namespace Sys2Proof.Machine

open Sys2Proof

/-! ### Movement (Table 16.4) -/

/-- The value lane `l` takes from source lane `src`: its own where the source is not active or not a lane (R345). -/
def Exe.take (e : Exe) (a : TVal) (l : Nat) (src : Int) : Nat :=
  if 0 ≤ src ∧ src < e.l.g ∧ laneIn e.act src.toNat then e.lane a src.toNat else e.lane a l

/-- An S result that depends on the lane. -/
def Exe.perLane (e : Exe) (f : Nat → Nat) : Val :=
  .s ((List.range e.l.g).map (fun l => if laneIn e.act l then BitVec.ofNat 128 (f l) else 0))

/-- A shuffle: U where `a` is U, else S. -/
def shuffle (w : Main) (src : Nat → Nat → Int) (s : State) : Host.Outcome State Fault Refusal :=
  onUnit s (fun e =>
    let a := e.opA s w
    let k := e.opnd s .n32 w.b
    e.leafOnly s (
      if a.val.cls = 0 then e.define s w [⟨w.ty, a.val⟩]
      else e.define s w [⟨w.ty, e.perLane (fun l => e.take a l (src l (e.lane k l)))⟩]))

def execShfl (w : Main) (s : State) : Host.Outcome State Fault Refusal := shuffle w (fun _ k => (k : Int)) s
def execShflx (w : Main) (s : State) : Host.Outcome State Fault Refusal := shuffle w (fun l k => ((l ^^^ k : Nat) : Int)) s
def execShfld (w : Main) (s : State) : Host.Outcome State Fault Refusal := shuffle w (fun l k => (l : Int) + k) s
def execShflu (w : Main) (s : State) : Host.Outcome State Fault Refusal := shuffle w (fun l k => (l : Int) - k) s

def execBcast (w : Main) (s : State) : Host.Outcome State Fault Refusal :=
  onUnit s (fun e =>
    let a := e.opA s w
    let k := e.lane (e.opnd s .n32 w.b) e.leadLane
    let src := if k < e.l.g ∧ laneIn e.act k then k else e.leadLane
    e.leafOnly s (e.define s w [⟨w.ty, .ofNat (e.lane a src)⟩]))

/-! ### Reports (R346) -/

def execBallot (w : Main) (s : State) : Host.Outcome State Fault Refusal :=
  onUnit s (fun e =>
    let p := e.opnd s .p w.a
    e.leafOnly s (e.define s w [⟨w.ty, .ofNat (((lanesIn e.act).map (fun l => if e.lane p l % 2 = 1 then 2 ^ l else 0)).sum)⟩]))

def execElect (w : Main) (s : State) : Host.Outcome State Fault Refusal :=
  onUnit s (fun e => e.leafOnly s (e.define s w [⟨w.ty, e.perLane (fun l => Word.ofBool (l == e.leadLane))⟩]))

/-- One bits of `a`, or of its low min(n, w) bits. -/
def execPopc (w : Main) (s : State) : Host.Outcome State Fault Refusal :=
  onUnit s (fun e =>
    let all : List TVal := match w.b with
      | .none => [e.opA s w]
      | b => [e.opA s w, e.opnd s .n32 b]
    e.lanewise s w [.n32] all [fun x => oneBits (arg x 0) (min (x.getD 1 w.ty.width) w.ty.width)])

/-! ### Reductions (Table 16.5) -/

/-- The operand in the active lanes, ascending. -/
def Exe.terms (e : Exe) (v : TVal) : List Nat := (lanesIn e.act).map (e.lane v)

/-- A reduction of the active lanes of a leaf to one U value. -/
def reduce (w : Main) (f : List Nat → Nat) (s : State) : Host.Outcome State Fault Refusal :=
  onUnit s (fun e => e.leafOnly s (e.define s w [⟨w.ty, .ofNat (f (e.terms (e.opA s w)))⟩]))

/-- R222 over floating-point terms, or the exact sum of integers. -/
def redSum (ty : Ty) (mod : Nat) (xs : List Nat) : Nat :=
  if ty.isF then
    let md := arMode mod
    Num.roundTy ty md (Num.exactSum md.rm (xs.map (Num.decodeTy ty md.ftz)))
  else
    let t := (xs.map ty.toInt).sum
    if Word.bit mod 3 then ty.sat t else ty.wrap t

/-- Fold with the first term. -/
def fold1 (f : Nat → Nat → Nat) : List Nat → Nat
  | [] => 0
  | x :: xs => xs.foldl f x

/-- Least or greatest term: R189 order without NaNs, or integer order. -/
def redExt (ty : Ty) (mod : Nat) (isMax : Bool) (xs : List Nat) : Nat :=
  match Num.fmtOf ty with
  | some f => xs.foldl (fminmax ty mod isMax) f.nan
  | none => fold1 (if isMax then maxTy ty else minTy ty) xs

def execRedadd (w : Main) (s : State) : Host.Outcome State Fault Refusal := reduce w (redSum w.ty w.mod) s
def execRedmin (w : Main) (s : State) : Host.Outcome State Fault Refusal := reduce w (redExt w.ty w.mod false) s
def execRedmax (w : Main) (s : State) : Host.Outcome State Fault Refusal := reduce w (redExt w.ty w.mod true) s
def execRedand (w : Main) (s : State) : Host.Outcome State Fault Refusal := reduce w (fold1 (fun a b => a &&& b)) s
def execRedor (w : Main) (s : State) : Host.Outcome State Fault Refusal := reduce w (fold1 (fun a b => a ||| b)) s

/-! ### Sparse compress and random numbers (R348, R349) -/

/-- Decode an element of a sparse group: integers as exact numbers, so that rank is the magnitude (R348). -/
def sparseRank (ty : Ty) (q : Nat) : Num.FVal := Num.decodeAny ty false q

/-- The two kept elements and their indices (Table 16.6). -/
def sprsBits (ty : Ty) (a : Nat) : Nat :=
  let w := ty.width
  let el (i : Nat) : Nat := a / 2 ^ (w * i) % 2 ^ w
  let k := Num.kept ((List.range 4).map (fun i => sparseRank ty (el i)))
  let k0 := k.getD 0 0
  let k1 := k.getD 1 0
  el k0 + 2 ^ w * el k1 + 2 ^ (2 * w) * k0 + 2 ^ (2 * w + 2) * k1

def execSprs (w : Main) (s : State) : Host.Outcome State Fault Refusal :=
  onUnit s (fun e =>
    let ty : Ty := if w.ty.width = 8 then .b32 else .b64
    e.lanewise s w [ty] [e.opnd s ty w.a] [fun x => sprsBits w.ty (arg x 0)])

def execRndk (w : Main) (s : State) : Host.Outcome State Fault Refusal :=
  onUnit s (fun e => e.lanewise s w [.b64] [e.opnd s .n64 w.a, e.opnd s .n64 w.b] [fun x => Num.mix (arg x 0) (arg x 1)])

end Sys2Proof.Machine
end

