-- ==== Sys2Proof/Machine/Packed.lean ====
section
/-! DEFINITION. Packed narrow arithmetic (R394 to R396). -/

namespace Sys2Proof.Machine

open Sys2Proof

/-- Element `k` of width `b` as the type's integer (R394). -/
def packedInt (ty : Ty) (b a k : Nat) : Int :=
  if ty.signed then Word.signExtend (a / 2 ^ (b * k)) b else ((a / 2 ^ (b * k) % 2 ^ b : Nat) : Int)

/-- c plus the products of `m` elements of `b` bits (R394). -/
def dotInt (ty : Ty) (b m x y c : Nat) : Int :=
  ty.toInt c + ((List.range m).map (fun k => packedInt ty b x k * packedInt ty b y k)).sum

/-- `dp4` and `dp8`. -/
def dotForm (w : Main) (b m : Nat) (s : State) : Host.Outcome State Fault Refusal :=
  onUnit s (fun e => e.lanewise s w [w.ty] [e.opnd s .b32 w.a, e.opnd s .b32 w.b, e.opC s w]
    [fun x => wrapOrSat w (dotInt w.ty b m (arg x 0) (arg x 1) (arg x 2))])

def execDp4 (w : Main) (s : State) : Host.Outcome State Fault Refusal := dotForm w 8 4 s
def execDp8 (w : Main) (s : State) : Host.Outcome State Fault Refusal := dotForm w 4 8 s

/-- R222 over two products of 16-bit elements and c (R395). -/
def dp2Bits (pair : Ty) (mod a b c : Nat) : Nat :=
  let md := arMode mod
  let el (v k : Nat) : Num.FVal := Num.decodeTy pair.elem md.ftz (v / 2 ^ (16 * k) % 2 ^ 16)
  Num.roundTy .f32 md (Num.exactSum md.rm [Num.mul (el a 0) (el b 0), Num.mul (el a 1) (el b 1), Num.decodeTy .f32 md.ftz c])

/-- The pair type is that of the operand that has a type of its own: a constant takes the other's (R281, R282, R395). -/
def execDp2 (w : Main) (s : State) : Host.Outcome State Fault Refusal :=
  onUnit s (fun e =>
    let a := e.srcOpnd s .f16x2 w.a
    let b := e.srcOpnd s .f16x2 w.b
    let pair := match w.a with | .pool _ => b.ty | .imm _ => b.ty | _ => a.ty
    e.lanewise s w [w.ty] [a, b, e.opC s w] [fun x => dp2Bits pair w.mod (arg x 0) (arg x 1) (arg x 2)])

/-- First bit and field width that an element occupies in its register (Table 10.2). -/
def elemPlace (b k : Nat) : Nat × Nat := if b = 4 then (4 * k, 4) else if b = 16 then (16 * k, 16) else (8 * k, 8)

/-- `a` with element k replaced by the conversion of the FP32 value x (R396). -/
def packBits (sel : Int) (mod a x : Nat) : Nat :=
  match selector sel with
  | none => a
  | some (k, ty, b) =>
    let (lo, n) := elemPlace b k
    a - a / 2 ^ lo % 2 ^ n * 2 ^ lo + Num.cvt .f32 ty (arMode mod) x % 2 ^ b * 2 ^ lo

def execPack (w : Main) (s : State) : Host.Outcome State Fault Refusal :=
  onUnit s (fun e => e.lanewise s w [w.ty] [e.opnd s .b32 w.a, e.opnd s .f32 w.b]
    [fun x => packBits (immNat w.c) w.mod (arg x 0) (arg x 1)])

/-- Type of element `sel` when unpacked: FP32, `.i32` or `.n32` (R396). -/
def unpackTy (sel : Int) : Ty :=
  match selector sel with
  | some (_, ty, _) => if ty.isInt then (if ty.signed then .i32 else .n32) else .f32
  | none => .n32

/-- Element k decoded exactly. -/
def unpackBits (sel : Int) (mod a : Nat) : Nat :=
  match selector sel with
  | none => 0
  | some (k, ty, b) =>
    let v := a / 2 ^ (elemPlace b k).1 % 2 ^ b
    if ty.isInt then (unpackTy sel).wrap (ty.toInt v)
    else Num.roundTy .f32 ⟨0, false, (arMode mod).ftz⟩ (Num.decodeTy ty (arMode mod).ftz v)

def execUnpack (w : Main) (s : State) : Host.Outcome State Fault Refusal :=
  onUnit s (fun e => e.lanewise s w [unpackTy (immNat w.b)] [e.opnd s .b32 w.a] [fun x => unpackBits (immNat w.b) w.mod (arg x 0)])

end Sys2Proof.Machine
end

