-- ==== Sys2Proof/Machine/Sha3.lean ====
section
/-! DEFINITION. SHA3-512, which hashes text pages and the imprint (R44, R46). The manual names the function; its
definition is taken from FIPS 202 (PRESUMED, log 13). -/

namespace Sys2Proof.Machine

open Sys2Proof

namespace Sha3

/-! The permutation acts on a plane: five rows of five lanes, each lane a number below 2^64. -/

/-- A plane, row by row. -/
abbrev Plane := List (List Nat)

/-- A lane turned left by `k` places. -/
def turn (k v : Nat) : Nat :=
  let p := v * 2 ^ (k % 64)
  p % 2 ^ 64 + p / 2 ^ 64

/-- A row turned by `k` places, so that its first lane is the one that stood at `k`. -/
def shift (k : Nat) (row : List Nat) : List Nat := row.drop k ++ row.take k

/-- Lane-wise exclusive or of two rows. -/
def xorRow : List Nat → List Nat → List Nat := List.zipWith (fun p q => p ^^^ q)

/-- Every lane takes the parities of the column before its own and, turned once, of the column after it. -/
def mixColumns (p : Plane) : Plane :=
  let parity := p.foldl xorRow (List.replicate 5 0)
  p.map (xorRow (xorRow (shift 4 parity) ((shift 1 parity).map (turn 1))))

/-- The walk over the 24 places other than the first, from row `y` and column `x`: each place with the row that its lane comes from and
the turn of that lane, the triangular numbers in turn. -/
def walkPlaces : Nat → Nat → Nat → Nat → List (Nat × Nat × Nat)
  | 0, _, _, _ => []
  | n + 1, t, x, y => (x, y, (t + 1) * (t + 2) / 2) :: walkPlaces n (t + 1) y ((2 * x + 3 * y) % 5)

/-- Lanes are turned, and the lane of column x and row y moves to row 2x + 3y of column y. -/
def scatter (p : Plane) : Plane :=
  let at_ (x y : Nat) : Nat := (p.getD y []).getD x 0
  let moved := walkPlaces 24 0 1 0
  (List.range 5).map (fun row => (List.range 5).map (fun col =>
    match moved.find? (fun m => m.2.1 == col && (2 * m.1 + 3 * m.2.1) % 5 == row) with
    | some (x, y, k) => turn k (at_ x y)
    | none => at_ 0 0))

/-- Each lane of a row takes the lane two places on where the next is clear. -/
def mixRow (row : List Nat) : List Nat :=
  xorRow row (List.zipWith (fun p q => q - (p &&& q)) (shift 1 row) (shift 2 row))

/-- The 8-bit register whose low bit gives the bits of the round constants, after one step. -/
def advance (r : Nat) : Nat := if r < 128 then 2 * r else (2 * r) ^^^ 0x171

/-- A round's constant from the register: bit 2^k − 1 is the register's low bit after k steps; and the register after seven. -/
def constant (r : Nat) : Nat × Nat :=
  (List.range 7).foldl (fun (c : Nat × Nat) k => (c.1 + c.2 % 2 * 2 ^ (2 ^ k - 1), advance c.2)) (0, r)

/-- The rounds, with the register of the constants. -/
def rounds : Nat → Nat → Plane → Plane
  | 0, _, p => p
  | n + 1, r, p =>
    let (c, r) := constant r
    match (scatter (mixColumns p)).map mixRow with
    | (v :: row) :: rest => rounds n r (((v ^^^ c) :: row) :: rest)
    | p => rounds n r p

/-- Add a message block of nine lanes to the first rows. -/
def addBlock (p : Plane) (blk : List Byte) : Plane :=
  p.mapIdx (fun y row => row.mapIdx (fun x v =>
    if 5 * y + x < 9 then v ^^^ leNat ((blk.drop (40 * y + 8 * x)).take 8) else v))

/-- The plane after a message of whole blocks of 72 bytes. -/
def sponge : Nat → Plane → List Byte → Plane
  | 0, p, _ => p
  | n + 1, p, bs => sponge n (rounds 24 1 (addBlock p bs)) (bs.drop 72)

/-- The message's suffix: 01, then the bits 1 0* 1 up to a whole block. -/
def suffix (n : Nat) : List Byte :=
  match 71 - n % 72 with
  | 0 => [0x86]
  | k + 1 => 0x06 :: (List.replicate k 0 ++ [0x80])

end Sha3

/-- The 64-byte digest. -/
def sha3 (bs : List Byte) : List Byte :=
  let whole := bs ++ Sha3.suffix bs.length
  let p := Sha3.sponge (whole.length / 72) (List.replicate 5 (List.replicate 5 0)) whole
  (p.flatten.take 8).flatMap (leBytes 8)

end Sys2Proof.Machine
end

