-- ==== Sys2Proof/Machine/Text.lean ====
section
/-! DEFINITION. Text pages and their shadows (R46, R48), the function and block tables (R291), and the list of encodings
that are not instructions, checked on a whole block (R287, Table 13.4). -/

namespace Sys2Proof.Machine

open Sys2Proof

/-! ### Reading verified text -/

/-- What stops a read of an object's text: a page without a verified shadow, or an offset outside the paged region or
an encoding that is not an instruction. -/
inductive TextStop where
  | page (p : Nat)
  | format
  deriving DecidableEq, Repr

/-- End of the paged region: with an empty data region its last page may be short (R290). -/
def CodeObj.pagedEnd (o : CodeObj) : Nat := min o.bytes (o.pageBase + 65536 * o.npage)

/-- One byte of the object through its shadows. -/
def CodeObj.byte (o : CodeObj) (off : Nat) : Except TextStop Byte :=
  let p := (off - o.pageBase) / 65536
  if off < o.pageBase ∨ o.pagedEnd ≤ off then .error .format
  else
    match o.shadows.get? p with
    | none => .error (.page p)
    | some bs => .ok (bs.getD ((off - o.pageBase) % 65536) 0)

/-- A little-endian number of `n` bytes. -/
def CodeObj.nat (o : CodeObj) : Nat → Nat → Except TextStop Nat
  | _, 0 => .ok 0
  | off, n + 1 =>
    match o.byte off with
    | .error e => .error e
    | .ok b =>
      match CodeObj.nat o (off + 1) n with
      | .error e => .error e
      | .ok r => .ok (b.toNat + 256 * r)

/-- `n` 8-byte words. -/
def CodeObj.wordsAt (o : CodeObj) : Nat → Nat → Except TextStop (List Nat)
  | _, 0 => .ok []
  | off, n + 1 =>
    match o.nat off 8 with
    | .error e => .error e
    | .ok w =>
      match CodeObj.wordsAt o (off + 8) n with
      | .error e => .error e
      | .ok r => .ok (w :: r)

/-- A function table entry (Table 13.6). -/
structure FuncEnt where
  first : Nat
  count : Nat
  poolOff : Nat
  npool : Nat
  deriving DecidableEq, Repr

def need (b : Bool) : Except TextStop Unit := if b then .ok () else .error .format

/-- Spans of the object with a byte in common. -/
def rangesMeet (a n b m : Nat) : Bool := decide (a < b + m) && decide (b < a + n) && n != 0 && m != 0

/-- A span lies in the paged region, and overlaps neither a table, nor the text, nor the section directory (R290). An empty one may stand
at the end of the region (log 9). -/
def CodeObj.freeSpan (o : CodeObj) (a n : Nat) : Bool :=
  decide (o.pageBase ≤ a) && decide (a + n ≤ o.pagedEnd) && !rangesMeet a n o.funcOff (32 * o.nfunc) &&
    !rangesMeet a n o.blockOff (8 * o.nblock) && !rangesMeet a n o.textOff (8 * o.textWords) && !rangesMeet a n o.sectOff (32 * o.nsect)

/-- Function `f`'s entry, with the checks of R290 and R291 on it and on its place after function f − 1. -/
def CodeObj.func (o : CodeObj) (f : Nat) : Except TextStop FuncEnt := do
  need (decide (f < o.nfunc))
  let at_ := o.funcOff + 32 * f
  let first ← o.nat at_ 4
  let count ← o.nat (at_ + 4) 4
  let poolOff ← o.nat (at_ + 8) 8
  let npool ← o.nat (at_ + 16) 2
  let rsvd ← o.nat (at_ + 18) 14
  need (decide (1 ≤ count) && decide (npool ≤ 4096) && poolOff % 8 == 0 && rsvd == 0 && decide (first + count ≤ o.nblock))
  need (o.freeSpan poolOff (8 * npool))
  if f = 0 then need (first == 0)
  else do
    let pf ← o.nat (at_ - 32) 4
    let pc ← o.nat (at_ - 28) 4
    need (pf + pc == first)
  need (decide (f + 1 < o.nfunc) || first + count == o.nblock)
  .ok ⟨first, count, poolOff, npool⟩

/-- A block's place: function, entry of the function, and the byte offset of its header. -/
structure BlockAt where
  func : Nat
  ent  : FuncEnt
  off  : Nat
  deriving DecidableEq, Repr

/-- Block `b`'s entry, with the checks of R291. -/
def CodeObj.blockAt (o : CodeObj) (b : Nat) : Except TextStop BlockAt := do
  need (decide (b < o.nblock))
  let w ← o.nat (o.blockOff + 8 * b) 4
  let f ← o.nat (o.blockOff + 8 * b + 4) 4
  let ent ← o.func f
  need (decide (ent.first ≤ b) && decide (b < ent.first + ent.count) && decide (w < o.textWords))
  if b = 0 then .ok ⟨f, ent, o.textOff + 8 * w⟩
  else do
    let p ← o.nat (o.blockOff + 8 * b - 8) 4
    need (decide (p < w))
    .ok ⟨f, ent, o.textOff + 8 * w⟩

/-- The first byte after the words that a block may have: the next block's first, or the end of the text (R291). -/
def CodeObj.blockEnd (o : CodeObj) (b : Nat) : Except TextStop Nat :=
  if b + 1 < o.nblock then do
    let w ← o.nat (o.blockOff + 8 * (b + 1)) 4
    .ok (o.textOff + 8 * min w o.textWords)
  else .ok (o.textOff + 8 * o.textWords)

/-- A block's header (Table 13.4a) and where it lies; the checks of R284, R285 and R291 that the header decides are made of every header
that is read (R287). -/
def CodeObj.header (o : CodeObj) (b : Nat) : Except TextStop (BlockHdr × BlockAt) := do
  let a ← o.blockAt b
  let h ← o.nat a.off 8
  let n := h / 2 ^ 40 % 256
  let ws ← o.wordsAt a.off (1 + Word.ceilDiv (n - 8) 12)
  match parseHdr ws with
  | none => .error .format
  | some (h, _) => do
    need (decide (2 + Word.ceilDiv (n - 8) 12 ≤ h.words) && (!h.wait || h.join) && (!h.entry || !h.args.contains .b128))
    let e ← o.blockEnd b
    need (decide (a.off + 8 * h.words ≤ e))
    .ok (h, a)

/-! ### Types of operands and results -/

/-- An operand that is a value or argument has a type that its place allows (rows 7 and 12). -/
def slotTypeOk (op : Nat) (w : Main) (t : Ty) : SlotKind → Bool
  | .ty => t == w.ty
  | .fix f => t == f
  | .idx => setIL.contains t
  | .srcI => t.isInt
  | .srcC => (t.isF || t.isNF || t.isInt || t == .e8m0) && !(t.isInt && w.ty.isInt) && (t != w.ty || t.isF) &&
      (!Num.exactIn t w.ty || w.mod % 4 == 0)
  | .srcE => (t == .f64 && (w.ty == .f32 || w.ty == .f16 || w.ty == .bf16)) ||
      (t == .f32 && (w.ty == .f16 || w.ty == .bf16 || w.ty.isNF))
  | .cont => op != 0x110 || t == (if w.ty.width = 8 then .b32 else .b64)
  | .w64 => t == .b64 || t == .n64 || t == .i64
  | .pair => t == .f16x2 || t == .bf16x2
  | _ => false

/-- The types of the arguments and of the values defined so far, the newest first, and the pool size. -/
structure TyEnv where
  args : List Ty
  vals : List Ty
  npool : Nat
  deriving DecidableEq, Repr

/-- The type an operand carries itself, if it is a value or an argument. -/
def TyEnv.tyOf (v : TyEnv) : Opnd → Option Ty
  | .dist d => v.vals[d - 1]?
  | .arg k => v.args[k]?
  | _ => none

/-- Rows 5 and 6 on one operand: it names something. -/
def TyEnv.names (v : TyEnv) (wide : Bool) : Opnd → Bool
  | .dist d => decide (1 ≤ d) && decide (d ≤ v.vals.length)
  | .arg k => decide (k < v.args.length)
  | .pool k => decide ((if wide then k + 1 else k) < v.npool)
  | _ => true

def slotWide (w : Main) : SlotKind → Bool
  | .ty => w.ty == .b128
  | .fix t => t == .b128
  | _ => false

/-- Every operand of an instruction against its places. -/
def TyEnv.places (v : TyEnv) (r : Raw) : List (Option Slot) → List Opnd → Bool
  | some s :: ss, o :: os =>
    v.names (slotWide r.w s.kind) o && (match v.tyOf o with | some t => slotTypeOk r.op r.w t s.kind | none => true) && TyEnv.places v r ss os
  | none :: ss, _ :: os => TyEnv.places v r ss os
  | _, _ => true

/-- An argument of a transfer against the declared type. -/
def TyEnv.passes (v : TyEnv) (ty : Ty) (o : Opnd) : Bool :=
  v.names (ty == .b128) o &&
  (match o with
   | .imm _ => ty.immOk
   | .pool k => ty != .b128 || k % 2 == 0
   | o => v.tyOf o == some ty)

/-- The types of an instruction's results. -/
def resultTys (v : TyEnv) (row : OpRow) (r : Raw) : List Ty :=
  if row.mc = .oa ∧ r.w.mod / 32 % 2 = 1 then []
  else row.res.map (fun k => match k with
    | .t => r.w.ty
    | .fix t => t
    | .src => (v.tyOf r.w.a).getD .none
    | .cont => if r.w.ty.width = 8 then .b32 else .b64
    | .unpack => unpackTy (immNat r.w.b))

/-! ### A whole block -/

/-- A target of a transfer: in the function, LOOP where it lies at or before the block, arguments as declared. -/
def targetOk (o : CodeObj) (b : Nat) (ent : FuncEnt) (v : TyEnv) (t : Target) : Except TextStop Unit := do
  need (decide (ent.first ≤ t.block) && decide (t.block < ent.first + ent.count))
  let (h, _) ← o.header t.block
  need (h.args.length == t.args.length && (h.args.zip t.args).all (fun p => v.passes p.1 p.2))
  need (decide (b < t.block) || h.loop)

def targetsOk (o : CodeObj) (b : Nat) (ent : FuncEnt) (v : TyEnv) : List Target → Except TextStop Unit
  | [] => .ok ()
  | t :: ts => do
    targetOk o b ent v t
    targetsOk o b ent v ts

def inFunc (ent : FuncEnt) (b : Nat) : Bool := decide (ent.first ≤ b) && decide (b < ent.first + ent.count)

/-- Callee of a `call` as a function number. -/
def calleeOf (pool : List Nat) (r : Raw) : Option Nat :=
  if r.op = 4 then
    match r.w.a with
    | .imm x => some (Ty.n32.wrap x)
    | .pool k => some (pool.getD k 0 % 2 ^ 32)
    | _ => none
  else none

/-- The extension words of a transfer or call (R285, R311, R312, R314). -/
def transferOk (o : CodeObj) (b : Nat) (a : BlockAt) (pool : List Nat) (v : TyEnv) (r : Raw) : Except TextStop Unit :=
  match r.ext with
  | .c2 rc t n => do
    need (inFunc a.ent rc)
    targetsOk o b a.ent v [t, n]
  | .sw rc d cs => do
    need (inFunc a.ent rc)
    targetsOk o b a.ent v (d :: cs)
  | .target t =>
    if r.op = 1 then targetsOk o b a.ent v [t]
    else do
      need (inFunc a.ent t.block && t.args.all (v.names false))
      if r.op = 4 then do
        let ent ← o.func ((calleeOf pool r).getD 0)
        let (h, _) ← o.header ent.first
        need (h.args.length == t.args.length && (h.args.zip t.args).all (fun p => v.passes p.1 p.2))
      else .ok ()
  | _ => .ok ()

/-- The instructions of a block one after another; the last one alone is a terminator. -/
def instrsOk (o : CodeObj) (b : Nat) (a : BlockAt) (pool : List Nat) : TyEnv → List Instr → Except TextStop Unit
  | _, [] => .error .format
  | v, i :: is =>
    match i.toRaw with
    | none => .error .format
    | some r =>
      match opRow r.op with
      | none => .error .format
      | some row => do
        need (rawOk row r && decide (row.flags.minor ≤ o.minor) && v.places r (r.places row) r.operands)
        need (r.op != 0x1F2 || (match v.tyOf r.w.a, v.tyOf r.w.b with | some x, some y => x == y | _, _ => true))
        need (row.flags.term == is.isEmpty)
        transferOk o b a pool v r
        if row.flags.term then .ok ()
        else instrsOk o b a pool { v with vals := (resultTys v row r).reverse ++ v.vals } is

/-- What a compositor reads for a block: words, pool, argument types, header flags, and where words and pool lie in the object. -/
structure BlockText where
  hdr   : BlockHdr
  words : List Nat
  pool  : List Nat
  heads : List (Nat × List Ty)
  callees : List (Nat × Nat)
  textOff : Nat
  poolOff : Nat
  deriving DecidableEq, Repr

/-- Pages of the object that a span lies on. -/
def CodeObj.pagesOf (o : CodeObj) (off n : Nat) : List Nat :=
  if n = 0 then []
  else (List.range ((off + n - 1 - o.pageBase) / 65536 - (off - o.pageBase) / 65536 + 1)).map (fun i => (off - o.pageBase) / 65536 + i)

/-- The blocks a transfer goes to, or a call continues at; the reconvergence block's header is not read (R285). -/
def namedBlocks (r : Raw) : List Nat :=
  match r.ext with
  | .c2 _ t n => [t.block, n.block]
  | .sw _ d cs => d.block :: cs.map Target.block
  | .target t => [t.block]
  | _ => []

/-- Headers of the blocks that the last instruction names. -/
def headsOf (o : CodeObj) : List Nat → Except TextStop (List (Nat × List Ty))
  | [] => .ok []
  | b :: bs => do
    let (h, _) ← o.header b
    let r ← headsOf o bs
    .ok ((b, h.args) :: r)

/-- Read a block and check it against Table 13.4 (R260 step 1, R287). -/
def readBlock (o : CodeObj) (b : Nat) : Except TextStop BlockText := do
  let (h, a) ← o.header b
  let words ← o.wordsAt a.off h.words
  let pool ← o.wordsAt a.ent.poolOff a.ent.npool
  match blockInstrs words with
  | none => .error .format
  | some is => do
    instrsOk o b a pool ⟨h.args, [], a.ent.npool⟩ is
    let last := is.getLast?.bind Instr.toRaw
    let f := last.bind (calleeOf pool)
    let callees ← match f with
      | some f => do
        let e ← o.func f
        .ok [(f, e.first)]
      | none => .ok []
    let heads ← headsOf o ((match last with | some r => namedBlocks r | none => []) ++ callees.map Prod.snd)
    .ok ⟨h, words, pool, heads, callees, a.off, a.ent.poolOff⟩

/-! ### Fetching a page (R46, R48) -/

def State.obj? (s : State) (t k inst : Nat) : Option CodeObj := (s.ctx t k).objs.find? (fun o => o.inst == inst)

/-- Bytes of page `p` that the object holds; a short last page is hashed as if zero-filled. -/
def CodeObj.pageLen (o : CodeObj) (p : Nat) : Nat := min 65536 (o.bytes - (o.pageBase + 65536 * p))

/-- Put a verified shadow in place. -/
def State.addShadow (s : State) (t k inst p : Nat) (bs : List Byte) : State :=
  let c := s.ctx t k
  s.setCtx t k { c with objs := c.objs.map (fun o => if o.inst = inst then { o with shadows := o.shadows.set p bs } else o) }

/-- What a page fetch ends in. -/
inductive Fetched where
  | ok
  | fail (c : Code)
  | fault (va pte : Nat)
  | hash
  deriving DecidableEq, Repr

/-- Translate the page again, read it into a shadow and hash it. -/
def fetchPage (s : State) (t k inst p : Nat) : Fetched × State :=
  match s.obj? t k inst with
  | none => (.ok, s)
  | some o =>
    let va := o.va + o.pageBase + 65536 * p
    match walk s t k va with
    | (.fail c, s) => (.fail c, s)
    | (.pageFault _ pte, s) => (.fault va pte, s)
    | (.ok e, s) =>
      match entryCheck s e va (o.pageLen p) .rd with
      | some c => (.fail c, s)
      | none =>
        let (bs, s) := s.readPhys (e.target va) (o.pageLen p)
        let bs := bs ++ List.replicate (65536 - bs.length) 0
        if sha3 bs = o.hashes.getD p [] then (.ok, s.addShadow t k inst p bs) else (.hash, s)

end Sys2Proof.Machine
end

