-- ==== Sys2Proof/Machine/Bodies.lean ====
section
/-! DEFINITION. Shapes, native bodies of sections, their entry and capture (R263 to R272), translation lookups and the counters
of the compositor (R267, R273, R292). -/

namespace Sys2Proof.Machine

open Sys2Proof

/-! ### Shapes (R263) -/

/-- What the instructions of a block read from index `i` on: arguments (true) and values (false) by number. -/
def usesFrom : Nat → List Instr → List (Bool × Nat)
  | _, [] => []
  | v, i :: is =>
    match i.toRaw with
    | none => usesFrom v is
    | some r =>
      (allOperands r).filterMap (fun o => match o with
        | .dist d => if 1 ≤ d ∧ d ≤ v then some (false, v - d) else none
        | .arg k => some (true, k)
        | _ => none) ++ usesFrom (v + resultCount r) is

/-- A shape with the classes of values that are not live at its entry left out (3): `live` are the values read later. -/
def Shape.norm (words : List Nat) (nargs : Nat) (sh : Shape) : Shape :=
  let is := (blockInstrs words).getD []
  let used := usesFrom (sh.classes.length - nargs) (is.drop sh.instr)
  { sh with classes := sh.classes.mapIdx (fun j c =>
      if used.contains (if j < nargs then (true, j) else (false, j - nargs)) then c else 3) }

/-- The shape in which a thread enters its body: arguments, then values oldest first. -/
def shapeOf (g : Galley) (th : Thread) : Shape :=
  ⟨th.instr, decide (1 < g.count), (th.args ++ th.vals.reverse).map (fun v => v.val.cls)⟩

/-! ### Keys -/

/-- The key of a translation but for context and object, which `XReq` holds: revision, budget and width. -/
structure XKey where
  rev : Nat
  budget : Nat
  width : Nat
  deriving DecidableEq, Repr

def Launch.xkey (l : Launch) (core : Nat) : XKey := ⟨revOf (dieOf core), l.budgetOn core, l.widthCode⟩

def Xlat.serves (x : Xlat) (t k obj block : Nat) (key : XKey) : Bool :=
  x.live && x.tenant == t && x.ctx == k && x.obj == obj && x.block == block && x.rev == key.rev && x.budget == key.budget &&
    x.width == key.width

/-- Count an event of Table 12.11 on a cluster. -/
def countXlat (s : State) (cl i n : Nat) : State :=
  let c := s.cluster cl
  s.setCluster cl { c with counts := c.counts.mapIdx (fun j v => if j = i then (v + n) % 2 ^ 64 else v) }

/-! ### Sections (R267 step 4, R292) -/

/-- Entries of the section directory with a revision, key byte and block. -/
def sectsWith (o : CodeObj) (rev key block : Nat) : Nat → Nat → Except TextStop (List Nat)
  | 0, _ => .ok []
  | n + 1, i => do
    let a ← o.nat (o.sectOff + 32 * i) 2
    let b ← o.nat (o.sectOff + 32 * i + 4) 4
    let r ← sectsWith o rev key block n (i + 1)
    .ok (if a % 256 = rev ∧ a / 256 = key ∧ b = block then i :: r else r)

/-- A word runs directly on a die revision (R306, Table 14.11). -/
def directOn (rev : Nat) (op : Nat) (ty : Ty) : Bool := !neverDirect op ty && !(rev == revOf 2 && narrowExpands op ty)

/-- The registers of a word's fields, its second result's among them, with the ends of pairs and quads left to their alignment; `src` is
the type of an operand that the word does not decide. -/
def wordFields (src : Ty) (v : Nat) : List Nat :=
  let fs (r : Raw) : List Nat :=
    match opRow r.op, r.w.nat with
    | some row, some n =>
      resultRegs row r.w.ty src.width n.d ++ ((natFields row r.w.ty n.queue).zip [r.w.a, r.w.b, r.w.c]).filterMap (fun p =>
        match p.1, p.2 with
        | .reg _ _, .reg k => some k
        | _, _ => none)
    | _, _ => []
  if 0x3F0 ≤ v / 2 ^ 48 % 1024 then
    let d := v / 2 ^ 27 % 512
    let a := v / 2 ^ 18 % 512
    let b := v / 2 ^ 9 % 512
    match v / 2 ^ 48 % 1024 with
    | 0x3F0 => [b]
    | 0x3F1 => [d]
    | 0x3F2 => [d, a, b]
    | 0x3F4 => [d]
    | 0x3F5 => [d]
    | _ => []
  else match chifinRaw v with | some r => fs r | none => []

/-- One native word is a native instruction on a revision, for a budget of `b` registers (R251, R255, R257, R305, R306). -/
def nativeWordOk (rev b v : Nat) : Bool :=
  bankOk b (wordFields .none v) &&
  (if 0x3F0 ≤ v / 2 ^ 48 % 1024 then (chifinOnly v).isSome
   else match chifinRaw v with | some r => directOn rev r.op r.w.ty | none => false)

/-- Value records from an offset (Table 12.9), and the offset after them; the rsvd fields and values of the tables do not occur. -/
def recordsAt (o : CodeObj) : Nat → Nat → Except TextStop (List ConcVal × Nat)
  | 0, off => .ok ([], off)
  | n + 1, off => do
    let h ← o.nat off 4
    let ds ← (List.range (h / 2 ^ 22 % 8)).mapM (fun i => o.nat (off + 4 + 4 * i) 4)
    need (decide (h / 2 ^ 30 < 3) && h / 2 ^ 14 % 256 == 0 && !ds.isEmpty && ds.all (fun d => decide (d / 2 ^ 29 < 6)))
    let (r, e) ← recordsAt o n (off + 4 + 4 * ds.length)
    .ok (⟨h / 2 ^ 30, (Ty.ofCode (h / 2 ^ 25 % 32)).getD .none, Word.bit h 13, h % 8192, ds⟩ :: r, e)

/-- Concordance entries from an offset (Table 12.7). -/
def concAt (o : CodeObj) : Nat → Nat → Except TextStop (List ConcEnt)
  | 0, _ => .ok []
  | n + 1, off => do
    let a ← o.nat off 4
    let b ← o.nat (off + 4) 4
    let c ← o.nat (off + 8) 4
    let d ← o.nat (off + 12) 4
    let e ← o.nat (off + 16) 4
    let f ← o.nat (off + 20) 4
    need (decide (a < 2 ^ 20) && decide (a / 65536 < 5) && decide (e < 65536) && decide (f < 2 ^ 24))
    let (vs, end_) ← recordsAt o (c / 65536) (off + 24)
    let r ← concAt o n end_
    .ok (⟨a % 65536, a / 65536 % 16, b, c % 65536, d % 65536, d / 65536, e, f, vs⟩ :: r)

/-- Exit records from an offset (R266). -/
def exitsAt (o : CodeObj) : Nat → Nat → Except TextStop (List ExitRec)
  | 0, _ => .ok []
  | n + 1, off => do
    let t ← o.nat off 4
    let k ← o.nat (off + 4) 4
    need (decide (k < 65536))
    let (vs, end_) ← recordsAt o k (off + 8)
    let r ← exitsAt o n end_
    .ok (⟨t, vs⟩ :: r)

/-- The entry concordance entry of a body: that of its entry instruction, of kind 0 where one is (R265). -/
def NatCode.entryEnt (c : NatCode) (instr : Nat) : Option ConcEnt :=
  match c.conc.find? (fun x => x.kind == 0 && x.instr == instr) with
  | some x => some x
  | none => c.conc.find? (fun x => x.instr == instr)

/-- The class that a shape has in each place: what the records name, and 3 for a value that is not live. -/
def shapeClasses (n nargs : Nat) (rs : List (ConcVal × Nat)) : List Nat :=
  (List.range n).map (fun j =>
    match rs.find? (fun p => if j < nargs then p.1.arg && p.1.idx == j else !p.1.arg && p.1.idx == j - nargs) with
    | some p => p.2
    | none => 3)

/-- A body of an image (Table 12.6), for a block with these words and this many arguments; `none` where it has no words. -/
def bodyAt (o : CodeObj) (words : List Nat) (nargs img rec : Nat) : Except TextStop (Option Body) := do
  let e ← o.nat rec 4
  let nlive ← o.nat (rec + 4) 4
  let classOff ← o.nat (rec + 8) 4
  let ao ← o.nat (rec + 0xC) 2
  let xo ← o.nat (rec + 0xE) 2
  let so ← o.nat (rec + 0x10) 4
  let tok ← o.nat (rec + 0x14) 4
  let off ← o.nat (rec + 0x18) 4
  let n ← o.nat (rec + 0x1C) 4
  let exitOff ← o.nat (rec + 0x20) 4
  let nexit ← o.nat (rec + 0x24) 4
  need (decide (e < 2 ^ 17) && decide (nlive < 65536) && decide (so < 65536) && decide (tok < 2 ^ 24) && decide (nexit < 65536))
  let concOff ← o.nat (rec + 0x28) 4
  let nconc ← o.nat (rec + 0x2C) 4
  if n = 0 ∨ 65536 < n then .ok none
  else do
    let ws ← o.wordsAt (img + off) n
    let xs ← exitsAt o nexit (img + exitOff)
    let cs ← concAt o nconc (img + concOff)
    let cls ← (List.range nlive).mapM (fun i => do
      let b ← o.nat (img + classOff + i / 4) 1
      .ok (b / 4 ^ (i % 4) % 4))
    let code : NatCode := { aoff := ao, xoff := xo, soff := so, tok := tok, words := ws, exits := xs, conc := cs }
    let nval := valuesBefore words (e % 65536)
    let rs := match code.entryEnt (e % 65536) with | some x => x.vals | none => []
    .ok (if rs.length = nlive then
      some ⟨⟨e % 65536, Word.bit e 16, shapeClasses (nargs + nval) nargs (rs.zip cls)⟩, 48 + 8 * n, some code, false⟩ else none)

/-- What a section is for a shape: it serves, it holds no body for the shape, or it fails the compare or R257 (R292). -/
inductive SectUse where
  | serves (spill : Nat) (bodies : List Body)
  | lacks
  | fails
  deriving DecidableEq, Repr

/-- A read that leaves the paged region or the image makes the section fail; a page that is not there is fetched first. -/
def sectTry (x : Except TextStop SectUse) : Except TextStop SectUse :=
  match x with
  | .error .format => .ok .fails
  | x => x

/-- Section `i` for a shape: its header agrees with the directory entry, its fields keep to the layout, and its words pass R257 (R264,
R292). OBJID is the device's to write, and the image's is ignored. -/
def sectServes (o : CodeObj) (i : Nat) (words : List Nat) (nargs : Nat) (sh : Shape) : Except TextStop SectUse :=
  sectTry (do
    let ent := o.sectOff + 32 * i
    let a ← o.nat ent 2
    let block ← o.nat (ent + 4) 4
    let img ← o.nat (ent + 8) 8
    let magic ← o.nat img 4
    let ver ← o.nat (img + 4) 2
    let blk ← o.nat (img + 8) 4
    let k ← o.nat (img + 0xC) 2
    let nbody ← o.nat (img + 0xE) 2
    let bytes ← o.nat (img + 0x10) 4
    let spill ← o.nat (img + 0x14) 4
    let rsvd ← o.nat (img + 0x18) 40
    let rsvd2 ← o.nat (ent + 2) 2
    let size ← o.nat (ent + 0x10) 16
    if magic ≠ 0x4B46C601 ∨ ver ≠ 1 ∨ blk ≠ block ∨ k ≠ a ∨ nbody = 0 ∨ 8 < nbody ∨ bytes ≠ size ∨ rsvd ≠ 0 ∨ rsvd2 ≠ 0 ∨
        img % 64 ≠ 0 ∨ !o.freeSpan img bytes then .ok .fails
    else do
      let image : CodeObj := { o with bytes := min o.bytes (img + bytes) }
      let bs ← (List.range nbody).mapM (fun j => bodyAt image words nargs img (img + 0x40 + 48 * j))
      let bodies := bs.filterMap id
      if !bodies.any (fun b => b.shape == sh) then .ok .lacks
      else
        let good : Bool := bodies.length == bs.length && bodies.all (fun b => match b.code with
          | some c => c.words.all (nativeWordOk (a % 256) (budgetRegs (a / 256 % 8)))
          | none => false)
        .ok (if good then .serves spill bodies else .fails))

/-- The first section of a list that serves; after one that fails, later entries are tried in host-assisted mode alone (R292). -/
def firstServing (o : CodeObj) (assisted : Bool) (words : List Nat) (nargs : Nat) (sh : Shape) :
    List Nat → Except TextStop (Option (Nat × List Body))
  | [] => .ok none
  | i :: is => do
    match ← sectServes o i words nargs sh with
    | .serves spill bodies => .ok (some (spill, bodies))
    | .lacks => firstServing o assisted words nargs sh is
    | .fails => if assisted then firstServing o assisted words nargs sh is else .ok none

/-! ### Entry of a native body (R253, R265, R271) -/

/-- Spill bytes of one group slot of a launch on a core (R253). -/
def shareOf (l : Launch) (core : Nat) : Nat := (spadOf core - l.spad) / max 1 (l.slots core) / 256 * 256

/-- A value of a record among a thread's arguments and values. -/
def Thread.live (th : Thread) (v : ConcVal) : TVal :=
  (if v.arg then th.args[v.idx]? else th.vals[th.vals.length - 1 - v.idx]?).getD ⟨v.ty, .u 0⟩

/-- Write a value into one descriptor's location: registers, or bytes of the share (R271). Group `j` of width `g`; the lane copies of a
galley of several groups, `multi`, stay class A (R98). -/
def restoreDesc (multi : Bool) (j g : Nat) (v : TVal) (ns : NativeRun × Memory) (d : Nat) : NativeRun × Memory :=
  let (n, spad) := ns
  let w := v.ty.width
  let lane (l : Nat) : Nat := v.val.lane v.ty g j l
  let base : Nat := match v.val.affine with | some (b, _) => b.toNat | none => lane 0
  let r := d % 512
  match d / 2 ^ 29 with
  | 0 => (if natHead r then n else (n.setValue r w (maskBelow g) lane).setAffine multi r w v.val, spad)
  | 1 => (if natHead r then n else (n.setValue r w (maskBelow g) lane).setAffine multi r w v.val, spad)
  | 2 =>
    let off := n.share + 4 * (d % 2 ^ 20)
    if Word.bit d 20 then (n, spad.writeNat off 8 (lane 0))
    else (n, (List.range g).foldl (fun (m : Memory) l => m.writeNat (off + slotBytes w * l) (slotBytes w) (lane l)) spad)
  | 3 => if Word.bit d 28 then (n, spad.writeNat (n.share + 8 * r) 8 base) else (n.setValue r 64 (maskBelow g) (fun _ => base), spad)
  | 4 => (n.setValue r w (maskBelow g) (fun _ => lane 0), spad)
  | _ => (n, spad)

/-- The entry words of the queues and the initial counters of an entry: the body's own at its entry, and those of a later concordance
point (R265, Table 12.7). -/
def NatCode.entryWords (c : NatCode) (e : Option ConcEnt) : Nat × Nat × Nat × Nat :=
  match e with
  | some x => if x.kind = 0 then (c.aoff, c.xoff, c.soff, c.tok) else (x.aoff, x.xoff, x.soff, x.tok)
  | none => (c.aoff, c.xoff, c.soff, c.tok)

/-- Entry of a native body (R265): the live values go into every descriptor of the entry's concordance entry, the prefetchers
and the counters are set, and the load queues are empty. `slot` is the group slot; `key` names the entry for what nothing has
written. -/
def enterBody (l : Launch) (core slot : Nat) (multi : Bool) (first key : Nat) (th : Thread) (c : NatCode) (spad : Memory) :
    NativeRun × Memory :=
  let ent := c.entryEnt th.instr
  let (ao, xo, so, tok) := c.entryWords ent
  let n : NativeRun :=
    { code := c, aoff := nextWord 0 c.words ao 0, xoff := nextWord 1 c.words xo 0, soff := nextWord 2 c.words so 0, turn := 0,
      lanes := [], uni := [], loads := [], tokens := (List.range 6).map (fun i => tok / 16 ^ i % 16), stores := [], data := [],
      src := .none, share := l.spad + slot * shareOf l core, shareLen := shareOf l core, entry := some key, affine := [],
      lone := false }
  let vs := match ent with | some x => x.vals | none => []
  vs.foldl (fun ns v => v.descs.foldl (restoreDesc multi first l.g (th.live v)) ns) (n, spad)

/-- A native body of which no word has issued since its entry at index 0. -/
def NativeRun.unstarted (n : NativeRun) : Bool :=
  let (ao, xo, so, _) := n.code.entryWords (n.code.entryEnt 0)
  n.aoff == nextWord 0 n.code.words ao 0 && n.xoff == nextWord 1 n.code.words xo 0 && n.soff == nextWord 2 n.code.words so 0 &&
    n.loads.all (fun q => q.2.isEmpty) && n.stores.isEmpty && n.data.isEmpty

/-! ### Lookup (R267 steps 1 to 3, R138) -/

/-- Every running unit of a galley. -/
def Galley.units (g : Galley) : List (UnitId × Thread) :=
  (g.paths.mapIdx (fun i p =>
    if p.th.mask = 0 then []
    else if p.items.isEmpty then [((⟨g.id, i, none⟩ : UnitId), p.th)]
    else p.items.map (fun x => ((⟨g.id, i, some x.lane⟩ : UnitId), x.th)))).flatten

/-- Set the thread of a unit. -/
def putThread (s : State) (u : UnitId) (th : Thread) : State :=
  match s.galley? u.galley with
  | some g => s.setGalley (g.setThread u th)
  | none => s

/-- A resident unit executes the body (R267). -/
def bodyPinned (s : State) (x : Nat) (sh : Shape) : Bool :=
  s.galleys.any (fun g => g.core.isSome && g.units.any (fun u => u.2.body == some x && u.2.shape == sh))

/-- Bytes of a body in a cache. -/
def bodyBytes (s : State) (x : Nat) (sh : Shape) : Nat :=
  match (s.xlat? x).bind (fun y => y.bodies.find? (fun b => b.shape == sh)) with
  | some b => b.bytes
  | none => 0

/-- What leaves a store that is `excess` bytes too full: from the least recently used entry on, but for those that are pinned. -/
def evicted {α : Type} (size : α → Nat) (pinned : α → Bool) : Nat → List α → List α
  | _, [] => []
  | excess, e :: es =>
    if excess = 0 then []
    else if pinned e then evicted size pinned excess es
    else e :: evicted size pinned (excess - size e) es

/-- Put a body at the front of a cluster's cache; of the others the least recently used leave a cache of 1 MiB, but for those that
a resident unit executes (R267). -/
def cacheBody (s : State) (cl x : Nat) (sh : Shape) : State :=
  let c := s.cluster cl
  let size (e : Nat × Shape) : Nat := bodyBytes s e.1 e.2
  let all := (x, sh) :: c.cache.filter (fun e => e != (x, sh))
  let out := evicted size (fun e => bodyPinned s e.1 e.2 || e == (x, sh)) ((all.map size).sum - 2 ^ 20) all.reverse
  let s := s.setCluster cl { c with cache := all.filter (fun e => !out.contains e) }
  if out.isEmpty then s else countXlat s cl 5 out.length

/-- The image and the body were used last. -/
def touchBody (s : State) (x : Nat) (sh : Shape) : State :=
  match s.xlat? x with
  | none => s
  | some y =>
    let bs := y.bodies.filter (fun b => b.shape == sh) ++ y.bodies.filter (fun b => b.shape != sh)
    { s with xlats := { y with bodies := bs } :: s.xlats.filter (fun z => z.id != x) }

/-- The image lies in a store part that the cluster's compositor looks in: its own die's, then that of the other die of the same
revision (R267 steps 2 and 3). -/
def storeParts (s : State) (cl t k obj block : Nat) (key : XKey) : List Xlat :=
  let xs := s.xlats.filter (fun x => x.serves t k obj block key)
  xs.filter (fun x => x.die == some (dieOfCluster cl)) ++ xs.filter (fun x => x.die.isSome && x.die != some (dieOfCluster cl))

/-- The translation that serves a key and shape on a cluster, with the counter of the event: hit 0, store hit 1. -/
def findBody (s : State) (cl t k obj block : Nat) (key : XKey) (sh : Shape) : Option (Nat × Shape × Nat) :=
  let xs := s.xlats.filter (fun x => x.serves t k obj block key)
  let norm (x : Xlat) : Shape := sh.norm x.words x.argTys.length
  match xs.find? (fun x => (s.cluster cl).cache.contains (x.id, norm x)) with
  | some x => some (x.id, norm x, 0)
  | none =>
    match (storeParts s cl t k obj block key).find? (fun x => x.bodies.any (fun b => b.shape == norm x)) with
    | some x => some (x.id, norm x, 1)
    | none => none

/-- A body that a resumed unit may enter at a later concordance point: that point's instruction is the unit's, and its records have the
classes of the unit's values (R265). -/
def Body.resumes (words : List Nat) (nargs : Nat) (sh : Shape) (b : Body) : Bool :=
  b.shape.galley == sh.galley && (match b.code with
    | none => false
    | some c => c.conc.any (fun e => e.kind != 0 && e.instr == sh.instr &&
        shapeClasses sh.classes.length nargs (e.vals.map (fun v => (v, v.cls))) == (sh.norm words nargs).classes))

/-- The translation and the body that serve a resumed unit where no body begins at its instruction (R265; log 9). -/
def resumeBody (s : State) (cl t k obj block : Nat) (key : XKey) (sh : Shape) : Option (Nat × Shape × Nat) :=
  let body (x : Xlat) : Option Body := x.bodies.find? (Body.resumes x.words x.argTys.length sh)
  match (s.xlats.filter (fun x => x.serves t k obj block key)).find? (fun x =>
      (body x).any (fun b => (s.cluster cl).cache.contains (x.id, b.shape))) with
  | some x => (body x).map (fun b => (x.id, b.shape, 0))
  | none =>
    match (storeParts s cl t k obj block key).find? (fun x => (body x).isSome) with
    | some x => (body x).map (fun b => (x.id, b.shape, 1))
    | none => none

/-- In host-assisted translation mode no section of the object has the key (R138, R274); a directory page without a
shadow leaves the question to the service. -/
def noSection (s : State) (t k obj block : Nat) (key : XKey) : Bool :=
  match s.obj? t k obj with
  | none => true
  | some o =>
    match sectsWith o key.rev (key.budget + 8 * key.width) block o.nsect 0 with
    | .ok [] => true
    | _ => false

/-- An object whose translations are discarded and for which none begins (R48). -/
def State.revoked (s : State) (t k obj : Nat) : Bool := (s.ctx t k).revoking.contains obj

/-- The words that a unit enters in a body: those of a section; a compositor's body runs as its Laold block (R262; log 9). -/
def Body.native (b : Body) : Option NatCode := if b.made then none else b.code

/-- A unit takes a body: the Laold block of its translation, or the native words of a section's body, which it enters (R262,
R265). -/
def takeBody (s : State) (u : UnitId) (x : Nat) (sh : Shape) : State :=
  match s.galley? u.galley with
  | none => s
  | some g =>
    match s.launch? g.launch, g.core, g.thread? u with
    | some l, some core, some th =>
      let th := { th with body := some x, shape := sh, native := none, wait := .none }
      match ((s.xlat? x).bind (fun y => y.bodies.find? (fun b => b.shape == sh))).bind Body.native with
      | none => putThread s u th
      | some c =>
        let (n, spad) := enterBody l core g.slot (decide (1 < g.count)) g.first s.choices th c (s.core core).spad
        putThread ({ s with choices := s.choices + 1 }.setCore core { s.core core with spad := spad }) u { th with native := some n }
    | _, _, _ => s

/-- The image of a found body needs more spill bytes than a slot of the entering core has (R273, re-translation). -/
def spillsOver (s : State) (l : Launch) (core x : Nat) : Bool :=
  match s.xlat? x with
  | some y => decide (shareOf l core < y.spill)
  | none => false

/-- A unit looks up its body: it gets it, or waits for the compositor, or takes XLATE_FAIL (R273, R274). No translation of a
revoked object begins, and the unit stands (R48). -/
def lookupBody (s : State) (u : UnitId) : State :=
  match s.galley? u.galley with
  | none => s
  | some g =>
    match s.launch? g.launch, g.core, g.thread? u with
    | some l, some core, some th =>
      let cl := clusterOf core
      let key := l.xkey core
      let sh := shapeOf g th
      let ask (s : State) : State :=
        let c := s.cluster cl
        let r : XReq := ⟨l.tenant, l.ctx, l.obj, th.block, key.budget, key.width, sh⟩
        let s := if c.queue.contains r then s else s.setCluster cl { c with queue := c.queue ++ [r] }
        putThread s u { th with body := none, wait := .xlate }
      if s.revoked l.tenant l.ctx l.obj then putThread s u { th with body := none, wait := .xlate }
      else
        let found := match findBody s cl l.tenant l.ctx l.obj th.block key sh with
          | none => if th.brkOk then resumeBody s cl l.tenant l.ctx l.obj th.block key sh else none
          | found => found
        match found with
        | some (x, n, ev) =>
          if spillsOver s l core x then ask s
          else takeBody (cacheBody (touchBody (countXlat s cl ev 1) x n) cl x n) u x n
        | none =>
          if Word.bit (s.tenant l.tenant).mode 2 && noSection s l.tenant l.ctx l.obj th.block key then
            takeFault (countXlat s cl 6 1) g l th .xlateFail (faultLane u) 1 0
          else ask s
    | _, _, _ => s

/-- The unit has its body. -/
def hasBody (s : State) (u : UnitId) : Bool :=
  match s.galley? u.galley with
  | none => false
  | some g =>
    match g.thread? u with
    | some th => th.body.isSome
    | none => false

end Sys2Proof.Machine
end

