-- ==== Sys2Proof/Machine/Paths.lean ====
section
/-! DEFINITION. Block entry, reconvergence and reassembly (R106 to R109), rejoining (R110 to R112), barrier phases (R113
to R117), splits (R105, R108), and retirement (R116, R316, R404). -/

namespace Sys2Proof.Machine

open Sys2Proof

/-! ### Values that pieces bring together -/

/-- Two values of one type represent the same function of the item (R96). -/
def sameFun (ty : Ty) (v w : Val) : Bool :=
  let m := 2 ^ ty.width
  match v.affine, w.affine with
  | some (b, s), some (c, t) => b.toNat % m == c.toNat % m && s.toNat % m == t.toNat % m && (ty.width ≤ 64 || v == w)
  | _, _ => false

/-- The lanes of a merged argument: each lane's own piece (mask, value) gives it. -/
def mergeLanes (ty : Ty) (g j : Nat) (parts : List (Mask × TVal)) : Val :=
  .s ((List.range g).map (fun l =>
    match parts.find? (fun p => laneIn p.1 l) with
    | some p => BitVec.ofNat 128 (p.2.val.lane ty g j l)
    | none => 0))

/-- The class rule of R106 for one argument. -/
def mergeArg (g j : Nat) (parts : List (Mask × TVal)) : TVal :=
  match parts with
  | [] => ⟨.none, .u 0⟩
  | [(m, v)] => if v.val.cls = 0 then v else ⟨v.ty, mergeLanes v.ty g j [(m, v)]⟩
  | (m, v) :: rest =>
    let all := (m, v) :: rest
    if all.all (fun p => p.2.val.cls == 0 && p.2.val == v.val) then v
    else if all.all (fun p => sameFun v.ty v.val p.2.val) then v
    else ⟨v.ty, mergeLanes v.ty g j all⟩

/-- Every argument of pieces that meet. -/
def mergeArgs (g j : Nat) (ths : List Thread) : List TVal :=
  match ths with
  | [] => []
  | t :: _ => (List.range t.args.length).map (fun i => mergeArg g j (ths.map (fun x => (x.mask, x.args.getD i ⟨.none, .u 0⟩))))

/-! ### Barriers and JOIN WAIT -/

def Domain.empty : Domain := ⟨false, 0, 0, 0, 0, 0⟩

def Path.live (p : Path) : Bool := p.th.mask != 0

/-- A piece has one path and is not in per-item mode (R110). -/
def Galley.whole (g : Galley) : Option Thread :=
  match g.paths.filter Path.live with
  | [p] => if p.items.isEmpty then some p.th else none
  | _ => none

/-- Neither piece has an open transaction. -/
def noTx (l : Launch) (g : Galley) : Bool := (State.groupSt l g.first).tx.depth == 0

/-- P and Q, P before Q, are eligible to merge (R110). -/
def eligible (l : Launch) (p q : Galley) : Bool :=
  match p.whole, q.whole with
  | some x, some y =>
    l.domainOf p.first == l.domainOf q.first && p.first + p.count == q.first && x.block == y.block && x.instr == 0 && y.instr == 0 &&
      x.stack == y.stack && x.args.length == y.args.length &&
      (x.args.zip y.args).all (fun a => a.1.ty == a.2.ty && sameFun a.1.ty a.1.val a.2.val) && p.phase == q.phase &&
      p.pending == q.pending && p.recorded == q.recorded &&
      (State.groupSt l p.first).lastClosed == (State.groupSt l q.first).lastClosed && noTx l p && noTx l q
  | _, _ => false

/-- A core's L1 is emptied when work of another core comes to it, so that its plain loads see what that work did (R121). -/
def forgetL1 (s : State) (core : Nat) : State := s.setCore core { s.core core with l1 := [] }

/-- The merged galley stands in the slot of its lowest group with the oldest age (R129, R130). -/
def mergeInto (s : State) (p q : Galley) : State :=
  let g := { p with
    count := p.count + q.count
    age := min p.age q.age
    paths := (p.paths.filter Path.live).map (fun x => { x with th := { x.th with body := none, native := none } }) }
  let s := (s.setGalley g).dropGalley q.id
  if p.core = q.core then s else match p.core with | some c => forgetL1 s c | none => s

/-- Merge `p` with each piece of an ascending list while they are eligible; the runs are maximal (R112). -/
def mergeRun (l : Launch) : State → Galley → List Galley → State × List Nat
  | s, p, [] => (s, [p.id])
  | s, p, q :: qs =>
    if eligible l p q then
      let s := mergeInto s p q
      match s.galley? p.id with
      | some p => mergeRun l s p qs
      | none => (s, [])
    else
      let (s, r) := mergeRun l s q qs
      (s, p.id :: r)

/-- Insert a galley by its first group. -/
def insertByFirst (g : Galley) : List Galley → List Galley
  | [] => [g]
  | x :: r => if g.first ≤ x.first then g :: x :: r else x :: insertByFirst g r

def sortByFirst (gs : List Galley) : List Galley := gs.foldr insertByFirst []

/-- Apply `f` to every thread of a galley that runs: paths outside per-item mode, and items. -/
def Galley.mapThreads (f : Thread → Thread) (g : Galley) : Galley :=
  { g with paths := g.paths.map (fun p =>
      if p.items.isEmpty then { p with th := f p.th }
      else { p with items := p.items.map (fun i => { i with th := f i.th }) }) }

/-- A thread goes on past the instruction it waits at; in a native body the control word leaves all three queues. -/
def Thread.past (t : Thread) : Thread :=
  match t.native with
  | some n => { t with native := some (n.step 3), wait := .none, walks := [], brkOk := false }
  | none => { t with instr := t.instr + 1, wait := .none, walks := [], brkOk := false }

/-- A thread goes on past the barrier instruction it stands at. -/
def Thread.pastBarrier (t : Thread) : Thread :=
  match t.wait with
  | .barrier _ _ => t.past
  | _ => t

/-- Every thread of a galley that stands at a barrier goes on. -/
def Galley.pastBarrier (g : Galley) : Galley := g.mapThreads Thread.pastBarrier

/-- Units that wait at a JOIN WAIT go on in their block (R112); a merged galley looks up the body for its shape. -/
def leaveJoin (s : State) (id : Nat) : State :=
  match s.galley? id with
  | none => s
  | some g =>
    (g.units.filter (fun u => u.2.wait == .join)).foldl (fun s u =>
      let s := putThread s u.1 { u.2 with wait := .none, entering := false }
      if u.2.body.isSome then s else lookupBody s u.1) s

/-- A released galley: its local phase advances and its units leave the barrier. -/
def Galley.release (g : Galley) : Galley :=
  Galley.pastBarrier { g with phase := (g.phase + 1) % 2 ^ 32, arrived := false }

/-- A phase completes: every waiting arrival is released, its local phase advances, and the pieces at a JOIN WAIT merge
first (R112, R114 step 5). -/
def completePhase (s : State) (lid d : Nat) : State :=
  match s.launch? lid with
  | none => s
  | some l =>
    let dom := l.domains.getD d .empty
    let s := s.setLaunch { l with domains := l.domains.set d { dom with phase := (dom.phase + 1) % 2 ^ 32, arrived := 0 } }
    let here (g : Galley) : Bool := g.launch == lid && l.domainOf g.first == d && g.arrived
    let joins := sortByFirst ((s.galleys.filter (fun g => here g && g.units.any (fun u => u.2.wait == .join))).map Galley.release)
    let s := { s with galleys := s.galleys.map (fun g => if here g then g.release else g) }
    match joins with
    | [] => s
    | p :: ps =>
      let (s, ids) := mergeRun l s p ps
      ids.foldl leaveJoin s

/-- Free group slots of a core for a launch (R124). -/
def freeSlots (s : State) (l : Launch) (core : Nat) : Nat :=
  l.slots core - (s.galleys.filter (fun g => g.core == some core)).length

/-- Cores that a launch may use: CLMASK admits them and its tenant owns them. -/
def admitted (s : State) (l : Launch) : List Nat :=
  ((List.range 40).filter (fun c => Word.bit l.clmask c && Word.bit (s.tenant l.tenant).clmask c)).flatMap coresOfCluster

/-- The three conditions of DOMAIN_SCOPE (R117). DESIGN CHOICE (log 28): a group parked at `barwait` after its `bararr` has arrived already,
and does not count as waiting at an arrival of the phase. -/
def domainScope (s : State) (l : Launch) : Bool :=
  let mine := s.galleys.filter (fun g => g.launch == l.id)
  l.domLevel == 0 && mine.any (fun g => g.core.isNone) &&
  (admitted s l).all (fun c => (s.core c).launch == some l.id && freeSlots s l c == 0) &&
  mine.all (fun g => g.core.isNone || g.arrived)

/-- Fault of a whole galley at a unit; in per-item mode the record names the item's lane (R122). -/
def galleyFault (s : State) (g : Galley) (l : Launch) (u : UnitId × Thread) (c : Code) : State :=
  takeFault s g l u.2 c (faultLane u.1) 0 0

/-- The object of a launch asks for the old behaviour of erratum EV-0007 (R49, R115). -/
def oldBarrier (s : State) (l : Launch) : Bool :=
  match s.obj? l.tenant l.ctx l.obj with
  | some o => Word.bit o.behaviour 0
  | none => false

/-- The arrival of a galley's groups (R114, R115, R117): `cnt` the count operand, `split` for `bararr`. `u` is the
unit that arrives. -/
def arriveGroups (s : State) (g : Galley) (l : Launch) (u : UnitId × Thread) (cnt : Nat) (split : Bool) : State :=
  let d := l.domainOf g.first
  let dom := l.domains.getD d .empty
  let goOn (s : State) (phase : Nat) : State :=
    match s.galley? g.id with
    | some g => leaveJoin (s.setGalley (Galley.pastBarrier { g with phase := phase })) g.id
    | none => s
  let overrun (s : State) : State :=
    if oldBarrier s l then goOn s ((g.phase + 1) % 2 ^ 32) else galleyFault s g l u .barrierOverrun
  if g.pending then galleyFault s g l u .barrierState
  else if g.phase ≠ dom.phase then overrun s
  else
    let fresh : Bool := dom.arrived == 0
    let expected := if fresh then (if cnt ≠ 0 then cnt else dom.live) else dom.expected
    let first := if fresh then cnt else dom.first
    if !fresh && cnt ≠ 0 && first ≠ 0 && cnt ≠ first then galleyFault s g l u .barrierCount
    else
      let need := expected - dom.arrived
      let counted := min g.count need
      let dom' := { dom with expected := expected, first := first, arrived := dom.arrived + counted }
      let s := s.setLaunch { l with domains := l.domains.set d dom' }
      if need < g.count then overrun (completePhase s l.id d)
      else
        let s := match s.galley? g.id with
          | some g =>
            if split then s.setGalley (Galley.pastBarrier { g with pending := true, recorded := dom.phase })
            else s.setGalley { g with arrived := true }
          | none => s
        if dom.arrived + counted = expected then completePhase s l.id d
        else
          match s.launch? l.id with
          | some l => if domainScope s l then galleyFault s g l u .domainScope else s
          | none => s

/-- What a path does for the arrival rule of R114 step 2: it stands at a barrier instruction or JOIN WAIT block, it has
reached a reconvergence block, or it still runs. -/
inductive Stand where
  | at_ (block instr : Nat) (cnt : Nat) (split : Bool)
  | reconv
  | running
  deriving DecidableEq, Repr

def Thread.stand (t : Thread) : Stand :=
  match t.wait with
  | .barrier c sp => .at_ t.block t.instr c sp
  | .join => .at_ t.block 0 0 false
  | .reconv => .reconv
  | _ => .running

/-- Places where two stands meet: the same instruction of the same block. -/
def Stand.samePlace : Stand → Stand → Bool
  | .at_ b i _ _, .at_ c j _ _ => b == c && i == j
  | _, _ => true

/-- The arrival of a group, made when every running unit stands still (R114 step 2) and the group's stores and no-return atomics are
performed, so that they happen before the phase completes (R114, R176); until then it is tried again. -/
def checkArrival (s : State) (id : Nat) : State :=
  match s.galley? id with
  | none => s
  | some g =>
    match s.launch? g.launch with
    | none => s
    | some l =>
      match g.units.find? (fun x => match x.2.stand with | .at_ _ _ _ _ => true | _ => false) with
      | none => s
      | some u =>
        if !g.units.all (fun x => x.2.stand.samePlace u.2.stand) then galleyFault s g l u .barrierDivergent
        else if g.arrived || g.units.any (fun x => x.2.stand == .running) || galleyOwes s g then s
        else
          match u.2.stand with
          | .at_ _ _ c sp => arriveGroups s g l u c sp
          | _ => s

/-! ### Entering a block -/

/-- A free choice among the pieces an arriving piece may merge with at a JOIN block, or none (R111, log 5); a piece whose stores or
no-return atomics are still to be performed merges with none, since its accesses before the merge come first (R121). -/
def joinChoice (s : State) (g : Galley) (l : Launch) : State :=
  let ready (x : Galley) : Bool :=
    match x.whole with
    | some t => x.core.isSome && t.wait == .none && t.instr == 0 && t.vals.isEmpty && t.walks.isEmpty && !t.entering &&
        (match t.native with | some n => n.unstarted | none => true)
    | none => false
  let others := s.galleys.filter (fun x => x.launch == l.id && ready x && (eligible l g x || eligible l x g) && !galleyOwes s x)
  if others.isEmpty || galleyOwes s g then s
  else
    let (n, s) := s.choose (others.length + 1)
    match n, others[n - 1]? with
    | 0, _ => s
    | _, none => s
    | _, some x =>
      if g.first < x.first then lookupBody (mergeInto s g x) ⟨g.id, 0, none⟩
      else lookupBody (mergeInto s x g) ⟨x.id, 0, none⟩

/-- Past the lookup: JOIN and JOIN WAIT (R111, R112). -/
def passJoin (s : State) (u : UnitId) : State :=
  match s.galley? u.galley with
  | none => s
  | some g =>
    match s.launch? g.launch, g.thread? u with
    | some l, some th =>
      if !th.entering then s
      else
        let flags := match th.body.bind s.xlat? with | some x => x.flags | none => 0
        let on := putThread s u { th with entering := false }
        if !Word.bit flags 3 then on
        else if Word.bit flags 2 then
          if g.count = 1 ∧ (State.groupSt l g.first).tx.depth ≠ 0 then
            putThread (abortLanes s l.id g.first th.mask 4) u { th with entering := false }
          else if g.pending then galleyFault s g l (u, th) .barrierState
          else checkArrival (putThread s u { th with wait := .join }) g.id
        else
          match on.galley? g.id with
          | some g => if g.whole.isSome then joinChoice on g l else on
          | none => on
    | _, _ => s

/-- Look up the body of a block's entry, and pass its JOIN when the body is there. -/
def beginBlock (s : State) (u : UnitId) : State :=
  let s := lookupBody s u
  if hasBody s u then passJoin s u else s

/-- Two units that stand at one reconvergence block as one thread (R106, R108). -/
def mergedThread (g j : Nat) (ths : List Thread) (mask : Mask) (split : Nat) : Option Thread :=
  match ths with
  | [] => none
  | t :: ts =>
    if ts.all (fun x => x.stack == t.stack) then
      some { t with mask := mask, instr := 0, args := mergeArgs g j (t :: ts), vals := [], split := split, wait := .none, body := none,
                    walks := [], native := none, entering := true }
    else none

/-- The waiting paths of a group merge into one path in slot 0, or raise RECONVERGE_MISMATCH (R106, R107). -/
def checkMerge (s : State) (id : Nat) : State :=
  match s.galley? id with
  | none => s
  | some g =>
    match s.launch? g.launch with
    | none => s
    | some l =>
      let ps := g.paths.filter Path.live
      let ths := ps.map Path.th
      if ps.isEmpty || !ps.all (fun p => p.items.isEmpty && p.th.wait == .reconv) then s
      else
        match ths with
        | [] => s
        | t :: ts =>
          if !ts.all (fun x => x.block == t.block) then galleyFault s g l (⟨id, 0, none⟩, t) .reconvergeMismatch
          else
            match mergedThread l.g g.first ths (ths.foldl (fun m x => m ||| x.mask) 0) 0 with
            | none => galleyFault s g l (⟨id, 0, none⟩, t) .reconvergeMismatch
            | some th => beginBlock (s.setGalley { g with paths := [⟨th, none, [], none, []⟩] }) ⟨id, 0, none⟩

/-- A path at the entry of its thread's block: it waits at its reconvergence block (R106), or goes on. -/
def pathAtEntry (s : State) (id i : Nat) : State :=
  match s.galley? id with
  | none => s
  | some g =>
    match g.paths[i]? with
    | none => s
    | some p =>
      if !p.th.entering || p.th.wait != .none then s
      else if p.reconv = some p.th.block then
        checkArrival (checkMerge (putThread s ⟨id, i, none⟩ { p.th with wait := .reconv }) id) id
      else beginBlock s ⟨id, i, none⟩

/-- The items of a path that all stand at the per-item reconvergence block reassemble (R108). -/
def checkReassemble (s : State) (id i : Nat) : State :=
  match s.galley? id with
  | none => s
  | some g =>
    match s.launch? g.launch, g.paths[i]? with
    | some l, some p =>
      if p.items.isEmpty || !p.items.all (fun x => x.th.wait == .reconv) then s
      else
        match mergedThread l.g g.first (p.items.map Item.th) p.th.mask p.th.split with
        | none =>
          match p.items with
          | x :: _ => galleyFault s g l (⟨id, i, some x.lane⟩, x.th) .reconvergeMismatch
          | [] => s
        | some th =>
          pathAtEntry (s.setGalley { g with paths := g.paths.mapIdx (fun j q =>
            if j = i then { q with th := th, items := [], piReconv := none, marks := [] } else q) }) id i
    | _, _ => s

/-- A unit whose thread has just been set to a block's entry. -/
def atEntry (s : State) (u : UnitId) : State :=
  match u.item with
  | none => pathAtEntry s u.galley u.path
  | some _ =>
    match s.galley? u.galley with
    | none => s
    | some g =>
      match g.paths[u.path]?, g.thread? u with
      | some p, some th =>
        if !th.entering || th.wait != .none then s
        else if p.piReconv = some th.block then
          checkArrival (checkReassemble (putThread s u { th with wait := .reconv }) u.galley u.path) u.galley
        else beginBlock s u
      | _, _ => s

/-- A thread at the entry of a block with its arguments. -/
def Thread.enter (t : Thread) (block : Nat) (args : List TVal) (stack : List Nat) : Thread :=
  { t with block := block, instr := 0, args := args, vals := [], stack := stack, wait := .none, body := none, native := none,
           walks := [], brkOk := false, entering := true }

/-! ### Splits (R105, R108, R312) -/

/-- Where a group of lanes goes: block, arguments, and the continuation a call pushes. -/
structure Way where
  block : Nat
  args  : List TVal
  push  : Option Nat
  deriving DecidableEq, Repr

def Way.stack (w : Way) (st : List Nat) : List Nat := match w.push with | some c => c :: st | none => st

/-- The whole unit follows one way. -/
def Exe.follow (e : Exe) (s : State) (w : Way) : State :=
  atEntry (e.put s (e.th.enter w.block w.args (w.stack e.th.stack))) e.uid

/-- The lanes of a group that take each way, in ascending order of their lowest lane. -/
def groupWays (ways : List Way) (pick : Nat → Nat) : List Nat → List (Nat × Mask)
  | [] => []
  | l :: ls =>
    let k := pick l
    let rest := groupWays ways pick ls
    match rest.find? (fun x => x.1 == k) with
    | some x => (k, x.2 ||| maskOf [l]) :: rest.filter (fun x => x.1 != k)
    | none => (k, maskOf [l]) :: rest

/-- Per-item mode: one item for each active lane, in ascending lane order. -/
def Exe.itemise (e : Exe) (s : State) (g : Galley) (idle : Mask) (outs : List (Nat × Mask)) (sub : Nat → Mask → Thread) (rc : Nat) : State :=
  let ls := lanesIn e.act
  let items := ls.map (fun l =>
    let k := match outs.find? (fun o => laneIn o.2 l) with | some o => o.1 | none => 0
    (⟨l, sub k (maskOf [l] ||| (if l = e.leadLane then idle else 0))⟩ : Item))
  let g := { g with paths := g.paths.mapIdx (fun i p =>
    if i = e.uid.path then
      match e.uid.item with
      | none => { p with items := items, piReconv := some rc }
      | some me => { p with items := p.items.filter (fun x => decide (x.lane < ls.headD 0) && x.lane != me) ++ items ++
                              p.items.filter (fun x => decide (ls.headD 0 < x.lane) && x.lane != me) }
    else p) }
  ls.foldl (fun s l => match s.galley? g.id with
    | some h => if (h.paths.any (fun p => p.items.any (fun x => x.lane == l && x.th.entering && x.th.wait == .none && x.th.body.isNone))) then
        atEntry s ⟨g.id, e.uid.path, some l⟩ else s
    | none => s) (s.setGalley g)

/-- Two paths, or per-item mode; `outs` are the ways taken with their lanes, the first holding the lowest active lane.
Inactive lanes stay with it (R433). -/
def Exe.diverge (e : Exe) (s : State) (rc : Nat) (ways : List Way) (pick : Nat → Nat) : State :=
  let idle := e.th.mask &&& ~~~e.act
  let outs := groupWays ways pick (lanesIn e.act)
  let way (k : Nat) : Way := ways.getD k ⟨0, [], none⟩
  let sub (k : Nat) (m : Mask) : Thread :=
    { (e.th.enter (way k).block (way k).args ((way k).stack e.th.stack)) with mask := m, split := e.th.stack.length }
  match outs with
  | [] => s
  | [(k, _)] => e.follow s (way k)
  | (k, m) :: rest =>
    match s.galley? e.uid.galley with
    | none => s
    | some g =>
      let lone := decide ((g.paths.filter Path.live).length = 1)
      match rest, e.uid.item with
      | [(k2, m2)], none =>
        if lone then
          let g := { g with paths := [⟨sub k (m ||| idle), some rc, [], none, []⟩, ⟨sub k2 m2, some rc, [], none, []⟩] }
          pathAtEntry (pathAtEntry (s.setGalley g) g.id 0) g.id 1
        else e.itemise s g idle outs sub rc
      | _, _ => e.itemise s g idle outs sub rc

/-! ### Retirement (R116, R316, R404) -/

/-- A group that ends in a domain (R116); `split` is the phase in which it arrived and has not yet waited for. DESIGN CHOICE (log 28): a
retirement before the first arrival of a phase, with ARRIVED 0, completes no phase, whatever EXPECTED then is. -/
def leaveDomain (lid j : Nat) (split : Option Nat) (s : State) : State :=
  match s.launch? lid with
  | none => s
  | some l =>
    let d := l.domainOf j
    let dom := l.domains.getD d .empty
    let arrived : Bool := split == some dom.phase
    let dom := { dom with live := dom.live - 1, expected := if arrived then dom.expected else dom.expected - 1 }
    let s := s.setLaunch { l with retired := l.retired + 1, domains := l.domains.set d dom }
    if dom.arrived ≠ 0 ∧ dom.arrived = dom.expected ∧ !arrived then completePhase s lid d else s

/-- A galley whose lanes have all retired leaves its slot; its groups retire one after another. -/
def retireGalley (s : State) (g : Galley) (l : Launch) : State :=
  (List.range g.count).foldl (fun s i => leaveDomain l.id (g.first + i) (if g.pending then some g.recorded else none) s)
    (s.dropGalley g.id)

/-- The lanes of a unit that retire inside a transaction count as aborted with EXPLICIT, and the transaction ends when
no lane of it is left (R404). -/
def retireTx (s : State) (g : Galley) (l : Launch) (lanes left : Mask) : State :=
  let x := (State.groupSt l g.first).tx
  if g.count ≠ 1 ∨ x.depth = 0 then s
  else
    let s := if lanes &&& x.inTx &&& ~~~x.aborted = 0 then s else abortLanes s l.id g.first lanes 3
    if x.inTx &&& left = 0 then closeTx s l.id g.first else s

/-- The lanes that a `retire` of the executing unit ends: those that are active, or inactive through an abort; not those that joined the
unit while its group's transaction was open (R316, R405). -/
def Exe.ends (e : Exe) : Mask :=
  let x := (State.groupSt e.l e.g.first).tx
  if e.g.count ≠ 1 ∨ x.depth = 0 then e.th.mask else e.th.mask &&& x.inTx

/-- The lanes of the executing unit end (R316); one that does not end stays at the instruction, and executes it once it is active. -/
def Exe.retire (e : Exe) (s : State) : State :=
  match s.galley? e.uid.galley with
  | none => s
  | some g =>
    let all := g.paths.foldl (fun m p => m ||| p.th.mask) 0
    let left := all &&& ~~~e.ends
    let stay := e.th.mask &&& ~~~e.ends
    let s := retireTx s g e.l e.ends left
    let g := { g with paths := g.paths.mapIdx (fun i p =>
      if i = e.uid.path then
        match e.uid.item with
        | none => { p with th := { p.th with mask := stay } }
        | some me =>
          { p with
            th := { p.th with mask := p.th.mask &&& ~~~e.ends }
            items := p.items.flatMap (fun x =>
              if x.lane ≠ me then [x]
              else if stay = 0 then []
              else [⟨(lanesIn stay).headD me, { x.th with mask := stay }⟩]) }
      else p) }
    if left = 0 ∨ 1 < g.count then
      match s.launch? e.l.id with
      | some l => retireGalley s g l
      | none => s
    else
      let x := s.group e.l.id g.first
      let s := (s.setGalley g).setGroup e.l.id g.first { x with gone := x.gone ||| e.ends }
      let s := match e.uid.item with
        | none => checkMerge s g.id
        | some _ => if (g.paths.any (fun p => p.live && p.items.isEmpty)) then checkMerge (checkReassemble s g.id e.uid.path) g.id
                    else checkReassemble s g.id e.uid.path
      checkArrival s g.id

end Sys2Proof.Machine
end

