-- ==== Sys2Proof/Machine/Control.lean ====
section
/-! DEFINITION. Block transfers, calls, returns and retirement (R310 to R317), with affine cuts (R103, R104). -/

namespace Sys2Proof.Machine

open Sys2Proof

/-! ### Reading text at execution -/

/-- A fault taken at the start of the executing block, which needed the page that failed (R45, R48; log 9). -/
def Exe.faultStart (e : Exe) (s : State) (c : Code) : State := takeFault s e.g e.l { e.th with instr := 0 } c (faultLane e.uid) 0 0

/-- Read an object's text; a missing page is fetched first (R46), unless the object is revoked, and then the unit stands (R48).
`none` when the instruction cannot go on: it has taken a fault, or it waits for a page fault. -/
def Exe.withText {α : Type} (e : Exe) (f : CodeObj → Except TextStop α) : Nat → State → Option α × State
  | 0, s => (none, e.faultStart s .codeFormat)
  | fuel + 1, s =>
    match s.obj? e.l.tenant e.l.ctx e.l.obj with
    | none => (none, e.faultStart s .codeFormat)
    | some o =>
      match f o with
      | .ok a => (some a, s)
      | .error .format => (none, e.faultStart s .codeFormat)
      | .error (.page p) =>
        if s.revoked e.l.tenant e.l.ctx e.l.obj then (none, e.park s .stopped)
        else
        match heldCode e.th.walks (pageOf (o.va + o.pageBase + 65536 * p)) with
        | some c => (none, e.faultStart s c)
        | none =>
        match fetchPage s e.l.tenant e.l.ctx e.l.obj p with
        | (.ok, s) => Exe.withText e f fuel s
        | (.fail c, s) => (none, e.faultStart s c)
        | (.fault va pte, s) =>
          if !servable s e.l.tenant (Word.bit pte 9) then (none, e.faultStart s .translation)
          else (none, e.park (serviceFault s (clusterOf e.core) e.l.tenant e.l.ctx va 1 (Word.bit pte 9) [.unit e.uid e.g.first]) .fault)
        | (.hash, s) => (none, codeIntegrity s e.l.tenant e.l.ctx e.l.obj p (faultAt e.g e.l { e.th with instr := 0 } 0))

/-- Declared argument types of a block: as the translation recorded them, or from the object's text. -/
def Exe.blockTys (e : Exe) (s : State) (b : Nat) : Option (List Ty) × State :=
  match (e.xlat? s).bind (fun x => (x.heads.find? (fun h => h.1 == b)).map Prod.snd) with
  | some t => (some t, s)
  | none =>
    match s.xlats.find? (fun x => x.tenant == e.l.tenant && x.ctx == e.l.ctx && x.obj == e.l.obj && x.block == b) with
    | some x => (some x.argTys, s)
    | none => e.withText (fun o => do let (h, _) ← o.header b; .ok h.args) 4 s

/-- Arguments of a transfer in the declared types (R281, R282, R314). -/
def Exe.args (e : Exe) (s : State) (tys : List Ty) (os : List Opnd) : List TVal :=
  os.mapIdx (fun i o => e.opnd s (tys.getD i .n64) o)

/-- An operand matches a declared type at execution: its own type, or one that R281 and R282 allow. -/
def Exe.matchesTy (e : Exe) (s : State) (ty : Ty) (o : Opnd) : Bool :=
  match o with
  | .imm _ => ty.immOk
  | .pool k => ty != .b128 || k % 2 == 0
  | o => (e.opnd s ty o).ty == ty

def Exe.matchAll (e : Exe) (s : State) (tys : List Ty) (os : List Opnd) : Bool :=
  tys.length == os.length && (tys.zip os).all (fun p => e.matchesTy s p.1 p.2)

/-- The way a target names. -/
def Exe.way (e : Exe) (s : State) (t : Target) : Option Way × State :=
  match e.blockTys s t.block with
  | (some tys, s) => (some ⟨t.block, e.args s tys t.args, none⟩, s)
  | (none, s) => (none, s)

/-- The ways of a list of targets. -/
def Exe.ways (e : Exe) : List Target → State → Option (List Way) × State
  | [], s => (some [], s)
  | t :: ts, s =>
    match e.way s t with
    | (none, s) => (none, s)
    | (some w, s) =>
      match Exe.ways e ts s with
      | (some ws, s) => (some (w :: ws), s)
      | (none, s) => (none, s)

/-! ### Transfers -/

def execNop (w : Main) (s : State) : Host.Outcome State Fault Refusal := onUnit s (fun e => e.done s w)

def execBr (_w : Main) (t : Target) (s : State) : Host.Outcome State Fault Refusal :=
  onUnit s (fun e =>
    match e.way s t with
    | (some x, s) => e.follow s x
    | (none, s) => s)

/-- Outcomes of a compare over the items of group `j`: some true, some false. -/
def groupOutcomes (l : Launch) (c : Val) (j : Nat) : Bool × Bool :=
  let ls := lanesIn (l.liveLanes j)
  (ls.any (fun x => c.lane .p l.g j x % 2 == 1), ls.any (fun x => c.lane .p l.g j x % 2 == 0))

/-- Maximal runs of groups with one kind of outcome: 1 all true, 0 all false, 2 both. -/
def cutRuns (l : Launch) (c : Val) : Nat → Nat → List (Nat × Nat × Nat)
  | _, 0 => []
  | j, n + 1 =>
    let (t, f) := groupOutcomes l c j
    let k := if t && f then 2 else if t then 1 else 0
    match cutRuns l c (j + 1) n with
    | (k2, j2, m) :: rest => if k2 = k ∧ k ≠ 2 then (k, j, m + 1) :: rest else (k, j, 1) :: (k2, j2, m) :: rest
    | [] => [(k, j, 1)]

/-- A piece of a cut: a galley or leaf at one target, or the boundary leaf with its two paths (R104, R105). -/
def cutPiece (l : Launch) (g : Galley) (th : Thread) (c : Val) (rc : Nat) (tt nt : Way) (k j n : Nat) : Galley :=
  let enter (w : Way) (m : Mask) : Thread := { (th.enter w.block w.args th.stack) with mask := m }
  let whole (w : Way) : List Path := [⟨enter w (if n = 1 then l.liveLanes j else th.mask), none, [], none, []⟩]
  let paths :=
    if k = 1 then whole tt
    else if k = 0 then whole nt
    else
      let ls := lanesIn (l.liveLanes j)
      let t := maskOf (ls.filter (fun x => c.lane .p l.g j x % 2 == 1))
      let f := l.liveLanes j &&& ~~~t
      let sub (w : Way) (m : Mask) : Path := ⟨{ (enter w m) with split := th.stack.length }, some rc, [], none, []⟩
      if laneIn t (ls.headD 0) then [sub tt t, sub nt f] else [sub nt f, sub tt t]
  { g with first := j, count := n, paths := paths }

/-- The galley is cut into pieces; the first keeps its slot, the others join the pending list (R104, R128). The cut waits until
every access the galley issued is accepted (R102). -/
def Exe.cut (e : Exe) (s : State) (c : Val) (rc : Nat) (tt nt : Way) : State :=
  if e.owes s then e.park s .drain
  else
  let pieces := (cutRuns e.l c e.g.first e.g.count).map (fun r => cutPiece e.l e.g e.th c rc tt nt r.1 r.2.1 r.2.2)
  match pieces with
  | [] => s
  | p :: ps =>
    let s := { s.setGalley p with
      galleys := (s.setGalley p).galleys ++ ps.mapIdx (fun i q => { q with id := s.nextId + i, core := none, slot := 0, home := e.core })
      nextId := s.nextId + ps.length }
    let s := pathAtEntry s p.id 0
    if p.paths.length = 2 then pathAtEntry s p.id 1 else s

/-- The branch is cut-eligible: the compared value stays in the range of its type from the first item to the last. -/
def cutEligible (e : Exe) (ty : Ty) (base step : Word) : Bool :=
  let (lo, hi) := e.itemSpan
  let x := ty.toInt (affineAt base step lo) + Word.signExtend step.toNat ty.width * ((hi - lo : Nat) : Int)
  decide (ty.minInt ≤ x) && decide (x ≤ ty.maxInt)

def execBrc (w : Main) (rc : Nat) (tt nt : Target) (s : State) : Host.Outcome State Fault Refusal :=
  onUnit s (fun e =>
    let c := e.opnd s .p w.a
    match e.ways [tt, nt] s with
    | (some [a, b], s) =>
      let spread (_ : Unit) : State :=
        if e.multi then e.unfold s else e.diverge s rc [b, a] (fun l => e.lane c l % 2)
      if !e.multi && e.act == 0 then e.follow s b
      else
        match c.val with
        | .u v => e.follow s (if v.toNat % 2 = 1 then a else b)
        | .cmp _ ty base step _ _ => if e.multi && cutEligible e ty base step then e.cut s c.val rc a b else spread ()
        | _ => spread ()
    | (_, s) => s)

/-- Two ways are one target when they name one block with the same arguments in every lane that takes either (R312). -/
def sameWay (e : Exe) (pick : Nat → Nat) (ways : List Way) (i j : Nat) : Bool :=
  let a := ways.getD i ⟨0, [], none⟩
  let b := ways.getD j ⟨0, [], none⟩
  a.block == b.block && a.args.length == b.args.length &&
    ((lanesIn e.act).filter (fun l => pick l == i || pick l == j)).all (fun l =>
      (a.args.zip b.args).all (fun p => p.1.ty == p.2.ty && e.lane p.1 l == e.lane p.2 l))

def execBrsw (w : Main) (rc : Nat) (d : Target) (cs : List Target) (s : State) : Host.Outcome State Fault Refusal :=
  onUnit s (fun e =>
    let i := e.opnd s .n32 w.a
    let pick (l : Nat) : Nat := let v := e.lane i l; if v < cs.length then v + 1 else 0
    match e.ways (d :: cs) s with
    | (some ws, s) =>
      let way (k : Nat) : Way := ws.getD k ⟨0, [], none⟩
      if !e.multi && e.act == 0 then e.follow s (way 0)
      else if i.val.cls = 0 then e.follow s (way (pick e.leadLane))
      else if e.multi then e.unfold s
      else
        let used := (lanesIn e.act).map pick
        let canon (l : Nat) : Nat := ((List.range (pick l + 1)).find? (fun k => used.contains k && sameWay e pick ws k (pick l))).getD (pick l)
        e.diverge s rc ws canon
    | (none, s) => s)

/-! ### Calls (R314) -/

/-- First block of a function and its argument types. -/
def Exe.callee (e : Exe) (s : State) (f : Nat) : Option (Nat × List Ty) × State :=
  match (e.xlat? s).bind (fun x => (x.callees.find? (fun c => c.1 == f)).bind (fun c =>
      (x.heads.find? (fun h => h.1 == c.2)).map (fun h => (c.2, h.2)))) with
  | some r => (some r, s)
  | none => e.withText (fun o => do
      let ent ← o.func f
      let (h, _) ← o.header ent.first
      .ok (ent.first, h.args)) 8 s

def execCall (w : Main) (t : Target) (s : State) : Host.Outcome State Fault Refusal :=
  onUnit s (fun e =>
    match e.callee s (e.lane (e.opnd s .n32 w.a) e.leadLane) with
    | (none, s) => s
    | (some (b, tys), s) =>
      if 32 ≤ e.th.stack.length then e.faultAll s .callDepth
      else e.follow s ⟨b, e.args s tys t.args, some t.block⟩)

/-- Step 1 of R314 for one function: its first block and argument types, or the code it raises. -/
def Exe.checkCallee (e : Exe) (s : State) (f : Nat) (args : List Opnd) (lane : Nat) : Option (Nat × List Ty) × State :=
  match s.obj? e.l.tenant e.l.ctx e.l.obj with
  | none => (none, e.fault s .callTarget lane)
  | some o =>
    if o.nfunc ≤ f then (none, e.fault s .callTarget lane)
    else
      match e.callee s f with
      | (none, s) => (none, s)
      | (some (b, tys), s) => if e.matchAll s tys args then (some (b, tys), s) else (none, e.fault s .callSignature lane)

/-- Check the functions that the lanes name, and give each its way. -/
def Exe.calleeWays (e : Exe) (t : Target) (lane : Nat → Nat) : List Nat → State → Option (List (Nat × Way)) × State
  | [], s => (some [], s)
  | f :: fs, s =>
    match e.checkCallee s f t.args (lane f) with
    | (none, s) => (none, s)
    | (some (b, tys), s) =>
      match Exe.calleeWays e t lane fs s with
      | (none, s) => (none, s)
      | (some ws, s) => (some ((f, ⟨b, e.args s tys t.args, some t.block⟩) :: ws), s)

def execCalli (w : Main) (t : Target) (s : State) : Host.Outcome State Fault Refusal :=
  onUnit s (fun e =>
    let i := e.opnd s .n32 w.a
    let uni : Bool := i.val.cls == 0 || (!e.multi && e.act == 0)
    if !uni && e.multi then e.unfold s
    else
      let ls := lanesIn e.act
      let fs := if uni then [e.lane i e.leadLane] else (ls.map (e.lane i)).dedup
      let laneOf (f : Nat) : Nat := if uni then faultLane e.uid else (ls.find? (fun l => e.lane i l == f)).getD (faultLane e.uid)
      match e.calleeWays t laneOf fs s with
      | (none, s) => s
      | (some ws, s) =>
        if 32 ≤ e.th.stack.length then e.faultAll s .callDepth
        else
          match ws with
          | [(_, x)] => e.follow s x
          | _ => e.diverge s t.block (ws.map Prod.snd) (fun l => ws.findIdx (fun x => x.1 == e.lane i l)))

/-! ### Returns and retirement (R315, R316) -/

/-- The results a `ret` names. -/
def retOpnds (w : Main) (xs : List X4) : List Opnd := ([w.a, w.b, w.c] ++ xs.flatMap X4.list).take w.mod

def execRet (w : Main) (xs : List X4) (s : State) : Host.Outcome State Fault Refusal :=
  onUnit s (fun e =>
    match e.th.stack with
    | [] => e.retire s
    | c :: rest =>
      match e.blockTys s c with
      | (none, s) => s
      | (some tys, s) =>
        if !e.matchAll s tys (retOpnds w xs) then e.faultAll s .callSignature
        else if rest.length < e.th.split then e.faultAll s .reconvergeMismatch
        else atEntry (e.put s (e.th.enter c (e.args s tys (retOpnds w xs)) rest)) e.uid)

def execRetire (_w : Main) (s : State) : Host.Outcome State Fault Refusal := onUnit s (fun e => e.retire s)

end Sys2Proof.Machine
end

