-- ==== Sys2Proof/Machine/Access.lean ====
section
/-! DEFINITION. The memory accesses of a group: lanes' requests, translation with TLBs and walks (R146 to R151), waits for
lines that others own (R178, R198, R208), the L1 (R156, R157), and transactional accesses (R201, R208). -/

namespace Sys2Proof.Machine

open Sys2Proof

/-! ### Looking a page up -/

/-- Who translates: cluster, the core whose L1 TLB serves, context, walk results held, and the asker. -/
structure View where
  cl    : Nat
  core  : Option Nat
  t     : Nat
  k     : Nat
  walks : List WalkResult
  who   : Asker
  deriving DecidableEq, Repr

/-- What is known of one access. -/
inductive Look where
  | ok (p : PTarget) (tso : Bool)
  | fail (c : Code)
  | inFault
  | unknown
  deriving DecidableEq, Repr

/-- Checks 5 to 8 on an entry. -/
def lookEntry (s : State) (e : TlbEntry) (va n : Nat) (a : Access) : Look :=
  match entryCheck s e va n a with
  | some c => .fail c
  | none => .ok (e.target va) e.tso

/-- An entry that check 5 would fail is not used: the access walks again (R148). -/
def usable (a : Access) (e : TlbEntry) : Bool := e.w || !(a.write || a.atomic)

/-- The same unit, command, relayout, queue or fetch asks, for whatever group. -/
def Asker.same : Asker → Asker → Bool
  | .unit u _, .unit v _ => u == v
  | a, b => a == b

/-- The asker for an access of group `j`. -/
def Asker.forGroup (a : Asker) (j : Nat) : Asker :=
  match a with
  | .unit u _ => .unit u j
  | a => a

/-- Look one access of `n` bytes up, aligned to `al`, without beginning a walk. A miss walks, and joins a fault in service only where
its walk ends in one (R148, R149). -/
def lookPage (s : State) (v : View) (va n al : Nat) (a : Access) : Look × State :=
  if 2 ^ 57 ≤ va then (.fail .nonCanonical, s)
  else if va % al ≠ 0 then (.fail .misaligned, s)
  else
    match v.walks.find? (fun w => match w.entry with | some e => e.maps v.t v.k va | none => w.page == pageOf va) with
    | some w =>
      match w.entry with
      | some e => (lookEntry s e va n a, s)
      | none => (.fail (Code.ofNum w.code), s)
    | none =>
      let l1 := match v.core with | some c => tlbFind (s.core c).tlb v.t v.k va | none => none
      match l1.filter (usable a) with
      | some e => (lookEntry s e va n a, s)
      | none =>
        match (tlbFind (s.cluster v.cl).tlb v.t v.k va).filter (usable a) with
        | some e =>
          let s := match v.core with
            | some c => let x := s.core c; s.setCore c { x with tlb := tlbAdd x.tlb e 128 }
            | none => s
          (lookEntry s e va n a, s)
        | none =>
          (if s.faults.any (fun f => sameFault v.cl v.t v.k (pageOf va) f && f.askers.any (Asker.same v.who)) then .inFault else .unknown, s)

/-- Join or begin a walk, for an access of group `j` (R149, R420). -/
def askWalk (s : State) (v : View) (j va : Nat) (a : Access) : State :=
  let who := v.who.forGroup j
  let same (w : Walk) : Bool := w.cluster == v.cl && w.tenant == v.t && w.ctx == v.k && w.page == pageOf va
  if s.walks.any same then
    { s with walks := s.walks.map (fun w =>
        if same w && !w.askers.contains who then { w with askers := w.askers ++ [who] } else w) }
  else
    let (id, s) := s.fresh
    let w : Walk := { id := id, cluster := v.cl, tenant := v.t, ctx := v.k, page := pageOf va, va := va, access := a.bits, askers := [who] }
    { s with walks := s.walks ++ [w] }

/-- Join a fault in service, once for each group (R149, R420). -/
def joinFault (s : State) (v : View) (j va : Nat) (a : Access) : State :=
  let who := v.who.forGroup j
  if s.faults.any (fun f => sameFault v.cl v.t v.k (pageOf va) f && f.askers.contains who) then s
  else serviceFault s v.cl v.t v.k va a.bits false [who]

/-- The page-crossing parts of a span of bytes: first byte and length on each 64 KiB page. -/
def pageParts : Nat → Nat → Nat → List (Nat × Nat)
  | 0, _, _ => []
  | fuel + 1, va, n =>
    if n = 0 then []
    else
      let k := min n (65536 - va % 65536)
      (va, k) :: pageParts fuel (va + k) (n - k)

/-- One request: the group and lane it belongs to, address, bytes, and alignment. -/
structure Req where
  grp  : Nat
  lane : Nat
  va   : Nat
  n    : Nat
  al   : Nat
  deriving DecidableEq, Repr

/-- Look every request up. -/
def lookAll (v : View) (a : Access) : List Req → State → List (Req × Look) × State
  | [], s => ([], s)
  | r :: rs, s =>
    let (k, s) := lookPage s v r.va r.n r.al a
    let (ks, s) := lookAll v a rs s
    ((r, k) :: ks, s)

/-- What a set of requests comes to: go on with their targets, wait for walks or page faults, or fail. -/
inductive Plan where
  | go (ts : List (Req × PTarget × Bool))
  | walk
  | fault
  | fail (r : Req) (c : Code)
  deriving DecidableEq, Repr

/-- Decide (R351): walks first, then the fault of the lowest failing lane, then page faults. `pre` is the fault of a higher lane that an
earlier check has found. -/
def plan (s : State) (v : View) (a : Access) (rs : List Req) (pre : Option (Req × Code) := none) : Plan × State :=
  let (ks, s) := lookAll v a rs s
  let missing := ks.filter (fun k => k.2 == .unknown)
  if !missing.isEmpty then (.walk, missing.foldl (fun s k => askWalk s v k.1.grp k.1.va a) s)
  else
    match ks.find? (fun k => match k.2 with | .fail _ => true | _ => false) with
    | some (r, .fail c) => (.fail r c, s)
    | _ =>
      let waits := ks.filter (fun k => k.2 == .inFault)
      if !waits.isEmpty then
        match pre with
        | some (r, c) => (.fail r c, s)
        | none => (.fault, waits.foldl (fun s k => joinFault s v k.1.grp k.1.va a) s)
      else (.go (ks.filterMap (fun k => match k.2 with | .ok p tso => some (k.1, p, tso) | _ => none)), s)

/-- The view of the executing unit. -/
def Exe.view (e : Exe) : View := ⟨clusterOf e.core, some e.core, e.l.tenant, e.l.ctx, e.th.walks, .unit e.uid e.g.first⟩

/-! ### Lines that others hold -/

/-- The device-memory lines of one part of a global destination that translate as a write. -/
def State.linesOf (s : State) (t k : Nat) (p : Nat × Nat) : List Nat :=
  match (translateNow s t k p.1 p.2 { Access.wr with engine := true }).1 with
  | .ok x => if x.tgt = 0 then spanLines x.pa p.2 else []
  | .error _ => []

/-- An engine command owns a line: one that it took at issue, or one of a page that has been mapped since (R177). -/
def State.commandOwns (s : State) (c : Command) (line : Nat) : Bool :=
  c.owns.contains line || c.dsts.any (fun p => (s.linesOf c.tenant c.ctx p).contains line)

/-- An engine command or an imposition conversion owns the line (R177). -/
def State.engineOwned (s : State) (pa : Nat) : Bool :=
  s.commands.any (fun c => s.commandOwns c (lineOf pa)) || s.relayouts.any (fun r => r.active.any (fun o => o.lines.contains (lineOf pa)))

/-- An engine owns a line of a span of device memory. -/
def State.spanOwned (s : State) (t : PTarget) (n : Nat) : Bool := t.tgt == 0 && (spanLines t.pa n).any s.engineOwned

/-- Addresses of the entries that a walk of an address reads, and of the lines of a large page's entries (R143 to R145). -/
def walkPath (s : State) (va : Nat) : Nat → Nat → List Nat
  | 0, _ => []
  | fuel + 1, tbl =>
    let i := levelIndex (3 - fuel) va
    let v := leNat (s.readFor none ⟨0, tbl + 8 * i⟩ 8).1
    if !Word.bit v 0 then [tbl + 8 * i]
    else if Word.bit v 1 then
      (if Word.field v 3 2 = 1 then [tbl + 8 * (i / 32 * 32), tbl + 8 * (i / 32 * 32) + 128, tbl + 8 * (i / 32 * 32) + 248] else [tbl + 8 * i])
    else (tbl + 8 * i) :: walkPath s va fuel (Word.field v 51 16 * 2 ^ 16)

/-- A walk waits: it reads an entry on a line that an engine owns (R178). -/
def State.walkHeld (s : State) (t k va : Nat) : Bool :=
  (!s.commands.isEmpty || !s.relayouts.isEmpty) && (walkPath s va 4 (s.ctx t k).ptRoot).any s.engineOwned

/-- An access must wait: the line is owned by an engine or in SPILLING, or a write meets a serial lock. -/
def State.blocked (s : State) (me : Option GroupRef) (write : Bool) (t : PTarget) : Bool :=
  (t.tgt == 0 && (s.engineOwned t.pa || s.spilling t.pa)) || (write && s.lockedBy me t)

/-- The aligned 16-byte sectors that a span touches, by their first bytes in it. -/
def sectorsOf (t : PTarget) (n : Nat) : List PTarget :=
  if n = 0 then []
  else t :: (List.range ((t.pa + n - 1) / 16 - t.pa / 16)).map (fun i => ⟨t.tgt, (t.pa / 16 + 1 + i) * 16⟩)

/-- An access to a span of bytes must wait. -/
def State.blockedSpan (s : State) (me : Option GroupRef) (write : Bool) (t : PTarget) (n : Nat) : Bool :=
  (sectorsOf t n).any (s.blocked me write)

/-- A native store with a half outstanding covers a byte of the span (R256). -/
def NativeRun.storesAt (x : NativeRun) (spad : Bool) (tgt pa n : Nat) : Bool :=
  x.stores.any (fun a => a.spad == spad && a.targets.any (fun t => t.2.1 == tgt && decide (t.2.2 < pa + n) && decide (pa < t.2.2 + a.bytes)))

/-- A native store of the unit's galley, not yet performed, covers a byte of the span. -/
def Exe.threadStoresAt (e : Exe) (t : PTarget) (n : Nat) : Bool :=
  e.g.threads.any (fun th => match th.native with | some x => x.storesAt false t.tgt t.pa n | none => false)

/-- A native `st.s` of the unit's galley, not yet performed, covers a byte of a span of scratchpad: an access to it waits (R256, R355). -/
def Exe.spadStoresAt (e : Exe) (a n : Nat) : Bool :=
  e.g.threads.any (fun th => match th.native with | some x => x.storesAt true 0 a n | none => false)

/-- The group's own earlier stores or no-return atomics, not yet performed, share a byte with an access (Table 8.3 row 2,
R183, R256). -/
def Exe.owedAt (e : Exe) (s : State) (t : PTarget) (n : Nat) : Bool :=
  (e.owed s).any (fun a => a.1.tgt == t.tgt && decide (a.2 % 2 ^ 52 < t.pa + n) && decide (t.pa < a.2 % 2 ^ 52 + 16)) ||
    e.threadStoresAt t n

/-! ### The L1 (R156, R157) -/

/-- Make room for a sector of a line in an L1 of 1,024 lines: a line freely chosen is evicted (R156, log 18). -/
def l1Room (s : State) (core line : Nat) : State :=
  let x := s.core core
  let lines := (x.l1.map (fun e => e.1 / 8)).dedup
  if lines.contains line ∨ lines.length < 1024 then s
  else
    let (k, s) := s.choose lines.length
    let out := lines.getD k 0
    s.setCore core { x with l1 := x.l1.filter (fun e => e.1 / 8 != out) }

/-- A sector of an L1 is read through the virtual line `line`, which an invalidation by address names (R409). -/
def L1Sec.through (x : L1Sec) (line : Nat) : L1Sec := if x.lines.contains line then x else { x with lines := line :: x.lines }

/-- The sector `key` of a core's L1 serves a read through the virtual address `va`, or is filled by `fill` first: its bytes. Events 7 and
8 count hits and fills. -/
def l1Serve (s : State) (core key va : Nat) (fill : State → List Byte × State) : List Byte × State :=
  let x := s.core core
  match x.l1.get? key with
  | some sec => (sec.bytes, countEvent (s.setCore core { x with l1 := x.l1.set key (sec.through (va / 128)) }) core 7 1)
  | none =>
    let (bs, s) := fill s
    let s := l1Room (countEvent s core 8 1) core (key / 8)
    let x := s.core core
    (bs, s.setCore core { x with l1 := x.l1.set key ⟨bs, [va / 128]⟩ })

/-- A plain load of device memory through the core's L1: a sector filled once is served as it was filled. -/
def l1Load (s : State) (core : Nat) (me : Option GroupRef) (va : Nat) (t : PTarget) (n : Nat) : List Byte × State :=
  let (bs, s) := l1Serve s core (t.pa / 16) va (fun s => s.readFor me ⟨0, t.pa / 16 * 16⟩ 16)
  ((bs.drop (t.pa % 16)).take n, s)

/-- A constant-pool read is served from the L1 (R156): its sectors are those of the verified text, named by virtual address above every
physical one. -/
def l1Pool (s : State) (core : Nat) (x : Xlat) (k n : Nat) : State :=
  (List.range n).foldl (fun s i =>
    let va := x.poolAt + 8 * (k + i)
    let first : Int := ((va / 16 * 16 : Nat) : Int) - x.poolAt
    let entry (j : Int) : Nat := if j < 0 then 0 else x.pool.getD (j / 8).toNat 0
    (l1Serve s core (2 ^ 60 + va / 16) va (fun s => (leBytes 8 (entry first) ++ leBytes 8 (entry (first + 8)), s))).2) s

/-- The group of the executing leaf. -/
def Exe.me (e : Exe) : Option GroupRef := if e.multi then none else some ⟨e.l.id, e.g.first⟩

/-- A load of the executing unit outside transactions; `plain` may be served from the L1. -/
def Exe.load (e : Exe) (s : State) (va : Nat) (t : PTarget) (n : Nat) (plain : Bool) : List Byte × State :=
  if plain && t.tgt == 0 then l1Load s e.core e.me va t n else s.readFor e.me t n

/-! ### Stores of items (R109, R161) -/

/-- An item of a higher lane of the executing item's path has stored the byte; outside per-item mode none has. -/
def Exe.outranked (e : Exe) (space addr : Nat) : Bool :=
  e.uid.item.any (fun lane => e.path.marks.any (fun m => m.space == space && m.addr == addr && decide (lane < m.lane)))

/-- The bytes of a store that no higher lane of the path has stored, with their offsets. -/
def Exe.ranked (e : Exe) (space addr : Nat) (bs : List Byte) : List (Nat × Byte) :=
  (bs.mapIdx (fun i b => (i, b))).filter (fun p => !e.outranked space (addr + p.1))

/-- In per-item mode the path notes the bytes that an item has stored, until the items reassemble. -/
def Exe.mark (e : Exe) (s : State) (space addr : Nat) (is : List Nat) : State :=
  match e.uid.item with
  | none => s
  | some lane =>
    match s.galley? e.uid.galley with
    | none => s
    | some g => s.setGalley { g with paths := g.paths.mapIdx (fun i p =>
        if i = e.uid.path then
          { p with marks := is.map (fun j => ⟨space, addr + j, lane⟩) ++
                     p.marks.filter (fun m => !(m.space == space && is.any (fun j => m.addr == addr + j))) }
        else p) }

/-- A store of the executing unit outside transactions. -/
def Exe.store (e : Exe) (s : State) (t : PTarget) (bs : List Byte) : State :=
  let ps := e.ranked t.tgt t.pa bs
  let s := if ps.length = bs.length then s.writePhys t bs
    else ps.foldl (fun s p => s.writePhys ⟨t.tgt, t.pa + p.1⟩ [p.2]) s
  e.mark (l1Drop s e.core t bs.length) t.tgt t.pa (ps.map Prod.fst)

/-- A store of the executing unit to the scratchpad. -/
def Exe.storeSpad (e : Exe) (s : State) (addr : Nat) (bs : List Byte) : State :=
  let ps := e.ranked 3 addr bs
  let x := s.core e.core
  e.mark (s.setCore e.core { x with spad := ps.foldl (fun (m : Memory) p => m.write (addr + p.1) p.2) x.spad }) 3 addr
    (ps.map Prod.fst)

/-! ### Transactional accesses (R201, R208) -/

/-- Index of a line's set in its slice; the manual gives no index function (log 16). -/
def l2Set (pa : Nat) : Nat := pa / 4096 % 1024

/-- What a serial access does first: lock the sector, and before its first write put its bytes in the undo area. -/
inductive Locking where
  | ok
  | fail (c : Code)
  deriving DecidableEq, Repr

/-- Write the undo record of a device sector (R208). -/
def undoWrite (s : State) (l : Launch) (pa : Nat) (prior : List Byte) : Locking × State :=
  let c := s.ctx l.tenant l.ctx
  let n := s.serial.undo.length
  if c.undoSize * 4096 < 32 * (n + 1) then (.fail .txUndoFull, s)
  else
    match translateNow s l.tenant l.ctx (c.undoBase + 32 * n) 32 .wr with
    | (.error code, s) => (.fail code, s)
    | (.ok t, s) =>
      let s := s.writePhys t (prior ++ leBytes 8 (pa / 16 * 16 % 2 ^ 52) ++ leBytes 8 0)
      (.ok, { s with serial := { s.serial with undo := t :: s.serial.undo } })

/-- The device sectors of a serial group's writes that have no undo record yet. -/
def State.undoNeeds (s : State) (ts : List PTarget) : List PTarget :=
  ((ts.map (fun t => (⟨t.tgt, t.pa / 16 * 16⟩ : PTarget))).dedup).filter (fun t =>
    t.tgt == 0 && !(match s.lock? t with | some x => x.wrote | none => false))

/-- Lock a sector for the serial group, and note its first write. -/
def serialTouch (s : State) (l : Launch) (t : PTarget) (write : Bool) : Locking × State :=
  let base : PTarget := ⟨t.tgt, t.pa / 16 * 16⟩
  let (lk, s) : Locking × State :=
    match s.lock? t with
    | some _ => (.ok, s)
    | none =>
      let lines := ((s.serial.locks.filter (fun x => x.tgt == 0)).map (fun x => lineOf x.pa)).dedup
      let ways := (lines.filter (fun x => sliceOf x == sliceOf base.pa && l2Set x == l2Set base.pa && x != lineOf base.pa)).length
      if t.tgt = 0 ∧ 15 ≤ ways then (.fail .txCapacity, s)
      else
        let (prior, s) := s.readPhys base 16
        (.ok, { s with serial := { s.serial with locks := s.serial.locks ++ [⟨base.tgt, base.pa, prior, false⟩] } })
  match lk, s.lock? t with
  | .ok, some x =>
    if write && !x.wrote then
      let (r, s) := if t.tgt = 0 then undoWrite s l base.pa x.prior else (.ok, s)
      match r with
      | .ok => (.ok, { s with serial := { s.serial with locks := s.serial.locks.map (fun y =>
                  if y.tgt = base.tgt ∧ y.pa = base.pa then { y with wrote := true } else y) } })
      | r => (r, s)
    else (.ok, s)
  | r, _ => (r, s)

/-- The bytes lane `lane` has buffered in a sector, and those of the logged sector. -/
def Tx.view (x : Tx) (t : PTarget) (lane : Nat) (sec : List Byte) : List Byte :=
  let base := t.pa / 16 * 16
  match x.writes.find? (fun w => w.tgt == t.tgt && w.pa == base) with
  | none => sec
  | some w => sec.mapIdx (fun i b =>
      match w.bytes.find? (fun y => y.off == i && y.lane == lane) with | some y => y.val | none => b)

/-- Every byte of a span is the lane's own buffered byte. -/
def Tx.owns (x : Tx) (t : PTarget) (lane n : Nat) : Bool :=
  match x.writes.find? (fun w => w.tgt == t.tgt && w.pa == t.pa / 16 * 16) with
  | none => false
  | some w => (List.range n).all (fun i => w.bytes.any (fun y => y.off == t.pa % 16 + i && y.lane == lane))

/-- A transactional read of one lane; `none` when the lane aborts with LOG_FULL (R201). -/
def txRead (s : State) (l : Launch) (j lane : Nat) (t : PTarget) (n : Nat) : Option (List Byte) × State :=
  let g := s.group l.id j
  let base := t.pa / 16 * 16
  let cut (sec : List Byte) : List Byte := (sec.drop (t.pa % 16)).take n
  if g.tx.owns t lane n then (some (cut (g.tx.view t lane (List.replicate 16 0))), s)
  else
    match g.tx.reads.find? (fun r => r.tgt == t.tgt && r.pa == base) with
    | some r =>
      let reads := g.tx.reads.map (fun y =>
        if y.tgt = t.tgt ∧ y.pa = base then { y with lanes := y.lanes ||| maskOf [lane] } else y)
      (some (cut (g.tx.view t lane r.val)), s.setGroup l.id j { g with tx := { g.tx with reads := reads } })
    | none =>
      if 64 ≤ g.tx.reads.length then (none, abortLanes s l.id j (maskOf [lane]) 2)
      else
        let (sec, s) := s.readFor (some ⟨l.id, j⟩) ⟨t.tgt, base⟩ 16
        let g := s.group l.id j
        let reads := g.tx.reads ++ [⟨t.tgt, base, sec, maskOf [lane]⟩]
        (some (cut (g.tx.view t lane sec)), s.setGroup l.id j { g with tx := { g.tx with reads := reads } })

/-- A transactional write of one lane to its sector's entry; other lanes that had written one of its bytes abort with
INTRA_CONFLICT, but for a higher one that writes the byte later in the same instruction, of which `later` gives lane and byte (R201). A
lane that has aborted writes nothing. -/
def txWrite (s : State) (l : Launch) (j lane : Nat) (t : PTarget) (bs : List Byte) (later : Nat → PTarget → Bool) : State :=
  let g := s.group l.id j
  let base := t.pa / 16 * 16
  let off := t.pa % 16
  let have_ := g.tx.writes.any (fun w => w.tgt == t.tgt && w.pa == base)
  if laneIn g.tx.aborted lane then s
  else if !have_ && decide (32 ≤ g.tx.writes.length) then abortLanes s l.id j (maskOf [lane]) 2
  else
    let covers (i : Nat) : Bool := decide (off ≤ i) && decide (i < off + bs.length)
    let others := match g.tx.writes.find? (fun w => w.tgt == t.tgt && w.pa == base) with
      | some w => maskOf ((w.bytes.filter (fun y => covers y.off && y.lane != lane && !later y.lane ⟨t.tgt, base + y.off⟩)).map WByte.lane)
      | none => 0
    let s := if others = 0 then s else abortLanes s l.id j others 8
    let g := s.group l.id j
    let mine : List WByte := bs.mapIdx (fun i b => ⟨off + i, b, lane⟩)
    let writes :=
      if g.tx.writes.any (fun w => w.tgt == t.tgt && w.pa == base) then
        g.tx.writes.map (fun w => if w.tgt = t.tgt ∧ w.pa = base then
          { w with bytes := w.bytes.filter (fun y => !covers y.off) ++ mine } else w)
      else g.tx.writes ++ [⟨t.tgt, base, mine⟩]
    s.setGroup l.id j { g with tx := { g.tx with writes := writes } }

/-- The group of the executing leaf has an open transaction, and whether it is serial. -/
def Exe.tx? (e : Exe) : Option Bool :=
  if e.multi then none
  else
    let x := (State.groupSt e.l e.g.first).tx
    if x.depth = 0 then none else some x.serial

end Sys2Proof.Machine
end

