-- ==== Sys2Proof/Machine/Loads.lean ====
section
/-! DEFINITION. Global and scratchpad loads and stores, prefetch and eviction (R353 to R356). -/

namespace Sys2Proof.Machine

open Sys2Proof

/-! ### Requests of the executing unit -/

/-- Groups and lanes that perform the accesses of an instruction (R98): the active lanes of a leaf, or every item of a
multi-group galley. -/
def Exe.items (e : Exe) : List (Nat × Nat) :=
  if e.multi then
    (List.range e.g.count).flatMap (fun i => (lanesIn (e.l.liveLanes (e.g.first + i))).map (fun l => (e.g.first + i, l)))
  else (lanesIn e.act).map (fun l => (e.g.first, l))

/-- A value at an item. -/
def Exe.at_ (e : Exe) (v : TVal) (i : Nat × Nat) : Nat := v.val.lane v.ty e.l.g i.1 i.2

/-- Every value is class U. -/
def allU (vs : List TVal) : Bool := vs.all (fun v => v.val.cls == 0)

/-- The items that perform an access: one where every operand is U and no transaction is open, else all. The address word of a
native store knows nothing of its data, and acts for every lane. -/
def Exe.actors (e : Exe) (vs : List TVal) : List (Nat × Nat) :=
  if allU vs && e.tx?.isNone && e.th.native.isNone then e.items.take 1 else e.items

/-- The line of a target is in the core's L1, so that a plain load reaches no home slice (R156, R178). -/
def Exe.hits (e : Exe) (s : State) (t : PTarget) : Bool := t.tgt == 0 && ((s.core e.core).l1.get? (t.pa / 16)).isSome

/-- What Table 8.3 orders an access behind: the accesses of its groups that share a byte with it (row 2), their no-return atomics where
it writes (row 1) or meets a TSO page (row 6), and there, for an atomic, their stores. `logged` accesses reach memory at the commit. -/
def Exe.mustFollow (e : Exe) (s : State) (a : Access) (logged : Bool) (t : Req × PTarget × Bool) : Bool :=
  e.owedAt s t.2.1 t.1.n || (!logged && (a.write || a.atomic || t.2.2) && !(e.owed s).isEmpty) ||
    (t.2.2 && a.atomic && e.g.storesOwed)

/-- The places of the undo area that a serial group's writes need first: a page fault there is served as another (R151, R208). -/
def Exe.undoReqs (e : Exe) (s : State) (a : Access) (ts : List (Req × PTarget × Bool)) : List Req :=
  if a.write && a.tx && e.tx? == some true then
    let c := s.ctx e.l.tenant e.l.ctx
    let n := s.serial.undo.length
    ((s.undoNeeds (ts.map (fun t => t.2.1))).mapIdx (fun i _ => (⟨e.g.first, e.leadLane, c.undoBase + 32 * (n + i), 32, 1⟩ : Req))).filter
      (fun r => decide (r.va + 32 ≤ c.undoBase + c.undoSize * 4096))
  else []

/-- Wait, fault, or go on with the targets of a set of requests; `plain` loads may be served from the L1. A logged write reaches no
home slice before the commit, so it waits for no line (R178, R204, R208). `pre` is the fault of a higher lane that an earlier check has
found (R351). -/
def Exe.accessAs (e : Exe) (s : State) (plain : Bool) (a : Access) (rs : List Req)
    (go : List (Req × PTarget × Bool) → State → State) (pre : Option (Req × Code) := none) : State :=
  match plan s e.view a rs pre with
  | (.walk, s) => e.park s .mem
  | (.fault, s) => e.park s .fault
  | (.fail r c, s) => e.fault s c r.lane r.va
  | (.go ts, s) =>
    let logged : Bool := a.write && a.tx && e.tx? == some false
    let held (ts : List (Req × PTarget × Bool)) (write : Bool) : List PTarget :=
      (ts.filter (fun t => !(plain && !t.2.2 && e.tx?.isNone && e.hits s t.2.1))).flatMap (fun t =>
        (sectorsOf t.2.1 t.1.n).filter (s.blocked e.me write))
    let stuck := if logged then [] else held ts (a.write || a.atomic)
    if !stuck.isEmpty then e.park s (.lines stuck (a.write || a.atomic))
    else if ts.any (e.mustFollow s a (a.tx && e.tx? == some false)) then e.park s .drain
    else
      let undo := e.undoReqs s a ts
      if undo.isEmpty then go ts s
      else
        match plan s e.view .wr undo with
        | (.walk, s) => e.park s .mem
        | (.fault, s) => e.park s .fault
        | (.fail _ _, s) => go ts s
        | (.go us, s) =>
          let stuck := held us true
          if !stuck.isEmpty then e.park s (.lines stuck true) else go ts s

/-- An access that bypasses the L1. -/
def Exe.access (e : Exe) (s : State) (a : Access) (rs : List Req) (go : List (Req × PTarget × Bool) → State → State)
    (pre : Option (Req × Code) := none) : State :=
  e.accessAs s false a rs go pre

/-! ### Loads and stores through the transaction in force -/

/-- Lane values as they are read, and the state after. -/
def readLanes (f : State → Req × PTarget × Bool → Option (List Byte) × State) :
    List (Req × PTarget × Bool) → State → List (Nat × Nat) × State
  | [], s => ([], s)
  | t :: ts, s =>
    let (b, s) := f s t
    let (r, s) := readLanes f ts s
    ((t.1.lane, match b with | some bs => leNat bs | none => 0) :: r, s)

/-- Lock the sectors of a serial access; the first failure ends it. -/
def touchAll (l : Launch) (write : Bool) : List (Req × PTarget × Bool) → State → Option (Req × Code) × State
  | [], s => (none, s)
  | t :: ts, s =>
    match serialTouch s l t.2.1 write with
    | (.ok, s) => touchAll l write ts s
    | (.fail c, s) => (some (t.1, c), s)

/-- Lane values as one result: U where one access was made or all lanes agree on U operands, else S. -/
def Exe.loaded (e : Exe) (uni : Bool) (vals : List (Nat × Nat)) : Val :=
  let v (l : Nat) : Nat := match vals.find? (fun x => x.1 == l) with | some x => x.2 | none => 0
  match vals with
  | [] => .u 0
  | (l, x) :: rest =>
    if uni && rest.all (fun y => y.2 == x) && (e.multi || rest.isEmpty || vals.length == (lanesIn e.act).length) then .ofNat (v l)
    else .s ((List.range e.l.g).map (fun k => BitVec.ofNat 128 (v k)))

/-- Load `n` bytes for each request; the values of the lanes. -/
def Exe.loadAll (e : Exe) (plain : Bool) (ts : List (Req × PTarget × Bool)) (s : State) : Except (Req × Code) (List (Nat × Nat)) × State :=
  match e.tx? with
  | some false =>
    let (v, s) := readLanes (fun s t => txRead s e.l t.1.grp t.1.lane t.2.1 t.1.n) ts s
    (.ok v, s)
  | some true =>
    match touchAll e.l false ts s with
    | (some f, s) => (.error f, s)
    | (none, s) =>
      let (v, s) := readLanes (fun s t => let (b, s) := s.readFor e.me t.2.1 t.1.n; (some b, s)) ts s
      (.ok v, s)
  | none =>
    let (v, s) := readLanes (fun s t => let (b, s) := e.load s t.1.va t.2.1 t.1.n (plain && !t.2.2); (some b, s)) ts s
    (.ok v, s)

/-- A lane of a list of requests writes a byte. -/
def writesByte (ts : List (Req × PTarget × Bool)) (lane : Nat) (p : PTarget) : Bool :=
  ts.any (fun t => t.1.lane == lane && t.2.1.tgt == p.tgt && decide (t.2.1.pa ≤ p.pa) && decide (p.pa < t.2.1.pa + t.1.n))

/-- The transactional writes of an instruction one after another; `rest` are those of its lanes that follow (R201). -/
def txWrites (l : Launch) (data : Req → List Byte) (rest : List (Req × PTarget × Bool)) : List (Req × PTarget × Bool) → State → State
  | [], s => s
  | t :: ts, s => txWrites l data rest ts (txWrite s l t.1.grp t.1.lane t.2.1 (data t.1) (fun lane p =>
      decide (t.1.lane < lane) && writesByte (ts ++ rest) lane p))

/-- Store each request's bytes, ascending, so that the highest lane's stay (R161); `rest` are the requests of the instruction that follow
these. -/
def Exe.storeAll (e : Exe) (data : Req → List Byte) (ts : List (Req × PTarget × Bool)) (s : State)
    (rest : List (Req × PTarget × Bool) := []) : Except (Req × Code) Unit × State :=
  match e.tx? with
  | some false => (.ok (), txWrites e.l data rest ts s)
  | some true =>
    match touchAll e.l true ts s with
    | (some f, s) => (.error f, s)
    | (none, s) => (.ok (), ts.foldl (fun s t => e.store s t.2.1 (data t.1)) s)
  | none => (.ok (), ts.foldl (fun s t => e.store s t.2.1 (data t.1)) s)

/-! ### The halves of a native store (R256) -/

/-- The word is the S half of a native store: it records its data, and moves on. -/
def Exe.storeData (e : Exe) (s : State) (w : Main) : Option State :=
  match w.nat, e.th.native with
  | some i, some n =>
    if i.queue = 2 then
      let v := n.operand w.ty (match w.b with | .reg r => r | _ => 511) e.l.g
      let d : StoreS := ⟨(List.range (e.l.g * e.g.count)).map (fun k => v.lane w.ty e.l.g (e.g.first + k / e.l.g) (k % e.l.g)), i.tokens⟩
      some (e.nativeIssue s { n with data := n.data ++ [d] } 2 i.tokens n.reads true)
    else none
  | _, _ => none

/-- The place of a group's lane among those of a galley's native store. -/
def Exe.storeLane (e : Exe) (i : Nat × Nat) : Nat := (i.1 - e.g.first) * e.l.g + i.2

/-- The word is the A half: once its checks have passed it records where the data goes, and moves on. -/
def Exe.storeAddr (e : Exe) (s : State) (w : Main) (spad : Bool) (bytes : Nat) (ts : List (Nat × Nat × Nat))
    (narrow : List (Nat × Nat × Nat) := []) : Option State :=
  match w.nat, e.th.native with
  | some i, some n =>
    let (id, s) := s.fresh
    some (e.nativeIssue s { n with stores := n.stores ++ [⟨spad, ts, narrow, bytes, i.tokens, id⟩] } i.queue i.tokens n.reads true)
  | _, _ => none

/-! ### ld.g and st.g (R353) -/

/-- ea := Bits(a + o, 63, 0). -/
def Exe.ea (e : Exe) (a o : TVal) (i : Nat × Nat) : Nat := (e.at_ a i + e.at_ o i) % 2 ^ 64

def execLdG (w : Main) (s : State) : Host.Outcome State Fault Refusal :=
  onUnit s (fun e =>
    let a := e.opnd s .n64 w.a
    let o := e.opnd s .i64 w.b
    let n := w.ty.bytes
    if !allU [a, o] && e.multi then e.unfold s
    else
      let rs : List Req := (e.actors [a, o]).map (fun i => ⟨i.1, i.2, e.ea a o i, n, n⟩)
      let plain : Bool := !Word.bit w.mod 6 && w.mod / 8 % 4 == 0
      e.accessAs s plain { Access.rd with tx := e.tx?.isSome } rs (fun ts s =>
        match e.loadAll plain ts s with
        | (.error (r, c), s) => e.fault s c r.lane r.va
        | (.ok vs, s) => e.define s w [⟨w.ty, e.loaded (allU [a, o]) vs⟩]))

def execStG (w : Main) (s : State) : Host.Outcome State Fault Refusal :=
  onUnit s (fun e =>
    let a := e.opnd s .n64 w.a
    let v := e.opB s w
    let o := e.opnd s .i64 w.c
    let n := w.ty.bytes
    let rs : List Req := (e.actors [a, v, o]).map (fun i => ⟨i.1, i.2, e.ea a o i, n, n⟩)
    match e.storeData s w with
    | some s => s
    | none =>
      if (a.val.cls = 2 ∨ o.val.cls = 2) ∧ e.multi then e.unfold s
      else if w.mod / 8 % 4 = 2 ∧ e.owes s then e.park s .drain
      else
        e.access s { Access.wr with tx := e.tx?.isSome } rs (fun ts s =>
          match e.storeAddr s w false n (ts.map (fun t => (e.storeLane (t.1.grp, t.1.lane), t.2.1.tgt, t.2.1.pa))) with
          | some s => s
          | none =>
            match e.storeAll (fun r => leBytes n (e.at_ v (r.grp, r.lane))) ts s with
            | (.error (r, c), s) => e.fault s c r.lane r.va
            | (.ok (), s) => e.done s w))

/-! ### ld.s and st.s (R354) -/

/-- The effective offset as an exact integer. -/
def Exe.spadOff (e : Exe) (a o : TVal) (i : Nat × Nat) : Int := (e.at_ a i : Int) + Ty.i32.toInt (e.at_ o i)

/-- The check of R354 on one offset of `n` bytes. -/
def spadCheck (l : Launch) (off : Int) (n : Nat) : Option Code :=
  if off % n ≠ 0 then some .misaligned
  else if off < 0 ∨ (l.spad : Int) < off + n then some .spadRange
  else none

/-- The first failing item, and its code. -/
def spadFail (l : Launch) (n : Nat) : List ((Nat × Nat) × Int) → Option ((Nat × Nat) × Int × Code)
  | [] => none
  | (i, off) :: r =>
    match spadCheck l off n with
    | some c => some (i, off, c)
    | none => spadFail l n r

def execLdS (w : Main) (s : State) : Host.Outcome State Fault Refusal :=
  onUnit s (fun e =>
    let a := e.opnd s .n32 w.a
    let o := e.opnd s .i32 w.b
    let n := w.ty.bytes
    if !allU [a, o] && e.multi then e.unfold s
    else
      let is := if allU [a, o] then e.items.take 1 else e.items
      let offs := is.map (fun i => (i, e.spadOff a o i))
      match spadFail e.l n offs with
      | some (i, _, c) => e.fault s c i.2
      | none =>
        if offs.any (fun p => e.spadStoresAt p.2.toNat n) then e.park s .drain
        else e.define s w [⟨w.ty, e.loaded (allU [a, o]) (offs.map (fun p => (p.1.2, (s.core e.core).spad.readNat p.2.toNat n)))⟩])

/-- A store to scratchpad follows the group's no-return atomics (Table 8.3 row 1, R355). -/
def execStS (w : Main) (s : State) : Host.Outcome State Fault Refusal :=
  onUnit s (fun e =>
    let a := e.opnd s .n32 w.a
    let v := e.opB s w
    let o := e.opnd s .i32 w.c
    let n := w.ty.bytes
    let is := if allU [a, v, o] && e.th.native.isNone then e.items.take 1 else e.items
    let offs := is.map (fun i => (i, e.spadOff a o i))
    match e.storeData s w with
    | some s => s
    | none =>
      if (a.val.cls = 2 ∨ o.val.cls = 2) ∧ e.multi then e.unfold s
      else
      match spadFail e.l n offs with
      | some (i, _, c) => e.fault s c i.2
      | none =>
        if !(e.owed s).isEmpty then e.park s .drain
        else
        match e.storeAddr s w true n (offs.map (fun p => (e.storeLane p.1, 0, p.2.toNat))) with
        | some s => s
        | none =>
          e.done (offs.foldl (fun s p => e.storeSpad s p.2.toNat (leBytes n (e.at_ v p.1))) s) w)

/-! ### pref and evict (R356) -/

/-- The device address a lane's hint reaches, where it passes every check and no engine owns the line. -/
def Exe.hintTarget (e : Exe) (s : State) (va : Nat) : Option PTarget × State :=
  match translateNow s e.l.tenant e.l.ctx va 1 .rd with
  | (.ok t, s) => (if t.tgt ≠ 0 ∨ s.engineOwned t.pa then none else some t, s)
  | (.error _, s) => (none, s)

/-- A line with an exact entry or record, which a fill would finalise. -/
def hasExact (s : State) (pa : Nat) : Bool :=
  let sl := s.slice (sliceOf pa)
  sl.entries.any (fun x => x.line == lineOf pa) || sl.dir.any (fun x => x.line == lineOf pa)

def execPref (w : Main) (s : State) : Host.Outcome State Fault Refusal :=
  onUnit s (fun e =>
    let a := e.opnd s .n64 w.a
    let is := e.actors [a]
    let s := is.foldl (fun s i =>
      match e.hintTarget s (e.at_ a i) with
      | (some t, s) => if immNat w.b = 0 ∧ !hasExact s t.pa then (l1Load s e.core e.me (e.at_ a i) t 1).2 else s
      | (none, s) => s) s
    e.done s w)

def execEvict (w : Main) (s : State) : Host.Outcome State Fault Refusal :=
  onUnit s (fun e =>
    let a := e.opnd s .n64 w.a
    let s := (e.actors [a]).foldl (fun s i =>
      match e.hintTarget s (e.at_ a i) with
      | (some t, s) => l1Drop s e.core ⟨0, lineOf t.pa⟩ 128
      | (none, s) => s) s
    e.done s w)

end Sys2Proof.Machine
end

