-- ==== Sys2Proof/Machine/Records.lean ====
section
/-! DEFINITION. Tensor records: fields (Table 11.1), formats (Table 11.3), the conditions of sealing (R233), and where an
element lies (R230 to R232). Every function takes the record as its 192 bytes. -/

namespace Sys2Proof.Machine

open Sys2Proof

/-! ### Fields -/

/-- A field of a record. -/
def recNat (r : List Byte) (off n : Nat) : Nat := leNat ((r.drop off).take n)

def recTag (r : List Byte) : Nat := recNat r 0 1
def recRank (r : List Byte) : Nat := recNat r 1 1
def recFmt (r : List Byte) : Nat := recNat r 2 1
def recFlags (r : List Byte) : Nat := recNat r 3 1
def recTileC (r : List Byte) : Nat := recNat r 4 1
def recTileR (r : List Byte) : Nat := recNat r 5 1
def recRlstate (r : List Byte) : Nat := recNat r 6 1
def recSealgen (r : List Byte) : Nat := recNat r 7 1
def recBase (r : List Byte) : Nat := recNat r 8 8
def recExt (r : List Byte) (d : Nat) : Nat := recNat r (0x10 + 4 * d) 4
def recStride (r : List Byte) (d : Nat) : Int := Word.signExtend (recNat r (0x28 + 8 * d) 8) 64
def recOrigin (r : List Byte) (d : Nat) : Nat := recNat r (0x58 + 4 * d) 4
def recScaleBase (r : List Byte) : Nat := recNat r 0x70 8
def recScaleStride (r : List Byte) : Nat := recNat r 0x78 8
def recPad (r : List Byte) : Nat := recNat r 0x80 8
def recConv (r : List Byte) (i : Nat) : Nat := recNat r (0x88 + i) 1
/-- GEXT′: the global extent, or the extent where it is 0. -/
def recGext (r : List Byte) (d : Nat) : Nat := if recNat r (0x90 + 4 * d) 4 = 0 then recExt r d else recNat r (0x90 + 4 * d) 4
def recNewTag (r : List Byte) : Nat := recNat r 0xA4 1
def recNewBase (r : List Byte) : Nat := recNat r 0xA8 8
def recMap (r : List Byte) : Nat := recNat r 0xB0 8

/-- Replace `n` bytes of a record. -/
def recSet (r : List Byte) (off n v : Nat) : List Byte := r.take off ++ leBytes n v ++ r.drop (off + n)

/-- The element type of a format; `none` for the block-tagged format and for no format. -/
def fmtTy (f : Nat) : Option Ty :=
  match f with
  | 0x00 => some .f64 | 0x01 => some .f32 | 0x02 => some .f16 | 0x03 => some .bf16 | 0x04 => some .e4m3
  | 0x05 => some .e5m2 | 0x06 => some .e3m2 | 0x07 => some .e2m3 | 0x08 => some .e2m1 | 0x09 => some .e8m0
  | 0x10 => some .i4 | 0x11 => some .i8 | 0x12 => some .i16 | 0x13 => some .i32 | 0x14 => some .i64
  | 0x18 => some .n4 | 0x19 => some .n8 | 0x1A => some .n16 | 0x1B => some .n32 | 0x1C => some .n64
  | _ => none

/-- The block-tagged format. -/
def recBlock (r : List Byte) : Bool := recFmt r == 0x20

/-- Element width in bits; 8 for the padding element of the block-tagged format (R231). -/
def recBits (r : List Byte) : Nat := match fmtTy (recFmt r) with | some t => t.width | none => 8

/-- Width of the layout's unit in bits: an element, or a block of 32 bytes (R230). -/
def unitBits (r : List Byte) : Nat := if recBlock r then 256 else recBits r

/-- Extent and tile extent of dimension 0 in units. -/
def unitExt0 (r : List Byte) : Nat := if recBlock r then Word.ceilDiv (recExt r 0) 32 else recExt r 0
def unitTileC (r : List Byte) : Nat := if recBlock r then 2 ^ recTileC r / 32 else 2 ^ recTileC r

/-! ### Layout (R232) -/

/-- The higher dimensions as one index. -/
def recHigh (r : List Byte) (c : List Nat) : Nat :=
  c.getD 2 0 + recExt r 2 * (c.getD 3 0 + recExt r 3 * (c.getD 4 0 + recExt r 4 * c.getD 5 0))

def tiles0 (r : List Byte) : Nat := Word.ceilDiv (unitExt0 r) (unitTileC r)
def tiles1 (r : List Byte) : Nat := Word.ceilDiv (recExt r 1) (2 ^ recTileR r)

/-- TileIndex(rec, c); dimension 0 of `c` counts units. -/
def tileIndex (r : List Byte) (c : List Nat) : Nat :=
  c.getD 0 0 / unitTileC r + tiles0 r * (c.getD 1 0 / 2 ^ recTileR r + tiles1 r * recHigh r c)

/-- Number of tiles T. -/
def tileCount (r : List Byte) : Nat := tiles0 r * tiles1 r * recExt r 2 * recExt r 3 * recExt r 4 * recExt r 5

/-- The unit index u under a tag. -/
def unitIndex (r : List Byte) (tag : Nat) (c : List Nat) : Int :=
  let h := recHigh r c
  let x := c.getD 0 0
  let y := c.getD 1 0
  if tag = 0 then ((List.range 6).map (fun d => (c.getD d 0 : Int) * (if d < recRank r then recStride r d else 0))).sum
  else if tag = 1 then ((x + unitExt0 r * (y + recExt r 1 * h) : Nat) : Int)
  else if tag = 2 then ((y + recExt r 1 * (x + unitExt0 r * h) : Nat) : Int)
  else
    let tc := unitTileC r
    let tr := 2 ^ recTileR r
    let b := unitBits r
    let xi := x % tc
    let yi := y % tr
    let q := xi * b / 128
    let xs : Int := if tag = 4 ∧ 1024 ≤ tc * b then (xi : Int) + (((q ^^^ yi % 8 : Nat) : Int) - q) * ((128 / b : Nat) : Int) else xi
    ((tileIndex r c * tc * tr + yi * tc : Nat) : Int) + xs

/-- Units of a coordinate vector: dimension 0 counts blocks in the block-tagged format. -/
def toUnits (r : List Byte) (c : List Nat) : List Nat := if recBlock r then c.mapIdx (fun i x => if i = 0 then x / 32 else x) else c

/-- First byte and bit of a unit, under a tag and base. -/
def unitAddr (r : List Byte) (tag base : Nat) (u : List Nat) : Nat × Nat :=
  let bit := unitIndex r tag u * unitBits r
  (Word.wrapInt ((base : Int) + bit / 8) 64, (bit % 8).toNat)

/-- Byte address of the scale word of an element's block. -/
def scaleAddr (r : List Byte) (c : List Nat) : Nat :=
  Word.wrapInt ((recScaleBase r : Int) + recScaleStride r * (c.getD 1 0 + recExt r 1 * recHigh r c) + 2 * (c.getD 0 0 / 32)) 64

/-- Element format of a block by its scale word: width and type (R215). -/
def blockTy (w : Nat) : Ty :=
  match w / 256 % 4 with
  | 0 => .e4m3 | 1 => .e5m2 | 2 => .e2m3 | _ => .e2m1

/-- Where an element lies: first byte, bit in it, and width; `scale` is its block's scale word. -/
structure ElemPlace where
  addr : Nat
  bit  : Nat
  bits : Nat
  deriving DecidableEq, Repr

def elemAt (r : List Byte) (tag base scale : Nat) (c : List Nat) : ElemPlace :=
  let (a, bit) := unitAddr r tag base (toUnits r c)
  if recBlock r then
    let b := (blockTy scale).width
    let k := c.getD 0 0 % 32 * b
    ⟨(a + k / 8) % 2 ^ 64, k % 8, b⟩
  else ⟨a, bit, recBits r⟩

/-- Bytes that hold an element. -/
def ElemPlace.len (p : ElemPlace) : Nat := (p.bit + p.bits + 7) / 8

/-- The element's bits of the bytes that hold it. -/
def ElemPlace.get (p : ElemPlace) (bs : List Byte) : Nat := leNat bs / 2 ^ p.bit % 2 ^ p.bits

/-- The bytes with the element's bits replaced. -/
def ElemPlace.put (p : ElemPlace) (bs : List Byte) (v : Nat) : List Byte :=
  let x := leNat bs
  leBytes bs.length (x - x / 2 ^ p.bit % 2 ^ p.bits * 2 ^ p.bit + v % 2 ^ p.bits * 2 ^ p.bit)

/-- A coordinate vector inside the tensor (R231). -/
def inside (r : List Byte) (c : List Int) : Bool := (List.range 6).all (fun d => decide (0 ≤ c.getD d 0) && decide (c.getD d 0 < recExt r d))

/-- M[d] of R231. -/
def recM (r : List Byte) : Nat → Nat
  | 0 => 1
  | d + 1 => recM r d * recGext r d

/-- The global logical element index, modulo 2^64. -/
def globalIndex (r : List Byte) (c : List Int) : Nat :=
  Word.wrapInt (((List.range (recRank r)).map (fun d => ((recOrigin r d : Int) + c.getD d 0) * recM r d)).sum) 64

/-! ### Sealing (R233) -/

/-- Alignment of BASE. -/
def baseAlign (r : List Byte) : Nat := if recBlock r then 32 else if recBits r < 8 then 1 else recBits r / 8

/-- Output extents of an implicit convolution (R249). -/
def convOut (r : List Byte) (d : Nat) : Int :=
  -- d = 1: width with KW SW DW PW at 0 2 4 6; d = 2: height with KH SH DH PH at 1 3 5 7
  let i := d - 1
  ((recExt r d : Int) + 2 * recConv r (6 + i) - recConv r (4 + i) * ((recConv r i : Int) - 1) - 1) / (recConv r (2 + i) : Int) + 1

/-- The conditions of R233, without that on RLSTATE. -/
def recordOk (r : List Byte) : Bool :=
  let b := recBits r
  let flags := recFlags r
  decide (recTag r ≤ 4) && decide (1 ≤ recRank r) && decide (recRank r ≤ 6) && ((fmtTy (recFmt r)).isSome || recBlock r) &&
  decide (recTileC r ≤ 8) && decide (recTileR r ≤ 8) && decide (flags < 8) && decide (recSealgen r < 128) &&
  (List.range 6).all (fun d => decide (1 ≤ recExt r d) && (decide (d < recRank r) || recExt r d == 1)) &&
  recBase r % baseAlign r == 0 && (Word.bit flags 1 == recBlock r) && (!recBlock r || (recScaleBase r % 2 == 0 && decide (5 ≤ recTileC r))) &&
  (b != 6 || decide (2 ≤ recTileC r)) && (b != 4 || decide (1 ≤ recTileC r)) &&
  (recTag r != 0 || decide (8 ≤ b) || (List.range (recRank r)).all (fun d => recStride r d * b % (if b = 6 then 24 else 8) == 0)) &&
  (!Word.bit flags 2 || (recRank r == 4 && decide (1 ≤ recConv r 0) && decide (recConv r 0 ≤ 16) && decide (1 ≤ recConv r 1) &&
    decide (recConv r 1 ≤ 16) && [2, 3, 4, 5].all (fun i => decide (1 ≤ recConv r i) && decide (recConv r i ≤ 8)) &&
    decide (recConv r 6 ≤ 15) && decide (recConv r 7 ≤ 15) && decide (1 ≤ convOut r 1) && decide (1 ≤ convOut r 2))) &&
  recNat r 0xA5 3 == 0 && recNat r 0xB8 8 == 0

/-- All of R233. -/
def sealOk (r : List Byte) : Bool := recordOk r && recRlstate r == 0

/-- A handle (R234). -/
def handleOf (gen va : Nat) : Nat := gen % 128 * 2 ^ 57 + va % 2 ^ 57 / 64 * 64
def handleVa (h : Nat) : Nat := h % 2 ^ 57 / 64 * 64
def handleGen (h : Nat) : Nat := h / 2 ^ 57 % 128

/-- A record answers a handle: sealed, with its generation (R235). -/
def answers (r : List Byte) (h : Nat) : Bool := Word.bit (recFlags r) 0 && recSealgen r % 128 == handleGen h

/-- T agrees with FMT (R359). -/
def tyAgrees (r : List Byte) (t : Ty) : Bool :=
  match fmtTy (recFmt r) with
  | none => t == .b32
  | some f =>
    if f.width < 8 then t == .b32
    else t == f || (t == .b32 && (f.width == 32 || (decide (f.width ≤ 16) && (f.isInt || f == .e4m3 || f == .e5m2)))) ||
      (t == .b64 && f.width == 64)

/-! ### The conversion bitmap (R238, R239) -/

/-- Address of the bitmap word that holds a tile's entry, and its first bit. -/
def mapPlace (map tile : Nat) : Nat × Nat := ((map + 8 * (tile / 32)) % 2 ^ 64, 2 * (tile % 32))

/-- Span of a layout's storage: first byte, and the byte after the last (R237). -/
def storageSpan (r : List Byte) (tag base : Nat) : Nat × Nat :=
  let n := if tag = 3 ∨ tag = 4 then tileCount r * unitTileC r * 2 ^ recTileR r
    else unitExt0 r * recExt r 1 * recExt r 2 * recExt r 3 * recExt r 4 * recExt r 5
  (base, base + (n * unitBits r + 7) / 8)

end Sys2Proof.Machine
end

