-- ==== Sys2Proof/Machine/Tensor.lean ====
section
/-! DEFINITION. Tensor instructions (R357 to R364): sealing, handles and the record cache (R234 to R236), element
accesses with redirection (R239, R360), and the start of a relayout (R237). -/

namespace Sys2Proof.Machine

open Sys2Proof

/-! ### Lanes inside a transaction that may not execute an instruction -/

/-- An instruction that Table 9.7 calls UNSUPPORTED in a transaction: its lanes abort, and it is not performed. -/
def Exe.unsupported (e : Exe) (s : State) (w : Main) (tys : List Ty) : State :=
  let s := abortLanes s e.l.id e.g.first e.act 4
  e.define s w (tys.map (fun t => ⟨t, .u 0⟩))

/-- Unless a transaction is open. -/
def Exe.noTx (e : Exe) (s : State) (w : Main) (tys : List Ty) (f : Unit → State) : State :=
  if e.tx?.isSome then e.unsupported s w tys else f ()

/-! ### Handles and the record cache (R235, R236) -/

/-- A sealed record in a cluster's cache. -/
def cachedRec (s : State) (cl t k va : Nat) : Option (List Byte) :=
  ((s.cluster cl).recs.find? (fun r => r.1 == t && r.2.1 == k && r.2.2.1 == va)).map (fun r => r.2.2.2)

/-- Put a record in front of a cluster's cache of 64. -/
def cacheRec (s : State) (cl t k va : Nat) (bs : List Byte) : State :=
  let c := s.cluster cl
  s.setCluster cl { c with recs := ((t, k, va, bs) :: c.recs.filter (fun r => !(r.1 == t && r.2.1 == k && r.2.2.1 == va))).take 64 }

/-- Remove a record from every cache of the context. -/
def dropRec (s : State) (t k va : Nat) : State :=
  { s with clusters := s.clusters.map (fun p => (p.1, { p.2 with recs := p.2.recs.filter (fun r => !(r.1 == t && r.2.1 == k && r.2.2.1 == va)) })) }

/-- Replace a record in every cache of the context that holds it. -/
def updateRec (s : State) (t k va : Nat) (bs : List Byte) : State :=
  { s with clusters := s.clusters.map (fun p => (p.1, { p.2 with recs := p.2.recs.map (fun r =>
      if r.1 = t ∧ r.2.1 = k ∧ r.2.2.1 = va then (t, k, va, bs) else r) })) }

/-- Requests for the 192 bytes of a record, which may straddle a page. -/
def recReqs (grp lane va : Nat) : List Req := (pageParts 2 va 192).map (fun p => ⟨grp, lane, p.1, p.2, 1⟩)

/-- Read the record whose requests have these targets. -/
def readParts (s : State) (me : Option GroupRef) : List (Req × PTarget × Bool) → List Byte × State
  | [] => ([], s)
  | t :: ts =>
    let (b, s) := s.readFor me t.2.1 t.1.n
    let (r, s) := readParts s me ts
    (b ++ r, s)

/-- The fault of a lane, in the form in which later checks hold it while they look for one of a lower lane (R351). -/
def pendFault (i : Nat × Nat) (c : Code) (va : Nat := 0) : Option (Req × Code) := some (⟨i.1, i.2, va, 0, 1⟩, c)

/-- The items that come before the one whose fault is pending: only theirs can be raised instead of it. -/
def beforeFault {α : Type} (item : α → Nat × Nat) (pre : Option (Req × Code)) (xs : List α) : List α :=
  match pre with
  | some (r, _) => xs.takeWhile (fun x => item x != (r.grp, r.lane))
  | none => xs

/-- Every check has been made: the pending fault is raised, or the access goes on. -/
def Exe.orFault (e : Exe) (s : State) (pre : Option (Req × Code)) (go : State) : State :=
  match pre with
  | some (r, c) => e.fault s c r.lane r.va
  | none => go

/-- The records that the lanes' handles name: from the cache, or re-read and checked again (R236). The first lane whose
record breaks R233 has TN_RECORD, and the first whose record is not sealed with its generation TN_STALE; the later checks are made of
the lanes before it (R351). -/
def Exe.recordsOr (e : Exe) (s : State) (hs : List ((Nat × Nat) × Nat)) (pre : Option (Req × Code))
    (go : (Nat → List Byte) → Option (Req × Code) → State → State) : State :=
  let cl := clusterOf e.core
  let hit (h : Nat) : Option (List Byte) := cachedRec s cl e.l.tenant e.l.ctx (handleVa h)
  let pre := match hs.find? (fun h => match hit h.2 with | some r => !answers r h.2 | none => false) with
    | some h => pendFault h.1 .tnStale (handleVa h.2)
    | none => pre
  let hs := beforeFault Prod.fst pre hs
  let miss := (hs.filter (fun h => (hit h.2).isNone)).foldl
    (fun (acc : List ((Nat × Nat) × Nat)) h => if acc.any (fun x => handleVa x.2 == handleVa h.2) then acc else acc ++ [h]) []
  e.access s .rd (miss.flatMap (fun h => recReqs h.1.1 h.1.2 (handleVa h.2))) (fun ts s =>
    let (tbl, s) := miss.foldl (fun (acc : List (Nat × List Byte) × State) h =>
      let mine := ts.filter (fun t => decide (handleVa h.2 ≤ t.1.va) && decide (t.1.va < handleVa h.2 + 192))
      let (bs, s) := readParts acc.2 e.me mine
      (acc.1 ++ [(handleVa h.2, bs)], s)) ([], s)
    let rec_ (h : Nat) : List Byte :=
      match tbl.find? (fun x => x.1 == handleVa h) with
      | some x => x.2
      | none => (hit h).getD []
    match hs.find? (fun h => !answers (rec_ h.2) h.2 || (tbl.any (fun x => x.1 == handleVa h.2) && !recordOk (rec_ h.2))) with
    | some h => go rec_ (pendFault h.1 (if answers (rec_ h.2) h.2 then .tnRecord else .tnStale) (handleVa h.2)) s
    | none => go rec_ pre (tbl.foldl (fun s x => cacheRec s cl e.l.tenant e.l.ctx x.1 x.2) s)) pre

/-- The records of a form whose remaining checks no lane's operands decide. -/
def Exe.records (e : Exe) (s : State) (hs : List ((Nat × Nat) × Nat)) (go : (Nat → List Byte) → State → State) : State :=
  e.recordsOr s hs none (fun rec_ pre s => e.orFault s pre (go rec_ s))

/-! ### tnseal and tnflush (R234, R236, R358)

The writes of these and of `tnrelay` are package-scope releases: they wait for the group's stores and no-return atomics (R183). -/

/-- Seal one record whose bytes have these targets; the handle, or `none` where it breaks R233. -/
def Exe.seal (e : Exe) (s : State) (va : Nat) (ts : List (Req × PTarget × Bool)) : Option Nat × State :=
  let (bs, s) := readParts s e.me ts
  match ts with
  | [] => (none, s)
  | t :: _ =>
    if Word.bit (recFlags bs) 0 then (some (handleOf (recSealgen bs) va), s)
    else if !sealOk bs then (none, s)
    else
      let gen := (recSealgen bs + 1) % 128
      let p := t.2.1
      let s := e.store s ⟨p.tgt, p.pa + 3⟩ (leBytes 1 (recFlags bs + 1))
      (some (handleOf gen va), e.store s ⟨p.tgt, p.pa + 7⟩ (leBytes 1 gen))

/-- Seal lane by lane; the values returned, or the first failing request. -/
def Exe.sealAll (e : Exe) (r : TVal) (ts : List (Req × PTarget × Bool)) : List (Nat × Nat) → State → Except (Nat × Nat) (List (Nat × Nat)) × State
  | [], s => (.ok [], s)
  | i :: is, s =>
    let va := e.at_ r i
    match e.seal s va (ts.filter (fun t => t.1.grp == i.1 && t.1.lane == i.2)) with
    | (none, s) => (.error i, s)
    | (some h, s) =>
      match Exe.sealAll e r ts is s with
      | (.ok vs, s) => (.ok ((i.2, h) :: vs), s)
      | (.error i, s) => (.error i, s)

def execTnseal (w : Main) (s : State) : Host.Outcome State Fault Refusal :=
  onUnit s (fun e =>
    let r := e.opnd s .n64 w.a
    e.noTx s w [w.ty] (fun _ =>
      if r.val.cls ≠ 0 ∧ e.multi then e.unfold s
      else if e.owes s then e.park s .drain
      else
        let is := e.actors [r]
        let pre := match is.find? (fun i => e.at_ r i % 64 ≠ 0) with
          | some i => pendFault i .misaligned (e.at_ r i)
          | none => none
        let is := beforeFault id pre is
        e.access s .wr (is.flatMap (fun i => recReqs i.1 i.2 (e.at_ r i))) (fun ts s =>
          match e.sealAll r ts is s with
          | (.ok vs, t) => e.orFault s pre (e.define t w [⟨w.ty, e.loaded (allU [r]) vs⟩])
          | (.error i, _) => e.fault s .tnRecord i.2 (e.at_ r i)) pre))  -- no lane's seal takes effect (R351)

def execTnflush (w : Main) (s : State) : Host.Outcome State Fault Refusal :=
  onUnit s (fun e =>
    let h := e.opnd s .h w.a
    e.noTx s w [] (fun _ =>
      if h.val.cls ≠ 0 ∧ e.multi then e.unfold s
      else if e.owes s then e.park s .drain
      else
        let v := e.scalar h
        let at_ := (e.g.first, faultLane e.uid)
        e.records s [(at_, v)] (fun rec_ s =>
          if recRlstate (rec_ v) = 1 then e.faultAll s .tnRelayBusy (handleVa v)
          else
            e.access s .wr [⟨at_.1, at_.2, handleVa v + 3, 1, 1⟩] (fun ts s =>
              let s := ts.foldl (fun s t => e.store s t.2.1 (leBytes 1 (recFlags (rec_ v) / 2 * 2))) s
              e.done (dropRec s e.l.tenant e.l.ctx (handleVa v)) w))))

/-! ### Element accesses (R239, R360) -/

/-- One lane's access: handle, coordinates, record, and where they stand. -/
structure LaneElem where
  item : Nat × Nat
  h    : Nat
  c    : List Int
  rec_ : List Byte
  deriving DecidableEq, Repr

def LaneElem.inside (x : LaneElem) : Bool := Machine.inside x.rec_ x.c
def LaneElem.nats (x : LaneElem) : List Nat := x.c.map Int.toNat
def LaneElem.tile (x : LaneElem) : Nat := tileIndex x.rec_ (toUnits x.rec_ x.nats)

/-- Coordinate operands as values. -/
def Exe.coords (e : Exe) (s : State) (os : List Opnd) : List TVal := os.map (e.opnd s .i64)

def Exe.laneElems (e : Exe) (h : TVal) (cs : List TVal) (rec_ : Nat → List Byte) (is : List (Nat × Nat)) : List LaneElem :=
  is.map (fun i => ⟨i, e.at_ h i, cs.map (fun c => Ty.i64.toInt (e.at_ c i)), rec_ (e.at_ h i)⟩)

/-- What was read for an element, among the lanes' values in the order of their elements. -/
def readOf (xs : List LaneElem) (vs : List (Nat × Nat)) (x : LaneElem) : Nat :=
  match (xs.zip vs).find? (fun p => p.1.item == x.item) with
  | some p => p.2.2
  | none => 0

/-- Read a small number for each of some lanes, before their elements: bitmap words and scale words. -/
def Exe.readEach (e : Exe) (s : State) (xs : List (LaneElem × Nat)) (n al : Nat) (pre : Option (Req × Code))
    (go : (LaneElem → Nat) → State → State) : State :=
  e.access s { Access.rd with tx := e.tx?.isSome } (xs.map (fun x => ⟨x.1.item.1, x.1.item.2, x.2, n, al⟩)) (fun ts s =>
    match e.loadAll false ts s with
    | (.error (r, c), s) => e.fault s c r.lane r.va
    | (.ok vs, s) => go (readOf (xs.map Prod.fst) vs) s) pre

/-- The authoritative copy of each lane's tile while a relayout runs: tag and base; a lane whose tile is in CONVERTING
parks its unit (R239). -/
def Exe.redirect (e : Exe) (s : State) (xs : List LaneElem) (pre : Option (Req × Code)) (go : (LaneElem → Nat × Nat) → State → State) : State :=
  let rl := xs.filter (fun x => recRlstate x.rec_ == 1)
  let old (x : LaneElem) : Nat × Nat := (recTag x.rec_, recBase x.rec_)
  if rl.isEmpty then go old s
  else
    e.access s .rd (rl.map (fun x => ⟨x.item.1, x.item.2, (mapPlace (recMap x.rec_) x.tile).1, 8, 8⟩)) (fun ts s =>
      let (vs, s) := readLanes (fun s t => let (b, s) := s.readFor e.me t.2.1 8; (some b, s)) ts s
      let entry (x : LaneElem) : Nat :=
        readOf rl vs x / 2 ^ (mapPlace (recMap x.rec_) x.tile).2 % 4
      match rl.find? (fun x => entry x == 1) with
      | some x => e.park s (.tileConv (handleVa x.h) x.tile)
      | none => go (fun x => if recRlstate x.rec_ = 1 ∧ entry x = 2 then (recNewTag x.rec_, recNewBase x.rec_) else old x) s) pre

/-- Note the tiles that lanes of a transaction reach (R206). -/
def Exe.noteTiles (e : Exe) (s : State) (xs : List LaneElem) : State :=
  if e.tx? = some false then
    let g := s.group e.l.id e.g.first
    s.setGroup e.l.id e.g.first { g with tx := { g.tx with tiles := g.tx.tiles ++ xs.map (fun x =>
      ⟨handleVa x.h, x.tile, maskOf [x.item.2]⟩) } }
  else s

/-- Requests for the bytes of an element: whole where it is 8 bits or wider, byte by byte below. -/
def elemReqs (x : LaneElem) (p : ElemPlace) : List Req :=
  if 8 ≤ p.bits then [⟨x.item.1, x.item.2, p.addr, p.bits / 8, p.bits / 8⟩]
  else (List.range p.len).map (fun i => ⟨x.item.1, x.item.2, (p.addr + i) % 2 ^ 64, 1, 1⟩)

/-- The lanes' elements and what is read before them: the copy, and the scale word of a block-tagged tensor. -/
def Exe.elements (e : Exe) (s : State) (xs : List LaneElem) (pre : Option (Req × Code)) (go : (LaneElem → ElemPlace × Nat) → State → State) : State :=
  let ins := xs.filter LaneElem.inside
  e.redirect s ins pre (fun copy s =>
    let blk := ins.filter (fun x => recBlock x.rec_)
    e.readEach s (blk.map (fun x => (x, scaleAddr x.rec_ x.nats))) 2 2 pre (fun scale s =>
      go (fun x => let sc := if recBlock x.rec_ then scale x else 0
                   (elemAt x.rec_ (copy x).1 (copy x).2 sc x.nats, sc)) (e.noteTiles s ins)))

/-- The fault of the first lane whose record does not agree with T (R359), before those that are pending. -/
def badFormat (ty : Ty) (xs : List LaneElem) (pre : Option (Req × Code)) : Option (Req × Code) :=
  match xs.find? (fun x => !tyAgrees x.rec_ ty) with
  | some y => pendFault y.item .tnFormat
  | none => pre

/-- The value of a lane outside the tensor (R360). -/
def padValue (r : List Byte) : Nat := recPad r % 2 ^ recBits r + (if recBlock r then 0x007F * 2 ^ 16 else 0)

/-- Coordinate operands c0 to c5 of the forms with one extension word. -/
def coordOpnds (w : Main) (x : X4) : List Opnd := [w.b, w.c, x.a, x.b, x.c, x.d]

def execTnld (w : Main) (x : X4) (s : State) : Host.Outcome State Fault Refusal :=
  onUnit s (fun e =>
    let h := e.opnd s .h w.a
    let cs := e.coords s (coordOpnds w x)
    let uni := allU (h :: cs)
    if !uni && e.multi then e.unfold s
    else
      let is := e.actors (h :: cs)
      e.recordsOr s (is.map (fun i => (i, e.at_ h i))) none (fun rec_ pre s =>
        let pre := badFormat w.ty (e.laneElems h cs rec_ (beforeFault id pre is)) pre
        let xs := e.laneElems h cs rec_ (beforeFault id pre is)
        e.elements s xs pre (fun place s =>
            let ins := xs.filter LaneElem.inside
            let plain : Bool := w.mod / 8 % 4 == 0 && ins.all (fun y => recRlstate y.rec_ == 0)
            e.accessAs s plain { Access.rd with tx := e.tx?.isSome } (ins.flatMap (fun y => elemReqs y (place y).1)) (fun ts s => e.orFault s pre (
              match e.loadAll plain ts s with
              | (.error (r, c), s) => e.fault s c r.lane r.va
              | (.ok vs, s) =>
                let val (y : LaneElem) : Nat :=
                  if y.inside then
                    let b := (vs.filter (fun v => v.1 == y.item.2)).map Prod.snd
                    let whole := if 8 ≤ (place y).1.bits then b.headD 0 else leNat (b.map (BitVec.ofNat 8))
                    (if 8 ≤ (place y).1.bits then whole else whole / 2 ^ (place y).1.bit % 2 ^ (place y).1.bits) + (place y).2 * 2 ^ 16
                  else padValue y.rec_
                e.define s w [⟨w.ty, e.loaded uni (xs.map (fun y => (y.item.2, val y)))⟩])) pre)))

/-- Store elements: whole ones as bytes, narrow ones by an indivisible read-modify-write each. -/
def Exe.putElems (e : Exe) (place : LaneElem → ElemPlace × Nat) (v : TVal) (ts : List (Req × PTarget × Bool)) :
    List LaneElem → State → Except (Req × Code) Unit × State
  | [], s => (.ok (), s)
  | y :: ys, s =>
    let p := (place y).1
    let mine := ts.filter (fun t => t.1.grp == y.item.1 && t.1.lane == y.item.2)
    let rest := ts.filter (fun t => ys.any (fun z => t.1.grp == z.item.1 && t.1.lane == z.item.2))
    let val := e.at_ v y.item
    let res : Except (Req × Code) Unit × State :=
      if 8 ≤ p.bits then e.storeAll (fun r => leBytes r.n val) mine s rest
      else
        match e.loadAll false mine s with
        | (.error f, s) => (.error f, s)
        | (.ok vs, s) =>
          let new := p.put (vs.map (fun b => BitVec.ofNat 8 b.2)) val
          e.storeAll (fun r => [new.getD ((r.va + 2 ^ 64 - p.addr) % 2 ^ 64) 0]) mine s rest
    match res with
    | (.ok (), s) => Exe.putElems e place v ts ys s
    | (.error f, s) => (.error f, s)

def execTnst (w : Main) (x y : X4) (s : State) : Host.Outcome State Fault Refusal :=
  onUnit s (fun e =>
    let h := e.opnd s .h w.a
    let v := e.opnd s w.ty w.b
    let cs := e.coords s [w.c, x.a, x.b, x.c, x.d, y.a]
    let is := e.actors (h :: v :: cs)
    match e.storeData s w with
    | some s => s
    | none =>
    if (h :: cs).any (fun c => c.val.cls == 2) && e.multi then e.unfold s
    else if w.mod / 8 % 4 = 2 ∧ e.owes s then e.park s .drain
    else
      e.recordsOr s (is.map (fun i => (i, e.at_ h i))) none (fun rec_ pre s =>
        let pre := badFormat w.ty (e.laneElems h cs rec_ (beforeFault id pre is)) pre
        let xs := e.laneElems h cs rec_ (beforeFault id pre is)
        e.elements s xs pre (fun place s =>
            let ins := xs.filter LaneElem.inside
            e.access s { Access.wr with tx := e.tx?.isSome } (ins.flatMap (fun y => elemReqs y (place y).1)) (fun ts s => e.orFault s pre (
              match e.storeAddr s w false ((ts.head?.map (fun t => t.1.n)).getD 1)
                (ts.map (fun t => (e.storeLane (t.1.grp, t.1.lane), t.2.1.tgt, t.2.1.pa)))
                ((ins.filter (fun y => decide ((place y).1.bits < 8))).map (fun y => (e.storeLane y.item, (place y).1.bit, (place y).1.bits))) with
              | some s => s
              | none =>
                match e.putElems place v ts ins s with
                | (.error (r, c), s) => e.fault s c r.lane r.va
                | (.ok (), s) => e.done s w)) pre)))

/-! ### tninfo, tnidx, tnpref (R361 to R363) -/

/-- Table 17.2 for k below 24. -/
def tnField (r : List Byte) (k : Nat) : Nat :=
  if k = 0 then recNat r 0 8
  else if k = 1 then recBase r
  else if k ≤ 7 then recExt r (k - 2)
  else if k ≤ 13 then recNat r (0x28 + 8 * (k - 8)) 8
  else if k ≤ 19 then recOrigin r (k - 14)
  else if k = 20 then recScaleBase r
  else if k = 21 then recScaleStride r
  else if k = 22 then recPad r
  else recNat r 0x88 8

def execTninfo (w : Main) (s : State) : Host.Outcome State Fault Refusal :=
  onUnit s (fun e =>
    let h := e.opnd s .h w.a
    let k := immNat w.b
    if h.val.cls ≠ 0 ∧ e.multi then e.unfold s
    else
      let is := if h.val.cls = 0 then e.items.take 1 else e.items
      let uni : Bool := h.val.cls == 0
      e.recordsOr s (is.map (fun i => (i, e.at_ h i))) none (fun rec_ pre s =>
        let is := beforeFault id pre is
        if k < 24 then e.orFault s pre (e.define s w [⟨w.ty, e.loaded uni (is.map (fun i => (i.2, tnField (rec_ (e.at_ h i)) k)))⟩])
        else
          e.access s .rd (is.flatMap (fun i => [⟨i.1, i.2, handleVa (e.at_ h i) + 6, 1, 1⟩, ⟨i.1, i.2, handleVa (e.at_ h i) + 0xA4, 1, 1⟩]))
            (fun ts s => e.orFault s pre (
              let (vs, s) := readLanes (fun s t => let (b, s) := s.readFor e.me t.2.1 1; (some b, s)) ts s
              let val (i : Nat × Nat) : Nat :=
                let b := (vs.filter (fun v => v.1 == i.2)).map Prod.snd
                b.getD 0 0 % 2 + 256 * b.getD 1 0
              e.define s w [⟨w.ty, e.loaded uni (is.map (fun i => (i.2, val i)))⟩])) pre))

/-- Base and step of the index where the handle is U and every coordinate U or A (R362). -/
def affineIndex (r : List Byte) (cs : List TVal) : Option (Word × Word) :=
  match cs.mapM (fun (c : TVal) => c.val.affine) with
  | none => none
  | some vs =>
    let sum (f : Word × Word → Word) : Word :=
      ((List.range (recRank r)).map (fun d => f (vs.getD d (0, 0)) * BitVec.ofNat 64 (recM r d))).sum
    let orig : Word := BitVec.ofNat 64 (((List.range (recRank r)).map (fun d => recOrigin r d * recM r d)).sum)
    some (orig + sum Prod.fst, sum Prod.snd)

def execTnidx (w : Main) (x : X4) (s : State) : Host.Outcome State Fault Refusal :=
  onUnit s (fun e =>
    let h := e.opnd s .h w.a
    let cs := e.coords s (coordOpnds w x)
    let uni := allU (h :: cs)
    let aff : Bool := h.val.cls == 0 && cs.all (fun c => decide (c.val.cls ≤ 1))
    if !aff && e.multi then e.unfold s
    else
      let is := if aff then e.items.take 1 else e.items
      e.records s (is.map (fun i => (i, e.at_ h i))) (fun rec_ s =>
        let at_ (i : Nat × Nat) : Nat := globalIndex (rec_ (e.at_ h i)) (cs.map (fun c => Ty.i64.toInt (e.at_ c i)))
        if aff && !uni then
          match is, affineIndex (rec_ (e.at_ h (is.headD (0, 0)))) cs with
          | _ :: _, some (b, st) => e.define s w [⟨w.ty, .a b st⟩]
          | _, _ => e.define s w [⟨w.ty, .u 0⟩]
        else e.define s w [⟨w.ty, e.loaded uni (is.map (fun i => (i.2, at_ i)))⟩]))

def execTnpref (w : Main) (x : X4) (s : State) : Host.Outcome State Fault Refusal :=
  onUnit s (fun e =>
    let h := e.opnd s .h w.a
    let cs := e.coords s (coordOpnds w x)
    let is := if allU (h :: cs) then e.items.take 1 else e.items
    e.records s (is.map (fun i => (i, e.at_ h i))) (fun _ s => e.done s w))

/-! ### tnrelay (R237, R364) -/

/-- Two spans share a byte. -/
def spansMeet (a b : Nat × Nat) : Bool := decide (a.1 < b.2) && decide (b.1 < a.2)

/-- The conditions of R237 on a record and a new layout. -/
def relayOk (r : List Byte) (t nb map : Nat) : Bool :=
  let old := storageSpan r (recTag r) (recBase r)
  let new := storageSpan r t nb
  let bm := (map, map + Word.ceilDiv (tileCount r) 32 * 8)
  decide (1 ≤ recTag r) && decide (recTag r ≤ 4) && decide (1 ≤ t) && decide (t ≤ 4) && nb % baseAlign r == 0 && map % 8 == 0 &&
    !spansMeet old new && !spansMeet old bm && !spansMeet new bm

def execTnrelay (w : Main) (x : X4) (s : State) : Host.Outcome State Fault Refusal :=
  onUnit s (fun e =>
    let h := e.opnd s .h w.a
    let t := e.opnd s .n32 w.b
    let nb := e.opnd s .n64 w.c
    let map := e.opnd s .n64 x.a
    let cnt := e.opnd s .n64 x.b
    let inc := e.opnd s .n32 x.c
    e.noTx s w [] (fun _ =>
      if !allU [h, t, nb, map, cnt, inc] && e.multi then e.unfold s
      else if e.owes s then e.park s .drain
      else
        let at_ := (e.g.first, faultLane e.uid)
        let v := e.scalar h
        let ca := e.scalar cnt
        if ca % 8 ≠ 0 then e.faultAll s .misaligned ca
        else
          e.records s [(at_, v)] (fun rec_ s =>
            e.access s .wr [⟨at_.1, at_.2, ca, 8, 8⟩] (fun cts s =>
              match cts with
              | [] => s
              | ct :: _ =>
                if ct.2.1.tgt ≠ 0 then e.faultAll s .engineFormat ca
                else
                  let r := rec_ v
                  if recRlstate r = 1 then e.faultAll s .tnRelayBusy (handleVa v)
                  else if !relayOk r (e.scalar t) (e.scalar nb) (e.scalar map) then e.faultAll s .tnRecord (handleVa v)
                  else
                    e.access s .wr (recReqs at_.1 at_.2 (handleVa v)) (fun ts s =>
                      let new := recSet (recSet (recSet (recSet r 0xA4 1 (e.scalar t)) 0xA8 8 (e.scalar nb)) 0xB0 8 (e.scalar map)) 6 1 1
                      let s := ts.foldl (fun s q => e.store s q.2.1 ((new.drop (q.1.va - handleVa v)).take q.1.n)) s
                      let s := updateRec s e.l.tenant e.l.ctx (handleVa v) new
                      let (id, s) := s.fresh
                      let p := match ts with | q :: _ => q.2.1 | [] => ⟨0, 0⟩
                      let job : Relayout :=
                        { id := id, tenant := e.l.tenant, ctx := e.l.ctx, record := ⟨handleVa v, r⟩, recPa := p, newTag := e.scalar t,
                          newBase := e.scalar nb, map := e.scalar map, counter := (ct.2.1, e.scalar inc), total := tileCount r,
                          queued := 0, tiles := [], active := [], done := 0, stopped := false, walks := [], parked := false,
                          cluster := clusterOf e.core }
                      e.done { s with relayouts := s.relayouts ++ [job] } w)))))

end Sys2Proof.Machine
end

