-- ==== Sys2Proof/Machine/Engines.lean ====
section
/-! DEFINITION. Engine commands, the sequencer, batches and counters as a group issues them (R162 to R164, R242 to R247,
R365 to R371). -/

namespace Sys2Proof.Machine

open Sys2Proof

/-! ### Engines and the range checker -/

/-- A command has bytes left to move; one that has none waits for its counter alone. -/
def Command.moving (c : Command) : Bool := c.todo != some []

/-- The commands that a core's range checker holds (R164). -/
def State.held (s : State) (core : Nat) : List Command := s.commands.filter (fun c => c.core == core && c.moving)

/-- A span of bytes as its 64-byte blocks: first block and the block after the last. -/
def blocksOf (r : Nat × Nat) : Nat × Nat := (r.1 / 64, (r.1 + r.2 + 63) / 64)

/-- Two spans share a block. -/
def blocksMeet (a b : Nat × Nat) : Bool := spansMeet (blocksOf a) (blocksOf b)

/-- The reads of a command that are compared with another: those of a matrix operation from a ring that the other fills
are ordered by HEAD and TAIL instead (R381). -/
def Command.readsAgainst (c e : Command) : List (Nat × Nat) :=
  match c.kind, e.ring with
  | .matrix rings, some (k, _) => ((c.reads.zip rings).filter (fun r => r.2 != k)).map Prod.fst
  | _, _ => c.reads

/-- A command must wait for an earlier one of its core (R164). -/
def Command.behind (c e : Command) : Bool :=
  (c.readsAgainst e).any (fun r => e.writes.any (blocksMeet r)) ||
    c.writes.any (fun r => e.writes.any (blocksMeet r) || (e.readsAgainst c).any (blocksMeet r))

/-- The copy engine that takes the next copy of a core, in rotation (R242); `none` where the tenant owns none. -/
def pickEngine (s : State) (t core : Nat) : Option Nat × State :=
  let own := (s.tenant t).engines
  let near := own.filter (fun e => e / 8 == dieOf core)
  let cs := if near.isEmpty then own else near
  let cl := s.cluster (clusterOf core)
  match (cs.find? (fun e => decide (cl.rot ≤ e))).or cs.head? with
  | some e => (some e, s.setCluster (clusterOf core) { cl with rot := e + 1 })
  | none => (none, s)

/-- The lines of global destination parts that a command owns at issue (R177), and those of them that it owns once a serial lock on them is
released (R206). -/
def State.takeLines (s : State) (t k : Nat) (parts : List (Nat × Nat)) : List Nat × List Nat :=
  ((parts.flatMap (s.linesOf t k)).dedup).partition (fun l => !s.spanLocked ⟨0, l⟩ 128)

/-- The parts that do not translate yet. -/
def State.unmappedParts (s : State) (t k : Nat) (parts : List (Nat × Nat)) : List (Nat × Nat) :=
  parts.filter (fun p => match (translateNow s t k p.1 p.2 { Access.wr with engine := true }).1 with | .ok _ => false | .error _ => true)

/-- Commands with bytes to move that arrived before `c`. -/
def State.before (s : State) (c : Command) : List Command := (s.commands.takeWhile (fun e => e.id != c.id)).filter Command.moving

/-- The range checker holds a command behind an earlier one (R164). -/
def State.heldBehind (s : State) (id : Nat) : Bool :=
  match s.command? id with
  | some c => (s.before c).any (fun e => e.core == c.core && c.behind e)
  | none => false

/-- A command number of a batch still has bytes to write (R163): a command, or a running sequencer slot and what it emitted. -/
def State.working (s : State) (id : Nat) : Bool :=
  s.commands.any (fun c => c.moving && (c.id == id || c.parent == some id)) ||
    s.cores.any (fun p => p.2.seqs.any (fun q => match q.run with | some r => r.id == id | none => false))

/-- Join the group's open batch (R163). -/
def openCommand (s : State) (launch j id : Nat) : State :=
  let g := s.group launch j
  s.setGroup launch j { g with openCmds := g.openCmds ++ [id] }

/-! ### Checks at issue (R351, R365) -/

/-- Translate one access for its checks. -/
def Exe.translate (e : Exe) (s : State) (a : Access) (r : Req) (go : PTarget → State → State) : State :=
  match plan s e.view a [r] with
  | (.walk, s) => e.park s .mem
  | (.fault, s) => e.park s .fault
  | (.fail r c, s) => e.fault s c r.lane r.va
  | (.go ts, s) =>
    match ts with
    | t :: _ => go t.2.1 s
    | [] => s

/-- The translation check of a completion counter: a device page. -/
def Exe.counter (e : Exe) (s : State) (cnt : Option (Nat × Nat)) (a : Access) (go : Option (PTarget × Nat) → State → State) : State :=
  match cnt with
  | none => go none s
  | some (va, inc) =>
    e.translate s a ⟨e.g.first, faultLane e.uid, va, 8, 8⟩ (fun t s =>
      if t.tgt ≠ 0 then e.faultAll s .engineFormat va else go (some (t, inc)) s)

/-- A counter that is not 8-aligned. -/
def badCounter (cnt : Option (Nat × Nat)) : Bool := match cnt with | some (va, _) => va % 8 != 0 | none => false

/-- A scratchpad span leaves 0 to SPADBYTES − 1. -/
def spadOut (l : Launch) (r : Nat × Nat) : Bool := decide (l.spad < r.1 + r.2)

/-- What a command is before it issues. -/
structure Order where
  kind   : CmdKind
  copy   : Bool
  reads  : List (Nat × Nat)
  writes : List (Nat × Nat)
  dsts   : List (Nat × Nat)
  cnt    : Option (Nat × Nat)
  deriving DecidableEq, Repr

/-- The issuing queue parks while the range checker holds the command behind an earlier one (Table 6.2). -/
def Exe.holdQueue (e : Exe) (s : State) (id : Nat) : State :=
  if s.heldBehind id then
    match (s.galley? e.uid.galley).bind (fun g => g.thread? e.uid) with
    | some th => e.put s (if th.wait = .none then { th with wait := .rangeHeld id } else th)
    | none => s
  else s

/-- Issue a command after its own checks: counter, scratchpad, engine, and room in the range checker (R164, R365). -/
def Exe.issue (e : Exe) (s : State) (w : Main) (o : Order) : State :=
  match (o.reads ++ o.writes).find? (spadOut e.l) with
  | some _ => e.faultAll s .spadRange
  | none =>
    e.counter s o.cnt .wr (fun cnt s =>
      if o.copy && (s.tenant e.l.tenant).engines.isEmpty then e.faultAll s .noCopyEngine
      else if 64 ≤ (s.held e.core).length then e.park s .rangeRoom
      else
        let (eng, s) := if o.copy then pickEngine s e.l.tenant e.core else (none, s)
        let parts := o.dsts.flatMap (fun p => pageParts (p.2 / 65536 + 2) p.1 p.2)
        let lines := s.takeLines e.l.tenant e.l.ctx parts
        let (id, s) := s.fresh
        let c : Command :=
          { id := id, parent := none, kind := o.kind, tenant := e.l.tenant, ctx := e.l.ctx, launch := e.l.id, group := e.g.first,
            core := e.core, engine := eng, reads := o.reads, writes := o.writes, ring := none, counter := cnt, owns := lines.1, later := lines.2,
            dsts := s.unmappedParts e.l.tenant e.l.ctx parts, todo := none, walks := [] }
        e.holdQueue (e.done (openCommand { s with commands := s.commands ++ [c] } e.l.id e.g.first id) w) id)

/-- Group-level engine forms: a leaf, outside transactions. -/
def engineForm (w : Main) (tys : List Ty) (f : Exe → State → State) (s : State) : Host.Outcome State Fault Refusal :=
  onUnit s (fun e => e.leafOnly s (e.noTx s w tys (fun _ => f e s)))

/-- A group-level operand of a type. -/
def Exe.num (e : Exe) (s : State) (ty : Ty) (o : Opnd) : Nat := e.scalar (e.opnd s ty o)

/-! ### Copies (R366, R367) -/

def execCpy (w : Main) (x : X4) (s : State) : Host.Outcome State Fault Refusal :=
  engineForm w [] (fun e s =>
    let src := e.num s .n64 w.a
    let dst := e.num s .n64 w.b
    let n := e.num s .n64 w.c
    let cnt := (e.num s .n64 x.a, e.num s .n32 x.b)
    let m := immNat x.c
    if n = 0 ∨ 2 ^ 32 < n then e.faultAll s .engineFormat
    else if badCounter (some cnt) then e.faultAll s .misaligned cnt.1
    else
      e.issue s w
        { kind := .cpy (Word.bit m 0) (Word.bit m 1) src dst n, copy := true,
          reads := if Word.bit m 0 then [(src, n)] else [], writes := if Word.bit m 1 then [(dst, n)] else [],
          dsts := if Word.bit m 1 then [] else [(dst, n)], cnt := some cnt }) s

/-- Elements a box's coordinates must be multiples of (R367). -/
def boxUnit (r : List Byte) : Nat := if recBlock r then 32 else if recBits r = 4 then 2 else if recBits r = 6 then 4 else 1

/-- Bytes of one row of a box. -/
def boxRow (r : List Byte) (e0 : Nat) : Nat := if recBlock r then e0 else e0 * recBits r / 8

/-- The tensor coordinates of a box in row order; blocks in the block-tagged format. -/
def boxCoords (r : List Byte) (c : List Int) (e0 e1 : Nat) : List (List Int) :=
  let u := if recBlock r then 32 else 1
  (List.range e1).flatMap (fun y => (List.range (e0 / u)).map (fun x =>
    [c.getD 0 0 + ((u * x : Nat) : Int), c.getD 1 0 + ((y : Nat) : Int), c.getD 2 0, c.getD 3 0, 0, 0]))

/-- Bytes of a box's element: its first byte and how many; a whole block in the block-tagged format. -/
def boxSpan (r : List Byte) (tag base : Nat) (c : List Int) : Nat × Nat :=
  if recBlock r then ((unitAddr r tag base (toUnits r (c.map Int.toNat))).1, 32)
  else
    let p := elemAt r tag base 0 (c.map Int.toNat)
    (p.addr, p.len)

/-- A write to a tensor in relayout takes ownership with each element access, rather than at issue (R367). -/
def execCpyh (w : Main) (x y : X4) (s : State) : Host.Outcome State Fault Refusal :=
  engineForm w [] (fun e s =>
    let h := e.num s .h w.a
    let sp := e.num s .n32 w.b
    let dir := immNat w.c
    let c := [x.a, x.b, x.c, x.d].map (fun o => Ty.i64.toInt (e.num s .i64 o))
    let e0 := e.num s .n32 y.a
    let e1 := e.num s .n32 y.b
    let cnt := (e.num s .n64 y.c, e.num s .n32 y.d)
    if e0 = 0 ∨ e1 = 0 then e.faultAll s .engineFormat
    else if badCounter (some cnt) then e.faultAll s .misaligned cnt.1
    else
      e.records s [((e.g.first, faultLane e.uid), h)] (fun rec_ s =>
        let r := rec_ h
        let u := boxUnit r
        if e0 % u ≠ 0 ∨ c.getD 0 0 % (u : Int) ≠ 0 then e.faultAll s .engineFormat
        else
          let span := (sp, e1 * boxRow r e0)
          let dsts := if dir = 1 ∧ recRlstate r ≠ 1 then
            ((boxCoords r c e0 e1).filter (inside r)).map (boxSpan r (recTag r) (recBase r)) else []
          e.issue s w
            { kind := .cpyh ⟨handleVa h, r⟩ sp dir c e0 e1, copy := true,
              reads := if dir = 1 then [span] else [], writes := if dir = 0 then [span] else [],
              dsts := dsts, cnt := some cnt })) s

/-! ### Gathers (R368) -/

def execGath (w : Main) (x : X4) (s : State) : Host.Outcome State Fault Refusal :=
  engineForm w [] (fun e s =>
    let sp := e.num s .n32 w.a
    let ix := e.num s .n32 w.b
    let n := e.num s .n32 w.c
    let base := e.num s .n64 x.a
    let m := immNat x.b
    let cnt := (e.num s .n64 x.c, e.num s .n32 x.d)
    let size := 2 ^ (m % 8)
    let wide := Word.bit m 3
    if n = 0 ∨ 65536 < n ∨ 4 < m % 8 then e.faultAll s .engineFormat
    else if base % size ≠ 0 then e.faultAll s .misaligned base
    else if badCounter (some cnt) then e.faultAll s .misaligned cnt.1
    else
      e.issue s w
        { kind := .gath sp ix n base size wide, copy := false, reads := [(ix, n * (if wide then 8 else 4))],
          writes := [(sp, n * size)], dsts := [], cnt := some cnt }) s

def execGathh (w : Main) (x : X4) (s : State) : Host.Outcome State Fault Refusal :=
  engineForm w [] (fun e s =>
    let sp := e.num s .n32 w.a
    let ix := e.num s .n32 w.b
    let n := e.num s .n32 w.c
    let h := e.num s .h x.a
    let wide := Word.bit (immNat x.b) 3
    let cnt := (e.num s .n64 x.c, e.num s .n32 x.d)
    if n = 0 ∨ 65536 < n then e.faultAll s .engineFormat
    else if badCounter (some cnt) then e.faultAll s .misaligned cnt.1
    else
      e.records s [((e.g.first, faultLane e.uid), h)] (fun rec_ s =>
        let r := rec_ h
        if recBlock r ∨ recBits r < 8 then e.faultAll s .tnFormat
        else
          e.issue s w
            { kind := .gathh sp ix n ⟨handleVa h, r⟩ wide, copy := false, reads := [(ix, n * (if wide then 8 else 4))],
              writes := [(sp, n * (recBits r / 8))], dsts := [], cnt := some cnt })) s

/-! ### spset (R369) -/

def execSpset (w : Main) (x : X4) (s : State) : Host.Outcome State Fault Refusal :=
  engineForm w [] (fun e s =>
    let sp := e.num s .n32 w.a
    let n := e.num s .n32 w.b
    let pat := e.num s .b64 w.c
    let cnt := if x.a = .none then none else some (e.num s .n64 x.a, e.num s .n32 x.b)
    if n = 0 ∨ e.l.spad < n then e.faultAll s .engineFormat
    else if badCounter cnt then e.faultAll s .misaligned ((cnt.map Prod.fst).getD 0)
    else e.issue s w { kind := .spset sp n pat, copy := false, reads := [], writes := [(sp, n)], dsts := [], cnt := cnt }) s

/-! ### The sequencer (R244, R245, R247, R370) -/

/-- Fields of a descriptor (Table 11.4). -/
def seqSrc (d : List Byte) : Nat := recNat d 0 8
def seqDst (d : List Byte) : Nat := recNat d 8 8
def seqCnt (d : List Byte) : Nat := recNat d 0x10 8
def seqIncr (d : List Byte) : Nat := recNat d 0x18 4
def seqLen (d : List Byte) : Nat := recNat d 0x1C 4
def seqFlags (d : List Byte) : Nat := recNat d 0x20 4
def seqCount (d : List Byte) (l : Nat) : Nat := recNat d (0x28 + 24 * l) 4
def seqSS (d : List Byte) (l : Nat) : Int := Word.signExtend (recNat d (0x30 + 24 * l) 8) 64
def seqDS (d : List Byte) (l : Nat) : Int := Word.signExtend (recNat d (0x38 + 24 * l) 8) 64
def seqRingAdv (d : List Byte) : Bool := Word.bit (seqFlags d) 2
def seqRing (d : List Byte) : Nat := seqFlags d / 16 % 8
def seqLevel (d : List Byte) : Nat := seqFlags d / 256 % 8

/-- Emissions of levels below `l`, and all of them. -/
def seqBelow (d : List Byte) (l : Nat) : Nat := ((List.range l).map (seqCount d)).prod
def seqTotal (d : List Byte) : Nat := seqBelow d 6

/-- Index of level `l` at emission `n`. -/
def seqIndex (d : List Byte) (n l : Nat) : Nat := n / seqBelow d l % seqCount d l

/-- Some slot's run, or an earlier run, produces the ring (R247). -/
def Core.produced (x : Core) (ring : Nat) : Bool := x.runs.any (fun r => r.ring == ring)

/-- The fields that raise SEQ_FORMAT (R245, R376). -/
def seqBad (x : Core) (d : List Byte) : Bool :=
  let f := seqFlags d
  recNat d 0x24 4 != 0 || Word.bit f 3 || Word.bit f 7 || decide (2 ^ 11 ≤ f) ||
  (List.range 6).any (fun l => recNat d (0x2C + 24 * l) 4 != 0 || seqCount d l == 0) ||
  seqLen d == 0 || decide (2 ^ 24 < seqLen d) || Word.bit f 0 == Word.bit f 1 ||
  (seqRingAdv d && (!Word.bit f 1 || decide (5 < seqLevel d) || decide (5 < seqRing d) ||
    !(x.rings.getD (seqRing d) .empty).valid || x.produced (seqRing d)))

/-- Lowest and highest value of a sum of strides over the levels that count. -/
def seqExtreme (d : List Byte) (stride : Nat → Int) (levels : Nat) : Int × Int :=
  (List.range levels).foldl (fun a l =>
    let x := stride l * ((seqCount d l - 1 : Nat) : Int)
    if x < 0 then (a.1 + x, a.2) else (a.1, a.2 + x)) (0, 0)

/-- Lowest byte and the byte after the highest that the emissions touch in scratchpad (R370). -/
def seqSpadSpan (x : Core) (d : List Byte) : Int × Int :=
  let len : Int := (seqLen d : Nat)
  if Word.bit (seqFlags d) 0 then
    let (lo, hi) := seqExtreme d (seqSS d) 6
    ((seqSrc d : Int) + lo, (seqSrc d : Int) + hi + len)
  else if seqRingAdv d then
    let r := x.rings.getD (seqRing d) .empty
    let (lo, hi) := seqExtreme d (seqDS d) (seqLevel d)
    ((r.base : Int) + seqDst d + lo, (r.base : Int) + r.bytes * (r.slots - 1) + seqDst d + hi + len)
  else
    let (lo, hi) := seqExtreme d (seqDS d) 6
    ((seqDst d : Int) + lo, (seqDst d : Int) + hi + len)

/-- Replace a sequencer slot. -/
def Core.setSeq (x : Core) (k : Nat) (q : SeqSlot) : Core := { x with seqs := x.seqs.set k q }

def execSeqset (w : Main) (s : State) : Host.Outcome State Fault Refusal :=
  engineForm w [] (fun e s =>
    let k := immNat w.a
    let p := e.num s .n32 w.b
    let x := s.core e.core
    let q := x.seqs.getD k ⟨none, none⟩
    if p % 8 ≠ 0 then e.faultAll s .misaligned
    else if spadOut e.l (p, 192) then e.faultAll s .spadRange
    else if q.run.isSome then e.park s (.seqSlot k)
    else if e.spadStoresAt p 192 then e.park s .drain
    else e.done (s.setCore e.core (x.setSeq k { q with desc := some (x.spad.readBytes p 192) })) w) s

def execSeqgo (w : Main) (s : State) : Host.Outcome State Fault Refusal :=
  engineForm w [] (fun e s =>
    let k := immNat w.a
    let x := s.core e.core
    let q := x.seqs.getD k ⟨none, none⟩
    if q.run.isSome then e.park s (.seqSlot k)
    else
      match q.desc with
      | none => e.faultAll s .seqFormat
      | some d =>
        let (lo, hi) := seqSpadSpan x d
        if seqBad x d then e.faultAll s .seqFormat
        else if seqCnt d % 8 ≠ 0 then e.faultAll s .misaligned (seqCnt d)
        else if lo < 0 ∨ (e.l.spad : Int) < hi then e.faultAll s .spadRange
        else
          e.counter s (some (seqCnt d, seqIncr d)) .wr (fun cnt s =>
            if (s.tenant e.l.tenant).engines.isEmpty then e.faultAll s .noCopyEngine
            else
              let (id, s) := s.fresh
              let x := s.core e.core
              let tail := (x.rings.getD (seqRing d) .empty).tail
              let run : SeqRun := { id := id, desc := d, launch := e.l.id, group := e.g.first, next := 0, t0 := tail,
                                    counter := (cnt.map Prod.fst).getD ⟨0, 0⟩ }
              let prod : List RingRun :=
                if seqRingAdv d then [{ ring := seqRing d, t0 := tail, per := seqBelow d (seqLevel d),
                                        iters := seqTotal d / seqBelow d (seqLevel d), done := [] }] else []
              let s := s.setCore e.core { (x.setSeq k ⟨some d, some run⟩) with runs := x.runs ++ prod }
              e.done (openCommand s e.l.id e.g.first id) w)) s

def execSeqstat (w : Main) (s : State) : Host.Outcome State Fault Refusal :=
  onUnit s (fun e => e.leafOnly s (
    let q := (s.core e.core).seqs.getD (immNat w.a) ⟨none, none⟩
    e.define s w [⟨w.ty, .ofNat (Word.ofBool q.run.isSome + 2 * Word.ofBool q.desc.isSome)⟩]))

/-! ### Batches and counters (R163, R371) -/

/-- Closed batches of a group that have not completed. -/
def GroupSt.unfinished (g : GroupSt) (s : State) : List (Nat × List Nat) := g.batches.filter (fun b => b.2.any s.working)

def execCbatch (w : Main) (s : State) : Host.Outcome State Fault Refusal :=
  engineForm w [w.ty] (fun e s =>
    let g := s.group e.l.id e.g.first
    let left := g.unfinished s
    if 16 ≤ left.length then e.park s .batchRoom
    else
      let b := (g.lastClosed + 1) % 2 ^ 64
      e.define (s.setGroup e.l.id e.g.first { g with lastClosed := b, openCmds := [], batches := left ++ [(b, g.openCmds)] }) w
        [⟨w.ty, .ofNat b⟩]) s

def execCwait (w : Main) (s : State) : Host.Outcome State Fault Refusal :=
  engineForm w [] (fun e s =>
    let b := e.num s .n64 w.a
    let g := s.group e.l.id e.g.first
    if g.lastClosed < b then e.faultAll s .batchRange
    else if (g.unfinished s).any (fun x => decide (x.1 ≤ b)) then e.park s (.batch b)
    else e.done s w) s

/-- The read of a counter: the wait ends once it is at least the target (R162). -/
def Exe.readCounter (e : Exe) (s : State) (w : Main) (p : PTarget) (target : Nat) : State :=
  let (bs, s) := s.readFor e.me p 8
  if target ≤ leNat bs then e.done s w else e.park s (.counter p.tgt p.pa target false)

/-- `cntwait` at issue translates and reads its counter, behind what Table 8.3 orders before the read; while it waits, an add that lands
on the counter and satisfies it ends the wait, whatever is stored later. -/
def execCntwait (w : Main) (s : State) : Host.Outcome State Fault Refusal :=
  onUnit s (fun e =>
    let a := e.opnd s .n64 w.a
    let t := e.opnd s .n64 w.b
    e.noTx s w [] (fun _ =>
      if !allU [a, t] && e.multi then e.unfold s
      else
        match e.th.wait with
        | .counter tgt pa target met => if met then e.done s w else e.readCounter s w ⟨tgt, pa⟩ target
        | _ =>
          let va := e.scalar a
          if va % 8 ≠ 0 then e.faultAll s .misaligned va
          else
            e.access s .rd [⟨e.g.first, faultLane e.uid, va, 8, 8⟩] (fun ts s =>
              match ts with
              | [] => s
              | p :: _ => if p.2.1.tgt ≠ 0 then e.faultAll s .engineFormat va else e.readCounter s w p.2.1 (e.scalar t))))

end Sys2Proof.Machine
end

