-- ==== Sys2Proof/Machine/Matrix.lean ====
section
/-! DEFINITION. Matrix rings, matrix operations at issue, and tile instructions (R372 to R392). -/

namespace Sys2Proof.Machine

open Sys2Proof

/-! ### Rings (R376, R377) -/

/-- An unretired matrix operation names a ring. -/
def MatOp.names (m : MatOp) (k : Nat) : Bool := m.lit / 2 ^ 10 % 8 == k || (m.conv.isNone && m.lit / 2 ^ 7 % 8 == k)

/-- Slots of a ring that unretired operations have claimed (R381). -/
def Core.claimed (x : Core) (k : Nat) : Nat :=
  ((x.mats.filter (fun m => m.names k)).map (fun m => m.lit / 2 ^ 16 % 16 + 1)).sum

/-- TAIL − HEAD, modulo 2^32. -/
def Ring.full (r : Ring) : Nat := (r.tail + 2 ^ 32 - r.head) % 2 ^ 32

/-- First byte of slot `n`. -/
def Ring.slotAt (r : Ring) (n : Nat) : Nat := r.base + r.bytes * (n % max 1 r.slots)

def execRingcfg (w : Main) (x : X4) (s : State) : Host.Outcome State Fault Refusal :=
  engineForm w [] (fun e s =>
    let k := immNat w.a
    let base := e.num s .n32 w.b
    let n := e.num s .n32 w.c
    let sz := e.num s .n32 x.a
    let c := s.core e.core
    if base % 64 ≠ 0 ∨ base < 64 then e.faultAll s .misaligned
    else if n = 0 ∨ 256 < n then e.faultAll s .matrixFormat
    else if sz % 64 ≠ 0 ∨ sz < 64 ∨ 524224 < sz then e.faultAll s .matrixFormat
    else if e.l.spad < base + n * sz then e.faultAll s .spadRange
    else if c.produced k ∨ c.mats.any (fun m => m.names k) then e.park s (.ringIdle k)
    else if e.spadStoresAt (8 * k) 8 || !(e.owed s).isEmpty then e.park s .drain
    else
      e.done (s.setCore e.core { c with
        rings := c.rings.set k ⟨true, base, n, sz, 0, 0⟩
        spad := c.spad.writeNat (8 * k) 8 (2 ^ 63 + sz / 64 * 2 ^ 27 + (n - 1) * 2 ^ 19 + base) }) w) s

def execRingrd (w : Main) (s : State) : Host.Outcome State Fault Refusal :=
  onUnit s (fun e => e.leafOnly s (
    let r := (s.core e.core).rings.getD (immNat w.a) .empty
    let v (n : Nat) : TVal := ⟨w.ty, .ofNat (if r.valid then n else 0)⟩
    e.define s w [v r.head, v r.tail]))

/-! ### Matrix operations at issue (R378 to R381) -/

/-- Fields of the literal (Table 18.2). -/
def matBfmt (l : Nat) : Nat := l / 2 ^ 27 % 32
def matTC (l : Nat) : Nat := l / 2 ^ 23 % 8
def matTD (l : Nat) : Nat := l / 2 ^ 20 % 8
def matNS (l : Nat) : Nat := l / 2 ^ 16 % 16 + 1
def matKB (l : Nat) : Nat := l / 2 ^ 13 % 8 + 1
def matRB (l : Nat) : Nat := l / 2 ^ 10 % 8
def matRA (l : Nat) : Nat := l / 2 ^ 7 % 8

/-- B's element type. -/
def matTyB (l : Nat) : Ty := (Ty.ofCode (matBfmt l)).getD .none

/-- Columns of a result. -/
def matN (ty : Ty) : Nat := if ty = .f64 then 32 else 64

/-- Bytes that A and B need in a slot (Table 18.3). -/
def slotNeedA (op : Nat) (ty : Ty) (l : Nat) : Nat :=
  let ks := 32 * matKB l
  if op = 0x1C9 then 544 * matKB l else if op = 0x1CA then 4 * ks * (if ty.width = 8 then 4 else 8) else 16 * ks * ty.width / 8

def slotNeedB (op : Nat) (ty : Ty) (l : Nat) : Nat :=
  if op = 0x1C9 then 2176 * matKB l else matN ty * (32 * matKB l) * (matTyB l).width / 8

/-- The rings an operation reads, each with the bytes a slot needs. -/
def matRings (op : Nat) (ty : Ty) (l : Nat) : List (Nat × Nat) :=
  (if op = 0x1CB then [] else [(matRA l, slotNeedA op ty l)]) ++ [(matRB l, slotNeedB op ty l)]

/-- Units an energy class costs (R250). -/
def energyCost (mod : Nat) : Nat := 2 ^ (mod / 32 % 4)

/-- The scratchpad spans of `n` slots from slot `first`. -/
def Ring.spans (r : Ring) (first n : Nat) : List (Nat × Nat) := (List.range n).map (fun i => (r.slotAt ((first + i) % 2 ^ 32), r.bytes))

/-- A place among the instructions that wait for the budget: in the order in which they parked, those of one cycle in ascending core
number (R139). -/
def parkEnergy (p : EnergyPark) : List EnergyPark → List EnergyPark
  | [] => [p]
  | q :: qs => if p.clock = q.clock ∧ p.core < q.core then p :: q :: qs else q :: parkEnergy p qs

/-- Energy of a context: pay, or take a place among the instructions parked on the budget (R139, R250). -/
def Exe.payEnergy (e : Exe) (s : State) (cost : Nat) (go : State → State) : State :=
  let c := s.ctx e.l.tenant e.l.ctx
  if c.enUnlimited then go (s.setCtx e.l.tenant e.l.ctx { c with energy := c.energy.filter (fun p => p.unit != e.uid) })
  else
    let first : Bool := match c.energy with | [] => true | p :: _ => p.unit == e.uid
    if first && decide (cost ≤ c.enBudget) then
      go (s.setCtx e.l.tenant e.l.ctx { c with enBudget := c.enBudget - cost, energy := c.energy.filter (fun p => p.unit != e.uid) })
    else
      let c := if c.energy.any (fun p => p.unit == e.uid) then c else { c with energy := parkEnergy ⟨e.uid, s.pkg.clock, e.core⟩ c.energy }
      e.park (s.setCtx e.l.tenant e.l.ctx c) (.energy cost)

/-- Issue an operation whose format and handle checks have passed. -/
def Exe.issueMatrix (e : Exe) (s : State) (w : Main) (op lit : Nat) (conv : Option (RecCopy × Nat × Nat)) : State :=
  let x := s.core e.core
  let rings := (matRings op w.ty lit).map Prod.fst
  let free (k : Nat) : Nat := (x.rings.getD k .empty).full - x.claimed k
  if rings.any (fun k => decide (free k < matNS lit)) then e.park s (.slots rings (matNS lit))
  else if 64 ≤ (s.held e.core).length then e.park s .rangeRoom
  else
    e.payEnergy s (energyCost w.mod) (fun s =>
      let (id, s) := s.fresh
      let at_ (k : Nat) : Nat := ((x.rings.getD k .empty).head + x.claimed k) % 2 ^ 32
      let m : MatOp :=
        { id := id, launch := e.l.id, group := e.g.first, op := op, ty := w.ty, mod := w.mod, lit := lit, conv := conv,
          slotA := at_ (matRA lit), slotB := at_ (matRB lit), tcCopy := none }
      let spans (k : Nat) : List (Nat × Nat) := (x.rings.getD k .empty).spans (at_ k) (matNS lit)
      let c : Command :=
        { id := id, parent := none, kind := .matrix (rings.flatMap (fun k => List.replicate (matNS lit) k)), tenant := e.l.tenant,
          ctx := e.l.ctx, launch := e.l.id, group := e.g.first, core := e.core, engine := none, reads := rings.flatMap spans,
          writes := [], ring := none, counter := none, owns := [], later := [], dsts := [], todo := none, walks := [] }
      e.holdQueue (e.done (({ s with commands := s.commands ++ [c] }).setCore e.core { x with mats := x.mats ++ [m] }) w) id)

/-- The checks of R381 steps 1 and 2. -/
def Exe.matrixChecked (e : Exe) (s : State) (op : Nat) (ty : Ty) (lit : Nat) (go : State) : State :=
  let x := s.core e.core
  if e.core % 2 = 1 then e.faultAll s .matrixFollower
  else if (matRings op ty lit).any (fun r => let g := x.rings.getD r.1 .empty; !g.valid || decide (g.bytes < r.2)) then
    e.faultAll s .matrixFormat
  else go

/-- `mma`, `mmab` and `mmas`. -/
def matrixForm (op : Nat) (w : Main) (l : Nat) (s : State) : Host.Outcome State Fault Refusal :=
  engineForm w [] (fun e s => e.matrixChecked s op w.ty l (e.issueMatrix s w op l none)) s

def execMma (w : Main) (l : Nat) (s : State) : Host.Outcome State Fault Refusal := matrixForm 0x1C8 w l s
def execMmab (w : Main) (l : Nat) (s : State) : Host.Outcome State Fault Refusal := matrixForm 0x1C9 w l s
def execMmas (w : Main) (l : Nat) (s : State) : Host.Outcome State Fault Refusal := matrixForm 0x1CA w l s

def execMmaconv (w : Main) (l : Nat) (x : X4) (s : State) : Host.Outcome State Fault Refusal :=
  engineForm w [] (fun e s =>
    let h := e.num s .h x.a
    let m0 := e.num s .n64 x.b
    let k0 := e.num s .n64 x.c
    e.matrixChecked s 0x1CB w.ty l
      (e.records s [((e.g.first, faultLane e.uid), h)] (fun rec_ s =>
        let r := rec_ h
        if !Word.bit (recFlags r) 2 ∨ fmtTy (recFmt r) ≠ some w.ty then e.faultAll s .tnFormat
        else e.issueMatrix s w 0x1CB l (some (⟨handleVa h, r⟩, m0, k0))))) s

/-! ### Tiles (R375) -/

/-- Byte of a tile's element. -/
def tileAt (t i j : Nat) : Nat := 4096 * t + 256 * i + 4 * j

def Core.elem (x : Core) (t i j : Nat) : Nat := x.tiles.readNat (tileAt t i j) 4

def Core.setElem (x : Core) (v : Nat × Nat × Nat × Nat) : Core :=
  { x with tiles := x.tiles.writeNat (tileAt v.1 v.2.1 v.2.2.1) 4 v.2.2.2 }

/-- The copy of tile TC that an operation in flight must still read, kept before a later access writes that tile. -/
def Core.keepTC (x : Core) (t : Nat) : Core :=
  { x with mats := x.mats.map (fun m =>
      if Word.bit m.mod 4 ∧ matTC m.lit = t ∧ m.tcCopy.isNone then { m with tcCopy := some (x.tiles.filter (fun c => c.1 / 4096 == t)) } else m) }

/-- A tile access waits for every earlier matrix operation that writes one of its tiles (R375). -/
def Exe.withTiles (e : Exe) (s : State) (ts : List Nat) (f : Core → State) : State :=
  let x := s.core e.core
  match ts.find? (fun t => x.mats.any (fun m => matTD m.lit == t)) with
  | some t => e.park s (.tile t)
  | none => f x

/-- Replace a tile's elements, given as (tile, row, column, bits). -/
def Exe.writeTile (e : Exe) (s : State) (x : Core) (t : Nat) (vs : List (Nat × Nat × Nat × Nat)) : State :=
  s.setCore e.core (vs.foldl Core.setElem (x.keepTC t))

/-- A tile form of a leaf; tile instructions are performed inside transactions too (R374). -/
def tileForm (s : State) (f : Exe → State) : Host.Outcome State Fault Refusal := onUnit s (fun e => e.leafOnly s (f e))

/-- Every place of a tile. -/
def tilePlaces : List (Nat × Nat) := (List.range 16).flatMap (fun i => (List.range 64).map (fun j => (i, j)))

/-- A tile instruction's access to `n` bytes of scratchpad at its program point: `tlld`, `tlst` and `mmard` follow the group's earlier
stores that share a byte with it, and those that write follow its no-return atomics (R355, Table 8.3 rows 1 and 2). -/
def Exe.tileSpad (e : Exe) (s : State) (sp n : Nat) (write : Bool) (go : State) : State :=
  if sp % 16 ≠ 0 then e.faultAll s .misaligned
  else if e.l.spad < sp + n then e.faultAll s .spadRange
  else if e.spadStoresAt sp n || (write && !(e.owed s).isEmpty) then e.park s .drain
  else go

def execTlld (w : Main) (s : State) : Host.Outcome State Fault Refusal :=
  tileForm s (fun e =>
    let t := immNat w.a
    let sp := e.num s .n32 w.b
    e.tileSpad s sp 4096 false (e.withTiles s [t] (fun x =>
      e.done (e.writeTile s x t (tilePlaces.map (fun p => (t, p.1, p.2, x.spad.readNat (sp + 256 * p.1 + 4 * p.2) 4)))) w)))

def execTlst (w : Main) (s : State) : Host.Outcome State Fault Refusal :=
  tileForm s (fun e =>
    let t := immNat w.a
    let sp := e.num s .n32 w.b
    e.tileSpad s sp 4096 true (e.withTiles s [t] (fun x =>
      e.done (s.setCore e.core { x with spad := x.spad.writeBytes sp (x.tiles.readBytes (4096 * t) 4096) }) w)))

def execTlzero (w : Main) (s : State) : Host.Outcome State Fault Refusal :=
  tileForm s (fun e =>
    let t := immNat w.a
    e.withTiles s [t] (fun x => e.done (e.writeTile s x t (tilePlaces.map (fun p => (t, p.1, p.2, 0)))) w))

def execTlmov (w : Main) (s : State) : Host.Outcome State Fault Refusal :=
  tileForm s (fun e =>
    let td := immNat w.a
    let ts := immNat w.b
    e.withTiles s [td, ts] (fun x =>
      e.done (e.writeTile s x td (tilePlaces.map (fun p => (td, p.1, p.2, x.elem ts p.1 p.2)))) w))

/-! ### Slice selectors (R389) -/

/-- Tile and offset of a selector. -/
def selTile (w : Main) : Nat := immNat w.a % 8
def selOff (w : Main) : Nat := immNat w.a / 8 % 64

/-- The slice index in a lane. -/
def Exe.slice (e : Exe) (s : State) (w : Main) (l : Nat) : Nat := selOff w + e.lane (e.opnd s .n32 w.b) l

/-- The group-level index in range, or TILE_INDEX. -/
def Exe.oneSlice (e : Exe) (s : State) (w : Main) (bound : Nat) (go : Nat → State) : State :=
  let x := e.slice s w e.leadLane
  if bound ≤ x then e.fault s .tileIndex e.leadLane else go x

/-- Every active lane's own index in range, or TILE_INDEX for the lowest lane that is not. -/
def Exe.laneSlices (e : Exe) (s : State) (w : Main) (bound : Nat) (go : State) : State :=
  match (lanesIn e.act).find? (fun l => decide (bound ≤ e.slice s w l)) with
  | some l => e.fault s .tileIndex l
  | none => go

/-- Lane reads of a tile (R390): `place` gives row and column from the index and the lane. -/
def tileGet (w : Main) (bound : Nat) (place : Nat → Nat → Nat × Nat) (s : State) : Host.Outcome State Fault Refusal :=
  tileForm s (fun e => e.laneSlices s w bound (e.withTiles s [selTile w] (fun x =>
    e.define s w [⟨w.ty, e.perLane (fun l =>
      let p := place (e.slice s w l) l
      x.elem (selTile w) p.1 p.2)⟩])))

/-- Lane writes of a tile, ascending, so that the highest lane's stay (R161). -/
def tilePut (w : Main) (bound : Nat) (place : Nat → Nat → Nat × Nat) (s : State) : Host.Outcome State Fault Refusal :=
  tileForm s (fun e => e.laneSlices s w bound (e.withTiles s [selTile w] (fun x =>
    let a := e.opnd s w.ty w.c
    e.done (e.writeTile s x (selTile w) ((lanesIn e.act).map (fun l =>
      let p := place (e.slice s w l) l
      (selTile w, p.1, p.2, e.lane a l)))) w)))

def execTlgetr (w : Main) (s : State) : Host.Outcome State Fault Refusal := tileGet w 16 (fun x l => (x, l)) s
def execTlgetc (w : Main) (s : State) : Host.Outcome State Fault Refusal := tileGet w 64 (fun x l => (l % 16, x)) s
def execTlputr (w : Main) (s : State) : Host.Outcome State Fault Refusal := tilePut w 16 (fun x l => (x, l)) s
def execTlputc (w : Main) (s : State) : Host.Outcome State Fault Refusal := tilePut w 64 (fun x l => (l % 16, x)) s

/-- Rotations and broadcasts of a tile (R391): the places written and where each takes its old element. -/
def tileShift (w : Main) (bound : Nat) (moves : Nat → Nat → List ((Nat × Nat) × (Nat × Nat))) (s : State) :
    Host.Outcome State Fault Refusal :=
  tileForm s (fun e => e.oneSlice s w bound (fun i => e.withTiles s [selTile w] (fun x =>
    let n := e.num s .n32 w.c
    e.done (e.writeTile s x (selTile w) ((moves i n).map (fun m => (selTile w, m.1.1, m.1.2, x.elem (selTile w) m.2.1 m.2.2)))) w)))

def execTlrotr (w : Main) (s : State) : Host.Outcome State Fault Refusal :=
  tileShift w 16 (fun x n => (List.range 64).map (fun c => ((x, c), (x, (c + n) % 64)))) s
def execTlrotc (w : Main) (s : State) : Host.Outcome State Fault Refusal :=
  tileShift w 64 (fun x n => (List.range 16).map (fun i => ((i, x), ((i + n) % 16, x)))) s
def execTlbcr (w : Main) (s : State) : Host.Outcome State Fault Refusal :=
  tileShift w 16 (fun x _ => tilePlaces.map (fun p => (p, (x, p.2)))) s
def execTlbcc (w : Main) (s : State) : Host.Outcome State Fault Refusal :=
  tileShift w 64 (fun x _ => tilePlaces.map (fun p => (p, (p.1, x)))) s

/-- Reductions of a row or a column in each lane (R392). -/
def tileReduce (w : Main) (bound : Nat) (elems : Core → Nat → List Nat) (s : State) : Host.Outcome State Fault Refusal :=
  tileForm s (fun e => e.laneSlices s w bound (e.withTiles s [selTile w] (fun x =>
    let v := e.opnd s .n32 w.b
    let f (i : Nat) : Nat := redSum w.ty w.mod ((elems x i).map (fun q => q % 2 ^ w.ty.width))
    if v.val.cls = 0 then e.define s w [⟨w.ty, .ofNat (f (e.slice s w e.leadLane))⟩]
    else e.define s w [⟨w.ty, e.perLane (fun l => f (e.slice s w l))⟩])))

def execTlredr (w : Main) (s : State) : Host.Outcome State Fault Refusal :=
  tileReduce w 16 (fun x i => (List.range 64).map (x.elem (selTile w) i)) s
def execTlredc (w : Main) (s : State) : Host.Outcome State Fault Refusal :=
  tileReduce w 64 (fun x j => (List.range 16).map (fun i => x.elem (selTile w) i j)) s

/-! ### mmard (R387) -/

/-- Bytes of one row of codes packed under R213. -/
def packRow (b : Nat) (codes : List Nat) : List Byte :=
  leBytes (codes.length * b / 8) (codes.mapIdx (fun j v => v % 2 ^ b * 2 ^ (b * j))).sum

/-- The converted row `i` of a tile of FP32 or FP64 elements. -/
def mmardRow (x : Core) (t i : Nat) (src dst : Ty) (mod : Nat) : List Byte :=
  packRow dst.width ((List.range (matN src)).map (fun j =>
    Num.cvt src dst (arMode mod) (x.tiles.readNat (4096 * t + 256 * i + src.bytes * j) src.bytes)))

def execMmard (w : Main) (s : State) : Host.Outcome State Fault Refusal :=
  tileForm s (fun e =>
    let sp := e.num s .n32 w.a
    let t := immNat w.b
    let src : Ty := if immNat w.c = 1 then .f64 else .f32
    let q := matN src * w.ty.width / 8
    e.tileSpad s sp (16 * q) true (e.withTiles s [t] (fun x =>
      let spad := (List.range 16).foldl (fun (m : Memory) i => m.writeBytes (sp + q * i) (mmardRow x t i src w.ty w.mod)) x.spad
      e.done (s.setCore e.core { x with spad := spad }) w)))

end Sys2Proof.Machine
end

