-- ==== Sys2Proof/Machine/Atomics.lean ====
section
/-! DEFINITION. Slice atomics and the atomic queue (R186 to R195, R399 to R403), with the drain of the queue, exact adds and
spills (R190 to R198). -/

namespace Sys2Proof.Machine

open Sys2Proof

/-! ### Words (Table 19.1) -/

/-- Data kind, AOP [5:3], of a type. -/
def aopKind : Ty → Nat
  | .i32 | .n32 => 0
  | .i64 | .n64 => 1
  | .bf16 => 2
  | .f32 => 3
  | .f64 => 4
  | .bf16x2 => 5
  | .f32x2 => 6
  | _ => 7

/-- The operation code of a form: `op` is AOP [2:0]. -/
def aopOf (ty : Ty) (op : Nat) : Nat := 8 * aopKind ty + op

/-- MOD of class OA (R399). -/
def oaFtz (mod : Nat) : Bool := Word.bit mod 6
def oaNr (mod : Nat) : Bool := Word.bit mod 5
def oaOrder (mod : Nat) : Nat := mod / 8 % 4

/-- A release order: `.rel` or `.ar`. -/
def oaRelease (mod : Nat) : Bool := decide (2 ≤ oaOrder mod)

/-- A permutation that the slices choose: ascending where no two lanes name one location, else free (R167, log 4). -/
def slicePerm {α : Type} : Nat → List α → State → List α × State
  | 0, xs, s => (xs, s)
  | _ + 1, [], s => ([], s)
  | n + 1, x :: xs, s =>
    let (k, s) := s.choose (xs.length + 1)
    let pick := (x :: xs).getD k x
    let (r, s) := slicePerm n ((x :: xs).eraseIdx k) s
    (pick :: r, s)

/-- The order in which an instruction's lane accesses are performed. -/
def laneOrder (ts : List (Req × PTarget × Bool)) (s : State) : List (Req × PTarget × Bool) × State :=
  if (ts.map (fun t => t.2.1)).Nodup then (ts, s) else slicePerm ts.length ts s

/-- What an atomic form does: its AOP, RM, and whether its type is signed. -/
structure Amo where
  aop    : Nat
  rm     : Nat
  signed : Bool
  deriving DecidableEq, Repr

def amoOf (w : Main) (op rm : Nat) : Amo := ⟨aopOf w.ty op, rm, w.ty.signed⟩

/-- One lane's atomic after another (R401). -/
def Exe.atomics (e : Exe) (w : Main) (f : Amo) (v c : TVal) : List (Req × PTarget × Bool) → State → List (Nat × Nat) × State
  | [], s => ([], s)
  | t :: ts, s =>
    let i := (t.1.grp, t.1.lane)
    let (old, s) := s.atomicSeen t.2.1 f.aop f.rm f.signed (oaFtz w.mod) (e.at_ v i) (e.at_ c i)
    let (r, s) := Exe.atomics e w f v c ts (l1Drop s e.core t.2.1 t.1.n)
    ((t.1.lane, old) :: r, s)

/-! ### No-return atomics at issue (R190, R191) -/

/-- The two words of a queue entry (Table 9.2). -/
def aqWords (f : Amo) (mod pa v : Nat) : Nat × Nat :=
  (f.rm % 4 * 2 ^ 62 + Word.ofBool (oaRelease mod) * 2 ^ 61 + Word.ofBool f.signed * 2 ^ 59 + Word.ofBool (oaFtz mod) * 2 ^ 58 +
    f.aop % 64 * 2 ^ 52 + pa % 2 ^ 52, v % 2 ^ 64)

/-- Entries of a core's FIFO in the queue itself. -/
def Core.queueCount (x : Core) : Nat := x.aq.length - x.overCount

/-- Put one entry at the end of a core's FIFO: in the queue while it has room, else in the region (R190). -/
def pushAtomic (s : State) (core spad : Nat) (m : AqMeta) (ws : Nat × Nat) : State :=
  let x := s.core core
  if x.queueCount < 256 then s.setCore core { x with aq := x.aq ++ [⟨ws.1, ws.2, false, m⟩] }
  else
    let at_ := x.overAt spad x.overCount
    countEvent (s.setCore core { x with spad := (x.spad.writeNat at_ 8 ws.1).writeNat (at_ + 8) 8 ws.2, aq := x.aq ++ [⟨0, 0, true, m⟩] })
      core 9 1

/-- Entries that the FIFO can still take. -/
def aqRoom (x : Core) (spad : Nat) : Nat := (256 - x.queueCount) + (if 24576 ≤ spad then 1024 - x.overCount else 0)

/-- A no-return atomic: every lane access enters the queue, or none does. It follows the stores of its group that share a byte with it,
and on a TSO page every one of them (Table 8.3). -/
def Exe.noReturn (e : Exe) (s : State) (w : Main) (f : Amo) : State :=
  let a := e.opnd s .n64 w.a
  let v := e.opB s w
  let n := w.ty.bytes
  let rs : List Req := e.items.map (fun i => ⟨i.1, i.2, e.at_ a i, n, n⟩)
  match plan s e.view { Access.wr with atomic := true, nr := true } rs with
  | (.walk, s) => e.park s .mem
  | (.fault, s) => e.park s .fault
  | (.fail r c, s) => e.fault s c r.lane r.va
  | (.go ts, s) =>
    if ts.any (fun t => e.threadStoresAt t.2.1 t.1.n || (t.2.2 && e.g.storesOwed)) then e.park s .drain
    else if aqRoom (s.core e.core) e.l.spad < ts.length then e.faultAll s .nrOverflow
    else
      let (id, s) := s.fresh
      let s := ts.foldl (fun s t =>
        pushAtomic (l1Drop s e.core t.2.1 n) e.core e.l.spad ⟨e.l.id, t.1.grp, t.2.1.tgt, id⟩
          (aqWords f w.mod t.2.1.pa (e.at_ v (t.1.grp, t.1.lane)))) s
      e.done s w

/-- An atomic form (R398, R401). -/
def atomicForm (w : Main) (f : Amo) (s : State) : Host.Outcome State Fault Refusal :=
  onUnit s (fun e =>
    let a := e.opnd s .n64 w.a
    let v := e.opB s w
    if oaNr w.mod then
      if (a.val.cls = 2 ∨ v.val.cls = 2) ∧ e.multi then e.unfold s
      else e.noTx s w [] (fun _ => e.noReturn s w f)
    else
      e.leafOnly s (e.noTx s w [w.ty] (fun _ =>
        let c := e.opC s w
        let n := w.ty.bytes
        let rs : List Req := e.items.map (fun i => ⟨i.1, i.2, e.at_ a i, n, n⟩)
        if oaRelease w.mod && e.owes s then e.park s .drain
        else
          e.access s { Access.wr with atomic := true } rs (fun ts s =>
            let (ts, s) := laneOrder ts s
            let (olds, s) := e.atomics w f v c ts s
            e.define s w [⟨w.ty, .s ((List.range e.l.g).map (fun l =>
              BitVec.ofNat 128 (match olds.find? (fun o => o.1 == l) with | some o => o.2 | none => 0)))⟩]))))

def execAmoAdd (w : Main) (s : State) : Host.Outcome State Fault Refusal := atomicForm w (amoOf w 0 0) s
def execAmoAnd (w : Main) (s : State) : Host.Outcome State Fault Refusal := atomicForm w (amoOf w 1 0) s
def execAmoOr (w : Main) (s : State) : Host.Outcome State Fault Refusal := atomicForm w (amoOf w 2 0) s
def execAmoXor (w : Main) (s : State) : Host.Outcome State Fault Refusal := atomicForm w (amoOf w 3 0) s
def execAmoMin (w : Main) (s : State) : Host.Outcome State Fault Refusal := atomicForm w (amoOf w 4 0) s
def execAmoMax (w : Main) (s : State) : Host.Outcome State Fault Refusal := atomicForm w (amoOf w 5 0) s
def execAmoSwap (w : Main) (s : State) : Host.Outcome State Fault Refusal := atomicForm w (amoOf w 6 0) s
def execAmoCas (w : Main) (s : State) : Host.Outcome State Fault Refusal := atomicForm w (amoOf w 7 0) s
def execAmoFaddRn (w : Main) (s : State) : Host.Outcome State Fault Refusal := atomicForm w (amoOf w 0 0) s
def execAmoFaddRz (w : Main) (s : State) : Host.Outcome State Fault Refusal := atomicForm w (amoOf w 0 1) s
def execAmoFaddRu (w : Main) (s : State) : Host.Outcome State Fault Refusal := atomicForm w (amoOf w 0 2) s
def execAmoFaddRd (w : Main) (s : State) : Host.Outcome State Fault Refusal := atomicForm w (amoOf w 0 3) s
def execAmoFaddX (w : Main) (s : State) : Host.Outcome State Fault Refusal := atomicForm w (amoOf w 1 0) s
def execAmoFmin (w : Main) (s : State) : Host.Outcome State Fault Refusal := atomicForm w (amoOf w 4 0) s
def execAmoFmax (w : Main) (s : State) : Host.Outcome State Fault Refusal := atomicForm w (amoOf w 5 0) s
def execCas128 (w : Main) (s : State) : Host.Outcome State Fault Refusal := atomicForm w (amoOf w 7 0) s

/-! ### Exact adds (R192 to R194) -/

/-- Element format of an exact add's kind: 0 BF16, 1 FP32, 2 FP64. -/
def exactFmt (kind : Nat) : Nat := if kind = 2 ∨ kind = 5 then 0 else if kind = 3 ∨ kind = 6 then 1 else 2

/-- The terms of an operand: element index in the line, and bits. -/
def exactTerms (kind pa v : Nat) : List (Nat × Nat) :=
  let n := (accTy (exactFmt kind)).bytes
  let k := pa % 128 / n
  let cut (i : Nat) : Nat := v / 2 ^ (8 * n * i) % 2 ^ (8 * n)
  if kind = 5 ∨ kind = 6 then [(k, cut 0), (k + 1, cut 1)] else [(k, cut 0)]

/-- Add a term to an element of an entry, its memory value first (R193). -/
def AccEntry.add (m : Memory) (e : AccEntry) (t : Nat × Nat) : AccEntry :=
  let n := (accTy e.fmt).bytes
  let old : AccElem :=
    match e.elems.get? t.1 with
    | some x => x
    | none => AccElem.empty.addTerm e.fmt (m.readNat (e.line + n * t.1) n)
  { e with elems := e.elems.set t.1 (old.addTerm e.fmt t.2) }

/-- Slots in use at a slice. -/
def Slice.used (sl : Slice) : Nat := (sl.entries.map (fun e => accSlots e.fmt)).sum

/-- Records that a context's partition holds (R197). -/
def recordCount (c : Ctx) : Nat := min 4096 (c.accSize / 9)

/-- Lowest free record of a context's partition at a slice. -/
def freeRecord (s : State) (t k i : Nat) : Option Nat :=
  let used := (((s.slice i).dir.filter (fun r => r.tenant == t && r.ctx == k)).map SpillRec.index)
  (List.range (recordCount (s.ctx t k))).find? (fun n => !used.contains n)

/-- Place a record: translated in its owner's context, without page-fault service (R197). -/
def placeRecord (s : State) (i : Nat) (e : AccEntry) : Except Code SpillRec × State :=
  match freeRecord s e.tenant e.ctx i with
  | none => (.error .accBackingFull, s)
  | some n =>
    let c := s.ctx e.tenant e.ctx
    let va := c.accBase + 4608 * (recordCount c * i + n)
    let split := min 4608 (65536 - va % 65536)
    let one (s : State) (va n : Nat) : Except Code Nat × State :=
      if 2 ^ 57 ≤ va then (.error .nonCanonical, s)
      else
        match walk s e.tenant e.ctx va with
        | (.fail c, s) => (.error c, s)
        | (.pageFault _ _, s) => (.error .translation, s)
        | (.ok x, s) =>
          if !x.w then (.error .writeProtect, s)
          else if x.tgt ≠ 0 then (.error .atomicTarget, s)
          else
            match entryCheck s x va n .wr with
            | some c => (.error c, s)
            | none => (.ok (x.target va).pa, s)
    match one s va split with
    | (.error c, s) => (.error c, s)
    | (.ok pa, s) =>
      if split = 4608 then (.ok ⟨e.line, e.fmt, e.tenant, e.ctx, n, pa, split, 0, true⟩, s)
      else
        match one s (va + split) (4608 - split) with
        | (.error c, s) => (.error c, s)
        | (.ok pa2, s) => (.ok ⟨e.line, e.fmt, e.tenant, e.ctx, n, pa, split, pa2, true⟩, s)

/-- Start the spill of the first entry of a list that can be spilled: least recently used first (R194, R197). `t` and `k`
are the context of the exact add that needs slots. -/
def startSpill (s : State) (i t k : Nat) : List AccEntry → Except Code Unit × State
  | [] => (.error .accBackingFull, s)
  | e :: es =>
    match placeRecord s i e with
    | (.ok r, s) =>
      let sl := s.slice i
      (.ok (), s.setSlice i { sl with dir := sl.dir ++ [r] })
    | (.error c, s) => if e.tenant = t ∧ e.ctx = k then (.error c, s) else startSpill s i t k es

/-- What an exact add comes to. -/
inductive Exact where
  | done (s : State)
  | wait (s : State)
  | fail (c : Code) (s : State)

/-- Memory as the line's entry first meets it, with the record's elements where it has one (R194). -/
def exactAdd (s : State) (t k kind pa v : Nat) : Exact :=
  let i := sliceOf pa
  let line := lineOf pa
  let fmt := exactFmt kind
  let sl := s.slice i
  let terms := exactTerms kind pa v
  let front (s : State) (e : AccEntry) : State :=
    let sl := s.slice i
    s.setSlice i { sl with entries := terms.foldl (AccEntry.add s.mem) e :: sl.entries.filter (fun x => x.line != line) }
  match sl.entries.find? (fun e => e.line == line) with
  | some e => if e.fmt ≠ fmt ∨ e.tenant ≠ t ∨ e.ctx ≠ k then .fail .exactFormatConflict s else .done (front s e)
  | none =>
    let rec? := sl.dir.find? (fun r => r.line == line)
    let clash : Bool := match rec? with | some r => r.fmt != fmt || r.tenant != t || r.ctx != k | none => false
    if clash then .fail .exactFormatConflict s
    else if 16 < sl.used + accSlots fmt then
      if sl.dir.any SpillRec.busy then .wait s
      else match startSpill s i t k sl.entries.reverse with
      | (.ok (), s) => .wait s
      | (.error c, s) => .fail c s
    else
      let elems : Tbl AccElem := match rec? with | some r => r.elems s.mem | none => []
      .done (front (s.setSlice i { sl with dir := sl.dir.filter (fun r => r.line != line) }) ⟨line, fmt, t, k, elems⟩)

/-- An exact add to a peer module's line, which keeps its own entries under the same rules (R186, R192, R193). -/
def peerExact (s : State) (t k kind pa v : Nat) : Exact :=
  let fmt := exactFmt kind
  let put (e : AccEntry) : State :=
    { s with peerAcc := (exactTerms kind pa v).foldl (AccEntry.add s.peerMem) e :: s.peerAcc.filter (fun x => x.line != lineOf pa) }
  match s.peerAcc.find? (fun e => e.line == lineOf pa) with
  | some e => if e.fmt ≠ fmt ∨ e.tenant ≠ t ∨ e.ctx ≠ k then .fail .exactFormatConflict s else .done (put e)
  | none => .done (put ⟨lineOf pa, fmt, t, k, []⟩)

/-! ### The drain of the atomic queue (R190, R191) -/

/-- The oldest entry of a core's FIFO leaves. -/
def popAtomic (s : State) (core : Nat) : State :=
  let x := s.core core
  match x.aq with
  | [] => s
  | a :: as => s.setCore core { x with aq := as, overHead := if a.spilled then (x.overHead + 1) % 1024 else x.overHead }

/-- The two words of the oldest entry; one in the region is read as it leaves (R191). -/
def aqHead (x : Core) (spad : Nat) (a : AqEntry) : Nat × Nat :=
  if a.spilled then (x.spad.readNat (x.overAt spad 0) 8, x.spad.readNat (x.overAt spad 0 + 8) 8) else (a.lo, a.hi)

/-- Stores of a group that are issued and not performed. -/
def State.groupStores (s : State) (launch j : Nat) : Bool :=
  s.galleys.any (fun g => g.launch == launch && decide (g.first ≤ j) && decide (j < g.first + g.count) && g.storesOwed)

/-- An entry that is discarded (R191). -/
def aqDiscard (lo : Nat) : Bool := Word.bit lo 60 || !aopListed (Word.field lo 57 52) || Word.field lo 54 52 == 7

/-- The head of a core's atomic queue is accepted by its home slice and performed. Nothing happens while the queue is
empty, while the line is owned by an engine, is in SPILLING, or is locked in serial mode, or while stores of its group before a
`.rel` entry are still to be performed. One whose page is no longer its tenant's, whose port is in error or whose line holds an
uncorrectable error fails (R17, R24, R35, R191). -/
def execAtomicQueueDrain (core : Nat) (s : State) : Host.Outcome State Fault Refusal :=
  .next (
    match (s.core core).aq with
    | [] => s
    | a :: _ =>
      match s.launch? a.own.launch with
      | none => popAtomic s core
      | some l =>
        let (lo, hi) := aqHead (s.core core) l.spad a
        let p : PTarget := ⟨a.own.tgt, Word.field lo 51 0⟩
        let aop := Word.field lo 57 52
        let kind := aop / 8
        let n := aopBytes kind
        let fail (s : State) (c : Code) : State := asyncFault (popAtomic s core) l.tenant l.ctx (some l) core c 0
        let leave (s : State) : State := popAtomic (l1Drop s core p n) core
        if aqDiscard lo then popAtomic s core
        else if Word.bit lo 61 ∧ s.groupStores l.id a.own.group then s
        else if s.blocked (some ⟨l.id, a.own.group⟩) true p then s
        else if let some c := s.lateFail l.tenant p n true then fail s c
        else if 2 ≤ kind ∧ aop % 8 = 1 then
          match if p.tgt = 0 then exactAdd s l.tenant l.ctx kind p.pa hi else peerExact s l.tenant l.ctx kind p.pa hi with
          | .done s => leave s
          | .wait s => s
          | .fail c s => fail s c
        else leave (s.atomicSeen p aop (Word.field lo 63 62) (Word.bit lo 59) (Word.bit lo 58) hi 0).2)

/-- A slice's spill in progress completes (R197) once no engine owns a line of its record (R178); without one nothing happens. -/
def execAccSpillDone (slice : Nat) (s : State) : Host.Outcome State Fault Refusal :=
  .next (if (s.slice slice).dir.any (fun r => r.busy && (s.spanOwned ⟨0, r.pa⟩ r.split || s.spanOwned ⟨0, r.pa2⟩ (4608 - r.split))) then s
    else s.completeSpill slice)

end Sys2Proof.Machine
end

