-- ==== Sys2Proof/Machine/Tx.lean ====
section
/-! DEFINITION. Transaction instructions and commits (R199 to R209, R404, R405). -/

namespace Sys2Proof.Machine

open Sys2Proof

/-! ### The units of a group (R405) -/

/-- What the other units of the group allow a unit at `txbeg` or `txend`. -/
inductive Meet where
  | go
  | wait
  | fail
  deriving DecidableEq, Repr

/-- The other running units of a galley. -/
def othersOf (g : Galley) (u : UnitId) : List (UnitId × Thread) := g.units.filter (fun x => x.1 != u)

def Thread.atBeg (t : Thread) : Bool := t.wait == .txUnits true || t.wait == .grant
def Thread.atEnd (t : Thread) : Bool := t.wait == .txUnits false

/-- R405 rules 1 and 4 for a unit at `txbeg`, and rules 2 to 4 for one at `txend`. -/
def meetUnits (g : Galley) (x : Tx) (u : UnitId) (beg : Bool) : Meet :=
  let os := othersOf g u
  if beg then
    if os.any (fun o => o.2.atEnd) then .fail
    else if os.all (fun o => o.2.atBeg || o.2.wait == .reconv) then .go else .wait
  else
    let live := x.inTx &&& ~~~x.aborted
    let mine := os.filter (fun o => o.2.mask &&& live != 0)
    if os.any (fun o => o.2.atBeg) || mine.any (fun o => o.2.wait == .reconv) then .fail
    else if mine.all (fun o => o.2.atEnd) then .go else .wait

/-- The executing unit and every unit that stands with it go on with the same results. After the outermost `txend` every
lane is active again (R200); before it the lanes that have aborted get 0. -/
def Exe.passAll (e : Exe) (s : State) (w : Main) (beg outer : Bool) (vs : List TVal) : State :=
  let with_ := (othersOf e.g e.uid).filter (fun o => if beg then o.2.atBeg else o.2.atEnd)
  let as (u : UnitId × Thread) : Exe := { e with uid := u.1, th := u.2, act := if outer then u.2.mask else activeLanes e.l e.g u.2.mask }
  ((e.uid, e.th) :: with_).foldl (fun s u => (as u).define s w vs) s

/-- Set the group's transaction. -/
def Exe.setTx (e : Exe) (s : State) (x : Tx) : State :=
  s.setGroup e.l.id e.g.first { s.group e.l.id e.g.first with tx := x }

def Exe.tx (e : Exe) (s : State) : Tx := (s.group e.l.id e.g.first).tx

/-- A group-level fault. -/
def Exe.txState (e : Exe) (s : State) : State := e.faultAll s .txState

/-! ### txbeg (R199, R207) -/

/-- Lanes of the units that stand at a `txbeg`. -/
def Exe.begLanes (e : Exe) : Mask :=
  ((othersOf e.g e.uid).filter (fun o => o.2.atBeg)).foldl (fun m o => m ||| activeLanes e.l e.g o.2.mask) e.act

/-- A new transaction over some lanes: logs, ABORTED and CAUSE are clear. -/
def Tx.begin (x : Tx) (lanes : Mask) (serial : Bool) : Tx :=
  { depth := 1, excess := 0, fails := x.fails, serial := serial, lanes := lanes, inTx := lanes, aborted := 0, causes := [], old := false,
    reads := [], writes := [], tiles := [] }

/-- `txbeg` at depth 0: the serial grant first where TXFAILS is 8. Accesses before the transaction are performed before it begins
(R201). -/
def Exe.openTx (e : Exe) (s : State) (w : Main) : State :=
  let x := e.tx s
  let me : GroupRef := ⟨e.l.id, e.g.first⟩
  if e.owes s then e.park s .drain
  else if x.fails < 8 then e.passAll (e.setTx s (x.begin e.begLanes false)) w true false []
  else if s.serial.holder = some me then e.passAll (e.setTx s (x.begin e.begLanes true)) w true false []
  else
    let s := if s.serial.queue.contains me then s else { s with serial := { s.serial with queue := s.serial.queue ++ [me] } }
    e.park s .grant

def execTxbeg (w : Main) (s : State) : Host.Outcome State Fault Refusal :=
  onUnit s (fun e => e.leafOnly s (
    let x := e.tx s
    let units := (e.uid, e.th) :: (othersOf e.g e.uid).filter (fun o => o.2.atBeg)
    match meetUnits e.g x e.uid true with
    | .fail => e.txState s
    | .wait => e.park s (.txUnits true)
    | .go =>
      if x.depth = 0 then e.openTx s w
      else if units.any (fun u => u.2.mask &&& x.inTx == 0) then e.txState s
      else if x.depth < 15 then e.passAll (e.setTx s { x with depth := x.depth + 1 }) w true false []
      else if x.excess = 65535 then e.txState s
      else
        let s := abortLanes s e.l.id e.g.first e.begLanes 5
        e.passAll (e.setTx s { e.tx s with excess := x.excess + 1 }) w true false []))

/-! ### Commit (R204) -/

/-- The abort mask: lanes active at the outermost `txbeg` whose ABORTED is 1. -/
def Tx.mask (x : Tx) : Mask := x.lanes &&& x.aborted

/-- Sectors of the entries that some lane that has not aborted still needs. -/
def Tx.sectors (x : Tx) : List PTarget :=
  ((x.reads.filter (fun r => r.lanes &&& ~~~x.aborted != 0)).map (fun r => (⟨r.tgt, r.pa⟩ : PTarget)) ++
    (x.writes.filter (fun w => w.bytes.any (fun b => !laneIn x.aborted b.lane))).map (fun w => (⟨w.tgt, w.pa⟩ : PTarget))).dedup

/-- Lanes whose entries name a sector. -/
def Tx.naming (x : Tx) (p : PTarget) : Mask :=
  (x.reads.filter (fun r => r.tgt == p.tgt && r.pa == p.pa)).foldl (fun m r => m ||| r.lanes) 0 |||
    (x.writes.filter (fun w => w.tgt == p.tgt && w.pa == p.pa)).foldl (fun m w => m ||| maskOf (w.bytes.map WByte.lane)) 0

/-- Locking: a sector locked in serial mode aborts with SERIAL the lanes whose entries name it. -/
def serialAborts (s : State) (lid j : Nat) : State :=
  let x := (s.group lid j).tx
  (x.sectors.filter (fun p => s.lockedBy (some ⟨lid, j⟩) p)).foldl (fun s p => abortLanes s lid j ((s.group lid j).tx.naming p) 9) s

/-- Validation: a read entry whose sector changed aborts its lanes with CONFLICT. -/
def validate (lid j : Nat) : List ReadEnt → State → State
  | [], s => s
  | r :: rs, s =>
    let (now, s) := s.readPhys ⟨r.tgt, r.pa⟩ 16
    validate lid j rs (if now = r.val then s else abortLanes s lid j r.lanes 1)

/-- Applying: the bytes of lanes that have not aborted. -/
def applyWrites (s : State) (core : Nat) (x : Tx) : State :=
  x.writes.foldl (fun s w =>
    let s := (w.bytes.filter (fun b => !laneIn x.aborted b.lane)).foldl (fun s b => s.writePhys ⟨w.tgt, w.pa + b.off⟩ [b.val]) s
    l1Drop s core ⟨w.tgt, w.pa⟩ 16) s

/-- The first sector that the commit can no longer access: its page is no longer the tenant's, its port is in error, or the sector, read
for validation, holds an uncorrectable error (R17, R24, R35). -/
def Tx.lateFail (x : Tx) (s : State) (t : Nat) : Option Code :=
  x.sectors.findSome? (fun p => s.lateFail t p 16 (x.reads.any (fun r => r.tgt == p.tgt && r.pa == p.pa)))

/-- Steps 2 to 5 of R204 for a non-serial transaction whose sectors wait for nobody. -/
def commit (s : State) (lid j core : Nat) : State :=
  let s := serialAborts s lid j
  let s := validate lid j ((s.group lid j).tx.reads.filter (fun r => r.lanes != 0)) s
  let x := (s.group lid j).tx
  applyWrites s core x

/-- The end of the outermost transaction: commit, event 10, release, and the mask. -/
def Exe.closeOuter (e : Exe) (s : State) (w : Main) : State :=
  let x := e.tx s
  let s := if x.serial then s else commit s e.l.id e.g.first e.core
  let x := e.tx s
  let s := if x.lanes &&& ~~~x.aborted = 0 then s else countEvent s e.core 10 1
  e.passAll (closeTx s e.l.id e.g.first) w false true [⟨w.ty, .ofNat x.mask.toNat⟩]

def execTxend (w : Main) (s : State) : Host.Outcome State Fault Refusal :=
  onUnit s (fun e => e.leafOnly s (
    let x := e.tx s
    let mask : TVal := ⟨w.ty, .ofNat x.mask.toNat⟩
    if x.depth = 0 then e.txState s
    else
      match meetUnits e.g x e.uid false with
      | .fail => e.txState s
      | .wait => e.park s (.txUnits false)
      | .go =>
        if 0 < x.excess then e.passAll (e.setTx s { x with excess := x.excess - 1 }) w false false [mask]
        else if 1 < x.depth then e.passAll (e.setTx s { x with depth := x.depth - 1 }) w false false [mask]
        else
          let stuck := x.sectors.filter (fun p => p.tgt == 0 && (s.engineOwned p.pa || s.spilling p.pa))
          if !x.serial && !stuck.isEmpty then e.park s (.lines stuck false)
          else if e.owes s then e.park s .drain
          else if let some c := (if x.serial then none else x.lateFail s e.l.tenant) then e.faultAll s c
          else e.closeOuter s w))

/-! ### Reading and aborting (R202, R404) -/

def execTxabort (w : Main) (s : State) : Host.Outcome State Fault Refusal :=
  onUnit s (fun e => e.leafOnly s (
    if (e.tx s).depth = 0 then e.txState s else e.done (abortLanes s e.l.id e.g.first e.act 3) w))

/-- A U result of the group's transaction state. -/
def txReport (w : Main) (f : Tx → Nat) (s : State) : Host.Outcome State Fault Refusal :=
  onUnit s (fun e => e.leafOnly s (e.define s w [⟨w.ty, .ofNat (f (e.tx s))⟩]))

def execTxmask (w : Main) (s : State) : Host.Outcome State Fault Refusal := txReport w (fun x => x.mask.toNat) s
def execTxdepth (w : Main) (s : State) : Host.Outcome State Fault Refusal := txReport w (fun x => x.depth + x.excess) s
def execTxserial (w : Main) (s : State) : Host.Outcome State Fault Refusal :=
  txReport w (fun x => Word.ofBool x.serial + 256 * x.fails) s

/-- CAUSE of each lane. -/
def execTxcause (w : Main) (s : State) : Host.Outcome State Fault Refusal :=
  onUnit s (fun e => e.leafOnly s (e.define s w [⟨w.ty, e.perLane (fun l => (e.tx s).causes.getD l 0)⟩]))

/-- The arbiter gives the serial grant to the group that asked first, when nobody holds it (R207). -/
def execSerialGrant (s : State) : Host.Outcome State Fault Refusal :=
  .next (
    match s.serial.holder, s.serial.queue with
    | none, r :: rest => { s with serial := { s.serial with holder := some r, queue := rest } }
    | _, _ => s)

end Sys2Proof.Machine
end

