-- ==== Sys2Proof/Machine/Registers.lean ====
section
/-! DEFINITION. Registers as a program reads them: the control-register map of Table 19.3 and the layouts it names. -/

namespace Sys2Proof.Machine

open Sys2Proof

/-- The highest throttle level that acts on a die (R26). -/
def throttle (s : State) (d : Nat) : Nat :=
  let x := s.die d
  if s.pkg.level4 then 4 else if s.pkg.level3 then 3 else if x.level2 then 2 else if x.flux.any (fun p => p.2.acts) then 1 else 0

/-- PKG.DIESTAT (Table 1.2). -/
def dieStat (s : State) (d : Nat) : Nat :=
  let x := s.die d
  revOf d * 2 ^ 24 + (clustersOfDie d).length * 2 ^ 16 + (if narrowDie d then 32 else 64) * 2 ^ 8 + throttle s d * 16 + x.clkStep

/-- A configuration read of the physical function is answered with Request Retry Status: from link-up until step 3 has passed or
failed (Table 1.6, R27). -/
def Package.retriesConfig (p : Package) : Bool := p.linkUp && (decide (p.step < 3) || (p.step == 3 && !p.failed))

/-- CTX.STAT.STATE (Table 4.2). -/
def CtxState.code : CtxState → Nat
  | .disabled => 0 | .running => 1 | .preempted => 2 | .fatal => 3

/-- A context register at an offset from its base (Tables 4.1 to 4.3, 7.4, 9.4, 11.5). -/
def ctxReg (c : Ctx) (off : Nat) : Nat :=
  match off with
  | 0x00 => Word.ofBool c.enable * 2 ^ 31 + c.fatalVec * 2 ^ 24
  | 0x08 => c.state.code * 2 ^ 30 + (if c.state = .fatal then (match c.fatal with | some f => f.cause | none => 0) else 0)
  | 0x10 => c.ptRoot
  | 0x18 => c.dumpBase
  | 0x20 => c.dumpSize
  | 0x28 => c.accBase
  | 0x30 => c.poolBase
  | 0x38 => c.poolMap
  | 0x40 => c.poolPages
  | 0x48 => c.inval
  | 0x50 => Word.ofBool c.invalBusy
  | 0x58 => c.accSize
  | 0x60 => c.undoBase
  | 0x68 => c.undoSize
  | 0x70 => Word.ofBool c.enUnlimited * 2 ^ 63 + c.enBudget
  | 0x78 => c.enRate
  | _ => 0

/-- SLC.ACCSTAT (Table 9.6). -/
def accStat (sl : Slice) : Nat :=
  (sl.dir.filter (fun r => !r.busy)).length * 2 ^ 16 + sl.used * 2 ^ 5 + sl.entries.length

/-- TEN.FBSTATd (Table 7.7). -/
def fbStat (t : Tenant) (d : Nat) : Nat :=
  let b := t.bufs.getD d .reset
  Word.ofBool b.dropped * 2 ^ 31 + b.entries.length

/-- CMP.QDEPTH: distinct keys queued, at most 32 (R138). -/
def queueDepth (c : Cluster) : Nat :=
  min 32 ((c.queue.map (fun r => (r.tenant, r.ctx, r.obj, r.block, r.budget, r.width))).dedup).length

/-- Read control register `k` at index `i`; `none` raises CTL_ACCESS (R410, Table 19.3). -/
def readControl (s : State) (e : Exe) (k i : Nat) : Option Nat :=
  let t := s.tenant e.l.tenant
  let c := s.ctx e.l.tenant e.l.ctx
  let x := s.core e.core
  let only (v : Nat) : Option Nat := if i = 0 then some v else none
  let upTo (n v : Nat) : Option Nat := if i < n then some v else none
  let cl (v : Nat) : Option Nat := if i < 40 ∧ Word.bit t.clmask i then some v else none
  if k = 0x001 then upTo 4 (dieStat s i)
  else if k = 0x010 then only t.clmask
  else if k = 0x011 then only t.cemask
  else if k = 0x012 then upTo 16 (t.wins.getD i 0)
  else if k = 0x013 then only t.mode
  else if k = 0x014 then only t.assist
  else if k = 0x015 then only t.fbLog
  else if k = 0x016 then upTo 4 (fbStat t i)
  else if k = 0x017 then only t.enAllow
  else if 0x020 ≤ k ∧ k ≤ 0x02F ∧ k ≠ 0x029 then only (ctxReg c (8 * (k - 0x020)))
  else if k = 0x040 then upTo 128 (accStat (s.slice i))
  else if k = 0x041 then upTo 128 (s.slice i).spills
  else if k = 0x042 then upTo 128 (s.slice i).finals
  else if 0x050 ≤ k ∧ k ≤ 0x058 then cl ((s.cluster i).counts.getD (k - 0x050) 0)
  else if k = 0x059 then cl (queueDepth (s.cluster i))
  else if k = 0x060 then only c.dbgCtl
  else if k = 0x061 then only (c.dbgGroup % 2 ^ 40 * 2 ^ 24 + c.dbgCode * 2 + Word.ofBool c.dbgHit)
  else if k = 0x080 then only x.evsel
  else if k = 0x081 then upTo 4 (x.evcnt.getD i 0)
  else none

/-- Event codes of CORE.EVSEL: bits [63:32] are 0 and every selected code is defined (R411). -/
def evselOk (v : Nat) : Bool := decide (v < 2 ^ 32) && (List.range 4).all (fun j => decide (v / 256 ^ j % 256 ≤ 12))

/-- Write control register `k`; `none` raises CTL_ACCESS. -/
def writeControl (s : State) (e : Exe) (k i v : Nat) : Option State :=
  let x := s.core e.core
  if k = 0x080 ∧ i = 0 ∧ evselOk v then some (s.setCore e.core { x with evsel := v })
  else if k = 0x081 ∧ i < 4 then some (s.setCore e.core { x with evcnt := x.evcnt.set i v })
  else none

end Sys2Proof.Machine
end

