-- ==== Sys2Proof/Machine/Sync.lean ====
section
/-! DEFINITION. Fences, barriers, register-mapped queues, code and cache maintenance, control registers, timing, traps and
checks (R406 to R413). -/

namespace Sys2Proof.Machine

open Sys2Proof

/-! ### Shapes -/

/-- A form that a multi-group galley executes once unless an operand it reads is class S (R398). -/
def onceForm (s : State) (os : Exe → List TVal) (f : Exe → State) : Host.Outcome State Fault Refusal :=
  onUnit s (fun e => if (os e).any (fun v => decide (v.val.cls = 2)) && e.multi then e.unfold s else f e)

/-- A U result of the executing unit. -/
def Exe.report (e : Exe) (s : State) (w : Main) (v : Nat) : State := e.define s w [⟨w.ty, .ofNat v⟩]

/-! ### Fences (R406) -/

def execFence (w : Main) (s : State) : Host.Outcome State Fault Refusal :=
  onUnit s (fun e => e.noTx s w [] (fun _ => if e.owes s then e.park s .drain else e.done s w))

/-! ### Barriers (R114, R407) -/

/-- Arrive with the count operand; `split` for `bararr`. -/
def arriveForm (w : Main) (split : Bool) (s : State) : Host.Outcome State Fault Refusal :=
  onceForm s (fun e => [e.opnd s .n32 w.a]) (fun e => e.noTx s w [] (fun _ =>
    checkArrival (e.park s (.barrier (e.num s .n32 w.a) split)) e.uid.galley))

def execBarr (w : Main) (s : State) : Host.Outcome State Fault Refusal := arriveForm w false s
def execBararr (w : Main) (s : State) : Host.Outcome State Fault Refusal := arriveForm w true s

/-- Phase of the galley's domain. -/
def Exe.domPhase (e : Exe) : Nat := (e.l.domains.getD (e.l.domainOf e.g.first) .empty).phase

/-- The recorded phase of a split arrival has completed. -/
def Exe.phaseDone (e : Exe) : Bool := !e.g.pending || e.domPhase != e.g.recorded

def execBarwait (w : Main) (s : State) : Host.Outcome State Fault Refusal :=
  onUnit s (fun e => e.noTx s w [] (fun _ =>
    if !e.g.pending then e.faultAll s .barrierState
    else if e.phaseDone then
      e.done (s.setGalley { e.g with pending := false, phase := (e.g.phase + 1) % 2 ^ 32 }) w
    else e.park s (.phase e.g.recorded)))

def execBartest (w : Main) (s : State) : Host.Outcome State Fault Refusal :=
  onUnit s (fun e => e.report s w (Word.ofBool e.phaseDone))

def execBarphase (w : Main) (s : State) : Host.Outcome State Fault Refusal := onUnit s (fun e => e.report s w e.g.phase)

/-- The membership register (Table 19.2). -/
def membership (l : Launch) (g : Galley) : Nat :=
  l.domainOf g.first % 2 ^ 40 * 2 ^ 24 + Word.ofBool g.pending * 4 + l.domLevel % 4

def execDmember (w : Main) (s : State) : Host.Outcome State Fault Refusal :=
  onUnit s (fun e => e.report s w (membership e.l e.g))

/-! ### Register-mapped queues (R118, R408) -/

/-- Scratchpad byte of an entry of queue `q`. -/
def ringEntry (l : Launch) (q n : Nat) : Nat := l.spad - 8192 + 512 * q + 8 * (n % 64)

/-- Entries present. -/
def queueCount (h : Nat × Nat) : Nat := (h.2 + 2 ^ 16 - h.1) % 2 ^ 16

/-- The queue forms act on a leaf; QUEUE_SPACE where the launch has no rings. -/
def queueForm (s : State) (w : Main) (f : Exe → Nat → Core → State) : Host.Outcome State Fault Refusal :=
  onUnit s (fun e => e.leafOnly s (
    if e.l.spad < 8192 then e.faultAll s .queueSpace else f e (immNat w.a) (s.core e.core)))

/-- Head and tail of a queue. -/
def Core.queue (x : Core) (q : Nat) : Nat × Nat := x.queues.getD q (0, 0)

/-- One value pushed at the tail. -/
def pushEntry (l : Launch) (q : Nat) (x : Core) (v : Nat) : Core :=
  let (h, t) := x.queue q
  { x with spad := x.spad.writeNat (ringEntry l q t) 8 v, queues := x.queues.set q (h, (t + 1) % 2 ^ 16) }

/-- Entries popped from the head, as many as there are lanes. -/
def popEntries (l : Launch) (q : Nat) : List Nat → Core → List (Nat × Nat) × Core
  | [], x => ([], x)
  | lane :: ls, x =>
    let (h, t) := x.queue q
    let v := x.spad.readNat (ringEntry l q h) 8
    let (r, x) := popEntries l q ls { x with queues := x.queues.set q ((h + 1) % 2 ^ 16, t) }
    ((lane, v) :: r, x)

/-- What the group did before the push happens before it (R176): its stores and no-return atomics are performed first. -/
def execQpush (w : Main) (s : State) : Host.Outcome State Fault Refusal :=
  queueForm s w (fun e q x => e.noTx s w [] (fun _ =>
    let ls := lanesIn e.act
    if 64 - queueCount (x.queue q) < ls.length then e.park s (.queueSpace q ls.length)
    else if e.owes s then e.park s .drain
    else
      let v := e.opnd s w.ty w.b
      e.done (s.setCore e.core (ls.foldl (fun x l => pushEntry e.l q x (e.lane v l)) x)) w))

/-- A pop follows the group's no-return atomics, and its native stores that share a byte with the entries (R355, R408). -/
def execQpop (w : Main) (s : State) : Host.Outcome State Fault Refusal :=
  queueForm s w (fun e q x => e.noTx s w [w.ty] (fun _ =>
    let ls := lanesIn e.act
    let (h, _) := x.queue q
    if queueCount (x.queue q) < ls.length then e.park s (.queueData q ls.length)
    else if !(e.owed s).isEmpty || (List.range ls.length).any (fun i => e.spadStoresAt (ringEntry e.l q (h + i)) 8) then e.park s .drain
    else
      let (vs, x) := popEntries e.l q ls x
      e.define (s.setCore e.core x) w [⟨w.ty, e.perLane (fun l =>
        (match vs.find? (fun v => v.1 == l) with | some v => v.2 | none => 0) % 2 ^ w.ty.width)⟩]))

def execQcount (w : Main) (s : State) : Host.Outcome State Fault Refusal :=
  queueForm s w (fun e q x => e.report s w (queueCount (x.queue q)))

def execQspace (w : Main) (s : State) : Host.Outcome State Fault Refusal :=
  queueForm s w (fun e q x => e.report s w (64 - queueCount (x.queue q)))

/-! ### Code and cache maintenance (R276, R409) -/

/-- The last byte of a range lies at 2^57 or above. -/
def rangeBad (a n : Nat) : Bool := decide (0 < n) && decide (2 ^ 57 ≤ a + n - 1)

def execIcinv (w : Main) (s : State) : Host.Outcome State Fault Refusal :=
  onceForm s (fun e => [e.opnd s .n64 w.a, e.opnd s .n64 w.b]) (fun e => e.noTx s w [] (fun _ =>
    let a := e.num s .n64 w.a
    let n := e.num s .n64 w.b
    if rangeBad a n then e.fault s .nonCanonical e.leadLane a
    else if n = 0 then e.done s w
    else
      let (id, s) := s.fresh
      let x : IcInv := ⟨id, e.l.tenant, e.l.ctx, a, n, e.l.id, e.g.first, e.g.count⟩
      e.done { s with icinvs := s.icinvs ++ [x] } w))

def execFbar (w : Main) (s : State) : Host.Outcome State Fault Refusal :=
  onUnit s (fun e => e.noTx s w [] (fun _ =>
    let mine (x : IcInv) : Bool :=
      x.launch == e.l.id && decide (x.first < e.g.first + e.g.count) && decide (e.g.first < x.first + x.count)
    if s.icinvs.any mine then e.park s .fbar else e.done s w))

/-- Remove from a core's L1 what it holds of the lines with a byte of a virtual range, under the addresses it was read through: the
range is not translated (R409). -/
def l1DropRange (s : State) (core a n : Nat) : State :=
  let x := s.core core
  let hit (line : Nat) : Bool := decide (128 * line < a + n) && decide (a < 128 * line + 128)
  s.setCore core { x with l1 := x.l1.filter (fun e => !e.2.lines.any hit) }

def execL1inv (w : Main) (s : State) : Host.Outcome State Fault Refusal :=
  onceForm s (fun e => [e.opnd s .n64 w.a, e.opnd s .n64 w.b]) (fun e =>
    let a := e.num s .n64 w.a
    let n := e.num s .n64 w.b
    if rangeBad a n then e.fault s .nonCanonical e.leadLane a
    else if n = 0 then e.done (s.setCore e.core { s.core e.core with l1 := [] }) w
    else e.done (l1DropRange s e.core a n) w)

/-- A translation's block or constant pool holds a byte of a virtual range. -/
def Xlat.meets (x : Xlat) (a n : Nat) : Bool :=
  rangesMeet x.textAt (8 * x.words.length) a n || rangesMeet x.poolAt (8 * x.pool.length) a n

/-- Step 3 of R276: the L1 sectors and text shadows of the context that hold a byte of the range, and the translations whose block or
constant pool holds one. -/
def discardText (s : State) (t k a n : Nat) : State :=
  let s := s.cores.foldl (fun s p =>
    match p.2.launch.bind s.launch? with
    | some l => if l.tenant = t ∧ l.ctx = k then l1DropRange s p.1 a n else s
    | none => s) s
  let c := s.ctx t k
  let hit (o : CodeObj) (p : Nat) : Bool := rangesMeet (o.va + o.pageBase + 65536 * p) 65536 a n
  let s := s.setCtx t k { c with objs := c.objs.map (fun o => { o with shadows := o.shadows.filter (fun p => !hit o p.1) }) }
  { s with xlats := s.xlats.map (fun x => if x.tenant = t ∧ x.ctx = k ∧ x.meets a n then { x with live := false } else x) }

/-- An `icinv` completes on every cluster. -/
def execIcinvDone (id : Nat) (s : State) : Host.Outcome State Fault Refusal :=
  .next (
    match s.icinvs.find? (fun x => x.id == id) with
    | none => s
    | some x => discardText { s with icinvs := s.icinvs.filter (fun y => y.id != id) } x.tenant x.ctx x.va x.len)

/-! ### Control registers and timing (R410 to R412) -/

def execRdctl (w : Main) (s : State) : Host.Outcome State Fault Refusal :=
  onceForm s (fun e => [e.opnd s .n32 w.b]) (fun e =>
    match readControl s e (immNat w.a) (e.num s .n32 w.b) with
    | some v => e.report s w v
    | none => e.faultAll s .ctlAccess)

def execWrctl (w : Main) (s : State) : Host.Outcome State Fault Refusal :=
  onceForm s (fun e => [e.opnd s .n32 w.b, e.opnd s .b64 w.c]) (fun e => e.noTx s w [] (fun _ =>
    match writeControl s e (immNat w.a) (e.num s .n32 w.b) (e.num s .b64 w.c) with
    | some s => e.done s w
    | none => e.faultAll s .ctlAccess))

def execRdclk (w : Main) (s : State) : Host.Outcome State Fault Refusal :=
  onUnit s (fun e => e.report s w (s.pkg.clock % 2 ^ 64))

/-- `nap` parks the group; NAP_EXPIRY lets it go on. -/
def execNap (w : Main) (s : State) : Host.Outcome State Fault Refusal :=
  onceForm s (fun e => [e.opnd s .n64 w.a]) (fun e => e.park s .nap)

/-- A napping unit of a galley goes on past its `nap`, unless its context stops (R48, R88, R92). -/
def execNapExpiry (g : Nat) (s : State) : Host.Outcome State Fault Refusal :=
  .next (
    match s.galley? g with
    | none => s
    | some x =>
      match s.launch? x.launch, x.units.find? (fun u => u.2.wait == .nap) with
      | some l, some u =>
        let c := s.ctx l.tenant l.ctx
        if c.state = .running ∧ !(match c.preempt with | some p => p.stopping | none => false) then putThread s u.1 u.2.past else s
      | _, _ => s)

/-- Set a candidate's round bit at a queue (R132). -/
def setRound (x : Core) (q : Nat) (c : Nat × Nat) : Core :=
  let r := x.rounds.getD q []
  if r.contains c then x else { x with rounds := x.rounds.set q (c :: r) }

def execYield (w : Main) (s : State) : Host.Outcome State Fault Refusal :=
  onUnit s (fun e =>
    let c := (e.uid.galley, e.uid.path)
    e.done (s.setCore e.core ([0, 1, 2].foldl (fun x q => setRound x q c) (s.core e.core))) w)

def execHint (w : Main) (s : State) : Host.Outcome State Fault Refusal := onUnit s (fun e => e.done s w)

/-! ### Traps and checks (R413) -/

def execTrap (w : Main) (s : State) : Host.Outcome State Fault Refusal :=
  onUnit s (fun e => e.fault s .trap (faultLane e.uid) 0 (immNat w.a))

def execChk (w : Main) (s : State) : Host.Outcome State Fault Refusal :=
  onceForm s (fun e => [e.opnd s .p w.a]) (fun e =>
    let p := e.opnd s .p w.a
    match (e.actors [p]).find? (fun i => e.at_ p i % 2 == 0) with
    | some i => e.fault s .check i.2 0 (immNat w.b)
    | none => e.done s w)

/-! ### Breakpoints (R414) -/

/-- `brk` does nothing unless its bit of BRKMASK is 1; the first to take pre-empts the context in capture mode, and a
later one stops its unit. In an open transaction the unit goes on, since its group is captured after its outermost `txend` (R209; log
28). -/
def execBrk (w : Main) (s : State) : Host.Outcome State Fault Refusal :=
  onUnit s (fun e =>
    let k := immNat w.a
    let c := s.ctx e.l.tenant e.l.ctx
    if e.th.brkOk ∨ !Word.bit c.dbgCtl (k % 16) ∨ c.state ≠ .running then e.done s w
    else
      let s := if e.tx?.isSome then e.done s w else e.park s .stopped
      match c.preempt with
      | some _ => s
      | none =>
        s.setCtx e.l.tenant e.l.ctx { s.ctx e.l.tenant e.l.ctx with
          dbgHit := true, dbgCode := k, dbgGroup := e.g.first
          preempt := some { packet := none, mode := 0, stopping := true, txOver := false, saveVa := c.dbgSave, saveLen := c.dbgSize,
                            brk := true } })

end Sys2Proof.Machine
end

