-- ==== Sys2Proof/Machine/Native.lean ====
section
/-! DEFINITION. Native-only words (R253, R258), load replies and store pairs (R252, R255, R256), and the end of a galley body at
`unf` (R272). -/

namespace Sys2Proof.Machine

open Sys2Proof

/-! ### Native-only words (Table 12.4) -/

/-- A native-only word acts on a unit that runs native words; elsewhere it does not occur. -/
def nativeUnit (s : State) (f : Exe → NativeRun → State) : Host.Outcome State Fault Refusal :=
  onUnit s (fun e => match e.th.native with | some n => f e n | none => s)

/-- The word issues, with the heads that it names popped. -/
def Exe.nativeDone (e : Exe) (s : State) (w : NatWord) (n : NativeRun) : State :=
  e.nativeIssue s n w.queue w.tokens n.reads false

/-- OFF of a word. -/
def spillOff (w : NatWord) : Nat := w.a * 512 + w.c

/-- Bytes of a lane's slot, by TYPE; TYPE 2 is one uniform value. -/
def spillSlot (w : NatWord) : Nat := if w.ty = 0 then 4 else 8

/-- Bytes that a spill or fill covers for `g` lanes. -/
def spillLen (w : NatWord) (g : Nat) : Nat := if w.ty = 2 then 8 else spillSlot w * g

/-- First scratchpad byte of lane `l` in the slot's share (R253). -/
def NativeRun.spillAt (n : NativeRun) (w : NatWord) (l : Nat) : Nat :=
  n.share + 4 * spillOff w + (if w.ty = 2 then 0 else spillSlot w * l)

/-- Lanes that a spill or fill acts for: one for a uniform value. -/
def Exe.spillLanes (e : Exe) (w : NatWord) : List Nat := if w.ty = 2 then [0] else lanesIn e.act

def execSpill (w : NatWord) (s : State) : Host.Outcome State Fault Refusal :=
  nativeUnit s (fun e n =>
    if n.shareLen < 4 * spillOff w + spillLen w e.l.g then e.faultAll s .nativeFormat
    else
      let x := s.core e.core
      let k := spillSlot w
      let spad := (e.spillLanes w).foldl (fun (m : Memory) l => m.writeNat (n.spillAt w l) k (n.value w.b l (8 * k))) x.spad
      e.nativeDone (s.setCore e.core { x with spad := spad }) w n)

def execFill (w : NatWord) (s : State) : Host.Outcome State Fault Refusal :=
  nativeUnit s (fun e n =>
    if n.shareLen < 4 * spillOff w + spillLen w e.l.g then e.faultAll s .nativeFormat
    else
      let k := spillSlot w
      e.nativeDone s w (n.put e w.d (8 * k) (fun l => (s.core e.core).spad.readNat (n.spillAt w l) k)))

def execMat (w : NatWord) (s : State) : Host.Outcome State Fault Refusal :=
  nativeUnit s (fun e n =>
    let base := BitVec.ofNat 64 (n.value w.a 0 64)
    let step := BitVec.ofNat 64 (n.value w.b 0 64)
    let width := if w.ty = 0 then 32 else 64
    e.nativeDone s w ((n.put e w.d width (fun l => affineAt base step (e.g.first * e.l.g + l) % 2 ^ width)).setAffine e.multi w.d width (.a base step)))

def execTnop (w : NatWord) (s : State) : Host.Outcome State Fault Refusal := nativeUnit s (fun e n => e.nativeDone s w n)

/-- The oldest entry of a load queue has arrived. -/
def NativeRun.headReady (n : NativeRun) (k : Nat) : Bool :=
  match n.loads.getD k [] with
  | x :: _ => x.arrived
  | [] => false

/-- `hmov` parks while an entry it takes has not arrived (R252). -/
def execHmov (w : NatWord) (s : State) : Host.Outcome State Fault Refusal :=
  nativeUnit s (fun e n =>
    let width := if w.ty = 0 then 32 else 64
    if !n.headReady (w.a - 480) || (width == 64 && !n.headReady (w.a - 479)) then s
    else e.nativeDone s w (n.put e w.d width (fun l => n.value w.a l width)))

/-- The function's constant pool. -/
def Exe.pool (e : Exe) (s : State) : List Nat := match e.xlat? s with | some x => x.pool | none => []

/-- `ldk` reads the pool through the L1 (R156). -/
def execLdk (w : NatWord) (s : State) : Host.Outcome State Fault Refusal :=
  nativeUnit s (fun e n =>
    let width := if w.ty = 0 then 32 else 64
    let v := (e.pool s).getD (spillOff w) 0
    let s := match e.xlat? s with | some x => l1Pool s e.core x (spillOff w) 1 | none => s
    e.nativeDone s w (n.put e w.d width (fun _ => v % 2 ^ width)))

/-- `unf OFF`: the galley's values are captured at its concordance entry, once every access it issued is accepted (R102), and each
leaf enters its body at instruction OFF (R272). -/
def execUnf (w : NatWord) (s : State) : Host.Outcome State Fault Refusal :=
  nativeUnit s (fun e _ =>
    if e.owes s then e.park s .drain
    else
      unfold s e.l (e.g.setThread e.uid { (e.th.captured s e.core e.l.g e.g.first NativeRun.entryHere) with instr := spillOff w }) e.core)

/-! ### Replies and stores -/

/-- Entries of the load queues of a unit whose reply has not arrived: queue and place. -/
def NativeRun.outstanding (n : NativeRun) : List (Nat × Nat) :=
  (List.range 16).flatMap (fun k => ((n.loads.getD k []).mapIdx (fun i x => (k, i, x.arrived))).filterMap (fun x =>
    if x.2.2 then none else some (x.1, x.2.1)))

/-- Every outstanding entry of a galley. -/
def Galley.outstanding (g : Galley) : List (UnitId × Nat × Nat) :=
  g.units.flatMap (fun u => match u.2.native with | some n => n.outstanding.map (fun x => (u.1, x)) | none => [])

/-- A unit's native state changes; a counter above 255 raises TOKEN_OVERFLOW (R255). -/
def putNative (s : State) (u : UnitId) (n : NativeRun) : State :=
  match s.galley? u.galley with
  | none => s
  | some g =>
    match s.launch? g.launch, g.thread? u with
    | some l, some th =>
      let th := { th with native := some n }
      let g := g.setThread u th
      if n.overflow then galleyFault (s.setGalley g) g l (u, th) .tokenOverflow else s.setGalley g
    | _, _ => s

/-- A reply arrives: one outstanding entry, freely chosen, is complete, and its load's push bits take effect. -/
def execMemoryReply (gid : Nat) (s : State) : Host.Outcome State Fault Refusal :=
  .next (
    match s.galley? gid with
    | none => s
    | some g =>
      let out := g.outstanding
      if out.isEmpty then s
      else
        let (i, s) := s.choose out.length
        match out[i]? with
        | none => s
        | some (u, k, j) =>
          match (g.thread? u).bind Thread.native with
          | none => s
          | some n =>
            let q := n.loads.getD k []
            putNative s u { n with
              loads := n.loads.set k (q.mapIdx (fun m x => if m = j then { x with arrived := true } else x))
              tokens := pushTokens 0 (((q[j]?).map LoadEntry.push).getD 0) n.tokens })

/-- A unit as an executing one, whether or not it issues. -/
def exeAt (s : State) (u : UnitId) : Option Exe := exe? { s with cur := [u] }

/-- Units of a galley with a store whose two halves have both issued. -/
def Galley.storeUnits (g : Galley) : List UnitId :=
  (g.units.filter (fun u => match u.2.native with | some n => !n.stores.isEmpty && !n.data.isEmpty | none => false)).map Prod.fst

/-- The bytes that a lane stores: its data, put into the bytes that stand there where an element is narrower. -/
def StoreA.bytesOf (a : StoreA) (lane : Nat) (val : Nat) (old : List Byte) : List Byte :=
  match a.narrow.find? (fun x => x.1 == lane) with
  | some (_, bit, bits) => (ElemPlace.mk 0 bit bits).put old val
  | none => leBytes a.bytes val

/-- The targets of a store by the group and lane that store there, in ascending order. Those of lanes that a transaction has aborted are
dropped (R200), but for scratchpad, where a store is performed at once and never undone (R352). -/
def Exe.storeParts (e : Exe) (a : StoreA) : List (Nat × List (Req × PTarget × Bool)) :=
  ((a.targets.map Prod.fst).dedup.filter (fun k => a.spad || e.multi || laneIn e.act k)).map (fun k =>
    (k, (a.targets.filter (fun t => t.1 == k)).map (fun t => (⟨e.g.first + k / e.l.g, k % e.l.g, t.2.2, a.bytes, 1⟩, ⟨t.2.1, t.2.2⟩, false))))

/-- Store the parts of a native store to memory, one lane after another. -/
def Exe.storeEach (e : Exe) (a : StoreA) (d : StoreS) : List (Nat × List (Req × PTarget × Bool)) → State → State
  | [], s => s
  | (k, mine) :: rest, s =>
    let (old, s) := if a.narrow.any (fun x => x.1 == k) then e.loadAll false mine s else (.ok [], s)
    let bs := a.bytesOf k (d.lanes.getD k 0) (match old with | .ok vs => vs.map (fun v => BitVec.ofNat 8 v.2) | .error _ => [])
    match e.storeAll (fun r => if mine.length = 1 then bs else (bs.drop (mine.findIdx (fun t => t.1.va == r.va))).take r.n) mine s
        (rest.flatMap Prod.snd) with
    | (.error (r, c), s) => e.fault s c r.lane r.va
    | (.ok (), s) => Exe.storeEach e a d rest s

/-- Perform a store in lane order. One whose page is no longer its tenant's or whose port is in error faults (R24, R35; log 31). -/
def Exe.performStore (e : Exe) (s : State) (a : StoreA) (d : StoreS) : State :=
  let ps := e.storeParts a
  if a.spad then
    ps.foldl (fun s p => p.2.foldl (fun s t => e.storeSpad s t.2.1.pa (leBytes a.bytes (d.lanes.getD p.1 0))) s) s
  else
    match (ps.flatMap Prod.snd).findSome? (fun t => (s.lateFail e.l.tenant t.2.1 t.1.n false).map (fun c => (t.1.lane, c))) with
    | some (lane, c) => e.fault s c lane
    | none => e.storeEach a d ps s

/-- The oldest store of a unit of the galley whose address and data words have both issued is performed (R256), and its push bits take
effect; it waits for lines that others own or have locked (R178, R208). -/
def execStorePerformed (gid : Nat) (s : State) : Host.Outcome State Fault Refusal :=
  .next (
    match s.galley? gid with
    | none => s
    | some g =>
      let us := g.storeUnits
      if us.isEmpty then s
      else
        let (i, s) := s.choose us.length
        match us[i]?.bind (exeAt s) with
        | none => s
        | some e =>
          match e.th.native with
          | none => s
          | some n =>
            match n.stores, n.data with
            | a :: as, d :: ds =>
              if !a.spad && e.tx? != some false && a.targets.any (fun t => s.blockedSpan e.me true ⟨t.2.1, t.2.2⟩ a.bytes) then s
              else
                putNative (e.performStore s a d) e.uid
                  { n with stores := as, data := ds, tokens := pushTokens 2 d.push (pushTokens 0 a.push n.tokens) }
            | _, _ => s)

end Sys2Proof.Machine
end

