-- ==== Sys2Proof/Machine/EngineRun.lean ====
section
/-! DEFINITION. Engine commands as the engines perform them: completion (R162, R177 to R179, R242, R243, R246, R366 to
R369), failure (R243), and the emissions of the sequencer (R244, R245, R247). -/

namespace Sys2Proof.Machine

open Sys2Proof

/-! ### Accesses of an engine -/

/-- Where the work of an engine stands: it waits, it has failed at an address, or it has gone on as far as it can now, with the
moves that a serial lock still delays (R206). -/
inductive Ran where
  | wait (s : State)
  | fail (s : State) (va : Nat) (c : Code)
  | go (s : State) (left : List Move)
  deriving DecidableEq, Repr

/-- Translations of an ordered list of requests: the targets up to the first that fails or waits, the failure if that is
how they end, and whether they wait. -/
structure Scan where
  ts   : List PTarget
  stop : Option (Req × Code)
  wait : Bool
  deriving DecidableEq, Repr

def Command.view (c : Command) : View := ⟨clusterOf c.core, none, c.tenant, c.ctx, c.walks, .command c.id⟩

/-- A span of device memory that command `id` must wait for: lines that an earlier command or a conversion owns, and lines in
SPILLING (R178, R198). -/
def State.heldFrom (s : State) (id : Nat) (t : PTarget) (n : Nat) : Bool :=
  t.tgt == 0 && (spanLines t.pa n).any (fun l =>
    s.commands.any (fun c => decide (c.id < id) && s.commandOwns c l) || s.relayouts.any (fun r => r.active.any (fun o => o.lines.contains l)) ||
      s.spilling l)

def Look.isOk : Look → Bool
  | .ok _ _ => true
  | _ => false

/-- Look an engine's requests up: walks begin, page faults are joined (R243), and the first failing one is named. -/
def engScan (s : State) (v : View) (id : Nat) (a : Access) (rs : List Req) : Scan × State :=
  let (ks, s) := lookAll v a rs s
  let oks := (ks.takeWhile (fun k => k.2.isOk)).filterMap (fun k => match k.2 with | .ok p _ => some (k.1, p) | _ => none)
  let missing := ks.filter (fun k => k.2 == .unknown)
  if !missing.isEmpty then (⟨[], none, true⟩, missing.foldl (fun s k => askWalk s v k.1.grp k.1.va a) s)
  else if oks.any (fun k => s.heldFrom id k.2 k.1.n) then (⟨[], none, true⟩, s)
  else
    match ks.find? (fun k => match k.2 with | .fail _ => true | _ => false) with
    | some (r, .fail c) => (⟨oks.map Prod.snd, some (r, c), false⟩, s)
    | _ =>
      let waits := ks.filter (fun k => k.2 == .inFault)
      if !waits.isEmpty then (⟨[], none, true⟩, waits.foldl (fun s k => joinFault s v k.1.grp k.1.va a) s)
      else (⟨oks.map Prod.snd, none, false⟩, s)

def Access.engRd : Access := { Access.rd with engine := true }
def Access.engWr : Access := { Access.wr with engine := true }

/-- Read each request's bytes. -/
def readTargets (s : State) : List (Req × PTarget) → List (Nat × List Byte) × State
  | [] => ([], s)
  | (r, t) :: rest =>
    let (b, s) := s.readFor none t r.n
    let (bs, s) := readTargets s rest
    ((r.va, b) :: bs, s)

/-- Reads that an engine makes before it moves data: records, bitmap words, scale words. -/
def engRead (s : State) (v : View) (id : Nat) (rs : List Req) (go : List (Nat × List Byte) → State → Ran) : Ran :=
  let (k, s) := engScan s v id .engRd rs
  if k.wait then .wait s
  else
    match k.stop with
    | some (r, c) => .fail s r.va c
    | none =>
      let (bs, s) := readTargets s (rs.zip k.ts)
      go bs s

/-! ### Moves -/

/-- Bytes that hold the bits of a place. -/
def Place.bytes (p : Place) (bits : Nat) : Nat := (p.bit + bits + 7) / 8

def Move.srcReq (i : Nat) (m : Move) : Option Req :=
  match m.src with
  | some p => if p.spad then none else some ⟨0, i, p.addr, p.bytes m.bits, 1⟩
  | none => none

def Move.dstReq (i : Nat) (m : Move) : Option Req := if m.dst.spad then none else some ⟨0, i, m.dst.addr, m.dst.bytes m.bits, 1⟩

/-- Read a place; a global one at its target. -/
def readPlace (s : State) (core : Nat) (p : Place) (bits : Nat) (t : PTarget) : Nat × State :=
  let n := p.bytes bits
  let (bs, s) := if p.spad then ((s.core core).spad.readBytes p.addr n, s) else s.readFor none t n
  (leNat bs / 2 ^ p.bit % 2 ^ bits, s)

/-- Write a place: whole bytes as they are, others by a read-modify-write of their bytes. -/
def writePlace (s : State) (core : Nat) (p : Place) (bits : Nat) (t : PTarget) (v : Nat) : State :=
  let n := p.bytes bits
  let whole : Bool := p.bit == 0 && bits % 8 == 0
  if p.spad then
    let x := s.core core
    let bs := if whole then leBytes n v else (ElemPlace.mk p.addr p.bit bits).put (x.spad.readBytes p.addr n) v
    s.setCore core { x with spad := x.spad.writeBytes p.addr bs }
  else if whole then s.writePhys t (leBytes n v)
  else
    let (old, s) := s.readPhys t n
    s.writePhys t ((ElemPlace.mk p.addr p.bit bits).put old v)

/-- A move with the targets of its global source and destination. -/
structure Aim where
  m : Move
  s : PTarget
  d : PTarget
  deriving DecidableEq, Repr

/-- Give each move the targets of its global ends, in order. -/
def aims : List Move → List PTarget → List PTarget → List Aim
  | [], _, _ => []
  | m :: ms, ss, ds =>
    let gs : Bool := match m.src with | some p => !p.spad | none => false
    let gd : Bool := !m.dst.spad
    ⟨m, ss.headD ⟨0, 0⟩, ds.headD ⟨0, 0⟩⟩ :: aims ms (if gs then ss.drop 1 else ss) (if gd then ds.drop 1 else ds)

/-- Bytes `off` to `off + n − 1` of a place, and of a move of whole bytes. -/
def Place.at (p : Place) (off : Nat) : Place := { p with addr := p.addr + off }

def Aim.part (a : Aim) (off n : Nat) : Aim :=
  { m := { src := a.m.src.map (fun p => p.at off), val := a.m.val / 256 ^ off, dst := a.m.dst.at off, bits := 8 * n }
    s := ⟨a.s.tgt, a.s.pa + off⟩
    d := ⟨a.d.tgt, a.d.pa + off⟩ }

/-- Cut `n` bytes from offset `off` on, `first` of them before the first boundary of `unit` bytes. -/
def unitCuts (unit : Nat) : Nat → Nat → Nat → Nat → List (Nat × Nat)
  | 0, _, _, _ => []
  | fuel + 1, off, first, n => if n = 0 then [] else (off, min first n) :: unitCuts unit fuel (off + min first n) unit (n - min first n)

/-- A move of whole bytes in parts that cross no boundary of `unit` bytes from the address `at_` of its destination; another is one
part. -/
def Aim.cut (a : Aim) (at_ unit : Nat) : List Aim :=
  if a.m.bits % 8 = 0 ∧ a.m.dst.bit = 0 then
    (unitCuts unit (a.m.bits / (8 * unit) + 2) 0 (unit - at_ % unit) (a.m.bits / 8)).map (fun p => a.part p.1 p.2)
  else [a]

/-- The destination of a move waits for a serial lock: on a line of device memory, which the command owns once the lock is released
(R206), and on a sector of a peer (R208). -/
def Aim.locked (s : State) (a : Aim) : Bool :=
  let n := a.m.dst.bytes a.m.bits
  !a.m.dst.spad && (if a.d.tgt = 0 then (spanLines a.d.pa n).any (fun l => s.spanLocked ⟨0, l⟩ 128) else s.spanLocked a.d n)

/-- The pieces in which a move is made: one for each line where a lock delays some of its lines, since its other lines are not
delayed (R206). -/
def Aim.pieces (s : State) (a : Aim) : List Aim :=
  if a.locked s then a.cut a.d.pa 128 else [a]

/-- The 16-byte sector of the destination of a move, by its address. -/
def Aim.sector (a : Aim) : Bool × Nat := (a.m.dst.spad, a.m.dst.addr / 16)

/-- Perform one move. -/
def Aim.make (core : Nat) (s : State) (a : Aim) : State :=
  let (v, s) := match a.m.src with
    | some p => readPlace s core p a.m.bits a.s
    | none => (a.m.val % 2 ^ a.m.bits, s)
  writePlace s core a.m.dst a.m.bits a.d v

/-- Perform moves in order, all but those that a serial lock delays: these are left. -/
def doMoves (core : Nat) (as : List Aim) (s : State) : List Move × State :=
  let ps := as.flatMap (Aim.pieces s)
  ((ps.filter (Aim.locked s)).map Aim.m, (ps.filter (fun a => !a.locked s)).foldl (Aim.make core) s)

/-- What a command that fails has written: of the sectors before the failing move a free number, in order, and none of them in part,
since an engine writes a sector at once (R170, R243). -/
def writtenBefore (n : Nat) (before after : List Aim) : List Aim :=
  let rest := (before.drop n ++ after).map Aim.sector
  (before.take n).filter (fun a => !rest.contains a.sector)

/-- Translate and perform moves; on a failure a free part of what comes before it has been written (R243). -/
def runMoves (s : State) (v : View) (id core : Nat) (ms : List Move) : Ran :=
  let srcs := (ms.mapIdx Move.srcReq).filterMap id'
  let dsts := (ms.mapIdx Move.dstReq).filterMap id'
  let (a, s) := engScan s v id .engRd srcs
  if a.wait then .wait s
  else
    let (b, s) := engScan s v id .engWr dsts
    if b.wait then .wait s
    else
      let stop : Option (Req × Code) :=
        match a.stop, b.stop with
        | some x, some y => if x.1.lane ≤ y.1.lane then some x else some y
        | some x, none => some x
        | none, y => y
      match stop with
      | none =>
        let (left, s) := doMoves core (aims ms a.ts b.ts) s
        .go s left
      | some (r, c) =>
        let cut (as : List Aim) : List Aim := as.flatMap (fun x => x.cut x.m.dst.addr 16)
        let before := cut (aims (ms.take r.lane) a.ts b.ts)
        let (n, s) := s.choose (before.length + 1)
        let written := writtenBefore n before (cut (aims (ms.drop r.lane) [] []))
        .fail ((written.filter (fun x => !x.locked s)).foldl (Aim.make core) s) r.va c
where id' (x : Option Req) : Option Req := x

/-! ### What a command moves -/

/-- Parts of a span that cross a page boundary of neither address. -/
def copyParts : Nat → Nat → Nat → Nat → List (Nat × Nat × Nat)
  | 0, _, _, _ => []
  | fuel + 1, a, b, n =>
    if n = 0 then []
    else
      let k := min n (min (65536 - a % 65536) (65536 - b % 65536))
      (a, b, k) :: copyParts fuel (a + k) (b + k) (n - k)

def copyMoves (srcSpad dstSpad : Bool) (src dst n : Nat) : List Move :=
  (copyParts (n / 32768 + 4) src dst n).map (fun p => ⟨some ⟨srcSpad, p.1, 0⟩, 0, ⟨dstSpad, p.2.1, 0⟩, 8 * p.2.2⟩)

/-- A copy within the scratchpad whose spans overlap: each byte receives what its source held before the command or
holds now, in ascending or descending order (R366). -/
def overlapCopy (old : Memory) (src dst : Nat) : List Nat → Memory → State → Memory × State
  | [], m, s => (m, s)
  | i :: is, m, s =>
    let (k, s) := s.choose 2
    overlapCopy old src dst is (m.write (dst + i) (if k = 0 then old.read (src + i) else m.read (src + i))) s

/-- The record a handle's command uses: its copy, with the fields of the redirection (R239) as they are stored while the record
is still the one that was sealed (R235). -/
def liveRecord (copy live : List Byte) : List Byte :=
  if Word.bit (recFlags live) 0 ∧ recSealgen live = recSealgen copy then
    [(0, 1), (6, 1), (8, 8), (0xA4, 1), (0xA8, 8), (0xB0, 8)].foldl (fun b f => recSet b f.1 f.2 (recNat live f.1 f.2)) copy
  else copy

/-- The tile of a coordinate vector inside the tensor. -/
def tileOf (r : List Byte) (c : List Int) : Nat := tileIndex r (toUnits r (c.map Int.toNat))

/-- The layout each coordinate vector is accessed in (R239): read the live record, and the bitmap while a relayout runs. -/
def engLayout (s : State) (v : View) (id : Nat) (copy : RecCopy) (cs : List (List Int))
    (go : List Byte → (List Int → Nat × Nat) → State → Ran) : Ran :=
  engRead s v id (recReqs 0 0 copy.va) (fun bs s =>
    let r := liveRecord copy.bytes (bs.flatMap Prod.snd)
    let old : Nat × Nat := (recTag r, recBase r)
    if recRlstate r ≠ 1 then go r (fun _ => old) s
    else
      let words := ((cs.filter (inside r)).map (fun c => (mapPlace (recMap r) (tileOf r c)).1)).dedup
      engRead s v id (words.map (fun a => ⟨0, 0, a, 8, 8⟩)) (fun ws s =>
        let entry (c : List Int) : Nat :=
          let p := mapPlace (recMap r) (tileOf r c)
          match ws.find? (fun w => w.1 == p.1) with
          | some w => leNat w.2 / 2 ^ p.2 % 4
          | none => 0
        if (cs.filter (inside r)).any (fun c => entry c == 1) then .wait s
        else go r (fun c => if entry c = 2 then (recNewTag r, recNewBase r) else old) s))

/-- Scale words of block-tagged elements. -/
def engScales (s : State) (v : View) (id : Nat) (r : List Byte) (cs : List (List Int)) (go : (List Int → Nat) → State → Ran) : Ran :=
  if !recBlock r then go (fun _ => 0) s
  else
    let addrs := ((cs.filter (inside r)).map (fun c => scaleAddr r (c.map Int.toNat))).dedup
    engRead s v id (addrs.map (fun a => ⟨0, 0, a, 2, 1⟩)) (fun ws s =>
      go (fun c => match ws.find? (fun w => w.1 == scaleAddr r (c.map Int.toNat)) with | some w => leNat w.2 | none => 0) s)

/-- The elements of a `cpyh` box, row by row, each with its bit in the scratchpad image. -/
def boxElems (c : List Int) (e0 e1 : Nat) : List (Nat × Nat × List Int) :=
  (List.range e1).flatMap (fun y => (List.range e0).map (fun x =>
    (x, y, [c.getD 0 0 + (x : Int), c.getD 1 0 + (y : Int), c.getD 2 0, c.getD 3 0, 0, 0])))

/-- The first element of an element's block. -/
def blockHead (c : List Int) : List Int := (c.getD 0 0 / 32 * 32) :: c.drop 1

/-- Moves of a box. In the block-tagged format element k of a block lies at bit k × b of its 32 bytes, b from its scale
word, and bytes the format does not use are written 0 (R216, R367). -/
def boxMoves (r : List Byte) (sp dir e0 : Nat) (es : List (Nat × Nat × List Int)) (lay : List Int → Nat × Nat)
    (scale : List Int → Nat) : List Move :=
  let row := boxRow r e0
  es.flatMap (fun e =>
    let (x, y, c) := e
    let ins := inside r c
    let p := elemAt r (lay c).1 (lay c).2 (scale c) (c.map Int.toNat)
    let blk := recBlock r
    let b := if blk then (if inside r (blockHead c) then (blockTy (scale (blockHead c))).width else 8) else recBits r
    let at_ : Nat := if blk then 8 * (sp + y * row + x / 32 * 32) + x % 32 * b else 8 * (sp + y * row) + x * b
    let pad : Place := ⟨true, at_ / 8, at_ % 8⟩
    let glob : Place := ⟨false, p.addr, p.bit⟩
    let elem : List Move :=
      if dir = 0 then [if ins then ⟨some glob, 0, pad, b⟩ else ⟨none, recPad r, pad, b⟩]
      else if ins then [⟨some pad, 0, glob, b⟩] else []
    let rest := 8 * (32 - 4 * b)
    let tail : List Move :=
      if !blk || x % 32 != 0 || b == 8 then []
      else if dir = 0 then [⟨none, 0, ⟨true, sp + y * row + x + 4 * b, 0⟩, rest⟩]
      else if ins then [⟨none, 0, ⟨false, (unitAddr r (lay c).1 (lay c).2 (toUnits r (c.map Int.toNat))).1 + 4 * b, 0⟩, rest⟩]
      else []
    elem ++ tail)

/-- Index `i` of a gather. -/
def gatherIndex (x : Core) (ix i : Nat) (wide : Bool) : Nat :=
  if wide then x.spad.readNat (ix + 8 * i) 8 else x.spad.readNat (ix + 4 * i) 4

/-- Coordinates of a linear index over the extents (R246); one past them all is outside. -/
def linearCoords (r : List Byte) (i : Nat) : List Int :=
  let e := recExt r
  [(i % e 0 : Nat), (i / e 0 % e 1 : Nat), (i / (e 0 * e 1) % e 2 : Nat), (i / (e 0 * e 1 * e 2) % e 3 : Nat),
   (i / (e 0 * e 1 * e 2 * e 3) % e 4 : Nat), (i / (e 0 * e 1 * e 2 * e 3 * e 4) : Nat)]

/-- Perform a command's data movement from its start. -/
def Command.begin (c : Command) (s : State) : Ran :=
  let v := c.view
  match c.kind with
  | .cpy ss ds src dst n =>
    if ss && ds && decide (src < dst + n) && decide (dst < src + n) then
      let x := s.core c.core
      let (up, s) := s.choose 2
      let order := if up = 0 then List.range n else (List.range n).reverse
      let (m, s) := overlapCopy x.spad src dst order x.spad s
      .go (s.setCore c.core { x with spad := m }) []
    else runMoves s v c.id c.core (copyMoves ss ds src dst n)
  | .cpyh rc sp dir cs e0 e1 =>
    let es := boxElems cs e0 e1
    engLayout s v c.id rc (es.map (fun e => e.2.2)) (fun r lay s =>
      engScales s v c.id r (es.map (fun e => e.2.2)) (fun scale s =>
        runMoves s v c.id c.core (boxMoves r sp dir e0 es lay scale)))
  | .gath sp ix n base size wide =>
    let x := s.core c.core
    runMoves s v c.id c.core ((List.range n).map (fun i =>
      ⟨some ⟨false, (base + gatherIndex x ix i wide * size) % 2 ^ 64, 0⟩, 0, ⟨true, sp + i * size, 0⟩, 8 * size⟩))
  | .gathh sp ix n rc wide =>
    let x := s.core c.core
    let cs := (List.range n).map (fun i => linearCoords rc.bytes (gatherIndex x ix i wide))
    engLayout s v c.id rc cs (fun r lay s =>
      let b := recBits r
      runMoves s v c.id c.core (cs.mapIdx (fun i k =>
        let dst : Place := ⟨true, sp + i * (b / 8), 0⟩
        if inside r k then ⟨some ⟨false, (elemAt r (lay k).1 (lay k).2 0 (k.map Int.toNat)).addr, 0⟩, 0, dst, b⟩
        else ⟨none, recPad r, dst, b⟩)))
  | .spset sp n pat =>
    let x := s.core c.core
    .go (s.setCore c.core { x with spad := x.spad.writeBytes sp ((List.range n).map (fun j => BitVec.ofNat 8 (pat / 256 ^ (j % 8)))) }) []
  | .matrix _ => .wait s

/-- Perform a command's data movement, or what a serial lock has left of it. -/
def Command.run (c : Command) (s : State) : Ran :=
  match c.todo with
  | some ms => runMoves s c.view c.id c.core ms
  | none => c.begin s

/-! ### Completion -/

def Command.isGather (c : Command) : Bool := match c.kind with | .gath .. => true | .gathh .. => true | _ => false
def Command.isMatrix (c : Command) : Bool := match c.kind with | .matrix _ => true | _ => false

/-- An engine may run the command: the accesses of its group before its issue are performed (R177), the range checker holds nothing before it that it must follow (R164), and its engine has
come to it (R242, R246). -/
def Command.ready (c : Command) (s : State) : Bool :=
  let old := s.before c
  !s.owedBefore c.launch c.group (c.parent.getD c.id) &&
  !old.any (fun e => e.core == c.core && c.behind e) &&
  (match c.engine with | some k => decide ((old.filter (fun e => e.engine == some k)).length < 16) | none => true) &&
  (!c.isGather || !old.any (fun e => e.isGather && clusterOf e.core == clusterOf c.core))

/-- The first iteration at or after `j` whose copies have not all completed. -/
def RingRun.firstOpen (run : RingRun) : Nat → Nat → Nat
  | 0, j => j
  | fuel + 1, j => if j < run.iters ∧ run.done.getD j 0 = run.per then run.firstOpen fuel (j + 1) else j

/-- A completed copy of a ring's iteration: TAIL moves past the iterations that are whole, and a run whose last slot is
full no longer produces the ring (R247). -/
def Core.ringDone (x : Core) (k j : Nat) : Core :=
  match x.runs.find? (fun r => r.ring == k) with
  | none => x
  | some run =>
    let run := { run with done := run.done.set j (run.done.getD j 0 + 1) }
    let n := run.firstOpen (run.done.length + 1) 0
    let ring := x.rings.getD k .empty
    { x with
      rings := x.rings.set k { ring with tail := (run.t0 + n) % 2 ^ 32 }
      runs := if run.iters ≤ n then x.runs.filter (fun r => r.ring != k) else x.runs.map (fun r => if r.ring = k then run else r) }

/-- A device counter can be added to: no agent owns its line, and no transaction has its sector locked (R178, R208). -/
def State.counterFree (s : State) (p : PTarget) : Bool := !s.blocked none true p

/-- A command that has moved its last byte: its counter is added as a package release, once its line is free, and it leaves (R162). A
counter that is no longer its tenant's, or whose line holds an uncorrectable error, fails the command (R17, R35, R243). -/
def Command.finish (c : Command) (s : State) : State :=
  match c.counter with
  | some (p, inc) =>
    if !s.counterFree p then s
    else
      match s.lateFail c.tenant p 8 true with
      | some code => asyncFault (s.dropCommand c.id) c.tenant c.ctx (s.launch? c.launch) c.core code 0
      | none => (s.addCounter p inc).dropCommand c.id
  | none => s.dropCommand c.id

/-- The lines and scratchpad ranges that a command has left to write are those of the moves that a lock delays; with none left
its ring iteration is complete, and its counter is next. -/
def Command.moved (c : Command) (left : List Move) (s : State) : State :=
  match left with
  | [] =>
    let s := match c.ring with | some (k, j) => s.setCore c.core ((s.core c.core).ringDone k j) | none => s
    let c : Command := { c with todo := some [], reads := [], writes := [], owns := [], later := [], dsts := [], walks := [] }
    c.finish (s.setCommand c)
  | _ => s.setCommand { c with todo := some left, owns := [], dsts := [], walks := [] }

/-- ENGINE_COMMAND_COMPLETE: the command moves its bytes and completes, or waits for a walk, a page, a line or a lock. -/
def execEngineCommandComplete (id : Nat) (s : State) : Host.Outcome State Fault Refusal :=
  match s.command? id with
  | none => .next s
  | some c =>
    if c.isMatrix then .next s
    else if c.todo = some [] then .next (c.finish s)
    else if !c.ready s then .next s
    else
      match c.run s with
      | .wait s => .next s
      | .fail _ _ _ => .next s
      | .go s left => .next (c.moved left s)

/-! ### Matrix operands from memory (R249, R385) -/

/-- Coordinates of element (m, k) of the implicit matrix; `none` past its last row or column. -/
def convCoords (r : List Byte) (m k : Nat) : Option (List Int) :=
  let ow := (convOut r 1).toNat
  let oh := (convOut r 2).toNat
  let c := recExt r 0
  let kw := recConv r 0
  let kh := recConv r 1
  if ow * oh * recExt r 3 ≤ m ∨ c * kw * kh ≤ k then none
  else
    let x := m % ow
    let y := m / ow % oh
    let i := k / c % kw
    let j := k / c / kw
    some [(k % c : Nat), (x * recConv r 2 : Nat) + (i * recConv r 4 : Nat) - (recConv r 6 : Nat),
      (y * recConv r 3 : Nat) + (j * recConv r 5 : Nat) - (recConv r 7 : Nat), (m / (ow * oh) : Nat), 0, 0]

/-- Read the elements of a tensor at coordinates; a missing or outside one is the padding element. -/
def engElems (s : State) (v : View) (id : Nat) (rc : RecCopy) (cs : List (Option (List Int))) (go : List Nat → State → Ran) : Ran :=
  engLayout s v id rc (cs.filterMap (fun c => c)) (fun r lay s =>
    let place (c : Option (List Int)) : Option ElemPlace :=
      match c with
      | some c => if inside r c then some (elemAt r (lay c).1 (lay c).2 0 (c.map Int.toNat)) else none
      | none => none
    let ps := cs.map place
    engRead s v id (ps.filterMap (fun p => p.map (fun p => ⟨0, 0, p.addr, p.len, 1⟩))) (fun bs s =>
      go (fill r ps (bs.map Prod.snd)) s))
where
  fill (r : List Byte) : List (Option ElemPlace) → List (List Byte) → List Nat
    | [], _ => []
    | none :: ps, bs => recPad r % 2 ^ recBits r :: fill r ps bs
    | some p :: ps, b :: bs => p.get b :: fill r ps bs
    | some _ :: ps, [] => 0 :: fill r ps []

/-- Run the memory reads of an implicit convolution: the elements of A row by row. -/
def convElems (s : State) (c : Command) (m : MatOp) (go : List Nat → State → Ran) : Ran :=
  match m.conv with
  | none => go [] s
  | some (rc, m0, k0) =>
    let k := matNS m.lit * (32 * matKB m.lit)
    engElems s c.view c.id rc ((List.range 16).flatMap (fun i => (List.range k).map (fun j => convCoords rc.bytes (m0 + i) (k0 + j)))) go

/-- ENGINE_ACCESS_FAULT: a command whose access fails writes no further byte and never adds its counter; the context
enters the fatal state with FADDR the failing address (R243). -/
def execEngineAccessFault (id : Nat) (s : State) : Host.Outcome State Fault Refusal :=
  match s.command? id with
  | none => .next s
  | some c =>
    if c.todo = some [] ∨ !c.ready s then .next s
    else
      let mat := (s.core c.core).mats.find? (fun m => m.id == id)
      let ran := match mat with
        | some m => convElems s c m (fun _ s => .go s [])
        | none => c.run s
      match ran with
      | .fail s' va code =>
        let x := s'.core c.core
        let s' := (s'.dropCommand id).setCore c.core { x with mats := x.mats.filter (fun m => m.id != id) }
        .next (asyncFault s' c.tenant c.ctx (s'.launch? c.launch) c.core code va)
      | _ => .next s

/-! ### The sequencer (R244, R245, R247) -/

/-- Σ i[l] × stride[l] over the first `levels` levels at emission `n`. -/
def seqOffset (d : List Byte) (n levels : Nat) (stride : Nat → Int) : Int :=
  ((List.range levels).map (fun l => (seqIndex d n l : Int) * stride l)).sum

/-- Ring iteration of emission `n`. -/
def seqIter (d : List Byte) (n : Nat) : Nat := n / seqBelow d (seqLevel d)

/-- Source and destination of emission `n`. -/
def seqPlaces (x : Core) (run : SeqRun) (n : Nat) : Nat × Nat :=
  let d := run.desc
  let src := Word.wrapInt ((seqSrc d : Int) + seqOffset d n 6 (seqSS d)) 64
  let dst : Int :=
    if seqRingAdv d then
      let r := x.rings.getD (seqRing d) .empty
      (r.slotAt ((run.t0 + seqIter d n) % 2 ^ 32) : Int) + seqDst d + seqOffset d n (seqLevel d) (seqDS d)
    else (seqDst d : Int) + seqOffset d n 6 (seqDS d)
  (src, Word.wrapInt dst 64)

/-- A ring has room for the iteration: T0 + j − HEAD < SLOTS. -/
def seqRoom (x : Core) (run : SeqRun) : Bool :=
  let d := run.desc
  let r := x.rings.getD (seqRing d) .empty
  !seqRingAdv d || decide ((run.t0 + seqIter d run.next + 2 ^ 32 - r.head) % 2 ^ 32 < r.slots)

/-- SEQUENCER_EMIT: the next copy of a running slot enters the range checker. -/
def execSequencerEmit (core slot : Nat) (s : State) : Host.Outcome State Fault Refusal :=
  let x := s.core core
  let q := x.seqs.getD slot ⟨none, none⟩
  match q.run with
  | none => .next s
  | some run =>
    match s.launch? run.launch with
    | none => .next s
    | some l =>
      if 64 ≤ (s.held core).length ∨ !seqRoom x run then .next s
      else
        let d := run.desc
        let (src, dst) := seqPlaces x run run.next
        let ss := Word.bit (seqFlags d) 0
        let ds := Word.bit (seqFlags d) 1
        let (eng, s) := pickEngine s l.tenant core
        let parts := if ds then [] else pageParts (seqLen d / 65536 + 2) dst (seqLen d)
        let (id, s) := s.fresh
        let c : Command :=
          { id := id, parent := some run.id, kind := .cpy ss ds src dst (seqLen d), tenant := l.tenant, ctx := l.ctx, launch := run.launch,
            group := run.group, core := core, engine := eng, reads := if ss then [(src, seqLen d)] else [],
            writes := if ds then [(dst, seqLen d)] else [], ring := if seqRingAdv d then some (seqRing d, seqIter d run.next) else none,
            counter := some (run.counter, seqIncr d), owns := (s.takeLines l.tenant l.ctx parts).1, later := (s.takeLines l.tenant l.ctx parts).2,
            dsts := s.unmappedParts l.tenant l.ctx parts, todo := none, walks := [] }
        let x := s.core core
        let next := if run.next + 1 = seqTotal d then none else some { run with next := run.next + 1 }
        .next ({ s with commands := s.commands ++ [c] }.setCore core (x.setSeq slot ⟨q.desc, next⟩))

end Sys2Proof.Machine
end

