-- ==== Sys2Proof/Machine/MatrixRun.lean ====
section
/-! DEFINITION. Matrix operations as the arrays perform them, at their retirement (R248, R380 to R385). -/

namespace Sys2Proof.Machine

open Sys2Proof

/-! ### Operand elements in slots (Table 18.3) -/

/-- Element `k` of width `b` in a row that begins at a scratchpad byte. -/
def spadElem (x : Core) (row b k : Nat) : Nat :=
  let bit := k * b
  x.spad.readNat (row + bit / 8) ((bit % 8 + b + 7) / 8) / 2 ^ (bit % 8) % 2 ^ b

/-- A plain element: row or column `i`, element `k` of `ks` (R210, R220). -/
def plainElem (x : Core) (ty : Ty) (ftz : Bool) (slot ks i k : Nat) : Num.FVal :=
  Num.decodeTy ty ftz (spadElem x (slot + i * ks * ty.width / 8) ty.width k)

/-- A finite value times a power of two. -/
def shiftVal (v : Num.FVal) (n : Int) : Num.FVal :=
  match v with
  | .fin s m e => .fin s m (e + n)
  | v => v

/-- Element `k` of row or column `i` of a block-scaled operand of `kb` blocks; `words` is where its scale words begin
(R215, R216, R383). -/
def blockElem (x : Core) (slot words kb i k : Nat) : Num.FVal :=
  let q := k / 32
  let w := x.spad.readNat (slot + words + 2 * (i * kb + q)) 2
  let sc := w % 256
  if 2 ^ 10 ≤ w ∨ sc = 0xFF then .nan
  else
    let ty := blockTy w
    shiftVal (Num.decodeTy ty false (spadElem x (slot + i * (32 * kb) + 32 * q) ty.width (k % 32))) ((sc : Int) - 127)

/-! ### Products and sums (R382 to R384) -/

/-- What an operation reads: the core, the first slots of its rings, and the elements of A that came from memory. -/
structure MatIn where
  x  : Core
  m  : MatOp
  av : List Nat
  deriving DecidableEq, Repr

def MatIn.ks (q : MatIn) : Nat := 32 * matKB q.m.lit
def MatIn.k (q : MatIn) : Nat := matNS q.m.lit * q.ks
def MatIn.ftz (q : MatIn) : Bool := (arMode q.m.mod).ftz

/-- First byte of operation slot `n` of ring A or B. -/
def MatIn.slotOfA (q : MatIn) (n : Nat) : Nat := (q.x.rings.getD (matRA q.m.lit) .empty).slotAt ((q.m.slotA + n) % 2 ^ 32)
def MatIn.slotOfB (q : MatIn) (n : Nat) : Nat := (q.x.rings.getD (matRB q.m.lit) .empty).slotAt ((q.m.slotB + n) % 2 ^ 32)

/-- A(i, k). -/
def MatIn.a (q : MatIn) (i k : Nat) : Num.FVal :=
  if q.m.op = 0x1CB then Num.decodeTy q.m.ty q.ftz (q.av.getD (i * q.k + k) 0)
  else if q.m.op = 0x1C9 then blockElem q.x (q.slotOfA (k / q.ks)) (512 * matKB q.m.lit) (matKB q.m.lit) i (k % q.ks)
  else plainElem q.x q.m.ty q.ftz (q.slotOfA (k / q.ks)) q.ks i (k % q.ks)

/-- B(k, j). -/
def MatIn.b (q : MatIn) (k j : Nat) : Num.FVal :=
  if q.m.op = 0x1C9 then blockElem q.x (q.slotOfB (k / q.ks)) (2048 * matKB q.m.lit) (matKB q.m.lit) j (k % q.ks)
  else plainElem q.x (matTyB q.m.lit) q.ftz (q.slotOfB (k / q.ks)) q.ks j (k % q.ks)

/-- Group `g` of row `i` of the `mmas` operand: two elements and their indices (Table 16.6). -/
def MatIn.sparse (q : MatIn) (i g : Nat) : List (Num.FVal × Nat) :=
  let w := q.m.ty.width
  let s := if w = 8 then 4 else 8
  let per := q.ks / 4
  let v := q.x.spad.readNat (q.slotOfA (g / per) + i * per * s + g % per * s) s
  [(Num.decodeTy q.m.ty q.ftz (v % 2 ^ w), v / 2 ^ (2 * w) % 4), (Num.decodeTy q.m.ty q.ftz (v / 2 ^ w % 2 ^ w), v / 2 ^ (2 * w + 2) % 4)]

/-- The products of D(i, j), in ascending k. The elements of a sparse group that its indices do not name are +0 (R384, log 29). -/
def MatIn.products (q : MatIn) (i j : Nat) : List Num.FVal :=
  if q.m.op = 0x1CA then
    (List.range (q.k / 4)).flatMap (fun g =>
      let es := q.sparse i g
      es.map (fun p => Num.mul p.1 (q.b (4 * g + p.2) j)) ++
        ((List.range 4).filter (fun n => es.all (fun p => p.2 != n))).map (fun n => Num.mul (.fin false 0 0) (q.b (4 * g + n) j)))
  else (List.range q.k).map (fun k => Num.mul (q.a i k) (q.b k j))

/-- The result format: FP64 for FP64 operands, else FP32. -/
def MatOp.fmt (m : MatOp) : Ty := if m.ty = .f64 then .f64 else .f32

/-- The sum is ordered (R223): FP64 and FP32. -/
def MatOp.ordered (m : MatOp) : Bool := m.ty == .f64 || m.ty == .f32

/-- Bits of the C element. -/
def MatIn.c (q : MatIn) (i j : Nat) : Nat :=
  if Word.bit q.m.mod 4 then
    let b := q.m.fmt.bytes
    (q.m.tcCopy.getD q.x.tiles).readNat (4096 * matTC q.m.lit + 256 * i + b * j) b
  else 0

/-- Bits of D(i, j). -/
def MatIn.d (q : MatIn) (i j : Nat) : Nat :=
  let ty := q.m.fmt
  let md := arMode q.m.mod
  if q.m.ordered then
    (List.range q.k).foldl (fun acc k => Num.roundTy ty md (Num.fma md.rm (q.a i k) (q.b k j) (Num.decodeTy ty md.ftz acc))) (q.c i j)
  else Num.roundTy ty md (Num.exactSum md.rm (q.products i j ++ [Num.decodeTy ty md.ftz (q.c i j)]))

/-- Tile TD with the result. -/
def MatIn.tiles (q : MatIn) : Memory :=
  let b := q.m.fmt.bytes
  (List.range 16).foldl (fun (m : Memory) i => (List.range (matN q.m.ty)).foldl (fun (m : Memory) j =>
    m.writeNat (4096 * matTD q.m.lit + 256 * i + b * j) b (q.d i j)) m) q.x.tiles

/-- Retirement: D is written, HEAD of each ring read advances once, also where one ring holds both operands, and the operation leaves (R381). -/
def MatIn.retire (q : MatIn) (s : State) (core : Nat) : State :=
  let rest := q.x.mats.filter (fun m => m.id != q.m.id)
  let rings := ((matRings q.m.op q.m.ty q.m.lit).map Prod.fst).dedup.foldl (fun (rs : List Ring) k =>
    let g := rs.getD k .empty
    rs.set k { g with head := (g.head + matNS q.m.lit) % 2 ^ 32 }) q.x.rings
  (s.setCore core { q.x with tiles := q.tiles, mats := rest, rings := rings }).dropCommand q.m.id

/-- MATRIX_RETIRE: the oldest operation of a leader core retires, in issue order. -/
def execMatrixRetire (core : Nat) (s : State) : Host.Outcome State Fault Refusal :=
  match (s.core core).mats with
  | [] => .next s
  | m :: _ =>
    match s.command? m.id with
    | none => .next s
    | some c =>
      if !c.ready s then .next s
      else
        match convElems s c m (fun av s => .go ((MatIn.mk (s.core core) m av).retire s core) []) with
        | .wait s => .next s
        | .fail _ _ _ => .next s
        | .go s _ => .next s

end Sys2Proof.Machine
end

