-- ==== Sys2Proof/Machine/Relayouts.lean ====
section
/-! DEFINITION. The conversion of a relayout's tiles by the imposition engines (R206, R237 to R241). -/

namespace Sys2Proof.Machine

open Sys2Proof

/-! ### Tiles of a record -/

/-- Coordinates in units of tile `t`'s first unit (R232). -/
def tileOrigin (r : List Byte) (t : Nat) : List Nat :=
  let h := t / (tiles0 r * tiles1 r)
  [t % tiles0 r * unitTileC r, t / tiles0 r % tiles1 r * 2 ^ recTileR r, h % recExt r 2, h / recExt r 2 % recExt r 3,
   h / (recExt r 2 * recExt r 3) % recExt r 4, h / (recExt r 2 * recExt r 3 * recExt r 4)]

/-- Coordinates in units of every unit of tile `t` that lies in the tensor. -/
def tileUnits (r : List Byte) (t : Nat) : List (List Nat) :=
  let o := tileOrigin r t
  let x0 := o.getD 0 0
  let y0 := o.getD 1 0
  (List.range (min (2 ^ recTileR r) (recExt r 1 - y0))).flatMap (fun y =>
    (List.range (min (unitTileC r) (unitExt0 r - x0))).map (fun x => (x0 + x) :: (y0 + y) :: o.drop 2))

/-- A unit of a layout as bits at an address. -/
def unitPlace (r : List Byte) (tag base : Nat) (u : List Nat) : ElemPlace :=
  let (a, b) := unitAddr r tag base u
  ⟨a, b, unitBits r⟩

/-- Join spans that touch, in ascending order of their first byte. -/
def joinSpans : List (Nat × Nat) → List (Nat × Nat)
  | [] => []
  | (a, n) :: r =>
    match joinSpans r with
    | (b, m) :: rest => if b ≤ a + n ∧ a ≤ b then (a, max n (b + m - a)) :: rest else (a, n) :: (b, m) :: rest
    | [] => [(a, n)]

/-- Page-local parts of the bytes of tile `t` in a layout. -/
def tileParts (r : List Byte) (tag base t : Nat) : List (Nat × Nat) :=
  (joinSpans ((tileUnits r t).map (fun u => let p := unitPlace r tag base u; (p.addr, p.len)))).flatMap (fun p => pageParts (p.2 / 65536 + 2) p.1 p.2)

/-! ### A relayout's own accesses -/

def State.setRelayout (s : State) (r : Relayout) : State :=
  { s with relayouts := s.relayouts.map (fun x => if x.id = r.id then r else x) }

def Relayout.view (r : Relayout) : View := ⟨r.cluster, none, r.tenant, r.ctx, r.walks, .relayout r.id⟩

/-- A translation of the job has failed: the context enters the fatal state, the tiles converted stand (R238). -/
def Relayout.fail (r : Relayout) (s : State) (c : Code) (va : Nat) : State :=
  asyncFault (s.setRelayout { r with stopped := true }) r.tenant r.ctx none 0 c va

/-- The record after the relayout: the new tag and base, and RLSTATE 0. -/
def Relayout.newRecord (r : Relayout) : List Byte :=
  let b := recSet (recSet (recSet r.record.bytes 0xA4 1 r.newTag) 0xA8 8 r.newBase) 0xB0 8 r.map
  recSet (recSet (recSet b 0 1 r.newTag) 8 8 r.newBase) 6 1 0

/-- Every tile is NEW: once their lines are free, the record takes the new layout, the caches follow, and the counter is added
(R178, R238). Where the record or the counter can no longer be reached the relayout fails (R17, R35, R243). -/
def Relayout.finish (r : Relayout) (s : State) : State :=
  let p := r.recPa
  if !s.counterFree p || !s.counterFree r.counter.1 then s
  else if let some c := (s.lateFail r.tenant p 16 false).or (s.lateFail r.tenant r.counter.1 8 true) then r.fail s c 0
  else
    let s := s.writePhys p (leBytes 1 r.newTag)
    let s := s.writePhys ⟨p.tgt, p.pa + 8⟩ (leBytes 8 r.newBase)
    let s := s.writePhys ⟨p.tgt, p.pa + 6⟩ (leBytes 1 0)
    let s := updateRec s r.tenant r.ctx r.record.va r.newRecord
    let s := s.addCounter r.counter.1 r.counter.2
    { s with relayouts := s.relayouts.filter (fun x => x.id != r.id) }

/-- RELAYOUT_TILE_QUEUE: the next tile is translated at the first line of its new copy, and joins that line's stack; after the
last tile the job finishes, where a line delayed it. -/
def execRelayoutTileQueue (id : Nat) (s : State) : Host.Outcome State Fault Refusal :=
  match s.relayouts.find? (fun r => r.id == id) with
  | none => .next s
  | some r =>
    if r.stopped then .next s
    else if r.total ≤ r.queued then .next (if r.done = r.total then r.finish s else s)
    else
      let rec_ := r.record.bytes
      let va := (unitAddr rec_ r.newTag r.newBase (tileOrigin rec_ r.queued)).1
      let (k, s) := engScan s r.view 0 .engWr [⟨0, 0, va, 1, 1⟩]
      if k.wait then .next s
      else
        match k.stop, k.ts with
        | some (_, c), _ => .next (r.fail s c va)
        | none, t :: _ =>
          .next (if t.tgt ≠ 0 then r.fail s .engineFormat va
                 else s.setRelayout { r with queued := r.queued + 1, tiles := r.tiles ++ [(homeStack t.pa, r.queued)], walks := [] })
        | none, [] => .next s

/-! ### Converting a tile (R238) -/

/-- The job and tile that a stack's engine takes next; none while it converts one. -/
def nextTile (s : State) (stack : Nat) : Option (Relayout × Nat) :=
  if s.relayouts.any (fun r => r.active.any (fun a => a.stack == stack)) then none
  else
    match s.relayouts.find? (fun r => !r.stopped && r.tiles.any (fun t => t.1 == stack)) with
    | some r => (r.tiles.find? (fun t => t.1 == stack)).map (fun t => (r, t.2))
    | none => none

/-- Set a tile's entry in the bitmap, by atomics on its word: clear its two bits, then set `v`. -/
def setEntry (s : State) (t : PTarget) (bit v : Nat) : State :=
  let (_, s) := s.atomicAt t 9 0 false false (2 ^ 64 - 1 - 3 * 2 ^ bit) 0
  (s.atomicAt t 10 0 false false (v * 2 ^ bit) 0).2

/-- A line that a command, another conversion or a spill holds. -/
def State.lineBusy (s : State) (line : Nat) : Bool :=
  s.commands.any (fun c => s.commandOwns c line) || s.relayouts.any (fun r => r.active.any (fun o => o.lines.contains line)) || s.spilling line

/-- Addresses of the scale words of a tile's blocks, which say how many of a block's bytes its format uses (R215, R216; log 34). -/
def tileScales (r : List Byte) (t : Nat) : List Nat :=
  if recBlock r then (tileUnits r t).map (fun u => scaleAddr r (u.mapIdx (fun i x => if i = 0 then 32 * x else x))) else []

/-- Translations of a tile's bitmap word, its scale words, and both its copies. -/
structure TileScan where
  m : Scan
  w : Scan
  o : Scan
  n : Scan
  deriving DecidableEq, Repr

def TileScan.wait (x : TileScan) : Bool := x.m.wait || x.w.wait || x.o.wait || x.n.wait
def TileScan.stop (x : TileScan) : Option (Req × Code) := ((x.m.stop.or x.w.stop).or x.o.stop).or x.n.stop

/-- The old copy is owned whole; of its bytes the engine fetches those that the formats use, and only these can hold an uncorrectable
error (R17, R216). -/
def tileScan (s : State) (r : Relayout) (t : Nat) : TileScan × State :=
  let rec_ := r.record.bytes
  let reqs (ps : List (Nat × Nat)) : List Req := ps.map (fun p => ⟨0, 0, p.1, p.2, 1⟩)
  let (m, s) := engScan s r.view 0 { Access.engWr with atomic := true } [⟨0, 0, (mapPlace r.map t).1, 8, 8⟩]
  let (w, s) := engScan s r.view 0 .engRd (reqs ((tileScales rec_ t).map (fun a => (a, 2))))
  let (o, s) := engScan s r.view 0 { Access.engRd with nr := true } (reqs (tileParts rec_ (recTag rec_) (recBase rec_) t))
  let (n, s) := engScan s r.view 0 .engWr (reqs (tileParts rec_ r.newTag r.newBase t))
  (⟨m, w, o, n⟩, s)

/-- Read numbers of two bytes at targets. -/
def readHalves : List PTarget → State → List Nat × State
  | [], s => ([], s)
  | t :: ts, s =>
    let (bs, s) := s.readFor none t 2
    let (rest, s) := readHalves ts s
    (leNat bs :: rest, s)

/-- Device lines of the page-local parts of a copy at their targets. -/
def partLines (ps : List (Nat × Nat)) (ts : List PTarget) : List Nat :=
  ((ps.zip ts).flatMap (fun p => if p.2.tgt = 0 then spanLines p.2.pa p.1.2 else [])).dedup

/-- What a conversion waits for before it owns the tile's lines: an engine or a spill on one of them or on the bitmap word, or a
serial lock, until which an engine does not own a line (R178, R198, R206, R208). -/
def tileHeld (s : State) (lines : List Nat) (entry : PTarget) (scales new : List PTarget) : Bool :=
  lines.any s.lineBusy || scales.any (fun t => s.blockedSpan none false t 2) || s.blocked none true entry || lines.any (fun l => s.spanLocked ⟨0, l⟩ 128) ||
    new.any (fun t => t.tgt != 0 && s.serial.locks.any (fun l => l.tgt == t.tgt && l.pa / 65536 == t.pa / 65536))

/-- The target of a byte among page-local parts with their targets. -/
def targetOf (ps : List ((Nat × Nat) × PTarget)) (va : Nat) : PTarget :=
  match ps.find? (fun p => decide (p.1.1 ≤ va) && decide (va < p.1.1 + p.1.2)) with
  | some p => ⟨p.2.tgt, p.2.pa + (va - p.1.1)⟩
  | none => ⟨0, 0⟩

/-- The bits of a unit that its format uses: all of them, but in the block-tagged format those of the scale word's elements; the
rest of a block is written 0 (R216). -/
def usedBits (r : List Byte) (w : Option Nat) : Nat :=
  match w with
  | some w => 32 * (blockTy w).width
  | none => unitBits r

/-- Bytes of a unit that the engine fetches. -/
def usedBytes (r : List Byte) (p : ElemPlace) (w : Option Nat) : Nat := match w with | some _ => usedBits r w / 8 | none => p.len

/-- The first unit of a tile whose fetched bytes hold an uncorrectable error (R17, R216). -/
def tilePoison (s : State) (r : Relayout) (t : Nat) (old : List PTarget) (scales : List Nat) : Option Nat :=
  let rec_ := r.record.bytes
  let ps := (tileParts rec_ (recTag rec_) (recBase rec_) t).zip old
  ((tileUnits rec_ t).mapIdx (fun i u => (i, unitPlace rec_ (recTag rec_) (recBase rec_) u))).findSome? (fun x =>
    ((List.range (usedBytes rec_ x.2 scales[x.1]?)).find? (fun i =>
      let p := targetOf ps (x.2.addr + i)
      s.poisoned p 1 || s.recordPoisoned p 1)).map (fun i => x.2.addr + i))

/-- TILE_CONVERSION_START: the entry becomes CONVERTING and the engine owns the lines of both copies (step 1). -/
def execTileConversionStart (stack : Nat) (s : State) : Host.Outcome State Fault Refusal :=
  match nextTile s stack with
  | none => .next s
  | some (r, t) =>
    let (x, s) := tileScan s r t
    if x.wait then .next s
    else
      match x.stop, x.m.ts with
      | some (q, c), _ => .next (r.fail s c q.va)
      | none, mt :: _ =>
        let rec_ := r.record.bytes
        let lines := (partLines (tileParts rec_ (recTag rec_) (recBase rec_) t) x.o.ts ++ partLines (tileParts rec_ r.newTag r.newBase t) x.n.ts).dedup
        let (ws, u) := readHalves x.w.ts s
        if tileHeld s lines mt x.w.ts x.n.ts then .next s
        else if let some va := tilePoison s r t x.o.ts ws then .next (r.fail s .memoryPoison va)
        else
          let s := setEntry u mt (mapPlace r.map t).2 1
          let a : TileConv := { stack := stack, tile := t, lines := lines, entry := mt, old := x.o.ts, new := x.n.ts, scales := ws }
          .next (s.setRelayout { r with tiles := r.tiles.filter (fun x => x != (stack, t)), active := r.active ++ [a], walks := [] })
      | none, [] => .next s

/-- Read and write bytes that may lie on two pages. -/
def readSpan (s : State) (ps : List ((Nat × Nat) × PTarget)) (va n : Nat) : List Byte × State :=
  (List.range n).foldl (fun (acc : List Byte × State) i =>
    let (b, s) := acc.2.readFor none (targetOf ps (va + i)) 1
    (acc.1 ++ b, s)) ([], s)

def writeSpan (s : State) (ps : List ((Nat × Nat) × PTarget)) (va : Nat) (bs : List Byte) : State :=
  (bs.mapIdx (fun i b => (i, b))).foldl (fun s p => s.writePhys (targetOf ps (va + p.1)) [p.2]) s

/-- Copy a tile unit by unit; bits of the new copy outside the tile stay (step 2). -/
def copyTile (s : State) (r : Relayout) (a : TileConv) : State :=
  let rec_ := r.record.bytes
  let old := (tileParts rec_ (recTag rec_) (recBase rec_) a.tile).zip a.old
  let new := (tileParts rec_ r.newTag r.newBase a.tile).zip a.new
  ((tileUnits rec_ a.tile).mapIdx (fun i u => (i, u))).foldl (fun s u =>
    let x := unitPlace rec_ (recTag rec_) (recBase rec_) u.2
    let y := unitPlace rec_ r.newTag r.newBase u.2
    let (src, s) := readSpan s old x.addr (usedBytes rec_ x a.scales[u.1]?)
    let (dst, s) := readSpan s new y.addr y.len
    writeSpan s new y.addr (y.put dst (x.get src % 2 ^ usedBits rec_ a.scales[u.1]?))) s

/-- Lanes whose open transaction reached the tile through a handle of the context abort with RELAYOUT (R206). -/
def abortTile (s : State) (r : Relayout) (t : Nat) : State :=
  (s.launches.filter (fun l => l.tenant == r.tenant && l.ctx == r.ctx)).foldl (fun s l => l.groups.foldl (fun s g =>
    let hit := (g.2.tx.tiles.filter (fun x => x.record == r.record.va && x.tile == t)).foldl (fun (m : Mask) x => m ||| x.lanes) 0
    if g.2.tx.depth = 0 ∨ hit = 0 then s else abortLanes s l.id g.1 hit 10) s) s

/-- The job with a tile's conversion ended; the engine no longer owns its lines. -/
def Relayout.without (r : Relayout) (a : TileConv) : Relayout := { r with active := r.active.filter (fun x => x.stack != a.stack) }

/-- Steps 2 to 4 for a tile: the bytes move, the entry becomes NEW, transactions that reached the tile abort, and the lines are
released; after the last tile the job finishes, and a stopped job ends with its last active tile (R241). -/
def Relayout.tileDone (r : Relayout) (a : TileConv) (s : State) : State :=
  let s := copyTile s r a
  let s := setEntry s a.entry (mapPlace r.map a.tile).2 2
  let s := abortTile s r a.tile
  let r : Relayout := { r.without a with done := r.done + 1 }
  let s := s.setRelayout r
  if r.stopped then (if r.active.isEmpty then { s with relayouts := s.relayouts.filter (fun x => x.id != r.id) } else s)
  else if r.done = r.total then r.finish s
  else s

/-- What a conversion finds that can no longer reach a place which it translated (R17, R24, R35): address and code. -/
def tileLate (s : State) (r : Relayout) (a : TileConv) : Option (Nat × Code) :=
  let rec_ := r.record.bytes
  let late (ps : List ((Nat × Nat) × PTarget)) : Option (Nat × Code) :=
    ps.findSome? (fun p => (s.lateFail r.tenant p.2 p.1.2 false).map (fun c => (p.1.1, c)))
  ((s.lateFail r.tenant a.entry 8 true).map (fun c => ((mapPlace r.map a.tile).1, c))).or
    ((late ((tileParts rec_ (recTag rec_) (recBase rec_) a.tile).zip a.old)).or
      (late ((tileParts rec_ r.newTag r.newBase a.tile).zip a.new)))

/-- TILE_CONVERSION_DONE: the engine of a stack completes its tile, once the line of the bitmap word is free. -/
def execTileConversionDone (stack : Nat) (s : State) : Host.Outcome State Fault Refusal :=
  match s.relayouts.find? (fun r => r.active.any (fun a => a.stack == stack)) with
  | none => .next s
  | some r =>
    match r.active.find? (fun a => a.stack == stack) with
    | none => .next s
    | some a =>
      .next (
        match tileLate s r a with
        | some (va, c) => (r.without a).fail s c va
        | none => if (s.setRelayout (r.without a)).counterFree a.entry then r.tileDone a s else s)

/-- The engines finish the tiles of a tenant's relayouts that they hold (R241). -/
def finishTiles (s : State) (t : Nat) : State :=
  let jobs := s.relayouts.filter (fun r => r.tenant == t)
  jobs.foldl (fun s r => r.active.foldl (fun s a =>
    match s.relayouts.find? (fun x => x.id == r.id) with
    | some r => r.tileDone a s
    | none => s) s) s

end Sys2Proof.Machine
end

