-- ==== Sys2Proof/Machine/Package.lean ====
section
/-! DEFINITION. Bring-up and resets (R23, R27 to R31), sensors, throttling and cooling (R25, R26, R30), scrubbing (R17),
fabric ports (R24) and slot grants (R39). -/

namespace Sys2Proof.Machine

open Sys2Proof

/-! ### Decoding windows (R29) -/

/-- Step 6 is complete: the full register map is decoded. -/
def Package.open_ (p : Package) : Bool := decide (7 ≤ p.step)

/-- Step 3 has passed or failed: the bring-up window, or the full map, is decoded. -/
def Package.window (p : Package) : Bool := decide (4 ≤ p.step) || (p.step == 3 && p.failed)

/-- The recovery buffer is written from the end of step 3 until step 6 begins (Table 1.10). -/
def Package.recovery (p : Package) : Bool := p.window && decide (p.step ≤ 5)

/-- Issue of compute dies stops at level 4; they are held in reset before step 6 ends and after a failure (R26, R27). -/
def Package.runs (p : Package) : Bool := p.open_ && !p.level4 && !p.failed

def State.setPkg (s : State) (p : Package) : State := { s with pkg := p }

/-- A refused write of a physical-function register (Table 1.13). -/
def refusePf (s : State) (off : Nat) : State :=
  s.setPkg { s.pkg with refused := true, refOff := if s.pkg.refused then s.pkg.refOff else off / 4 % 65536 }

/-- A refused write of a tenant's register (Table 2.9). -/
def refuseTen (s : State) (t off : Nat) : State :=
  let x := s.tenant t
  s.setTenant t { x with refused := true, refOff := if x.refused then x.refOff else off / 4 % 65536 }

/-- Bring-up stops with a failure (R27). -/
def stopBringUp (s : State) (code unit : Nat) : State :=
  s.setPkg { s.pkg with failed := true, failCode := code, unit := unit }

/-- The step in progress ends, and the next begins. -/
def nextStep (s : State) : State := s.setPkg { s.pkg with step := s.pkg.step + 1, failed := false, failCode := 0, unit := 0xFF }

/-! ### Resets (R23, R27) -/

/-- What no reset reaches: the memories of others, the world's agenda, and the free choices. -/
def keepWorld (s n : State) : State :=
  { n with hostMem := s.hostMem, peerMem := s.peerMem, agenda := s.agenda, choices := s.choices, hostRet := s.hostRet, nextId := s.nextId,
           hostRetry := s.hostRetry, peerAcc := s.peerAcc, turns := s.turns }

/-- POWER_GOOD: a cold reset from step 1; the firmware store keeps its image. -/
def execPowerGood (s : State) : Host.Outcome State Fault Refusal :=
  let n := keepWorld s .reset
  .next (n.setPkg { n.pkg with flash := s.pkg.flash })

/-- COOLWARN goes from 0 to 1: message 0 of the physical function. -/
def raiseCoolwarn (s : State) : State :=
  if s.pkg.coolwarn then s else (s.setPkg { s.pkg with coolwarn := true }).sendMsi 0 0

/-- A warm reset begins at step 2. Memory stands until step 4 zero-fills it, and the report counter does not fall (R43).
COOLWARN is set again at once while the coolant is out of its rating (R30). -/
def warmReset (s : State) : State :=
  let n := keepWorld s .reset
  let n : State := { n with
    mem := s.mem
    pkg := { n.pkg with step := 2, flash := s.pkg.flash, attests := s.pkg.attests, coolBad := s.pkg.coolBad, level4 := s.pkg.level4 } }
  if n.pkg.coolBad then raiseCoolwarn n else n

def execPerst (s : State) : Host.Outcome State Fault Refusal := .next (warmReset s)
def execPfFlr (s : State) : Host.Outcome State Fault Refusal := .next (warmReset s)

/-- Scratchpad, tiles and caches of a cluster are cleared (R34); its compositor counters keep running (R275). -/
def clearCluster (s : State) (cl : Nat) : State :=
  { s.setCluster cl { Cluster.reset with counts := (s.cluster cl).counts } with
    cores := s.cores.filter (fun p => clusterOf p.1 != cl) }

/-- The windows of a tenant as first byte of each. -/
def Tenant.windows (t : Tenant) : List Nat :=
  (List.range 16).filterMap (fun n => let v := t.wins.getD n 0; if Word.bit v 31 then some (v % 512 * 2 ^ 30) else none)

/-- Zero-fill 1 GiB of memory and forget its exact entries, and the backing records and undo records that it held. -/
def clearWindow (s : State) (base : Nat) : State :=
  let out (pa : Nat) : Bool := pa / 2 ^ 30 != base / 2 ^ 30
  { s with
    mem := s.mem.zero base (2 ^ 30)
    slices := s.slices.map (fun p => (p.1, { p.2 with
      entries := p.2.entries.filter (fun e => out e.line)
      dir := p.2.dir.filter (fun r => out r.line && out r.pa && (r.split == 4608 || out r.pa2)) }))
    serial := { s.serial with undo := s.serial.undo.filter (fun t => out t.pa), locks := s.serial.locks.filter (fun l => l.tgt != 0 || out l.pa) } }

/-- VF_FUNCTION_LEVEL_RESET: a tenant reset (R23, R72). Registered keys survive (R38). -/
def execVfFlr (t : Nat) (s : State) : Host.Outcome State Fault Refusal :=
  let s := (List.range 16).foldl (fun s k => stopRelayouts s t k) (discardExact s t)
  let s := (List.range 16).foldl (fun s k => contextReset s t k) (finishTiles s t)
  let s := { s with
    queues := s.queues.map (fun (p : Nat × Queue) => if p.1 / 64 = t then (p.1, { Queue.reset with logSize := p.2.logSize, base := p.2.base }) else p)
    packets := s.packets.filter (fun p => p.q.owner != t)
    msix := s.msix.filter (fun m => m.1 != t + 1) }
  let s := (s.tenant t).clusters.foldl clearCluster s
  .next ((s.tenant t).windows.foldl clearWindow s)

/-! ### Bring-up (Table 1.8) -/

/-- PCIE_LINK_UP: step 2 ends; a link that is up before the queue engine's ROM runs waits for step 1 (log 22). -/
def execPcieLinkUp (s : State) : Host.Outcome State Fault Refusal :=
  .next (
    if s.pkg.failed then s
    else if s.pkg.step = 2 then s.setPkg { s.pkg with linkUp := true, step := 3 }
    else if s.pkg.step = 1 then s.setPkg { s.pkg with linkUp := true }
    else s)

/-- A cycle of bring-up: the ROM runs and step 1 ends; step 2 ends where the link is up already (Table 1.8). -/
def bringUpTick (s : State) : State :=
  if s.pkg.failed then s
  else if s.pkg.step = 1 then s.setPkg { s.pkg with step := 2 }
  else if s.pkg.step = 2 ∧ s.pkg.linkUp then s.setPkg { s.pkg with step := 3 }
  else s

/-- The image in the firmware store. -/
def Package.image (p : Package) : List Byte := p.flash.getD Config.flashImage

/-- The failure code of step 3 for an image, `none` where it passes (Table 1.12): an image longer than 16 MiB is FW_FORMAT,
as is a malformed header, whose layout the manual does not give; a signature that does not verify is FW_SIGNATURE (log 7). -/
def firmwareCode (img : List Byte) : Option Nat :=
  if 2 ^ 24 < img.length then some 2
  else
    match Config.firmwareCheck img with
    | .pass => none
    | .badSignature => some 1
    | .badHeader => some 2

/-- FIRMWARE_CHECK_DONE: step 3 passes, or bring-up stays there with the check's failure code (R28). -/
def execFirmwareCheckDone (s : State) : Host.Outcome State Fault Refusal :=
  .next (
    if s.pkg.step ≠ 3 ∨ s.pkg.failed then s
    else
      match firmwareCode s.pkg.image with
      | none => nextStep (s.setPkg { s.pkg with fwHash := sha3 s.pkg.image })
      | some c => stopBringUp s c 0xFF)

/-- STACKS_READY: memory is zero-filled and step 5 begins, or a stack fails. -/
def execStacksReady (f : Option StackFailure) (s : State) : Host.Outcome State Fault Refusal :=
  .next (
    if s.pkg.step ≠ 4 ∨ s.pkg.failed then s
    else
      match f with
      | some x => stopBringUp s (if x.train then 4 else 3) x.stack
      | none => nextStep { s with mem := [] })

/-- LINKS_TRAINED: slot tables take their defaults and each port is up or down, or a link fails. -/
def execLinksTrained (f : Option Nat) (ports : Nat) (s : State) : Host.Outcome State Fault Refusal :=
  .next (
    if s.pkg.step ≠ 5 ∨ s.pkg.failed then s
    else
      match f with
      | some l => stopBringUp s 5 l
      | none => nextStep (s.setPkg { s.pkg with
          slots := []
          ports := (List.range 8).map (fun i => (i, if Word.bit ports i then PortState.up else PortState.down)) }))

/-- DIES_LEAVE_RESET: caches, TLBs and translations are invalid, and the full map is decoded; level 4 holds the dies. -/
def execDiesLeaveReset (f : Option Nat) (s : State) : Host.Outcome State Fault Refusal :=
  .next (
    if s.pkg.step ≠ 6 ∨ s.pkg.failed ∨ s.pkg.level4 then s
    else
      match f with
      | some d => stopBringUp s 6 d
      | none => nextStep { s with cores := [], clusters := [], slices := [], xlats := [] })

/-- IDENTITY_READY: step 7 ends and READY is set, or the key pair cannot be derived. -/
def execIdentityReady (ok : Bool) (s : State) : Host.Outcome State Fault Refusal :=
  .next (
    if s.pkg.step ≠ 7 ∨ s.pkg.failed ∨ s.pkg.ready then s
    else if ok then s.setPkg { s.pkg with ready := true, identity := true }
    else stopBringUp s 7 0xFF)

/-! ### Recovery (R31) -/

/-- A write of PF.RECOVERY. -/
def recoveryWrite (s : State) (v : Nat) : State :=
  let len := v % 2 ^ 13
  if !s.pkg.window then s
  else if Word.field v 29 13 ≠ 0 then refusePf s 0x20010
  else if !Word.bit v 31 then s.setPkg { s.pkg with recLen := len }
  else if s.pkg.recBusy ∨ !s.pkg.failed ∨ len = 0 ∨ 4096 < len then refusePf s 0x20010
  else s.setPkg { s.pkg with recBusy := true, recLen := len }

def execRecoveryGo (v : Word) (s : State) : Host.Outcome State Fault Refusal := .next (recoveryWrite s v.toNat)

/-- RECOVERY_CHECK_DONE: the image is stored and bring-up goes on at step 4, or the failure is reported. LENGTH and the buffer may be
written while BUSY is 1; the check takes them as they stand when it completes (DESIGN CHOICE, log 22: R31 does not say). -/
def execRecoveryCheckDone (s : State) : Host.Outcome State Fault Refusal :=
  .next (
    if !s.pkg.recBusy then s
    else
      let img := s.pkg.recBuf.readBytes 0 (4096 * s.pkg.recLen)
      match firmwareCode img with
      | none => s.setPkg { s.pkg with recBusy := false, failed := false, failCode := 0, unit := 0xFF, step := 4, flash := some img,
                                      fwHash := sha3 img }
      | some c => s.setPkg { s.pkg with recBusy := false, failed := true, failCode := c, unit := 0xFF, step := 3 })

/-! ### Cooling (R25, R30) -/

/-- The coolant is out of its rating (R25); flow in tenths of a litre per minute. -/
def coolOff (inlet flow : Nat) : Bool := decide (45 < inlet) || decide (flow < 18)

/-- It is so without a trigger of level 4 (R30). A flow below 1.0 L/min triggers level 4 only after 100 ms. -/
def coolOut (inlet flow : Nat) : Bool := decide (inlet ≤ 55) && coolOff inlet flow

/-- A cooling reading. -/
def coolRead (s : State) (inlet flow : Nat) : State :=
  let s := s.setPkg { s.pkg with coolBad := coolOff inlet flow }
  if coolOut inlet flow then raiseCoolwarn s else s

def execCoolantOutOfRating (inlet flow : Nat) (s : State) : Host.Outcome State Fault Refusal := .next (coolRead s inlet flow)

/-- A write of PF.MGMTSTAT: COOLWARN is cleared, and set again at once while the coolant is out of its rating. -/
def mgmtstatWrite (s : State) (v : Nat) : State :=
  if !s.pkg.window || !Word.bit v 25 then s
  else
    let s := s.setPkg { s.pkg with coolwarn := false }
    if s.pkg.coolBad then raiseCoolwarn s else s

def execCoolwarnClear (v : Word) (s : State) : Host.Outcome State Fault Refusal := .next (mgmtstatWrite s v.toNat)

/-! ### Throttling (R26, Table 1.7) -/

def State.setDie (s : State) (d : Nat) (x : Die) : State := s.setPkg { s.pkg with dies := s.pkg.dies.set d x }

/-- FLUX_ESTIMATE_UPDATE: ten updates in a row above 700 enter level 1 on a press pair, ten below 650 release it. -/
def execFluxEstimateUpdate (pair flux : Nat) (s : State) : Host.Outcome State Fault Refusal :=
  let d := dieOf (2 * pair)
  let x := s.die d
  let f := x.flux.getD pair ⟨0, 0, false, false⟩
  let above := if 700 < flux then min 10 (f.above + 1) else 0
  let below := if flux < 650 then min 10 (f.below + 1) else 0
  let acts := if above = 10 then true else if below = 10 then false else f.acts
  .next (s.setDie d { x with flux := x.flux.set pair ⟨above, below, acts, decide (750 < flux)⟩ })

/-- CLOCK_STEP: a die's clock moves one step down while level 2 or 3 acts, and one step up while both are being
released; a level ends when the clock is back. -/
def execClockStep (d : Nat) (s : State) : Host.Outcome State Fault Refusal :=
  let x := s.die d
  let down : Bool := (x.level2 && !x.cooling2) || (s.pkg.level3 && !s.pkg.cooling3)
  .next (
    if down then s.setDie d { x with clkStep := min 7 (x.clkStep + 1) }
    else if !x.level2 && !s.pkg.level3 then s
    else
      let s := s.setDie d { x with clkStep := x.clkStep - 1, level2 := x.level2 && x.clkStep != 1 && x.clkStep != 0 }
      let cold : Bool := (List.range 4).all (fun i => (s.die i).clkStep == 0)
      s.setPkg { s.pkg with level3 := s.pkg.level3 && !cold })

/-- Level 2 of die `d` by its junction and its power. -/
def readDie (r : Readings) (s : State) (d : Nat) : State :=
  let x := s.die d
  let j := r.junction.getD d 0
  if 95 ≤ j ∨ r.dieOver.getD d false then s.setDie d { x with level2 := true, cooling2 := false }
  else if x.level2 ∧ j < 90 ∧ r.dieUnder.getD d false then s.setDie d { x with cooling2 := true }
  else s

/-- Level 4's trigger: 1 junction, 2 inlet, 3 flow. -/
def level4Of (r : Readings) : Option Nat :=
  if r.junction.any (fun j => decide (110 ≤ j)) then some 1
  else if 55 < r.inlet then some 2
  else if r.flow < 10 ∧ r.flow100ms then some 3
  else none

/-- Every context enters the fatal state. -/
def allFatal (s : State) (cause detail : Nat) : State :=
  (List.range 16).foldl (fun s t => (List.range 16).foldl (fun s k => enterFatal s t k cause detail .nowhere) s) s

/-- Every unit stops where it stands, at a bare instruction boundary too: nothing issues any more (R26 level 4). -/
def stopAll (s : State) : State := { s with galleys := s.galleys.map (fun g => { g with paths := g.paths.map Path.stop }) }

/-- The dumps of level 4 are all taken: the compute dies are held in reset, so that nothing of them acts or writes any more. What their
slices hold stays (log 21). -/
def holdDies (s : State) : State :=
  if !s.pkg.level4 || s.ctxs.any (fun c => (c.2.fatal.map FatalRec.dumping).getD false) then s
  else
    { s with
      galleys := [], commands := [], icinvs := [], relayouts := [], walks := [], faults := [], cur := []
      cores := [], clusters := s.clusters.map (fun c => (c.1, { Cluster.reset with counts := c.2.counts }))
      serial := ⟨none, [], [], []⟩ }

/-- THERMAL_TRIGGER: the sensors' readings start and release levels 2 and 3; level 4 stops all issue and makes every
context fatal with cause THERMAL. A COOLWARN cleared while the coolant is out of its rating is set again, at level 4 too (R30). -/
def execThermalTrigger (r : Readings) (s : State) : Host.Outcome State Fault Refusal :=
  let s := (List.range 4).foldl (readDie r) s
  let s := if r.moduleOver then s.setPkg { s.pkg with level3 := true, cooling3 := false }
    else if s.pkg.level3 ∧ r.moduleUnder then s.setPkg { s.pkg with cooling3 := true } else s
  .next (
    match level4Of r with
    | some d =>
      let s := s.setPkg { s.pkg with coolBad := coolOff r.inlet r.flow }
      if s.pkg.level4 then s else holdDies (allFatal (stopAll (s.setPkg { s.pkg with level4 := true })) 4 d)
    | none => coolRead s r.inlet r.flow)

/-! ### Stacks and ports (R17, R24) -/

/-- The reserved GiB of each die (R141): its lower half is the translation store, its upper half the management area. -/
def reservedGiB (pa : Nat) : Bool := pa / 2 ^ 30 % 96 == 95

/-- Each translation that a die's store part holds is hit by the error or not, freely (R17 gives the store no layout). -/
def hitXlats (d : Nat) : List Xlat → State → List Xlat × State
  | [], s => ([], s)
  | x :: xs, s =>
    if x.die = d then
      let (k, s) := s.choose 2
      let (r, s) := hitXlats d xs s
      (if k = 0 then (x :: r, s) else ({ x with live := false } :: r, s))
    else
      let (r, s) := hitXlats d xs s
      (x :: r, s)

/-- SCRUB_ERROR: a corrected error is counted; an uncorrectable one poisons its 16-byte sector (DESIGN CHOICE, log 31: the manual
gives no granularity), discards translations, or makes every tenant's contexts fatal with cause MGMT_POISON. -/
def execScrubError (pa : Nat) (corrected : Bool) (s : State) : Host.Outcome State Fault Refusal :=
  if corrected then .next (s.setPkg { s.pkg with softErrors := s.pkg.softErrors + 1 })
  else if !reservedGiB pa then .next (s.setPkg { s.pkg with poison := (pa / 16 * 16 :: s.pkg.poison).dedup })
  else if pa % 2 ^ 30 < 2 ^ 29 then
    let (xs, s) := hitXlats (pa / 2 ^ 30 / 96) s.xlats s
    .next { s with xlats := xs }
  else .next (allFatal s 5 pa)

def execFabricPortStateChange (p : Nat) (st : PortState) (s : State) : Host.Outcome State Fault Refusal :=
  .next (if p < 8 then s.setPkg { s.pkg with ports := s.pkg.ports.set p st } else s)

/-! ### Slot tables (R39 to R41) -/

/-- The owner byte of a slot; unassigned at reset. -/
def slotOwner (s : State) (res slot : Nat) : Nat := s.pkg.slots.getD (64 * res + slot) 0x1F

/-- The tenant after `last`, in rotation, that has a request ready. -/
def nextTenant (ready : List Nat) (last : Nat) : Option Nat :=
  ((List.range 16).map (fun i => (last + 1 + i) % 16)).find? (fun t => ready.contains t)

/-- SLOT_GRANT: the owner's ready request is served, or the next other tenant with one. Where no tenant has been served yet the rotation
starts after tenant 15 (DESIGN CHOICE, log 31: R39 names no start). -/
def execSlotGrant (res cycle : Nat) (ready : List Nat) (s : State) : Host.Outcome State Fault Refusal :=
  let own := slotOwner s res (cycle % 64)
  .next (
    if 150 ≤ res ∨ ready.contains own then s
    else
      match nextTenant ready (s.pkg.served.getD res 15) with
      | some t => s.setPkg { s.pkg with served := s.pkg.served.set res t }
      | none => s)

/-- The slot-table image of Table 2.4. -/
def slotImage (s : State) (gen : Nat) : List Byte :=
  leBytes 8 gen ++ leBytes 2 150 ++ leBytes 2 64 ++ leBytes 52 0 ++
    (List.range 9600).map (fun i => BitVec.ofNat 8 (s.pkg.slots.getD i 0x1F))

/-- The firmware writes a tenant's image at byte 0 of its window 0, where that window is valid. -/
def writeImage (s : State) (t : Nat) : State :=
  let v := (s.tenant t).wins.getD 0 0
  if (s.tenant t).enable && Word.bit v 31 then s.writePhys ⟨0, v % 512 * 2 ^ 30⟩ (slotImage s s.pkg.slotGen) else s

/-- SLOT_TABLE_UPDATE: the changes take effect, and every tenant's image is rewritten under the next even GEN. -/
def execSlotTableUpdate (cs : List SlotChange) (s : State) : Host.Outcome State Fault Refusal :=
  let ok (c : SlotChange) : Bool := decide (c.res < 150) && decide (c.slot < 64) && (decide (c.owner < 16) || c.owner == 31)
  let slots := (cs.filter ok).foldl (fun (m : Tbl Nat) c => m.set (64 * c.res + c.slot) c.owner) s.pkg.slots
  let s := s.setPkg { s.pkg with slots := slots, slotGen := s.pkg.slotGen + 2 }
  .next ((List.range 16).foldl writeImage s)

end Sys2Proof.Machine
end

