-- ==== Sys2Proof/Machine/Writes.lean ====
section
/-! DEFINITION. Register writes of the host: tenants (R33 to R38, R70, R71, R153), contexts (R73, R150, R250, R414,
R431), queues (R51, R52, R55, R57, R69), and the decoding of an address (R29, R36, R430). -/

namespace Sys2Proof.Machine

open Sys2Proof

/-! ### Tenants -/

/-- Offset of a tenant register in the physical function's BAR0. -/
def tenOff (t r : Nat) : Nat := 0x10000 + 0x400 * t + r

/-- Tenants other than `t`. -/
def others (t : Nat) : List Nat := (List.range 16).filter (fun i => i != t)

/-- Cores of a unit of a level that a launch may use: 1 core, 2 cluster, 3 die. -/
def unitOf (level core : Nat) : Nat := if level = 1 then core else if level = 2 then clusterOf core else dieOf core

/-- A pending piece that core `c` could take (R128): its launch admits the core, in the piece's domain unit; a captured one goes to
its image's core only (R91). -/
def pieceFits (s : State) (l : Launch) (g : Galley) (c : Nat) : Bool :=
  g.core.isNone && (!g.fixed || c == g.home) && g.launch == l.id && (admitted s l).contains c && (l.domLevel == 0 || ((l.domains.getD (l.domainOf g.first) .empty).placed && unitOf l.domLevel c == unitOf l.domLevel g.home))

/-- The core is released (R124): it holds no resident group of the launch and no pending piece of it waits for it. -/
def released (s : State) (c : Nat) (lid : Nat) : Bool :=
  s.galleys.all (fun g => g.core != some c) &&
    (match s.launch? lid with
     | some l => s.galleys.all (fun g => !pieceFits s l g c)
     | none => true)

/-- The launch that a core holds. -/
def State.holds (s : State) (c : Nat) : Option Nat :=
  match (s.core c).launch with
  | some lid => if released s c lid then none else some lid
  | none => none

/-- Release every core that is (R124). -/
def releaseCores (s : State) : State :=
  { s with cores := s.cores.map (fun (p : Nat × Core) => (p.1, { p.2 with launch := s.holds p.1 })) }

/-- Work that still uses the scratchpad or the tiles of a core: overflowed atomics, matrix operations, sequencer slots and engine
commands. -/
def coreOwes (s : State) (c : Nat) : Bool :=
  let x := s.core c
  x.overCount != 0 || !x.mats.isEmpty || x.seqs.any (fun q => q.run.isSome) || s.commands.any (fun e => e.core == c && e.moving)

/-- A context is resident on the cluster: one of its cores holds a launch, or still has work of groups that have retired (DESIGN CHOICE, log
28: the manual does not say when a context stops being resident). -/
def clusterBusy (s : State) (cl : Nat) : Bool := (coresOfCluster cl).any (fun c => (s.holds c).isSome || coreOwes s c)

/-- A cluster that passes to a new owner is cleared first (R34). -/
def gainCluster (t : Nat) (s : State) (cl : Nat) : State :=
  let s := if s.pkg.lastCl.getD cl 0 = t + 1 then s else clearCluster s cl
  s.setPkg { s.pkg with lastCl := s.pkg.lastCl.set cl (t + 1) }

/-- A window's memory that passes to a new owner is zero-filled first (R34). -/
def gainWindow (t : Nat) (s : State) (gib : Nat) : State :=
  let s := if s.pkg.lastWin.getD gib 0 = t + 1 then s else clearWindow s (gib * 2 ^ 30)
  s.setPkg { s.pkg with lastWin := s.pkg.lastWin.set gib (t + 1) }

def clmaskWrite (s : State) (t v : Nat) : State :=
  let x := s.tenant t
  let lost := x.clusters.filter (fun c => !Word.bit v c)
  let gained := (List.range 40).filter (fun c => Word.bit v c && !Word.bit x.clmask c)
  if 2 ^ 40 ≤ v ∨ (others t).any (fun i => (s.tenant i).clmask &&& v != 0) ∨ lost.any (clusterBusy s) then refuseTen s t (tenOff t 0x10)
  else (gained.foldl (gainCluster t) s).setTenant t { x with clmask := v }

def cemaskWrite (s : State) (t v : Nat) : State :=
  let x := s.tenant t
  let lost := x.engines.filter (fun c => !Word.bit v c)
  if 2 ^ 32 ≤ v ∨ (others t).any (fun i => (s.tenant i).cemask &&& v != 0) ∨
      lost.any (fun e => s.commands.any (fun c => c.engine == some e)) then refuseTen s t (tenOff t 0x18)
  else s.setTenant t { x with cemask := v }

/-- Another valid window names the same GiB. -/
def windowTaken (s : State) (t n gib : Nat) : Bool :=
  (List.range 16).any (fun i => (List.range 16).any (fun m => (i != t || m != n) &&
    (let w := (s.tenant i).wins.getD m 0; Word.bit w 31 && w % 512 == gib)))

def winWrite (s : State) (t n v : Nat) : State :=
  let v := v % 2 ^ 32
  let x := s.tenant t
  let gib := v % 512
  if Word.field v 30 9 ≠ 0 ∨ (Word.bit v 31 ∧ (383 < gib ∨ gib % 96 = 95 ∨ windowTaken s t n gib)) then refuseTen s t (tenOff t (0x80 + 8 * n))
  else
    let s := if Word.bit v 31 then gainWindow t s gib else s
    s.setTenant t { x with wins := x.wins.set n v }

def execTenConfigWrite (t : Nat) (reg : TenConfig) (v : Word) (s : State) : Host.Outcome State Fault Refusal :=
  .next (
    if !s.pkg.open_ ∨ 16 ≤ t then s
    else
      match reg with
      | .clmask => clmaskWrite s t v.toNat
      | .cemask => cemaskWrite s t v.toNat
      | .win n => if n < 16 then winWrite s t n v.toNat else s)

/-- TEN.CTL: a tenant is created, and its slot-table image is written, or removed (R37, R41). -/
def tenCtlWrite (s : State) (t v : Nat) : State :=
  let x := s.tenant t
  if v % 2 ^ 31 ≠ 0 ∨ (!Word.bit v 31 ∧ x.enable ∧ (List.range 16).any (fun k => (s.ctx t k).enable)) then refuseTen s t (tenOff t 0)
  else
    let s := s.setTenant t { x with enable := Word.bit v 31 }
    if Word.bit v 31 && !x.enable then writeImage s t else s

def execTenEnable (t : Nat) (v : Word) (s : State) : Host.Outcome State Fault Refusal :=
  .next (if s.pkg.open_ ∧ t < 16 then tenCtlWrite s t v.toNat else s)

/-- A write of 1 to TEN.STATUS.REFUSED. -/
def tenStatusWrite (s : State) (t v : Nat) : State :=
  if Word.bit v 0 then s.setTenant t { s.tenant t with refused := false } else s

def pfStatusWrite (s : State) (v : Nat) : State :=
  if s.pkg.window && Word.bit v 0 then s.setPkg { s.pkg with refused := false } else s

def execRefusedClear (tgt : Option Nat) (v : Word) (s : State) : Host.Outcome State Fault Refusal :=
  .next (
    match tgt with
    | none => pfStatusWrite s v.toNat
    | some t => if s.pkg.open_ ∧ t < 16 then tenStatusWrite s t v.toNat else s)

/-- TEN.SIGNCTL (R38). -/
def signctlWrite (s : State) (t v : Nat) : State :=
  let x := s.tenant t
  let rsvd : Bool := Word.field v 29 24 != 0 || Word.field v 15 9 != 0 || Word.field v 7 3 != 0
  let go := Word.bit v 31
  let rem := Word.bit v 8
  let i := v % 8
  if rsvd || (go && (x.enable || x.signBusy.isSome || (!rem && !x.spanIn x.signAddr 2592))) then refuseTen s t (tenOff t 0x100)
  else
    let x := { x with signRemove := v % 512 }
    s.setTenant t (if !go then x else if rem then { x with keys := x.keys.erase i } else { x with signBusy := some i })

def signaddrWrite (s : State) (t v : Nat) : State :=
  if 2 ^ 52 ≤ v ∨ v % 8 ≠ 0 then refuseTen s t (tenOff t 0x108) else s.setTenant t { s.tenant t with signAddr := v }

def execSignerKeyRegister (t : Nat) (v : Word) (s : State) : Host.Outcome State Fault Refusal :=
  .next (if s.pkg.open_ ∧ t < 16 then signctlWrite s t v.toNat else s)
def execSignerKeyRemove (t : Nat) (v : Word) (s : State) : Host.Outcome State Fault Refusal :=
  .next (if s.pkg.open_ ∧ t < 16 then signctlWrite s t v.toNat else s)

/-- SIGNER_KEY_COPY_DONE: the key is copied into the management die, from where TEN.SIGNADDR points at that moment (log 30), once no engine owns a line of it (R178). -/
def execSignerKeyCopyDone (t : Nat) (s : State) : Host.Outcome State Fault Refusal :=
  let x := s.tenant t
  match x.signBusy with
  | none => .next s
  | some i =>
    if s.blockedSpan none false ⟨0, x.signAddr⟩ 2592 then .next s
    else
    let (bs, s) := s.readFor none ⟨0, x.signAddr⟩ 2592
    .next (s.setTenant t { x with keys := x.keys.set i bs, signBusy := none })

/-- A context of the tenant has an object loaded. -/
def hasObjects (s : State) (t : Nat) : Bool := (List.range 16).any (fun k => !(s.ctx t k).objs.isEmpty)

/-- TEN.MODE (R70). -/
def modeWrite (s : State) (t v : Nat) : State :=
  let v := v % 2 ^ 32
  let x := s.tenant t
  let moved (b : Nat) : Bool := Word.bit v b != Word.bit x.mode b
  if Word.field v 31 14 ≠ 0 ∨ Word.field v 7 6 ≠ 0 ∨ ((moved 1 || moved 2) && hasObjects s t) then refuseTen s t (tenOff t 0x20)
  else
    let s := s.setTenant t { x with mode := v }
    let set := Word.bit v 0
    if !moved 0 then s
    else (List.range 64).foldl (fun s q => s.setQueue ⟨t, q⟩ { s.queue ⟨t, q⟩ with gateSet := set }) s

def execTenModeWrite (t : Nat) (v : Word) (s : State) : Host.Outcome State Fault Refusal :=
  .next (if s.pkg.open_ ∧ t < 16 then modeWrite s t v.toNat else s)

/-- A write of 1s to TEN.ASSISTPEND (R71). -/
def assistWrite (s : State) (t v : Nat) : State :=
  let x := s.tenant t
  s.setTenant t { x with assist := x.assist - (x.assist &&& v % 64) }

def execAssistpendClear (t : Nat) (v : Word) (s : State) : Host.Outcome State Fault Refusal :=
  .next (if s.pkg.open_ ∧ t < 16 then assistWrite s t v.toNat else s)

/-- TEN.FBCFG (R153). -/
def fbcfgSet (s : State) (t v : Nat) : State :=
  let x := s.tenant t
  if v < 3 ∨ 8 < v ∨ x.bufs.any (fun b => !b.2.entries.isEmpty) then refuseTen s t (tenOff t 0x30)
  else s.setTenant t { x with fbLog := v }

def execFbcfgWrite (t : Nat) (v : Word) (s : State) : Host.Outcome State Fault Refusal :=
  .next (if s.pkg.open_ ∧ t < 16 then fbcfgSet s t v.toNat else s)

/-- The CANCEL bit of an entry: bit 0 of its CTL byte. -/
def cancelWrite (s : State) (t d k v : Nat) : State :=
  let x := s.tenant t
  let b := x.bufs.getD d .reset
  if k < b.entries.length then
    s.setTenant t { x with bufs := x.bufs.set d { b with
      entries := b.entries.mapIdx (fun i e => if i = k then { e with cancel := Word.bit v 0 } else e) } }
  else s

def execFaultCancelWrite (t d k : Nat) (v : Word) (s : State) : Host.Outcome State Fault Refusal :=
  .next (if s.pkg.open_ ∧ t < 16 ∧ d < 4 then cancelWrite s t d k v.toNat else s)

def enallowWrite (s : State) (t v : Nat) : State :=
  if 2 ^ 32 ≤ v then refuseTen s t (tenOff t 0x38) else s.setTenant t { s.tenant t with enAllow := v }

/-- A write of a tenant's block through the physical function (Table 2.8). -/
def blockWrite (s : State) (t r v : Nat) : State :=
  if r = 0x000 then tenCtlWrite s t v
  else if r = 0x008 then tenStatusWrite s t v
  else if r = 0x010 then clmaskWrite s t v
  else if r = 0x018 then cemaskWrite s t v
  else if r = 0x020 then modeWrite s t v
  else if r = 0x028 then assistWrite s t v
  else if r = 0x030 then fbcfgSet s t v
  else if r = 0x038 then enallowWrite s t v
  else if 0x080 ≤ r ∧ r < 0x100 ∧ r % 8 = 0 then winWrite s t ((r - 0x80) / 8) v
  else if r = 0x100 then signctlWrite s t v
  else if r = 0x108 then signaddrWrite s t v
  else s

/-! ### Contexts -/

def ctxOff (k r : Nat) : Nat := 0x4000 + 0x80 * k + r
def dbgOff (k r : Nat) : Nat := 0x6000 + 0x20 * k + r

/-- The context holds an unretired launch, replay, patch or relayout, or an enabled queue (R431). -/
def ctxInUse (s : State) (t k : Nat) : Bool :=
  !(s.queuesOf t k).isEmpty || s.launches.any (fun l => l.tenant == t && l.ctx == k) ||
    s.replays.any (fun r => r.tenant == t && r.ctx == k) || s.patches.any (fun r => r.tenant == t && r.ctx == k) ||
    s.relayouts.any (fun r => r.tenant == t && r.ctx == k && !r.stopped)

/-- CTX.CTL: RESET leaves the fatal and pre-empted states (R92); else ENABLE and FATALVEC are written (R37, R431). -/
def ctxCtlWrite (s : State) (t k v : Nat) : State :=
  let c := s.ctx t k
  let on := Word.bit v 31
  let vec := Word.field v 29 24
  if v % 2 ^ 24 ≠ 0 then refuseTen s t (ctxOff k 0)
  else if Word.bit v 30 ∧ (c.state = .fatal ∨ c.state = .preempted) then
    let s := contextReset s t k
    s.setCtx t k { s.ctx t k with fatalVec := vec }
  else if on ∧ !c.enable ∧ !(s.tenant t).enable then refuseTen s t (ctxOff k 0)
  else if !on ∧ c.enable ∧ (c.state = .fatal ∨ c.state = .preempted ∨ ctxInUse s t k) then refuseTen s t (ctxOff k 0)
  else if on ∧ !c.enable then s.setCtx t k { c with enable := true, fatalVec := vec, state := .running }
  else if !on ∧ c.enable then s.setCtx t k { c with enable := false, fatalVec := vec, state := .disabled }
  else s.setCtx t k { c with fatalVec := vec }

def execCtxEnable (t k : Nat) (v : Word) (s : State) : Host.Outcome State Fault Refusal :=
  .next (if s.pkg.open_ ∧ t < 16 ∧ k < 16 then ctxCtlWrite s t k v.toNat else s)
def execCtxReset (t k : Nat) (v : Word) (s : State) : Host.Outcome State Fault Refusal :=
  .next (if s.pkg.open_ ∧ t < 16 ∧ k < 16 then ctxCtlWrite s t k v.toNat else s)

/-- A page of a context overlaps the span that a CTX.INVAL value names. -/
def invalHits (v t k : Nat) (e : TlbEntry) : Bool :=
  let size := if Word.field v 2 1 = 0 then 2 ^ 16 else if Word.field v 2 1 = 1 then 2 ^ 21 else 2 ^ 30
  let va := Word.field v 56 16 * 2 ^ 16 / size * size
  e.tenant == t && e.ctx == k && (Word.bit v 0 || (decide (e.va < va + size) && decide (va < e.va + e.size)))

/-- A walk's result held for an access is discarded with the entry, and the access walks again (R150). -/
def keepWalks (v t k : Nat) (ws : List WalkResult) : List WalkResult :=
  ws.filter (fun w => match w.entry with | some e => !invalHits v t k e | none => false)

def Thread.keepWalks (v t k : Nat) (th : Thread) : Thread := { th with walks := Machine.keepWalks v t k th.walks }

/-- A parked `cntwait` that no add has satisfied issues again, and so translates its counter again. -/
def Wait.reissued : Wait → Wait
  | .counter tgt pa target met => if met then .counter tgt pa target met else .none
  | w => w

/-- An upper-level entry reaches an address of the span that a CTX.INVAL value names. -/
def invalUpper (v t k : Nat) (u : UpperEnt) : Bool :=
  let size := if Word.field v 2 1 = 0 then 2 ^ 16 else if Word.field v 2 1 = 1 then 2 ^ 21 else 2 ^ 30
  let va := Word.field v 56 16 * 2 ^ 16 / size * size
  let reach := 2 ^ (55 - 13 * u.level)
  u.tenant == t && u.ctx == k && (Word.bit v 0 || (decide (reach * u.part < va + size) && decide (va < reach * (u.part + 1))))

/-- The accesses of open transactions whose translations may be the removed ones are marked. -/
def Launch.markOld (l : Launch) : Launch :=
  { l with groups := l.groups.map (fun p => (p.1, { p.2 with tx := { p.2.tx with old := p.2.tx.old || p.2.tx.depth != 0 } })) }

/-- CTX.INVAL: BUSY is set, and every matching entry leaves every TLB and walker of the tenant. -/
def invalWrite (s : State) (t k v : Nat) : State :=
  let c := s.ctx t k
  if c.invalBusy ∨ Word.field v 63 57 ≠ 0 ∨ Word.field v 15 3 ≠ 0 ∨ (Word.field v 2 1 = 3 ∧ !Word.bit v 0) then refuseTen s t (ctxOff k 0x48)
  else
    let keep (es : List TlbEntry) : List TlbEntry := es.filter (fun e => !invalHits v t k e)
    let mine (l : Nat) : Bool := s.launches.any (fun x => x.id == l && x.tenant == t && x.ctx == k)
    let s := s.setCtx t k { c with inval := v, invalBusy := true, invalFrom := s.nextId }
    { s with
      launches := s.launches.map (fun l => if l.tenant = t ∧ l.ctx = k then l.markOld else l)
      clusters := s.clusters.map (fun (p : Nat × Cluster) => (p.1, { p.2 with
        tlb := keep p.2.tlb
        upper := p.2.upper.filter (fun u => !invalUpper v t k u) }))
      cores := s.cores.map (fun (p : Nat × Core) => (p.1, { p.2 with tlb := keep p.2.tlb }))
      galleys := s.galleys.map (fun g => if mine g.launch then (Galley.mapThreads (Thread.keepWalks v t k) g).mapWait Wait.reissued else g)
      commands := s.commands.map (fun x => if x.tenant = t ∧ x.ctx = k then { x with walks := keepWalks v t k x.walks } else x)
      relayouts := s.relayouts.map (fun x => if x.tenant = t ∧ x.ctx = k then { x with walks := keepWalks v t k x.walks } else x) }

def execCtxInval (t k : Nat) (v : Word) (s : State) : Host.Outcome State Fault Refusal :=
  .next (if s.pkg.open_ ∧ t < 16 ∧ k < 16 then invalWrite s t k v.toNat else s)

/-- Accesses of a context that were translated before its CTX.INVAL and are not performed: queued atomics, native stores, open
transactions, and the counters and tiles of engine commands, sequencer runs and relayouts that were issued before (R150). -/
def invalOwed (s : State) (t k : Nat) : Bool :=
  let old (id : Nat) : Bool := decide (id < (s.ctx t k).invalFrom)
  let mine (l : Nat) : Bool := s.launches.any (fun x => x.id == l && x.tenant == t && x.ctx == k)
  s.cores.any (fun p => (s.queuedAtomics p.1).any (fun a => mine a.1.launch) ||
      p.2.seqs.any (fun q => match q.run with | some r => mine r.launch && old r.id | none => false)) ||
    s.galleys.any (fun g => mine g.launch && g.storesOwed) ||
    s.launches.any (fun l => l.tenant == t && l.ctx == k && l.groups.any (fun p => p.2.tx.depth != 0 && p.2.tx.old)) ||
    s.commands.any (fun c => c.tenant == t && c.ctx == k && old (c.parent.getD c.id)) ||
    s.relayouts.any (fun r => r.tenant == t && r.ctx == k && old r.id && (!r.stopped || !r.active.isEmpty))

/-- INVAL_DONE: the accesses already translated have been performed. -/
def execInvalDone (t k : Nat) (s : State) : Host.Outcome State Fault Refusal :=
  let c := s.ctx t k
  .next (if !c.invalBusy || invalOwed s t k then s else s.setCtx t k { c with invalBusy := false })

/-- CTX.ENBUDGET: BUDGET changes only while STATE is not running (Table 11.5). -/
def enbudgetSet (s : State) (t k v : Nat) : State :=
  let c := s.ctx t k
  if c.state = .running ∧ v % 2 ^ 32 ≠ c.enBudget then refuseTen s t (ctxOff k 0x70)
  else s.setCtx t k { c with enUnlimited := Word.bit v 63, enBudget := v % 2 ^ 32 }

def execEnbudgetWrite (t k : Nat) (v : Word) (s : State) : Host.Outcome State Fault Refusal :=
  .next (if s.pkg.open_ ∧ t < 16 ∧ k < 16 then enbudgetSet s t k v.toNat else s)

/-- CTX.ENRATE: the tenant's rates stay within TEN.ENALLOW. -/
def enrateSet (s : State) (t k v : Nat) : State :=
  let sum := ((List.range 16).map (fun i => if i = k then v % 2 ^ 32 else (s.ctx t i).enRate % 2 ^ 32)).sum
  if (s.tenant t).enAllow < sum then refuseTen s t (ctxOff k 0x78)
  else s.setCtx t k { s.ctx t k with enRate := v }

def execEnrateWrite (t k : Nat) (v : Word) (s : State) : Host.Outcome State Fault Refusal :=
  .next (if s.pkg.open_ ∧ t < 16 ∧ k < 16 then enrateSet s t k v.toNat else s)

/-- ENERGY_REPLENISH: BUDGET := min(BUDGET + RATE, CAP) in every context at one instant. -/
def execEnergyReplenish (s : State) : Host.Outcome State Fault Refusal :=
  .next { s with ctxs := s.ctxs.map (fun (p : Nat × Ctx) =>
    (p.1, { p.2 with enBudget := min (p.2.enBudget + p.2.enRate % 2 ^ 32) (p.2.enRate / 2 ^ 32) })) }

/-- The context has an exact entry or record, or holds the serial grant (Table 9.4). -/
def backingInUse (s : State) (t k : Nat) : Bool :=
  s.slices.any (fun p => p.2.entries.any (fun e => e.tenant == t && e.ctx == k) || p.2.dir.any (fun e => e.tenant == t && e.ctx == k)) ||
    (match s.serial.holder with
     | some h => s.launches.any (fun l => l.id == h.launch && l.tenant == t && l.ctx == k)
     | none => false)

/-- Bits of `v` outside [hi:lo] are 0. -/
def within (v hi lo : Nat) : Bool := decide (v < 2 ^ (hi + 1)) && v % 2 ^ lo == 0

/-- A write of a context register. DUMPSIZE 0, outside its stated range, is stored (log 24): no dump fits it. -/
def ctxWrite (s : State) (t k r v : Nat) : State :=
  let c := s.ctx t k
  let keepIf (ok : Bool) (x : Ctx) : State := if ok then s.setCtx t k x else refuseTen s t (ctxOff k r)
  if r = 0x00 then ctxCtlWrite s t k v
  else if r = 0x10 then keepIf (within v 51 12) { c with ptRoot := v }
  else if r = 0x18 then keepIf (within v 56 12) { c with dumpBase := v }
  else if r = 0x20 then keepIf true { c with dumpSize := Word.field v 31 16 * 2 ^ 16 }
  else if r = 0x28 then keepIf (within v 56 12 && !backingInUse s t k) { c with accBase := v }
  else if r = 0x30 then keepIf (within v 51 16) { c with poolBase := v }
  else if r = 0x38 then keepIf (within v 51 3) { c with poolMap := v }
  else if r = 0x40 then keepIf (decide (v ≤ 2 ^ 20)) { c with poolPages := v }
  else if r = 0x48 then invalWrite s t k v
  else if r = 0x58 then keepIf (within v 15 0 && !backingInUse s t k) { c with accSize := v }
  else if r = 0x60 then keepIf (within v 56 12 && !backingInUse s t k) { c with undoBase := v }
  else if r = 0x68 then keepIf (within v 15 0 && !backingInUse s t k) { c with undoSize := v }
  else if r = 0x70 then enbudgetSet s t k v
  else if r = 0x78 then enrateSet s t k v
  else s

/-- A write of 1 to CTX.DBGSTAT.HIT. -/
def hitWrite (s : State) (t k v : Nat) : State :=
  if Word.bit v 0 then s.setCtx t k { s.ctx t k with dbgHit := false } else s

def execDbgHitClear (t k : Nat) (v : Word) (s : State) : Host.Outcome State Fault Refusal :=
  .next (if s.pkg.open_ ∧ t < 16 ∧ k < 16 then hitWrite s t k v.toNat else s)

/-- A write of a debug register (Table 19.5). -/
def dbgWrite (s : State) (t k r v : Nat) : State :=
  let c := s.ctx t k
  if r = 0x00 then (if within v 15 0 then s.setCtx t k { c with dbgCtl := v } else refuseTen s t (dbgOff k r))
  else if r = 0x08 then (if within v 56 12 then s.setCtx t k { c with dbgSave := v } else refuseTen s t (dbgOff k r))
  else if r = 0x10 then s.setCtx t k { c with dbgSize := v }
  else if r = 0x18 then hitWrite s t k v
  else s

/-! ### Queues -/

/-- A refused write of a queue register: of the physical function's or a tenant's. -/
def refuseQueue (s : State) (q : QId) (r : Nat) : State :=
  if q.owner = 16 then refusePf s (0x40 * q.q + r) else refuseTen s q.owner (0x40 * q.q + r)

/-- Message of a queue's function. -/
def queueMsi (s : State) (q : QId) (vec : Nat) : State := s.sendMsi (if q.owner = 16 then 0 else q.owner + 1) vec

/-- The physical function's host-visible region (R63). -/
def hostRegion : Nat × Nat := (0x17FC000000, 0x1800000000)

/-- The ring lies where its owner may have it (R52). -/
def ringPlaced (s : State) (q : QId) (base size : Nat) : Bool :=
  if q.owner = 16 then decide (hostRegion.1 ≤ base) && decide (base + size ≤ hostRegion.2) else (s.tenant q.owner).spanIn base size

/-- The queue's walks and page faults no longer concern it: what asked for them is not started, or asks again. -/
def dropAsks (s : State) (q : QId) : State :=
  let others (as : List Asker) : List Asker := as.filter (fun a => a != .queue q)
  { s with walks := s.walks.map (fun w => { w with askers := others w.askers }), faults := s.faults.map (fun f => { f with askers := others f.askers }) }

/-- No packet at RP has been parsed. -/
def Queue.unparsed (x : Queue) : Queue := { x with walks := [], parsed := false, checked := false }

/-- QUE.CTL (Table 3.2, R52, R57). Setting ENABLE clears STOPCAUSE and SUBCODE, as RESTART does: the manual does not say (DESIGN CHOICE,
log 27). -/
def queueCtlWrite (s : State) (q : QId) (v : Nat) : State :=
  let x := s.queue q
  let v := v % 2 ^ 32
  let on := Word.bit v 31
  let log := v % 32
  let ctx := Word.field v 23 20
  let moved : Bool := ctx != x.ctx || log != x.logSize
  let mgmt : Bool := q.owner == 16
  if Word.field v 19 5 ≠ 0 ∨ log < 12 ∨ 24 < log ∨ (x.enable && moved) ∨ (mgmt && ctx != 0) then refuseQueue s q 8
  else
    let x' := { x with errVec := Word.field v 29 24, ctx := ctx, logSize := log, heads := if ctx = x.ctx then x.heads else [] }
    if on && !x.enable then
      if x.base % 2 ^ log ≠ 0 ∨ !ringPlaced s q x.base (2 ^ log) ∨ (!mgmt && (!(s.tenant q.owner).enable || !(s.ctx q.owner ctx).enable)) then
        refuseQueue s q 8
      else
        (dropAsks s q).setQueue q { x'.unparsed with
          enable := true, rp := 0, wp := 0, gate := 0, state := .active, cause := 0, subcode := 0, gateSet := false }
    else if !on then (dropAsks s q).setQueue q { x'.unparsed with enable := false, state := .idle }
    else if Word.bit v 30 ∧ x.state = .stopped then
      (dropAsks s q).setQueue q { x'.unparsed with state := if x.blocker.isSome then .blocked else .active, cause := 0, subcode := 0 }
    else s.setQueue q x'

/-- The queue decodes: its function's registers are mapped, and it exists. -/
def queueMapped (s : State) (q : QId) : Bool := s.pkg.open_ && ((decide (q.owner < 16) && decide (q.q < 64)) || (q.owner == 16 && decide (q.q < 8)))

def execQueueEnable (q : QId) (v : Word) (s : State) : Host.Outcome State Fault Refusal :=
  .next (if queueMapped s q then queueCtlWrite s q v.toNat else s)
def execQueueDisable (q : QId) (v : Word) (s : State) : Host.Outcome State Fault Refusal :=
  .next (if queueMapped s q then queueCtlWrite s q v.toNat else s)
def execQueueRestart (q : QId) (v : Word) (s : State) : Host.Outcome State Fault Refusal :=
  .next (if queueMapped s q then queueCtlWrite s q v.toNat else s)

/-- The opcode of the header at RP: as it was parsed, or as it stands where it lies before WP; 0 where there is none, or it cannot be read,
since the manual's table speaks of that header alone (DESIGN CHOICE, log 27). -/
def shownOpcode (s : State) (q : QId) : Nat × State :=
  let x := s.queue q
  let p : PTarget := ⟨0, x.base + x.rp⟩
  if x.parsed then (((x.heads.getLast?.bind List.head?).getD 0).toNat, s)
  else if (x.wp + 2 ^ x.logSize - x.rp) % 2 ^ x.logSize < 16 ∨ s.poisoned p 16 ∨ s.recordPoisoned p 16 then (0, s)
  else
    let (bs, s) := s.readFor none p 16
    (leNat (bs.take 1), s)

/-- A queue stops (R57): cause, subcode and the opcode at RP are shown, and ERRVEC is raised once. -/
def stopQueue (s : State) (q : QId) (cause sub : Nat) : State :=
  let (op, s) := shownOpcode s q
  let s := dropAsks s q
  let x := s.queue q
  queueMsi (s.setQueue q { x.unparsed with state := .stopped, cause := cause, subcode := sub, opcode := op }) q x.errVec

/-- A pointer value that R55 accepts. -/
def pointerOk (x : Queue) (v : Nat) : Bool := v % 16 == 0 && decide (v < 2 ^ x.logSize)

/-- A host-assisted request of function `f` (R71). -/
def askAssist (s : State) (t f : Nat) : State :=
  let tn := s.tenant t
  (s.setTenant t { tn with assist := tn.assist ||| 2 ^ f }).sendMsi (t + 1) (Word.field tn.mode 13 8)

/-- QUE.WP (R55); in host-assisted parsing each write raises ASSISTVEC. A bad value stops a queue that has stopped once more, with
this cause (log 27). -/
def wpWrite (s : State) (q : QId) (v : Nat) : State :=
  let x := s.queue q
  let v := v % 2 ^ 24
  if !pointerOk x v then (if x.enable then stopQueue s q 1 8 else s)
  else
    let s := s.setQueue q { x with wp := v }
    if q.owner < 16 ∧ Word.bit (s.tenant q.owner).mode 0 then askAssist s q.owner 0 else s

def execQueueWpWrite (q : QId) (v : Word) (s : State) : Host.Outcome State Fault Refusal :=
  .next (if queueMapped s q then wpWrite s q v.toNat else s)

/-- Host-assisted parsing is in force for a queue (R69). -/
def assistedParsing (s : State) (q : QId) : Bool := decide (q.owner < 16) && Word.bit (s.tenant q.owner).mode 0

/-- QUE.GATE (R69, R70): in host-assisted parsing its values obey R55; in hardware parsing it is ignored, and holds what is written.
A write does not undo the GATE := RP of the next round. -/
def gateWrite (s : State) (q : QId) (v : Nat) : State :=
  let x := s.queue q
  let v := v % 2 ^ 24
  if assistedParsing s q && !pointerOk x v then (if x.enable then stopQueue s q 1 8 else s) else s.setQueue q { x with gate := v }

def execQueueGateWrite (q : QId) (v : Word) (s : State) : Host.Outcome State Fault Refusal :=
  .next (if queueMapped s q then gateWrite s q v.toNat else s)

/-- A write of a queue register (Tables 3.1 to 3.5). A value of QUE.RP that is no multiple of 16 or lies past the ring is stored as it
is: the table gives such a write no consequence (log 27). -/
def queueWrite (s : State) (q : QId) (r v : Nat) : State :=
  let x := s.queue q
  if r = 0x00 then
    if !within v 51 12 ∨ (x.enable && v != x.base) then refuseQueue s q r else s.setQueue q { x with base := v }
  else if r = 0x08 then queueCtlWrite s q v
  else if r = 0x10 then wpWrite s q v
  else if r = 0x18 then
    let p := v % 2 ^ 24
    if x.enable ∧ x.state ≠ .stopped ∧ p ≠ x.rp then refuseQueue s q r else s.setQueue q { x with rp := p, parsed := false, checked := false }
  else if r = 0x20 then gateWrite s q v
  else if r = 0x28 then (if Word.bit v 0 then s.setQueue q { x with actErr := false } else s)
  else s

/-! ### Decoding an address -/

/-- A write of 8 bytes at an offset of the physical function's BAR0 (Table 1.10). -/
def pfWrite (s : State) (off v : Nat) : State :=
  if off = 0x20000 then mgmtstatWrite s v
  else if off = 0x20008 then pfStatusWrite s v
  else if off = 0x20010 then recoveryWrite s v
  else if 0x1000000 ≤ off ∧ off < 0x2000000 then
    if s.pkg.recovery then s.setPkg { s.pkg with recBuf := s.pkg.recBuf.writeNat (off - 0x1000000) 8 v } else s
  else if !s.pkg.open_ then s
  else if off < 0x200 then queueWrite s ⟨16, off / 0x40⟩ (off % 0x40) v
  else if 0x10000 ≤ off ∧ off < 0x14000 then blockWrite s ((off - 0x10000) / 0x400) (off % 0x400) v
  else s

/-- A write of 8 bytes at an offset of tenant `t`'s BAR0. -/
def vfWrite (s : State) (t off v : Nat) : State :=
  if !s.pkg.open_ then s
  else if off < 0x1000 then queueWrite s ⟨t, off / 0x40⟩ (off % 0x40) v
  else if 0x4000 ≤ off ∧ off < 0x4800 then ctxWrite s t ((off - 0x4000) / 0x80) (off % 0x80) v
  else if off = 0x5008 then tenStatusWrite s t v
  else if off = 0x5028 then assistWrite s t v
  else if 0x6000 ≤ off ∧ off < 0x6200 then dbgWrite s t ((off - 0x6000) / 0x20) (off % 0x20) v
  else if 0x8000 ≤ off ∧ off < 0x10000 ∧ off % 32 = 8 then cancelWrite s t ((off - 0x8000) / 0x2000) (off % 0x2000 / 32) (v / 2 ^ 24)
  else s

/-- REGISTER_WRITE: function 0 to 15 is tenant t's, 16 the physical function; an offset that no table lists ignores it. A write is
of 8 bytes at a multiple of 8: the manual gives BAR0 no other size, and any other is ignored (log 30). -/
def execRegisterWrite (fn off : Nat) (v : Word) (s : State) : Host.Outcome State Fault Refusal :=
  .next (
    if off % 8 ≠ 0 then s
    else if fn = 16 then pfWrite s off v.toNat
    else if fn < 16 then vfWrite s fn off v.toNat
    else s)

/-! ### Reading an address -/

/-- TEN.SIGNCTL as it reads. -/
def signctl (x : Tenant) : Nat :=
  Word.ofBool x.signBusy.isSome * 2 ^ 30 + ((List.range 8).map (fun i => if (x.keys.get? i).isSome then 2 ^ i else 0)).sum * 2 ^ 16 + x.signRemove

/-- A tenant's block as it reads (Table 2.8). -/
def blockRead (s : State) (t r : Nat) : Nat :=
  let x := s.tenant t
  if r = 0x000 then Word.ofBool x.enable * 2 ^ 31
  else if r = 0x008 then x.refOff * 2 ^ 16 + Word.ofBool x.refused
  else if r = 0x010 then x.clmask
  else if r = 0x018 then x.cemask
  else if r = 0x020 then x.mode
  else if r = 0x028 then x.assist
  else if r = 0x030 then x.fbLog
  else if r = 0x038 then x.enAllow
  else if 0x040 ≤ r ∧ r < 0x060 ∧ r % 8 = 0 then fbStat x ((r - 0x40) / 8)
  else if 0x080 ≤ r ∧ r < 0x100 ∧ r % 8 = 0 then x.wins.getD ((r - 0x80) / 8) 0
  else if r = 0x100 then signctl x
  else if r = 0x108 then x.signAddr
  else 0

/-- QUE.STAT.STATE. -/
def QState.code : QState → Nat
  | .idle => 0 | .active => 1 | .blocked => 2 | .stopped => 3

/-- A queue register as it reads. -/
def queueRead (s : State) (q : QId) (r : Nat) : Nat :=
  let x := s.queue q
  if r = 0x00 then x.base
  else if r = 0x08 then Word.ofBool x.enable * 2 ^ 31 + x.errVec * 2 ^ 24 + x.ctx * 2 ^ 20 + x.logSize
  else if r = 0x10 then x.wp
  else if r = 0x18 then x.rp
  else if r = 0x20 then x.gate
  else if r = 0x28 then x.state.code * 2 ^ 30 + x.cause * 2 ^ 24 + x.subcode * 2 ^ 16 + x.opcode * 2 ^ 8 + Word.ofBool x.actErr
  else 0

/-- A fault-buffer entry as its 32 bytes (Table 7.6). -/
def FbEntry.bytes (e : FbEntry) : List Byte :=
  leBytes 8 e.va ++ leBytes 1 e.ctx ++ leBytes 1 e.cause ++ leBytes 1 e.access ++ leBytes 1 (Word.ofBool e.cancel) ++
    leBytes 2 e.cluster ++ leBytes 2 e.joined ++ leBytes 8 e.seq ++ leBytes 8 0

/-- PF.MGMTSTAT (Table 1.11). -/
def mgmtstat (p : Package) : Nat :=
  p.step * 2 ^ 28 + Word.ofBool p.ready * 2 ^ 27 + Word.ofBool p.failed * 2 ^ 26 + Word.ofBool p.coolwarn * 2 ^ 25 + p.unit * 2 ^ 16 + p.failCode

/-- A read of 8 bytes of a byte table that begins at `base`. -/
def tableRead (bs : List Byte) (base off : Nat) : Nat := leNat ((bs.drop (off - base)).take 8)

/-- A read of 8 bytes of the physical function's BAR0. -/
def pfRead (s : State) (off : Nat) : Nat :=
  let p := s.pkg
  if !p.window then 0
  else if off = 0x20000 then mgmtstat p
  else if off = 0x20008 then p.refOff * 2 ^ 16 + Word.ofBool p.refused
  else if off = 0x20010 then Word.ofBool p.recBusy * 2 ^ 30 + p.recLen
  else if 0x1000000 ≤ off ∧ off < 0x2000000 then (if p.recovery then p.recBuf.readNat (off - 0x1000000) 8 else 0)
  else if !p.open_ then 0
  else if off < 0x200 then queueRead s ⟨16, off / 0x40⟩ (off % 0x40)
  else if 0x10000 ≤ off ∧ off < 0x14000 then blockRead s ((off - 0x10000) / 0x400) (off % 0x400)
  else if 0x20100 ≤ off ∧ off < 0x20120 then dieStat s ((off - 0x20100) / 8)
  else if !p.identity then 0
  else if 0x21000 ≤ off ∧ off < 0x21A20 then tableRead Config.identityKey 0x21000 off
  else if off = 0x22000 then Config.endorsementKeyId % 2 ^ 64
  else if 0x22008 ≤ off ∧ off < 0x23220 then tableRead (Config.endorsement.take 4627) 0x22008 off
  else 0

/-- A read of 8 bytes of tenant `t`'s BAR0. -/
def vfRead (s : State) (t off : Nat) : Nat :=
  let c (k : Nat) : Ctx := s.ctx t k
  if !s.pkg.open_ then 0
  else if off < 0x1000 then queueRead s ⟨t, off / 0x40⟩ (off % 0x40)
  else if 0x4000 ≤ off ∧ off < 0x4800 then ctxReg (c ((off - 0x4000) / 0x80)) (off % 0x80)
  else if 0x5000 ≤ off ∧ off < 0x5400 then blockRead s t (off - 0x5000)
  else if 0x6000 ≤ off ∧ off < 0x6200 then
    let x := c ((off - 0x6000) / 0x20)
    let r := off % 0x20
    if r = 0 then x.dbgCtl
    else if r = 8 then x.dbgSave
    else if r = 0x10 then x.dbgSize
    else x.dbgGroup % 2 ^ 40 * 2 ^ 24 + x.dbgCode * 2 + Word.ofBool x.dbgHit
  else if 0x8000 ≤ off ∧ off < 0x10000 then
    match (((s.tenant t).bufs.getD ((off - 0x8000) / 0x2000) .reset).entries)[off % 0x2000 / 32]? with
    | some e => leNat ((e.bytes.drop (off % 32)).take 8)
    | none => 0
  else 0

end Sys2Proof.Machine
end

