-- ==== Sys2Proof/Machine/Queues.lean ====
section
/-! DEFINITION. Rings and packets (R53 to R59), the queue engine's own accesses (R63), completion signalling (R62), and the
packets of chapter 3 but for LOAD (R64, R65). -/

namespace Sys2Proof.Machine

open Sys2Proof

/-! ### The engine's accesses (R63) -/

/-- What an access of the queue engine finds. -/
inductive QLook where
  | ok (p : PTarget)
  | fail (c : Code)
  | wait
  deriving DecidableEq, Repr

def Access.qRd : Access := { Access.rd with queue := true }
def Access.qWr : Access := { Access.wr with queue := true }
def Access.qAtomic : Access := { Access.wr with atomic := true, queue := true }

/-- A walk or a page fault of the queue is under way. -/
def queueWaits (s : State) (q : QId) : Bool :=
  s.faults.any (fun f => f.askers.contains (.queue q)) || s.walks.any (fun w => w.askers.contains (.queue q))

/-- Look up an access of the engine for a tenant's context: the queue engine walks without a TLB (R148). -/
def queueWalk (s : State) (q : QId) (k va n : Nat) (a : Access) : QLook × State :=
  if 2 ^ 57 ≤ va then (.fail .nonCanonical, s)
  else
    match heldCode (s.queue q).walks (pageOf va) with
    | some c => (.fail c, s)
    | none =>
      if s.faults.any (fun f => sameFault 0xFFFF q.owner k (pageOf va) f && f.askers.contains (.queue q)) then (.wait, s)
      else if s.faults.any (sameFault 0xFFFF q.owner k (pageOf va)) then
        (.wait, serviceFault s 0xFFFF q.owner k va a.bits false [.queue q])
      else if s.walkHeld q.owner k va then (.wait, s)
      else
        match walk s q.owner k va with
        | (.fail c, s) => (.fail c, s)
        | (.pageFault _ pte, s) =>
          if servable s q.owner (Word.bit pte 9) then (.wait, serviceFault s 0xFFFF q.owner k va a.bits (Word.bit pte 9) [.queue q])
          else (.fail .translation, s)
        | (.ok e, s) =>
          match entryCheck s e va n a with
          | some c => (.fail c, s)
          | none => (.ok (e.target va), s)

/-- An access of the engine for a queue; a management queue names device physical addresses of the host-visible region. -/
def queueLook (s : State) (q : QId) (va n : Nat) (a : Access) : QLook × State :=
  if q.owner = 16 then
    if va < hostRegion.1 ∨ hostRegion.2 < va + n then (.fail .windowViolation, s)
    else if (!a.write || a.atomic) && s.poisoned ⟨0, va⟩ n then (.fail .memoryPoison, s)
    else (.ok ⟨0, va⟩, s)
  else queueWalk s q (s.queue q).ctx va n a

/-- QUEUE_FAULT subcode of a failure (Table 3.7). The table gives none for the LINK_ERROR of R24: it shows as 2, TRANSLATION (DESIGN CHOICE,
log 29). -/
def faultSub (c : Code) : Nat :=
  match c with
  | .windowViolation => 1
  | .memoryPoison => 3
  | .atomicTarget => 4
  | .nonCanonical => 5
  | .pteFormat => 6
  | .writeProtect => 7
  | _ => 2

/-- The queue shows blocked. -/
def showBlocked (s : State) (q : QId) : State := s.setQueue q { s.queue q with state := .blocked }

/-- Go on with the target of an access, or wait, or stop the queue with QUEUE_FAULT. -/
def withTarget (s : State) (q : QId) (va n : Nat) (a : Access) (go : PTarget → State → State) : State :=
  match queueLook s q va n a with
  | (.ok p, s) => if s.blockedSpan none a.write p n then s else go p s
  | (.fail c, s) => stopQueue s q 2 (faultSub c)
  | (.wait, s) => showBlocked s q

/-- An address that is used only when a flag is set. -/
def withTargetIf (on : Bool) (s : State) (q : QId) (va n : Nat) (a : Access) (go : Option PTarget → State → State) : State :=
  if on then withTarget s q va n a (fun p s => go (some p) s) else go none s

/-- The targets of a span of bytes, page by page. -/
def withSpan (q : QId) (a : Access) : List (Nat × Nat) → State → (List (PTarget × Nat) → State → State) → State
  | [], s, go => go [] s
  | (va, n) :: r, s, go => withTarget s q va n a (fun p s => withSpan q a r s (fun ps s => go ((p, n) :: ps) s))

/-- Read the bytes of a span. -/
def readTargetsOf : List (PTarget × Nat) → State → List Byte × State
  | [], s => ([], s)
  | (p, n) :: r, s =>
    let (b, s) := s.readFor none p n
    let (bs, s) := readTargetsOf r s
    (b ++ bs, s)

/-- Write bytes to a span. -/
def writeTargetsOf : List (PTarget × Nat) → List Byte → State → State
  | [], _, s => s
  | (p, n) :: r, bs, s => writeTargetsOf r (bs.drop n) (s.writePhys p (bs.take n))

/-! ### The header (Table 3.6) -/

/-- A parsed header; `raw` is its 128 bits. -/
structure Hdr where
  raw  : Nat
  op   : Nat
  fence : Bool
  irq  : Bool
  sig  : Bool
  len  : Nat
  vec  : Nat
  addr : Nat
  deriving DecidableEq, Repr

def Hdr.of (w : Nat) : Hdr :=
  { raw := w, op := w % 256, fence := Word.bit w 8, irq := Word.bit w 9, sig := Word.bit w 10, len := Word.field w 31 16,
    vec := Word.field w 37 32, addr := Word.field w 120 67 * 8 }

/-- Ring size in bytes. -/
def Queue.size (x : Queue) : Nat := 2 ^ x.logSize

/-- Bytes between RP and the limit of parsing: WP, and in host-assisted parsing GATE (Table 3.11). -/
def avail (s : State) (q : QId) : Nat :=
  let x := s.queue q
  let n := (x.wp + x.size - x.rp) % x.size
  if q.owner < 16 ∧ Word.bit (s.tenant q.owner).mode 0 then (if x.gateSet then 0 else min n ((x.gate + x.size - x.rp) % x.size)) else n

/-- The header at RP. -/
def headAt (s : State) (q : QId) : Hdr × State :=
  let x := s.queue q
  let (bs, s) := s.readFor none ⟨0, x.base + x.rp⟩ 16
  (Hdr.of (leNat bs), s)

/-- The body of the packet at RP. -/
def packetBody (s : State) (q : QId) (h : Hdr) : List Byte × State :=
  let x := s.queue q
  s.readFor none ⟨0, x.base + x.rp + 16⟩ (16 * h.len - 16)

/-- The header at RP as it was parsed. -/
def Queue.parsedHdr (x : Queue) : Hdr := Hdr.of (leNat ((x.heads.getLast?).getD []))

/-- The header is parsed: it joins the last eight (R94). -/
def Queue.parse (x : Queue) (h : Hdr) : Queue := { x with parsed := true, heads := (x.heads ++ [leBytes 16 h.raw]).drop (x.heads.length - 7) }

/-- A read of the first `n` bytes at RP waits for an engine that owns a line of them (R178). -/
def ringHeld (s : State) (q : QId) (n : Nat) : Bool := s.spanOwned ⟨0, (s.queue q).base + (s.queue q).rp⟩ n

/-- LENGTH of a packet type (Table 3.8, R74, R83, R86, R88, R90). -/
def packetLen (op : Nat) : Nat := [1, 1, 2, 2, 4, 2, 8, 3, 3, 3, 3, 1, 6].getD op 0

/-- Types that a management queue accepts (R60). -/
def mgmtOk (op : Nat) : Bool := op < 4 || op == 12

/-- The header checks of Table 3.7 in order; 0 when all pass. -/
def headerCheck (x : Queue) (mgmt : Bool) (h : Hdr) : Nat :=
  if 0x0D ≤ h.op then 1
  else if mgmt && !mgmtOk h.op then 2
  else if Word.field h.raw 127 121 ≠ 0 ∨ Word.field h.raw 66 38 ≠ 0 ∨ Word.field h.raw 15 11 ≠ 0 ∨
      (h.op = 1 ∧ (h.fence ∨ h.irq ∨ h.sig)) then 3
  else if h.len = 0 then 4
  else if x.size - 16 < 16 * h.len then 5
  else if x.size < x.rp + 16 * h.len then 6
  else if h.len ≠ packetLen h.op then 7
  else 0

/-- A field of a body. -/
def fieldAt (b : List Byte) (off n : Nat) : Nat := leNat ((b.drop off).take n)

/-- A running host-assisted replay of the graph at an address (R70, R84). -/
def assistedReplay (s : State) (t k va : Nat) : Option Replay :=
  s.replays.find? (fun r => r.tenant == t && r.ctx == k && r.graph == va && r.assisted && !r.wait)

/-- The body checks of R59: rsvd fields, alignments and value ranges. -/
def bodyBad (s : State) (q : QId) (op : Nat) (b : List Byte) : Bool :=
  let f := fieldAt b
  match op with
  | 2 => f 0 8 % 8 != 0
  | 3 => f 0 8 % 8 != 0
  | 4 => decide (2 < f 18 1) || f 19 5 != 0 || f 32 16 != 0 || f 24 8 % 8 != 0
  | 5 => f 2 14 != 0
  | 6 => f 2 1 / 4 != 0 || f 3 1 / 8 != 0 || f 0x21 1 / 64 != 0 || f 0x22 2 != 0 || f 0x3D 3 != 0 || f 0x48 40 != 0 ||
      f 0x28 8 % 8 != 0 || f 0x30 8 % 8 != 0 || (f 0x20 1 == 0 && f 0x24 4 != 0)
  | 7 => f 28 4 != 0 || f 16 8 % 8 != 0 || (f 24 4 != 0xFFFFFFFF && !Word.bit (s.tenant q.owner).mode 4 &&
      (assistedReplay s q.owner (s.queue q).ctx (f 0 8)).isNone)
  | 8 => f 20 12 != 0
  | 9 => decide (1 < f 0 1) || f 1 3 != 0 || (if f 0 1 = 0 then f 4 4 != 0 else !(decide (1 ≤ f 4 4) && decide (f 4 4 ≤ 10000))) ||
      f 8 8 % 4096 != 0 || f 24 8 % 8 != 0
  | 10 => f 13 3 != 0 || f 16 8 % 8 != 0 || f 24 8 != 0
  | 12 => f 64 8 % 8 != 0 || f 72 8 != 0
  | _ => false

/-! ### Whether a packet starts (R61, R88, R92) -/

/-- A context holds its queues and their packets: it is fatal, or a pre-emption of it is under way. -/
def ctxHeld (s : State) (owner k : Nat) : Bool :=
  owner != 16 && (let c := s.ctx owner k; c.state == .fatal || (c.preempt.isSome && c.state != .preempted))

def ctxHolds (s : State) (q : QId) : Bool := ctxHeld s q.owner (s.queue q).ctx

/-- An earlier packet of the queue has not completed. -/
def outstanding (s : State) (q : QId) : Bool := s.packets.any (fun p => p.q == q)

/-- The packet whose header is `h` waits: for a blocking packet, its FENCE, a page fault, or the context. -/
def mustWait (s : State) (q : QId) (h : Hdr) : Bool :=
  (s.queue q).blocker.isSome || (h.fence && outstanding s q) || queueWaits s q || ctxHolds s q

/-- STATE after what blocks the queue may have changed. -/
def settle (s : State) (q : QId) : State :=
  let x := s.queue q
  if !x.enable || x.state == .stopped then s
  else
    let b := x.blocker.isSome || queueWaits s q || ctxHolds s q || (x.parsed && x.parsedHdr.fence && outstanding s q)
    s.setQueue q { x with state := if b then .blocked else .active }

/-- The rest of the checks of a packet whose header is parsed: its body, once the packet is whole. The packet is held as it was read, so
that what starts is what was checked (R54, R59). -/
def checkBody (s : State) (q : QId) (h : Hdr) : State :=
  let x := s.queue q
  let p : PTarget := ⟨0, x.base + x.rp⟩
  if avail s q < 16 * h.len || ringHeld s q (16 * h.len) then s
  else if s.poisoned p (16 * h.len) || s.recordPoisoned p (16 * h.len) then stopQueue s q 2 3
  else
    let (b, s) := packetBody s q h
    if bodyBad s q h.op b then stopQueue s q 1 3 else s.setQueue q { s.queue q with checked := true, packet := leBytes 16 h.raw ++ b }

/-- Check the packet at RP (R59): the header when it is there, the body when the packet is whole; a check that fails stops
the queue. A header, and a packet, is read and checked once. -/
def checkPacket (s : State) (q : QId) : State :=
  let x := s.queue q
  let p : PTarget := ⟨0, x.base + x.rp⟩
  if !x.enable || x.state == .stopped || x.checked || avail s q < 16 then s
  else if x.parsed then checkBody s q x.parsedHdr
  else if ringHeld s q 16 then s
  else if s.poisoned p 16 || s.recordPoisoned p 16 then stopQueue s q 2 3
  else
    let (h, s) := headAt s q
    let s := s.setQueue q ((s.queue q).parse h)
    let c := headerCheck x (q.owner == 16) h
    if c ≠ 0 then stopQueue s q 1 c else checkBody s q h

/-! ### Starting and completing (R61, R62) -/

/-- RP passes the packet, and the packet is outstanding. Its number is answered. -/
def beginPacket (s : State) (q : QId) (h : Hdr) (b : List Byte) (sig status : Option PTarget) : Packet × State :=
  let (id, s) := s.fresh
  let x := s.queue q
  let p : Packet :=
    { id := id, q := q, ctx := x.ctx, opcode := h.op, hdr := leBytes 16 h.raw, body := b, sig := sig, irq := h.irq, vec := h.vec,
      status := status, walks := [] }
  let rp := if h.op = 1 then 0 else (x.rp + 16 * h.len) % x.size
  let s := s.setQueue q { x.unparsed with rp := rp }
  (p, { s with packets := s.packets ++ [p] })

/-- An action has failed without stopping the queue. -/
def actErr (s : State) (q : QId) : State := s.setQueue q { s.queue q with actErr := true }

/-- What an access of the engine at a target found earlier runs into: a management queue's targets lie in its region. -/
def queueLate (s : State) (q : QId) (p : PTarget) (n : Nat) (read : Bool) : Option Code :=
  if q.owner = 16 then (if read && s.poisoned p n then some .memoryPoison else none) else s.lateFail q.owner p n read

/-- A write at a target that was found when its packet started; one that fails now has no effect, and shows ACTERR (R63, R24, R35). -/
def lateStore (s : State) (q : QId) (p : PTarget) (bs : List Byte) : State :=
  match queueLate s q p bs.length false with
  | some _ => actErr s q
  | none => s.writePhys p bs

/-- A completion add, in the same way. -/
def lateAdd (s : State) (q : QId) (p : PTarget) : State :=
  match queueLate s q p 8 true with
  | some _ => actErr s q
  | none => s.addCounter p 1

/-- Completion signalling (R62): the counter, then the message; the queue goes on if the packet blocked it. -/
def completePacket (s : State) (p : Packet) : State :=
  let s := match p.sig with | some t => lateAdd s p.q t | none => s
  let s := if p.irq then queueMsi s p.q p.vec else s
  let s := { s with packets := s.packets.filter (fun x => x.id != p.id) }
  let x := s.queue p.q
  settle (if x.blocker = some p.id then s.setQueue p.q { x with blocker := none } else s) p.q

/-- The started packet blocks its queue. -/
def blockOn (s : State) (p : Packet) : State := s.setQueue p.q { s.queue p.q with blocker := some p.id, state := .blocked }

/-- The status word receives a code, and the packet completes. -/
def finishPacket (s : State) (p : Packet) (code : Nat) : State :=
  let s := match p.status with | some t => lateStore s p.q t (leBytes 8 code) | none => s
  completePacket s p

/-- What a packet's action needs: its queue, header, body, and completion counter. -/
structure PktIn where
  q   : QId
  h   : Hdr
  b   : List Byte
  sig : Option PTarget
  deriving DecidableEq, Repr

def PktIn.field (p : PktIn) (off n : Nat) : Nat := fieldAt p.b off n

/-- Start the packet, with its target if the type has one. -/
def PktIn.begin_ (p : PktIn) (s : State) (status : Option PTarget) : Packet × State := beginPacket s p.q p.h p.b p.sig status

/-- A packet of type `op` at RP starts if it is checked and nothing makes it wait: its completion counter is translated
before any action (R63). -/
def startPacket (op : Nat) (q : QId) (s : State) (act : PktIn → State → State) : State :=
  let s := checkPacket s q
  let x := s.queue q
  let h := Hdr.of (leNat (x.packet.take 16))
  if !queueMapped s q || !x.enable || x.state == .stopped || !x.checked || h.op ≠ op || avail s q < 16 * h.len || mustWait s q h then s
  else withTargetIf h.sig s q h.addr 8 .qAtomic (fun sig s => act ⟨q, h, x.packet.drop 16, sig⟩ s)

/-! ### NOP, WRAP, WAITCNT, SIGNAL -/

def nopAct (p : PktIn) (s : State) : State :=
  let (k, s) := p.begin_ s none
  completePacket s k

def execNopPacket (q : QId) (s : State) : Host.Outcome State Fault Refusal := .next (startPacket 0 q s nopAct)
def execWrap (q : QId) (s : State) : Host.Outcome State Fault Refusal := .next (startPacket 1 q s nopAct)

/-- The counter of a WAITCNT has reached its target; a read that fails shows ACTERR, and is made again (R24, R63). -/
def pollCounter (s : State) (p : Packet) (t : PTarget) : State :=
  if s.blockedSpan none false t 8 then s
  else
    match queueLate s p.q t 8 true with
    | some _ => actErr s p.q
    | none =>
      let (bs, s) := s.readFor none t 8
      if fieldAt p.body 8 8 ≤ leNat bs then completePacket s p else s

/-- WAITCNT blocks its queue until Mem[ADDR, 8] ≥ TARGET. ADDR is translated once, as the packet starts; the later reads are made at
the physical address found then (log 27). -/
def waitAct (p : PktIn) (s : State) : State :=
  withTarget s p.q (p.field 0 8) 8 .qRd (fun t s =>
    let (k, s) := p.begin_ s (some t)
    pollCounter (blockOn s k) k t)

def execWaitcnt (q : QId) (s : State) : Host.Outcome State Fault Refusal := .next (startPacket 2 q s waitAct)

/-- The packet that blocks a queue. -/
def State.blockerOf (s : State) (q : QId) : Option Packet := (s.queue q).blocker.bind s.packet?

/-- WAITCNT_POLL: the counter is read again (R64). -/
def execWaitcntPoll (q : QId) (s : State) : Host.Outcome State Fault Refusal :=
  .next (
    match s.blockerOf q with
    | none => s
    | some p =>
      match p.status with
      | some t => if p.opcode = 2 ∧ !ctxHeld s q.owner p.ctx then pollCounter s p t else s
      | none => s)

/-- SIGNAL: Mem[ADDR, 8] := max(old, VALUE). -/
def signalAct (p : PktIn) (s : State) : State :=
  withTarget s p.q (p.field 0 8) 8 .qAtomic (fun t s =>
    let (k, s) := p.begin_ s none
    completePacket (s.atomicSeen t 13 0 false false (p.field 8 8) 0).2 k)

def execSignal (q : QId) (s : State) : Host.Outcome State Fault Refusal := .next (startPacket 3 q s signalAct)

/-! ### ATTEST (R43) -/

/-- Bytes whose value the manual does not state. -/
def freeBytes (n : Nat) (s : State) : List Byte × State :=
  ((List.range n).map (fun i => Config.freeByte (s.choices + i)), { s with choices := s.choices + n })

/-- The tenant's TEN registers as they read, Table 2.8. -/
def tenRegs (s : State) (t : Nat) : List Byte := (List.range 0x80).flatMap (fun i => leBytes 8 (blockRead s t (8 * i)))

/-- CFGMEAS and SIGNERS: a tenant's, or the physical function's, which the manual does not state. -/
def measures (s : State) (owner : Nat) : List Byte × State :=
  if owner = 16 then freeBytes 128 s
  else
    (sha3 (tenRegs s owner ++ slotImage s 0) ++
      sha3 ((List.range 8).flatMap (fun i => (s.tenant owner).keys.getD i [])), s)

/-- The report of Table 2.5. -/
def report (s : State) (owner : Nat) (nonce : List Byte) : List Byte × State :=
  let count := s.pkg.attests + 1
  let (ms, s) := measures { s with pkg := { s.pkg with attests := count } } owner
  let body := leBytes 4 0x4B460A01 ++ leBytes 2 1 ++ leBytes 1 (if owner = 16 then 0xFF else owner) ++ leBytes 1 0 ++
    leBytes 8 count ++ nonce ++ s.pkg.fwHash ++ ms ++ leBytes 2 0x0102 ++ leBytes 2 0 ++
    (List.range 4).flatMap (fun d => leBytes 1 (revOf d)) ++ leBytes 8 1
  let sig := Config.mlDsaSign (sha3 body)
  (body ++ (List.range 4627).map (fun i => sig.getD i 0), s)

/-- ATTEST: the report is written at OUTADDR. -/
def attestAct (p : PktIn) (s : State) : State :=
  withSpan p.q .qWr (pageParts 3 (p.field 64 8) 4915) s (fun ts s =>
    let (k, s) := p.begin_ s none
    let (r, s) := report s p.q.owner (p.b.take 64)
    completePacket (writeTargetsOf ts r s) k)

def execAttest (q : QId) (s : State) : Host.Outcome State Fault Refusal := .next (startPacket 12 q s attestAct)

end Sys2Proof.Machine
end

