-- ==== Sys2Proof/Machine/Objects.lean ====
section
/-! DEFINITION. Code objects: the container header (R289, R290), the checks of a load (R45, R65), and UNLOAD (R64). -/

namespace Sys2Proof.Machine

open Sys2Proof

/-! ### The container header (Table 13.5) -/

/-- Bytes of the header region of an object of `n` pages (R289). -/
def headerRegion (n : Nat) : Nat := 65536 * Word.ceilDiv (0x1400 + 64 * n) 65536

/-- Spans that lie in a region and do not overlap. -/
def disjointIn (lo hi : Nat) : List (Nat × Nat) → Bool
  | [] => true
  | (a, n) :: r =>
    (n == 0 || (decide (lo ≤ a) && decide (a + n ≤ hi) && r.all (fun x => x.2 == 0 || decide (a + n ≤ x.1) || decide (x.1 + x.2 ≤ a)))) &&
      disjointIn lo hi r

/-- End of the paged region as far as the object has bytes (R290). -/
def pagedEnd (h : List Byte) : Nat := min (fieldAt h 0x08 8) (fieldAt h 0x18 8 + 65536 * fieldAt h 0x20 4)

/-- Check 1 on the first 0x1400 bytes and LOAD's OBJSIZE, but for the rest of the header region. -/
def headerOk (h : List Byte) (size : Nat) : Bool :=
  let f := fieldAt h
  let npage := f 0x20 4
  let pend := f 0x18 8 + 65536 * npage
  let data := f 0x60 8
  f 0 4 == 0x4B460C01 && f 4 2 == 1 && decide (1 ≤ npage) && decide (npage ≤ 2 ^ 24) && f 0x18 8 == headerRegion npage &&
    f 0x08 8 == size && f 0x74 140 == 0 && f 0x101 1 == 0 && f 0x1315 235 == 0 &&
    decide (1 ≤ f 0x24 4) && decide (f 0x24 4 ≤ 65536) && decide (1 ≤ f 0x28 4) && decide (f 0x28 4 ≤ 2 ^ 24) &&
    decide (f 0x2C 4 ≤ 65536) && f 0x30 8 % 8 == 0 && f 0x38 8 % 8 == 0 && f 0x40 8 % 8 == 0 &&
    (if f 0x2C 4 = 0 then f 0x50 8 == 0 else f 0x50 8 % 64 == 0) &&
    (if data = 0 then f 0x58 8 == size && decide (pend - 65536 < size) && decide (size ≤ pend)
     else f 0x58 8 == pend && size == pend + data) &&
    f 0x68 8 % 128 == 0 &&
    ((data == 0 && f 0x70 4 == 0) || (decide (f 0x58 8 ≤ f 0x68 8) && decide (f 0x68 8 + 128 * f 0x70 4 ≤ f 0x58 8 + data))) &&
    disjointIn (f 0x18 8) (pagedEnd h) [(f 0x30 8, 32 * f 0x24 4), (f 0x38 8, 8 * f 0x28 4), (f 0x40 8, 8 * f 0x48 8), (f 0x50 8, 32 * f 0x2C 4)]

/-- The imprint digest (R290) over the header and the page-hash table. -/
def imprintDigest (h : List Byte) : List Byte :=
  sha3 (h.take 0x100 ++ (h.drop 0x1315).take 235 ++ (h.drop 0x1400).take (64 * fieldAt h 0x20 4))

/-- The object of a header region. -/
def objOf (inst oid va : Nat) (h : List Byte) : CodeObj :=
  let f := fieldAt h
  { inst := inst, objId := oid, va := va, bytes := f 0x08 8, minor := f 0x06 1, behaviour := f 0x10 8, signer := f 0x100 1,
    pageBase := f 0x18 8, npage := f 0x20 4, nfunc := f 0x24 4, nblock := f 0x28 4, nsect := f 0x2C 4, funcOff := f 0x30 8,
    blockOff := f 0x38 8, textOff := f 0x40 8, textWords := f 0x48 8, sectOff := f 0x50 8,
    hashes := (List.range (f 0x20 4)).map (fun i => (h.drop (0x1400 + 64 * i)).take 64), shadows := [], digest := imprintDigest h }

/-! ### Reading through the queue's context -/

/-- What a read or a check of a load comes to: a value, a refusal, or a wait for a page fault. -/
inductive LoadStep (α : Type) where
  | ok (a : α)
  | refuse
  | wait
  deriving DecidableEq, Repr

/-- Read a span of the object: a part that fails, or lies on a host or peer page, refuses the load (check 2). -/
def loadBytes (q : QId) : List (Nat × Nat) → State → LoadStep (List Byte) × State
  | [], s => (.ok [], s)
  | (va, n) :: r, s =>
    match queueLook s q va n .qRd with
    | (.wait, s) => (.wait, s)
    | (.fail _, s) => (.refuse, s)
    | (.ok p, s) =>
      if p.tgt ≠ 0 then (.refuse, s)
      else
        let (b, s) := s.readFor none p n
        match loadBytes q r s with
        | (.ok bs, s) => (.ok (b ++ bs), s)
        | (x, s) => (x, s)

def loadSpan (q : QId) (va n : Nat) (s : State) : LoadStep (List Byte) × State := loadBytes q (pageParts (n / 65536 + 2) va n) s

/-- Every page of the object translates as a read to device memory. -/
def loadPages (q : QId) (va : Nat) : Nat → State → LoadStep Unit × State
  | 0, s => (.ok (), s)
  | n + 1, s =>
    match loadPages q va n s with
    | (.ok _, s) =>
      match queueLook s q (va + 65536 * n) 1 .qRd with
      | (.wait, s) => (.wait, s)
      | (.fail _, s) => (.refuse, s)
      | (.ok p, s) => (if p.tgt = 0 then .ok () else .refuse, s)
    | (x, s) => (x, s)

/-- Fetch pages of the directory into shadows (check 7); `refuse` where one does not match its hash. -/
def loadShadows (q : QId) : List Nat → CodeObj → State → LoadStep CodeObj × State
  | [], o, s => (.ok o, s)
  | p :: ps, o, s =>
    match loadSpan q (o.va + o.pageBase + 65536 * p) (o.pageLen p) s with
    | (.wait, s) => (.wait, s)
    | (.refuse, s) => (.refuse, s)
    | (.ok bs, s) =>
      let bs := bs ++ List.replicate (65536 - bs.length) 0
      if sha3 bs = o.hashes.getD p [] then loadShadows q ps { o with shadows := o.shadows.set p bs } s else (.refuse, s)

/-- One directory entry is well formed (R292). -/
def sectionOk (o : CodeObj) (pend i : Nat) : Bool :=
  let r : Except TextStop Bool := do
    let e := o.sectOff + 32 * i
    let rev ← o.nat e 1
    let key ← o.nat (e + 1) 1
    let block ← o.nat (e + 4) 4
    let img ← o.nat (e + 8) 8
    let n ← o.nat (e + 16) 4
    .ok ((rev == 0x12 || rev == 0x21) && decide (key % 8 ≤ 4) && decide (key < 32) && decide (block < o.nblock) &&
      decide (o.pageBase ≤ img) && decide (img + n ≤ pend))
  match r with
  | .ok b => b
  | .error _ => false

/-! ### LOAD -/

/-- The load ends with a code and the number of the check that failed (R65); `none` while it waits for a page fault. -/
structure Loaded where
  code : Nat
  step : Nat
  obj  : Option CodeObj
  deriving DecidableEq, Repr

def Loaded.no (code step : Nat) : Option Loaded := some ⟨code, step, none⟩

/-- Checks 3 to 7 on the header region. -/
def loadChecks (p : PktIn) (o : CodeObj) (h : List Byte) (s : State) : Option Loaded × State :=
  let x := s.tenant p.q.owner
  let key := if o.signer < 8 then x.keys.get? o.signer else none
  match key with
  | none => (Loaded.no 3 3, s)
  | some key =>
    let valid : Bool := if Word.bit x.mode 1 then p.field 18 1 == 1 else Config.mlDsaVerify key o.digest ((h.drop 0x102).take 4627)
    if !valid then (Loaded.no 4 4, s)
    else if fieldAt h 0x07 1 ≠ 1 ∨ 2 < o.minor then (Loaded.no 5 5, s)
    else if 1 < o.behaviour then (Loaded.no 6 6, s)
    else
      match loadShadows p.q (o.pagesOf o.sectOff (32 * o.nsect)) o s with
      | (.wait, s) => (none, s)
      | (.refuse, s) => (Loaded.no 9 7, s)
      | (.ok o, s) => (if (List.range o.nsect).all (sectionOk o (pagedEnd h)) then some ⟨0, 0, some o⟩ else Loaded.no 7 7, s)

/-- The checks of R45 in order. -/
def loadObject (p : PktIn) (s : State) : Option Loaded × State :=
  let va := p.field 0 8
  let size := p.field 8 8
  let oid := p.field 16 2
  if (s.ctx p.q.owner (s.queue p.q).ctx).objs.any (fun o => o.objId == oid) then (Loaded.no 8 0, s)
  else if va % 65536 ≠ 0 ∨ size < 65536 then (Loaded.no 1 1, s)
  else
    match loadSpan p.q va 0x1400 s with
    | (.wait, s) => (none, s)
    | (.refuse, s) => (Loaded.no 2 2, s)
    | (.ok h, s) =>
      if !headerOk h size then (Loaded.no 1 1, s)
      else
        let n := fieldAt h 0x18 8
        match loadSpan p.q (va + 0x1400) (n - 0x1400) s with
        | (.wait, s) => (none, s)
        | (.refuse, s) => (Loaded.no 2 2, s)
        | (.ok r, s) =>
          if (r.drop (64 * fieldAt h 0x20 4)).any (fun b => b != 0) then (Loaded.no 1 1, s)
          else
            match loadPages p.q va (Word.ceilDiv size 65536) s with
            | (.wait, s) => (none, s)
            | (.refuse, s) => (Loaded.no 2 2, s)
            | (.ok _, s) => loadChecks p (objOf s.nextId oid va (h ++ r)) (h ++ r) s

/-- LOAD: the object joins the context, and the result record is written. -/
def loadAct (p : PktIn) (s : State) : State :=
  withTarget s p.q (p.field 24 8) 8 .qWr (fun t s =>
    match loadObject p s with
    | (none, s) => showBlocked s p.q
    | (some r, s) =>
      let k := (s.queue p.q).ctx
      let s := match r.obj with
        | some o =>
          let c := s.ctx p.q.owner k
          { s.setCtx p.q.owner k { c with objs := c.objs ++ [o] } with nextId := s.nextId + 1 }
        | none => actErr s p.q
      let (pk, s) := p.begin_ s (some t)
      finishPacket s pk (r.code + 256 * r.step))

def execLoad (q : QId) (s : State) : Host.Outcome State Fault Refusal := .next (startPacket 4 q s loadAct)

/-! ### UNLOAD -/

/-- A number at a virtual address of a context, where it translates. -/
def peekVa (s : State) (t k va n : Nat) : Option Nat :=
  match (translateNow s t k va n .rd).1 with
  | .ok p => some (leNat (s.readFor none p n).1)
  | .error _ => none

/-- A launch node of a running replay that has not been dispatched names the object. -/
def nodeNames (s : State) (r : Replay) (oid n : Nat) : Bool :=
  !r.dispatched.contains n &&
    (match peekVa s r.tenant r.ctx (r.graph + 0x10) 8, peekVa s r.tenant r.ctx (r.graph + 0x18) 8 with
     | some tcb, some par => peekVa s r.tenant r.ctx (tcb + 32 * n + 8) 1 == some 0 &&
        peekVa s r.tenant r.ctx (par + 128 * (2 * n + r.gen % 2)) 2 == some oid
     | _, _ => false)

/-- A launch or graph node of the context that names OBJID is unretired. A replay that still waits to begin has bound no slots, and a
slot that does not translate names no object: neither holds an UNLOAD back (log 27). -/
def objInUse (s : State) (t k oid : Nat) : Bool :=
  s.launches.any (fun l => l.tenant == t && l.ctx == k && l.objId == oid) ||
    s.replays.any (fun r => r.tenant == t && r.ctx == k && !r.wait && r.abandon.isNone && (List.range r.nodes).any (nodeNames s r oid))

/-- The object's translations and shadows are discarded, and OBJID is free. -/
def discardObj (s : State) (t k oid : Nat) : State :=
  let c := s.ctx t k
  let gone := (c.objs.filter (fun o => o.objId == oid)).map CodeObj.inst
  { s.setCtx t k { c with objs := c.objs.filter (fun o => o.objId != oid) } with
    xlats := s.xlats.filter (fun x => !(x.tenant == t && x.ctx == k && gone.contains x.obj)) }

/-- UNLOAD starts and blocks its queue while the object is in use. -/
def unloadAct (p : PktIn) (s : State) : State :=
  let oid := p.field 0 2
  let k := (s.queue p.q).ctx
  let (pk, s) := p.begin_ s none
  if !(s.ctx p.q.owner k).objs.any (fun o => o.objId == oid) then completePacket (actErr s p.q) pk
  else if objInUse s p.q.owner k oid then blockOn s pk
  else completePacket (discardObj s p.q.owner k oid) pk

/-- UNLOAD at RP starts; one that blocks the queue completes when its object is no longer in use. -/
def execUnload (q : QId) (s : State) : Host.Outcome State Fault Refusal :=
  .next (
    match s.blockerOf q with
    | some p =>
      let oid := fieldAt p.body 0 2
      let k := p.ctx
      if p.opcode = 5 ∧ !ctxHeld s q.owner k ∧ !objInUse s q.owner k oid then completePacket (discardObj s q.owner k oid) p else s
    | none => startPacket 5 q s unloadAct)

end Sys2Proof.Machine
end

