-- ==== Sys2Proof/Machine/Launches.lean ====
section
/-! DEFINITION. LAUNCH: the checks of Table 4.5 (R74 to R78, R432), the placement of launches, domains and pieces on cores
(R124 to R130), and completion (R80). -/

namespace Sys2Proof.Machine

open Sys2Proof

/-! ### The launch body (Table 4.4) -/

/-- A launch of a body; its number, object, arguments and state are filled in as it starts. -/
def launchOf (t k : Nat) (hdr b : List Byte) : Launch :=
  let f := fieldAt b
  let ext := [f 8 8, f 0x10 8, f 0x18 8]
  let mask := f 0x38 8 % 2 ^ 40
  { id := 0, tenant := t, ctx := k, hdr := hdr, body := b, objId := f 0 2, obj := 0, entry := f 4 4,
    g := 8 * 2 ^ (f 2 1 % 4), n := ext.foldl (· * ·) 1, ext := ext, budget := f 0x21 1, spad := f 0x40 4,
    domLevel := f 0x20 1, domGroups := f 0x24 4, clmask := if mask = 0 then 2 ^ 40 - 1 else mask, tag := f 0x44 4,
    idem := Word.bit (f 3 1) 0, args := [], status := none, packet := none, node := none, placed := false, restored := false, retired := 0,
    groups := [], domains := [] }

/-- The units of a launch's level with their admitted cores, in ascending order. -/
def unitsOf (s : State) (l : Launch) : List (Nat × List Nat) :=
  let cs := admitted s l
  ((cs.map (unitOf l.domLevel)).dedup).map (fun u => (u, cs.filter (fun c => unitOf l.domLevel c == u)))

/-- Resident groups that cores hold under R77. -/
def roomOf (l : Launch) (cores : List Nat) : Nat := (cores.map l.slots).sum

/-- Checks 3 to 7 of Table 4.5; 0 when all pass. The dies of check 6 are those on which CLMASK admits a cluster that the tenant owns:
the launch can reach no other (log 27). -/
def launchCheck (s : State) (l : Launch) : Nat :=
  let dims := fieldAt l.body 3 1 / 2 % 4
  let cs := admitted s l
  if dims = 0 ∨ l.ext.contains 0 ∨ 2 ^ 40 < l.n ∨ (dims < 2 ∧ l.ext.getD 1 0 ≠ 1) ∨ (dims < 3 ∧ l.ext.getD 2 0 ≠ 1) then 3
  else if 4 < l.budget % 8 ∨ 4 < l.budget / 8 % 8 then 4
  else if cs.isEmpty then 5
  else if l.spad % 4096 ≠ 0 ∨ cs.any (fun c => decide (spadOf c < l.spad)) then 6
  else if 3 < l.domLevel ∨ (1 ≤ l.domLevel ∧ (l.domGroups = 0 ∨ l.groupCount % l.domGroups ≠ 0 ∨
      (unitsOf s l).any (fun u => decide (roomOf l u.2 < l.domGroups)))) then 7
  else 0

/-! ### Reading text and memory for a queue -/

/-- A completion that must wait for a line. -/
def targetHeld (s : State) (t : Option PTarget) : Bool := match t with | some p => s.blocked none true p | none => false

def packetHeld (s : State) (p : Packet) : Bool := targetHeld s p.sig || targetHeld s p.status

/-- The packet of a number, if it has not completed, has a completion that must wait. -/
def completionHeld (s : State) (p : Option Nat) : Bool := match p.bind s.packet? with | some p => packetHeld s p | none => false

/-- What a read of text by the queue engine comes to. -/
inductive TextGot (α : Type) where
  | ok (a : α)
  | format
  | hash (page : Nat)
  | fail (c : Code)
  | wait
  deriving DecidableEq, Repr

/-- Read an object's text, fetching the pages it needs (R46, R432). -/
def queueText {α : Type} (q : QId) (k inst : Nat) (f : CodeObj → Except TextStop α) : Nat → State → TextGot α × State
  | 0, s => (.format, s)
  | fuel + 1, s =>
    match s.obj? q.owner k inst with
    | none => (.format, s)
    | some o =>
      match f o with
      | .ok a => (.ok a, s)
      | .error .format => (.format, s)
      | .error (.page p) =>
        match queueWalk s q k (o.va + o.pageBase + 65536 * p) 1 .qRd with
        | (.wait, s) => (.wait, s)
        | (.fail c, s) => (.fail c, s)
        | (.ok _, s) =>
          match fetchPage s q.owner k inst p with
          | (.ok, s) => queueText q k inst f fuel s
          | (.hash, s) => (.hash p, s)
          | (.fail c, s) => (.fail c, s)
          | (.fault _ _, s) => (.wait, s)

/-- What a read or write after the start comes to. -/
inductive Late (α : Type) where
  | ok (a : α)
  | fail (c : Code)
  | wait
  deriving DecidableEq, Repr

/-- The targets of a span in a context, or the first failure; a result held for a failing page is used up. -/
def lateTargets (q : QId) (k : Nat) (a : Access) : List (Nat × Nat) → State → Late (List (PTarget × Nat)) × State
  | [], s => (.ok [], s)
  | (va, n) :: r, s =>
    match queueWalk s q k va n a with
    | (.wait, s) => (.wait, s)
    | (.fail c, s) =>
      let x := s.queue q
      (.fail c, s.setQueue q { x with walks := x.walks.filter (fun w => w.page != pageOf va) })
    | (.ok p, s) =>
      if s.blockedSpan none a.write p n then (.wait, s)
      else
        match lateTargets q k a r s with
        | (.ok ps, s) => (.ok ((p, n) :: ps), s)
        | (x, s) => (x, s)

/-- A page of a span is in service, or a line of it is held: nothing has been accessed yet. -/
def lateWaits (q : QId) (k : Nat) (a : Access) (ps : List (Nat × Nat)) (s : State) : Bool × State :=
  let ws := (s.queue q).walks
  let keep (s' : State) : State := if (s'.queue q).walks = ws then s' else s'.setQueue q { s'.queue q with walks := ws }
  match lateTargets q k a ps s with
  | (.wait, s') => (true, keep s')
  | (_, s') => (false, keep s')

def lateRead (q : QId) (k va n : Nat) (s : State) : Late (List Byte) × State :=
  match lateTargets q k .qRd (pageParts (n / 65536 + 2) va n) s with
  | (.ok ps, s) =>
    let (bs, s) := readTargetsOf ps s
    (.ok bs, s)
  | (.fail c, s) => (.fail c, s)
  | (.wait, s) => (.wait, s)

def lateWrite (q : QId) (k va : Nat) (bs : List Byte) (s : State) : Late Unit × State :=
  match lateTargets q k .qWr (pageParts (bs.length / 65536 + 2) va bs.length) s with
  | (.ok ps, s) => (.ok (), writeTargetsOf ps bs s)
  | (.fail c, s) => (.fail c, s)
  | (.wait, s) => (.wait, s)

/-! ### Starting a launch (R76, R78) -/

/-- What the checks of a launch come to. -/
inductive LaunchGot where
  | start (l : Launch)
  | code (n : Nat)
  | hash (inst page : Nat)
  | fail (c : Code)
  | wait
  deriving DecidableEq, Repr

/-- The entry block's declared types, if ENTRY is a block marked `.entry`. -/
def entryTypes (b : Nat) (o : CodeObj) : Except TextStop (Option (List Ty)) := do
  let (h, _) ← o.header b
  .ok (if h.entry then some h.args else none)

/-- The arguments: argument k is the low bits of the 8 bytes at ARGADDR + 8k (R78). -/
def argValues (tys : List Ty) (bs : List Byte) : List TVal :=
  tys.mapIdx (fun i ty => ⟨ty, .ofNat (fieldAt bs (8 * i) 8 % 2 ^ ty.width)⟩)

/-- The checks of Table 4.5 in order, then the argument record, read once. -/
def startLaunch (s : State) (q : QId) (k : Nat) (hdr b : List Byte) : LaunchGot × State :=
  let l := launchOf q.owner k hdr b
  match (s.ctx q.owner k).objs.find? (fun o => o.objId == l.objId) with
  | none => (.code 1, s)
  | some o =>
    match queueText q k o.inst (entryTypes l.entry) 8 s with
    | (.wait, s) => (.wait, s)
    | (.fail c, s) => (.fail c, s)
    | (.hash p, s) => (.hash o.inst p, s)
    | (.format, s) => (.code 2, s)
    | (.ok none, s) => (.code 2, s)
    | (.ok (some tys), s) =>
      let c := launchCheck s l
      if c ≠ 0 then (.code c, s)
      else
        match lateRead q k (fieldAt b 0x28 8) (8 * tys.length) s with
        | (.wait, s) => (.wait, s)
        | (.fail c, s) => (.fail c, s)
        | (.ok bs, s) => (.start { l with obj := o.inst, args := argValues tys bs }, s)

/-- R432: the entry page's hash does not match, and the context becomes fatal with no group named. -/
def launchHash (s : State) (q : QId) (k inst page : Nat) (b : List Byte) : State :=
  codeIntegrity s q.owner k inst page { FaultAt.nowhere with tag := fieldAt b 0x44 4, objId := fieldAt b 0 2, block := fieldAt b 4 4 }

/-- A launch joins those of the device; a launch-level domain holds all its groups. -/
def addLaunch (s : State) (l : Launch) : Nat × State :=
  let (id, s) := s.fresh
  let doms : Tbl Domain := if l.domLevel = 0 then [(0, { Domain.empty with placed := true, live := l.groupCount })] else []
  (id, { s with launches := s.launches ++ [{ l with id := id, domains := doms }] })

/-! ### Cores (R124, R157, R160, R375, R411) -/

/-- A core takes a launch. -/
def takeCore (s : State) (l : Launch) (c : Nat) : State :=
  let x := s.core c
  if x.launch = some l.id then s
  else
    s.setCore c { Core.reset with
      launch := some l.id
      spad := x.spad.zero 0 l.spad
      tlb := x.tlb
      aq := x.aq }

/-- Groups of placed domains of the launch that live in a unit: their slots are kept for them (R77). -/
def keptIn (s : State) (l : Launch) (u : Nat) : Nat :=
  let here := (s.galleys.filter (fun g => g.launch == l.id && unitOf l.domLevel (g.core.getD g.home) == u)).map (fun g => l.domainOf g.first)
  ((here.dedup.filter (fun d => (l.domains.getD d .empty).placed)).map (fun d => (l.domains.getD d .empty).live)).sum

/-- Cores that no launch holds. -/
def freeCores (s : State) : List Nat := (List.range 320).filter (fun c => (s.core c).launch.isNone)

/-- The free cores that each unit of a launch must still give to its domains there, so that all their groups are resident together until
they retire (R77): the cores it may take, and how many; `extra` groups of a further domain join those of a unit. -/
def needsOf (s : State) (o : Launch) (extra : Nat → Nat) : List (List Nat × Nat) :=
  ((unitsOf s o).map (fun u =>
    let held := (u.2.filter (fun c => (s.core c).launch == some o.id)).length
    (u.2.filter (fun c => (s.core c).launch.isNone),
      Word.ceilDiv (keptIn s o u.1 + extra u.1) (max 1 ((u.2.map o.slots).headD 1)) - held))).filter (fun n => n.2 != 0)

/-- Needs, those with the fewest cores to choose from first. -/
def narrowFirst (ns : List (List Nat × Nat)) : List (List Nat × Nat) := (List.range 321).flatMap (fun k => ns.filter (fun n => n.1.length == k))

/-- The needs of every launch with domains of a cluster or a die. -/
def allNeeds (s : State) (l : Launch) (extra : Nat → Nat) : List (List Nat × Nat) :=
  narrowFirst ((s.launches.filter (fun o => decide (2 ≤ o.domLevel))).flatMap (fun o =>
    needsOf s o (if o.id = l.id then extra else fun _ => 0)))

/-- Free cores can be given to every need. -/
def meetNeeds : List (List Nat × Nat) → List Nat → Bool
  | [], _ => true
  | (cs, n) :: r, free =>
    let mine := free.filter cs.contains
    let later (c : Nat) : Bool := r.any (fun x => x.1.contains c)
    let pick := (mine.filter (fun c => !later c) ++ mine.filter later).take n
    decide (pick.length = n) && meetNeeds r (free.filter (fun c => !pick.contains c))

/-- A free core is kept for the domains of other launches: without it their units would have no room for all their groups (R77; log 28). -/
def reserved (s : State) (l : Launch) (c : Nat) : Bool :=
  s.launches.any (fun o => o.id != l.id && decide (2 ≤ o.domLevel)) &&
    !meetNeeds (allNeeds { s with launches := s.launches.filter (fun o => o.id != l.id) } l (fun _ => 0)) ((freeCores s).filter (fun x => x != c))

/-- A core that a launch can place on: it holds the launch, or is released and free to take. -/
def usable_ (s : State) (l : Launch) (c : Nat) : Bool :=
  match (s.core c).launch with
  | some i => i == l.id
  | none => !reserved s l c && decide (l.spad ≤ spadOf c)

/-- A core can be taken now: a released one counts as released while work of its last launch still uses it, and is taken once that work
has ended (DESIGN CHOICE, log 28). -/
def settled (s : State) (l : Launch) (c : Nat) : Bool := (s.core c).launch == some l.id || !coreOwes s c

/-- The lowest free slot of a core (R125). -/
def lowestSlot (s : State) (c : Nat) : Nat :=
  let used := (s.galleys.filter (fun g => g.core == some c)).map Galley.slot
  ((List.range (used.length + 1)).find? (fun i => !used.contains i)).getD 0

/-- Put a galley on a core: slot and age (R125, R130), and its paths begin. A piece of another core finds the L1 empty, so that its plain
loads see what its groups stored there (R121). -/
def placeOn (s : State) (l : Launch) (g : Galley) (c : Nat) : State :=
  let s := takeCore (if g.home = c then s else forgetL1 s c) l c
  let x := s.core c
  let g := { g with core := some c, slot := lowestSlot s c, age := x.nextAge, home := c, fixed := false }
  let s := (s.setCore c { x with nextAge := x.nextAge + 1 }).setGalley g
  (List.range g.paths.length).foldl (fun s i => pathAtEntry s g.id i) s

/-- Groups `first` to `first + n − 1` of a launch at its entry block. -/
def entryGalley (l : Launch) (id first n home : Nat) (phase : Nat) : Galley :=
  let m := if n = 1 then l.itemLanes first else maskBelow l.g
  { id := id, launch := l.id, first := first, count := n, core := none, slot := 0, age := 0, home := home,
    paths := [⟨{ (Thread.empty.enter l.entry l.args []) with mask := m }, none, [], none, []⟩],
    phase := phase, pending := false, recorded := 0, arrived := false, fixed := false }

/-- Start groups at the entry block on a core. -/
def startAt (s : State) (l : Launch) (first n c : Nat) : State :=
  let (id, s) := s.fresh
  let g := entryGalley l id first n c 0
  placeOn { s with galleys := s.galleys ++ [g] } l g c

/-! ### Placement (R126 to R128) -/

/-- Dispatch for a launch goes on: its context runs and no pre-emption of it is under way (R88 step 1). -/
def dispatches (s : State) (l : Launch) : Bool :=
  let c := s.ctx l.tenant l.ctx
  c.state == .running && c.preempt.isNone && s.pkg.runs

/-- The better of two cores for a piece (R128 rule 4). -/
def betterCore (s : State) (l : Launch) (home a b : Nat) : Bool :=
  let near (c : Nat) : Nat := if c = home then 3 else if clusterOf c = clusterOf home then 2 else if dieOf c = dieOf home then 1 else 0
  let fa := freeSlots s l a
  let fb := freeSlots s l b
  decide (fb < fa) || (fa == fb && decide (near b ≤ near a))

/-- The core that a pending piece goes to. -/
def coreFor (s : State) (l : Launch) (g : Galley) : Option Nat :=
  ((admitted s l).filter (fun c => pieceFits s l g c && usable_ s l c && decide (0 < freeSlots s l c))).foldl
    (fun best c => match best with
      | none => some c
      | some b => if betterCore s l g.home b c then some b else some c) none

/-- The lowest-numbered pending piece of a launch that a core can take. -/
def pieceOf (s : State) (l : Launch) : Option (Galley × Nat) :=
  (sortByFirst (s.galleys.filter (fun g => g.launch == l.id && g.core.isNone))).findSome? (fun g => (coreFor s l g).map (fun c => (g, c)))

/-- The launch holds a core. -/
def holdsCore (s : State) (l : Launch) : Bool := s.cores.any (fun p => p.2.launch == some l.id)

/-- The lowest pending piece of a launch goes to its core, once that can be taken. -/
def placeLowest (s : State) (l : Launch) : Option State :=
  (pieceOf s l).bind (fun x => if settled s l x.2 then some (placeOn s l x.1 x.2) else none)

/-- One pending piece is placed: of the earliest launch that holds cores and has a piece that fits. -/
def placePiece (s : State) : Option State :=
  (s.launches.filter (fun l => dispatches s l && holdsCore s l)).findSome? (placeLowest s)

/-- Clusters in the order of the search from a home pointer. -/
def searchOrder (lo n ptr : Nat) : List Nat := (List.range n).map (fun i => lo + (ptr + n - lo + 1 + i) % n)

/-- The lowest released core of a cluster that a launch admits. -/
def releasedCore (s : State) (l : Launch) (cl : Nat) : Option Nat :=
  (coresOfCluster cl).find? (fun c => (s.core c).launch.isNone && usable_ s l c && (admitted s l).contains c)

/-- Place a launch of DOMLEVEL 0 (R126). -/
def placeHome (s : State) (l : Launch) : Option State :=
  let t := s.tenant l.tenant
  let put (w2 : Bool) (cl c : Nat) : Option State :=
    let u := s.setTenant l.tenant (if w2 then { t with w2ptr := cl } else { t with n1ptr := cl })
    if settled s l c then some (startAt (u.setLaunch { l with placed := true }) { l with placed := true } 0 l.groupCount c) else none
  match (searchOrder 0 16 t.w2ptr).findSome? (fun cl => (releasedCore s l cl).map (fun c => (cl, c))) with
  | some (cl, c) => put true cl c
  | none =>
    match (searchOrder 16 24 t.n1ptr).findSome? (fun cl => (releasedCore s l cl).map (fun c => (cl, c))) with
    | some (cl, c) => put false cl c
    | none => none

/-- A unit has room for one more domain of a launch, of `n` groups, beside all those that live there (R77). -/
def unitFits (s : State) (l : Launch) (n : Nat) (u : Nat × List Nat) : Bool :=
  decide (n + keptIn s l u.1 ≤ roomOf l u.2) &&
    (decide (l.domLevel < 2) || meetNeeds (allNeeds s l (fun v => if v = u.1 then n else 0)) (freeCores s))

/-- The unit for a domain of `n` groups: room for all of them, then most free slots, then lowest number (R127). -/
def unitFor (s : State) (l : Launch) (n : Nat) : Option (List Nat) :=
  let us := (unitsOf s l).map (fun u => (u.1, u.2.filter (usable_ s l)))
  let fit := us.filter (unitFits s l n)
  let free (cs : List Nat) : Nat := (cs.map (freeSlots s l)).sum
  (fit.foldl (fun best u => match best with
    | none => some u
    | some b => if free u.2 ≤ free b.2 then some b else some u) none).map Prod.snd

/-- The domains among the first `n` that have no unit yet. A launch that a RESUME has made lists those that its save area held to
start; of the others nothing is left. -/
def Launch.unplaced (l : Launch) (n : Nat) : List Nat :=
  if l.restored then (l.domains.filter (fun d => !d.2.placed)).map Prod.fst
  else (List.range n).filter (fun j => !(l.domains.getD j .empty).placed)

/-- The lowest domain that has no unit yet. -/
def Launch.nextDomain (l : Launch) : Option Nat := (l.unplaced (min (l.groupCount / l.domGroups) (l.domains.length + 1))).head?

/-- The pieces, in order, that a RESUME has left of a domain to start again (R91). -/
def leftOf (s : State) (l : Launch) (j : Nat) : List Galley :=
  sortByFirst (s.galleys.filter (fun g => g.launch == l.id && g.core.isNone && l.domainOf g.first == j))

/-- Place the lowest domain that has no unit yet: all its groups, or those that a RESUME has left of it. -/
def placeDomain (s : State) (l : Launch) : Option State :=
  l.nextDomain.bind (fun j =>
    let left := leftOf s l j
    let n := if left.isEmpty then l.domGroups else (left.map Galley.count).sum
    (unitFor s l n).bind (fun cs => (cs.find? (fun c => decide (0 < freeSlots s l c))).bind (fun c =>
      if !settled s l c then none
      else
        let l := { l with placed := true, domains := l.domains.set j { Domain.empty with placed := true, live := n } }
        let s := s.setLaunch l
        match left with
        | [] => some (startAt s l (j * l.domGroups) n c)
        | g :: gs => some (placeOn (gs.foldl (fun s x => s.setGalley { x with home := c }) s) l { g with home := c } c))))

/-- Place the next thing of one waiting launch: itself, a domain, or a piece while it holds no core. -/
def placeOf (s : State) (l : Launch) : Option State :=
  if l.domLevel = 0 then
    if l.placed then (if holdsCore s l then none else placeLowest s l) else placeHome s l
  else
    match placeDomain s l with
    | some s => some s
    | none => if holdsCore s l then none else placeLowest s l

/-- The earliest waiting launch or domain that can be placed. -/
def placeWaiting (s : State) : Option State := (s.launches.filter (dispatches s)).findSome? (placeOf s)

/-- Place pieces first, then launches and domains that wait (R128 rule 5). -/
def placeAll : Nat → State → State
  | 0, s => s
  | n + 1, s =>
    let s := releaseCores s
    match placePiece s with
    | some s => placeAll n s
    | none =>
      match placeWaiting s with
      | some s => placeAll n s
      | none => s

def execPiecePlacement (s : State) : Host.Outcome State Fault Refusal :=
  let s := releaseCores s
  .next ((placePiece s).getD s)

def execLaunchPlacement (s : State) : Host.Outcome State Fault Refusal :=
  let s := releaseCores s
  .next (if (placePiece s).isSome then s else (placeWaiting s).getD s)

/-! ### LAUNCH and its completion -/

/-- LAUNCH: STATUSADDR first, then the checks; a failed one runs no group (R76). -/
def launchAct (p : PktIn) (s : State) : State :=
  withTarget s p.q (p.field 0x30 8) 8 .qWr (fun t s =>
    let k := (s.queue p.q).ctx
    match startLaunch s p.q k (leBytes 16 p.h.raw) p.b with
    | (.wait, s) => showBlocked s p.q
    | (.fail c, s) => stopQueue s p.q 2 (faultSub c)
    | (.hash inst page, s) => launchHash (p.begin_ s (some t)).2 p.q k inst page p.b
    | (.code c, s) =>
      let (pk, s) := p.begin_ s (some t)
      finishPacket (actErr s p.q) pk c
    | (.start l, s) =>
      let (pk, s) := p.begin_ s (some t)
      let (_, s) := addLaunch s { l with packet := some pk.id, status := some t }
      placeAll 4096 s)

def execLaunch (q : QId) (s : State) : Host.Outcome State Fault Refusal := .next (startPacket 6 q s launchAct)

/-- R80: every group has retired, and no atomic, command or sequencer run of the launch is left. -/
def launchOver (s : State) (l : Launch) : Bool :=
  l.retired == l.groupCount && s.cores.all (fun p => (s.queuedAtomics p.1).all (fun a => a.1.launch != l.id) &&
      p.2.mats.all (fun m => m.launch != l.id) &&
      p.2.seqs.all (fun q => match q.run with | some r => r.launch != l.id | none => true)) &&
    s.commands.all (fun c => c.launch != l.id)


/-- The status word of a graph node's launch, where it can still be reached (R24, R35). -/
def storeStatus (s : State) (t : Nat) (p : PTarget) (code : Nat) : State :=
  match s.lateFail t p 8 false with
  | some _ => s
  | none => s.writePhys p (leBytes 8 code)

/-- LAUNCH_COMPLETE: the status word is written, and the packet signals; a graph node's launch leaves its node to retire. -/
def execLaunchComplete (i : Nat) (s : State) : Host.Outcome State Fault Refusal :=
  .next (
    match s.launch? i with
    | none => s
    | some l =>
      let pk := l.packet.bind s.packet?
      if !launchOver s l || targetHeld s l.status || (match pk with | some p => packetHeld s p | none => false) then s
      else
        let s := { s with launches := s.launches.filter (fun x => x.id != i) }
        match pk with
        | some p => finishPacket s p 0
        | none => match l.status with | some t => storeStatus s l.tenant t 0 | none => s)

end Sys2Proof.Machine
end

