-- ==== Sys2Proof/Machine/Graphs.lean ====
section
/-! DEFINITION. Task graphs: replays in hardware and host-assisted mode, their failures (R82 to R85), and patches
(R86, R87). -/

namespace Sys2Proof.Machine

open Sys2Proof

/-! ### Graph structures (Table 4.6) -/

/-- A graph header as read. -/
structure GraphHdr where
  magic : Nat
  nodes : Nat
  gen   : Nat
  tcb   : Nat
  param : Nat
  state : Nat
  deriving DecidableEq, Repr

def GraphHdr.of (b : List Byte) : GraphHdr :=
  let f := fieldAt b
  ⟨f 0 4, f 4 4, f 8 8, f 0x10 8, f 0x18 8, f 0x30 4⟩

/-- No GRAPH_FORMAT in the header (Table 4.7). A misaligned GRAPHADDR is a misaligned structure, not a body check of the packet
(log 27). -/
def GraphHdr.ok (h : GraphHdr) (va : Nat) : Bool :=
  h.magic == 0x4B466701 && decide (1 ≤ h.nodes) && decide (h.nodes ≤ 2 ^ 24) && va % 64 == 0 && h.tcb % 64 == 0 && h.param % 64 == 0

/-- Slot of node `n` for generation `g`. -/
def GraphHdr.slot (h : GraphHdr) (n g : Nat) : Nat := h.param + 128 * (2 * n + g % 2)

/-- A task control block. -/
structure Tcb where
  init : Nat
  left : Nat
  kind : Nat
  nsucc : Nat
  succ : Nat
  sig  : Nat
  deriving DecidableEq, Repr

def Tcb.of (b : List Byte) : Tcb :=
  let f := fieldAt b
  ⟨f 0 4, f 4 4, f 8 1, f 0xA 2, f 0x10 8, f 0x18 8⟩

/-- A replay's queue: its packet's, or that of the RESUME packet that has restored it, whose own packet is gone (DESIGN CHOICE, log 20:
the manual does not say which queue shows its later failures). -/
def Replay.queue (r : Replay) (s : State) : QId :=
  match r.packet.bind s.packet? with
  | some p => p.q
  | none => r.via.getD ⟨r.tenant, 0⟩

/-! ### Ending a replay -/

def State.dropReplay (s : State) (i : Nat) : State := { s with replays := s.replays.filter (fun r => r.id != i) }

/-- The status word of a graph's packet: code, node in bits [39:8], and a launch check's own code in [47:40]. -/
def graphStatus (code node own : Nat) : Nat := code + node % 2 ^ 32 * 2 ^ 8 + own * 2 ^ 40

/-- A write that R63 lets fail: it has no effect then, and ACTERR is set. -/
def softWrite (q : QId) (k va : Nat) (bs : List Byte) (s : State) : State :=
  match lateWrite q k va bs s with
  | (.ok _, s) => s
  | (_, s) => actErr s q

/-- The end of a replay waits: for the service of a page of its header, or for a line (R63, R178). -/
def endWaits (s : State) (r : Replay) : Bool × State :=
  match lateWaits (r.queue s) r.ctx .qWr [(r.graph + 0x28, 8), (r.graph + 0x30, 4)] s with
  | (true, s) => (true, s)
  | (false, s) => (completionHeld s r.packet, s)

/-- The replay is over (R83 step 5, R85): REPLAYS counts a retired one, STATE := 0, the status word is written and the
packet completes. -/
def closeReplay (s : State) (r : Replay) : State :=
  let q := r.queue s
  let s := match r.abandon with
    | none =>
      match lateRead q r.ctx (r.graph + 0x28) 8 s with
      | (.ok bs, s) => softWrite q r.ctx (r.graph + 0x28) (leBytes 8 (leNat bs + 1)) s
      | (_, s) => actErr s q
    | some _ => actErr s q
  let s := softWrite q r.ctx (r.graph + 0x30) (leBytes 4 0) s
  let s := s.dropReplay r.id
  match r.packet.bind s.packet? with
  | some p => finishPacket s p (match r.abandon with | some (c, n, o) => graphStatus c n o | none => 0)
  | none => s

/-- The replay ends, or stands until what its end waits for is over. -/
def endReplay (s : State) (r : Replay) : State :=
  match endWaits s r with
  | (true, s) => s.setReplay r
  | (false, s) => closeReplay s r

/-- A replay that has nothing left to dispatch or run ends; in hardware mode one that cannot go on is GRAPH_STUCK. -/
def settleReplay (s : State) (r : Replay) : State :=
  if !r.running.isEmpty then s.setReplay r
  else if r.abandon.isSome ∨ r.retired = r.nodes then endReplay s r
  else if !r.ready.isEmpty ∨ r.assisted then s.setReplay r
  else
    let n := ((List.range r.nodes).find? (fun i => !r.dispatched.contains i)).getD 0
    endReplay s { r with abandon := some (0xA, n, 0) }

/-- The replay is abandoned on its first failure (R85). -/
def Replay.fails (r : Replay) (code node own : Nat) : Replay :=
  match r.abandon with
  | some _ => r
  | none => { r with abandon := some (code, node, own), ready := [] }

/-! ### Retiring and dispatching nodes -/

/-- Decrement the successors of a node in list order (R83 step 4). -/
def countDown (q : QId) (k tcb : Nat) : List Nat → Replay → State → Replay × State
  | [], r, s => (r, s)
  | m :: ms, r, s =>
    if r.abandon.isSome then (r, s)
    else if r.nodes ≤ m then (r.fails 8 m 0, s)
    else
      match lateRead q k (tcb + 32 * m + 4) 4 s with
      | (.ok bs, s) =>
        let v := leNat bs
        if v = 0 then (r.fails 9 m 0, s)
        else
          let s := softWrite q k (tcb + 32 * m + 4) (leBytes 4 (v - 1)) s
          if v ≠ 1 then countDown q k tcb ms r s
          else if r.dispatched.contains m ∨ r.ready.contains m then (r.fails 9 m 0, s)
          else countDown q k tcb ms { r with ready := r.ready ++ [m] } s
      | (_, s) => countDown q k tcb ms r (actErr s q)

/-- The record of a node's retirement (R84). -/
def postRecord (s : State) (r : Replay) (n code : Nat) : State :=
  let q := r.queue s
  let s := softWrite q r.ctx (r.recAddr + 16 * r.records) (leBytes 4 n ++ leBytes 1 code ++ leBytes 3 0 ++ leBytes 8 r.gen) s
  askAssist s r.tenant 4

/-- A page that a node's retirement reads or writes is in service: its TCB, its successors, and their PREDLEFT words. -/
def retireWaits (s : State) (r : Replay) (n : Nat) : Bool × State :=
  let q := r.queue s
  if r.assisted then
    lateWaits q r.ctx .qWr (pageParts 2 (r.recAddr + 16 * r.records) 16) s
  else
    match lateRead q r.ctx (r.graph + 0x10) 8 s with
    | (.wait, s) => (true, s)
    | (.fail _, s) => (false, s)
    | (.ok ta, s) =>
      let tcb := leNat ta
      match lateRead q r.ctx (tcb + 32 * n) 32 s with
      | (.wait, s) => (true, s)
      | (.fail _, s) => (false, s)
      | (.ok tb, s) =>
        let t := Tcb.of tb
        match lateRead q r.ctx t.succ (4 * t.nsucc) s with
        | (.wait, s) => (true, s)
        | (.fail _, s) => (false, s)
        | (.ok ss, s) =>
          lateWaits q r.ctx .qWr ((List.range t.nsucc).map (fun i => (tcb + 32 * fieldAt ss (4 * i) 4 + 4, 4))) s

/-- A node retires: its successors are counted down, or its record is posted for the host. -/
def retireNode (s : State) (r : Replay) (n code : Nat) : Replay × State :=
  let q := r.queue s
  let r := { r with running := r.running.filter (fun m => m != n), retired := r.retired + 1 }
  if r.assisted then ({ r with records := r.records + 1 }, postRecord s r n code)
  else if r.abandon.isSome then (r, s)
  else
    match lateRead q r.ctx (r.graph + 0x10) 8 s with
    | (.ok ta, s) =>
      let tcb := leNat ta
      match lateRead q r.ctx (tcb + 32 * n) 32 s with
      | (.ok tb, s) =>
        let t := Tcb.of tb
        match lateRead q r.ctx t.succ (4 * t.nsucc) s with
        | (.ok ss, s) => countDown q r.ctx tcb ((List.range t.nsucc).map (fun i => fieldAt ss (4 * i) 4)) r s
        | (_, s) => (r, actErr s q)
      | (_, s) => (r, actErr s q)
    | (_, s) => (r, actErr s q)

/-- The status word of a node's launch: its target first (R76), `none` where the access fails; the outer `none` while a page of it is
in service. -/
def nodeStatus (q : QId) (k va : Nat) (s : State) : Option (Option PTarget) × State :=
  match lateTargets q k .qWr [(va, 8)] s with
  | (.wait, s) => (none, s)
  | (.ok [(p, _)], s) => (some (some p), s)
  | (_, s) => (some none, actErr s q)

/-- Dispatch a launch node: a LAUNCH of the body in its slot (R83); a check that fails writes its code to the launch's own status word
too (R76). `none` while a page fault is served. DESIGN CHOICE (log 27): the body in the slot has no packet header, so the header half of
the launch's record (R89) is 16 bytes of 0. -/
def launchNode (s : State) (r : Replay) (h : GraphHdr) (n : Nat) : Option Replay × State :=
  let q := r.queue s
  let r' := { r with dispatched := r.dispatched ++ [n] }
  match lateRead q r.ctx (h.slot n r.gen) 112 s with
  | (.wait, s) => (none, s)
  | (.fail _, s) => (some r', actErr s q)
  | (.ok b, s) =>
    match nodeStatus q r.ctx (fieldAt b 0x30 8) s with
    | (none, s) => (none, s)
    | (some st, s) =>
      match startLaunch s q r.ctx (leBytes 16 0) b with
      | (.wait, s) => (none, s)
      | (.fail _, s) => (some r', actErr s q)
      | (.hash inst page, s) => (some { r' with running := r'.running ++ [n] }, launchHash s q r.ctx inst page b)
      | (.code c, s) => (some (r'.fails 0xB n c), match st with | some t => storeStatus s r.tenant t c | none => s)
      | (.start l, s) =>
        let (_, s) := addLaunch s { l with status := st, node := some (r.id, n) }
        (some { r' with running := r'.running ++ [n] }, s)

/-- Dispatch one node. -/
def dispatchNode (s : State) (r : Replay) (n : Nat) : Option Replay × State :=
  let q := r.queue s
  match lateRead q r.ctx r.graph 64 s with
  | (.wait, s) => (none, s)
  | (.fail _, s) => (some { r with dispatched := r.dispatched ++ [n] }, actErr s q)
  | (.ok hb, s) =>
    let h := GraphHdr.of hb
    match lateRead q r.ctx (h.tcb + 32 * n) 32 s with
    | (.wait, s) => (none, s)
    | (.fail _, s) => (some { r with dispatched := r.dispatched ++ [n] }, actErr s q)
    | (.ok tb, s) =>
      let t := Tcb.of tb
      let (held, s) := if t.kind = 0 then (false, s) else retireWaits s r n
      if held then (none, s)
      else if t.kind = 0 then launchNode s r h n
      else if t.kind = 1 then
        let (r, s) := retireNode s { r with dispatched := r.dispatched ++ [n] } n 0
        (some r, s)
      else if t.kind = 2 ∧ t.sig % 8 = 0 then
        match lateTargets q r.ctx .qAtomic [(t.sig, 8)] s with
        | (.wait, s) => (none, s)
        | (.ok [(p, _)], s) =>
          let (r, s) := retireNode (s.addCounter p 1) { r with dispatched := r.dispatched ++ [n] } n 0
          (some r, s)
        | (_, s) =>
          let (r, s) := retireNode (actErr s q) { r with dispatched := r.dispatched ++ [n] } n 0
          (some r, s)
      else (some (r.fails 8 n 0), s)

/-- Dispatch what is ready, in order, until one must wait for a page. -/
def pump : Nat → Replay → State → Replay × State
  | 0, r, s => (r, s)
  | fuel + 1, r, s =>
    match r.ready with
    | [] => (r, s)
    | n :: ns =>
      if r.abandon.isSome then (r, s)
      else
        match dispatchNode s { r with ready := ns } n with
        | (none, s) => (r, s)
        | (some r, s) => pump fuel r s

/-- Go on with a running replay, then place what it has started. -/
def runReplay (s : State) (r : Replay) : State :=
  let (r, s) := pump (r.nodes + 1) r s
  placeAll 4096 (settleReplay (s.setReplay r) r)

/-! ### Starting a replay (R83 steps 1 to 3) -/

/-- PREDLEFT := PREDINIT for every node; the nodes whose PREDINIT is 0. -/
def resetNodes (q : QId) (k tcb : Nat) : Nat → State → List Nat × State
  | 0, s => ([], s)
  | n + 1, s =>
    let (ns, s) := resetNodes q k tcb n s
    match lateRead q k (tcb + 32 * n) 4 s with
    | (.ok bs, s) => (if leNat bs = 0 then ns ++ [n] else ns, softWrite q k (tcb + 32 * n + 4) bs s)
    | (_, s) => (ns, actErr s q)

/-- A TCB page is still in service. -/
def tcbWaits (q : QId) (k tcb n : Nat) (s : State) : Bool × State :=
  lateWaits q k .qWr (pageParts (32 * n / 65536 + 2) tcb (32 * n)) s

/-- Another replay of the same graph is running. -/
def graphBusy (s : State) (r : Replay) : Bool :=
  s.replays.any (fun x => x.id != r.id && x.tenant == r.tenant && x.ctx == r.ctx && x.graph == r.graph &&
    (!x.wait || decide (x.id < r.id)))

/-- The pages of the structures that a replay's start writes are in service, or a line of them is held: its header, and its TCBs. -/
def startWaits (q : QId) (r : Replay) (h : GraphHdr) (s : State) : Bool × State :=
  match lateWaits q r.ctx .qWr [(r.graph, 64)] s with
  | (true, s) => (true, s)
  | (false, s) => tcbWaits q r.ctx h.tcb h.nodes s

/-- A waiting replay begins when STATE is 0. TEN.MODE.GRAPH is read here: a replay has started once its step 1 is over (log 27). -/
def beginReplay (s : State) (r : Replay) : State :=
  let q := r.queue s
  if graphBusy s r || completionHeld s r.packet then s
  else
    match lateRead q r.ctx r.graph 64 s with
    | (.wait, s) => s
    | (.fail _, s) => settleReplay s { r with wait := false, abandon := some (8, 0, 0) }
    | (.ok hb, s) =>
      let h := GraphHdr.of hb
      if !h.ok r.graph then
        let s := s.dropReplay r.id
        match r.packet.bind s.packet? with
        | some p => finishPacket (actErr s q) p (graphStatus 8 0 0)
        | none => s
      else if h.state ≠ 0 then s
      else
        match startWaits q r h s with
        | (true, s) => s
        | (false, s) =>
          let s := softWrite q r.ctx (r.graph + 0x30) (leBytes 4 1) s
          let s := softWrite q r.ctx (r.graph + 0x20) (leBytes 8 h.gen) s
          let (roots, s) := resetNodes q r.ctx h.tcb h.nodes s
          runReplay s { r with wait := false, gen := h.gen, nodes := h.nodes, ready := roots, assisted := Word.bit (s.tenant r.tenant).mode 4 }

/-- A GRAPH packet that names a node: it is dispatched in a running host-assisted replay (R84). -/
def nodeAct (p : PktIn) (s : State) : State :=
  withTarget s p.q (p.field 16 8) 8 .qWr (fun t s =>
    let k := (s.queue p.q).ctx
    let n := p.field 24 4
    let stop (s : State) (code : Nat) : State :=
      let (pk, s) := p.begin_ s (some t)
      finishPacket (actErr s p.q) pk (graphStatus code n 0)
    match assistedReplay s p.q.owner k (p.field 0 8) with
    | none => stop s 8
    | some r =>
      if r.abandon.isSome then stop s 8
      else if r.nodes ≤ n then stop (settleReplay s (r.fails 8 n 0)) 8
      else if r.dispatched.contains n then stop (settleReplay s (r.fails 9 n 0)) 9
      else
        match dispatchNode s r n with
        | (none, s) => showBlocked s p.q
        | (some r, s) =>
          let s := settleReplay (s.setReplay r) r
          match r.abandon with
          | some (c, _, o) =>
            let (pk, s) := p.begin_ s (some t)
            finishPacket (actErr s p.q) pk (graphStatus c n o)
          | none =>
            let (pk, s) := p.begin_ s (some t)
            placeAll 4096 (finishPacket s pk 0))

/-- A GRAPH packet that starts a replay. -/
def graphAct (p : PktIn) (s : State) : State :=
  withTarget s p.q (p.field 16 8) 8 .qWr (fun t s =>
    withSpan p.q .qRd (pageParts 2 (p.field 0 8) 64) s (fun _ s =>
      let k := (s.queue p.q).ctx
      let (pk, s) := p.begin_ s (some t)
      let (id, s) := s.fresh
      let r : Replay :=
        { id := id, tenant := p.q.owner, ctx := k, graph := p.field 0 8, recAddr := p.field 8 8, packet := some pk.id,
          wait := true, gen := 0, nodes := 0, ready := [], dispatched := [], running := [], retired := 0, records := 0,
          abandon := none, assisted := false, via := none }
      beginReplay { s with replays := s.replays ++ [r] } r))

/-- The action of a GRAPH packet by its NODE. -/
def graphPacket (p : PktIn) (s : State) : State := if p.field 24 4 = 0xFFFFFFFF then graphAct p s else nodeAct p s

def execGraph (q : QId) (s : State) : Host.Outcome State Fault Refusal := .next (startPacket 7 q s graphPacket)

/-- GRAPH_NODE_DISPATCH: the GRAPH packet at RP names a node. -/
def execGraphNodeDispatch (q : QId) (s : State) : Host.Outcome State Fault Refusal :=
  .next (startPacket 7 q s (fun p s => if p.field 24 4 = 0xFFFFFFFF then s else nodeAct p s))

/-- The context dispatches: it runs, and no pre-emption of it is under way. -/
def ctxDispatches (s : State) (t k : Nat) : Bool :=
  let c := s.ctx t k
  c.state == .running && c.preempt.isNone

/-- GRAPH_REPLAY_WAIT_END: a waiting replay begins, and one that waited for a page goes on or ends. -/
def execGraphReplayWaitEnd (i : Nat) (s : State) : Host.Outcome State Fault Refusal :=
  .next (
    match s.replay? i with
    | none => s
    | some r =>
      if !ctxDispatches s r.tenant r.ctx || queueWaits s (r.queue s) then s
      else if r.wait then beginReplay s r
      else if !r.ready.isEmpty then runReplay s r
      else if r.running.isEmpty ∧ (r.abandon.isSome ∨ r.retired = r.nodes) then settleReplay s r
      else s)

/-- GRAPH_NODE_RETIRE: a launch node whose launch has completed retires (R83 step 4). -/
def execGraphNodeRetire (i n : Nat) (s : State) : Host.Outcome State Fault Refusal :=
  .next (
    match s.replay? i with
    | none => s
    | some r =>
      if !r.running.contains n || s.launches.any (fun l => l.node == some (i, n)) || !ctxDispatches s r.tenant r.ctx ||
          queueWaits s (r.queue s) then s
      else
        match retireWaits s r n with
        | (true, s) => s
        | (false, s) =>
          let (r, s) := retireNode s r n 0
          runReplay (s.setReplay r) r)

/-! ### Patches (R86, R87) -/

def State.dropPatch (s : State) (i : Nat) : State := { s with patches := s.patches.filter (fun p => p.id != i) }

/-- The patch is over. -/
def endPatch (s : State) (p : PatchOp) (bad : Bool) : State :=
  let s := s.dropPatch p.id
  match s.packet? p.packet with
  | some pk => completePacket (if bad then actErr s pk.q else s) pk
  | none => s

/-- The body that the entries give a node: the last one that names it. -/
def patchBody (src : List Byte) (count n : Nat) : Option (List Byte) :=
  (((List.range count).reverse).find? (fun i => fieldAt src (128 * i) 4 == n)).map (fun i => (src.drop (128 * i + 16)).take 112)

/-- Write slot g + 1 of nodes `n − 1` down to 0. -/
def patchSlots (q : QId) (k : Nat) (h : GraphHdr) (src : List Byte) (count g : Nat) : Nat → State → State
  | 0, s => s
  | n + 1, s =>
    let s := patchSlots q k h src count g n s
    match patchBody src count n with
    | some b => softWrite q k (h.slot n (g + 1)) (b ++ leBytes 16 0) s
    | none =>
      match lateRead q k (h.slot n g) 128 s with
      | (.ok b, s) => softWrite q k (h.slot n (g + 1)) b s
      | (_, s) => actErr s q

/-- A patch goes on: it is the first of its graph, and no unretired replay is bound to g − 1. -/
def runPatch (s : State) (p : PatchOp) : State :=
  let q := match s.packet? p.packet with | some pk => pk.q | none => ⟨p.tenant, 0⟩
  let k := p.ctx
  let mine (x : PatchOp) : Bool := x.tenant == p.tenant && x.ctx == p.ctx && x.graph == p.graph
  if s.patches.any (fun x => mine x && decide (x.id < p.id)) || completionHeld s (some p.packet) then s
  else
    match lateRead q k p.graph 64 s with
    | (.wait, s) => s
    | (.fail _, s) => endPatch s p true
    | (.ok hb, s) =>
      let h := GraphHdr.of hb
      let g := p.gen.getD h.gen
      let s := { s with patches := s.patches.map (fun x => if x.id = p.id then { x with gen := some g } else x) }
      let bound (r : Replay) : Bool := r.tenant == p.tenant && r.ctx == p.ctx && r.graph == p.graph && !r.wait && r.gen + 1 == g
      if !h.ok p.graph then endPatch s p true
      else if s.replays.any bound then s
      else
        match lateRead q k p.src (128 * p.count) s with
        | (.wait, s) => s
        | (.fail _, s) => endPatch s p true
        | (.ok src, s) =>
          if (List.range p.count).any (fun i => decide (h.nodes ≤ fieldAt src (128 * i) 4)) then endPatch s p true
          else
            match lateWaits q k .qWr ((p.graph, 64) :: pageParts (256 * h.nodes / 65536 + 2) h.param (256 * h.nodes)) s with
            | (true, s) => s
            | (false, s) =>
              let s := patchSlots q k h src p.count g h.nodes s
              endPatch (softWrite q k (p.graph + 8) (leBytes 8 (g + 1)) s) p false

/-- PATCH: the packet starts, and its patch runs as soon as it may. -/
def patchAct (p : PktIn) (s : State) : State :=
  withSpan p.q .qRd (pageParts 2 (p.field 0 8) 64) s (fun _ s =>
    let k := (s.queue p.q).ctx
    let (pk, s) := p.begin_ s none
    let (id, s) := s.fresh
    let x : PatchOp :=
      { id := id, tenant := p.q.owner, ctx := k, graph := p.field 0 8, src := p.field 8 8, count := p.field 16 4, packet := pk.id, gen := none }
    runPatch { s with patches := s.patches ++ [x] } x)

def execPatch (q : QId) (s : State) : Host.Outcome State Fault Refusal := .next (startPacket 8 q s patchAct)

/-- PATCH_WAIT_END: a patch that waited goes on. -/
def execPatchWaitEnd (i : Nat) (s : State) : Host.Outcome State Fault Refusal :=
  .next (
    match s.patches.find? (fun p => p.id == i) with
    | none => s
    | some p => if ctxDispatches s p.tenant p.ctx then runPatch s p else s)

end Sys2Proof.Machine
end

