-- ==== Sys2Proof/Machine/Capture.lean ====
section
/-! DEFINITION. Safepoints (R88, R268), the values a capture records (R90, R271), and the records of a save area
(Table 4.8, Tables 5.3 and 5.4). -/

namespace Sys2Proof.Machine

open Sys2Proof

/-! ### Safepoints (R48 step 3, R88 step 3, R268) -/

/-- An opcode at which a block has a resume point: memory, tensors, engines, matrix, atomics, synchronisation, queues,
transactions and system instructions, and those that can fault. -/
def safeOp (op : Nat) : Bool :=
  (decide (4 ≤ op) && decide (op ≤ 6)) || (decide (0x140 ≤ op) && decide (op ≤ 0x1E1)) ||
    (decide (0x240 ≤ op) && op != 0x2A4 && op != 0x2A5)

/-- The words of the block a thread stands in: as a translation holds them, or as the text shadows do. -/
def blockWords (s : State) (l : Launch) (th : Thread) : Option (List Nat) :=
  match (th.body.bind s.xlat?).map Xlat.words with
  | some ws => some ws
  | none =>
    match s.xlats.find? (fun x => x.tenant == l.tenant && x.ctx == l.ctx && x.obj == l.obj && x.block == th.block) with
    | some x => some x.words
    | none =>
      match (s.obj? l.tenant l.ctx l.obj).map (fun o => readBlock o th.block) with
      | some (.ok t) => some t.words
      | _ => none

/-- The instructions of a thread's block from its own on. -/
def instrsFrom (s : State) (l : Launch) (th : Thread) : Option (List Instr) :=
  ((blockWords s l th).bind blockInstrs).map (fun is => is.drop th.instr)

/-- The X and S queues have issued every word below a concordance entry (R271). -/
def NativeRun.reached (n : NativeRun) (c : ConcEnt) : Bool :=
  decide (nextWord 1 n.code.words c.xoff 0 ≤ n.xoff) && decide (nextWord 2 n.code.words c.soff 0 ≤ n.soff)

/-- A thread stands at a safepoint: it waits, or its next instruction is a resume point. A native body stands at a word that
carries a concordance entry, once its other queues have come as far as the entry says (R268, R271). -/
def atSafepoint (s : State) (l : Launch) (th : Thread) : Bool :=
  match th.native with
  | some n =>
    th.wait == .stopped ||
      (match n.entryHere with
       | some c => n.reached c
       | none => th.wait != .none)
  | none =>
    th.wait != .none || (th.instr == 0 ||
       (match instrsFrom s l th with
        | some (i :: _) => (match i.toRaw with | some r => safeOp r.op | none => true)
        | _ => true))

/-- The group has an open transaction, or the serial grant for one that its `txbeg` opens (R207, R209). -/
def txOpen (s : State) (l : Launch) (g : Galley) : Bool :=
  g.count == 1 && ((State.groupSt l g.first).tx.depth != 0 || s.serial.holder == some ⟨l.id, g.first⟩)

/-- The units of a context stop where they next may: it is fatal, or a pre-emption has begun its capture. -/
def Ctx.stopping (c : Ctx) : Bool :=
  c.state == .fatal || (match c.preempt with | some p => p.stopping | none => false)

/-- A unit of a stopping context issues no more: in the fatal state at its next safepoint, in a pre-emption when its
group is outside a transaction as well (R88). -/
def unitStands (s : State) (l : Launch) (g : Galley) (th : Thread) : Bool :=
  atSafepoint s l th && ((s.ctx l.tenant l.ctx).state == .fatal || !txOpen s l g)

/-- The launches of a context, in order. -/
def State.launchesOf (s : State) (t k : Nat) : List Launch := s.launches.filter (fun l => l.tenant == t && l.ctx == k)

/-- Every resident unit of the context stands. -/
def allStand (s : State) (t k : Nat) : Bool :=
  (s.launchesOf t k).all (fun l => s.galleys.all (fun g =>
    g.launch != l.id || g.core.isNone || g.units.all (fun u => unitStands s l g u.2)))

/-- Nothing that the launches of a context issued is left to do (R88 step 4). -/
def drained (s : State) (t k : Nat) : Bool :=
  let ids := (s.launchesOf t k).map Launch.id
  s.commands.all (fun c => !(c.tenant == t && c.ctx == k)) && s.icinvs.all (fun c => !(c.tenant == t && c.ctx == k)) &&
    s.cores.all (fun p => (s.queuedAtomics p.1).all (fun a => !ids.contains a.1.launch) &&
      p.2.mats.all (fun m => !ids.contains m.launch) &&
      p.2.seqs.all (fun q => match q.run with | some r => !ids.contains r.launch | none => true)) &&
    s.galleys.all (fun g => !ids.contains g.launch || (g.outstanding.isEmpty && !g.storesOwed))

/-! ### Value entries (R89, R90) -/

/-- One element: 8 bytes, and 16 for `.b128`. -/
def elemBytes (ty : Ty) (v : Nat) : List Byte := leBytes (if ty = .b128 then 16 else 8) v

/-- The head of a value entry. -/
def valueHead (num cls : Nat) (ty : Ty) : List Byte := leBytes 4 num ++ leBytes 1 cls ++ leBytes 1 ty.code ++ leBytes 2 0

/-- A value entry; the lanes outside a path's mask are written 0 (R123). -/
def valueEntry (l : Launch) (j : Nat) (mask : Mask) (e : Nat × TVal) : List Byte :=
  let (num, v) := e
  match v.val with
  | .u x => valueHead num 0 v.ty ++ elemBytes v.ty x.toNat
  | .a b st => valueHead num 1 v.ty ++ leBytes 8 b.toNat ++ leBytes 8 st.toNat
  | x => valueHead num 2 v.ty ++
      (List.range l.g).flatMap (fun i => elemBytes v.ty (if laneIn mask i then x.lane v.ty l.g j i else 0))

/-- The values and arguments that a thread still reads: values by number, then argument k as 0x2000 + k (log 20). -/
def liveValues (s : State) (l : Launch) (th : Thread) : List (Nat × TVal) :=
  let n := th.vals.length
  let used := (instrsFrom s l th).map (usesFrom n)
  let keep (x : Bool × Nat) : Bool := match used with | some us => us.contains x | none => true
  (List.range n).filterMap (fun i => if keep (false, i) then (th.vals[n - 1 - i]?).map (fun v => (i, v)) else none) ++
    (List.range th.args.length).filterMap (fun i => if keep (true, i) then (th.args[i]?).map (fun v => (0x2000 + i, v)) else none)

/-- The frames of the call stack as value entries, the oldest first (R313). -/
def frameValues (th : Thread) : List (Nat × TVal) :=
  th.stack.reverse.mapIdx (fun i b => (0x80000000 + i, ⟨.n32, .ofNat b⟩))

/-- What a thread's entries are made of. -/
def threadValues (s : State) (l : Launch) (th : Thread) : List (Nat × TVal) := liveValues s l th ++ frameValues th

/-- An item's value: class U, from its lane (R123). -/
def itemValue (l : Launch) (j lane : Nat) (e : Nat × TVal) : Nat × TVal :=
  (e.1, ⟨e.2.ty, .ofNat (e.2.val.lane e.2.ty l.g j lane)⟩)

/-! ### Galley records -/

def zeros (n : Nat) : List Byte := List.replicate n 0

/-- Zeros up to a multiple of 64 bytes. -/
def pad64 (b : List Byte) : List Byte := b ++ zeros ((64 - b.length % 64) % 64)

def noBlock : Nat := 0xFFFFFFFF

/-- The thread stands at the entry of a JOIN WAIT block that it has not passed. -/
def waitsAtJoin (s : State) (l : Launch) (th : Thread) : Bool :=
  th.entering && th.wait != .reconv &&
    (match blockWords s l th with
     | some ws => (match parseHdr ws with | some (h, _) => h.wait | none => false)
     | none => true)

/-- Local phase in the low half and the domain's phase in the high half (log 20). -/
def barrierWord (l : Launch) (g : Galley) : Nat := g.phase + 2 ^ 32 * (l.domains.getD (l.domainOf g.first) .empty).phase

/-- The entries of a path: none in per-item mode. -/
def pathValues (s : State) (l : Launch) (p : Path) : List (Nat × TVal) :=
  if p.items.isEmpty then threadValues s l p.th else []

/-- A per-item record with its entries (Table 5.4). -/
def itemRecord (s : State) (l : Launch) (j slot : Nat) (th : Thread) (lane : Nat) : List Byte :=
  let vs := (threadValues s l th).map (itemValue l j lane)
  leBytes 1 lane ++ leBytes 1 slot ++
    leBytes 1 (Word.ofBool (th.wait == .reconv) + 2 * Word.ofBool (th.wait != .none && th.wait != .reconv)) ++ leBytes 1 0 ++
    leBytes 4 th.block ++ leBytes 2 th.instr ++ leBytes 2 0 ++ leBytes 4 vs.length ++ vs.flatMap (valueEntry l j th.mask)

/-- Each lane of a path's items with the thread that it runs, in ascending lane order. -/
def Path.laneThreads (p : Path) : List (Nat × Thread) :=
  (List.range 64).filterMap (fun i => (p.items.find? (fun x => laneIn x.th.mask i)).map (fun x => (i, x.th)))

/-- The records of a path's items, one for each lane. -/
def itemRecords (s : State) (l : Launch) (j slot : Nat) (p : Path) : List Byte :=
  p.laneThreads.flatMap (fun x => itemRecord s l j slot x.2 x.1)

/-- The path record (Table 5.3); a lone path has MASK1 = 0 (log 20). A path that has come to RECONV waits there, also in a piece that no
core holds yet. -/
def pathRecord (p : Path) (q : Option Path) (nvals1 : Nat) : List Byte :=
  let pi (p : Path) : Nat := p.piReconv.getD noBlock
  let waits (p : Path) : Bool := p.th.wait == .reconv || (p.items.isEmpty && p.th.entering && p.th.wait == .none && p.reconv == some p.th.block)
  let one (f : Path → Nat) (d : Nat) : Nat := match q with | some x => f x | none => d
  leBytes 8 p.th.mask.toNat ++ leBytes 8 (one (fun x => x.th.mask.toNat) 0) ++ leBytes 4 (p.reconv.getD noBlock) ++
    leBytes 4 (pi p) ++ leBytes 4 (one pi noBlock) ++ leBytes 4 (one (fun x => x.th.block) 0) ++ leBytes 2 (one (fun x => x.th.instr) 0) ++
    leBytes 1 (Word.ofBool (waits p) + 2 * one (fun x => Word.ofBool (waits x)) 0 + 4 * one (fun x => Word.ofBool (!x.items.isEmpty)) 0) ++
    leBytes 1 0 ++ leBytes 4 nvals1 ++ zeros 24

/-- The first 64 bytes of a galley record. -/
def galleyHead (l : Launch) (g : Galley) (img block instr flags nvals : Nat) : List Byte :=
  leBytes 8 g.first ++ leBytes 4 g.count ++ leBytes 4 img ++ leBytes 4 block ++ leBytes 2 instr ++ leBytes 1 flags ++ leBytes 1 0 ++
    leBytes 8 (membership l g) ++ leBytes 8 (barrierWord l g) ++ leBytes 8 (State.groupSt l g.first).lastClosed ++ leBytes 4 nvals ++
    zeros 12

/-- A galley record with its path and per-item records (R89, R123). -/
def galleyRecord (s : State) (l : Launch) (img : Nat) (g : Galley) : List Byte :=
  match g.paths.filter Path.live with
  | [] => []
  | p :: r =>
    let q := r.head?
    let vs := pathValues s l p
    let full : Bool := decide (1 < g.count) || p.th.mask == l.itemLanes g.first
    let more : Bool := q.isSome || !p.items.isEmpty || !full || p.reconv.isSome
    let flags := Word.ofBool more + 2 * Word.ofBool (!p.items.isEmpty) + 4 * Word.ofBool (g.units.any (fun u => waitsAtJoin s l u.2))
    let head := galleyHead l g img p.th.block p.th.instr flags vs.length ++ vs.flatMap (valueEntry l g.first p.th.mask)
    if !more then head
    else
      let vs1 := match q with | some x => pathValues s l x | none => []
      pad64 (head ++ pathRecord p q vs1.length) ++
        (match q with | some x => vs1.flatMap (valueEntry l g.first x.th.mask) | none => []) ++
        itemRecords s l g.first 0 p ++ (match q with | some x => itemRecords s l g.first 1 x | none => [])

/-- A galley as it is captured: a native body by its concordance (R271), a galley with a live R103 compare or with lanes that have
retired as its leaves, since its record has no place for either. -/
def captureForms (s : State) (l : Launch) (g : Galley) : List Galley :=
  let g := g.mapThreads (Thread.captured s (g.core.getD g.home) l.g g.first NativeRun.entryHere)
  let cmpLive : Bool := g.paths.any (fun p => (liveValues s l p.th).any (fun v => match v.2.val with | .cmp _ _ _ _ _ _ => true | _ => false))
  let gone : Bool := (List.range g.count).any (fun i => l.liveLanes (g.first + i) != l.itemLanes (g.first + i))
  if 1 < g.count ∧ (cmpLive ∨ gone) then (List.range g.count).map (fun i => leafOf l g (g.first + i)) else [g]

/-! ### The other records -/

/-- The pieces of a launch, ascending. -/
def piecesOf (s : State) (l : Launch) : List Galley := sortByFirst (s.galleys.filter (fun g => g.launch == l.id))

/-- A piece that a RESUME has left to start again, of a domain that has no unit yet. -/
def unstarted (l : Launch) (g : Galley) : Bool := l.domLevel != 0 && !(l.domains.getD (l.domainOf g.first) .empty).placed

/-- Ranges of a launch that have not been dispatched. -/
def neverPlaced (s : State) (l : Launch) : List (Nat × Nat) :=
  if l.domLevel = 0 then (if l.placed then [] else [(0, l.groupCount)])
  else
    let left := (piecesOf s l).filter (unstarted l)
    left.map (fun g => (g.first, g.count)) ++
      ((l.unplaced (l.groupCount / max 1 l.domGroups)).filter (fun d => left.all (fun g => l.domainOf g.first != d))).map
        (fun d => (d * l.domGroups, l.domGroups))

/-- The launch is discarded to its ranges: IDEM is 1 and no `brk` began the pre-emption (R79, R414). -/
def rerun (l : Launch) (brk : Bool) : Bool := l.idem && !brk

/-- Ranges to start from the entry block. -/
def rangesOf (s : State) (l : Launch) (brk : Bool) : List (Nat × Nat) :=
  (if rerun l brk then ((piecesOf s l).filter (fun g => !unstarted l g)).map (fun g => (g.first, g.count)) else []) ++ neverPlaced s l

/-- A launch record. -/
def launchRecord (l : Launch) (ranges : List (Nat × Nat)) : List Byte :=
  l.hdr ++ l.body ++ leBytes 8 l.retired ++ leBytes 4 ranges.length ++ leBytes 4 0 ++
    ranges.flatMap (fun r => leBytes 8 r.1 ++ leBytes 8 r.2)

/-- A graph record; a GRAPH packet has no launch record. -/
def graphRecord (r : Replay) : List Byte := leBytes 8 r.graph ++ leBytes 8 r.gen ++ leBytes 8 (2 ^ 64 - 1) ++ leBytes 8 0

/-- The replays of a context that have begun. -/
def State.replaysOf (s : State) (t k : Nat) : List Replay := s.replays.filter (fun r => r.tenant == t && r.ctx == k && !r.wait)

/-- A core image; a launch of domain level 2 gives it a cluster-domain index. -/
def coreImage (s : State) (li : Nat) (l : Launch) (c dom : Nat) : List Byte :=
  let x := if (s.core c).launch = some l.id then s.core c else Core.reset
  leBytes 2 c ++ leBytes 1 (revOf (dieOf c)) ++ leBytes 1 l.domLevel ++ leBytes 4 li ++ leBytes 4 l.spad ++
    leBytes 4 (if l.domLevel = 2 then dom else noBlock) ++ x.queues.flatMap (fun q => leBytes 2 q.1 ++ leBytes 2 q.2) ++
    x.rings.flatMap (fun r => leBytes 4 r.head ++ leBytes 4 r.tail) ++ x.tiles.readBytes 0 32768 ++ x.spad.readBytes 0 l.spad

/-- A captured galley with its launch's place in the save area. -/
structure Captured where
  li : Nat
  l  : Launch
  g  : Galley
  deriving DecidableEq, Repr

def Captured.core (x : Captured) : Nat := x.g.core.getD x.g.home

/-- What a capture records of the galleys of a context. -/
def captured (s : State) (ls : List Launch) (brk : Bool) : List Captured :=
  (ls.mapIdx (fun i l => if rerun l brk then [] else
    (((piecesOf s l).filter (fun g => !unstarted l g)).flatMap (captureForms s l)).map (fun g => (⟨i, l, g⟩ : Captured)))).flatten

/-- The images: launch and core of every captured galley, in order. -/
def imagesOf (xs : List Captured) : List (Nat × Nat) := (xs.map (fun x => (x.li, x.core))).dedup

/-- Records one after another, each 64-aligned, nothing after the last (R89). -/
def joinRecords : List (List Byte) → List Byte
  | [] => []
  | [r] => r
  | r :: rs => pad64 r ++ joinRecords rs

/-- The records of a save area. -/
def saveRecords (s : State) (t k : Nat) (brk : Bool) : List (List Byte) :=
  let ls := s.launchesOf t k
  let xs := captured s ls brk
  let imgs := imagesOf xs
  ls.map (fun l => launchRecord l (rangesOf s l brk)) ++ (s.replaysOf t k).map graphRecord ++
    imgs.map (fun i =>
      match xs.find? (fun x => x.li == i.1 && x.core == i.2) with
      | some x => coreImage s i.1 x.l i.2 (x.l.domainOf x.g.first)
      | none => []) ++
    xs.map (fun x => galleyRecord s x.l (imgs.idxOf (x.li, x.core)) x.g)

/-- ENBUDGET as it reads: UNLIMITED in bit 63 and BUDGET (R250). -/
def budgetWord (c : Ctx) : Nat := 2 ^ 63 * Word.ofBool c.enUnlimited + c.enBudget

/-- A save area after its MAGIC. -/
def saveArea (s : State) (t k : Nat) (brk : Bool) : List Byte :=
  let ls := s.launchesOf t k
  let xs := captured s ls brk
  let recs := joinRecords (saveRecords s t k brk)
  leBytes 2 1 ++ leBytes 1 t ++ leBytes 1 k ++ leBytes 8 (128 + recs.length) ++ leBytes 4 ls.length ++
    leBytes 4 (s.replaysOf t k).length ++ leBytes 4 (imagesOf xs).length ++ leBytes 4 xs.length ++
    leBytes 8 (budgetWord (s.ctx t k)) ++ zeros 88 ++ recs

/-! ### Writing it (R88 step 5, R89) -/

/-- Write bytes of a context without a queue: no page fault is served. -/
def writeNow (t k : Nat) : List (Nat × Nat) → List Byte → State → Except (Code × Nat) Unit × State
  | [], _, s => (.ok (), s)
  | (va, n) :: r, bs, s =>
    match translateNow s t k va n .wr with
    | (.error c, s) => (.error (c, va), s)
    | (.ok p, s) => writeNow t k r (bs.drop n) (s.writePhys p (bs.take n))

def writeVa (t k va : Nat) (bs : List Byte) (s : State) : Except (Code × Nat) Unit × State :=
  writeNow t k (pageParts (bs.length / 65536 + 2) va bs.length) bs s

/-- The save's write: through the packet's queue, or by the context alone for a `brk`. -/
def saveWrite (p : Option Packet) (t k va : Nat) (bs : List Byte) (s : State) : Late Unit × State :=
  match p with
  | some p => lateWrite p.q k va bs s
  | none =>
    match writeVa t k va bs s with
    | (.ok _, s) => (.ok (), s)
    | (.error (c, _), s) => (.fail c, s)

/-- Arrivals that wait are made again on resume: they leave the counts of their domains. -/
def withdraw (s : State) (ids : List Nat) : State :=
  { s with launches := s.launches.map (fun l =>
      if ids.contains l.id then
        { l with domains := l.domains.map (fun d =>
            (d.1, { d.2 with arrived := d.2.arrived - ((s.galleys.filter (fun g => g.launch == l.id && g.arrived && l.domainOf g.first == d.1)).map Galley.count).sum })) }
      else l) }

/-- The asker is a unit of a galley that is gone. -/
def Asker.gone (gs : List Galley) : Asker → Bool
  | .unit u _ => !gs.any (fun g => g.id == u.galley)
  | _ => false

/-- The context's groups leave the device: cores are released, and no access of theirs is parked any more (R418). -/
def removeGroups (s : State) (t k : Nat) : State :=
  let ids := (s.launchesOf t k).map Launch.id
  let s := withdraw s ids
  let gs := s.galleys.filter (fun g => !ids.contains g.launch)
  let left (as : List Asker) : List Asker := as.filter (fun a => !a.gone gs)
  { s with
    galleys := gs
    cores := s.cores.map (fun p => (p.1, match p.2.launch with
      | some l => if ids.contains l then { p.2 with launch := none } else p.2
      | none => p.2))
    walks := (s.walks.map (fun w => { w with askers := left w.askers })).filter (fun w => !w.askers.isEmpty)
    faults := (s.faults.map (fun f => { f with askers := left f.askers })).filter (fun f => !f.askers.isEmpty)
    serial := { s.serial with queue := s.serial.queue.filter (fun r => !ids.contains r.launch) }
    cur := s.cur.filter (fun u => gs.any (fun g => g.id == u.galley)) }

/-- The context is pre-empted: the packet completes, or a `brk` raises FATALVEC (R88 step 5, R414). -/
def finishSave (s : State) (t k : Nat) (pk : Option Packet) (brk : Bool) : State :=
  let s := removeGroups s t k
  let c := s.ctx t k
  let s := s.setCtx t k { c with state := .preempted, preempt := none, energy := [] }
  let s := match pk with | some p => finishPacket s p 0 | none => s
  let s := (s.queuesOf t k).foldl settle s
  if brk then s.sendMsi (t + 1) c.fatalVec else s

/-- The pre-emption ends in the fatal state: the packet's status word receives CONTEXT_FATAL (R89). -/
def failSave (s : State) (t k : Nat) (pk : Option Packet) : State :=
  let s := s.setCtx t k { s.ctx t k with preempt := none }
  match pk with
  | some p => finishPacket (actErr s p.q) p 0xC
  | none => s

/-- Write the parts of a save area; one whose access fails has no effect and sets ACTERR (R63). -/
def saveParts (pk : Option Packet) (t k : Nat) : List (Nat × List Byte) → State → State
  | [], s => s
  | (va, bs) :: r, s =>
    match saveWrite pk t k va bs s with
    | (.ok _, s) => saveParts pk t k r s
    | (_, s) => saveParts pk t k r (match pk with | some p => actErr s p.q | none => s)

/-- Bytes at a virtual address, a part for each page. -/
def partsOf (va : Nat) (bs : List Byte) : List (Nat × List Byte) :=
  (pageParts (bs.length / 65536 + 2) va bs.length).map (fun p => (p.1, (bs.drop (p.1 - va)).take p.2))

/-- Some page of the save area is in service, or a line of it is held. -/
def saveWaits (pk : Option Packet) (k va n : Nat) (s : State) : Bool × State :=
  match pk with
  | some p => lateWaits p.q k .qWr (pageParts (n / 65536 + 2) va n) s
  | none => (false, s)

/-- PREEMPT_SAVE_DONE: every group stands and nothing is left to drain; the records are written, MAGIC last. -/
def execPreemptSaveDone (t k : Nat) (s : State) : Host.Outcome State Fault Refusal :=
  .next (
    let c := s.ctx t k
    match c.preempt with
    | none => s
    | some p =>
      let pk := p.packet.bind s.packet?
      if (match pk with | some x => packetHeld s x | none => false) then s
      else if c.state = .fatal then failSave s t k pk
      else if c.state ≠ .running ∨ !p.stopping ∨ !allStand s t k ∨ !drained s t k then s
      else
        let area := saveArea s t k p.brk
        if p.saveLen < area.length + 4 then failSave (enterFatal s t k 3 (area.length + 4) .nowhere) t k pk
        else
          match saveWaits pk k p.saveVa (area.length + 4) s with
          | (true, s) => s
          | (false, s) =>
            finishSave (saveParts pk t k (partsOf p.saveVa (zeros 4 ++ area) ++ [(p.saveVa, leBytes 4 0x4B465A01)]) s) t k pk p.brk)

end Sys2Proof.Machine
end

