-- ==== Sys2Proof/Machine/Preempt.lean ====
section
/-! DEFINITION. PREEMPT (R88) and RESUME (R90, R91, R123, R376): the checks of a save area, the placement of its images,
and what it restores. -/

namespace Sys2Proof.Machine

open Sys2Proof

/-! ### PREEMPT -/

/-- PREEMPT: dispatch for the context stops; in capture mode its groups stop at their next safepoints at once. -/
def preemptAct (p : PktIn) (s : State) : State :=
  withTarget s p.q (p.field 24 8) 8 .qWr (fun t s =>
    let k := (s.queue p.q).ctx
    let c := s.ctx p.q.owner k
    let (pk, s) := p.begin_ s (some t)
    if c.state = .running then
      s.setCtx p.q.owner k { c with
        preempt := some { packet := some pk.id, mode := p.field 0 1, stopping := p.field 0 1 == 0, txOver := false,
                          saveVa := p.field 8 8, saveLen := p.field 16 8, brk := false } }
    else finishPacket (actErr s p.q) pk 0xD)

def execPreempt (q : QId) (s : State) : Host.Outcome State Fault Refusal := .next (startPacket 9 q s preemptAct)

/-- PREEMPT_DRAIN_EXPIRY: DRAINUS has passed, and the remaining groups stop at their next safepoints. -/
def execPreemptDrainExpiry (t k : Nat) (s : State) : Host.Outcome State Fault Refusal :=
  .next (
    let c := s.ctx t k
    match c.preempt with
    | some p => if p.mode = 1 ∧ !p.stopping then s.setCtx t k { c with preempt := some { p with stopping := true } } else s
    | none => s)

/-- Every lane of the group's open non-serial transaction aborts with PREEMPT. -/
def cutTx (s : State) (l : Launch) (j : Nat) : State :=
  let x := (s.group l.id j).tx
  if x.depth = 0 ∨ x.serial then s else abortLanes s l.id j x.inTx 6

/-- PREEMPT_TX_TIMEOUT: 10 µs after capture began, a non-serial transaction still open aborts. -/
def execPreemptTxTimeout (t k : Nat) (s : State) : Host.Outcome State Fault Refusal :=
  .next (
    let c := s.ctx t k
    match c.preempt with
    | some p =>
      if p.stopping ∧ !p.txOver ∧ c.state = .running then
        let s := s.setCtx t k { c with preempt := some { p with txOver := true } }
        (s.launchesOf t k).foldl (fun s l => l.groups.foldl (fun s g => cutTx s l g.1) s) s
      else s
    | none => s)

/-! ### Parsing a save area -/

def up64 (n : Nat) : Nat := (n + 63) / 64 * 64

/-- Up to `n` records one after another; `f` parses one and answers where it ends. -/
def parseMany {α : Type} (f : Nat → α × Nat) : Nat → Nat → List α × Nat
  | 0, o => ([], o)
  | n + 1, o =>
    let (a, o) := f o
    let (as, o) := parseMany f n o
    (a :: as, o)

structure LaunchRec where
  pkt     : List Byte
  retired : Nat
  ranges  : List (Nat × Nat)
  deriving DecidableEq, Repr

def LaunchRec.parse (b : List Byte) (o : Nat) : LaunchRec × Nat :=
  let n := min (fieldAt b (o + 0x88) 4) (b.length / 16)
  (⟨(b.drop o).take 128, fieldAt b (o + 0x80) 8,
    (List.range n).map (fun i => (fieldAt b (o + 0x90 + 16 * i) 8, fieldAt b (o + 0x98 + 16 * i) 8))⟩, up64 (o + 0x90 + 16 * n))

/-- A graph record: address and generation. -/
def parseGraph (b : List Byte) (o : Nat) : (Nat × Nat) × Nat := ((fieldAt b o 8, fieldAt b (o + 8) 8), up64 (o + 32))

structure ImageRec where
  source : Nat
  li     : Nat
  spad   : Nat
  dom    : Nat
  queues : List (Nat × Nat)
  rings  : List (Nat × Nat)
  tiles  : Nat
  deriving DecidableEq, Repr

/-- A core image; `tiles` is where its tile registers begin. -/
def ImageRec.parse (b : List Byte) (o : Nat) : ImageRec × Nat :=
  let sp := min (fieldAt b (o + 8) 4) b.length
  (⟨fieldAt b o 2, fieldAt b (o + 4) 4, sp, fieldAt b (o + 12) 4,
    (List.range 16).map (fun i => (fieldAt b (o + 0x10 + 4 * i) 2, fieldAt b (o + 0x12 + 4 * i) 2)),
    (List.range 6).map (fun i => (fieldAt b (o + 0x50 + 8 * i) 4, fieldAt b (o + 0x54 + 8 * i) 4)), o + 0x80⟩, up64 (o + 0x8080 + sp))

/-- A value entry in a launch of width `g`. -/
def parseValue (b : List Byte) (g o : Nat) : (Nat × TVal) × Nat :=
  let ty := (Ty.ofCode (fieldAt b (o + 5) 1)).getD .none
  let w := if ty = .b128 then 16 else 8
  let num := fieldAt b o 4
  match fieldAt b (o + 4) 1 with
  | 0 => ((num, ⟨ty, .ofNat (fieldAt b (o + 8) w)⟩), o + 8 + w)
  | 1 => ((num, ⟨ty, .a (BitVec.ofNat 64 (fieldAt b (o + 8) 8)) (BitVec.ofNat 64 (fieldAt b (o + 16) 8))⟩), o + 24)
  | _ => ((num, ⟨ty, .s ((List.range g).map (fun i => BitVec.ofNat 128 (fieldAt b (o + 8 + w * i) w)))⟩), o + 8 + w * g)

def parseValues (b : List Byte) (g n o : Nat) : List (Nat × TVal) × Nat := parseMany (parseValue b g) (min n (b.length / 8)) o

structure ItemRec where
  lane  : Nat
  slot  : Nat
  waits : Bool
  block : Nat
  instr : Nat
  vals  : List (Nat × TVal)
  deriving DecidableEq, Repr

def ItemRec.parse (b : List Byte) (g o : Nat) : ItemRec × Nat :=
  let (vs, e) := parseValues b g (fieldAt b (o + 12) 4) (o + 16)
  (⟨fieldAt b o 1, fieldAt b (o + 1) 1, Word.bit (fieldAt b (o + 2) 1) 0, fieldAt b (o + 4) 4, fieldAt b (o + 8) 2, vs⟩, e)

structure PathRec where
  mask0  : Nat
  mask1  : Nat
  reconv : Nat
  pi0    : Nat
  pi1    : Nat
  block1 : Nat
  instr1 : Nat
  flags  : Nat
  vals1  : List (Nat × TVal)
  deriving DecidableEq, Repr

/-- Lanes of a mask, or of an item path, as the number of the records that follow. -/
def countBits (m : Nat) : Nat := ((List.range 64).filter (Word.bit m)).length

structure GalleyRec where
  first  : Nat
  count  : Nat
  img    : Nat
  block  : Nat
  instr  : Nat
  flags  : Nat
  member : Nat
  phase  : Nat
  domPhase : Nat
  closed : Nat
  vals   : List (Nat × TVal)
  path   : Option PathRec
  items  : List ItemRec
  deriving DecidableEq, Repr

/-- Per-item records until one for each lane of the per-item paths is read. -/
def parseItems (b : List Byte) (g : Nat) (n : Nat) (o : Nat) : List ItemRec × Nat := parseMany (ItemRec.parse b g) n o

/-- A galley record; `width` gives G by the image index. -/
def GalleyRec.parse (b : List Byte) (width : Nat → Nat) (o : Nat) : GalleyRec × Nat :=
  let img := fieldAt b (o + 12) 4
  let g := width img
  let flags := fieldAt b (o + 0x16) 1
  let (vs, e) := parseValues b g (fieldAt b (o + 0x30) 4) (o + 64)
  let base : GalleyRec :=
    { first := fieldAt b o 8, count := fieldAt b (o + 8) 4, img := img, block := fieldAt b (o + 0x10) 4, instr := fieldAt b (o + 0x14) 2,
      flags := flags, member := fieldAt b (o + 0x18) 8, phase := fieldAt b (o + 0x20) 4, domPhase := fieldAt b (o + 0x24) 4,
      closed := fieldAt b (o + 0x28) 8, vals := vs, path := none, items := [] }
  if !Word.bit flags 0 then (base, up64 e)
  else
    let pf := fieldAt b (e + 0x22) 1
    let m0 := fieldAt b e 8
    let m1 := fieldAt b (e + 8) 8
    let (vs1, e2) := parseValues b g (fieldAt b (e + 0x24) 4) (o + up64 (e + 64 - o))
    let p : PathRec :=
      { mask0 := m0, mask1 := m1, reconv := fieldAt b (e + 0x10) 4, pi0 := fieldAt b (e + 0x14) 4, pi1 := fieldAt b (e + 0x18) 4,
        block1 := fieldAt b (e + 0x1C) 4, instr1 := fieldAt b (e + 0x20) 2, flags := pf, vals1 := vs1 }
    let n := (if Word.bit flags 1 then countBits m0 else 0) + (if Word.bit pf 2 then countBits m1 else 0)
    let (is, e3) := parseItems b g n e2
    ({ base with path := some p, items := is }, up64 e3)

/-- A save area. -/
structure Save where
  launches : List LaunchRec
  graphs   : List (Nat × Nat)
  images   : List ImageRec
  galleys  : List GalleyRec
  budget   : Nat
  bytes    : List Byte
  deriving DecidableEq, Repr

/-- Width of a launch record's groups. -/
def LaunchRec.width (r : LaunchRec) : Nat := 8 * 2 ^ (fieldAt r.pkt 18 1 % 4)

def Save.parse (b : List Byte) : Save :=
  let n (o : Nat) : Nat := min (fieldAt b o 4) (b.length / 16)
  let (ls, o) := parseMany (LaunchRec.parse b) (n 0x10) 128
  let (gs, o) := parseMany (parseGraph b) (n 0x14) o
  let (is, o) := parseMany (ImageRec.parse b) (n 0x18) o
  let width (i : Nat) : Nat := (((is[i]?).bind (fun x => ls[x.li]?)).map LaunchRec.width).getD 8
  let (ps, _) := parseMany (GalleyRec.parse b width) (n 0x1C) o
  ⟨ls, gs, is, ps, fieldAt b 0x20 8, b⟩

/-! ### What must be known before anything is restored -/

/-- What a block says of a thread at an instruction: argument types, and how many values each instruction defines. -/
structure BlockInfo where
  block  : Nat
  args   : List Ty
  counts : List Nat
  deriving DecidableEq, Repr

/-- Of a block that cannot be read, nothing is said. -/
def BlockInfo.unknown (b : Nat) : BlockInfo := ⟨b, [], []⟩

def blockInfo (b : Nat) (o : CodeObj) : Except TextStop BlockInfo := do
  let t ← readBlock o b
  .ok ⟨b, t.hdr.args, ((blockInstrs t.words).getD []).map (fun i => match i.toRaw with | some r => resultCount r | none => 0)⟩

/-- Read the blocks that records stand in; one that cannot be read leaves its threads to their translation, which faults the group
where a page's hash does not match (R48). `none` while a page fault is served. -/
def readInfos (q : QId) (k : Nat) : List (Nat × Nat) → State → Option (List ((Nat × Nat) × BlockInfo)) × State
  | [], s => (some [], s)
  | (inst, b) :: r, s =>
    match queueText q k inst (blockInfo b) 8 s with
    | (.wait, s) => (none, s)
    | (x, s) =>
      let i : BlockInfo := match x with | .ok i => i | _ => .unknown b
      match readInfos q k r s with
      | (none, s) => (none, s)
      | (some is, s) => (some (((inst, b), i) :: is), s)

/-- A launch record answers a launch that the context still holds, or gives a new one, whose arguments are read again
(R78) and whose status target is translated. A hash of the entry's page that does not match faults the groups that start there (R48). -/
def prepLaunch (q : QId) (k : Nat) (used : List Nat) (r : LaunchRec) (s : State) : Late Launch × State :=
  let hdr := r.pkt.take 16
  let body := r.pkt.drop 16
  let obj := ((s.ctx q.owner k).objs.find? (fun o => o.objId == fieldAt body 0 2)).map CodeObj.inst
  match (s.launchesOf q.owner k).find? (fun l => l.hdr == hdr && l.body == body && !used.contains l.id) with
  | some l => (.ok { l with obj := obj.getD l.obj, retired := r.retired }, s)
  | none =>
    let l := launchOf q.owner k hdr body
    let (tys, s) : Late (List Ty) × State := match queueText q k (obj.getD 0) (entryTypes l.entry) 8 s with
      | (.ok t, s) => (.ok (t.getD []), s)
      | (.wait, s) => (.wait, s)
      | (.fail c, s) => (.fail c, s)
      | (.hash _, s) => (.ok [], s)
      | (.format, s) => (.ok [], s)
    match tys with
    | .wait => (.wait, s)
    | .fail c => (.fail c, s)
    | .ok tys =>
      match lateRead q k (fieldAt body 0x28 8) (8 * tys.length) s with
      | (.wait, s) => (.wait, s)
      | (.fail c, s) => (.fail c, s)
      | (.ok bs, s) =>
        match lateTargets q k .qWr [(fieldAt body 0x30 8, 8)] s with
        | (.wait, s) => (.wait, s)
        | (.fail c, s) => (.fail c, s)
        | (.ok ts, s) =>
          (.ok { l with obj := obj.getD 0, args := argValues tys bs, status := ts.head?.map Prod.fst, placed := true, retired := r.retired }, s)

/-- Every launch record; a new launch has number 0. -/
def prepLaunches (q : QId) (k : Nat) : List LaunchRec → List Nat → State → Late (List Launch) × State
  | [], _, s => (.ok [], s)
  | r :: rs, used, s =>
    match prepLaunch q k used r s with
    | (.wait, s) => (.wait, s)
    | (.fail c, s) => (.fail c, s)
    | (.ok l, s) =>
      match prepLaunches q k rs (l.id :: used) s with
      | (.ok ls, s) => (.ok (l :: ls), s)
      | (x, s) => (x, s)

/-- What a restored replay is made of: its graph, its generation, the header, the control blocks and the slots of that
generation. -/
structure GraphPrep where
  graph : Nat
  gen   : Nat
  hdr   : GraphHdr
  tcbs  : List Byte
  slots : List (List Byte)
  deriving DecidableEq, Repr

/-- Read several spans. -/
def lateReads (q : QId) (k : Nat) : List (Nat × Nat) → State → Late (List (List Byte)) × State
  | [], s => (.ok [], s)
  | (va, n) :: r, s =>
    match lateRead q k va n s with
    | (.wait, s) => (.wait, s)
    | (.fail c, s) => (.fail c, s)
    | (.ok b, s) =>
      match lateReads q k r s with
      | (.ok bs, s) => (.ok (b :: bs), s)
      | (x, s) => (x, s)

/-- The context still holds the replay of a graph record. -/
def heldReplay (s : State) (q : QId) (k graph : Nat) : Option Replay :=
  s.replays.find? (fun x => x.tenant == q.owner && x.ctx == k && x.graph == graph && !x.wait)

/-- Read the graph of every record whose replay the context does not hold. -/
def prepGraphs (q : QId) (k : Nat) : List (Nat × Nat) → State → Late (List GraphPrep) × State
  | [], s => (.ok [], s)
  | (graph, gen) :: r, s =>
    let one : Late GraphPrep × State :=
      if (heldReplay s q k graph).isSome then (.ok ⟨graph, gen, .of [], [], []⟩, s)
      else
        match lateRead q k graph 64 s with
        | (.wait, s) => (.wait, s)
        | (.fail c, s) => (.fail c, s)
        | (.ok hb, s) =>
          let h := GraphHdr.of hb
          match lateRead q k h.tcb (32 * h.nodes) s with
          | (.wait, s) => (.wait, s)
          | (.fail c, s) => (.fail c, s)
          | (.ok tb, s) =>
            match lateReads q k ((List.range h.nodes).map (fun n => (h.slot n gen, 112))) s with
            | (.wait, s) => (.wait, s)
            | (.fail c, s) => (.fail c, s)
            | (.ok bs, s) => (.ok ⟨graph, gen, h, tb, bs⟩, s)
    match one with
    | (.wait, s) => (.wait, s)
    | (.fail c, s) => (.fail c, s)
    | (.ok g, s) =>
      match prepGraphs q k r s with
      | (.ok gs, s) => (.ok (g :: gs), s)
      | (x, s) => (x, s)

/-! ### Placement of the images (R91 check 3) -/

/-- An image placed so far: its core, its launch record, and the domains whose groups it holds. -/
structure PlacedImage where
  core : Nat
  li   : Nat
  doms : List Nat
  deriving DecidableEq, Repr

/-- The domains of an image: those of its galleys, and the cluster domain that it names. -/
def imageDoms (sv : Save) (l : Launch) (i : Nat) (im : ImageRec) : List Nat :=
  ((if l.domLevel = 2 ∧ im.dom ≠ noBlock then [im.dom] else []) ++
    (sv.galleys.filter (fun g => g.img == i)).map (fun g => l.domainOf g.first)).dedup

/-- Groups of a domain that a save area holds: those of its galleys and ranges. -/
def savedGroups (sv : Save) (l : Launch) (li d : Nat) : Nat :=
  ((sv.galleys.filter (fun g => (sv.images[g.img]?).map ImageRec.li == some li && l.domainOf g.first == d)).map GalleyRec.count).sum +
    ((((sv.launches[li]?).map LaunchRec.ranges).getD []).filter (fun r => l.domainOf r.1 == d && decide (r.2 ≤ l.domGroups))).foldl (fun m r => m + r.2) 0

/-- Cores on which a launch's groups can be placed: admitted by the mask, with the scratchpad, released, and kept for no other launch. -/
def roomCores (s : State) (l : Launch) : List Nat :=
  (admitted s l).filter (fun c => (s.core c).launch.isNone && !reserved s l c && decide (l.spad ≤ spadOf c))

/-- A core can take an image. It is free, and its scratchpad holds SPADBYTES. Every image of one of its domains lies in the same unit,
which has room for all the groups of the domains placed there (R77), and where groups of a domain are resident together the core has
a slot for each galley. -/
def imageFits (s : State) (mask : Nat) (sv : Save) (ls : List Launch) (done : List PlacedImage) (i : Nat) (im : ImageRec) (c : Nat) :
    Bool :=
  match ls[im.li]? with
  | none => false
  | some l =>
    let l := { l with clmask := mask }
    let doms := imageDoms sv l i im
    let unit := unitOf l.domLevel c
    let mates := done.filter (fun d => d.li == im.li && unitOf l.domLevel d.core == unit)
    let here := (doms ++ mates.flatMap PlacedImage.doms).dedup
    (roomCores s l).contains c && !done.any (fun d => d.core == c) && decide (im.spad ≤ spadOf c) &&
      (l.domLevel == 0 ||
        (done.all (fun d => d.li != im.li || d.doms.all (fun x => !doms.contains x) || unitOf l.domLevel d.core == unit) &&
          decide ((sv.galleys.filter (fun g => g.img == i)).length ≤ l.slots c) &&
          decide ((here.map (savedGroups sv l im.li)).sum ≤ roomOf l ((roomCores s l).filter (fun x =>
            unitOf l.domLevel x == unit && !done.any (fun d => d.core == x && d.li != im.li))))))

/-- The free cores that the images of a launch need beside their own, so that the domains placed in each unit are resident together. -/
def imageNeeds (s : State) (mask : Nat) (sv : Save) (ls : List Launch) (done : List PlacedImage) (li : Nat) : List (List Nat × Nat) :=
  match ls[li]? with
  | none => []
  | some l =>
    let l := { l with clmask := mask }
    let mine := done.filter (fun d => d.li == li)
    if l.domLevel < 2 then []
    else
      (mine.map (fun d => unitOf l.domLevel d.core)).dedup.filterMap (fun u =>
        let here := mine.filter (fun d => unitOf l.domLevel d.core == u)
        let cs := (roomCores s l).filter (fun c => unitOf l.domLevel c == u && !done.any (fun d => d.core == c))
        let groups := ((here.flatMap PlacedImage.doms).dedup.map (savedGroups sv l li)).sum
        let n := Word.ceilDiv groups (max 1 (l.slots ((here.map PlacedImage.core).headD 0))) - here.length
        if n = 0 then none else some (cs, n))

/-- Every domain fits under R77: the cores that no image takes suffice for the domains of the images and of the launches that run. -/
def planRoom (s : State) (mask : Nat) (sv : Save) (ls : List Launch) (done : List PlacedImage) : Bool :=
  let free := (freeCores s).filter (fun c => !done.any (fun d => d.core == c))
  let running := (s.launches.filter (fun o => decide (2 ≤ o.domLevel))).flatMap (fun o => needsOf s o (fun _ => 0))
  meetNeeds (narrowFirst (running ++ (List.range ls.length).flatMap (imageNeeds s mask sv ls done))) free

/-- Cores for the images, in their order, the lowest that let the others fit as well. -/
def planImages (s : State) (mask : Nat) (sv : Save) (ls : List Launch) : List (Nat × ImageRec) → List PlacedImage → Option (List Nat)
  | [], done => if planRoom s mask sv ls done then some [] else none
  | (i, im) :: r, done =>
    (List.range 320).findSome? (fun c =>
      if imageFits s mask sv ls done i im c then
        (planImages s mask sv ls r (done ++ [⟨c, im.li, match ls[im.li]? with | some l => imageDoms sv l i im | none => []⟩])).map (fun cs => c :: cs)
      else none)

/-- The groups that start from the entry block have a place too: a core that the mask admits, and for a domain a unit with room for all
its groups (R77). -/
def rangesFit (s : State) (mask : Nat) (sv : Save) (ls : List Launch) : Bool :=
  (sv.launches.zip ls).all (fun x =>
    let l := { x.2 with clmask := mask }
    let cs := (admitted s l).filter (fun c => decide (l.spad ≤ spadOf c))
    x.1.ranges.isEmpty ||
      (if l.domLevel = 0 then !cs.isEmpty
       else cs.any (fun c => decide (l.domGroups ≤ roomOf l (cs.filter (fun y => unitOf l.domLevel y == unitOf l.domLevel c))))))

/-! ### Restoring -/

/-- A ring as its descriptor and the image give it (R376). -/
def restoreRing (spad : Nat) (d : Nat) (ht : Nat × Nat) : Ring :=
  let base := d % 2 ^ 19
  let n := Word.field d 26 19 + 1
  let sz := Word.field d 39 27 * 64
  if Word.bit d 63 && Word.field d 62 40 == 0 && base % 64 == 0 && decide (64 ≤ base) && decide (0 < sz) && decide (sz ≤ 524224) &&
      decide (base + n * sz ≤ spad) then ⟨true, base, n, sz, ht.1, ht.2⟩ else .empty

/-- The image on its core. -/
def restoreImage (s : State) (l : Launch) (b : List Byte) (im : ImageRec) (c : Nat) : State :=
  let s := takeCore s l c
  let x := s.core c
  let spad := x.spad.writeBytes 0 ((b.drop (im.tiles + 32768)).take im.spad)
  s.setCore c { x with
    spad := spad
    tiles := Memory.writeBytes [] 0 ((b.drop im.tiles).take 32768)
    queues := im.queues
    rings := (List.range 6).map (fun i => restoreRing l.spad (spad.readNat (8 * i) 8) (im.rings.getD i (0, 0))) }

/-- A thread of a record. `info` is its block's; a thread that waits at a reconvergence block stands at its entry. -/
def restoreThread (info : Option BlockInfo) (block instr : Nat) (mask : Mask) (es : List (Nat × TVal)) (waits entering : Bool) : Thread :=
  let get (n : Nat) : Option TVal := (es.find? (fun e => e.1 == n)).map Prod.snd
  let nv := match info with | some i => (i.counts.take instr).sum | none => 0
  let tys := match info with | some i => i.args | none => []
  { Thread.empty with
    mask := mask, block := block, instr := instr, brkOk := true, entering := entering || waits
    vals := (List.range nv).map (fun i => (get (nv - 1 - i)).getD ⟨.none, .u 0⟩)
    args := tys.mapIdx (fun i ty => (get (0x2000 + i)).getD ⟨ty, .u 0⟩)
    stack := ((es.filter (fun e => decide (0x80000000 ≤ e.1))).map (fun e => match e.2.val with | .u v => v.toNat | _ => 0)).reverse
    wait := .none }

/-- The paths of a record. DESIGN CHOICE (log 20): the record holds no split depth (R315); that of a pair of paths is the smaller depth
of the two, and that of items 0. -/
def GalleyRec.paths (r : GalleyRec) (l : Launch) (info : Nat → Option BlockInfo) : List Path :=
  let full : Mask := if r.count = 1 then l.itemLanes r.first else maskBelow l.g
  let join := Word.bit r.flags 2
  let opt (n : Nat) : Option Nat := if n = noBlock then none else some n
  match r.path with
  | none => [⟨restoreThread (info r.block) r.block r.instr full r.vals false (join && r.instr == 0), none, [], none, []⟩]
  | some p =>
    let items (slot : Nat) : List Item := (r.items.filter (fun x => x.slot == slot)).map (fun x =>
      ⟨x.lane, { restoreThread (info x.block) x.block x.instr (maskOf [x.lane]) x.vals x.waits (join && x.instr == 0) with
        wait := if x.waits then .reconv else .none }⟩)
    let t0 := restoreThread (info r.block) r.block r.instr (BitVec.ofNat 64 p.mask0) r.vals (Word.bit p.flags 0) (join && r.instr == 0)
    let t1 := restoreThread (info p.block1) p.block1 p.instr1 (BitVec.ofNat 64 p.mask1) p.vals1 (Word.bit p.flags 1) (join && p.instr1 == 0)
    let depth (t : Thread) (is : List Item) : Nat := match is with | x :: _ => x.th.stack.length | [] => t.stack.length
    let split := if p.mask1 = 0 then 0 else min (depth t0 (items 0)) (depth t1 (items 1))
    let path (t : Thread) (slot pi : Nat) : Path := ⟨{ t with split := split }, opt p.reconv, items slot, opt pi, []⟩
    if p.mask1 = 0 then [path t0 0 p.pi0] else [path t0 0 p.pi0, path t1 1 p.pi1]

/-- The domain of a restored galley in a launch that the context no longer held: its counts come from the records. -/
def joinDomain (dom : Domain) (r : GalleyRec) : Domain :=
  let here := Word.bit r.member 2 && r.phase == r.domPhase
  { dom with
    placed := true, phase := r.domPhase, live := dom.live + r.count
    arrived := if here then dom.arrived + r.count else dom.arrived }

/-- Lanes of a record's group that have retired: those on none of its paths. -/
def GalleyRec.gone (r : GalleyRec) (l : Launch) : Mask :=
  match r.path with
  | some p => if r.count = 1 then l.itemLanes r.first &&& ~~~(BitVec.ofNat 64 (p.mask0 ||| p.mask1)) else 0
  | none => 0

/-- A galley is placed on its image's core, or waits for a slot of it as a piece that no other core takes (R91, R128). -/
def restoreGalley (s : State) (lid c : Nat) (held : Bool) (info : Nat → Option BlockInfo) (r : GalleyRec) : State :=
  match s.launch? lid with
  | none => s
  | some l =>
    let (id, s) := s.fresh
    let d := l.domainOf r.first
    let l := { l with
      domains := if held then l.domains else l.domains.set d (joinDomain (l.domains.getD d .empty) r)
      groups := (List.range r.count).foldl (fun t i =>
        t.set (r.first + i) { State.groupSt l (r.first + i) with lastClosed := r.closed, gone := r.gone l }) l.groups }
    let s := s.setLaunch l
    let x := s.core c
    let room := decide (0 < freeSlots s l c)
    let g : Galley :=
      { id := id, launch := lid, first := r.first, count := r.count, core := if room then some c else none,
        slot := if room then lowestSlot s c else 0, age := if room then x.nextAge else 0, home := c, paths := r.paths l info,
        phase := r.phase, pending := Word.bit r.member 2, recorded := r.phase, arrived := false, fixed := !room }
    let s := if room then s.setCore c { x with nextAge := x.nextAge + 1 } else s
    { s with galleys := s.galleys ++ [g] }

/-- Look up the bodies of a restored galley: every thread at its instruction, primed under R81; a path at its reconvergence block waits
there (R106). -/
def primeGalley (s : State) (g : Galley) : State :=
  if g.core.isNone then s
  else g.units.foldl (fun s u =>
    if u.2.wait != .none then s
    else if u.2.entering && u.1.item.isNone then pathAtEntry s u.1.galley u.1.path
    else beginBlock s u.1) s

/-- A range to start from the entry block: a whole launch, whole domains, or a piece that waits for a core. A domain of which no galley is
restored is not placed: its unit must have room for all its pieces (R77). -/
def restoreRange (s : State) (lid : Nat) (held : Bool) (r : Nat × Nat) : State :=
  match s.launch? lid with
  | none => s
  | some l =>
    let size := l.domainSize
    let d := l.domainOf r.1
    let there := s.galleys.filter (fun g => g.launch == lid && l.domainOf g.first == d)
    let dom := l.domains.getD d .empty
    let dom := if there.isEmpty then { dom with phase := 0, arrived := 0, expected := 0, live := if held && l.domLevel == 0 then dom.live else 0 } else dom
    if r.1 % size = 0 ∧ r.2 % size = 0 then
      if l.domLevel = 0 then s.setLaunch { l with placed := false, domains := l.domains.set 0 { dom with placed := true, live := l.groupCount } }
      else s.setLaunch { l with domains := (List.range (r.2 / size)).foldl (fun t i => t.set (d + i) { Domain.empty with placed := false }) l.domains }
    else
      let (id, s) := s.fresh
      let home := (there.head?.map (fun g => g.core.getD g.home)).getD ((admitted s l).headD 0)
      let placed := l.domLevel == 0 || (!there.isEmpty && dom.placed)
      let live := if held && l.domLevel == 0 then dom.live else dom.live + r.2
      let s := s.setLaunch { l with domains := l.domains.set d { dom with placed := placed, live := live } }
      { s with galleys := s.galleys ++ [entryGalley l id r.1 r.2 home dom.phase] }

/-- A launch with its new CLMASK joins the device, or takes the place of the one it answers. -/
def restoreLaunch (s : State) (mask : Nat) (l : Launch) : Nat × State :=
  let l := { l with clmask := mask }
  if s.launches.any (fun x => x.id == l.id) then (l.id, s.setLaunch l)
  else
    let (id, s) := s.fresh
    let doms : Tbl Domain := if l.domLevel = 0 then [(0, { Domain.empty with placed := true })] else []
    (id, { s with launches := s.launches ++ [{ l with id := id, domains := doms, restored := true }] })

def restoreLaunches (mask : Nat) : List Launch → State → List Nat × State
  | [], s => ([], s)
  | l :: ls, s =>
    let (id, s) := restoreLaunch s mask l
    let (ids, s) := restoreLaunches mask ls s
    (id :: ids, s)

/-- A restored launch of domain level 0 counts the groups that have not retired. -/
def recount (s : State) (held : List Nat) (lid : Nat) : State :=
  match s.launch? lid with
  | none => s
  | some l =>
    let fix (d : Nat × Domain) : Nat × Domain :=
      let live := if l.domLevel = 0 then l.groupCount - l.retired else d.2.live
      (d.1, { d.2 with live := live, expected := live })
    if held.contains lid then s else s.setLaunch { l with domains := l.domains.map fix }

/-- Graph replays go on from their control blocks with the saved generation. One that the context no longer holds has
dispatched the nodes whose PREDLEFT is 0, and runs those whose slot holds a restored launch (log 20). DESIGN CHOICE (log 20): the graph
record holds no RECADDR, so a host-assisted one posts its later records from RECADDR 0 on; it shows its failures on the RESUME's queue. -/
def restoreGraph (q : QId) (k : Nat) (fresh : List Nat) (s : State) (g : GraphPrep) : State :=
  match heldReplay s q k g.graph with
  | some x => s.setReplay { x with gen := g.gen }
  | none =>
    let (id, s) := s.fresh
    let gone := (List.range g.hdr.nodes).filter (fun n => fieldAt g.tcbs (32 * n + 4) 4 == 0)
    let owner (n : Nat) : Option Launch := s.launches.find? (fun l => fresh.contains l.id && l.node.isNone && g.slots[n]? == some l.body)
    let running := gone.filter (fun n => (owner n).isSome)
    let s := { s with launches := s.launches.map (fun (l : Launch) =>
      match running.find? (fun n => (owner n).map Launch.id == some l.id) with
      | some n => { l with node := some (id, n) }
      | none => l) }
    { s with replays := s.replays ++ [
      { id := id, tenant := q.owner, ctx := k, graph := g.graph, recAddr := 0, packet := none, wait := false, gen := g.gen, nodes := g.hdr.nodes,
        ready := [], dispatched := gone, running := running, retired := gone.length - running.length, records := 0, abandon := none,
        assisted := Word.bit (s.tenant q.owner).mode 4, via := some q }] }

/-- The number of a launch record's launch. -/
def launchAt (ids : List Nat) (i : Nat) : Nat := ids.getD i 0

/-- Everything that the save area holds takes its place; the numbers of the restored galleys are answered. -/
def restoreAll (q : QId) (k mask : Nat) (sv : Save) (ls : List Launch) (gs : List GraphPrep) (cores : List Nat)
    (infos : List ((Nat × Nat) × BlockInfo)) (s : State) : List Nat × State :=
  let held := ls.map Launch.id
  let (ids, s) := restoreLaunches mask ls s
  let coreOf (i : Nat) : Nat := cores.getD i 0
  let idOf (img : Nat) : Nat := launchAt ids ((sv.images[img]?.map ImageRec.li).getD 0)
  let s := (sv.images.zip cores).foldl (fun s x =>
    match s.launch? (launchAt ids x.1.li) with
    | some l => restoreImage s l sv.bytes x.1 x.2
    | none => s) s
  let first := s.nextId
  let s := sv.galleys.foldl (fun s r =>
    let lid := idOf r.img
    let inst := ((s.launch? lid).map Launch.obj).getD 0
    restoreGalley s lid (coreOf r.img) (held.contains lid) (fun b => (infos.find? (fun x => x.1 == (inst, b))).map Prod.snd) r) s
  let mine := (s.galleys.map Galley.id).filter (fun i => decide (first ≤ i))
  let s := (sv.launches.zip ids).foldl (fun s x => x.1.ranges.foldl (fun s r =>
    restoreRange s x.2 (held.contains x.2) r) s) s
  let s := ids.foldl (fun s i => recount s held i) s
  let s := gs.foldl (restoreGraph q k (ids.filter (fun i => !held.contains i))) s
  let s := s.setCtx q.owner k { s.ctx q.owner k with state := .running, enUnlimited := Word.bit sv.budget 63, enBudget := sv.budget % 2 ^ 32 }
  let s := (s.galleys.filter (fun g => ids.contains g.launch)).foldl primeGalley s
  (mine, placeAll 4096 s)

/-- A captured galley is still to be placed, or a unit of it to be primed. -/
def toPrime (s : State) (id : Nat) : Bool :=
  match s.galley? id with
  | some g => g.core.isNone || g.units.any (fun u => u.2.wait == .xlate || (u.2.wait == .none && u.2.body.isNone))
  | none => false

/-- A RESUME completes once every captured galley has been placed and primed (R90); one that a line holds back completes later. -/
def resumeGo (s : State) (p : Packet) : State :=
  let left := p.walks.filter (toPrime s)
  if left.isEmpty && !packetHeld s p then finishPacket s p 0
  else { s with packets := s.packets.map (fun x => if x.id = p.id then { p with walks := left } else x) }

/-- Every RESUME that has started. -/
def endResumes (s : State) : State := (s.packets.filter (fun p => p.opcode == 10)).foldl resumeGo s

/-- Blocks that the records stand in, with the objects of their launches. -/
def Save.blocks (sv : Save) (ls : List Launch) : List (Nat × Nat) :=
  (sv.galleys.flatMap (fun r =>
    let inst := (((sv.images[r.img]?).bind (fun x => ls[x.li]?)).map Launch.obj).getD 0
    ((r.block :: (match r.path with | some p => [p.block1] | none => [])) ++ r.items.map ItemRec.block).map (fun b => (inst, b)))).dedup

/-- Check 1: MAGIC, VERSION, TENANT and CONTEXT. -/
def saveHeadOk (h : List Byte) (t k : Nat) : Bool :=
  fieldAt h 0 4 == 0x4B465A01 && fieldAt h 4 2 == 1 && fieldAt h 6 1 == t && fieldAt h 7 1 == k

/-- RESUME: the checks in order, then everything is restored; a check that fails restores nothing. -/
def resumeAct (p : PktIn) (s : State) : State :=
  let va := p.field 0 8
  withTarget s p.q (p.field 16 8) 8 .qWr (fun t s =>
    let k := (s.queue p.q).ctx
    let stop (s : State) (code : Nat) : State :=
      let (pk, s) := p.begin_ s (some t)
      finishPacket (actErr s p.q) pk code
    withSpan p.q .qRd (pageParts 2 va 128) s (fun ts s =>
      let (h, s) := readTargetsOf ts s
      if !saveHeadOk h p.q.owner k then stop s 0xD
      else
        let total := fieldAt h 8 8
        withSpan p.q .qRd (pageParts (total / 65536 + 2) va total) s (fun ts s =>
          let (b, s) := readTargetsOf ts s
          let sv := Save.parse b
          if sv.launches.any (fun r => !(s.ctx p.q.owner k).objs.any (fun o => o.objId == fieldAt r.pkt 16 2)) then stop s 1
          else
            let mask := if p.field 8 8 % 2 ^ 40 = 0 then 2 ^ 40 - 1 else p.field 8 8 % 2 ^ 40
            match prepLaunches p.q k sv.launches [] s with
            | (.wait, s) => showBlocked s p.q
            | (.fail c, s) => stopQueue s p.q 2 (faultSub c)
            | (.ok ls, s) =>
              let s := releaseCores s
              match planImages s mask sv ls ((List.range sv.images.length).zip sv.images) [] with
              | none => stop s 0xE
              | some cores =>
                if !rangesFit s mask sv ls then stop s 0xE
                else if cores.any (coreOwes s) then showBlocked s p.q
                else
                  match prepGraphs p.q k sv.graphs s with
                  | (.wait, s) => showBlocked s p.q
                  | (.fail c, s) => stopQueue s p.q 2 (faultSub c)
                  | (.ok gs, s) =>
                    match readInfos p.q k (sv.blocks ls) s with
                    | (none, s) => showBlocked s p.q
                    | (some infos, s) =>
                      let (pk, s) := p.begin_ s (some t)
                      let (ids, s) := restoreAll p.q k mask sv ls gs cores infos s
                      resumeGo s { pk with walks := ids })))

def execResume (q : QId) (s : State) : Host.Outcome State Fault Refusal := .next (startPacket 10 q s resumeAct)

end Sys2Proof.Machine
end

