-- ==== Sys2Proof/Machine/Dump.lean ====
section
/-! DEFINITION. The end of the fatal state: the dump with its colophon, or the host's capture (R92 to R94), and the
timeout of a revocation (R48). -/

namespace Sys2Proof.Machine

open Sys2Proof

/-! ### Stopping (R48 step 3) -/

/-- A thread was stopped where no concordance entry stands: a bare native instruction boundary. -/
def bareStop (s : State) (l : Launch) (th : Thread) : Bool :=
  th.wait == .stopped && !atSafepoint s l { th with wait := .none }

/-- Stop the units of a galley that still run. -/
def haltGalley (s : State) (l : Launch) (g : Galley) : State :=
  g.units.foldl (fun s u => if atSafepoint s l u.2 then s else putThread s u.1 { u.2 with wait := .stopped }) s

/-- REVOCATION_TIMEOUT: 100 µs after a context became fatal, by a revocation or another cause, every group of it that still runs
stops where it is (R48 step 3, R92 step 2). -/
def execRevocationTimeout (t k : Nat) (s : State) : Host.Outcome State Fault Refusal :=
  .next (
    if (s.ctx t k).state ≠ .fatal then s
    else (s.launchesOf t k).foldl (fun s l =>
      (s.galleys.filter (fun g => g.launch == l.id && g.core.isSome)).foldl (fun s g => haltGalley s l g) s) s)

/-- The open transactions of stopped groups abort, and a serial one gives up its grant (R48, R208): with REVOKED where their object
was revoked, else with FAULT. -/
def abortOpen (s : State) (t k : Nat) : State :=
  (s.launchesOf t k).foldl (fun s l => l.groups.foldl (fun s g =>
    let s := if g.2.tx.depth = 0 then s
      else abortLanes s l.id g.1 g.2.tx.inTx (if (s.ctx t k).revoking.contains l.obj then 11 else 7)
    releaseSerial s l.id g.1) s) s

/-! ### Sections (R94) -/

/-- Section 1: CTX.CTL to CTX.ACCBASE, then the tenant's registers. -/
def dumpRegs (s : State) (t k : Nat) : List Byte :=
  (List.range 6).flatMap (fun i => leBytes 8 (ctxReg (s.ctx t k) (8 * i))) ++ tenRegs s t

/-- Section 2: the context's fault-buffer entries, die by die. -/
def dumpFaults (s : State) (t k : Nat) : List Byte :=
  (List.range 4).flatMap (fun d => (((s.tenant t).bufs.getD d .reset).entries.filter (fun e => e.ctx == k)).flatMap FbEntry.bytes)

/-- Section 3: launch and graph records. -/
def dumpLaunches (s : State) (t k : Nat) : List Byte :=
  ((s.launchesOf t k).map (fun l => pad64 (launchRecord l (rangesOf s l true)))).flatten ++
    ((s.replaysOf t k).map (fun r => pad64 (graphRecord r))).flatten

/-- A galley's record in a dump: bare where a unit has no values to capture; the image index holds the core (log 21). -/
def dumpGalley (s : State) (l : Launch) (g : Galley) : List Byte :=
  let core := g.core.getD g.home
  if g.units.any (fun u => bareStop s l u.2) then
    match g.paths.filter Path.live with
    | p :: _ => galleyHead l g core p.th.block p.th.instr 8 0
    | [] => []
  else ((captureForms s l g).map (fun x => pad64 (galleyRecord s l core x))).flatten

/-- Section 4: galley records. -/
def dumpGalleys (s : State) (t k : Nat) : List Byte :=
  (s.launchesOf t k).flatMap (fun l => (piecesOf s l).flatMap (fun g => pad64 (dumpGalley s l g)))

/-- Section 5: the last 8 headers parsed on each queue of the context, 128 bytes a queue; a queue that is disabled stays the context's
(log 21). -/
def dumpHeads (s : State) (t k : Nat) : List Byte :=
  (((List.range 64).map (fun q => (⟨t, q⟩ : QId))).filter (fun q => (s.queue q).ctx == k && ((s.queue q).enable || !(s.queue q).heads.isEmpty))).flatMap (fun q =>
    let hs := (s.queue q).heads
    hs.flatten ++ zeros (128 - 16 * hs.length))

/-- Section 6: group, lanes aborted, and the occupancy of the logs (log 21). -/
def dumpTx (s : State) (t k : Nat) : List Byte :=
  (s.launchesOf t k).flatMap (fun l => (l.groups.filter (fun g => g.2.tx.depth != 0)).flatMap (fun g =>
    leBytes 8 g.1 ++ leBytes 8 g.2.tx.aborted.toNat ++ leBytes 8 g.2.tx.reads.length ++ leBytes 8 g.2.tx.writes.length))

def dumpSections (s : State) (t k : Nat) : List (Nat × List Byte) :=
  [(1, dumpRegs s t k), (2, dumpFaults s t k), (3, dumpLaunches s t k), (4, dumpGalleys s t k), (5, dumpHeads s t k),
   (6, dumpTx s t k)]

/-- Sections with their offsets, as far as they fit: the next begins 64-aligned (R93). -/
def placeSections (size : Nat) : Nat → List (Nat × List Byte) → List (Nat × Nat × List Byte)
  | _, [] => []
  | o, (ty, b) :: r => if size < o + b.length then [] else (ty, o, b) :: placeSections size (up64 (o + b.length)) r

/-! ### The colophon (Table 4.10) -/

/-- The colophon's first 0x1C0 bytes. -/
def colophonHead (t k : Nat) (f : FatalRec) (secs : List (Nat × Nat × List Byte)) (trunc : Bool) : List Byte :=
  let bytes := secs.foldl (fun m x => max m (x.2.1 + x.2.2.length)) 512
  leBytes 4 0x4B46D001 ++ leBytes 2 1 ++ leBytes 1 t ++ leBytes 1 k ++ leBytes 2 f.cause ++ leBytes 2 f.count ++ leBytes 1 f.die ++
    leBytes 1 0 ++ leBytes 2 f.core ++ leBytes 8 f.time ++ leBytes 4 f.tag ++ leBytes 2 f.objId ++ leBytes 2 0 ++ leBytes 4 f.block ++
    leBytes 2 f.instr ++ leBytes 2 0 ++ leBytes 8 f.faddr ++ leBytes 8 f.detail ++ leBytes 4 secs.length ++ leBytes 4 0 ++
    leBytes 8 bytes ++ leBytes 1 (Word.ofBool trunc) ++ leBytes 7 0 ++
    secs.flatMap (fun x => leBytes 4 x.1 ++ leBytes 4 0 ++ leBytes 4 x.2.1 ++ leBytes 4 x.2.2.length) ++
    zeros (16 * (16 - secs.length)) ++ zeros 112

/-- The colophon with its digest over itself and every section. -/
def colophon (t k : Nat) (f : FatalRec) (secs : List (Nat × Nat × List Byte)) (trunc : Bool) : List Byte :=
  let h := colophonHead t k f secs trunc
  h ++ sha3 (h ++ secs.flatMap (fun x => x.2.2))

/-- Where the parts of a dump go, up to the first that does not translate to device memory inside the tenant's windows (R35): that one
ends the dump (log 21). -/
def dumpTargets (t k : Nat) : List (Nat × List Byte) → State → List (PTarget × List Byte) × State
  | [], s => ([], s)
  | (va, b) :: r, s =>
    match translateNow s t k va b.length .wr with
    | (.error _, s) => ([], s)
    | (.ok p, s) =>
      if p.tgt ≠ 0 then ([], s)
      else
        let (ps, s) := dumpTargets t k r s
        ((p, b) :: ps, s)

/-- CTX.DUMPSIZE in bytes. -/
def dumpBytes (c : Ctx) : Nat := c.dumpSize / 65536 * 65536

/-- The parts of firmware's dump: sections in type order as far as they fit, the colophon last (R93). -/
def dumpParts (s : State) (t k : Nat) (f : FatalRec) : List (Nat × List Byte) :=
  let c := s.ctx t k
  let all := dumpSections s t k
  let secs := placeSections (dumpBytes c) 512 all
  if dumpBytes c < 512 then []
  else
    (secs.flatMap (fun (x : Nat × Nat × List Byte) => partsOf (c.dumpBase + x.2.1) x.2.2)) ++
      partsOf c.dumpBase (colophon t k f secs (secs.length != all.length))

/-- Some line of a dump is owned by an engine, or locked by a serial transaction: the dump waits (R178, R208). -/
def dumpHeld (s : State) (ps : List (PTarget × List Byte)) : Bool :=
  ps.any (fun p => s.spanOwned p.1 p.2.length || s.spanLocked p.1 p.2.length)

/-- The dump is over: the context shows it, and FATALVEC is raised. -/
def endDump (s : State) (t k : Nat) : State :=
  let c := s.ctx t k
  holdDies ((s.setCtx t k { c with fatal := c.fatal.map (fun f => { f with dumping := false }) }).sendMsi (t + 1) c.fatalVec)

/-- DUMP_DONE: every group of the fatal context has stopped; firmware writes the dump and raises FATALVEC, or the context is
frozen for the host's dump, with ASSISTPEND bit 5, ASSISTVEC and FATALVEC (R92). -/
def execDumpDone (t k : Nat) (s : State) : Host.Outcome State Fault Refusal :=
  .next (
    let c := s.ctx t k
    match c.fatal with
    | none => s
    | some f =>
      if c.state ≠ .fatal ∨ !f.dumping ∨ !allStand s t k then s
      else
        let s' := abortOpen s t k
        if f.assisted then
          let tn := s'.tenant t
          endDump ((s'.setTenant t { tn with assist := tn.assist ||| 32 }).sendMsi (t + 1) (Word.field tn.mode 13 8)) t k
        else
          let (ps, s') := dumpTargets t k (dumpParts s' t k f) s'
          if dumpHeld s' ps then s
          else endDump (ps.foldl (fun s p => s.writePhys p.1 p.2) s') t k)

end Sys2Proof.Machine
end

