-- ==== Sys2Proof/Machine/Compositor.lean ====
section
/-! DEFINITION. The compositor: the native body that it makes of a block for a shape (R259 to R262, R260 steps 2 to 8), and the bytes of a
translation image (R264 to R270). R262 lets a device produce any image that meets R261: the model's is one of them, whose words issue one
after another in the order of the block (log 9). -/

namespace Sys2Proof.Machine

open Sys2Proof

/-! ### Classes (step 2, Table 5.1) -/

/-- The class of an instruction's results in a body for galleys, or for leaves: `cs` are the classes of its operands, and `narrows` says
of a conversion that it narrows. A coordinate is S here, since the shape does not say which extents its launch has. -/
def resultClass (galley : Bool) (r : Raw) (cs : List Nat) (narrows : Bool) : Nat :=
  let sat := Word.bit r.w.mod 3
  let some_ (k : Nat) : Bool := cs.contains k
  if r.op = 0x010 then 1
  else if r.op = 0x012 then (if galley then 2 else 1)
  else if r.op = 0x011 ∨ r.op = 0x0F7 ∨ r.op = 0x1DE ∨ r.op = 0x1DF ∨ r.op = 0x264 ∨ r.op = 0x281 ∨ (0x240 ≤ r.op ∧ r.op ≤ 0x24F) then 2
  else if r.op = 0x0F4 ∨ r.op = 0x0F5 ∨ (0x100 ≤ r.op ∧ r.op ≤ 0x104) then 0
  else if 0x0F0 ≤ r.op ∧ r.op ≤ 0x0F3 then (if cs.head? = some 0 then 0 else 2)
  else if r.op = 0x069 then (if cs.head? = some 0 then (cs.drop 1).foldl max 0 else 2)
  else if some_ 2 then 2
  else if !some_ 1 then 0
  else
    match r.op with
    | 0x040 => if sat then 2 else 1
    | 0x041 => if sat then 2 else 1
    | 0x042 => if sat || cs.all (· == 1) then 2 else 1
    | 0x047 => if sat then 2 else 1
    | 0x053 => 1
    | 0x058 => if cs.getD 1 0 = 0 then 1 else 2
    | 0x06A => if sat || !narrows then 2 else 1
    | 0x06C => 1
    | 0x156 => 1
    | _ => 2

/-- Forms that act on a group (R99). -/
def groupOp (op : Nat) : Bool :=
  op == 0x012 || op == 0x013 || op == 0x01D || (decide (0x0F0 ≤ op) && decide (op ≤ 0x0F7) && op != 0x0F6) ||
    (decide (0x100 ≤ op) && decide (op ≤ 0x104)) || (decide (0x160 ≤ op) && decide (op ≤ 0x172)) ||
    (decide (0x1C0 ≤ op) && decide (op ≤ 0x1E1)) || (decide (0x240 ≤ op) && decide (op ≤ 0x266)) || op == 0x280 || op == 0x281

/-- The step of a class A result, where the block decides it; `sts` are the steps of the operands, 0 for a U one, `us` the values of those
that are constants. -/
def resultStep (r : Raw) (sts us : List (Option Nat)) : Option Nat :=
  let st (i : Nat) : Option Nat := (sts[i]?).bind id
  let u (i : Nat) : Option Nat := (us[i]?).bind id
  let scale (x y : Option Nat) : Option Nat := x.bind (fun a => y.map (fun b => a * b % 2 ^ 64))
  match r.op with
  | 0x010 => some 1
  | 0x012 => some 1
  | 0x040 => (st 0).bind (fun a => (st 1).map (fun b => (a + b) % 2 ^ 64))
  | 0x041 => (st 0).bind (fun a => (st 1).map (fun b => (a + 2 ^ 64 - b) % 2 ^ 64))
  | 0x042 => if (u 0).isSome then scale (u 0) (st 1) else scale (st 0) (u 1)
  | 0x047 => (st 0).map (fun a => (2 ^ 64 - a) % 2 ^ 64)
  | 0x053 => (st 0).map (fun a => (2 ^ 64 - a) % 2 ^ 64)
  | 0x058 => scale (st 0) ((u 1).map (fun k => 2 ^ k % 2 ^ 64))
  | 0x06A => st 0
  | 0x06C => st 0
  | _ => none

/-! ### Values and their places -/

/-- Where a value is: from a lane register, from a uniform register, or from a byte of the share. -/
inductive CompPlace where
  | lane (r : Nat)
  | uni (r : Nat)
  | share (off : Nat)
  deriving DecidableEq, Repr

/-- An argument (true) or value (false) by number; numbers from 8,192 on are temporaries. -/
abbrev ValKey := Bool × Nat

/-- A value in one place. A class A value has its base in a uniform pair; where the block does not decide its step it has lane copies,
with `copy`, besides. -/
structure CompVal where
  key  : ValKey
  ty   : Ty
  cls  : Nat
  step : Option Nat
  copy : Bool
  at_  : CompPlace
  deriving DecidableEq, Repr

/-- The value lies in uniform registers. -/
def CompVal.isUni (v : CompVal) : Bool := v.cls != 2 && !v.copy

/-- Registers of a value: a uniform one takes a pair, which is what `spill` saves of it. -/
def CompVal.regs (v : CompVal) : Nat :=
  let n := if v.ty.width ≤ 32 then 1 else if v.ty.width ≤ 64 then 2 else 4
  if v.isUni then (if v.cls = 1 then 2 else max 2 n) else n

/-- Bytes of a value in the share, for groups of `g`. -/
def CompVal.shareBytes (v : CompVal) (g : Nat) : Nat := if v.isUni then 8 else 4 * v.regs * g

/-- What a compositor works from: revision, registers of the budget, group width, galley or leaf, block, pool, the argument types of the
blocks that the block names, and the entry blocks of the functions that it names. -/
structure CompEnv where
  rev    : Nat
  budget : Nat
  g      : Nat
  galley : Bool
  block  : Nat
  pool   : List Nat
  heads  : List (Nat × List Ty)
  callees : List (Nat × Nat)
  deriving DecidableEq, Repr

/-- The argument types of a block that the block names. -/
def CompEnv.argsOf (e : CompEnv) (b : Nat) : List Ty := ((e.heads.find? (fun h => h.1 == b)).map Prod.snd).getD []

/-- The argument types of the function that a `call` names. -/
def CompEnv.calleeArgs (e : CompEnv) (f : Opnd) : List Ty :=
  let n := match f with | .imm v => some v.toNat | .pool k => e.pool[k]? | _ => none
  ((n.bind (fun n => (e.callees.find? (fun c => c.1 == n)).map Prod.snd)).map e.argsOf).getD []

/-- A word as it is made: its queue, and its bits below the queue field. -/
structure CompWord where
  queue : Nat
  bits  : Nat
  deriving DecidableEq, Repr

/-- The state of a composition: the values live now, the values' types, oldest first, the words, exit records and concordance made so far,
the share's bytes in use, the number of the next temporary, and whether everything has found a place. -/
structure Comp where
  live  : List CompVal
  args  : List Ty
  vals  : List Ty
  words : List CompWord
  exits : List ExitRec
  conc  : List ConcEnt
  spill : Nat
  temp  : Nat
  ok    : Bool
  deriving DecidableEq, Repr

def Comp.emit (c : Comp) (queue bits : Nat) : Comp := { c with words := c.words ++ [⟨queue, bits % 2 ^ 58⟩] }

/-- A native-only word of Table 12.4 (op 0x3F0 + k). -/
def Comp.emitNat (c : Comp) (k : Nat) (n : NatWord) : Comp := c.emit n.queue (n.encode k)

/-- The values that occupy registers of a file at `r` to `r + n − 1`. -/
def Comp.occupants (c : Comp) (uni : Bool) (r n : Nat) : List CompVal :=
  c.live.filter (fun v => match v.at_ with
    | .lane q => !uni && decide (q < r + n) && decide (r < q + v.regs)
    | .uni q => uni && decide (q < r + n) && decide (r < q + v.regs)
    | .share _ => false)

/-- A value that may leave its registers: no operand of the instruction in hand, no temporary, and not 128 bits wide, for which Table 12.4
has no spill. -/
def CompVal.evictable (pin : List ValKey) (v : CompVal) : Bool := !pin.contains v.key && decide (v.key.2 < 8192) && decide (v.regs ≤ 2)

/-- The lowest place of the share for so many bytes. -/
def Comp.shareSlot (c : Comp) (g n : Nat) : Nat :=
  let taken := c.live.filterMap (fun v => match v.at_ with | .share o => some (o, v.shareBytes g) | _ => none)
  let tries := (taken.map (fun t => t.2 / max 1 n + 2)).sum + 1
  (((List.range tries).map (fun i => n * i)).find? (fun o => taken.all (fun t => decide (o + n ≤ t.1) || decide (t.1 + t.2 ≤ o)))).getD 0

/-- Step 5: a value moves from its registers to the share. -/
def Comp.evict (e : CompEnv) (c : Comp) (v : CompVal) : Comp :=
  let off := c.shareSlot e.g (v.shareBytes e.g)
  let r := match v.at_ with | .lane r => r | .uni r => r | .share _ => 511
  let c := c.emitNat 0 ⟨0, 0, if v.isUni then 2 else if v.regs = 1 then 0 else 1, 511, off / 4 / 512, r, off / 4 % 512⟩
  { c with live := c.live.map (fun x => if x = v then { x with at_ := .share off } else x), spill := max c.spill (off + v.shareBytes e.g) }

/-- Step 4: a block of `n` registers of a file, for which as few registers as possible are spilled. Singles of the lanes are taken from the
top, so that pairs and quads find their alignment. -/
def Comp.room (e : CompEnv) (c : Comp) (uni : Bool) (n : Nat) (pin : List ValKey) : Nat × Comp :=
  let starts := if uni then (List.range (64 / n)).map (fun i => 256 + n * i)
    else
      let rs := (List.range (e.budget / n)).map (fun i => n * i)
      if n = 1 then rs.reverse else rs
  let fit := starts.filter (fun r => (c.occupants uni r n).all (CompVal.evictable pin))
  let cost (r : Nat) : Nat := ((c.occupants uni r n).map CompVal.regs).sum
  match fit with
  | [] => (511, { c with ok := false })
  | f :: fs =>
    let r := fs.foldl (fun b r => if cost r < cost b then r else b) f
    (r, (c.occupants uni r n).foldl (Comp.evict e) c)

/-- A temporary in a uniform block of `n` registers. -/
def Comp.tempUni (e : CompEnv) (c : Comp) (n : Nat) (pin : List ValKey) : Nat × Comp :=
  let (r, c) := c.room e true n pin
  (r, { c with live := c.live ++ [⟨(false, 8192 + c.temp), if n = 4 then .b128 else .b64, 0, none, false, .uni r⟩], temp := c.temp + 1 })

/-- A temporary of a type in lane registers. -/
def Comp.tempLane (e : CompEnv) (c : Comp) (ty : Ty) (pin : List ValKey) : Nat × Comp :=
  let v : CompVal := ⟨(false, 8192 + c.temp), ty, 2, none, false, .lane 0⟩
  let (r, c) := c.room e false v.regs pin
  (r, { c with live := c.live ++ [{ v with at_ := .lane r }], temp := c.temp + 1 })

/-- The places of a value, the affine or uniform one first. -/
def Comp.find (c : Comp) (k : ValKey) (copy : Bool) : Option CompVal :=
  match c.live.find? (fun v => v.key == k && v.copy == copy) with
  | some v => some v
  | none => c.live.find? (fun v => v.key == k)

/-- Step 5: a value stands in registers; one in the share is filled. -/
def Comp.inReg (e : CompEnv) (c : Comp) (v : CompVal) (pin : List ValKey) : Nat × Comp :=
  match v.at_ with
  | .lane r => (r, c)
  | .uni r => (r, c)
  | .share off =>
    let (r, c) := c.room e v.isUni v.regs pin
    let c := c.emitNat 1 ⟨0, 0, if v.isUni then 2 else if v.regs = 1 then 0 else 1, r, off / 4 / 512, 511, off / 4 % 512⟩
    (r, { c with live := c.live.map (fun x => if x = v then { x with at_ := if v.isUni then .uni r else .lane r } else x) })

/-! ### Words (steps 6 and 7) -/

/-- The native queue of an opcode (Table 14.10), the address queue for a store; 3 for control words. -/
def opQueue (op : Nat) : Nat := ([0, 1, 3].find? (nativeQueueOk op)).getD 3

/-- A word with a Laold counterpart, all of whose fields are given. -/
def Comp.op (c : Comp) (queue op : Nat) (ty : Ty) (mod d a b x : Nat) : Comp :=
  c.emit queue (packChifin 0 queue op (ty.code % 16) (ty.code / 16 * 128 + mod) d a b x)

/-- A constant of 64 bits in a uniform pair: the zero register, a pool entry through `ldk`, or doublings and additions of one, which X words
form of the zero register. -/
def Comp.const (e : CompEnv) (c : Comp) (v : Nat) (pin : List ValKey) : Nat × Comp :=
  if v = 0 then (511, c)
  else
    let (d, c) := c.tempUni e 2 pin
    if e.pool.contains v then
      let k := e.pool.idxOf v
      (d, c.emitNat 5 ⟨0, 0, 1, d, k / 512, 511, k % 512⟩)
    else
      let (o, c) := c.tempUni e 2 pin
      let c := (c.op 1 0x053 .n64 0 o 511 511 511).op 1 0x047 .i64 0 o o 511 511
      let c := c.op 1 0x050 .n64 0 d 511 511 511
      let bits := ((List.range 64).reverse.map (Word.bit v)).dropWhile (fun b => !b)
      (d, bits.foldl (fun c b =>
        let c := c.op 1 0x040 .n64 0 d d d 511
        if b then c.op 1 0x040 .n64 0 d d o 511 else c) c)

/-- A pool operand in uniform registers. -/
def Comp.poolReg (e : CompEnv) (c : Comp) (k bits : Nat) (pin : List ValKey) : Nat × Comp :=
  let (d, c) := c.tempUni e (if bits ≤ 64 then 2 else 4) pin
  let c := c.emitNat 5 ⟨0, 0, if bits ≤ 32 then 0 else 1, d, k / 512, 511, k % 512⟩
  (d, if bits ≤ 64 then c else c.emitNat 5 ⟨0, 0, 1, d + 2, (k + 1) / 512, 511, (k + 1) % 512⟩)

/-- The key of an operand that is an argument or a value. -/
def Comp.keyOf (c : Comp) : Opnd → Option ValKey
  | .dist d => if 1 ≤ d ∧ d ≤ c.vals.length then some (false, c.vals.length - d) else none
  | .arg k => some (true, k)
  | _ => none

/-- The type that an immediate takes in a place of an instruction of type `ty` (R281). -/
def Slot.immTy (ty : Ty) (s : Slot) : Ty :=
  match s.kind with
  | .ty => ty
  | .fix t => t
  | .srcI => ty
  | .srcC => ty
  | .srcE => ty
  | .idx => .i64
  | .w64 => .n64
  | .cont => if ty.width = 8 then .n32 else .n64
  | _ => .n32

/-- A constant in a register of its own, also where it is 0: an optional field that names the zero register is absent. -/
def Comp.constReg (e : CompEnv) (c : Comp) (v : Nat) (pin : List ValKey) : Nat × Comp :=
  if v = 0 then
    let (d, c) := c.tempUni e 2 pin
    (d, c.op 1 0x050 .n64 0 d 511 511 511)
  else c.const e v pin

/-- The register of an operand of so many bits, in a place whose immediates are of type `ty`. A word that works on lanes takes a class A
value's lane copies, or has `mat` make them. -/
def Comp.operand (e : CompEnv) (c : Comp) (lanes : Bool) (bits : Nat) (opt : Bool) (ty : Ty) (o : Opnd) (pin : List ValKey) : Nat × Comp :=
  match o with
  | .none => (511, c)
  | .reg _ => (511, c)
  | .imm v => (if opt then Comp.constReg else Comp.const) e c (immValue ty v) pin
  | .pool k => c.poolReg e k bits pin
  | o =>
    match (c.keyOf o).bind (fun k => c.find k lanes) with
    | none => (511, c)
    | some v =>
      let (r, c) := c.inReg e v pin
      if v.cls = 1 ∧ !v.copy ∧ lanes then
        let (s, c) := c.const e (v.step.getD 0) pin
        let (d, c) := c.tempLane e v.ty pin
        (d, c.emitNat 2 ⟨0, 1, if v.ty.width ≤ 32 then 0 else 1, d, r, s, 511⟩)
      else (r, c)

/-! ### Records (step 8) -/

/-- The descriptor of a place (Table 12.9). An affine one holds the step where a pool entry or 18 bits give it; the layout has no other
form, and the shape no step, so that of any other value reads 0 there (log 9). -/
def CompVal.desc (pool : List Nat) (v : CompVal) : Nat :=
  if v.cls = 1 ∧ !v.copy then
    let st := v.step.getD 0
    let step := if pool.contains st then 2 ^ 27 + pool.idxOf st % 2 ^ 18 * 2 ^ 9 else st % 2 ^ 18 * 2 ^ 9
    3 * 2 ^ 29 + step + (match v.at_ with | .share o => 2 ^ 28 + o / 8 % 512 | .uni r => r | .lane r => r)
  else
    match v.at_ with
    | .lane r => (if v.ty.width ≤ 32 then 0 else 2 ^ 29) + r
    | .uni r => 4 * 2 ^ 29 + r
    | .share o => 2 * 2 ^ 29 + 2 ^ 20 * Word.ofBool v.isUni + o / 4

/-- The value record of a key. -/
def Comp.record (e : CompEnv) (c : Comp) (k : ValKey) : Option ConcVal :=
  match c.live.filter (fun v => v.key == k) with
  | [] => none
  | v :: vs => some ⟨(v :: vs).foldl (fun m x => if x.cls = 1 then 1 else if m = 1 then m else x.cls) 0, v.ty, k.1, k.2,
      (v :: vs).map (CompVal.desc e.pool)⟩

/-- The records of every live value. -/
def Comp.records (e : CompEnv) (c : Comp) : List ConcVal :=
  ((c.live.filter (fun v => decide (v.key.2 < 8192))).map CompVal.key).dedup.filterMap (c.record e)

/-- A concordance entry at the next word; its offsets and counters are filled in at the end. -/
def Comp.mark (e : CompEnv) (c : Comp) (kind instr : Nat) : Comp :=
  if c.conc.any (fun x => x.noff == c.words.length) then c
  else { c with conc := c.conc ++ [⟨c.words.length, kind, e.block, instr, 0, 0, 0, 0, c.records e⟩] }

/-- The record of an outgoing argument, of type `ty` where it is a constant: `.none` where only the receiving block's header gives it
(log 9). -/
def Comp.passed (e : CompEnv) (c : Comp) (ty : Ty) (o : Opnd) (pin : List ValKey) : ConcVal × Comp :=
  match (c.keyOf o).bind (c.record e) with
  | some x => (x, c)
  | none =>
    match o with
    | .pool k => (⟨0, ty, false, 0, [5 * 2 ^ 29 + k]⟩, c)
    | .imm v =>
      let (r, c) := c.const e (if ty = .none then (v % 2 ^ 64).toNat else immValue ty v) pin
      (⟨0, ty, false, 0, [4 * 2 ^ 29 + r]⟩, c)
    | _ => (⟨0, ty, false, 0, [4 * 2 ^ 29 + 511]⟩, c)

/-- An exit record of a transfer (R266). -/
def Comp.exit (e : CompEnv) (c : Comp) (block : Nat) (tys : List Ty) (os : List Opnd) (pin : List ValKey) : Comp :=
  let (vs, c) := (os.mapIdx (fun i o => (tys.getD i .none, o))).foldl (fun (x : List ConcVal × Comp) o =>
    let (v, c) := x.2.passed e o.1 o.2 pin
    (x.1 ++ [v], c)) ([], c)
  { c with exits := c.exits ++ [⟨block, vs⟩] }

/-- The exit records of an instruction. -/
def Comp.exitsOf (e : CompEnv) (c : Comp) (r : Raw) (pin : List ValKey) : Comp :=
  let goes (c : Comp) (t : Target) : Comp := c.exit e t.block (e.argsOf t.block) t.args pin
  match r.ext with
  | .target t => if r.op = 4 then c.exit e t.block (e.calleeArgs r.w.a) t.args pin else if r.op = 5 then c.exit e t.block [] t.args pin else goes c t
  | .c2 _ a b => goes (goes c a) b
  | .sw _ d cs => cs.foldl goes (goes c d)
  | _ => if r.op = 6 then c.exit e 0 [] (r.operands.filter (fun o => o != .none)) pin else c

/-! ### One instruction -/

/-- The words that stand for one which the revision has not (R259, R306): X words whose bits the manual does not fix. -/
def Comp.expand (e : CompEnv) (c : Comp) (bits : Nat) : Comp :=
  (Config.expansion e.rev bits).foldl (fun c w => c.emit 1 (2 ^ 58 + w % 2 ^ 58)) c

/-- The word of an instruction that the revision has, or its expansion. -/
def Comp.main (e : CompEnv) (c : Comp) (queue : Nat) (r : Raw) (pin : List ValKey) (d a b x : Nat) : Comp :=
  let direct := c.op queue r.op r.w.ty r.w.mod d a b x
  if directOn e.rev r.op r.w.ty then direct
  else if r.op = 0x044 ∧ !Word.bit r.w.mod 3 then
    let (t, c) := if d < 256 then c.tempLane e r.w.ty pin else c.tempUni e 2 pin
    (c.op 1 0x042 r.w.ty r.w.mod t a b 511).op 1 0x040 r.w.ty r.w.mod d t x 511
  else c.expand e (packChifin 0 queue r.op (r.w.ty.code % 16) (r.w.ty.code / 16 * 128 + r.w.mod) d a b x)

/-- The register fields of a word of an instruction: its operands, and the numbers of its exit records from `x0` on. -/
def Comp.fields (e : CompEnv) (c : Comp) (lanes : Bool) (x0 : Nat) (row : OpRow) (ty : Ty) (queue : Nat) (os : List Opnd) (pin : List ValKey) :
    List Nat × Comp :=
  let fs := natFields row ty queue
  let tys : List Ty := (List.range 3).map (fun i => ((row.slots[i]?).map (Slot.immTy ty)).getD .n32)
  let (ns, _, c) := ((fs.zip tys).zip os).foldl (fun (x : List Nat × Nat × Comp) f =>
    match f.1.1 with
    | .unused => (x.1 ++ [511], x.2)
    | .exit => (x.1 ++ [x.2.1], x.2.1 + 1, x.2.2)
    | .reg bits opt =>
      let (r, c) := x.2.2.operand e lanes bits opt f.1.2 f.2 pin
      (x.1 ++ [r], x.2.1, c)) ([], x0, c)
  (ns, c)

/-- Registers for results of these types in one file, as R251 places the second after the first; 511 where none is read later. -/
def Comp.dest (e : CompEnv) (c : Comp) (uni : Bool) (tys : List Ty) (used : Bool) (pin : List ValKey) : Nat × Comp :=
  if !used then (511, c)
  else
    let width (i : Nat) : Nat := (tys.getD i .none).width
    let n := match tys.length with
      | 2 => nextDest (width 0) (width 1) 0 + (if width 1 ≤ 32 then 1 else if width 1 ≤ 64 then 2 else 4)
      | _ => if width 0 ≤ 32 then 1 else if width 0 ≤ 64 then 2 else 4
    c.room e uni (if n ≤ 1 then (if uni then 2 else 1) else if n = 2 then 2 else if n ≤ 4 then 4 else 8) pin

/-- The results take their places: `d` is the first one's register. A second one of 32 bits at an odd uniform register moves to a pair. -/
def Comp.results (e : CompEnv) (c : Comp) (uni : Bool) (tys : List Ty) (d : Nat) (pin : List ValKey) : Comp :=
  if d = 511 then c
  else
    let n := c.vals.length
    let at_ (r : Nat) : CompPlace := if uni then .uni r else .lane r
    let new (i r : Nat) : CompVal := ⟨(false, n + i), tys.getD i .none, if uni then 0 else 2, none, false, at_ r⟩
    let c := { c with live := c.live ++ [new 0 d] }
    match tys with
    | [a, b] =>
      let r := nextDest a.width b.width d
      if uni ∧ r % 2 = 1 then
        let (q, c) := c.room e true 2 ((false, n) :: pin)
        let c := c.op 1 0x06C b 0 q r 511 511
        { c with live := c.live ++ [new 1 q] }
      else { c with live := c.live ++ [new 1 r] }
    | _ => c

/-- The base of a class A result, in a uniform pair: the instruction's own operation on the bases, or what an item or lane index begins
with. -/
def Comp.base (e : CompEnv) (c : Comp) (r : Raw) (row : OpRow) (pin : List ValKey) : Nat × Comp :=
  match r.op with
  | 0x010 =>
    let (d, c) := c.room e true 2 pin
    (d, c.op 1 0x050 .n64 0 d 511 511 511)
  | 0x012 =>
    let (k, c) := c.const e e.g pin
    let (d, c) := c.room e true 2 pin
    (d, ((c.op 3 0x013 .n64 0 d 511 511 511).op 1 0x042 .n64 0 d d k 511).op 1 0x047 .i64 0 d d 511 511)
  | _ =>
    let q := opQueue r.op
    let (fs, c) := c.fields e false 0 row r.w.ty q [r.w.a, r.w.b, r.w.c] pin
    let (d, c) := c.room e true 2 pin
    (d, c.op q r.op r.w.ty r.w.mod d (fs.getD 0 511) (fs.getD 1 511) (fs.getD 2 511))

/-- The class, the step, and the constant of an operand. -/
def Comp.known (e : CompEnv) (c : Comp) (o : Opnd) : Nat × Option Nat × Option Nat :=
  match (c.keyOf o).bind (fun k => c.find k false) with
  | some v => (v.cls, if v.cls = 1 then v.step else some 0, none)
  | none =>
    match o with
    | .imm v => (0, some 0, some (v % 2 ^ 64).toNat)
    | .pool k => (0, some 0, e.pool[k]?)
    | _ => (0, some 0, none)

/-- Drop temporaries and the values that no instruction reads any more (step 3: `used` are those read from here on). -/
def Comp.keep (c : Comp) (used : List ValKey) : Comp := { c with live := c.live.filter (fun v => used.contains v.key) }

/-- One instruction at index `i`; `after` are the values that later ones read, and `lone` says of a compare that only branches do (R103).
False where the body has ended, by a terminator or `unf`. -/
def Comp.instr (e : CompEnv) (c : Comp) (i : Nat) (r : Raw) (lone : Bool) (after : List ValKey) : Bool × Comp :=
  match opRow r.op with
  | none => (false, { c with ok := false })
  | some row =>
    let os := [r.w.a, r.w.b, r.w.c]
    let present := (r.operands.filter (fun o => o != .none)).map (c.known e)
    let env : TyEnv := ⟨c.args, c.vals.reverse, e.pool.length⟩
    let tys := resultTys env row r
    let narrows : Bool := decide (r.w.ty.width ≤ ((env.tyOf r.w.a).getD .none).width)
    let cls := resultClass e.galley r (present.map Prod.fst) narrows
    let branch : Bool := lone && r.op == 0x068 && present.any (fun x => x.1 == 1) && present.any (fun x => x.1 == 0)
    if e.galley ∧ (groupOp r.op ∨ (!tys.isEmpty ∧ cls = 2 ∧ !branch)) then
      (false, (c.mark e 3 i).emitNat 6 ⟨0, 3, 0, 511, i / 512, 511, i % 512⟩)
    else
      let n := c.vals.length
      let used := (List.range tys.length).any (fun j => after.contains (false, n + j))
      let pin := r.operands.filterMap c.keyOf
      let x0 := c.exits.length
      let c := c.exitsOf e r pin
      let q := opQueue r.op
      let step := resultStep r (present.map (fun x => x.2.1)) (present.map (fun x => x.2.2))
      let control := q == 3
      let c :=
        if cls = 1 ∧ !tys.isEmpty then
          if !used then c
          else
            let (d, c1) := c.base e r row pin
            let base : CompVal := ⟨(false, n), r.w.ty, 1, step, false, .uni d⟩
            let c1 := { c1 with live := c1.live ++ [{ base with key := (false, 8192 + c1.temp), ty := .b64, cls := 0 }], temp := c1.temp + 1 }
            let (copies, c1) : List CompVal × Comp :=
              if step.isSome then ([], c1)
              else
                let (fs, c1) := c1.fields e true 0 row r.w.ty q os pin
                let (l, c1) := c1.dest e false tys true pin
                ([⟨(false, n), r.w.ty, 1, none, true, .lane l⟩], c1.op q r.op r.w.ty r.w.mod l (fs.getD 0 511) (fs.getD 1 511) (fs.getD 2 511))
            { c1 with live := c1.live ++ base :: copies }
        else
          let uni : Bool := cls == 0
          let store := storeOp r.op
          let (fa, c) := c.fields e true x0 row r.w.ty (if store then 0 else q) os pin
          let (fb, c) := if store then c.fields e true 0 row r.w.ty 2 os pin else ([], c)
          let old := c.live
          let (d, c) := Comp.dest e { c with live := c.live.filter (fun v => after.contains v.key) } uni tys used pin
          let c := { c with live := old.map (fun (v : CompVal) => (c.live.find? (fun (x : CompVal) => x.key == v.key && x.copy == v.copy)).getD v) }
          let c := if control then c.mark e 1 i else if safeOp r.op then c.mark e (if q = 0 then 2 else 4) i else c
          let c := if store then
              (c.op 0 r.op r.w.ty r.w.mod 511 (fa.getD 0 511) 511 (fa.getD 2 511)).op 2 r.op r.w.ty r.w.mod 511 511 (fb.getD 1 511) 511
            else c.main e q r pin d (fa.getD 0 511) (fa.getD 1 511) (fa.getD 2 511)
          Comp.results e { c with live := c.live.filter (fun v => after.contains v.key) } uni tys d pin
      (!row.flags.term, Comp.keep { c with vals := c.vals ++ tys } after)

/-- The instructions from index `i` on. -/
def Comp.instrs (e : CompEnv) : Nat → List Raw → Comp → Comp
  | _, [], c => c
  | i, r :: rs, c =>
    let n := c.vals.length + resultCount r
    let after := (usesFrom n (rs.filterMap Raw.toInstr)).dedup
    let lone := branchOnly c.vals.length n (rs.filterMap Raw.toInstr)
    match c.instr e i r lone after with
    | (true, c) => Comp.instrs e (i + 1) rs c
    | (false, c) => c

/-! ### The body -/

/-- The wait bit of a word of queue `w` for a word of queue `p` before it (Table 12.2); a control word holds all three queues itself. -/
def edgeWait (p w : Nat) : Nat := if w = 3 ∨ p = 3 ∨ p = w then 0 else if p = (w + 1) % 3 then 8 else 4

/-- The push bit of a word of queue `p` for a later word of queue `w`. -/
def edgePush (p w : Nat) : Nat := if w = 3 ∨ p = 3 ∨ p = w then 0 else if w = (p + 1) % 3 then 2 else 1

/-- One token on the edge from queue `p` to queue `w`, in TOKINIT's counts (Table 12.6). -/
def edgeCount (p w : Nat) : Nat := if w = 3 ∨ p = 3 ∨ p = w then 0 else if w = (p + 1) % 3 then 16 ^ p else 16 ^ (3 + (p + 2) % 3)

/-- A store's pair of words begins here: an A word whose data word is the next one (R256). -/
def storePair : List CompWord → Bool
  | a :: b :: _ => a.queue == 0 && b.queue == 2
  | _ => false

/-- The queues of the words that wait for the one before these: both words of a store do. -/
def awaiting (ws : List CompWord) : List Nat := if storePair ws then [0, 2] else (ws.head?.map CompWord.queue).toList

/-- Step 6, the schedule: every word waits for the one before it, by a token where that one is in another queue (R255). The words of a
store wait for the same word, and the word after them for the data word's token, which comes when the store is performed. `p` is the
queue that is waited for. -/
def scheduled : Option Nat → List CompWord → List Nat
  | _, [] => []
  | p, w :: ws =>
    let wait := (p.map (fun q => edgeWait q w.queue)).getD 0
    let push := if storePair (w :: ws) then 0 else ((awaiting ws).map (edgePush w.queue)).sum
    ((wait + push) * 2 ^ 60 + w.queue * 2 ^ 58 + w.bits) :: scheduled (if storePair (w :: ws) then p else some w.queue) ws

/-- TOKINIT at a word: the tokens that the word before has pushed and none has taken (Table 12.6). -/
def tokInit (ws : List CompWord) (n : Nat) : Nat :=
  match (if n = 0 then none else ws[n - 1]?) with
  | some p => ((awaiting (ws.drop n)).map (edgeCount p.queue)).sum
  | none => 0

/-- The entry offsets and counters of a concordance entry. -/
def ConcEnt.placed (ws : List CompWord) (words : List Nat) (x : ConcEnt) : ConcEnt :=
  { x with aoff := nextWord 0 words x.noff 0, xoff := nextWord 1 words x.noff 0, soff := nextWord 2 words x.noff 0, tok := tokInit ws x.noff }

/-- The values of a shape in the places where a body finds them: `ks` gives key, type and class of each that is live. -/
def Comp.enter (e : CompEnv) (ks : List (ValKey × Ty × Nat)) (c : Comp) : Comp :=
  ks.foldl (fun c x =>
    let v : CompVal := ⟨x.1, x.2.1, x.2.2, none, false, .uni 0⟩
    let one (c : Comp) (v : CompVal) : Comp :=
      let uni := v.isUni
      let free := (if uni then (List.range (64 / v.regs)).map (fun i => 256 + v.regs * i)
        else (List.range (e.budget / v.regs)).map (fun i => v.regs * i)).find? (fun r => (c.occupants uni r v.regs).isEmpty)
      match free with
      | some r => { c with live := c.live ++ [{ v with at_ := if uni then .uni r else .lane r }] }
      | none =>
        if 2 < v.regs then { c with ok := false }
        else
          let off := c.shareSlot e.g (v.shareBytes e.g)
          { c with live := c.live ++ [{ v with at_ := .share off }], spill := max c.spill (off + v.shareBytes e.g) }
    let c := one c v
    if x.2.2 = 1 then one c { v with copy := true } else c) c

/-- R260 steps 2 to 8 for a shape: the body with the bytes of the share that it uses, where its values find places. -/
def composeShape (e : CompEnv) (words : List Nat) (argTys : List Ty) (sh : Shape) : Option (NatCode × Nat) :=
  let raws := ((blockInstrs words).getD []).filterMap Instr.toRaw
  let nargs := argTys.length
  let tysAt : List Ty := (raws.take sh.instr).foldl (fun (vs : List Ty) r =>
    match opRow r.op with
    | some row => vs ++ resultTys ⟨argTys, vs.reverse, e.pool.length⟩ row r
    | none => vs) []
  let rest := raws.drop sh.instr
  let live := (usesFrom tysAt.length (rest.filterMap Raw.toInstr)).dedup
  let ks := (sh.classes.mapIdx (fun j k => (j, k))).filterMap (fun x =>
    let key : ValKey := if x.1 < nargs then (true, x.1) else (false, x.1 - nargs)
    if x.2 < 3 ∧ live.contains key then
      some (key, (if key.1 then argTys[key.2]? else tysAt[key.2]?).getD .none, x.2)
    else none)
  let c : Comp := ⟨[], argTys, tysAt, [], [], [], 0, 0, true⟩
  let c := (c.enter e ks).mark e 0 sh.instr
  let c := Comp.instrs e sh.instr rest c
  if !c.ok ∨ c.words.isEmpty ∨ 65536 < c.words.length then none
  else
    let ws := scheduled none c.words
    some (⟨nextWord 0 ws 0 0, nextWord 1 ws 0 0, nextWord 2 ws 0 0, 0, ws, c.exits, c.conc.map (ConcEnt.placed c.words ws)⟩, c.spill)

/-! ### The bytes of an image (Tables 12.5 to 12.9) -/

def ConcVal.bytes (v : ConcVal) : List Byte :=
  leBytes 4 (v.cls * 2 ^ 30 + v.ty.code * 2 ^ 25 + v.descs.length % 8 * 2 ^ 22 + Word.ofBool v.arg * 2 ^ 13 + v.idx % 8192) ++
    v.descs.flatMap (leBytes 4)

def ExitRec.bytes (x : ExitRec) : List Byte := leBytes 4 x.target ++ leBytes 2 x.vals.length ++ leBytes 2 0 ++ x.vals.flatMap ConcVal.bytes

def ConcEnt.bytes (x : ConcEnt) : List Byte :=
  leBytes 2 x.noff ++ leBytes 2 x.kind ++ leBytes 4 x.block ++ leBytes 2 x.instr ++ leBytes 2 x.vals.length ++ leBytes 2 x.aoff ++
    leBytes 2 x.xoff ++ leBytes 2 x.soff ++ leBytes 2 0 ++ leBytes 4 x.tok ++ x.vals.flatMap ConcVal.bytes

/-- Two-bit classes, four to a byte, filled up to a multiple of 4 bytes. -/
def classBytes (cs : List Nat) : List Byte :=
  leBytes (Word.ceilDiv cs.length 16 * 4) (cs.mapIdx (fun i k => k % 4 * 4 ^ i)).sum

/-- A body's parts behind the records: classes, words, exit records and concordance. -/
def NatCode.parts (c : NatCode) (instr : Nat) : List (List Byte) :=
  [classBytes (((c.entryEnt instr).map ConcEnt.vals).getD [] |>.map ConcVal.cls), c.words.flatMap (leBytes 8), c.exits.flatMap ExitRec.bytes,
    c.conc.flatMap ConcEnt.bytes]

/-- The body record of a body whose parts begin at byte `off` of the image. -/
def bodyRecord (off : Nat) (sh : Shape) (c : NatCode) : List Byte :=
  let ls := (c.parts sh.instr).map List.length
  let at_ (i : Nat) : Nat := off + (ls.take i).sum
  leBytes 4 (sh.instr + 2 ^ 16 * Word.ofBool sh.galley) ++ leBytes 2 (((c.entryEnt sh.instr).map ConcEnt.vals).getD []).length ++ leBytes 2 0 ++
    leBytes 4 (at_ 0) ++ leBytes 2 c.aoff ++ leBytes 2 c.xoff ++ leBytes 2 c.soff ++ leBytes 2 0 ++ leBytes 4 c.tok ++ leBytes 4 (at_ 1) ++
    leBytes 4 c.words.length ++ leBytes 4 (at_ 2) ++ leBytes 2 c.exits.length ++ leBytes 2 0 ++ leBytes 4 (at_ 3) ++ leBytes 4 c.conc.length

/-- The records of bodies whose parts follow one another from byte `off` on. -/
def bodyRecords : Nat → List (Shape × NatCode) → List Byte
  | _, [] => []
  | off, (sh, c) :: bs => bodyRecord off sh c ++ bodyRecords (off + ((c.parts sh.instr).map List.length).sum) bs

/-- A translation image (R264). -/
def imageBytes (objId : Nat) (x : Xlat) : List Byte :=
  let bs := x.bodies.filterMap (fun b => b.code.map (fun c => (b.shape, c)))
  let parts := bs.flatMap (fun b => (b.2.parts b.1.instr).flatten)
  leBytes 4 0x4B46C601 ++ leBytes 2 1 ++ leBytes 2 objId ++ leBytes 4 x.block ++ leBytes 1 x.rev ++ leBytes 1 (x.budget + 8 * x.width) ++
    leBytes 2 bs.length ++ leBytes 4 (64 + 48 * bs.length + parts.length) ++ leBytes 4 x.spill ++ leBytes 40 0 ++
    bodyRecords (64 + 48 * bs.length) bs ++ parts

end Sys2Proof.Machine
end

