-- ==== Sys2Proof/Machine/Compose.lean ====
section
/-! DEFINITION. The compositors: service of translation misses (R138, R260, R263, R267, R273, R274, R292) and the fetch of
the text pages they need (R45, R46, R48). -/

namespace Sys2Proof.Machine

open Sys2Proof

/-! ### What a request comes to -/

/-- Two requests of one key (R138). -/
def XReq.sameKey (a b : XReq) : Bool :=
  a.tenant == b.tenant && a.ctx == b.ctx && a.obj == b.obj && a.block == b.block && a.budget == b.budget && a.width == b.width

def XReq.key (r : XReq) (cl : Nat) : XKey := ⟨revOf (dieOfCluster cl), r.budget, r.width⟩

/-- The requests that the head of a cluster's queue is served with. -/
def headRequests (s : State) (cl : Nat) : List XReq :=
  match (s.cluster cl).queue with
  | [] => []
  | r :: rs => r :: rs.filter r.sameKey

/-- Where a body comes from: a serving section with its spill bytes and its bodies, or the compositor. -/
inductive Source where
  | sect (spill : Nat) (bodies : List Body)
  | compose
  deriving DecidableEq, Repr

/-- What the text says of a request: the block, and a source for every shape (R260 step 1, R267 step 4, R292). -/
def composeText (cl : Nat) (r : XReq) (assisted : Bool) (shapes : List Shape) (o : CodeObj) : Except TextStop (BlockText × List (Shape × Source)) := do
  let t ← readBlock o r.block
  let ids ← sectsWith o (revOf (dieOfCluster cl)) (r.budget + 8 * r.width) r.block o.nsect 0
  let xs ← (shapes.map (Shape.norm t.words t.hdr.args.length)).dedup.mapM (fun sh => do
    match ← firstServing o assisted t.words t.hdr.args.length sh ids with
    | some x => .ok (sh, .sect x.1 x.2)
    | none => .ok (sh, .compose))
  .ok (t, xs)

/-- The result for the head of a cluster's queue; `none` where the queue is empty or the object is gone. -/
def composeHead (s : State) (cl : Nat) : Option (XReq × Except TextStop (BlockText × List (Shape × Source))) :=
  match headRequests s cl with
  | [] => none
  | r :: rs => (s.obj? r.tenant r.ctx r.obj).map (fun o => (r, composeText cl r (Word.bit (s.tenant r.tenant).mode 2) ((r :: rs).map XReq.shape) o))

/-! ### The units that wait -/

/-- A unit of a galley waits on the cluster for the key of a request. -/
def awaits (s : State) (cl : Nat) (r : XReq) (g : Galley) (u : UnitId × Thread) : Bool :=
  match g.core, s.launch? g.launch with
  | some c, some l =>
    clusterOf c == cl && l.tenant == r.tenant && l.ctx == r.ctx && l.obj == r.obj && l.budgetOn c == r.budget && l.widthCode == r.width &&
      u.2.wait == .xlate && u.2.block == r.block
  | _, _ => false

/-- The units that wait for a request, with their galleys. -/
def waiters (s : State) (cl : Nat) (r : XReq) : List (Galley × UnitId × Thread) :=
  s.galleys.flatMap (fun g => (g.units.filter (awaits s cl r g)).map (fun u => (g, u.1, u.2)))

/-- The requests of the key leave the queue. -/
def dropRequests (s : State) (cl : Nat) (r : XReq) : State :=
  let c := s.cluster cl
  s.setCluster cl { c with queue := c.queue.filter (fun x => !x.sameKey r) }

/-- Every waiting unit takes a fault at the start of its block. -/
def failWaiters (s : State) (ws : List (Galley × UnitId × Thread)) (c : Code) (sub : Nat) : State :=
  ws.foldl (fun s w =>
    match s.launch? w.1.launch with
    | some l => takeFault s w.1 l { w.2.2 with instr := 0 } c (faultLane w.2.1) sub 0
    | none => s) s

/-! ### The store (R263, R267, R274) -/

/-- Bytes of an image in its store part, where images lie 64-aligned (R264). -/
def Xlat.size (x : Xlat) : Nat := up64 (imageBytes 0 x).length

/-- A resident unit executes a body of the image. -/
def imagePinned (s : State) (x : Xlat) : Bool :=
  s.galleys.any (fun g => g.core.isSome && g.units.any (fun u => u.2.body == some x.id))

/-- Put an image into its die's 512 MiB; the least recently used of the others leave it, but for those that are pinned. 0, or
XLATE_FAIL's 3 STORE_FULL. -/
def putImage (s : State) (cl : Nat) (x : Xlat) : Nat × State :=
  let others := s.xlats.filter (fun y => y.id != x.id)
  let here := others.filter (fun y => y.die == x.die)
  let total := x.size + (here.map Xlat.size).sum
  let out := evicted Xlat.size (imagePinned s) (total - 2 ^ 29) here.reverse
  if 2 ^ 29 < total - (out.map Xlat.size).sum then (3, s)
  else
    let s := { s with xlats := x :: others.map (fun y => if out.any (fun z => z.id == y.id) then { y with die := none } else y) }
    (0, if out.isEmpty then s else countXlat s cl 5 out.length)

/-- The image of a key that a cluster's own die holds. -/
def keyXlat (s : State) (r : XReq) (cl : Nat) : Option Xlat :=
  s.xlats.find? (fun x => x.serves r.tenant r.ctx r.obj r.block (r.key cl) && x.die == some (dieOfCluster cl))

/-- An image of a key without bodies. -/
def newImage (id : Nat) (cl : Nat) (r : XReq) (va : Nat) (t : BlockText) : Xlat :=
  { id := id, tenant := r.tenant, ctx := r.ctx, obj := r.obj, block := r.block, rev := (r.key cl).rev, budget := r.budget,
    width := r.width, words := t.words, pool := t.pool, argTys := t.hdr.args,
    flags := 8 * Word.ofBool t.hdr.join + 4 * Word.ofBool t.hdr.wait + 2 * Word.ofBool t.hdr.loop + Word.ofBool t.hdr.entry,
    heads := t.heads, callees := t.callees, textAt := va + t.textOff, poolAt := va + t.poolOff, die := some (dieOfCluster cl), spill := 0, bodies := [], live := true }

/-- A body joins an image that has fewer than eight; a ninth takes the place of the least recently used one that no unit executes, which
leaves the caches too; `none` when all are pinned (R263). -/
def addBody (s : State) (x : Xlat) (b : Body) : Option (Xlat × Option Shape) :=
  if x.bodies.length < 8 then some ({ x with bodies := b :: x.bodies }, none)
  else (x.bodies.reverse.find? (fun y => !bodyPinned s x.id y.shape)).map (fun y =>
    ({ x with bodies := b :: x.bodies.filter (fun z => z.shape != y.shape) }, some y.shape))

/-- A replaced body leaves every cluster's cache. -/
def uncache (s : State) (cl x : Nat) (sh : Option Shape) : State :=
  match sh with
  | none => s
  | some sh =>
    countXlat { s with clusters := s.clusters.map (fun c => (c.1, { c.2 with cache := c.2.cache.filter (fun e => e != (x, sh)) })) } cl 5 1

/-- Write bodies to the store and the one for the shape to the cluster's cache: `bs` are the bodies of a new image, the first the one that
is needed; an image that is there receives that one. 0, or the code of XLATE_FAIL. -/
def storeBodies (s : State) (cl : Nat) (r : XReq) (t : BlockText) (spill : Nat) (bs : List Body) : Nat × State :=
  match bs with
  | [] => (1, s)
  | b :: _ =>
    match keyXlat s r cl with
    | some x =>
      match addBody s x b with
      | none => (4, s)
      | some (x, gone) =>
        let (code, s) := putImage s cl { x with spill := max x.spill spill }
        (code, if code = 0 then cacheBody (uncache s cl x.id gone) cl x.id b.shape else s)
    | none =>
      let (id, s) := s.fresh
      let (code, s) := putImage s cl { newImage id cl r (((s.obj? r.tenant r.ctx r.obj).map CodeObj.va).getD 0) t with spill := spill, bodies := bs }
      (code, if code = 0 then cacheBody s cl id b.shape else s)

/-! ### The compositor (R260; log 9) -/

/-- What a cluster's compositor works from for a request. -/
def compEnv (cl : Nat) (r : XReq) (t : BlockText) (galley : Bool) : CompEnv :=
  ⟨revOf (dieOfCluster cl), budgetRegs r.budget, 8 * 2 ^ r.width, galley, r.block, t.pool, t.heads, t.callees⟩

/-- The body that the compositor makes for a shape, and the bytes of the share that it uses; `none` where its values find no place. -/
def composeBody (cl : Nat) (r : XReq) (t : BlockText) (sh : Shape) : Option (Body × Nat) :=
  (composeShape (compEnv cl r t sh.galley) t.words t.hdr.args sh).map (fun c => (⟨sh, 48 + 8 * c.1.words.length, some c.1, true⟩, c.2))

/-- Compose bodies for shapes, the first the one that is needed, under a share; 2 SPILL_SPACE where it cannot hold the spills (R274). -/
def compose (s : State) (cl : Nat) (r : XReq) (t : BlockText) (share : Nat) (shs : List Shape) : Nat × State :=
  match shs.mapM (composeBody cl r t) with
  | none => (2, s)
  | some bs =>
    let spill := (bs.map Prod.snd).foldl max 0
    if share < spill then (2, s) else storeBodies s cl r t spill (bs.map Prod.fst)

/-- An image whose spills exceed the share is rebuilt: a new image replaces it (R273); units inside it stay there until they leave. -/
def rebuild (s : State) (cl : Nat) (r : XReq) (t : BlockText) (share : Nat) (old : Option Nat) (shs : List Shape) : Nat × State :=
  let s := countXlat s cl 4 1
  compose { s with xlats := s.xlats.map (fun x => if old = some x.id then { x with live := false } else x) } cl r t share shs

/-! ### Service -/

/-- The smallest slot share of the units that wait. -/
def shareOfAll (s : State) (ws : List (Galley × UnitId × Thread)) : Nat :=
  ws.foldl (fun m w => match w.1.core, s.launch? w.1.launch with
    | some c, some l => min m (shareOf l c)
    | _, _ => m) (2 ^ 20)

/-- The shapes of an image, one of them first. -/
def shapesFirst (sh : Shape) (bs : List Body) : List Shape := sh :: (bs.map Body.shape).filter (fun y => y != sh)

/-- Serve one shape: 0, or the code of XLATE_FAIL; the counters are those of Table 12.10. -/
def serveShape (s : State) (cl : Nat) (r : XReq) (t : BlockText) (ws : List (Galley × UnitId × Thread)) (x : Shape × Source) :
    Nat × State :=
  let assisted := Word.bit (s.tenant r.tenant).mode 2
  let share := shareOfAll s ws
  match findBody s cl r.tenant r.ctx r.obj r.block (r.key cl) x.1 with
  | some (i, n, ev) =>
    let y := s.xlat? i
    if (y.map Xlat.spill).getD 0 ≤ share then (0, cacheBody (touchBody (countXlat s cl ev 1) i n) cl i n)
    else if assisted then (1, s)
    else rebuild s cl r t share (some i) (shapesFirst x.1 ((y.map Xlat.bodies).getD []))
  | none =>
    match x.2 with
    | .sect spill bs =>
      if spill ≤ share then
        storeBodies (countXlat s cl 2 1) cl r t spill (bs.filter (fun b => b.shape == x.1) ++ bs.filter (fun b => b.shape != x.1))
      else if assisted then (1, s)
      else rebuild s cl r t share none (shapesFirst x.1 bs)
    | .compose => if assisted then (1, s) else compose (countXlat s cl 3 1) cl r t share [x.1]

/-- A waiting unit gets its body, and passes its block's JOIN. -/
def giveBody (s : State) (cl : Nat) (r : XReq) (sh : Shape) (w : Galley × UnitId × Thread) : State :=
  match findBody s cl r.tenant r.ctx r.obj r.block (r.key cl) sh, (s.galley? w.1.id).bind (fun g => g.thread? w.2.1) with
  | some (x, n, _), some th =>
    if th.wait != .xlate || th.block != r.block then s else passJoin (takeBody s w.2.1 x n) w.2.1
  | _, _ => s

/-- Serve every shape of the request, then its units: those whose shape has no body take XLATE_FAIL. -/
def serveShapes (s : State) (cl : Nat) (r : XReq) (t : BlockText) (xs : List (Shape × Source)) : State :=
  let ws := waiters s cl r
  let of_ (sh : Shape) : List (Galley × UnitId × Thread) :=
    ws.filter (fun w => (shapeOf w.1 w.2.2).norm t.words t.hdr.args.length == sh)
  let s := dropRequests s cl r
  xs.foldl (fun s x =>
    let (code, s) := serveShape s cl r t (of_ x.1) x
    if code = 0 then (of_ x.1).foldl (fun s w => giveBody s cl r x.1 w) s
    else failWaiters (countXlat s cl 6 (of_ x.1).length) (of_ x.1) .xlateFail code) s

/-- TRANSLATION_DONE: the compositor of a cluster finishes the oldest key it holds; a page that is not there is fetched
first (TEXT_PAGE_FETCH_DONE). -/
def execTranslationDone (cl : Nat) (s : State) : Host.Outcome State Fault Refusal :=
  .next (
    match composeHead s cl with
    | none => match (s.cluster cl).queue with
      | r :: _ => dropRequests s cl r
      | [] => s
    | some (_, .error (.page _)) => s
    | some (r, .error .format) => failWaiters (dropRequests s cl r) (waiters s cl r) .codeFormat 0
    | some (r, .ok (t, xs)) =>
      if s.revoked r.tenant r.ctx r.obj then dropRequests s cl r else serveShapes s cl r t xs)

/-! ### Text pages (R46, R48) -/

/-- The clusters whose oldest request needs a page, with the request. -/
def pageNeeded (s : State) (t k obj page : Nat) : List (Nat × XReq) :=
  (List.range 40).filterMap (fun cl =>
    match composeHead s cl with
    | some (r, .error (.page p)) => if r.tenant = t ∧ r.ctx = k ∧ r.obj = obj ∧ p = page then some (cl, r) else none
    | _ => none)

/-- A page that cannot be read faults every group whose translation needed it, at the start of its block (R45). -/
def failPage (s : State) (need_ : List (Nat × XReq)) (c : Code) : State :=
  need_.foldl (fun s x => failWaiters (dropRequests s x.1 x.2) (waiters s x.1 x.2) c 0) s

/-- A page whose hash does not match: the first group that needed it takes CODE_INTEGRITY, and the object is revoked; no
request for it is served any more (R48). -/
def revokePage (s : State) (need_ : List (Nat × XReq)) (t k obj page : Nat) : State :=
  let ws := need_.flatMap (fun x => waiters s x.1 x.2)
  let w : FaultAt := match ws with
    | w :: _ => match s.launch? w.1.launch with
      | some l => faultAt w.1 l { w.2.2 with instr := 0 } 0
      | none => .nowhere
    | [] => .nowhere
  let s := match ws with
    | w :: _ => s.setGalley { w.1 with paths := w.1.paths.map Path.stop }
    | [] => s
  let s := codeIntegrity s t k obj page w
  { s with clusters := s.clusters.map (fun c =>
      (c.1, { c.2 with queue := c.2.queue.filter (fun r => !(r.tenant == t && r.ctx == k && r.obj == obj)) })) }

/-- A cancelled page fault of a fetch: the groups that needed the page take TRANSLATION (R155). -/
def cancelFetch (s : State) (t k obj page code : Nat) : State := failPage s (pageNeeded s t k obj page) (Code.ofNum code)

/-- TEXT_PAGE_FETCH_DONE: the page is read into a shadow and hashed. No page of a revoked object is read, and the units stand (R48). -/
def execTextPageFetchDone (t k obj page : Nat) (s : State) : Host.Outcome State Fault Refusal :=
  .next (
    let need_ := pageNeeded s t k obj page
    let who : Asker := .fetch t k obj page
    match need_ with
    | [] => s
    | (cl, _) :: _ =>
      if s.revoked t k obj then need_.foldl (fun s x => dropRequests s x.1 x.2) s
      else if s.faults.any (fun f => f.askers.contains who) || s.walks.any (fun w => w.askers.contains who) then s
      else
        match fetchPage s t k obj page with
        | (.ok, s) => s
        | (.fail c, s) => failPage s need_ c
        | (.fault va pte, s) =>
          if servable s t (Word.bit pte 9) then serviceFault s cl t k va 1 (Word.bit pte 9) [who] else failPage s need_ .translation
        | (.hash, s) => revokePage s need_ t k obj page)

end Sys2Proof.Machine
end

