-- ==== Sys2Proof/Machine/Service.lean ====
section
/-! DEFINITION. Page-fault service: the end of a walk (R146 to R151), first touch (R152), and REPLAY_ALL (R155). -/

namespace Sys2Proof.Machine

open Sys2Proof

/-! ### Results for those that asked -/

/-- Hold a walk's result for an access that asked for it. -/
def giveResult (s : State) (r : WalkResult) : Asker → State
  | .unit u _ =>
    match s.galley? u.galley with
    | some g =>
      match g.thread? u with
      | some th => s.setGalley (g.setThread u { th with walks := if th.walks.contains r then th.walks else th.walks ++ [r] })
      | none => s
    | none => s
  | .command i =>
    match s.command? i with
    | some c => s.setCommand { c with walks := c.walks ++ [r] }
    | none => s
  | .relayout i =>
    match s.relayouts.find? (fun x => x.id == i) with
    | some x => s.setRelayout { x with walks := x.walks ++ [r] }
    | none => s
  | .queue q => if r.entry.isSome then s else s.setQueue q { s.queue q with walks := (s.queue q).walks ++ [r] }
  | .fetch t k obj page => if r.entry.isSome then s else cancelFetch s t k obj page r.code

def giveAll (s : State) (r : WalkResult) (as : List Asker) : State := as.foldl (fun s a => giveResult s r a) s

/-- Fill the L2 TLB of the cluster and the L1 TLBs of the cores whose groups asked; an engine uses the L2 TLB only (R148). -/
def fillTlbs (s : State) (cl : Nat) (e : TlbEntry) (as : List Asker) : State :=
  if cl = 0xFFFF then s
  else
    let c := s.cluster cl
    let s := s.setCluster cl { c with tlb := tlbAdd c.tlb e 4096 }
    let cores := (as.filterMap (fun a => match a with
      | .unit u _ => (s.galley? u.galley).bind Galley.core
      | _ => none)).dedup
    cores.foldl (fun s c => let x := s.core c; s.setCore c { x with tlb := tlbAdd x.tlb e 128 }) s

/-- A REPLAY_ALL has no walk left: each has ended, or was dropped with what asked for it. -/
def replayOver (s : State) (p : Packet) : Bool := p.opcode == 11 && p.walks.all (fun i => s.walks.all (fun w => w.id != i)) && !packetHeld s p

/-- The REPLAY_ALL packets that have no walk left complete (R155); one that a line holds back completes in a later round. -/
def endReplays (s : State) : State := (s.packets.filter (replayOver s)).foldl completePacket s

/-- A cluster's walker serves 32 walks at a time; the later ones wait for theirs to begin (R148). -/
def walkBegun (s : State) (w : Walk) : Bool :=
  w.cluster == 0xFFFF || ((s.walks.filter (fun x => x.cluster == w.cluster)).take 32).any (fun x => x.id == w.id)

/-- PAGE_WALK_DONE: the TLBs are filled, or the access finds the code it raises, or the page fault begins service. -/
def execPageWalkDone (i : Nat) (s : State) : Host.Outcome State Fault Refusal :=
  .next (
    match s.walks.find? (fun w => w.id == i) with
    | none => s
    | some w =>
      let va := w.va
      if s.walkHeld w.tenant w.ctx va || !walkBegun s w then s
      else
      let s := { s with walks := s.walks.filter (fun x => x.id != i) }
      let s := match (if w.cluster = 0xFFFF then walk s w.tenant w.ctx va else walkVia s w.cluster w.tenant w.ctx va) with
        | (.ok e, s) => giveAll (fillTlbs s w.cluster e w.askers) ⟨w.page, some e, 0⟩ w.askers
        | (.fail c, s) => giveAll s ⟨w.page, none, c.num⟩ w.askers
        | (.pageFault _ pte, s) =>
          if servable s w.tenant (Word.bit pte 9) then
            serviceFault s w.cluster w.tenant w.ctx va w.access (Word.bit pte 9) w.askers
          else giveAll s ⟨w.page, none, Code.translation.num⟩ w.askers
      endReplays s)

/-! ### First touch (R152) -/

/-- The leaf that a first touch swaps in: the page, V, LEAF, and W and TSO of the old entry; the software bits stay. -/
def touchedLeaf (pa old : Nat) : Nat :=
  old / 2 ^ 56 * 2 ^ 56 + pa + (if Word.bit old 6 then 64 else 0) + (if Word.bit old 5 then 32 else 0) + 3

/-- The accesses of a fault walk again. -/
def rewalk (s : State) (f : PFault) : Nat × State :=
  let (id, s) := s.fresh
  (id, { s with
    faults := s.faults.filter (fun x => x.id != f.id)
    walks := s.walks ++ [{ id := id, cluster := f.cluster, tenant := f.tenant, ctx := f.ctx, page := f.page, va := f.va, access := f.access,
                           askers := f.askers }] })

/-- The fault ends with a code for every access. -/
def failFault (s : State) (f : PFault) (c : Code) : State :=
  giveAll { s with faults := s.faults.filter (fun x => x.id != f.id) } ⟨f.page, none, c.num⟩ f.askers

/-- No free page: a fault-buffer entry with cause POOL_EMPTY. -/
def poolEmpty (s : State) (f : PFault) : State :=
  let (slot, s) := fbRecord s f.tenant (faultDie f.cluster)
    { va := f.va, ctx := f.ctx, cause := 2, access := f.access, cancel := false, cluster := f.cluster, joined := min f.joined 65535, seq := 0 }
  { s with faults := s.faults.map (fun x => if x.id = f.id then { x with firstTouch := false, slot := slot } else x) }

/-- Steps 2 to 5 with pool page `i`. -/
def touchPage (s : State) (f : PFault) (i : Nat) : State :=
  let c := s.ctx f.tenant f.ctx
  let pa := c.poolBase + 65536 * i
  let s := poolBit s c.poolMap i false
  if !(s.tenant f.tenant).spanIn pa 65536 then failFault s f .windowViolation
  else
    let s := s.finalizeSpan pa 65536
    let s := { s with mem := s.mem.zero pa 65536 }
    match walk s f.tenant f.ctx (f.page * 65536) with
    | (.pageFault pte v, s) =>
      if Word.bit v 9 then
        let s := s.writePhys ⟨0, pte⟩ (leBytes 8 (touchedLeaf pa v))
        match walk s f.tenant f.ctx (f.page * 65536) with
        | (.ok e, s) =>
          giveAll (fillTlbs { s with faults := s.faults.filter (fun x => x.id != f.id) } f.cluster e f.askers) ⟨f.page, some e, 0⟩ f.askers
        | (_, s) => (rewalk s f).2
      else (rewalk (poolBit s c.poolMap i true) f).2
    | (_, s) => (rewalk (poolBit s c.poolMap i true) f).2

/-- Words of a context's pool bitmap. -/
def poolWords (c : Ctx) : Nat := Word.ceilDiv c.poolPages 64

/-- The bitmap words of the pool lie in the tenant's windows. -/
def poolMapOk (s : State) (t k : Nat) : Bool :=
  let c := s.ctx t k
  (s.tenant t).spanIn c.poolMap (max 8 (8 * poolWords c))

/-- A search of the pool's bitmap waits: an engine owns a line of it (R178). -/
def poolHeld (s : State) (f : PFault) : Bool :=
  let c := s.ctx f.tenant f.ctx
  s.spanOwned ⟨0, c.poolMap⟩ (8 * poolWords c)

/-- A first touch waits: an engine owns a line of the entries on the page's walk or of the pool page, or a serial transaction has locked a
sector that it writes (R178, R208). -/
def touchHeld (s : State) (f : PFault) (i : Nat) : Bool :=
  let c := s.ctx f.tenant f.ctx
  let word : PTarget := ⟨0, c.poolMap + i / 64 * 8⟩
  let page : PTarget := ⟨0, c.poolBase + 65536 * i⟩
  let entry (t : PTarget) : Bool := s.spanLocked t 8
  s.walkHeld f.tenant f.ctx f.va || s.blocked none true word || s.spanOwned page 65536 || s.spanLocked page 65536 ||
    (match (walk s f.tenant f.ctx (f.page * 65536)).1 with
     | .pageFault pte _ => entry ⟨0, pte⟩
     | _ => false)

/-- FIRST_TOUCH: a pool page is taken, zero-filled and swapped in, or the pool is empty. -/
def execFirstTouch (i : Nat) (s : State) : Host.Outcome State Fault Refusal :=
  .next (
    match s.faults.find? (fun f => f.id == i && f.firstTouch) with
    | none => s
    | some f =>
      let c := s.ctx f.tenant f.ctx
      if !poolMapOk s f.tenant f.ctx then failFault s f .windowViolation
      else if poolHeld s f then s
      else
        match poolFind s c.poolMap c.poolPages (poolWords c) 0 with
        | (.error c, s) => failFault s f c
        | (.ok none, s) => poolEmpty s f
        | (.ok (some i), s') => if touchHeld s' f i then s else touchPage s' f i)

/-! ### REPLAY_ALL (R155) -/

/-- The fault's recorded entry has CANCEL set. -/
def cancelled (s : State) (f : PFault) : Bool :=
  match f.slot with
  | some i => ((((s.tenant f.tenant).bufs.getD (faultDie f.cluster) .reset).entries[i]?).map FbEntry.cancel).getD false
  | none => false

/-- End the faults: those cancelled raise TRANSLATION, the others walk again. The new walks are answered. -/
def replayFaults : List (PFault × Bool) → State → List Nat × State
  | [], s => ([], s)
  | (f, c) :: fs, s =>
    if c then replayFaults fs (failFault s f .translation)
    else
      let (w, s) := rewalk s f
      let (ws, s) := replayFaults fs s
      (w :: ws, s)

/-- REPLAY_ALL: the parked accesses of the tenant are taken, its fault buffers are cleared, and the accesses walk again. -/
def replayAct (p : PktIn) (s : State) : State :=
  let (k, s) := p.begin_ s none
  let t := p.q.owner
  let fs := (s.faults.filter (fun f => f.tenant == t && !f.firstTouch)).map (fun f => (f, cancelled s f))
  let s := s.setTenant t { s.tenant t with bufs := [] }
  let (ws, s) := replayFaults fs s
  if ws.isEmpty then completePacket s k
  else { s with packets := s.packets.map (fun x => if x.id = k.id then { k with walks := ws } else x) }

def execReplayAll (q : QId) (s : State) : Host.Outcome State Fault Refusal := .next (startPacket 11 q s replayAct)

end Sys2Proof.Machine
end

