-- ==== Sys2Proof/Machine/Round.lean ====
section
/-! DEFINITION. A round of the queue engine (R67): assignment of lanes, checking, and execution by ascending opcode. -/

namespace Sys2Proof.Machine

open Sys2Proof

/-! ### Assignment -/

/-- The queue of a key of the table. -/
def queueOf (i : Nat) : QId := ⟨i / 64, i % 64⟩

/-- A queue whose tenant has just set PARSE takes GATE := RP (R70). -/
def openGate (x : Queue) : Queue := if x.gateSet then { x with gate := x.rp, gateSet := false } else x

/-- The start of a round: packets of REPLAY_ALL and RESUME that are over complete, then gates, then STATE of every queue. -/
def beginRound (s : State) : State :=
  let s := endResumes (endReplays s)
  let s := { s with queues := s.queues.map (fun (p : Nat × Queue) => (p.1, openGate p.2)) }
  (s.queues.map (fun (p : Nat × Queue) => queueOf p.1)).foldl settle s

/-- A queue is runnable: enabled, not stopped, with a header there, and not blocked; a packet behind what blocks its queue
is still checked (R59). -/
def runnable (s : State) (q : QId) : Bool :=
  let x := s.queue q
  queueMapped s q && x.enable && x.state != .stopped && decide (16 ≤ avail s q) && !queueWaits s q && !ctxHolds s q &&
    (x.state != .blocked || !x.checked)

/-- Lanes filled so far, and the number after the queue that each owner gave last. -/
structure Lanes where
  lanes : List QId
  given : Tbl Nat
  deriving DecidableEq, Repr

/-- The next runnable queue of an owner, after the one it gave last. -/
def nextQueue (s : State) (a : Lanes) (owner : Nat) : Option QId :=
  ((List.range 64).map (fun i => (⟨owner, (a.given.getD owner 0 + i) % 64⟩ : QId))).find? (fun q => runnable s q && !a.lanes.contains q)

/-- One owner's turn in a pass. -/
def giveLane (s : State) (a : Lanes) (owner : Nat) : Lanes :=
  if 32 ≤ a.lanes.length then a
  else
    match nextQueue s a owner with
    | some q => ⟨a.lanes ++ [q], a.given.set owner ((q.q + 1) % 64)⟩
    | none => a

/-- Passes over the 17 owners. -/
def passes (s : State) : Nat → Lanes → Lanes
  | 0, a => a
  | n + 1, a => passes s n (((List.range 17).map (fun i => (s.qe.start + i) % 17)).foldl (giveLane s) a)

def assign (s : State) : Lanes := passes s 32 ⟨[], s.qe.given⟩

/-! ### Checking and execution -/

/-- The action of a packet type (Tables 3.8 and 3.9). -/
def packetAct (op : Nat) : PktIn → State → State :=
  match op with
  | 0 => nopAct
  | 1 => nopAct
  | 2 => waitAct
  | 3 => signalAct
  | 4 => loadAct
  | 5 => unloadAct
  | 6 => launchAct
  | 7 => graphPacket
  | 8 => patchAct
  | 9 => preemptAct
  | 10 => resumeAct
  | 11 => replayAct
  | _ => attestAct

/-- The opcode of a lane whose packet has passed its checks and lies before WP. -/
def laneOp (s : State) (q : QId) : Option Nat :=
  let x := s.queue q
  let h := Hdr.of (leNat (x.packet.take 16))
  if x.checked && x.state != .stopped && decide (16 * h.len ≤ avail s q) then some h.op else none

/-- One step of the execution part: the lanes that hold an opcode. -/
def runOp (lanes : List (QId × Nat)) (s : State) (op : Nat) : State :=
  (lanes.filter (fun l => l.2 == op)).foldl (fun s l => startPacket op l.1 s (packetAct op)) s

/-- QUEUE_ENGINE_ROUND. -/
def execQueueEngineRound (s : State) : Host.Outcome State Fault Refusal :=
  .next (
    let s := beginRound s
    let a := assign s
    if a.lanes.isEmpty then s
    else
      let s := { s with qe := ⟨(s.qe.start + 1) % 17, a.given⟩ }
      let s := a.lanes.foldl checkPacket s
      let ops := a.lanes.filterMap (fun q => (laneOp s q).map (fun op => (q, op)))
      (List.range 13).foldl (runOp ops) s)

end Sys2Proof.Machine
end

