-- ==== Sys2Proof/Machine/Hosts.lean ====
section
/-! DEFINITION. Accesses to device memory from the host (R22, R181) and from peer modules (R182). -/

namespace Sys2Proof.Machine

open Sys2Proof

/-- A span as pieces that lie in one 16-byte sector each; `fuel` is at least its length. -/
def sectorParts : Nat → Nat → Nat → List (Nat × Nat)
  | 0, _, _ => []
  | fuel + 1, pa, n =>
    if n = 0 then []
    else
      let k := min n (16 - pa % 16)
      (pa, k) :: sectorParts fuel (pa + k) (n - k)

/-- An outside access waits for a line that an engine owns (R178), and a write for a sector locked in serial mode (R208). -/
def outsideWaits (s : State) (write : Bool) (pa n : Nat) : Bool :=
  (sectorParts n pa n).any (fun p => s.engineOwned p.1 || (write && s.lockedBy none ⟨0, p.1⟩ && (s.lock? ⟨0, p.1⟩).isSome))

/-- The access is outside device memory (R140): there is no such address. -/
def outside (pa n : Nat) (s : State) (f : State → State) : Host.Outcome State Fault Refusal :=
  if deviceBytes < pa + n then .fault (.noSuchAddress pa)
  else if s.pkg.open_ then .next (f s)
  else .next s

/-- Read sector by sector at the home slices. -/
def outsideRead : List (Nat × Nat) → State → List Byte × State
  | [], s => ([], s)
  | p :: ps, s =>
    let (bs, s) := s.readFor none ⟨0, p.1⟩ p.2
    let (rest, s) := outsideRead ps s
    (bs ++ rest, s)

def outsideWriteAct (pa : Nat) (data : List Byte) (s : State) : State :=
  if outsideWaits s true pa data.length || s.recordPoisoned ⟨0, pa⟩ data.length then s else s.writePhys ⟨0, pa⟩ data

/-- The bytes read go back in `hostRet`; an uncorrectable error gives none. -/
def outsideReadAct (pa n : Nat) (s : State) : State :=
  if outsideWaits s false pa n then s
  else if s.poisoned ⟨0, pa⟩ n || s.recordPoisoned ⟨0, pa⟩ n then { s with hostRet := [] }
  else
    let (bs, s) := outsideRead (sectorParts n pa n) s
    { s with hostRet := bs }

/-- An atomic of an AOP of Table 9.1; the old bytes go back in `hostRet`. -/
def outsideAtomicAct (aop pa : Nat) (signed ftz : Bool) (rm v c : Nat) (s : State) : State :=
  let n := aopBytes (aop / 8 % 8)
  if pa % n ≠ 0 then s
  else if outsideWaits s true pa n then s
  else if s.poisoned ⟨0, pa⟩ n || s.recordPoisoned ⟨0, pa⟩ n then { s with hostRet := [] }
  else
    let (old, s) := s.atomicSeen ⟨0, pa⟩ aop rm signed ftz v c
    { s with hostRet := leBytes n old }

/-- An access through the aperture of the physical function, whose offset names the device physical address of that number: one past its
size reaches nothing (R22; log 22). -/
def inAperture (off n : Nat) (s : State) (f : State → State) : Host.Outcome State Fault Refusal :=
  if s.pkg.open_ ∧ off + n ≤ s.pkg.aperture * 2 ^ 30 ∧ off + n ≤ deviceBytes then .next (f s) else .next s

/-- A configuration read of the physical function: none completes before the link is up, and until step 3 has passed or failed it gets
Request Retry Status (Table 1.6). -/
def configRead (s : State) (bs : List Byte) : State :=
  if !s.pkg.linkUp then s
  else if s.pkg.retriesConfig then { s with hostRet := [], hostRetry := true }
  else { s with hostRet := bs, hostRetry := false }

/-- Bytes of the configuration space: the manual gives it no layout, so each is a free value. -/
def configBytes (s : State) (n : Nat) : List Byte × State :=
  ((List.range n).map (fun i => Config.freeByte (s.choices + i)), { s with choices := s.choices + n })

/-- The aperture takes a size from 1 GiB to 512 GiB, a power of two (Table 1.6). -/
def setAperture (s : State) (gib : Nat) : State :=
  if !s.pkg.linkUp ∨ s.pkg.retriesConfig ∨ !((List.range 10).map (fun i => 2 ^ i)).contains gib then s
  else { s with pkg := { s.pkg with aperture := gib } }

/-- HOST_WRITE; of the configuration space it is the aperture's size alone that the manual lets the host change. -/
def execHostWrite (x : HostAt) (data : List Byte) (s : State) : Host.Outcome State Fault Refusal :=
  match x with
  | .mem pa => outside pa data.length s (outsideWriteAct pa data)
  | .bar4 off => inAperture off data.length s (outsideWriteAct off data)
  | .barSize => .next (setAperture s (leNat data))
  | .config _ => .next s

/-- HOST_READ. -/
def execHostRead (x : HostAt) (n : Nat) (s : State) : Host.Outcome State Fault Refusal :=
  match x with
  | .mem pa => outside pa n s (outsideReadAct pa n)
  | .bar4 off => inAperture off n s (outsideReadAct off n)
  | .barSize => .next (configRead s (leBytes n s.pkg.aperture))
  | .config _ =>
    let (bs, s) := configBytes s n
    .next (configRead s bs)

/-- The operation number of a host atomic (Table 9.1). -/
def hostOpNum : HostOp → Nat
  | .fetchAdd => 0
  | .swap => 6
  | .cas => 7

/-- HOST_ATOMIC: FetchAdd, Swap and CAS of 32 and 64 bits, naturally aligned; no other size is performed (R22). -/
def execHostAtomic (op : HostOp) (x : HostAt) (size : Nat) (v c : Word) (s : State) : Host.Outcome State Fault Refusal :=
  let act (pa : Nat) (s : State) : State :=
    if size = 4 then outsideAtomicAct (hostOpNum op) pa false false 0 v.toNat c.toNat s
    else if size = 8 then outsideAtomicAct (8 + hostOpNum op) pa false false 0 v.toNat c.toNat s
    else s
  match x with
  | .mem pa => outside pa size s (act pa)
  | .bar4 off => inAperture off size s (act off)
  | .barSize | .config _ => .next s

/-- An exact add from a peer accumulates in an entry here (R186, R192). Its context is none of this module's: tenant 0xFF stands for
the peers' (log 17). One that needs the slots of another entry performs once the spill is complete; one that faults changes nothing. -/
def peerExactAdd (kind pa v : Nat) : Nat → State → State
  | 0, s => s
  | fuel + 1, s =>
    match exactAdd s 0xFF 0 kind pa v with
    | .done s => s
    | .fail _ s => s
    | .wait s => peerExactAdd kind pa v fuel (s.completeSpill (sliceOf pa))

/-- An exact add of Table 9.1. -/
def aopExact (aop : Nat) : Bool := decide (2 ≤ aop / 8 % 8) && decide (aop / 8 % 8 ≤ 6) && aop % 8 == 1

/-- An exact add from a peer; it is a no-return atomic, and nothing goes back. -/
def outsideExactAct (aop pa v : Nat) (s : State) : State :=
  let n := aopBytes (aop / 8 % 8)
  if pa % n ≠ 0 ∨ outsideWaits s true pa n ∨ s.poisoned ⟨0, pa⟩ n ∨ s.recordPoisoned ⟨0, pa⟩ n then s
  else peerExactAdd (aop / 8 % 8) pa v 40 { s with hostRet := [] }

/-- PEER_ACCESS. -/
def execPeerAccess (a : PeerAcc) (s : State) : Host.Outcome State Fault Refusal :=
  match a with
  | .read pa n => outside pa n s (outsideReadAct pa n)
  | .write pa data => outside pa data.length s (outsideWriteAct pa data)
  | .atomic aop pa signed ftz rm v c =>
    outside pa (aopBytes (aop / 8 % 8)) s (fun s =>
      if !aopListed aop then s
      else if aopExact aop then outsideExactAct aop pa v.toNat s
      else outsideAtomicAct aop pa signed ftz rm v.toNat c.toNat s)

end Sys2Proof.Machine
end

