-- ==== Sys2Proof/Machine/Bind.lean ====
section
/-! DEFINITION. The instruction a unit stands at (R131): one of its Laold block, or a native word with what the word's counterpart gives
it beyond its fields (R257, R266; log 9). -/

namespace Sys2Proof.Machine

open Sys2Proof

/-! ### The Laold block -/

/-- The queue at whose head an opcode issues; a control word issues at A. -/
def issueQueue (op : Nat) : Nat := if opQueue op = 3 then 0 else opQueue op

/-- The words that follow `n` instructions. -/
def skipInstrs : Nat → List Nat → Option (List Nat)
  | 0, ws => some ws
  | n + 1, ws =>
    match decode ws with
    | some (_, ws) => skipInstrs n ws
    | none => none

/-- Instruction `n` of a block's words. -/
def instrAt (words : List Nat) (n : Nat) : Option Instr :=
  match parseHdr words with
  | none => none
  | some (_, ws) =>
    match skipInstrs n ws with
    | none => none
    | some ws => (decode ws).map Prod.fst

/-! ### The counterpart of a native word -/

/-- The word index at which a queue stands. -/
def NativeRun.offset (n : NativeRun) (q : Nat) : Nat := if q = 0 then n.aoff else if q = 1 then n.xoff else n.soff

/-- How many earlier words of the body have the queue, opcode, type and modifiers of the word `v`. -/
def NativeRun.ordinal (n : NativeRun) (off v : Nat) : Nat :=
  (n.code.words.take off).countP (fun w => w / 2 ^ 36 % 2 ^ 24 == v / 2 ^ 36 % 2 ^ 24)

/-- A Laold form has the operation, type and modifiers of a native word. -/
def alike (r x : Raw) : Bool := x.op == r.op && x.w.ty == r.w.ty && x.w.mod == r.w.mod

/-- The Laold instruction of a native word, with its index: that of its concordance entry, else the like one of the same ordinal from the
body's entry on. -/
def counterpart (is : List Instr) (start : Nat) (ent : Option ConcEnt) (nth : Nat) (r : Raw) : Option (Nat × Raw) :=
  let at_ (i : Nat) : Option (Nat × Raw) := ((is[i]?).bind Instr.toRaw).bind (fun x => if alike r x then some (i, x) else none)
  match ent.bind (fun c => at_ c.instr) with
  | some x => some x
  | none => (((List.range is.length).drop start).filterMap at_)[nth]?

/-- The types of the values that stand before instruction `i` of a block. -/
def typesAt (argTys : List Ty) (is : List Instr) (i : Nat) : TyEnv :=
  (is.take i).foldl (fun v x =>
    match x.toRaw with
    | none => v
    | some r =>
      match opRow r.op with
      | none => v
      | some row => { v with vals := (resultTys v row r).reverse ++ v.vals }) ⟨argTys, [], 0⟩

/-- An operand that neither the word nor a concordance entry gives: a value the manual leaves open (log 9). -/
def NativeRun.freeOpnd (n : NativeRun) (k : Nat) : Opnd := .imm (n.unwritten (2 ^ 18 + k))

def NativeRun.freeX4 (n : NativeRun) (k : Nat) : X4 := ⟨n.freeOpnd k, n.freeOpnd (k + 1), n.freeOpnd (k + 2), n.freeOpnd (k + 3)⟩

/-- Extension words of a word whose block holds no counterpart of it. -/
def NativeRun.freeExt (n : NativeRun) : ExtCode → Ext
  | .o1 => .ops [n.freeX4 0]
  | .o2 => .ops [n.freeX4 0, n.freeX4 4]
  | .l1 => .lit (n.unwritten (2 ^ 18))
  | .lo => .litOps (n.unwritten (2 ^ 18)) (n.freeX4 1)
  | _ => .none

/-- An extension operand as the word takes it: values and arguments of the block are known only at a concordance entry. -/
def NativeRun.extOpnd (n : NativeRun) (live : Bool) (k : Nat) (o : Opnd) : Opnd :=
  match o with
  | .dist _ => if live then o else n.freeOpnd k
  | .arg _ => if live then o else n.freeOpnd k
  | o => o

def NativeRun.extX4 (n : NativeRun) (live : Bool) (k : Nat) (x : X4) : X4 :=
  ⟨n.extOpnd live k x.a, n.extOpnd live (k + 1) x.b, n.extOpnd live (k + 2) x.c, n.extOpnd live (k + 3) x.d⟩

/-- The extension words of a word, from its counterpart. -/
def NativeRun.ext (n : NativeRun) (code : ExtCode) (live : Bool) (x : Option Raw) : Ext :=
  match x.map Raw.ext with
  | some (.ops xs) => .ops (xs.mapIdx (fun i y => n.extX4 live (4 * i) y))
  | some (.litOps l y) => .litOps l (n.extX4 live 0 y)
  | some e => e
  | none => n.freeExt code

/-! ### Immediates (20, the W2 body; log 9) -/

/-- An operand where the counterpart has an immediate is the number in its register, if it is one that the place takes. -/
def NativeRun.bound (n : NativeRun) (lead : Nat) (s : Slot) (o : Opnd) : Option Opnd :=
  match o with
  | .reg r =>
    let v := n.value r lead 32
    match s.kind with
    | .imm max => if v ≤ max then some (.imm v) else none
    | .imm08 => if v = 0 ∨ v = 8 then some (.imm v) else none
    | .psel => if (selector v).isSome then some (.imm v) else none
    | _ => some o
  | _ => some o

/-- The main word with its immediates, if the modifiers then suit it. -/
def NativeRun.boundMain (n : NativeRun) (lead : Nat) (row : OpRow) (w : Main) : Option Main :=
  let f (i : Nat) (o : Opnd) : Option Opnd := match row.slots[i]? with | some s => n.bound lead s o | none => some o
  match f 0 w.a, f 1 w.b, f 2 w.c with
  | some a, some b, some c => let w := { w with a := a, b := b, c := c }; if modOk row w then some w else none
  | _, _, _ => none

/-! ### Transfers (R266) -/

/-- The opcodes that leave a block. -/
def leavesBlock (op : Nat) : Bool := decide (1 ≤ op) && decide (op ≤ 7)

/-- The exit records that a transfer names, by their numbers; a `brsw` with `k` cases has theirs after its default's (log 9). -/
def exitFields (r : Raw) (k : Nat) : List Nat :=
  let num (o : Opnd) : Nat := match o with | .reg i => i | _ => 511
  match r.op with
  | 1 => [num r.w.a]
  | 2 => [num r.w.b, num r.w.c]
  | 3 => (List.range (k + 1)).map (fun i => num r.w.b + i)
  | 4 => [num r.w.b]
  | 5 => [num r.w.b]
  | 6 => [num r.w.a]
  | _ => []

/-- The operand that a record of an exit passes, the thread's argument `k`; one of no type passes a constant, which takes the type that
its place declares (R314, R315; log 9). -/
def passedOpnd (cap : ConcVal → TVal) (k : Nat) (v : ConcVal) : Opnd :=
  if v.ty = .none then
    match prescribed v.descs with
    | some d => if d / 2 ^ 29 = 5 then .pool (d % 2 ^ 20) else .imm (BitVec.ofNat 64 ((cap { v with ty := .n64 }).val.lane .n64 1 0 0)).toInt
    | none => .imm 0
  else .arg k

/-- The targets of exit records, with the values that they pass one after another as the thread's arguments from `k` on. -/
def exitTargets (cap : ConcVal → TVal) : Nat → List ExitRec → List Target × List TVal
  | _, [] => ([], [])
  | k, x :: xs =>
    let (ts, vs) := exitTargets cap (k + x.vals.length) xs
    (⟨x.target, x.vals.mapIdx (fun i v => passedOpnd cap (k + i) v)⟩ :: ts, x.vals.map cap ++ vs)

/-- The results of a `ret`, the values of its exit record. -/
def retWords (w : Main) (os : List Opnd) : Main × List X4 :=
  let o (i : Nat) : Opnd := if i < w.mod then os.getD i (.arg i) else .none
  ({ w with a := o 0, b := o 1, c := o 2 },
    (List.range (rtWords w.mod)).map (fun i => ⟨o (3 + 4 * i), o (4 + 4 * i), o (5 + 4 * i), o (6 + 4 * i)⟩))

/-- Cases and reconvergence block of a counterpart. -/
def casesOf (x : Option Raw) : Nat := match x.map Raw.ext with | some (.sw _ _ cs) => cs.length | _ => 0

def reconvOf (n : NativeRun) (x : Option Raw) : Nat :=
  match x.map Raw.ext with
  | some (.c2 rc _ _) => rc
  | some (.sw rc _ _) => rc
  | _ => n.unwritten (2 ^ 18)

/-- A transfer with the targets of its exit records; `call` takes the function that its counterpart names. -/
def transferWith (n : NativeRun) (r : Raw) (x : Option Raw) (ts : List Target) : Option Raw :=
  match r.op, ts with
  | 1, [t] => some { r with ext := .target t }
  | 2, [t, u] => some { r with ext := .c2 (reconvOf n x) t u }
  | 3, t :: us => some { r with ext := .sw (reconvOf n x) t us }
  | 4, [t] => some { r with w := { r.w with a := ((x.map Raw.w).map Main.a).getD (n.freeOpnd 0) }, ext := .target t }
  | 5, [t] => some { r with ext := .target t }
  | 6, [t] => let (w, xs) := retWords r.w t.args; some { r with w := w, ext := .ops xs }
  | 7, [] => some r
  | _, _ => none

/-! ### The next instruction -/

/-- What a unit's next word is: an instruction with its thread as the instruction finds it, a native transfer that must wait for store
pairs, or a word that is no instruction. -/
inductive Fetch where
  | instr (i : Instr) (th : Thread)
  | pairs
  | bad (c : Code)
  | idle
  deriving DecidableEq, Repr

/-- The lane whose register gives an immediate: the lowest active one. -/
def leadOf (l : Launch) (g : Galley) (th : Thread) : Nat :=
  match lanesIn (activeLanes l g th.mask) with
  | x :: _ => x
  | [] => (lanesIn th.mask).headD 0

/-- The counterpart of a native word at offset `off` of a body of translation `x`, entered at instruction `start`, and its concordance
entry. -/
def NativeRun.likeAt (n : NativeRun) (is : List Instr) (start off v : Nat) (r : Raw) : Option ConcEnt × Option (Nat × Raw) :=
  let ent := n.code.conc.find? (fun c => c.noff == off)
  (ent, counterpart is start ent (n.ordinal off v) r)

/-- The type of the operand that a word does not decide: that of its counterpart's, in the place of the first operand, or of the index
of a `lea` (log 9). -/
def undecidedTy (argTys : List Ty) (is : List Instr) (like : Option (Nat × Raw)) (ty : Ty) : Ty :=
  match like with
  | none => ty
  | some (i, y) =>
    let env := typesAt argTys is i
    let o := if y.op = 0x06B then y.w.b else y.w.a
    match env.tyOf o with
    | some t => t
    | none => if y.op = 0x06B then .i64 else if y.op = 0x1F2 then (env.tyOf y.w.b).getD .f16x2 else ty

/-- The opcodes with an operand that their words do not decide: `cvti`, `lea`, `cvt` and `cvtef`. -/
def undecidedOp (op : Nat) : Bool := op == 0x06A || op == 0x06B || op == 0x0E0 || op == 0x0E1

/-- The type of the operand that the word `v` of a thread's native queue does not decide. -/
def srcTy (s : State) (th : Thread) (n : NativeRun) (off v : Nat) : Ty :=
  match if undecidedOp (v / 2 ^ 48 % 1024) then chifinRaw v else none with
  | none => .none
  | some r =>
    let x := th.body.bind s.xlat?
    let is := (blockInstrs ((x.map Xlat.words).getD [])).getD []
    undecidedTy ((x.map Xlat.argTys).getD []) is (n.likeAt is th.shape.instr off v r).2 r.w.ty

/-- The registers of an operand and of a second result that the word does not decide keep to Table 12.1 once their type is known
(R251). -/
def boundRegs (b : Nat) (src : Ty) (v : Nat) : Bool :=
  bankOk b (wordFields src v) &&
  (match chifinRaw v with
   | none => true
   | some r =>
     match opRow r.op, r.w.nat with
     | some row, some n =>
       (resultRegs row r.w.ty src.width n.d).all nativeRegOk &&
         ((natFields row r.w.ty n.queue).zip [r.w.a, r.w.b, r.w.c]).all (fun p =>
           match p.1, p.2 with
           | .reg bits _, .reg k => bits != 0 || natAligned src.width k
           | _, _ => true)
     | _, _ => true)

/-- The counterpart's result has no use but the condition of branches of its block (R103). -/
def loneUse (words : List Nat) (is : List Instr) (like : Option (Nat × Raw)) : Bool :=
  match like with
  | some (i, _) => branchOnly (valuesBefore words i) (valuesBefore words i + 1) (is.drop (i + 1))
  | none => false

/-- A native word of a counterpart, as the instruction that it stands for; `none` where it is none. -/
def bindWord (s : State) (l : Launch) (g : Galley) (core : Nat) (th : Thread) (n : NativeRun) (r : Raw) (v : Nat) : Option (Instr × Thread) :=
  match opRow r.op with
  | none => none
  | some row =>
    let x := th.body.bind s.xlat?
    let words := (x.map Xlat.words).getD []
    let pool := (x.map Xlat.pool).getD []
    let spad := (s.core core).spad
    let is := (blockInstrs words).getD []
    let off := n.offset n.turn
    let (ent, like) := n.likeAt is th.shape.instr off v r
    let live : Bool := match ent, like with | some c, some y => c.instr == y.1 | _, _ => false
    let raw := like.map Prod.snd
    let th := { th with native := some { n with src := undecidedTy ((x.map Xlat.argTys).getD []) is like r.w.ty, lone := loneUse words is like } }
    let th := match ent with
      | some c => if row.ext = .e0 then { th with instr := c.instr } else n.captureAt spad words pool l.g g.first th c
      | none => th
    if leavesBlock r.op then
      match (exitFields r (casesOf raw)).mapM (fun k => n.code.exits[k]?) with
      | none => none
      | some recs =>
        let (ts, vs) := exitTargets (n.capture spad pool l.g g.first) 0 recs
        match (transferWith n r raw ts).bind Raw.toInstr with
        | some i => some (i, if recs.isEmpty then th else { th with args := vs })
        | none => none
    else
      match n.boundMain (leadOf l g th) row r.w with
      | none => none
      | some w => ({ r with w := w, ext := n.ext row.ext live raw } : Raw).toInstr.map (fun i => (i, th))

/-- The instruction of the native word `v` at a queue's head; every breach raises NATIVE_FORMAT (R251, R255, R257). -/
def fetchNative (s : State) (l : Launch) (g : Galley) (core : Nat) (th : Thread) (n : NativeRun) (v : Nat) : Fetch :=
  if !nativeWordOk (revOf (dieOf core)) (budgetRegs (l.budgetOn core)) v then .bad .nativeFormat
  else
    let off := n.offset n.turn
    let at_ : Thread := match n.code.conc.find? (fun c => c.noff == off) with | some c => { th with instr := c.instr } | none => th
    match chifinOnly v with
    | some i => .instr i at_
    | none =>
      match chifinRaw v with
      | none => .bad .nativeFormat
      | some r =>
        if leavesBlock r.op && n.pairOwed then .pairs
        else if !boundRegs (budgetRegs (l.budgetOn core)) (srcTy s th n off v) v then .bad .nativeFormat
        else
          match bindWord s l g core th n r v with
          | some (i, th) => .instr i th
          | none => .bad .nativeFormat

/-- The word at a queue's head issues there: its own queue's, or a control word on which all three queues stand. -/
def NativeRun.headAt (n : NativeRun) (q : Nat) : Option Nat :=
  match n.wordAt q with
  | none => none
  | some w =>
    let qf := w / 2 ^ 58 % 4
    if qf = q then some w
    else if qf = 3 ∧ q = 0 ∧ n.aoff = n.xoff ∧ n.aoff = n.soff then some w
    else none

/-- The next instruction of a unit: from the word at the head of the queue in turn where it runs a native body, else from its block. -/
def fetch (s : State) (l : Launch) (g : Galley) (core : Nat) (th : Thread) : Fetch :=
  match th.native with
  | some n =>
    match n.headAt n.turn with
    | some v => fetchNative s l g core th n v
    | none => .idle
  | none =>
    match th.body.bind s.xlat? with
    | none => .idle
    | some x =>
      match instrAt x.words th.instr with
      | some i => .instr i th
      | none => .bad .codeFormat

end Sys2Proof.Machine
end

