-- ==== Sys2Proof/Machine/Issue.lean ====
section
/-! DEFINITION. Issue (R131 to R136): the end of waits (Table 6.2), the candidates of a queue, the leader and its companions. -/

namespace Sys2Proof.Machine

open Sys2Proof

/-! ### The end of a wait -/

/-- The condition that parks a thread no longer holds. Waits that an event ends are over only then. -/
def waitOver (s : State) (l : Launch) (g : Galley) (core : Nat) (u : UnitId) (th : Thread) : Bool :=
  let x := s.core core
  let me : Option GroupRef := if g.count = 1 then some ⟨l.id, g.first⟩ else none
  let grp := s.group l.id g.first
  match th.wait with
  | .none => true
  | .mem => s.walks.all (fun w => !w.askers.any (Asker.same (.unit u 0)))
  | .fault => s.faults.all (fun w => !w.askers.any (Asker.same (.unit u 0)))
  | .phase p => (l.domains.getD (l.domainOf g.first) .empty).phase != p
  | .queueSpace q n => decide (n ≤ 64 - queueCount (x.queue q))
  | .queueData q n => decide (n ≤ queueCount (x.queue q))
  | .batch b => !(grp.unfinished s).any (fun y => decide (y.1 ≤ b))
  | .batchRoom => decide ((grp.unfinished s).length < 16)
  | .counter tgt pa target met => met || (!s.blocked me false ⟨tgt, pa⟩ && decide (target ≤ leNat (s.readFor me ⟨tgt, pa⟩ 8).1))
  | .seqSlot k => match x.seqs[k]? with | some q => q.run.isNone | none => true
  | .ringIdle k => !x.produced k && x.mats.all (fun m => !m.names k)
  | .rangeRoom => decide ((s.held core).length < 64)
  | .rangeHeld i => !s.heldBehind i
  | .slots rings n => rings.all (fun k => decide (n ≤ (x.rings.getD k .empty).full - x.claimed k))
  | .energy cost =>
    let c := s.ctx l.tenant l.ctx
    c.enUnlimited || (c.energy.head?.map EnergyPark.unit == some u && decide (cost ≤ c.enBudget))
  | .tile t => x.mats.all (fun m => matTD m.lit != t)
  | .lines ts write => ts.all (fun t => !s.blocked me write t)
  | .tileConv record tile =>
    !s.relayouts.any (fun r => r.tenant == l.tenant && r.ctx == l.ctx && r.record.va == record && r.active.any (fun a => a.tile == tile))
  | .grant => me.isSome && s.serial.holder == me
  | .fbar => s.icinvs.all (fun y => !(y.launch == l.id && decide (y.first < g.first + g.count) && decide (g.first < y.first + y.count)))
  | .drain => !galleyOwes s g
  | .pairs => match th.native with | some n => !n.pairOwed | none => true
  | .txUnits beg => meetUnits g grp.tx u beg != .wait
  | _ => false

/-- A queue of a native unit stands for a stop of its context: A at its safepoint, the others once they have issued every word below it
(R268, R271). -/
def queueStands (s : State) (l : Launch) (g : Galley) (q : Nat) (th : Thread) (n : NativeRun) : Bool :=
  ((s.ctx l.tenant l.ctx).state == .fatal || !txOpen s l g) &&
    (match n.entryHere with
     | none => th.wait != .none
     | some c =>
       if q = 0 then true
       else decide (nextWord q n.code.words (if q = 1 then c.xoff else c.soff) 0 ≤ n.offset q))

/-- A wait that parks A, X and S (Table 6.2, R412). -/
def Wait.all : Wait → Bool
  | .fault => true
  | .stopped => true
  | .xlate => true
  | .reconv => true
  | .barrier _ _ => true
  | .join => true
  | .nap => true
  | _ => false

/-- A wait of one unit that parks its whole group, or galley: a page fault in service, and a `nap` (R122, R351, R412, R420). -/
def Wait.group : Wait → Bool
  | .fault => true
  | .nap => true
  | _ => false

/-- Some unit of the galley waits for what parks the whole of it. -/
def groupHeld (s : State) (l : Launch) (g : Galley) (core : Nat) : Bool :=
  g.units.any (fun x => x.2.wait.group && !waitOver s l g core x.1 x.2)

/-- A unit may issue at a queue: its wait and those that park its whole group are over, and it does not stand for a stop of its context
(R88, R92). Any other wait of a native unit parks the A queue alone (Table 6.2). -/
def mayIssue (s : State) (l : Launch) (g : Galley) (core q : Nat) (u : UnitId) (th : Thread) : Bool :=
  let stop := (s.ctx l.tenant l.ctx).stopping
  !groupHeld s l g core &&
  match th.native with
  | none => waitOver s l g core u th && !(stop && unitStands s l g th)
  | some n => ((q != 0 && !th.wait.all) || waitOver s l g core u th) && !(stop && queueStands s l g q th n)

/-! ### Native heads (R252, R254, R255) -/

/-- The heads of load queues that a word reads have arrived. -/
def NativeRun.readsReady (n : NativeRun) (src : Ty) (w : Nat) : Bool :=
  (readRegs src w).all (fun k => !natHead k || n.headReady (k - 480))

/-- The token counters that a word's wait bits name are above 0. -/
def NativeRun.tokensReady (n : NativeRun) (q w : Nat) : Bool :=
  let (inN, inP, _, _) := tokenEdges q
  (!Word.bit w 63 || n.tokens.getD inN 0 != 0) && (!Word.bit w 62 || n.tokens.getD inP 0 != 0)

/-- The load queue that a load's destination names has room for its result. -/
def NativeRun.roomFor (n : NativeRun) (w : Nat) : Bool :=
  match chifinRaw w with
  | none => true
  | some r =>
    match opRow r.op, r.w.nat with
    | some row, some i =>
      !natHead i.d || !n.queueFull (i.d - 480) (match row.res with | .t :: _ => r.w.ty.width | .fix t :: _ => t.width | _ => 32)
    | _, _ => true

def NativeRun.ready (s : State) (th : Thread) (n : NativeRun) (q : Nat) : Bool :=
  match n.headAt q with
  | none => false
  | some w => n.readsReady (srcTy s th n (n.offset q) w) w && n.roomFor w && (w / 2 ^ 58 % 4 == 3 || n.tokensReady q w)

/-! ### Candidates (R131) -/

/-- A matrix operation. -/
def matrixOp (op : Nat) : Bool := decide (0x1C8 ≤ op) && decide (op ≤ 0x1CB)

/-- Throttle level 1 holds the matrix issue of a core's press pair in this cycle: one of four, and above 750 W/cm² one of two (R26; log
22). -/
def pairHeld (s : State) (core : Nat) : Bool :=
  let f := (s.die (dieOf core)).flux.getD (core / 2) ⟨0, 0, false, false⟩
  f.acts && (if f.high then s.pkg.clock % 2 == 1 else s.pkg.clock % 4 == 3)

/-- The opcode at the head of a unit's queue. -/
def headOp (s : State) (th : Thread) (q : Nat) : Option Nat :=
  match th.native with
  | some n => (n.headAt q).map (fun w => w / 2 ^ 48 % 1024)
  | none => ((th.body.bind s.xlat?).bind (fun x => instrAt x.words th.instr)).bind (fun i => i.toRaw.map Raw.op)

/-- A unit's next instruction issues at a queue; words that are none stand at A. -/
def standsAt (s : State) (core : Nat) (th : Thread) (q : Nat) : Bool :=
  (match headOp s th q with | some op => !matrixOp op || !pairHeld s core | none => true) &&
  (match th.native with
   | some n => n.ready s th q
   | none => (th.body.bind s.xlat?).isSome && q == (match headOp s th q with | some op => issueQueue op | none => 0))

/-- A ready candidate: its unit, age, column, and the place in its translation. -/
structure Cand where
  u     : UnitId
  age   : Nat
  col   : Nat
  pack  : Bool
  place : CodePlace
  deriving DecidableEq, Repr

/-- Lane columns of a core for a launch: L / G (R124). -/
def columns (l : Launch) (core : Nat) : Nat := max 1 (lanesOf core / l.g)

/-- A unit is ready at a queue. -/
def readyAt (s : State) (l : Launch) (g : Galley) (core : Nat) (x : UnitId × Thread) (q : Nat) : Bool :=
  standsAt s core x.2 q && mayIssue s l g core q x.1 x.2

/-- What represents a path: the lowest item that is not parked, which runs alone (R108, R136), or the path itself. -/
def running (s : State) (l : Launch) (g : Galley) (core i : Nat) : Option (UnitId × Thread) :=
  (g.units.filter (fun x => x.1.path == i)).find? (fun x => [0, 1, 2].any (readyAt s l g core x))

/-- Where a unit stands in its translation at a queue: a native word's index and 1, or the instruction's. -/
def placeAt (q : Nat) (th : Thread) : CodePlace :=
  match th.native with
  | some n => (th.body, th.shape, 0, n.offset q + 1)
  | none => (th.body, th.shape, th.instr, 0)

/-- The ready candidates of one resident galley at a queue. -/
def galleyCands (s : State) (core q : Nat) (g : Galley) : List Cand :=
  match s.launch? g.launch with
  | none => []
  | some l =>
    let wide := decide (lanesOf core < l.g)
    (List.range g.paths.length).filterMap (fun i =>
      match running s l g core i with
      | none => none
      | some x =>
        if readyAt s l g core x q then
          some { u := x.1, age := g.age, col := g.slot % columns l core, pack := decide (g.count = 1) && x.1.item.isNone && !wide,
                 place := placeAt q x.2 }
        else none)

/-- Insert by age, earlier ones first among equals. -/
def insertAge (c : Cand) : List Cand → List Cand
  | [] => [c]
  | x :: xs => if c.age < x.age then c :: x :: xs else x :: insertAge c xs

def sortAge (cs : List Cand) : List Cand := cs.foldl (fun r c => insertAge c r) []

/-- The ready candidates of a queue in order of age. -/
def candidates (s : State) (core q : Nat) : List Cand :=
  sortAge ((s.galleys.filter (fun g => g.core == some core)).flatMap (galleyCands s core q))

/-! ### Leader and companions (R132, R133) -/

/-- The path of a galley of two paths that issued last at a queue. -/
def Core.lastPath (x : Core) (g q : Nat) : Option Nat := (x.last.find? (fun e => e.1 == g && e.2.1 == q)).map (fun e => e.2.2)

def Core.setLast (x : Core) (g q p : Nat) : Core :=
  { x with last := (g, q, p) :: x.last.filter (fun e => !(e.1 == g && e.2.1 == q)) }

/-- While a galley has one path, none of two has issued yet (R132). -/
def Core.clearLast (x : Core) (g : Nat) : Core := { x with last := x.last.filter (fun e => e.1 != g) }

/-- The oldest candidate; of the two paths of one group the one that did not issue last. -/
def leaderOf (x : Core) (q : Nat) : List Cand → Option Cand
  | [] => none
  | c :: cs =>
    match cs.find? (fun d => d.u.galley == c.u.galley) with
    | some d => if x.lastPath c.u.galley q = some c.u.path then some d else some c
    | none => some c

/-- The companions of a leader, in ascending age, in columns not yet used. -/
def companions (lead : Cand) : List Nat → List Cand → List Cand
  | _, [] => []
  | used, c :: cs =>
    if c.u ≠ lead.u ∧ c.pack ∧ !used.contains c.col ∧ c.place = lead.place then c :: companions lead (c.col :: used) cs
    else companions lead used cs

/-- What takes the place of a companion that parks when it would issue: the oldest other ready candidate of its column that stands at the
slot's place (R133). -/
def nextCompanion (s : State) (k : IssueSlot) (u : UnitId) : Option Cand :=
  match s.galley? u.galley with
  | none => none
  | some g =>
    match s.launch? g.launch with
    | none => none
    | some l => (candidates s k.core k.queue).find? (fun c =>
        c.pack && c.col == g.slot % columns l k.core && c.place == k.place && !k.tried.contains c.u)

/-- What is left of a wait once its unit is chosen: a `cntwait` goes on with its counter (R371). -/
def Wait.started : Wait → Wait
  | .counter tgt pa target met => .counter tgt pa target met
  | _ => .none

/-- A unit that is chosen no longer waits, but for an X or S word, which takes no notice of the wait of A; a native unit's queue takes
its turn. -/
def startUnit (q : Nat) (s : State) (c : Cand) : State :=
  match s.galley? c.u.galley with
  | none => s
  | some g =>
    match g.thread? c.u with
    | none => s
    | some th =>
      match th.native with
      | none => s.setGalley (g.setThread c.u { th with wait := th.wait.started })
      | some n => s.setGalley (g.setThread c.u { th with wait := if q = 0 then th.wait.started else th.wait, native := some { n with turn := q } })

/-- A unit that has no body yet looks its body up (R263, R273). -/
def primeUnit (s : State) (x : UnitId × Thread) : State :=
  match (s.galley? x.1.galley).bind (fun g => g.thread? x.1) with
  | some th =>
    if th.wait = .none ∧ th.body.isNone then (if th.entering then atEntry s x.1 else beginBlock s x.1) else s
  | none => s

/-- A galley that stands at a barrier or a JOIN WAIT arrives once its accesses are performed (R114). -/
def arriveLate (s : State) (g : Galley) : State :=
  if g.units.any (fun u => u.2.wait == .join || (match u.2.wait with | .barrier _ _ => true | _ => false)) then checkArrival s g.id else s

/-- What the units of a core do without issuing: they look up bodies, and arrive. -/
def primeCore (s : State) (core : Nat) : State :=
  let gs := s.galleys.filter (fun g => g.core == some core)
  gs.foldl arriveLate ((gs.flatMap Galley.units).foldl primeUnit s)

/-- The number of a queue. -/
def queueNum : QName → Nat
  | .a => 0
  | .x => 1
  | .s => 2

/-- The event that an issue slot counts: 1 to 3 by queue, and 4 for a control word (Table 19.4). -/
def slotEvent (s : State) (q : Nat) (c : Cand) : Nat :=
  match ((s.galley? c.u.galley).bind (fun g => g.thread? c.u)).bind (fun th => headOp s th q) with
  | some op => if op = 0x3F6 ∨ (op < 0x3F0 ∧ opQueue op = 3) then 4 else q + 1
  | none => q + 1

/-- The queue has issued in this cycle, or forms accesses, or a second half (R134, R135). -/
def State.issuedAt (s : State) (core q : Nat) : Bool := s.issued.any (fun x => x.core == core && x.queue == q)

/-- The issue slot is chosen; the next steps run its units, the leader first. Without a ready candidate that has a clear bit a round
begins (R132). -/
def issueAct (core q : Nat) (s : State) : State :=
  let s := releaseCores (primeCore s core)
  let cs := candidates s core q
  let x := s.core core
  let bits := x.rounds.getD q []
  let fresh := cs.filter (fun c => !bits.contains (c.u.galley, c.u.path))
  let x := if fresh.isEmpty then { x with rounds := x.rounds.set q [] } else x
  let s := s.setCore core x
  match leaderOf x q (if fresh.isEmpty then cs else fresh) with
  | none => s
  | some lead =>
    let chosen := lead :: companions lead [lead.col] cs
    { chosen.foldl (startUnit q) s with cur := chosen.map Cand.u, slot := some ⟨core, q, slotEvent s q lead, lead.place, chosen.map Cand.u⟩ }

/-- ISSUE_CYCLE: nothing issues while an issue slot still runs, once the queue has issued in the cycle, or while the dies do not run
(R26, R27). -/
def execIssueCycle (core : Nat) (queue : QName) (s : State) : Host.Outcome State Fault Refusal :=
  .next (if s.cur.isEmpty ∧ s.pkg.runs ∧ !s.issuedAt core (queueNum queue) then issueAct core (queueNum queue) s else s)

end Sys2Proof.Machine
end

