-- ==== Sys2Proof/Machine/Dispatch.lean ====
section
/-! DEFINITION. The meaning of every instruction and event, one arm per constructor. -/

namespace Sys2Proof.Machine

open Sys2Proof

def exec (i : Instr) (s : State) : Host.Outcome State Fault Refusal :=
  match i with
  | .nop w => Sys2Proof.Machine.execNop w s
  | .br w t => Sys2Proof.Machine.execBr w t s
  | .brc w rc tt nt => Sys2Proof.Machine.execBrc w rc tt nt s
  | .brsw w rc d cs => Sys2Proof.Machine.execBrsw w rc d cs s
  | .call w t => Sys2Proof.Machine.execCall w t s
  | .calli w t => Sys2Proof.Machine.execCalli w t s
  | .ret w xs => Sys2Proof.Machine.execRet w xs s
  | .retire w => Sys2Proof.Machine.execRetire w s
  | .itemidx w => Sys2Proof.Machine.execItemidx w s
  | .coord w => Sys2Proof.Machine.execCoord w s
  | .laneid w => Sys2Proof.Machine.execLaneid w s
  | .groupid w => Sys2Proof.Machine.execGroupid w s
  | .gwidth w => Sys2Proof.Machine.execGwidth w s
  | .nitems w => Sys2Proof.Machine.execNitems w s
  | .dimext w => Sys2Proof.Machine.execDimext w s
  | .domid w => Sys2Proof.Machine.execDomid w s
  | .domsize w => Sys2Proof.Machine.execDomsize w s
  | .coreid w => Sys2Proof.Machine.execCoreid w s
  | .clusterid w => Sys2Proof.Machine.execClusterid w s
  | .dieid w => Sys2Proof.Machine.execDieid w s
  | .launchid w => Sys2Proof.Machine.execLaunchid w s
  | .actmask w => Sys2Proof.Machine.execActmask w s
  | .add w => Sys2Proof.Machine.execAdd w s
  | .sub w => Sys2Proof.Machine.execSub w s
  | .mul w => Sys2Proof.Machine.execMul w s
  | .mulhi w => Sys2Proof.Machine.execMulhi w s
  | .mad w => Sys2Proof.Machine.execMad w s
  | .div w => Sys2Proof.Machine.execDiv w s
  | .rem w => Sys2Proof.Machine.execRem w s
  | .neg w => Sys2Proof.Machine.execNeg w s
  | .abs w => Sys2Proof.Machine.execAbs w s
  | .min w => Sys2Proof.Machine.execMin w s
  | .max w => Sys2Proof.Machine.execMax w s
  | .clamp w => Sys2Proof.Machine.execClamp w s
  | .adiff w => Sys2Proof.Machine.execAdiff w s
  | .addc w => Sys2Proof.Machine.execAddc w s
  | .subb w => Sys2Proof.Machine.execSubb w s
  | .and w => Sys2Proof.Machine.execAnd w s
  | .or w => Sys2Proof.Machine.execOr w s
  | .xor w => Sys2Proof.Machine.execXor w s
  | .not w => Sys2Proof.Machine.execNot w s
  | .bfn3 w l => Sys2Proof.Machine.execBfn3 w l s
  | .shl w => Sys2Proof.Machine.execShl w s
  | .shr w => Sys2Proof.Machine.execShr w s
  | .sra w => Sys2Proof.Machine.execSra w s
  | .rotl w => Sys2Proof.Machine.execRotl w s
  | .bfe w => Sys2Proof.Machine.execBfe w s
  | .bfi w x => Sys2Proof.Machine.execBfi w x s
  | .clz w => Sys2Proof.Machine.execClz w s
  | .ctz w => Sys2Proof.Machine.execCtz w s
  | .bcnt w => Sys2Proof.Machine.execBcnt w s
  | .brev w => Sys2Proof.Machine.execBrev w s
  | .bswap w => Sys2Proof.Machine.execBswap w s
  | .cmp w => Sys2Proof.Machine.execCmp w s
  | .sel w => Sys2Proof.Machine.execSel w s
  | .cvti w => Sys2Proof.Machine.execCvti w s
  | .lea w => Sys2Proof.Machine.execLea w s
  | .mov w => Sys2Proof.Machine.execMov w s
  | .fadd w => Sys2Proof.Machine.execFadd w s
  | .fsub w => Sys2Proof.Machine.execFsub w s
  | .fmul w => Sys2Proof.Machine.execFmul w s
  | .fdiv w => Sys2Proof.Machine.execFdiv w s
  | .fma w => Sys2Proof.Machine.execFma w s
  | .sqrt w => Sys2Proof.Machine.execSqrt w s
  | .rcp w => Sys2Proof.Machine.execRcp w s
  | .rsqrt w => Sys2Proof.Machine.execRsqrt w s
  | .exp2 w => Sys2Proof.Machine.execExp2 w s
  | .log2 w => Sys2Proof.Machine.execLog2 w s
  | .sin w => Sys2Proof.Machine.execSin w s
  | .cos w => Sys2Proof.Machine.execCos w s
  | .ldexp w => Sys2Proof.Machine.execLdexp w s
  | .frexp w => Sys2Proof.Machine.execFrexp w s
  | .frnd w => Sys2Proof.Machine.execFrnd w s
  | .fmin w => Sys2Proof.Machine.execFmin w s
  | .fmax w => Sys2Proof.Machine.execFmax w s
  | .fclamp w => Sys2Proof.Machine.execFclamp w s
  | .fabs w => Sys2Proof.Machine.execFabs w s
  | .fneg w => Sys2Proof.Machine.execFneg w s
  | .fsgn w => Sys2Proof.Machine.execFsgn w s
  | .fcmp w => Sys2Proof.Machine.execFcmp w s
  | .fclass w => Sys2Proof.Machine.execFclass w s
  | .cvt w => Sys2Proof.Machine.execCvt w s
  | .cvtef w => Sys2Proof.Machine.execCvtef w s
  | .shfl w => Sys2Proof.Machine.execShfl w s
  | .shflx w => Sys2Proof.Machine.execShflx w s
  | .shfld w => Sys2Proof.Machine.execShfld w s
  | .shflu w => Sys2Proof.Machine.execShflu w s
  | .bcast w => Sys2Proof.Machine.execBcast w s
  | .ballot w => Sys2Proof.Machine.execBallot w s
  | .popc w => Sys2Proof.Machine.execPopc w s
  | .elect w => Sys2Proof.Machine.execElect w s
  | .redadd w => Sys2Proof.Machine.execRedadd w s
  | .redmin w => Sys2Proof.Machine.execRedmin w s
  | .redmax w => Sys2Proof.Machine.execRedmax w s
  | .redand w => Sys2Proof.Machine.execRedand w s
  | .redor w => Sys2Proof.Machine.execRedor w s
  | .sprs w => Sys2Proof.Machine.execSprs w s
  | .rndk w => Sys2Proof.Machine.execRndk w s
  | .ldG w => Sys2Proof.Machine.execLdG w s
  | .stG w => Sys2Proof.Machine.execStG w s
  | .ldS w => Sys2Proof.Machine.execLdS w s
  | .stS w => Sys2Proof.Machine.execStS w s
  | .pref w => Sys2Proof.Machine.execPref w s
  | .evict w => Sys2Proof.Machine.execEvict w s
  | .tnseal w => Sys2Proof.Machine.execTnseal w s
  | .tnflush w => Sys2Proof.Machine.execTnflush w s
  | .tnld w x => Sys2Proof.Machine.execTnld w x s
  | .tnst w x y => Sys2Proof.Machine.execTnst w x y s
  | .tninfo w => Sys2Proof.Machine.execTninfo w s
  | .tnrelay w x => Sys2Proof.Machine.execTnrelay w x s
  | .tnidx w x => Sys2Proof.Machine.execTnidx w x s
  | .tnpref w x => Sys2Proof.Machine.execTnpref w x s
  | .cpy w x => Sys2Proof.Machine.execCpy w x s
  | .cpyh w x y => Sys2Proof.Machine.execCpyh w x y s
  | .seqset w => Sys2Proof.Machine.execSeqset w s
  | .seqgo w => Sys2Proof.Machine.execSeqgo w s
  | .seqstat w => Sys2Proof.Machine.execSeqstat w s
  | .gath w x => Sys2Proof.Machine.execGath w x s
  | .gathh w x => Sys2Proof.Machine.execGathh w x s
  | .cbatch w => Sys2Proof.Machine.execCbatch w s
  | .cwait w => Sys2Proof.Machine.execCwait w s
  | .cntwait w => Sys2Proof.Machine.execCntwait w s
  | .spset w x => Sys2Proof.Machine.execSpset w x s
  | .ringcfg w x => Sys2Proof.Machine.execRingcfg w x s
  | .ringrd w => Sys2Proof.Machine.execRingrd w s
  | .mma w l => Sys2Proof.Machine.execMma w l s
  | .mmab w l => Sys2Proof.Machine.execMmab w l s
  | .mmas w l => Sys2Proof.Machine.execMmas w l s
  | .mmaconv w l x => Sys2Proof.Machine.execMmaconv w l x s
  | .mmard w => Sys2Proof.Machine.execMmard w s
  | .tlld w => Sys2Proof.Machine.execTlld w s
  | .tlst w => Sys2Proof.Machine.execTlst w s
  | .tlzero w => Sys2Proof.Machine.execTlzero w s
  | .tlmov w => Sys2Proof.Machine.execTlmov w s
  | .tlrotr w => Sys2Proof.Machine.execTlrotr w s
  | .tlrotc w => Sys2Proof.Machine.execTlrotc w s
  | .tlbcr w => Sys2Proof.Machine.execTlbcr w s
  | .tlbcc w => Sys2Proof.Machine.execTlbcc w s
  | .tlredr w => Sys2Proof.Machine.execTlredr w s
  | .tlredc w => Sys2Proof.Machine.execTlredc w s
  | .tlgetr w => Sys2Proof.Machine.execTlgetr w s
  | .tlgetc w => Sys2Proof.Machine.execTlgetc w s
  | .tlputr w => Sys2Proof.Machine.execTlputr w s
  | .tlputc w => Sys2Proof.Machine.execTlputc w s
  | .dp4 w => Sys2Proof.Machine.execDp4 w s
  | .dp8 w => Sys2Proof.Machine.execDp8 w s
  | .dp2 w => Sys2Proof.Machine.execDp2 w s
  | .pack w => Sys2Proof.Machine.execPack w s
  | .unpack w => Sys2Proof.Machine.execUnpack w s
  | .amoAdd w => Sys2Proof.Machine.execAmoAdd w s
  | .amoAnd w => Sys2Proof.Machine.execAmoAnd w s
  | .amoOr w => Sys2Proof.Machine.execAmoOr w s
  | .amoXor w => Sys2Proof.Machine.execAmoXor w s
  | .amoMin w => Sys2Proof.Machine.execAmoMin w s
  | .amoMax w => Sys2Proof.Machine.execAmoMax w s
  | .amoSwap w => Sys2Proof.Machine.execAmoSwap w s
  | .amoCas w => Sys2Proof.Machine.execAmoCas w s
  | .amoFaddRn w => Sys2Proof.Machine.execAmoFaddRn w s
  | .amoFaddRz w => Sys2Proof.Machine.execAmoFaddRz w s
  | .amoFaddRu w => Sys2Proof.Machine.execAmoFaddRu w s
  | .amoFaddRd w => Sys2Proof.Machine.execAmoFaddRd w s
  | .amoFaddX w => Sys2Proof.Machine.execAmoFaddX w s
  | .amoFmin w => Sys2Proof.Machine.execAmoFmin w s
  | .amoFmax w => Sys2Proof.Machine.execAmoFmax w s
  | .cas128 w => Sys2Proof.Machine.execCas128 w s
  | .txbeg w => Sys2Proof.Machine.execTxbeg w s
  | .txend w => Sys2Proof.Machine.execTxend w s
  | .txabort w => Sys2Proof.Machine.execTxabort w s
  | .txmask w => Sys2Proof.Machine.execTxmask w s
  | .txcause w => Sys2Proof.Machine.execTxcause w s
  | .txdepth w => Sys2Proof.Machine.execTxdepth w s
  | .txserial w => Sys2Proof.Machine.execTxserial w s
  | .fence w => Sys2Proof.Machine.execFence w s
  | .barr w => Sys2Proof.Machine.execBarr w s
  | .bararr w => Sys2Proof.Machine.execBararr w s
  | .barwait w => Sys2Proof.Machine.execBarwait w s
  | .bartest w => Sys2Proof.Machine.execBartest w s
  | .barphase w => Sys2Proof.Machine.execBarphase w s
  | .dmember w => Sys2Proof.Machine.execDmember w s
  | .qpush w => Sys2Proof.Machine.execQpush w s
  | .qpop w => Sys2Proof.Machine.execQpop w s
  | .qcount w => Sys2Proof.Machine.execQcount w s
  | .qspace w => Sys2Proof.Machine.execQspace w s
  | .icinv w => Sys2Proof.Machine.execIcinv w s
  | .fbar w => Sys2Proof.Machine.execFbar w s
  | .l1inv w => Sys2Proof.Machine.execL1inv w s
  | .rdctl w => Sys2Proof.Machine.execRdctl w s
  | .wrctl w => Sys2Proof.Machine.execWrctl w s
  | .rdclk w => Sys2Proof.Machine.execRdclk w s
  | .nap w => Sys2Proof.Machine.execNap w s
  | .yield w => Sys2Proof.Machine.execYield w s
  | .hint w => Sys2Proof.Machine.execHint w s
  | .trap w => Sys2Proof.Machine.execTrap w s
  | .brk w => Sys2Proof.Machine.execBrk w s
  | .chk w => Sys2Proof.Machine.execChk w s
  | .queueEngineRound => Sys2Proof.Machine.execQueueEngineRound s
  | .nopPacket q => Sys2Proof.Machine.execNopPacket q s
  | .wrap q => Sys2Proof.Machine.execWrap q s
  | .waitcnt q => Sys2Proof.Machine.execWaitcnt q s
  | .waitcntPoll q => Sys2Proof.Machine.execWaitcntPoll q s
  | .signal q => Sys2Proof.Machine.execSignal q s
  | .load q => Sys2Proof.Machine.execLoad q s
  | .unload q => Sys2Proof.Machine.execUnload q s
  | .launch q => Sys2Proof.Machine.execLaunch q s
  | .launchPlacement => Sys2Proof.Machine.execLaunchPlacement s
  | .launchComplete l => Sys2Proof.Machine.execLaunchComplete l s
  | .graph q => Sys2Proof.Machine.execGraph q s
  | .graphReplayWaitEnd r => Sys2Proof.Machine.execGraphReplayWaitEnd r s
  | .graphNodeDispatch q => Sys2Proof.Machine.execGraphNodeDispatch q s
  | .graphNodeRetire r n => Sys2Proof.Machine.execGraphNodeRetire r n s
  | .patch q => Sys2Proof.Machine.execPatch q s
  | .patchWaitEnd p => Sys2Proof.Machine.execPatchWaitEnd p s
  | .preempt q => Sys2Proof.Machine.execPreempt q s
  | .preemptSaveDone t k => Sys2Proof.Machine.execPreemptSaveDone t k s
  | .resume q => Sys2Proof.Machine.execResume q s
  | .replayAll q => Sys2Proof.Machine.execReplayAll q s
  | .attest q => Sys2Proof.Machine.execAttest q s
  | .invalDone t k => Sys2Proof.Machine.execInvalDone t k s
  | .issueCycle core queue => Sys2Proof.Machine.execIssueCycle core queue s
  | .piecePlacement => Sys2Proof.Machine.execPiecePlacement s
  | .translationDone cl => Sys2Proof.Machine.execTranslationDone cl s
  | .textPageFetchDone t k obj page => Sys2Proof.Machine.execTextPageFetchDone t k obj page s
  | .dumpDone t k => Sys2Proof.Machine.execDumpDone t k s
  | .pageWalkDone w => Sys2Proof.Machine.execPageWalkDone w s
  | .firstTouch f => Sys2Proof.Machine.execFirstTouch f s
  | .memoryReply g => Sys2Proof.Machine.execMemoryReply g s
  | .atomicQueueDrain core => Sys2Proof.Machine.execAtomicQueueDrain core s
  | .accSpillDone slice => Sys2Proof.Machine.execAccSpillDone slice s
  | .engineCommandComplete id => Sys2Proof.Machine.execEngineCommandComplete id s
  | .sequencerEmit core slot => Sys2Proof.Machine.execSequencerEmit core slot s
  | .matrixRetire core => Sys2Proof.Machine.execMatrixRetire core s
  | .relayoutTileQueue r => Sys2Proof.Machine.execRelayoutTileQueue r s
  | .tileConversionStart stack => Sys2Proof.Machine.execTileConversionStart stack s
  | .tileConversionDone stack => Sys2Proof.Machine.execTileConversionDone stack s
  | .serialGrant => Sys2Proof.Machine.execSerialGrant s
  | .napExpiry g => Sys2Proof.Machine.execNapExpiry g s
  | .spill n => Sys2Proof.Machine.execSpill n s
  | .fill n => Sys2Proof.Machine.execFill n s
  | .mat n => Sys2Proof.Machine.execMat n s
  | .tnop n => Sys2Proof.Machine.execTnop n s
  | .hmov n => Sys2Proof.Machine.execHmov n s
  | .ldk n => Sys2Proof.Machine.execLdk n s
  | .unf n => Sys2Proof.Machine.execUnf n s
  | .engineAccessFault id => Sys2Proof.Machine.execEngineAccessFault id s
  | .storePerformed g => Sys2Proof.Machine.execStorePerformed g s
  | .icinvDone id => Sys2Proof.Machine.execIcinvDone id s
  | .powerGood => Sys2Proof.Machine.execPowerGood s
  | .perst => Sys2Proof.Machine.execPerst s
  | .pfFlr => Sys2Proof.Machine.execPfFlr s
  | .vfFlr t => Sys2Proof.Machine.execVfFlr t s
  | .pcieLinkUp => Sys2Proof.Machine.execPcieLinkUp s
  | .firmwareCheckDone => Sys2Proof.Machine.execFirmwareCheckDone s
  | .stacksReady fail => Sys2Proof.Machine.execStacksReady fail s
  | .linksTrained fail portsUp => Sys2Proof.Machine.execLinksTrained fail portsUp s
  | .diesLeaveReset fail => Sys2Proof.Machine.execDiesLeaveReset fail s
  | .identityReady ok => Sys2Proof.Machine.execIdentityReady ok s
  | .recoveryGo v => Sys2Proof.Machine.execRecoveryGo v s
  | .recoveryCheckDone => Sys2Proof.Machine.execRecoveryCheckDone s
  | .coolwarnClear v => Sys2Proof.Machine.execCoolwarnClear v s
  | .refusedClear tgt v => Sys2Proof.Machine.execRefusedClear tgt v s
  | .registerWrite fn off v => Sys2Proof.Machine.execRegisterWrite fn off v s
  | .tenConfigWrite t reg v => Sys2Proof.Machine.execTenConfigWrite t reg v s
  | .tenEnable t v => Sys2Proof.Machine.execTenEnable t v s
  | .signerKeyRegister t v => Sys2Proof.Machine.execSignerKeyRegister t v s
  | .signerKeyCopyDone t => Sys2Proof.Machine.execSignerKeyCopyDone t s
  | .signerKeyRemove t v => Sys2Proof.Machine.execSignerKeyRemove t v s
  | .tenModeWrite t v => Sys2Proof.Machine.execTenModeWrite t v s
  | .assistpendClear t v => Sys2Proof.Machine.execAssistpendClear t v s
  | .fbcfgWrite t v => Sys2Proof.Machine.execFbcfgWrite t v s
  | .faultCancelWrite t d k v => Sys2Proof.Machine.execFaultCancelWrite t d k v s
  | .slotTableUpdate changes => Sys2Proof.Machine.execSlotTableUpdate changes s
  | .slotGrant res cycle ready => Sys2Proof.Machine.execSlotGrant res cycle ready s
  | .queueEnable q v => Sys2Proof.Machine.execQueueEnable q v s
  | .queueDisable q v => Sys2Proof.Machine.execQueueDisable q v s
  | .queueRestart q v => Sys2Proof.Machine.execQueueRestart q v s
  | .queueWpWrite q v => Sys2Proof.Machine.execQueueWpWrite q v s
  | .queueGateWrite q v => Sys2Proof.Machine.execQueueGateWrite q v s
  | .preemptDrainExpiry t k => Sys2Proof.Machine.execPreemptDrainExpiry t k s
  | .preemptTxTimeout t k => Sys2Proof.Machine.execPreemptTxTimeout t k s
  | .ctxEnable t k v => Sys2Proof.Machine.execCtxEnable t k v s
  | .ctxReset t k v => Sys2Proof.Machine.execCtxReset t k v s
  | .ctxInval t k v => Sys2Proof.Machine.execCtxInval t k v s
  | .enbudgetWrite t k v => Sys2Proof.Machine.execEnbudgetWrite t k v s
  | .enrateWrite t k v => Sys2Proof.Machine.execEnrateWrite t k v s
  | .energyReplenish => Sys2Proof.Machine.execEnergyReplenish s
  | .dbgHitClear t k v => Sys2Proof.Machine.execDbgHitClear t k v s
  | .fluxEstimateUpdate pair flux => Sys2Proof.Machine.execFluxEstimateUpdate pair flux s
  | .clockStep die => Sys2Proof.Machine.execClockStep die s
  | .thermalTrigger r => Sys2Proof.Machine.execThermalTrigger r s
  | .coolantOutOfRating inlet flow => Sys2Proof.Machine.execCoolantOutOfRating inlet flow s
  | .scrubError pa corrected => Sys2Proof.Machine.execScrubError pa corrected s
  | .fabricPortStateChange p st => Sys2Proof.Machine.execFabricPortStateChange p st s
  | .hostWrite pa data => Sys2Proof.Machine.execHostWrite pa data s
  | .hostRead pa n => Sys2Proof.Machine.execHostRead pa n s
  | .hostAtomic op pa size v c => Sys2Proof.Machine.execHostAtomic op pa size v c s
  | .peerAccess a => Sys2Proof.Machine.execPeerAccess a s
  | .revocationTimeout t k => Sys2Proof.Machine.execRevocationTimeout t k s

end Sys2Proof.Machine
end

