-- ==== Sys2Proof/Machine/Run.lean ====
section
/-! DEFINITION. What the device does next: the units of the issue slot, the host's and the world's next act, an internal
event, or a tick of the clocks. -/

namespace Sys2Proof.Machine

open Sys2Proof

/-! ### The issue slot -/

/-- The first unit of the issue slot is done; the slot ends with its last. -/
def popUnit (s : State) : State := { s with cur := s.cur.drop 1, slot := if s.cur.length ≤ 1 then none else s.slot }

/-- The issue slot ends: its queue chooses again. -/
def endSlot (s : State) : State := { s with cur := [], slot := none }

/-- A wait in which the instruction that a unit stands at has not issued. -/
def Wait.parks : Wait → Bool
  | .none => false
  | .xlate => false
  | .reconv => false
  | .barrier _ _ => false
  | .join => false
  | .nap => false
  | .stopped => false
  | .rangeHeld _ => false
  | _ => true

/-- Where a unit's queue stands in its native body. -/
def turnOffset (th : Thread) : Option (Nat × Nat) := th.native.map (fun n => (n.entry.getD 0, n.offset n.turn))

/-- The unit has parked at its instruction, or its galley has unfolded for it: the instruction takes no issue slot (R101, R131). -/
def notIssued (i : Instr) (g : Galley) (th : Thread) (t : State) (u : UnitId) : Bool :=
  match t.galley? u.galley with
  | none => false
  | some h =>
    match h.thread? u with
    | none => false
    | some x =>
      x.wait.parks && (th.native.isNone || turnOffset th == turnOffset x) ||
        (match i with | .unf _ => false | _ => decide (h.count < g.count) && x.wait == .none && x.body.isNone && !x.entering)

/-- The operands that form the addresses of an access: base and offset, an address alone, or coordinates. -/
def addressOpnds (r : Raw) : List Opnd :=
  let os := r.operands
  match r.op with
  | 0x140 => os.take 2
  | 0x142 => os.take 2
  | 0x141 => os.take 1 ++ (os.drop 2).take 1
  | 0x143 => os.take 1 ++ (os.drop 2).take 1
  | 0x144 => os.take 1
  | 0x145 => os.take 1
  | 0x152 => (os.drop 1).take 6
  | 0x157 => (os.drop 1).take 6
  | 0x153 => (os.drop 2).take 6
  | op => if 0x240 ≤ op ∧ op ≤ 0x24F then os.take 1 else []

/-- Cycles for which an instruction keeps its queue: one for each group of a galley whose access has a class A address, two halves of a
group of 64 on an N1 core, else one (R134, R135). -/
def issueCycles (s : State) (u : UnitId) (i : Instr) : Nat :=
  match exeAt s u with
  | none => 1
  | some e =>
    let affine : Bool := match i.toRaw with
      | some r => (addressOpnds r).any (fun o => (e.opnd s .n64 o).val.cls == 1)
      | none => false
    if affine && e.multi then e.g.count
    else if lanesOf e.core < e.l.g then 2
    else 1

/-- Operand `k` of an instruction has 128 bits. -/
def wideOpnd (r : Raw) (k : Nat) : Bool :=
  match opRow r.op with
  | none => false
  | some row =>
    match Slot.natField r.w.ty row.slots[k]? with
    | .reg bits _ => decide (64 < bits)
    | _ => false

/-- The constant-pool entries that an instruction's operands name, and how many each reads: two for a 128-bit one. -/
def poolReads (i : Instr) : List (Nat × Nat) :=
  match i.toRaw with
  | none => []
  | some r =>
    (r.operands.mapIdx (fun k o => match o with | .pool p => [(p, if wideOpnd r k then 2 else 1)] | _ => [])).flatten

/-- The pool operands of an instruction that has issued are read through the L1 (R156). -/
def readPools (core : Nat) (x : Option Xlat) (i : Instr) (s : State) : State :=
  match x with
  | none => s
  | some x => (poolReads i).foldl (fun s p => l1Pool s core x p.1 p.2) s

/-- The round bit of a unit that has issued, and, where its galley had two paths, which path it was (R132); the leader's issue is
counted, and its queue is taken for its cycles. -/
def markIssued (s : State) (k : IssueSlot) (u : UnitId) (two : Bool) (cycles : Nat) : State :=
  let x := setRound (s.core k.core) k.queue (u.galley, u.path)
  let s := s.setCore k.core (if two then x.setLast u.galley k.queue u.path else x.clearLast u.galley)
  if s.issuedAt k.core k.queue then s
  else { countEvent s k.core k.event 1 with issued := s.issued ++ [⟨k.core, k.queue, cycles⟩] }

/-- Where a companion has parked, another candidate of its column joins the slot (R133). -/
def swapCompanion (s : State) (k : IssueSlot) (u : UnitId) : State :=
  match nextCompanion s k u with
  | none => popUnit s
  | some c => { startUnit k.queue s c with cur := c.u :: s.cur.drop 1, slot := some { k with tried := c.u :: k.tried } }

/-- The state after a unit of the slot has run: `parked` when its instruction did not issue; `two` when its galley had two paths. Where
the leader parks the queue chooses again. -/
def afterUnit (u : UnitId) (two : Bool) (cycles : Nat) (parked : Bool) (s : State) : State :=
  match s.slot with
  | none => popUnit s
  | some k =>
    if parked then (if s.issuedAt k.core k.queue then swapCompanion s k u else endSlot s)
    else popUnit (markIssued s k u two cycles)

/-- A unit of a slot still issues: an earlier one of the slot has neither stopped it nor changed what it waits for. -/
def stillReady (s : State) (l : Launch) (g : Galley) (core : Nat) (u : UnitId) (th : Thread) : Bool :=
  match s.slot with
  | none => th.wait == .none
  | some k => readyAt s l g core (u, th) k.queue

/-- Run the instruction at which a unit of the issue slot stands. A unit that is gone, or stands still, issues nothing. -/
def runUnit (s : State) (u : UnitId) : Host.Outcome State Fault Refusal :=
  match s.galley? u.galley with
  | none => .next (popUnit s)
  | some g =>
    match s.launch? g.launch, g.core, g.thread? u with
    | some l, some core, some th =>
      let two : Bool := decide (1 < (g.paths.filter Path.live).length)
      if !stillReady s l g core u th then .next (popUnit s)
      else
        match fetch s l g core th with
        | .idle => .next (popUnit s)
        | .bad c => .next (popUnit (takeFault s g l th c (faultLane u) 0 0))
        | .pairs => .next (afterUnit u two 1 true (putThread s u { th with wait := .pairs }))
        | .instr i x =>
          let s := if x = th then s else putThread s u x
          match exec i s with
          | .next t =>
            let parked := notIssued i g x t u
            .next (releaseCores (afterUnit u two (issueCycles s u i) parked (if parked then t else readPools core (th.body.bind s.xlat?) i t)))
          | .fault r => .fault r
          | .refused r => .refused r
    | _, _, _ => .next (popUnit s)

/-! ### Events -/

/-- Keys of a table as tenant and context. -/
def ctxKeys (s : State) : List (Nat × Nat) := s.ctxs.map (fun p => (p.1 / 16, p.1 % 16))

/-- The page that a cluster's oldest request needs. -/
def pageEvents (s : State) : List Instr :=
  s.clusters.filterMap (fun p =>
    match composeHead s p.1 with
    | some (r, .error (.page n)) => some (.textPageFetchDone r.tenant r.ctx r.obj n)
    | _ => none)

/-- Events of the packets that block queues: a WAITCNT polls, an UNLOAD waits for its object (R61, R64). -/
def blockerEvents (s : State) : List Instr :=
  s.queues.filterMap (fun p =>
    (s.blockerOf (queueOf p.1)).map (fun k => if k.opcode = 5 then .unload (queueOf p.1) else .waitcntPoll (queueOf p.1)))

/-- Events of packets, launches, graphs and contexts. -/
def workEvents (s : State) : List Instr :=
  [.queueEngineRound, .launchPlacement, .piecePlacement, .serialGrant] ++
    blockerEvents s ++
    s.launches.map (fun l => .launchComplete l.id) ++
    s.replays.map (fun r => .graphReplayWaitEnd r.id) ++
    s.replays.flatMap (fun r => r.running.map (fun n => .graphNodeRetire r.id n)) ++
    s.patches.map (fun p => .patchWaitEnd p.id) ++
    (ctxKeys s).flatMap (fun c => [.preemptSaveDone c.1 c.2, .invalDone c.1 c.2, .dumpDone c.1 c.2])

/-- Events of cores, clusters and galleys. -/
def coreEvents (s : State) : List Instr :=
  s.cores.flatMap (fun p =>
    [.issueCycle p.1 .a, .issueCycle p.1 .x, .issueCycle p.1 .s, .atomicQueueDrain p.1, .matrixRetire p.1,
     .sequencerEmit p.1 0, .sequencerEmit p.1 1, .sequencerEmit p.1 2, .sequencerEmit p.1 3]) ++
    s.clusters.map (fun p => .translationDone p.1) ++ pageEvents s ++
    s.galleys.flatMap (fun g => [.memoryReply g.id, .napExpiry g.id])

/-- Events of memory and the engines. -/
def memoryEvents (s : State) : List Instr :=
  s.walks.map (fun w => .pageWalkDone w.id) ++ s.faults.map (fun f => .firstTouch f.id) ++
    s.slices.map (fun p => .accSpillDone p.1) ++
    s.commands.flatMap (fun c => [.engineCommandComplete c.id, .engineAccessFault c.id]) ++
    s.relayouts.map (fun r => .relayoutTileQueue r.id) ++
    (List.range 8).flatMap (fun k => [.tileConversionStart k, .tileConversionDone k])

/-- Every event that may be able to happen. -/
def allEvents (s : State) : List Ev :=
  (workEvents s ++ coreEvents s ++ memoryEvents s).map Ev.act ++ s.galleys.map (fun g => Ev.stored g.id) ++
    s.icinvs.map (fun x => Ev.icinv x.id) ++ s.tenants.map (fun t => Ev.keyCopied t.1) ++
    (ctxKeys s).flatMap (fun c => [Ev.drainExpiry c.1 c.2, Ev.txTimeout c.1 c.2, Ev.revTimeout c.1 c.2])

/-! ### The clocks -/

/-- Units of a galley that wait for a translation, for tokens, or for energy. -/
def parkedOn (g : Galley) (f : Wait → Bool) : Nat := (g.units.filter (fun u => f u.2.wait)).length

def waitsXlate : Wait → Bool
  | .xlate => true
  | _ => false

def waitsEnergy : Wait → Bool
  | .energy _ => true
  | _ => false

/-- The head of some queue of a native unit waits for tokens. -/
def waitsTokens (g : Galley) : Bool :=
  g.threads.any (fun t => match t.native with
    | none => false
    | some n => [0, 1, 2].any (fun q => match n.headAt q with | some w => w / 2 ^ 58 % 4 != 3 && !n.tokensReady q w | none => false))

/-- Events 5, 6 and 12 of one cycle of a core (Table 19.4). -/
def tickCore (s : State) (c : Nat) : State :=
  let gs := s.galleys.filter (fun g => g.core == some c)
  let s := if gs.any (fun g => parkedOn g waitsXlate != 0) then countEvent s c 5 1 else s
  let s := if gs.any waitsTokens then countEvent s c 6 1 else s
  if gs.any (fun g => parkedOn g waitsEnergy != 0) then countEvent s c 12 1 else s

/-- XLCYC and WAITCYC of one cycle of a cluster (Table 12.11). -/
def tickCluster (s : State) (cl : Nat) : State :=
  let s := if (s.cluster cl).queue.isEmpty then s else countXlat s cl 7 1
  let waits := ((s.galleys.filter (fun g => match g.core with | some c => clusterOf c == cl | none => false)).map (fun g => parkedOn g waitsXlate)).sum
  if waits = 0 then s else countXlat s cl 8 waits

/-- The clock steps of the four dies under a throttle level (R26). -/
def clockSteps (s : State) : State :=
  (List.range 4).foldl (fun s d => match execClockStep d s with | .next t => t | _ => s) s

/-- The queues of a core that have a ready candidate. -/
def busyQueues (s : State) (core : Nat) : List Nat := [0, 1, 2].filter (fun q => !(candidates s core q).isEmpty)

/-- The cycle is not over while a queue that has not issued in it has a ready candidate: each queue issues in every cycle in which it can
(R132). -/
def cycleDone (s : State) : Bool :=
  !s.pkg.runs || (s.cores.map Prod.fst).all (fun c => (busyQueues s c).all (fun q => s.issuedAt c q))

/-- A queue without a ready candidate clears its round bits (R132). -/
def endRounds (s : State) (core : Nat) : State :=
  let x := s.core core
  let busy := busyQueues s core
  s.setCore core { x with rounds := x.rounds.mapIdx (fun q r => if busy.contains q then r else []) }

/-- Queues that form accesses or a second half go on for one cycle less. -/
def State.cycleOn (s : State) : State :=
  { s with issued := (s.issued.filter (fun x => decide (1 < x.left))).map (fun x => { x with left := x.left - 1 }) }

/-- One cycle: the clocks advance; every 1,000 cycles the energy budgets are replenished, and every 100,000 cycles the
core clocks take a step (R26, R250, R412). -/
def tick (s : State) : Host.Outcome State Fault Refusal :=
  let s := (s.cores.map Prod.fst).foldl endRounds s
  let s := bringUpTick { s.cycleOn with pkg := { s.pkg with clock := s.pkg.clock + 1 } }
  let s := (s.cores.map Prod.fst).foldl tickCore s
  let s := (s.clusters.map Prod.fst).foldl tickCluster s
  let s := if s.pkg.clock % 100000 = 0 then clockSteps s else s
  if s.pkg.clock % 1000 = 0 then execEnergyReplenish s else .next s

/-! ### The choice -/

/-- A host or peer access that must still wait (R178, R208). -/
def accessWaits (s : State) : Instr → Bool
  | .hostWrite (.mem pa) data | .hostWrite (.bar4 pa) data => outsideWaits s true pa data.length
  | .hostRead (.mem pa) n | .hostRead (.bar4 pa) n => outsideWaits s false pa n
  | .hostAtomic _ (.mem pa) n _ _ | .hostAtomic _ (.bar4 pa) n _ _ => outsideWaits s true pa n
  | .peerAccess (.read pa n) => outsideWaits s false pa n
  | .peerAccess (.write pa data) => outsideWaits s true pa data.length
  | .peerAccess (.atomic aop pa _ _ _ _ _) => outsideWaits s true pa (aopBytes (aop / 8 % 8))
  | _ => false

/-- What an event does. -/
def Ev.run (s : State) : Ev → Host.Outcome State Fault Refusal
  | .act i => exec i s
  | .stored g => execStorePerformed g s
  | .icinv i => execIcinvDone i s
  | .keyCopied t => execSignerKeyCopyDone t s
  | .drainExpiry t k => execPreemptDrainExpiry t k s
  | .txTimeout t k => execPreemptTxTimeout t k s
  | .revTimeout t k => execRevocationTimeout t k s
  | .agenda => match s.agenda with | [] => .next s | i :: rest => exec i { s with agenda := rest }
  | .tick => Machine.tick s

/-- An event that does something. -/
def acts (s : State) : Host.Outcome State Fault Refusal → Bool
  | .next t => decide (t ≠ s)
  | _ => true

/-- Everything that can happen next: the end of the cycle, the next act of the host and the world, and the events that do something. -/
def enabled (s : State) : List Ev :=
  (if cycleDone s then [.tick] else []) ++ (match s.agenda with | [] => [] | i :: _ => if accessWaits s i then [] else [.agenda]) ++
    (allEvents s).filter (fun e => acts s (e.run s))

/-- The events that can happen, in the order in which they became able to. -/
def State.queued (s : State) : List Ev :=
  let en := enabled s
  s.waiting.filter en.contains ++ en.filter (fun e => !s.waiting.contains e)

/-- The event that happens next, of a list that is not empty: a free choice, but of every so many choices one takes the oldest, so that
nothing that can happen waits for ever (R120; log 3). -/
def State.pick (s : State) (first : Ev) (es : List Ev) : Ev × State :=
  if s.turns % (Config.patience + 1) = 0 then (first, s)
  else
    let (k, s) := s.choose es.length
    (es.getD k first, s)

/-- Without an issue slot to run, one of the things that can happen next does. -/
def runFree (s : State) : Host.Outcome State Fault Refusal :=
  match s.queued with
  | [] => .next s
  | e :: es =>
    let (x, s) := State.pick { s with turns := s.turns + 1 } e (e :: es)
    x.run { s with waiting := (e :: es).erase x }

/-! ### Loading one instruction -/

/-- The launch that stands for a loaded program: one group of eight items on core 0, 256 registers. -/
def wordLaunch (id obj : Nat) : Launch :=
  { id := id, tenant := 0, ctx := 0, hdr := [], body := [], objId := 0, obj := obj, entry := 0, g := 8, n := 8, ext := [8, 1, 1],
    budget := 4, spad := 65536, domLevel := 0, domGroups := 0, clmask := 1, tag := 0, idem := false, args := [], status := none,
    packet := none, node := none, placed := true, restored := false, retired := 0, groups := [], domains := [(0, ⟨true, 0, 0, 0, 0, 1⟩)] }

/-- The translation of a block whose header names no argument, with these words after it. -/
def wordXlat (id obj : Nat) (l : Launch) (ws : List Nat) : Xlat :=
  { id := id, tenant := 0, ctx := 0, obj := obj, block := 0, rev := revOf 0, budget := l.budgetOn 0, width := l.widthCode,
    words := 0 :: ws, pool := [], argTys := [], flags := 0, heads := [], callees := [], textAt := 0, poolAt := 0, die := some 0,
    spill := 0, bodies := [⟨⟨0, false, []⟩, 56, none, false⟩], live := true }

/-- The native run of a group in slot 0 whose body is one word: nothing has entered it, and its registers hold 0. -/
def wordNative (l : Launch) (w : Nat) : NativeRun :=
  { code := { aoff := 0, xoff := 0, soff := 0, tok := 0, words := [w], exits := [], conc := [] }, aoff := 0, xoff := 0, soff := 0,
    turn := if w / 2 ^ 58 % 4 = 3 then 0 else w / 2 ^ 58 % 4, lanes := [], uni := [], loads := [], tokens := [0, 0, 0, 0, 0, 0],
    stores := [], data := [], src := .none, share := l.spad, shareLen := shareOf l 0, entry := none, affine := [], lone := false }

/-- Load an instruction: context 0 of tenant 0 runs, and one leaf on core 0 stands at it in the issue slot. Words that
are no Laold instruction are loaded as a native word. -/
def loadWords (s : State) (ws : List Nat) : State :=
  let lid := s.nextId
  let l := wordLaunch lid (lid + 3)
  let th : Thread := { Thread.empty with mask := maskBelow 8, body := some (lid + 2), native := if (decode ws).isSome then none else some (wordNative l (ws.headD 0)) }
  let g : Galley :=
    { id := lid + 1, launch := lid, first := 0, count := 1, core := some 0, slot := 0, age := 0, home := 0,
      paths := [⟨th, none, [], none, []⟩], phase := 0, pending := false, recorded := 0, arrived := false, fixed := false }
  let s := s.setTenant 0 { s.tenant 0 with enable := true, clmask := 1 }
  let s := s.setCtx 0 0 { s.ctx 0 0 with state := .running, enable := true }
  let s := s.setCore 0 { s.core 0 with launch := some lid }
  { s with
    launches := s.launches ++ [l]
    galleys := s.galleys ++ [g]
    xlats := s.xlats ++ [wordXlat (lid + 2) (lid + 3) l ws]
    cur := [⟨lid + 1, 0, none⟩]
    slot := none
    nextId := lid + 4 }

end Sys2Proof.Machine
end

