-- ==== Sys2Proof/Machine/Step.lean ====
section
/-! DEFINITION. One step of the device, and the state whose next step runs a given instruction. -/

namespace Sys2Proof.Machine

open Sys2Proof

/-- One step: the units of an issue slot run first, the leader before its companions; else something that may happen next
happens. -/
def step (s : State) : Host.Outcome State Fault Refusal :=
  match s.cur with
  | u :: _ => runUnit s u
  | [] => runFree s

namespace State

/-- The state whose next step runs the instruction of the bits `w` (log 23). -/
def withFetchWord (s : State) (nbits w : Nat) : State :=
  Sys2Proof.Machine.loadWords s (splitWords (Word.ceilDiv nbits 64 + 8) (w % 2 ^ nbits))

end State
end Sys2Proof.Machine
end

