-- ==== Sys2Proof/Safety.lean ====
section
/-! DEFINITION. The terms in which claims speak of the machine: a unit that stands alone at a Laold instruction, what an
instruction that completes leaves, and states whose memories are canonical. -/

namespace Sys2Proof.Machine

open Sys2Proof

/-! ### One instruction of one unit -/

/-- The executing unit is a leaf that runs Laold words, and `e` is what its instruction sees. -/
structure Leaf (s : State) (e : Exe) : Prop where
  runs : exe? s = some e
  one  : e.g.count = 1
  laold : e.th.native = none

/-- The same for a galley of any number of groups. -/
structure Runs (s : State) (e : Exe) : Prop where
  runs : exe? s = some e
  laold : e.th.native = none

/-- A thread after an instruction that defined the values `vs`: the next instruction follows, and the results take the
next value numbers (R280). -/
def Thread.after (th : Thread) (vs : List TVal) : Thread :=
  { th with instr := th.instr + 1, vals := vs.reverse ++ th.vals, walks := [], wait := .none, brkOk := false }

/-- The instruction completes: the next state is `t` but for the unit's thread, which holds the results `vs`. With `t = s`
nothing else changes: no other thread, no register, no byte of any memory. -/
def Completes (s : State) (e : Exe) (i : Instr) (t : State) (vs : List TVal) : Prop :=
  exec i s = .next (e.put t (e.th.after vs))

/-- The instruction defines one value of type `ty` that is `f l` in every active lane `l`, and changes nothing else. A lane
holds at most 128 bits (R283). -/
def Gives (s : State) (e : Exe) (i : Instr) (ty : Ty) (f : Nat → Nat) : Prop :=
  ∃ v, Completes s e i s [v] ∧ v.ty = ty ∧ ∀ l, l < e.l.g → laneIn e.act l = true → e.lane v l = f l % 2 ^ 128

/-- The instruction defines two values, `f` and `h` in every active lane, and changes nothing else. -/
def Gives2 (s : State) (e : Exe) (i : Instr) (ty ty' : Ty) (f h : Nat → Nat) : Prop :=
  ∃ v v', Completes s e i s [v, v'] ∧ v.ty = ty ∧ v'.ty = ty' ∧
    ∀ l, l < e.l.g → laneIn e.act l = true → e.lane v l = f l % 2 ^ 128 ∧ e.lane v' l = h l % 2 ^ 128

/-! ### Units, memory accesses and transactions -/

/-- The executing unit is the only path of its leaf, outside per-item mode, and all its lanes are active. -/
structure Lone (s : State) (e : Exe) : Prop extends Leaf s e where
  uid   : e.uid = ⟨e.g.id, 0, none⟩
  paths : e.g.paths = [e.path]
  th    : e.path.th = e.th
  items : e.path.items = []
  lanes : e.act = e.th.mask
  live  : e.th.mask ≠ 0

/-- No slice holds an exact entry or a backing record, so that no access finalises a line. -/
def State.NoExact (s : State) : Prop := ∀ i, (s.slice i).entries = [] ∧ (s.slice i).dir = []

/-- The unit's galley has performed what Table 8.3 orders before an access to the `n` bytes of scratchpad at `a`: its no-return atomics,
and its native stores that share a byte (R256, R355). -/
structure SpadFree (s : State) (e : Exe) (a n : Nat) : Prop where
  atomics : e.owed s = []
  stores  : e.spadStoresAt a n = false

/-- The requests `rs` of the unit all translate, to the targets `ts`; no line of them is owned or locked by another, and the
unit owes no earlier store or atomic that Table 8.3 orders before the access. `t` is `s` but for TLB entries. -/
structure Reaches (s : State) (e : Exe) (a : Access) (rs : List Req) (ts : List (Req × PTarget × Bool)) (t : State) : Prop where
  planned : plan s e.view a rs = (.go ts, t)
  free    : ∀ x ∈ ts, t.blockedSpan e.me (a.write || a.atomic) x.2.1 x.1.n = false
  own     : ∀ x ∈ ts, e.mustFollow t a (a.tx && e.tx? == some false) x = false

/-- Every request of an engine translates at once, to the targets `ts`, and nothing that came before holds its lines (R242, R243). -/
def Answered (s : State) (v : View) (id : Nat) (a : Access) (rs : List Req) (ts : List PTarget) : Prop :=
  engScan s v id a rs = (⟨ts, none, false⟩, s)

/-- A byte lies in a span. -/
def inSpan (a pa n : Nat) : Prop := pa ≤ a ∧ a < pa + n

/-- The instruction has issued the engine command or matrix operation `id`: the next state is `t` but for the unit's thread, which
goes on, and waits there while the range checker holds the command behind an earlier one (R131, R164). -/
def Posts (s : State) (e : Exe) (i : Instr) (t : State) (id : Nat) : Prop :=
  exec i s = .next (e.put t { e.th.after [] with wait := if t.heldBehind id then .rangeHeld id else .none })

/-- The instruction issues one engine command of this kind and counter, the newest of all, in the group's open batch; memory and
scratchpad keep every byte. `t` is the state once the counter's page is translated. -/
def Issues (s : State) (e : Exe) (i : Instr) (t : State) (k : CmdKind) (counter : Option (PTarget × Nat)) : Prop :=
  ∃ u c, Posts s e i u c.id ∧ u.commands = t.commands ++ [c] ∧ c.kind = k ∧ c.counter = counter ∧ c.parent = none ∧
    c.tenant = e.l.tenant ∧ c.ctx = e.l.ctx ∧ c.launch = e.l.id ∧ c.group = e.g.first ∧ c.core = e.core ∧ c.id = t.nextId ∧
    u.mem = t.mem ∧ u.hostMem = t.hostMem ∧ u.cores = t.cores ∧
    (u.group e.l.id e.g.first).openCmds = (t.group e.l.id e.g.first).openCmds ++ [c.id]

/-! ### Packets -/

/-- The packet held for queue `q` is of type `op`, has passed its checks, lies before WP, and nothing makes it wait; `p` is what
its action sees, with its completion counter translated (R59, R61, R63). That a packet runs as it was read and checked is R54's one choice
of old and new ring contents (log 27). -/
structure Starts (s : State) (op : Nat) (q : QId) (p : PktIn) : Prop where
  plain   : s.NoExact
  queue   : p.q = q
  mapped  : queueMapped s q = true
  enabled : (s.queue q).enable = true
  going   : (s.queue q).state ≠ .stopped
  checked : (s.queue q).checked = true
  head    : p.h = Hdr.of (leNat ((s.queue q).packet.take 16))
  body    : p.b = (s.queue q).packet.drop 16
  type    : p.h.op = op
  whole   : 16 * p.h.len ≤ avail s q
  ready   : mustWait s q p.h = false
  sig     : if p.h.sig then ∃ c, p.sig = some c ∧ queueLook s q p.h.addr 8 .qAtomic = (.ok c, s) ∧ s.blockedSpan none true c 8 = false ∧
              queueLate s q c 8 true = none
            else p.sig = none
  fresh   : ∀ x ∈ s.packets, x.id < s.nextId

/-- An access of the queue engine for queue `q` translates at once, no line holds it back, and its target is still the tenant's, behind a
working link and without an uncorrectable error when it is performed. -/
def Finds (s : State) (q : QId) (va n : Nat) (a : Access) (c : PTarget) : Prop :=
  queueLook s q va n a = (.ok c, s) ∧ s.blockedSpan none a.write c n = false ∧ queueLate s q c n (!a.write || a.atomic) = none

/-- The accesses that complete a packet reach their targets: the completion counter and the status word (R62, R76). -/
structure Completable (s : State) (x : Packet) : Prop where
  sig    : ∀ c, x.sig = some c → queueLate s x.q c 8 true = none
  status : ∀ c, x.status = some c → queueLate s x.q c 8 false = none

/-- For queue `q` in context `k`, the `n` bytes at `va` lie in device memory from `pa` on: whether the engine reads, writes or adds
there, the walk translates, every check passes, and no line is held (R63, R178). -/
def Reached (s : State) (q : QId) (k va n pa : Nat) : Prop :=
  ∀ a ∈ [Access.qRd, .qWr, .qAtomic], queueWalk s q k va n a = (.ok ⟨0, pa⟩, s) ∧ s.blockedSpan none true ⟨0, pa⟩ n = false

/-- Every page's part of a span is reached. -/
def SpanReached (s : State) (q : QId) (k va n : Nat) : Prop :=
  ∀ x ∈ pageParts (n / 65536 + 2) va n, ∃ pa, Reached s q k x.1 x.2 pa

/-- The span at `va` is reached and holds the bytes `bs`. -/
def Holds (s : State) (q : QId) (k va : Nat) (bs : List Byte) : Prop :=
  ∃ ts, List.Forall₂ (fun (x : Nat × Nat) (y : PTarget × Nat) => y.2 = x.2 ∧ y.1.tgt = 0 ∧ Reached s q k x.1 x.2 y.1.pa)
    (pageParts (bs.length / 65536 + 2) va bs.length) ts ∧ readTargetsOf ts s = (bs, s)

/-- What completion signalling leaves of memory: the counter of the header is incremented (R62). -/
def State.signals (s : State) (sig : Option PTarget) : State :=
  match sig with
  | some c => s.addCounter c 1
  | none => s

/-- The message of a function under a vector: none under one that it does not have (Table 1.6). -/
def message (fn vec : Nat) : List (Nat × Nat) := if vec < (if fn = 0 then 16 else 64) then [(fn, vec)] else []

/-- The function of a queue's owner: 0 the physical function, t + 1 tenant t. -/
def ownerFn (q : QId) : Nat := if q.owner = 16 then 0 else q.owner + 1

/-- The message of completion signalling (R62). -/
def completionMsg (q : QId) (irq : Bool) (vec : Nat) : List (Nat × Nat) := if irq then message (ownerFn q) vec else []

/-- RP after a packet whose header is `h` has started (R53, R64). -/
def rpAfter (x : Queue) (h : Hdr) : Nat := if h.op = 1 then 0 else (x.rp + 16 * h.len) % 2 ^ x.logSize

/-- The packet `p` has started and completed: the rest of the device is as in `u`, its counter and message follow, RP has
passed it, and it is no longer outstanding. -/
structure Passed (s : State) (p : PktIn) (u t : State) : Prop where
  mem      : t.mem = (u.signals p.sig).mem
  hostMem  : t.hostMem = (u.signals p.sig).hostMem
  peerMem  : t.peerMem = (u.signals p.sig).peerMem
  msix     : t.msix = u.msix ++ completionMsg p.q p.h.irq p.h.vec
  packets  : t.packets = s.packets
  rp       : (t.queue p.q).rp = rpAfter (s.queue p.q) p.h
  heads    : (t.queue p.q).heads = (s.queue p.q).heads
  going    : (t.queue p.q).enable = true ∧ (t.queue p.q).state ≠ .stopped ∧ (t.queue p.q).blocker = none
  others   : ∀ r : QId, r.q < 64 → r ≠ p.q → t.queue r = s.queue r
  launches : t.launches = u.launches
  galleys  : t.galleys = (u.signals p.sig).galleys
  ctxs     : t.ctxs = u.ctxs
  cores    : t.cores = u.cores
  tenants  : t.tenants = u.tenants

/-- The packet `p` has started and blocks its queue, under number `s.nextId`; memory keeps every byte. -/
structure Blocks (s : State) (p : PktIn) (t : State) : Prop where
  mem     : t.mem = s.mem
  hostMem : t.hostMem = s.hostMem
  msix    : t.msix = s.msix
  packets : ∃ x, t.packets = s.packets ++ [x] ∧ x.id = s.nextId ∧ x.q = p.q ∧ x.opcode = p.h.op ∧ x.body = p.b ∧ x.sig = p.sig
  rp      : (t.queue p.q).rp = rpAfter (s.queue p.q) p.h
  blocker : (t.queue p.q).blocker = some s.nextId
  state   : (t.queue p.q).state = .blocked
  ctxs    : t.ctxs = s.ctxs
  galleys : t.galleys = s.galleys

/-- A packet that has started runs to its completion: `t` is `u` but for its signalling, and it has left its queue. -/
structure Ends (u : State) (x : Packet) (t : State) : Prop where
  mem     : t.mem = (u.signals x.sig).mem
  hostMem : t.hostMem = (u.signals x.sig).hostMem
  msix    : t.msix = u.msix ++ completionMsg x.q x.irq x.vec
  packets : t.packets = u.packets.filter (fun y => y.id != x.id)
  blocker : (u.queue x.q).blocker = some x.id → (t.queue x.q).blocker = none
  rp      : (t.queue x.q).rp = (u.queue x.q).rp

/-! ### Native words -/

/-- The native unit issues the word `w` and goes on past it in the word's queue: `m` are its registers and load queues then,
its wait bits are taken and its push bits take effect (R254, R255). The next state is `t` but for the unit's thread; a word of
queue A also ends the unit's wait. -/
def NativePasses (s : State) (e : Exe) (i : Instr) (t : State) (m : NativeRun) (w : NatWord) : Prop :=
  let ts := pushTokens w.queue w.tokens (takeTokens w.queue w.tokens m.tokens)
  let th := { e.th with native := some (NativeRun.step { m with tokens := ts } w.queue) }
  exec i s = .next (e.put t (if w.queue = 0 then { th with walks := [], wait := .none, brkOk := false } else th))

/-! ### Canonical memories -/

/-- Every byte memory of the machine is in its one canonical form: device, host and peer memory, every core's scratchpad and tiles, and
the recovery buffer. -/
structure State.Canonical (s : State) : Prop where
  mem   : s.mem.wf = true
  host  : s.hostMem.wf = true
  peer  : s.peerMem.wf = true
  spad  : ∀ p ∈ s.cores, p.2.spad.wf = true
  tiles : ∀ p ∈ s.cores, p.2.tiles.wf = true
  buffer : s.pkg.recBuf.wf = true

end Sys2Proof.Machine
end

