-- ==== Sys2Proof/Certificates/Slice0/Obligations.lean ====
section
/-! DEFINITION. The statements for the provers, in the order of the manual's chapters. -/

section

open Sys2Proof Sys2Proof.Machine

/-! ### Values computed by a leaf: chapters 15 and 16 -/

/-- Table 15.2: what each identity instruction gives each lane. -/
def Claims.IdentityResults : Prop :=
  ∀ (s : State) (e : Exe) (w : Main), Leaf s e → w.ty.width ≤ 64 →
    (let item (l : Nat) : Nat := e.g.first * e.l.g + l
     let wide (v : Nat) : Nat := v % 2 ^ w.ty.width
     Gives s e (.itemidx w) w.ty (fun l => wide (item l)) ∧
     Gives s e (.laneid w) w.ty wide ∧
     Gives s e (.groupid w) w.ty (fun _ => wide e.g.first) ∧
     Gives s e (.gwidth w) w.ty (fun _ => wide e.l.g) ∧
     Gives s e (.nitems w) w.ty (fun _ => wide e.l.n) ∧
     Gives s e (.dimext w) w.ty (fun _ => wide (e.l.ext.getD (immNat w.a) 1)) ∧
     Gives s e (.domid w) w.ty (fun _ => wide (e.l.domainOf e.g.first)) ∧
     Gives s e (.domsize w) w.ty (fun _ => wide e.l.domainSize) ∧
     Gives s e (.coreid w) w.ty (fun _ => wide e.core) ∧
     Gives s e (.clusterid w) w.ty (fun _ => wide (clusterOf e.core)) ∧
     Gives s e (.dieid w) w.ty (fun _ => wide (dieOf e.core)) ∧
     Gives s e (.launchid w) w.ty (fun _ => wide e.l.tag) ∧
     Gives s e (.actmask w) w.ty (fun _ => e.act.toNat))

/-- `coord` (R75, R318): the item's coordinate, in every active lane that holds an item. -/
def Claims.CoordResult : Prop :=
  ∀ (s : State) (e : Exe) (w : Main), Leaf s e → w.ty.width ≤ 64 → immNat w.a ≤ 2 →
    ∃ v, Completes s e (.coord w) s [v] ∧ v.ty = w.ty ∧
      ∀ l, l < e.l.g → laneIn e.act l = true → e.g.first * e.l.g + l < e.l.n →
        e.lane v l = coordOf e.l (immNat w.a) (e.g.first * e.l.g + l) % 2 ^ w.ty.width

/-- `Claims.IdentityResults` and `Claims.CoordResult` together. -/
def Obligations.LaneIdentities : Prop :=
  Claims.IdentityResults ∧ Claims.CoordResult

/-- Table 15.3: exact integer arithmetic on the operands read as T, then Wrap, or Sat under `.sat`. -/
def Obligations.IntegerArithmetic : Prop :=
  ∀ (s : State) (e : Exe) (w : Main), Leaf s e → w.ty.width ≤ 64 →
    (e.opA s w).ty = w.ty → (e.opB s w).ty = w.ty →
    (let a (l : Nat) : Int := w.ty.toInt (e.lane (e.opA s w) l)
     let b (l : Nat) : Int := w.ty.toInt (e.lane (e.opB s w) l)
     let c (l : Nat) : Int := w.ty.toInt (e.lane (e.opC s w) l)
     let out (x : Int) : Nat := if Word.bit w.mod 3 then w.ty.sat x else w.ty.wrap x
     Gives s e (.add w) w.ty (fun l => out (a l + b l)) ∧
     Gives s e (.sub w) w.ty (fun l => out (a l - b l)) ∧
     Gives s e (.mul w) w.ty (fun l => out (a l * b l)) ∧
     Gives s e (.mad w) w.ty (fun l => out (a l * b l + c l)) ∧
     Gives s e (.neg w) w.ty (fun l => out (-a l)) ∧
     Gives s e (.abs w) w.ty (fun l => out (if a l < 0 then -a l else a l)) ∧
     Gives s e (.mulhi w) w.ty (fun l => w.ty.wrap (a l * b l / 2 ^ w.ty.width)) ∧
     Gives s e (.adiff w) w.ty (fun l => w.ty.wrap (if a l < b l then b l - a l else a l - b l)))

/-- R320 with Table 15.4, and R321: a quotient towards zero, and the comparisons. -/
def Claims.DivisionAndExtremes : Prop :=
  ∀ (s : State) (e : Exe) (w : Main), Leaf s e → w.ty.width ≤ 64 →
    (let x (l : Nat) : Nat := e.lane (e.opA s w) l
     let y (l : Nat) : Nat := e.lane (e.opB s w) l
     let z (l : Nat) : Nat := e.lane (e.opC s w) l
     let int (v : Nat) : Int := w.ty.toInt v
     let least (p q : Nat) : Nat := if int q < int p then q else p
     let most (p q : Nat) : Nat := if int p < int q then q else p
     Gives s e (.div w) w.ty (fun l => if int (y l) = 0 then 2 ^ w.ty.width - 1 else w.ty.wrap ((int (x l)).tdiv (int (y l)))) ∧
     Gives s e (.rem w) w.ty (fun l => if int (y l) = 0 then x l % 2 ^ w.ty.width else w.ty.wrap ((int (x l)).tmod (int (y l)))) ∧
     Gives s e (.min w) w.ty (fun l => least (x l) (y l)) ∧
     Gives s e (.max w) w.ty (fun l => most (x l) (y l)) ∧
     Gives s e (.clamp w) w.ty (fun l => most (y l) (least (x l) (z l))))

/-- R322: sum and carry-out, difference and borrow-out, chained through bit 0 of the third operand. -/
def Claims.CarryResults : Prop :=
  ∀ (s : State) (e : Exe) (w : Main), Leaf s e → w.ty.width ≤ 64 →
    (let m := 2 ^ w.ty.width
     let x (l : Nat) : Nat := e.lane (e.opA s w) l % m
     let y (l : Nat) : Nat := e.lane (e.opB s w) l % m
     let z (l : Nat) : Nat := e.lane (e.opC s w) l % 2
     Gives2 s e (.addc w) w.ty w.ty (fun l => (x l + y l + z l) % m) (fun l => if m ≤ x l + y l + z l then 1 else 0) ∧
     Gives2 s e (.subb w) w.ty w.ty (fun l => (x l + 2 * m - y l - z l) % m) (fun l => if x l < y l + z l then 1 else 0))

/-- `Claims.DivisionAndExtremes` and `Claims.CarryResults` together. -/
def Obligations.DivisionExtremesAndCarry : Prop :=
  Claims.DivisionAndExtremes ∧ Claims.CarryResults

/-- R323 to R325: logic bit by bit, and shifts by a natural amount that may reach or pass the width. -/
def Claims.LogicAndShifts : Prop :=
  ∀ (s : State) (e : Exe) (w : Main) (f : Nat), Leaf s e → 1 ≤ w.ty.width → w.ty.width ≤ 64 → (e.opA s w).ty = w.ty →
    (let W := w.ty.width
     let x (l : Nat) : Nat := e.lane (e.opA s w) l
     let y (l : Nat) : Nat := e.lane (e.opB s w) l
     let n (l : Nat) : Nat := e.lane (e.opnd s .n32 w.b) l
     Gives s e (.and w) w.ty (fun l => x l &&& y l) ∧
     Gives s e (.or w) w.ty (fun l => x l ||| y l) ∧
     Gives s e (.xor w) w.ty (fun l => x l ^^^ y l) ∧
     Gives s e (.not w) w.ty (fun l => 2 ^ W - 1 - x l % 2 ^ W) ∧
     Gives s e (.shl w) w.ty (fun l => if W ≤ n l then 0 else x l * 2 ^ n l % 2 ^ W) ∧
     Gives s e (.shr w) w.ty (fun l => if W ≤ n l then 0 else x l % 2 ^ W / 2 ^ n l) ∧
     Gives s e (.sra w) w.ty (fun l => Word.wrapInt (Word.signExtend (x l) W / 2 ^ min (n l) W) W) ∧
     Gives s e (.rotl w) w.ty (fun l => (x l * 2 ^ (n l % W) + x l % 2 ^ W / 2 ^ (W - n l % W)) % 2 ^ W) ∧
     ∃ v, Completes s e (.bfn3 w f) s [v] ∧ v.ty = w.ty ∧
       ∀ l, l < e.l.g → laneIn e.act l = true → e.lane v l < 2 ^ W ∧ ∀ i, i < W →
         Word.bit (e.lane v l) i = Word.bit f (Word.ofBool (Word.bit (x l) i) + 2 * Word.ofBool (Word.bit (y l) i) +
           4 * Word.ofBool (Word.bit (e.lane (e.opC s w) l) i)))

/-- R326, R327: bit fields, counts and reordering. -/
def Claims.BitFields : Prop :=
  ∀ (s : State) (e : Exe) (w : Main) (x : X4), Leaf s e → 8 ≤ w.ty.width → w.ty.width ≤ 64 →
    (let W := w.ty.width
     let a (l : Nat) : Nat := e.lane (e.opA s w) l
     let b (l : Nat) : Nat := e.lane (e.opB s w) l
     let p (l : Nat) : Nat := e.lane (e.opnd s .n32 w.b) l
     let k (l : Nat) : Nat := e.lane (e.opnd s .n32 w.c) l
     let k' (l : Nat) : Nat := e.lane (e.opnd s .n32 x.a) l
     Gives s e (.bfe w) w.ty (fun l =>
       if k l = 0 ∨ W ≤ p l then 0
       else
         let n := min (p l + k l) W - p l
         let v := a l / 2 ^ p l % 2 ^ n
         if w.ty.signed then w.ty.wrap (Word.signExtend v n) else v) ∧
     Gives s e (.bfi w x) w.ty (fun l =>
       if k' l = 0 ∨ W ≤ k l then a l
       else
         let n := min (k l + k' l) W - k l
         a l % 2 ^ k l + b l % 2 ^ n * 2 ^ k l + a l / 2 ^ (k l + n) * 2 ^ (k l + n)) ∧
     (∃ v, Completes s e (.clz w) s [v] ∧ v.ty = w.ty ∧ ∀ l, l < e.l.g → laneIn e.act l = true →
        e.lane v l ≤ W ∧ a l % 2 ^ W < 2 ^ (W - e.lane v l) ∧ (e.lane v l < W → Word.bit (a l) (W - 1 - e.lane v l) = true)) ∧
     (∃ v, Completes s e (.ctz w) s [v] ∧ v.ty = w.ty ∧ ∀ l, l < e.l.g → laneIn e.act l = true →
        e.lane v l ≤ W ∧ a l % 2 ^ e.lane v l = 0 ∧ (e.lane v l < W → Word.bit (a l) (e.lane v l) = true)) ∧
     Gives s e (.bcnt w) w.ty (fun l => ((List.range W).filter (Word.bit (a l))).length) ∧
     (∃ v, Completes s e (.brev w) s [v] ∧ v.ty = w.ty ∧ ∀ l, l < e.l.g → laneIn e.act l = true →
        ∀ i, i < W → Word.bit (e.lane v l) i = Word.bit (a l) (W - 1 - i)) ∧
     Gives s e (.bswap w) w.ty (fun l => leNat (leBytes (W / 8) (a l)).reverse))

/-- `Claims.LogicAndShifts` and `Claims.BitFields` together. -/
def Obligations.LogicShiftsAndBitFields : Prop :=
  Claims.LogicAndShifts ∧ Claims.BitFields

/-- R328 to R331: compares, selection, conversion between integers, address arithmetic. -/
def Obligations.CompareSelectConvert : Prop :=
  ∀ (s : State) (e : Exe) (w : Main), Leaf s e → w.ty.width ≤ 64 →
    (let a := e.opA s w
     let b := e.opB s w
     let int (v : Nat) : Int := w.ty.toInt v
     (a.ty = w.ty → b.ty = w.ty →
       Gives s e (.cmp w) .p (fun l => Word.ofBool (comparePred (w.mod / 16 % 8) (int (e.lane a l)) (int (e.lane b l))))) ∧
     (b.ty = w.ty → (e.opC s w).ty = w.ty → (∀ l, e.lane b l < 2 ^ w.ty.width) → (∀ l, e.lane (e.opC s w) l < 2 ^ w.ty.width) →
       Gives s e (.sel w) w.ty (fun l => if e.lane (e.opnd s .p w.a) l % 2 = 1 then e.lane b l else e.lane (e.opC s w) l)) ∧
     (a.ty.width ≤ 64 →
       Gives s e (.cvti w) w.ty (fun l =>
         if Word.bit w.mod 3 = true ∧ w.ty.width ≤ a.ty.width then w.ty.sat (a.ty.toInt (e.lane a l)) else w.ty.wrap (a.ty.toInt (e.lane a l)))) ∧
     Gives s e (.lea w) w.ty (fun l =>
       w.ty.wrap ((e.lane a l : Int) + (e.opnd s .i64 w.b).ty.toInt (e.lane (e.opnd s .i64 w.b) l) * 2 ^ immNat w.c)))

/-- R332: `mov` copies its operand bit for bit, whatever the number of groups; an immediate is converted under R281. -/
def Obligations.MovCopies : Prop :=
  ∀ (s : State) (e : Exe) (w : Main), Runs s e → (e.opA s w).ty = w.ty →
    Gives s e (.mov w) w.ty (fun l => e.lane (e.opA s w) l) ∧
    (∀ v, w.a = .imm v → Gives s e (.mov w) w.ty (fun _ => immValue w.ty v)) ∧
    (e.act = e.th.mask → Completes s e (.mov w) s [⟨w.ty, (e.opA s w).val⟩])

/-- Table 16.1 and R338: operands decoded under FTZ, one exact result, one rounding; packed pairs half by half. -/
def Obligations.FloatArithmetic : Prop :=
  ∀ (s : State) (e : Exe) (w : Main), Leaf s e →
    (let md : Num.Mode := ⟨w.mod % 4, Word.bit w.mod 3, Word.bit w.mod 2⟩
     let one (f : Num.FVal → Num.FVal) (l : Nat) : Nat :=
       halves w.ty (fun xs => Num.roundTy w.ty.elem md (f (Num.decodeTy w.ty.elem md.ftz (arg xs 0)))) [e.lane (e.opA s w) l]
     let two (f : Num.FVal → Num.FVal → Num.FVal) (l : Nat) : Nat :=
       halves w.ty (fun xs => Num.roundTy w.ty.elem md
         (f (Num.decodeTy w.ty.elem md.ftz (arg xs 0)) (Num.decodeTy w.ty.elem md.ftz (arg xs 1))))
         [e.lane (e.opA s w) l, e.lane (e.opB s w) l]
     Gives s e (.fadd w) w.ty (two (Sys2Proof.Num.add md.rm)) ∧
     Gives s e (.fsub w) w.ty (two (fun a b => Sys2Proof.Num.add md.rm a b.neg)) ∧
     Gives s e (.fmul w) w.ty (two Sys2Proof.Num.mul) ∧
     Gives s e (.fdiv w) w.ty (two Sys2Proof.Num.div) ∧
     Gives s e (.fma w) w.ty (fun l => halves w.ty (fun xs => Num.roundTy w.ty.elem md
       (Sys2Proof.Num.add md.rm (Sys2Proof.Num.mul (Num.decodeTy w.ty.elem md.ftz (arg xs 0)) (Num.decodeTy w.ty.elem md.ftz (arg xs 1)))
         (Num.decodeTy w.ty.elem md.ftz (arg xs 2)))) [e.lane (e.opA s w) l, e.lane (e.opB s w) l, e.lane (e.opC s w) l]) ∧
     Gives s e (.sqrt w) w.ty (one Num.sqrt) ∧
     Gives s e (.rcp w) w.ty (one (Sys2Proof.Num.div (.fin false 1 0))) ∧
     Gives s e (.rsqrt w) w.ty (one Num.rsqrt) ∧
     Gives s e (.exp2 w) w.ty (one Num.exp2) ∧
     Gives s e (.log2 w) w.ty (one Num.log2) ∧
     Gives s e (.sin w) w.ty (one (Num.trig 0)) ∧
     Gives s e (.cos w) w.ty (one (Num.trig 1)) ∧
     Gives s e (.frnd w) w.ty (one (Num.frnd md.rm)) ∧
     Gives s e (.ldexp w) w.ty (fun l => Num.roundTy w.ty md
       (Num.ldexp (Num.decodeTy w.ty md.ftz (e.lane (e.opA s w) l)) (Ty.i32.toInt (e.lane (e.opnd s .i32 w.b) l)))) ∧
     Gives2 s e (.frexp w) w.ty .i32 (fun l => (Num.frexp w.ty md.ftz (e.lane (e.opA s w) l)).1)
       (fun l => Ty.i32.wrap (Num.frexp w.ty md.ftz (e.lane (e.opA s w) l)).2))

/-- R339 to R344: minimum and maximum, signs, compares, classes and conversions. -/
def Obligations.FloatOther : Prop :=
  ∀ (s : State) (e : Exe) (w : Main), Leaf s e →
    (let md : Num.Mode := ⟨w.mod % 4, Word.bit w.mod 3, Word.bit w.mod 2⟩
     let x (l : Nat) : Nat := e.lane (e.opA s w) l
     let y (l : Nat) : Nat := e.lane (e.opB s w) l
     let z (l : Nat) : Nat := e.lane (e.opC s w) l
     let ext (isMax : Bool) (p q : Nat) : Nat := halves w.ty (fun xs => fminmax w.ty.elem w.mod isMax (arg xs 0) (arg xs 1)) [p, q]
     let half : Nat := 2 ^ (w.ty.elem.width - 1)
     Gives s e (.fmin w) w.ty (fun l => ext false (x l) (y l)) ∧
     Gives s e (.fmax w) w.ty (fun l => ext true (x l) (y l)) ∧
     Gives s e (.fclamp w) w.ty (fun l => fminmax w.ty w.mod true (y l) (fminmax w.ty w.mod false (x l) (z l))) ∧
     Gives s e (.fabs w) w.ty (fun l => halves w.ty (fun xs => arg xs 0 % half) [x l]) ∧
     Gives s e (.fneg w) w.ty (fun l => halves w.ty (fun xs => arg xs 0 % 2 ^ w.ty.elem.width ^^^ half) [x l]) ∧
     Gives s e (.fsgn w) w.ty (fun l => halves w.ty (fun xs =>
       arg xs 0 % half + (arg xs 1 % 2 ^ w.ty.elem.width - arg xs 1 % half)) [x l, y l]) ∧
     Gives s e (.fcmp w) .p (fun l => Word.ofBool (Num.fcompare (w.mod / 16 % 8)
       (Num.decodeTy w.ty md.ftz (x l)) (Num.decodeTy w.ty md.ftz (y l)))) ∧
     Gives s e (.fclass w) .n32 (fun l => match Num.fmtOf w.ty with | some f => Num.fclass f (x l) | none => 0) ∧
     Gives s e (.cvt w) w.ty (fun l => Num.cvt (e.opA s w).ty w.ty md (x l)) ∧
     Gives2 s e (.cvtef w) w.ty (e.opA s w).ty (fun l => (Num.cvtef (e.opA s w).ty w.ty md (x l)).1)
       (fun l => (Num.cvtef (e.opA s w).ty w.ty md (x l)).2))

/-- R345 and R346: values move between active lanes, and lanes are reported. A source that is no active lane gives a lane its
own value. -/
def Obligations.LaneMovement : Prop :=
  ∀ (s : State) (e : Exe) (w : Main), Leaf s e → (e.opA s w).ty = w.ty → e.act ≠ 0 →
    (let a := e.opA s w
     let k (l : Nat) : Nat := e.lane (e.opnd s .n32 w.b) l
     let from_ (l : Nat) (src : Int) : Nat :=
       if 0 ≤ src ∧ src < e.l.g ∧ laneIn e.act src.toNat = true then e.lane a src.toNat else e.lane a l
     let lead := (lanesIn e.act).headD 0
     Gives s e (.shfl w) w.ty (fun l => from_ l (k l)) ∧
     Gives s e (.shflx w) w.ty (fun l => from_ l ((l ^^^ k l : Nat) : Int)) ∧
     Gives s e (.shfld w) w.ty (fun l => from_ l ((l : Int) + k l)) ∧
     Gives s e (.shflu w) w.ty (fun l => from_ l ((l : Int) - k l)) ∧
     Gives s e (.bcast w) w.ty (fun _ => if k lead < e.l.g ∧ laneIn e.act (k lead) = true then e.lane a (k lead) else e.lane a lead) ∧
     Gives s e (.elect w) w.ty (fun l => if l = lead then 1 else 0) ∧
     (∃ v, Completes s e (.ballot w) s [v] ∧ v.ty = w.ty ∧ ∀ l, l < e.l.g → laneIn e.act l = true → e.lane v l < 2 ^ 64 ∧
       ∀ i, i < 64 → Word.bit (e.lane v l) i = (laneIn e.act i && e.lane (e.opnd s .p w.a) i % 2 == 1)) ∧
     Gives s e (.popc w) .n32 (fun l =>
       ((List.range (match w.b with | .none => w.ty.width | _ => min (k l) w.ty.width)).filter (Word.bit (e.lane a l))).length))

/-- R347: a reduction of the active lanes to one value of class U; `redmin` and `redmax` of a floating-point type order the terms as R189
does and ignore NaNs, and only NaNs give the default NaN. -/
def Claims.Reductions : Prop :=
  ∀ (s : State) (e : Exe) (w : Main), Leaf s e →
    (let xs : List Nat := (lanesIn e.act).map (e.lane (e.opA s w))
     let md : Num.Mode := ⟨w.mod % 4, Word.bit w.mod 3, Word.bit w.mod 2⟩
     let total := (xs.map w.ty.toInt).sum
     (w.ty.isF = false → Gives s e (.redadd w) w.ty (fun _ => if Word.bit w.mod 3 then w.ty.sat total else w.ty.wrap total)) ∧
     (w.ty.isF = true → Gives s e (.redadd w) w.ty (fun _ =>
       Num.roundTy w.ty md (Num.exactSum md.rm (xs.map (Num.decodeTy w.ty md.ftz))))) ∧
     (w.ty.isInt = true → xs ≠ [] →
       (∃ m ∈ xs, (∀ x ∈ xs, w.ty.toInt m ≤ w.ty.toInt x) ∧ Gives s e (.redmin w) w.ty (fun _ => m)) ∧
       (∃ m ∈ xs, (∀ x ∈ xs, w.ty.toInt x ≤ w.ty.toInt m) ∧ Gives s e (.redmax w) w.ty (fun _ => m))) ∧
     (∀ f, w.ty.isF = true → Num.fmtOf w.ty = some f →
       (let ys := xs.map (Num.flushSrc w.ty md.ftz)
        ((∀ y ∈ ys, (f.decode y).isNan = true) → Gives s e (.redmin w) w.ty (fun _ => f.nan) ∧ Gives s e (.redmax w) w.ty (fun _ => f.nan)) ∧
        ((∃ y ∈ ys, (f.decode y).isNan = false) →
          (∃ m ∈ ys, (f.decode m).isNan = false ∧ (∀ y ∈ ys, (f.decode y).isNan = false → Num.ltOrd (f.decode y) (f.decode m) = false) ∧
            Gives s e (.redmin w) w.ty (fun _ => m)) ∧
          (∃ m ∈ ys, (f.decode m).isNan = false ∧ (∀ y ∈ ys, (f.decode y).isNan = false → Num.ltOrd (f.decode m) (f.decode y) = false) ∧
            Gives s e (.redmax w) w.ty (fun _ => m))))) ∧
     (xs ≠ [] →
       (∃ v, Completes s e (.redand w) s [v] ∧ v.ty = w.ty ∧ v.val.cls = (if e.act = e.th.mask then 0 else 2) ∧
         ∀ l, l < e.l.g → laneIn e.act l = true → ∀ i, Word.bit (e.lane v l) i = xs.all (fun x => Word.bit x i)) ∧
       (∃ v, Completes s e (.redor w) s [v] ∧ v.ty = w.ty ∧ v.val.cls = (if e.act = e.th.mask then 0 else 2) ∧
         ∀ l, l < e.l.g → laneIn e.act l = true → ∀ i, Word.bit (e.lane v l) i = xs.any (fun x => Word.bit x i))))

/-- R348, R349, R394 to R396: sparse compress, the counter-based generator, and packed narrow arithmetic. -/
def Claims.PackedResults : Prop :=
  ∀ (s : State) (e : Exe) (w : Main), Leaf s e →
    (let x (l : Nat) : Nat := e.lane (e.opnd s .b32 w.a) l
     let y (l : Nat) : Nat := e.lane (e.opnd s .b32 w.b) l
     let z (l : Nat) : Nat := e.lane (e.opC s w) l
     let el (b k v : Nat) : Int := if w.ty.signed then Word.signExtend (v / 2 ^ (b * k)) b else ((v / 2 ^ (b * k) % 2 ^ b : Nat) : Int)
     let dot (b m : Nat) (l : Nat) : Int := w.ty.toInt (z l) + ((List.range m).map (fun k => el b k (x l) * el b k (y l))).sum
     let out (v : Int) : Nat := if Word.bit w.mod 3 then w.ty.sat v else w.ty.wrap v
     Gives s e (.dp4 w) w.ty (fun l => out (dot 8 4 l)) ∧
     Gives s e (.dp8 w) w.ty (fun l => out (dot 4 8 l)) ∧
     (let a := e.opnd s .f16x2 w.a
      let b := e.opnd s .f16x2 w.b
      -- a constant takes the pair type of the other operand (R281, R282)
      let pair : Ty := match w.a with | .pool _ => b.ty | .imm _ => b.ty | _ => a.ty
      Gives s e (.dp2 w) w.ty (fun l => dp2Bits pair w.mod (e.lane a l) (e.lane b l) (z l))) ∧
     Gives s e (.pack w) w.ty (fun l => packBits (immNat w.c) w.mod (x l) (e.lane (e.opnd s .f32 w.b) l)) ∧
     Gives s e (.unpack w) (unpackTy (immNat w.b)) (fun l => unpackBits (immNat w.b) w.mod (x l)) ∧
     Gives s e (.sprs w) (if w.ty.width = 8 then .b32 else .b64) (fun l =>
       sprsBits w.ty (e.lane (e.opnd s (if w.ty.width = 8 then .b32 else .b64) w.a) l)) ∧
     Gives s e (.rndk w) .b64 (fun l => Num.mix (e.lane (e.opnd s .n64 w.a) l) (e.lane (e.opnd s .n64 w.b) l)))

/-- `Claims.Reductions` and `Claims.PackedResults` together. -/
def Obligations.ReductionsAndPackedArithmetic : Prop :=
  Claims.Reductions ∧ Claims.PackedResults

/-! ### Galleys of many groups (Table 5.1, R101) -/

/-- The affine rows of Table 5.1: from U and A operands, at least one of them A, these instructions give class A and leave
the galley whole, whatever its number of groups. -/
def Claims.AffineResults : Prop :=
  ∀ (s : State) (e : Exe) (w : Main) (x y x' y' : Word) (u : Bits), Runs s e → e.act = e.th.mask → Word.bit w.mod 3 = false →
    (let A (p q : Word) : TVal := ⟨w.ty, .a p q⟩
     let U : TVal := ⟨w.ty, .u u⟩
     let u64 : Word := u.truncate 64
     (e.opA s w = A x y → e.opB s w = A x' y' →
       Completes s e (.add w) s [A (x + x') (y + y')] ∧ Completes s e (.sub w) s [A (x - x') (y - y')]) ∧
     (e.opA s w = A x y → e.opB s w = U →
       Completes s e (.add w) s [A (x + u64) y] ∧ Completes s e (.sub w) s [A (x - u64) y] ∧
       Completes s e (.mul w) s [A (x * u64) (y * u64)]) ∧
     (e.opA s w = U → e.opB s w = A x y →
       Completes s e (.add w) s [A (u64 + x) y] ∧ Completes s e (.sub w) s [A (u64 - x) (-y)] ∧
       Completes s e (.mul w) s [A (x * u64) (y * u64)]) ∧
     (e.opA s w = A x y →
       Completes s e (.neg w) s [A (-x) (-y)] ∧ Completes s e (.not w) s [A (-x - 1) (-y)] ∧
       Completes s e (.cvti w) s [A x y] ∧ Completes s e (.mov w) s [A x y]) ∧
     (e.opA s w = A x y → e.opnd s .n32 w.b = ⟨.n32, .u u⟩ → u.toNat < 64 →
       Completes s e (.shl w) s [A (x <<< u.toNat) (y <<< u.toNat)]))

/-- R101: an instruction that computes lane by lane and meets an operand of class S unfolds its galley: one leaf for each
group, all at this same instruction, the first in the galley's place and the others pending; it executes again in each. It
waits until every access the galley issued is accepted (R102). -/
def Claims.UnfoldsToLeaves : Prop :=
  ∀ (s : State) (e : Exe) (w : Main), Runs s e → 1 < e.g.count → (e.opA s w).val.cls = 2 →
    (∀ i ∈ [Instr.mulhi w, .mad w, .div w, .rem w, .min w, .max w, .clamp w, .adiff w, .and w, .or w, .xor w, .shr w, .sra w,
        .rotl w, .bfe w, .clz w, .ctz w, .bcnt w, .brev w, .bswap w, .fadd w, .fsub w, .fmul w, .fdiv w, .fma w, .sqrt w],
      (e.owes s = false → exec i s = .next (unfold s e.l (e.g.setThread e.uid e.th) e.core)) ∧
      (e.owes s = true → exec i s = .next (e.park s .drain))) ∧
    (let t := unfold s e.l (e.g.setThread e.uid e.th) e.core
     (∀ j, j < e.g.count → ∃ g ∈ t.galleys, g.launch = e.g.launch ∧ g.first = e.g.first + j ∧ g.count = 1 ∧
       (g.core = e.g.core ∧ g.slot = e.g.slot ∨ g.core = none) ∧
       g.paths.map (fun p => p.th.instr) = e.g.paths.map (fun p => p.th.instr) ∧
       g.paths.map (fun p => p.th.vals) = e.g.paths.map (fun p => p.th.vals) ∧
       ∀ p ∈ g.paths, p.th.mask = e.l.liveLanes (e.g.first + j)) ∧
     t.galleys.length = s.galleys.length + (e.g.count - 1) ∧ t.mem = s.mem ∧ t.cores = s.cores)

/-- `Claims.AffineResults` and `Claims.UnfoldsToLeaves` together. -/
def Obligations.AffineFormsAndUnfolding : Prop :=
  Claims.AffineResults ∧ Claims.UnfoldsToLeaves

/-! ### Control flow: chapters 5 and 14 -/

/-- R310 to R317 where the unit goes one way as a whole: it stands at the entry of the block that the instruction names, its
arguments are the operands in the types the block declares, and a call pushes its continuation. What the entry then does
(look the body up, wait at a JOIN or at a reconvergence block) is `atEntry`. -/
def Claims.TransfersEnterBlocks : Prop :=
  ∀ (s : State) (e : Exe) (w : Main), Runs s e → e.act ≠ 0 →
    Completes s e (.nop w) s [] ∧
    (∀ (t : Target) (tys : List Ty), e.blockTys s t.block = (some tys, s) →
      exec (.br w t) s = .next (atEntry (e.put s (e.th.enter t.block (e.args s tys t.args) e.th.stack)) e.uid)) ∧
    (∀ (rc : Nat) (tt nt : Target) (ttys ntys : List Ty) (u : Bits), (e.opnd s .p w.a).val = .u u →
      e.blockTys s tt.block = (some ttys, s) → e.blockTys s nt.block = (some ntys, s) →
      exec (.brc w rc tt nt) s = .next (atEntry (e.put s
        (if u.toNat % 2 = 1 then e.th.enter tt.block (e.args s ttys tt.args) e.th.stack
         else e.th.enter nt.block (e.args s ntys nt.args) e.th.stack)) e.uid)) ∧
    (∀ (rc : Nat) (d c : Target) (dtys ctys : List Ty) (u : Bits), (e.opnd s .n32 w.a).val = .u u →
      e.blockTys s d.block = (some dtys, s) → e.blockTys s c.block = (some ctys, s) →
      exec (.brsw w rc d [c]) s = .next (atEntry (e.put s
        (if u.toNat = 0 then e.th.enter c.block (e.args s ctys c.args) e.th.stack
         else e.th.enter d.block (e.args s dtys d.args) e.th.stack)) e.uid)) ∧
    (∀ (t : Target) (b : Nat) (tys : List Ty), e.callee s (e.lane (e.opnd s .n32 w.a) e.leadLane) = (some (b, tys), s) →
      exec (.call w t) s = .next (
        if e.th.stack.length < 32 then atEntry (e.put s (e.th.enter b (e.args s tys t.args) (t.block :: e.th.stack))) e.uid
        else e.faultAll s .callDepth)) ∧
    (∀ (t : Target) (o : CodeObj) (u : Bits), (e.opnd s .n32 w.a).val = .u u →
      s.obj? e.l.tenant e.l.ctx e.l.obj = some o →
      exec (.calli w t) s = .next (
        if o.nfunc ≤ u.toNat then e.faultAll s .callTarget
        else
          match e.callee s u.toNat with
          | (some (b, tys), s) =>
            if e.matchAll s tys t.args = false then e.faultAll s .callSignature
            else if e.th.stack.length < 32 then atEntry (e.put s (e.th.enter b (e.args s tys t.args) (t.block :: e.th.stack))) e.uid
            else e.faultAll s .callDepth
          | (none, s) => s)) ∧
    (∀ (xs : List X4) (c : Nat) (rest : List Nat) (tys : List Ty), e.th.stack = c :: rest → e.blockTys s c = (some tys, s) →
      exec (.ret w xs) s = .next (
        if e.matchAll s tys (retOpnds w xs) = false then e.faultAll s .callSignature
        else if rest.length < e.th.split then e.faultAll s .reconvergeMismatch
        else atEntry (e.put s (e.th.enter c (e.args s tys (retOpnds w xs)) rest)) e.uid)) ∧
    (∀ xs, e.th.stack = [] → exec (.ret w xs) s = exec (.retire w) s)

/-- R316 with R80 and R116: the last lanes of a leaf retire. The galley leaves its slot, the launch counts its group as
retired, and its domain has one group fewer, which it no longer expects unless the group had arrived. -/
def Claims.RetireFreesTheSlot : Prop :=
  ∀ (s : State) (e : Exe) (w : Main), Lone s e → (State.groupSt e.l e.g.first).tx.depth = 0 →
    (let d := e.l.domainOf e.g.first
     let dom := e.l.domains.getD d .empty
     dom.arrived = 0 →
     exec (.retire w) s = .next ((s.dropGalley e.g.id).setLaunch { e.l with
       retired := e.l.retired + 1
       domains := e.l.domains.set d { dom with
         live := dom.live - 1
         expected := if e.g.pending = true ∧ e.g.recorded = dom.phase then dom.expected else dom.expected - 1 } }))

/-- `Claims.TransfersEnterBlocks` and `Claims.RetireFreesTheSlot` together. -/
def Obligations.TransfersAndRetirement : Prop :=
  Claims.TransfersEnterBlocks ∧ Claims.RetireFreesTheSlot

/-- R105 and R311: a condition that differs among the lanes of a lone path splits it in two, one path for each outcome; the
path with the lowest lane comes first, each records the reconvergence block, and both enter their blocks with the arguments
their targets name. -/
def Claims.BranchDiverges : Prop :=
  ∀ (s : State) (e : Exe) (w : Main) (rc : Nat) (tt nt : Target) (ttys ntys : List Ty), Lone s e →
    (e.opnd s .p w.a).val.cls = 2 → (∀ p t b st u f, (e.opnd s .p w.a).val ≠ .cmp p t b st u f) →
    e.blockTys s tt.block = (some ttys, s) → e.blockTys s nt.block = (some ntys, s) →
    (let c (l : Nat) : Bool := e.lane (e.opnd s .p w.a) l % 2 == 1
     (∃ l, laneIn e.act l = true ∧ c l = true) → (∃ l, laneIn e.act l = true ∧ c l = false) →
     ∃ (T F : Mask), (∀ l, laneIn T l = (laneIn e.act l && c l)) ∧ (∀ l, laneIn F l = (laneIn e.act l && !c l)) ∧
      (let path (t : Target) (tys : List Ty) (m : Mask) : Path :=
         ⟨{ (e.th.enter t.block (e.args s tys t.args) e.th.stack) with mask := m, split := e.th.stack.length }, some rc, [], none, []⟩
       let ps := if c e.leadLane then [path tt ttys T, path nt ntys F] else [path nt ntys F, path tt ttys T]
       exec (.brc w rc tt nt) s =
         .next (pathAtEntry (pathAtEntry (s.setGalley { e.g with paths := ps }) e.g.id 0) e.g.id 1)))

/-- R106: a path at the entry of the block it recorded for reconvergence waits there while another path of its group still
runs. -/
def Claims.ReconvergenceWaits : Prop :=
  ∀ (s : State) (g : Galley) (p q : Path) (i k : Nat), s.galley? g.id = some g → g.paths[i]? = some p → g.paths[k]? = some q →
    i ≠ k → p.th.entering = true → p.th.wait = .none → p.reconv = some p.th.block → q.th.mask ≠ 0 → q.items = [] →
    q.th.wait = .none → (∀ x ∈ g.paths, x.items = [] ∧ x.th.stand = .running) →
    pathAtEntry s g.id i = putThread s ⟨g.id, i, none⟩ { p.th with wait := .reconv }

/-- R106 and R107: when every path of a group waits at one reconvergence block with one call stack, they become one path
with all their lanes, and each lane keeps the arguments of the path it came from: an argument on which both agree as one function keeps
its class, and any other is S; a different block or stack is
RECONVERGE_MISMATCH. -/
def Claims.ReconvergenceMerges : Prop :=
  ∀ (s : State) (g : Galley) (l : Launch) (p q : Path), s.galley? g.id = some g → s.launch? g.launch = some l → g.paths = [p, q] →
    p.items = [] → q.items = [] → p.th.mask ≠ 0 → q.th.mask ≠ 0 → p.th.mask &&& q.th.mask = 0 →
    p.th.wait = .reconv → q.th.wait = .reconv →
    (p.th.block ≠ q.th.block ∨ p.th.stack ≠ q.th.stack → checkMerge s g.id = galleyFault s g l (⟨g.id, 0, none⟩, p.th) .reconvergeMismatch) ∧
    (p.th.block = q.th.block → p.th.stack = q.th.stack →
      ∃ th : Thread, checkMerge s g.id = beginBlock (s.setGalley { g with paths := [⟨th, none, [], none, []⟩] }) ⟨g.id, 0, none⟩ ∧
        th.block = p.th.block ∧ th.stack = p.th.stack ∧ th.instr = 0 ∧ th.vals = [] ∧ th.mask = p.th.mask ||| q.th.mask ∧
        th.args.length = p.th.args.length ∧
        ∀ (i : Nat) (a b c : TVal), th.args[i]? = some a → p.th.args[i]? = some b → q.th.args[i]? = some c → c.ty = b.ty →
          (let m := 2 ^ b.ty.width
           -- both are U and equal, or both are A and the same function, a U value being one of step 0 (R96, R106)
           let same : Prop := ∃ x y x' y', b.val.affine = some (x, y) ∧ c.val.affine = some (x', y') ∧ x.toNat % m = x'.toNat % m ∧
             y.toNat % m = y'.toNat % m
           let fits (v : TVal) : Prop := ∀ lane, lane < l.g → v.val.lane b.ty l.g g.first lane < m
           (b.ty.width ≤ 64 → (same → a = b) ∧ (¬ same → a.ty = b.ty ∧ a.val.cls = 2)) ∧
           (b.ty.width ≤ 128 → fits b → fits c → ∀ lane, lane < l.g →
             (laneIn p.th.mask lane = true → a.val.lane a.ty l.g g.first lane = b.val.lane b.ty l.g g.first lane) ∧
             (laneIn q.th.mask lane = true → a.val.lane a.ty l.g g.first lane = c.val.lane c.ty l.g g.first lane))))

/-- `Claims.BranchDiverges`, `Claims.ReconvergenceWaits` and `Claims.ReconvergenceMerges` together. -/
def Obligations.BranchesAndReconvergence : Prop :=
  Claims.BranchDiverges ∧ Claims.ReconvergenceWaits ∧ Claims.ReconvergenceMerges

/-! ### Memory: chapters 7, 8 and 16 -/

/-- R353: a load outside transactions that goes to the home slice. Every active lane gets the little-endian bytes at the
target of its address a + o, and nothing but the result and the TLBs changes. -/
def Claims.LoadsFromHome : Prop :=
  ∀ (s t : State) (e : Exe) (w : Main) (ts : List (Req × PTarget × Bool)), Leaf s e → e.tx? = none →
    (let a := e.opnd s .n64 w.a
     let o := e.opnd s .i64 w.b
     let n := w.ty.bytes
     let ea (l : Nat) : Nat := (e.lane a l + e.lane o l) % 2 ^ 64
     Reaches s e .rd ((e.actors [a, o]).map (fun i => ⟨i.1, i.2, e.ea a o i, n, n⟩)) ts t → t.NoExact → t.serial.locks = [] →
     (Word.bit w.mod 6 = true ∨ w.mod / 8 % 4 ≠ 0) →
     ∃ v, Completes s e (.ldG w) t [v] ∧ v.ty = w.ty ∧ ∀ l, l < e.l.g → laneIn e.act l = true →
       ∃ x ∈ ts, x.1.va = ea l ∧ e.lane v l = leNat ((t.memOf x.2.1.tgt).readBytes x.2.1.pa n) % 2 ^ 128)

/-- R156, R157: a plain load of device memory may be served by the core's L1. A sector that the L1 holds gives the bytes it was
filled with; any other is read at its home, and one that the load itself evicts may be either. No memory changes. -/
def Claims.PlainLoadsThroughL1 : Prop :=
  ∀ (s t : State) (e : Exe) (w : Main) (ts : List (Req × PTarget × Bool)), Leaf s e → e.tx? = none →
    (let a := e.opnd s .n64 w.a
     let o := e.opnd s .i64 w.b
     let n := w.ty.bytes
     Reaches s e .rd ((e.actors [a, o]).map (fun i => ⟨i.1, i.2, e.ea a o i, n, n⟩)) ts t → t.NoExact → t.serial.locks = [] →
     Word.bit w.mod 6 = false → w.mod / 8 % 4 = 0 → (∀ x ∈ ts, x.2.1.tgt = 0 ∧ x.2.2 = false) →
     ∃ v u, Completes s e (.ldG w) u [v] ∧ v.ty = w.ty ∧ u.mem = t.mem ∧ u.hostMem = t.hostMem ∧ u.peerMem = t.peerMem ∧
       ∀ l, l < e.l.g → laneIn e.act l = true → ∃ x ∈ ts, x.1.va = (e.lane a l + e.lane o l) % 2 ^ 64 ∧
         (let pa := x.2.1.pa
          let l1 := (t.core e.core).l1
          let home := t.mem.readBytes (pa / 16 * 16) 16
          ∃ sector, e.lane v l = leNat ((sector.drop (pa % 16)).take n) % 2 ^ 128 ∧
            (sector = home ∨ (l1.get? (pa / 16)).map L1Sec.bytes = some sector) ∧
            (((l1.map (fun y => y.1 / 8)).dedup.length + ts.length ≤ 1024) →
              sector = match l1.get? (pa / 16) with | some b => b.bytes | none => home)))

/-- R109, R161, R353: a store outside transactions. Each byte of a lane's value goes to the target of its address, the highest
lane's bytes stay where lanes overlap, in per-item mode also those of a higher lane's earlier store; every other byte of device
memory keeps its value, and no register but the unit's place changes. -/
def Claims.StoresToMemory : Prop :=
  ∀ (s t : State) (e : Exe) (w : Main) (ts : List (Req × PTarget × Bool)), Leaf s e → e.tx? = none → e.owes s = false →
    (let a := e.opnd s .n64 w.a
     let v := e.opB s w
     let o := e.opnd s .i64 w.c
     let n := w.ty.bytes
     Reaches s e .wr ((e.actors [a, v, o]).map (fun i => ⟨i.1, i.2, e.ea a o i, n, n⟩)) ts t → t.NoExact → t.mem.wf = true →
     (∀ x ∈ ts, x.2.1.tgt = 0) →
     ∃ u, Completes s e (.stG w) u [] ∧ u.hostMem = t.hostMem ∧ u.peerMem = t.peerMem ∧ u.ctxs = t.ctxs ∧ u.launches = t.launches ∧
       (e.uid.item = none → u.galleys = t.galleys) ∧ u.mem.wf = true ∧
       (∀ b, (∀ x ∈ ts, inSpan b x.2.1.pa n → e.outranked 0 b = true) → u.mem.read b = t.mem.read b) ∧
       ∀ (before after : List (Req × PTarget × Bool)) (x : Req × PTarget × Bool), ts = before ++ x :: after →
         ∀ i, i < n → e.outranked 0 (x.2.1.pa + i) = false →
           (∀ y ∈ after, inSpan (x.2.1.pa + i) y.2.1.pa n → e.outranked 0 (x.2.1.pa + i) = true) →
           (u.mem.read (x.2.1.pa + i)).toNat = e.lane v x.1.lane / 256 ^ i % 256)

/-- R351 with Table 7.3: where the looks of a load's or a store's lanes miss no translation and some lane fails a check, the
access does not happen; the fault is that of the lowest failing lane, with its code, its number and its address. -/
def Claims.LowestFailingLaneFaults : Prop :=
  ∀ (s : State) (e : Exe) (w : Main) (r : Req) (c : Code) (before after : List (Req × Look)), Leaf s e → e.tx? = none →
    e.owes s = false → (∀ k ∈ before, k.2 ≠ .unknown ∧ ∀ d, k.2 ≠ .fail d) → (∀ k ∈ after, k.2 ≠ .unknown) →
    (let n := w.ty.bytes
     let rs (o : Opnd) (vs : List TVal) : List Req :=
       (e.actors vs).map (fun i => ⟨i.1, i.2, e.ea (e.opnd s .n64 w.a) (e.opnd s .i64 o) i, n, n⟩)
     (∀ t, lookAll e.view .rd (rs w.b [e.opnd s .n64 w.a, e.opnd s .i64 w.b]) s = (before ++ (r, .fail c) :: after, t) →
       exec (.ldG w) s = .next (takeFault t e.g e.l e.th c r.lane 0 r.va)) ∧
     (∀ t, lookAll e.view .wr (rs w.c [e.opnd s .n64 w.a, e.opB s w, e.opnd s .i64 w.c]) s = (before ++ (r, .fail c) :: after, t) →
       exec (.stG w) s = .next (takeFault t e.g e.l e.th c r.lane 0 r.va)))

/-- `Claims.LoadsFromHome`, `Claims.PlainLoadsThroughL1` and `Claims.LowestFailingLaneFaults` together. -/
def Obligations.LoadsAndTheirFaults : Prop :=
  Claims.LoadsFromHome ∧ Claims.PlainLoadsThroughL1 ∧ Claims.LowestFailingLaneFaults

/-- R354: scratchpad loads and stores. The offset a + o is exact; when every lane's is aligned and inside SPADBYTES the access
happens, and touches no other byte; a store follows the group's no-return atomics (R355). Otherwise the lowest lane that fails raises
MISALIGNED or SPAD_RANGE, and nothing is loaded or stored. -/
def Obligations.ScratchpadAccess : Prop :=
  ∀ (s : State) (e : Exe) (w : Main), Leaf s e → 1 ≤ w.ty.bytes → (s.core e.core).spad.wf = true →
    (∀ th ∈ e.g.threads, ∀ n, th.native = some n → n.stores = []) →
    (let n := w.ty.bytes
     let off (o : TVal) (l : Nat) : Int := (e.lane (e.opnd s .n32 w.a) l : Int) + Ty.i32.toInt (e.lane o l)
     let good (x : Int) : Prop := x % n = 0 ∧ 0 ≤ x ∧ x + n ≤ e.l.spad
     ((∀ l, laneIn e.act l = true → good (off (e.opnd s .i32 w.b) l)) →
       Gives s e (.ldS w) w.ty (fun l => (s.core e.core).spad.readNat (off (e.opnd s .i32 w.b) l).toNat n)) ∧
     (e.owed s = [] → (∀ l, laneIn e.act l = true → good (off (e.opnd s .i32 w.c) l)) →
       ∃ (t : State) (spad : Memory), Completes s e (.stS w) t [] ∧ t.core e.core = { s.core e.core with spad := spad } ∧
         (∀ c, c ≠ e.core → t.core c = s.core c) ∧ t.mem = s.mem ∧ t.launches = s.launches ∧ t.ctxs = s.ctxs ∧
         (e.uid.item = none → t.galleys = s.galleys) ∧ spad.wf = true ∧
         (∀ b, (∀ l, laneIn e.act l = true → inSpan b (off (e.opnd s .i32 w.c) l).toNat n → e.outranked 3 b = true) →
           spad.read b = (s.core e.core).spad.read b) ∧
         ∀ l, laneIn e.act l = true → (∀ k, l < k → laneIn e.act k = true →
           off (e.opnd s .i32 w.c) k ≠ off (e.opnd s .i32 w.c) l) →
           (∀ i, i < n → e.outranked 3 ((off (e.opnd s .i32 w.c) l).toNat + i) = false) →
           spad.readNat (off (e.opnd s .i32 w.c) l).toNat n = e.lane (e.opB s w) l % 256 ^ n) ∧
     (∀ l, laneIn e.act l = true →
       (let fails (o : TVal) (i : Instr) : Prop := ¬ good (off o l) → (∀ k, k < l → laneIn e.act k = true → good (off o k)) →
          exec i s = .next (takeFault s e.g e.l e.th (if off o l % n ≠ 0 then .misaligned else .spadRange) l 0 0)
        fails (e.opnd s .i32 w.b) (.ldS w) ∧ fails (e.opnd s .i32 w.c) (.stS w))))

/-- R356: a hint changes no memory and no result; the unit goes on. -/
def Claims.HintsChangeNoMemory : Prop :=
  ∀ (s : State) (e : Exe) (w : Main), Runs s e → s.NoExact → s.serial.locks = [] →
    (∃ t, Completes s e (.pref w) t [] ∧ t.mem = s.mem ∧ t.hostMem = s.hostMem ∧ t.peerMem = s.peerMem ∧ t.galleys = s.galleys ∧
      t.launches = s.launches ∧ t.ctxs = s.ctxs) ∧
    (∃ t, Completes s e (.evict w) t [] ∧ t.mem = s.mem ∧ t.hostMem = s.hostMem ∧ t.peerMem = s.peerMem ∧ t.galleys = s.galleys ∧
      t.launches = s.launches ∧ t.ctxs = s.ctxs)

/-- `Claims.StoresToMemory` and `Claims.HintsChangeNoMemory` together. -/
def Obligations.StoresAndHints : Prop :=
  Claims.StoresToMemory ∧ Claims.HintsChangeNoMemory

/-! ### Tensors: chapter 11 and 17 -/

/-- R231, R232, R359, R360: `tnld` of an unpacked tensor through a sealed handle. A lane inside the tensor gets the element that
the layout places; a lane outside gets the padding. -/
def Claims.TensorLoads : Prop :=
  ∀ (s t : State) (e : Exe) (w : Main) (x : X4) (hv : Bits) (r : List Byte) (ts : List (Req × PTarget × Bool)), Leaf s e →
    e.tx? = none → (e.opnd s .h w.a).val = .u hv → cachedRec s (clusterOf e.core) e.l.tenant e.l.ctx (handleVa hv.toNat) = some r →
    answers r hv.toNat = true → tyAgrees r w.ty = true → recRlstate r = 0 → recBlock r = false → 8 ≤ recBits r → w.mod / 8 % 4 ≠ 0 →
    (let at_ (i : Nat × Nat) : List Int := (coordOpnds w x).map (fun o => Ty.i64.toInt (e.at_ (e.opnd s .i64 o) i))
     let place (c : List Int) : Nat := (elemAt r (recTag r) (recBase r) 0 (c.map Int.toNat)).addr
     let n := recBits r / 8
     let actors := e.actors (e.opnd s .h w.a :: (coordOpnds w x).map (e.opnd s .i64))
     Reaches s e .rd ((actors.filter (fun i => inside r (at_ i))).map (fun i => ⟨i.1, i.2, place (at_ i), n, n⟩)) ts t →
     t.NoExact → t.serial.locks = [] →
     ∃ v, Completes s e (.tnld w x) t [v] ∧ v.ty = w.ty ∧ ∀ l, l < e.l.g → laneIn e.act l = true →
       (inside r (at_ (e.g.first, l)) = true → ∃ y ∈ ts, y.1.va = place (at_ (e.g.first, l)) ∧
         e.lane v l = leNat ((t.memOf y.2.1.tgt).readBytes y.2.1.pa n) % 2 ^ 128) ∧
       (inside r (at_ (e.g.first, l)) = false → e.lane v l = recPad r % 2 ^ recBits r % 2 ^ 128))

/-- R359, R360: `tnst` of one item through a sealed handle stores its element where the layout places it, and nothing outside
the tensor; in per-item mode a byte that a higher lane has stored stays (R109). -/
def Claims.TensorStores : Prop :=
  ∀ (s t : State) (e : Exe) (w : Main) (x y : X4) (hv : Bits) (r : List Byte) (i : Nat × Nat) (q : Req × PTarget × Bool), Leaf s e →
    e.tx? = none → e.owes s = false → (e.opnd s .h w.a).val = .u hv →
    cachedRec s (clusterOf e.core) e.l.tenant e.l.ctx (handleVa hv.toNat) = some r →
    answers r hv.toNat = true → tyAgrees r w.ty = true → recRlstate r = 0 → recBlock r = false → 8 ≤ recBits r →
    (let os := [w.c, x.a, x.b, x.c, x.d, y.a]
     let c : List Int := os.map (fun o => Ty.i64.toInt (e.at_ (e.opnd s .i64 o) i))
     let n := recBits r / 8
     e.actors (e.opnd s .h w.a :: e.opnd s w.ty w.b :: os.map (e.opnd s .i64)) = [i] →
     (inside r c = false → Completes s e (.tnst w x y) s []) ∧
     (inside r c = true → Reaches s e .wr [⟨i.1, i.2, (elemAt r (recTag r) (recBase r) 0 (c.map Int.toNat)).addr, n, n⟩] [q] t →
       t.NoExact → q.2.1.tgt = 0 →
       ∃ u, Completes s e (.tnst w x y) u [] ∧
         ((∀ k, k < n → e.outranked 0 (q.2.1.pa + k) = false) →
           u.mem = t.mem.writeBytes q.2.1.pa (leBytes n (e.at_ (e.opnd s w.ty w.b) i))) ∧
         (t.mem.wf = true → ∀ b, (inSpan b q.2.1.pa n → e.outranked 0 b = true) → u.mem.read b = t.mem.read b) ∧
         u.hostMem = t.hostMem ∧ (e.uid.item = none → u.galleys = t.galleys)))

/-- `Claims.TensorLoads` and `Claims.TensorStores` together. -/
def Obligations.TensorTransfers : Prop :=
  Claims.TensorLoads ∧ Claims.TensorStores

/-- R231, R236, R361 to R363: what is read of a sealed record through its handle: its fields, and the global logical index of an item's
coordinates; `tnpref` changes nothing. The index of affine coordinates is affine, whatever the galley's number of groups. DEDUCED (log
29): a stale handle is found before a fault of the record, and a record that the cluster has cached is read from there while its seal
holds; both are the model's readings, not R236's words. -/
def Claims.TensorQueries : Prop :=
  (∀ (s : State) (e : Exe) (w : Main) (x : X4) (hv : Bits) (r : List Byte) (cs : List (Word × Word)), Runs s e → e.act ≠ 0 → e.act = e.th.mask →
    (e.opnd s .h w.a).val = .u hv → cachedRec s (clusterOf e.core) e.l.tenant e.l.ctx (handleVa hv.toNat) = some r → answers r hv.toNat = true →
    (let os := (coordOpnds w x).map (e.opnd s .i64)
     List.Forall₂ (fun (o : TVal) (c : Word × Word) => o.val.affine = some c) os cs → (∃ o ∈ os, o.val.cls = 1) →
     (let scaled (f : Word × Word → Word) : Word := ((List.range (recRank r)).map (fun d => f (cs.getD d (0, 0)) * BitVec.ofNat 64 (recM r d))).sum
      Completes s e (.tnidx w x) s [⟨w.ty, .a
        (BitVec.ofNat 64 (((List.range (recRank r)).map (fun d => recOrigin r d * recM r d)).sum) + scaled Prod.fst) (scaled Prod.snd)⟩]))) ∧
  ∀ (s : State) (e : Exe) (w : Main) (x : X4) (hv : Bits) (r : List Byte), Leaf s e → e.act ≠ 0 → (e.opnd s .h w.a).val = .u hv →
    cachedRec s (clusterOf e.core) e.l.tenant e.l.ctx (handleVa hv.toNat) = some r → answers r hv.toNat = true →
    (let k := immNat w.b
     let field : Nat :=
       if k = 0 then recNat r 0 8 else if k = 1 then recBase r else if k ≤ 7 then recExt r (k - 2)
       else if k ≤ 13 then recNat r (0x28 + 8 * (k - 8)) 8 else if k ≤ 19 then recOrigin r (k - 14)
       else if k = 20 then recScaleBase r else if k = 21 then recScaleStride r else if k = 22 then recPad r else recNat r 0x88 8
     (k < 24 → Gives s e (.tninfo w) w.ty (fun _ => field)) ∧
     ((∀ o ∈ coordOpnds w x, (e.opnd s .i64 o).ty = .i64) → w.ty.width = 64 → recRank r ≤ 6 →
       Gives s e (.tnidx w x) w.ty (fun l =>
         Word.wrapInt (((List.range (recRank r)).map (fun d => ((recOrigin r d : Int) +
           Ty.i64.toInt (e.lane (e.opnd s .i64 ((coordOpnds w x).getD d .none)) l)) * recM r d)).sum) 64)) ∧
     Completes s e (.tnpref w x) s [])

/-- R233, R234, R358: sealing one record on one page. A record that meets R233 gets the next generation, is marked sealed, and the
handle packs generation and address; one already sealed keeps its generation and no byte of it changes; one that breaks R233 raises
TN_RECORD. -/
def Claims.Sealing : Prop :=
  ∀ (s t : State) (e : Exe) (w : Main) (i : Nat × Nat) (q : Req × PTarget × Bool), Leaf s e → e.tx? = none → e.owes s = false →
    (let rv := e.opnd s .n64 w.a
     let va := e.at_ rv i
     e.actors [rv] = [i] → va % 64 = 0 → va % 65536 + 192 ≤ 65536 → Reaches s e .wr [⟨i.1, i.2, va, 192, 1⟩] [q] t →
     t.NoExact → t.serial.locks = [] → q.2.1.tgt = 0 →
     (let r := t.mem.readBytes q.2.1.pa 192
      let gen := (recSealgen r + 1) % 128
      (Word.bit (recFlags r) 0 = false → recordOk r = true → recRlstate r = 0 → (∀ k, k < 8 → e.outranked 0 (q.2.1.pa + k) = false) →
        ∃ u v, Completes s e (.tnseal w) u [v] ∧ v.ty = w.ty ∧ (e.uid.item = none → u.galleys = t.galleys) ∧ u.clusters = t.clusters ∧
          u.mem = (t.mem.writeBytes (q.2.1.pa + 3) [BitVec.ofNat 8 (recFlags r + 1)]).writeBytes (q.2.1.pa + 7) [BitVec.ofNat 8 gen] ∧
          ∀ l, l < e.l.g → laneIn e.act l = true → e.lane v l = (gen * 2 ^ 57 + va % 2 ^ 57) % 2 ^ 128) ∧
      (Word.bit (recFlags r) 0 = true →
        ∃ v, Completes s e (.tnseal w) t [v] ∧
          ∀ l, l < e.l.g → laneIn e.act l = true → e.lane v l = (recSealgen r % 128 * 2 ^ 57 + va % 2 ^ 57) % 2 ^ 128) ∧
      (Word.bit (recFlags r) 0 = false → recordOk r = false →
        exec (.tnseal w) s = .next (takeFault t e.g e.l e.th .tnRecord i.2 0 va))))

/-- R235, R236, R358: `tnflush` unseals a record that does not relay, and drops it from every cluster's cache; a handle whose generation
the record does not answer is TN_STALE. DEDUCED (log 11): a fault of a group-level handle records lane 0xFF. -/
def Claims.Flushing : Prop :=
  ∀ (s t : State) (e : Exe) (w : Main) (hv : Bits) (r : List Byte) (q : Req × PTarget × Bool), Leaf s e → e.tx? = none →
    e.owes s = false → (e.opnd s .h w.a).val = .u hv → cachedRec s (clusterOf e.core) e.l.tenant e.l.ctx (handleVa hv.toNat) = some r →
    (answers r hv.toNat = true → recRlstate r ≠ 1 →
      Reaches s e .wr [⟨e.g.first, faultLane e.uid, handleVa hv.toNat + 3, 1, 1⟩] [q] t → t.NoExact → q.2.1.tgt = 0 →
      e.outranked 0 q.2.1.pa = false →
      ∃ u, Completes s e (.tnflush w) u [] ∧ u.mem = t.mem.write q.2.1.pa (BitVec.ofNat 8 (recFlags r / 2 * 2)) ∧
        ∀ cl, cachedRec u cl e.l.tenant e.l.ctx (handleVa hv.toNat) = none) ∧
    (answers r hv.toNat = true → recRlstate r = 1 →
      exec (.tnflush w) s = .next (e.faultAll s .tnRelayBusy (handleVa hv.toNat))) ∧
    (answers r hv.toNat = false →
      exec (.tnflush w) s = .next (e.faultAll s .tnStale (handleVa hv.toNat)))

/-- R237, R364: `tnrelay` writes the new layout into the record, marks it RELAYING, and starts a job over all its tiles that will count
at the given counter. DEDUCED (log 29): it issues once the group's earlier atomics and stores are performed. -/
def Claims.RelayoutStarts : Prop :=
  ∀ (s s1 t : State) (e : Exe) (w : Main) (x : X4) (hv : Bits) (r : List Byte) (c q : Req × PTarget × Bool), Leaf s e → e.tx? = none →
    e.owes s = false → (e.opnd s .h w.a).val = .u hv →
    (let va := handleVa hv.toNat
     let tag := e.num s .n32 w.b
     let nb := e.num s .n64 w.c
     let map := e.num s .n64 x.a
     let ca := e.num s .n64 x.b
     ca % 8 = 0 → Reaches s e .wr [⟨e.g.first, faultLane e.uid, ca, 8, 8⟩] [c] s1 → c.2.1.tgt = 0 →
     cachedRec s (clusterOf e.core) e.l.tenant e.l.ctx va = some r → answers r hv.toNat = true → recRlstate r ≠ 1 →
     relayOk r tag nb map = true → r.length = 192 → Reaches s1 e .wr [⟨e.g.first, faultLane e.uid, va, 192, 1⟩] [q] t → va % 65536 + 192 ≤ 65536 →
     q.1.va = va → q.1.n = 192 → t.NoExact → q.2.1.tgt = 0 → (∀ k, k < 192 → e.outranked 0 (q.2.1.pa + k) = false) →
     ∃ u job new, Completes s e (.tnrelay w x) u [] ∧ u.relayouts = t.relayouts ++ [job] ∧ job.record = ⟨va, r⟩ ∧ job.newTag = tag ∧
       job.newBase = nb ∧ job.map = map ∧ job.counter = (c.2.1, e.num s .n32 x.c) ∧ job.total = tileCount r ∧ job.queued = 0 ∧
       job.done = 0 ∧ u.mem = t.mem.writeBytes q.2.1.pa new ∧ new.length = 192 ∧ recRlstate new = 1 ∧ recNewTag new = tag % 256 ∧
       recNewBase new = nb % 2 ^ 64 ∧ recMap new = map % 2 ^ 64 ∧ recTag new = recTag r ∧ recBase new = recBase r)

/-- `Claims.TensorQueries`, `Claims.Sealing`, `Claims.Flushing` and `Claims.RelayoutStarts` together. -/
def Obligations.TensorHandlesAndRelayout : Prop :=
  Claims.TensorQueries ∧ Claims.Sealing ∧ Claims.Flushing ∧ Claims.RelayoutStarts

/-! ### Engines, sequencers, rings: chapters 11 and 17 -/

/-- R164, R365: the copy, gather and fill commands of a group, when their spans lie in the scratchpad, their counter is an aligned
device page, an engine is owned (for copies), and the range checker has room. The command joins the group's open batch; no byte moves
yet. -/
def Claims.EngineCommandsIssue : Prop :=
  ∀ (s t : State) (e : Exe) (w : Main) (x y : X4) (c : Req × PTarget × Bool), Leaf s e → e.tx? = none →
    t.NoExact → (s.held e.core).length < 64 → (s.tenant e.l.tenant).engines ≠ [] → c.2.1.tgt = 0 →
    (let n32 (o : Opnd) : Nat := e.num s .n32 o
     let n64 (o : Opnd) : Nat := e.num s .n64 o
     let counts (a : Opnd) : Prop := n64 a % 8 = 0 ∧ plan s e.view .wr [⟨e.g.first, faultLane e.uid, n64 a, 8, 8⟩] = (.go [c], t)
     let fits (a n : Nat) : Prop := a + n ≤ e.l.spad
     (0 < n64 w.c → n64 w.c ≤ 2 ^ 32 → counts x.a →
       (Word.bit (immNat x.c) 0 = true → fits (n64 w.a) (n64 w.c)) → (Word.bit (immNat x.c) 1 = true → fits (n64 w.b) (n64 w.c)) →
       Issues s e (.cpy w x) t (.cpy (Word.bit (immNat x.c) 0) (Word.bit (immNat x.c) 1) (n64 w.a) (n64 w.b) (n64 w.c))
         (some (c.2.1, n32 x.b))) ∧
     (0 < n32 w.c → n32 w.c ≤ 65536 → immNat x.b % 8 ≤ 4 → n64 x.a % 2 ^ (immNat x.b % 8) = 0 → counts x.c →
       fits (n32 w.b) (n32 w.c * (if Word.bit (immNat x.b) 3 then 8 else 4)) → fits (n32 w.a) (n32 w.c * 2 ^ (immNat x.b % 8)) →
       Issues s e (.gath w x) t (.gath (n32 w.a) (n32 w.b) (n32 w.c) (n64 x.a) (2 ^ (immNat x.b % 8)) (Word.bit (immNat x.b) 3))
         (some (c.2.1, n32 x.d))) ∧
     (0 < n32 w.b → n32 w.b ≤ e.l.spad → x.a ≠ .none → counts x.a → fits (n32 w.a) (n32 w.b) →
       Issues s e (.spset w x) t (.spset (n32 w.a) (n32 w.b) (e.num s .b64 w.c)) (some (c.2.1, n32 x.b))) ∧
     (∀ (h : Nat) (r : List Byte), e.num s .h w.a = h → cachedRec s (clusterOf e.core) e.l.tenant e.l.ctx (handleVa h) = some r →
       answers r h = true → 0 < n32 y.a → 0 < n32 y.b → counts y.c → n32 y.a % boxUnit r = 0 →
       Ty.i64.toInt (e.num s .i64 x.a) % (boxUnit r : Int) = 0 → immNat w.c ≤ 1 → fits (n32 w.b) (n32 y.b * boxRow r (n32 y.a)) →
       Issues s e (.cpyh w x y) t (.cpyh ⟨handleVa h, r⟩ (n32 w.b) (immNat w.c)
         ([x.a, x.b, x.c, x.d].map (fun o => Ty.i64.toInt (e.num s .i64 o))) (n32 y.a) (n32 y.b)) (some (c.2.1, n32 y.d))) ∧
     (∀ (h : Nat) (r : List Byte), e.num s .h x.a = h → cachedRec s (clusterOf e.core) e.l.tenant e.l.ctx (handleVa h) = some r →
       answers r h = true → recBlock r = false → 8 ≤ recBits r → 0 < n32 w.c → n32 w.c ≤ 65536 → counts x.c →
       fits (n32 w.b) (n32 w.c * (if Word.bit (immNat x.b) 3 then 8 else 4)) → fits (n32 w.a) (n32 w.c * (recBits r / 8)) →
       Issues s e (.gathh w x) t (.gathh (n32 w.a) (n32 w.b) (n32 w.c) ⟨handleVa h, r⟩ (Word.bit (immNat x.b) 3))
         (some (c.2.1, n32 x.d))))

/-- R366 to R369: sizes that are no command raise ENGINE_FORMAT, and a counter that is not 8-aligned MISALIGNED. -/
def Claims.EngineCommandsFault : Prop :=
  ∀ (s : State) (e : Exe) (w : Main) (x y : X4), Leaf s e → e.tx? = none →
    (let bad (c : Code) (a : Nat) : State := e.faultAll s c a
     (e.num s .n64 w.c = 0 ∨ 2 ^ 32 < e.num s .n64 w.c → exec (.cpy w x) s = .next (bad .engineFormat 0)) ∧
     (e.num s .n32 w.c = 0 ∨ 65536 < e.num s .n32 w.c →
       exec (.gath w x) s = .next (bad .engineFormat 0) ∧ exec (.gathh w x) s = .next (bad .engineFormat 0)) ∧
     (e.num s .n32 y.a = 0 ∨ e.num s .n32 y.b = 0 → exec (.cpyh w x y) s = .next (bad .engineFormat 0)) ∧
     (e.num s .n32 w.b = 0 ∨ e.l.spad < e.num s .n32 w.b → exec (.spset w x) s = .next (bad .engineFormat 0)) ∧
     (0 < e.num s .n64 w.c → e.num s .n64 w.c ≤ 2 ^ 32 → e.num s .n64 x.a % 8 ≠ 0 →
       exec (.cpy w x) s = .next (bad .misaligned (e.num s .n64 x.a))))

/-- R163, R371: `cbatch` closes the open batch under the next number; `cwait` goes on when no batch up to its operand has work
left, and raises BATCH_RANGE for a number not yet closed; `cntwait` goes on when the counter has reached its target, or an add that
landed there while it waited has met it (R162). Its read follows what Table 8.3 orders before it. -/
def Claims.BatchesAndCounters : Prop :=
  ∀ (s : State) (e : Exe) (w : Main), Leaf s e → e.tx? = none →
    (let g := s.group e.l.id e.g.first
     let left := g.batches.filter (fun b => b.2.any s.working)
     let b := (g.lastClosed + 1) % 2 ^ 64
     (left.length < 16 → ∃ v, Completes s e (.cbatch w)
         (s.setGroup e.l.id e.g.first { g with lastClosed := b, openCmds := [], batches := left ++ [(b, g.openCmds)] }) [v] ∧ v.ty = w.ty ∧
         ∀ l, l < e.l.g → laneIn e.act l = true → e.lane v l = b) ∧
     (16 ≤ left.length → exec (.cbatch w) s = .next (e.put s { e.th with wait := .batchRoom })) ∧
     (e.num s .n64 w.a ≤ g.lastClosed → (∀ y ∈ left, e.num s .n64 w.a < y.1) → Completes s e (.cwait w) s []) ∧
     (g.lastClosed < e.num s .n64 w.a → exec (.cwait w) s = .next (e.faultAll s .batchRange)) ∧
     (∀ a k n met, e.th.wait = .counter a k n met → met = true → Completes s e (.cntwait w) s []) ∧
     (∀ (t : State) (c : Req × PTarget × Bool), (∀ a k n met, e.th.wait ≠ .counter a k n met) → e.num s .n64 w.a % 8 = 0 →
       Reaches s e .rd [⟨e.g.first, faultLane e.uid, e.num s .n64 w.a, 8, 8⟩] [c] t → c.2.1.tgt = 0 → t.NoExact → t.serial.locks = [] →
       (e.num s .n64 w.b ≤ t.mem.readNat c.2.1.pa 8 → Completes s e (.cntwait w) t []) ∧
       (t.mem.readNat c.2.1.pa 8 < e.num s .n64 w.b →
         exec (.cntwait w) s = .next (e.put t { e.th with wait := .counter 0 c.2.1.pa (e.num s .n64 w.b) false }))))

/-- `Claims.EngineCommandsIssue`, `Claims.EngineCommandsFault` and `Claims.BatchesAndCounters` together. -/
def Obligations.EngineCommands : Prop :=
  Claims.EngineCommandsIssue ∧ Claims.EngineCommandsFault ∧ Claims.BatchesAndCounters

/-- R244, R370: `seqset` loads a slot's descriptor from the scratchpad, `seqstat` reports the slot, and both `seqset` and `seqgo`
wait while it runs. -/
def Claims.SequencerSlots : Prop :=
  ∀ (s : State) (e : Exe) (w : Main), Leaf s e → e.tx? = none →
    (let x := s.core e.core
     let k := immNat w.a
     let q := x.seqs.getD k ⟨none, none⟩
     let p := e.num s .n32 w.b
     (p % 8 = 0 → p + 192 ≤ e.l.spad → q.run = none → e.spadStoresAt p 192 = false → Completes s e (.seqset w)
       (s.setCore e.core { x with seqs := x.seqs.set k ⟨some (x.spad.readBytes p 192), none⟩ }) []) ∧
     (p % 8 = 0 → p + 192 ≤ e.l.spad → q.run ≠ none → exec (.seqset w) s = .next (e.put s { e.th with wait := .seqSlot k })) ∧
     (q.run ≠ none → exec (.seqgo w) s = .next (e.put s { e.th with wait := .seqSlot k })) ∧
     (q.run = none → q.desc = none → exec (.seqgo w) s = .next (e.faultAll s .seqFormat)) ∧
     Gives s e (.seqstat w) w.ty (fun _ => (if q.run.isSome then 1 else 0) + (if q.desc.isSome then 2 else 0)))

/-- R245, R247: `seqgo` starts the slot's descriptor: the run stands at its first emission, joins the group's open batch, and a
descriptor that advances a ring makes the run its producer. -/
def Claims.SequencerStarts : Prop :=
  ∀ (s t : State) (e : Exe) (w : Main) (d : List Byte) (c : Req × PTarget × Bool), Leaf s e → e.tx? = none →
    (let x := s.core e.core
     let k := immNat w.a
     k < x.seqs.length → x.seqs.getD k ⟨none, none⟩ = ⟨some d, none⟩ → seqBad x d = false → seqCnt d % 8 = 0 →
     0 ≤ (seqSpadSpan x d).1 → (seqSpadSpan x d).2 ≤ e.l.spad →
     plan s e.view .wr [⟨e.g.first, faultLane e.uid, seqCnt d, 8, 8⟩] = (.go [c], t) → c.2.1.tgt = 0 → (s.tenant e.l.tenant).engines ≠ [] →
     ∃ u run, Completes s e (.seqgo w) u [] ∧ (u.core e.core).seqs.getD k ⟨none, none⟩ = ⟨some d, some run⟩ ∧ run.next = 0 ∧
       run.desc = d ∧ run.launch = e.l.id ∧ run.group = e.g.first ∧ run.counter = c.2.1 ∧ u.commands = t.commands ∧ u.mem = t.mem ∧
       (u.group e.l.id e.g.first).openCmds = (t.group e.l.id e.g.first).openCmds ++ [run.id] ∧
       (seqRingAdv d = false → (u.core e.core).runs = x.runs) ∧
       (seqRingAdv d = true → ∃ p, (u.core e.core).runs = x.runs ++ [p] ∧ p.ring = seqRing d ∧ p.done = []))

/-- R376, R377: `ringcfg` configures an idle ring, zeroes HEAD and TAIL and writes its descriptor word in the scratchpad; `ringrd`
reads HEAD and TAIL. -/
def Claims.RingConfiguration : Prop :=
  ∀ (s : State) (e : Exe) (w : Main) (x : X4), Leaf s e → e.tx? = none →
    (let c := s.core e.core
     let k := immNat w.a
     let base := e.num s .n32 w.b
     let n := e.num s .n32 w.c
     let sz := e.num s .n32 x.a
     let r := c.rings.getD k .empty
     (base % 64 = 0 → 64 ≤ base → 1 ≤ n → n ≤ 256 → sz % 64 = 0 → 64 ≤ sz → sz ≤ 524224 → base + n * sz ≤ e.l.spad →
       (∀ p ∈ c.runs, p.ring ≠ k) → c.mats = [] → SpadFree s e (8 * k) 8 →
       Completes s e (.ringcfg w x) (s.setCore e.core { c with
         rings := c.rings.set k ⟨true, base, n, sz, 0, 0⟩
         spad := c.spad.writeNat (8 * k) 8 (2 ^ 63 + sz / 64 * 2 ^ 27 + (n - 1) * 2 ^ 19 + base) }) []) ∧
     (e.l.spad < base + n * sz → base % 64 = 0 → 64 ≤ base → 1 ≤ n → n ≤ 256 → sz % 64 = 0 → 64 ≤ sz → sz ≤ 524224 →
       exec (.ringcfg w x) s = .next (e.faultAll s .spadRange)) ∧
     Gives2 s e (.ringrd w) w.ty w.ty (fun _ => if r.valid then r.head else 0) (fun _ => if r.valid then r.tail else 0))

/-- `Claims.SequencerSlots`, `Claims.SequencerStarts` and `Claims.RingConfiguration` together. -/
def Obligations.SequencersAndRings : Prop :=
  Claims.SequencerSlots ∧ Claims.SequencerStarts ∧ Claims.RingConfiguration

/-! ### Matrix operations and tiles: chapters 11 and 18 -/

/-- R378 to R381, R139, R250: a matrix operation issues at a leading core whose rings are configured and hold enough unclaimed full
slots. It claims the slots after those already claimed, pays its energy where the budget is limited, and its scratchpad reads
stand in the range checker. -/
def Claims.MatrixOperationsIssue : Prop :=
  ∀ (s : State) (e : Exe) (w : Main) (lit : Nat), Leaf s e → e.tx? = none → e.core % 2 = 0 →
    (s.held e.core).length < 64 →
    (let x := s.core e.core
     let c := s.ctx e.l.tenant e.l.ctx
     let cost := 2 ^ (w.mod / 32 % 4)
     let paid : State := s.setCtx e.l.tenant e.l.ctx { c with
       enBudget := if c.enUnlimited then c.enBudget else c.enBudget - cost
       energy := c.energy.filter (fun p => p.unit != e.uid) }
     (c.enUnlimited = true ∨ (cost ≤ c.enBudget ∧ ∀ p, c.energy.head? = some p → p.unit = e.uid)) →
     ∀ p ∈ [((.mma w lit : Instr), 0x1C8), (.mmab w lit, 0x1C9), (.mmas w lit, 0x1CA)],
       (∀ r ∈ matRings p.2 w.ty lit, (x.rings.getD r.1 .empty).valid = true ∧ r.2 ≤ (x.rings.getD r.1 .empty).bytes ∧
         matNS lit ≤ (x.rings.getD r.1 .empty).full - x.claimed r.1) →
       ∃ m k, Posts s e p.1 (({ paid with nextId := s.nextId + 1, commands := s.commands ++ [k] }).setCore e.core
           { x with mats := x.mats ++ [m] }) m.id ∧
         m.op = p.2 ∧ m.ty = w.ty ∧ m.lit = lit ∧ m.launch = e.l.id ∧ m.group = e.g.first ∧ m.conv = none ∧
         m.slotA = ((x.rings.getD (matRA lit) .empty).head + x.claimed (matRA lit)) % 2 ^ 32 ∧
         m.slotB = ((x.rings.getD (matRB lit) .empty).head + x.claimed (matRB lit)) % 2 ^ 32 ∧
         k.id = m.id ∧ k.core = e.core ∧ k.writes = [] ∧ k.reads.length = 2 * matNS lit)

/-- R381 steps 1 and 2: a matrix operation at a following core is MATRIX_FOLLOWER, and one that names a ring that is not valid
or too small is MATRIX_FORMAT. -/
def Claims.MatrixOperationsFault : Prop :=
  ∀ (s : State) (e : Exe) (w : Main) (lit : Nat) (x : X4), Leaf s e → e.tx? = none →
    (let bad (c : Code) : Host.Outcome State Fault Refusal := .next (e.faultAll s c)
     (e.core % 2 = 1 → exec (.mma w lit) s = bad .matrixFollower ∧ exec (.mmab w lit) s = bad .matrixFollower ∧
       exec (.mmas w lit) s = bad .matrixFollower ∧ exec (.mmaconv w lit x) s = bad .matrixFollower) ∧
     (e.core % 2 = 0 → ((s.core e.core).rings.getD (matRB lit) .empty).valid = false →
       exec (.mma w lit) s = bad .matrixFormat ∧ exec (.mmab w lit) s = bad .matrixFormat ∧
       exec (.mmas w lit) s = bad .matrixFormat ∧ exec (.mmaconv w lit x) s = bad .matrixFormat))

/-- R249, R385: `mmaconv` reads A through a sealed convolution record whose format is T; it claims only slots of B. -/
def Claims.ConvolutionIssues : Prop :=
  ∀ (s : State) (e : Exe) (w : Main) (lit : Nat) (x : X4) (r : List Byte), Leaf s e → e.tx? = none → e.core % 2 = 0 →
    (s.held e.core).length < 64 → (s.ctx e.l.tenant e.l.ctx).enUnlimited = true →
    (let c := s.core e.core
     let k0 := s.ctx e.l.tenant e.l.ctx
     let h := e.num s .h x.a
     let g := c.rings.getD (matRB lit) .empty
     cachedRec s (clusterOf e.core) e.l.tenant e.l.ctx (handleVa h) = some r → answers r h = true →
     g.valid = true → slotNeedB 0x1CB w.ty lit ≤ g.bytes → matNS lit ≤ g.full - c.claimed (matRB lit) →
     (Word.bit (recFlags r) 2 = true → fmtTy (recFmt r) = some w.ty →
       ∃ m k, Posts s e (.mmaconv w lit x) (({ s.setCtx e.l.tenant e.l.ctx { k0 with energy := k0.energy.filter (fun p => p.unit != e.uid) } with
           nextId := s.nextId + 1, commands := s.commands ++ [k] }).setCore e.core { c with mats := c.mats ++ [m] }) m.id ∧
         m.conv = some (⟨handleVa h, r⟩, e.num s .n64 x.b, e.num s .n64 x.c) ∧ m.lit = lit ∧ k.reads.length = matNS lit) ∧
     (Word.bit (recFlags r) 2 = false → exec (.mmaconv w lit x) s = .next (e.faultAll s .tnFormat)))

/-- `Claims.MatrixOperationsIssue`, `Claims.MatrixOperationsFault` and `Claims.ConvolutionIssues` together. -/
def Obligations.MatrixIssue : Prop :=
  Claims.MatrixOperationsIssue ∧ Claims.MatrixOperationsFault ∧ Claims.ConvolutionIssues

/-- R375, R388, R390, R391: the instructions that write a tile, when no matrix operation in flight writes one of its operands.
Each element of the tile is as Table 18.6 gives it; no element of another tile changes, nor the scratchpad. -/
def Claims.TileWrites : Prop :=
  ∀ (s : State) (e : Exe) (w : Main), Leaf s e → (s.core e.core).tiles.wf = true → (s.core e.core).mats = [] →
    (let x := s.core e.core
     let writes (i : Instr) (t : Nat) (f : Nat → Nat → Nat) : Prop :=
       ∃ m : Memory, Completes s e i (s.setCore e.core { x with tiles := m }) [] ∧ m.wf = true ∧
         (∀ r c, r < 16 → c < 64 → m.readNat (4096 * t + 256 * r + 4 * c) 4 = f r c % 2 ^ 32) ∧
         ∀ b, ¬ inSpan b (4096 * t) 4096 → m.read b = x.tiles.read b
     let el (t r c : Nat) : Nat := x.tiles.readNat (4096 * t + 256 * r + 4 * c) 4
     let sp := e.num s .n32 w.b
     let t := immNat w.a % 8
     let at_ (l : Nat) : Nat := immNat w.a / 8 % 64 + e.lane (e.opnd s .n32 w.b) l
     let k := at_ e.leadLane
     let n := e.num s .n32 w.c
     (sp % 16 = 0 → sp + 4096 ≤ e.l.spad → e.spadStoresAt sp 4096 = false → writes (.tlld w) (immNat w.a) (fun r c => x.spad.readNat (sp + 256 * r + 4 * c) 4)) ∧
     writes (.tlzero w) (immNat w.a) (fun _ _ => 0) ∧
     writes (.tlmov w) (immNat w.a) (fun r c => el (immNat w.b) r c) ∧
     (k < 16 → writes (.tlrotr w) t (fun r c => if r = k then el t r ((c + n) % 64) else el t r c)) ∧
     (k < 64 → writes (.tlrotc w) t (fun r c => if c = k then el t ((r + n) % 16) c else el t r c)) ∧
     (k < 16 → writes (.tlbcr w) t (fun _ c => el t k c)) ∧
     (k < 64 → writes (.tlbcc w) t (fun r _ => el t r k)) ∧
     ((∀ l, laneIn e.act l = true → at_ l < 16) → writes (.tlputr w) t (fun r c =>
       if laneIn e.act c = true ∧ at_ c = r then e.lane (e.opnd s w.ty w.c) c else el t r c)))

/-- R375, R388, R390, R392: the instructions that read a tile: `tlst` to the scratchpad, and to lanes an element, or the sum of a row or
a column. An index outside the tile is TILE_INDEX at the lowest lane that has one. DEDUCED (log 11): an index that no single lane gives
faults with lane 0xFF. -/
def Claims.TileReads : Prop :=
  ∀ (s : State) (e : Exe) (w : Main), Leaf s e → (s.core e.core).mats = [] →
    (let x := s.core e.core
     let el (t r c : Nat) : Nat := x.tiles.readNat (4096 * t + 256 * r + 4 * c) 4
     let sp := e.num s .n32 w.b
     let t := immNat w.a % 8
     let at_ (l : Nat) : Nat := immNat w.a / 8 % 64 + e.lane (e.opnd s .n32 w.b) l
     let cut (v : Nat) : Nat := v % 2 ^ w.ty.width
     (sp % 16 = 0 → sp + 4096 ≤ e.l.spad → SpadFree s e sp 4096 → Completes s e (.tlst w) (s.setCore e.core { x with
       spad := x.spad.writeBytes sp (x.tiles.readBytes (4096 * immNat w.a) 4096) }) []) ∧
     ((∀ l, laneIn e.act l = true → at_ l < 16) →
       Gives s e (.tlgetr w) w.ty (fun l => el t (at_ l) l) ∧
       Gives s e (.tlredr w) w.ty (fun l => redSum w.ty w.mod ((List.range 64).map (fun c => cut (el t (at_ l) c))))) ∧
     ((∀ l, laneIn e.act l = true → at_ l < 64) →
       Gives s e (.tlgetc w) w.ty (fun l => el t (l % 16) (at_ l)) ∧
       Gives s e (.tlredc w) w.ty (fun l => redSum w.ty w.mod ((List.range 16).map (fun r => cut (el t r (at_ l)))))) ∧
     (∀ l, laneIn e.act l = true → 16 ≤ at_ l → (∀ k, k < l → laneIn e.act k = true → at_ k < 16) →
       exec (.tlgetr w) s = .next (takeFault s e.g e.l e.th .tileIndex l 0 0) ∧
       exec (.tlputr w) s = .next (takeFault s e.g e.l e.th .tileIndex l 0 0)))

/-- R161, R390: `tlputc` writes each active lane's value to row l mod 16 of its column; where two lanes name one element the
higher lane's stays. -/
def Claims.TileColumnsPut : Prop :=
  ∀ (s : State) (e : Exe) (w : Main), Leaf s e → (s.core e.core).tiles.wf = true → (s.core e.core).mats = [] →
    (let x := s.core e.core
     let t := immNat w.a % 8
     let at_ (l : Nat) : Nat := immNat w.a / 8 % 64 + e.lane (e.opnd s .n32 w.b) l
     (∀ l, laneIn e.act l = true → at_ l < 64) →
     ∃ m : Memory, Completes s e (.tlputc w) (s.setCore e.core { x with tiles := m }) [] ∧ m.wf = true ∧
       (∀ l, laneIn e.act l = true → (∀ k, l < k → laneIn e.act k = true → k % 16 = l % 16 → at_ k ≠ at_ l) →
         m.readNat (4096 * t + 256 * (l % 16) + 4 * at_ l) 4 = e.lane (e.opnd s w.ty w.c) l % 2 ^ 32) ∧
       ∀ b, (∀ l, laneIn e.act l = true → ¬ inSpan b (4096 * t + 256 * (l % 16) + 4 * at_ l) 4) → m.read b = x.tiles.read b)

/-- R387: `mmard` converts each row of a tile to T, packs it, and stores the rows one after another in the scratchpad; no other byte
changes. DEDUCED (log 29): with T the source type FTZ is still applied, and the store waits for the group's own earlier accesses to the
bytes. -/
def Claims.TilesConvert : Prop :=
  ∀ (s : State) (e : Exe) (w : Main), Leaf s e → (s.core e.core).mats = [] → (s.core e.core).spad.wf = true →
    (let x := s.core e.core
     let sp := e.num s .n32 w.a
     let src : Ty := if immNat w.c = 1 then .f64 else .f32
     let cols := if immNat w.c = 1 then 32 else 64
     let md : Num.Mode := ⟨w.mod % 4, Word.bit w.mod 3, Word.bit w.mod 2⟩
     let q := cols * w.ty.width / 8
     sp % 16 = 0 → sp + 16 * q ≤ e.l.spad → 8 ≤ w.ty.width → SpadFree s e sp (16 * q) →
     ∃ m : Memory, Completes s e (.mmard w) (s.setCore e.core { x with spad := m }) [] ∧ m.wf = true ∧
       (∀ r c, r < 16 → c < cols →
         m.readNat (sp + q * r + w.ty.width / 8 * c) (w.ty.width / 8) =
           Num.cvt src w.ty md (x.tiles.readNat (4096 * immNat w.b + 256 * r + src.bytes * c) src.bytes) % 2 ^ w.ty.width) ∧
       ∀ b, ¬ inSpan b sp (16 * q) → m.read b = x.spad.read b)

/-- `Claims.TileWrites`, `Claims.TileReads`, `Claims.TileColumnsPut` and `Claims.TilesConvert` together. -/
def Obligations.TileTransfers : Prop :=
  Claims.TileWrites ∧ Claims.TileReads ∧ Claims.TileColumnsPut ∧ Claims.TilesConvert

/-! ### Atomics and transactions: chapters 9 and 19 -/

/-- R186, R188, R189 with Table 9.1: one atomic at its home slice, of any listed operation but the exact adds, answers the old bytes and
stores New(old, v, c), and touches no other byte and no other state. A packed pair is computed half by half. -/
def Claims.SliceAtomic : Prop :=
  ∀ (s : State) (t : PTarget) (aop rm v c : Nat) (signed ftz : Bool), s.NoExact → (s.memOf t.tgt).wf = true → aop < 64 →
    aopListed aop = true → aopExact aop = false →
    (let kind := aop / 8
     let op := aop % 8
     let n := if kind = 2 then 2 else if kind = 0 ∨ kind = 3 ∨ kind = 5 then 4 else if kind = 7 then 16 else 8
     let m := 2 ^ (8 * n)
     let old := leNat ((s.memOf t.tgt).readBytes t.pa n)
     let below (x y : Nat) : Bool :=
       if signed then decide (Word.signExtend x (8 * n) < Word.signExtend y (8 * n)) else decide (x % m < y % m)
     let int : Nat :=
       if op = 0 then (old + v) % m else if op = 1 then old &&& v % m else if op = 2 then old ||| v % m
       else if op = 3 then old ^^^ v % m else if op = 4 then (if below v old then v % m else old)
       else if op = 5 then (if below old v then v % m else old) else if op = 6 then v % m
       else if old = c % m then v % m else old
     let float (ty : Ty) : Nat := halves ty (fun xs =>
       if op = 0 then Num.roundTy ty.elem ⟨rm, false, ftz⟩
         (Sys2Proof.Num.add rm (Num.decodeTy ty.elem ftz (arg xs 0)) (Num.decodeTy ty.elem ftz (arg xs 1)))
       else match Num.fmtOf ty.elem with
         | some f => Num.minMax f (op == 5) (Num.flushSrc ty.elem ftz (arg xs 0)) (Num.flushSrc ty.elem ftz (arg xs 1))
         | none => arg xs 0) [old, v]
     let new : Nat :=
       if kind = 2 then float .bf16 else if kind = 3 then float .f32 else if kind = 4 then float .f64
       else if kind = 5 then float .bf16x2 else if kind = 6 then float .f32x2 else int
     (s.atomicAt t aop rm signed ftz v c).1 = old ∧
     ∃ mem : Memory, (s.atomicAt t aop rm signed ftz v c).2 = s.setMemOf t.tgt mem ∧ mem.wf = true ∧
       mem.readNat t.pa n = new % m ∧ ∀ b, ¬ inSpan b t.pa n → mem.read b = (s.memOf t.tgt).read b)

/-- R398, R399, R401: every returning atomic form on a leaf outside transactions. Its lanes, at distinct locations, are performed one
after another, each as one atomic of Table 9.1 at its home slice, of which an add is seen by the `cntwait`s of its counter (R162); the
core's L1 lets go of the bytes (R157), and each active lane gets the old value of its own access. -/
def Claims.AtomicsReturnOldValues : Prop :=
  ∀ (s t : State) (e : Exe) (w : Main) (ts : List (Req × PTarget × Bool)), Leaf s e → e.tx? = none → e.owes s = false →
    Word.bit w.mod 5 = false → (ts.map (fun x => x.2.1)).Nodup →
    Reaches s e { Access.wr with atomic := true }
      (e.items.map (fun i => ⟨i.1, i.2, e.at_ (e.opnd s .n64 w.a) i, w.ty.bytes, w.ty.bytes⟩)) ts t →
    (let one (op rm : Nat) (u : State) (x : Req × PTarget × Bool) : Nat × State :=
       let i := (x.1.grp, x.1.lane)
       let r := u.atomicAt x.2.1 (8 * aopKind w.ty + op) rm w.ty.signed (Word.bit w.mod 6) (e.at_ (e.opB s w) i) (e.at_ (e.opC s w) i)
       let u := if aopAdds (8 * aopKind w.ty + op) then r.2.landed x.2.1 else r.2
       (r.1, l1Drop u e.core x.2.1 x.1.n)
     let all (op rm : Nat) (xs : List (Req × PTarget × Bool)) : State := xs.foldl (fun u x => (one op rm u x).2) t
     let returns (i : Instr) (op rm : Nat) : Prop :=
       ∃ v, Completes s e i (all op rm ts) [v] ∧ v.ty = w.ty ∧
         ∀ before x after, ts = before ++ x :: after → x.1.lane < e.l.g → laneIn e.act x.1.lane = true →
           e.lane v x.1.lane = (one op rm (all op rm before) x).1 % 2 ^ 128
     returns (.amoAdd w) 0 0 ∧ returns (.amoAnd w) 1 0 ∧ returns (.amoOr w) 2 0 ∧ returns (.amoXor w) 3 0 ∧ returns (.amoMin w) 4 0 ∧
       returns (.amoMax w) 5 0 ∧ returns (.amoSwap w) 6 0 ∧ returns (.amoCas w) 7 0 ∧ returns (.amoFaddRn w) 0 0 ∧
       returns (.amoFaddRz w) 0 1 ∧ returns (.amoFaddRu w) 0 2 ∧ returns (.amoFaddRd w) 0 3 ∧ returns (.amoFmin w) 4 0 ∧
       returns (.amoFmax w) 5 0 ∧ returns (.cas128 w) 7 0)

/-- `Claims.SliceAtomic` and `Claims.AtomicsReturnOldValues` together. -/
def Obligations.AtomicsAtTheSlice : Prop :=
  Claims.SliceAtomic ∧ Claims.AtomicsReturnOldValues

/-- R190 with Table 9.2: a no-return form puts one entry for each lane at the end of the core's queue, in lane order, while
the queue has room; the memories keep every byte until the queue drains. An exact add has this form alone. -/
def Claims.NoReturnAtomicsQueue : Prop :=
  ∀ (s t : State) (e : Exe) (w : Main) (ts : List (Req × PTarget × Bool)), Leaf s e → e.tx? = none → Word.bit w.mod 5 = true →
    (∀ th ∈ e.g.threads, ∀ n, th.native = some n → n.stores = []) →
    (let n := w.ty.bytes
     plan s e.view { Access.wr with atomic := true, nr := true }
       (e.items.map (fun i => ⟨i.1, i.2, e.at_ (e.opnd s .n64 w.a) i, n, n⟩)) = (.go ts, t) →
     (t.core e.core).queueCount + ts.length ≤ 256 →
     (let queues (i : Instr) (op rm : Nat) : Prop :=
        ∃ u, Completes s e i u [] ∧ u.mem = t.mem ∧ u.hostMem = t.hostMem ∧ u.peerMem = t.peerMem ∧ u.slices = t.slices ∧
          (u.core e.core).aq = (t.core e.core).aq ++ ts.map (fun x =>
            { lo := rm * 2 ^ 62 + Word.ofBool (decide (2 ≤ w.mod / 8 % 4)) * 2 ^ 61 + Word.ofBool w.ty.signed * 2 ^ 59 +
                Word.ofBool (Word.bit w.mod 6) * 2 ^ 58 + (8 * aopKind w.ty + op) % 64 * 2 ^ 52 + x.2.1.pa % 2 ^ 52
              hi := e.at_ (e.opB s w) (x.1.grp, x.1.lane) % 2 ^ 64
              spilled := false
              own := ⟨e.l.id, x.1.grp, x.2.1.tgt, t.nextId⟩ })
      queues (.amoAdd w) 0 0 ∧ queues (.amoAnd w) 1 0 ∧ queues (.amoOr w) 2 0 ∧ queues (.amoXor w) 3 0 ∧ queues (.amoMin w) 4 0 ∧
        queues (.amoMax w) 5 0 ∧ queues (.amoSwap w) 6 0 ∧ queues (.amoFaddRn w) 0 0 ∧ queues (.amoFaddRz w) 0 1 ∧
        queues (.amoFaddRu w) 0 2 ∧ queues (.amoFaddRd w) 0 3 ∧ queues (.amoFaddX w) 1 0 ∧ queues (.amoFmin w) 4 0 ∧
        queues (.amoFmax w) 5 0))

/-- R157, R190: the head of a core's atomic queue is performed at its home slice and leaves the queue, and the core's own L1 lets go
of its bytes; one marked REL follows the stores of its group, and an add is seen by the `cntwait`s of its counter. -/
def Claims.AtomicQueueDrains : Prop :=
  ∀ (s : State) (core : Nat) (a : AqEntry) (rest : List AqEntry) (l : Launch), (s.core core).aq = a :: rest →
    a.spilled = false → s.launch? a.own.launch = some l → s.NoExact →
    (let p : PTarget := ⟨a.own.tgt, Word.field a.lo 51 0⟩
     let aop := Word.field a.lo 57 52
     aopListed aop = true → aop % 8 ≠ 7 → (2 ≤ aop / 8 → aop % 8 ≠ 1) → Word.bit a.lo 60 = false →
     (Word.bit a.lo 61 = true → s.groupStores l.id a.own.group = false) → s.blocked (some ⟨l.id, a.own.group⟩) true p = false →
     s.lateFail l.tenant p (aopBytes (aop / 8)) true = none →
     ∃ (mem : Memory) (u : State),
       mem = (s.memOf p.tgt).writeNat p.pa (aopBytes (aop / 8))
         (aopNew aop (Word.field a.lo 63 62) (Word.bit a.lo 59) (Word.bit a.lo 58)
           (leNat ((s.memOf p.tgt).readBytes p.pa (aopBytes (aop / 8)))) a.hi 0) ∧
       u = (if aopAdds aop then (s.setMemOf p.tgt mem).landed p else s.setMemOf p.tgt mem) ∧
       exec (.atomicQueueDrain core) s = .next (popAtomic (l1Drop u core p (aopBytes (aop / 8))) core) ∧
       ((popAtomic (l1Drop u core p (aopBytes (aop / 8))) core).core core).aq = rest)

/-- R193 to R195 with Table 9.3. An exact add that its slice accepts joins the entry of its line: the element's accumulator, which
begins with the element's value in memory, takes the term exactly, modulo 2^W, and no byte of memory changes. Terms may come in any order.
The first access that is no exact add, here a read by the host, first gives every touched element the value it stands for, rounded once to
the nearest, and frees the entry; the others keep their bits. -/
def Claims.ExactSums : Prop :=
  (∀ (fmt : Nat) (y : AccElem) (p q : Nat), (y.addTerm fmt p).addTerm fmt q = (y.addTerm fmt q).addTerm fmt p) ∧
  (∀ (s : State) (core kind : Nat) (a : AqEntry) (rest : List AqEntry) (l : Launch) (x : AccEntry), (s.core core).aq = a :: rest →
    a.spilled = false → a.own.tgt = 0 → s.launch? a.own.launch = some l → Word.field a.lo 57 52 = 8 * kind + 1 → 2 ≤ kind → kind ≤ 4 →
    Word.bit a.lo 60 = false → Word.bit a.lo 61 = false →
    (let pa := Word.field a.lo 51 0
     let i := sliceOf pa
     let fmt := kind - 2
     let ty : Ty := if fmt = 0 then .bf16 else if fmt = 1 then .f32 else .f64
     let W := if fmt = 2 then 2176 else 320
     let lsb : Int := if fmt = 2 then -1074 else -149
     let line := pa / 128 * 128
     let k := pa % 128 / ty.bytes
     let term := a.hi % 2 ^ ty.width
     s.blocked (some ⟨l.id, a.own.group⟩) true ⟨0, pa⟩ = false → s.lateFail l.tenant ⟨0, pa⟩ ty.bytes true = none →
     ((s.slice i).entries.find? (fun e => e.line == line) = some x ∧ x.fmt = fmt ∧ x.tenant = l.tenant ∧ x.ctx = l.ctx ∨
       (s.slice i).entries = [] ∧ (s.slice i).dir = [] ∧ x = ⟨line, fmt, l.tenant, l.ctx, []⟩) →
     ∃ t new, exec (.atomicQueueDrain core) s = .next t ∧ (t.core core).aq = rest ∧ t.mem = s.mem ∧ t.galleys = s.galleys ∧
       (t.slice i).entries = new :: (s.slice i).entries.filter (fun e => e.line != line) ∧ new.line = x.line ∧ new.fmt = fmt ∧
       new.tenant = l.tenant ∧ new.ctx = l.ctx ∧ (∀ j, j ≠ k → new.elems.get? j = x.elems.get? j) ∧
       (let old := (x.elems.get? k).getD (AccElem.addTerm fmt ⟨0, false, false, false, false⟩ (s.mem.readNat (line + ty.bytes * k) ty.bytes))
        ∃ z, new.elems.get? k = some z ∧
          (match Num.decodeTy ty false term with
           | .nan => z = { old with nan := true }
           | .inf neg => z = if neg then { old with negInf := true } else { old with posInf := true }
           | .fin neg m x => z = { old with acc := z.acc, nonNegZero := old.nonNegZero || !(neg && m == 0) } ∧ z.acc < 2 ^ W ∧
               ∃ j : Int, (z.acc : Int) = old.acc + (if neg then -1 else 1) * m * 2 ^ (x - lsb).toNat + j * 2 ^ W)))) ∧
  (∀ (s : State) (x : AccEntry) (pa n : Nat), s.pkg.open_ = true → s.commands = [] → s.relayouts = [] → s.serial.locks = [] → 0 < n →
    pa / 128 * 128 = x.line → pa + n ≤ x.line + 128 → pa + n ≤ deviceBytes → (s.slice (sliceOf pa)).entries = [x] →
    (s.slice (sliceOf pa)).dir = [] → s.poisoned ⟨0, pa⟩ n = false → s.mem.wf = true → x.fmt ≤ 2 →
    (let ty : Ty := if x.fmt = 0 then .bf16 else if x.fmt = 1 then .f32 else .f64
     let W := if x.fmt = 2 then 2176 else 320
     let lsb : Int := if x.fmt = 2 then -1074 else -149
     let near : Num.Mode := ⟨0, false, false⟩
     let value (y : AccElem) : Nat :=
       if y.nan = true ∨ (y.posInf = true ∧ y.negInf = true) then Num.roundTy ty near .nan
       else if y.posInf = true then Num.roundTy ty near (.inf false)
       else if y.negInf = true then Num.roundTy ty near (.inf true)
       else if Word.signExtend y.acc W = 0 then Num.roundTy ty near (.fin (!y.nonNegZero) 0 0)
       else Num.roundTy ty near (.fin (decide (Word.signExtend y.acc W < 0)) (Word.signExtend y.acc W).natAbs lsb)
     (x.elems.map Prod.fst).Nodup → (∀ y ∈ x.elems, y.1 < 128 / ty.bytes) →
     ∃ t, exec (.hostRead (.mem pa) n) s = .next t ∧ (t.slice (sliceOf pa)).entries = [] ∧ t.hostRet = t.mem.readBytes pa n ∧
       (t.slice (sliceOf pa)).finals = ((s.slice (sliceOf pa)).finals + 1) % 2 ^ 64 ∧
       (∀ k y, x.elems.get? k = some y → t.mem.readNat (x.line + ty.bytes * k) ty.bytes = value y % 2 ^ ty.width) ∧
       (∀ b, (∀ y ∈ x.elems, ¬ inSpan b (x.line + ty.bytes * y.1) ty.bytes) → t.mem.read b = s.mem.read b) ∧
       t.cores = s.cores ∧ t.galleys = s.galleys))

/-- R197: a spill in progress completes, once no engine owns a line of its record (R178): the entry's record is written, its slots are free, the line leaves SPILLING, and the
slice counts the spill. -/
def Claims.SpillCompletes : Prop :=
  ∀ (s : State) (i : Nat) (r : SpillRec) (x : AccEntry), s.mem.wf = true →
    (s.slice i).dir = [r] → r.busy = true → (s.slice i).entries = [x] → x.line = r.line → r.split = 4608 →
    s.spanOwned ⟨0, r.pa⟩ 4608 = false →
    ∃ t, exec (.accSpillDone i) s = .next t ∧ (t.slice i).entries = [] ∧ (t.slice i).dir = [{ r with busy := false }] ∧
      (t.slice i).spills = ((s.slice i).spills + 1) % 2 ^ 64 ∧
      t.mem = s.mem.writeBytes r.pa (recordBytes x) ∧ t.cores = s.cores ∧ t.galleys = s.galleys

/-- `Claims.NoReturnAtomicsQueue`, `Claims.AtomicQueueDrains`, `Claims.SpillCompletes` and `Claims.ExactSums` together. -/
def Obligations.QueuedAtomics : Prop :=
  Claims.NoReturnAtomicsQueue ∧ Claims.AtomicQueueDrains ∧ Claims.SpillCompletes ∧ Claims.ExactSums

/-- R199, R204, R405: the outermost `txbeg` of a lone unit opens a transaction over its active lanes with empty logs, and an
inner one only deepens it. -/
def Claims.TransactionsOpen : Prop :=
  ∀ (s : State) (e : Exe) (w : Main), Lone s e →
    (let g := s.group e.l.id e.g.first
     (g.tx.depth = 0 → g.tx.fails < 8 → e.owes s = false →
       Completes s e (.txbeg w) (s.setGroup e.l.id e.g.first { g with tx :=
         { depth := 1, excess := 0, fails := g.tx.fails, serial := false, lanes := e.act, inTx := e.act, aborted := 0, causes := [],
           old := false, reads := [], writes := [], tiles := [] } }) []) ∧
     (0 < g.tx.depth → g.tx.depth < 15 → e.th.mask &&& g.tx.inTx ≠ 0 →
       Completes s e (.txbeg w) (s.setGroup e.l.id e.g.first { g with tx := { g.tx with depth := g.tx.depth + 1 } }) []))

/-- R204: the outermost `txend` of a lone unit whose lanes have not aborted and whose logged sectors still hold what was read.
The buffered bytes reach memory, the transaction is closed, and the abort mask is 0. -/
def Claims.TransactionsCommit : Prop :=
  ∀ (s : State) (e : Exe) (w : Main), Lone s e → s.NoExact → s.serial.locks = [] → s.launch? e.l.id = some e.l →
    (let x := (s.group e.l.id e.g.first).tx
     x.depth = 1 → x.excess = 0 → x.serial = false → x.aborted = 0 → e.owes s = false →
     x.lateFail s e.l.tenant = none → (∀ r ∈ x.reads, r.tgt = 0 ∧ s.mem.readBytes r.pa 16 = r.val) → (∀ r ∈ x.writes, r.tgt = 0) →
     (∀ p ∈ x.sectors, s.engineOwned p.pa = false) →
     ∃ t v, Completes s e (.txend w) t [v] ∧ v.ty = w.ty ∧ (∀ l, e.lane v l = 0) ∧
       t.mem = x.writes.foldl (fun m y => y.bytes.foldl (fun m b => m.writeBytes (y.pa + b.off) [b.val]) m) s.mem ∧
       t.hostMem = s.hostMem ∧ t.peerMem = s.peerMem ∧ (t.group e.l.id e.g.first).tx.depth = 0 ∧
       (t.group e.l.id e.g.first).tx.writes = [])

/-- R204 and Table 9.7: at the outermost `txend` a lane whose logged sector no longer holds the value it read aborts with
CONFLICT, none of its buffered bytes reaches memory, and the mask names it. -/
def Claims.ConflictsAbort : Prop :=
  ∀ (s : State) (e : Exe) (w : Main) (r : ReadEnt), Lone s e → s.NoExact → s.serial.locks = [] → s.launch? e.l.id = some e.l →
    (let x := (s.group e.l.id e.g.first).tx
     x.depth = 1 → x.excess = 0 → x.serial = false → x.aborted = 0 → x.lanes = x.inTx → e.owes s = false →
     x.lateFail s e.l.tenant = none → x.reads = [r] → r.tgt = 0 → s.mem.readBytes r.pa 16 ≠ r.val → r.lanes = x.lanes → r.lanes ≠ 0 →
     (∀ p ∈ x.sectors, s.engineOwned p.pa = false) → (∀ y ∈ x.writes, y.tgt = 0 ∧ ∀ b ∈ y.bytes, laneIn x.lanes b.lane = true) →
     ∃ t v, Completes s e (.txend w) t [v] ∧ (∀ l, e.lane v l = x.lanes.toNat) ∧ t.mem = s.mem ∧
       (t.group e.l.id e.g.first).tx.depth = 0 ∧ (t.group e.l.id e.g.first).tx.aborted = x.lanes ∧
       ∀ l, laneIn x.lanes l = true → (t.group e.l.id e.g.first).tx.causes.getD l 0 = 1)

/-- `Claims.TransactionsOpen`, `Claims.TransactionsCommit` and `Claims.ConflictsAbort` together. -/
def Obligations.Transactions : Prop :=
  Claims.TransactionsOpen ∧ Claims.TransactionsCommit ∧ Claims.ConflictsAbort

/-- R200, R202, R207, R404: reading and aborting a transaction, its TX_STATE faults outside one, and the serial grant, which goes to
the group that asked first. `txabort` outside serial mode aborts the active lanes with EXPLICIT: they are inactive until the outermost
`txend`, the log keeps no word of theirs, and those of the others stand. -/
def Obligations.TransactionReports : Prop :=
  ∀ (s : State) (e : Exe) (w : Main), Leaf s e →
    (let x := (s.group e.l.id e.g.first).tx
     Gives s e (.txmask w) w.ty (fun _ => (x.lanes &&& x.aborted).toNat) ∧
     Gives s e (.txdepth w) w.ty (fun _ => x.depth + x.excess) ∧
     Gives s e (.txserial w) w.ty (fun _ => Word.ofBool x.serial + 256 * x.fails) ∧
     Gives s e (.txcause w) w.ty (fun l => x.causes.getD l 0) ∧
     (x.depth ≠ 0 → Completes s e (.txabort w) (abortLanes s e.l.id e.g.first e.act 3) []) ∧
     (x.depth ≠ 0 → x.serial = false → s.launch? e.l.id = some e.l →
       (let t := abortLanes s e.l.id e.g.first e.act 3
        let y := (t.group e.l.id e.g.first).tx
        y.aborted = x.aborted ||| (e.act &&& x.inTx) ∧
        (∀ l, y.causes.getD l 0 = if laneIn e.act l = true ∧ laneIn x.inTx l = true ∧ laneIn x.aborted l = false then 3 else x.causes.getD l 0) ∧
        y.writes = x.writes.map (fun r => { r with bytes := r.bytes.filter (fun b =>
          !(laneIn e.act b.lane && laneIn x.inTx b.lane && !laneIn x.aborted b.lane)) }) ∧
        (∀ r ∈ y.reads, r.lanes &&& (e.act &&& x.inTx &&& ~~~x.aborted) = 0) ∧ y.depth = x.depth ∧ y.lanes = x.lanes ∧
        t.mem = s.mem ∧ t.galleys = s.galleys)) ∧
     (x.depth = 0 → exec (.txabort w) s = .next (e.faultAll s .txState) ∧
       exec (.txend w) s = .next (e.faultAll s .txState)) ∧
     (∀ r rest, s.serial.holder = none → s.serial.queue = r :: rest →
       exec .serialGrant s = .next { s with serial := { s.serial with holder := some r, queue := rest } }))

/-! ### Fences, barriers, queues, maintenance and traps: chapters 5, 8, 12 and 19 -/

/-- R406 to R412 where the instruction reports or has no effect but to go on. -/
def Claims.SynchronisationReports : Prop :=
  ∀ (s : State) (e : Exe) (w : Main), Leaf s e → e.tx? = none →
    (let dom := e.l.domains.getD (e.l.domainOf e.g.first) .empty
     let x := s.core e.core
     let q := x.queues.getD (immNat w.a) (0, 0)
     (e.owes s = false → Completes s e (.fence w) s []) ∧
     Completes s e (.hint w) s [] ∧
     Gives s e (.barphase w) w.ty (fun _ => e.g.phase) ∧
     Gives s e (.bartest w) w.ty (fun _ => if e.g.pending = true ∧ dom.phase = e.g.recorded then 0 else 1) ∧
     Gives s e (.dmember w) w.ty (fun _ =>
       e.l.domainOf e.g.first % 2 ^ 40 * 2 ^ 24 + (if e.g.pending then 4 else 0) + e.l.domLevel % 4) ∧
     (8192 ≤ e.l.spad →
       Gives s e (.qcount w) w.ty (fun _ => (q.2 + 2 ^ 16 - q.1) % 2 ^ 16) ∧
       Gives s e (.qspace w) w.ty (fun _ => 64 - (q.2 + 2 ^ 16 - q.1) % 2 ^ 16)) ∧
     Gives s e (.rdclk w) w.ty (fun _ => s.pkg.clock % 2 ^ 64))

/-- R410 with Table 19.3: the value that `rdctl` gives for each register that a program may read, in the layout of the table that it names,
at every index it takes; every other number and index is CTL_ACCESS. -/
def Claims.ControlRegisterReads : Prop :=
  ∀ (s : State) (e : Exe) (w : Main), Leaf s e →
    (let t := s.tenant e.l.tenant
     let c := s.ctx e.l.tenant e.l.ctx
     let x := s.core e.core
     let i := e.num s .n32 w.b
     let flag (b : Bool) : Nat := if b then 1 else 0
     let denied : Prop := exec (.rdctl w) s = .next (e.faultAll s .ctlAccess)
     let reads (k : Nat) (ok : Prop) (v : Nat) : Prop :=
       immNat w.a = k → (ok → Gives s e (.rdctl w) w.ty (fun _ => v)) ∧ (¬ ok → denied)
     let here : Prop := i = 0
     let die := s.die i
     let level := if s.pkg.level4 then 4 else if s.pkg.level3 then 3 else if die.level2 then 2 else if die.flux.any (fun p => p.2.acts) then 1 else 0
     let buf := t.bufs.getD i .reset
     let sl := s.slice i
     let mine : Prop := i < 40 ∧ Word.bit t.clmask i = true
     reads 0x001 (i < 4) (revOf i * 2 ^ 24 + (clustersOfDie i).length * 2 ^ 16 + (if narrowDie i then 32 else 64) * 2 ^ 8 + level * 16 + die.clkStep) ∧
     reads 0x010 here t.clmask ∧ reads 0x011 here t.cemask ∧ reads 0x012 (i < 16) (t.wins.getD i 0) ∧ reads 0x013 here t.mode ∧
     reads 0x014 here t.assist ∧ reads 0x015 here t.fbLog ∧ reads 0x016 (i < 4) (flag buf.dropped * 2 ^ 31 + buf.entries.length) ∧
     reads 0x017 here t.enAllow ∧
     reads 0x020 here (flag c.enable * 2 ^ 31 + c.fatalVec * 2 ^ 24) ∧
     (∀ f, c.fatal = some f → c.state = .fatal → reads 0x021 here (3 * 2 ^ 30 + f.cause)) ∧
     (c.state ≠ .fatal → reads 0x021 here ((match c.state with | .disabled => 0 | .running => 1 | .preempted => 2 | .fatal => 3) * 2 ^ 30)) ∧
     reads 0x022 here c.ptRoot ∧ reads 0x023 here c.dumpBase ∧ reads 0x024 here c.dumpSize ∧ reads 0x025 here c.accBase ∧
     reads 0x026 here c.poolBase ∧ reads 0x027 here c.poolMap ∧ reads 0x028 here c.poolPages ∧ reads 0x02A here (flag c.invalBusy) ∧
     reads 0x02B here c.accSize ∧ reads 0x02C here c.undoBase ∧ reads 0x02D here c.undoSize ∧
     reads 0x02E here (flag c.enUnlimited * 2 ^ 63 + c.enBudget) ∧ reads 0x02F here c.enRate ∧
     reads 0x040 (i < 128) ((sl.dir.filter (fun r => !r.busy)).length * 2 ^ 16 +
       (sl.entries.map (fun e => if e.fmt = 0 then 2 else if e.fmt = 1 then 1 else 4)).sum * 2 ^ 5 + sl.entries.length) ∧
     reads 0x041 (i < 128) sl.spills ∧ reads 0x042 (i < 128) sl.finals ∧
     (∀ k, 0x050 ≤ k → k ≤ 0x058 → reads k mine ((s.cluster i).counts.getD (k - 0x050) 0)) ∧ reads 0x059 mine (queueDepth (s.cluster i)) ∧
     reads 0x060 here c.dbgCtl ∧ reads 0x061 here (c.dbgGroup % 2 ^ 40 * 2 ^ 24 + c.dbgCode * 2 + flag c.dbgHit) ∧
     reads 0x080 here x.evsel ∧ reads 0x081 (i < 4) (x.evcnt.getD i 0) ∧
     ((∀ r ∈ [(0x001, 0x001), (0x010, 0x017), (0x020, 0x028), (0x02A, 0x02F), (0x040, 0x042), (0x050, 0x059), (0x060, 0x061), (0x080, 0x081)],
        ¬ (r.1 ≤ immNat w.a ∧ immNat w.a ≤ r.2)) → denied))

/-- `Claims.SynchronisationReports` and `Claims.ControlRegisterReads` together. -/
def Obligations.SynchronisationReports : Prop :=
  Claims.SynchronisationReports ∧ Claims.ControlRegisterReads

/-- R114 steps 1 to 5, R407: the arrival that completes a phase. The domain's phase advances, and the group goes on past the
barrier with its own phase advanced; `bararr` goes on at once and leaves the arrival pending. -/
def Claims.BarrierCompletes : Prop :=
  ∀ (s : State) (e : Exe) (w : Main), Lone s e → e.tx? = none → (State.groupSt e.l e.g.first).tx.depth = 0 → e.owes s = false →
    (let d := e.l.domainOf e.g.first
     let dom := e.l.domains.getD d .empty
     let cnt := e.num s .n32 w.a
     e.g.pending = false → e.g.arrived = false → e.g.phase = dom.phase → dom.arrived = 0 → (if cnt = 0 then dom.live else cnt) = 1 →
     s.galleys = [e.g] → s.launches = [e.l] →
     (∃ t g, exec (.barr w) s = .next t ∧ t.galleys = [g] ∧ g.phase = (e.g.phase + 1) % 2 ^ 32 ∧ g.pending = false ∧ g.arrived = false ∧
       g.paths.map (fun p => p.th.instr) = [e.th.instr + 1] ∧ g.paths.map (fun p => p.th.wait) = [.none] ∧
       t.launches.map (fun l => (l.domains.getD d .empty).phase) = [(dom.phase + 1) % 2 ^ 32] ∧
       t.launches.map (fun l => (l.domains.getD d .empty).arrived) = [0] ∧ t.mem = s.mem ∧ t.cores = s.cores) ∧
     (∃ t g, exec (.bararr w) s = .next t ∧ t.galleys = [g] ∧ g.pending = true ∧ g.recorded = dom.phase ∧ g.phase = e.g.phase ∧
       g.paths.map (fun p => p.th.instr) = [e.th.instr + 1] ∧ g.paths.map (fun p => p.th.wait) = [.none] ∧
       t.launches.map (fun l => (l.domains.getD d .empty).phase) = [(dom.phase + 1) % 2 ^ 32] ∧ t.mem = s.mem ∧ t.cores = s.cores))

/-- R114: an arrival that does not complete the phase is counted; the group waits at a `barr`, and nothing is released. An arrival
follows the group's stores and no-return atomics (R176). -/
def Claims.BarrierWaits : Prop :=
  ∀ (s : State) (e : Exe) (w : Main), Lone s e → e.tx? = none → e.owes s = false →
    (let d := e.l.domainOf e.g.first
     let dom := e.l.domains.getD d .empty
     let cnt := e.num s .n32 w.a
     e.g.pending = false → e.g.arrived = false → e.g.phase = dom.phase → dom.arrived = 0 → 1 < (if cnt = 0 then dom.live else cnt) →
     e.l.domLevel ≠ 0 →
     exec (.barr w) s = .next ((s.setLaunch { e.l with domains := e.l.domains.set d { dom with
         expected := (if cnt = 0 then dom.live else cnt), first := cnt, arrived := 1 } }).setGalley
       { (e.g.setThread e.uid { e.th with wait := .barrier cnt false }) with arrived := true }))

/-- R407: `barwait` goes on when the recorded phase has completed, and takes BARRIER_STATE without a pending arrival. -/
def Claims.BarrierWaitEnds : Prop :=
  ∀ (s : State) (e : Exe) (w : Main), Runs s e → e.tx? = none →
    (let dom := e.l.domains.getD (e.l.domainOf e.g.first) .empty
     (e.g.pending = true → dom.phase ≠ e.g.recorded →
       Completes s e (.barwait w) (s.setGalley { e.g with pending := false, phase := (e.g.phase + 1) % 2 ^ 32 }) []) ∧
     (e.g.pending = true → dom.phase = e.g.recorded →
       exec (.barwait w) s = .next (e.put s { e.th with wait := .phase e.g.recorded })) ∧
     (e.g.pending = false → exec (.barwait w) s = .next (e.faultAll s .barrierState)))

/-- `Claims.BarrierCompletes`, `Claims.BarrierWaits` and `Claims.BarrierWaitEnds` together. -/
def Obligations.Barriers : Prop :=
  Claims.BarrierCompletes ∧ Claims.BarrierWaits ∧ Claims.BarrierWaitEnds

/-- R118, R408: a register-mapped queue is a ring of 64 entries at the top of the scratchpad. One lane's `qpush` writes its value at the
tail, one lane's `qpop` reads the head, behind the group's no-return atomics and its stores to the entry (R355); without room or data
the unit waits. DEDUCED (log 29): that `qpop` waits for the group's no-return atomics is read from row 1 of Table 8.3. -/
def Claims.QueuesPushAndPop : Prop :=
  ∀ (s : State) (e : Exe) (w : Main) (lane : Nat), Leaf s e → e.tx? = none → lanesIn e.act = [lane] → lane < e.l.g →
    (8192 ≤ e.l.spad → (let x := s.core e.core
     let k := immNat w.a
     let h := (x.queues.getD k (0, 0)).1
     let t := (x.queues.getD k (0, 0)).2
     let count := (t + 2 ^ 16 - h) % 2 ^ 16
     let entry (n : Nat) : Nat := e.l.spad - 8192 + 512 * k + 8 * (n % 64)
     (count < 64 → e.owes s = false →
       Completes s e (.qpush w) (s.setCore e.core { x with
         spad := x.spad.writeNat (entry t) 8 (e.lane (e.opnd s w.ty w.b) lane), queues := x.queues.set k (h, (t + 1) % 2 ^ 16) }) []) ∧
     (64 ≤ count → exec (.qpush w) s = .next (e.put s { e.th with wait := .queueSpace k 1 })) ∧
     (0 < count → SpadFree s e (entry h) 8 →
       ∃ v, Completes s e (.qpop w) (s.setCore e.core { x with queues := x.queues.set k ((h + 1) % 2 ^ 16, t) }) [v] ∧ v.ty = w.ty ∧
         e.lane v lane = x.spad.readNat (entry h) 8 % 2 ^ w.ty.width) ∧
     (count = 0 → exec (.qpop w) s = .next (e.put s { e.th with wait := .queueData k 1 })))) ∧
    (e.l.spad < 8192 → exec (.qpush w) s = .next (e.faultAll s .queueSpace))

/-- R276, R409: `icinv` starts an invalidation that completes later, when the texts of its range are discarded; `fbar` waits for those
of its groups; `l1inv` removes from the core's L1 what was read through a line of its range, and of length 0 everything. A range that
reaches 2^57 is NONCANONICAL. DEDUCED (log 28): the operands are those of the lowest active lane. DESIGN CHOICE (log 18): what the L1
and the caches hold, and which line leaves them. -/
def Claims.CodeAndCacheMaintenance : Prop :=
  ∀ (s : State) (e : Exe) (w : Main), Leaf s e → e.tx? = none →
    (let a := e.num s .n64 w.a
     let n := e.num s .n64 w.b
     (n = 0 → Completes s e (.icinv w) s [] ∧ Completes s e (.l1inv w) (s.setCore e.core { s.core e.core with l1 := [] }) []) ∧
     (0 < n → a + n ≤ 2 ^ 57 →
       Completes s e (.icinv w) { s with
         icinvs := s.icinvs ++ [⟨s.nextId, e.l.tenant, e.l.ctx, a, n, e.l.id, e.g.first, e.g.count⟩], nextId := s.nextId + 1 } [] ∧
       Completes s e (.l1inv w) (s.setCore e.core { s.core e.core with l1 := (s.core e.core).l1.filter (fun x =>
         !x.2.lines.any (fun line => decide (128 * line < a + n) && decide (a < 128 * line + 128))) }) []) ∧
     (0 < n → 2 ^ 57 < a + n →
       exec (.icinv w) s = .next (takeFault s e.g e.l e.th .nonCanonical e.leadLane 0 a) ∧
       exec (.l1inv w) s = .next (takeFault s e.g e.l e.th .nonCanonical e.leadLane 0 a)) ∧
     ((∀ x ∈ s.icinvs, x.launch ≠ e.l.id) → Completes s e (.fbar w) s []) ∧
     (∀ x ∈ s.icinvs, x.launch = e.l.id → x.first ≤ e.g.first → e.g.first < x.first + x.count →
       exec (.fbar w) s = .next (e.put s { e.th with wait := .fbar })) ∧
     (∀ x, s.icinvs = [x] → exec (.icinvDone x.id) s = .next (discardText { s with icinvs := [] } x.tenant x.ctx x.va x.len)))

/-- `Claims.QueuesPushAndPop` and `Claims.CodeAndCacheMaintenance` together. -/
def Obligations.QueuesAndMaintenance : Prop :=
  Claims.QueuesPushAndPop ∧ Claims.CodeAndCacheMaintenance

/-- R410, R411 with Table 19.3: `wrctl` writes CORE.EVSEL and a CORE.EVCNT, and nothing else; any other register, an index that
neither has, an event code that Table 19.4 does not list and a rsvd bit raise CTL_ACCESS. -/
def Claims.ControlRegisterWrites : Prop :=
  ∀ (s : State) (e : Exe) (w : Main), Leaf s e → e.tx? = none →
    (let x := s.core e.core
     let k := immNat w.a
     let i := e.num s .n32 w.b
     let v := e.num s .b64 w.c
     (k = 0x080 → i = 0 → v < 2 ^ 32 → (∀ j, j < 4 → v / 256 ^ j % 256 ≤ 12) →
       Completes s e (.wrctl w) (s.setCore e.core { x with evsel := v }) []) ∧
     (k = 0x081 → i < 4 → Completes s e (.wrctl w) (s.setCore e.core { x with evcnt := x.evcnt.set i v }) []) ∧
     (k = 0x080 → (i ≠ 0 ∨ 2 ^ 32 ≤ v ∨ ∃ j, j < 4 ∧ 12 < v / 256 ^ j % 256) → exec (.wrctl w) s = .next (e.faultAll s .ctlAccess)) ∧
     (k = 0x081 → 4 ≤ i → exec (.wrctl w) s = .next (e.faultAll s .ctlAccess)) ∧
     (k ≠ 0x080 → k ≠ 0x081 → exec (.wrctl w) s = .next (e.faultAll s .ctlAccess)))

/-- R132, R412: `yield` sets the unit's round bit at all three queues; `nap` parks the unit, and its expiry lets it go on while its
context runs. -/
def Claims.YieldAndNap : Prop :=
  ∀ (s : State) (e : Exe) (w : Main), Lone s e →
    (∀ r0 r1 r2, (s.core e.core).rounds = [r0, r1, r2] →
      ∃ r0' r1' r2', Completes s e (.yield w) (s.setCore e.core { s.core e.core with rounds := [r0', r1', r2'] }) [] ∧
        ∀ c, (c ∈ r0' ↔ c ∈ r0 ∨ c = (e.g.id, 0)) ∧ (c ∈ r1' ↔ c ∈ r1 ∨ c = (e.g.id, 0)) ∧ (c ∈ r2' ↔ c ∈ r2 ∨ c = (e.g.id, 0))) ∧
    exec (.nap w) s = .next (e.put s { e.th with wait := .nap }) ∧
    (e.th.wait = .nap → (s.ctx e.l.tenant e.l.ctx).state = .running → (∀ p, (s.ctx e.l.tenant e.l.ctx).preempt = some p → p.stopping = false) →
      exec (.napExpiry e.g.id) s = .next (e.put s (e.th.after [])))

/-- `Claims.ControlRegisterWrites` and `Claims.YieldAndNap` together. -/
def Obligations.ControlWritesAndTiming : Prop :=
  Claims.ControlRegisterWrites ∧ Claims.YieldAndNap

/-- R413, R415: `trap` raises TRAP with its immediate in the subcode and lane 0xFF, or the item's lane in per-item mode; `chk` raises CHECK at the lowest active lane
whose predicate is false, and goes on where there is none. -/
def Obligations.TrapsAndChecks : Prop :=
  ∀ (s : State) (e : Exe) (w : Main), Leaf s e → e.tx? = none →
    exec (.trap w) s = .next (takeFault s e.g e.l e.th .trap (faultLane e.uid) (immNat w.a) 0) ∧
    (let p := e.opnd s .p w.a
     ((∀ l, laneIn e.act l = true → e.lane p l % 2 = 1) → Completes s e (.chk w) s []) ∧
     (∀ l, laneIn e.act l = true → e.lane p l % 2 = 0 → (∀ k, k < l → laneIn e.act k = true → e.lane p k % 2 = 1) →
       exec (.chk w) s = .next (takeFault s e.g e.l e.th .check l (immNat w.b) 0)))

/-- R92, R122, R203, R415: a group fault of a running context outside transactions. Every path of the galley stops, the context turns
fatal with cause GROUP_FAULT and DETAIL code + lane × 2^16 + subcode × 2^32, the record names where the fault stands, its queues are
blocked, and no memory changes. A later fault only counts. DEDUCED (log 11): a fault that no single lane's operand caused records lane
0xFF. -/
def Claims.FaultsEnterTheFatalState : Prop :=
  ∀ (s : State) (g : Galley) (l : Launch) (th : Thread) (c : Code) (lane sub faddr : Nat), s.galley? g.id = some g →
    (s.group l.id g.first).tx.depth = 0 →
    (let t := takeFault s g l th c lane sub faddr
     t.mem = s.mem ∧ t.hostMem = s.hostMem ∧ t.peerMem = s.peerMem ∧ t.launches = s.launches ∧ t.cores = s.cores ∧
     (∃ h, t.galley? g.id = some h ∧ ∀ p ∈ h.paths, p.th.wait = .stopped ∧ ∀ i ∈ p.items, i.th.wait = .stopped) ∧
     ((s.ctx l.tenant l.ctx).fatal = none → (s.ctx l.tenant l.ctx).state ≠ .disabled →
       ∃ f, (t.ctx l.tenant l.ctx).state = .fatal ∧ (t.ctx l.tenant l.ctx).fatal = some f ∧ f.cause = 1 ∧ f.count = 1 ∧
         f.detail = c.num + lane * 2 ^ 16 + sub * 2 ^ 32 ∧ f.core = g.core.getD g.home ∧ f.die = dieOf (g.core.getD g.home) ∧
         f.tag = l.tag ∧ f.objId = l.objId ∧ f.block = th.block ∧ f.instr = th.instr ∧ f.faddr = faddr ∧ f.time = s.pkg.clock) ∧
     (∀ f, (s.ctx l.tenant l.ctx).fatal = some f →
       (t.ctx l.tenant l.ctx).fatal = some { f with count := min (f.count + 1) 65535 }))

/-- R414: `brk` goes on unless BRKMASK selects it in a running context; the first to take records the breakpoint and begins a
pre-emption in capture mode, and the unit stops; a later one stops its unit too. DEDUCED (log 28): inside an open transaction the unit goes
on, since its group is captured only after its outermost `txend` (R209). -/
def Obligations.Breakpoints : Prop :=
  ∀ (s : State) (e : Exe) (w : Main), Leaf s e →
    (let k := immNat w.a
     let c := s.ctx e.l.tenant e.l.ctx
     let stopped : Thread := if e.tx? = none then { e.th with wait := .stopped } else e.th.after []
     (Word.bit c.dbgCtl (k % 16) = false ∨ e.th.brkOk = true ∨ c.state ≠ .running → Completes s e (.brk w) s []) ∧
     (Word.bit c.dbgCtl (k % 16) = true → e.th.brkOk = false → c.state = .running → c.preempt = none →
       ∃ p, exec (.brk w) s = .next ((e.put s stopped).setCtx e.l.tenant e.l.ctx
           { c with dbgHit := true, dbgCode := k, dbgGroup := e.g.first, preempt := some p }) ∧
         p.brk = true ∧ p.stopping = true ∧ p.packet = none ∧ p.saveVa = c.dbgSave ∧ p.saveLen = c.dbgSize) ∧
     (Word.bit c.dbgCtl (k % 16) = true → e.th.brkOk = false → c.state = .running → c.preempt ≠ none →
       exec (.brk w) s = .next (e.put s stopped)))

/-! ### Packets, launches and graphs: chapters 3 and 4 -/

/-- R53, R62, R64: NOP and WRAP have no effect but to pass and signal; WRAP sets RP to 0. SIGNAL writes the larger of its VALUE and the
counter. DEDUCED (log 27): a packet runs as it was read when it was checked. -/
def Claims.PacketsPass : Prop :=
  ∀ (s : State) (q : QId) (p : PktIn),
    (Starts s 0 q p → ∃ t, exec (.nopPacket q) s = .next t ∧ Passed s p s t) ∧
    (Starts s 1 q p → ∃ t, exec (.wrap q) s = .next t ∧ Passed s p s t) ∧
    (∀ c, Starts s 3 q p → Finds s q (p.field 0 8) 8 .qAtomic c →
      ∃ t, exec (.signal q) s = .next t ∧
        Passed s p (s.setMemOf c.tgt ((s.memOf c.tgt).writeNat c.pa 8 (max ((s.memOf c.tgt).readNat c.pa 8) (p.field 8 8)))) t)

/-- R64: WAITCNT completes at once where the counter has reached TARGET, and else blocks its queue; a poll then completes it as
soon as the counter has. DESIGN CHOICE (log 27): the poll reads at the physical address found as the packet started. -/
def Claims.CounterWaits : Prop :=
  ∀ (s : State) (q : QId) (c : PTarget), s.spanLocked c 8 = false →
    (∀ p, Starts s 2 q p → Finds s q (p.field 0 8) 8 .qRd c →
      ∃ t, exec (.waitcnt q) s = .next t ∧
        (p.field 8 8 ≤ (s.memOf c.tgt).readNat c.pa 8 → Passed s p s t) ∧
        ((s.memOf c.tgt).readNat c.pa 8 < p.field 8 8 → Blocks s p t)) ∧
    (∀ x, s.NoExact → s.blockerOf q = some x → x.q = q → x.opcode = 2 → x.status = some c → ctxHeld s q.owner x.ctx = false →
      s.blockedSpan none false c 8 = false → queueLate s q c 8 true = none → Completable s x →
      ∃ t, exec (.waitcntPoll q) s = .next t ∧
        (fieldAt x.body 8 8 ≤ (s.memOf c.tgt).readNat c.pa 8 → Ends s x t) ∧
        ((s.memOf c.tgt).readNat c.pa 8 < fieldAt x.body 8 8 → t = s))

/-- `Claims.PacketsPass` and `Claims.CounterWaits` together. -/
def Obligations.PacketsAndCounterWaits : Prop :=
  Claims.PacketsPass ∧ Claims.CounterWaits

/-- R45, R65: LOAD writes its result record: the code in bits [7:0] and the number of the check that failed in [15:8]. An object that
passes joins its context; no check that fails loads anything, and ACTERR is set. An object without sections whose OBJID is free passes
where every page of it translates to device memory, its header is well formed, its signer's key is registered, and the signature is
valid (R42 with the pre-authenticated mode of R70 as the alternative). DEDUCED (log 27): a header page that fails its translation is a
failure of step 2. -/
def Claims.LoadsObjects : Prop :=
  ∀ (s : State) (q : QId) (p : PktIn) (c : PTarget), Starts s 4 q p → Finds s q (p.field 24 8) 8 .qWr c →
   (∀ h r key, let k := (s.queue q).ctx
     let x := s.ctx q.owner k
     let b := h ++ r
     let o := objOf s.nextId (p.field 16 2) (p.field 0 8) b
     q.owner < 16 → x.objs.any (fun y => y.objId == p.field 16 2) = false → p.field 0 8 % 65536 = 0 → 65536 ≤ p.field 8 8 →
     h.length = 0x1400 → Holds s q k (p.field 0 8) h → headerOk h (p.field 8 8) = true →
     r.length = fieldAt h 0x18 8 - 0x1400 → Holds s q k (p.field 0 8 + 0x1400) r →
     (∀ y ∈ r.drop (64 * fieldAt h 0x20 4), y = 0) →
     (∀ i, i < Word.ceilDiv (p.field 8 8) 65536 → ∃ pa, Reached s q k (p.field 0 8 + 65536 * i) 1 pa) →
     o.signer < 8 → (s.tenant q.owner).keys.get? o.signer = some key →
     (if Word.bit (s.tenant q.owner).mode 1 then p.field 18 1 = 1 else Config.mlDsaVerify key o.digest ((b.drop 0x102).take 4627) = true) →
     fieldAt b 0x07 1 = 1 → o.minor ≤ 2 → o.behaviour ≤ 1 → o.nsect = 0 →
     ∃ t, exec (.load q) s = .next t ∧
       Passed s p ((s.setCtx q.owner k { x with objs := x.objs ++ [o] }).writePhys c (leBytes 8 0)) t) ∧
   (∀ r, loadObject p s = (some r, s) →
    (let k := (s.queue q).ctx
     let x := s.ctx q.owner k
     (∀ o, r.obj = some o →
       ∃ t, exec (.load q) s = .next t ∧
         Passed s p ((s.setCtx q.owner k { x with objs := x.objs ++ [o] }).writePhys c (leBytes 8 (r.code + 256 * r.step))) t) ∧
     (r.obj = none →
       ∃ t, exec (.load q) s = .next t ∧ (t.queue q).actErr = true ∧ Passed s p (s.writePhys c (leBytes 8 (r.code + 256 * r.step))) t) ∧
     (x.objs.any (fun o => o.objId == p.field 16 2) = true → r = ⟨8, 0, none⟩) ∧
     (x.objs.any (fun o => o.objId == p.field 16 2) = false → (p.field 0 8 % 65536 ≠ 0 ∨ p.field 8 8 < 65536) → r = ⟨1, 1, none⟩)))

/-- R64: UNLOAD frees its OBJID and discards the object's translations; while the object is in use it blocks its queue; an OBJID
that is not loaded sets ACTERR. -/
def Claims.UnloadsObjects : Prop :=
  ∀ (s : State) (q : QId),
    (∀ p, Starts s 5 q p →
      (let k := (s.queue q).ctx
       let oid := p.field 0 2
       let loaded := (s.ctx q.owner k).objs.any (fun o => o.objId == oid)
       ∃ t, exec (.unload q) s = .next t ∧
         (loaded = false → (t.queue q).actErr = true ∧ Passed s p s t) ∧
         (loaded = true → objInUse s q.owner k oid = true → Blocks s p t) ∧
         (loaded = true → objInUse s q.owner k oid = false → Passed s p (discardObj s q.owner k oid) t))) ∧
    (∀ x, s.NoExact → s.blockerOf q = some x → x.q = q → x.opcode = 5 → ctxHeld s q.owner x.ctx = false → Completable s x →
      (let k := x.ctx
       let oid := fieldAt x.body 0 2
       ∃ t, exec (.unload q) s = .next t ∧
         (objInUse s q.owner k oid = true → t = s) ∧
         (objInUse s q.owner k oid = false → Ends (discardObj s q.owner k oid) x t))) ∧
    (∀ (t k oid : Nat), let u := discardObj s t k oid
      (∀ o ∈ (u.ctx t k).objs, o.objId ≠ oid ∧ o ∈ (s.ctx t k).objs) ∧
      (∀ x ∈ u.xlats, x ∈ s.xlats ∧ (x.tenant = t → x.ctx = k → ∀ o ∈ (s.ctx t k).objs, o.objId = oid → x.obj ≠ o.inst)))

/-- `Claims.LoadsObjects` and `Claims.UnloadsObjects` together. -/
def Obligations.ObjectsLoadAndUnload : Prop :=
  Claims.LoadsObjects ∧ Claims.UnloadsObjects

/-- R74, R76, R78: a launch whose checks pass joins the launches of the device, its packet stays outstanding, and placement follows; one
that fails runs no group, writes the check's code to its status word and sets ACTERR. DEDUCED (log 27): the accesses of a start that
fail stop the queue. -/
def Obligations.LaunchesStart : Prop :=
  ∀ (s : State) (q : QId) (p : PktIn) (c : PTarget), Starts s 6 q p → Finds s q (p.field 0x30 8) 8 .qWr c →
    (let k := (s.queue q).ctx
     (∀ n, startLaunch s q k (leBytes 16 p.h.raw) p.b = (.code n, s) →
       ∃ t, exec (.launch q) s = .next t ∧ (t.queue q).actErr = true ∧ Passed s p (s.writePhys c (leBytes 8 n)) t) ∧
     ((∀ o ∈ (s.ctx q.owner k).objs, o.objId ≠ p.field 0 2) → startLaunch s q k (leBytes 16 p.h.raw) p.b = (.code 1, s)) ∧
     (∀ o tys bs, q.owner < 16 → (s.ctx q.owner k).objs.find? (fun x => x.objId == p.field 0 2) = some o →
       s.obj? q.owner k o.inst = some o → entryTypes (p.field 4 4) o = .ok (some tys) →
       (let l := launchOf q.owner k (leBytes 16 p.h.raw) p.b
        launchCheck s l = 0 → bs.length = 8 * tys.length → Holds s q k (p.field 0x28 8) bs →
        exec (.launch q) s = .next (
          let (pk, u) := beginPacket s q p.h p.b p.sig (some c)
          placeAll 4096 (addLaunch u { l with obj := o.inst, args := argValues tys bs, packet := some pk.id, status := some c }).2))) ∧
     (∀ l v, startLaunch s q k (leBytes 16 p.h.raw) p.b = (.start l, v) →
       ∃ u l', exec (.launch q) s = .next (placeAll 4096 u) ∧ u.launches = v.launches ++ [l'] ∧ u.galleys = v.galleys ∧ u.mem = v.mem ∧
         l' = { l with id := l'.id, packet := l'.packet, status := some c, domains := l'.domains } ∧ l'.packet.isSome = true ∧
         (u.queue q).rp = rpAfter (v.queue q) p.h ∧
         l.tenant = q.owner ∧ l.ctx = k ∧ l.entry = p.field 4 4 ∧ l.budget = p.field 0x21 1 ∧ l.spad = p.field 0x40 4 ∧
         l.tag = p.field 0x44 4 ∧ l.domLevel = p.field 0x20 1 ∧ l.domGroups = p.field 0x24 4))

/-- R121, R125 to R128: a pending piece, a launch of DOMLEVEL 0 or the next domain of a launch is put on the core that the rules
choose, in its lowest free slot and with the core's next age; its paths then begin their block; a piece from another core finds the L1
empty. Of a domain that a RESUME has left in pieces (R91) the first goes to that core and the others wait for the domain's unit.
DESIGN CHOICE (log 28): a core whose last launch's work still runs counts as released, and is taken once that work has ended (`settled`);
cores that another launch's domains need for all their groups to be resident are kept for them (inside `unitFor` and `releasedCore`). -/
def Claims.PlacementPutsGroups : Prop :=
  ∀ (s : State),
    (let v := releaseCores s
     (∀ l g c, (v.launches.filter (fun l => dispatches v l && holdsCore v l)).findSome?
           (fun l => (pieceOf v l).bind (fun x => if settled v l x.2 then some (l, x) else none)) = some (l, g, c) →
       ∃ u, exec .piecePlacement s = .next ((List.range g.paths.length).foldl (fun s i => pathAtEntry s g.id i) u) ∧
         u.galley? g.id = some { g with core := some c, slot := lowestSlot v c, age := ((takeCore v l c).core c).nextAge, home := c, fixed := false } ∧
         (u.core c).launch = some l.id ∧ (u.core c).nextAge = ((takeCore v l c).core c).nextAge + 1 ∧ u.mem = s.mem ∧
         u.launches = s.launches ∧ (g.home ≠ c → (u.core c).l1 = [])) ∧
     (∀ l, placePiece v = none → (v.launches.filter (dispatches v)).find? (fun l => (placeOf v l).isSome) = some l →
       (∀ g ∈ s.galleys, g.id < s.nextId) →
       (let wide := (searchOrder 0 16 (v.tenant l.tenant).w2ptr).findSome? (fun cl => (releasedCore v l cl).map (fun c => (cl, c)))
        let narrow := (searchOrder 16 24 (v.tenant l.tenant).n1ptr).findSome? (fun cl => (releasedCore v l cl).map (fun c => (cl, c)))
        (∀ cl c, l.domLevel = 0 → l.placed = false → (wide = some (cl, c) ∨ (wide = none ∧ narrow = some (cl, c))) →
          ∃ u g, exec .launchPlacement s = .next (pathAtEntry u g.id 0) ∧ u.galleys = s.galleys ++ [g] ∧ g.launch = l.id ∧ g.first = 0 ∧
            g.count = l.groupCount ∧ g.core = some c ∧ g.slot = lowestSlot v c ∧ g.paths.map (fun p => (p.th.block, p.th.instr)) = [(l.entry, 0)] ∧
            (u.core c).launch = some l.id ∧ u.mem = s.mem ∧
            (wide = some (cl, c) → (u.tenant l.tenant).w2ptr = cl) ∧ (wide = none → (u.tenant l.tenant).n1ptr = cl)) ∧
        (∀ j cs c, l.domLevel ≠ 0 → l.nextDomain = some j → leftOf v l j = [] →
          unitFor v l l.domGroups = some cs → cs.find? (fun c => decide (0 < freeSlots v l c)) = some c → settled v l c = true →
          ∃ u g, exec .launchPlacement s = .next (pathAtEntry u g.id 0) ∧ u.galleys = s.galleys ++ [g] ∧ g.launch = l.id ∧
            g.first = j * l.domGroups ∧ g.count = l.domGroups ∧ g.core = some c ∧ g.slot = lowestSlot v c ∧ (u.core c).launch = some l.id ∧
            u.mem = s.mem) ∧
        (∀ j g gs cs c, l.domLevel ≠ 0 → l.nextDomain = some j → leftOf v l j = g :: gs → (s.galleys.map Galley.id).Nodup →
          unitFor v l ((g :: gs).map Galley.count).sum = some cs → cs.find? (fun c => decide (0 < freeSlots v l c)) = some c →
          settled v l c = true →
          ∃ u, exec .launchPlacement s = .next ((List.range g.paths.length).foldl (fun s i => pathAtEntry s g.id i) u) ∧
            u.galley? g.id = some { g with core := some c, slot := lowestSlot v c, age := ((takeCore v l c).core c).nextAge, home := c,
                                           fixed := false } ∧
            (∀ x ∈ gs, u.galley? x.id = some { x with home := c }) ∧ (u.core c).launch = some l.id ∧ u.mem = s.mem))))

/-- R80: a launch with every group retired and nothing of its groups outstanding completes: its status word receives 0 and its
packet signals. -/
def Claims.LaunchesComplete : Prop :=
  ∀ (s : State) (l : Launch), s.NoExact → s.launch? l.id = some l → launchOver s l = true → targetHeld s l.status = false →
    (let v := { s with launches := s.launches.filter (fun x => x.id != l.id) }
     (∀ i x c, l.packet = some i → s.packet? i = some x → packetHeld s x = false → x.status = some c → Completable s x →
       ∃ t, exec (.launchComplete l.id) s = .next t ∧ t.launches = v.launches ∧ Ends (v.writePhys c (leBytes 8 0)) x t) ∧
     (l.packet = none → (∀ c, l.status = some c → s.lateFail l.tenant c 8 false = none) → exec (.launchComplete l.id) s =
       .next (match l.status with | some c => v.writePhys c (leBytes 8 0) | none => v)))

/-- `Claims.PlacementPutsGroups` and `Claims.LaunchesComplete` together. -/
def Obligations.LaunchesPlaceAndComplete : Prop :=
  Claims.PlacementPutsGroups ∧ Claims.LaunchesComplete

/-- R82, R83: a GRAPH packet makes a replay that waits for STATE 0; the wait ends with REPLAYGEN taken from GEN, every PREDLEFT set from
PREDINIT, and the nodes whose PREDINIT is 0 ready. A node's retirement counts, and its successors are counted down. What is asked of the
state: the graph's structures are reached and well formed, and no other replay of the graph runs. DEDUCED (log 27): TEN.MODE.GRAPH is
read when the wait for STATE 0 ends. DESIGN CHOICE (log 20): the queue and RECADDR of a replay that RESUME rebuilt. -/
def Claims.GraphsReplay : Prop :=
  ∀ (s : State),
    (∀ q p c ts, Starts s 7 q p → p.field 24 4 = 0xFFFFFFFF → Finds s q (p.field 16 8) 8 .qWr c →
      List.Forall₂ (fun (x : Nat × Nat) (y : PTarget × Nat) => y.2 = x.2 ∧ Finds s q x.1 x.2 .qRd y.1) (pageParts 2 (p.field 0 8) 64) ts →
      (let (pk, v) := beginPacket s q p.h p.b p.sig (some c)
       let r : Replay :=
         { id := v.nextId, tenant := q.owner, ctx := (s.queue q).ctx, graph := p.field 0 8, recAddr := p.field 8 8, packet := some pk.id,
           wait := true, gen := 0, nodes := 0, ready := [], dispatched := [], running := [], retired := 0, records := 0,
           abandon := none, assisted := false, via := none }
       let u := { v with nextId := v.nextId + 1, replays := v.replays ++ [r] }
       exec (.graph q) s = .next (beginReplay u r) ∧ (graphBusy u r = true → exec (.graph q) s = .next u)) ∧
      ∃ u r, exec (.graph q) s = .next (beginReplay u r) ∧ u.replays = s.replays ++ [r] ∧ r.wait = true ∧ r.tenant = q.owner ∧
        r.ctx = (s.queue q).ctx ∧ r.graph = p.field 0 8 ∧ r.recAddr = p.field 8 8 ∧ r.abandon = none ∧ u.mem = s.mem ∧
        (u.queue q).rp = rpAfter (s.queue q) p.h ∧ (graphBusy u r = true → beginReplay u r = u)) ∧
    (∀ r hb, s.replay? r.id = some r → r.wait = true → ctxDispatches s r.tenant r.ctx = true → queueWaits s (r.queue s) = false →
      graphBusy s r = false → completionHeld s r.packet = false → hb.length = 64 → Holds s (r.queue s) r.ctx r.graph hb →
      (GraphHdr.of hb).ok r.graph = true → (GraphHdr.of hb).state = 0 →
      SpanReached s (r.queue s) r.ctx (GraphHdr.of hb).tcb (32 * (GraphHdr.of hb).nodes) →
      (let h := GraphHdr.of hb
       let q := r.queue s
       let v := softWrite q r.ctx (r.graph + 0x20) (leBytes 8 h.gen) (softWrite q r.ctx (r.graph + 0x30) (leBytes 4 1) s)
       let n := resetNodes q r.ctx h.tcb h.nodes v
       exec (.graphReplayWaitEnd r.id) s = .next (runReplay n.2 { r with
         wait := false, gen := h.gen, nodes := h.nodes, ready := n.1, assisted := Word.bit (n.2.tenant r.tenant).mode 4 }) ∧
       ∃ r', exec (.graphReplayWaitEnd r.id) s = .next (runReplay n.2 r') ∧ r'.wait = false ∧ r'.gen = h.gen ∧ r'.nodes = h.nodes ∧
         r'.ready = n.1 ∧ r'.id = r.id ∧ r'.graph = r.graph ∧ r'.assisted = Word.bit (n.2.tenant r.tenant).mode 4)) ∧
    (∀ r n, s.replay? r.id = some r → n ∈ r.running → (∀ l ∈ s.launches, l.node ≠ some (r.id, n)) →
      ctxDispatches s r.tenant r.ctx = true → queueWaits s (r.queue s) = false →
      (let q := r.queue s
       (r.assisted = true ∧ ∀ x ∈ pageParts 2 (r.recAddr + 16 * r.records) 16, ∃ pa, Reached s q r.ctx x.1 x.2 pa) ∨
       (r.assisted = false ∧ ∃ ta tb ss, ta.length = 8 ∧ tb.length = 32 ∧ Holds s q r.ctx (r.graph + 0x10) ta ∧
         Holds s q r.ctx (leNat ta + 32 * n) tb ∧ ss.length = 4 * (Tcb.of tb).nsucc ∧ Holds s q r.ctx (Tcb.of tb).succ ss ∧
         ∀ i, i < (Tcb.of tb).nsucc → ∃ pa, Reached s q r.ctx (leNat ta + 32 * fieldAt ss (4 * i) 4 + 4) 4 pa)) →
      exec (.graphNodeRetire r.id n) s = .next (let (r', u) := retireNode s r n 0; runReplay (u.setReplay r') r') ∧
      ∃ u r', exec (.graphNodeRetire r.id n) s = .next (runReplay u r') ∧ r'.retired = r.retired + 1 ∧ n ∉ r'.running ∧ r'.id = r.id)

/-- R84, R85: a GRAPH packet that names a node dispatches it in the running host-assisted replay of its graph, and completes: a JOIN
node retires at once, where the graph's structures are reached; a node number not below NODES abandons the replay with GRAPH_FORMAT.
DEDUCED (log 27): which failures abandon the replay with GRAPH_FORMAT, and the header of the record of a node's launch. -/
def Claims.NodesAreDispatched : Prop :=
  ∀ (s : State) (q : QId) (p : PktIn) (c : PTarget) (r : Replay), Starts s 7 q p → p.field 24 4 ≠ 0xFFFFFFFF →
    Finds s q (p.field 16 8) 8 .qWr c → assistedReplay s q.owner (s.queue q).ctx (p.field 0 8) = some r → r.abandon = none →
    (let n := p.field 24 4
     (∀ hb tb, let rq := r.queue s
       n < r.nodes → r.dispatched.contains n = false → hb.length = 64 → Holds s rq r.ctx r.graph hb →
       tb.length = 32 → Holds s rq r.ctx ((GraphHdr.of hb).tcb + 32 * n) tb → (Tcb.of tb).kind = 1 →
       (∀ x ∈ pageParts 2 (r.recAddr + 16 * r.records) 16, ∃ pa, Reached s rq r.ctx x.1 x.2 pa) →
       exec (.graphNodeDispatch q) s = .next (
         let (r', v) := retireNode s { r with dispatched := r.dispatched ++ [n] } n 0
         let (pk, u) := p.begin_ (settleReplay (v.setReplay r') r') (some c)
         placeAll 4096 (finishPacket u pk 0))) ∧
     (∀ r' v, n < r.nodes → r.dispatched.contains n = false → dispatchNode s r n = (some r', v) → r'.abandon = none →
       ∃ k u, exec (.graphNodeDispatch q) s = .next (placeAll 4096 (finishPacket u k 0)) ∧ k.q = q ∧ k.opcode = 7 ∧ k.status = some c ∧
         u.mem = (settleReplay (v.setReplay r') r').mem ∧ u.replays = (settleReplay (v.setReplay r') r').replays) ∧
     (r.nodes ≤ n →
       ∃ k u, exec (.graphNodeDispatch q) s = .next (finishPacket u k (8 + n % 2 ^ 32 * 2 ^ 8)) ∧ k.q = q ∧ k.status = some c ∧
         (u.queue q).actErr = true ∧ u.replays = (settleReplay s (r.fails 8 n 0)).replays))

/-- R86: a PATCH that is the first of its graph, with no unretired replay bound to the older generation, writes the slots of the next
generation and then GEN, and completes; one that is not first waits. DEDUCED (log 27): a bad graph header sets ACTERR. -/
def Claims.PatchesApply : Prop :=
  ∀ (s : State),
    (∀ q p ts, Starts s 8 q p →
      List.Forall₂ (fun (x : Nat × Nat) (y : PTarget × Nat) => y.2 = x.2 ∧ Finds s q x.1 x.2 .qRd y.1) (pageParts 2 (p.field 0 8) 64) ts →
      (let (pk, v) := beginPacket s q p.h p.b p.sig none
       let x : PatchOp := { id := v.nextId, tenant := q.owner, ctx := (s.queue q).ctx, graph := p.field 0 8, src := p.field 8 8,
                            count := p.field 16 4, packet := pk.id, gen := none }
       let u := { v with nextId := v.nextId + 1, patches := v.patches ++ [x] }
       exec (.patch q) s = .next (runPatch u x) ∧
       ((∃ y ∈ s.patches, y.tenant = x.tenant ∧ y.ctx = x.ctx ∧ y.graph = x.graph ∧ y.id < x.id) → exec (.patch q) s = .next u)) ∧
      ∃ u x, exec (.patch q) s = .next (runPatch u x) ∧ u.patches = s.patches ++ [x] ∧ x.tenant = q.owner ∧ x.ctx = (s.queue q).ctx ∧
        x.graph = p.field 0 8 ∧ x.src = p.field 8 8 ∧ x.count = p.field 16 4 ∧ u.mem = s.mem ∧ (u.queue q).rp = rpAfter (s.queue q) p.h) ∧
    (∀ x k, s.patches.find? (fun p => p.id == x.id) = some x → ctxDispatches s x.tenant x.ctx = true → s.packet? x.packet = some k →
      ((∃ y ∈ s.patches, y.tenant = x.tenant ∧ y.ctx = x.ctx ∧ y.graph = x.graph ∧ y.id < x.id) → exec (.patchWaitEnd x.id) s = .next s) ∧
      (∀ hb src, s.patches = [x] → packetHeld s k = false → hb.length = 64 → Holds s k.q x.ctx x.graph hb →
        (let h := GraphHdr.of hb
         let g := x.gen.getD h.gen
         let v := { s with patches := [{ x with gen := some g }] }
         h.ok x.graph = true →
         (∀ r ∈ s.replays, r.tenant = x.tenant → r.ctx = x.ctx → r.graph = x.graph → r.wait = false → r.gen + 1 ≠ g) →
         src.length = 128 * x.count → Holds s k.q x.ctx x.src src →
         (∀ i, i < x.count → fieldAt src (128 * i) 4 < h.nodes) → SpanReached s k.q x.ctx h.param (256 * h.nodes) →
         exec (.patchWaitEnd x.id) s =
           .next (endPatch (softWrite k.q x.ctx (x.graph + 8) (leBytes 8 (g + 1)) (patchSlots k.q x.ctx h src x.count g h.nodes v)) x false))))

/-- `Claims.GraphsReplay`, `Claims.NodesAreDispatched` and `Claims.PatchesApply` together. -/
def Obligations.GraphsReplayAndPatch : Prop :=
  Claims.GraphsReplay ∧ Claims.NodesAreDispatched ∧ Claims.PatchesApply

/-- R88, R89: PREEMPT stops dispatch for its context; DRAINUS, or the timeout of open transactions, takes effect only in a pre-emption
under way. When every group stands and nothing is left to drain, the save area is written, MAGIC last, and the context is pre-empted
with none of its groups on the device. DESIGN CHOICE (log 20): the conventions of the save area inside `saveArea`; (log 22): when a
timeout runs out. DEDUCED (log 28): a group stands outside its transactions. -/
def Claims.Preemption : Prop :=
  ∀ (s : State),
    (∀ q p c, Starts s 9 q p → Finds s q (p.field 24 8) 8 .qWr c →
      (let k := (s.queue q).ctx
       let x := s.ctx q.owner k
       (x.state = .running → ∃ t r, exec (.preempt q) s = .next t ∧ t.ctx q.owner k = { x with preempt := some r } ∧ r.packet = some s.nextId ∧
         r.mode = p.field 0 1 ∧ (r.stopping = true ↔ p.field 0 1 = 0) ∧ r.saveVa = p.field 8 8 ∧ r.saveLen = p.field 16 8 ∧ r.brk = false ∧
         t.mem = s.mem ∧ (t.queue q).rp = rpAfter (s.queue q) p.h ∧ t.galleys = s.galleys) ∧
       (x.state ≠ .running → ∃ t, exec (.preempt q) s = .next t ∧ (t.queue q).actErr = true ∧ Passed s p (s.writePhys c (leBytes 8 0xD)) t))) ∧
    (∀ t k r, (s.ctx t k).preempt = some r → r.mode = 1 → r.stopping = false →
      exec (.preemptDrainExpiry t k) s = .next (s.setCtx t k { s.ctx t k with preempt := some { r with stopping := true } })) ∧
    (∀ t k r, (s.ctx t k).preempt = some r → r.stopping = true → r.txOver = false → (s.ctx t k).state = .running →
      (∀ l ∈ s.launches, s.launch? l.id = some l) →
      ∃ u, exec (.preemptTxTimeout t k) s = .next u ∧ (u.ctx t k).preempt = some { r with txOver := true } ∧ u.mem = s.mem ∧
        ∀ l ∈ s.launchesOf t k, ∀ j g, l.groups.get? j = some g → g.tx.depth ≠ 0 → g.tx.serial = false →
          (u.group l.id j).tx.aborted = g.tx.aborted ||| g.tx.inTx) ∧
    (∀ t k r x, (s.ctx t k).preempt = some r → r.packet.bind s.packet? = some x → packetHeld s x = false →
      (s.ctx t k).state = .running → r.stopping = true → allStand s t k = true → drained s t k = true →
      (let area := saveArea s t k r.brk
       area.length + 4 ≤ r.saveLen → SpanReached s x.q k r.saveVa (area.length + 4) →
       exec (.preemptSaveDone t k) s = .next (
         finishSave (saveParts (some x) t k (partsOf r.saveVa (zeros 4 ++ area) ++ [(r.saveVa, leBytes 4 0x4B465A01)]) s) t k (some x) r.brk) ∧
       ∃ u, exec (.preemptSaveDone t k) s = .next u ∧ (u.ctx t k).state = .preempted ∧ (u.ctx t k).preempt = none ∧
        u.galleys = s.galleys.filter (fun g => !((s.launchesOf t k).map Launch.id).contains g.launch) ∧
        (∀ y ∈ u.packets, y.id ≠ x.id)))

/-- R90, R91: RESUME of a save area that passes its checks makes the context running again with its saved energy budget, restores its
groups, lets them begin, and completes with code 0 once every captured galley is placed and primed: at once where none was. DESIGN
CHOICE (log 20): which cores the images take (`planImages`, `planRoom`), what the records leave open, and that RESUME waits for cores
whose last launch's work still runs. -/
def Claims.ResumeRestores : Prop :=
  ∀ (s : State) (q : QId) (p : PktIn) (c : PTarget) (ts tb : List (PTarget × Nat)) (h b : List Byte),
    Starts s 10 q p → Finds s q (p.field 16 8) 8 .qWr c →
    List.Forall₂ (fun (x : Nat × Nat) (y : PTarget × Nat) => y.2 = x.2 ∧ Finds s q x.1 x.2 .qRd y.1) (pageParts 2 (p.field 0 8) 128) ts →
    readTargetsOf ts s = (h, s) →
    (let k := (s.queue q).ctx
     (saveHeadOk h q.owner k = false →
       ∃ t, exec (.resume q) s = .next t ∧ (t.queue q).actErr = true ∧ Passed s p (s.writePhys c (leBytes 8 0xD)) t) ∧
     (saveHeadOk h q.owner k = true →
       List.Forall₂ (fun (x : Nat × Nat) (y : PTarget × Nat) => y.2 = x.2 ∧ Finds s q x.1 x.2 .qRd y.1)
         (pageParts (fieldAt h 8 8 / 65536 + 2) (p.field 0 8) (fieldAt h 8 8)) tb →
       readTargetsOf tb s = (b, s) →
       (let sv := Save.parse b
        (sv.launches = [] → sv.images = [] → sv.galleys = [] → sv.graphs = [] →
          planRoom (releaseCores s) (if p.field 8 8 % 2 ^ 40 = 0 then 2 ^ 40 - 1 else p.field 8 8 % 2 ^ 40) sv [] [] = true →
          exec (.resume q) s = .next (
            let (pk, u) := p.begin_ (releaseCores s) (some c)
            resumeGo (placeAll 4096 (u.setCtx q.owner k { u.ctx q.owner k with
              state := .running, enUnlimited := Word.bit sv.budget 63, enBudget := sv.budget % 2 ^ 32 })) { pk with walks := [] })) ∧
        ∀ ls cores gs infos v, sv.launches.any (fun r => !(s.ctx q.owner k).objs.any (fun o => o.objId == fieldAt r.pkt 16 2)) = false →
          prepLaunches q k sv.launches [] s = (.ok ls, s) →
          (let mask := if p.field 8 8 % 2 ^ 40 = 0 then 2 ^ 40 - 1 else p.field 8 8 % 2 ^ 40
           planImages (releaseCores s) mask sv ls ((List.range sv.images.length).zip sv.images) [] = some cores →
           rangesFit (releaseCores s) mask sv ls = true → (∀ x ∈ cores, coreOwes (releaseCores s) x = false) →
           prepGraphs q k sv.graphs (releaseCores s) = (.ok gs, releaseCores s) →
           readInfos q k (sv.blocks ls) (releaseCores s) = (some infos, v) →
           exec (.resume q) s = .next (
             let (pk, u) := p.begin_ v (some c)
             let (ids, u) := restoreAll q k mask sv ls gs cores infos u
             resumeGo u { pk with walks := ids })))))

/-- `Claims.Preemption` and `Claims.ResumeRestores` together. -/
def Obligations.PreemptionAndResumption : Prop :=
  Claims.Preemption ∧ Claims.ResumeRestores

/-- R43, R67, R155: a round gives each runnable queue at most one of 32 lanes and runs the packets of the lanes; ATTEST writes its
report; REPLAY_ALL clears the tenant's fault buffers and lets the parked accesses walk again. DEDUCED (log 27): the first pass of a
round starts one owner later than the last, and what an ATTEST report of the physical function measures. -/
def Obligations.QueueEngineRounds : Prop :=
  ∀ (s : State) (q : QId) (p : PktIn),
    ((assign s).lanes.length ≤ 32 ∧ (assign s).lanes.Nodup ∧ ∀ r ∈ (assign s).lanes, runnable s r = true) ∧
    (let v := beginRound s
     let u := { v with qe := ⟨(v.qe.start + 1) % 17, (assign v).given⟩ }
     ((assign v).lanes = [] → exec .queueEngineRound s = .next v) ∧
     ((assign v).lanes = [q] → Starts u 0 q p → ∃ t, exec .queueEngineRound s = .next t ∧ t.qe = u.qe ∧ Passed u p u t)) ∧
    (∀ ts, Starts s 12 q p → p.h.len = 6 →
      List.Forall₂ (fun (x : Nat × Nat) (y : PTarget × Nat) => y.2 = x.2 ∧ Finds s q x.1 x.2 .qWr y.1) (pageParts 3 (p.field 64 8) 4915) ts →
      ∃ t r, exec (.attest q) s = .next t ∧ Passed s p (writeTargetsOf ts r s) t ∧ t.pkg.attests = s.pkg.attests + 1 ∧
        r.take 80 = leBytes 4 0x4B460A01 ++ leBytes 2 1 ++ leBytes 1 (if q.owner = 16 then 0xFF else q.owner) ++ leBytes 1 0 ++
          leBytes 8 (s.pkg.attests + 1) ++ p.b.take 64) ∧
    (Starts s 11 q p → q.owner < 16 →
      ∃ t, exec (.replayAll q) s = .next t ∧ (t.tenant q.owner).bufs = [] ∧ (t.queue q).rp = rpAfter (s.queue q) p.h ∧
        (∀ f ∈ t.faults, f.tenant ≠ q.owner ∨ f.firstTouch = true) ∧
        (∀ f ∈ s.faults, f.tenant = q.owner → f.firstTouch = false → cancelled s f = false →
          ∃ w ∈ t.walks, w.page = f.page ∧ w.ctx = f.ctx ∧ w.cluster = f.cluster ∧ w.askers = f.askers) ∧
        ((∀ f ∈ s.faults, f.tenant = q.owner → f.firstTouch = true) →
          Passed s p (s.setTenant q.owner { s.tenant q.owner with bufs := [] }) t))

/-! ### Translations, walks, issue and the engines: chapters 6, 7, 11, 12, 17 and 18 -/

/-- R138, R260, R263, R267, R273, R274: the compositor that finishes a key for which no body is found makes one, writes its image to the
die's store, where there is room, and the body to the cluster's cache, counts the composition, and every unit that waited for the
shape gets the body; where the body's spills exceed a waiting unit's share, or its values find no place, the units take XLATE_FAIL with
code 2; words that break a format fault the unit that waited, at the start of its block. A text page whose bytes
have their hash becomes a shadow. DESIGN CHOICE (log 9): the body is the one that `composeBody` makes, one of those that R262 allows. -/
def Obligations.TranslationsServe : Prop :=
  ∀ (s : State) (cl : Nat) (r : XReq),
    (∀ t sh, composeHead s cl = some (r, .ok (t, [(sh, .compose)])) → s.revoked r.tenant r.ctx r.obj = false →
      Word.bit (s.tenant r.tenant).mode 2 = false → keyXlat s r cl = none →
      findBody s cl r.tenant r.ctx r.obj r.block (r.key cl) sh = none → (∀ y ∈ s.xlats, y.id ≠ s.nextId) →
      (let ws := (waiters s cl r).filter (fun w => (shapeOf w.1 w.2.2).norm t.words t.hdr.args.length == sh)
       (∀ b n, composeBody cl r t sh = some (b, n) → n ≤ shareOfAll s ws →
        (let x := { newImage s.nextId cl r (((s.obj? r.tenant r.ctx r.obj).map CodeObj.va).getD 0) t with spill := n, bodies := [b] }
        ((s.xlats.filter (fun y => y.die == some (dieOfCluster cl))).map Xlat.size).sum + x.size ≤ 2 ^ 29 →
        ∃ u, exec (.translationDone cl) s = .next (ws.foldl (fun s w => giveBody s cl r sh w) u) ∧ u.xlats = x :: s.xlats ∧
         b.shape = sh ∧ b.code.isSome = true ∧ x.serves r.tenant r.ctx r.obj r.block (r.key cl) = true ∧
         (u.cluster cl).cache.head? = some (x.id, sh) ∧ (u.cluster cl).queue = (s.cluster cl).queue.filter (fun y => !y.sameKey r) ∧
         (u.cluster cl).counts.getD 3 0 = (if 3 < (s.cluster cl).counts.length then ((s.cluster cl).counts.getD 3 0 + 1) % 2 ^ 64 else 0) ∧
         u.mem = s.mem ∧ u.galleys = s.galleys)) ∧
       ((∀ b n, composeBody cl r t sh = some (b, n) → shareOfAll s ws < n) →
        exec (.translationDone cl) s =
          .next (failWaiters (countXlat (countXlat (dropRequests s cl r) cl 3 1) cl 6 ws.length) ws .xlateFail 2)))) ∧
    (∀ g u th l, composeHead s cl = some (r, .error .format) → waiters s cl r = [(g, u, th)] → s.launch? g.launch = some l →
      exec (.translationDone cl) s = .next (takeFault (dropRequests s cl r) g l { th with instr := 0 } .codeFormat (faultLane u) 0 0)) ∧
    (∀ (t k obj page : Nat) (o : CodeObj) (e : TlbEntry), s.NoExact → pageNeeded s t k obj page ≠ [] → s.revoked t k obj = false →
      (∀ f ∈ s.faults, f.askers.contains (.fetch t k obj page) = false) → (∀ w ∈ s.walks, w.askers.contains (.fetch t k obj page) = false) →
      s.obj? t k obj = some o → walk s t k (o.va + o.pageBase + 65536 * page) = (.ok e, s) →
      entryCheck s e (o.va + o.pageBase + 65536 * page) (o.pageLen page) .rd = none →
      (let bs := (s.memOf e.tgt).readBytes (e.target (o.va + o.pageBase + 65536 * page)).pa (o.pageLen page)
       let full := bs ++ List.replicate (65536 - bs.length) 0
       sha3 full = o.hashes.getD page [] → exec (.textPageFetchDone t k obj page) s = .next (s.addShadow t k obj page full)))

/-- R146 to R152: a walk that ends in a valid leaf fills the TLBs and gives the access its entry; one that fails gives it the code; a
cluster's walker serves 32 walks at a time (R148). DESIGN CHOICE (log 10): which of the upper-level entries that the walker holds a walk
begins at is a free value (`walkVia`). A first touch takes the lowest free page of the pool, swaps it into the leaf and gives the access
its entry. CTX.INVALSTAT clears when nothing that was translated is left to perform. DEDUCED (log 30): first touch happens in one step
with its walk. -/
def Obligations.WalksAndFaultsEnd : Prop :=
  ∀ (s : State),
    (∀ w u j g th, s.walks.find? (fun x => x.id == w.id) = some w → w.askers = [.unit u j] → s.galley? u.galley = some g → g.thread? u = some th →
      s.walkHeld w.tenant w.ctx w.va = false → walkBegun s w = true → (∀ p ∈ s.packets, p.opcode ≠ 11) →
      (let v := { s with walks := s.walks.filter (fun x => x.id != w.id) }
       let found := if w.cluster = 0xFFFF then walk v w.tenant w.ctx w.va else walkVia v w.cluster w.tenant w.ctx w.va
       (∀ e, found.1 = .ok e →
         ∃ t, exec (.pageWalkDone w.id) s = .next t ∧ t.walks = v.walks ∧ t.faults = s.faults ∧
           (w.cluster ≠ 0xFFFF → (t.cluster w.cluster).tlb.head? = some e ∧ ∀ c, g.core = some c → (t.core c).tlb.head? = some e) ∧
           t.galleys = (s.setGalley (g.setThread u { th with walks := if th.walks.contains ⟨w.page, some e, 0⟩ then th.walks else th.walks ++ [⟨w.page, some e, 0⟩] })).galleys) ∧
       (∀ c, found.1 = .fail c →
         ∃ t, exec (.pageWalkDone w.id) s = .next t ∧ t.walks = v.walks ∧ t.cores = found.2.cores ∧
           t.galleys = (s.setGalley (g.setThread u { th with walks := if th.walks.contains ⟨w.page, none, c.num⟩ then th.walks else th.walks ++ [⟨w.page, none, c.num⟩] })).galleys))) ∧
    (∀ f n pte v e, s.NoExact → s.faults.find? (fun x => x.id == f.id && x.firstTouch) = some f → poolMapOk s f.tenant f.ctx = true →
      (let c := s.ctx f.tenant f.ctx
       let pa := c.poolBase + 65536 * n
       let m := poolBit s c.poolMap n false
       let z := { m with mem := m.mem.zero pa 65536 }
       let y := z.writePhys ⟨0, pte⟩ (leBytes 8 (touchedLeaf pa v))
       poolHeld s f = false → poolFind s c.poolMap c.poolPages (poolWords c) 0 = (.ok (some n), s) → (s.tenant f.tenant).spanIn pa 65536 = true → touchHeld s f n = false →
       walk z f.tenant f.ctx (f.page * 65536) = (.pageFault pte v, z) → Word.bit v 9 = true → walk y f.tenant f.ctx (f.page * 65536) = (.ok e, y) →
       ∃ t, exec (.firstTouch f.id) s = .next t ∧ t.mem = y.mem ∧ t.faults = s.faults.filter (fun x => x.id != f.id) ∧
         t.mem.readNat pte 8 = touchedLeaf pa v % 2 ^ 64 ∧ t.walks = s.walks)) ∧
    (∀ t k, (s.ctx t k).invalBusy = true →
      (invalOwed s t k = false → exec (.invalDone t k) s = .next (s.setCtx t k { s.ctx t k with invalBusy := false })) ∧
      (invalOwed s t k = true → exec (.invalDone t k) s = .next s))

/-- R131 to R135: an issue slot takes a ready candidate none of the eligible ones is older than, and companions that stand at the same
place in lane columns of their own; with no ready candidate nothing issues, and a queue issues once in a cycle. DEDUCED (log 28): how an
issue slot is counted. -/
def Obligations.IssueChoosesTheOldest : Prop :=
  ∀ (s : State) (core : Nat) (q : QName), s.cur = [] → s.pkg.runs = true →
    (s.issuedAt core (queueNum q) = true → exec (.issueCycle core q) s = .next s) ∧
    (s.issuedAt core (queueNum q) = false →
     let v := releaseCores (primeCore s core)
     let cs := candidates v core (queueNum q)
     let fresh := cs.filter (fun c => !((v.core core).rounds.getD (queueNum q) []).contains (c.u.galley, c.u.path))
     let elig := if fresh.isEmpty then cs else fresh
     (cs = [] → exec (.issueCycle core q) s = .next (v.setCore core { v.core core with rounds := (v.core core).rounds.set (queueNum q) [] })) ∧
     (cs ≠ [] → (v.galleys.map Galley.id).Nodup →
       ∃ t lead mates, exec (.issueCycle core q) s = .next t ∧ t.cur = (lead :: mates).map Cand.u ∧
         t.slot.map (fun x => (x.core, x.queue)) = some (core, queueNum q) ∧ lead ∈ elig ∧
         (∀ c ∈ elig, lead.age ≤ c.age) ∧ (∀ c ∈ mates, c ∈ cs ∧ c.pack = true ∧ c.place = lead.place) ∧
         ((lead :: mates).map Cand.col).Nodup ∧ t.mem = v.mem))

/-- R162, R178, R366: an engine command that has moved its last byte adds its counter, at which the parked `cntwait`s of the counter
look again (R371), and leaves. `spset` fills its span with its pattern; a copy moves every byte, within the scratchpad where its spans
lie apart, or between it and one page of device memory. DEDUCED (log 29): a command moves its bytes in one step, when it completes. -/
def Claims.EngineCommandsComplete : Prop :=
  ∀ (s : State) (c : Command), s.NoExact → s.command? c.id = some c → c.todo = none → c.ready s = true → s.serial.locks = [] →
    (∀ p inc, c.counter = some (p, inc) → (s.setCommand { c with owns := [], later := [], dsts := [] }).counterFree p = true ∧
      s.lateFail c.tenant p 8 true = none) →
    (let x := s.core c.core
     let done (u t : State) : Prop :=
       t.commands = s.commands.filter (fun y => y.id != c.id) ∧
         (let v := match c.counter with | some (p, inc) => u.addCounter p inc | none => u
          t.galleys = v.galleys ∧ t.mem = v.mem)
     (∀ sp n pat, c.kind = .spset sp n pat → c.ring = none →
       ∃ t, exec (.engineCommandComplete c.id) s = .next t ∧ done s t ∧
         (∀ i, i < n → (t.core c.core).spad.read (sp + i) = BitVec.ofNat 8 (pat / 256 ^ (i % 8))) ∧
         (∀ a, ¬ inSpan a sp n → (t.core c.core).spad.read a = x.spad.read a)) ∧
     (∀ src dst n, c.kind = .cpy true true src dst n → c.ring = none → src + n ≤ dst ∨ dst + n ≤ src →
       ∃ t, exec (.engineCommandComplete c.id) s = .next t ∧ done s t ∧
         (∀ i, i < n → (t.core c.core).spad.read (dst + i) = x.spad.read (src + i)) ∧
         (∀ a, ¬ inSpan a dst n → (t.core c.core).spad.read a = x.spad.read a)) ∧
     (∀ src dst n pa, c.kind = .cpy false true src dst n → c.ring = none → 0 < n → src % 65536 + n ≤ 65536 → dst % 65536 + n ≤ 65536 →
       Answered s c.view c.id .engRd [⟨0, 0, src, n, 1⟩] [⟨0, pa⟩] →
       ∃ t, exec (.engineCommandComplete c.id) s = .next t ∧ done s t ∧
         (∀ i, i < n → (t.core c.core).spad.read (dst + i) = s.mem.read (pa + i)) ∧
         (∀ a, ¬ inSpan a dst n → (t.core c.core).spad.read a = x.spad.read a)) ∧
     (∀ src dst n pa, c.kind = .cpy true false src dst n → c.ring = none → 0 < n → src % 65536 + n ≤ 65536 → dst % 65536 + n ≤ 65536 →
       Answered s c.view c.id .engWr [⟨0, 0, dst, n, 1⟩] [⟨0, pa⟩] →
       ∃ t, exec (.engineCommandComplete c.id) s = .next t ∧
         done { s with mem := s.mem.writeBytes pa (x.spad.readBytes src n) } t ∧ (t.core c.core).spad = x.spad) ∧
     (∀ u left, c.isMatrix = false → c.run s = .go u left → exec (.engineCommandComplete c.id) s = .next (c.moved left u)) ∧
     (∀ u, c.isMatrix = false → c.run s = .wait u → exec (.engineCommandComplete c.id) s = .next u))

/-- R243: a command whose access fails leaves without adding its counter, and its context enters the fatal state with cause GROUP_FAULT,
the code with lane 0xFF in DETAIL, and FADDR the failing address. A copy whose first page fails has moved nothing. DEDUCED (log 29; log
6): what a failing command has written before is a free prefix of sectors; (log 11): DETAIL's lane is 0xFF where no lane's operand failed. -/
def Claims.EngineFaultsAreFatal : Prop :=
  ∀ (s : State) (c : Command) (va : Nat) (code : Code), s.command? c.id = some c → c.ready s = true → c.todo ≠ some [] →
    (∀ m ∈ (s.core c.core).mats, m.id ≠ c.id) →
    (let fatal (u t : State) : Prop := ∃ f, t.commands = u.commands.filter (fun y => y.id != c.id) ∧ t.mem = u.mem ∧
       (t.ctx c.tenant c.ctx).state = .fatal ∧ (t.ctx c.tenant c.ctx).fatal = some f ∧ f.cause = 1 ∧ f.count = 1 ∧ f.faddr = va ∧
       f.detail = code.num + 0xFF * 2 ^ 16
     (∀ u, c.run s = .fail u va code → (u.ctx c.tenant c.ctx).fatal = none → (u.ctx c.tenant c.ctx).state ≠ .disabled →
       ∃ t, exec (.engineAccessFault c.id) s = .next t ∧ fatal u t) ∧
     (∀ dst n, c.todo = none → c.kind = .cpy false true va dst n → 0 < n → va % 65536 + n ≤ 65536 → dst % 65536 + n ≤ 65536 →
       engScan s c.view c.id .engRd [⟨0, 0, va, n, 1⟩] = (⟨[], some (⟨0, 0, va, n, 1⟩, code), false⟩, s) →
       (s.ctx c.tenant c.ctx).fatal = none → (s.ctx c.tenant c.ctx).state ≠ .disabled →
       ∃ t, exec (.engineAccessFault c.id) s = .next t ∧ fatal s t))

/-- R245, R247: a running sequencer slot emits its next copy, with the addresses of its loop indices, while the checker holds fewer than
64 commands and its ring has room; after the last emission the slot runs no more. DEDUCED (log 29): an emission enters the checker in
the step that makes it. -/
def Claims.SequencerEmits : Prop :=
  ∀ (s : State) (core slot : Nat) (d : List Byte) (run : SeqRun) (l : Launch), s.NoExact → slot < (s.core core).seqs.length →
    (s.core core).seqs.getD slot ⟨none, none⟩ = ⟨some d, some run⟩ → s.launch? run.launch = some l → (s.held core).length < 64 →
    seqRoom (s.core core) run = true →
    (let p := seqPlaces (s.core core) run run.next
     ∃ t c, exec (.sequencerEmit core slot) s = .next t ∧ t.commands = s.commands ++ [c] ∧
       c.kind = .cpy (Word.bit (seqFlags run.desc) 0) (Word.bit (seqFlags run.desc) 1) p.1 p.2 (seqLen run.desc) ∧ c.parent = some run.id ∧
       c.launch = run.launch ∧ c.group = run.group ∧ c.core = core ∧ c.counter = some (run.counter, seqIncr run.desc) ∧ t.mem = s.mem ∧
       (t.core core).seqs[slot]? = some ⟨some d, if run.next + 1 = seqTotal run.desc then none else some { run with next := run.next + 1 }⟩)

/-- `Claims.EngineCommandsComplete`, `Claims.EngineFaultsAreFatal` and `Claims.SequencerEmits` together. -/
def Obligations.EnginesProgress : Prop :=
  Claims.EngineCommandsComplete ∧ Claims.EngineFaultsAreFatal ∧ Claims.SequencerEmits

/-- R222 to R224, R376, R381, R382, R384: the oldest matrix operation retires: tile TD receives the sum of products of its slots, every
HEAD of its rings advances by the slots it read, and it leaves; other tile bytes and memory stay. DEDUCED (log 29): the elements that a
sparse group does not name are +0 and give products (in `products`), and a ring that holds both operands advances once. -/
def Obligations.MatrixOperationsRetire : Prop :=
  ∀ (s : State) (core : Nat) (m : MatOp) (ms : List MatOp) (c : Command), (s.core core).mats = m :: ms → (∀ y ∈ ms, y.id ≠ m.id) →
    s.command? m.id = some c → c.ready s = true → m.conv = none →
    (let q : MatIn := ⟨s.core core, m, []⟩
     let b := m.fmt.bytes
     ∃ t, exec (.matrixRetire core) s = .next t ∧ (t.core core).mats = ms ∧ t.commands = s.commands.filter (fun y => y.id != m.id) ∧
       t.mem = s.mem ∧ (t.core core).spad = (s.core core).spad ∧
       (∀ i j, i < 16 → j < matN m.ty → (t.core core).tiles.readNat (4096 * matTD m.lit + 256 * i + b * j) b = q.d i j % 2 ^ (8 * b)) ∧
       (∀ a, ¬ inSpan a (4096 * matTD m.lit) 4096 → (t.core core).tiles.read a = (s.core core).tiles.read a) ∧
       (∀ k g, k ∈ (matRings m.op m.ty m.lit).map Prod.fst → (s.core core).rings[k]? = some g →
         (t.core core).rings[k]? = some { g with head := (g.head + matNS m.lit) % 2 ^ 32 }) ∧
       (∀ k, k < (s.core core).rings.length → k ∉ (matRings m.op m.ty m.lit).map Prod.fst → (t.core core).rings[k]? = (s.core core).rings[k]?) ∧
       (m.ordered = false → ∀ i j, q.d i j = Num.roundTy m.fmt (arMode m.mod)
         (Num.exactSum (arMode m.mod).rm (q.products i j ++ [Num.decodeTy m.fmt (arMode m.mod).ftz (q.c i j)]))))

/-- R237, R238: a relayout's next tile joins the stack of the first line of its new copy; an engine that takes a tile marks it
CONVERTING and owns the lines of both copies; when it is done the tile is NEW, the lines are released, and the last tile of all gives
the record its new tag and base, RLSTATE 0, and adds the counter. DEDUCED (logs 29 and 34): a conversion is not translated again when it
is done, and it reads the scale words of a block-scaled tile to know which bytes of a block count. A read that meets poison fails the
relayout (log 25 says what poison reaches). -/
def Obligations.RelayoutsConvert : Prop :=
  ∀ (s : State) (r : Relayout), s.NoExact → s.serial.locks = [] → s.relayouts = [r] → r.stopped = false →
    (∀ pa, r.queued < r.total →
      (let va := (unitAddr r.record.bytes r.newTag r.newBase (tileOrigin r.record.bytes r.queued)).1
       Answered s r.view 0 .engWr [⟨0, 0, va, 1, 1⟩] [⟨0, pa⟩] →
       exec (.relayoutTileQueue r.id) s =
         .next { s with relayouts := [{ r with queued := r.queued + 1, tiles := r.tiles ++ [(homeStack pa, r.queued)], walks := [] }] })) ∧
    (∀ stack tile mt m w o n, nextTile s stack = some (r, tile) →
      tileScan s r tile = (⟨⟨mt :: m, none, false⟩, ⟨w, none, false⟩, ⟨o, none, false⟩, ⟨n, none, false⟩⟩, s) → mt.tgt = 0 →
      (let b := r.record.bytes
       let lines := (partLines (tileParts b (recTag b) (recBase b) tile) o ++ partLines (tileParts b r.newTag r.newBase tile) n).dedup
       tileHeld s lines mt w n = false → tilePoison s r tile o (readHalves w s).1 = none →
       ∃ t, exec (.tileConversionStart stack) s = .next t ∧ t.mem.readNat mt.pa 8 / 2 ^ (mapPlace r.map tile).2 % 4 = 1 ∧
         (∀ a, ¬ inSpan a mt.pa 8 → t.mem.read a = s.mem.read a) ∧
         t.relayouts = [{ r with tiles := r.tiles.filter (fun x => x != (stack, tile)), walks := [],
                                 active := r.active ++ [⟨stack, tile, lines, mt, o, n, (readHalves w s).1⟩] }])) ∧
    (∀ stack a, r.active.find? (fun a => a.stack == stack) = some a → (s.setRelayout (r.without a)).counterFree a.entry = true → tileLate s r a = none →
      (let u := abortTile (setEntry (copyTile s r a) a.entry (mapPlace r.map a.tile).2 2) r a.tile
       let r' : Relayout := { r.without a with done := r.done + 1 }
       ∃ t, exec (.tileConversionDone stack) s = .next t ∧
         (r.done + 1 ≠ r.total → t.mem = u.mem ∧ t.relayouts = [r']) ∧
         (r.done + 1 = r.total → (u.setRelayout r').counterFree r.recPa = true → (u.setRelayout r').counterFree r.counter.1 = true →
           s.lateFail r.tenant r.recPa 16 false = none → s.lateFail r.tenant r.counter.1 8 true = none →
           t.relayouts = [] ∧
           (r.recPa.tgt = 0 → r.recPa.pa + 16 ≤ r.counter.1.pa ∨ r.counter.1.pa + 8 ≤ r.recPa.pa ∨ r.counter.1.tgt ≠ 0 →
             t.mem.readNat (r.recPa.pa + 8) 8 = r.newBase % 2 ^ 64 ∧ t.mem.readNat r.recPa.pa 1 = r.newTag % 256 ∧
             t.mem.readNat (r.recPa.pa + 6) 1 = 0))))

/-- R48, R70, R92: when every group of a fatal context has stopped, the dump is made or left to the host, and FATALVEC is
raised. DESIGN CHOICE (log 21): the dies of level 4 are held in reset once every dump is taken (`holdDies`), which changes no memory. A unit of a fatal context that still runs after 100 µs stops where it is. -/
def Claims.FatalContextsAreDumped : Prop :=
  ∀ (s : State) (t k : Nat),
    (∀ f, (s.ctx t k).fatal = some f → (s.ctx t k).state = .fatal → f.dumping = true → allStand s t k = true →
      f.assisted = true ∨ dumpBytes (s.ctx t k) < 512 ∨ (s.commands = [] ∧ s.relayouts = [] ∧ s.serial.locks = []) →
      ∃ u, exec (.dumpDone t k) s = .next u ∧ (u.ctx t k).fatal = some { f with dumping := false } ∧
        (f.assisted = true → u.msix = s.msix ++ [(t + 1, Word.field (s.tenant t).mode 13 8)] ++ message (t + 1) (s.ctx t k).fatalVec ∧
          (u.tenant t).assist = (s.tenant t).assist ||| 32) ∧
        (f.assisted = false → u.msix = s.msix ++ message (t + 1) (s.ctx t k).fatalVec) ∧
        ((∀ l ∈ s.launchesOf t k, ∀ x ∈ l.groups, x.2.tx.depth = 0) → f.assisted = true ∨ dumpBytes (s.ctx t k) < 512 → u.mem = s.mem)) ∧
    ((s.ctx t k).state = .fatal → (s.galleys.map Galley.id).Nodup → (s.launches.map Launch.id).Nodup →
      ∃ u, exec (.revocationTimeout t k) s = .next u ∧ u.mem = s.mem ∧ u.launches = s.launches ∧
        ∀ l ∈ s.launchesOf t k, ∀ g ∈ s.galleys, g.launch = l.id → g.core.isSome = true →
          ∀ x ∈ g.units, x.1.item = none → atSafepoint s l x.2 = false →
            ∃ h, u.galley? g.id = some h ∧ (h.thread? x.1).map Thread.wait = some .stopped)

/-- `Claims.FaultsEnterTheFatalState` and `Claims.FatalContextsAreDumped` together. -/
def Obligations.FatalContextsAndDumps : Prop :=
  Claims.FaultsEnterTheFatalState ∧ Claims.FatalContextsAreDumped

/-! ### Native words: chapter 12 -/

/-- R251 to R255, R258, Table 12.4: the native-only words. `spill` and `fill` move registers to and from the slot's share of the
scratchpad, `mat` materialises base and step, `ldk` reads the constant pool through the L1 (R156), `hmov` takes the head of a load
queue, `tnop` only moves tokens. The other registers and every other byte stay. DEDUCED (log 9): a register that nothing has written
since the entry holds a free value. -/
def Claims.NativeWordsRun : Prop :=
  ∀ (s : State) (e : Exe) (n : NativeRun) (w : NatWord), exe? s = some e → e.th.native = some n → w.queue < 3 →
    (∀ v ∈ n.tokens, v < 255) →
    (let spad := (s.core e.core).spad
     let off := 4 * spillOff w
     let k := if w.ty = 0 then 4 else 8
     let pooled : State := match e.xlat? s with | some x => l1Pool s e.core x (spillOff w) 1 | none => s
     let withSpad (m : Memory) : State := s.setCore e.core { s.core e.core with spad := m }
     -- the word leaves the unit with `m`, whose heads it has popped; D alone has changed
     let only (m : NativeRun) : Prop := m.loads = (n.popHeads n.reads).loads ∧ m.tokens = n.tokens ∧ m.stores = n.stores ∧ m.data = n.data ∧
       ∀ q l, q < 320 → l < 64 → (q ≠ w.d ∧ (k = 8 → q ≠ w.d + 1)) ∨ (q < 256 ∧ laneIn e.th.mask l = false) → m.reg q l = n.reg q l
     (w.ty < 2 → off + k * e.l.g ≤ n.shareLen →
       (∃ m, NativePasses s e (.spill w) (withSpad m) (n.popHeads n.reads) w ∧
         (∀ l, laneIn e.act l = true → m.readNat (n.spillAt w l) k = n.value w.b l (8 * k) % 2 ^ (8 * k)) ∧
         ∀ a, (∀ l, laneIn e.act l = true → ¬ inSpan a (n.spillAt w l) k) → m.read a = spad.read a) ∧
       (w.d + 1 < 256 → ∃ m, NativePasses s e (.fill w) s m w ∧ only m ∧
         ∀ l, laneIn e.act l = true → m.value w.d l (8 * k) = spad.readNat (n.spillAt w l) k)) ∧
     (w.ty = 2 → off + 8 ≤ n.shareLen →
       NativePasses s e (.spill w) (withSpad (spad.writeNat (n.share + off) 8 (n.value w.b 0 64))) (n.popHeads n.reads) w ∧
       (256 ≤ w.d → w.d + 1 < 320 → e.th.mask ≠ 0 → ∃ m, NativePasses s e (.fill w) s m w ∧ only m ∧ m.value w.d 0 64 = spad.readNat (n.share + off) 8)) ∧
     (n.shareLen < off + spillLen w e.l.g →
       exec (.spill w) s = .next (e.faultAll s .nativeFormat) ∧ exec (.fill w) s = .next (e.faultAll s .nativeFormat)) ∧
     NativePasses s e (.tnop w) s (n.popHeads n.reads) w ∧
     (w.ty < 2 → w.d + 1 < 256 →
       (∃ m, NativePasses s e (.mat w) s m w ∧ only m ∧ ∀ l, laneIn e.act l = true →
         m.value w.d l (8 * k) = affineAt (BitVec.ofNat 64 (n.value w.a 0 64)) (BitVec.ofNat 64 (n.value w.b 0 64)) (e.g.first * e.l.g + l) % 2 ^ (8 * k)) ∧
       (∃ m, NativePasses s e (.ldk w) pooled m w ∧ only m ∧ ∀ l, laneIn e.act l = true →
         m.value w.d l (8 * k) = (e.pool s).getD (spillOff w) 0 % 2 ^ (8 * k)) ∧
       (480 ≤ w.a → w.a ≤ 495 → n.headReady (w.a - 480) = true → (w.ty = 1 → n.headReady (w.a - 479) = true) →
         ∃ m, NativePasses s e (.hmov w) s m w ∧ only m ∧
           (∀ l, laneIn e.act l = true → m.value w.d l (8 * k) = n.value w.a l (8 * k) % 2 ^ (8 * k)) ∧
           (w.a ∈ n.reads → m.loads.getD (w.a - 480) [] = (n.loads.getD (w.a - 480) []).drop 1))) ∧
     (w.ty < 2 → 256 ≤ w.d → w.d + 1 < 320 → e.th.mask ≠ 0 →
       ∃ m, NativePasses s e (.ldk w) pooled m w ∧ only m ∧ m.value w.d 0 (8 * k) = (e.pool s).getD (spillOff w) 0 % 2 ^ (8 * k)) ∧
     (480 ≤ w.a → n.headReady (w.a - 480) = false ∨ (w.ty ≠ 0 ∧ n.headReady (w.a - 479) = false) → exec (.hmov w) s = .next s))

/-- R102, R270 to R272: `unf` captures the galley's values at its concordance entry once its groups owe no store and no atomic, and each
group goes on as a leaf at instruction OFF of the block; memory keeps every byte. DEDUCED (log 9): which values a concordance entry
gives. -/
def Claims.UnfoldsFromNative : Prop :=
  ∀ (s : State) (e : Exe) (n : NativeRun) (w : NatWord), exe? s = some e → e.th.native = some n →
    (e.owes s = true → exec (.unf w) s = .next (e.park s .drain)) ∧
    (e.owes s = false → e.uid = ⟨e.g.id, 0, none⟩ → e.g.paths = [e.path] → e.path.th = e.th →
      ∃ t h, exec (.unf w) s = .next t ∧ t.galley? e.g.id = some h ∧ h.count = 1 ∧ h.first = e.g.first ∧
        h.paths = [{ e.path with th := { e.th.captured s e.core e.l.g e.g.first NativeRun.entryHere with
          instr := spillOff w, mask := e.l.liveLanes e.g.first, wait := .none, walks := [], body := none, native := none } }] ∧
        (t.galleys.drop s.galleys.length).map Galley.first = (List.range (e.g.count - 1)).map (fun i => e.g.first + 1 + i) ∧
        t.mem = s.mem ∧ t.launches = s.launches)

/-- R252, R256: a reply completes one outstanding entry of the galley's load queues, and its load's push bits take effect; a native
store is performed once its address and data words have both issued, each lane of each group at its own address (R98), and then its push
bits take effect. DESIGN CHOICE (log 31): which galley's outstanding reply arrives first is a free value, and so is the order of the units'
stores. -/
def Claims.RepliesAndStores : Prop :=
  ∀ (s : State) (g : Galley) (l : Launch), s.galley? g.id = some g → s.launch? g.launch = some l →
    (∀ th ∈ g.threads, ∀ n, th.native = some n → ∀ v ∈ n.tokens, v < 255) → (∀ p ∈ g.paths, (p.items.map Item.lane).Nodup) →
    (g.outstanding = [] → exec (.memoryReply g.id) s = .next s) ∧
    (g.outstanding ≠ [] → ∃ u k j th n m, (u, k, j) ∈ g.outstanding ∧ g.thread? u = some th ∧ th.native = some n ∧
      exec (.memoryReply g.id) s = .next ({ s with choices := s.choices + 1 }.setGalley (g.setThread u { th with native := some m })) ∧
      m = { n with
        loads := n.loads.set k ((n.loads.getD k []).mapIdx (fun i x => if i = j then { x with arrived := true } else x))
        tokens := pushTokens 0 ((((n.loads.getD k [])[j]?).map LoadEntry.push).getD 0) n.tokens }) ∧
    (g.storeUnits = [] → exec (.storePerformed g.id) s = .next s) ∧
    (∀ u e n a as d ds, s.NoExact → g.storeUnits = [u] → exeAt s u = some e → e.uid.item = none → e.tx? = none → e.th.native = some n →
      n.stores = a :: as → n.data = d :: ds → a.narrow = [] → (a.targets.map Prod.fst).Nodup →
      (∀ y ∈ a.targets, (e.multi = true ∨ laneIn e.act y.1 = true) ∧ (a.spad = true ∨
        (s.blockedSpan e.me true ⟨y.2.1, y.2.2⟩ a.bytes = false ∧ s.lateFail e.l.tenant ⟨y.2.1, y.2.2⟩ a.bytes false = none))) →
      (let m := { n with stores := as, data := ds, tokens := pushTokens 2 d.push (pushTokens 0 a.push n.tokens) }
       let put (x : Memory) (y : Nat × Nat × Nat) : Memory := x.writeBytes y.2.2 (leBytes a.bytes (d.lanes.getD y.1 0))
       ∃ t, exec (.storePerformed g.id) s = .next t ∧ t.galley? g.id = some (g.setThread u { e.th with native := some m }) ∧
         (a.spad = true → t.mem = s.mem ∧ (t.core e.core).spad = a.targets.foldl put (s.core e.core).spad) ∧
         (a.spad = false → (∀ y ∈ a.targets, y.2.1 = 0) → (t.core e.core).spad = (s.core e.core).spad ∧
           t.mem = a.targets.foldl put s.mem)))

/-- `Claims.NativeWordsRun`, `Claims.UnfoldsFromNative` and `Claims.RepliesAndStores` together. -/
def Obligations.NativeWords : Prop :=
  Claims.NativeWordsRun ∧ Claims.UnfoldsFromNative ∧ Claims.RepliesAndStores

/-! ### Bring-up, sensors and registers: chapters 1 to 4, 7, 9, 11 and 19 -/

/-- R23, R27, R28, Table 1.8: each step of bring-up ends as its table row says, or stops with its failure code; the resets begin at step
1 or 2, and a tenant reset leaves its contexts and queues disabled, its windows zero and its keys registered. DESIGN CHOICE (log 2):
registers that the manual gives no reset value; DEDUCED (log 30): what a warm reset and a tenant reset keep. -/
def Claims.BringUpSteps : Prop :=
  ∀ (s : State),
    (∃ t, exec .powerGood s = .next t ∧ t.pkg.step = 1 ∧ t.pkg.ready = false ∧ t.mem = [] ∧ t.tenants = [] ∧ t.ctxs = [] ∧ t.queues = [] ∧
      t.launches = [] ∧ t.galleys = [] ∧ t.pkg.flash = s.pkg.flash ∧ t.hostMem = s.hostMem ∧ t.pkg.attests = 0) ∧
    (∀ i ∈ [Instr.perst, Instr.pfFlr], ∃ t, exec i s = .next t ∧ t.pkg.step = 2 ∧ t.pkg.ready = false ∧ t.mem = s.mem ∧ t.tenants = [] ∧
      t.ctxs = [] ∧ t.queues = [] ∧ t.launches = [] ∧ t.galleys = [] ∧ t.pkg.attests = s.pkg.attests) ∧
    (∀ n, ∃ t, exec (.vfFlr n) s = .next t ∧ (∀ k, k < 16 → (t.ctx n k).state = .disabled ∧ (t.ctx n k).enable = false ∧ (t.ctx n k).objs = []) ∧
      (∀ q, q < 64 → (t.queue ⟨n, q⟩).enable = false ∧ (t.queue ⟨n, q⟩).state = .idle) ∧ (t.tenant n).keys = (s.tenant n).keys ∧
      (∀ a, (s.tenant n).inWindow a = true → t.mem.read a = 0) ∧ (∀ p ∈ t.packets, p.q.owner ≠ n)) ∧
    (s.pkg.failed = false →
      (s.pkg.step = 1 → exec .pcieLinkUp s = .next (s.setPkg { s.pkg with linkUp := true })) ∧
      (s.pkg.step = 2 → exec .pcieLinkUp s = .next (s.setPkg { s.pkg with linkUp := true, step := 3 })) ∧
      (s.pkg.step = 3 →
        (firmwareCode s.pkg.image = none → ∃ t, exec .firmwareCheckDone s = .next t ∧ t.pkg.step = 4 ∧ t.pkg.fwHash = sha3 s.pkg.image) ∧
        (∀ c, firmwareCode s.pkg.image = some c → ∃ t, exec .firmwareCheckDone s = .next t ∧ t.pkg.step = 3 ∧ t.pkg.failed = true ∧
          t.pkg.failCode = c ∧ t.pkg.unit = 0xFF)) ∧
      (s.pkg.step = 4 →
        (∃ t, exec (.stacksReady none) s = .next t ∧ t.pkg.step = 5 ∧ t.mem = []) ∧
        (∀ f, ∃ t, exec (.stacksReady (some f)) s = .next t ∧ t.pkg.step = 4 ∧ t.pkg.failed = true ∧
          t.pkg.failCode = (if f.train then 4 else 3) ∧ t.pkg.unit = f.stack)) ∧
      (s.pkg.step = 5 → ∀ ports,
        (∃ t, exec (.linksTrained none ports) s = .next t ∧ t.pkg.step = 6 ∧ t.pkg.slots = [] ∧
          ∀ p, p < 8 → t.pkg.ports.getD p .error = if Word.bit ports p then .up else .down) ∧
        (∀ l, ∃ t, exec (.linksTrained (some l) ports) s = .next t ∧ t.pkg.step = 5 ∧ t.pkg.failed = true ∧ t.pkg.failCode = 5 ∧ t.pkg.unit = l)) ∧
      (s.pkg.step = 6 → s.pkg.level4 = false →
        (∃ t, exec (.diesLeaveReset none) s = .next t ∧ t.pkg.step = 7 ∧ t.cores = [] ∧ t.clusters = [] ∧ t.slices = [] ∧ t.xlats = [] ∧ t.mem = s.mem) ∧
        (∀ d, ∃ t, exec (.diesLeaveReset (some d)) s = .next t ∧ t.pkg.step = 6 ∧ t.pkg.failed = true ∧ t.pkg.failCode = 6 ∧ t.pkg.unit = d)) ∧
      (s.pkg.step = 7 → s.pkg.ready = false →
        (∃ t, exec (.identityReady true) s = .next t ∧ t.pkg = { s.pkg with ready := true, identity := true }) ∧
        (∃ t, exec (.identityReady false) s = .next t ∧ t.pkg.ready = false ∧ t.pkg.failed = true ∧ t.pkg.failCode = 7 ∧ t.pkg.unit = 0xFF)))

/-- R31, Table 1.12: GO starts a check of the recovery buffer only while bring-up has failed and LENPAGES is 1 to 4,096; a buffer
that passes becomes the image, and bring-up goes on at step 4. DESIGN CHOICE (log 22): the check takes LENGTH and the buffer as they stand
when it completes. -/
def Claims.RecoveryChecksTheBuffer : Prop :=
  ∀ (s : State) (v : Word),
    (s.pkg.window = true → Word.field v.toNat 29 13 = 0 → Word.bit v.toNat 31 = true →
      (let len := v.toNat % 2 ^ 13
       (s.pkg.recBusy = false → s.pkg.failed = true → 1 ≤ len → len ≤ 4096 →
         exec (.recoveryGo v) s = .next (s.setPkg { s.pkg with recBusy := true, recLen := len })) ∧
       ((s.pkg.recBusy = true ∨ s.pkg.failed = false ∨ len = 0 ∨ 4096 < len) → exec (.recoveryGo v) s = .next (refusePf s 0x20010)))) ∧
    (s.pkg.recBusy = true →
      (let img := s.pkg.recBuf.readBytes 0 (4096 * s.pkg.recLen)
       (firmwareCode img = none → ∃ t, exec .recoveryCheckDone s = .next t ∧ t.pkg.recBusy = false ∧ t.pkg.failed = false ∧
         t.pkg.failCode = 0 ∧ t.pkg.step = 4 ∧ t.pkg.flash = some img ∧ t.pkg.fwHash = sha3 img) ∧
       (∀ c, firmwareCode img = some c → ∃ t, exec .recoveryCheckDone s = .next t ∧ t.pkg.recBusy = false ∧ t.pkg.failed = true ∧
         t.pkg.failCode = c ∧ t.pkg.step = 3)))

/-- `Claims.BringUpSteps` and `Claims.RecoveryChecksTheBuffer` together. -/
def Obligations.BringUpAndRecovery : Prop :=
  Claims.BringUpSteps ∧ Claims.RecoveryChecksTheBuffer

/-- R17, R24 to R26, R30, Table 1.7: sensors, throttling, cooling, scrub errors and ports. At level 4 COOLWARN is set again too while the
coolant is out of its rating, and the dies are held in reset once no context is being dumped: nothing of them acts any more. DESIGN CHOICE
(log 21): that point of time, and what the reset drops; (log 31): when the events come. -/
def Claims.SensorsAct : Prop :=
  ∀ (s : State),
    (∀ inlet flow, ∃ t, exec (.coolantOutOfRating inlet flow) s = .next t ∧ t.pkg.coolBad = coolOff inlet flow ∧
      t.pkg.coolwarn = (s.pkg.coolwarn || coolOut inlet flow) ∧
      t.msix = s.msix ++ (if coolOut inlet flow = true ∧ s.pkg.coolwarn = false then [(0, 0)] else [])) ∧
    (∀ v : Word, s.pkg.window = true → Word.bit v.toNat 25 = true → ∃ t, exec (.coolwarnClear v) s = .next t ∧ t.pkg.coolwarn = s.pkg.coolBad ∧ t.mem = s.mem) ∧
    (∀ pair flux, ∃ t, exec (.fluxEstimateUpdate pair flux) s = .next t ∧
      (let d := dieOf (2 * pair)
       let f := (s.die d).flux.getD pair ⟨0, 0, false, false⟩
       let g := (t.die d).flux.getD pair ⟨0, 0, false, false⟩
       (g.high = true ↔ 750 < flux) ∧ g.above = (if 700 < flux then min 10 (f.above + 1) else 0) ∧ g.below = (if flux < 650 then min 10 (f.below + 1) else 0) ∧
       (g.above = 10 → g.acts = true) ∧ (g.above ≠ 10 → g.below = 10 → g.acts = false) ∧ (g.above ≠ 10 → g.below ≠ 10 → g.acts = f.acts))) ∧
    (∀ d, ∃ t, exec (.clockStep d) s = .next t ∧
      (let x := s.die d
       (((x.level2 = true ∧ x.cooling2 = false) ∨ (s.pkg.level3 = true ∧ s.pkg.cooling3 = false)) → (t.die d).clkStep = min 7 (x.clkStep + 1)) ∧
       (x.level2 = true → x.cooling2 = true → (s.pkg.level3 = false ∨ s.pkg.cooling3 = true) → (t.die d).clkStep = x.clkStep - 1 ∧
         ((t.die d).level2 = true ↔ 2 ≤ x.clkStep)) ∧
       (x.level2 = false → s.pkg.level3 = false → t = s))) ∧
    (∀ r : Readings, ∃ t, exec (.thermalTrigger r) s = .next t ∧
      (level4Of r = none → (∀ d, d < 4 → 95 ≤ r.junction.getD d 0 → (t.die d).level2 = true ∧ (t.die d).cooling2 = false)) ∧
      (r.moduleOver = true → t.pkg.level3 = true ∧ t.pkg.cooling3 = false) ∧
      (∀ n, level4Of r = some n → s.pkg.level4 = false → t.pkg.level4 = true ∧ t.pkg.runs = false ∧
        t.pkg.coolBad = coolOff r.inlet r.flow ∧
        (t.ctxs.all (fun c => !(c.2.fatal.map FatalRec.dumping).getD false) = true →
          t.galleys = [] ∧ t.commands = [] ∧ t.relayouts = [] ∧ t.walks = [] ∧ t.cores = []) ∧
        ∀ i k, i < 16 → k < 16 → (s.ctx i k).fatal = none → (s.ctx i k).state ≠ .disabled →
          ∃ f, (t.ctx i k).state = .fatal ∧ (t.ctx i k).fatal = some f ∧ f.cause = 4 ∧ f.detail = n)) ∧
    (∀ pa, (∃ t, exec (.scrubError pa true) s = .next t ∧ t.pkg.softErrors = s.pkg.softErrors + 1 ∧ t.mem = s.mem ∧ t.pkg.poison = s.pkg.poison) ∧
      (reservedGiB pa = false → ∃ t, exec (.scrubError pa false) s = .next t ∧ t.mem = s.mem ∧ ∀ p, p ∈ t.pkg.poison ↔ p ∈ s.pkg.poison ∨ p = pa / 16 * 16) ∧
      (reservedGiB pa = true → 2 ^ 29 ≤ pa % 2 ^ 30 → exec (.scrubError pa false) s = .next (allFatal s 5 pa)) ∧
      (reservedGiB pa = true → pa % 2 ^ 30 < 2 ^ 29 → ∃ t, exec (.scrubError pa false) s = .next t ∧ t.mem = s.mem ∧
        t.xlats.map Xlat.id = s.xlats.map Xlat.id ∧ ∀ x ∈ t.xlats, x ∈ s.xlats ∨ (x.live = false ∧ x.die = some (pa / 2 ^ 30 / 96)))) ∧
    (∀ p st, p < 8 → ∃ t, exec (.fabricPortStateChange p st) s = .next t ∧ t.pkg.ports.getD p .down = st ∧
      ∀ r, r ≠ p → t.pkg.ports.get? r = s.pkg.ports.get? r)

/-- R39 to R41: a slot's owner with a request ready keeps the record of service; else the next tenant in rotation with one is
served. A change of slots takes effect with the next even GEN, and the images follow. DESIGN CHOICE (log 31): where no tenant has been
served the rotation starts after tenant 15. -/
def Claims.SlotTables : Prop :=
  ∀ (s : State),
    (∀ res cycle ready, res < 150 →
      (ready.contains (slotOwner s res (cycle % 64)) = true → exec (.slotGrant res cycle ready) s = .next s) ∧
      (∀ t, ready.contains (slotOwner s res (cycle % 64)) = false → nextTenant ready (s.pkg.served.getD res 15) = some t →
        t ∈ ready ∧ t < 16 ∧ ∃ u, exec (.slotGrant res cycle ready) s = .next u ∧ u.pkg.served.getD res 15 = t ∧ u.mem = s.mem ∧ u.pkg.slots = s.pkg.slots)) ∧
    (∀ res slot owner, res < 150 → slot < 64 → (owner < 16 ∨ owner = 31) →
      ∃ u, exec (.slotTableUpdate [⟨res, slot, owner⟩]) s = .next u ∧ slotOwner u res slot = owner ∧ u.pkg.slotGen = s.pkg.slotGen + 2 ∧
        (∀ r i, i < 64 → (r, i) ≠ (res, slot) → slotOwner u r i = slotOwner s r i) ∧ u.tenants = s.tenants)

/-- `Claims.SensorsAct` and `Claims.SlotTables` together. -/
def Obligations.SensorsAndSlotTables : Prop :=
  Claims.SensorsAct ∧ Claims.SlotTables

/-- R32 to R38, R70, R71, R153, Tables 2.8 and 2.9: writes of a tenant's registers once the full map is decoded: the value written,
or REFUSED with the register's offset. DESIGN CHOICE (log 28): a cluster is in use while a core of it holds a launch or still has work of
retired groups (`clusterBusy`); (log 30): what a register write of another size does is not stated here. -/
def Claims.TenantRegisters : Prop :=
  ∀ (s : State) (t : Nat) (v : Word), s.pkg.open_ = true → t < 16 →
    (let x := s.tenant t
     let n := v.toNat
     (n < 2 ^ 32 → (∀ i ∈ others t, (s.tenant i).cemask &&& n = 0) → (∀ e ∈ x.engines, Word.bit n e = false → ∀ c ∈ s.commands, c.engine ≠ some e) →
       exec (.tenConfigWrite t .cemask v) s = .next (s.setTenant t { x with cemask := n })) ∧
     (2 ^ 32 ≤ n → exec (.tenConfigWrite t .cemask v) s = .next (refuseTen s t (tenOff t 0x18))) ∧
     (n < 2 ^ 40 → (∀ i ∈ others t, (s.tenant i).clmask &&& n = 0) → (∀ c ∈ x.clusters, Word.bit n c = false → clusterBusy s c = false) →
       ∃ u, exec (.tenConfigWrite t .clmask v) s = .next u ∧ (u.tenant t).clmask = n ∧ u.mem = s.mem) ∧
     (∀ m, m < 16 → n % 2 ^ 32 / 2 ^ 31 = 0 → Word.field (n % 2 ^ 32) 30 9 = 0 →
       exec (.tenConfigWrite t (.win m) v) s = .next (s.setTenant t { x with wins := x.wins.set m (n % 2 ^ 32) })) ∧
     (n % 2 ^ 31 = 0 → Word.bit n 31 = true → x.enable = true → exec (.tenEnable t v) s = .next (s.setTenant t { x with enable := true })) ∧
     (n % 2 ^ 31 = 0 → Word.bit n 31 = true → x.enable = false → exec (.tenEnable t v) s = .next (writeImage (s.setTenant t { x with enable := true }) t)) ∧
     (n % 2 ^ 31 = 0 → Word.bit n 31 = false → (∀ k, k < 16 → (s.ctx t k).enable = false) →
       exec (.tenEnable t v) s = .next (s.setTenant t { x with enable := false })) ∧
     (Word.bit n 0 = true → exec (.refusedClear (some t) v) s = .next (s.setTenant t { x with refused := false })) ∧
     (Word.bit n 0 = true → exec (.refusedClear none v) s = .next (s.setPkg { s.pkg with refused := false })) ∧
     (Word.field n 31 14 = 0 → n < 2 ^ 32 → Word.field n 7 6 = 0 → (∀ k, k < 16 → (s.ctx t k).objs = []) →
       ∃ u, exec (.tenModeWrite t v) s = .next u ∧ u.tenant t = { x with mode := n } ∧
         (Word.bit n 0 = Word.bit x.mode 0 → u.queues = s.queues) ∧
         (Word.bit n 0 = true → Word.bit x.mode 0 = false → ∀ q, q < 64 → (u.queue ⟨t, q⟩).gateSet = true)) ∧
     exec (.assistpendClear t v) s = .next (s.setTenant t { x with assist := x.assist - (x.assist &&& n % 64) }) ∧
     (3 ≤ n → n ≤ 8 → (∀ b ∈ x.bufs, b.2.entries = []) → exec (.fbcfgWrite t v) s = .next (s.setTenant t { x with fbLog := n })) ∧
     ((n < 3 ∨ 8 < n) → exec (.fbcfgWrite t v) s = .next (refuseTen s t (tenOff t 0x30))) ∧
     (∀ d k, d < 4 → k < (x.bufs.getD d .reset).entries.length →
       ∃ u, exec (.faultCancelWrite t d k v) s = .next u ∧ u.mem = s.mem ∧
         (((u.tenant t).bufs.getD d .reset).entries[k]?).map FbEntry.cancel = some (Word.bit n 0) ∧
         ∀ j, j ≠ k → ((u.tenant t).bufs.getD d .reset).entries[j]? = (x.bufs.getD d .reset).entries[j]?))

/-- R38: SIGNCTL.GO with REMOVE 0 copies the 2,592-byte key at SIGNADDR, and BUSY falls when it is registered; with REMOVE 1 it
removes the key of its index. Either is refused while the tenant is enabled. DESIGN CHOICE (log 30): the copy takes the key from where
SIGNADDR points when it is made. -/
def Claims.SignerKeys : Prop :=
  ∀ (s : State) (t : Nat) (v : Word), s.pkg.open_ = true → t < 16 →
    (let x := s.tenant t
     let n := v.toNat
     Word.field n 29 24 = 0 → Word.field n 15 9 = 0 → Word.field n 7 3 = 0 → Word.bit n 31 = true →
     (x.enable = false → x.signBusy = none →
       (Word.bit n 8 = false → x.spanIn x.signAddr 2592 = true →
         exec (.signerKeyRegister t v) s = .next (s.setTenant t { x with signRemove := n % 512, signBusy := some (n % 8) })) ∧
       (Word.bit n 8 = true →
         exec (.signerKeyRemove t v) s = .next (s.setTenant t { x with signRemove := n % 512, keys := x.keys.erase (n % 8) }))) ∧
     (x.enable = true → exec (.signerKeyRegister t v) s = .next (refuseTen s t (tenOff t 0x100))) ∧
     (∀ i, s.NoExact → s.serial.locks = [] → s.blockedSpan none false ⟨0, x.signAddr⟩ 2592 = false → x.signBusy = some i →
       ∃ u, exec (.signerKeyCopyDone t) s = .next u ∧ (u.tenant t).signBusy = none ∧
         (u.tenant t).keys.get? i = some (s.mem.readBytes x.signAddr 2592) ∧ u.mem = s.mem))

/-- `Claims.TenantRegisters` and `Claims.SignerKeys` together. -/
def Obligations.TenantRegistersAndKeys : Prop :=
  Claims.TenantRegisters ∧ Claims.SignerKeys

/-- R51, R52, R55, R57, R69: a queue is enabled with its pointers 0 and active, restarted from its stop, or disabled; under
host-assisted parsing GATE takes values that are aligned and inside the ring, and any other stops the queue. The headers parsed for a
context stay until the queue takes another one (R94). DESIGN CHOICE (log 27): ENABLE clears STOPCAUSE and SUBCODE, as RESTART does, and the
opcode that a stop shows where no header lies at RP. -/
def Claims.QueueRegisters : Prop :=
  ∀ (s : State) (q : QId) (v : Word), queueMapped s q = true →
    (let x := s.queue q
     let n := v.toNat % 2 ^ 32
     let log := n % 32
     let k := Word.field n 23 20
     let y := { x with errVec := Word.field n 29 24, ctx := k, logSize := log, heads := if k = x.ctx then x.heads else [], walks := [],
                       parsed := false, checked := false }
     let u := dropAsks s q
     (Word.field n 19 5 = 0 → 12 ≤ log → log ≤ 24 → (q.owner = 16 → k = 0) →
       (Word.bit n 31 = true → x.enable = false → x.base % 2 ^ log = 0 → ringPlaced s q x.base (2 ^ log) = true →
         (q.owner ≠ 16 → (s.tenant q.owner).enable = true ∧ (s.ctx q.owner k).enable = true) →
         exec (.queueEnable q v) s = .next (u.setQueue q { y with
           enable := true, rp := 0, wp := 0, gate := 0, state := .active, cause := 0, subcode := 0, gateSet := false })) ∧
       (Word.bit n 31 = false → (x.enable = true → k = x.ctx ∧ log = x.logSize) →
         exec (.queueDisable q v) s = .next (u.setQueue q { y with enable := false, state := .idle })) ∧
       (Word.bit n 31 = true → Word.bit n 30 = true → x.enable = true → k = x.ctx → log = x.logSize → x.state = .stopped →
         exec (.queueRestart q v) s =
           .next (u.setQueue q { y with state := if x.blocker.isSome then .blocked else .active, cause := 0, subcode := 0 })) ∧
       (x.enable = true → (k ≠ x.ctx ∨ log ≠ x.logSize) → exec (.queueEnable q v) s = .next (refuseQueue s q 8))) ∧
     (let p := v.toNat % 2 ^ 24
      let assisted : Prop := q.owner < 16 ∧ Word.bit (s.tenant q.owner).mode 0 = true
      (¬ assisted → exec (.queueGateWrite q v) s = .next (s.setQueue q { x with gate := p })) ∧
      (assisted → p % 16 = 0 → p < 2 ^ x.logSize → exec (.queueGateWrite q v) s = .next (s.setQueue q { x with gate := p })) ∧
      (assisted → (p % 16 ≠ 0 ∨ 2 ^ x.logSize ≤ p) → x.enable = true →
        ∃ t, exec (.queueGateWrite q v) s = .next t ∧ (t.queue q).state = .stopped ∧ (t.queue q).cause = 1 ∧
          (t.queue q).subcode = 8 ∧ (t.queue q).opcode = (shownOpcode s q).1 ∧ t.msix = s.msix ++ message (ownerFn q) x.errVec ∧
          (s.NoExact → t.mem = s.mem))))

/-- R55: a WP that is not a multiple of 16, or not less than the ring size, is ignored and stops the queue with QUEUE_FORMAT (1) and
subcode BAD_POINTER (8); any other is taken, wherever RP stands, and nothing else of the queue changes. Under host assistance (R69) the
tenant's notice is raised beside it. The opcode that the stop shows is read at RP, and the read finalises an exact line there. DEDUCED
(log 27): an invalid value on a queue that has stopped stops it again. -/
def Obligations.WritePointerRule : Prop :=
  ∀ (s : State) (q : QId) (v : Word), queueMapped s q = true → (s.queue q).enable = true →
    (let x := s.queue q
     let p := v.toNat % 2 ^ 24
     (p % 16 = 0 → p < 2 ^ x.logSize →
       ((q.owner = 16 ∨ Word.bit (s.tenant q.owner).mode 0 = false) → exec (.queueWpWrite q v) s = .next (s.setQueue q { x with wp := p })) ∧
       (q.owner < 16 → Word.bit (s.tenant q.owner).mode 0 = true →
         exec (.queueWpWrite q v) s = .next (askAssist (s.setQueue q { x with wp := p }) q.owner 0))) ∧
     ((p % 16 ≠ 0 ∨ 2 ^ x.logSize ≤ p) →
       ∃ t, exec (.queueWpWrite q v) s = .next t ∧ (t.queue q).wp = x.wp ∧ (t.queue q).state = .stopped ∧ (t.queue q).cause = 1 ∧
         (t.queue q).subcode = 8 ∧ t.msix = s.msix ++ message (ownerFn q) x.errVec ∧ (s.NoExact → t.mem = s.mem)))

/-- R92, R150, R250, R414, R431: a context is enabled and disabled; RESET leaves the fatal or pre-empted state with nothing of the
context left, the packets started in it among them, whichever context their queue has now; CTX.INVAL empties the TLBs and the walkers of
the matching pages; the energy registers keep their bounds. DEDUCED (log 30): a RESET write ignores its ENABLE bit, and CTX.INVAL
discards held results of walks. -/
def Obligations.ContextRegisters : Prop :=
  ∀ (s : State) (t k : Nat) (v : Word), s.pkg.open_ = true → t < 16 → k < 16 →
    (let x := s.ctx t k
     let n := v.toNat
     (n % 2 ^ 24 = 0 → Word.bit n 30 = false → Word.bit n 31 = true → x.enable = false → (s.tenant t).enable = true →
       exec (.ctxEnable t k v) s = .next (s.setCtx t k { x with enable := true, fatalVec := Word.field n 29 24, state := .running })) ∧
     (n % 2 ^ 24 = 0 → Word.bit n 30 = false → Word.bit n 31 = false → x.enable = true → x.state = .running → ctxInUse s t k = false →
       exec (.ctxEnable t k v) s = .next (s.setCtx t k { x with enable := false, fatalVec := Word.field n 29 24, state := .disabled })) ∧
     (n % 2 ^ 24 ≠ 0 → exec (.ctxEnable t k v) s = .next (refuseTen s t (ctxOff k 0))) ∧
     (n % 2 ^ 24 = 0 → Word.bit n 30 = true → (x.state = .fatal ∨ x.state = .preempted) →
       ∃ u, exec (.ctxReset t k v) s = .next u ∧ (u.ctx t k).state = .disabled ∧ (u.ctx t k).enable = false ∧ (u.ctx t k).objs = [] ∧
         (u.ctx t k).fatal = none ∧ (u.ctx t k).preempt = none ∧ (u.ctx t k).fatalVec = Word.field n 29 24 ∧
         (∀ l ∈ u.launches, ¬ (l.tenant = t ∧ l.ctx = k)) ∧ (∀ c ∈ u.commands, ¬ (c.tenant = t ∧ c.ctx = k)) ∧
         (∀ r ∈ u.replays, ¬ (r.tenant = t ∧ r.ctx = k)) ∧ (∀ p ∈ u.packets, ¬ (p.q.owner = t ∧ p.ctx = k)) ∧
         (∀ p ∈ s.packets, ¬ (p.q.owner = t ∧ p.ctx = k) → p ∈ u.packets) ∧ (∀ y ∈ u.xlats, ¬ (y.tenant = t ∧ y.ctx = k)) ∧
         (∀ q, q < 64 → (s.queue ⟨t, q⟩).enable = true → (s.queue ⟨t, q⟩).ctx = k → (u.queue ⟨t, q⟩).enable = false)) ∧
     (x.invalBusy = false → Word.field n 63 57 = 0 → Word.field n 15 3 = 0 → (Word.field n 2 1 ≠ 3 ∨ Word.bit n 0 = true) →
       ∃ u, exec (.ctxInval t k v) s = .next u ∧ u.ctx t k = { x with inval := n, invalBusy := true, invalFrom := s.nextId } ∧ u.mem = s.mem ∧
         (∀ c, (u.core c).tlb = (s.core c).tlb.filter (fun e => !invalHits n t k e)) ∧
         (∀ c, (u.cluster c).tlb = (s.cluster c).tlb.filter (fun e => !invalHits n t k e)) ∧
         (∀ c, (u.cluster c).upper = (s.cluster c).upper.filter (fun e => !invalUpper n t k e))) ∧
     (x.invalBusy = true → exec (.ctxInval t k v) s = .next (refuseTen s t (ctxOff k 0x48))) ∧
     ((x.state ≠ .running ∨ n % 2 ^ 32 = x.enBudget) →
       exec (.enbudgetWrite t k v) s = .next (s.setCtx t k { x with enUnlimited := Word.bit n 63, enBudget := n % 2 ^ 32 })) ∧
     (let sum := ((List.range 16).map (fun i => if i = k then n % 2 ^ 32 else (s.ctx t i).enRate % 2 ^ 32)).sum
      (sum ≤ (s.tenant t).enAllow → exec (.enrateWrite t k v) s = .next (s.setCtx t k { x with enRate := n })) ∧
      ((s.tenant t).enAllow < sum → exec (.enrateWrite t k v) s = .next (refuseTen s t (ctxOff k 0x78)))) ∧
     (∃ u, exec .energyReplenish s = .next u ∧ u.mem = s.mem ∧
       ∀ y, s.ctxs.get? (16 * t + k) = some y → (u.ctx t k).enBudget = min (y.enBudget + y.enRate % 2 ^ 32) (y.enRate / 2 ^ 32)) ∧
     (Word.bit n 0 = true → exec (.dbgHitClear t k v) s = .next (s.setCtx t k { x with dbgHit := false })))

/-- R29, R36, R430: an 8-byte write decodes to the register at its offset; an offset that no table lists, or that is not 8-byte
aligned, changes nothing, and before step 6 is complete no register of a tenant is decoded. DESIGN CHOICE (log 30): a write is of 8 bytes at
a multiple of 8, and any other is ignored. -/
def Claims.RegisterWritesDecode : Prop :=
  ∀ (s : State) (v : Word),
    (∀ fn off, off % 8 ≠ 0 → exec (.registerWrite fn off v) s = .next s) ∧
    (∀ t off, t < 16 → s.pkg.open_ = false → exec (.registerWrite t off v) s = .next s) ∧
    (∀ off, (0x200 ≤ off ∧ off < 0x10000) ∨ (0x14000 ≤ off ∧ off < 0x20000) ∨ (0x20018 ≤ off ∧ off < 0x1000000) ∨ 0x2000000 ≤ off ∨
        (off < 0x200 ∧ 0x30 ≤ off % 0x40) ∨
        (0x10000 ≤ off ∧ off < 0x14000 ∧ ((0x40 ≤ off % 0x400 ∧ off % 0x400 < 0x80) ∨ 0x110 ≤ off % 0x400)) →
      exec (.registerWrite 16 off v) s = .next s) ∧
    (∀ t off, t < 16 → (0x1000 ≤ off ∧ off < 0x4000) ∨ (0x4800 ≤ off ∧ off < 0x5000) ∨
        (0x5000 ≤ off ∧ off < 0x6000 ∧ off ≠ 0x5008 ∧ off ≠ 0x5028) ∨ (0x6200 ≤ off ∧ off < 0x8000) ∨ 0x10000 ≤ off ∨
        (off < 0x1000 ∧ 0x30 ≤ off % 0x40) ∨ (0x4000 ≤ off ∧ off < 0x4800 ∧ (off % 0x80 = 0x08 ∨ off % 0x80 = 0x50)) →
      exec (.registerWrite t off v) s = .next s) ∧
    (∀ fn off, 16 < fn → exec (.registerWrite fn off v) s = .next s) ∧
    (s.pkg.open_ = true →
      (∀ t q, t < 16 → q < 64 → exec (.registerWrite t (0x40 * q + 0x10) v) s = .next (wpWrite s ⟨t, q⟩ v.toNat)) ∧
      (∀ q, q < 8 → exec (.registerWrite 16 (0x40 * q + 0x08) v) s = .next (queueCtlWrite s ⟨16, q⟩ v.toNat)) ∧
      (∀ t k, t < 16 → k < 16 → v.toNat % 2 ^ 12 = 0 → v.toNat < 2 ^ 52 →
        exec (.registerWrite t (0x4000 + 0x80 * k + 0x10) v) s = .next (s.setCtx t k { s.ctx t k with ptRoot := v.toNat })) ∧
      (∀ t k, t < 16 → k < 16 → v.toNat < 2 ^ 16 →
        exec (.registerWrite t (0x6000 + 0x20 * k) v) s = .next (s.setCtx t k { s.ctx t k with dbgCtl := v.toNat })) ∧
      (∀ t, t < 16 → v.toNat < 2 ^ 32 →
        exec (.registerWrite 16 (0x10000 + 0x400 * t + 0x38) v) s = .next (s.setTenant t { s.tenant t with enAllow := v.toNat })) ∧
      (∀ t, t < 16 → v.toNat < 2 ^ 52 → v.toNat % 8 = 0 →
        exec (.registerWrite 16 (0x10000 + 0x400 * t + 0x108) v) s = .next (s.setTenant t { s.tenant t with signAddr := v.toNat })))

/-- `Claims.QueueRegisters` and `Claims.RegisterWritesDecode` together. -/
def Obligations.QueueAndMailboxRegisters : Prop :=
  Claims.QueueRegisters ∧ Claims.RegisterWritesDecode

/-! ### Accesses from the host and from peers: chapters 1, 7 and 8 -/

/-- R22, R140, R181, R182: an access from outside reads or writes device memory at its home; nothing else changes, but for the parked
`cntwait`s, which see an add that lands on their counter (R371). An address outside device memory does not exist. An offset within the size
of the resizable aperture reaches the device memory of that number, and one past it nothing; the size takes 1 to 512 GiB; a configuration
read gets Request Retry Status while bring-up has not passed or failed step 3. DESIGN CHOICE (log 22): that an offset names the address of
its number, and the bytes of the configuration space, which are free; (log 17): the context of a peer's exact adds; (log 31): which
accesses come when. -/
def Obligations.OutsideAccesses : Prop :=
  (∀ (s : State) (pa : Nat), s.NoExact → s.pkg.open_ = true → s.serial.locks = [] → s.commands = [] → s.relayouts = [] →
    (∀ data, pa + data.length ≤ deviceBytes → ∀ i ∈ [Instr.hostWrite (.mem pa) data, Instr.peerAccess (.write pa data)],
      ∃ t, exec i s = .next t ∧ t = { s with mem := t.mem } ∧ (∀ j, j < data.length → t.mem.read (pa + j) = data.getD j 0) ∧
        ∀ a, ¬ inSpan a pa data.length → t.mem.read a = s.mem.read a) ∧
    (∀ n, pa + n ≤ deviceBytes → s.poisoned ⟨0, pa⟩ n = false → ∀ i ∈ [Instr.hostRead (.mem pa) n, Instr.peerAccess (.read pa n)],
      exec i s = .next { s with hostRet := s.mem.readBytes pa n }) ∧
    (∀ op size v c, (size = 4 ∨ size = 8) → pa % size = 0 → pa + size ≤ deviceBytes → s.poisoned ⟨0, pa⟩ size = false →
      (let old := s.mem.readNat pa size
       let m := 2 ^ (8 * size)
       let new := match op with
         | .fetchAdd => (old + v.toNat) % m
         | .swap => v.toNat % m
         | .cas => if old = c.toNat % m then v.toNat % m else old
       let u := { s with mem := s.mem.writeNat pa size new }
       exec (.hostAtomic op (.mem pa) size v c) s = .next { (if op = .fetchAdd then u.landed ⟨0, pa⟩ else u) with hostRet := leBytes size old })) ∧
    (∀ aop signed ftz rm v c, aopListed aop = true → aopExact aop = false → pa % aopBytes (aop / 8 % 8) = 0 →
      pa + aopBytes (aop / 8 % 8) ≤ deviceBytes → s.poisoned ⟨0, pa⟩ (aopBytes (aop / 8 % 8)) = false →
      (let n := aopBytes (aop / 8 % 8)
       let u := { s with mem := s.mem.writeNat pa n (aopNew aop rm signed ftz (s.mem.readNat pa n) v.toNat c.toNat) }
       exec (.peerAccess (.atomic aop pa signed ftz rm v c)) s =
         .next { (if aopAdds aop then u.landed ⟨0, pa⟩ else u) with hostRet := leBytes n (s.mem.readNat pa n) })) ∧
    (∀ aop signed ftz rm v c, aopListed aop = true → aopExact aop = true → pa % aopBytes (aop / 8 % 8) = 0 →
      pa + aopBytes (aop / 8 % 8) ≤ deviceBytes → s.poisoned ⟨0, pa⟩ (aopBytes (aop / 8 % 8)) = false →
      ∃ t, exec (.peerAccess (.atomic aop pa signed ftz rm v c)) s = .next t ∧ t.hostRet = [] ∧
        ∀ x, exactAdd { s with hostRet := [] } 0xFF 0 (aop / 8 % 8) pa v.toNat = .done x → t = x) ∧
    (∀ n data op size v c, deviceBytes < pa + n → deviceBytes < pa + data.length → deviceBytes < pa + size →
      exec (.hostRead (.mem pa) n) s = .fault (.noSuchAddress pa) ∧ exec (.hostWrite (.mem pa) data) s = .fault (.noSuchAddress pa) ∧
      exec (.hostAtomic op (.mem pa) size v c) s = .fault (.noSuchAddress pa)) ∧
    (∀ n data op size v c,
      (pa + n ≤ s.pkg.aperture * 2 ^ 30 → pa + n ≤ deviceBytes → exec (.hostRead (.bar4 pa) n) s = exec (.hostRead (.mem pa) n) s) ∧
      (pa + data.length ≤ s.pkg.aperture * 2 ^ 30 → pa + data.length ≤ deviceBytes →
        exec (.hostWrite (.bar4 pa) data) s = exec (.hostWrite (.mem pa) data) s) ∧
      (pa + size ≤ s.pkg.aperture * 2 ^ 30 → pa + size ≤ deviceBytes →
        exec (.hostAtomic op (.bar4 pa) size v c) s = exec (.hostAtomic op (.mem pa) size v c) s) ∧
      (s.pkg.aperture * 2 ^ 30 < pa + n → exec (.hostRead (.bar4 pa) n) s = .next s))) ∧
    (∀ (s : State) (k n reg : Nat), s.pkg.linkUp = true →
      (s.pkg.retriesConfig = false → k < 10 →
        exec (.hostWrite .barSize (leBytes 2 (2 ^ k))) s = .next (s.setPkg { s.pkg with aperture := 2 ^ k }) ∧
        exec (.hostRead .barSize n) s = .next { s with hostRet := leBytes n s.pkg.aperture, hostRetry := false }) ∧
      (s.pkg.retriesConfig = true → exec (.hostRead .barSize n) s = .next { s with hostRet := [], hostRetry := true } ∧
        ∃ t, exec (.hostRead (.config reg) n) s = .next t ∧ t.hostRet = [] ∧ t.hostRetry = true ∧ t.mem = s.mem) ∧
      (s.pkg.retriesConfig = false →
        ∃ t, exec (.hostRead (.config reg) n) s = .next t ∧ t.hostRet.length = n ∧ t.hostRetry = false ∧ t.mem = s.mem))

/-! ### The machine: reset, steps, encodings -/

/-- R27, R51, R73: right after a cold reset bring-up stands in step 1, no tenant, context or queue is enabled, nothing is loaded,
and every memory is in its canonical form. The model's choices for registers without a reset value are not stated here (logs 2 and 3). -/
def Obligations.ResetState : Prop :=
  State.reset.Canonical ∧ State.reset.pkg.step = 1 ∧ State.reset.pkg.ready = false ∧ State.reset.pkg.failed = false ∧
    State.reset.launches = [] ∧ State.reset.packets = [] ∧ State.reset.cur = [] ∧
    (∀ t k, (State.reset.ctx t k).state = .disabled ∧ (State.reset.ctx t k).enable = false ∧ (State.reset.ctx t k).objs = []) ∧
    State.reset.xlats = [] ∧ State.reset.galleys = [] ∧ State.reset.commands = [] ∧
    (∀ q, (State.reset.queue q).enable = false ∧ (State.reset.queue q).state = .idle) ∧ (∀ t, (State.reset.tenant t).enable = false)

/-- A step runs the decoded instruction: when the first unit of the issue slot, still ready, stands at words that decode to `i`, the
step is `exec i`, after which the unit has left the slot, the pool operands that it reads have gone through the L1 (R156), and cores that
have been left are released (R124). Laold words are those of its block from its instruction index on. A native
word is the one at the head of the queue in turn: it is `i` itself, or stands for `i` with what its concordance entry and its exit
records bind. Words at the start of a block that are no instruction raise CODE_FORMAT; at a later index a body's words always parse, since
a block that does not parse gets no body (R287). DESIGN CHOICE (log 9): what a native word binds of its concordance entry. -/
def Obligations.StepRunsTheInstruction : Prop :=
  ∀ (s : State) (u : UnitId) (us : List UnitId) (g : Galley) (l : Launch) (core : Nat) (th : Thread), s.cur = u :: us →
    s.galley? u.galley = some g → s.launch? g.launch = some l → g.core = some core → g.thread? u = some th →
    stillReady s l g core u th = true →
    (let runs (i : Instr) (x : Thread) : Prop :=
       let v := if x = th then s else putThread s u x
       let two := decide (1 < (g.paths.filter Path.live).length)
       (∀ t, exec i v = .next t → step s = .next (releaseCores (afterUnit u two (issueCycles v u i) (notIssued i g x t u)
         (if notIssued i g x t u then t else readPools core (th.body.bind v.xlat?) i t)))) ∧
       (∀ f, exec i v = .fault f → step s = .fault f) ∧ (∀ r, exec i v = .refused r → step s = .refused r)
     (∀ x h ws rest, th.native = none → th.body.bind s.xlat? = some x → parseHdr x.words = some (h, ws) → skipInstrs th.instr ws = some rest →
       (∀ i, (decode rest).map Prod.fst = some i → runs i th) ∧
       (decode rest = none → th.instr = 0 → step s = .next (popUnit (takeFault s g l th .codeFormat (faultLane u) 0 0)))) ∧
     (∀ n v, th.native = some n → n.headAt n.turn = some v → nativeWordOk (revOf (dieOf core)) (budgetRegs (l.budgetOn core)) v = true →
       (∀ i, chifinOnly v = some i → decodeChifin v = some i ∧
         runs i (match n.code.conc.find? (fun c => c.noff == n.offset n.turn) with | some c => { th with instr := c.instr } | none => th)) ∧
       (∀ r i x, chifinOnly v = none → chifinRaw v = some r → boundRegs (budgetRegs (l.budgetOn core)) (srcTy s th n (n.offset n.turn) v) v = true →
         (leavesBlock r.op && n.pairOwed) = false →
         bindWord s l g core th n r v = some (i, x) → runs i x)))

/-- The worked words of chapters 12 to 19, field by field as the manual gives them, decode to their instructions. -/
def Obligations.WordsDecode : Prop :=
  decode [0x311A050004006002] = some (.fma ⟨.f32, 1, .arg 0, .arg 1, .imm 2, none⟩, []) ∧
  decode [0x311A000010007000] = some (.fma ⟨.f32, 0, .dist 1, .dist 1, .pool 0, none⟩, []) ∧
  decode [0x1008210004004000] = some (.add ⟨.i32, 8, .arg 0, .arg 1, .none, none⟩, []) ∧
  decode [0x1A08800018000000] = some (.cmp ⟨.i32, 0x20, .dist 1, .imm 0, .none, none⟩, []) ∧
  decode [0x0080000010000000, 3, 0x0000000100000001, 0x0000080000000000, 0x0000000100000002, 0x0000080000000000] =
    some (.brc ⟨.none, 0, .dist 1, .none, .none, none⟩ 3 ⟨1, [.dist 2]⟩ ⟨2, [.dist 2]⟩, []) ∧
  decode [0x5012300020000000] = some (.ldG ⟨.n32, 12, .dist 2, .none, .none, none⟩, []) ∧
  decode [0x505A4D0000004000] = some (.stG ⟨.f32, 0x13, .arg 0, .dist 1, .none, none⟩, []) ∧
  decode [0x3858010000000000] = some (.cvtef ⟨.bf16, 0, .arg 0, .none, .none, none⟩, []) ∧
  decode [0x401A080020000000] = some (.redadd ⟨.f32, 2, .dist 2, .none, .none, none⟩, []) ∧
  decode [0x7241400000000000, 0x0000000000800400] = some (.mmab ⟨.none, 0x50, .none, .none, .none, none⟩ 0x800400, []) ∧
  decode [0x779A0202B0004000] = some (.tlgetr ⟨.f32, 0, .imm 43, .dist 1, .none, none⟩, []) ∧
  decode [0x931A810000004000] = some (.amoFaddX ⟨.f32, 0x20, .arg 0, .dist 1, .none, none⟩, []) ∧
  decode [0x9C00100000000000] = some (.fence ⟨.none, 4, .none, .none, .none, none⟩, []) ∧
  decode [0xA838020400004000] = some (.rdctl ⟨.b64, 0, .imm 0x40, .dist 1, .none, none⟩, []) ∧
  decodeChifin 0x014090CF0013FFFF = some (.ldG ⟨.n32, 12, .reg 4, .none, .reg 511, some ⟨0, 0, 480⟩⟩) ∧
  decodeChifin 0x27F21000640205FF = some (.mat ⟨2, 1, 1, 12, 256, 258, 511⟩)

/-- R278 to R285, Tables 13.1 to 13.4: every well-formed Laold instruction is read back from its words, whatever follows them. -/
def Obligations.LaoldRoundTrip : Prop :=
  ∀ (i : Instr) (r : Raw) (rest : List Nat), i.toRaw = some r → r.w.nat = none → i.wf = true → decode (encode i ++ rest) = some (i, rest)

/-- R257, R258, Tables 12.3 and 12.4: every well-formed native instruction is read back from its word. -/
def Obligations.NativeRoundTrip : Prop :=
  ∀ (i : Instr) (w : Nat), i.wf = true → encode i = [w] → (∀ r, i.toRaw = some r → r.w.nat.isSome = true) → decodeChifin w = some i

/-- Every step keeps the memories in their canonical form, in every state: device, host and peer memory, every core's scratchpad and tiles,
and the recovery buffer. The canonical form is the model's own (log 2). -/
def Obligations.StepsKeepMemoryCanonical : Prop :=
  ∀ (s t : State), s.Canonical → step s = .next t → t.Canonical

end
end

