-- ==== Sys2Proof/Laws/Memory.lean ====
section
/-! SUPPORT. Byte memory: every operation keeps the canonical form, a read finds the last byte written, memories in the
canonical form are equal when their reads are, and the sparse tables read what was set. -/

namespace Sys2Proof.Machine

/-! ### The canonical form -/

theorem Memory.wfFrom_mono {m : Memory} {lo lo' : Nat} (h : Memory.wfFrom lo m = true) (hle : lo' ≤ lo) :
    Memory.wfFrom lo' m = true := by
  cases m with
  | nil => rfl
  | cons c r =>
    obtain ⟨k, b⟩ := c
    simp only [Memory.wfFrom, Bool.and_eq_true, decide_eq_true_eq] at h ⊢
    exact ⟨⟨by omega, h.1.2⟩, h.2⟩

theorem Memory.wfFrom_write {m : Memory} {lo a : Nat} (v : Byte) (h : Memory.wfFrom lo m = true) (hla : lo ≤ a) :
    Memory.wfFrom lo (m.write a v) = true := by
  induction m generalizing lo with
  | nil =>
    unfold Memory.write
    split
    · rfl
    · simp_all [Memory.wfFrom]
  | cons c r ih =>
    obtain ⟨k, b⟩ := c
    simp only [Memory.wfFrom, Bool.and_eq_true, decide_eq_true_eq] at h
    unfold Memory.write
    split
    · subst k
      split
      · exact Memory.wfFrom_mono h.2 (by omega)
      · simp_all [Memory.wfFrom]
    · split
      · split
        · simp_all [Memory.wfFrom]
        · simp_all [Memory.wfFrom]
      · simp only [Memory.wfFrom, Bool.and_eq_true, decide_eq_true_eq]
        exact ⟨⟨h.1.1, h.1.2⟩, ih h.2 (by omega)⟩

/-- Storing a byte keeps the canonical form. -/
theorem Memory.wf_write {m : Memory} (h : m.wf = true) (a : Nat) (v : Byte) : (m.write a v).wf = true :=
  Memory.wfFrom_write v h (Nat.zero_le a)

/-- Storing a run of bytes keeps the canonical form. -/
theorem Memory.wf_writeBytes {m : Memory} (h : m.wf = true) (a : Nat) (bs : List Byte) : (m.writeBytes a bs).wf = true := by
  induction bs generalizing m a with
  | nil => exact h
  | cons b bs ih => exact ih (Memory.wf_write h a b) (a + 1)

/-- Storing a number keeps the canonical form. -/
theorem Memory.wf_writeNat {m : Memory} (h : m.wf = true) (a n v : Nat) : (m.writeNat a n v).wf = true :=
  Memory.wf_writeBytes h a _

theorem Memory.wfFrom_filter {m : Memory} {lo : Nat} (p : Host.Cell → Bool) (h : Memory.wfFrom lo m = true) :
    Memory.wfFrom lo (m.filter p) = true := by
  induction m generalizing lo with
  | nil => rfl
  | cons c r ih =>
    obtain ⟨k, b⟩ := c
    simp only [Memory.wfFrom, Bool.and_eq_true, decide_eq_true_eq] at h
    rw [List.filter_cons]
    split
    · simp only [Memory.wfFrom, Bool.and_eq_true, decide_eq_true_eq]
      exact ⟨h.1, ih h.2⟩
    · exact Memory.wfFrom_mono (ih h.2) (by omega)

/-- Zeroing a span keeps the canonical form. -/
theorem Memory.wf_zero {m : Memory} (h : m.wf = true) (a n : Nat) : (m.zero a n).wf = true := Memory.wfFrom_filter _ h

/-! ### Reads -/

theorem Memory.read_below {m : Memory} {lo a : Nat} (h : Memory.wfFrom lo m = true) (ha : a < lo) : m.read a = Memory.unlisted := by
  cases m with
  | nil => rfl
  | cons c r =>
    obtain ⟨k, b⟩ := c
    simp only [Memory.wfFrom, Bool.and_eq_true, decide_eq_true_eq] at h
    simp only [Memory.read]
    rw [if_neg (by omega), if_pos (by omega)]

theorem Memory.readFrom_write {m : Memory} {lo : Nat} (h : Memory.wfFrom lo m = true) (a : Nat) (v : Byte) (x : Nat) :
    (m.write a v).read x = if x = a then v else m.read x := by
  induction m generalizing lo with
  | nil =>
    unfold Memory.write
    by_cases hx : x = a
    · subst hx
      split
      · simp_all [Memory.read]
      · simp [Memory.read]
    · split
      · simp [Memory.read]
      · simp only [Memory.read, if_neg (Ne.symm hx)]
        split <;> rfl
  | cons c r ih =>
    obtain ⟨k, b⟩ := c
    simp only [Memory.wfFrom, Bool.and_eq_true, decide_eq_true_eq] at h
    have hk := ih h.2
    unfold Memory.write
    by_cases h1 : k = a
    · subst h1
      rw [if_pos rfl]
      by_cases hx : x = k
      · subst hx
        rw [if_pos rfl]
        split
        · rename_i hv; rw [hv]; exact Memory.read_below h.2 (Nat.lt_succ_self x)
        · simp [Memory.read]
      · rw [if_neg hx]
        split
        · simp only [Memory.read]
          rw [if_neg (Ne.symm hx)]
          split
          · exact Memory.read_below h.2 (by omega)
          · rfl
        · simp only [Memory.read, if_neg (Ne.symm hx)]
    · rw [if_neg h1]
      by_cases h2 : a < k
      · rw [if_pos h2]
        by_cases hx : x = a
        · subst hx
          rw [if_pos rfl]
          split
          · rename_i hv
            rw [hv]
            simp only [Memory.read]
            rw [if_neg h1, if_pos h2]
          · simp [Memory.read]
        · rw [if_neg hx]
          split
          · rfl
          · simp only [Memory.read]
            rw [if_neg (Ne.symm hx)]
            by_cases hl : x < a
            · rw [if_pos hl, if_neg (by omega), if_pos (by omega)]
            · rw [if_neg hl]
      · rw [if_neg h2]
        simp only [Memory.read]
        rw [hk]
        by_cases hx : x = a
        · subst hx
          simp only [if_pos]
          rw [if_neg h1, if_neg h2]
        · simp only [if_neg hx]

/-- A read after a store of one byte: that byte at its address, what was there before elsewhere. -/
theorem Memory.read_write {m : Memory} (h : m.wf = true) (a : Nat) (v : Byte) (x : Nat) :
    (m.write a v).read x = if x = a then v else m.read x := Memory.readFrom_write h a v x

/-- A read after a store of a run of bytes. -/
theorem Memory.read_writeBytes {m : Memory} (h : m.wf = true) (a : Nat) (bs : List Byte) (x : Nat) :
    (m.writeBytes a bs).read x = if a ≤ x ∧ x < a + bs.length then bs.getD (x - a) 0 else m.read x := by
  induction bs generalizing m a with
  | nil =>
    have : ¬ (a ≤ x ∧ x < a + ([] : List Byte).length) := by simp
    rw [if_neg this]
    rfl
  | cons b bs ih =>
    simp only [Memory.writeBytes]
    rw [ih (Memory.wf_write h a b), Memory.read_write h]
    simp only [List.length_cons]
    by_cases h1 : x = a
    · subst h1
      rw [if_neg (by omega), if_pos rfl, if_pos (by omega)]
      simp
    · rw [if_neg h1]
      by_cases h2 : a + 1 ≤ x ∧ x < a + 1 + bs.length
      · rw [if_pos h2, if_pos (by omega)]
        obtain ⟨d, rfl⟩ : ∃ d, x = a + 1 + d := ⟨x - (a + 1), by omega⟩
        have e1 : a + 1 + d - (a + 1) = d := by omega
        have e2 : a + 1 + d - a = d + 1 := by omega
        rw [e1, e2]
        simp
      · rw [if_neg h2, if_neg (by omega)]

/-- Bytes outside a stored run read as before. -/
theorem Memory.read_writeBytes_outside {m : Memory} (h : m.wf = true) (a : Nat) (bs : List Byte) (x : Nat)
    (hx : x < a ∨ a + bs.length ≤ x) : (m.writeBytes a bs).read x = m.read x := by
  rw [Memory.read_writeBytes h, if_neg (by omega)]

theorem Memory.readFrom_zero {m : Memory} {lo : Nat} (h : Memory.wfFrom lo m = true) (a n x : Nat) :
    (m.zero a n).read x = if a ≤ x ∧ x < a + n then Memory.unlisted else m.read x := by
  induction m generalizing lo with
  | nil => simp [Memory.zero, Memory.read]
  | cons c r ih =>
    obtain ⟨k, b⟩ := c
    simp only [Memory.wfFrom, Bool.and_eq_true, decide_eq_true_eq] at h
    have hi := ih h.2
    simp only [Memory.zero, List.filter_cons] at hi ⊢
    by_cases hk : a ≤ k ∧ k < a + n
    · rw [if_neg (by simp [hk.1, hk.2]), hi]
      simp only [Memory.read]
      by_cases hx : a ≤ x ∧ x < a + n
      · rw [if_pos hx, if_pos hx]
      · rw [if_neg hx, if_neg hx]
        rw [if_neg (by omega)]
        split
        · exact Memory.read_below h.2 (by omega)
        · rfl
    · rw [if_pos (by simp only [Bool.not_eq_true', Bool.and_eq_false_iff, decide_eq_false_iff_not]; omega)]
      simp only [Memory.read]
      by_cases hx : x = k
      · subst hx
        rw [if_pos rfl, if_pos rfl, if_neg hk]
      · rw [if_neg (Ne.symm hx), if_neg (Ne.symm hx)]
        by_cases hl : x < k
        · rw [if_pos hl, if_pos hl]; split <;> rfl
        · rw [if_neg hl, if_neg hl, hi]

/-- A read after zeroing a span. -/
theorem Memory.read_zero {m : Memory} (h : m.wf = true) (a n x : Nat) :
    (m.zero a n).read x = if a ≤ x ∧ x < a + n then Memory.unlisted else m.read x := Memory.readFrom_zero h a n x

/-- Memories in the canonical form are equal when every address reads alike. -/
theorem Memory.ext_from {m m' : Memory} {lo : Nat} (h : Memory.wfFrom lo m = true) (h' : Memory.wfFrom lo m' = true)
    (e : ∀ x, m.read x = m'.read x) : m = m' := by
  induction m generalizing lo m' with
  | nil =>
    cases m' with
    | nil => rfl
    | cons c r =>
      obtain ⟨k, b⟩ := c
      have := e k
      simp_all [Memory.wfFrom, Memory.read]
  | cons c r ih =>
    obtain ⟨k, b⟩ := c
    cases m' with
    | nil =>
      have := e k
      simp_all [Memory.wfFrom, Memory.read]
    | cons c' r' =>
      obtain ⟨k', b'⟩ := c'
      simp only [Memory.wfFrom, Bool.and_eq_true, decide_eq_true_eq, bne_iff_ne] at h h'
      have hk : k = k' := by
        rcases Nat.lt_trichotomy k k' with hlt | heq | hgt
        · have := e k
          simp only [Memory.read, if_pos] at this
          rw [if_neg (by omega), if_pos hlt] at this
          exact absurd this h.1.2
        · exact heq
        · have := e k'
          simp only [Memory.read, if_pos] at this
          rw [if_neg (by omega), if_pos hgt] at this
          exact absurd this.symm h'.1.2
      subst hk
      have hb : b = b' := by simpa [Memory.read] using e k
      subst hb
      have hr : r = r' := by
        refine ih h.2 h'.2 (fun x => ?_)
        rcases Nat.lt_trichotomy x k with hlt | heq | hgt
        · rw [Memory.read_below h.2 (by omega), Memory.read_below h'.2 (by omega)]
        · rw [Memory.read_below h.2 (by omega), Memory.read_below h'.2 (by omega)]
        · have := e x
          simp only [Memory.read] at this
          rwa [if_neg (by omega), if_neg (by omega), if_neg (by omega), if_neg (by omega)] at this
      rw [hr]

theorem Memory.ext {m m' : Memory} (h : m.wf = true) (h' : m'.wf = true) (e : ∀ x, m.read x = m'.read x) : m = m' :=
  Memory.ext_from h h' e

/-! ### Numbers -/

@[simp] theorem leBytes_length (n v : Nat) : (leBytes n v).length = n := by
  induction n generalizing v with
  | zero => rfl
  | succ n ih => simp [leBytes, ih]

/-- The bytes of a number give the number back, modulo its size. -/
theorem leNat_leBytes (n v : Nat) : leNat (leBytes n v) = v % 256 ^ n := by
  induction n generalizing v with
  | zero => simp [leBytes, leNat, Nat.mod_one]
  | succ n ih =>
    have h8 : (BitVec.ofNat 8 v).toNat = v % 256 := by simp
    rw [leBytes, leNat, ih, h8, show 256 ^ (n + 1) = 256 * 256 ^ n by rw [Nat.pow_succ, Nat.mul_comm], Nat.mod_mul]

/-! ### Sparse tables -/

@[simp] theorem Tbl.get?_set {α : Type} (t : Tbl α) (i j : Nat) (v : α) :
    (t.set i v).get? j = if j = i then some v else t.get? j := by
  induction t with
  | nil =>
    by_cases h : j = i
    · simp [Tbl.set, Tbl.get?, h]
    · simp [Tbl.set, Tbl.get?, h, Ne.symm h]
  | cons c r ih =>
    obtain ⟨k, x⟩ := c
    unfold Tbl.set
    split
    · subst i
      by_cases h : j = k
      · simp [Tbl.get?, h]
      · simp [Tbl.get?, h, Ne.symm h]
    · split
      · by_cases h : j = i
        · simp [Tbl.get?, h]
        · simp [Tbl.get?, h, Ne.symm h]
      · simp only [Tbl.get?, ih]
        by_cases h : j = i
        · subst h; simp_all
        · simp [h]

@[simp] theorem Tbl.getD_set {α : Type} (t : Tbl α) (i j : Nat) (v d : α) :
    (t.set i v).getD j d = if j = i then v else t.getD j d := by
  unfold Tbl.getD
  rw [Tbl.get?_set]
  split
  · rename_i h
    split at h <;> simp_all
  · rename_i h
    split at h <;> simp_all

end Sys2Proof.Machine
end

