-- ==== Sys2Proof/Laws/Slices.lean ====
section
/-! SUPPORT. What reading at a home slice can do: where no exact entry or backing record is held it answers the bytes of
memory and changes nothing. -/

namespace Sys2Proof.Machine

theorem State.finalizeLine_plain {s : State} (h : s.NoExact) (pa : Nat) : s.finalizeLine pa = s := by
  simp [State.finalizeLine, State.spilling, (h (sliceOf pa)).1, (h (sliceOf pa)).2]

theorem State.finalizeSpan_plain {s : State} (h : s.NoExact) (pa n : Nat) : s.finalizeSpan pa n = s := by
  unfold State.finalizeSpan
  induction spanLines pa n with
  | nil => rfl
  | cons a r ih => rw [List.foldl_cons, State.finalizeLine_plain h, ih]

theorem State.readPhys_plain {s : State} (h : s.NoExact) (pa n : Nat) : s.readPhys ⟨0, pa⟩ n = (s.mem.readBytes pa n, s) := by
  simp [State.readPhys, State.finalizeAt, State.finalizeSpan_plain h, State.memOf]

/-- R208: with no sector locked a read of device memory answers its bytes. -/
theorem State.readFor_plain {s : State} (h : s.NoExact) (hl : s.serial.locks = []) (me : Option GroupRef) (pa n : Nat) :
    s.readFor me ⟨0, pa⟩ n = (s.mem.readBytes pa n, s) := by
  simp [State.readFor, State.readPhys_plain h, hl]

@[simp] theorem Memory.readBytes_length (m : Memory) (a n : Nat) : (m.readBytes a n).length = n := by
  induction n generalizing a with
  | zero => rfl
  | succ n ih => simp [Memory.readBytes, ih]

theorem Memory.read_gap {m : Memory} {lo hi : Nat} (h : ∀ c ∈ m, c.1 < lo ∨ hi ≤ c.1) {a : Nat} (h1 : lo ≤ a) (h2 : a < hi) :
    m.read a = Memory.unlisted := by
  induction m with
  | nil => rfl
  | cons c r ih =>
    have hc := h c (List.mem_cons_self ..)
    obtain ⟨k, b⟩ := c
    simp only [Memory.read]
    split
    · omega
    · split
      · rfl
      · exact ih (fun c hc => h c (List.mem_cons_of_mem _ hc))

/-- A span in which nothing is listed reads as unlisted bytes. -/
theorem Memory.readBytes_gap {m : Memory} {lo hi : Nat} (h : ∀ c ∈ m, c.1 < lo ∨ hi ≤ c.1) (n a : Nat) (h1 : lo ≤ a)
    (h2 : a + n ≤ hi) : ∀ b ∈ m.readBytes a n, b = Memory.unlisted := by
  induction n generalizing a with
  | zero => simp [Memory.readBytes]
  | succ n ih =>
    intro b hb
    simp only [Memory.readBytes, List.mem_cons] at hb
    rcases hb with rfl | hb
    · exact Memory.read_gap h h1 (by omega)
    · exact ih (a + 1) (by omega) (by omega) b hb

end Sys2Proof.Machine
end

