-- ==== Sys2Proof/Laws/State.lean ====
section
/-! SUPPORT. What each update of a table does to each field of the state: one lemma per field, true by computation. -/

namespace Sys2Proof.Machine.State

/-! ### `setCore` -/

@[simp] theorem setCore_pkg (s : State) (c : Nat) (x : Core) : (s.setCore c x).pkg = s.pkg := rfl
@[simp] theorem setCore_mem (s : State) (c : Nat) (x : Core) : (s.setCore c x).mem = s.mem := rfl
@[simp] theorem setCore_hostMem (s : State) (c : Nat) (x : Core) : (s.setCore c x).hostMem = s.hostMem := rfl
@[simp] theorem setCore_peerMem (s : State) (c : Nat) (x : Core) : (s.setCore c x).peerMem = s.peerMem := rfl
@[simp] theorem setCore_peerAcc (s : State) (c : Nat) (x : Core) : (s.setCore c x).peerAcc = s.peerAcc := rfl
@[simp] theorem setCore_tenants (s : State) (c : Nat) (x : Core) : (s.setCore c x).tenants = s.tenants := rfl
@[simp] theorem setCore_ctxs (s : State) (c : Nat) (x : Core) : (s.setCore c x).ctxs = s.ctxs := rfl
@[simp] theorem setCore_queues (s : State) (c : Nat) (x : Core) : (s.setCore c x).queues = s.queues := rfl
@[simp] theorem setCore_qe (s : State) (c : Nat) (x : Core) : (s.setCore c x).qe = s.qe := rfl
@[simp] theorem setCore_packets (s : State) (c : Nat) (x : Core) : (s.setCore c x).packets = s.packets := rfl
@[simp] theorem setCore_launches (s : State) (c : Nat) (x : Core) : (s.setCore c x).launches = s.launches := rfl
@[simp] theorem setCore_galleys (s : State) (c : Nat) (x : Core) : (s.setCore c x).galleys = s.galleys := rfl
@[simp] theorem setCore_replays (s : State) (c : Nat) (x : Core) : (s.setCore c x).replays = s.replays := rfl
@[simp] theorem setCore_patches (s : State) (c : Nat) (x : Core) : (s.setCore c x).patches = s.patches := rfl
@[simp] theorem setCore_xlats (s : State) (c : Nat) (x : Core) : (s.setCore c x).xlats = s.xlats := rfl
@[simp] theorem setCore_clusters (s : State) (c : Nat) (x : Core) : (s.setCore c x).clusters = s.clusters := rfl
@[simp] theorem setCore_cores (s : State) (c : Nat) (x : Core) : (s.setCore c x).cores = s.cores.set c x := rfl
@[simp] theorem setCore_slices (s : State) (c : Nat) (x : Core) : (s.setCore c x).slices = s.slices := rfl
@[simp] theorem setCore_commands (s : State) (c : Nat) (x : Core) : (s.setCore c x).commands = s.commands := rfl
@[simp] theorem setCore_icinvs (s : State) (c : Nat) (x : Core) : (s.setCore c x).icinvs = s.icinvs := rfl
@[simp] theorem setCore_walks (s : State) (c : Nat) (x : Core) : (s.setCore c x).walks = s.walks := rfl
@[simp] theorem setCore_faults (s : State) (c : Nat) (x : Core) : (s.setCore c x).faults = s.faults := rfl
@[simp] theorem setCore_relayouts (s : State) (c : Nat) (x : Core) : (s.setCore c x).relayouts = s.relayouts := rfl
@[simp] theorem setCore_serial (s : State) (c : Nat) (x : Core) : (s.setCore c x).serial = s.serial := rfl
@[simp] theorem setCore_msix (s : State) (c : Nat) (x : Core) : (s.setCore c x).msix = s.msix := rfl
@[simp] theorem setCore_hostRet (s : State) (c : Nat) (x : Core) : (s.setCore c x).hostRet = s.hostRet := rfl
@[simp] theorem setCore_cur (s : State) (c : Nat) (x : Core) : (s.setCore c x).cur = s.cur := rfl
@[simp] theorem setCore_slot (s : State) (c : Nat) (x : Core) : (s.setCore c x).slot = s.slot := rfl
@[simp] theorem setCore_issued (s : State) (c : Nat) (x : Core) : (s.setCore c x).issued = s.issued := rfl
@[simp] theorem setCore_waiting (s : State) (c : Nat) (x : Core) : (s.setCore c x).waiting = s.waiting := rfl
@[simp] theorem setCore_agenda (s : State) (c : Nat) (x : Core) : (s.setCore c x).agenda = s.agenda := rfl
@[simp] theorem setCore_choices (s : State) (c : Nat) (x : Core) : (s.setCore c x).choices = s.choices := rfl
@[simp] theorem setCore_turns (s : State) (c : Nat) (x : Core) : (s.setCore c x).turns = s.turns := rfl
@[simp] theorem setCore_nextId (s : State) (c : Nat) (x : Core) : (s.setCore c x).nextId = s.nextId := rfl

/-! ### `setCluster` -/

@[simp] theorem setCluster_pkg (s : State) (c : Nat) (x : Cluster) : (s.setCluster c x).pkg = s.pkg := rfl
@[simp] theorem setCluster_mem (s : State) (c : Nat) (x : Cluster) : (s.setCluster c x).mem = s.mem := rfl
@[simp] theorem setCluster_hostMem (s : State) (c : Nat) (x : Cluster) : (s.setCluster c x).hostMem = s.hostMem := rfl
@[simp] theorem setCluster_peerMem (s : State) (c : Nat) (x : Cluster) : (s.setCluster c x).peerMem = s.peerMem := rfl
@[simp] theorem setCluster_peerAcc (s : State) (c : Nat) (x : Cluster) : (s.setCluster c x).peerAcc = s.peerAcc := rfl
@[simp] theorem setCluster_tenants (s : State) (c : Nat) (x : Cluster) : (s.setCluster c x).tenants = s.tenants := rfl
@[simp] theorem setCluster_ctxs (s : State) (c : Nat) (x : Cluster) : (s.setCluster c x).ctxs = s.ctxs := rfl
@[simp] theorem setCluster_queues (s : State) (c : Nat) (x : Cluster) : (s.setCluster c x).queues = s.queues := rfl
@[simp] theorem setCluster_qe (s : State) (c : Nat) (x : Cluster) : (s.setCluster c x).qe = s.qe := rfl
@[simp] theorem setCluster_packets (s : State) (c : Nat) (x : Cluster) : (s.setCluster c x).packets = s.packets := rfl
@[simp] theorem setCluster_launches (s : State) (c : Nat) (x : Cluster) : (s.setCluster c x).launches = s.launches := rfl
@[simp] theorem setCluster_galleys (s : State) (c : Nat) (x : Cluster) : (s.setCluster c x).galleys = s.galleys := rfl
@[simp] theorem setCluster_replays (s : State) (c : Nat) (x : Cluster) : (s.setCluster c x).replays = s.replays := rfl
@[simp] theorem setCluster_patches (s : State) (c : Nat) (x : Cluster) : (s.setCluster c x).patches = s.patches := rfl
@[simp] theorem setCluster_xlats (s : State) (c : Nat) (x : Cluster) : (s.setCluster c x).xlats = s.xlats := rfl
@[simp] theorem setCluster_clusters (s : State) (c : Nat) (x : Cluster) : (s.setCluster c x).clusters = s.clusters.set c x := rfl
@[simp] theorem setCluster_cores (s : State) (c : Nat) (x : Cluster) : (s.setCluster c x).cores = s.cores := rfl
@[simp] theorem setCluster_slices (s : State) (c : Nat) (x : Cluster) : (s.setCluster c x).slices = s.slices := rfl
@[simp] theorem setCluster_commands (s : State) (c : Nat) (x : Cluster) : (s.setCluster c x).commands = s.commands := rfl
@[simp] theorem setCluster_icinvs (s : State) (c : Nat) (x : Cluster) : (s.setCluster c x).icinvs = s.icinvs := rfl
@[simp] theorem setCluster_walks (s : State) (c : Nat) (x : Cluster) : (s.setCluster c x).walks = s.walks := rfl
@[simp] theorem setCluster_faults (s : State) (c : Nat) (x : Cluster) : (s.setCluster c x).faults = s.faults := rfl
@[simp] theorem setCluster_relayouts (s : State) (c : Nat) (x : Cluster) : (s.setCluster c x).relayouts = s.relayouts := rfl
@[simp] theorem setCluster_serial (s : State) (c : Nat) (x : Cluster) : (s.setCluster c x).serial = s.serial := rfl
@[simp] theorem setCluster_msix (s : State) (c : Nat) (x : Cluster) : (s.setCluster c x).msix = s.msix := rfl
@[simp] theorem setCluster_hostRet (s : State) (c : Nat) (x : Cluster) : (s.setCluster c x).hostRet = s.hostRet := rfl
@[simp] theorem setCluster_cur (s : State) (c : Nat) (x : Cluster) : (s.setCluster c x).cur = s.cur := rfl
@[simp] theorem setCluster_slot (s : State) (c : Nat) (x : Cluster) : (s.setCluster c x).slot = s.slot := rfl
@[simp] theorem setCluster_issued (s : State) (c : Nat) (x : Cluster) : (s.setCluster c x).issued = s.issued := rfl
@[simp] theorem setCluster_waiting (s : State) (c : Nat) (x : Cluster) : (s.setCluster c x).waiting = s.waiting := rfl
@[simp] theorem setCluster_agenda (s : State) (c : Nat) (x : Cluster) : (s.setCluster c x).agenda = s.agenda := rfl
@[simp] theorem setCluster_choices (s : State) (c : Nat) (x : Cluster) : (s.setCluster c x).choices = s.choices := rfl
@[simp] theorem setCluster_turns (s : State) (c : Nat) (x : Cluster) : (s.setCluster c x).turns = s.turns := rfl
@[simp] theorem setCluster_nextId (s : State) (c : Nat) (x : Cluster) : (s.setCluster c x).nextId = s.nextId := rfl

/-! ### `setSlice` -/

@[simp] theorem setSlice_pkg (s : State) (c : Nat) (x : Slice) : (s.setSlice c x).pkg = s.pkg := rfl
@[simp] theorem setSlice_mem (s : State) (c : Nat) (x : Slice) : (s.setSlice c x).mem = s.mem := rfl
@[simp] theorem setSlice_hostMem (s : State) (c : Nat) (x : Slice) : (s.setSlice c x).hostMem = s.hostMem := rfl
@[simp] theorem setSlice_peerMem (s : State) (c : Nat) (x : Slice) : (s.setSlice c x).peerMem = s.peerMem := rfl
@[simp] theorem setSlice_peerAcc (s : State) (c : Nat) (x : Slice) : (s.setSlice c x).peerAcc = s.peerAcc := rfl
@[simp] theorem setSlice_tenants (s : State) (c : Nat) (x : Slice) : (s.setSlice c x).tenants = s.tenants := rfl
@[simp] theorem setSlice_ctxs (s : State) (c : Nat) (x : Slice) : (s.setSlice c x).ctxs = s.ctxs := rfl
@[simp] theorem setSlice_queues (s : State) (c : Nat) (x : Slice) : (s.setSlice c x).queues = s.queues := rfl
@[simp] theorem setSlice_qe (s : State) (c : Nat) (x : Slice) : (s.setSlice c x).qe = s.qe := rfl
@[simp] theorem setSlice_packets (s : State) (c : Nat) (x : Slice) : (s.setSlice c x).packets = s.packets := rfl
@[simp] theorem setSlice_launches (s : State) (c : Nat) (x : Slice) : (s.setSlice c x).launches = s.launches := rfl
@[simp] theorem setSlice_galleys (s : State) (c : Nat) (x : Slice) : (s.setSlice c x).galleys = s.galleys := rfl
@[simp] theorem setSlice_replays (s : State) (c : Nat) (x : Slice) : (s.setSlice c x).replays = s.replays := rfl
@[simp] theorem setSlice_patches (s : State) (c : Nat) (x : Slice) : (s.setSlice c x).patches = s.patches := rfl
@[simp] theorem setSlice_xlats (s : State) (c : Nat) (x : Slice) : (s.setSlice c x).xlats = s.xlats := rfl
@[simp] theorem setSlice_clusters (s : State) (c : Nat) (x : Slice) : (s.setSlice c x).clusters = s.clusters := rfl
@[simp] theorem setSlice_cores (s : State) (c : Nat) (x : Slice) : (s.setSlice c x).cores = s.cores := rfl
@[simp] theorem setSlice_slices (s : State) (c : Nat) (x : Slice) : (s.setSlice c x).slices = s.slices.set c x := rfl
@[simp] theorem setSlice_commands (s : State) (c : Nat) (x : Slice) : (s.setSlice c x).commands = s.commands := rfl
@[simp] theorem setSlice_icinvs (s : State) (c : Nat) (x : Slice) : (s.setSlice c x).icinvs = s.icinvs := rfl
@[simp] theorem setSlice_walks (s : State) (c : Nat) (x : Slice) : (s.setSlice c x).walks = s.walks := rfl
@[simp] theorem setSlice_faults (s : State) (c : Nat) (x : Slice) : (s.setSlice c x).faults = s.faults := rfl
@[simp] theorem setSlice_relayouts (s : State) (c : Nat) (x : Slice) : (s.setSlice c x).relayouts = s.relayouts := rfl
@[simp] theorem setSlice_serial (s : State) (c : Nat) (x : Slice) : (s.setSlice c x).serial = s.serial := rfl
@[simp] theorem setSlice_msix (s : State) (c : Nat) (x : Slice) : (s.setSlice c x).msix = s.msix := rfl
@[simp] theorem setSlice_hostRet (s : State) (c : Nat) (x : Slice) : (s.setSlice c x).hostRet = s.hostRet := rfl
@[simp] theorem setSlice_cur (s : State) (c : Nat) (x : Slice) : (s.setSlice c x).cur = s.cur := rfl
@[simp] theorem setSlice_slot (s : State) (c : Nat) (x : Slice) : (s.setSlice c x).slot = s.slot := rfl
@[simp] theorem setSlice_issued (s : State) (c : Nat) (x : Slice) : (s.setSlice c x).issued = s.issued := rfl
@[simp] theorem setSlice_waiting (s : State) (c : Nat) (x : Slice) : (s.setSlice c x).waiting = s.waiting := rfl
@[simp] theorem setSlice_agenda (s : State) (c : Nat) (x : Slice) : (s.setSlice c x).agenda = s.agenda := rfl
@[simp] theorem setSlice_choices (s : State) (c : Nat) (x : Slice) : (s.setSlice c x).choices = s.choices := rfl
@[simp] theorem setSlice_turns (s : State) (c : Nat) (x : Slice) : (s.setSlice c x).turns = s.turns := rfl
@[simp] theorem setSlice_nextId (s : State) (c : Nat) (x : Slice) : (s.setSlice c x).nextId = s.nextId := rfl

/-! ### `setTenant` -/

@[simp] theorem setTenant_pkg (s : State) (t : Nat) (x : Tenant) : (s.setTenant t x).pkg = s.pkg := rfl
@[simp] theorem setTenant_mem (s : State) (t : Nat) (x : Tenant) : (s.setTenant t x).mem = s.mem := rfl
@[simp] theorem setTenant_hostMem (s : State) (t : Nat) (x : Tenant) : (s.setTenant t x).hostMem = s.hostMem := rfl
@[simp] theorem setTenant_peerMem (s : State) (t : Nat) (x : Tenant) : (s.setTenant t x).peerMem = s.peerMem := rfl
@[simp] theorem setTenant_peerAcc (s : State) (t : Nat) (x : Tenant) : (s.setTenant t x).peerAcc = s.peerAcc := rfl
@[simp] theorem setTenant_tenants (s : State) (t : Nat) (x : Tenant) : (s.setTenant t x).tenants = s.tenants.set t x := rfl
@[simp] theorem setTenant_ctxs (s : State) (t : Nat) (x : Tenant) : (s.setTenant t x).ctxs = s.ctxs := rfl
@[simp] theorem setTenant_queues (s : State) (t : Nat) (x : Tenant) : (s.setTenant t x).queues = s.queues := rfl
@[simp] theorem setTenant_qe (s : State) (t : Nat) (x : Tenant) : (s.setTenant t x).qe = s.qe := rfl
@[simp] theorem setTenant_packets (s : State) (t : Nat) (x : Tenant) : (s.setTenant t x).packets = s.packets := rfl
@[simp] theorem setTenant_launches (s : State) (t : Nat) (x : Tenant) : (s.setTenant t x).launches = s.launches := rfl
@[simp] theorem setTenant_galleys (s : State) (t : Nat) (x : Tenant) : (s.setTenant t x).galleys = s.galleys := rfl
@[simp] theorem setTenant_replays (s : State) (t : Nat) (x : Tenant) : (s.setTenant t x).replays = s.replays := rfl
@[simp] theorem setTenant_patches (s : State) (t : Nat) (x : Tenant) : (s.setTenant t x).patches = s.patches := rfl
@[simp] theorem setTenant_xlats (s : State) (t : Nat) (x : Tenant) : (s.setTenant t x).xlats = s.xlats := rfl
@[simp] theorem setTenant_clusters (s : State) (t : Nat) (x : Tenant) : (s.setTenant t x).clusters = s.clusters := rfl
@[simp] theorem setTenant_cores (s : State) (t : Nat) (x : Tenant) : (s.setTenant t x).cores = s.cores := rfl
@[simp] theorem setTenant_slices (s : State) (t : Nat) (x : Tenant) : (s.setTenant t x).slices = s.slices := rfl
@[simp] theorem setTenant_commands (s : State) (t : Nat) (x : Tenant) : (s.setTenant t x).commands = s.commands := rfl
@[simp] theorem setTenant_icinvs (s : State) (t : Nat) (x : Tenant) : (s.setTenant t x).icinvs = s.icinvs := rfl
@[simp] theorem setTenant_walks (s : State) (t : Nat) (x : Tenant) : (s.setTenant t x).walks = s.walks := rfl
@[simp] theorem setTenant_faults (s : State) (t : Nat) (x : Tenant) : (s.setTenant t x).faults = s.faults := rfl
@[simp] theorem setTenant_relayouts (s : State) (t : Nat) (x : Tenant) : (s.setTenant t x).relayouts = s.relayouts := rfl
@[simp] theorem setTenant_serial (s : State) (t : Nat) (x : Tenant) : (s.setTenant t x).serial = s.serial := rfl
@[simp] theorem setTenant_msix (s : State) (t : Nat) (x : Tenant) : (s.setTenant t x).msix = s.msix := rfl
@[simp] theorem setTenant_hostRet (s : State) (t : Nat) (x : Tenant) : (s.setTenant t x).hostRet = s.hostRet := rfl
@[simp] theorem setTenant_cur (s : State) (t : Nat) (x : Tenant) : (s.setTenant t x).cur = s.cur := rfl
@[simp] theorem setTenant_slot (s : State) (t : Nat) (x : Tenant) : (s.setTenant t x).slot = s.slot := rfl
@[simp] theorem setTenant_issued (s : State) (t : Nat) (x : Tenant) : (s.setTenant t x).issued = s.issued := rfl
@[simp] theorem setTenant_waiting (s : State) (t : Nat) (x : Tenant) : (s.setTenant t x).waiting = s.waiting := rfl
@[simp] theorem setTenant_agenda (s : State) (t : Nat) (x : Tenant) : (s.setTenant t x).agenda = s.agenda := rfl
@[simp] theorem setTenant_choices (s : State) (t : Nat) (x : Tenant) : (s.setTenant t x).choices = s.choices := rfl
@[simp] theorem setTenant_turns (s : State) (t : Nat) (x : Tenant) : (s.setTenant t x).turns = s.turns := rfl
@[simp] theorem setTenant_nextId (s : State) (t : Nat) (x : Tenant) : (s.setTenant t x).nextId = s.nextId := rfl

/-! ### `setCtx` -/

@[simp] theorem setCtx_pkg (s : State) (t k : Nat) (x : Ctx) : (s.setCtx t k x).pkg = s.pkg := rfl
@[simp] theorem setCtx_mem (s : State) (t k : Nat) (x : Ctx) : (s.setCtx t k x).mem = s.mem := rfl
@[simp] theorem setCtx_hostMem (s : State) (t k : Nat) (x : Ctx) : (s.setCtx t k x).hostMem = s.hostMem := rfl
@[simp] theorem setCtx_peerMem (s : State) (t k : Nat) (x : Ctx) : (s.setCtx t k x).peerMem = s.peerMem := rfl
@[simp] theorem setCtx_peerAcc (s : State) (t k : Nat) (x : Ctx) : (s.setCtx t k x).peerAcc = s.peerAcc := rfl
@[simp] theorem setCtx_tenants (s : State) (t k : Nat) (x : Ctx) : (s.setCtx t k x).tenants = s.tenants := rfl
@[simp] theorem setCtx_ctxs (s : State) (t k : Nat) (x : Ctx) : (s.setCtx t k x).ctxs = s.ctxs.set (16 * t + k) x := rfl
@[simp] theorem setCtx_queues (s : State) (t k : Nat) (x : Ctx) : (s.setCtx t k x).queues = s.queues := rfl
@[simp] theorem setCtx_qe (s : State) (t k : Nat) (x : Ctx) : (s.setCtx t k x).qe = s.qe := rfl
@[simp] theorem setCtx_packets (s : State) (t k : Nat) (x : Ctx) : (s.setCtx t k x).packets = s.packets := rfl
@[simp] theorem setCtx_launches (s : State) (t k : Nat) (x : Ctx) : (s.setCtx t k x).launches = s.launches := rfl
@[simp] theorem setCtx_galleys (s : State) (t k : Nat) (x : Ctx) : (s.setCtx t k x).galleys = s.galleys := rfl
@[simp] theorem setCtx_replays (s : State) (t k : Nat) (x : Ctx) : (s.setCtx t k x).replays = s.replays := rfl
@[simp] theorem setCtx_patches (s : State) (t k : Nat) (x : Ctx) : (s.setCtx t k x).patches = s.patches := rfl
@[simp] theorem setCtx_xlats (s : State) (t k : Nat) (x : Ctx) : (s.setCtx t k x).xlats = s.xlats := rfl
@[simp] theorem setCtx_clusters (s : State) (t k : Nat) (x : Ctx) : (s.setCtx t k x).clusters = s.clusters := rfl
@[simp] theorem setCtx_cores (s : State) (t k : Nat) (x : Ctx) : (s.setCtx t k x).cores = s.cores := rfl
@[simp] theorem setCtx_slices (s : State) (t k : Nat) (x : Ctx) : (s.setCtx t k x).slices = s.slices := rfl
@[simp] theorem setCtx_commands (s : State) (t k : Nat) (x : Ctx) : (s.setCtx t k x).commands = s.commands := rfl
@[simp] theorem setCtx_icinvs (s : State) (t k : Nat) (x : Ctx) : (s.setCtx t k x).icinvs = s.icinvs := rfl
@[simp] theorem setCtx_walks (s : State) (t k : Nat) (x : Ctx) : (s.setCtx t k x).walks = s.walks := rfl
@[simp] theorem setCtx_faults (s : State) (t k : Nat) (x : Ctx) : (s.setCtx t k x).faults = s.faults := rfl
@[simp] theorem setCtx_relayouts (s : State) (t k : Nat) (x : Ctx) : (s.setCtx t k x).relayouts = s.relayouts := rfl
@[simp] theorem setCtx_serial (s : State) (t k : Nat) (x : Ctx) : (s.setCtx t k x).serial = s.serial := rfl
@[simp] theorem setCtx_msix (s : State) (t k : Nat) (x : Ctx) : (s.setCtx t k x).msix = s.msix := rfl
@[simp] theorem setCtx_hostRet (s : State) (t k : Nat) (x : Ctx) : (s.setCtx t k x).hostRet = s.hostRet := rfl
@[simp] theorem setCtx_cur (s : State) (t k : Nat) (x : Ctx) : (s.setCtx t k x).cur = s.cur := rfl
@[simp] theorem setCtx_slot (s : State) (t k : Nat) (x : Ctx) : (s.setCtx t k x).slot = s.slot := rfl
@[simp] theorem setCtx_issued (s : State) (t k : Nat) (x : Ctx) : (s.setCtx t k x).issued = s.issued := rfl
@[simp] theorem setCtx_waiting (s : State) (t k : Nat) (x : Ctx) : (s.setCtx t k x).waiting = s.waiting := rfl
@[simp] theorem setCtx_agenda (s : State) (t k : Nat) (x : Ctx) : (s.setCtx t k x).agenda = s.agenda := rfl
@[simp] theorem setCtx_choices (s : State) (t k : Nat) (x : Ctx) : (s.setCtx t k x).choices = s.choices := rfl
@[simp] theorem setCtx_turns (s : State) (t k : Nat) (x : Ctx) : (s.setCtx t k x).turns = s.turns := rfl
@[simp] theorem setCtx_nextId (s : State) (t k : Nat) (x : Ctx) : (s.setCtx t k x).nextId = s.nextId := rfl

/-! ### `setQueue` -/

@[simp] theorem setQueue_pkg (s : State) (q : QId) (x : Queue) : (s.setQueue q x).pkg = s.pkg := rfl
@[simp] theorem setQueue_mem (s : State) (q : QId) (x : Queue) : (s.setQueue q x).mem = s.mem := rfl
@[simp] theorem setQueue_hostMem (s : State) (q : QId) (x : Queue) : (s.setQueue q x).hostMem = s.hostMem := rfl
@[simp] theorem setQueue_peerMem (s : State) (q : QId) (x : Queue) : (s.setQueue q x).peerMem = s.peerMem := rfl
@[simp] theorem setQueue_peerAcc (s : State) (q : QId) (x : Queue) : (s.setQueue q x).peerAcc = s.peerAcc := rfl
@[simp] theorem setQueue_tenants (s : State) (q : QId) (x : Queue) : (s.setQueue q x).tenants = s.tenants := rfl
@[simp] theorem setQueue_ctxs (s : State) (q : QId) (x : Queue) : (s.setQueue q x).ctxs = s.ctxs := rfl
@[simp] theorem setQueue_queues (s : State) (q : QId) (x : Queue) : (s.setQueue q x).queues = s.queues.set (64 * q.owner + q.q) x := rfl
@[simp] theorem setQueue_qe (s : State) (q : QId) (x : Queue) : (s.setQueue q x).qe = s.qe := rfl
@[simp] theorem setQueue_packets (s : State) (q : QId) (x : Queue) : (s.setQueue q x).packets = s.packets := rfl
@[simp] theorem setQueue_launches (s : State) (q : QId) (x : Queue) : (s.setQueue q x).launches = s.launches := rfl
@[simp] theorem setQueue_galleys (s : State) (q : QId) (x : Queue) : (s.setQueue q x).galleys = s.galleys := rfl
@[simp] theorem setQueue_replays (s : State) (q : QId) (x : Queue) : (s.setQueue q x).replays = s.replays := rfl
@[simp] theorem setQueue_patches (s : State) (q : QId) (x : Queue) : (s.setQueue q x).patches = s.patches := rfl
@[simp] theorem setQueue_xlats (s : State) (q : QId) (x : Queue) : (s.setQueue q x).xlats = s.xlats := rfl
@[simp] theorem setQueue_clusters (s : State) (q : QId) (x : Queue) : (s.setQueue q x).clusters = s.clusters := rfl
@[simp] theorem setQueue_cores (s : State) (q : QId) (x : Queue) : (s.setQueue q x).cores = s.cores := rfl
@[simp] theorem setQueue_slices (s : State) (q : QId) (x : Queue) : (s.setQueue q x).slices = s.slices := rfl
@[simp] theorem setQueue_commands (s : State) (q : QId) (x : Queue) : (s.setQueue q x).commands = s.commands := rfl
@[simp] theorem setQueue_icinvs (s : State) (q : QId) (x : Queue) : (s.setQueue q x).icinvs = s.icinvs := rfl
@[simp] theorem setQueue_walks (s : State) (q : QId) (x : Queue) : (s.setQueue q x).walks = s.walks := rfl
@[simp] theorem setQueue_faults (s : State) (q : QId) (x : Queue) : (s.setQueue q x).faults = s.faults := rfl
@[simp] theorem setQueue_relayouts (s : State) (q : QId) (x : Queue) : (s.setQueue q x).relayouts = s.relayouts := rfl
@[simp] theorem setQueue_serial (s : State) (q : QId) (x : Queue) : (s.setQueue q x).serial = s.serial := rfl
@[simp] theorem setQueue_msix (s : State) (q : QId) (x : Queue) : (s.setQueue q x).msix = s.msix := rfl
@[simp] theorem setQueue_hostRet (s : State) (q : QId) (x : Queue) : (s.setQueue q x).hostRet = s.hostRet := rfl
@[simp] theorem setQueue_cur (s : State) (q : QId) (x : Queue) : (s.setQueue q x).cur = s.cur := rfl
@[simp] theorem setQueue_slot (s : State) (q : QId) (x : Queue) : (s.setQueue q x).slot = s.slot := rfl
@[simp] theorem setQueue_issued (s : State) (q : QId) (x : Queue) : (s.setQueue q x).issued = s.issued := rfl
@[simp] theorem setQueue_waiting (s : State) (q : QId) (x : Queue) : (s.setQueue q x).waiting = s.waiting := rfl
@[simp] theorem setQueue_agenda (s : State) (q : QId) (x : Queue) : (s.setQueue q x).agenda = s.agenda := rfl
@[simp] theorem setQueue_choices (s : State) (q : QId) (x : Queue) : (s.setQueue q x).choices = s.choices := rfl
@[simp] theorem setQueue_turns (s : State) (q : QId) (x : Queue) : (s.setQueue q x).turns = s.turns := rfl
@[simp] theorem setQueue_nextId (s : State) (q : QId) (x : Queue) : (s.setQueue q x).nextId = s.nextId := rfl

/-! ### `setLaunch` -/

@[simp] theorem setLaunch_pkg (s : State) (x : Launch) : (s.setLaunch x).pkg = s.pkg := rfl
@[simp] theorem setLaunch_mem (s : State) (x : Launch) : (s.setLaunch x).mem = s.mem := rfl
@[simp] theorem setLaunch_hostMem (s : State) (x : Launch) : (s.setLaunch x).hostMem = s.hostMem := rfl
@[simp] theorem setLaunch_peerMem (s : State) (x : Launch) : (s.setLaunch x).peerMem = s.peerMem := rfl
@[simp] theorem setLaunch_peerAcc (s : State) (x : Launch) : (s.setLaunch x).peerAcc = s.peerAcc := rfl
@[simp] theorem setLaunch_tenants (s : State) (x : Launch) : (s.setLaunch x).tenants = s.tenants := rfl
@[simp] theorem setLaunch_ctxs (s : State) (x : Launch) : (s.setLaunch x).ctxs = s.ctxs := rfl
@[simp] theorem setLaunch_queues (s : State) (x : Launch) : (s.setLaunch x).queues = s.queues := rfl
@[simp] theorem setLaunch_qe (s : State) (x : Launch) : (s.setLaunch x).qe = s.qe := rfl
@[simp] theorem setLaunch_packets (s : State) (x : Launch) : (s.setLaunch x).packets = s.packets := rfl
@[simp] theorem setLaunch_launches (s : State) (x : Launch) : (s.setLaunch x).launches = s.launches.map (fun y => if y.id = x.id then x else y) := rfl
@[simp] theorem setLaunch_galleys (s : State) (x : Launch) : (s.setLaunch x).galleys = s.galleys := rfl
@[simp] theorem setLaunch_replays (s : State) (x : Launch) : (s.setLaunch x).replays = s.replays := rfl
@[simp] theorem setLaunch_patches (s : State) (x : Launch) : (s.setLaunch x).patches = s.patches := rfl
@[simp] theorem setLaunch_xlats (s : State) (x : Launch) : (s.setLaunch x).xlats = s.xlats := rfl
@[simp] theorem setLaunch_clusters (s : State) (x : Launch) : (s.setLaunch x).clusters = s.clusters := rfl
@[simp] theorem setLaunch_cores (s : State) (x : Launch) : (s.setLaunch x).cores = s.cores := rfl
@[simp] theorem setLaunch_slices (s : State) (x : Launch) : (s.setLaunch x).slices = s.slices := rfl
@[simp] theorem setLaunch_commands (s : State) (x : Launch) : (s.setLaunch x).commands = s.commands := rfl
@[simp] theorem setLaunch_icinvs (s : State) (x : Launch) : (s.setLaunch x).icinvs = s.icinvs := rfl
@[simp] theorem setLaunch_walks (s : State) (x : Launch) : (s.setLaunch x).walks = s.walks := rfl
@[simp] theorem setLaunch_faults (s : State) (x : Launch) : (s.setLaunch x).faults = s.faults := rfl
@[simp] theorem setLaunch_relayouts (s : State) (x : Launch) : (s.setLaunch x).relayouts = s.relayouts := rfl
@[simp] theorem setLaunch_serial (s : State) (x : Launch) : (s.setLaunch x).serial = s.serial := rfl
@[simp] theorem setLaunch_msix (s : State) (x : Launch) : (s.setLaunch x).msix = s.msix := rfl
@[simp] theorem setLaunch_hostRet (s : State) (x : Launch) : (s.setLaunch x).hostRet = s.hostRet := rfl
@[simp] theorem setLaunch_cur (s : State) (x : Launch) : (s.setLaunch x).cur = s.cur := rfl
@[simp] theorem setLaunch_slot (s : State) (x : Launch) : (s.setLaunch x).slot = s.slot := rfl
@[simp] theorem setLaunch_issued (s : State) (x : Launch) : (s.setLaunch x).issued = s.issued := rfl
@[simp] theorem setLaunch_waiting (s : State) (x : Launch) : (s.setLaunch x).waiting = s.waiting := rfl
@[simp] theorem setLaunch_agenda (s : State) (x : Launch) : (s.setLaunch x).agenda = s.agenda := rfl
@[simp] theorem setLaunch_choices (s : State) (x : Launch) : (s.setLaunch x).choices = s.choices := rfl
@[simp] theorem setLaunch_turns (s : State) (x : Launch) : (s.setLaunch x).turns = s.turns := rfl
@[simp] theorem setLaunch_nextId (s : State) (x : Launch) : (s.setLaunch x).nextId = s.nextId := rfl

/-! ### `setGalley` -/

@[simp] theorem setGalley_pkg (s : State) (x : Galley) : (s.setGalley x).pkg = s.pkg := rfl
@[simp] theorem setGalley_mem (s : State) (x : Galley) : (s.setGalley x).mem = s.mem := rfl
@[simp] theorem setGalley_hostMem (s : State) (x : Galley) : (s.setGalley x).hostMem = s.hostMem := rfl
@[simp] theorem setGalley_peerMem (s : State) (x : Galley) : (s.setGalley x).peerMem = s.peerMem := rfl
@[simp] theorem setGalley_peerAcc (s : State) (x : Galley) : (s.setGalley x).peerAcc = s.peerAcc := rfl
@[simp] theorem setGalley_tenants (s : State) (x : Galley) : (s.setGalley x).tenants = s.tenants := rfl
@[simp] theorem setGalley_ctxs (s : State) (x : Galley) : (s.setGalley x).ctxs = s.ctxs := rfl
@[simp] theorem setGalley_queues (s : State) (x : Galley) : (s.setGalley x).queues = s.queues := rfl
@[simp] theorem setGalley_qe (s : State) (x : Galley) : (s.setGalley x).qe = s.qe := rfl
@[simp] theorem setGalley_packets (s : State) (x : Galley) : (s.setGalley x).packets = s.packets := rfl
@[simp] theorem setGalley_launches (s : State) (x : Galley) : (s.setGalley x).launches = s.launches := rfl
@[simp] theorem setGalley_galleys (s : State) (x : Galley) : (s.setGalley x).galleys = s.galleys.map (fun y => if y.id = x.id then x else y) := rfl
@[simp] theorem setGalley_replays (s : State) (x : Galley) : (s.setGalley x).replays = s.replays := rfl
@[simp] theorem setGalley_patches (s : State) (x : Galley) : (s.setGalley x).patches = s.patches := rfl
@[simp] theorem setGalley_xlats (s : State) (x : Galley) : (s.setGalley x).xlats = s.xlats := rfl
@[simp] theorem setGalley_clusters (s : State) (x : Galley) : (s.setGalley x).clusters = s.clusters := rfl
@[simp] theorem setGalley_cores (s : State) (x : Galley) : (s.setGalley x).cores = s.cores := rfl
@[simp] theorem setGalley_slices (s : State) (x : Galley) : (s.setGalley x).slices = s.slices := rfl
@[simp] theorem setGalley_commands (s : State) (x : Galley) : (s.setGalley x).commands = s.commands := rfl
@[simp] theorem setGalley_icinvs (s : State) (x : Galley) : (s.setGalley x).icinvs = s.icinvs := rfl
@[simp] theorem setGalley_walks (s : State) (x : Galley) : (s.setGalley x).walks = s.walks := rfl
@[simp] theorem setGalley_faults (s : State) (x : Galley) : (s.setGalley x).faults = s.faults := rfl
@[simp] theorem setGalley_relayouts (s : State) (x : Galley) : (s.setGalley x).relayouts = s.relayouts := rfl
@[simp] theorem setGalley_serial (s : State) (x : Galley) : (s.setGalley x).serial = s.serial := rfl
@[simp] theorem setGalley_msix (s : State) (x : Galley) : (s.setGalley x).msix = s.msix := rfl
@[simp] theorem setGalley_hostRet (s : State) (x : Galley) : (s.setGalley x).hostRet = s.hostRet := rfl
@[simp] theorem setGalley_cur (s : State) (x : Galley) : (s.setGalley x).cur = s.cur := rfl
@[simp] theorem setGalley_slot (s : State) (x : Galley) : (s.setGalley x).slot = s.slot := rfl
@[simp] theorem setGalley_issued (s : State) (x : Galley) : (s.setGalley x).issued = s.issued := rfl
@[simp] theorem setGalley_waiting (s : State) (x : Galley) : (s.setGalley x).waiting = s.waiting := rfl
@[simp] theorem setGalley_agenda (s : State) (x : Galley) : (s.setGalley x).agenda = s.agenda := rfl
@[simp] theorem setGalley_choices (s : State) (x : Galley) : (s.setGalley x).choices = s.choices := rfl
@[simp] theorem setGalley_turns (s : State) (x : Galley) : (s.setGalley x).turns = s.turns := rfl
@[simp] theorem setGalley_nextId (s : State) (x : Galley) : (s.setGalley x).nextId = s.nextId := rfl

/-! ### `setCommand` -/

@[simp] theorem setCommand_pkg (s : State) (x : Command) : (s.setCommand x).pkg = s.pkg := rfl
@[simp] theorem setCommand_mem (s : State) (x : Command) : (s.setCommand x).mem = s.mem := rfl
@[simp] theorem setCommand_hostMem (s : State) (x : Command) : (s.setCommand x).hostMem = s.hostMem := rfl
@[simp] theorem setCommand_peerMem (s : State) (x : Command) : (s.setCommand x).peerMem = s.peerMem := rfl
@[simp] theorem setCommand_peerAcc (s : State) (x : Command) : (s.setCommand x).peerAcc = s.peerAcc := rfl
@[simp] theorem setCommand_tenants (s : State) (x : Command) : (s.setCommand x).tenants = s.tenants := rfl
@[simp] theorem setCommand_ctxs (s : State) (x : Command) : (s.setCommand x).ctxs = s.ctxs := rfl
@[simp] theorem setCommand_queues (s : State) (x : Command) : (s.setCommand x).queues = s.queues := rfl
@[simp] theorem setCommand_qe (s : State) (x : Command) : (s.setCommand x).qe = s.qe := rfl
@[simp] theorem setCommand_packets (s : State) (x : Command) : (s.setCommand x).packets = s.packets := rfl
@[simp] theorem setCommand_launches (s : State) (x : Command) : (s.setCommand x).launches = s.launches := rfl
@[simp] theorem setCommand_galleys (s : State) (x : Command) : (s.setCommand x).galleys = s.galleys := rfl
@[simp] theorem setCommand_replays (s : State) (x : Command) : (s.setCommand x).replays = s.replays := rfl
@[simp] theorem setCommand_patches (s : State) (x : Command) : (s.setCommand x).patches = s.patches := rfl
@[simp] theorem setCommand_xlats (s : State) (x : Command) : (s.setCommand x).xlats = s.xlats := rfl
@[simp] theorem setCommand_clusters (s : State) (x : Command) : (s.setCommand x).clusters = s.clusters := rfl
@[simp] theorem setCommand_cores (s : State) (x : Command) : (s.setCommand x).cores = s.cores := rfl
@[simp] theorem setCommand_slices (s : State) (x : Command) : (s.setCommand x).slices = s.slices := rfl
@[simp] theorem setCommand_commands (s : State) (x : Command) : (s.setCommand x).commands = s.commands.map (fun y => if y.id = x.id then x else y) := rfl
@[simp] theorem setCommand_icinvs (s : State) (x : Command) : (s.setCommand x).icinvs = s.icinvs := rfl
@[simp] theorem setCommand_walks (s : State) (x : Command) : (s.setCommand x).walks = s.walks := rfl
@[simp] theorem setCommand_faults (s : State) (x : Command) : (s.setCommand x).faults = s.faults := rfl
@[simp] theorem setCommand_relayouts (s : State) (x : Command) : (s.setCommand x).relayouts = s.relayouts := rfl
@[simp] theorem setCommand_serial (s : State) (x : Command) : (s.setCommand x).serial = s.serial := rfl
@[simp] theorem setCommand_msix (s : State) (x : Command) : (s.setCommand x).msix = s.msix := rfl
@[simp] theorem setCommand_hostRet (s : State) (x : Command) : (s.setCommand x).hostRet = s.hostRet := rfl
@[simp] theorem setCommand_cur (s : State) (x : Command) : (s.setCommand x).cur = s.cur := rfl
@[simp] theorem setCommand_slot (s : State) (x : Command) : (s.setCommand x).slot = s.slot := rfl
@[simp] theorem setCommand_issued (s : State) (x : Command) : (s.setCommand x).issued = s.issued := rfl
@[simp] theorem setCommand_waiting (s : State) (x : Command) : (s.setCommand x).waiting = s.waiting := rfl
@[simp] theorem setCommand_agenda (s : State) (x : Command) : (s.setCommand x).agenda = s.agenda := rfl
@[simp] theorem setCommand_choices (s : State) (x : Command) : (s.setCommand x).choices = s.choices := rfl
@[simp] theorem setCommand_turns (s : State) (x : Command) : (s.setCommand x).turns = s.turns := rfl
@[simp] theorem setCommand_nextId (s : State) (x : Command) : (s.setCommand x).nextId = s.nextId := rfl

/-! ### `setReplay` -/

@[simp] theorem setReplay_pkg (s : State) (x : Replay) : (s.setReplay x).pkg = s.pkg := rfl
@[simp] theorem setReplay_mem (s : State) (x : Replay) : (s.setReplay x).mem = s.mem := rfl
@[simp] theorem setReplay_hostMem (s : State) (x : Replay) : (s.setReplay x).hostMem = s.hostMem := rfl
@[simp] theorem setReplay_peerMem (s : State) (x : Replay) : (s.setReplay x).peerMem = s.peerMem := rfl
@[simp] theorem setReplay_peerAcc (s : State) (x : Replay) : (s.setReplay x).peerAcc = s.peerAcc := rfl
@[simp] theorem setReplay_tenants (s : State) (x : Replay) : (s.setReplay x).tenants = s.tenants := rfl
@[simp] theorem setReplay_ctxs (s : State) (x : Replay) : (s.setReplay x).ctxs = s.ctxs := rfl
@[simp] theorem setReplay_queues (s : State) (x : Replay) : (s.setReplay x).queues = s.queues := rfl
@[simp] theorem setReplay_qe (s : State) (x : Replay) : (s.setReplay x).qe = s.qe := rfl
@[simp] theorem setReplay_packets (s : State) (x : Replay) : (s.setReplay x).packets = s.packets := rfl
@[simp] theorem setReplay_launches (s : State) (x : Replay) : (s.setReplay x).launches = s.launches := rfl
@[simp] theorem setReplay_galleys (s : State) (x : Replay) : (s.setReplay x).galleys = s.galleys := rfl
@[simp] theorem setReplay_replays (s : State) (x : Replay) : (s.setReplay x).replays = s.replays.map (fun y => if y.id = x.id then x else y) := rfl
@[simp] theorem setReplay_patches (s : State) (x : Replay) : (s.setReplay x).patches = s.patches := rfl
@[simp] theorem setReplay_xlats (s : State) (x : Replay) : (s.setReplay x).xlats = s.xlats := rfl
@[simp] theorem setReplay_clusters (s : State) (x : Replay) : (s.setReplay x).clusters = s.clusters := rfl
@[simp] theorem setReplay_cores (s : State) (x : Replay) : (s.setReplay x).cores = s.cores := rfl
@[simp] theorem setReplay_slices (s : State) (x : Replay) : (s.setReplay x).slices = s.slices := rfl
@[simp] theorem setReplay_commands (s : State) (x : Replay) : (s.setReplay x).commands = s.commands := rfl
@[simp] theorem setReplay_icinvs (s : State) (x : Replay) : (s.setReplay x).icinvs = s.icinvs := rfl
@[simp] theorem setReplay_walks (s : State) (x : Replay) : (s.setReplay x).walks = s.walks := rfl
@[simp] theorem setReplay_faults (s : State) (x : Replay) : (s.setReplay x).faults = s.faults := rfl
@[simp] theorem setReplay_relayouts (s : State) (x : Replay) : (s.setReplay x).relayouts = s.relayouts := rfl
@[simp] theorem setReplay_serial (s : State) (x : Replay) : (s.setReplay x).serial = s.serial := rfl
@[simp] theorem setReplay_msix (s : State) (x : Replay) : (s.setReplay x).msix = s.msix := rfl
@[simp] theorem setReplay_hostRet (s : State) (x : Replay) : (s.setReplay x).hostRet = s.hostRet := rfl
@[simp] theorem setReplay_cur (s : State) (x : Replay) : (s.setReplay x).cur = s.cur := rfl
@[simp] theorem setReplay_slot (s : State) (x : Replay) : (s.setReplay x).slot = s.slot := rfl
@[simp] theorem setReplay_issued (s : State) (x : Replay) : (s.setReplay x).issued = s.issued := rfl
@[simp] theorem setReplay_waiting (s : State) (x : Replay) : (s.setReplay x).waiting = s.waiting := rfl
@[simp] theorem setReplay_agenda (s : State) (x : Replay) : (s.setReplay x).agenda = s.agenda := rfl
@[simp] theorem setReplay_choices (s : State) (x : Replay) : (s.setReplay x).choices = s.choices := rfl
@[simp] theorem setReplay_turns (s : State) (x : Replay) : (s.setReplay x).turns = s.turns := rfl
@[simp] theorem setReplay_nextId (s : State) (x : Replay) : (s.setReplay x).nextId = s.nextId := rfl

/-! ### `dropGalley` -/

@[simp] theorem dropGalley_pkg (s : State) (i : Nat) : (s.dropGalley i).pkg = s.pkg := rfl
@[simp] theorem dropGalley_mem (s : State) (i : Nat) : (s.dropGalley i).mem = s.mem := rfl
@[simp] theorem dropGalley_hostMem (s : State) (i : Nat) : (s.dropGalley i).hostMem = s.hostMem := rfl
@[simp] theorem dropGalley_peerMem (s : State) (i : Nat) : (s.dropGalley i).peerMem = s.peerMem := rfl
@[simp] theorem dropGalley_peerAcc (s : State) (i : Nat) : (s.dropGalley i).peerAcc = s.peerAcc := rfl
@[simp] theorem dropGalley_tenants (s : State) (i : Nat) : (s.dropGalley i).tenants = s.tenants := rfl
@[simp] theorem dropGalley_ctxs (s : State) (i : Nat) : (s.dropGalley i).ctxs = s.ctxs := rfl
@[simp] theorem dropGalley_queues (s : State) (i : Nat) : (s.dropGalley i).queues = s.queues := rfl
@[simp] theorem dropGalley_qe (s : State) (i : Nat) : (s.dropGalley i).qe = s.qe := rfl
@[simp] theorem dropGalley_packets (s : State) (i : Nat) : (s.dropGalley i).packets = s.packets := rfl
@[simp] theorem dropGalley_launches (s : State) (i : Nat) : (s.dropGalley i).launches = s.launches := rfl
@[simp] theorem dropGalley_galleys (s : State) (i : Nat) : (s.dropGalley i).galleys = s.galleys.filter (fun g => g.id != i) := rfl
@[simp] theorem dropGalley_replays (s : State) (i : Nat) : (s.dropGalley i).replays = s.replays := rfl
@[simp] theorem dropGalley_patches (s : State) (i : Nat) : (s.dropGalley i).patches = s.patches := rfl
@[simp] theorem dropGalley_xlats (s : State) (i : Nat) : (s.dropGalley i).xlats = s.xlats := rfl
@[simp] theorem dropGalley_clusters (s : State) (i : Nat) : (s.dropGalley i).clusters = s.clusters := rfl
@[simp] theorem dropGalley_cores (s : State) (i : Nat) : (s.dropGalley i).cores = s.cores := rfl
@[simp] theorem dropGalley_slices (s : State) (i : Nat) : (s.dropGalley i).slices = s.slices := rfl
@[simp] theorem dropGalley_commands (s : State) (i : Nat) : (s.dropGalley i).commands = s.commands := rfl
@[simp] theorem dropGalley_icinvs (s : State) (i : Nat) : (s.dropGalley i).icinvs = s.icinvs := rfl
@[simp] theorem dropGalley_walks (s : State) (i : Nat) : (s.dropGalley i).walks = s.walks := rfl
@[simp] theorem dropGalley_faults (s : State) (i : Nat) : (s.dropGalley i).faults = s.faults := rfl
@[simp] theorem dropGalley_relayouts (s : State) (i : Nat) : (s.dropGalley i).relayouts = s.relayouts := rfl
@[simp] theorem dropGalley_serial (s : State) (i : Nat) : (s.dropGalley i).serial = s.serial := rfl
@[simp] theorem dropGalley_msix (s : State) (i : Nat) : (s.dropGalley i).msix = s.msix := rfl
@[simp] theorem dropGalley_hostRet (s : State) (i : Nat) : (s.dropGalley i).hostRet = s.hostRet := rfl
@[simp] theorem dropGalley_cur (s : State) (i : Nat) : (s.dropGalley i).cur = s.cur := rfl
@[simp] theorem dropGalley_slot (s : State) (i : Nat) : (s.dropGalley i).slot = s.slot := rfl
@[simp] theorem dropGalley_issued (s : State) (i : Nat) : (s.dropGalley i).issued = s.issued := rfl
@[simp] theorem dropGalley_waiting (s : State) (i : Nat) : (s.dropGalley i).waiting = s.waiting := rfl
@[simp] theorem dropGalley_agenda (s : State) (i : Nat) : (s.dropGalley i).agenda = s.agenda := rfl
@[simp] theorem dropGalley_choices (s : State) (i : Nat) : (s.dropGalley i).choices = s.choices := rfl
@[simp] theorem dropGalley_turns (s : State) (i : Nat) : (s.dropGalley i).turns = s.turns := rfl
@[simp] theorem dropGalley_nextId (s : State) (i : Nat) : (s.dropGalley i).nextId = s.nextId := rfl

/-! ### `dropCommand` -/

@[simp] theorem dropCommand_pkg (s : State) (i : Nat) : (s.dropCommand i).pkg = s.pkg := rfl
@[simp] theorem dropCommand_mem (s : State) (i : Nat) : (s.dropCommand i).mem = s.mem := rfl
@[simp] theorem dropCommand_hostMem (s : State) (i : Nat) : (s.dropCommand i).hostMem = s.hostMem := rfl
@[simp] theorem dropCommand_peerMem (s : State) (i : Nat) : (s.dropCommand i).peerMem = s.peerMem := rfl
@[simp] theorem dropCommand_peerAcc (s : State) (i : Nat) : (s.dropCommand i).peerAcc = s.peerAcc := rfl
@[simp] theorem dropCommand_tenants (s : State) (i : Nat) : (s.dropCommand i).tenants = s.tenants := rfl
@[simp] theorem dropCommand_ctxs (s : State) (i : Nat) : (s.dropCommand i).ctxs = s.ctxs := rfl
@[simp] theorem dropCommand_queues (s : State) (i : Nat) : (s.dropCommand i).queues = s.queues := rfl
@[simp] theorem dropCommand_qe (s : State) (i : Nat) : (s.dropCommand i).qe = s.qe := rfl
@[simp] theorem dropCommand_packets (s : State) (i : Nat) : (s.dropCommand i).packets = s.packets := rfl
@[simp] theorem dropCommand_launches (s : State) (i : Nat) : (s.dropCommand i).launches = s.launches := rfl
@[simp] theorem dropCommand_galleys (s : State) (i : Nat) : (s.dropCommand i).galleys = s.galleys := rfl
@[simp] theorem dropCommand_replays (s : State) (i : Nat) : (s.dropCommand i).replays = s.replays := rfl
@[simp] theorem dropCommand_patches (s : State) (i : Nat) : (s.dropCommand i).patches = s.patches := rfl
@[simp] theorem dropCommand_xlats (s : State) (i : Nat) : (s.dropCommand i).xlats = s.xlats := rfl
@[simp] theorem dropCommand_clusters (s : State) (i : Nat) : (s.dropCommand i).clusters = s.clusters := rfl
@[simp] theorem dropCommand_cores (s : State) (i : Nat) : (s.dropCommand i).cores = s.cores := rfl
@[simp] theorem dropCommand_slices (s : State) (i : Nat) : (s.dropCommand i).slices = s.slices := rfl
@[simp] theorem dropCommand_commands (s : State) (i : Nat) : (s.dropCommand i).commands = s.commands.filter (fun c => c.id != i) := rfl
@[simp] theorem dropCommand_icinvs (s : State) (i : Nat) : (s.dropCommand i).icinvs = s.icinvs := rfl
@[simp] theorem dropCommand_walks (s : State) (i : Nat) : (s.dropCommand i).walks = s.walks := rfl
@[simp] theorem dropCommand_faults (s : State) (i : Nat) : (s.dropCommand i).faults = s.faults := rfl
@[simp] theorem dropCommand_relayouts (s : State) (i : Nat) : (s.dropCommand i).relayouts = s.relayouts := rfl
@[simp] theorem dropCommand_serial (s : State) (i : Nat) : (s.dropCommand i).serial = s.serial := rfl
@[simp] theorem dropCommand_msix (s : State) (i : Nat) : (s.dropCommand i).msix = s.msix := rfl
@[simp] theorem dropCommand_hostRet (s : State) (i : Nat) : (s.dropCommand i).hostRet = s.hostRet := rfl
@[simp] theorem dropCommand_cur (s : State) (i : Nat) : (s.dropCommand i).cur = s.cur := rfl
@[simp] theorem dropCommand_slot (s : State) (i : Nat) : (s.dropCommand i).slot = s.slot := rfl
@[simp] theorem dropCommand_issued (s : State) (i : Nat) : (s.dropCommand i).issued = s.issued := rfl
@[simp] theorem dropCommand_waiting (s : State) (i : Nat) : (s.dropCommand i).waiting = s.waiting := rfl
@[simp] theorem dropCommand_agenda (s : State) (i : Nat) : (s.dropCommand i).agenda = s.agenda := rfl
@[simp] theorem dropCommand_choices (s : State) (i : Nat) : (s.dropCommand i).choices = s.choices := rfl
@[simp] theorem dropCommand_turns (s : State) (i : Nat) : (s.dropCommand i).turns = s.turns := rfl
@[simp] theorem dropCommand_nextId (s : State) (i : Nat) : (s.dropCommand i).nextId = s.nextId := rfl

/-! ### `sendMsi` -/

@[simp] theorem sendMsi_pkg (s : State) (fn vec : Nat) : (s.sendMsi fn vec).pkg = s.pkg := by
  unfold sendMsi
  by_cases h : vec < (if fn = 0 then 16 else 64) <;> simp [h]
@[simp] theorem sendMsi_mem (s : State) (fn vec : Nat) : (s.sendMsi fn vec).mem = s.mem := by
  unfold sendMsi
  by_cases h : vec < (if fn = 0 then 16 else 64) <;> simp [h]
@[simp] theorem sendMsi_hostMem (s : State) (fn vec : Nat) : (s.sendMsi fn vec).hostMem = s.hostMem := by
  unfold sendMsi
  by_cases h : vec < (if fn = 0 then 16 else 64) <;> simp [h]
@[simp] theorem sendMsi_peerMem (s : State) (fn vec : Nat) : (s.sendMsi fn vec).peerMem = s.peerMem := by
  unfold sendMsi
  by_cases h : vec < (if fn = 0 then 16 else 64) <;> simp [h]
@[simp] theorem sendMsi_peerAcc (s : State) (fn vec : Nat) : (s.sendMsi fn vec).peerAcc = s.peerAcc := by
  unfold sendMsi
  by_cases h : vec < (if fn = 0 then 16 else 64) <;> simp [h]
@[simp] theorem sendMsi_tenants (s : State) (fn vec : Nat) : (s.sendMsi fn vec).tenants = s.tenants := by
  unfold sendMsi
  by_cases h : vec < (if fn = 0 then 16 else 64) <;> simp [h]
@[simp] theorem sendMsi_ctxs (s : State) (fn vec : Nat) : (s.sendMsi fn vec).ctxs = s.ctxs := by
  unfold sendMsi
  by_cases h : vec < (if fn = 0 then 16 else 64) <;> simp [h]
@[simp] theorem sendMsi_queues (s : State) (fn vec : Nat) : (s.sendMsi fn vec).queues = s.queues := by
  unfold sendMsi
  by_cases h : vec < (if fn = 0 then 16 else 64) <;> simp [h]
@[simp] theorem sendMsi_qe (s : State) (fn vec : Nat) : (s.sendMsi fn vec).qe = s.qe := by
  unfold sendMsi
  by_cases h : vec < (if fn = 0 then 16 else 64) <;> simp [h]
@[simp] theorem sendMsi_packets (s : State) (fn vec : Nat) : (s.sendMsi fn vec).packets = s.packets := by
  unfold sendMsi
  by_cases h : vec < (if fn = 0 then 16 else 64) <;> simp [h]
@[simp] theorem sendMsi_launches (s : State) (fn vec : Nat) : (s.sendMsi fn vec).launches = s.launches := by
  unfold sendMsi
  by_cases h : vec < (if fn = 0 then 16 else 64) <;> simp [h]
@[simp] theorem sendMsi_galleys (s : State) (fn vec : Nat) : (s.sendMsi fn vec).galleys = s.galleys := by
  unfold sendMsi
  by_cases h : vec < (if fn = 0 then 16 else 64) <;> simp [h]
@[simp] theorem sendMsi_replays (s : State) (fn vec : Nat) : (s.sendMsi fn vec).replays = s.replays := by
  unfold sendMsi
  by_cases h : vec < (if fn = 0 then 16 else 64) <;> simp [h]
@[simp] theorem sendMsi_patches (s : State) (fn vec : Nat) : (s.sendMsi fn vec).patches = s.patches := by
  unfold sendMsi
  by_cases h : vec < (if fn = 0 then 16 else 64) <;> simp [h]
@[simp] theorem sendMsi_xlats (s : State) (fn vec : Nat) : (s.sendMsi fn vec).xlats = s.xlats := by
  unfold sendMsi
  by_cases h : vec < (if fn = 0 then 16 else 64) <;> simp [h]
@[simp] theorem sendMsi_clusters (s : State) (fn vec : Nat) : (s.sendMsi fn vec).clusters = s.clusters := by
  unfold sendMsi
  by_cases h : vec < (if fn = 0 then 16 else 64) <;> simp [h]
@[simp] theorem sendMsi_cores (s : State) (fn vec : Nat) : (s.sendMsi fn vec).cores = s.cores := by
  unfold sendMsi
  by_cases h : vec < (if fn = 0 then 16 else 64) <;> simp [h]
@[simp] theorem sendMsi_slices (s : State) (fn vec : Nat) : (s.sendMsi fn vec).slices = s.slices := by
  unfold sendMsi
  by_cases h : vec < (if fn = 0 then 16 else 64) <;> simp [h]
@[simp] theorem sendMsi_commands (s : State) (fn vec : Nat) : (s.sendMsi fn vec).commands = s.commands := by
  unfold sendMsi
  by_cases h : vec < (if fn = 0 then 16 else 64) <;> simp [h]
@[simp] theorem sendMsi_icinvs (s : State) (fn vec : Nat) : (s.sendMsi fn vec).icinvs = s.icinvs := by
  unfold sendMsi
  by_cases h : vec < (if fn = 0 then 16 else 64) <;> simp [h]
@[simp] theorem sendMsi_walks (s : State) (fn vec : Nat) : (s.sendMsi fn vec).walks = s.walks := by
  unfold sendMsi
  by_cases h : vec < (if fn = 0 then 16 else 64) <;> simp [h]
@[simp] theorem sendMsi_faults (s : State) (fn vec : Nat) : (s.sendMsi fn vec).faults = s.faults := by
  unfold sendMsi
  by_cases h : vec < (if fn = 0 then 16 else 64) <;> simp [h]
@[simp] theorem sendMsi_relayouts (s : State) (fn vec : Nat) : (s.sendMsi fn vec).relayouts = s.relayouts := by
  unfold sendMsi
  by_cases h : vec < (if fn = 0 then 16 else 64) <;> simp [h]
@[simp] theorem sendMsi_serial (s : State) (fn vec : Nat) : (s.sendMsi fn vec).serial = s.serial := by
  unfold sendMsi
  by_cases h : vec < (if fn = 0 then 16 else 64) <;> simp [h]
@[simp] theorem sendMsi_msix (s : State) (fn vec : Nat) : (s.sendMsi fn vec).msix = if vec < (if fn = 0 then 16 else 64) then s.msix ++ [(fn, vec)] else s.msix := by
  unfold sendMsi
  by_cases h : vec < (if fn = 0 then 16 else 64) <;> simp [h]
@[simp] theorem sendMsi_hostRet (s : State) (fn vec : Nat) : (s.sendMsi fn vec).hostRet = s.hostRet := by
  unfold sendMsi
  by_cases h : vec < (if fn = 0 then 16 else 64) <;> simp [h]
@[simp] theorem sendMsi_cur (s : State) (fn vec : Nat) : (s.sendMsi fn vec).cur = s.cur := by
  unfold sendMsi
  by_cases h : vec < (if fn = 0 then 16 else 64) <;> simp [h]
@[simp] theorem sendMsi_slot (s : State) (fn vec : Nat) : (s.sendMsi fn vec).slot = s.slot := by
  unfold sendMsi
  by_cases h : vec < (if fn = 0 then 16 else 64) <;> simp [h]
@[simp] theorem sendMsi_issued (s : State) (fn vec : Nat) : (s.sendMsi fn vec).issued = s.issued := by
  unfold sendMsi
  by_cases h : vec < (if fn = 0 then 16 else 64) <;> simp [h]
@[simp] theorem sendMsi_waiting (s : State) (fn vec : Nat) : (s.sendMsi fn vec).waiting = s.waiting := by
  unfold sendMsi
  by_cases h : vec < (if fn = 0 then 16 else 64) <;> simp [h]
@[simp] theorem sendMsi_agenda (s : State) (fn vec : Nat) : (s.sendMsi fn vec).agenda = s.agenda := by
  unfold sendMsi
  by_cases h : vec < (if fn = 0 then 16 else 64) <;> simp [h]
@[simp] theorem sendMsi_choices (s : State) (fn vec : Nat) : (s.sendMsi fn vec).choices = s.choices := by
  unfold sendMsi
  by_cases h : vec < (if fn = 0 then 16 else 64) <;> simp [h]
@[simp] theorem sendMsi_turns (s : State) (fn vec : Nat) : (s.sendMsi fn vec).turns = s.turns := by
  unfold sendMsi
  by_cases h : vec < (if fn = 0 then 16 else 64) <;> simp [h]
@[simp] theorem sendMsi_nextId (s : State) (fn vec : Nat) : (s.sendMsi fn vec).nextId = s.nextId := by
  unfold sendMsi
  by_cases h : vec < (if fn = 0 then 16 else 64) <;> simp [h]

/-! ### `setGroup` -/

@[simp] theorem setGroup_pkg (s : State) (l j : Nat) (x : GroupSt) : (s.setGroup l j x).pkg = s.pkg := by
  unfold setGroup; split <;> rfl
@[simp] theorem setGroup_mem (s : State) (l j : Nat) (x : GroupSt) : (s.setGroup l j x).mem = s.mem := by
  unfold setGroup; split <;> rfl
@[simp] theorem setGroup_hostMem (s : State) (l j : Nat) (x : GroupSt) : (s.setGroup l j x).hostMem = s.hostMem := by
  unfold setGroup; split <;> rfl
@[simp] theorem setGroup_peerMem (s : State) (l j : Nat) (x : GroupSt) : (s.setGroup l j x).peerMem = s.peerMem := by
  unfold setGroup; split <;> rfl
@[simp] theorem setGroup_peerAcc (s : State) (l j : Nat) (x : GroupSt) : (s.setGroup l j x).peerAcc = s.peerAcc := by
  unfold setGroup; split <;> rfl
@[simp] theorem setGroup_tenants (s : State) (l j : Nat) (x : GroupSt) : (s.setGroup l j x).tenants = s.tenants := by
  unfold setGroup; split <;> rfl
@[simp] theorem setGroup_ctxs (s : State) (l j : Nat) (x : GroupSt) : (s.setGroup l j x).ctxs = s.ctxs := by
  unfold setGroup; split <;> rfl
@[simp] theorem setGroup_queues (s : State) (l j : Nat) (x : GroupSt) : (s.setGroup l j x).queues = s.queues := by
  unfold setGroup; split <;> rfl
@[simp] theorem setGroup_qe (s : State) (l j : Nat) (x : GroupSt) : (s.setGroup l j x).qe = s.qe := by
  unfold setGroup; split <;> rfl
@[simp] theorem setGroup_packets (s : State) (l j : Nat) (x : GroupSt) : (s.setGroup l j x).packets = s.packets := by
  unfold setGroup; split <;> rfl
@[simp] theorem setGroup_galleys (s : State) (l j : Nat) (x : GroupSt) : (s.setGroup l j x).galleys = s.galleys := by
  unfold setGroup; split <;> rfl
@[simp] theorem setGroup_replays (s : State) (l j : Nat) (x : GroupSt) : (s.setGroup l j x).replays = s.replays := by
  unfold setGroup; split <;> rfl
@[simp] theorem setGroup_patches (s : State) (l j : Nat) (x : GroupSt) : (s.setGroup l j x).patches = s.patches := by
  unfold setGroup; split <;> rfl
@[simp] theorem setGroup_xlats (s : State) (l j : Nat) (x : GroupSt) : (s.setGroup l j x).xlats = s.xlats := by
  unfold setGroup; split <;> rfl
@[simp] theorem setGroup_clusters (s : State) (l j : Nat) (x : GroupSt) : (s.setGroup l j x).clusters = s.clusters := by
  unfold setGroup; split <;> rfl
@[simp] theorem setGroup_cores (s : State) (l j : Nat) (x : GroupSt) : (s.setGroup l j x).cores = s.cores := by
  unfold setGroup; split <;> rfl
@[simp] theorem setGroup_slices (s : State) (l j : Nat) (x : GroupSt) : (s.setGroup l j x).slices = s.slices := by
  unfold setGroup; split <;> rfl
@[simp] theorem setGroup_commands (s : State) (l j : Nat) (x : GroupSt) : (s.setGroup l j x).commands = s.commands := by
  unfold setGroup; split <;> rfl
@[simp] theorem setGroup_icinvs (s : State) (l j : Nat) (x : GroupSt) : (s.setGroup l j x).icinvs = s.icinvs := by
  unfold setGroup; split <;> rfl
@[simp] theorem setGroup_walks (s : State) (l j : Nat) (x : GroupSt) : (s.setGroup l j x).walks = s.walks := by
  unfold setGroup; split <;> rfl
@[simp] theorem setGroup_faults (s : State) (l j : Nat) (x : GroupSt) : (s.setGroup l j x).faults = s.faults := by
  unfold setGroup; split <;> rfl
@[simp] theorem setGroup_relayouts (s : State) (l j : Nat) (x : GroupSt) : (s.setGroup l j x).relayouts = s.relayouts := by
  unfold setGroup; split <;> rfl
@[simp] theorem setGroup_serial (s : State) (l j : Nat) (x : GroupSt) : (s.setGroup l j x).serial = s.serial := by
  unfold setGroup; split <;> rfl
@[simp] theorem setGroup_msix (s : State) (l j : Nat) (x : GroupSt) : (s.setGroup l j x).msix = s.msix := by
  unfold setGroup; split <;> rfl
@[simp] theorem setGroup_hostRet (s : State) (l j : Nat) (x : GroupSt) : (s.setGroup l j x).hostRet = s.hostRet := by
  unfold setGroup; split <;> rfl
@[simp] theorem setGroup_cur (s : State) (l j : Nat) (x : GroupSt) : (s.setGroup l j x).cur = s.cur := by
  unfold setGroup; split <;> rfl
@[simp] theorem setGroup_slot (s : State) (l j : Nat) (x : GroupSt) : (s.setGroup l j x).slot = s.slot := by
  unfold setGroup; split <;> rfl
@[simp] theorem setGroup_issued (s : State) (l j : Nat) (x : GroupSt) : (s.setGroup l j x).issued = s.issued := by
  unfold setGroup; split <;> rfl
@[simp] theorem setGroup_waiting (s : State) (l j : Nat) (x : GroupSt) : (s.setGroup l j x).waiting = s.waiting := by
  unfold setGroup; split <;> rfl
@[simp] theorem setGroup_agenda (s : State) (l j : Nat) (x : GroupSt) : (s.setGroup l j x).agenda = s.agenda := by
  unfold setGroup; split <;> rfl
@[simp] theorem setGroup_choices (s : State) (l j : Nat) (x : GroupSt) : (s.setGroup l j x).choices = s.choices := by
  unfold setGroup; split <;> rfl
@[simp] theorem setGroup_turns (s : State) (l j : Nat) (x : GroupSt) : (s.setGroup l j x).turns = s.turns := by
  unfold setGroup; split <;> rfl
@[simp] theorem setGroup_nextId (s : State) (l j : Nat) (x : GroupSt) : (s.setGroup l j x).nextId = s.nextId := by
  unfold setGroup; split <;> rfl

/-! ### `fresh` and `choose` -/

@[simp] theorem fresh_pkg (s : State) : s.fresh.2.pkg = s.pkg := rfl
@[simp] theorem fresh_mem (s : State) : s.fresh.2.mem = s.mem := rfl
@[simp] theorem fresh_hostMem (s : State) : s.fresh.2.hostMem = s.hostMem := rfl
@[simp] theorem fresh_peerMem (s : State) : s.fresh.2.peerMem = s.peerMem := rfl
@[simp] theorem fresh_peerAcc (s : State) : s.fresh.2.peerAcc = s.peerAcc := rfl
@[simp] theorem fresh_tenants (s : State) : s.fresh.2.tenants = s.tenants := rfl
@[simp] theorem fresh_ctxs (s : State) : s.fresh.2.ctxs = s.ctxs := rfl
@[simp] theorem fresh_queues (s : State) : s.fresh.2.queues = s.queues := rfl
@[simp] theorem fresh_qe (s : State) : s.fresh.2.qe = s.qe := rfl
@[simp] theorem fresh_packets (s : State) : s.fresh.2.packets = s.packets := rfl
@[simp] theorem fresh_launches (s : State) : s.fresh.2.launches = s.launches := rfl
@[simp] theorem fresh_galleys (s : State) : s.fresh.2.galleys = s.galleys := rfl
@[simp] theorem fresh_replays (s : State) : s.fresh.2.replays = s.replays := rfl
@[simp] theorem fresh_patches (s : State) : s.fresh.2.patches = s.patches := rfl
@[simp] theorem fresh_xlats (s : State) : s.fresh.2.xlats = s.xlats := rfl
@[simp] theorem fresh_clusters (s : State) : s.fresh.2.clusters = s.clusters := rfl
@[simp] theorem fresh_cores (s : State) : s.fresh.2.cores = s.cores := rfl
@[simp] theorem fresh_slices (s : State) : s.fresh.2.slices = s.slices := rfl
@[simp] theorem fresh_commands (s : State) : s.fresh.2.commands = s.commands := rfl
@[simp] theorem fresh_icinvs (s : State) : s.fresh.2.icinvs = s.icinvs := rfl
@[simp] theorem fresh_walks (s : State) : s.fresh.2.walks = s.walks := rfl
@[simp] theorem fresh_faults (s : State) : s.fresh.2.faults = s.faults := rfl
@[simp] theorem fresh_relayouts (s : State) : s.fresh.2.relayouts = s.relayouts := rfl
@[simp] theorem fresh_serial (s : State) : s.fresh.2.serial = s.serial := rfl
@[simp] theorem fresh_msix (s : State) : s.fresh.2.msix = s.msix := rfl
@[simp] theorem fresh_hostRet (s : State) : s.fresh.2.hostRet = s.hostRet := rfl
@[simp] theorem fresh_cur (s : State) : s.fresh.2.cur = s.cur := rfl
@[simp] theorem fresh_slot (s : State) : s.fresh.2.slot = s.slot := rfl
@[simp] theorem fresh_issued (s : State) : s.fresh.2.issued = s.issued := rfl
@[simp] theorem fresh_waiting (s : State) : s.fresh.2.waiting = s.waiting := rfl
@[simp] theorem fresh_agenda (s : State) : s.fresh.2.agenda = s.agenda := rfl
@[simp] theorem fresh_choices (s : State) : s.fresh.2.choices = s.choices := rfl
@[simp] theorem fresh_turns (s : State) : s.fresh.2.turns = s.turns := rfl
@[simp] theorem choose_pkg (s : State) (n : Nat) : (s.choose n).2.pkg = s.pkg := rfl
@[simp] theorem choose_mem (s : State) (n : Nat) : (s.choose n).2.mem = s.mem := rfl
@[simp] theorem choose_hostMem (s : State) (n : Nat) : (s.choose n).2.hostMem = s.hostMem := rfl
@[simp] theorem choose_peerMem (s : State) (n : Nat) : (s.choose n).2.peerMem = s.peerMem := rfl
@[simp] theorem choose_peerAcc (s : State) (n : Nat) : (s.choose n).2.peerAcc = s.peerAcc := rfl
@[simp] theorem choose_tenants (s : State) (n : Nat) : (s.choose n).2.tenants = s.tenants := rfl
@[simp] theorem choose_ctxs (s : State) (n : Nat) : (s.choose n).2.ctxs = s.ctxs := rfl
@[simp] theorem choose_queues (s : State) (n : Nat) : (s.choose n).2.queues = s.queues := rfl
@[simp] theorem choose_qe (s : State) (n : Nat) : (s.choose n).2.qe = s.qe := rfl
@[simp] theorem choose_packets (s : State) (n : Nat) : (s.choose n).2.packets = s.packets := rfl
@[simp] theorem choose_launches (s : State) (n : Nat) : (s.choose n).2.launches = s.launches := rfl
@[simp] theorem choose_galleys (s : State) (n : Nat) : (s.choose n).2.galleys = s.galleys := rfl
@[simp] theorem choose_replays (s : State) (n : Nat) : (s.choose n).2.replays = s.replays := rfl
@[simp] theorem choose_patches (s : State) (n : Nat) : (s.choose n).2.patches = s.patches := rfl
@[simp] theorem choose_xlats (s : State) (n : Nat) : (s.choose n).2.xlats = s.xlats := rfl
@[simp] theorem choose_clusters (s : State) (n : Nat) : (s.choose n).2.clusters = s.clusters := rfl
@[simp] theorem choose_cores (s : State) (n : Nat) : (s.choose n).2.cores = s.cores := rfl
@[simp] theorem choose_slices (s : State) (n : Nat) : (s.choose n).2.slices = s.slices := rfl
@[simp] theorem choose_commands (s : State) (n : Nat) : (s.choose n).2.commands = s.commands := rfl
@[simp] theorem choose_icinvs (s : State) (n : Nat) : (s.choose n).2.icinvs = s.icinvs := rfl
@[simp] theorem choose_walks (s : State) (n : Nat) : (s.choose n).2.walks = s.walks := rfl
@[simp] theorem choose_faults (s : State) (n : Nat) : (s.choose n).2.faults = s.faults := rfl
@[simp] theorem choose_relayouts (s : State) (n : Nat) : (s.choose n).2.relayouts = s.relayouts := rfl
@[simp] theorem choose_serial (s : State) (n : Nat) : (s.choose n).2.serial = s.serial := rfl
@[simp] theorem choose_msix (s : State) (n : Nat) : (s.choose n).2.msix = s.msix := rfl
@[simp] theorem choose_hostRet (s : State) (n : Nat) : (s.choose n).2.hostRet = s.hostRet := rfl
@[simp] theorem choose_cur (s : State) (n : Nat) : (s.choose n).2.cur = s.cur := rfl
@[simp] theorem choose_slot (s : State) (n : Nat) : (s.choose n).2.slot = s.slot := rfl
@[simp] theorem choose_issued (s : State) (n : Nat) : (s.choose n).2.issued = s.issued := rfl
@[simp] theorem choose_waiting (s : State) (n : Nat) : (s.choose n).2.waiting = s.waiting := rfl
@[simp] theorem choose_agenda (s : State) (n : Nat) : (s.choose n).2.agenda = s.agenda := rfl
@[simp] theorem choose_turns (s : State) (n : Nat) : (s.choose n).2.turns = s.turns := rfl
@[simp] theorem choose_nextId (s : State) (n : Nat) : (s.choose n).2.nextId = s.nextId := rfl

end Sys2Proof.Machine.State
end

