-- ==== Sys2Proof/Laws/Units.lean ====
section
/-! SUPPORT. What the shared operations of an instruction do: running on the executing unit, results settling and taking
value numbers, and lane-wise computation. -/

namespace Sys2Proof.Machine

open Sys2Proof

theorem onUnit_runs {s : State} {e : Exe} (h : exe? s = some e) (f : Exe → State) : onUnit s f = .next (f e) := by
  simp [onUnit, h]

/-- Where no unit executes, an instruction of one does not occur. -/
theorem onUnit_none {s : State} (h : exe? s = none) (f : Exe → State) : onUnit s f = .next s := by
  simp [onUnit, h]

@[simp] theorem Exe.settle_ty (e : Exe) (v : TVal) : (e.settle v).ty = v.ty := by
  unfold Exe.settle; split <;> rfl

/-- With no lane aborted a result is kept as it is. -/
theorem Exe.settle_all (e : Exe) (v : TVal) (h : e.act = e.th.mask) : e.settle v = v := by simp [Exe.settle, h]

/-- No value holds more than 128 bits in a lane. -/
theorem Val.lane_lt (ty : Ty) (g j l : Nat) (v : Val) : v.lane ty g j l < 2 ^ 128 := by
  cases v with
  | u x => exact x.isLt
  | a b st =>
    refine Nat.lt_of_lt_of_le (Nat.mod_lt _ (Nat.two_pow_pos _)) (Nat.pow_le_pow_right (by decide) ?_)
    cases ty <;> decide
  | cmp p t b st w f => simp only [Val.lane, Word.ofBool]; split <;> split <;> decide
  | s ls => exact (ls.getD l 0).isLt

theorem Exe.lane_lt (e : Exe) (v : TVal) (l : Nat) : e.lane v l < 2 ^ 128 := Val.lane_lt _ _ _ _ _

/-- A class U value of a number. -/
@[simp] theorem Exe.lane_ofNat (e : Exe) (ty : Ty) (n l : Nat) : e.lane ⟨ty, .ofNat n⟩ l = n % 2 ^ 128 := by
  simp [Exe.lane, Val.lane, Val.ofNat]

/-- A class S value given lane by lane. -/
theorem Exe.lane_spread (e : Exe) (ty : Ty) (f : Nat → BitVec 128) {l : Nat} (h : l < e.l.g) :
    e.lane ⟨ty, .s ((List.range e.l.g).map f)⟩ l = (f l).toNat := by
  simp [Exe.lane, Val.lane, List.getD, h]

/-- Settling changes no active lane. -/
theorem Exe.lane_settle (e : Exe) (v : TVal) {l : Nat} (h : l < e.l.g) (ha : laneIn e.act l = true) :
    e.lane (e.settle v) l = e.lane v l := by
  unfold Exe.settle
  split
  · rfl
  · rw [Exe.lane_spread _ _ _ h, if_pos ha, BitVec.toNat_ofNat]
    exact Nat.mod_eq_of_lt (e.lane_lt v l)

/-- A unit of Laold words defines its results in its thread alone. -/
theorem Exe.define_laold {e : Exe} (h : e.th.native = none) (s : State) (w : Main) (vs : List TVal) :
    e.define s w vs = e.put s (e.th.after (vs.map e.settle)) := by
  unfold Exe.define
  rw [h]
  cases w.nat <;> rfl

theorem Exe.put_next {s : State} {e : Exe} {i : Instr} {w : Main} {vs : List TVal} (h : e.th.native = none)
    (hx : exec i s = .next (e.define s w vs)) : Completes s e i s (vs.map e.settle) := by
  rw [Completes, hx, Exe.define_laold h]

/-- An instruction that defines one result gives it, settled, in every active lane. -/
theorem gives_define {s : State} {e : Exe} {i : Instr} {w : Main} {v : TVal} {f : Nat → Nat} (h : e.th.native = none)
    (hx : exec i s = .next (e.define s w [v]))
    (hf : ∀ l, l < e.l.g → laneIn e.act l = true → e.lane v l = f l % 2 ^ 128) : Gives s e i v.ty f :=
  ⟨e.settle v, Exe.put_next h hx, e.settle_ty v, fun l hl ha => by rw [Exe.lane_settle e v hl ha, hf l hl ha]⟩

theorem gives2_define {s : State} {e : Exe} {i : Instr} {w : Main} {v v' : TVal} {f k : Nat → Nat} (h : e.th.native = none)
    (hx : exec i s = .next (e.define s w [v, v']))
    (hf : ∀ l, l < e.l.g → laneIn e.act l = true → e.lane v l = f l % 2 ^ 128 ∧ e.lane v' l = k l % 2 ^ 128) :
    Gives2 s e i v.ty v'.ty f k :=
  ⟨e.settle v, e.settle v', Exe.put_next h hx, e.settle_ty v, e.settle_ty v', fun l hl ha => by
    rw [Exe.lane_settle e v hl ha, Exe.lane_settle e v' hl ha]; exact hf l hl ha⟩

/-- A class U value is the same in every lane. -/
theorem Exe.lane_uniform (e : Exe) (v : TVal) (h : v.val.cls = 0) (l l' : Nat) : e.lane v l = e.lane v l' := by
  obtain ⟨ty, v⟩ := v
  cases v <;> simp_all [Val.cls, Exe.lane, Val.lane]

/-- Lane-wise computation on a leaf: each result is its function of the operands in every active lane. -/
theorem Exe.lanewise_leaf {s : State} {e : Exe} (h1 : e.g.count = 1) (w : Main) (ty : Ty) (xs : List TVal)
    (f : List Nat → Nat) :
    ∃ v : TVal, e.lanewise s w [ty] xs [f] = e.define s w [v] ∧ v.ty = ty ∧
      ∀ l, l < e.l.g → laneIn e.act l = true → e.lane v l = f (xs.map (fun x => e.lane x l)) % 2 ^ 128 := by
  unfold Exe.lanewise
  split
  next hu =>
    refine ⟨⟨ty, .ofNat (f (xs.map (fun x => e.lane x 0)))⟩, rfl, rfl, fun l _ _ => ?_⟩
    rw [Exe.lane_ofNat]
    congr 2
    refine List.map_congr_left fun x hx => ?_
    exact Exe.lane_uniform e x (by simpa using List.all_eq_true.mp hu x hx) 0 l
  next =>
    have hm : e.multi = false := by simp [Exe.multi, h1]
    rw [hm]
    refine ⟨⟨ty, e.spread xs f⟩, rfl, rfl, fun l hl ha => ?_⟩
    rw [Exe.spread, Exe.lane_spread e ty _ hl, if_pos ha, BitVec.toNat_ofNat]

theorem Exe.lanewise2_leaf {s : State} {e : Exe} (h1 : e.g.count = 1) (w : Main) (ty ty' : Ty) (xs : List TVal)
    (f k : List Nat → Nat) :
    ∃ v v' : TVal, e.lanewise s w [ty, ty'] xs [f, k] = e.define s w [v, v'] ∧ v.ty = ty ∧ v'.ty = ty' ∧
      ∀ l, l < e.l.g → laneIn e.act l = true → e.lane v l = f (xs.map (fun x => e.lane x l)) % 2 ^ 128 ∧
        e.lane v' l = k (xs.map (fun x => e.lane x l)) % 2 ^ 128 := by
  unfold Exe.lanewise
  split
  next hu =>
    refine ⟨⟨ty, .ofNat (f (xs.map (fun x => e.lane x 0)))⟩, ⟨ty', .ofNat (k (xs.map (fun x => e.lane x 0)))⟩, rfl, rfl, rfl,
      fun l _ _ => ?_⟩
    have : xs.map (fun x => e.lane x 0) = xs.map (fun x => e.lane x l) :=
      List.map_congr_left fun x hx => Exe.lane_uniform e x (by simpa using List.all_eq_true.mp hu x hx) 0 l
    simp [this]
  next =>
    have hm : e.multi = false := by simp [Exe.multi, h1]
    rw [hm]
    refine ⟨⟨ty, e.spread xs f⟩, ⟨ty', e.spread xs k⟩, rfl, rfl, rfl, fun l hl ha => ?_⟩
    rw [Exe.spread, Exe.spread, Exe.lane_spread e ty _ hl, Exe.lane_spread e ty' _ hl, if_pos ha, if_pos ha,
      BitVec.toNat_ofNat, BitVec.toNat_ofNat]
    exact ⟨rfl, rfl⟩

/-- The lane-wise instruction of a leaf gives its function. -/
theorem gives_lanewise {s : State} {e : Exe} {i : Instr} {w : Main} {ty : Ty} {xs : Exe → List TVal} {f : List Nat → Nat}
    (h : Leaf s e) (hx : exec i s = onUnit s (fun e => e.lanewise s w [ty] (xs e) [f])) :
    Gives s e i ty (fun l => f ((xs e).map (fun x => e.lane x l))) := by
  obtain ⟨v, hv, rfl, hl⟩ := Exe.lanewise_leaf (s := s) h.one w ty (xs e) f
  rw [onUnit_runs h.runs, hv] at hx
  exact gives_define h.laold hx hl

theorem gives2_lanewise {s : State} {e : Exe} {i : Instr} {w : Main} {ty ty' : Ty} {xs : Exe → List TVal}
    {f k : List Nat → Nat} (h : Leaf s e) (hx : exec i s = onUnit s (fun e => e.lanewise s w [ty, ty'] (xs e) [f, k])) :
    Gives2 s e i ty ty' (fun l => f ((xs e).map (fun x => e.lane x l))) (fun l => k ((xs e).map (fun x => e.lane x l))) := by
  obtain ⟨v, v', hv, rfl, rfl, hl⟩ := Exe.lanewise2_leaf (s := s) h.one w ty ty' (xs e) f k
  rw [onUnit_runs h.runs, hv] at hx
  exact gives2_define h.laold hx hl

/-- A leaf-only form defines its one result. -/
theorem gives_leafOnly {s : State} {e : Exe} {i : Instr} {w : Main} {v : TVal} {f : Nat → Nat} (h : Leaf s e)
    (hx : exec i s = onUnit s (fun e' => e'.leafOnly s (e'.define s w [v])))
    (hf : ∀ l, l < e.l.g → laneIn e.act l = true → e.lane v l = f l % 2 ^ 128) : Gives s e i v.ty f := by
  rw [onUnit_runs h.runs] at hx
  have hm : e.multi = false := by simp [Exe.multi, h.one]
  simp only [Exe.leafOnly, hm, Bool.false_eq_true, if_false] at hx
  exact gives_define h.laold hx hf

theorem Gives.congr {s : State} {e : Exe} {i : Instr} {ty : Ty} {f k : Nat → Nat} (h : Gives s e i ty f)
    (hk : ∀ l, l < e.l.g → laneIn e.act l = true → f l % 2 ^ 128 = k l % 2 ^ 128) : Gives s e i ty k := by
  obtain ⟨v, hc, ht, hl⟩ := h
  exact ⟨v, hc, ht, fun l a b => by rw [hl l a b, hk l a b]⟩

theorem Gives2.congr {s : State} {e : Exe} {i : Instr} {ty ty' : Ty} {f k f' k' : Nat → Nat} (h : Gives2 s e i ty ty' f k)
    (hk : ∀ l, l < e.l.g → laneIn e.act l = true → f l % 2 ^ 128 = f' l % 2 ^ 128 ∧ k l % 2 ^ 128 = k' l % 2 ^ 128) :
    Gives2 s e i ty ty' f' k' := by
  obtain ⟨v, v', hc, ht, ht', hl⟩ := h
  refine ⟨v, v', hc, ht, ht', fun l a b => ?_⟩
  rw [(hl l a b).1, (hl l a b).2, (hk l a b).1, (hk l a b).2]
  exact ⟨rfl, rfl⟩

end Sys2Proof.Machine
end

