-- ==== Sys2Proof/Tests/Slice0.lean ====
section
/-! SUPPORT. The model's own tests. Each `witness_` theorem shows states and operands that meet the hypotheses of the
statement it is named after; each `test_` theorem takes its expected result from the manual. -/

namespace Sys2Proof.Tests

open Sys2Proof Sys2Proof.Machine

set_option Elab.async false

/-! ### Small states -/

/-- A leaf of eight lanes on core 0 at an instruction, with nothing else on the device. -/
def base : State :=
  let s := State.reset.withFetchWord 64 0
  { s with launches := s.launches.map (fun l => { l with spad := 524288 }) }

/-- A change of the one unit's thread. -/
def onThread (s : State) (f : Thread → Thread) : State :=
  { s with galleys := s.galleys.map (fun g => { g with paths := g.paths.map (fun p => { p with th := f p.th }) }) }

/-- The unit of `base` with these values, the newest first. -/
def withVals (vs : List TVal) : State := onThread base (fun th => { th with vals := vs })

/-- A main word. -/
def word (ty : Ty) (mod : Nat) (a b c : Opnd) : Main := ⟨ty, mod, a, b, c, none⟩

def U (ty : Ty) (v : Nat) : TVal := ⟨ty, .u (BitVec.ofNat 128 v)⟩
def S (ty : Ty) (vs : List Nat) : TVal := ⟨ty, .s (vs.map (BitVec.ofNat 128))⟩

/-- The executing unit is a leaf that meets `P`. -/
def leafAnd (s : State) (P : Exe → Bool) : Bool :=
  match exe? s with
  | some e => e.g.count == 1 && e.th.native == none && P e
  | none => false

theorem leaf_has {s : State} {P : Exe → Bool} (h : leafAnd s P = true) : ∃ e, Leaf s e ∧ P e = true := by
  unfold leafAnd at h
  split at h
  · rename_i e he
    simp only [Bool.and_eq_true, beq_iff_eq] at h
    exact ⟨e, ⟨he, h.1.1, h.1.2⟩, h.2⟩
  · cases h

theorem leaf_and {s : State} {P : Exe → Prop} [∀ e, Decidable (P e)] (h : leafAnd s (fun e => decide (P e)) = true) :
    ∃ e, Leaf s e ∧ P e := by
  obtain ⟨e, hl, hp⟩ := leaf_has h
  exact ⟨e, hl, of_decide_eq_true hp⟩

/-- The executing unit runs Laold words and meets `P`. -/
theorem runs_and {s : State} {P : Exe → Prop} [∀ e, Decidable (P e)]
    (h : (match exe? s with | some e => e.th.native == none && decide (P e) | none => false) = true) : ∃ e, Runs s e ∧ P e := by
  split at h
  · rename_i e he
    simp only [Bool.and_eq_true, beq_iff_eq] at h
    exact ⟨e, ⟨he, h.1⟩, of_decide_eq_true h.2⟩
  · cases h

/-- The executing unit is alone in its leaf and meets `P`. -/
theorem lone_and {s : State} {P : Exe → Prop} [∀ e, Decidable (P e)]
    (h : leafAnd s (fun e => decide ((e.uid = ⟨e.g.id, 0, none⟩ ∧ e.g.paths = [e.path] ∧ e.path.th = e.th ∧ e.path.items = [] ∧
      e.act = e.th.mask ∧ e.th.mask ≠ 0) ∧ P e)) = true) : ∃ e, Lone s e ∧ P e := by
  obtain ⟨e, hl, hp⟩ := leaf_and (P := fun e => (e.uid = ⟨e.g.id, 0, none⟩ ∧ e.g.paths = [e.path] ∧ e.path.th = e.th ∧
    e.path.items = [] ∧ e.act = e.th.mask ∧ e.th.mask ≠ 0) ∧ P e) h
  exact ⟨e, ⟨hl, hp.1.1, hp.1.2.1, hp.1.2.2.1, hp.1.2.2.2.1, hp.1.2.2.2.2.1, hp.1.2.2.2.2.2⟩, hp.2⟩

/-- A mask has 64 lanes, so what holds of the first 64 active ones holds of all. -/
theorem all_lanes {m : Mask} {P : Nat → Prop} (h : ∀ l, l < 64 → laneIn m l = true → P l) : ∀ l, laneIn m l = true → P l := by
  intro l hl
  by_cases h64 : l < 64
  · exact h l h64 hl
  · exact absurd hl (by simp [laneIn, BitVec.getLsbD_of_ge _ _ (Nat.le_of_not_lt h64)])

/-- With no slice listed no slice holds an exact entry. -/
theorem noExact_of {s : State} (h : s.slices = []) : s.NoExact := by
  intro i
  simp [State.slice, h, Tbl.getD, Tbl.get?, Slice.reset]

/-- Lane `l` of the newest value after an instruction. -/
def gives (s : State) (i : Instr) (l : Nat) : Option Nat :=
  match exec i s with
  | .next t => (exe? t).bind (fun e => (e.th.vals.head?).map (fun v => e.lane v l))
  | _ => none

/-! ### Values computed by a leaf -/

def a64 : State := withVals [U .i64 5, U .i64 (2 ^ 64 - 7)]
def a32 : State := withVals [U .i32 5, U .i32 (2 ^ 32 - 7), U .i32 0]

/-- The last lane, the largest axis number and the widest type. -/
theorem witness_LaneIdentities : ∃ e, Leaf a64 e ∧ (word .n64 0 (.imm 2) .none .none).ty.width ≤ 64 ∧ immNat (.imm 2) ≤ 2 ∧
    7 < e.l.g ∧ laneIn e.act 7 = true ∧ e.g.first * e.l.g + 7 < e.l.n := leaf_and (by decide)

theorem witness_IntegerArithmetic : ∃ e, Leaf a64 e ∧
    (let w := word .i64 8 (.dist 1) (.dist 2) (.dist 1)
     w.ty.width ≤ 64 ∧ (e.opA a64 w).ty = w.ty ∧ (e.opB a64 w).ty = w.ty) := leaf_and (by decide)

/-- A division by 0 and one by −7. -/
theorem witness_DivisionExtremesAndCarry : ∃ e, Leaf a32 e ∧
    (let w := word .i32 0 (.dist 1) (.dist 3) (.dist 2)
     w.ty.width ≤ 64 ∧ w.ty.toInt (e.lane (e.opB a32 w) 0) = 0 ∧ w.ty.toInt (e.lane (e.opC a32 w) 7) = -7) := leaf_and (by decide)

/-- A shift by the full width, and by less. -/
theorem witness_LogicShiftsAndBitFields :
    (∃ e, Leaf (withVals [U .i32 32, U .i32 31]) e ∧
      (let s := withVals [U .i32 32, U .i32 31]
       let w := word .i32 0 (.dist 1) (.dist 1) .none
       let w' := word .i32 0 (.dist 2) (.dist 2) .none
       8 ≤ w.ty.width ∧ w.ty.width ≤ 64 ∧ (e.opA s w).ty = w.ty ∧ w.ty.width ≤ e.lane (e.opnd s .n32 w.b) 0 ∧
       e.lane (e.opnd s .n32 w'.b) 0 < w.ty.width)) := leaf_and (by decide)

theorem lane_U (e : Exe) (ty : Ty) (v l : Nat) : e.lane (U ty v) l = v % 2 ^ 128 := by
  simp [Exe.lane, Val.lane, U]

def aSel : State := withVals [U .i32 5, U .i32 (2 ^ 32 - 1), S .p [1, 0, 1, 0, 1, 0, 1, 0]]

/-- Operands of `cmp`, `sel`, `cvti` and `lea`; the condition of `sel` is true in lane 0 and false in lane 1. -/
theorem witness_CompareSelectConvert : ∃ e, Leaf aSel e ∧
    (let w := word .i32 0 (.dist 3) (.dist 1) (.dist 2)
     let w' := word .i32 0 (.dist 1) (.dist 2) (.imm 7)
     w.ty.width ≤ 64 ∧ (e.opA aSel w').ty = w.ty ∧ (e.opB aSel w').ty = w.ty ∧ (e.opA aSel w').ty.width ≤ 64 ∧
     (e.opB aSel w).ty = w.ty ∧ (e.opC aSel w).ty = w.ty ∧ (∀ l, e.lane (e.opB aSel w) l < 2 ^ w.ty.width) ∧
     (∀ l, e.lane (e.opC aSel w) l < 2 ^ w.ty.width) ∧
     e.lane (e.opnd aSel .p w.a) 0 % 2 = 1 ∧ e.lane (e.opnd aSel .p w.a) 1 % 2 = 0) := by
  obtain ⟨e, hl, h⟩ := leaf_and (s := aSel) (P := fun e => e.opnd aSel .i32 (.dist 1) = U .i32 5 ∧
    e.opnd aSel .i32 (.dist 2) = U .i32 (2 ^ 32 - 1) ∧ e.lane (e.opnd aSel .p (.dist 3)) 0 % 2 = 1 ∧
    e.lane (e.opnd aSel .p (.dist 3)) 1 % 2 = 0) (by decide)
  refine ⟨e, hl, by decide, ?_, ?_, ?_, ?_, ?_, ?_, ?_, h.2.2.1, h.2.2.2⟩ <;>
    simp [Exe.opA, Exe.opB, Exe.opC, word, h.1, h.2.1, lane_U] <;> decide

/-- A register and an immediate operand of `mov`, in a leaf whose lanes are all active. -/
theorem witness_MovCopies : ∃ e, Runs a32 e ∧
    (let w := word .i32 0 (.dist 2) .none .none
     (e.opA a32 w).ty = w.ty ∧ e.act = e.th.mask ∧ (word .i32 0 (.imm (-2048)) .none .none).a = .imm (-2048)) := runs_and (by decide)

def aF : State := withVals [U .f32 0x40400000, U .f32 0x7F800001, U .f16x2 0x3C004000]

/-- Single values, a signalling NaN among them, and a packed pair. -/
theorem witness_FloatArithmetic : ∃ e, Leaf aF e ∧ (e.opA aF (word .f32 0 (.dist 2) (.dist 1) (.dist 1))).ty = .f32 ∧
    (e.opA aF (word .f16x2 0 (.dist 3) (.dist 3) (.dist 3))).ty = .f16x2 := leaf_and (by decide)

theorem witness_FloatOther : ∃ e, Leaf aF e ∧ (e.opA aF (word .f64 0 (.dist 1) .none .none)).ty = .f32 := leaf_and (by decide)

def aS : State := withVals [S .n32 [7, 6, 5, 4, 3, 2, 1, 0], S .i32 [1, 2, 3, 4, 5, 6, 7, 2 ^ 32 - 1], S .f32 [0x3F800000, 0, 0, 0, 0, 0, 0, 0]]

/-- Lane 0 names the last lane, lane 7 itself. -/
theorem witness_LaneMovement : ∃ e, Leaf aS e ∧
    (let w := word .i32 0 (.dist 2) (.dist 1) .none
     (e.opA aS w).ty = w.ty ∧ e.act ≠ 0 ∧ e.lane (e.opnd aS .n32 w.b) 0 = 7 ∧ laneIn e.act 7 = true) := leaf_and (by decide)

/-- Lanes of integers; of single values none a NaN, all NaNs, and both. -/
def aRed : State := withVals [S .i32 [1, 2, 3, 4, 5, 6, 7, 2 ^ 32 - 1], S .f32 [0x3F800000, 0, 0, 0, 0, 0, 0, 0], U .f32 0x7F800001,
  S .f32 [0x7FC00000, 0, 0x80000000, 0, 0, 0, 0, 0xFF800001]]

theorem witness_ReductionsAndPackedArithmetic : ∃ e, Leaf aRed e ∧
    (let xs (k : Nat) (ty : Ty) : List Nat := (lanesIn e.act).map (e.lane (e.opA aRed (word ty 0 (.dist k) .none .none)))
     let nan (v : Nat) : Bool := (Num.decodeTy .f32 false v).isNan
     xs 1 .i32 ≠ [] ∧ Ty.i32.isInt = true ∧ Ty.i32.isF = false ∧ Ty.f32.isF = true ∧ (Num.fmtOf .f32).isSome = true ∧
     (∀ y ∈ xs 2 .f32, nan y = false) ∧ (∀ y ∈ xs 3 .f32, nan y = true) ∧ (∃ y ∈ xs 4 .f32, nan y = false) ∧ ∃ y ∈ xs 4 .f32, nan y = true) :=
  leaf_and (by decide +kernel)

/-- A galley of two groups at an instruction, with these values. -/
def pairVals (vs : List TVal) : State :=
  let s := withVals vs
  { s with galleys := s.galleys.map (fun g => { g with count := 2 }), launches := s.launches.map (fun l => { l with n := 16 }) }

def aA : State := pairVals [⟨.i64, .a 3 4⟩, ⟨.i64, .a 10 1⟩, U .i64 2, U .n32 63, S .i64 [1, 2, 3, 4, 5, 6, 7, 8]]

/-- Affine and uniform operands in each order, a shift by 63, and an operand of class S in a galley of two groups. -/
theorem witness_AffineFormsAndUnfolding : ∃ e, Runs aA e ∧
    (let w (a b : Nat) : Main := word .i64 0 (.dist a) (.dist b) .none
     e.act = e.th.mask ∧ Word.bit (w 1 2).mod 3 = false ∧
     e.opA aA (w 1 2) = ⟨.i64, .a 3 4⟩ ∧ e.opB aA (w 1 2) = ⟨.i64, .a 10 1⟩ ∧ e.opB aA (w 1 3) = ⟨.i64, .u 2⟩ ∧ e.opA aA (w 3 1) = ⟨.i64, .u 2⟩ ∧
     e.opnd aA .n32 (.dist 4) = ⟨.n32, .u 63⟩ ∧ (63 : Bits).toNat < 64 ∧ 1 < e.g.count ∧ (e.opA aA (w 5 1)).val.cls = 2) := runs_and (by decide)

/-! ### Control flow -/

/-- A change of the one launch, and of the one translation. -/
def onLaunch (s : State) (f : Launch → Launch) : State := { s with launches := s.launches.map f }
def onXlat (s : State) (f : Xlat → Xlat) : State := { s with xlats := s.xlats.map f }

def codeObj (inst objId nfunc : Nat) : CodeObj :=
  { inst := inst, objId := objId, va := 0x10000, bytes := 0x20000, minor := 2, behaviour := 0, signer := 0, pageBase := 0x10000, npage := 1,
    nfunc := nfunc, nblock := 1, nsect := 0, funcOff := 0, blockOff := 0, textOff := 0, textWords := 0, sectOff := 0, hashes := [[]],
    shadows := [], digest := [] }

/-- Blocks 1 and 2 take one `.i32`; function 0 begins at block 2; one function is in the object; the call stack holds block 1. -/
def bFlow : State :=
  let s := onXlat (withVals [U .p 1, U .n32 0, U .i32 9, U .p 0, U .n32 1]) (fun x => { x with heads := [(1, [.i32]), (2, [.i32])], callees := [(0, 2)] })
  let s := onThread s (fun th => { th with stack := [1] })
  s.setCtx 0 0 { s.ctx 0 0 with objs := [codeObj 4 0 1] }

/-- Targets whose blocks are known; conditions of 1 and of 0, selectors of 0 and of 1, a function number of 0 and one out of range. -/
theorem witness_TransfersEnterBlocks : ∃ e, Runs bFlow e ∧ e.act ≠ 0 ∧
    e.blockTys bFlow 1 = (some [.i32], bFlow) ∧ e.blockTys bFlow 2 = (some [.i32], bFlow) ∧
    (e.opnd bFlow .p (.dist 1)).val = .u 1 ∧ (e.opnd bFlow .p (.dist 4)).val = .u 0 ∧ (e.opnd bFlow .n32 (.dist 2)).val = .u 0 ∧
    (e.opnd bFlow .n32 (.dist 5)).val = .u 1 ∧
    e.callee bFlow (e.lane (e.opnd bFlow .n32 (.dist 2)) e.leadLane) = (some (2, [.i32]), bFlow) ∧
    bFlow.obj? e.l.tenant e.l.ctx e.l.obj = some (codeObj 4 0 1) ∧ (codeObj 4 0 1).nfunc ≤ 1 ∧ e.th.stack = [1] := runs_and (by decide)

theorem witness_RetireFreesTheSlot : ∃ e, Lone base e ∧ (State.groupSt e.l e.g.first).tx.depth = 0 ∧
    (e.l.domains.getD (e.l.domainOf e.g.first) .empty).arrived = 0 := lone_and (by decide)

/-- A return with an empty call stack. -/
theorem witness_TransfersAndRetirement : (∃ e, Runs base e ∧ e.act ≠ 0 ∧ e.th.stack = []) ∧
    ∃ e, Lone base e ∧ (State.groupSt e.l e.g.first).tx.depth = 0 ∧ (e.l.domains.getD (e.l.domainOf e.g.first) .empty).arrived = 0 :=
  ⟨runs_and (by decide), witness_RetireFreesTheSlot⟩

def bSplit : State := onXlat (withVals [S .p [1, 0, 0, 0, 0, 0, 0, 0]]) (fun x => { x with heads := [(1, []), (2, [])] })

/-- Lane 0 takes one way and the seven others the other. -/
theorem witness_BranchDiverges : ∃ e, Lone bSplit e ∧ (e.opnd bSplit .p (.dist 1)).val.cls = 2 ∧
    (∀ p t b st u f, (e.opnd bSplit .p (.dist 1)).val ≠ .cmp p t b st u f) ∧ e.blockTys bSplit 1 = (some [], bSplit) ∧
    e.blockTys bSplit 2 = (some [], bSplit) ∧
    (∃ l, laneIn e.act l = true ∧ (e.lane (e.opnd bSplit .p (.dist 1)) l % 2 == 1) = true) ∧
    (∃ l, laneIn e.act l = true ∧ (e.lane (e.opnd bSplit .p (.dist 1)) l % 2 == 1) = false) := by
  obtain ⟨e, hl, h⟩ := lone_and (s := bSplit) (P := fun e => e.opnd bSplit .p (.dist 1) = S .p [1, 0, 0, 0, 0, 0, 0, 0] ∧
    e.blockTys bSplit 1 = (some [], bSplit) ∧ e.blockTys bSplit 2 = (some [], bSplit) ∧ laneIn e.act 0 = true ∧ laneIn e.act 7 = true ∧
    (e.lane (e.opnd bSplit .p (.dist 1)) 0 % 2 == 1) = true ∧ (e.lane (e.opnd bSplit .p (.dist 1)) 7 % 2 == 1) = false) (by decide)
  refine ⟨e, hl, ?_, ?_, h.2.1, h.2.2.1, ⟨0, h.2.2.2.1, h.2.2.2.2.2.1⟩, ⟨7, h.2.2.2.2.1, h.2.2.2.2.2.2⟩⟩
  · rw [h.1]; rfl
  · intro p t b st u f; rw [h.1]; intro hc; cases hc

/-- Two paths of one leaf, of four lanes each, at block `b` and block `b'`. -/
def pathAt (m : Mask) (b : Nat) (w : Wait) (entering : Bool) (r : Option Nat) (v : Nat) : Path :=
  ⟨{ Thread.empty with mask := m, block := b, wait := w, entering := entering, args := [S .i32 (List.replicate 8 v)] }, r, [], none, []⟩

def twoPaths (p q : Path) : Galley :=
  { id := 2, launch := 1, first := 0, count := 1, core := some 0, slot := 0, age := 0, home := 0, paths := [p, q], phase := 0,
    pending := false, recorded := 0, arrived := false, fixed := false }

def withGalley (g : Galley) : State := { base with galleys := [g] }

theorem witness_BranchesAndReconvergence :
    (let p := pathAt 0x0F 3 .none true (some 3) 1
     let q := pathAt 0xF0 2 .none false (some 3) 2
     let g := twoPaths p q
     let s := withGalley g
     s.galley? g.id = some g ∧ g.paths[0]? = some p ∧ g.paths[1]? = some q ∧ (0 : Nat) ≠ 1 ∧ p.th.entering = true ∧ p.th.wait = .none ∧
       p.reconv = some p.th.block ∧ q.th.mask ≠ 0 ∧ q.items = [] ∧ q.th.wait = .none ∧ ∀ x ∈ g.paths, x.items = [] ∧ x.th.stand = .running) ∧
    ∀ b ∈ [2, 3],
      (let p := pathAt 0x0F 3 .reconv true (some 3) 1
       let q := pathAt 0xF0 b .reconv true (some b) 2
       let g := twoPaths p q
       let s := withGalley g
       s.galley? g.id = some g ∧ (s.launch? g.launch).isSome = true ∧ g.paths = [p, q] ∧ p.items = [] ∧ q.items = [] ∧ p.th.mask ≠ 0 ∧
         q.th.mask ≠ 0 ∧ p.th.mask &&& q.th.mask = 0 ∧ p.th.wait = .reconv ∧ q.th.wait = .reconv ∧ p.th.stack = q.th.stack ∧
         p.th.args.map (fun a => a.val.cls) = [2]) := by decide

/-! ### Memory -/

/-- Check that requests reach their targets in a state without exact entries where `P` holds. -/
def reachAnd (s : State) (e : Exe) (a : Access) (rs : List Req) (P : List (Req × PTarget × Bool) → State → Bool) : Bool :=
  match plan s e.view a rs with
  | (.go ts, t) =>
    decide (∀ x ∈ ts, t.blockedSpan e.me (a.write || a.atomic) x.2.1 x.1.n = false) && decide (∀ x ∈ ts, e.mustFollow t a (a.tx && e.tx? == some false) x = false) &&
      decide (t.slices = []) && P ts t
  | _ => false

theorem reach_has {s : State} {e : Exe} {a : Access} {rs : List Req} {P : List (Req × PTarget × Bool) → State → Bool}
    (h : reachAnd s e a rs P = true) : ∃ ts t, Reaches s e a rs ts t ∧ t.NoExact ∧ P ts t = true := by
  unfold reachAnd at h
  split at h
  · rename_i ts t hp
    simp only [Bool.and_eq_true, decide_eq_true_eq] at h
    exact ⟨ts, t, ⟨hp, h.1.1.1, h.1.1.2⟩, noExact_of h.1.2, h.2⟩
  · cases h

/-- A leaf whose requests reach their targets. -/
theorem leaf_reach {s : State} {a : Access} {rs : Exe → List Req} {P : Exe → List (Req × PTarget × Bool) → State → Prop}
    [∀ e ts t, Decidable (P e ts t)] (h : leafAnd s (fun e => reachAnd s e a (rs e) (fun ts t => decide (P e ts t))) = true) :
    ∃ e ts t, Leaf s e ∧ Reaches s e a (rs e) ts t ∧ t.NoExact ∧ P e ts t := by
  obtain ⟨e, hl, h⟩ := leaf_has h
  obtain ⟨ts, t, hr, hn, hp⟩ := reach_has h
  exact ⟨e, ts, t, hl, hr, hn, of_decide_eq_true hp⟩

/-- Tenant 0 owns the first GiB, and core 0 translates the pages at 0x10000 and 0x20000 to themselves. -/
def mapped (s : State) : State :=
  let s := s.setTenant 0 { s.tenant 0 with wins := [(0, 2 ^ 31)], cemask := 1 }
  s.setCore 0 { s.core 0 with tlb := [⟨0, 0, 0x10000, 0x10000, 0x10000, 0, false, true⟩, ⟨0, 0, 0x20000, 0x10000, 0x20000, 0, false, true⟩] }

/-- Addresses of eight words, the last at the end of a page; data; an offset. -/
def memVals : List TVal :=
  [S .n64 [0x10000, 0x10004, 0x10008, 0x1000C, 0x10010, 0x10014, 0x10018, 0x1FFFC], S .n32 [1, 2, 3, 4, 5, 6, 7, 8], U .i64 0]

def cMem : State := mapped (withVals memVals)

/-- A load that goes to its home, with ORD acquire, and one that the L1 may serve. -/
theorem witness_LoadsAndTheirFaults : ∃ e ts t, Leaf cMem e ∧
    (let w := word .n32 8 (.dist 1) (.dist 3) .none
     Reaches cMem e .rd ((e.actors [e.opnd cMem .n64 w.a, e.opnd cMem .i64 w.b]).map (fun i =>
       ⟨i.1, i.2, e.ea (e.opnd cMem .n64 w.a) (e.opnd cMem .i64 w.b) i, w.ty.bytes, w.ty.bytes⟩)) ts t) ∧ t.NoExact ∧
    (e.tx? = none ∧ t.serial.locks = [] ∧ ts.length = 8 ∧ (word .n32 8 (.dist 1) (.dist 3) .none).mod / 8 % 4 ≠ 0 ∧
      (word .n32 0 (.dist 1) (.dist 3) .none).mod / 8 % 4 = 0 ∧ Word.bit (word .n32 0 (.dist 1) (.dist 3) .none).mod 6 = false ∧
      ∀ x ∈ ts, x.2.1.tgt = 0 ∧ x.2.2 = false) := leaf_reach (by decide)

theorem witness_StoresAndHints : ∃ e ts t, Leaf cMem e ∧
    (let w := word .n32 0 (.dist 1) (.dist 2) (.dist 3)
     Reaches cMem e .wr ((e.actors [e.opnd cMem .n64 w.a, e.opB cMem w, e.opnd cMem .i64 w.c]).map (fun i =>
       ⟨i.1, i.2, e.ea (e.opnd cMem .n64 w.a) (e.opnd cMem .i64 w.c) i, w.ty.bytes, w.ty.bytes⟩)) ts t) ∧ t.NoExact ∧
    (e.tx? = none ∧ e.owes cMem = false ∧ t.mem.wf = true ∧ ts.length = 8 ∧ ∀ x ∈ ts, x.2.1.tgt = 0) := leaf_reach (by decide)

theorem witness_HintsChangeNoMemory : (∃ e, Runs cMem e ∧ cMem.serial.locks = []) ∧ cMem.NoExact :=
  ⟨runs_and (by decide), noExact_of (by decide)⟩

/-- Lane 0's address is not aligned: it comes before every other look. -/
def cBad : State := mapped (withVals [S .n64 [0x10001, 0x10004, 0x10008, 0x1000C, 0x10010, 0x10014, 0x10018, 0x1001C], S .n32 [1], U .i64 0])

theorem witness_LowestFailingLaneFaults : ∃ e, Leaf cBad e ∧
    (let w := word .n32 0 (.dist 1) (.dist 3) .none
     let ks := (lookAll e.view .rd ((e.actors [e.opnd cBad .n64 w.a, e.opnd cBad .i64 w.b]).map (fun i =>
       ⟨i.1, i.2, e.ea (e.opnd cBad .n64 w.a) (e.opnd cBad .i64 w.b) i, w.ty.bytes, w.ty.bytes⟩)) cBad).1
     e.tx? = none ∧ e.owes cBad = false ∧ ks.head? = some (⟨0, 0, 0x10001, 4, 4⟩, .fail .misaligned) ∧ ∀ k ∈ ks.drop 1, k.2 ≠ .unknown) :=
  leaf_and (by decide)

/-- The last word of a scratchpad of 524,288 bytes, one past it, and a misaligned one; the group owes no atomic. -/
theorem witness_ScratchpadAccess : ∃ e, Leaf (withVals [U .n32 524284, U .n32 524288, U .n32 2, U .i32 0]) e ∧
    (let s := withVals [U .n32 524284, U .n32 524288, U .n32 2, U .i32 0]
     let off (a : Nat) (l : Nat) : Int := (e.lane (e.opnd s .n32 (.dist a)) l : Int) + Ty.i32.toInt (e.lane (e.opnd s .i32 (.dist 4)) l)
     1 ≤ Ty.n32.bytes ∧ (s.core e.core).spad.wf = true ∧ (e.g.threads.map Thread.native).all Option.isNone = true ∧ e.owed s = [] ∧
     (∀ l, l < 64 → laneIn e.act l = true → off 1 l % 4 = 0 ∧ 0 ≤ off 1 l ∧ off 1 l + 4 ≤ e.l.spad) ∧
     laneIn e.act 0 = true ∧ ¬ off 2 0 + 4 ≤ e.l.spad ∧ off 3 0 % 4 ≠ 0) := leaf_and (by decide)

/-! ### Tensors and relayout -/

/-- A record of `.f32` elements, 8 by 4, in the layout `tag`, with tiles of 4 by 2. -/
def recordOf (tag flags rl gen base : Nat) : List Byte :=
  leBytes 8 (tag + 2 * 2 ^ 8 + 1 * 2 ^ 16 + flags * 2 ^ 24 + 2 * 2 ^ 32 + 1 * 2 ^ 40 + rl * 2 ^ 48 + gen * 2 ^ 56) ++
    leBytes 8 base ++ leBytes 8 (8 + 4 * 2 ^ 32) ++ leBytes 8 (1 + 2 ^ 32) ++ leBytes 8 (1 + 2 ^ 32) ++
    leBytes 8 1 ++ leBytes 8 8 ++ List.replicate 136 0

def r1 : List Byte := recordOf 1 1 0 1 0x20000

/-- `r1` is sealed with generation 1 at 0x10000, and cluster 0 holds it. -/
def dRec (vs : List TVal) (r : List Byte) : State :=
  let s := mapped (withVals vs)
  let s := s.setCluster 0 { s.cluster 0 with recs := [(0, 0, 0x10000, r)] }
  { s with mem := s.mem.writeBytes 0x10000 r }

def handle1 : TVal := U .h (2 ^ 57 + 0x10000)

/-- Seven lanes inside the tensor, the last of its row among them, and lane 7 outside. -/
def dLd : State := dRec [handle1, S .i64 [0, 1, 2, 3, 4, 5, 7, 8], U .i64 3] r1

theorem r1_is_a_record : recordOk r1 = true ∧ r1.length = 192 ∧ answers r1 (2 ^ 57 + 0x10000) = true ∧ tyAgrees r1 .f32 = true ∧
    recRlstate r1 = 0 ∧ recBlock r1 = false ∧ 8 ≤ recBits r1 ∧ recBits r1 / 8 = 4 := by decide +kernel

theorem witness_TensorLoads : ∃ e ts t, Leaf dLd e ∧
    (let w := word .f32 8 (.dist 1) (.dist 2) (.dist 3)
     let x : X4 := ⟨.none, .none, .none, .none⟩
     let at_ (i : Nat × Nat) : List Int := (coordOpnds w x).map (fun o => Ty.i64.toInt (e.at_ (e.opnd dLd .i64 o) i))
     Reaches dLd e .rd (((e.actors (e.opnd dLd .h w.a :: (coordOpnds w x).map (e.opnd dLd .i64))).filter (fun i => inside r1 (at_ i))).map (fun i =>
       ⟨i.1, i.2, (elemAt r1 (recTag r1) (recBase r1) 0 ((at_ i).map Int.toNat)).addr, recBits r1 / 8, recBits r1 / 8⟩)) ts t) ∧ t.NoExact ∧
    (e.tx? = none ∧ (e.opnd dLd .h (.dist 1)).val = .u (2 ^ 57 + 0x10000) ∧
      cachedRec dLd (clusterOf e.core) e.l.tenant e.l.ctx (handleVa (2 ^ 57 + 0x10000)) = some r1 ∧ answers r1 (2 ^ 57 + 0x10000) = true ∧
      tyAgrees r1 .f32 = true ∧ recRlstate r1 = 0 ∧ recBlock r1 = false ∧ 8 ≤ recBits r1 ∧ (word .f32 8 (.dist 1) (.dist 2) (.dist 3)).mod / 8 % 4 ≠ 0 ∧
      t.serial.locks = [] ∧ ts.length = 7) := leaf_reach (by decide +kernel)

theorem one_target {ts : List (Req × PTarget × Bool)} (h : ts.length = 1) : ∃ q, ts = [q] := by
  match ts, h with
  | [q], _ => exact ⟨q, rfl⟩

/-- One request of a leaf and its target. -/
theorem leaf_one {s : State} {a : Access} {r : Exe → Req} {P : Exe → (Req × PTarget × Bool) → State → Prop}
    [∀ e q t, Decidable (P e q t)]
    (h : leafAnd s (fun e => reachAnd s e a [r e] (fun ts t => match ts with | [q] => decide (P e q t) | _ => false)) = true) :
    ∃ e q t, Leaf s e ∧ Reaches s e a [r e] [q] t ∧ t.NoExact ∧ P e q t := by
  obtain ⟨e, hl, h⟩ := leaf_has h
  obtain ⟨ts, t, hr, hn, hp⟩ := reach_has h
  split at hp
  · rename_i q
    exact ⟨e, q, t, hl, hr, hn, of_decide_eq_true hp⟩
  · cases hp

def dSt : State := dRec [handle1, U .f32 0x3F800000, U .i64 7, U .i64 3, U .i64 (2 ^ 64 - 1)] r1

def stOs : List Opnd := [.dist 3, .dist 4, .none, .none, .none, .none]
def stAt (e : Exe) (a b : Nat) : List Int :=
  [Opnd.dist a, .dist b, .none, .none, .none, .none].map (fun o => Ty.i64.toInt (e.at_ (e.opnd dSt .i64 o) (0, 0)))

/-- The last element of the tensor, and one at coordinate −1. -/
theorem witness_TensorStores : ∃ e q t, Leaf dSt e ∧
    Reaches dSt e .wr [⟨0, 0, (elemAt r1 (recTag r1) (recBase r1) 0 [7, 3, 0, 0, 0, 0]).addr, 4, 4⟩] [q] t ∧ t.NoExact ∧
    (e.tx? = none ∧ e.owes dSt = false ∧ (e.opnd dSt .h (.dist 1)).val = .u (2 ^ 57 + 0x10000) ∧
     cachedRec dSt (clusterOf e.core) e.l.tenant e.l.ctx (handleVa (2 ^ 57 + 0x10000)) = some r1 ∧
     e.actors (e.opnd dSt .h (.dist 1) :: e.opnd dSt .f32 (.dist 2) :: stOs.map (e.opnd dSt .i64)) = [(0, 0)] ∧
     stAt e 3 4 = [7, 3, 0, 0, 0, 0] ∧ inside r1 (stAt e 3 4) = true ∧ inside r1 (stAt e 5 4) = false ∧ q.2.1.tgt = 0) := leaf_one (by decide +kernel)

/-- A record that may be sealed, one sealed already, and one that breaks R233: its rank byte is 0. -/
def dSeal (r : List Byte) : State := dRec [U .n64 0x10000] r
def r0 : List Byte := recordOf 1 0 0 127 0x20000
def rBad : List Byte := r0.set 1 0

theorem witness_Sealing : ∀ r ∈ [r0, r1, rBad], ∃ e q t, Leaf (dSeal r) e ∧
    Reaches (dSeal r) e .wr [⟨0, 0, 0x10000, 192, 1⟩] [q] t ∧ t.NoExact ∧
    (e.tx? = none ∧ e.owes (dSeal r) = false ∧ e.uid.item = none ∧ e.at_ (e.opnd (dSeal r) .n64 (.dist 1)) (0, 0) = 0x10000 ∧ e.actors [e.opnd (dSeal r) .n64 (.dist 1)] = [(0, 0)] ∧
      t.serial.locks = [] ∧ q.2.1.tgt = 0 ∧ t.mem.readBytes q.2.1.pa 192 = r) := by
  intro r h
  simp only [List.mem_cons, List.not_mem_nil, or_false] at h
  rcases h with rfl | rfl | rfl <;> exact leaf_one (by decide +kernel)

theorem witness_Sealing_clauses : (Word.bit (recFlags r0) 0 = false ∧ recordOk r0 = true ∧ recRlstate r0 = 0) ∧ Word.bit (recFlags r1) 0 = true ∧
    Word.bit (recFlags rBad) 0 = false ∧ recordOk rBad = false := by decide +kernel

/-- A record answered and at rest, one relaying, and one of another generation. -/
def rRel : List Byte := recordOf 1 1 1 1 0x20000
def rOld : List Byte := recordOf 1 1 0 2 0x20000

theorem witness_Flushing : ∀ r ∈ [r1, rRel, rOld], ∃ e q t, Leaf (dRec [handle1] r) e ∧
    Reaches (dRec [handle1] r) e .wr [⟨0, 0xFF, 0x10003, 1, 1⟩] [q] t ∧ t.NoExact ∧
    (e.tx? = none ∧ e.owes (dRec [handle1] r) = false ∧ e.uid.item = none ∧ faultLane e.uid = 0xFF ∧ e.g.first = 0 ∧ handleVa (2 ^ 57 + 0x10000) + 3 = 0x10003 ∧ (e.opnd (dRec [handle1] r) .h (.dist 1)).val = .u (2 ^ 57 + 0x10000) ∧
      cachedRec (dRec [handle1] r) (clusterOf e.core) e.l.tenant e.l.ctx (handleVa (2 ^ 57 + 0x10000)) = some r ∧ q.2.1.tgt = 0) := by
  intro r h
  simp only [List.mem_cons, List.not_mem_nil, or_false] at h
  rcases h with rfl | rfl | rfl <;> exact leaf_one (by decide +kernel)

theorem witness_Flushing_clauses : (answers r1 (2 ^ 57 + 0x10000) = true ∧ recRlstate r1 ≠ 1) ∧
    (answers rRel (2 ^ 57 + 0x10000) = true ∧ recRlstate rRel = 1) ∧ answers rOld (2 ^ 57 + 0x10000) = false := by decide +kernel

/-- The first and the last field of `tninfo`; `.i64` coordinates; a record of rank 2. -/
theorem witness_TensorQueries : ∃ e, Leaf dLd e ∧ e.act ≠ 0 ∧ (e.opnd dLd .h (.dist 1)).val = .u (2 ^ 57 + 0x10000) ∧
    cachedRec dLd (clusterOf e.core) e.l.tenant e.l.ctx (handleVa (2 ^ 57 + 0x10000)) = some r1 ∧ answers r1 (2 ^ 57 + 0x10000) = true ∧
    immNat (.imm 0) < 24 ∧ immNat (.imm 23) < 24 ∧
    (∀ o ∈ coordOpnds (word .n64 0 (.dist 1) (.dist 2) (.dist 3)) ⟨.none, .none, .none, .none⟩, (e.opnd dLd .i64 o).ty = .i64) ∧
    recRank r1 ≤ 6 ∧ Ty.n64.width = 64 := leaf_and (by decide +kernel)

/-- The coordinates of lane l are l and 3, both affine. -/
def dIdx : State := dRec [handle1, ⟨.i64, .a 0 1⟩, U .i64 3] r1

theorem witness_TensorQueries_affine : ∃ e, Runs dIdx e ∧ e.act ≠ 0 ∧ e.act = e.th.mask ∧ (e.opnd dIdx .h (.dist 1)).val = .u (2 ^ 57 + 0x10000) ∧
    cachedRec dIdx (clusterOf e.core) e.l.tenant e.l.ctx (handleVa (2 ^ 57 + 0x10000)) = some r1 ∧ answers r1 (2 ^ 57 + 0x10000) = true ∧
    (let os := (coordOpnds (word .n64 0 (.dist 1) (.dist 2) (.dist 3)) ⟨.none, .none, .none, .none⟩).map (e.opnd dIdx .i64)
     (os.take 2).map (fun o => o.val.affine) = [some (0, 1), some (3, 0)] ∧ os.all (fun o => o.val.affine.isSome) = true ∧ ∃ o ∈ os, o.val.cls = 1) := runs_and (by decide +kernel)

/-- To layout 2 at 0x28000, with its map at 0x30000 of the next GiB; the counter is the last word of a page. -/
def dRl : State := dRec [handle1, U .n32 2, U .n64 0x28000, U .n64 0x40000, U .n64 0x1FFF8, U .n32 1] r1

theorem witness_RelayoutStarts : ∃ e c s1, Leaf dRl e ∧ Reaches dRl e .wr [⟨0, 0xFF, 0x1FFF8, 8, 8⟩] [c] s1 ∧ s1.NoExact ∧
    (e.tx? = none ∧ (e.opnd dRl .h (.dist 1)).val = .u (2 ^ 57 + 0x10000) ∧ e.num dRl .n32 (.dist 2) = 2 ∧ e.num dRl .n64 (.dist 3) = 0x28000 ∧
      e.num dRl .n64 (.dist 4) = 0x40000 ∧ e.num dRl .n64 (.dist 5) = 0x1FFF8 ∧ c.2.1.tgt = 0 ∧
      e.owes dRl = false ∧ e.uid.item = none ∧ faultLane e.uid = 0xFF ∧
      cachedRec dRl (clusterOf e.core) e.l.tenant e.l.ctx 0x10000 = some r1 ∧ answers r1 (2 ^ 57 + 0x10000) = true ∧ recRlstate r1 ≠ 1 ∧
      relayOk r1 2 0x28000 0x40000 = true ∧ r1.length = 192 ∧
      reachAnd s1 e .wr [⟨0, 0xFF, 0x10000, 192, 1⟩] (fun ts _ => ts.length == 1 && ts.all (fun q => q.2.1.tgt == 0 && q.1.va == 0x10000 && q.1.n == 192)) = true) :=
  leaf_one (by decide +kernel)

/-! ### Engines, sequencers and rings -/

/-- Counter at the end of a page; sizes at their bounds; a handle on `r1`. -/
def eCmd : State :=
  dRec [U .n64 0x1FFF8, U .n32 1, U .n64 0, U .n64 (2 ^ 32), U .n32 65536, U .n64 0x20000, U .n32 524288, U .b64 5, handle1, U .n32 8, U .n32 4,
    U .i64 0, U .n32 0, U .n64 0x1FFF9, U .n64 (2 ^ 32 + 1)] r1

/-- The counter of every command, and what each command asks of its operands: `cpy` of 2^32 bytes, `gath` and `gathh` of 65,536 and
of one element, `spset` of the whole scratchpad, `cpyh` of the whole tensor. -/
theorem witness_EngineCommands : ∃ e c t, Leaf eCmd e ∧ Reaches eCmd e .wr [⟨0, 0xFF, 0x1FFF8, 8, 8⟩] [c] t ∧ t.NoExact ∧
    (e.tx? = none ∧ (eCmd.held e.core).length < 64 ∧ (eCmd.tenant e.l.tenant).engines ≠ [] ∧ e.owes eCmd = false ∧ faultLane e.uid = 0xFF ∧ c.2.1.tgt = 0 ∧
      e.num eCmd .n64 (.dist 1) = 0x1FFF8 ∧ e.num eCmd .n64 (.dist 4) = 2 ^ 32 ∧ e.num eCmd .n32 (.dist 5) = 65536 ∧
      e.num eCmd .n64 (.dist 6) = 0x20000 ∧ e.num eCmd .n32 (.dist 7) = 524288 ∧ e.l.spad = 524288) := leaf_one (by decide +kernel)

theorem witness_EngineCommands_handles : ∃ e, Leaf eCmd e ∧
    (e.num eCmd .h (.dist 9) = 2 ^ 57 + 0x10000 ∧ cachedRec eCmd (clusterOf e.core) e.l.tenant e.l.ctx 0x10000 = some r1 ∧
      e.num eCmd .n32 (.dist 10) % boxUnit r1 = 0 ∧ Ty.i64.toInt (e.num eCmd .i64 (.dist 12)) % (boxUnit r1 : Int) = 0 ∧
      e.num eCmd .n32 (.dist 13) + e.num eCmd .n32 (.dist 11) * boxRow r1 (e.num eCmd .n32 (.dist 10)) ≤ e.l.spad ∧ 0 < e.num eCmd .n32 (.dist 11) ∧
      e.num eCmd .n32 (.dist 13) = 0 ∧ e.num eCmd .n64 (.dist 14) % 8 ≠ 0 ∧ 2 ^ 32 < e.num eCmd .n64 (.dist 15)) := leaf_and (by decide +kernel)

/-- A counter below and at its target; batch 1 is closed, 2 is not; a unit that an add has met while it waited. -/
def eCnt : State :=
  let s := mapped (withVals [U .n64 0x10008, U .n64 0, U .n64 1, U .n64 2])
  s.setGroup 1 0 { s.group 1 0 with lastClosed := 1 }

theorem witness_BatchesAndCounters : ∃ e c t, Leaf eCnt e ∧ Reaches eCnt e .rd [⟨0, 0xFF, 0x10008, 8, 8⟩] [c] t ∧ t.NoExact ∧
    (e.tx? = none ∧ ((eCnt.group e.l.id e.g.first).batches.filter (fun b => b.2.any eCnt.working)).length < 16 ∧
      e.num eCnt .n64 (.dist 3) ≤ (eCnt.group e.l.id e.g.first).lastClosed ∧ (eCnt.group e.l.id e.g.first).lastClosed < e.num eCnt .n64 (.dist 4) ∧
      t.serial.locks = [] ∧ e.th.wait = .none ∧ c.2.1.tgt = 0 ∧ faultLane e.uid = 0xFF ∧ e.num eCnt .n64 (.dist 1) % 8 = 0 ∧
      e.num eCnt .n64 (.dist 2) ≤ t.mem.readNat c.2.1.pa 8 ∧ t.mem.readNat c.2.1.pa 8 < e.num eCnt .n64 (.dist 3)) := leaf_one (by decide +kernel)

theorem witness_BatchesAndCounters_met : ∃ e, Leaf (onThread eCnt (fun th => { th with wait := .counter 0 0x10008 1 true })) e ∧ e.tx? = none ∧
    e.th.wait = .counter 0 0x10008 1 true := leaf_and (by decide +kernel)

/-- A descriptor of one copy of 64 bytes from 0x20000 to the scratchpad, with its counter at 0x1FFF8 and six levels of one. -/
def seqD (flags : Nat) : List Byte :=
  leBytes 8 0x20000 ++ leBytes 8 0x100 ++ leBytes 8 0x1FFF8 ++ leBytes 4 1 ++ leBytes 4 64 ++ leBytes 4 flags ++ leBytes 4 0 ++
    (List.range 6).flatMap (fun _ => leBytes 8 1 ++ leBytes 8 64 ++ leBytes 8 64) ++ List.replicate 8 0

def seqRun1 (d : List Byte) : SeqRun := { id := 9, desc := d, launch := 1, group := 0, next := 0, t0 := 0, counter := ⟨0, 0x1FFF8⟩ }

def ring1 (n : Nat) : Ring := ⟨true, 64, 4, 16384, 0, n⟩

/-- Slot 0 holds a descriptor, slot 1 one that runs, slot 2 none, slot 3 one that advances ring 1. -/
def eSeq : State :=
  let s := mapped (withVals [U .n32 524096, U .n32 64])
  s.setCore 0 { s.core 0 with seqs := [⟨some (seqD 2), none⟩, ⟨some (seqD 2), some (seqRun1 (seqD 2))⟩, ⟨none, none⟩, ⟨some (seqD 0x16), none⟩],
                              rings := [.empty, ring1 0, .empty, .empty, .empty, .empty] }

/-- The last place of a descriptor in the scratchpad, and the four slots. -/
theorem witness_SequencerSlots : ∃ e, Leaf eSeq e ∧ e.tx? = none ∧ e.num eSeq .n32 (.dist 1) % 8 = 0 ∧ e.num eSeq .n32 (.dist 1) + 192 = e.l.spad ∧
    e.spadStoresAt (e.num eSeq .n32 (.dist 1)) 192 = false ∧
    ((eSeq.core e.core).seqs.getD 0 ⟨none, none⟩).run = none ∧ ((eSeq.core e.core).seqs.getD 1 ⟨none, none⟩).run ≠ none ∧
    ((eSeq.core e.core).seqs.getD 2 ⟨none, none⟩).desc = none ∧ ((eSeq.core e.core).seqs.getD 2 ⟨none, none⟩).run = none := leaf_and (by decide +kernel)

theorem witness_SequencerStarts : ∃ e c t, Leaf eSeq e ∧ Reaches eSeq e .wr [⟨0, 0xFF, 0x1FFF8, 8, 8⟩] [c] t ∧ t.NoExact ∧
    (e.tx? = none ∧ c.2.1.tgt = 0 ∧ (eSeq.tenant e.l.tenant).engines ≠ [] ∧ e.owes eSeq = false ∧ faultLane e.uid = 0xFF ∧
      ∀ k ∈ [(0, seqD 2), (3, seqD 0x16)], (eSeq.core e.core).seqs.getD k.1 ⟨none, none⟩ = ⟨some k.2, none⟩ ∧ k.1 < (eSeq.core e.core).seqs.length ∧
        seqBad (eSeq.core e.core) k.2 = false ∧ seqCnt k.2 = 0x1FFF8 ∧ 0 ≤ (seqSpadSpan (eSeq.core e.core) k.2).1 ∧
        (seqSpadSpan (eSeq.core e.core) k.2).2 ≤ e.l.spad) := leaf_one (by decide +kernel)

/-- The largest ring that fits above the descriptor words, and one that is a slot too long. -/
def eRing : State := withVals [U .n32 64, U .n32 256, U .n32 1984, U .n32 2048, U .n32 1]

theorem witness_RingConfiguration : ∃ e, Leaf eRing e ∧
    (let base := e.num eRing .n32 (.dist 1)
     let n := e.num eRing .n32 (.dist 2)
     let sz := e.num eRing .n32 (.dist 3)
     let big := e.num eRing .n32 (.dist 4)
     e.tx? = none ∧ base % 64 = 0 ∧ 64 ≤ base ∧ 1 ≤ n ∧ n ≤ 256 ∧ sz % 64 = 0 ∧ 64 ≤ sz ∧ sz ≤ 524224 ∧ base + n * sz ≤ e.l.spad ∧
     e.owed eRing = [] ∧ e.spadStoresAt (8 * 5) 8 = false ∧ (eRing.core e.core).runs = [] ∧ (eRing.core e.core).mats = [] ∧ e.l.spad < base + n * big ∧ big % 64 = 0 ∧ big ≤ 524224) := leaf_and (by decide +kernel)

/-! ### Matrix operations and tiles -/

/-- Rings 0 and 1 hold one full slot each; ring 2 is not valid; the context may pay one unit. -/
def eMat (core budget : Nat) (unlimited : Bool) (vs : List TVal) (r : List Byte) : State :=
  let s := dRec vs r
  let s := s.setCtx 0 0 { s.ctx 0 0 with enUnlimited := unlimited, enBudget := budget, energy := [] }
  let s := s.setCore core { s.core core with rings := [ring1 1, ring1 1, .empty, .empty, .empty, .empty] }
  { s with galleys := s.galleys.map (fun g => { g with core := some core }) }

/-- Rings 0 (A) and 1 (B), one slot, one block, B of `.bf16`. -/
def lit1 : Nat := 0x400 + Ty.bf16.code * 2 ^ 27

theorem witness_MatrixOperationsIssue : ∃ e, Leaf (eMat 0 1 false [] r1) e ∧
    (let s := eMat 0 1 false [] r1
     let w := word .bf16 0 .none .none .none
     e.tx? = none ∧ e.owes s = false ∧ e.core % 2 = 0 ∧ (s.held e.core).length < 64 ∧ 2 ^ (w.mod / 32 % 4) ≤ (s.ctx 0 0).enBudget ∧ (s.ctx 0 0).energy = [] ∧
     ∀ op ∈ [0x1C8, 0x1C9, 0x1CA], ∀ r ∈ matRings op w.ty lit1, ((s.core e.core).rings.getD r.1 .empty).valid = true ∧
       r.2 ≤ ((s.core e.core).rings.getD r.1 .empty).bytes ∧
       matNS lit1 ≤ ((s.core e.core).rings.getD r.1 .empty).full - (s.core e.core).claimed r.1) := leaf_and (by decide +kernel)

/-- At a following core, and at a leading one with a ring that is not valid. -/
theorem witness_MatrixOperationsFault : (∃ e, Leaf (eMat 1 1 false [] r1) e ∧ e.tx? = none ∧ e.core % 2 = 1) ∧
    ∃ e, Leaf (eMat 0 1 false [] r1) e ∧ e.tx? = none ∧ e.core % 2 = 0 ∧
      (((eMat 0 1 false [] r1).core e.core).rings.getD (matRB 0x800) .empty).valid = false :=
  ⟨leaf_and (by decide +kernel), leaf_and (by decide +kernel)⟩

/-- A convolution record of `.f32` at the handle, and a record that is none. -/
def rConv : List Byte := recordOf 1 5 0 1 0x20000

theorem witness_ConvolutionIssues : ∀ r ∈ [rConv, r1], ∃ e, Leaf (eMat 0 0 true [handle1, U .n64 0, U .n64 0] r) e ∧
    (let s := eMat 0 0 true [handle1, U .n64 0, U .n64 0] r
     let g := (s.core e.core).rings.getD (matRB lit1) .empty
     e.tx? = none ∧ e.owes s = false ∧ e.core % 2 = 0 ∧ (s.held e.core).length < 64 ∧ (s.ctx e.l.tenant e.l.ctx).enUnlimited = true ∧
     cachedRec s (clusterOf e.core) e.l.tenant e.l.ctx (handleVa (e.num s .h (.dist 1))) = some r ∧ answers r (e.num s .h (.dist 1)) = true ∧
     g.valid = true ∧ slotNeedB 0x1CB .f32 lit1 ≤ g.bytes ∧ matNS lit1 ≤ g.full - (s.core e.core).claimed (matRB lit1)) := by
  intro r h
  simp only [List.mem_cons, List.not_mem_nil, or_false] at h
  rcases h with rfl | rfl <;> exact leaf_and (by decide +kernel)

theorem witness_ConvolutionIssues_clauses : Word.bit (recFlags rConv) 2 = true ∧ fmtTy (recFmt rConv) = some .f32 ∧ Word.bit (recFlags r1) 2 = false := by
  decide +kernel

/-- The last place of a tile in the scratchpad; row and column indices at their last value and past it. -/
def eTile : State := withVals [U .n32 520192, U .n32 15, U .n32 16, U .n32 63, U .f32 0x3F800000]

theorem witness_TileTransfers : ∃ e, Leaf eTile e ∧
    (let at_ (k l : Nat) : Nat := immNat (.imm 3) / 8 % 64 + e.lane (e.opnd eTile .n32 (.dist k)) l
     (eTile.core e.core).tiles.wf = true ∧ (eTile.core e.core).mats = [] ∧ e.num eTile .n32 (.dist 1) % 16 = 0 ∧
     e.num eTile .n32 (.dist 1) + 4096 = e.l.spad ∧
     e.owed eTile = [] ∧ e.spadStoresAt (e.num eTile .n32 (.dist 1)) 4096 = false ∧ at_ 2 e.leadLane < 16 ∧ at_ 4 e.leadLane < 64 ∧ laneIn e.act 0 = true ∧ 16 ≤ at_ 3 0 ∧
     ∀ l, l < 64 → laneIn e.act l = true → at_ 2 l < 16 ∧ at_ 4 l < 64) := leaf_and (by decide +kernel)

/-- `mmard` to `.f16` at a place that fits. -/
theorem witness_TilesConvert : ∃ e, Leaf eTile e ∧ (eTile.core e.core).mats = [] ∧ (eTile.core e.core).spad.wf = true ∧
    e.num eTile .n32 (.dist 1) % 16 = 0 ∧ e.num eTile .n32 (.dist 1) + 16 * (64 * Ty.f16.width / 8) ≤ e.l.spad ∧ 8 ≤ Ty.f16.width ∧
    e.owed eTile = [] ∧ e.spadStoresAt (e.num eTile .n32 (.dist 1)) (16 * (64 * Ty.f16.width / 8)) = false :=
  leaf_and (by decide +kernel)

/-! ### Atomics and transactions -/

/-- The first and the last operation of each kind of atomic. -/
theorem witness_SliceAtomic : base.NoExact ∧ (base.memOf 0).wf = true ∧
    ∀ aop ∈ [0, 7, 8, 15, 16, 21, 24, 29, 32, 37, 40, 45, 48, 53, 63], aop < 64 ∧ aopListed aop = true ∧ aopExact aop = false :=
  ⟨noExact_of (by decide), by decide⟩

/-- A returning form at eight places, all distinct. -/
theorem witness_AtomicsReturnOldValues : ∃ e ts t, Leaf cMem e ∧
    Reaches cMem e { Access.wr with atomic := true }
      (e.items.map (fun i => ⟨i.1, i.2, e.at_ (e.opnd cMem .n64 (.dist 1)) i, Ty.n32.bytes, Ty.n32.bytes⟩)) ts t ∧ t.NoExact ∧
    (e.tx? = none ∧ e.owes cMem = false ∧ Word.bit (word .n32 0 (.dist 1) (.dist 2) .none).mod 5 = false ∧
      (ts.map (fun x => x.2.1)).Nodup ∧ ts.length = 8) := leaf_reach (by decide +kernel)

theorem witness_NoReturnAtomicsQueue : ∃ e ts t, Leaf cMem e ∧
    Reaches cMem e { Access.wr with atomic := true, nr := true }
      (e.items.map (fun i => ⟨i.1, i.2, e.at_ (e.opnd cMem .n64 (.dist 1)) i, Ty.n32.bytes, Ty.n32.bytes⟩)) ts t ∧ t.NoExact ∧
    (e.tx? = none ∧ Word.bit (word .n32 32 (.dist 1) (.dist 2) .none).mod 5 = true ∧ (t.core e.core).queueCount + ts.length ≤ 256 ∧
      ∀ th ∈ e.g.threads, th.native = none) := leaf_reach (by decide +kernel)

/-- An add of 4 bytes at 0x10000 stands at the head of core 0's queue. -/
def gAq : State :=
  let s := cMem
  s.setCore 0 { s.core 0 with aq := [⟨0x10000, 5, false, ⟨1, 0, 0, 0⟩⟩] }

theorem witness_AtomicQueueDrains : gAq.NoExact ∧
    (let a : AqEntry := ⟨0x10000, 5, false, ⟨1, 0, 0, 0⟩⟩
     (gAq.core 0).aq = [a] ∧ a.spilled = false ∧ (gAq.launch? a.own.launch).isSome = true ∧ aopListed (Word.field a.lo 57 52) = true ∧
     Word.field a.lo 57 52 % 8 ≠ 7 ∧ (2 ≤ Word.field a.lo 57 52 / 8 → Word.field a.lo 57 52 % 8 ≠ 1) ∧ Word.bit a.lo 60 = false ∧ Word.bit a.lo 61 = false ∧
     gAq.blocked (some ⟨1, 0⟩) true ⟨a.own.tgt, Word.field a.lo 51 0⟩ = false ∧
     gAq.lateFail 0 ⟨a.own.tgt, Word.field a.lo 51 0⟩ (aopBytes (Word.field a.lo 57 52 / 8)) true = none ∧ (gAq.launch? 1).map Launch.tenant = some 0) := ⟨noExact_of (by decide), by decide +kernel⟩

/-- An exact add of `.f32` at 0x10004 stands at the head of core 0's queue, its line with an entry and without. -/
def gExact (entries : List AccEntry) (term : Nat) : State :=
  let s := cMem.setCore 0 { cMem.core 0 with aq := [⟨25 * 2 ^ 52 + 0x10004, term, false, ⟨1, 0, 0, 0⟩⟩] }
  s.setSlice (sliceOf 0x10004) { s.slice (sliceOf 0x10004) with entries := entries }

def entry1 : AccEntry := ⟨0x10000, 1, 0, 0, [(0, ⟨2 ^ 149, false, false, false, true⟩), (31, ⟨0, false, true, false, false⟩)]⟩

theorem witness_ExactSums : ∀ es ∈ [[], [entry1]], ∀ term ∈ [0x3F800000, 0xFF800000, 0x7FC00000],
    (let s := gExact es term
     let a : AqEntry := ⟨25 * 2 ^ 52 + 0x10004, term, false, ⟨1, 0, 0, 0⟩⟩
     (s.core 0).aq = [a] ∧ (s.launch? 1).map (fun l => (l.tenant, l.ctx)) = some (0, 0) ∧ Word.field a.lo 57 52 = 8 * 3 + 1 ∧
       Word.bit a.lo 60 = false ∧ Word.bit a.lo 61 = false ∧ Word.field a.lo 51 0 = 0x10004 ∧
       s.blocked (some ⟨1, 0⟩) true ⟨0, 0x10004⟩ = false ∧ s.lateFail 0 ⟨0, 0x10004⟩ Ty.f32.bytes true = none ∧
       ((s.slice (sliceOf 0x10004)).entries.find? (fun e => e.line == 0x10000) = some entry1 ∧ entry1.fmt = 1 ∧ entry1.tenant = 0 ∧ entry1.ctx = 0 ∨
         (s.slice (sliceOf 0x10004)).entries = [] ∧ (s.slice (sliceOf 0x10004)).dir = [])) := by decide +kernel

/-- A read of the last 16 bytes of the line, whose first and last elements have been touched. -/
theorem witness_ExactSums_final :
    (let s := gExact [entry1] 0
     let s := s.setPkg { s.pkg with step := 7 }
     s.pkg.open_ = true ∧ s.commands = [] ∧ s.relayouts = [] ∧ s.serial.locks = [] ∧ (0x10070 : Nat) / 128 * 128 = entry1.line ∧
       0x10070 + 16 ≤ entry1.line + 128 ∧ 0x10070 + 16 ≤ deviceBytes ∧ (s.slice (sliceOf 0x10070)).entries = [entry1] ∧
       (s.slice (sliceOf 0x10070)).dir = [] ∧ s.poisoned ⟨0, 0x10070⟩ 16 = false ∧ s.mem.wf = true ∧ entry1.fmt ≤ 2 ∧
       (entry1.elems.map Prod.fst).Nodup ∧ ∀ y ∈ entry1.elems, y.1 < 128 / Ty.f32.bytes) := by decide +kernel

/-- Slice 0 spills its one line. -/
def gSpill : State :=
  base.setSlice 0 ⟨[⟨0, 0, 0, 0, []⟩], [⟨0, 0, 0, 0, 0, 0x20000, 4608, 0, true⟩], 2 ^ 64 - 1, 0⟩

theorem witness_SpillCompletes : gSpill.mem.wf = true ∧ (gSpill.slice 0).dir = [⟨0, 0, 0, 0, 0, 0x20000, 4608, 0, true⟩] ∧
    (gSpill.slice 0).entries = [⟨0, 0, 0, 0, []⟩] ∧ gSpill.spanOwned ⟨0, 0x20000⟩ 4608 = false := by decide

/-- The unit of `s` in an open transaction of all eight lanes. -/
def inTx (s : State) (depth : Nat) (reads : List ReadEnt) : State :=
  s.setGroup 1 0 { s.group 1 0 with tx :=
    { Tx.empty with depth := depth, lanes := maskBelow 8, inTx := maskBelow 8, reads := reads } }

/-- No transaction, one at the last depth that may deepen, and seven failed attempts. -/
theorem witness_TransactionsOpen : (∃ e, Lone base e ∧ (base.group e.l.id e.g.first).tx.depth = 0 ∧ (base.group e.l.id e.g.first).tx.fails < 8 ∧
      e.owes base = false) ∧ ∃ e, Lone (inTx base 14 []) e ∧ 0 < ((inTx base 14 []).group e.l.id e.g.first).tx.depth ∧
      ((inTx base 14 []).group e.l.id e.g.first).tx.depth < 15 ∧ e.th.mask &&& ((inTx base 14 []).group e.l.id e.g.first).tx.inTx ≠ 0 :=
  ⟨lone_and (by decide), lone_and (by decide +kernel)⟩

/-- A sector read as it still is, and one read with another value. -/
def readOf (v : Nat) : ReadEnt := ⟨0, 0x10000, leBytes 16 v, maskBelow 8⟩

theorem witness_TransactionsCommit : (∃ e, Lone (inTx cMem 1 [readOf 0]) e ∧ (inTx cMem 1 [readOf 0]).serial.locks = [] ∧
    (inTx cMem 1 [readOf 0]).launch? e.l.id = some e.l ∧
    (let s := inTx cMem 1 [readOf 0]
     let x := (s.group e.l.id e.g.first).tx
     x.depth = 1 ∧ x.excess = 0 ∧ x.serial = false ∧ x.aborted = 0 ∧ e.owes s = false ∧ (∀ r ∈ x.reads, r.tgt = 0 ∧ s.mem.readBytes r.pa 16 = r.val) ∧
     x.lateFail s e.l.tenant = none ∧ x.writes = [] ∧ ∀ p ∈ x.sectors, s.engineOwned p.pa = false)) ∧ (inTx cMem 1 [readOf 0]).NoExact :=
  ⟨lone_and (by decide +kernel), noExact_of (by decide +kernel)⟩

theorem witness_ConflictsAbort : (∃ e, Lone (inTx cMem 1 [readOf 1]) e ∧ (inTx cMem 1 [readOf 1]).serial.locks = [] ∧
    (inTx cMem 1 [readOf 1]).launch? e.l.id = some e.l ∧
    (let s := inTx cMem 1 [readOf 1]
     let x := (s.group e.l.id e.g.first).tx
     x.depth = 1 ∧ x.excess = 0 ∧ x.serial = false ∧ x.aborted = 0 ∧ x.lanes = x.inTx ∧ e.owes s = false ∧ x.reads = [readOf 1] ∧
     s.mem.readBytes 0x10000 16 ≠ (readOf 1).val ∧ (readOf 1).lanes = x.lanes ∧ (readOf 1).lanes ≠ 0 ∧ x.lateFail s e.l.tenant = none ∧ x.writes = [] ∧
     ∀ p ∈ x.sectors, s.engineOwned p.pa = false)) ∧ (inTx cMem 1 [readOf 1]).NoExact :=
  ⟨lone_and (by decide +kernel), noExact_of (by decide +kernel)⟩

theorem witness_TransactionReports : (∃ e, Leaf base e ∧ (base.group e.l.id e.g.first).tx.depth = 0) ∧
    (∃ e, Leaf (inTx base 1 []) e ∧ ((inTx base 1 []).group e.l.id e.g.first).tx.depth ≠ 0 ∧
      ((inTx base 1 []).group e.l.id e.g.first).tx.serial = false ∧ (inTx base 1 []).launch? e.l.id = some e.l) ∧
    ({ base with serial := ⟨none, [⟨1, 0⟩], [], []⟩ } : State).serial.queue = ⟨1, 0⟩ :: [] :=
  ⟨leaf_and (by decide), leaf_and (by decide), rfl⟩

/-! ### Synchronisation, control registers and traps -/

theorem witness_SynchronisationReports : ∃ e, Leaf base e ∧ e.tx? = none ∧ e.owes base = false ∧ 8192 ≤ e.l.spad := leaf_and (by decide +kernel)

def fatal1 : FatalRec :=
  { cause := 1, count := 65535, die := 0, core := 0, time := 0, tag := 0, objId := 0, block := 0, instr := 0, faddr := 0, detail := 0,
    dumping := true, assisted := false }

/-- Indices 0, 3, 15, 39, 40, 127 and 128, with cluster 39 the tenant's; the context runs, or is fatal. -/
def hRd (fatal : Bool) : State :=
  let s := withVals [U .n32 0, U .n32 3, U .n32 15, U .n32 39, U .n32 40, U .n32 127, U .n32 128]
  let s := s.setTenant 0 { s.tenant 0 with clmask := 2 ^ 39 }
  if fatal then s.setCtx 0 0 { s.ctx 0 0 with state := .fatal, fatal := some fatal1 } else s

theorem witness_ControlRegisterReads : (∃ e, Leaf (hRd false) e ∧
      ((∀ x ∈ [(1, 0), (2, 3), (3, 15), (4, 39), (5, 40), (6, 127), (7, 128)], e.num (hRd false) .n32 (.dist x.1) = x.2) ∧
       Word.bit ((hRd false).tenant e.l.tenant).clmask 39 = true ∧ ((hRd false).ctx e.l.tenant e.l.ctx).state ≠ .fatal)) ∧
    (∃ e, Leaf (hRd true) e ∧ (((hRd true).ctx e.l.tenant e.l.ctx).state = .fatal ∧ ((hRd true).ctx e.l.tenant e.l.ctx).fatal.isSome = true)) ∧
    (∀ k ∈ [0x001, 0x010, 0x017, 0x020, 0x028, 0x02A, 0x02F, 0x040, 0x042, 0x050, 0x059, 0x060, 0x061, 0x080, 0x081, 0x029, 0x3FF],
      immNat (.imm k) = k) ∧
    ∀ k ∈ [0x000, 0x029, 0x043, 0x05A, 0x062, 0x082], ∀ r ∈ [(0x001, 0x001), (0x010, 0x017), (0x020, 0x028), (0x02A, 0x02F), (0x040, 0x042),
      (0x050, 0x059), (0x060, 0x061), (0x080, 0x081)], ¬ (r.1 ≤ k ∧ k ≤ r.2) :=
  ⟨leaf_and (by decide +kernel), leaf_and (by decide +kernel), by decide, by decide⟩

/-- One group in the domain, and a count operand of 0, of 1 and of 2. -/
def hBar (level : Nat) : State := onLaunch (withVals [U .n32 0, U .n32 1, U .n32 2]) (fun l => { l with domLevel := level })

theorem witness_BarrierCompletes : ∃ e, Lone (hBar 0) e ∧ e.tx? = none ∧ e.owes (hBar 0) = false ∧
    (let dom := e.l.domains.getD (e.l.domainOf e.g.first) .empty
     (State.groupSt e.l e.g.first).tx.depth = 0 ∧ e.g.pending = false ∧ e.g.arrived = false ∧ e.g.phase = dom.phase ∧ dom.arrived = 0 ∧
     (if e.num (hBar 0) .n32 (.dist 1) = 0 then dom.live else e.num (hBar 0) .n32 (.dist 1)) = 1 ∧ e.num (hBar 0) .n32 (.dist 2) = 1 ∧
     (hBar 0).galleys = [e.g] ∧ (hBar 0).launches = [e.l]) := lone_and (by decide +kernel)

theorem witness_BarrierWaits : ∃ e, Lone (hBar 1) e ∧ e.tx? = none ∧ e.owes (hBar 1) = false ∧
    (let dom := e.l.domains.getD (e.l.domainOf e.g.first) .empty
     e.g.pending = false ∧ e.g.arrived = false ∧ e.g.phase = dom.phase ∧ dom.arrived = 0 ∧ 1 < e.num (hBar 1) .n32 (.dist 3) ∧ e.l.domLevel ≠ 0) :=
  lone_and (by decide +kernel)

def hWait (pending : Bool) (recorded : Nat) : State :=
  { base with galleys := base.galleys.map (fun g => { g with pending := pending, recorded := recorded }) }

theorem witness_BarrierWaitEnds :
    (∃ e, Runs (hWait true 1) e ∧ e.tx? = none ∧ e.g.pending = true ∧ (e.l.domains.getD (e.l.domainOf e.g.first) .empty).phase ≠ e.g.recorded) ∧
    (∃ e, Runs (hWait true 0) e ∧ e.tx? = none ∧ e.g.pending = true ∧ (e.l.domains.getD (e.l.domainOf e.g.first) .empty).phase = e.g.recorded) ∧
    ∃ e, Runs (hWait false 0) e ∧ e.tx? = none ∧ e.g.pending = false :=
  ⟨runs_and (by decide), runs_and (by decide), runs_and (by decide)⟩

/-- One active lane; queue 0 is empty, queue 1 full with its tail wrapped, queue 2 holds 63 entries. -/
def hQue : State :=
  let s := onThread (withVals [U .b64 7]) (fun th => { th with mask := 1 })
  s.setCore 0 { s.core 0 with queues := (0, 0) :: (65535, 63) :: (0, 63) :: List.replicate 13 (0, 0) }

theorem witness_QueuesPushAndPop : ∃ e, Leaf hQue e ∧ e.tx? = none ∧ lanesIn e.act = [0] ∧ 0 < e.l.g ∧ 8192 ≤ e.l.spad ∧
    e.owes hQue = false ∧ e.owed hQue = [] ∧ e.spadStoresAt (e.l.spad - 8192 + 512 * 1 + 8 * (65535 % 64)) 8 = false ∧
    (let count (k : Nat) : Nat := (((hQue.core e.core).queues.getD k (0, 0)).2 + 2 ^ 16 - ((hQue.core e.core).queues.getD k (0, 0)).1) % 2 ^ 16
     count 0 = 0 ∧ count 1 = 64 ∧ count 2 = 63) := leaf_and (by decide +kernel)

/-- Ranges of length 0, up to 2^57, and past it; one invalidation of the group's launch. -/
def hInv : State :=
  { withVals [U .n64 (2 ^ 57 - 64), U .n64 0, U .n64 64, U .n64 65] with icinvs := [⟨7, 0, 0, 0, 64, 1, 0, 1⟩] }

theorem witness_CodeAndCacheMaintenance : ∃ e, Leaf hInv e ∧ e.tx? = none ∧ e.num hInv .n64 (.dist 2) = 0 ∧
    e.num hInv .n64 (.dist 1) + e.num hInv .n64 (.dist 3) = 2 ^ 57 ∧ 2 ^ 57 < e.num hInv .n64 (.dist 1) + e.num hInv .n64 (.dist 4) ∧
    (∃ x ∈ hInv.icinvs, x.launch = e.l.id ∧ x.first ≤ e.g.first ∧ e.g.first < x.first + x.count) ∧ hInv.icinvs.length = 1 := leaf_and (by decide +kernel)

/-- The last event number of EVSEL, and the last counter; an event number past the table, and a value of 2^32. -/
def hCtl : State := withVals [U .n32 0, U .n32 3, U .b64 0x0C0C0C0C, U .b64 0x0D000000, U .b64 (2 ^ 32)]

theorem witness_ControlWritesAndTiming : (∃ e, Leaf hCtl e ∧ e.tx? = none ∧ immNat (.imm 0x80) = 0x080 ∧ e.num hCtl .n32 (.dist 1) = 0 ∧
    e.num hCtl .n32 (.dist 2) < 4 ∧ e.num hCtl .b64 (.dist 3) < 2 ^ 32 ∧ ∀ j, j < 4 → e.num hCtl .b64 (.dist 3) / 256 ^ j % 256 ≤ 12) ∧
    (∃ e, Leaf hCtl e ∧ e.tx? = none ∧ 12 < e.num hCtl .b64 (.dist 4) / 256 ^ 3 % 256 ∧ 2 ^ 32 ≤ e.num hCtl .b64 (.dist 5)) ∧
    (∃ e, Lone base e ∧ (base.core e.core).rounds = [[], [], []]) ∧
    ∃ e, Lone (onThread base (fun th => { th with wait := .nap })) e ∧ e.th.wait = .nap ∧ (base.ctx e.l.tenant e.l.ctx).state = .running ∧
      (base.ctx e.l.tenant e.l.ctx).preempt = none :=
  ⟨leaf_and (by decide +kernel), leaf_and (by decide +kernel), lone_and (by decide), lone_and (by decide)⟩

/-- A predicate true in every lane, and one false first in lane 7. -/
def hChk : State := withVals [U .p 1, S .p [1, 1, 1, 1, 1, 1, 1, 0]]

theorem witness_TrapsAndChecks : ∃ e, Leaf hChk e ∧ e.tx? = none ∧
    (∀ l, l < 64 → laneIn e.act l = true → e.lane (e.opnd hChk .p (.dist 1)) l % 2 = 1) ∧ laneIn e.act 7 = true ∧
    e.lane (e.opnd hChk .p (.dist 2)) 7 % 2 = 0 ∧ ∀ k, k < 7 → laneIn e.act k = true → e.lane (e.opnd hChk .p (.dist 2)) k % 2 = 1 :=
  leaf_and (by decide +kernel)

/-- Breakpoint 15 selected and not, in a running context. -/
def hBrk (ctl : Nat) : State := base.setCtx 0 0 { base.ctx 0 0 with dbgCtl := ctl }

/-- A later breakpoint, outside a transaction and in one. -/
def hLater (depth : Nat) : State :=
  let s := inTx (hBrk 0x8000) depth []
  let p : Preempt := { packet := none, mode := 0, stopping := true, txOver := false, saveVa := 0, saveLen := 0, brk := true }
  s.setCtx 0 0 { s.ctx 0 0 with preempt := some p }

theorem witness_Breakpoints_later : ∀ depth ∈ [0, 1], ∃ e, Leaf (hLater depth) e ∧ (let c := (hLater depth).ctx e.l.tenant e.l.ctx
    Word.bit c.dbgCtl (immNat (.imm 15) % 16) = true ∧ e.th.brkOk = false ∧ c.state = .running ∧ c.preempt ≠ none ∧ (e.tx? = none ↔ depth = 0)) := by
  intro depth h
  simp only [List.mem_cons, List.not_mem_nil, or_false] at h
  rcases h with rfl | rfl <;> exact leaf_and (by decide +kernel)

theorem witness_Breakpoints : (∃ e, Leaf (hBrk 0) e ∧ Word.bit ((hBrk 0).ctx 0 0).dbgCtl (immNat (.imm 15) % 16) = false) ∧
    ∃ e, Leaf (hBrk 0x8000) e ∧ (let c := (hBrk 0x8000).ctx e.l.tenant e.l.ctx
      Word.bit c.dbgCtl (immNat (.imm 15) % 16) = true ∧ e.th.brkOk = false ∧ c.state = .running ∧ c.preempt = none) :=
  ⟨leaf_and (by decide +kernel), leaf_and (by decide +kernel)⟩

/-- A first fault, and one after 65,535 others. -/
theorem witness_FaultsEnterTheFatalState :
    (∃ g, base.galley? g.id = some g ∧ (base.group 1 g.first).tx.depth = 0 ∧ (base.ctx 0 0).fatal = none ∧ (base.ctx 0 0).state ≠ .disabled) ∧
    ((base.setCtx 0 0 { base.ctx 0 0 with state := .fatal, fatal := some fatal1 }).ctx 0 0).fatal = some fatal1 :=
  ⟨⟨base.galleys.headD (twoPaths (pathAt 0 0 .none false none 0) (pathAt 0 0 .none false none 0)), by decide⟩, by decide⟩

/-! ### Packets -/

/-- The bytes of a packet of type `op`: its header and its body words of 8 bytes. -/
def packet (op : Nat) (ws : List Nat) : List Byte := leBytes 16 (op + (1 + ws.length / 2) * 2 ^ 16) ++ ws.flatMap (leBytes 8)

/-- Tables that map the pages at 0x10000 and 0x20000 of context 0 to themselves; the root is at 0x100000. Page 3 has a bad
entry, page 4 one that a first touch fills. -/
def tables (s : State) : State :=
  let s := s.setTenant 0 { s.tenant 0 with wins := [(0, 2 ^ 31)] }
  let s := s.setCtx 0 0 { s.ctx 0 0 with ptRoot := 0x100000 }
  let ws : List (Nat × Nat) := [(0x100000, 0x200001), (0x200000, 0x300001), (0x300000, 0x400001), (0x400008, 0x10023), (0x400010, 0x20023),
    (0x400018, 0x30183), (0x400020, 0x222)]
  let m := ws.foldl (fun (m : Memory) w => m.writeNat w.1 8 w.2) s.mem
  { s with mem := m }

def q0 : QId := ⟨0, 0⟩

/-- Queue 0 of tenant 0, its ring at 0x40000 with the one packet `b`, which has been read and has passed its checks. -/
def queued (s : State) (b : List Byte) : State :=
  let s := tables s
  let s := s.setPkg { s.pkg with step := 7, ready := true }
  let s := s.setQueue q0 { s.queue q0 with base := 0x40000, enable := true, ctx := 0, logSize := 12, wp := b.length, rp := 0, state := .active, parsed := true, checked := true, packet := b }
  { s with mem := s.mem.writeBytes 0x40000 b }

/-- Context 0 runs, and nothing else is on the device. -/
def idle : State :=
  let s := State.reset
  let s := s.setTenant 0 { s.tenant 0 with enable := true, clmask := 1 }
  s.setCtx 0 0 { s.ctx 0 0 with state := .running, enable := true }

/-- What the action of the packet `b` sees. -/
def pktIn (b : List Byte) : PktIn := ⟨q0, Hdr.of (leNat (b.take 16)), b.drop 16, none⟩

theorem starts_of {s : State} {op : Nat} {b : List Byte}
    (h : s.slices = [] ∧ queueMapped s q0 = true ∧ (s.queue q0).enable = true ∧ (s.queue q0).state ≠ .stopped ∧ (s.queue q0).checked = true ∧
      (pktIn b).h = Hdr.of (leNat ((s.queue q0).packet.take 16)) ∧ (pktIn b).b = (s.queue q0).packet.drop 16 ∧ (pktIn b).h.op = op ∧
      16 * (pktIn b).h.len ≤ avail s q0 ∧ mustWait s q0 (pktIn b).h = false ∧ (pktIn b).h.sig = false ∧ s.packets = []) : Starts s op q0 (pktIn b) := by
  obtain ⟨h1, h2, h3, h4, h5, h6, h7, h8, h9, h10, h11, h12⟩ := h
  exact ⟨noExact_of h1, rfl, h2, h3, h4, h5, h6, h7, h8, h9, h10, by rw [h11]; rfl, by simp [h12]⟩

/-- The packet `b` of type `op` starts on a device where nothing else goes on. -/
abbrev StartsAlone (op : Nat) (b : List Byte) : Prop := Starts (queued idle b) op q0 (pktIn b)

theorem witness_PacketsPass : StartsAlone 0 (packet 0 []) ∧ StartsAlone 1 (packet 1 []) ∧
    StartsAlone 3 (packet 3 [0x10000, 5]) ∧ Finds (queued idle (packet 3 [0x10000, 5])) q0 ((pktIn (packet 3 [0x10000, 5])).field 0 8) 8 .qAtomic ⟨0, 0x10000⟩ :=
  ⟨starts_of (by decide +kernel), starts_of (by decide +kernel), starts_of (by decide +kernel), by unfold Finds; decide +kernel⟩

/-- A counter of 0 at a target of 0 and of 1. -/
theorem witness_CounterWaits : ∀ v ∈ [0, 1], StartsAlone 2 (packet 2 [0x1FFF8, v]) ∧
    Finds (queued idle (packet 2 [0x1FFF8, v])) q0 ((pktIn (packet 2 [0x1FFF8, v])).field 0 8) 8 .qRd ⟨0, 0x1FFF8⟩ ∧
    (queued idle (packet 2 [0x1FFF8, v])).spanLocked ⟨0, 0x1FFF8⟩ 8 = false := by
  intro v h
  simp only [List.mem_cons, List.not_mem_nil, or_false] at h
  unfold Finds
  rcases h with rfl | rfl <;> exact ⟨starts_of (by decide +kernel), by decide +kernel⟩

/-- A packet of type `op` that blocks queue 0 as number 5. -/
def blocked1 (op : Nat) (body : List Nat) (status : Option PTarget) : Packet :=
  { id := 5, q := q0, ctx := 0, opcode := op, hdr := [], body := body.flatMap (leBytes 8), sig := none, irq := false, vec := 0, status := status, walks := [] }

def blocking (s : State) (x : Packet) : State :=
  let s := s.setQueue q0 { s.queue q0 with state := .blocked, blocker := some 5 }
  { s with packets := [x], nextId := 10 }

theorem witness_CounterWaits_poll :
    (let x := blocked1 2 [0x1FFF8, 0] (some ⟨0, 0x1FFF8⟩)
     let s := blocking (queued idle (packet 0 [])) x
     s.blockerOf q0 = some x ∧ x.q = q0 ∧ x.opcode = 2 ∧ x.status = some ⟨0, 0x1FFF8⟩ ∧ ctxHeld s q0.owner x.ctx = false ∧
       s.blockedSpan none false ⟨0, 0x1FFF8⟩ 8 = false ∧ queueLate s q0 ⟨0, 0x1FFF8⟩ 8 true = none ∧ s.spanLocked ⟨0, 0x1FFF8⟩ 8 = false ∧
       s.slices = [] ∧ Completable s x) := by
  refine ⟨by decide +kernel, rfl, rfl, rfl, by decide +kernel, by decide +kernel, by decide +kernel, by decide +kernel, by decide +kernel,
    nofun, ?_⟩
  rintro c ⟨⟩
  decide +kernel

/-- Object 1 is loaded already; another OBJID with a size below 65,536. What the other results rest on is `loadObject`, whose
signature check is an open function of the model. -/
def withObj (s : State) : State := s.setCtx 0 0 { s.ctx 0 0 with objs := [codeObj 3 1 1] }

def pktLoad (oid size : Nat) : List Byte := packet 4 [0x20000, size, oid, 0x1FFF8, 0, 0]

theorem witness_LoadsObjects : ∀ b ∈ [(pktLoad 1 65536, (⟨8, 0, none⟩ : Loaded)), (pktLoad 2 65535, ⟨1, 1, none⟩)],
    Starts (withObj (queued idle b.1)) 4 q0 (pktIn b.1) ∧ Finds (withObj (queued idle b.1)) q0 ((pktIn b.1).field 24 8) 8 .qWr ⟨0, 0x1FFF8⟩ ∧
      loadObject (pktIn b.1) (withObj (queued idle b.1)) = (some b.2, withObj (queued idle b.1)) := by
  intro b h
  simp only [List.mem_cons, List.not_mem_nil, or_false] at h
  unfold Finds
  rcases h with rfl | rfl <;> exact ⟨starts_of (by decide +kernel), by decide +kernel⟩

/-- The header of an object of one page: 65,536 bytes of header region at 0x10000, one function, one block, one word, no section;
signer 0's key is registered and the image pre-authenticated. -/
def objectBytes : List Byte :=
  [0x4B460C01 + 2 ^ 32 + 2 ^ 56, 0x20000, 0, 0x10000, 1 + 2 ^ 32, 1, 0x10000, 0x10020, 0x10028, 1, 0, 0x20000].flatMap (leBytes 8)

def pktImage : List Byte := packet 4 [0x10000, 0x20000, 2 + 2 ^ 16, 0x1FFF8, 0, 0]

def imaged : State :=
  let s := withObj (queued idle pktImage)
  let s := s.setTenant 0 { s.tenant 0 with mode := 2, keys := [(0, [])] }
  { s with mem := s.mem.writeBytes 0x10000 objectBytes }

theorem holds_of {s : State} {q : QId} {k va pa n : Nat} (hs : s.slices = []) (hl : s.serial.locks = [])
    (hp : pageParts (n / 65536 + 2) va n = [(va, n)]) (hr : Reached s q k va n pa) : Holds s q k va (s.mem.readBytes pa n) := by
  refine ⟨[(⟨0, pa⟩, n)], ?_, ?_⟩
  · rw [Memory.readBytes_length, hp]
    exact List.Forall₂.cons ⟨rfl, rfl, hr⟩ List.Forall₂.nil
  · simp [readTargetsOf, State.readFor_plain (noExact_of hs) hl]

/-- The state of `imaged`'s device, reached at 0x10000 and beyond. -/
theorem witness_LoadsObjects_image : ∃ h r key,
    (let s := imaged
     let p := pktIn pktImage
     let k := (s.queue q0).ctx
     let o := objOf s.nextId (p.field 16 2) (p.field 0 8) (h ++ r)
     Starts s 4 q0 p ∧ Finds s q0 (p.field 24 8) 8 .qWr ⟨0, 0x1FFF8⟩ ∧ q0.owner < 16 ∧
     (s.ctx q0.owner k).objs.any (fun y => y.objId == p.field 16 2) = false ∧ p.field 0 8 % 65536 = 0 ∧ 65536 ≤ p.field 8 8 ∧
     h.length = 0x1400 ∧ Holds s q0 k (p.field 0 8) h ∧ headerOk h (p.field 8 8) = true ∧ r.length = fieldAt h 0x18 8 - 0x1400 ∧
     Holds s q0 k (p.field 0 8 + 0x1400) r ∧ (∀ y ∈ r.drop (64 * fieldAt h 0x20 4), y = 0) ∧
     (∀ i, i < Word.ceilDiv (p.field 8 8) 65536 → ∃ pa, Reached s q0 k (p.field 0 8 + 65536 * i) 1 pa) ∧ o.signer < 8 ∧
     (s.tenant q0.owner).keys.get? o.signer = some key ∧ Word.bit (s.tenant q0.owner).mode 1 = true ∧ p.field 18 1 = 1 ∧
     fieldAt (h ++ r) 0x07 1 = 1 ∧ o.minor ≤ 2 ∧ o.behaviour ≤ 1 ∧ o.nsect = 0) := by
  unfold Finds
  refine ⟨imaged.mem.readBytes 0x10000 0x1400, imaged.mem.readBytes 0x11400 0xEC00, [], starts_of ?_, ?_, ?_, ?_, ?_, ?_,
    Memory.readBytes_length .., ?hold, ?_, ?len, ?rest, ?zero, ?pages, ?_⟩
  case hold =>
    exact holds_of (n := 0x1400) (va := 0x10000) (by decide +kernel) (by decide +kernel) (by decide +kernel)
      (by unfold Reached; decide +kernel)
  case len => rw [Memory.readBytes_length]; decide +kernel
  case rest =>
    exact holds_of (n := 0xEC00) (va := 0x11400) (by decide +kernel) (by decide +kernel) (by decide +kernel)
      (by unfold Reached; decide +kernel)
  case zero =>
    intro y hy
    exact Memory.readBytes_gap (lo := 0x11400) (hi := 0x20000) (by decide +kernel) _ _ (by decide) (by decide) y (List.mem_of_mem_drop hy)
  case pages =>
    intro i hi
    have h2 : i < 2 := hi
    rcases i with _ | _ | i
    · exact ⟨0x10000, by unfold Reached; decide +kernel⟩
    · exact ⟨0x20000, by unfold Reached; decide +kernel⟩
    · omega
  all_goals decide +kernel

/-- A loaded object that nothing uses, one that a launch uses, and an OBJID that is not loaded. -/
theorem witness_UnloadsObjects : Starts (withObj (queued idle (packet 5 [1, 0]))) 5 q0 (pktIn (packet 5 [1, 0])) ∧
    StartsAlone 5 (packet 5 [1, 0]) ∧ objInUse (withObj (queued idle (packet 5 [1, 0]))) 0 0 1 = false ∧
    (let s := withObj (queued base (packet 5 [1, 0]))
     let s := { s with launches := s.launches.map (fun l => { l with obj := 3, objId := 1 }) }
     Starts s 5 q0 (pktIn (packet 5 [1, 0])) ∧ objInUse s 0 0 1 = true) ∧
    (let x := blocked1 5 [1, 0] none
     let s := blocking (withObj (queued idle (packet 0 []))) x
     s.blockerOf q0 = some x ∧ ctxHeld s q0.owner x.ctx = false ∧ Completable s x) :=
  ⟨starts_of (by decide +kernel), starts_of (by decide +kernel), by decide +kernel, ⟨starts_of (by decide +kernel), by decide +kernel⟩, by decide +kernel, by decide +kernel, nofun, nofun⟩


/-! ### Launches, placement and graphs -/

/-- The text of object 1: one function of one block, which is an entry and retires. -/
def text1 : List Byte :=
  leBytes 4 0 ++ leBytes 4 1 ++ leBytes 8 0x10100 ++ leBytes 2 0 ++ List.replicate 14 0 ++ leBytes 8 0 ++ List.replicate 24 0 ++
    leBytes 8 (2 ^ 52 + 2 ^ 48) ++ leBytes 8 (7 * 2 ^ 54)

def objText : CodeObj :=
  { codeObj 3 1 1 with nblock := 1, funcOff := 0x10000, blockOff := 0x10020, textOff := 0x10040, textWords := 2, shadows := [(0, text1)] }

def withText (s : State) : State := s.setCtx 0 0 { s.ctx 0 0 with objs := [objText] }

/-- Eight items of object `oid`, with status at the last word of a page. -/
def pktLaunch (oid : Nat) : List Byte :=
  packet 6 [oid + 2 * 2 ^ 24, 8, 1, 1, 4 * 2 ^ 8, 0x10000, 0x1FFF8, 0, 4096 + 7 * 2 ^ 32, 0, 0, 0, 0, 0]

/-- An object that is loaded, whose launch starts, and one that is not. -/
theorem witness_LaunchesStart :
    (∀ oid ∈ [1, 2], Starts (withText (queued idle (pktLaunch oid))) 6 q0 (pktIn (pktLaunch oid)) ∧
      Finds (withText (queued idle (pktLaunch oid))) q0 ((pktIn (pktLaunch oid)).field 0x30 8) 8 .qWr ⟨0, 0x1FFF8⟩) ∧
    (∃ l v, startLaunch (withText (queued idle (pktLaunch 1))) q0 0 (leBytes 16 (pktIn (pktLaunch 1)).h.raw) (pktIn (pktLaunch 1)).b = (.start l, v)) ∧
    startLaunch (withText (queued idle (pktLaunch 2))) q0 0 (leBytes 16 (pktIn (pktLaunch 2)).h.raw) (pktIn (pktLaunch 2)).b =
      (.code 1, withText (queued idle (pktLaunch 2))) ∧
    (let s := withText (queued idle (pktLaunch 1))
     let p := pktIn (pktLaunch 1)
     q0.owner < 16 ∧ (s.ctx q0.owner 0).objs.find? (fun x => x.objId == p.field 0 2) = some objText ∧
       s.obj? q0.owner 0 objText.inst = some objText ∧
       (match entryTypes (p.field 4 4) objText with | .ok (some tys) => tys.isEmpty | _ => false) = true ∧
       launchCheck s (launchOf q0.owner 0 (leBytes 16 p.h.raw) p.b) = 0 ∧ Holds s q0 0 (p.field 0x28 8) []) := by
  refine ⟨?_, ?start, ?_, ?_, ?_, ?_, ?_, ?_, [], List.Forall₂.nil, rfl⟩
  · intro oid h
    simp only [List.mem_cons, List.not_mem_nil, or_false] at h
    unfold Finds
    rcases h with rfl | rfl <;> exact ⟨starts_of (by decide +kernel), by decide +kernel⟩
  case start =>
    have h : (match (startLaunch (withText (queued idle (pktLaunch 1))) q0 0 (leBytes 16 (pktIn (pktLaunch 1)).h.raw) (pktIn (pktLaunch 1)).b).1 with
        | .start _ => true | _ => false) = true := by decide +kernel
    split at h
    · rename_i l hl; exact ⟨l, _, Prod.ext hl rfl⟩
    · cases h
  all_goals decide +kernel

theorem some_of {α : Type} {o : Option α} (h : o.isSome = true) : ∃ a, o = some a := Option.isSome_iff_exists.mp h

/-- A piece of a launch that holds core 0; a launch of DOMLEVEL 0 and one of domains that are not placed yet. -/
def iPiece : State :=
  let s := mapped base
  let s := s.setPkg { s.pkg with step := 7 }
  { s with galleys := s.galleys.map (fun g => { g with core := none }) }

def iNew (level groups : Nat) : State :=
  let s := mapped base
  let s := s.setPkg { s.pkg with step := 7 }
  let s := s.setCore 0 { s.core 0 with launch := none }
  { s with galleys := [], launches := s.launches.map (fun l => { l with placed := false, domLevel := level, domGroups := groups, domains := [] }) }

theorem witness_PlacementPutsGroups :
    (∃ x, ((releaseCores iPiece).launches.filter (fun l => dispatches (releaseCores iPiece) l && holdsCore (releaseCores iPiece) l)).findSome?
      (fun l => (pieceOf (releaseCores iPiece) l).bind (fun x => if settled (releaseCores iPiece) l x.2 then some (l, x) else none)) = some x) ∧
    (∀ level ∈ [0, 1], ∃ l, ((releaseCores (iNew level level)).launches.filter (dispatches (releaseCores (iNew level level)))).find?
      (fun l => (placeOf (releaseCores (iNew level level)) l).isSome) = some l) ∧
    (∀ level ∈ [0, 1], placePiece (releaseCores (iNew level level)) = none ∧ ∀ g ∈ (iNew level level).galleys, g.id < (iNew level level).nextId) ∧
    (∀ l ∈ (iNew 0 0).launches, l.domLevel = 0 ∧ l.placed = false ∧
      ((searchOrder 0 16 ((releaseCores (iNew 0 0)).tenant l.tenant).w2ptr).findSome? (fun cl =>
        (releasedCore (releaseCores (iNew 0 0)) l cl).map (fun c => (cl, c)))).isSome = true) ∧
    (∀ l ∈ (iNew 1 1).launches, l.domLevel ≠ 0 ∧ l.nextDomain = some 0 ∧ leftOf (releaseCores (iNew 1 1)) l 0 = [] ∧
      (match (unitFor (releaseCores (iNew 1 1)) l l.domGroups).bind (fun cs => cs.find? (fun c => decide (0 < freeSlots (releaseCores (iNew 1 1)) l c))) with
       | some c => settled (releaseCores (iNew 1 1)) l c
       | none => false) = true) :=
  ⟨some_of (by decide +kernel), fun level h => some_of (by
    simp only [List.mem_cons, List.not_mem_nil, or_false] at h
    rcases h with rfl | rfl <;> decide +kernel), by decide +kernel, by decide +kernel, by decide +kernel⟩

/-- A restored launch with a domain of two groups of which a piece each is left. -/
def iLeft : State :=
  let s := mapped base
  let s := s.setPkg { s.pkg with step := 7 }
  let s := s.setCore 0 { s.core 0 with launch := none }
  { s with
    galleys := s.galleys.flatMap (fun g => [{ g with core := none }, { g with id := 9, first := 1, core := none }])
    launches := s.launches.map (fun l => { l with n := 16, domLevel := 1, domGroups := 2, restored := true, domains := [(0, ⟨false, 0, 0, 0, 0, 2⟩)] })
    nextId := 10 }

theorem witness_PlacementPutsGroups_left :
    (let v := releaseCores iLeft
     placePiece v = none ∧ (v.launches.filter (dispatches v)).length = 1 ∧ (∀ g ∈ iLeft.galleys, g.id < iLeft.nextId) ∧
     (iLeft.galleys.map Galley.id).Nodup ∧
     ∀ l ∈ v.launches, (placeOf v l).isSome = true ∧ l.domLevel ≠ 0 ∧ l.nextDomain = some 0 ∧ (leftOf v l 0).map Galley.first = [0, 1] ∧
      (match (unitFor v l ((leftOf v l 0).map Galley.count).sum).bind (fun cs => cs.find? (fun c => decide (0 < freeSlots v l c))) with
       | some c => settled v l c
       | none => false) = true) := by decide +kernel

/-- A launch whose one group has retired, with its packet and without. -/
def iOver (pk : Option Nat) : State :=
  let s := blocking (mapped base) (blocked1 6 [] (some ⟨0, 0x1FFF8⟩))
  { s with galleys := [], cur := [], launches := s.launches.map (fun l => { l with retired := 1, packet := pk }) }

theorem witness_LaunchesComplete : (iOver none).NoExact ∧
    ∀ pk ∈ [none, some 5], ∃ l, (iOver pk).launches = [l] ∧ (iOver pk).launch? l.id = some l ∧ launchOver (iOver pk) l = true ∧
      targetHeld (iOver pk) l.status = false ∧ l.packet = pk ∧ (iOver pk).packet? 5 = some (blocked1 6 [] (some ⟨0, 0x1FFF8⟩)) ∧
      packetHeld (iOver pk) (blocked1 6 [] (some ⟨0, 0x1FFF8⟩)) = false ∧
      queueLate (iOver pk) q0 ⟨0, 0x1FFF8⟩ 8 false = none ∧ ∀ c ∈ l.status, (iOver pk).lateFail l.tenant c 8 false = none := by
  refine ⟨noExact_of (by decide), ?_⟩
  intro pk h
  simp only [List.mem_cons, List.not_mem_nil, or_false] at h
  rcases h with rfl | rfl
  · exact ⟨(iOver none).launches.headD (wordLaunch 0 0), by decide +kernel⟩
  · exact ⟨(iOver (some 5)).launches.headD (wordLaunch 0 0), by decide +kernel⟩

/-- A graph of two nodes at 0x10000, its control blocks at 0x10100 and its slots at 0x10200. -/
def graph1 : List Byte :=
  leBytes 4 0x4B466701 ++ leBytes 4 2 ++ leBytes 8 4 ++ leBytes 8 0x10100 ++ leBytes 8 0x10200 ++ List.replicate 32 0

def replay1 (wait assisted : Bool) (running : List Nat) : Replay :=
  { id := 7, tenant := 0, ctx := 0, graph := 0x10000, recAddr := 0x10400, packet := none, wait := wait, gen := 4, nodes := 2, ready := [],
    dispatched := [], running := running, retired := 0, records := 0, abandon := none, assisted := assisted, via := none }

def withGraph (s : State) (rs : List Replay) : State :=
  { s with mem := s.mem.writeBytes 0x10000 graph1, replays := rs, nextId := 10 }

def pktGraph (node : Nat) : List Byte := packet 7 [0x10000, 0x10400, 0x1FFF8, node]

theorem reads_at {s : State} {q : QId} {va n : Nat} (h1 : pageParts 2 va n = [(va, n)]) (h2 : Finds s q va n .qRd ⟨0, va⟩) :
    List.Forall₂ (fun (x : Nat × Nat) (y : PTarget × Nat) => y.2 = x.2 ∧ Finds s q x.1 x.2 .qRd y.1) (pageParts 2 va n) [(⟨0, va⟩, n)] := by
  rw [h1]; exact .cons ⟨rfl, h2⟩ .nil

/-- A span of a page that the tables map to itself holds what memory holds there. -/
theorem holds_at {s : State} {q : QId} {k va : Nat} {bs : List Byte} (hs : s.slices = []) (hl : s.serial.locks = [])
    (hp : pageParts (bs.length / 65536 + 2) va bs.length = [(va, bs.length)]) (hr : Reached s q k va bs.length va)
    (hb : s.mem.readBytes va bs.length = bs) : Holds s q k va bs := by
  have h := holds_of hs hl hp hr
  rwa [hb] at h

/-- The same with everything but the reach in one closed question. -/
theorem holds_page {s : State} {q : QId} {k : Nat} {bs : List Byte} (va : Nat)
    (h : s.slices = [] ∧ s.serial.locks = [] ∧ pageParts (bs.length / 65536 + 2) va bs.length = [(va, bs.length)] ∧ s.mem.readBytes va bs.length = bs)
    (hr : Reached s q k va bs.length va) : Holds s q k va bs := holds_at h.1 h.2.1 h.2.2.1 hr h.2.2.2

theorem spans_at {s : State} {q : QId} {k va n : Nat} (hp : pageParts (n / 65536 + 2) va n = [(va, n)]) (hr : Reached s q k va n va) :
    SpanReached s q k va n := by
  intro x hx
  rw [hp] at hx
  rw [List.mem_singleton.mp hx]
  exact ⟨va, hr⟩

theorem witness_GraphsReplay :
    (let s := withGraph (queued idle (pktGraph 0xFFFFFFFF)) []
     let p := pktIn (pktGraph 0xFFFFFFFF)
     Starts s 7 q0 p ∧ p.field 24 4 = 0xFFFFFFFF ∧ Finds s q0 (p.field 16 8) 8 .qWr ⟨0, 0x1FFF8⟩ ∧
       List.Forall₂ (fun (x : Nat × Nat) (y : PTarget × Nat) => y.2 = x.2 ∧ Finds s q0 x.1 x.2 .qRd y.1) (pageParts 2 (p.field 0 8) 64) [(⟨0, 0x10000⟩, 64)]) ∧
    (let r := replay1 true false []
     let s := withGraph (queued idle (packet 0 [])) [r]
     s.replay? r.id = some r ∧ r.wait = true ∧ ctxDispatches s r.tenant r.ctx = true ∧ queueWaits s (r.queue s) = false ∧ graphBusy s r = false ∧
       completionHeld s r.packet = false ∧ graph1.length = 64 ∧ (GraphHdr.of graph1).ok r.graph = true ∧ (GraphHdr.of graph1).state = 0 ∧
       Holds s (r.queue s) r.ctx r.graph graph1 ∧
       SpanReached s (r.queue s) r.ctx (GraphHdr.of graph1).tcb (32 * (GraphHdr.of graph1).nodes)) ∧
    (∀ assisted ∈ [false, true],
     (let r := replay1 false assisted [1]
      let s := withGraph (queued idle (packet 0 [])) [r]
      s.replay? r.id = some r ∧ 1 ∈ r.running ∧ s.launches = [] ∧ ctxDispatches s r.tenant r.ctx = true ∧ queueWaits s (r.queue s) = false ∧
        r.assisted = assisted)) ∧
    (let r := replay1 false true [1]
     let s := withGraph (queued idle (packet 0 [])) [r]
     ∀ x ∈ pageParts 2 (r.recAddr + 16 * r.records) 16, ∃ pa, Reached s (r.queue s) r.ctx x.1 x.2 pa) ∧
    (let r := replay1 false false [1]
     let s := withGraph (queued idle (packet 0 [])) [r]
     Holds s (r.queue s) r.ctx (r.graph + 0x10) (leBytes 8 0x10100) ∧ leNat (leBytes 8 0x10100) = 0x10100 ∧
       Holds s (r.queue s) r.ctx (0x10100 + 32 * 1) (zeros 32) ∧ (Tcb.of (zeros 32)).nsucc = 0 ∧
       Holds s (r.queue s) r.ctx (Tcb.of (zeros 32)).succ []) := by
  refine ⟨⟨starts_of ?_, ?_, by unfold Finds; decide +kernel, ?reads⟩, ⟨?_, ?_, ?_, ?_, ?_, ?_, ?_, ?_, ?_, ?head, ?blocks⟩, ?_, ?recs,
    ?table, ?_, ?block, ?_, [], List.Forall₂.nil, rfl⟩
  case reads =>
    have h : (pktIn (pktGraph 0xFFFFFFFF)).field 0 8 = 0x10000 := by decide +kernel
    rw [h]; exact reads_at (by decide +kernel) (by unfold Finds; decide +kernel)
  case head => exact holds_page 0x10000 (by decide +kernel) (by unfold Reached; decide +kernel)
  case blocks => exact spans_at (va := 0x10100) (n := 64) (by decide +kernel) (by unfold Reached; decide +kernel)
  case recs => exact spans_at (va := 0x10400) (n := 16) (by decide +kernel) (by unfold Reached; decide +kernel)
  case table => exact holds_page 0x10010 (by decide +kernel) (by unfold Reached; decide +kernel)
  case block => exact holds_page 0x10120 (by decide +kernel) (by unfold Reached; decide +kernel)
  all_goals decide +kernel

/-- The control block of a JOIN node without successors. -/
def tcbJoin : List Byte := zeros 8 ++ leBytes 8 1 ++ zeros 16

theorem witness_NodesAreDispatched_join :
    (let r := replay1 false true []
     let s := withGraph (queued idle (pktGraph 1)) [r]
     let s := { s with mem := s.mem.writeBytes 0x10120 tcbJoin }
     let p := pktIn (pktGraph 1)
     Starts s 7 q0 p ∧ p.field 24 4 = 1 ∧ Finds s q0 (p.field 16 8) 8 .qWr ⟨0, 0x1FFF8⟩ ∧ assistedReplay s q0.owner 0 (p.field 0 8) = some r ∧
       r.abandon = none ∧ 1 < r.nodes ∧ r.dispatched.contains 1 = false ∧ graph1.length = 64 ∧ tcbJoin.length = 32 ∧ (Tcb.of tcbJoin).kind = 1 ∧
       Holds s (r.queue s) r.ctx r.graph graph1 ∧ Holds s (r.queue s) r.ctx ((GraphHdr.of graph1).tcb + 32 * 1) tcbJoin ∧
       ∀ x ∈ pageParts 2 (r.recAddr + 16 * r.records) 16, ∃ pa, Reached s (r.queue s) r.ctx x.1 x.2 pa) := by
  refine ⟨starts_of ?_, ?_, by unfold Finds; decide +kernel, ?_, rfl, ?_, ?_, ?_, ?_, ?_, ?head, ?block, ?recs⟩
  case head => exact holds_page 0x10000 (by decide +kernel) (by unfold Reached; decide +kernel)
  case block => exact holds_page 0x10120 (by decide +kernel) (by unfold Reached; decide +kernel)
  case recs => exact spans_at (va := 0x10400) (n := 16) (by decide +kernel) (by unfold Reached; decide +kernel)
  all_goals decide +kernel

/-- The last node of a graph of two, and the number past it. -/
theorem witness_NodesAreDispatched : ∀ n ∈ [1, 2],
    (let r := replay1 false true []
     let s := withGraph (queued idle (pktGraph n)) [r]
     let p := pktIn (pktGraph n)
     Starts s 7 q0 p ∧ p.field 24 4 = n ∧ Finds s q0 (p.field 16 8) 8 .qWr ⟨0, 0x1FFF8⟩ ∧ assistedReplay s q0.owner 0 (p.field 0 8) = some r ∧
       r.abandon = none ∧ r.nodes = 2 ∧ r.dispatched.contains n = false) := by
  intro n h
  simp only [List.mem_cons, List.not_mem_nil, or_false] at h
  unfold Finds
  rcases h with rfl | rfl <;> exact ⟨starts_of (by decide +kernel), by decide +kernel⟩

def pktPatch : List Byte := packet 8 [0x10000, 0x10400, 1, 0]
def patch1 (i : Nat) : PatchOp := { id := i, tenant := 0, ctx := 0, graph := 0x10000, src := 0x10400, count := 1, packet := 5, gen := none }

theorem witness_PatchesApply :
    (let s := withGraph (queued idle pktPatch) []
     Starts s 8 q0 (pktIn pktPatch) ∧ List.Forall₂ (fun (x : Nat × Nat) (y : PTarget × Nat) => y.2 = x.2 ∧ Finds s q0 x.1 x.2 .qRd y.1)
       (pageParts 2 ((pktIn pktPatch).field 0 8) 64) [(⟨0, 0x10000⟩, 64)]) ∧
    (let x := patch1 7
     let s := { blocking (withGraph (queued idle (packet 0 [])) []) (blocked1 8 [] none) with patches := [x] }
     s.patches.find? (fun p => p.id == x.id) = some x ∧ ctxDispatches s x.tenant x.ctx = true ∧ s.packet? x.packet = some (blocked1 8 [] none) ∧
       packetHeld s (blocked1 8 [] none) = false ∧ graph1.length = 64 ∧ (GraphHdr.of graph1).ok x.graph = true ∧ s.replays = [] ∧
       (zeros 128).length = 128 * x.count ∧ fieldAt (zeros 128) 0 4 < (GraphHdr.of graph1).nodes ∧
       Holds s q0 x.ctx x.graph graph1 ∧ Holds s q0 x.ctx x.src (zeros 128) ∧
       SpanReached s q0 x.ctx (GraphHdr.of graph1).param (256 * (GraphHdr.of graph1).nodes)) ∧
    (let s := { blocking (withGraph (queued idle (packet 0 [])) []) (blocked1 8 [] none) with patches := [patch1 6, patch1 7] }
     s.patches.find? (fun p => p.id == 7) = some (patch1 7) ∧ ∃ y ∈ s.patches, y.tenant = 0 ∧ y.ctx = 0 ∧ y.graph = (patch1 7).graph ∧ y.id < 7) := by
  refine ⟨⟨starts_of ?_, ?reads⟩, ⟨?_, ?_, ?_, ?_, ?_, ?_, ?_, ?_, ?_, ?head, ?slots, ?params⟩, ?_⟩
  case reads =>
    have h : (pktIn pktPatch).field 0 8 = 0x10000 := by decide +kernel
    rw [h]; exact reads_at (by decide +kernel) (by unfold Finds; decide +kernel)
  case head => exact holds_page 0x10000 (by decide +kernel) (by unfold Reached; decide +kernel)
  case slots => exact holds_page 0x10400 (by decide +kernel) (by unfold Reached; decide +kernel)
  case params => exact spans_at (va := 0x10200) (n := 512) (by decide +kernel) (by unfold Reached; decide +kernel)
  all_goals decide +kernel

/-! ### Pre-emption -/

def pktPreempt (mode : Nat) : List Byte := packet 9 [mode, 0x10000, 65536, 0x1FFF8]

def preempt1 (mode : Nat) (stopping : Bool) : Preempt :=
  { packet := some 5, mode := mode, stopping := stopping, txOver := false, saveVa := 0x10000, saveLen := 65536, brk := false }

def inPreempt (s : State) (r : Preempt) : State :=
  let s := blocking s (blocked1 9 [] (some ⟨0, 0x1FFF8⟩))
  s.setCtx 0 0 { s.ctx 0 0 with preempt := some r }

/-- Both modes in a running context; a pre-empted context; a drain and an open transaction in a pre-emption under way; and a save
that fits. -/
theorem witness_Preemption :
    (∀ m ∈ [0, 1], StartsAlone 9 (pktPreempt m) ∧ Finds (queued idle (pktPreempt m)) q0 ((pktIn (pktPreempt m)).field 24 8) 8 .qWr ⟨0, 0x1FFF8⟩ ∧
      ((queued idle (pktPreempt m)).ctx 0 0).state = .running) ∧
    (let s := queued idle (pktPreempt 0)
     let s := s.setCtx 0 0 { s.ctx 0 0 with state := .preempted }
     Starts s 9 q0 (pktIn (pktPreempt 0)) ∧ (s.ctx 0 0).state ≠ .running) ∧
    ((inPreempt base (preempt1 1 false)).ctx 0 0).preempt = some (preempt1 1 false) ∧
    (let s := inPreempt (inTx base 1 []) (preempt1 0 true)
     (s.ctx 0 0).preempt = some (preempt1 0 true) ∧ (s.ctx 0 0).state = .running ∧ ∀ l ∈ s.launches, s.launch? l.id = some l) ∧
    (let s := inPreempt (queued idle (packet 0 [])) (preempt1 0 true)
     let x := blocked1 9 [] (some ⟨0, 0x1FFF8⟩)
     (preempt1 0 true).packet.bind s.packet? = some x ∧ packetHeld s x = false ∧ (s.ctx 0 0).state = .running ∧ allStand s 0 0 = true ∧
       drained s 0 0 = true ∧ (saveArea s 0 0 false).length + 4 ≤ (preempt1 0 true).saveLen ∧
       SpanReached s x.q 0 (preempt1 0 true).saveVa ((saveArea s 0 0 false).length + 4)) := by
  refine ⟨?_, ⟨starts_of (by decide +kernel), by decide +kernel⟩, by decide +kernel, by decide +kernel, ?_⟩
  · intro m h
    simp only [List.mem_cons, List.not_mem_nil, or_false] at h
    unfold Finds
    rcases h with rfl | rfl <;> exact ⟨starts_of (by decide +kernel), by decide +kernel⟩
  · refine ⟨?_, ?_, ?_, ?_, ?_, ?_, ?span⟩
    case span =>
      have h : (saveArea (inPreempt (queued idle (packet 0 [])) (preempt1 0 true)) 0 0 false).length = 124 := by decide +kernel
      rw [h]; exact spans_at (va := 0x10000) (n := 128) (by decide +kernel) (by unfold Reached; decide +kernel)
    all_goals decide +kernel

/-- The save area of a context with nothing in it, and 64 bytes that are none. -/
def save0 : List Byte := leBytes 4 0x4B465A01 ++ saveArea idle 0 0 false
def pktResume : List Byte := packet 10 [0x10000, 0, 0x1FFF8, 0]
def withSave (b : List Byte) : State :=
  let s := queued idle pktResume
  let s := s.setCtx 0 0 { s.ctx 0 0 with state := .preempted }
  { s with mem := s.mem.writeBytes 0x10000 b }

theorem witness_ResumeRestores : ∀ b ∈ [save0, []], Starts (withSave b) 10 q0 (pktIn pktResume) ∧
    Finds (withSave b) q0 ((pktIn pktResume).field 16 8) 8 .qWr ⟨0, 0x1FFF8⟩ ∧
    List.Forall₂ (fun (x : Nat × Nat) (y : PTarget × Nat) => y.2 = x.2 ∧ Finds (withSave b) q0 x.1 x.2 .qRd y.1)
      (pageParts 2 ((pktIn pktResume).field 0 8) 128) [(⟨0, 0x10000⟩, 128)] := by
  have hf : (pktIn pktResume).field 0 8 = 0x10000 := by decide +kernel
  intro b h
  rw [hf]
  simp only [List.mem_cons, List.not_mem_nil, or_false] at h
  rcases h with rfl | rfl <;> exact ⟨starts_of (by decide +kernel), by unfold Finds; decide +kernel, reads_at (by decide +kernel) (by unfold Finds; decide +kernel)⟩

theorem witness_ResumeRestores_clauses :
    (let h := save0
     let s := withSave save0
     let sv := Save.parse h
     readTargetsOf [(⟨0, 0x10000⟩, 128)] s = (h, s) ∧ saveHeadOk h 0 0 = true ∧ fieldAt h 8 8 = 128 ∧ sv.launches = [] ∧
       prepLaunches q0 0 sv.launches [] s = (.ok [], s) ∧
       planImages (releaseCores s) (2 ^ 40 - 1) sv [] ((List.range sv.images.length).zip sv.images) [] = some [] ∧
       planRoom (releaseCores s) (2 ^ 40 - 1) sv [] [] = true ∧ sv.images = [] ∧ sv.galleys = [] ∧ sv.graphs = [] ∧ rangesFit (releaseCores s) (2 ^ 40 - 1) sv [] = true ∧
       prepGraphs q0 0 sv.graphs (releaseCores s) = (.ok [], releaseCores s) ∧
       (readInfos q0 0 (sv.blocks []) (releaseCores s)).1 = some []) ∧
    (readTargetsOf [(⟨0, 0x10000⟩, 128)] (withSave [])).2 = withSave [] ∧ saveHeadOk (readTargetsOf [(⟨0, 0x10000⟩, 128)] (withSave [])).1 0 0 = false := by
  decide +kernel

/-! ### Queue-engine rounds, translations and walks -/

def pktAttest : List Byte := packet 12 [1, 2, 3, 4, 5, 6, 7, 8, 0x10000, 0]

/-- A round without work; one whose only lane runs a NOP; a report that fits its page; and REPLAY_ALL. -/
theorem witness_QueueEngineRounds :
    (assign (beginRound idle)).lanes = [] ∧
    (let v := beginRound (queued idle (packet 0 []))
     let u := { v with qe := ⟨(v.qe.start + 1) % 17, (assign v).given⟩ }
     (assign v).lanes = [q0] ∧ Starts u 0 q0 (pktIn (packet 0 []))) ∧
    (let s := queued idle pktAttest
     let p := pktIn pktAttest
     Starts s 12 q0 p ∧ p.h.len = 6 ∧ List.Forall₂ (fun (x : Nat × Nat) (y : PTarget × Nat) => y.2 = x.2 ∧ Finds s q0 x.1 x.2 .qWr y.1)
       (pageParts 3 (p.field 64 8) 4915) [(⟨0, 0x10000⟩, 4915)]) ∧
    StartsAlone 11 (packet 11 []) ∧ q0.owner < 16 := by
  refine ⟨by decide +kernel, ⟨by decide +kernel, starts_of (by decide +kernel)⟩, ⟨starts_of (by decide +kernel), by decide +kernel, ?_⟩,
    starts_of (by decide +kernel), by decide⟩
  have h : pageParts 3 ((pktIn pktAttest).field 64 8) 4915 = [(0x10000, 4915)] := by decide +kernel
  rw [h]; exact .cons ⟨rfl, by unfold Finds; decide +kernel⟩ .nil

def req1 (obj : Nat) : XReq := ⟨0, 0, obj, 0, (wordLaunch 1 4).budgetOn 0, (wordLaunch 1 4).widthCode, ⟨0, false, []⟩⟩

def reqWide : XReq := ⟨0, 0, 3, 0, 0, (wordLaunch 1 4).widthCode, ⟨0, false, List.replicate 8 2⟩⟩

def askCluster (s : State) (obj : Nat) : State := s.setCluster 0 { s.cluster 0 with queue := [req1 obj] }

/-- The request at the head of a cluster's queue has its body composed, and of that `P` holds and the share of the units that wait. -/
theorem composed_of {s : State} {cl : Nat} {r : XReq} {P : Body → Nat → Nat → Prop} [∀ b n m, Decidable (P b n m)]
    (h : (match composeHead s cl with
      | some (r', .ok (t, [(sh, .compose)])) => decide (r' = r) && (findBody s cl r.tenant r.ctx r.obj r.block (r.key cl) sh).isNone &&
          (match composeBody cl r t sh with
            | some (b, n) => decide (P b n (shareOfAll s ((waiters s cl r).filter (fun w => (shapeOf w.1 w.2.2).norm t.words t.hdr.args.length == sh))))
            | none => false)
      | _ => false) = true) :
    ∃ t sh b n, composeHead s cl = some (r, .ok (t, [(sh, .compose)])) ∧ findBody s cl r.tenant r.ctx r.obj r.block (r.key cl) sh = none ∧
      composeBody cl r t sh = some (b, n) ∧
      P b n (shareOfAll s ((waiters s cl r).filter (fun w => (shapeOf w.1 w.2.2).norm t.words t.hdr.args.length == sh))) := by
  split at h
  · rename_i r' t sh heq
    simp only [Bool.and_eq_true, decide_eq_true_eq, Option.isNone_iff_eq_none] at h
    split at h
    · rename_i b n hb
      exact ⟨t, sh, b, n, by rw [heq, h.1.1], h.1.2, hb, of_decide_eq_true h.2⟩
    · cases h.2
  · cases h

/-- Eight arguments of 64 bits and a value that are live at once, under a budget of 16 registers and with no share. -/
def textWide : List Byte :=
  let a (x y : Opnd) : Nat := leNat (leBytes 8 ((encode (.add (word .i64 0 x y .none))).headD 0))
  let words := [10 * 2 ^ 52 + 2 ^ 48 + 8 * 2 ^ 40 + ((List.range 8).map (fun i => Ty.i64.code * 2 ^ (5 * i))).sum,
    a (.arg 0) (.arg 0), a (.dist 1) (.arg 0), a (.arg 1) (.arg 2), a (.arg 3) (.arg 4), a (.arg 5) (.arg 6), a (.arg 7) (.arg 7),
    a (.dist 1) (.dist 2), a (.dist 1) (.dist 4), a (.dist 1) (.dist 6), 7 * 2 ^ 54]
  text1.take 64 ++ words.flatMap (leBytes 8)

def jWide : State :=
  let s := onLaunch base (fun l => { l with obj := 3, budget := 0 })
  let s := s.setCtx 0 0 { s.ctx 0 0 with objs := [{ objText with textWords := 11, shadows := [(0, textWide)] }] }
  let s := onThread s (fun th => { th with wait := .xlate, body := none, block := 0, args := List.replicate 8 (S .i64 (List.replicate 8 1)) })
  { s.setCluster 0 { s.cluster 0 with queue := [reqWide] } with xlats := [] }

/-- Object 4 has no block: its words break a format. -/
def jBad : State :=
  let s := base.setCtx 0 0 { base.ctx 0 0 with objs := [{ codeObj 4 0 0 with nblock := 0 }] }
  onThread (askCluster s 4) (fun th => { th with wait := .xlate, body := none })

/-- A page of 64 bytes that is not fetched yet; its hash is that of zeros. -/
def jPage : State :=
  let s := tables (askCluster idle 3)
  s.setCtx 0 0 { s.ctx 0 0 with objs :=
    [{ codeObj 3 1 1 with bytes := 0x10040, funcOff := 0x10000, blockOff := 0x10020, textOff := 0x10040, hashes := [sha3 (List.replicate 64 0 ++ List.replicate (65536 - 64) 0)] }] }

theorem witness_TranslationsServe :
    (let s := askCluster (withText idle) 3
     (∃ t sh b n, composeHead s 0 = some (req1 3, .ok (t, [(sh, .compose)])) ∧
        findBody s 0 0 0 3 0 ((req1 3).key 0) sh = none ∧ composeBody 0 (req1 3) t sh = some (b, n) ∧
        n ≤ shareOfAll s ((waiters s 0 (req1 3)).filter (fun w => (shapeOf w.1 w.2.2).norm t.words t.hdr.args.length == sh))) ∧ s.revoked 0 0 3 = false ∧ Word.bit (s.tenant 0).mode 2 = false ∧
       keyXlat s (req1 3) 0 = none ∧
       s.xlats = []) ∧
    ((match composeHead jBad 0 with | some (r, .error .format) => decide (r = req1 4) | _ => false) = true ∧
      (waiters jBad 0 (req1 4)).length = 1 ∧ (jBad.launch? 1).isSome = true) ∧
    (jPage.NoExact ∧ pageNeeded jPage 0 0 3 0 ≠ [] ∧ jPage.faults = [] ∧ jPage.walks = [] ∧ (jPage.obj? 0 0 3).isSome = true ∧
      (walk jPage 0 0 0x20000).1 = .ok ⟨0, 0, 0x20000, 0x10000, 0x20000, 0, false, true⟩ ∧
      entryCheck jPage ⟨0, 0, 0x20000, 0x10000, 0x20000, 0, false, true⟩ 0x20000 64 .rd = none ∧
      sha3 ((jPage.memOf 0).readBytes 0x20000 64 ++ List.replicate (65536 - ((jPage.memOf 0).readBytes 0x20000 64).length) 0) =
        sha3 (List.replicate 64 0 ++ List.replicate (65536 - 64) 0)) := by
  refine ⟨⟨composed_of (P := fun _ n m => n ≤ m) ?_, ?_⟩, ?_, noExact_of ?_, ?_, ?_, ?_, ?_, ?_, ?_, ?hash⟩
  case hash =>
   have h : (jPage.memOf 0).readBytes 0x20000 64 = List.replicate 64 0 := by decide +kernel
   rw [h, List.length_replicate]
  all_goals decide +kernel

theorem witness_TranslationsServe_spill :
    (∃ t sh b n, composeHead jWide 0 = some (reqWide, .ok (t, [(sh, .compose)])) ∧ findBody jWide 0 0 0 3 0 (reqWide.key 0) sh = none ∧
      composeBody 0 reqWide t sh = some (b, n) ∧
      shareOfAll jWide ((waiters jWide 0 reqWide).filter (fun w => (shapeOf w.1 w.2.2).norm t.words t.hdr.args.length == sh)) < n) ∧
    jWide.revoked 0 0 3 = false ∧ Word.bit (jWide.tenant 0).mode 2 = false ∧ keyXlat jWide reqWide 0 = none ∧ jWide.xlats = [] :=
  ⟨composed_of (P := fun _ n m => m < n) (by decide +kernel), by decide +kernel⟩

def command1 (k : CmdKind) (counter : Option (PTarget × Nat)) : Command :=
  { id := 7, parent := none, kind := k, tenant := 0, ctx := 0, launch := 1, group := 0, core := 0, engine := some 0, reads := [], writes := [],
    ring := none, counter := counter, owns := [], later := [], dsts := [], todo := none, walks := [] }

def walk1 (page : Nat) : Walk := { id := 7, cluster := 0, tenant := 0, ctx := 0, page := page, va := page * 65536, access := 0, askers := [.unit ⟨2, 0, none⟩ 0] }

def jWalk (page : Nat) : State := { tables base with walks := [walk1 page] }

def jTouch : State :=
  let s := tables base
  let s := s.setCtx 0 0 { s.ctx 0 0 with poolBase := 0x50000, poolMap := 0x60000, poolPages := 8 }
  { s with mem := s.mem.writeNat 0x60000 8 0x80,
           faults := [{ id := 7, cluster := 0, tenant := 0, ctx := 0, page := 4, va := 0x40000, access := 0, firstTouch := true, slot := none, joined := 0, askers := [] }] }

/-- A walk that ends in a leaf and one that fails; a first touch that takes the last page of its pool; an INVAL under way. -/
theorem witness_WalksAndFaultsEnd :
    (let s := jWalk 1
     let v := { s with walks := [] }
     s.walks.find? (fun x => x.id == 7) = some (walk1 1) ∧ (∃ g, s.galley? 2 = some g ∧ (g.thread? ⟨2, 0, none⟩).isSome = true) ∧ walkBegun s (walk1 1) = true ∧
       (walkVia v 0 0 0 0x10000).1 = .ok ⟨0, 0, 0x10000, 0x10000, 0x10000, 0, false, true⟩ ∧ s.walkHeld 0 0 0x10000 = false ∧ s.packets = []) ∧
    (let v := { jWalk 3 with walks := [] }
     (walkVia v 0 0 0 0x30000).1 = .fail .pteFormat ∧ walkBegun (jWalk 3) (walk1 3) = true ∧ (jWalk 3).walkHeld 0 0 0x30000 = false) ∧
    (let n := 7
     let pa := 0x50000 + 65536 * n
     let m := poolBit jTouch 0x60000 n false
     let z := { m with mem := m.mem.zero pa 65536 }
     let y := z.writePhys ⟨0, 0x400020⟩ (leBytes 8 (touchedLeaf pa 0x222))
     jTouch.slices = [] ∧ (jTouch.faults.find? (fun x => x.id == 7 && x.firstTouch)).isSome = true ∧ poolMapOk jTouch 0 0 = true ∧
       poolFind jTouch 0x60000 8 (poolWords (jTouch.ctx 0 0)) 0 = (.ok (some n), jTouch) ∧ (∀ f ∈ jTouch.faults, poolHeld jTouch f = false) ∧ (∀ f ∈ jTouch.faults, touchHeld jTouch f n = false) ∧ (jTouch.tenant 0).spanIn pa 65536 = true ∧ walk z 0 0 (4 * 65536) = (.pageFault 0x400020 0x222, z) ∧
       Word.bit 0x222 9 = true ∧ walk y 0 0 (4 * 65536) = (.ok ⟨0, 0, 0x40000, 0x10000, pa, 0, false, true⟩, y)) ∧
    (let s := base.setCtx 0 0 { base.ctx 0 0 with invalBusy := true }
     (s.ctx 0 0).invalBusy = true ∧ invalOwed s 0 0 = false) ∧
    (let s := { base.setCtx 0 0 { base.ctx 0 0 with invalBusy := true, invalFrom := 8 } with commands := [command1 (.spset 0 8 5) none] }
     (s.ctx 0 0).invalBusy = true ∧ invalOwed s 0 0 = true) :=
  ⟨⟨by decide +kernel, ⟨(jWalk 1).galleys.headD (twoPaths (pathAt 0 0 .none false none 0) (pathAt 0 0 .none false none 0)), by decide +kernel⟩, by decide +kernel⟩,
    by decide +kernel, by decide +kernel, by decide +kernel, by decide +kernel⟩

/-- At queue A the one unit, at a control word, is a candidate; at queue S nothing is. -/
def jIssue : State :=
  let s := base.setPkg { base.pkg with step := 7 }
  { s with cur := [] }

theorem witness_IssueChoosesTheOldest : jIssue.cur = [] ∧ jIssue.pkg.runs = true ∧ candidates (releaseCores (primeCore jIssue 0)) 0 (queueNum .s) = [] ∧
    candidates (releaseCores (primeCore jIssue 0)) 0 (queueNum .a) ≠ [] ∧ ((releaseCores (primeCore jIssue 0)).galleys.map Galley.id).Nodup := by decide +kernel

/-! ### Engines and relayouts at work -/

def clustered (s : State) : State :=
  let s := mapped s
  s.setCluster 0 { s.cluster 0 with tlb := (s.core 0).tlb }

def jCmd (k : CmdKind) : State := { clustered base with commands := [command1 k (some (⟨0, 0x1FFF8⟩, 1))] }

theorem witness_EngineCommandsComplete :
    (∀ k ∈ [CmdKind.spset 524280 8 5, .cpy true true 0 64 64, .cpy false true 0x1FFC0 0 64, .cpy true false 0 0x1FFB8 64, .cpy false true 0x30000 0 64],
      (jCmd k).slices = [] ∧ (jCmd k).command? 7 = some (command1 k (some (⟨0, 0x1FFF8⟩, 1))) ∧
        (command1 k (some (⟨0, 0x1FFF8⟩, 1))).todo = none ∧ (jCmd k).serial.locks = [] ∧
        ((jCmd k).setCommand { command1 k (some (⟨0, 0x1FFF8⟩, 1)) with owns := [], later := [], dsts := [] }).counterFree ⟨0, 0x1FFF8⟩ = true ∧
        (jCmd k).lateFail 0 ⟨0, 0x1FFF8⟩ 8 true = none ∧
        (command1 k (some (⟨0, 0x1FFF8⟩, 1))).ready (jCmd k) = true ∧ (command1 k (some (⟨0, 0x1FFF8⟩, 1))).isMatrix = false) ∧
    (let c := command1 (.cpy false true 0x1FFC0 0 64) (some (⟨0, 0x1FFF8⟩, 1))
     let s := jCmd (.cpy false true 0x1FFC0 0 64)
     Answered s c.view c.id .engRd [⟨0, 0, 0x1FFC0, 64, 1⟩] [⟨0, 0x1FFC0⟩] ∧ (match c.run s with | .go _ _ => true | _ => false) = true) ∧
    (let c := command1 (.cpy true false 0 0x1FFB8 64) (some (⟨0, 0x1FFF8⟩, 1))
     Answered (jCmd (.cpy true false 0 0x1FFB8 64)) c.view c.id .engWr [⟨0, 0, 0x1FFB8, 64, 1⟩] [⟨0, 0x1FFB8⟩]) ∧
    (match (command1 (.cpy false true 0x30000 0 64) (some (⟨0, 0x1FFF8⟩, 1))).run (jCmd (.cpy false true 0x30000 0 64)) with | .wait _ => true | _ => false) = true := by
  unfold Answered
  decide +kernel

/-- Where the first move fails nothing has been written before. -/
theorem runMoves_first {s : State} {v : View} {id core : Nat} {ms : List Move} {r : Req} {c : Code} {ts us : List PTarget}
    (ha : engScan s v id .engRd ((ms.mapIdx Move.srcReq).filterMap runMoves.id') = (⟨ts, some (r, c), false⟩, s))
    (hb : engScan s v id .engWr ((ms.mapIdx Move.dstReq).filterMap runMoves.id') = (⟨us, none, false⟩, s)) (hr : r.lane = 0) :
    runMoves s v id core ms = .fail (s.choose 1).2 r.va c := by
  simp [runMoves, ha, hb, hr, aims, writtenBefore]

def jFault : State := { clustered base with commands := [command1 (.cpy false true (2 ^ 57) 0 64) none] }

theorem witness_EngineFaultsAreFatal :
    (let c := command1 (.cpy false true (2 ^ 57) 0 64) none
     let s := jFault
     s.command? 7 = some c ∧ c.ready s = true ∧ c.todo = none ∧ (s.core 0).mats = [] ∧
       engScan s c.view c.id .engRd [⟨0, 0, 2 ^ 57, 64, 1⟩] = (⟨[], some (⟨0, 0, 2 ^ 57, 64, 1⟩, .nonCanonical), false⟩, s) ∧
       (s.ctx 0 0).fatal = none ∧ (s.ctx 0 0).state ≠ .disabled ∧
       ∃ u, c.run s = .fail u (2 ^ 57) .nonCanonical ∧ (u.ctx 0 0).fatal = none ∧ (u.ctx 0 0).state ≠ .disabled) := by
  have h0 : (command1 (.cpy false true (2 ^ 57) 0 64) none).run jFault =
      runMoves jFault (command1 (.cpy false true (2 ^ 57) 0 64) none).view 7 0 (copyMoves false true (2 ^ 57) 0 64) := by
    simp [Command.run, command1, Command.begin]
  have h := h0.trans (runMoves_first (ts := []) (us := []) (r := ⟨0, 0, 2 ^ 57, 64, 1⟩) (c := .nonCanonical)
    (by decide +kernel) (by decide +kernel) rfl)
  refine ⟨?_, ?_, ?_, ?_, ?_, ?_, ?_, _, h, ?_, ?_⟩ <;> decide +kernel

theorem witness_SequencerEmits : eSeq.NoExact ∧
    (let x := eSeq.core 0
     1 < x.seqs.length ∧ x.seqs.getD 1 ⟨none, none⟩ = ⟨some (seqD 2), some (seqRun1 (seqD 2))⟩ ∧ (eSeq.launch? 1).isSome = true ∧
     (eSeq.held 0).length < 64 ∧ seqRoom x (seqRun1 (seqD 2)) = true) := ⟨noExact_of (by decide), by decide +kernel⟩

/-- An operation on `.bf16` in flight at core 0. -/
def mat1 : MatOp := { id := 7, launch := 1, group := 0, op := 0x1C8, ty := .bf16, mod := 0, lit := lit1, conv := none, slotA := 0, slotB := 0, tcCopy := none }

def jMat : State :=
  let s := eMat 0 0 true [] r1
  let s := s.setCore 0 { s.core 0 with mats := [mat1] }
  { s with commands := [{ command1 (.matrix [0, 1]) none with engine := none }] }

theorem witness_MatrixOperationsRetire : (jMat.core 0).mats = [mat1] ∧
    (let c : Command := { command1 (.matrix [0, 1]) none with engine := none }
     matRings mat1.op mat1.ty mat1.lit ≠ [] ∧ (jMat.core 0).rings[0]?.isSome = true ∧ (jMat.core 0).rings[5]?.isSome = true ∧
     (matRings mat1.op mat1.ty mat1.lit).all (fun x => x.1 < 2) = true ∧ jMat.command? mat1.id = some c ∧ c.ready jMat = true ∧ mat1.conv = none ∧ mat1.ordered = false) := by decide +kernel

/-- A relayout of `r1` to layout 2 at 0x28000, with its map at 0x2F000: no tile queued, the last queued, and it converting. -/
def job1 (queued_ done : Nat) (tiles : List (Nat × Nat)) (active : List TileConv) : Relayout :=
  { id := 7, tenant := 0, ctx := 0, record := ⟨0x10000, rRel⟩, recPa := ⟨0, 0x10000⟩, newTag := 2, newBase := 0x28000, map := 0x2F000,
    counter := (⟨0, 0x1FFF8⟩, 1), total := tileCount rRel, queued := queued_, tiles := tiles, active := active, done := done,
    stopped := false, walks := [], parked := false, cluster := 0 }

def jJob (r : Relayout) : State := { clustered (dRec [] rRel) with relayouts := [r] }

/-- Tile 3 as its engine has taken it. -/
def conv3 : TileConv :=
  let r := job1 4 0 [(0, 3)] []
  let x := (tileScan (jJob r) r 3).1
  ⟨0, 3, (partLines (tileParts rRel 1 0x20000 3) x.o.ts ++ partLines (tileParts rRel 2 0x28000 3) x.n.ts).dedup, x.m.ts.headD ⟨0, 0⟩, x.o.ts, x.n.ts, []⟩

theorem witness_RelayoutsConvert : (∀ r, (jJob r).slices = [] → (jJob r).NoExact) ∧
    (let r := job1 0 0 [] []
     let s := jJob r
     let va := (unitAddr rRel 2 0x28000 (tileOrigin rRel 0)).1
     s.slices = [] ∧ s.serial.locks = [] ∧ s.relayouts = [r] ∧ r.queued < r.total ∧ Answered s r.view 0 .engWr [⟨0, 0, va, 1, 1⟩] [⟨0, 0x28000⟩]) ∧
    (let r := job1 4 0 [(0, 3)] []
     let s := jJob r
     nextTile s 0 = some (r, 3) ∧
       (match tileScan s r 3 with
        | (⟨⟨mt :: _, none, false⟩, ⟨w, none, false⟩, ⟨o, none, false⟩, ⟨n, none, false⟩⟩, v) =>
          decide (v = s ∧ mt.tgt = 0 ∧
            tileHeld s ((partLines (tileParts rRel 1 0x20000 3) o ++ partLines (tileParts rRel 2 0x28000 3) n).dedup) mt w n = false ∧
            tilePoison s r 3 o (readHalves w s).1 = none)
        | _ => false) = true) ∧
    (∀ done ∈ [0, 3],
      let r := job1 4 done [] [conv3]
      let s := jJob r
      s.relayouts = [r] ∧ r.total = 4 ∧ r.active.find? (fun a => a.stack == 0) = some conv3 ∧ s.serial.locks = [] ∧
        (s.setRelayout (r.without conv3)).counterFree conv3.entry = true ∧ tileLate s r conv3 = none ∧
        s.lateFail r.tenant r.recPa 16 false = none ∧ s.lateFail r.tenant r.counter.1 8 true = none ∧ r.recPa.tgt = 0 ∧ r.recPa.pa + 16 ≤ r.counter.1.pa ∧
        (let u := abortTile (setEntry (copyTile s r conv3) conv3.entry (mapPlace r.map 3).2 2) r 3
         let r' : Relayout := { r.without conv3 with done := done + 1 }
         (u.setRelayout r').counterFree r.recPa = true ∧ (u.setRelayout r').counterFree r.counter.1 = true)) := by
  refine ⟨fun r h => noExact_of h, ?_, by decide +kernel, by decide +kernel⟩
  unfold Answered
  decide +kernel

/-- A fatal context whose groups all stand, with the dump left to firmware and to the host; and a unit inside a block of a revoked object. -/
theorem witness_FatalContextsAndDumps :
    (∀ a ∈ [false, true],
      let f : FatalRec := { fatal1 with assisted := a }
      let s := idle.setCtx 0 0 { idle.ctx 0 0 with state := .fatal, fatal := some f }
      (s.ctx 0 0).fatal = some f ∧ (s.ctx 0 0).state = .fatal ∧ f.dumping = true ∧ s.commands = [] ∧ s.relayouts = [] ∧ allStand s 0 0 = true ∧ s.launchesOf 0 0 = [] ∧ dumpBytes (s.ctx 0 0) < 512) ∧
    (let s := onThread base (fun th => { th with instr := 1 })
     let s := s.setCtx 0 0 { s.ctx 0 0 with state := .fatal, revoking := [4] }
     (s.ctx 0 0).state = .fatal ∧ (s.galleys.map Galley.id).Nodup ∧ (s.launches.map Launch.id).Nodup ∧
       ∃ l ∈ s.launchesOf 0 0, l.obj = 4 ∧ ∃ g ∈ s.galleys, g.launch = l.id ∧ g.core.isSome = true ∧
         ∃ x ∈ g.units, x.1.item = none ∧ atSafepoint s l x.2 = false) := by decide +kernel

/-! ### Native words -/

/-- A change of the native state of the one unit. -/
def onNative (s : State) (f : NativeRun → NativeRun) : State := onThread s (fun th => { th with native := th.native.map f })

/-- The unit of a native word, with an arrived head in load queue 0, none in queue 1, and a share of `n` bytes. -/
def kNat (n : Nat) : State :=
  onNative (State.reset.withFetchWord 64 0x27F21000640205FF) (fun x =>
    { x with shareLen := n, loads := [(0, [⟨true, [1, 2, 3, 4, 5, 6, 7, 8], 0⟩]), (1, [])] })

theorem native_and {s : State} {P : Exe → NativeRun → Prop} [∀ e n, Decidable (P e n)]
    (h : (match exe? s with | some e => (match e.th.native with | some n => decide (P e n) | none => false) | none => false) = true) :
    ∃ e n, exe? s = some e ∧ e.th.native = some n ∧ P e n := by
  split at h
  · rename_i e he
    split at h
    · rename_i n hn; exact ⟨e, n, he, hn, of_decide_eq_true h⟩
    · cases h
  · cases h

/-- A share that exactly holds eight lanes of 8 bytes, and one byte less; both load queues. -/
theorem witness_NativeWords : (∃ e n, exe? (kNat 64) = some e ∧ e.th.native = some n ∧
      ((∀ v ∈ n.tokens, v < 255) ∧ 8 * e.l.g ≤ n.shareLen ∧ n.headReady 0 = true ∧ n.headReady 1 = false ∧ e.uid = ⟨e.g.id, 0, none⟩ ∧
        e.g.paths = [e.path] ∧ e.path.th = e.th ∧ e.th.mask ≠ 0)) ∧
    ∃ e n, exe? (kNat 63) = some e ∧ e.th.native = some n ∧ n.shareLen < 8 * e.l.g :=
  ⟨native_and (by decide +kernel), native_and (by decide +kernel)⟩

/-- A native unit that owes nothing, and one with a store whose halves have issued. -/
theorem witness_UnfoldsFromNative : (∃ e n, exe? (kNat 64) = some e ∧ e.th.native = some n ∧
      (e.owes (kNat 64) = false ∧ e.uid = ⟨e.g.id, 0, none⟩ ∧ e.g.paths = [e.path] ∧ e.path.th = e.th)) ∧
    (let s := onNative (kNat 64) (fun x => { x with stores := [⟨false, [(0, 0, 0x10000)], [], 4, 0, 0⟩], data := [⟨[7], 0⟩] })
     ∃ e n, exe? s = some e ∧ e.th.native = some n ∧ e.owes s = true) :=
  ⟨native_and (by decide +kernel), native_and (by decide +kernel)⟩

def replyNat (loads : Tbl (List LoadEntry)) (spad : Bool) : State :=
  onNative (mapped (State.reset.withFetchWord 64 0x27F21000640205FF)) (fun x =>
    { x with loads := loads, stores := [⟨spad, [(0, 0, 0x10000)], [], 4, 0, 0⟩], data := [⟨[7], 0⟩] })

/-- A load outstanding and none; a store to the scratchpad and one to device memory with both halves issued. -/
theorem witness_RepliesAndStores : ∀ x ∈ [(true, true), (true, false), (false, true), (false, false)],
    (let s := replyNat (if x.1 then [(0, [⟨false, [], 0⟩])] else []) x.2
     s.slices = [] ∧ ∃ g ∈ s.galleys, s.galley? g.id = some g ∧ (s.launch? g.launch).isSome = true ∧
       (∀ th ∈ g.threads, ∀ n ∈ th.native.toList, ∀ v ∈ n.tokens, v < 255) ∧ (∀ p ∈ g.paths, p.items = []) ∧
       ((g.outstanding == []) == !x.1) = true ∧
       (match g.storeUnits with
        | [u] => (match exeAt s u with
          | some e => (match e.th.native with
            | some n => decide (e.uid.item = none ∧ e.tx? = none ∧ n.stores.length = 1 ∧ n.data.length = 1 ∧
                ∀ a ∈ n.stores, a.narrow = [] ∧ (a.targets.map Prod.fst).Nodup ∧
                  ∀ y ∈ a.targets, (e.multi = true ∨ laneIn e.act y.1 = true) ∧ s.blockedSpan e.me true ⟨y.2.1, y.2.2⟩ a.bytes = false ∧
                    s.lateFail e.l.tenant ⟨y.2.1, y.2.2⟩ a.bytes false = none ∧ y.2.1 = 0)
            | none => false)
          | none => false)
        | _ => false) = true) := by decide +kernel

/-! ### Registers, bring-up and accesses from outside -/

def openPkg (s : State) : State := s.setPkg { s.pkg with step := 7 }

/-- The last bytes of device memory, and the byte past them; the first byte past an aperture of 1 GiB; configuration accesses before and
after step 3 of bring-up. -/
theorem witness_OutsideAccesses : (openPkg base).NoExact ∧ (openPkg base).pkg.open_ = true ∧ (openPkg base).serial.locks = [] ∧ (openPkg base).commands = [] ∧
    (openPkg base).relayouts = [] ∧ deviceBytes - 8 + 8 ≤ deviceBytes ∧ (deviceBytes - 8) % 8 = 0 ∧
    (openPkg base).poisoned ⟨0, deviceBytes - 8⟩ 8 = false ∧ aopListed 15 = true ∧ aopExact 15 = false ∧ aopListed 17 = true ∧ aopExact 17 = true ∧ deviceBytes < deviceBytes - 8 + 9 ∧
    (let s := (openPkg base).setPkg { (openPkg base).pkg with aperture := 1, linkUp := true }
     s.pkg.open_ = true ∧ s.pkg.linkUp = true ∧ s.pkg.aperture * 2 ^ 30 < 2 ^ 30 - 7 + 8 ∧ (2 ^ 30 - 8 : Nat) + 8 ≤ s.pkg.aperture * 2 ^ 30 ∧
       s.pkg.retriesConfig = false ∧ (s.setPkg { s.pkg with step := 3 }).pkg.retriesConfig = true) :=
  ⟨noExact_of (by decide), by decide +kernel⟩

/-- A package before each of the steps that follow. -/
def atStep (n : Nat) : State := State.reset.setPkg { State.reset.pkg with step := n }

theorem witness_BringUpAndRecovery : (∀ n ∈ [1, 2, 3, 4, 5, 6, 7], (atStep n).pkg.step = n ∧ (atStep n).pkg.failed = false ∧ (atStep n).pkg.level4 = false ∧
      (atStep n).pkg.ready = false) ∧
    (let s := (atStep 4).setPkg { (atStep 4).pkg with failed := true }
     let v : Word := 0x80001000
     s.pkg.window = true ∧ Word.field v.toNat 29 13 = 0 ∧ Word.bit v.toNat 31 = true ∧ s.pkg.recBusy = false ∧ v.toNat % 2 ^ 13 = 4096 ∧
       (0x80001001 : Word).toNat % 2 ^ 13 = 4097) := by decide +kernel

/-- Readings at the trigger of level 2 and beyond that of level 4; slot tables at their last resource and slot. -/
theorem witness_SensorsAndSlotTables :
    ((base.setPkg { base.pkg with step := 4 }).pkg.window = true ∧ Word.bit (0x02000000 : Word).toNat 25 = true) ∧
    (∃ r : Readings, level4Of r = none ∧ 95 ≤ r.junction.getD 3 0 ∧ r.moduleOver = true) ∧
    (∃ r : Readings, level4Of r ≠ none ∧ (base.ctx 0 0).fatal = none ∧ (base.ctx 0 0).state ≠ .disabled) ∧
    reservedGiB 0x17FFFFFFFF = true ∧ reservedGiB 0 = false ∧
    (let s := base.setPkg { base.pkg with slots := [(64 * 149 + 63, 3)] }
     ([5] : List Nat).contains (slotOwner s 149 63) = false ∧ nextTenant [5] (s.pkg.served.getD 149 15) = some 5 ∧
       ([slotOwner s 149 63] : List Nat).contains (slotOwner s 149 63) = true) := by
  refine ⟨by decide +kernel, ⟨⟨[0, 0, 0, 95], [], [], true, false, 0, 100, false⟩, by decide +kernel⟩, ⟨⟨[126, 0, 0, 0], [], [], false, false, 0, 100, false⟩, by decide +kernel⟩,
    by decide +kernel, by decide +kernel, by decide +kernel⟩

/-- Tenant 1 disabled, with a window of the first GiB and a fault-buffer entry on die 3. -/
def regs : State :=
  let s := openPkg base
  s.setTenant 1 { s.tenant 1 with enable := false, wins := [(0, 2 ^ 31)], bufs := [(3, ⟨[⟨0x10000, 0, 1, 0, false, 0, 0, 0⟩], false⟩)] }

/-- Values at the ends of the ranges of CEMASK, CLMASK, WIN, FBCFG and CTL, on an enabled and on a disabled tenant. -/
theorem witness_TenantRegisters : regs.pkg.open_ = true ∧
    (∀ t ∈ [0, 1, 15], (∀ i ∈ others t, (regs.tenant i).cemask &&& 0xFFFFFFFF = 0) ∧
      ∀ e ∈ (regs.tenant t).engines, Word.bit 0xFFFFFFFF e = false → ∀ c ∈ regs.commands, c.engine ≠ some e) ∧
    (∀ i ∈ others 0, (regs.tenant i).clmask &&& (2 ^ 40 - 1) = 0) ∧
    (∀ c ∈ (regs.tenant 0).clusters, Word.bit (2 ^ 40 - 1) c = false → clusterBusy regs c = false) ∧
    (511 % 2 ^ 32 / 2 ^ 31 = 0 ∧ Word.field (511 % 2 ^ 32) 30 9 = 0) ∧
    (2 ^ 31 % 2 ^ 31 = 0 ∧ Word.bit (2 ^ 31) 31 = true ∧ (regs.tenant 0).enable = true ∧ (regs.tenant 1).enable = false ∧
      Word.bit 0 31 = false ∧ ∀ k, k < 16 → (regs.ctx 1 k).enable = false) ∧
    (Word.field 1 31 14 = 0 ∧ Word.field 1 7 6 = 0 ∧ (∀ k, k < 16 → (regs.ctx 1 k).objs = []) ∧ Word.bit (regs.tenant 1).mode 0 = false) ∧
    (∀ b ∈ (regs.tenant 0).bufs, b.2.entries = []) ∧ 0 < (((regs.tenant 1).bufs.getD 3 .reset).entries).length := by decide +kernel

/-- Both forms of SIGNCTL on a disabled tenant, the refused one on an enabled tenant, and a copy under way. -/
theorem witness_SignerKeys : regs.pkg.open_ = true ∧
    (∀ n ∈ [2 ^ 31 + 7, 2 ^ 31 + 256], Word.field n 29 24 = 0 ∧ Word.field n 15 9 = 0 ∧ Word.field n 7 3 = 0 ∧ Word.bit n 31 = true) ∧
    ((regs.tenant 1).enable = false ∧ (regs.tenant 1).signBusy = none ∧ (regs.tenant 1).spanIn (regs.tenant 1).signAddr 2592 = true) ∧
    (regs.tenant 0).enable = true ∧
    (let s := regs.setTenant 1 { regs.tenant 1 with signBusy := some 7 }
     s.NoExact ∧ (s.tenant 1).signBusy = some 7 ∧ s.serial.locks = [] ∧ s.blockedSpan none false ⟨0, (s.tenant 1).signAddr⟩ 2592 = false) := by
  refine ⟨?_, ?_, ?_, ?_, noExact_of ?_, ?_⟩ <;> decide +kernel

/-- Queue 63 of tenant 0 enabled and stopped with a ring of 4,096 bytes; queue 0 of tenant 0 and of the physical function disabled. -/
def queueRegs : State :=
  let s := mapped (openPkg base)
  let s := s.setQueue ⟨0, 63⟩ { s.queue ⟨0, 63⟩ with enable := true, state := .stopped, logSize := 12, base := 0x10000 }
  let s := s.setQueue ⟨0, 0⟩ { s.queue ⟨0, 0⟩ with base := 2 ^ 24 }
  s.setQueue ⟨16, 7⟩ { s.queue ⟨16, 7⟩ with base := 0x17FF000000 }

theorem witness_QueueRegisters : (∀ q ∈ [⟨0, 0⟩, ⟨0, 63⟩, ⟨15, 63⟩, ⟨16, 7⟩], queueMapped queueRegs q = true) ∧
    (∀ log ∈ [12, 24], ∀ q ∈ [⟨0, 0⟩, ⟨16, 7⟩],
      (let n := 2 ^ 31 + log
       Word.field n 19 5 = 0 ∧ 12 ≤ log ∧ log ≤ 24 ∧ Word.field n 23 20 = 0 ∧ n % 32 = log ∧ Word.bit n 31 = true ∧
         (queueRegs.queue q).enable = false ∧ (queueRegs.queue q).base % 2 ^ log = 0 ∧
         ringPlaced queueRegs q (queueRegs.queue q).base (2 ^ log) = true)) ∧
    ((queueRegs.tenant 0).enable = true ∧ (queueRegs.ctx 0 0).enable = true) ∧
    (let x := queueRegs.queue ⟨0, 63⟩
     x.enable = true ∧ x.ctx = 0 ∧ x.logSize = 12 ∧ x.state = .stopped ∧ Word.bit (2 ^ 31 + 2 ^ 30 + 12) 30 = true ∧ 13 ≠ x.logSize ∧
       4080 % 16 = 0 ∧ 4080 < 2 ^ x.logSize ∧ 2 ^ x.logSize ≤ 4096 ∧ 8 % 16 ≠ 0) := by decide +kernel

/-- The first offset of each stretch that no table lists, of the physical function and of a tenant. -/
theorem witness_RegisterWritesDecode_unlisted :
    (∀ off ∈ [0x200, 0x14000, 0x20018, 0x2000000, 0x30, 0x10040, 0x10110], (0x200 ≤ off ∧ off < 0x10000) ∨ (0x14000 ≤ off ∧ off < 0x20000) ∨
      (0x20018 ≤ off ∧ off < 0x1000000) ∨ 0x2000000 ≤ off ∨ (off < 0x200 ∧ 0x30 ≤ off % 0x40) ∨
      (0x10000 ≤ off ∧ off < 0x14000 ∧ ((0x40 ≤ off % 0x400 ∧ off % 0x400 < 0x80) ∨ 0x110 ≤ off % 0x400))) ∧
    ∀ off ∈ [0x1000, 0x4800, 0x5000, 0x6200, 0x10000, 0x30, 0x4008, 0x4050], (0x1000 ≤ off ∧ off < 0x4000) ∨ (0x4800 ≤ off ∧ off < 0x5000) ∨
      (0x5000 ≤ off ∧ off < 0x6000 ∧ off ≠ 0x5008 ∧ off ≠ 0x5028) ∨ (0x6200 ≤ off ∧ off < 0x8000) ∨ 0x10000 ≤ off ∨
      (off < 0x1000 ∧ 0x30 ≤ off % 0x40) ∨ (0x4000 ≤ off ∧ off < 0x4800 ∧ (off % 0x80 = 0x08 ∨ off % 0x80 = 0x50)) := by decide

theorem witness_RegisterWritesDecode : regs.pkg.open_ = true ∧ base.pkg.open_ = false ∧ (0xFFFF000 : Word).toNat % 2 ^ 12 = 0 ∧
    (0xFFFF000 : Word).toNat < 2 ^ 52 ∧ (0xFFFF : Word).toNat < 2 ^ 16 ∧ (0xFFFFFFFF : Word).toNat < 2 ^ 32 ∧ (0xFFFFF8 : Word).toNat % 8 = 0 := by
  decide +kernel

/-- Write pointers at the last header of the ring, at its size and between headers; both modes of a tenant, and the physical function. -/
theorem witness_WritePointerRule : ∀ m ∈ [0, 1],
    (let s := queueRegs.setTenant 0 { queueRegs.tenant 0 with mode := m }
     let s := s.setQueue ⟨16, 7⟩ { s.queue ⟨16, 7⟩ with enable := true, logSize := 12 }
     queueMapped s ⟨0, 63⟩ = true ∧ (s.queue ⟨0, 63⟩).enable = true ∧ (s.queue ⟨16, 7⟩).enable = true ∧ queueMapped s ⟨16, 7⟩ = true ∧
       (∀ q ∈ [⟨0, 63⟩, ⟨16, 7⟩], 4080 < 2 ^ (s.queue q).logSize ∧ 2 ^ (s.queue q).logSize ≤ 4096) ∧
       Word.bit (s.tenant 0).mode 0 = decide (m = 1)) := by decide +kernel

/-- A context disabled in an enabled tenant, one enabled with nothing in use, one fatal, one with CTX.INVAL busy. -/
def ctxRegs : State :=
  let s := openPkg base
  let s := s.setCtx 0 1 { s.ctx 0 1 with enable := true, state := .running, enBudget := 5 }
  let s := s.setCtx 0 2 { s.ctx 0 2 with enable := true, state := .fatal, enRate := 3 }
  s.setCtx 0 15 { s.ctx 0 15 with enable := true, state := .preempted, invalBusy := true }

theorem witness_ContextRegisters : ctxRegs.pkg.open_ = true ∧
    (∀ n ∈ [2 ^ 31 + 63 * 2 ^ 24, 63 * 2 ^ 24], n % 2 ^ 24 = 0 ∧ Word.bit n 30 = false) ∧ Word.bit (2 ^ 30) 30 = true ∧
    ((ctxRegs.ctx 0 3).enable = false ∧ (ctxRegs.tenant 0).enable = true) ∧
    ((ctxRegs.ctx 0 1).enable = true ∧ (ctxRegs.ctx 0 1).state = .running ∧ ctxInUse ctxRegs 0 1 = false) ∧
    ((ctxRegs.ctx 0 2).state = .fatal ∧ (ctxRegs.ctx 0 15).state = .preempted) ∧
    (∀ n ∈ [1, 2, 4, 7], Word.field n 63 57 = 0 ∧ Word.field n 15 3 = 0 ∧ (Word.field n 2 1 ≠ 3 ∨ Word.bit n 0 = true)) ∧
    ((ctxRegs.ctx 0 2).invalBusy = false ∧ (ctxRegs.ctx 0 15).invalBusy = true) ∧
    ((ctxRegs.ctx 0 2).state ≠ .running ∧ 5 % 2 ^ 32 = (ctxRegs.ctx 0 1).enBudget) ∧
    (let s := ctxRegs.setTenant 0 { ctxRegs.tenant 0 with enAllow := 8 }
     let sum (n : Nat) := ((List.range 16).map (fun i => if i = 1 then n % 2 ^ 32 else (s.ctx 0 i).enRate % 2 ^ 32)).sum
     sum 5 ≤ (s.tenant 0).enAllow ∧ (s.tenant 0).enAllow < sum 6) ∧
    ctxRegs.ctxs.get? 2 ≠ none := by decide +kernel

/-! ### The machine -/

/-- A Laold word that is an instruction, one that is none, a native-only word, and a native word that stands for a load. -/
def laoldStep : State := State.reset.withFetchWord 64 0x311A050004006002
def noneStep : State := onXlat laoldStep (fun x => { x with words := x.words.map (fun w => if w = 0x311A050004006002 then 2 ^ 64 - 1 else w) })
def matStep : State := State.reset.withFetchWord 64 0x27F21000640205FF
def loadStep : State := State.reset.withFetchWord 64 0x014090CF0013FFFF

/-- What every clause asks of the unit. -/
def Stands (s : State) (u : UnitId) (us : List UnitId) (g : Galley) (l : Launch) (core : Nat) (th : Thread) : Prop :=
  s.cur = u :: us ∧ s.galley? u.galley = some g ∧ s.launch? g.launch = some l ∧ g.core = some core ∧ g.thread? u = some th ∧
    stillReady s l g core u th = true

theorem witness_StepRunsTheInstruction :
    (∃ u us g l core th x h ws rest i, Stands laoldStep u us g l core th ∧ th.native = none ∧ th.body.bind laoldStep.xlat? = some x ∧
      parseHdr x.words = some (h, ws) ∧ skipInstrs th.instr ws = some rest ∧ (decode rest).map Prod.fst = some i) ∧
    (∃ u us g l core th x h ws rest, Stands noneStep u us g l core th ∧ th.native = none ∧ th.body.bind noneStep.xlat? = some x ∧
      parseHdr x.words = some (h, ws) ∧ skipInstrs th.instr ws = some rest ∧ decode rest = none ∧ th.instr = 0) ∧
    (∃ u us g l core th n v i, Stands matStep u us g l core th ∧ th.native = some n ∧ n.headAt n.turn = some v ∧
      nativeWordOk (revOf (dieOf core)) (budgetRegs (l.budgetOn core)) v = true ∧ chifinOnly v = some i) ∧
    ∃ u us g l core th n v r i x, Stands loadStep u us g l core th ∧ th.native = some n ∧ n.headAt n.turn = some v ∧
      nativeWordOk (revOf (dieOf core)) (budgetRegs (l.budgetOn core)) v = true ∧ chifinOnly v = none ∧ chifinRaw v = some r ∧
      boundRegs (budgetRegs (l.budgetOn core)) (srcTy loadStep th n (n.offset n.turn) v) v = true ∧
      (leavesBlock r.op && n.pairOwed) = false ∧ bindWord loadStep l g core th n r v = some (i, x) :=
  by
    unfold Stands
    and_intros <;> repeat apply Exists.intro
    all_goals and_intros
    all_goals rfl

theorem witness_LaoldRoundTrip : ∃ i r, Instr.toRaw i = some r ∧ r.w.nat = none ∧ i.wf = true ∧ encode i = [0x311A050004006002] :=
  ⟨.fma ⟨.f32, 1, .arg 0, .arg 1, .imm 2, none⟩, _, rfl, rfl, by decide +kernel, by decide +kernel⟩

theorem witness_NativeRoundTrip : ∀ x ∈ [(Instr.mat ⟨2, 1, 1, 12, 256, 258, 511⟩, 0x27F21000640205FF),
    (.ldG ⟨.n32, 12, .reg 4, .none, .reg 511, some ⟨0, 0, 480⟩⟩, 0x014090CF0013FFFF)], x.1.wf = true ∧ encode x.1 = [x.2] ∧
    (x.1.toRaw.map (fun r => r.w.nat.isSome)).getD true = true := by decide +kernel

theorem witness_StepsKeepMemoryCanonical : State.reset.Canonical ∧ base.Canonical :=
  ⟨by constructor <;> decide, by constructor <;> decide +kernel⟩

/-! ### Decoding: words the manual gives bit by bit -/

/-- Table 15.1, its four instruction words. -/
theorem test_decode_add : decode [0x1008210004004000] = some (.add ⟨.i32, 8, .arg 0, .arg 1, .none, none⟩, []) := by decide +kernel
theorem test_decode_cmp : decode [0x1A08800018000000] = some (.cmp ⟨.i32, 0x20, .dist 1, .imm 0, .none, none⟩, []) := by decide +kernel
theorem test_decode_brc : decode [0x0080000010000000, 3, 0x0000000100000001, 0x0000080000000000, 0x0000000100000002, 0x0000080000000000] =
    some (.brc ⟨.none, 0, .dist 1, .none, .none, none⟩ 3 ⟨1, [.dist 2]⟩ ⟨2, [.dist 2]⟩, []) := by decide +kernel
/-- Chapters 12 and 14 to 19, the examples of R298, R318, R344, R347, R352, R380, R388, R401, R410 and R418. -/
theorem test_decode_fma : decode [0x311A050004006002] = some (.fma ⟨.f32, 1, .arg 0, .arg 1, .imm 2, none⟩, []) ∧
    decode [0x311A000010007000] = some (.fma ⟨.f32, 0, .dist 1, .dist 1, .pool 0, none⟩, []) := by decide +kernel
theorem test_decode_ld : decode [0x5012300020000000] = some (.ldG ⟨.n32, 12, .dist 2, .none, .none, none⟩, []) := by decide +kernel
theorem test_decode_st : decode [0x505A4D0000004000] = some (.stG ⟨.f32, 0x13, .arg 0, .dist 1, .none, none⟩, []) := by decide +kernel
theorem test_decode_cvtef : decode [0x3858010000000000] = some (.cvtef ⟨.bf16, 0, .arg 0, .none, .none, none⟩, []) := by decide +kernel
theorem test_decode_redadd : decode [0x401A080020000000] = some (.redadd ⟨.f32, 2, .dist 2, .none, .none, none⟩, []) := by decide +kernel
theorem test_decode_mmab : decode [0x7241400000000000, 0x0000000000800400] =
    some (.mmab ⟨.none, 0x50, .none, .none, .none, none⟩ 0x800400, []) := by decide +kernel
theorem test_decode_tlgetr : decode [0x779A0202B0004000] = some (.tlgetr ⟨.f32, 0, .imm 43, .dist 1, .none, none⟩, []) := by decide +kernel
theorem test_decode_amo : decode [0x931A810000004000] = some (.amoFaddX ⟨.f32, 0x20, .arg 0, .dist 1, .none, none⟩, []) := by decide +kernel
theorem test_decode_fence : decode [0x9C00100000000000] = some (.fence ⟨.none, 4, .none, .none, .none, none⟩, []) := by decide +kernel
theorem test_decode_rdctl : decode [0xA838020400004000] = some (.rdctl ⟨.b64, 0, .imm 0x40, .dist 1, .none, none⟩, []) := by decide +kernel
/-- R258 and Table 14.10: the two native words worked field by field. -/
theorem test_decode_native : decodeChifin 0x014090CF0013FFFF = some (.ldG ⟨.n32, 12, .reg 4, .none, .reg 511, some ⟨0, 0, 480⟩⟩) ∧
    decodeChifin 0x27F21000640205FF = some (.mat ⟨2, 1, 1, 12, 256, 258, 511⟩) := by decide +kernel
/-- R298: the ordered load without a scope is not an instruction, nor the native word on queue X. -/
theorem test_decode_refuses : decode [0x5012200020000000] = none ∧ decodeChifin 0x054090CF0013FFFF = none := by decide +kernel

/-! ### Terms that are not well-formed -/

/-- One term per check of a main word: type, modifier, operand class, missing operand, immediate range, extension, a native word on
the wrong queue, with the wrong register, with D where nothing is written, and with push bits on the control queue. -/
theorem test_wf_words : ([
    .add (word .p 0 (.dist 1) (.dist 1) .none), .add (word .i32 4 (.dist 1) (.dist 1) .none), .fence (word .none 8 .none .none .none),
    .add (word .i32 0 (.dist 0) (.dist 1) .none), .add (word .i32 0 (.dist 4096) (.dist 1) .none), .add (word .i32 0 .none (.dist 1) .none),
    .add (word .i32 0 (.dist 1) (.dist 1) (.dist 1)), .add (word .i32 0 (.imm 2048) (.dist 1) .none), .add (word .i32 0 (.reg 4) (.dist 1) .none),
    .coord (word .n64 0 (.imm 3) .none .none), .pack (word .b32 0 (.dist 1) (.dist 1) (.imm 0x18)),
    .br (word .none 0 .none .none .none) ⟨2 ^ 32, []⟩,
    .add ⟨.i32, 0, .reg 4, .reg 4, .reg 511, some ⟨0, 0, 4⟩⟩, .add ⟨.i32, 0, .reg 320, .reg 4, .reg 511, some ⟨0, 1, 4⟩⟩,
    .add ⟨.i32, 0, .reg 4, .reg 4, .reg 511, some ⟨0, 1, 400⟩⟩, .add ⟨.i32, 0, .reg 4, .reg 4, .reg 511, some ⟨16, 1, 4⟩⟩,
    .fence ⟨.none, 4, .reg 511, .reg 511, .reg 511, some ⟨1, 0, 511⟩⟩] : List Instr).all (fun i => !i.wf) = true := by decide +kernel

/-- One term per check of a native-only word. -/
theorem test_wf_native : ([
    .spill ⟨0, 1, 0, 511, 0, 4, 0⟩, .spill ⟨0, 0, 3, 511, 0, 4, 0⟩, .spill ⟨0, 0, 0, 4, 0, 4, 0⟩, .fill ⟨0, 0, 0, 4, 0, 4, 0⟩,
    .mat ⟨0, 0, 0, 4, 256, 258, 511⟩, .mat ⟨0, 1, 2, 4, 256, 258, 511⟩, .tnop ⟨0, 3, 0, 511, 511, 511, 511⟩, .tnop ⟨0, 0, 0, 511, 4, 511, 511⟩,
    .hmov ⟨0, 1, 0, 4, 479, 511, 511⟩, .hmov ⟨0, 1, 1, 4, 481, 511, 511⟩, .ldk ⟨0, 2, 0, 4, 0, 511, 0⟩, .unf ⟨1, 3, 0, 511, 0, 511, 0⟩,
    .spill ⟨16, 0, 0, 511, 0, 4, 0⟩, .spill ⟨0, 0, 0, 511, 512, 4, 0⟩] : List Instr).all (fun i => !i.wf) = true := by decide +kernel

/-- One term per bound of an event's arguments. -/
theorem test_wf_events : ([
    .vfFlr 16, .stacksReady (some ⟨true, 8⟩), .linksTrained none 256, .linksTrained (some 256) 0, .diesLeaveReset (some 4), .registerWrite 17 0 0,
    .refusedClear (some 16) 0, .tenConfigWrite 16 .cemask 0, .tenConfigWrite 0 (.win 16) 0, .tenEnable 16 0, .faultCancelWrite 0 4 0 0,
    .slotTableUpdate [⟨150, 0, 0⟩], .slotTableUpdate [⟨0, 64, 0⟩], .slotTableUpdate [⟨0, 0, 16⟩], .slotGrant 150 0 [],
    .queueEnable ⟨0, 64⟩ 0, .nopPacket ⟨16, 8⟩, .preemptSaveDone 0 16, .dumpDone 16 0, .ctxEnable 0 16 0, .textPageFetchDone 16 0 0 0,
    .fluxEstimateUpdate 160 0, .clockStep 4, .scrubError (384 * 2 ^ 30) true, .fabricPortStateChange 8 .up, .hostWrite (.mem (384 * 2 ^ 30 - 1)) [0, 0],
    .hostRead (.mem (384 * 2 ^ 30)) 1, .hostAtomic .swap (.mem 0) 2 0 0, .hostAtomic .swap (.mem 4) 8 0 0, .hostAtomic .swap (.config 0) 4 0 0, .issueCycle 320 .a, .translationDone 40, .accSpillDone 128,
    .tileConversionStart 8] : List Instr).all (fun i => !i.wf) = true := by decide +kernel

/-! ### Results the manual works out -/

def pair (ty : Ty) (a b : Nat) : State := withVals [U ty b, U ty a]

/-- R322: `div.i32` of −7 and 2 gives −3, and `rem.i32` gives −1. -/
theorem test_div : gives (pair .i32 (2 ^ 32 - 7) 2) (.div (word .i32 0 (.dist 2) (.dist 1) .none)) 0 = some (2 ^ 32 - 3) := by decide +kernel
theorem test_rem : gives (pair .i32 (2 ^ 32 - 7) 2) (.rem (word .i32 0 (.dist 2) (.dist 1) .none)) 0 = some (2 ^ 32 - 1) := by decide +kernel
/-- R326: `bfe.i32` of 0x0000_0F00 with p = 8 and l = 4 gives −1. -/
theorem test_bfe : gives (pair .i32 0xF00 0) (.bfe (word .i32 0 (.dist 2) (.imm 8) (.imm 4))) 0 = some (2 ^ 32 - 1) := by decide +kernel
/-- R337: fmin of 0x7FC0_0001 and −0 gives −0, and fmax of +0 and −0 gives +0. -/
theorem test_fmin : gives (pair .f32 0x7FC00001 0x80000000) (.fmin (word .f32 0 (.dist 2) (.dist 1) .none)) 0 = some 0x80000000 := by decide +kernel
theorem test_fmax : gives (pair .f32 0 0x80000000) (.fmax (word .f32 0 (.dist 2) (.dist 1) .none)) 0 = some 0 := by decide +kernel
/-- R226: the parts of 0x3F80_2008 under `cvtef.bf16`: the residual is the newer value. -/
theorem test_cvtef : gives (withVals [U .f32 0x3F802008]) (.cvtef (word .bf16 0 (.dist 1) .none .none)) 0 = some 0x3A802000 := by decide +kernel
/-- Table 16.3. -/
theorem test_cvt : gives (withVals [U .f32 0x43FA0000]) (.cvt (word .e4m3 8 (.dist 1) .none .none)) 0 = some 0x7E ∧
    gives (withVals [U .f32 0x40400000]) (.cvt (word .e8m0 2 (.dist 1) .none .none)) 0 = some 0x81 := by decide +kernel
/-- R347: the exact sum 2 + 2^−30 rounds to 0x4000_0001 under RU. -/
theorem test_redadd : gives (withVals [S .f32 [0x4B800000, 0x3F800000, 0x3F800000, 0xCB800000, 0x30800000, 0x40400000, 0xC0400000, 0]])
    (.redadd (word .f32 2 (.dist 1) .none .none)) 5 = some 0x40000001 := by decide +kernel
/-- R348: the E4M3 group 0xC038_7F80 keeps indices 1 and 3. -/
theorem test_sprs : gives (withVals [U .b32 0xC0387F80]) (.sprs (word .e4m3 0 (.dist 1) .none .none)) 0 = some 0xDC07F := by decide +kernel
/-- R394: the example's sum, wrapped and saturated. -/
theorem test_dp4 : gives (withVals [U .i32 2147483000, U .b32 0x0102FF80, U .b32 0xFF027F80]) (.dp4 (word .i32 0 (.dist 3) (.dist 2) (.dist 1))) 0 =
      some (2 ^ 32 - 2147468036) ∧
    gives (withVals [U .i32 2147483000, U .b32 0x0102FF80, U .b32 0xFF027F80]) (.dp4 (word .i32 8 (.dist 3) (.dist 2) (.dist 1))) 0 = some 0x7FFFFFFF := by
  decide +kernel
/-- R396: 5.0 into element 3 of format E2M1 under RN and RU. -/
theorem test_pack : gives (withVals [U .f32 0x40A00000, U .b32 0]) (.pack (word .b32 0 (.dist 2) (.dist 1) (.imm 0x9B))) 0 = some 0x6000 ∧
    gives (withVals [U .f32 0x40A00000, U .b32 0]) (.pack (word .b32 2 (.dist 2) (.dist 1) (.imm 0x9B))) 0 = some 0x7000 := by decide +kernel
/-- R345: `shfld` with k = 2 on lanes 0 to 3 gives (12, 13, 12, 13). -/
theorem test_shfld :
    (let s := onThread (withVals [S .i32 [10, 11, 12, 13, 14, 15, 16, 17]]) (fun th => { th with mask := maskBelow 4 })
     [0, 1, 2, 3].map (gives s (.shfld (word .i32 0 (.dist 1) (.imm 2) .none))) = [some 12, some 13, some 12, some 13]) := by decide +kernel
end Sys2Proof.Tests
end

section
/-! What a stop of a queue and a write of QUE.WP do (R55, R57, R69): the read at RP that the stop shows changes memory and slices alone,
and only where an exact line is finalised there. -/

namespace Sys2Proof.Machine

open Sys2Proof

/-! ### Finalising lines changes memory and slices alone (R195 to R198) -/

theorem State.completeSpill_frame (s : State) (i : Nat) :
    ∃ m sl, s.completeSpill i = { s with mem := m, slices := sl } := by
  unfold State.completeSpill
  dsimp only
  split
  · exact ⟨s.mem, s.slices, rfl⟩
  · split
    · exact ⟨s.mem, s.slices, rfl⟩
    · exact ⟨_, _, rfl⟩

/-- A line that waits for its spill is finalised from the state after the spill. -/
theorem State.finalizeLine_frame (s : State) (pa : Nat) :
    ∃ m sl, s.finalizeLine pa = { s with mem := m, slices := sl } := by
  have spilled : ∃ m sl, (if s.spilling pa then s.completeSpill (sliceOf pa) else s) = { s with mem := m, slices := sl } := by
    split
    · exact s.completeSpill_frame _
    · exact ⟨s.mem, s.slices, rfl⟩
  obtain ⟨m, sl, hu⟩ := spilled
  unfold State.finalizeLine
  dsimp only
  rw [hu]
  split
  · exact ⟨_, _, rfl⟩
  · split
    · exact ⟨_, _, rfl⟩
    · exact ⟨m, sl, rfl⟩

theorem State.finalizeSpan_frame (s : State) (pa n : Nat) :
    ∃ m sl, s.finalizeSpan pa n = { s with mem := m, slices := sl } := by
  unfold State.finalizeSpan
  induction spanLines pa n generalizing s with
  | nil => exact ⟨s.mem, s.slices, rfl⟩
  | cons a r ih =>
    obtain ⟨m, sl, ha⟩ := s.finalizeLine_frame a
    obtain ⟨m', sl', hr⟩ := ih (s.finalizeLine a)
    exact ⟨m', sl', by rw [List.foldl_cons, hr, ha]⟩

/-- A read of device memory leaves the state as finalising its span does. -/
theorem State.readFor_device_state (s : State) (me : Option GroupRef) (pa n : Nat) :
    (s.readFor me ⟨0, pa⟩ n).2 = s.finalizeSpan pa n := rfl

/-! ### The opcode at RP -/

/-- The opcode at RP is known without a read, or shown by a read of the header. -/
theorem shownOpcode_state (s : State) (q : QId) :
    (shownOpcode s q).2 = s ∨
      (shownOpcode s q).2 = s.finalizeSpan ((s.queue q).base + (s.queue q).rp) 16 := by
  unfold shownOpcode
  dsimp only
  split
  · exact .inl rfl
  · split
    · exact .inl rfl
    · exact .inr (s.readFor_device_state none _ 16)

theorem shownOpcode_frame (s : State) (q : QId) :
    ∃ m sl, (shownOpcode s q).2 = { s with mem := m, slices := sl } := by
  rcases shownOpcode_state s q with h | h
  · exact ⟨s.mem, s.slices, h⟩
  · rw [h]
    exact s.finalizeSpan_frame _ 16

theorem shownOpcode_plain {s : State} (h : s.NoExact) (q : QId) : (shownOpcode s q).2 = s := by
  rcases shownOpcode_state s q with hs | hs
  · exact hs
  · rw [hs, State.finalizeSpan_plain h]

@[simp] theorem shownOpcode_queue (s : State) (q r : QId) : (shownOpcode s q).2.queue r = s.queue r := by
  obtain ⟨m, sl, h⟩ := shownOpcode_frame s q
  rw [h]
  rfl

@[simp] theorem shownOpcode_msix (s : State) (q : QId) : (shownOpcode s q).2.msix = s.msix := by
  obtain ⟨m, sl, h⟩ := shownOpcode_frame s q
  rw [h]

/-! ### Queues and messages -/

@[simp] theorem State.queue_setQueue (s : State) (q : QId) (x : Queue) : (s.setQueue q x).queue q = x := by
  simp [State.queue]

@[simp] theorem State.tenant_setQueue (s : State) (q : QId) (x : Queue) (t : Nat) : (s.setQueue q x).tenant t = s.tenant t := rfl

@[simp] theorem dropAsks_queue (s : State) (q r : QId) : (dropAsks s q).queue r = s.queue r := rfl
@[simp] theorem dropAsks_msix (s : State) (q : QId) : (dropAsks s q).msix = s.msix := rfl
@[simp] theorem dropAsks_mem (s : State) (q : QId) : (dropAsks s q).mem = s.mem := rfl

@[simp] theorem queueMsi_queue (s : State) (q r : QId) (vec : Nat) : (queueMsi s q vec).queue r = s.queue r := by
  simp [queueMsi, State.queue]

@[simp] theorem queueMsi_mem (s : State) (q : QId) (vec : Nat) : (queueMsi s q vec).mem = s.mem := State.sendMsi_mem s _ vec

theorem State.sendMsi_message (s : State) (fn vec : Nat) : (s.sendMsi fn vec).msix = s.msix ++ message fn vec := by
  by_cases h : vec < (if fn = 0 then 16 else 64) <;> simp [message, h]

@[simp] theorem queueMsi_msix (s : State) (q : QId) (vec : Nat) : (queueMsi s q vec).msix = s.msix ++ message (ownerFn q) vec :=
  s.sendMsi_message _ vec

/-! ### A stop (R57) -/

@[simp] theorem stopQueue_queue (s : State) (q : QId) (cause sub : Nat) :
    (stopQueue s q cause sub).queue q =
      { (s.queue q).unparsed with state := .stopped, cause := cause, subcode := sub, opcode := (shownOpcode s q).1 } := by
  simp [stopQueue]

@[simp] theorem stopQueue_msix (s : State) (q : QId) (cause sub : Nat) :
    (stopQueue s q cause sub).msix = s.msix ++ message (ownerFn q) (s.queue q).errVec := by
  simp [stopQueue]

theorem stopQueue_mem {s : State} (h : s.NoExact) (q : QId) (cause sub : Nat) : (stopQueue s q cause sub).mem = s.mem := by
  simp [stopQueue, shownOpcode_plain h]

/-! ### QUE.WP (R55) -/

theorem pointerOk_iff {x : Queue} {v : Nat} : pointerOk x v = true ↔ v % 16 = 0 ∧ v < 2 ^ x.logSize := by
  simp [pointerOk]

theorem assistedParsing_iff {s : State} {q : QId} :
    assistedParsing s q = true ↔ q.owner < 16 ∧ Word.bit (s.tenant q.owner).mode 0 = true := by
  simp [assistedParsing]

theorem exec_queueWpWrite {s : State} {q : QId} (h : queueMapped s q = true) (v : Word) :
    exec (.queueWpWrite q v) s = .next (wpWrite s q v.toNat) := by
  have arm : exec (.queueWpWrite q v) s = execQueueWpWrite q v s := rfl
  rw [arm, execQueueWpWrite, if_pos h]

theorem wpWrite_taken {s : State} {q : QId} {v : Nat} (h : pointerOk (s.queue q) (v % 2 ^ 24) = true)
    (ha : ¬ assistedParsing s q = true) :
    wpWrite s q v = s.setQueue q { s.queue q with wp := v % 2 ^ 24 } := by
  simp only [wpWrite, h, Bool.not_true, Bool.false_eq_true, if_false, State.tenant_setQueue]
  exact if_neg (mt assistedParsing_iff.mpr ha)

/-- R69: under host assistance the write raises the tenant's notice. -/
theorem wpWrite_assisted {s : State} {q : QId} {v : Nat} (h : pointerOk (s.queue q) (v % 2 ^ 24) = true)
    (ha : assistedParsing s q = true) :
    wpWrite s q v = askAssist (s.setQueue q { s.queue q with wp := v % 2 ^ 24 }) q.owner 0 := by
  simp only [wpWrite, h, Bool.not_true, Bool.false_eq_true, if_false, State.tenant_setQueue]
  exact if_pos (assistedParsing_iff.mp ha)

theorem wpWrite_refused {s : State} {q : QId} {v : Nat} (h : ¬ pointerOk (s.queue q) (v % 2 ^ 24) = true)
    (he : (s.queue q).enable = true) : wpWrite s q v = stopQueue s q 1 8 := by
  simp only [wpWrite, h, he, Bool.not_false, if_true]

/-- Settles O51: a value that R55 accepts is stored, with the notice of R69 beside it under host assistance, and any other stops the
queue. -/
theorem writePointerRule : Obligations.WritePointerRule := by
  intro s q v hmapped henable
  dsimp only
  rw [exec_queueWpWrite hmapped]
  constructor
  · intro haligned hbelow
    have hok : pointerOk (s.queue q) (v.toNat % 2 ^ 24) = true := pointerOk_iff.mpr ⟨haligned, hbelow⟩
    constructor
    · intro hplain
      have hunassisted : ¬ assistedParsing s q = true := by
        rw [assistedParsing_iff]
        rintro ⟨howner, hmode⟩
        rcases hplain with hphysical | hhardware
        · omega
        · simp [hhardware] at hmode
      rw [wpWrite_taken hok hunassisted]
    · intro howner hmode
      rw [wpWrite_assisted hok (assistedParsing_iff.mpr ⟨howner, hmode⟩)]
  · intro hbad
    have hrefused : ¬ pointerOk (s.queue q) (v.toNat % 2 ^ 24) = true := by
      rw [pointerOk_iff]
      omega
    rw [wpWrite_refused hrefused henable]
    have hqueue := stopQueue_queue s q 1 8
    exact ⟨_, rfl, (congrArg Queue.wp hqueue :), (congrArg Queue.state hqueue :), (congrArg Queue.cause hqueue :), (congrArg Queue.subcode hqueue :),
      stopQueue_msix s q 1 8, fun hplain => stopQueue_mem hplain q 1 8⟩

end Sys2Proof.Machine
end

section
/-! What `mov` defines: the very value of its operand, so that no galley unfolds (R332), and the conversion of an immediate (R281). -/

namespace Sys2Proof.Machine

open Sys2Proof

/-- R281: an immediate operand is the class U value of its conversion to the instruction's type. -/
theorem Exe.opA_imm {w : Main} {v : Int} (h : w.a = .imm v) (e : Exe) (s : State) :
    e.opA s w = ⟨w.ty, .ofNat (immValue w.ty v)⟩ := by
  rw [Exe.opA, h, Exe.opnd]

theorem exec_mov {s : State} {e : Exe} (h : exe? s = some e) (w : Main) :
    exec (.mov w) s = .next (e.define s w [⟨w.ty, (e.opA s w).val⟩]) := by
  have arm : exec (.mov w) s = execMov w s := rfl
  rw [arm, execMov, onUnit_runs h]

/-- The operand keeps its class, and an operand of the instruction's type its bits in every lane. -/
theorem gives_mov {s : State} {e : Exe} {w : Main} (h : Runs s e) (hty : (e.opA s w).ty = w.ty) :
    Gives s e (.mov w) w.ty (fun l => e.lane (e.opA s w) l) := by
  refine gives_define h.laold (exec_mov h.runs w) fun l _ _ => ?_
  rw [← hty]
  exact (Nat.mod_eq_of_lt (e.lane_lt _ l)).symm

theorem gives_mov_imm {s : State} {e : Exe} {w : Main} {v : Int} (h : Runs s e) (hv : w.a = .imm v) :
    Gives s e (.mov w) w.ty (fun _ => immValue w.ty v) := by
  have himm := e.opA_imm hv s
  refine (gives_mov h (congrArg TVal.ty himm)).congr fun l _ _ => ?_
  rw [himm, Exe.lane_ofNat, Nat.mod_mod]

/-- With no lane aborted the result is the operand itself, of whatever class. -/
theorem completes_mov {s : State} {e : Exe} (w : Main) (h : Runs s e) (hact : e.act = e.th.mask) :
    Completes s e (.mov w) s [⟨w.ty, (e.opA s w).val⟩] := by
  have hdone := Exe.put_next h.laold (exec_mov h.runs w)
  rwa [List.map_singleton, Exe.settle_all _ _ hact] at hdone

/-- Settles O6: `mov` defines its operand's own value, which settles to the same bits in every active lane, and an immediate operand is
the uniform value that R281 converts it to. -/
theorem movCopies : Obligations.MovCopies := by
  intro s e w hruns hty
  exact ⟨gives_mov hruns hty, fun _ himm => gives_mov_imm hruns himm, completes_mov w hruns⟩

end Sys2Proof.Machine
end

section
/-! What the encoder writes the decoder reads back: operands, extension words and main words of Laold (chapter 13), and the words of
Chifin (R257, R258). -/

namespace Sys2Proof

/-! ### Fields of a numeral -/

theorem Word.wrapInt_lt (x : Int) (w : Nat) : Word.wrapInt x w < 2 ^ w := by
  have hpos : (0 : Int) < 2 ^ w := by positivity
  have hmod := Int.emod_lt_of_pos x hpos
  have hnonneg := Int.emod_nonneg x hpos.ne'
  unfold Word.wrapInt
  zify
  rwa [Int.toNat_of_nonneg hnonneg]

/-! ### Operands (Table 13.2) -/

theorem Opnd.encode_lt {o : Opnd} (h : o.encodable = true) : o.encode < 2 ^ 14 := by
  cases o with
  | none => decide
  | imm v =>
    have := Word.wrapInt_lt v 12
    simp only [Opnd.encode]
    omega
  | reg n => simp [Opnd.encodable] at h
  | _ => simp [Opnd.encodable] at h; simp only [Opnd.encode]; omega

/-- The twelve bits of an immediate hold it. -/
theorem signExtend_wrapInt {v : Int} (hlo : -2048 ≤ v) (hhi : v ≤ 2047) : Word.signExtend (Word.wrapInt v 12) 12 = v := by
  simp only [Word.signExtend, Word.wrapInt]
  omega

theorem Opnd.decode_encode {o : Opnd} (h : o.encodable = true) : Opnd.decode o.encode = o := by
  cases o with
  | none => rfl
  | dist d =>
    simp only [Opnd.encodable, Bool.and_eq_true, decide_eq_true_eq] at h
    have hquot : d / 0x1000 % 4 = 0 := by omega
    have hrem : d % 0x1000 = d := by omega
    have hpos : d ≠ 0 := by omega
    simp [Opnd.encode, Opnd.decode, hquot, hrem, hpos]
  | arg k =>
    simp only [Opnd.encodable, decide_eq_true_eq] at h
    have hquot : (0x1000 + k) / 0x1000 % 4 = 1 := by omega
    have hrem : (0x1000 + k) % 0x1000 = k := by omega
    simp only [Opnd.encode, Opnd.decode, hquot, hrem]
  | imm v =>
    simp only [Opnd.encodable, Bool.and_eq_true, decide_eq_true_eq] at h
    have hlt := Word.wrapInt_lt v 12
    have hquot : (0x2000 + Word.wrapInt v 12) / 0x1000 % 4 = 2 := by omega
    have hrem : (0x2000 + Word.wrapInt v 12) % 0x1000 = Word.wrapInt v 12 := by omega
    simp only [Opnd.encode, Opnd.decode, hquot, hrem, signExtend_wrapInt h.1 h.2]
  | pool k =>
    simp only [Opnd.encodable, decide_eq_true_eq] at h
    have hquot : (0x3000 + k) / 0x1000 % 4 = 3 := by omega
    have hrem : (0x3000 + k) % 0x1000 = k := by omega
    simp only [Opnd.encode, Opnd.decode, hquot, hrem]
  | reg n => simp [Opnd.encodable] at h

/-! ### Operand words (Table 13.4b) -/

theorem X4.decode_encode {x : X4} (h : x.list.all Opnd.encodable = true) : X4.decode x.encode = some x := by
  obtain ⟨a, b, c, d⟩ := x
  simp only [X4.list, List.all_cons, List.all_nil, Bool.and_true, Bool.and_eq_true] at h
  obtain ⟨ha, hb, hc, hd⟩ := h
  have la := Opnd.encode_lt ha
  have lb := Opnd.encode_lt hb
  have lc := Opnd.encode_lt hc
  have ld := Opnd.encode_lt hd
  have hlt : X4.encode ⟨a, b, c, d⟩ < 2 ^ 56 := by simp only [X4.encode]; omega
  have fa : X4.encode ⟨a, b, c, d⟩ / 2 ^ 42 % 2 ^ 14 = a.encode := by simp only [X4.encode]; omega
  have fb : X4.encode ⟨a, b, c, d⟩ / 2 ^ 28 % 2 ^ 14 = b.encode := by simp only [X4.encode]; omega
  have fc : X4.encode ⟨a, b, c, d⟩ / 2 ^ 14 % 2 ^ 14 = c.encode := by simp only [X4.encode]; omega
  have fd : X4.encode ⟨a, b, c, d⟩ % 2 ^ 14 = d.encode := by simp only [X4.encode]; omega
  rw [X4.decode, if_pos hlt, fa, fb, fc, fd, Opnd.decode_encode ha, Opnd.decode_encode hb, Opnd.decode_encode hc,
    Opnd.decode_encode hd]

theorem decodeX4s_encode (xs : List X4) (h : (xs.flatMap X4.list).all Opnd.encodable = true) (rest : List Nat) :
    decodeX4s xs.length (xs.map X4.encode ++ rest) = some (xs, rest) := by
  induction xs with
  | nil => rfl
  | cons x xs ih =>
    rw [List.flatMap_cons, List.all_append, Bool.and_eq_true] at h
    simp [decodeX4s, X4.decode_encode h.1, ih h.2]

theorem decodeArgs_encodeArgs (args : List Opnd) (h : args.all Opnd.encodable = true) (rest : List Nat) :
    decodeArgs args.length (encodeArgs args ++ rest) = some (args, rest) := by
  fun_induction encodeArgs args with
  | case1 => rfl
  | case2 a =>
    have hx : X4.decode (X4.encode ⟨a, .none, .none, .none⟩) = some ⟨a, .none, .none, .none⟩ :=
      X4.decode_encode (by simpa [X4.list, Opnd.encodable] using h)
    simp [decodeArgs, hx]
  | case3 a b =>
    have hx : X4.decode (X4.encode ⟨a, b, .none, .none⟩) = some ⟨a, b, .none, .none⟩ :=
      X4.decode_encode (by simpa [X4.list, Opnd.encodable] using h)
    simp [decodeArgs, hx]
  | case4 a b c =>
    have hx : X4.decode (X4.encode ⟨a, b, c, .none⟩) = some ⟨a, b, c, .none⟩ :=
      X4.decode_encode (by simpa [X4.list, Opnd.encodable] using h)
    simp [decodeArgs, hx]
  | case5 a b c d r ih =>
    simp only [List.all_cons, Bool.and_eq_true] at h
    obtain ⟨ha, hb, hc, hd, hr⟩ := h
    have hx : X4.decode (X4.encode ⟨a, b, c, d⟩) = some ⟨a, b, c, d⟩ :=
      X4.decode_encode (by simp [X4.list, ha, hb, hc, hd])
    simp [decodeArgs, hx, ih hr]

/-! ### Targets -/

theorem Target.args_encodable {t : Target} (h : t.ok = true) :
    t.block < 2 ^ 32 ∧ t.args.length < 2 ^ 16 ∧ t.args.all Opnd.encodable = true := by
  simp only [Target.ok, Bool.and_eq_true, decide_eq_true_eq, List.all_eq_true] at h ⊢
  exact ⟨h.1.1, h.1.2, fun o ho => (h.2 o ho).1⟩

theorem decodeTarget_encode {t : Target} (h : t.ok = true) (rest : List Nat) :
    decodeTarget (t.encode ++ rest) = some (t, rest) := by
  obtain ⟨hblock, hlen, hargs⟩ := t.args_encodable h
  have hlt : t.args.length * 2 ^ 32 + t.block < 2 ^ 48 := by omega
  have hcount : (t.args.length * 2 ^ 32 + t.block) / 2 ^ 32 = t.args.length := by omega
  have hlow : (t.args.length * 2 ^ 32 + t.block) % 2 ^ 32 = t.block := by omega
  rw [Target.encode, List.cons_append, decodeTarget, if_pos hlt, hcount, hlow, decodeArgs_encodeArgs _ hargs]

theorem decodeTargets_encode (ts : List Target) (h : ts.all Target.ok = true) (rest : List Nat) :
    decodeTargets ts.length (ts.flatMap Target.encode ++ rest) = some (ts, rest) := by
  induction ts with
  | nil => rfl
  | cons t ts ih =>
    rw [List.all_cons, Bool.and_eq_true] at h
    simp [decodeTargets, decodeTarget_encode h.1, ih h.2]

/-! ### Extension words (Table 14.3) -/

theorem Raw.ops_encodable {r : Raw} (h : r.operands.all Opnd.encodable = true) {xs : List X4} (hx : r.ext = .ops xs) :
    (xs.flatMap X4.list).all Opnd.encodable = true := by
  rw [Raw.operands, hx, List.all_append, Bool.and_eq_true] at h
  exact h.2

theorem Raw.litOps_encodable {r : Raw} (h : r.operands.all Opnd.encodable = true) {l : Nat} {x : X4} (hx : r.ext = .litOps l x) :
    x.list.all Opnd.encodable = true := by
  rw [Raw.operands, hx, List.all_append, Bool.and_eq_true] at h
  exact h.2

theorem decodeExt_sw {mod n rc : Nat} {ws ws' ws'' : List Nat} {d : Target} {cs : List Target} (hn : n < 2 ^ 16) (hrc : rc < 2 ^ 32)
    (hd : decodeTarget ws = some (d, ws')) (hcs : decodeTargets n ws' = some (cs, ws'')) :
    decodeExt .sw mod ((n * 2 ^ 32 + rc) :: ws) = some (.sw rc d cs, ws'') := by
  have hlt : n * 2 ^ 32 + rc < 2 ^ 48 := by omega
  have hcount : (n * 2 ^ 32 + rc) / 2 ^ 32 = n := by omega
  have hlow : (n * 2 ^ 32 + rc) % 2 ^ 32 = rc := by omega
  generalize n * 2 ^ 32 + rc = l at hlt hcount hlow
  subst hcount hlow
  rw [decodeExt, if_pos hlt, hd]
  simp only [hcs, Option.map_some]

theorem decodeExt_c2 {mod rc : Nat} {ws ws' ws'' : List Nat} {a b : Target} (ha : decodeTarget ws = some (a, ws'))
    (hb : decodeTarget ws' = some (b, ws'')) : decodeExt .c2 mod (rc :: ws) = some (.c2 rc a b, ws'') := by
  simp only [decodeExt, ha, hb, Option.map_some]

theorem decodeExt_encode {row : OpRow} {r : Raw} (hext : extOk row r = true) (hops : r.operands.all Opnd.encodable = true)
    (rest : List Nat) : decodeExt row.ext r.w.mod (r.ext.encode ++ rest) = some (r.ext, rest) := by
  unfold extOk at hext
  split at hext
  next hc hx => rw [hc, hx]; rfl
  next x hc hx =>
    have hd := decodeX4s_encode [x] (r.ops_encodable hops hx) rest
    rw [hc, hx]
    simpa [decodeExt, Ext.encode] using hd
  next x y hc hx =>
    have hd := decodeX4s_encode [x, y] (r.ops_encodable hops hx) rest
    rw [hc, hx]
    simpa [decodeExt, Ext.encode] using hd
  next l hc hx => rw [hc, hx]; rfl
  next l x hc hx =>
    rw [hc, hx]
    simp [decodeExt, Ext.encode, X4.decode_encode (r.litOps_encodable hops hx)]
  next t hc hx =>
    rw [hc, hx]
    simp [decodeExt, Ext.encode, decodeTarget_encode hext]
  next rc a b hc hx =>
    simp only [Bool.and_eq_true] at hext
    obtain ⟨⟨-, ha⟩, hb⟩ := hext
    rw [hc, hx, Ext.encode, List.cons_append, List.append_assoc]
    exact decodeExt_c2 (decodeTarget_encode ha _) (decodeTarget_encode hb rest)
  next rc d cs hc hx =>
    simp only [Bool.and_eq_true, decide_eq_true_eq] at hext
    obtain ⟨⟨⟨⟨hrc, hd⟩, hcs⟩, -⟩, hlen⟩ := hext
    rw [hc, hx, Ext.encode, List.cons_append, List.append_assoc]
    exact decodeExt_sw (by omega) hrc (decodeTarget_encode hd _) (decodeTargets_encode cs hcs rest)
  next xs hc hx =>
    rw [hc, hx, decodeExt, ← beq_iff_eq.mp hext]
    simp [Ext.encode, decodeX4s_encode xs (r.ops_encodable hops hx)]
  next => cases hext

/-! ### The main word (Table 13.1) -/

theorem decodeMain_encodeMain {op : Nat} {w : Main} (hop : op < 1024) (hmod : w.mod < 128) (ha : w.a.encodable = true)
    (hb : w.b.encodable = true) (hc : w.c.encodable = true) (hnat : w.nat = none) :
    decodeMain (encodeMain op w) = some (op, w) := by
  obtain ⟨ty, m, a, b, c, nat⟩ := w
  subst hnat
  have lt := ty.code_lt
  have la := Opnd.encode_lt ha
  have lb := Opnd.encode_lt hb
  have lc := Opnd.encode_lt hc
  have fty : encodeMain op ⟨ty, m, a, b, c, none⟩ / 2 ^ 49 % 2 ^ 5 = ty.code := by simp only [encodeMain] at *; omega
  have fop : encodeMain op ⟨ty, m, a, b, c, none⟩ / 2 ^ 54 % 2 ^ 10 = op := by simp only [encodeMain] at *; omega
  have fmod : encodeMain op ⟨ty, m, a, b, c, none⟩ / 2 ^ 42 % 2 ^ 7 = m := by simp only [encodeMain] at *; omega
  have fa : encodeMain op ⟨ty, m, a, b, c, none⟩ / 2 ^ 28 % 2 ^ 14 = a.encode := by simp only [encodeMain] at *; omega
  have fb : encodeMain op ⟨ty, m, a, b, c, none⟩ / 2 ^ 14 % 2 ^ 14 = b.encode := by simp only [encodeMain] at *; omega
  have fc : encodeMain op ⟨ty, m, a, b, c, none⟩ % 2 ^ 14 = c.encode := by simp only [encodeMain] at *; omega
  rw [decodeMain, fty, Ty.ofCode_code, fop, fmod, fa, fb, fc, Opnd.decode_encode ha, Opnd.decode_encode hb, Opnd.decode_encode hc]

/-- MOD fits its seven bits in every modifier class (Table 14.2). -/
theorem modOk_lt {row : OpRow} {w : Main} (h : modOk row w = true) : w.mod < 128 := by
  unfold modOk at h
  cases hmc : row.mc <;> rw [hmc] at h
  case ord =>
    dsimp only at h
    split_ifs at h <;> simp only [Bool.and_eq_true, decide_eq_true_eq] at h <;> omega
  all_goals simp only [Bool.and_eq_true, decide_eq_true_eq, beq_iff_eq] at h; omega

/-- The opcodes with a Laold row lie below those of the native-only words. -/
theorem opRow_lt {op : Nat} {row : OpRow} (h : opRow op = some row) : op < 0x3F0 := by
  have hall : ∀ r ∈ opTable, r.op < 0x3F0 := by decide +kernel
  have heq : row.op = op := by simpa using List.find?_some h
  exact heq ▸ hall row (List.mem_of_find?_eq_some h)

/-! ### Generic forms -/

/-- Each constructor of a Laold instruction has its own opcode and extension words. -/
theorem Instr.toInstr_toRaw {i : Instr} {r : Raw} (h : i.toRaw = some r) : r.toInstr = some i := by
  cases i <;> first | (obtain rfl := Option.some.inj h; rfl) | cases h

theorem decodeRaw_encode {r : Raw} (h : r.ok = true) (rest : List Nat) : decodeRaw (r.encode ++ rest) = some (r, rest) := by
  unfold Raw.ok at h
  split at h
  next row hrow =>
    have hraw := h
    simp only [rawOk, Bool.and_eq_true] at h
    obtain ⟨⟨⟨⟨⟨⟨⟨-, -⟩, hnat⟩, hops⟩, hmod⟩, hext⟩, -⟩, -⟩ := h
    have hmain : r.w.a.encodable = true ∧ r.w.b.encodable = true ∧ r.w.c.encodable = true := by
      have hsub : ∀ o ∈ [r.w.a, r.w.b, r.w.c], o ∈ r.operands := by
        intro o ho
        unfold Raw.operands
        split
        · exact List.mem_append_left _ ho
        · exact List.mem_append_left _ ho
        · exact ho
      simpa using fun o ho => List.all_eq_true.mp hops o (hsub o ho)
    obtain ⟨ha, hb, hc⟩ := hmain
    have hop := opRow_lt hrow
    rw [Raw.encode, List.cons_append, decodeRaw,
      decodeMain_encodeMain (by omega) (modOk_lt hmod) ha hb hc (Option.isNone_iff_eq_none.mp hnat)]
    simp only [hrow, decodeExt_encode hext hops]
    exact if_pos hraw
  next => cases h

/-- Settles O58: each field of the encoding is read back, and the opcode with its extension words names the instruction. -/
theorem laoldRoundTrip : Obligations.LaoldRoundTrip := by
  intro i r rest hraw hnat hwf
  have hok : r.ok = true := by simpa [Instr.wf, hraw, hnat] using hwf
  have henc : encode i = r.encode := by simp [encode, hraw, hnat]
  simp [decode, henc, decodeRaw_encode hok, Instr.toInstr_toRaw hraw]

/-! ### Chifin words (Table 12.3) -/

/-- The fields of a Chifin word, each within its bits. -/
structure ChifinFields (tokens queue op ty mod d a b c : Nat) : Prop where
  tokens : tokens < 16
  queue  : queue < 4
  op     : op < 1024
  ty     : ty < 16
  mod    : mod < 256
  d      : d < 512
  a      : a < 512
  b      : b < 512
  c      : c < 512

theorem packChifin_fields {v tokens queue op ty mod d a b c : Nat} (h : ChifinFields tokens queue op ty mod d a b c)
    (hv : v = packChifin tokens queue op ty mod d a b c) :
    v / 2 ^ 60 % 16 = tokens ∧ v / 2 ^ 58 % 4 = queue ∧ v / 2 ^ 48 % 1024 = op ∧ v / 2 ^ 44 % 16 = ty ∧ v / 2 ^ 36 % 256 = mod ∧
      v / 2 ^ 27 % 512 = d ∧ v / 2 ^ 18 % 512 = a ∧ v / 2 ^ 9 % 512 = b ∧ v % 512 = c := by
  obtain ⟨htok, hqueue, hop, hty, hmod, hd, ha, hb, hc⟩ := h
  simp only [packChifin] at hv
  refine ⟨?_, ?_, ?_, ?_, ?_, ?_, ?_, ?_, ?_⟩ <;> omega

/-! ### Register fields -/

theorem nativeRegOk_lt {n : Nat} (h : nativeRegOk n = true) : n < 512 := by
  simp only [nativeRegOk, Bool.or_eq_true, Bool.and_eq_true, decide_eq_true_eq, beq_iff_eq] at h
  omega

theorem NatField.encodeReg_lt {f : NatField} {queue : Nat} {o : Opnd} (h : f.ok queue o = true) : o.encodeReg < 512 := by
  unfold NatField.ok at h
  split at h
  next n => simp_all [Opnd.encodeReg]
  next n =>
    simp only [natSource, Bool.and_eq_true] at h
    exact nativeRegOk_lt h.1.1.1
  next => simp [Opnd.encodeReg]
  next n => simpa [Opnd.encodeReg] using h
  next => cases h

theorem NatField.decode_encodeReg {f : NatField} {queue : Nat} {o : Opnd} (h : f.ok queue o = true) :
    f.decode o.encodeReg = o := by
  unfold NatField.ok at h
  split at h
  next n => rfl
  next bits opt n =>
    simp only [Bool.and_eq_true, Bool.not_eq_true'] at h
    simp [NatField.decode, Opnd.encodeReg, h.2]
  next bits opt => simp [NatField.decode, Opnd.encodeReg, h]
  next n => rfl
  next => cases h

/-! ### Words with a Laold counterpart -/

theorem nativeQueueOk_lt {op q : Nat} (h : nativeQueueOk op q = true) : q < 4 := by
  unfold nativeQueueOk at h
  split_ifs at h <;> simp only [Bool.or_eq_true, Bool.and_eq_true, beq_iff_eq] at h <;> omega

theorem natDest_lt {row : OpRow} {ty : Ty} {mod queue d : Nat} (h : natDest row ty mod queue d = true) : d < 512 := by
  unfold natDest at h
  split at h
  next => simp_all
  next =>
    simp only [Bool.and_eq_true, List.all_eq_true] at h
    refine nativeRegOk_lt (h.1.1 d ?_)
    unfold resultRegs
    split <;> exact List.mem_cons_self

/-- What the fields of a well-formed native instruction with a counterpart hold. -/
theorem nativeForm_fields {r : Raw} (h : nativeForm r = true) :
    ∃ row n fa fb fc, opRow r.op = some row ∧ r.w.nat = some n ∧ r.ext = .none ∧ natFields row r.w.ty n.queue = [fa, fb, fc] ∧
      fa.ok n.queue r.w.a = true ∧ fb.ok n.queue r.w.b = true ∧ fc.ok n.queue r.w.c = true ∧
      n.tokens < 16 ∧ n.queue < 4 ∧ n.d < 512 ∧ r.w.mod < 128 := by
  have hform := h
  unfold nativeForm at h
  split at h
  next row n hrow hn =>
    simp only [Bool.and_eq_true, decide_eq_true_eq, beq_iff_eq] at h
    obtain ⟨⟨⟨⟨⟨⟨⟨⟨⟨⟨hext, -⟩, -⟩, -⟩, hqueue⟩, htok⟩, -⟩, hmod⟩, hd⟩, -⟩, hfields⟩ := h
    split at hfields
    next fa fb fc hf =>
      simp only [Bool.and_eq_true] at hfields
      exact ⟨row, n, fa, fb, fc, hrow, hn, hext, hf, hfields.1.1, hfields.1.2, hfields.2, htok, nativeQueueOk_lt hqueue, natDest_lt hd, hmod⟩
    next => cases hfields
  next => cases h

/-- TYPE and MOD share a byte of the word: its high bit is bit 4 of the type code. -/
theorem typeAndMod (code : Nat) {mod : Nat} (h : mod < 128) :
    (code / 16 * 128 + mod) / 128 * 16 + code % 16 = code ∧ (code / 16 * 128 + mod) % 128 = mod := by omega

theorem chifinRaw_of_fields {v : Nat} {r : Raw} {n : NatInfo} (hn : r.w.nat = some n) (h : nativeForm r = true)
    (hv : v = r.encodeChifin n) : chifinRaw v = some r ∧ v / 2 ^ 48 % 1024 = r.op := by
  obtain ⟨row, n', fa, fb, fc, hrow, hn', hext, hfields, ha, hb, hc, htok, hqueue, hd, hmod⟩ := nativeForm_fields h
  obtain rfl : n' = n := Option.some.inj (hn'.symm.trans hn)
  have hop := opRow_lt hrow
  have hty := r.w.ty.code_lt
  obtain ⟨hcode, hmod'⟩ := typeAndMod r.w.ty.code hmod
  have hpack : ChifinFields n'.tokens n'.queue r.op (r.w.ty.code % 16) (r.w.ty.code / 16 * 128 + r.w.mod) n'.d r.w.a.encodeReg
      r.w.b.encodeReg r.w.c.encodeReg :=
    ⟨htok, hqueue, by omega, by omega, by omega, hd, NatField.encodeReg_lt ha, NatField.encodeReg_lt hb, NatField.encodeReg_lt hc⟩
  obtain ⟨vtok, vqueue, vop, vty, vmod, vd, va, vb, vc⟩ := packChifin_fields hpack hv
  have hr : (⟨r.op, ⟨r.w.ty, r.w.mod, r.w.a, r.w.b, r.w.c, some ⟨n'.tokens, n'.queue, n'.d⟩⟩, .none⟩ : Raw) = r := by
    rw [← hext, ← hn']
  refine ⟨?_, vop⟩
  rw [chifinRaw, vop, vmod, vty, hcode, hrow, Ty.ofCode_code]
  simp only [vtok, vqueue, vd, va, vb, vc, hmod', hfields, NatField.decode_encodeReg ha, NatField.decode_encodeReg hb,
    NatField.decode_encodeReg hc]
  rw [hr, if_pos h]

theorem decodeChifin_encodeChifin {r : Raw} {n : NatInfo} (hn : r.w.nat = some n) (h : nativeOk r = true) :
    decodeChifin (r.encodeChifin n) = r.toInstr := by
  have hform : nativeForm r = true := (Bool.and_eq_true_iff.mp h).2
  obtain ⟨row, -, -, -, -, hrow, -⟩ := nativeForm_fields hform
  obtain ⟨hraw, hop⟩ := chifinRaw_of_fields hn hform rfl
  have hlt := opRow_lt hrow
  have hnot : ¬ 0x3F0 ≤ r.encodeChifin n / 2 ^ 48 % 1024 := by omega
  rw [decodeChifin, if_neg hnot, hraw]
  exact if_pos h

/-! ### Native-only words (Table 12.4) -/

theorem NatWord.fields_lt {k : Nat} {n : NatWord} (hk : k ≤ 6) (h : n.ok k = true) :
    ChifinFields n.tokens n.queue (0x3F0 + k) n.ty 0 n.d n.a n.b n.c := by
  unfold NatWord.ok at h
  simp only [Bool.and_eq_true, decide_eq_true_eq] at h
  obtain ⟨⟨⟨⟨⟨htok, hd⟩, ha⟩, hb⟩, hc⟩, hkind⟩ := h
  have hqt : n.queue < 4 ∧ n.ty < 16 := by
    split at hkind <;> simp only [Bool.and_eq_true, Bool.or_eq_true, decide_eq_true_eq, beq_iff_eq] at hkind <;> omega
  exact ⟨htok, hqt.1, by omega, hqt.2, by decide, hd, ha, hb, hc⟩

theorem decodeChifin_encode {k : Nat} {n : NatWord} (hk : k ≤ 6) (h : n.ok k = true) :
    decodeChifin (n.encode k) = natInstr k n := by
  have hpack := NatWord.fields_lt hk h
  obtain ⟨vtok, vqueue, vop, vty, vmod, vd, va, vb, vc⟩ := packChifin_fields hpack rfl
  have hop : 0x3F0 ≤ n.encode k / 2 ^ 48 % 1024 := by
    rw [NatWord.encode, vop]
    omega
  have hsub : 0x3F0 + k - 0x3F0 = k := by omega
  rw [decodeChifin, if_pos hop]
  unfold chifinOnly NatWord.encode
  simp only [vtok, vqueue, vop, vty, vmod, vd, va, vb, vc, hsub]
  exact if_pos ⟨by omega, trivial, h⟩

/-- Settles O59: the fields of a Chifin word are read back, and its opcode tells a native-only word from one with a counterpart. -/
theorem nativeRoundTrip : Obligations.NativeRoundTrip := by
  intro i w hwf henc hnat
  cases hraw : i.toRaw with
  | some r =>
    obtain ⟨n, hn⟩ := Option.isSome_iff_exists.mp (hnat r hraw)
    have hok : nativeOk r = true := by simpa [Instr.wf, hraw, hn] using hwf
    obtain rfl : r.encodeChifin n = w := by simpa [encode, hraw, hn] using henc
    rw [decodeChifin_encodeChifin hn hok, Instr.toInstr_toRaw hraw]
  | none =>
    simp only [encode, hraw] at henc
    simp only [Instr.wf, hraw] at hwf
    split at henc
    case h_8 => cases henc
    all_goals
      obtain rfl := List.head_eq_of_cons_eq henc
      exact decodeChifin_encode (by decide) hwf

end Sys2Proof
end

section
/-! What the lane-wise instructions of a leaf give: the shapes of chapter 15 (`unary`, `binary`, `ternary`, affine forms), and class A
values read as elements of the integers modulo 2^W, for W at most 64. -/

namespace Sys2Proof

/-! ### Integers as bits (R307) -/

theorem Ty.wrap_eq (t : Ty) (x : Int) : t.wrap x = (BitVec.ofInt t.width x).toNat := by
  rw [Ty.wrap, Word.wrapInt, BitVec.toNat_ofInt]
  push_cast
  rfl

theorem Ty.wrap_lt (t : Ty) (x : Int) : t.wrap x < 2 ^ t.width := Word.wrapInt_lt x t.width

theorem Ty.sat_lt (t : Ty) (x : Int) : t.sat x < 2 ^ t.width := t.wrap_lt _

theorem ofInt_signExtend {W w : Nat} (h : W ≤ w) (v : Nat) : BitVec.ofInt W (Word.signExtend v w) = BitVec.ofNat W v := by
  have hdvd : (2 : Nat) ^ W ∣ 2 ^ w := Nat.pow_dvd_pow 2 h
  have hlow : BitVec.ofNat W (v % 2 ^ w) = BitVec.ofNat W v := by
    apply BitVec.eq_of_toNat_eq
    rw [BitVec.toNat_ofNat, BitVec.toNat_ofNat, Nat.mod_mod_of_dvd _ hdvd]
  have htop : BitVec.ofInt W (2 ^ w) = 0 := by
    have hcast : ((2 : Int) ^ w) = ((2 ^ w : Nat) : Int) := by push_cast; rfl
    rw [hcast, BitVec.ofInt_natCast]
    apply BitVec.eq_of_toNat_eq
    rw [BitVec.toNat_ofNat, Nat.mod_eq_zero_of_dvd hdvd]
    rfl
  unfold Word.signExtend
  dsimp only
  split_ifs with h0 hneg
  · obtain rfl : W = 0 := by omega
    exact Subsingleton.elim _ _
  · rw [BitVec.ofInt_natCast, hlow]
  · rw [Int.sub_eq_add_neg, BitVec.ofInt_add, BitVec.ofInt_neg, htop, BitVec.ofInt_natCast, hlow]
    simp

/-- An integer read from the bits of a type keeps its low bits. -/
theorem Ty.ofInt_toInt (t : Ty) {W : Nat} (h : W ≤ t.width) (v : Nat) : BitVec.ofInt W (t.toInt v) = BitVec.ofNat W v := by
  unfold Ty.toInt
  split
  · exact ofInt_signExtend h v
  · rw [BitVec.ofInt_natCast]
    apply BitVec.eq_of_toNat_eq
    rw [BitVec.toNat_ofNat, BitVec.toNat_ofNat, Nat.mod_mod_of_dvd _ (Nat.pow_dvd_pow 2 h)]

theorem Ty.toInt_mod (t : Ty) (v : Nat) : t.toInt (v % 2 ^ t.width) = t.toInt v := by
  simp [Ty.toInt, Word.signExtend]

theorem pow_width_le {W : Nat} (h : W ≤ 64) : 2 ^ W ≤ 2 ^ 128 := Nat.pow_le_pow_right (by decide) (by omega)

end Sys2Proof

namespace Sys2Proof.Machine

open Sys2Proof

theorem wrapOrSat_lt (w : Main) (x : Int) : wrapOrSat w x < 2 ^ w.ty.width := by
  unfold wrapOrSat
  split
  · exact w.ty.sat_lt x
  · exact w.ty.wrap_lt x

theorem wrapOrSat_plain {w : Main} (h : Word.bit w.mod 3 = false) (x : Int) : wrapOrSat w x = w.ty.wrap x := by
  simp [wrapOrSat, h]

/-! ### Class A values (R96) -/

/-- The item offset of a lane of the executing leaf. -/
def Exe.item (e : Exe) (l : Nat) : Nat := e.g.first * e.l.g + l

theorem affineAt_bits {W : Nat} (h : W ≤ 64) (b st : Word) (o : Nat) :
    BitVec.ofNat W (affineAt b st o) = b.setWidth W + st.setWidth W * BitVec.ofNat W o := by
  have hword : BitVec.ofNat W (affineAt b st o) = (b + st * BitVec.ofNat 64 o).setWidth W := by
    rw [← BitVec.setWidth_ofNat_of_le h]
    congr 1
    apply BitVec.eq_of_toNat_eq
    simp [affineAt]
  rw [hword, BitVec.setWidth_add _ _ h, BitVec.setWidth_mul _ _ h, BitVec.setWidth_ofNat_of_le h]

theorem setWidth_sub {W : Nat} (h : W ≤ 64) (x y : Word) : (x - y).setWidth W = x.setWidth W - y.setWidth W := by
  rw [BitVec.sub_eq_add_neg, BitVec.setWidth_add _ _ h, BitVec.setWidth_neg_of_le h, ← BitVec.sub_eq_add_neg]

/-- A class A value in a lane, as bits. -/
theorem Exe.lane_affine (e : Exe) {ty : Ty} (h : ty.width ≤ 64) (b st : Word) (l : Nat) :
    e.lane ⟨ty, .a b st⟩ l = (b.setWidth ty.width + st.setWidth ty.width * BitVec.ofNat ty.width (e.item l)).toNat := by
  rw [← affineAt_bits h, BitVec.toNat_ofNat]
  rfl

/-- A class U or A value in a lane, modulo the width of its type. -/
theorem Exe.lane_bits (e : Exe) {v : TVal} (hw : v.ty.width ≤ 64) {b st : Word} (h : v.val.affine = some (b, st)) (l : Nat) :
    BitVec.ofNat v.ty.width (e.lane v l) =
      b.setWidth v.ty.width + st.setWidth v.ty.width * BitVec.ofNat v.ty.width (e.item l) := by
  obtain ⟨ty, val⟩ := v
  cases val with
  | u x =>
    obtain ⟨rfl, rfl⟩ := Prod.mk.inj (Option.some.inj h)
    apply BitVec.eq_of_toNat_eq
    simp [Exe.lane, Val.lane, Nat.mod_mod_of_dvd _ (Nat.pow_dvd_pow 2 hw)]
  | a x y =>
    obtain ⟨rfl, rfl⟩ := Prod.mk.inj (Option.some.inj h)
    rw [e.lane_affine hw, BitVec.ofNat_toNat, BitVec.setWidth_eq]
  | cmp => cases h
  | s => cases h

/-- The bits of the integer that a U or A value is read as. -/
theorem Exe.int_bits (e : Exe) {v : TVal} {ty : Ty} (hty : v.ty = ty) (hw : ty.width ≤ 64) {b st : Word}
    (h : v.val.affine = some (b, st)) (l : Nat) : BitVec.ofInt ty.width (ty.toInt (e.lane v l)) =
      b.setWidth ty.width + st.setWidth ty.width * BitVec.ofNat ty.width (e.item l) := by
  subst hty
  rw [Ty.ofInt_toInt _ le_rfl, e.lane_bits hw h]

/-! ### Lane-wise shapes -/

theorem gives_lanewise_next {s : State} {e : Exe} {i : Instr} {w : Main} {ty : Ty} {xs : List TVal} {f : List Nat → Nat}
    (h : Leaf s e) (hx : exec i s = .next (e.lanewise s w [ty] xs [f])) :
    Gives s e i ty (fun l => f (xs.map (fun x => e.lane x l))) := by
  obtain ⟨v, hv, rfl, hl⟩ := Exe.lanewise_leaf (s := s) h.one w ty xs f
  rw [hv] at hx
  exact gives_define h.laold hx hl

section
variable {s : State} {e : Exe} {i : Instr} {w : Main}

theorem gives_unary {f : Nat → Nat} (h : Leaf s e) (hx : exec i s = unary w f s) :
    Gives s e i w.ty (fun l => f (e.lane (e.opA s w) l)) :=
  gives_lanewise_next h (hx.trans (onUnit_runs h.runs _))

theorem gives_binary {f : Nat → Nat → Nat} (h : Leaf s e) (hx : exec i s = binary w f s) :
    Gives s e i w.ty (fun l => f (e.lane (e.opA s w) l) (e.lane (e.opB s w) l)) :=
  gives_lanewise_next h (hx.trans (onUnit_runs h.runs _))

theorem gives_ternary {f : Nat → Nat → Nat → Nat} (h : Leaf s e) (hx : exec i s = ternary w f s) :
    Gives s e i w.ty (fun l => f (e.lane (e.opA s w) l) (e.lane (e.opB s w) l) (e.lane (e.opC s w) l)) :=
  gives_lanewise_next h (hx.trans (onUnit_runs h.runs _))

theorem gives_shiftForm {f : Nat → Nat → Nat} (h : Leaf s e) (hx : exec i s = shiftForm w f s) :
    Gives s e i w.ty (fun l => f (e.lane (e.opA s w) l) (e.lane (e.opnd s .n32 w.b) l)) :=
  gives_lanewise_next h (hx.trans (onUnit_runs h.runs _))

/-- A form with an affine rule gives its function where the class A result agrees with it. -/
theorem gives_affineOr {ty : Ty} {xs : List TVal} {v : Option (Word × Word)} {f : List Nat → Nat} (h : Leaf s e)
    (hx : exec i s = .next (e.affineOr s w ty xs v f))
    (hv : ∀ b st, v = some (b, st) → ∀ l, e.lane ⟨ty, .a b st⟩ l = f (xs.map (fun x => e.lane x l)) % 2 ^ 128) :
    Gives s e i ty (fun l => f (xs.map (fun x => e.lane x l))) := by
  unfold Exe.affineOr at hx
  split at hx
  next b st =>
    split at hx
    · exact gives_define h.laold hx fun l _ _ => hv b st rfl l
    · exact gives_lanewise_next h hx
  next => exact gives_lanewise_next h hx

theorem mapM_affine_one {x : TVal} {ps : List (Word × Word)} (h : [x].mapM (fun x => x.val.affine) = some ps) :
    ∃ b st, x.val.affine = some (b, st) ∧ ps = [(b, st)] := by
  cases hx : x.val.affine with
  | none => simp [hx] at h
  | some p => exact ⟨p.1, p.2, rfl, by simpa [hx] using h.symm⟩

theorem mapM_affine_two {x y : TVal} {ps : List (Word × Word)} (h : [x, y].mapM (fun x => x.val.affine) = some ps) :
    ∃ b st b' st', x.val.affine = some (b, st) ∧ y.val.affine = some (b', st') ∧ ps = [(b, st), (b', st')] := by
  cases hx : x.val.affine with
  | none => simp [hx] at h
  | some p =>
    cases hy : y.val.affine with
    | none => simp [hx, hy] at h
    | some q => exact ⟨p.1, p.2, q.1, q.2, rfl, rfl, by simpa [hx, hy] using h.symm⟩

/-- An integer form (R319): its class A result must be the wrapped result of the operands' integers. -/
theorem gives_intForm {xs : Exe → List TVal} {f : List Int → Int} {aff : List (Word × Word) → Option (Word × Word)} (h : Leaf s e)
    (hw : w.ty.width ≤ 64) (hx : exec i s = intForm w xs f aff s)
    (hv : ∀ ps b st, (xs e).mapM (fun x => x.val.affine) = some ps → aff ps = some (b, st) → ∀ l,
      b.setWidth w.ty.width + st.setWidth w.ty.width * BitVec.ofNat w.ty.width (e.item l) =
        BitVec.ofInt w.ty.width (f ((xs e).map (fun x => w.ty.toInt (e.lane x l))))) :
    Gives s e i w.ty (fun l => wrapOrSat w (f ((xs e).map (fun x => w.ty.toInt (e.lane x l))))) := by
  rw [intForm, onUnit_runs h.runs] at hx
  refine (gives_affineOr h hx fun b st hb l => ?_).congr fun l _ _ => ?_
  · split at hb
    next => cases hb
    next hsat =>
      obtain ⟨ps, hps, haff⟩ := Option.bind_eq_some_iff.mp hb
      rw [e.lane_affine hw, hv ps b st hps haff l, wrapOrSat_plain (by simpa using hsat), List.map_map, ← Ty.wrap_eq]
      exact (Nat.mod_eq_of_lt (Nat.lt_of_lt_of_le (w.ty.wrap_lt _) (pow_width_le hw))).symm
  · rw [List.map_map]
    rfl

end

/-! ### Table 15.3 -/

section
variable {s : State} {e : Exe} {w : Main}

theorem gives_add (h : Leaf s e) (hw : w.ty.width ≤ 64) (ha : (e.opA s w).ty = w.ty) (hb : (e.opB s w).ty = w.ty) :
    Gives s e (.add w) w.ty (fun l => wrapOrSat w (w.ty.toInt (e.lane (e.opA s w) l) + w.ty.toInt (e.lane (e.opB s w) l))) := by
  have hx : exec (.add w) s = execAdd w s := rfl
  rw [execAdd] at hx
  refine (gives_intForm h hw hx fun ps b st hps haff l => ?_).congr fun _ _ _ => rfl
  obtain ⟨b₁, st₁, b₂, st₂, h₁, h₂, rfl⟩ := mapM_affine_two hps
  simp only [Option.some.injEq, Prod.mk.injEq] at haff
  obtain ⟨rfl, rfl⟩ := haff
  simp only [List.map_cons, List.map_nil, iarg, List.getD_cons_zero, List.getD_cons_succ]
  rw [BitVec.ofInt_add, e.int_bits ha hw h₁, e.int_bits hb hw h₂, BitVec.setWidth_add _ _ hw, BitVec.setWidth_add _ _ hw]
  ring

theorem gives_sub (h : Leaf s e) (hw : w.ty.width ≤ 64) (ha : (e.opA s w).ty = w.ty) (hb : (e.opB s w).ty = w.ty) :
    Gives s e (.sub w) w.ty (fun l => wrapOrSat w (w.ty.toInt (e.lane (e.opA s w) l) - w.ty.toInt (e.lane (e.opB s w) l))) := by
  have hx : exec (.sub w) s = execSub w s := rfl
  rw [execSub] at hx
  refine (gives_intForm h hw hx fun ps b st hps haff l => ?_).congr fun _ _ _ => rfl
  obtain ⟨b₁, st₁, b₂, st₂, h₁, h₂, rfl⟩ := mapM_affine_two hps
  simp only [Option.some.injEq, Prod.mk.injEq] at haff
  obtain ⟨rfl, rfl⟩ := haff
  simp only [List.map_cons, List.map_nil, iarg, List.getD_cons_zero, List.getD_cons_succ]
  rw [Int.sub_eq_add_neg, BitVec.ofInt_add, BitVec.ofInt_neg, e.int_bits ha hw h₁, e.int_bits hb hw h₂, setWidth_sub hw,
    setWidth_sub hw]
  ring

theorem gives_neg (h : Leaf s e) (hw : w.ty.width ≤ 64) (ha : (e.opA s w).ty = w.ty) :
    Gives s e (.neg w) w.ty (fun l => wrapOrSat w (-w.ty.toInt (e.lane (e.opA s w) l))) := by
  have hx : exec (.neg w) s = execNeg w s := rfl
  rw [execNeg] at hx
  refine (gives_intForm h hw hx fun ps b st hps haff l => ?_).congr fun _ _ _ => rfl
  obtain ⟨b₁, st₁, h₁, rfl⟩ := mapM_affine_one hps
  simp only [Option.some.injEq, Prod.mk.injEq] at haff
  obtain ⟨rfl, rfl⟩ := haff
  simp only [List.map_cons, List.map_nil, iarg, List.getD_cons_zero]
  rw [BitVec.ofInt_neg, e.int_bits ha hw h₁, BitVec.setWidth_neg_of_le hw, BitVec.setWidth_neg_of_le hw]
  ring

/-- An A value times a U value scales base and step (Table 5.1). -/
theorem scale_bits {W : Nat} (hw : W ≤ 64) (b st u : Word) (o : BitVec W) :
    (b * u).setWidth W + (st * u).setWidth W * o = (b.setWidth W + st.setWidth W * o) * u.setWidth W := by
  rw [BitVec.setWidth_mul _ _ hw, BitVec.setWidth_mul _ _ hw]
  ring

theorem gives_mul (h : Leaf s e) (hw : w.ty.width ≤ 64) (ha : (e.opA s w).ty = w.ty) (hb : (e.opB s w).ty = w.ty) :
    Gives s e (.mul w) w.ty (fun l => wrapOrSat w (w.ty.toInt (e.lane (e.opA s w) l) * w.ty.toInt (e.lane (e.opB s w) l))) := by
  have hx : exec (.mul w) s = execMul w s := rfl
  rw [execMul, onUnit_runs h.runs] at hx
  refine gives_affineOr h hx fun b st hv l => ?_
  split at hv
  next => cases hv
  next hsat =>
    have hplain (x y : Nat) : wrapOrSat w (w.ty.toInt x * w.ty.toInt y) % 2 ^ 128 =
        (BitVec.ofInt w.ty.width (w.ty.toInt x) * BitVec.ofInt w.ty.width (w.ty.toInt y)).toNat := by
      rw [wrapOrSat_plain (by simpa using hsat), Ty.wrap_eq, BitVec.ofInt_mul]
      exact Nat.mod_eq_of_lt (Nat.lt_of_lt_of_le (BitVec.isLt _) (pow_width_le hw))
    simp only [List.map_cons, List.map_nil, arg, List.getD_cons_zero, List.getD_cons_succ]
    rw [hplain, e.lane_affine hw]
    split at hv
    next x y u hva hvb =>
      obtain ⟨rfl, rfl⟩ := Prod.mk.inj (Option.some.inj hv)
      rw [scale_bits hw, e.int_bits ha hw (by rw [hva]; rfl), e.int_bits hb hw (by rw [hvb]; rfl)]
      simp
    next u x y hva hvb =>
      obtain ⟨rfl, rfl⟩ := Prod.mk.inj (Option.some.inj hv)
      rw [scale_bits hw, e.int_bits ha hw (by rw [hva]; rfl), e.int_bits hb hw (by rw [hvb]; rfl), BitVec.mul_comm]
      simp
    next => cases hv

end

/-- Settles O2: each instruction gives its exact result, wrapped or saturated; a class A result is the same bits modulo 2^W. -/
theorem integerArithmetic : Obligations.IntegerArithmetic := by
  intro s e w h hw ha hb
  have hmad : exec (.mad w) s = execMad w s := rfl
  have habs : exec (.abs w) s = execAbs w s := rfl
  have hmulhi : exec (.mulhi w) s = execMulhi w s := rfl
  have hadiff : exec (.adiff w) s = execAdiff w s := rfl
  have natAbs (x : Int) : ((x.natAbs : Nat) : Int) = if x < 0 then -x else x := by split <;> omega
  have natAbs_sub (x y : Int) : (((x - y).natAbs : Nat) : Int) = if x < y then y - x else x - y := by split <;> omega
  refine ⟨gives_add h hw ha hb, gives_sub h hw ha hb, gives_mul h hw ha hb, (gives_ternary h hmad).congr fun _ _ _ => rfl,
    gives_neg h hw ha, (gives_unary h habs).congr fun l _ _ => ?_, (gives_binary h hmulhi).congr fun _ _ _ => rfl,
    (gives_binary h hadiff).congr fun l _ _ => ?_⟩
  · rw [natAbs]
    rfl
  · rw [natAbs_sub]

end Sys2Proof.Machine
end

section
/-! Quotients, extremes and carries (R320 to R322), logic, shifts and bit fields (R323 to R327), compares, selection and conversion
(R328 to R331) of a leaf. -/

namespace Sys2Proof.Machine

open Sys2Proof

/-! ### Division, extremes, carries -/

theorem addCarry_snd {w a b c : Nat} :
    (addCarry w a b c).2 = if 2 ^ w ≤ a % 2 ^ w + b % 2 ^ w + c % 2 then 1 else 0 := by
  have hpos := Nat.two_pow_pos w
  have ha := Nat.mod_lt a hpos
  have hb := Nat.mod_lt b hpos
  have hc := Nat.mod_lt c (show 0 < 2 by decide)
  simp only [addCarry]
  generalize a % 2 ^ w = x at *
  generalize b % 2 ^ w = y at *
  generalize c % 2 = z at *
  generalize 2 ^ w = m at *
  split
  next h => rw [Nat.div_eq_iff hpos]; omega
  next h => exact Nat.div_eq_of_lt (by omega)

theorem subBorrow_eq {w a b c : Nat} : subBorrow w a b c =
    ((a % 2 ^ w + 2 * 2 ^ w - b % 2 ^ w - c % 2) % 2 ^ w, if a % 2 ^ w < b % 2 ^ w + c % 2 then 1 else 0) := by
  have hpos := Nat.two_pow_pos w
  have hb := Nat.mod_lt b hpos
  have hc := Nat.mod_lt c (show 0 < 2 by decide)
  have hcast : ((2 : Int) ^ w) = ((2 ^ w : Nat) : Int) := by push_cast; rfl
  simp only [subBorrow, Word.wrapInt, Word.ofBool, hcast]
  generalize a % 2 ^ w = x at *
  generalize b % 2 ^ w = y at *
  generalize c % 2 = z at *
  generalize 2 ^ w = m at *
  have hshift : ((x : Int) - y - z) % m = ((x + 2 * m - y - z : Nat) : Int) % m := by
    rw [show ((x + 2 * m - y - z : Nat) : Int) = (x : Int) - y - z + m * 2 by omega, Int.add_mul_emod_self_left]
  have hneg : ((x : Int) - y - z < 0) ↔ x < y + z := by omega
  rw [hshift]
  simp only [hneg, decide_eq_true_eq]
  norm_cast

/-- Settles O3: the model's quotients and extremes are those of Table 15.4, and a carry is the quotient by 2^W. -/
theorem divisionExtremesAndCarry : Obligations.DivisionExtremesAndCarry := by
  constructor
  · intro s e w h _
    have hdiv : exec (.div w) s = execDiv w s := rfl
    have hrem : exec (.rem w) s = execRem w s := rfl
    have hmin : exec (.min w) s = execMin w s := rfl
    have hmax : exec (.max w) s = execMax w s := rfl
    have hclamp : exec (.clamp w) s = execClamp w s := rfl
    exact ⟨(gives_binary h hdiv).congr fun _ _ _ => rfl, (gives_binary h hrem).congr fun _ _ _ => rfl,
      (gives_binary h hmin).congr fun _ _ _ => rfl, (gives_binary h hmax).congr fun _ _ _ => rfl,
      (gives_ternary h hclamp).congr fun _ _ _ => rfl⟩
  · intro s e w h _
    have haddc : exec (.addc w) s = execAddc w s := rfl
    have hsubb : exec (.subb w) s = execSubb w s := rfl
    refine ⟨(gives2_lanewise h haddc).congr fun l _ _ => ⟨rfl, ?_⟩, (gives2_lanewise h hsubb).congr fun l _ _ => ?_⟩
    · dsimp only
      rw [addCarry_snd]
      rfl
    · dsimp only
      rw [subBorrow_eq]
      exact ⟨rfl, rfl⟩

/-! ### Bits of a number -/

theorem bit_eq_testBit (v i : Nat) : Word.bit v i = v.testBit i := by
  rw [Word.bit, Nat.testBit_eq_decide_div_mod_eq]
  rfl

theorem bit_mod {v w i : Nat} (h : i < w) : Word.bit (v % 2 ^ w) i = Word.bit v i := by
  simp [bit_eq_testBit, Nat.testBit_mod_two_pow, h]

/-- A numeral built from its bits, lowest first. -/
def bitsBelow (f : Nat → Bool) : Nat → Nat
  | 0 => 0
  | n + 1 => bitsBelow f n + if f n then 2 ^ n else 0

theorem bitsBelow_lt (f : Nat → Bool) (n : Nat) : bitsBelow f n < 2 ^ n := by
  induction n with
  | zero => exact Nat.one_pos
  | succ n ih =>
    simp only [bitsBelow, Nat.pow_succ]
    split <;> omega

theorem bit_bitsBelow (f : Nat → Bool) {n i : Nat} (h : i < n) : Word.bit (bitsBelow f n) i = f i := by
  induction n with
  | zero => omega
  | succ n ih =>
    have hlt := bitsBelow_lt f n
    simp only [bitsBelow]
    rcases Nat.lt_succ_iff_lt_or_eq.mp h with hlow | rfl
    · have hmod : (bitsBelow f n + if f n then 2 ^ n else 0) % 2 ^ n = bitsBelow f n := by
        split
        · rw [Nat.add_mod_right, Nat.mod_eq_of_lt hlt]
        · exact Nat.mod_eq_of_lt hlt
      rw [← bit_mod hlow, hmod, ih hlow]
    · cases hf : f i
      · simp [Word.bit, Nat.div_eq_of_lt hlt]
      · simp [Word.bit, Nat.add_div_right _ (Nat.two_pow_pos i), Nat.div_eq_of_lt hlt]

theorem bfn3Bits_eq (f a b c n : Nat) : bfn3Bits f a b c n = bitsBelow (fun i =>
    Word.bit f (Word.ofBool (Word.bit a i) + 2 * Word.ofBool (Word.bit b i) + 4 * Word.ofBool (Word.bit c i))) n := by
  induction n with
  | zero => rfl
  | succ n ih => rw [bfn3Bits, bitsBelow, ih]

/-! ### Logic and shifts -/

section
variable {s : State} {e : Exe} {w : Main}

theorem gives_not (h : Leaf s e) (hw : w.ty.width ≤ 64) (ha : (e.opA s w).ty = w.ty) :
    Gives s e (.not w) w.ty (fun l => notBits w.ty.width (e.lane (e.opA s w) l)) := by
  have hx : exec (.not w) s = execNot w s := rfl
  rw [execNot, onUnit_runs h.runs] at hx
  refine (gives_affineOr h hx fun b st hv l => ?_).congr fun _ _ _ => rfl
  split at hv
  next x y hva =>
    obtain ⟨rfl, rfl⟩ := Prod.mk.inj (Option.some.inj hv)
    have hlane := e.lane_bits (v := e.opA s w) (by rw [ha]; exact hw) (by rw [hva]; rfl) l
    rw [ha] at hlane
    have hone : (1 : Word).setWidth w.ty.width = 1#w.ty.width := BitVec.setWidth_ofNat_of_le hw 1
    have hnot : (-x - 1).setWidth w.ty.width + (-y).setWidth w.ty.width * BitVec.ofNat w.ty.width (e.item l) =
        ~~~BitVec.ofNat w.ty.width (e.lane (e.opA s w) l) := by
      rw [hlane, BitVec.not_eq_neg_add, setWidth_sub hw, BitVec.setWidth_neg_of_le hw, BitVec.setWidth_neg_of_le hw, hone]
      ring
    rw [e.lane_affine hw, hnot, BitVec.toNat_not, BitVec.toNat_ofNat]
    have hpos := Nat.two_pow_pos w.ty.width
    exact (Nat.mod_eq_of_lt (Nat.lt_of_lt_of_le (by omega) (pow_width_le hw))).symm
  next => cases hv

/-- Shifting the bits of a number left multiplies them. -/
theorem shlBits_bits (W a n : Nat) : shlBits W a n = (BitVec.ofNat W a * BitVec.ofNat W (2 ^ n)).toNat := by
  unfold shlBits
  rw [← BitVec.ofNat_mul, BitVec.toNat_ofNat]
  split
  next h => exact (Nat.mod_eq_zero_of_dvd (Dvd.dvd.mul_left (Nat.pow_dvd_pow 2 h) a)).symm
  next => rfl

theorem setWidth_shl {W : Nat} (hw : W ≤ 64) (x : Word) (k : Nat) :
    (x <<< k).setWidth W = x.setWidth W * BitVec.ofNat W (2 ^ k) := by
  apply BitVec.eq_of_toNat_eq
  rw [← BitVec.ofNat_toNat, BitVec.toNat_shiftLeft, BitVec.toNat_mul, BitVec.toNat_ofNat, BitVec.toNat_ofNat, BitVec.toNat_setWidth,
    Nat.mod_mod_of_dvd _ (Nat.pow_dvd_pow 2 hw), Nat.shiftLeft_eq, Nat.mul_mod]

theorem gives_shl (h : Leaf s e) (hw : w.ty.width ≤ 64) (ha : (e.opA s w).ty = w.ty) :
    Gives s e (.shl w) w.ty (fun l => shlBits w.ty.width (e.lane (e.opA s w) l) (e.lane (e.opnd s .n32 w.b) l)) := by
  have hx : exec (.shl w) s = execShl w s := rfl
  rw [execShl, onUnit_runs h.runs] at hx
  refine (gives_affineOr h hx fun b st hv l => ?_).congr fun _ _ _ => rfl
  split at hv
  next x y k hva hvn =>
    have hlane := e.lane_bits (v := e.opA s w) (by rw [ha]; exact hw) (by rw [hva]; rfl) l
    rw [ha] at hlane
    have hamount : e.lane (e.opnd s .n32 w.b) l = k.toNat := by
      simp only [Exe.lane, hvn, Val.lane]
    simp only [List.map_cons, List.map_nil, arg, List.getD_cons_zero, List.getD_cons_succ, hamount]
    rw [e.lane_affine hw, shlBits_bits, hlane, Nat.mod_eq_of_lt (Nat.lt_of_lt_of_le (BitVec.isLt _) (pow_width_le hw))]
    congr 1
    split at hv
    next hk =>
      obtain ⟨rfl, rfl⟩ := Prod.mk.inj (Option.some.inj hv)
      have hzero : BitVec.ofNat w.ty.width (2 ^ k.toNat) = 0 := by
        apply BitVec.eq_of_toNat_eq
        rw [BitVec.toNat_ofNat, Nat.mod_eq_zero_of_dvd (Nat.pow_dvd_pow 2 (hw.trans hk))]
        rfl
      simp [hzero]
    next =>
      obtain ⟨rfl, rfl⟩ := Prod.mk.inj (Option.some.inj hv)
      rw [setWidth_shl hw, setWidth_shl hw]
      ring
  next => cases hv

end

theorem logicAndShifts : Claims.LogicAndShifts := by
  intro s e w f h _ hw ha
  have hand : exec (.and w) s = execAnd w s := rfl
  have hor : exec (.or w) s = execOr w s := rfl
  have hxor : exec (.xor w) s = execXor w s := rfl
  have hshr : exec (.shr w) s = execShr w s := rfl
  have hsra : exec (.sra w) s = execSra w s := rfl
  have hrotl : exec (.rotl w) s = execRotl w s := rfl
  have hbfn3 : exec (.bfn3 w f) s = execBfn3 w f s := rfl
  refine ⟨(gives_binary h hand).congr fun _ _ _ => rfl, (gives_binary h hor).congr fun _ _ _ => rfl,
    (gives_binary h hxor).congr fun _ _ _ => rfl, gives_not h hw ha, gives_shl h hw ha,
    (gives_shiftForm h hshr).congr fun _ _ _ => rfl, (gives_shiftForm h hsra).congr fun _ _ _ => rfl,
    (gives_shiftForm h hrotl).congr fun _ _ _ => rfl, ?_⟩
  obtain ⟨v, hv, hty, hlane⟩ := gives_ternary h hbfn3
  refine ⟨v, hv, hty, fun l hl hact => ?_⟩
  have hlt := bitsBelow_lt (fun i => Word.bit f (Word.ofBool (Word.bit (e.lane (e.opA s w) l) i) +
    2 * Word.ofBool (Word.bit (e.lane (e.opB s w) l) i) + 4 * Word.ofBool (Word.bit (e.lane (e.opC s w) l) i))) w.ty.width
  rw [hlane l hl hact]
  dsimp only
  rw [bfn3Bits_eq, Nat.mod_eq_of_lt (Nat.lt_of_lt_of_le hlt (pow_width_le hw))]
  exact ⟨hlt, fun i hi => bit_bitsBelow _ hi⟩

/-! ### Bit fields and counts -/

theorem bfeBits_eq (ty : Ty) (a p k : Nat) : bfeBits ty a p k =
    if k = 0 ∨ ty.width ≤ p then 0
    else
      let n := min (p + k) ty.width - p
      let v := a / 2 ^ p % 2 ^ n
      if ty.signed then ty.wrap (Word.signExtend v n) else v := by
  unfold bfeBits
  dsimp only
  split
  next => rfl
  next h =>
    have hbits : min (p + k) ty.width - 1 + 1 - p = min (p + k) ty.width - p := by omega
    have hlen : min (p + k) ty.width - 1 - p + 1 = min (p + k) ty.width - p := by omega
    rw [Word.field, hbits, hlen]

theorem clzBits_le (a n : Nat) : clzBits a n ≤ n := by
  induction n with
  | zero => exact le_rfl
  | succ n ih =>
    rw [clzBits]
    split <;> omega

/-- Above the leading one bit there are zeros. -/
theorem clzBits_spec (a n : Nat) : a % 2 ^ n < 2 ^ (n - clzBits a n) ∧ (clzBits a n < n → Word.bit a (n - 1 - clzBits a n) = true) := by
  induction n with
  | zero => simp [clzBits, Nat.mod_one]
  | succ n ih =>
    rw [clzBits]
    split
    next hbit => exact ⟨Nat.mod_lt _ (Nat.two_pow_pos _), fun _ => by simpa using hbit⟩
    next hbit =>
      have hle := clzBits_le a n
      have hlow : a % 2 ^ (n + 1) = a % 2 ^ n := by
        have hzero : a / 2 ^ n % 2 = 0 := by
          simp only [Word.bit, beq_iff_eq] at hbit
          omega
        rw [Nat.pow_succ, Nat.mod_mul, hzero]
        simp
      have hsub : n + 1 - (clzBits a n + 1) = n - clzBits a n := by omega
      have hsub' : n + 1 - 1 - (clzBits a n + 1) = n - 1 - clzBits a n := by omega
      rw [hlow, hsub, hsub']
      exact ⟨ih.1, fun hlt => ih.2 (by omega)⟩

theorem ctzBits_le (a n i : Nat) : ctzBits a n i ≤ n := by
  induction n generalizing i with
  | zero => exact le_rfl
  | succ n ih =>
    have := ih (i + 1)
    rw [ctzBits]
    split <;> omega

/-- Below the trailing one bit there are zeros. -/
theorem ctzBits_spec (a n i : Nat) (h : a % 2 ^ i = 0) :
    a % 2 ^ (i + ctzBits a n i) = 0 ∧ (ctzBits a n i < n → Word.bit a (i + ctzBits a n i) = true) := by
  induction n generalizing i with
  | zero => exact ⟨h, fun hlt => absurd hlt (by omega)⟩
  | succ n ih =>
    rw [ctzBits]
    split
    next hbit => exact ⟨h, fun _ => hbit⟩
    next hbit =>
      have hnext : a % 2 ^ (i + 1) = 0 := by
        have hzero : a / 2 ^ i % 2 = 0 := by
          simp only [Word.bit, beq_iff_eq] at hbit
          omega
        rw [Nat.pow_succ, Nat.mod_mul, h, hzero, Nat.mul_zero]
      obtain ⟨hmod, hone⟩ := ih (i + 1) hnext
      have hsum : i + 1 + ctzBits a n (i + 1) = i + (ctzBits a n (i + 1) + 1) := by omega
      rw [hsum] at hmod hone
      exact ⟨hmod, fun hlt => hone (by omega)⟩

theorem oneBits_eq (a n : Nat) : oneBits a n = ((List.range n).filter (Word.bit a)).length := by
  induction n with
  | zero => rfl
  | succ n ih =>
    rw [oneBits, ih, List.range_succ, List.filter_append, List.length_append]
    cases hbit : Word.bit a n <;> simp [Word.ofBool, hbit]

theorem revBits_lt (a n : Nat) : revBits a n < 2 ^ n := by
  induction n generalizing a with
  | zero => exact Nat.one_pos
  | succ n ih =>
    have := ih (a / 2)
    have := Nat.mod_lt a (show 0 < 2 by decide)
    have : a % 2 = 0 ∨ a % 2 = 1 := by omega
    rw [revBits, Nat.pow_succ]
    rcases this with h | h <;> rw [h] <;> omega

theorem bit_revBits (a : Nat) {n i : Nat} (h : i < n) : Word.bit (revBits a n) i = Word.bit a (n - 1 - i) := by
  induction n generalizing a i with
  | zero => omega
  | succ n ih =>
    have hlt := revBits_lt (a / 2) n
    rw [revBits]
    rcases Nat.lt_succ_iff_lt_or_eq.mp h with hlow | rfl
    · have hmod : (revBits (a / 2) n + a % 2 * 2 ^ n) % 2 ^ n = revBits (a / 2) n := by
        rw [Nat.add_mul_mod_self_right, Nat.mod_eq_of_lt hlt]
      have hsucc : n + 1 - 1 - i = n - 1 - i + 1 := by omega
      rw [← bit_mod hlow, hmod, ih _ hlow, hsucc]
      simp only [Word.bit, Nat.pow_succ', Nat.div_div_eq_div_mul]
    · simp [Word.bit, Nat.add_mul_div_right _ _ (Nat.two_pow_pos i), Nat.div_eq_of_lt hlt]

theorem bitFields : Claims.BitFields := by
  intro s e w x h hlow hw
  have hbfe : exec (.bfe w) s = execBfe w s := rfl
  have hbfi : exec (.bfi w x) s = execBfi w x s := rfl
  have hclz : exec (.clz w) s = execClz w s := rfl
  have hctz : exec (.ctz w) s = execCtz w s := rfl
  have hbcnt : exec (.bcnt w) s = execBcnt w s := rfl
  have hbrev : exec (.brev w) s = execBrev w s := rfl
  have hbswap : exec (.bswap w) s = execBswap w s := rfl
  have hcount {n : Nat} (hn : n ≤ w.ty.width) : n % 2 ^ w.ty.width % 2 ^ 128 = n := by
    have hlt : n < 2 ^ w.ty.width := Nat.lt_of_le_of_lt hn Nat.lt_two_pow_self
    rw [Nat.mod_eq_of_lt hlt, Nat.mod_eq_of_lt (Nat.lt_of_lt_of_le hlt (pow_width_le hw))]
  refine ⟨(gives_lanewise h hbfe).congr fun l _ _ => ?_, (gives_lanewise h hbfi).congr fun _ _ _ => rfl, ?_, ?_,
    (gives_unary h hbcnt).congr fun l _ _ => ?_, ?_, (gives_unary h hbswap).congr fun _ _ _ => rfl⟩
  · dsimp only
    rw [bfeBits_eq]
    rfl
  · obtain ⟨v, hv, hty, hlane⟩ := gives_unary h hclz
    refine ⟨v, hv, hty, fun l hl hact => ?_⟩
    rw [hlane l hl hact, hcount (clzBits_le _ _)]
    exact ⟨clzBits_le _ _, clzBits_spec _ _⟩
  · obtain ⟨v, hv, hty, hlane⟩ := gives_unary h hctz
    refine ⟨v, hv, hty, fun l hl hact => ?_⟩
    rw [hlane l hl hact, hcount (ctzBits_le _ _ _)]
    have hspec := ctzBits_spec (e.lane (e.opA s w) l) w.ty.width 0 (by simp [Nat.mod_one])
    rw [Nat.zero_add] at hspec
    exact ⟨ctzBits_le _ _ _, hspec⟩
  · rw [oneBits_eq]
  · obtain ⟨v, hv, hty, hlane⟩ := gives_unary h hbrev
    refine ⟨v, hv, hty, fun l hl hact i hi => ?_⟩
    rw [hlane l hl hact, Nat.mod_eq_of_lt (Nat.lt_of_lt_of_le (revBits_lt _ _) (pow_width_le hw)), bit_revBits _ hi]

/-- Settles O4: logic and shifts are the model's functions, and the counts and reordered bits are proved bit by bit. -/
theorem logicShiftsAndBitFields : Obligations.LogicShiftsAndBitFields := ⟨logicAndShifts, bitFields⟩

/-! ### Compares, selection, conversion -/

section
variable {s : State} {e : Exe} {w : Main}

theorem gives_cmp (h : Leaf s e) (ha : (e.opA s w).ty = w.ty) (hb : (e.opB s w).ty = w.ty) :
    Gives s e (.cmp w) .p (fun l => cmpInt w.ty (predOf w.mod) (e.lane (e.opA s w) l) (e.lane (e.opB s w) l)) := by
  have hx : exec (.cmp w) s = execCmp w s := rfl
  rw [execCmp, onUnit_runs h.runs] at hx
  have hother (hx : exec (.cmp w) s = .next (e.lanewise s w [.p] [e.opA s w, e.opB s w]
      [fun x => cmpInt w.ty (predOf w.mod) (arg x 0) (arg x 1)])) := (gives_lanewise_next h hx).congr fun _ _ _ => rfl
  have hsmall (p a b : Nat) : cmpInt w.ty p a b % 2 ^ 128 = cmpInt w.ty p a b := by
    unfold cmpInt Word.ofBool
    split <;> rfl
  have hlaneA {v : TVal} {x y : Word} (hty : v.ty = w.ty) (hv : v.val = .a x y) (l : Nat) :
      w.ty.toInt (e.lane v l) = w.ty.toInt (affineAt x y (e.item l)) := by
    obtain ⟨ty, val⟩ := v
    subst hty hv
    exact Ty.toInt_mod _ _
  have hlaneU {v : TVal} {u : Bits} (hv : v.val = .u u) (l : Nat) : e.lane v l = u.toNat := by
    simp only [Exe.lane, hv, Val.lane]
  dsimp only at hx
  split at hx
  next x y u hva hvb =>
    split at hx
    · refine gives_define (v := ⟨.p, .cmp (predOf w.mod) w.ty x y u true⟩) h.laold hx fun l _ _ => ?_
      rw [hsmall, cmpInt, hlaneA ha hva, hlaneU hvb]
      rfl
    · exact hother hx
  next u x y hva hvb =>
    split at hx
    · refine gives_define (v := ⟨.p, .cmp (predOf w.mod) w.ty x y u false⟩) h.laold hx fun l _ _ => ?_
      rw [hsmall, cmpInt, hlaneA hb hvb, hlaneU hva]
      rfl
    · exact hother hx
  next => exact hother hx

/-- A picked U or A operand below 2^W is the same value in class A. -/
theorem Exe.lane_picked (e : Exe) {v : TVal} {ty : Ty} (hty : v.ty = ty) (hw : ty.width ≤ 64) {x y : Word}
    (hv : v.val.affine = some (x, y)) (l : Nat) (hlt : e.lane v l < 2 ^ ty.width) : e.lane ⟨ty, .a x y⟩ l = e.lane v l := by
  subst hty
  rw [e.lane_affine hw, ← e.lane_bits hw hv, BitVec.toNat_ofNat, Nat.mod_eq_of_lt hlt]

theorem gives_sel (h : Leaf s e) (hw : w.ty.width ≤ 64) (ha : (e.opB s w).ty = w.ty) (hb : (e.opC s w).ty = w.ty)
    (hla : ∀ l, e.lane (e.opB s w) l < 2 ^ w.ty.width) (hlb : ∀ l, e.lane (e.opC s w) l < 2 ^ w.ty.width) :
    Gives s e (.sel w) w.ty (fun l => if e.lane (e.opnd s .p w.a) l % 2 = 1 then e.lane (e.opB s w) l else e.lane (e.opC s w) l) := by
  have hx : exec (.sel w) s = execSel w s := rfl
  rw [execSel, onUnit_runs h.runs] at hx
  have hspread (hx : exec (.sel w) s = .next (e.lanewise s w [w.ty] [e.opnd s .p w.a, e.opB s w, e.opC s w]
      [fun x => if arg x 0 % 2 = 1 then arg x 1 else arg x 2])) := (gives_lanewise_next h hx).congr fun _ _ _ => rfl
  dsimp only at hx
  split at hx
  next v hvc =>
    have hcond (l : Nat) : e.lane (e.opnd s .p w.a) l = v.toNat := by simp only [Exe.lane, hvc, Val.lane]
    simp only [hcond]
    set pick := if v.toNat % 2 = 1 then e.opB s w else e.opC s w with hpick
    have hpicked (l : Nat) : (if v.toNat % 2 = 1 then e.lane (e.opB s w) l else e.lane (e.opC s w) l) = e.lane pick l := by
      rw [hpick]
      split <;> rfl
    have hty : pick.ty = w.ty := by
      rw [hpick]
      split <;> assumption
    have hlt (l : Nat) : e.lane pick l < 2 ^ w.ty.width := by
      rw [hpick]
      split
      · exact hla l
      · exact hlb l
    simp only [hpicked]
    have hmod (l : Nat) : e.lane pick l % 2 ^ 128 = e.lane pick l :=
      Nat.mod_eq_of_lt (Nat.lt_of_lt_of_le (hlt l) (pow_width_le hw))
    split at hx
    next x y _ _ hvp =>
      split at hx
      · refine gives_define (v := ⟨w.ty, .a x y⟩) h.laold hx fun l _ _ => ?_
        rw [e.lane_picked hty hw hvp l (hlt l), hmod]
      · refine gives_define (v := ⟨w.ty, pick.val⟩) h.laold hx fun l _ _ => ?_
        rw [hmod, ← hty]
    next =>
      refine (hspread hx).congr fun l _ _ => ?_
      rw [← hpicked, ← hcond l]
      rfl
  next => exact hspread hx

theorem srcOpnd_laold (h : Leaf s e) (ty : Ty) (o : Opnd) : e.srcOpnd s ty o = e.opnd s ty o := by
  unfold Exe.srcOpnd
  rw [h.laold]
  cases o <;> rfl

theorem gives_cvti (h : Leaf s e) (hw : w.ty.width ≤ 64) (ha : (e.opA s w).ty.width ≤ 64) :
    Gives s e (.cvti w) w.ty (fun l => if (e.opA s w).ty.width < w.ty.width then w.ty.wrap ((e.opA s w).ty.toInt (e.lane (e.opA s w) l))
      else wrapOrSat w ((e.opA s w).ty.toInt (e.lane (e.opA s w) l))) := by
  have hx : exec (.cvti w) s = execCvti w s := rfl
  rw [execCvti, onUnit_runs h.runs] at hx
  simp only [srcOpnd_laold h] at hx
  rw [← Exe.opA] at hx
  refine (gives_affineOr h hx fun b st hv l => ?_).congr fun _ _ _ => rfl
  split at hv
  next => cases hv
  next hkeep =>
    obtain ⟨hsat, hwide⟩ := not_or.mp hkeep
    have hlane := e.lane_bits ha hv l
    have hcut := congrArg (BitVec.setWidth w.ty.width) hlane
    rw [BitVec.setWidth_add _ _ (Nat.le_of_not_lt hwide), BitVec.setWidth_mul _ _ (Nat.le_of_not_lt hwide),
      BitVec.setWidth_setWidth_of_le _ (Nat.le_of_not_lt hwide), BitVec.setWidth_setWidth_of_le _ (Nat.le_of_not_lt hwide),
      BitVec.setWidth_ofNat_of_le (Nat.le_of_not_lt hwide), BitVec.setWidth_ofNat_of_le (Nat.le_of_not_lt hwide)] at hcut
    simp only [List.map_cons, List.map_nil, arg, List.getD_cons_zero, if_neg hwide]
    rw [e.lane_affine hw, ← hcut, wrapOrSat_plain (by simpa using hsat), Ty.wrap_eq, Ty.ofInt_toInt _ (Nat.le_of_not_lt hwide)]
    exact (Nat.mod_eq_of_lt (Nat.lt_of_lt_of_le (BitVec.isLt _) (pow_width_le hw))).symm

end

/-- Settles O5: a class A compare or selection holds the values that its lanes have, and a conversion keeps the low bits or saturates. -/
theorem compareSelectConvert : Obligations.CompareSelectConvert := by
  intro s e w h hw
  refine ⟨gives_cmp h, gives_sel h hw, fun ha => (gives_cvti h hw ha).congr fun l _ _ => ?_, ?_⟩
  · by_cases hwide : (e.opA s w).ty.width < w.ty.width
    · simp [hwide, Nat.not_le.mpr hwide]
    · simp [hwide, Nat.le_of_not_lt hwide, wrapOrSat]
  · have hx : exec (.lea w) s = execLea w s := rfl
    rw [execLea, onUnit_runs h.runs] at hx
    simp only [srcOpnd_laold h] at hx
    exact (gives_lanewise_next h hx).congr fun _ _ _ => rfl

end Sys2Proof.Machine
end

section
/-! Identity values (Table 15.2, R75), floating-point results (chapter 16), and values that move between the lanes of a leaf (R345, R346). -/

namespace Sys2Proof.Machine

open Sys2Proof

section
variable {s : State} {e : Exe} {i : Instr} {w : Main}

/-! ### Defined values -/

/-- A defined value completes the instruction, and settles to the same bits in every active lane. -/
theorem completes_define {v : TVal} (h : Leaf s e) (hx : exec i s = .next (e.define s w [v])) :
    ∃ v', Completes s e i s [v'] ∧ v'.ty = v.ty ∧ ∀ l, l < e.l.g → laneIn e.act l = true → e.lane v' l = e.lane v l :=
  ⟨e.settle v, Exe.put_next h.laold hx, e.settle_ty v, fun _ hl ha => e.lane_settle v hl ha⟩

/-- A leaf is one group, so that a form of a leaf does not unfold it. -/
theorem Leaf.leafOnly (h : Leaf s e) (t : State) : e.leafOnly s t = t := by
  simp [Exe.leafOnly, Exe.multi, h.one]

theorem gives2_lanewise_next {ty ty' : Ty} {xs : List TVal} {f k : List Nat → Nat} (h : Leaf s e)
    (hx : exec i s = .next (e.lanewise s w [ty, ty'] xs [f, k])) :
    Gives2 s e i ty ty' (fun l => f (xs.map (fun x => e.lane x l))) (fun l => k (xs.map (fun x => e.lane x l))) := by
  obtain ⟨v, v', hv, rfl, rfl, hl⟩ := Exe.lanewise2_leaf (s := s) h.one w ty ty' xs f k
  rw [hv] at hx
  exact gives2_define h.laold hx hl

theorem gives_ofNat {ty : Ty} {n : Nat} (h : Leaf s e) (hx : exec i s = .next (e.define s w [⟨ty, .ofNat n⟩])) :
    Gives s e i ty (fun _ => n) :=
  gives_define (v := ⟨ty, .ofNat n⟩) h.laold hx fun l _ _ => e.lane_ofNat ty n l

theorem gives_uniform {f : State → Exe → Nat} (h : Leaf s e) (hx : exec i s = uniform w f s) :
    Gives s e i w.ty (fun _ => f s e % 2 ^ w.ty.width) :=
  gives_ofNat h (hx.trans (onUnit_runs h.runs _))

/-! ### Identity -/

/-- The class A value that counts items from `n` on. -/
theorem Exe.lane_count (e : Exe) {ty : Ty} (hw : ty.width ≤ 64) {n l : Nat} (hn : n ≤ e.item l) :
    e.lane ⟨ty, .a (BitVec.ofInt 64 (-(n : Int))) 1⟩ l = (e.item l - n) % 2 ^ ty.width := by
  have hone : (1 : Word).setWidth ty.width = 1 := BitVec.setWidth_ofNat_of_le hw 1
  have hitem : BitVec.ofNat ty.width (e.item l) = BitVec.ofNat ty.width n + BitVec.ofNat ty.width (e.item l - n) := by
    rw [← BitVec.ofNat_add, Nat.add_sub_cancel' hn]
  rw [e.lane_affine hw, BitVec.ofInt_neg, BitVec.ofInt_natCast, BitVec.setWidth_neg_of_le hw, BitVec.setWidth_ofNat_of_le hw, hone,
    hitem, ← BitVec.toNat_ofNat]
  congr 1
  ring

theorem gives_itemidx (h : Leaf s e) (hw : w.ty.width ≤ 64) : Gives s e (.itemidx w) w.ty (fun l => e.item l % 2 ^ w.ty.width) := by
  have hx : exec (.itemidx w) s = execItemidx w s := rfl
  rw [execItemidx, onUnit_runs h.runs] at hx
  refine gives_define (v := ⟨w.ty, .a 0 1⟩) h.laold hx fun l _ _ => ?_
  have hlane := e.lane_count hw (Nat.zero_le (e.item l))
  rw [Nat.sub_zero] at hlane
  exact hlane.trans (Nat.mod_eq_of_lt (Nat.lt_of_lt_of_le (Nat.mod_lt _ (Nat.two_pow_pos _)) (pow_width_le hw))).symm

theorem gives_laneid (h : Leaf s e) (hw : w.ty.width ≤ 64) : Gives s e (.laneid w) w.ty (fun l => l % 2 ^ w.ty.width) := by
  have hx : exec (.laneid w) s = execLaneid w s := rfl
  rw [execLaneid, onUnit_runs h.runs, h.leafOnly] at hx
  refine gives_define (v := ⟨w.ty, .a (BitVec.ofInt 64 (-((e.g.first * e.l.g : Nat) : Int))) 1⟩) h.laold hx fun l _ _ => ?_
  rw [e.lane_count hw (Nat.le_add_right _ _), Exe.item, Nat.add_sub_cancel_left]
  exact (Nat.mod_eq_of_lt (Nat.lt_of_lt_of_le (Nat.mod_lt _ (Nat.two_pow_pos _)) (pow_width_le hw))).symm

theorem identityResults : Claims.IdentityResults := by
  intro s e w h hw
  have hgroupid : exec (.groupid w) s = execGroupid w s := rfl
  rw [execGroupid, onUnit_runs h.runs, h.leafOnly] at hgroupid
  have hactmask : exec (.actmask w) s = execActmask w s := rfl
  rw [execActmask, onUnit_runs h.runs, h.leafOnly] at hactmask
  have hgwidth : exec (.gwidth w) s = execGwidth w s := rfl
  have hnitems : exec (.nitems w) s = execNitems w s := rfl
  have hdimext : exec (.dimext w) s = execDimext w s := rfl
  have hdomid : exec (.domid w) s = execDomid w s := rfl
  have hdomsize : exec (.domsize w) s = execDomsize w s := rfl
  have hcoreid : exec (.coreid w) s = execCoreid w s := rfl
  have hclusterid : exec (.clusterid w) s = execClusterid w s := rfl
  have hdieid : exec (.dieid w) s = execDieid w s := rfl
  have hlaunchid : exec (.launchid w) s = execLaunchid w s := rfl
  exact ⟨gives_itemidx h hw, gives_laneid h hw, gives_ofNat h hgroupid, gives_uniform h hgwidth, gives_uniform h hnitems,
    gives_uniform h hdimext, gives_uniform h hdomid, gives_uniform h hdomsize, gives_uniform h hcoreid, gives_uniform h hclusterid,
    gives_uniform h hdieid, gives_uniform h hlaunchid, gives_ofNat h hactmask⟩

/-! ### Coordinates (R75) -/

theorem Nat.div_eq_of_between {lo i hi d : Nat} (hlo : lo ≤ i) (hhi : i ≤ hi) (h : lo / d = hi / d) : i / d = lo / d :=
  Nat.le_antisymm (h ▸ Nat.div_le_div_right hhi) (Nat.div_le_div_right hlo)

/-- An item of the leaf lies between the first and the last of its span. -/
theorem Leaf.item_between (h : Leaf s e) {l : Nat} (hl : l < e.l.g) (hn : e.item l < e.l.n) :
    e.itemSpan.1 ≤ e.item l ∧ e.item l ≤ e.itemSpan.2 := by
  have hspan : (e.g.first + e.g.count) * e.l.g = e.g.first * e.l.g + e.l.g := by rw [h.one, Nat.add_one_mul]
  simp only [Exe.itemSpan, hspan, Exe.item] at *
  omega

/-- A coordinate whose test of constancy holds is that of the span's first item. -/
theorem coordOf_const {l : Launch} {k lo i hi : Nat} (hk : k = 1 ∨ k = 2) (hlo : lo ≤ i) (hhi : i ≤ hi)
    (h : (if k = 1 then lo / max 1 (l.ext.getD 0 1) == hi / max 1 (l.ext.getD 0 1) || decide (l.ext.getD 1 1 ≤ 1)
      else coordOf l 2 lo == coordOf l 2 hi) = true) : coordOf l k i = coordOf l k lo := by
  rcases hk with rfl | rfl
  · simp only [if_true, Bool.or_eq_true, beq_iff_eq, decide_eq_true_eq] at h
    simp only [coordOf, Nat.one_ne_zero, if_false, if_true]
    rcases h with hrow | hone
    · rw [Nat.div_eq_of_between hlo hhi hrow]
    · rw [Nat.max_eq_left hone, Nat.mod_one, Nat.mod_one]
  · simp only [OfNat.ofNat_ne_one, if_false, beq_iff_eq, coordOf, OfNat.ofNat_ne_zero, Nat.div_div_eq_div_mul] at h ⊢
    exact Nat.div_eq_of_between hlo hhi h

theorem coordResult : Claims.CoordResult := by
  intro s e w h hw hk
  have hx : exec (.coord w) s = execCoord w s := rfl
  rw [execCoord, onUnit_runs h.runs] at hx
  have hmulti : e.multi = false := by simp [Exe.multi, h.one]
  have hsmall (n : Nat) : n % 2 ^ w.ty.width % 2 ^ 128 = n % 2 ^ w.ty.width :=
    Nat.mod_eq_of_lt (Nat.lt_of_lt_of_le (Nat.mod_lt _ (Nat.two_pow_pos _)) (pow_width_le hw))
  simp only [hmulti, Bool.false_eq_true, if_false] at hx
  have hspread (hx : exec (.coord w) s = .next (e.define s w [⟨w.ty, .s ((List.range e.l.g).map (fun l =>
      if laneIn e.act l then BitVec.ofNat 128 (coordOf e.l (immNat w.a) (e.g.first * e.l.g + l) % 2 ^ w.ty.width) else 0))⟩])) :
      ∃ v, Completes s e (.coord w) s [v] ∧ v.ty = w.ty ∧ ∀ l, l < e.l.g → laneIn e.act l = true → e.g.first * e.l.g + l < e.l.n →
        e.lane v l = coordOf e.l (immNat w.a) (e.g.first * e.l.g + l) % 2 ^ w.ty.width := by
    obtain ⟨v, hv, hty, hlane⟩ := completes_define h hx
    refine ⟨v, hv, hty, fun l hl hact _ => ?_⟩
    rw [hlane l hl hact, Exe.lane_spread e _ _ hl, if_pos hact, BitVec.toNat_ofNat, hsmall]
  by_cases hzero : immNat w.a = 0
  · simp only [hzero, if_true, beq_iff_eq] at hx
    split at hx
    next hconst =>
      obtain ⟨v, hv, hty, hlane⟩ := completes_define h hx
      refine ⟨v, hv, hty, fun l hl hact hn => ?_⟩
      obtain ⟨hlo, hhi⟩ := h.item_between hl hn
      have hrow := Nat.div_eq_of_between hlo hhi hconst
      have hle : e.itemSpan.1 / max 1 (e.l.ext.getD 0 1) * max 1 (e.l.ext.getD 0 1) ≤ e.item l :=
        (Nat.div_mul_le_self _ _).trans hlo
      rw [hlane l hl hact, e.lane_count hw hle, ← hrow, hzero, Nat.mul_comm, ← Nat.mod_eq_sub_mul_div]
      rfl
    next =>
      rw [← hzero] at hx
      exact hspread hx
  · simp only [hzero, if_false] at hx
    by_cases hconst : (if immNat w.a = 1 then e.itemSpan.1 / max 1 (e.l.ext.getD 0 1) == e.itemSpan.2 / max 1 (e.l.ext.getD 0 1) ||
        decide (e.l.ext.getD 1 1 ≤ 1) else coordOf e.l 2 e.itemSpan.1 == coordOf e.l 2 e.itemSpan.2) = true
    · rw [if_pos hconst] at hx
      obtain ⟨v, hv, hty, hlane⟩ := completes_define h hx
      refine ⟨v, hv, hty, fun l hl hact hn => ?_⟩
      obtain ⟨hlo, hhi⟩ := h.item_between hl hn
      rw [hlane l hl hact, Exe.lane_ofNat, hsmall]
      exact congrArg (· % 2 ^ w.ty.width) (coordOf_const (by omega) hlo hhi hconst).symm
    · rw [if_neg hconst] at hx
      exact hspread hx

/-- Settles O1: an identity is a class U value or counts items, and a coordinate is constant, counts, or is computed lane by lane. -/
theorem laneIdentities : Obligations.LaneIdentities := ⟨identityResults, coordResult⟩

/-! ### Floating point -/

theorem gives_float1 {f : Num.FVal → Num.FVal} (h : Leaf s e) (hx : exec i s = float1 w f s) :
    Gives s e i w.ty (fun l => halves w.ty (fun xs => Num.roundTy w.ty.elem (arMode w.mod)
      (f (Num.decodeTy w.ty.elem (arMode w.mod).ftz (arg xs 0)))) [e.lane (e.opA s w) l]) := by
  refine (gives_lanewise_next h (hx.trans (onUnit_runs h.runs _))).congr fun l _ _ => ?_
  unfold halves
  split <;> rfl

theorem gives_float2 {f : Num.FVal → Num.FVal → Num.FVal} (h : Leaf s e) (hx : exec i s = float2 w f s) :
    Gives s e i w.ty (fun l => halves w.ty (fun xs => Num.roundTy w.ty.elem (arMode w.mod)
      (f (Num.decodeTy w.ty.elem (arMode w.mod).ftz (arg xs 0)) (Num.decodeTy w.ty.elem (arMode w.mod).ftz (arg xs 1))))
      [e.lane (e.opA s w) l, e.lane (e.opB s w) l]) := by
  refine (gives_lanewise_next h (hx.trans (onUnit_runs h.runs _))).congr fun l _ _ => ?_
  unfold halves
  split <;> rfl

theorem gives_fma (h : Leaf s e) : Gives s e (.fma w) w.ty (fun l => halves w.ty (fun xs => Num.roundTy w.ty.elem (arMode w.mod)
    (Num.fma (w.mod % 4) (Num.decodeTy w.ty.elem (arMode w.mod).ftz (arg xs 0)) (Num.decodeTy w.ty.elem (arMode w.mod).ftz (arg xs 1))
      (Num.decodeTy w.ty.elem (arMode w.mod).ftz (arg xs 2))))
    [e.lane (e.opA s w) l, e.lane (e.opB s w) l, e.lane (e.opC s w) l]) := by
  have hx : exec (.fma w) s = execFma w s := rfl
  rw [execFma] at hx
  refine (gives_lanewise_next h (hx.trans (onUnit_runs h.runs _))).congr fun l _ _ => ?_
  unfold halves
  split <;> rfl

end

/-- Settles O7: every form decodes its operands, computes once and rounds once; a packed pair does so in each half. -/
theorem floatArithmetic : Obligations.FloatArithmetic := by
  intro s e w h
  have hfadd : exec (.fadd w) s = execFadd w s := rfl
  have hfsub : exec (.fsub w) s = execFsub w s := rfl
  have hfmul : exec (.fmul w) s = execFmul w s := rfl
  have hfdiv : exec (.fdiv w) s = execFdiv w s := rfl
  have hsqrt : exec (.sqrt w) s = execSqrt w s := rfl
  have hrcp : exec (.rcp w) s = execRcp w s := rfl
  have hrsqrt : exec (.rsqrt w) s = execRsqrt w s := rfl
  have hexp2 : exec (.exp2 w) s = execExp2 w s := rfl
  have hlog2 : exec (.log2 w) s = execLog2 w s := rfl
  have hsin : exec (.sin w) s = execSin w s := rfl
  have hcos : exec (.cos w) s = execCos w s := rfl
  have hfrnd : exec (.frnd w) s = execFrnd w s := rfl
  have hldexp : exec (.ldexp w) s = execLdexp w s := rfl
  have hfrexp : exec (.frexp w) s = execFrexp w s := rfl
  exact ⟨(gives_float2 h hfadd).congr fun _ _ _ => rfl, (gives_float2 h hfsub).congr fun _ _ _ => rfl,
    (gives_float2 h hfmul).congr fun _ _ _ => rfl, (gives_float2 h hfdiv).congr fun _ _ _ => rfl,
    (gives_fma h).congr fun _ _ _ => rfl, (gives_float1 h hsqrt).congr fun _ _ _ => rfl,
    (gives_float1 h hrcp).congr fun _ _ _ => rfl, (gives_float1 h hrsqrt).congr fun _ _ _ => rfl,
    (gives_float1 h hexp2).congr fun _ _ _ => rfl, (gives_float1 h hlog2).congr fun _ _ _ => rfl,
    (gives_float1 h hsin).congr fun _ _ _ => rfl, (gives_float1 h hcos).congr fun _ _ _ => rfl,
    (gives_float1 h hfrnd).congr fun _ _ _ => rfl, (gives_lanewise h hldexp).congr fun _ _ _ => rfl,
    (gives2_lanewise h hfrexp).congr fun _ _ _ => ⟨rfl, rfl⟩⟩

/-- Settles O8: each form is its one function of the lane's operands, and a conversion reads its source in the source's type. -/
theorem floatOther : Obligations.FloatOther := by
  intro s e w h
  have hfmin : exec (.fmin w) s = execFmin w s := rfl
  have hfmax : exec (.fmax w) s = execFmax w s := rfl
  have hfclamp : exec (.fclamp w) s = execFclamp w s := rfl
  have hfabs : exec (.fabs w) s = execFabs w s := rfl
  have hfneg : exec (.fneg w) s = execFneg w s := rfl
  have hfsgn : exec (.fsgn w) s = execFsgn w s := rfl
  have hfcmp : exec (.fcmp w) s = execFcmp w s := rfl
  have hfclass : exec (.fclass w) s = execFclass w s := rfl
  have hcvt : exec (.cvt w) s = execCvt w s := rfl
  rw [execCvt, onUnit_runs h.runs] at hcvt
  simp only [srcOpnd_laold h] at hcvt
  have hcvtef : exec (.cvtef w) s = execCvtef w s := rfl
  rw [execCvtef, onUnit_runs h.runs] at hcvtef
  simp only [srcOpnd_laold h] at hcvtef
  exact ⟨(gives_lanewise h hfmin).congr fun _ _ _ => rfl, (gives_lanewise h hfmax).congr fun _ _ _ => rfl,
    (gives_ternary h hfclamp).congr fun _ _ _ => rfl, (gives_unary h hfabs).congr fun _ _ _ => rfl,
    (gives_unary h hfneg).congr fun _ _ _ => rfl, (gives_binary h hfsgn).congr fun _ _ _ => rfl,
    (gives_lanewise h hfcmp).congr fun _ _ _ => rfl, (gives_lanewise h hfclass).congr fun _ _ _ => rfl,
    (gives_lanewise_next h hcvt).congr fun _ _ _ => rfl,
    (gives2_lanewise_next h hcvtef).congr fun _ _ _ => ⟨rfl, rfl⟩⟩

/-! ### Values that move between lanes -/

section
variable {s : State} {e : Exe} {i : Instr} {w : Main}

theorem gives_perLane {ty : Ty} {f : Nat → Nat} (h : Leaf s e) (hx : exec i s = .next (e.define s w [⟨ty, e.perLane f⟩])) :
    Gives s e i ty f := by
  refine gives_define (v := ⟨ty, e.perLane f⟩) h.laold hx fun l hl hact => ?_
  rw [Exe.perLane, Exe.lane_spread e _ _ hl, if_pos hact, BitVec.toNat_ofNat]

/-- A shuffle takes each lane's value from its source lane; a class U value is the same in all of them. -/
theorem gives_shuffle {src : Nat → Nat → Int} (h : Leaf s e) (hty : (e.opA s w).ty = w.ty) (hx : exec i s = shuffle w src s) :
    Gives s e i w.ty (fun l => e.take (e.opA s w) l (src l (e.lane (e.opnd s .n32 w.b) l))) := by
  rw [shuffle, onUnit_runs h.runs, h.leafOnly] at hx
  split at hx
  next hcls =>
    refine gives_define (v := ⟨w.ty, (e.opA s w).val⟩) h.laold hx fun l _ _ => ?_
    have hval : (⟨w.ty, (e.opA s w).val⟩ : TVal) = e.opA s w := by rw [← hty]
    rw [hval, Nat.mod_eq_of_lt, Exe.take]
    · split
      · exact e.lane_uniform _ hcls _ _
      · rfl
    · unfold Exe.take
      split <;> exact e.lane_lt _ _
  next => exact gives_perLane h hx

theorem lanesIn_ne_nil {m : Mask} (h : m ≠ 0) : lanesIn m ≠ [] := by
  intro hnil
  refine h (BitVec.eq_of_getLsbD_eq fun i hi => ?_)
  have hnone := List.filter_eq_nil_iff.mp hnil i (List.mem_range.mpr hi)
  simpa [laneIn] using hnone

theorem Exe.leadLane_eq (h : e.act ≠ 0) : e.leadLane = (lanesIn e.act).headD 0 := by
  unfold Exe.leadLane
  cases hl : lanesIn e.act with
  | nil => exact absurd hl (lanesIn_ne_nil h)
  | cons => rfl

/-- The sum of the powers that the active lanes contribute is the numeral with those bits. -/
theorem ballot_eq (m : Mask) (p : Nat → Bool) (n : Nat) :
    (((List.range n).filter (laneIn m)).map (fun l => if p l then 2 ^ l else 0)).sum = bitsBelow (fun i => laneIn m i && p i) n := by
  induction n with
  | zero => rfl
  | succ n ih =>
    rw [List.range_succ, List.filter_append, List.map_append, List.sum_append, ih, bitsBelow]
    cases hn : laneIn m n <;> simp [List.filter, hn]

theorem gives_popc (h : Leaf s e) : Gives s e (.popc w) .n32 (fun l => oneBits (e.lane (e.opA s w) l)
    (match w.b with | .none => w.ty.width | _ => min (e.lane (e.opnd s .n32 w.b) l) w.ty.width)) := by
  have hx : exec (.popc w) s = execPopc w s := rfl
  rw [execPopc, onUnit_runs h.runs] at hx
  refine (gives_lanewise_next h hx).congr fun l _ _ => ?_
  cases w.b with
  | none => simp [arg]
  | _ => rfl

end

/-- Settles O9: the shuffles take from active lanes alone, and the reports are the bits of the active lanes. -/
theorem laneMovement : Obligations.LaneMovement := by
  intro s e w h hty hact
  have hshfl : exec (.shfl w) s = execShfl w s := rfl
  have hshflx : exec (.shflx w) s = execShflx w s := rfl
  have hshfld : exec (.shfld w) s = execShfld w s := rfl
  have hshflu : exec (.shflu w) s = execShflu w s := rfl
  have hbcast : exec (.bcast w) s = execBcast w s := rfl
  rw [execBcast, onUnit_runs h.runs, h.leafOnly] at hbcast
  have helect : exec (.elect w) s = execElect w s := rfl
  rw [execElect, onUnit_runs h.runs, h.leafOnly] at helect
  have hballot : exec (.ballot w) s = execBallot w s := rfl
  rw [execBallot, onUnit_runs h.runs, h.leafOnly] at hballot
  refine ⟨(gives_shuffle h hty hshfl).congr fun _ _ _ => rfl, (gives_shuffle h hty hshflx).congr fun _ _ _ => rfl,
    (gives_shuffle h hty hshfld).congr fun _ _ _ => rfl, (gives_shuffle h hty hshflu).congr fun _ _ _ => rfl,
    (gives_ofNat h hbcast).congr fun l _ _ => ?_, (gives_perLane h helect).congr fun l _ _ => ?_, ?_,
    (gives_popc h).congr fun l _ _ => ?_⟩
  · rw [Exe.leadLane_eq hact]
    congr 1
    split <;> rfl
  · rw [Exe.leadLane_eq hact]
    simp [Word.ofBool]
  · obtain ⟨v, hv, hvty, hlane⟩ := completes_define h hballot
    refine ⟨v, hv, hvty, fun l hl ha => ?_⟩
    have hbits := ballot_eq e.act (fun l => e.lane (e.opnd s .p w.a) l % 2 == 1) 64
    simp only [beq_iff_eq] at hbits
    have hlt := bitsBelow_lt (fun i => laneIn e.act i && e.lane (e.opnd s .p w.a) i % 2 == 1) 64
    rw [hlane l hl ha, Exe.lane_ofNat, lanesIn, hbits, Nat.mod_eq_of_lt (hlt.trans (by decide))]
    exact ⟨hlt, fun i hi => bit_bitsBelow _ hi⟩
  · rw [oneBits_eq] <;> rfl

end Sys2Proof.Machine
end

section
/-! Reductions of the active lanes (R347): the order of R189 as a linear order, and folds that pick a least or greatest term; packed narrow
arithmetic (R348, R349, R394 to R396). -/

namespace Sys2Proof.Num

open Sys2Proof

/-! ### The order of R189 -/

/-- A finite value as a rational number. -/
def FVal.rat : FVal → ℚ
  | .fin s m e => (if s then -(m : ℚ) else m) * 2 ^ e
  | _ => 0

/-- The place of a number in the order of R189: its infinity, its value, and +0 above −0. -/
def FVal.rank (a : FVal) : ℤ ×ₗ ℚ ×ₗ ℤ :=
  toLex (match a with | .inf true => -1 | .inf false => 1 | _ => 0, toLex (a.rat, if a.isZero && !a.sign then 1 else 0))

theorem FVal.scaled_rat (s : Bool) (m : Nat) (e q : Int) (h : q ≤ e) :
    ((FVal.fin s m e).scaled q : ℚ) * 2 ^ q = (FVal.fin s m e).rat := by
  have hpow : ((2 : ℚ) ^ (e - q).toNat) * 2 ^ q = 2 ^ e := by
    rw [← zpow_natCast, ← zpow_add₀ (by norm_num), Int.toNat_of_nonneg (by omega), Int.sub_add_cancel]
  simp only [FVal.scaled, FVal.rat]
  cases s <;> push_cast <;> simp [mul_assoc, hpow]

theorem ltVal_fin (s t : Bool) (m n : Nat) (e g : Int) :
    ltVal (.fin s m e) (.fin t n g) = true ↔ (FVal.fin s m e).rat < (FVal.fin t n g).rat := by
  simp only [ltVal, decide_eq_true_eq]
  generalize hq : (if e ≤ g then e else g) = q
  have hpos : (0 : ℚ) < 2 ^ q := by positivity
  rw [← FVal.scaled_rat s m e q (by split at hq <;> omega), ← FVal.scaled_rat t n g q (by split at hq <;> omega),
    mul_lt_mul_iff_left₀ hpos, Int.cast_lt]

theorem FVal.rat_eq_zero_iff (s : Bool) (m : Nat) (e : Int) : (FVal.fin s m e).rat = 0 ↔ (FVal.fin s m e).isZero = true := by
  have hpow : (2 : ℚ) ^ e ≠ 0 := by positivity
  cases m with
  | zero => cases s <;> simp [FVal.rat, FVal.isZero]
  | succ m =>
    have hm : ((m + 1 : Nat) : ℚ) ≠ 0 := by positivity
    cases s <;> simp only [FVal.rat, FVal.isZero, Bool.false_eq_true, if_false, if_true, iff_false, mul_eq_zero, neg_eq_zero, hm, hpow,
      or_self, not_false_eq_true]

theorem ltOrd_iff_rank {a b : FVal} (ha : a.isNan = false) (hb : b.isNan = false) : ltOrd a b = true ↔ a.rank < b.rank := by
  cases a with
  | nan => cases ha
  | inf s =>
    cases b with
    | nan => cases hb
    | inf t => cases s <;> cases t <;> simp [ltOrd, ltVal, FVal.isZero, FVal.rank, Prod.Lex.toLex_lt_toLex]
    | fin t n g => cases s <;> simp [ltOrd, ltVal, FVal.isZero, FVal.rank, Prod.Lex.toLex_lt_toLex]
  | fin s m e =>
    cases b with
    | nan => cases hb
    | inf t => cases t <;> simp [ltOrd, ltVal, FVal.isZero, FVal.rank, Prod.Lex.toLex_lt_toLex]
    | fin t n g =>
      have hza := FVal.rat_eq_zero_iff s m e
      have hzb := FVal.rat_eq_zero_iff t n g
      simp only [ltOrd, Bool.or_eq_true, ltVal_fin, Bool.and_eq_true, FVal.rank, Prod.Lex.toLex_lt_toLex, lt_self_iff_false, true_and,
        false_or, FVal.sign]
      refine or_congr_right ?_
      constructor
      · rintro ⟨⟨⟨h₁, h₂⟩, rfl⟩, ht⟩
        rw [hza.mpr h₁, hzb.mpr h₂]
        simp_all
      · rintro ⟨heq, hlt⟩
        have hb1 : (FVal.fin t n g).isZero = true ∧ (!t) = true := by
          by_contra hnot
          rw [if_neg hnot] at hlt
          split at hlt <;> omega
        rw [if_pos hb1] at hlt
        obtain ⟨hbz, ht⟩ := hb1
        have haz : (FVal.fin s m e).isZero = true := hza.mp (heq.trans (hzb.mpr hbz))
        have hs : s = true := by
          cases s
          · simp [haz] at hlt
          · rfl
        exact ⟨⟨⟨haz, hbz⟩, hs⟩, ht⟩

/-! ### Folds that ignore NaNs -/

/-- A choice between two encodings: a number before a NaN, and of two numbers the one with the lesser key. -/
structure Picks {L : Type} [LinearOrder L] (isNan : Nat → Bool) (key : Nat → L) (nan : Nat) (g : Nat → Nat → Nat) : Prop where
  nanIsNan : isNan nan = true
  step : ∀ a b, g a b = if isNan a then (if isNan b then nan else b) else if isNan b then a else if key b < key a then b else a

section
variable {L : Type} [LinearOrder L] {isNan : Nat → Bool} {key : Nat → L} {nan : Nat} {g : Nat → Nat → Nat}

theorem Picks.fold_nan (h : Picks isNan key nan g) (ys : List Nat) (hys : ∀ y ∈ ys, isNan y = true) : ys.foldl g nan = nan := by
  induction ys with
  | nil => rfl
  | cons y ys ih =>
    have hstep : g nan y = nan := by rw [h.step, if_pos h.nanIsNan, if_pos (hys y List.mem_cons_self)]
    rw [List.foldl_cons, hstep]
    exact ih fun z hz => hys z (List.mem_cons_of_mem _ hz)

/-- A fold picks a number of least key. -/
theorem Picks.fold_least (h : Picks isNan key nan g) (ys : List Nat) (acc : Nat) (hne : ∃ y ∈ acc :: ys, isNan y = false) :
    ∃ m ∈ acc :: ys, isNan m = false ∧ (∀ y ∈ acc :: ys, isNan y = false → key m ≤ key y) ∧ ys.foldl g acc = m := by
  induction ys generalizing acc with
  | nil =>
    obtain ⟨y, hy, hnum⟩ := hne
    obtain rfl := List.mem_singleton.mp hy
    exact ⟨y, hy, hnum, fun z hz _ => by rw [List.mem_singleton.mp hz], rfl⟩
  | cons b ys ih =>
    rw [List.foldl_cons]
    cases hacc : isNan acc with
    | true =>
      have hnum : ∃ y ∈ b :: ys, isNan y = false := by
        obtain ⟨y, hy, hnum⟩ := hne
        rcases List.mem_cons.mp hy with rfl | hy
        · simp [hacc] at hnum
        · exact ⟨y, hy, hnum⟩
      cases hb : isNan b with
      | true =>
        have hstep : g acc b = nan := by rw [h.step, if_pos hacc, if_pos hb]
        have htail : ∃ y ∈ ys, isNan y = false := by
          obtain ⟨y, hy, hy'⟩ := hnum
          rcases List.mem_cons.mp hy with rfl | hy
          · simp [hb] at hy'
          · exact ⟨y, hy, hy'⟩
        obtain ⟨y₀, hy₀, hnum₀⟩ := htail
        obtain ⟨m, hm, hmnum, hleast, hfold⟩ := ih nan ⟨y₀, List.mem_cons_of_mem _ hy₀, hnum₀⟩
        rw [hstep]
        have hmem : m ∈ ys := by
          rcases List.mem_cons.mp hm with rfl | hm
          · simp [h.nanIsNan] at hmnum
          · exact hm
        refine ⟨m, by simp [hmem], hmnum, fun y hy hynum => hleast y ?_ hynum, hfold⟩
        rcases List.mem_cons.mp hy with rfl | hy
        · simp [hacc] at hynum
        rcases List.mem_cons.mp hy with rfl | hy
        · simp [hb] at hynum
        · exact List.mem_cons_of_mem _ hy
      | false =>
        have hstep : g acc b = b := by rw [h.step, if_pos hacc, if_neg (by simp [hb])]
        obtain ⟨m, hm, hmnum, hleast, hfold⟩ := ih b hnum
        rw [hstep]
        refine ⟨m, List.mem_cons_of_mem _ hm, hmnum, fun y hy hynum => ?_, hfold⟩
        rcases List.mem_cons.mp hy with rfl | hy
        · simp [hacc] at hynum
        · exact hleast y hy hynum
    | false =>
      cases hb : isNan b with
      | true =>
        have hstep : g acc b = acc := by rw [h.step, if_neg (by simp [hacc]), if_pos hb]
        obtain ⟨m, hm, hmnum, hleast, hfold⟩ := ih acc ⟨acc, List.mem_cons_self, hacc⟩
        rw [hstep]
        refine ⟨m, ?_, hmnum, fun y hy hynum => ?_, hfold⟩
        · rcases List.mem_cons.mp hm with rfl | hm <;> simp_all
        · rcases List.mem_cons.mp hy with rfl | hy
          · exact hleast y List.mem_cons_self hynum
          rcases List.mem_cons.mp hy with rfl | hy
          · simp [hb] at hynum
          · exact hleast y (List.mem_cons_of_mem _ hy) hynum
      | false =>
        have hstep : g acc b = if key b < key acc then b else acc := by
          rw [h.step, if_neg (by simp [hacc]), if_neg (by simp [hb])]
        have hpick : (g acc b = b ∨ g acc b = acc) ∧ key (g acc b) ≤ key b ∧ key (g acc b) ≤ key acc := by
          rw [hstep]
          split
          next hlt => exact ⟨.inl rfl, le_rfl, hlt.le⟩
          next hge => exact ⟨.inr rfl, not_lt.mp hge, le_rfl⟩
        obtain ⟨hone, hleb, hleacc⟩ := hpick
        have hnum : isNan (g acc b) = false := by rcases hone with h' | h' <;> rw [h'] <;> assumption
        obtain ⟨m, hm, hmnum, hleast, hfold⟩ := ih (g acc b) ⟨_, List.mem_cons_self, hnum⟩
        have hlem := hleast _ List.mem_cons_self hnum
        refine ⟨m, ?_, hmnum, fun y hy hynum => ?_, hfold⟩
        · rcases List.mem_cons.mp hm with rfl | hm
          · rcases hone with h' | h' <;> rw [h'] <;> simp
          · simp [hm]
        · rcases List.mem_cons.mp hy with rfl | hy
          · exact hlem.trans hleacc
          rcases List.mem_cons.mp hy with rfl | hy
          · exact hlem.trans hleb
          · exact hleast y (List.mem_cons_of_mem _ hy) hynum

end

theorem minMax_picks_least (f : Fmt) (hnan : (f.decode f.nan).isNan = true) :
    Picks (fun q => (f.decode q).isNan) (fun q => (f.decode q).rank) f.nan (minMax f false) := by
  refine ⟨hnan, fun a b => ?_⟩
  cases ha : (f.decode a).isNan <;> cases hb : (f.decode b).isNan <;> simp [minMax, ha, hb]
  simp [← ltOrd_iff_rank hb ha]

theorem minMax_picks_greatest (f : Fmt) (hnan : (f.decode f.nan).isNan = true) :
    Picks (fun q => (f.decode q).isNan) (fun q => OrderDual.toDual (f.decode q).rank) f.nan (minMax f true) := by
  refine ⟨hnan, fun a b => ?_⟩
  cases ha : (f.decode a).isNan <;> cases hb : (f.decode b).isNan <;> simp [minMax, ha, hb]
  simp [← ltOrd_iff_rank ha hb]

theorem ltOrd_false_iff_rank {a b : FVal} (ha : a.isNan = false) (hb : b.isNan = false) : ltOrd a b = false ↔ b.rank ≤ a.rank := by
  rw [← not_lt, ← ltOrd_iff_rank ha hb, Bool.not_eq_true]

/-! ### The source flush (R220) -/

theorem Fmt.flush_flush (f : Fmt) (q : Nat) : f.flush (f.flush q) = f.flush q := by
  by_cases h : f.subnormal q = true
  · have hzero : f.subnormal 0 = false := by simp [Fmt.subnormal]
    have hsign : f.subnormal f.signBit = false := by simp [Fmt.subnormal, Fmt.signBit]
    simp only [Fmt.flush, if_pos h]
    split <;> simp [hzero, hsign]
  · simp only [Fmt.flush, if_neg h]

theorem flushSrc_flushSrc {ty : Ty} {f : Fmt} (hf : fmtOf ty = some f) (ftz : Bool) (q : Nat) :
    flushSrc ty ftz (flushSrc ty ftz q) = flushSrc ty ftz q := by
  unfold flushSrc
  split
  · simp only [hf, Fmt.flush_flush]
  · rfl

/-- The default NaN of a type that `.ftz` flushes is a NaN, and no subnormal. -/
theorem nan_kept {ty : Ty} {f : Fmt} (hty : ty.isF = true) (hf : fmtOf ty = some f) :
    (f.decode f.nan).isNan = true ∧ ∀ ftz, flushSrc ty ftz f.nan = f.nan := by
  have hsub : (f.decode f.nan).isNan = true ∧ f.flush f.nan = f.nan := by
    cases ty <;> first | (obtain rfl := Option.some.inj hf; decide +kernel) | cases hty
  refine ⟨hsub.1, fun ftz => ?_⟩
  unfold flushSrc
  split
  · simp only [hf, hsub.2]
  · rfl

end Sys2Proof.Num

namespace Sys2Proof.Machine

open Sys2Proof

/-! ### Floating-point extremes -/

theorem fold_fminmax {ty : Ty} {f : Num.Fmt} (hty : ty.isF = true) (hf : Num.fmtOf ty = some f) (mod : Nat) (isMax : Bool)
    (xs : List Nat) (acc : Nat) (hacc : Num.flushSrc ty (arMode mod).ftz acc = acc) :
    xs.foldl (fminmax ty mod isMax) acc = (xs.map (Num.flushSrc ty (arMode mod).ftz)).foldl (Num.minMax f isMax) acc := by
  induction xs generalizing acc with
  | nil => rfl
  | cons x xs ih =>
    have hstep : fminmax ty mod isMax acc x = Num.minMax f isMax acc (Num.flushSrc ty (arMode mod).ftz x) := by
      simp only [fminmax, hf, hacc]
    have hkept : ∀ a b, Num.flushSrc ty (arMode mod).ftz a = a → Num.flushSrc ty (arMode mod).ftz b = b →
        Num.flushSrc ty (arMode mod).ftz (Num.minMax f isMax a b) = Num.minMax f isMax a b := by
      intro a b ha hb
      unfold Num.minMax
      dsimp only
      split_ifs
      · exact (Num.nan_kept hty hf).2 _
      all_goals assumption
    rw [List.foldl_cons, List.map_cons, List.foldl_cons, hstep]
    exact ih _ (hkept _ _ hacc (Num.flushSrc_flushSrc hf _ x))

section
variable {s : State} {e : Exe} {i : Instr} {w : Main}

theorem gives_reduce {f : List Nat → Nat} (h : Leaf s e) (hx : exec i s = reduce w f s) :
    Gives s e i w.ty (fun _ => f ((lanesIn e.act).map (e.lane (e.opA s w)))) := by
  rw [reduce, onUnit_runs h.runs, h.leafOnly] at hx
  exact gives_ofNat h hx

theorem redExt_float {ty : Ty} {f : Num.Fmt} (hty : ty.isF = true) (hf : Num.fmtOf ty = some f) (mod : Nat) (isMax : Bool) (xs : List Nat) :
    redExt ty mod isMax xs = (xs.map (Num.flushSrc ty (arMode mod).ftz)).foldl (Num.minMax f isMax) f.nan := by
  simp only [redExt, hf]
  exact fold_fminmax hty hf mod isMax xs f.nan ((Num.nan_kept hty hf).2 _)

/-! ### Integer extremes -/

/-- A fold that keeps one of two terms, none worse than the other, picks a best one. -/
theorem fold_best {g : Nat → Nat → Nat} {le : Nat → Nat → Prop} (htrans : ∀ a b c, le a b → le b c → le a c) (hrefl : ∀ a, le a a)
    (hg : ∀ a b, (g a b = a ∨ g a b = b) ∧ le (g a b) a ∧ le (g a b) b) (xs : List Nat) (x : Nat) :
    xs.foldl g x ∈ x :: xs ∧ ∀ y ∈ x :: xs, le (xs.foldl g x) y := by
  induction xs generalizing x with
  | nil => simp [hrefl]
  | cons z xs ih =>
    obtain ⟨hone, hx, hz⟩ := hg x z
    obtain ⟨hmem, hbest⟩ := ih (g x z)
    have hfirst := hbest _ List.mem_cons_self
    rw [List.foldl_cons]
    refine ⟨?_, fun y hy => ?_⟩
    · rcases List.mem_cons.mp hmem with heq | hmem
      · rw [heq]
        rcases hone with h' | h' <;> rw [h'] <;> simp
      · simp [hmem]
    · rcases List.mem_cons.mp hy with rfl | hy
      · exact htrans _ _ _ hfirst hx
      rcases List.mem_cons.mp hy with rfl | hy
      · exact htrans _ _ _ hfirst hz
      · exact hbest y (List.mem_cons_of_mem _ hy)

theorem fmtOf_int {ty : Ty} (h : ty.isInt = true) : Num.fmtOf ty = none := by
  cases ty <;> first | rfl | cases h

theorem redExt_int_least {ty : Ty} (h : ty.isInt = true) (mod : Nat) {xs : List Nat} (hne : xs ≠ []) :
    redExt ty mod false xs ∈ xs ∧ ∀ x ∈ xs, ty.toInt (redExt ty mod false xs) ≤ ty.toInt x := by
  cases xs with
  | nil => exact absurd rfl hne
  | cons x xs =>
    simp only [redExt, fmtOf_int h, Bool.false_eq_true, if_false, fold1]
    refine fold_best (le := fun a b => ty.toInt a ≤ ty.toInt b) (fun _ _ _ => le_trans) (fun _ => le_rfl) (fun a b => ?_) xs x
    unfold minTy
    split
    next hlt => exact ⟨.inr rfl, hlt.le, le_rfl⟩
    next hge => exact ⟨.inl rfl, le_rfl, not_lt.mp hge⟩

theorem redExt_int_greatest {ty : Ty} (h : ty.isInt = true) (mod : Nat) {xs : List Nat} (hne : xs ≠ []) :
    redExt ty mod true xs ∈ xs ∧ ∀ x ∈ xs, ty.toInt x ≤ ty.toInt (redExt ty mod true xs) := by
  cases xs with
  | nil => exact absurd rfl hne
  | cons x xs =>
    simp only [redExt, fmtOf_int h, if_true, fold1]
    refine fold_best (le := fun a b => ty.toInt b ≤ ty.toInt a) (fun _ _ _ h₁ h₂ => h₂.trans h₁) (fun _ => le_rfl) (fun a b => ?_) xs x
    unfold maxTy
    split
    next hlt => exact ⟨.inr rfl, hlt.le, le_rfl⟩
    next hge => exact ⟨.inl rfl, le_rfl, not_lt.mp hge⟩

/-! ### Bitwise reductions -/

theorem bit_fold_and (xs : List Nat) (x i : Nat) :
    Word.bit (xs.foldl (fun a b => a &&& b) x) i = (x :: xs).all (fun x => Word.bit x i) := by
  induction xs generalizing x with
  | nil => simp
  | cons y xs ih => simp [ih, bit_eq_testBit, Nat.testBit_and, Bool.and_assoc]

theorem bit_fold_or (xs : List Nat) (x i : Nat) :
    Word.bit (xs.foldl (fun a b => a ||| b) x) i = (x :: xs).any (fun x => Word.bit x i) := by
  induction xs generalizing x with
  | nil => simp
  | cons y xs ih => simp [ih, bit_eq_testBit, Nat.testBit_or, Bool.or_assoc]

theorem bit_of_lt {v w i : Nat} (h : v < 2 ^ w) (hi : w ≤ i) : Word.bit v i = false := by
  rw [bit_eq_testBit]
  exact Nat.testBit_lt_two_pow (h.trans_le (Nat.pow_le_pow_right (by decide) hi))

/-- A number whose bits above 128 are 0 lies below 2^128. -/
theorem lt_of_bits {v w : Nat} (h : ∀ i, w ≤ i → Word.bit v i = false) : v < 2 ^ w :=
  Nat.lt_pow_two_of_testBit v fun i hi => by rw [← bit_eq_testBit, h i hi]

/-- A reduction's one value is of class U unless an aborted lane holds 0 (log 12). -/
theorem completes_reduce {f : List Nat → Nat} (h : Leaf s e) (hx : exec i s = reduce w f s) :
    ∃ v, Completes s e i s [v] ∧ v.ty = w.ty ∧ v.val.cls = (if e.act = e.th.mask then 0 else 2) ∧
      ∀ l, l < e.l.g → laneIn e.act l = true → e.lane v l = f ((lanesIn e.act).map (e.lane (e.opA s w))) % 2 ^ 128 := by
  rw [reduce, onUnit_runs h.runs, h.leafOnly] at hx
  refine ⟨_, Exe.put_next h.laold hx, e.settle_ty _, ?_, fun l hl ha => ?_⟩
  · unfold Exe.settle
    split <;> rfl
  · rw [e.lane_settle _ hl ha, Exe.lane_ofNat]
    rfl

theorem reductions : Claims.Reductions := by
  intro s e w h
  have hadd : exec (.redadd w) s = execRedadd w s := rfl
  have hmin : exec (.redmin w) s = execRedmin w s := rfl
  have hmax : exec (.redmax w) s = execRedmax w s := rfl
  have hand : exec (.redand w) s = execRedand w s := rfl
  have hor : exec (.redor w) s = execRedor w s := rfl
  dsimp only
  generalize hxs : (lanesIn e.act).map (e.lane (e.opA s w)) = xs
  have hlt : ∀ x ∈ xs, x < 2 ^ 128 := by
    intro x hx
    rw [← hxs] at hx
    obtain ⟨l, -, rfl⟩ := List.mem_map.mp hx
    exact e.lane_lt _ l
  refine ⟨fun hint => ?_, fun hfloat => ?_, fun hint hne => ⟨?_, ?_⟩, fun f hfloat hf => ⟨fun hall => ⟨?_, ?_⟩, fun hsome => ⟨?_, ?_⟩⟩,
    fun hne => ⟨?_, ?_⟩⟩
  · refine (gives_reduce h hadd).congr fun l _ _ => ?_
    rw [hxs, redSum, if_neg (by simp [hint])]
  · refine (gives_reduce h hadd).congr fun l _ _ => ?_
    rw [hxs, redSum, if_pos hfloat]
    rfl
  · obtain ⟨hmem, hleast⟩ := redExt_int_least hint w.mod hne
    exact ⟨_, hmem, hleast, (gives_reduce h hmin).congr fun l _ _ => by rw [hxs]⟩
  · obtain ⟨hmem, hmost⟩ := redExt_int_greatest hint w.mod hne
    exact ⟨_, hmem, hmost, (gives_reduce h hmax).congr fun l _ _ => by rw [hxs]⟩
  · refine (gives_reduce h hmin).congr fun l _ _ => ?_
    rw [hxs, redExt_float hfloat hf]
    exact congrArg (· % 2 ^ 128) ((Num.minMax_picks_least f (Num.nan_kept hfloat hf).1).fold_nan _ hall)
  · refine (gives_reduce h hmax).congr fun l _ _ => ?_
    rw [hxs, redExt_float hfloat hf]
    exact congrArg (· % 2 ^ 128) ((Num.minMax_picks_greatest f (Num.nan_kept hfloat hf).1).fold_nan _ hall)
  · have hnan := (Num.nan_kept hfloat hf).1
    obtain ⟨y, hy, hnum⟩ := hsome
    obtain ⟨m, hm, hmnum, hleast, hfold⟩ := (Num.minMax_picks_least f hnan).fold_least _ f.nan ⟨y, List.mem_cons_of_mem _ hy, hnum⟩
    refine ⟨m, ?_, hmnum, fun z hz hznum => ?_, (gives_reduce h hmin).congr fun l _ _ => ?_⟩
    · rcases List.mem_cons.mp hm with rfl | hm
      · simp [hnan] at hmnum
      · exact hm
    · exact (Num.ltOrd_false_iff_rank hznum hmnum).mpr (hleast z (List.mem_cons_of_mem _ hz) hznum)
    · rw [hxs, redExt_float hfloat hf]
      exact congrArg (· % 2 ^ 128) hfold
  · have hnan := (Num.nan_kept hfloat hf).1
    obtain ⟨y, hy, hnum⟩ := hsome
    obtain ⟨m, hm, hmnum, hleast, hfold⟩ := (Num.minMax_picks_greatest f hnan).fold_least _ f.nan ⟨y, List.mem_cons_of_mem _ hy, hnum⟩
    refine ⟨m, ?_, hmnum, fun z hz hznum => ?_, (gives_reduce h hmax).congr fun l _ _ => ?_⟩
    · rcases List.mem_cons.mp hm with rfl | hm
      · simp [hnan] at hmnum
      · exact hm
    · exact (Num.ltOrd_false_iff_rank hmnum hznum).mpr (OrderDual.toDual_le_toDual.mp (hleast z (List.mem_cons_of_mem _ hz) hznum))
    · rw [hxs, redExt_float hfloat hf]
      exact congrArg (· % 2 ^ 128) hfold
  · obtain ⟨v, hv, hty, hcls, hlane⟩ := completes_reduce h hand
    refine ⟨v, hv, hty, hcls, fun l hl ha i => ?_⟩
    rw [hlane l hl ha, hxs]
    obtain ⟨x, ys, rfl⟩ := List.exists_cons_of_ne_nil hne
    have hsmall : (x :: ys).foldl (fun a b => a &&& b) x < 2 ^ 128 := lt_of_bits fun j hj => by
      rw [bit_fold_and, List.all_cons, bit_of_lt (hlt x List.mem_cons_self) hj, Bool.false_and]
    rw [fold1, Nat.mod_eq_of_lt (by simpa using hsmall), bit_fold_and]
  · obtain ⟨v, hv, hty, hcls, hlane⟩ := completes_reduce h hor
    refine ⟨v, hv, hty, hcls, fun l hl ha i => ?_⟩
    rw [hlane l hl ha, hxs]
    obtain ⟨x, ys, rfl⟩ := List.exists_cons_of_ne_nil hne
    have hsmall : ys.foldl (fun a b => a ||| b) x < 2 ^ 128 := lt_of_bits fun j hj => by
      rw [bit_fold_or, List.any_eq_false]
      exact fun z hz => by simp [bit_of_lt (hlt z hz) hj]
    rw [fold1, Nat.mod_eq_of_lt hsmall, bit_fold_or]

/-! ### Packed narrow arithmetic -/

theorem packedResults : Claims.PackedResults := by
  intro s e w h
  have hdp4 : exec (.dp4 w) s = execDp4 w s := rfl
  have hdp8 : exec (.dp8 w) s = execDp8 w s := rfl
  have hdp2 : exec (.dp2 w) s = execDp2 w s := rfl
  rw [execDp2, onUnit_runs h.runs] at hdp2
  simp only [srcOpnd_laold h] at hdp2
  have hpack : exec (.pack w) s = execPack w s := rfl
  have hunpack : exec (.unpack w) s = execUnpack w s := rfl
  have hsprs : exec (.sprs w) s = execSprs w s := rfl
  have hrndk : exec (.rndk w) s = execRndk w s := rfl
  exact ⟨(gives_lanewise h hdp4).congr fun _ _ _ => rfl, (gives_lanewise h hdp8).congr fun _ _ _ => rfl,
    (gives_lanewise_next h hdp2).congr fun _ _ _ => rfl, (gives_lanewise h hpack).congr fun _ _ _ => rfl,
    (gives_lanewise h hunpack).congr fun _ _ _ => rfl, (gives_lanewise h hsprs).congr fun _ _ _ => rfl,
    (gives_lanewise h hrndk).congr fun _ _ _ => rfl⟩

/-- Settles O10: a reduction folds the active lanes' terms, picking by the order of R189 or combining bit by bit; the packed forms are one
function of the lane's operands. -/
theorem reductionsAndPackedArithmetic : Obligations.ReductionsAndPackedArithmetic := ⟨reductions, packedResults⟩

end

end Sys2Proof.Machine
end

section
/-! Galleys of many groups: the affine rows of Table 5.1, and the unfolding of R101. -/

namespace Sys2Proof.Machine

open Sys2Proof

/-! ### The executing unit -/

/-- What the executing unit sees is what stands in the state. -/
structure Exe.Stands (s : State) (e : Exe) : Prop where
  galley : s.galley? e.uid.galley = some e.g
  launch : s.launch? e.g.launch = some e.l
  path   : e.g.paths[e.uid.path]? = some e.path
  thread : e.g.thread? e.uid = some e.th
  core   : e.g.core = some e.core
  act    : e.act = activeLanes e.l e.g e.th.mask

theorem Exe.stands {s : State} {e : Exe} (h : exe? s = some e) : e.Stands s := by
  unfold exe? at h
  split at h
  next => cases h
  next u us hcur =>
    split at h
    next => cases h
    next g hg =>
      split at h
      next l p th c hl hp hth hc =>
        obtain rfl := Option.some.inj h
        exact ⟨hg, hl, hp, hth, hc, rfl⟩
      next => cases h

theorem Exe.Stands.mem {s : State} {e : Exe} (h : e.Stands s) : e.g ∈ s.galleys := List.mem_of_find?_eq_some h.galley

/-- Putting back the thread that stands there changes no path's own thread. -/
theorem Galley.setThread_same {g : Galley} {u : UnitId} {th : Thread} (h : g.thread? u = some th) :
    (g.setThread u th).paths.map Path.th = g.paths.map Path.th := by
  unfold Galley.thread? at h
  apply List.ext_getElem?
  intro i
  simp only [Galley.setThread, List.getElem?_map, List.getElem?_mapIdx, Option.map_map]
  cases hp : g.paths[i]? with
  | none => rfl
  | some p =>
    simp only [Option.map_some, Function.comp]
    split
    next hi =>
      rw [← hi, hp] at h
      dsimp only at h
      split at h <;> simp_all
    next => rfl

/-! ### Affine results -/

section
variable {s : State} {e : Exe} {i : Instr} {w : Main}

/-- With no lane aborted the results are kept as they are. -/
theorem completes_all {vs : List TVal} (h : Runs s e) (hact : e.act = e.th.mask) (hx : exec i s = .next (e.define s w vs)) :
    Completes s e i s vs := by
  have hdone := Exe.put_next h.laold hx
  rwa [List.map_congr_left (g := id) fun v _ => e.settle_all v hact, List.map_id] at hdone

/-- An affine rule that applies defines its class A result. -/
theorem completes_affineOr {ty : Ty} {xs : List TVal} {v : Option (Word × Word)} {f : List Nat → Nat} {b st : Word} (h : Runs s e)
    (hact : e.act = e.th.mask) (hx : exec i s = .next (e.affineOr s w ty xs v f)) (hv : v = some (b, st))
    (hone : xs.any (fun x => x.val.cls == 1) = true) : Completes s e i s [⟨ty, .a b st⟩] := by
  subst hv
  simp only [Exe.affineOr, hone, if_true] at hx
  exact completes_all h hact hx

theorem completes_intForm {xs : Exe → List TVal} {f : List Int → Int} {aff : List (Word × Word) → Option (Word × Word)} {b st : Word}
    {ps : List (Word × Word)} (h : Runs s e) (hact : e.act = e.th.mask) (hsat : Word.bit w.mod 3 = false)
    (hx : exec i s = intForm w xs f aff s) (hps : (xs e).mapM (fun x => x.val.affine) = some ps) (haff : aff ps = some (b, st))
    (hone : (xs e).any (fun x => x.val.cls == 1) = true) : Completes s e i s [⟨w.ty, .a b st⟩] := by
  rw [intForm, onUnit_runs h.runs] at hx
  refine completes_affineOr h hact hx ?_ hone
  simp only [hsat, Bool.false_eq_true, if_false, hps, Option.bind_some, haff]

theorem mapM_affine_pair {x y : TVal} {p q : Word × Word} (hx : x.val.affine = some p) (hy : y.val.affine = some q) :
    [x, y].mapM (fun x => x.val.affine) = some [p, q] := by
  simp [hx, hy]

end

theorem affineResults : Claims.AffineResults := by
  intro s e w x y x' y' u h hact hsat
  have hadd : exec (.add w) s = execAdd w s := rfl
  have hsub : exec (.sub w) s = execSub w s := rfl
  have hmul : exec (.mul w) s = execMul w s := rfl
  rw [execMul, onUnit_runs h.runs] at hmul
  simp only [hsat, Bool.false_eq_true, if_false] at hmul
  have hneg : exec (.neg w) s = execNeg w s := rfl
  have hnot : exec (.not w) s = execNot w s := rfl
  rw [execNot, onUnit_runs h.runs] at hnot
  have hcvti : exec (.cvti w) s = execCvti w s := rfl
  rw [execCvti, onUnit_runs h.runs] at hcvti
  have hsrc : e.srcOpnd s w.ty w.a = e.opA s w := by
    unfold Exe.srcOpnd Exe.opA
    rw [h.laold]
    cases w.a <;> rfl
  simp only [hsrc] at hcvti
  have hshl : exec (.shl w) s = execShl w s := rfl
  rw [execShl, onUnit_runs h.runs] at hshl
  refine ⟨fun ha hb => ⟨?_, ?_⟩, fun ha hb => ⟨?_, ?_, ?_⟩, fun ha hb => ⟨?_, ?_, ?_⟩, fun ha => ⟨?_, ?_, ?_, ?_⟩, fun ha hn hu => ?_⟩
  · exact completes_intForm h hact hsat hadd (mapM_affine_pair (by rw [ha]; rfl) (by rw [hb]; rfl)) rfl (by simp [ha, Val.cls])
  · exact completes_intForm h hact hsat hsub (mapM_affine_pair (by rw [ha]; rfl) (by rw [hb]; rfl)) rfl (by simp [ha, Val.cls])
  · exact completes_intForm h hact hsat hadd (mapM_affine_pair (by rw [ha]; rfl) (by rw [hb]; rfl)) (by simp) (by simp [ha, Val.cls])
  · exact completes_intForm h hact hsat hsub (mapM_affine_pair (by rw [ha]; rfl) (by rw [hb]; rfl)) (by simp) (by simp [ha, Val.cls])
  · exact completes_affineOr h hact hmul (by simp [ha, hb]) (by simp [ha, Val.cls])
  · exact completes_intForm h hact hsat hadd (mapM_affine_pair (by rw [ha]; rfl) (by rw [hb]; rfl)) (by simp) (by simp [hb, Val.cls])
  · exact completes_intForm h hact hsat hsub (mapM_affine_pair (by rw [ha]; rfl) (by rw [hb]; rfl)) (by simp) (by simp [hb, Val.cls])
  · exact completes_affineOr h hact hmul (by simp [ha, hb]) (by simp [hb, Val.cls])
  · exact completes_intForm h hact hsat hneg (ps := [(x, y)]) (by simp [ha, Val.affine]) rfl (by simp [ha, Val.cls])
  · exact completes_affineOr h hact hnot (by simp [ha]) (by simp [ha, Val.cls])
  · exact completes_affineOr h hact hcvti (by simp [ha, hsat, Val.affine]) (by simp [ha, Val.cls])
  · have hmov := completes_mov w h hact
    rwa [ha] at hmov
  · refine completes_affineOr h hact hshl ?_ (by simp [ha, Val.cls])
    simp only [ha, hn]
    exact if_neg (by omega)

/-! ### Unfolding (R101) -/

section
variable {s : State} {e : Exe} {w : Main}

/-- A lane-wise instruction that meets an S operand in a galley of several groups unfolds it. -/
theorem Exe.lanewise_unfolds (hmulti : 1 < e.g.count) {tys : List Ty} {xs : List TVal} {fs : List (List Nat → Nat)}
    (hx : ∃ x ∈ xs, x.val.cls = 2) : e.lanewise s w tys xs fs = e.unfold s := by
  have hall : xs.all (fun x => x.val.cls == 0) = false := by
    obtain ⟨x, hx, hcls⟩ := hx
    exact List.all_eq_false.mpr ⟨x, hx, by simp [hcls]⟩
  rw [Exe.lanewise, if_neg (by simp [hall]), if_pos (by simpa [Exe.multi] using hmulti)]

theorem Exe.affineOr_unfolds (hmulti : 1 < e.g.count) {ty : Ty} {x : TVal} {f : List Nat → Nat} (hx : x.val.cls = 2) :
    e.affineOr s w ty [x] (match x.val with | .a b st => some (-b - 1, -st) | _ => none) f = e.unfold s := by
  unfold Exe.affineOr
  split
  next b st hv =>
    split at hv
    next hval => simp [hval, Val.cls] at hx
    next => cases hv
  next => exact Exe.lanewise_unfolds hmulti ⟨x, by simp, hx⟩

theorem unary_unfolds {i : Instr} {f : Nat → Nat} (h : Runs s e) (hmulti : 1 < e.g.count) (hcls : (e.opA s w).val.cls = 2)
    (hx : exec i s = unary w f s) : exec i s = .next (e.unfold s) := by
  rw [hx, unary, onUnit_runs h.runs, Exe.lanewise_unfolds hmulti ⟨e.opA s w, by simp, hcls⟩]

theorem binary_unfolds {i : Instr} {f : Nat → Nat → Nat} (h : Runs s e) (hmulti : 1 < e.g.count) (hcls : (e.opA s w).val.cls = 2)
    (hx : exec i s = binary w f s) : exec i s = .next (e.unfold s) := by
  rw [hx, binary, onUnit_runs h.runs, Exe.lanewise_unfolds hmulti ⟨e.opA s w, by simp, hcls⟩]

theorem ternary_unfolds {i : Instr} {f : Nat → Nat → Nat → Nat} (h : Runs s e) (hmulti : 1 < e.g.count)
    (hcls : (e.opA s w).val.cls = 2) (hx : exec i s = ternary w f s) : exec i s = .next (e.unfold s) := by
  rw [hx, ternary, onUnit_runs h.runs, Exe.lanewise_unfolds hmulti ⟨e.opA s w, by simp, hcls⟩]

theorem shiftForm_unfolds {i : Instr} {f : Nat → Nat → Nat} (h : Runs s e) (hmulti : 1 < e.g.count)
    (hcls : (e.opA s w).val.cls = 2) (hx : exec i s = shiftForm w f s) : exec i s = .next (e.unfold s) := by
  rw [hx, shiftForm, onUnit_runs h.runs, Exe.lanewise_unfolds hmulti ⟨e.opA s w, by simp, hcls⟩]

theorem floatForm_unfolds {i : Instr} {ops : Exe → List TVal} {f : List Num.FVal → Num.FVal} (h : Runs s e) (hmulti : 1 < e.g.count)
    (hcls : (e.opA s w).val.cls = 2) (hops : e.opA s w ∈ ops e) (hx : exec i s = floatForm w ops f s) :
    exec i s = .next (e.unfold s) := by
  rw [hx, floatForm, onUnit_runs h.runs, Exe.lanewise_unfolds hmulti ⟨e.opA s w, hops, hcls⟩]

theorem float1_unfolds {i : Instr} {f : Num.FVal → Num.FVal} (h : Runs s e) (hmulti : 1 < e.g.count) (hcls : (e.opA s w).val.cls = 2)
    (hx : exec i s = float1 w f s) : exec i s = .next (e.unfold s) := by
  rw [float1] at hx
  exact floatForm_unfolds h hmulti hcls (by simp) hx

theorem float2_unfolds {i : Instr} {f : Num.FVal → Num.FVal → Num.FVal} (h : Runs s e) (hmulti : 1 < e.g.count)
    (hcls : (e.opA s w).val.cls = 2) (hx : exec i s = float2 w f s) : exec i s = .next (e.unfold s) := by
  rw [float2] at hx
  exact floatForm_unfolds h hmulti hcls (by simp) hx

theorem exec_unfolds_arithmetic (h : Runs s e) (hmulti : 1 < e.g.count) (hcls : (e.opA s w).val.cls = 2) :
    ∀ i ∈ [Instr.mulhi w, .mad w, .div w, .rem w, .min w, .max w, .clamp w, .adiff w, .and w, .or w, .xor w],
      exec i s = .next (e.unfold s) := by
  have hmulhi : exec (.mulhi w) s = execMulhi w s := rfl
  have hmad : exec (.mad w) s = execMad w s := rfl
  have hdiv : exec (.div w) s = execDiv w s := rfl
  have hrem : exec (.rem w) s = execRem w s := rfl
  have hmin : exec (.min w) s = execMin w s := rfl
  have hmax : exec (.max w) s = execMax w s := rfl
  have hclamp : exec (.clamp w) s = execClamp w s := rfl
  have hadiff : exec (.adiff w) s = execAdiff w s := rfl
  have hand : exec (.and w) s = execAnd w s := rfl
  have hor : exec (.or w) s = execOr w s := rfl
  have hxor : exec (.xor w) s = execXor w s := rfl
  simp only [List.forall_mem_cons, List.not_mem_nil, false_implies, implies_true, and_true]
  exact ⟨binary_unfolds h hmulti hcls hmulhi, ternary_unfolds h hmulti hcls hmad, binary_unfolds h hmulti hcls hdiv,
    binary_unfolds h hmulti hcls hrem, binary_unfolds h hmulti hcls hmin, binary_unfolds h hmulti hcls hmax,
    ternary_unfolds h hmulti hcls hclamp, binary_unfolds h hmulti hcls hadiff, binary_unfolds h hmulti hcls hand,
    binary_unfolds h hmulti hcls hor, binary_unfolds h hmulti hcls hxor⟩

theorem exec_unfolds_bits (h : Runs s e) (hmulti : 1 < e.g.count) (hcls : (e.opA s w).val.cls = 2) :
    ∀ i ∈ [Instr.shr w, .sra w, .rotl w, .bfe w, .clz w, .ctz w, .bcnt w, .brev w, .bswap w],
      exec i s = .next (e.unfold s) := by
  have hshr : exec (.shr w) s = execShr w s := rfl
  have hsra : exec (.sra w) s = execSra w s := rfl
  have hrotl : exec (.rotl w) s = execRotl w s := rfl
  have hbfe : exec (.bfe w) s = execBfe w s := rfl
  rw [execBfe, onUnit_runs h.runs, Exe.lanewise_unfolds hmulti ⟨e.opA s w, by simp, hcls⟩] at hbfe
  have hclz : exec (.clz w) s = execClz w s := rfl
  have hctz : exec (.ctz w) s = execCtz w s := rfl
  have hbcnt : exec (.bcnt w) s = execBcnt w s := rfl
  have hbrev : exec (.brev w) s = execBrev w s := rfl
  have hbswap : exec (.bswap w) s = execBswap w s := rfl
  simp only [List.forall_mem_cons, List.not_mem_nil, false_implies, implies_true, and_true]
  exact ⟨shiftForm_unfolds h hmulti hcls hshr, shiftForm_unfolds h hmulti hcls hsra, shiftForm_unfolds h hmulti hcls hrotl, hbfe,
    unary_unfolds h hmulti hcls hclz, unary_unfolds h hmulti hcls hctz, unary_unfolds h hmulti hcls hbcnt,
    unary_unfolds h hmulti hcls hbrev, unary_unfolds h hmulti hcls hbswap⟩

theorem exec_unfolds_float (h : Runs s e) (hmulti : 1 < e.g.count) (hcls : (e.opA s w).val.cls = 2) :
    ∀ i ∈ [Instr.fadd w, .fsub w, .fmul w, .fdiv w, .fma w, .sqrt w],
      exec i s = .next (e.unfold s) := by
  have hfadd : exec (.fadd w) s = execFadd w s := rfl
  have hfsub : exec (.fsub w) s = execFsub w s := rfl
  have hfmul : exec (.fmul w) s = execFmul w s := rfl
  have hfdiv : exec (.fdiv w) s = execFdiv w s := rfl
  have hfma : exec (.fma w) s = execFma w s := rfl
  have hsqrt : exec (.sqrt w) s = execSqrt w s := rfl
  rw [execFma] at hfma
  simp only [List.forall_mem_cons, List.not_mem_nil, false_implies, implies_true, and_true]
  exact ⟨float2_unfolds h hmulti hcls hfadd, float2_unfolds h hmulti hcls hfsub,
    float2_unfolds h hmulti hcls hfmul, float2_unfolds h hmulti hcls hfdiv,
    floatForm_unfolds h hmulti hcls (by simp) hfma, float1_unfolds h hmulti hcls hsqrt⟩

theorem Exe.unfold_laold (h : e.th.native = none) (howes : e.owes s = false) :
    e.unfold s = Machine.unfold s e.l (e.g.setThread e.uid e.th) e.core := by
  simp [Exe.unfold, howes, Thread.captured, h]

/-- A leaf of a galley stands at the galley's instruction with its values, with the live lanes of its group. -/
theorem leafOf_paths (l : Launch) {g g' : Galley} (j : Nat) (h : g.paths.map Path.th = g'.paths.map Path.th) :
    (leafOf l g j).paths.map (fun p => p.th.instr) = g'.paths.map (fun p => p.th.instr) ∧
      (leafOf l g j).paths.map (fun p => p.th.vals) = g'.paths.map (fun p => p.th.vals) ∧
      ∀ p ∈ (leafOf l g j).paths, p.th.mask = l.liveLanes j := by
  have hinstr := congrArg (List.map Thread.instr) h
  have hvals := congrArg (List.map Thread.vals) h
  simp only [List.map_map] at hinstr hvals
  refine ⟨?_, ?_, ?_⟩
  · simpa [leafOf, Function.comp_def] using hinstr
  · simpa [leafOf, Function.comp_def] using hvals
  · simp [leafOf]

/-- R101: one leaf for each group, the first in the galley's place. -/
theorem unfold_leaves {l : Launch} {g g' : Galley} {core : Nat} (hg : ∃ x ∈ s.galleys, x.id = g.id) (hcount : 1 < g.count)
    (hpaths : g.paths.map Path.th = g'.paths.map Path.th) {j : Nat} (hj : j < g.count) :
    ∃ x ∈ (Machine.unfold s l g core).galleys, x.launch = g.launch ∧ x.first = g.first + j ∧ x.count = 1 ∧
      (x.core = g.core ∧ x.slot = g.slot ∨ x.core = none) ∧
      x.paths.map (fun p => p.th.instr) = g'.paths.map (fun p => p.th.instr) ∧
      x.paths.map (fun p => p.th.vals) = g'.paths.map (fun p => p.th.vals) ∧ ∀ p ∈ x.paths, p.th.mask = l.liveLanes (g.first + j) := by
  have hleaf := leafOf_paths l (g.first + j) hpaths
  obtain ⟨hinstr, hvals, hmask⟩ := hleaf
  rcases Nat.eq_zero_or_pos j with rfl | hpos
  · refine ⟨leafOf l g g.first, ?_, rfl, rfl, rfl, .inl ⟨rfl, rfl⟩, hinstr, hvals, hmask⟩
    obtain ⟨x, hx, hid⟩ := hg
    refine List.mem_append_left _ (List.mem_map.mpr ⟨x, hx, ?_⟩)
    exact if_pos hid
  · obtain ⟨i, rfl⟩ : ∃ i, j = i + 1 := ⟨j - 1, by omega⟩
    refine ⟨{ leafOf l g (g.first + 1 + i) with id := s.nextId + i, core := none, slot := 0, home := core }, ?_, rfl, ?_, rfl, .inr rfl,
      ?_, ?_, ?_⟩
    · exact List.mem_append_right _ (List.mem_map.mpr ⟨i, List.mem_range.mpr (by omega), rfl⟩)
    · change g.first + 1 + i = g.first + (i + 1)
      omega
    all_goals rw [Nat.add_comm i 1, ← Nat.add_assoc] at *; assumption

end

theorem unfoldsToLeaves : Claims.UnfoldsToLeaves := by
  intro s e w h hmulti hcls
  have hstands := Exe.stands h.runs
  have hunfolds (i : Instr) (hi : i ∈ [Instr.mulhi w, .mad w, .div w, .rem w, .min w, .max w, .clamp w, .adiff w, .and w, .or w, .xor w,
      .shr w, .sra w, .rotl w, .bfe w, .clz w, .ctz w, .bcnt w, .brev w, .bswap w, .fadd w, .fsub w, .fmul w, .fdiv w, .fma w,
      .sqrt w]) : exec i s = .next (e.unfold s) := by
    have harith := exec_unfolds_arithmetic h hmulti hcls
    have hbits := exec_unfolds_bits h hmulti hcls
    have hfloat := exec_unfolds_float h hmulti hcls
    exact List.forall_mem_append.mpr ⟨harith, List.forall_mem_append.mpr ⟨hbits, hfloat⟩⟩ i hi
  refine ⟨fun i hi => ⟨fun howes => ?_, fun howes => ?_⟩, fun j hj => ?_, ?_, rfl, rfl⟩
  · rw [hunfolds i hi, Exe.unfold_laold h.laold howes]
  · rw [hunfolds i hi, Exe.unfold, if_pos howes]
  · exact unfold_leaves (g := e.g.setThread e.uid e.th) ⟨e.g, hstands.mem, rfl⟩ hmulti (Galley.setThread_same hstands.thread) hj
  · simp [Machine.unfold, State.setGalley, Galley.setThread]

/-- Settles O11: an affine rule that applies keeps the galley whole, and an S operand unfolds it into one leaf for each group. -/
theorem affineFormsAndUnfolding : Obligations.AffineFormsAndUnfolding := ⟨affineResults, unfoldsToLeaves⟩

end Sys2Proof.Machine
end

section
/-! Synchronisation forms: what completes, what waits and what faults, each as one rule of the executing unit. -/

namespace Sys2Proof.Machine

open Sys2Proof

/-! ### Rules of the forms -/

section
variable {s : State} {e : Exe} {i : Instr} {w : Main}

/-- An instruction that defines no value leaves the next state, but for its thread. -/
theorem completes_done {t : State} (h : e.th.native = none) (hx : exec i s = .next (e.done t w)) : Completes s e i t [] := by
  rw [Completes, hx, Exe.done, Exe.define_laold h]
  rfl

theorem Exe.noTx_none (h : e.tx? = none) (tys : List Ty) (f : Unit → State) : e.noTx s w tys f = f () := by
  simp [Exe.noTx, h]

/-- On a leaf a form that executes once runs its meaning. -/
theorem onceForm_leaf (h : Leaf s e) (os : Exe → List TVal) (f : Exe → State) : onceForm s os f = .next (f e) := by
  simp [onceForm, onUnit_runs h.runs, Exe.multi, h.one]

/-- A register's value reported to a leaf. -/
theorem gives_report {n : Nat} (h : Leaf s e) (hx : exec i s = .next (e.report s w n)) : Gives s e i w.ty (fun _ => n) :=
  gives_ofNat h hx

end

/-! ### The lowest lane -/

/-- The first lane of a mask with a property is the lowest one that has it. -/
theorem lanesIn_find?_eq_some {m : Mask} {p : Nat → Bool} {l : Nat} (hl : laneIn m l = true) (hp : p l = true)
    (hlow : ∀ k, k < l → laneIn m k = true → p k = false) : (lanesIn m).find? p = some l := by
  have hlt : l < 64 := BitVec.lt_of_getLsbD hl
  rw [lanesIn, List.find?_filter, List.find?_range_eq_some]
  refine ⟨by simp [hl, hp], List.mem_range.mpr hlt, fun k hk => ?_⟩
  cases hm : laneIn m k
  · rfl
  · simp [hlow k hk hm]

theorem lanesIn_find?_eq_none {m : Mask} {p : Nat → Bool} (h : ∀ l, laneIn m l = true → p l = false) :
    (lanesIn m).find? p = none := by
  rw [List.find?_eq_none]
  intro l hl
  simp [h l (List.mem_filter.mp hl).2]

/-- A test that does not look at the element is met by the first element or by none. -/
theorem find?_take_one {α : Type} {q : α → Bool} (h : ∀ x y, q x = q y) (xs : List α) : (xs.take 1).find? q = xs.find? q := by
  cases xs with
  | nil => rfl
  | cons x r =>
    cases hx : q x
    · have hr : r.find? q = none := List.find?_eq_none.mpr fun y _ => by rw [h y x, hx]; exact Bool.false_ne_true
      simp [hx, hr]
    · simp [hx]

/-- What the first failing actor of a leaf is: the first failing lane. -/
theorem Leaf.actors_find? {s : State} {e : Exe} (h : Leaf s e) (v : TVal) (q : Nat → Bool) :
    (e.actors [v]).find? (fun i => q (e.at_ v i)) = ((lanesIn e.act).find? (fun l => q (e.lane v l))).map (fun l => (e.g.first, l)) := by
  have hitems : e.items = (lanesIn e.act).map (fun l => (e.g.first, l)) := by simp [Exe.items, Exe.multi, h.one]
  have hall : e.items.find? (fun i => q (e.at_ v i)) = ((lanesIn e.act).find? (fun l => q (e.lane v l))).map (fun l => (e.g.first, l)) := by
    rw [hitems, List.find?_map]
    rfl
  unfold Exe.actors
  split
  next hu =>
    have hcls : v.val.cls = 0 := by simp_all [allU]
    rw [find?_take_one (fun x y => ?_), hall]
    obtain ⟨ty, v⟩ := v
    cases v with
    | u => rfl
    | a | cmp | s => simp [Val.cls] at hcls
  next => exact hall

/-! ### Traps, checks and breakpoints -/

theorem exec_trap {s : State} {e : Exe} (h : exe? s = some e) (w : Main) :
    exec (.trap w) s = .next (takeFault s e.g e.l e.th .trap (faultLane e.uid) (immNat w.a) 0) := onUnit_runs h _

/-- `chk` faults at the first lane whose predicate is false, and is else done. -/
theorem exec_chk {s : State} {e : Exe} (h : Leaf s e) (w : Main) :
    exec (.chk w) s = .next (match (lanesIn e.act).find? (fun l => e.lane (e.opnd s .p w.a) l % 2 == 0) with
      | some l => takeFault s e.g e.l e.th .check l (immNat w.b) 0
      | none => e.done s w) := by
  have hx : exec (.chk w) s = execChk w s := rfl
  rw [hx, execChk, onceForm_leaf h]
  dsimp only
  rw [h.actors_find? _ (fun x => x % 2 == 0)]
  cases (lanesIn e.act).find? (fun l => e.lane (e.opnd s .p w.a) l % 2 == 0) <;> rfl

/-- Settles O31: both forms run on the executing unit, and `chk` names the first lane with a false predicate. -/
theorem trapsAndChecks : Obligations.TrapsAndChecks := by
  unfold Obligations.TrapsAndChecks
  intro s e w h _
  refine ⟨exec_trap h.runs w, fun hodd => completes_done (w := w) h.laold ?_, fun l hl heven hlow => ?_⟩
  · rw [exec_chk h, lanesIn_find?_eq_none fun l hl => by simp [hodd l hl]]
  · rw [exec_chk h, lanesIn_find?_eq_some hl (by simp [heven]) fun k hk ha => by simp [hlow k hk ha]]

theorem Exe.put_ctx (e : Exe) (s : State) (th : Thread) (t k : Nat) : (e.put s th).ctx t k = s.ctx t k := by
  unfold Exe.put
  split <;> rfl

/-- Where a breakpoint leaves its unit: stopped, but going on in an open transaction. -/
theorem Leaf.brk_unit {s : State} {e : Exe} (h : Leaf s e) (w : Main) : (if e.tx?.isSome then e.done s w else e.park s .stopped) =
    e.put s (if e.tx? = none then { e.th with wait := .stopped } else e.th.after []) := by
  cases e.tx? with
  | none => rfl
  | some b =>
    simp only [Option.isSome_some, if_true, reduceCtorEq, if_false, Exe.done, Exe.define_laold h.laold]
    rfl

/-- Settles O32: the three outcomes are the branches of `execBrk`. -/
theorem breakpoints : Obligations.Breakpoints := by
  unfold Obligations.Breakpoints
  intro s e w h
  have hx : exec (.brk w) s = execBrk w s := rfl
  have hbrk := hx.trans (onUnit_runs h.runs _)
  dsimp only at hbrk
  rw [h.brk_unit w] at hbrk
  refine ⟨fun hoff => completes_done h.laold (w := w) ?_, fun hbit hok hrun hnone => ?_, fun hbit hok hrun hsome => ?_⟩
  · rw [hbrk, if_pos]
    rcases hoff with hbit | hok | hrun
    · exact .inr (.inl (by simp [hbit]))
    · exact .inl hok
    · exact .inr (.inr hrun)
  · rw [if_neg (by simp [hbit, hok, hrun]), hnone, Exe.put_ctx] at hbrk
    exact ⟨_, hbrk, rfl, rfl, rfl, rfl, rfl⟩
  · obtain ⟨p, hp⟩ := Option.ne_none_iff_exists'.mp hsome
    rwa [if_neg (by simp [hbit, hok, hrun]), hp] at hbrk

end Sys2Proof.Machine
end

section
/-! Control registers and the synchronisation instructions that report: chapter 19. -/

namespace Sys2Proof.Machine

open Sys2Proof

section
variable {s : State} {e : Exe} {w : Main}

/-! ### Reports -/

/-- R114, R407: the phase test is 0 while the recorded phase has not completed. -/
theorem Exe.phaseDone_bit (e : Exe) : Word.ofBool e.phaseDone =
    if e.g.pending = true ∧ (e.l.domains.getD (e.l.domainOf e.g.first) .empty).phase = e.g.recorded then 0 else 1 := by
  by_cases hp : e.g.pending = true <;>
    by_cases hd : (e.l.domains.getD (e.l.domainOf e.g.first) .empty).phase = e.g.recorded <;>
    simp [Exe.phaseDone, Exe.domPhase, hp, hd, Word.ofBool]

/-- Where the launch has rings, a queue form runs on the leaf. -/
theorem queueForm_runs (h : Leaf s e) (hspad : 8192 ≤ e.l.spad) (f : Exe → Nat → Core → State) :
    queueForm s w f = .next (f e (immNat w.a) (s.core e.core)) := by
  rw [queueForm, onUnit_runs h.runs, h.leafOnly, if_neg (by omega)]

theorem synchronisationReports_plain : Claims.SynchronisationReports := by
  unfold Claims.SynchronisationReports
  intro s e w h htx
  have hunit (f : Exe → State) : onUnit s f = .next (f e) := onUnit_runs h.runs f
  have hhint : exec (.hint w) s = execHint w s := rfl
  have hphase : exec (.barphase w) s = execBarphase w s := rfl
  have hmember : exec (.dmember w) s = execDmember w s := rfl
  have hclk : exec (.rdclk w) s = execRdclk w s := rfl
  refine ⟨fun howes => completes_done (w := w) h.laold ?_, completes_done (w := w) h.laold (hhint.trans (hunit _)),
    gives_report h (hphase.trans (hunit _)), ?_, (gives_report h (hmember.trans (hunit _))).congr fun _ _ _ => ?_,
    fun hspad => ⟨?_, ?_⟩, gives_report h (hclk.trans (hunit _))⟩
  · have hx : exec (.fence w) s = execFence w s := rfl
    rw [hx, execFence, hunit, Exe.noTx_none htx, howes, if_neg Bool.false_ne_true]
  · have hx : exec (.bartest w) s = execBartest w s := rfl
    rw [execBartest, hunit, Exe.phaseDone_bit] at hx
    exact gives_report h hx
  · simp [membership, Word.ofBool, ite_mul]
  · have hx : exec (.qcount w) s = execQcount w s := rfl
    rw [execQcount, queueForm_runs h hspad] at hx
    exact gives_report h hx
  · have hx : exec (.qspace w) s = execQspace w s := rfl
    rw [execQspace, queueForm_runs h hspad] at hx
    exact gives_report h hx

/-! ### Reading a control register (R410) -/

theorem exec_rdctl (h : Leaf s e) : exec (.rdctl w) s = .next (match readControl s e (immNat w.a) (e.num s .n32 w.b) with
    | some v => e.report s w v
    | none => e.faultAll s .ctlAccess) := by
  have hx : exec (.rdctl w) s = execRdctl w s := rfl
  exact hx.trans (onceForm_leaf h _ _)

theorem rdctl_denied (h : Leaf s e) (hr : readControl s e (immNat w.a) (e.num s .n32 w.b) = none) :
    exec (.rdctl w) s = .next (e.faultAll s .ctlAccess) := by
  rw [exec_rdctl h, hr]

/-- A register that a condition on the index opens gives its value where it holds, and is CTL_ACCESS elsewhere. -/
theorem rdctl_reads {k v : Nat} {ok : Prop} [Decidable ok] (h : Leaf s e)
    (hr : readControl s e k (e.num s .n32 w.b) = if ok then some v else none) : immNat w.a = k →
    (ok → Gives s e (.rdctl w) w.ty (fun _ => v)) ∧ (¬ ok → exec (.rdctl w) s = .next (e.faultAll s .ctlAccess)) := by
  rintro rfl
  refine ⟨fun hok => gives_report h ?_, fun hok => rdctl_denied h ?_⟩
  · rw [exec_rdctl h, hr, if_pos hok]
  · rw [hr, if_neg hok]

/-- A translation counter of the tenant's clusters. -/
theorem readControl_counts {k i : Nat} (hlo : 0x050 ≤ k) (hhi : k ≤ 0x058) : readControl s e k i =
    if i < 40 ∧ Word.bit (s.tenant e.l.tenant).clmask i = true then some ((s.cluster i).counts.getD (k - 0x050) 0) else none := by
  unfold readControl
  dsimp only
  repeat rw [if_neg (by omega)]
  rw [if_pos ⟨hlo, hhi⟩]

/-- What Table 19.3 does not list is CTL_ACCESS. -/
theorem readControl_unlisted {k i : Nat} (h : ∀ r ∈ [(0x001, 0x001), (0x010, 0x017), (0x020, 0x028), (0x02A, 0x02F), (0x040, 0x042),
    (0x050, 0x059), (0x060, 0x061), (0x080, 0x081)], ¬ (r.1 ≤ k ∧ k ≤ r.2)) : readControl s e k i = none := by
  simp only [List.forall_mem_cons] at h
  unfold readControl
  dsimp only
  repeat rw [if_neg (by omega)]

end

theorem controlRegisterReads : Claims.ControlRegisterReads := by
  unfold Claims.ControlRegisterReads
  intro s e w h
  refine ⟨rdctl_reads h rfl, rdctl_reads h rfl, rdctl_reads h rfl, rdctl_reads h rfl, rdctl_reads h rfl, rdctl_reads h rfl,
    rdctl_reads h rfl, rdctl_reads h rfl, rdctl_reads h rfl, rdctl_reads h rfl, fun f hf hst => rdctl_reads h ?_,
    fun hst => rdctl_reads h ?_, rdctl_reads h rfl, rdctl_reads h rfl, rdctl_reads h rfl, rdctl_reads h rfl, rdctl_reads h rfl,
    rdctl_reads h rfl, rdctl_reads h rfl, rdctl_reads h rfl, rdctl_reads h rfl, rdctl_reads h rfl, rdctl_reads h rfl,
    rdctl_reads h rfl, rdctl_reads h rfl, rdctl_reads h rfl, rdctl_reads h rfl, rdctl_reads h rfl,
    fun k hlo hhi => rdctl_reads h (readControl_counts hlo hhi), rdctl_reads h rfl, rdctl_reads h rfl, rdctl_reads h rfl, rdctl_reads h rfl,
    rdctl_reads h rfl, fun hno => rdctl_denied h (readControl_unlisted hno)⟩
  · have hr : readControl s e 0x021 (e.num s .n32 w.b) =
      if e.num s .n32 w.b = 0 then some (ctxReg (s.ctx e.l.tenant e.l.ctx) 0x08) else none := rfl
    simp [hr, ctxReg, hf, hst, CtxState.code]
  · have hr : readControl s e 0x021 (e.num s .n32 w.b) =
      if e.num s .n32 w.b = 0 then some (ctxReg (s.ctx e.l.tenant e.l.ctx) 0x08) else none := rfl
    rw [hr, ctxReg, if_neg hst, Nat.add_zero]
    rfl

/-- Settles O27: reports are rules of the executing unit, and `readControl` lists Table 19.3. -/
theorem synchronisationReports : Obligations.SynchronisationReports := ⟨synchronisationReports_plain, controlRegisterReads⟩

end Sys2Proof.Machine
end

section
/-! Writes of control registers, and the timing instructions: R410 to R412. -/

namespace Sys2Proof.Machine

open Sys2Proof

section
variable {s : State} {e : Exe} {w : Main}

/-! ### Writing a control register -/

theorem exec_wrctl (h : Leaf s e) (htx : e.tx? = none) :
    exec (.wrctl w) s = .next (match writeControl s e (immNat w.a) (e.num s .n32 w.b) (e.num s .b64 w.c) with
      | some t => e.done t w
      | none => e.faultAll s .ctlAccess) := by
  have hx : exec (.wrctl w) s = execWrctl w s := rfl
  exact hx.trans ((onceForm_leaf h _ _).trans (congrArg _ (Exe.noTx_none htx _ _)))

theorem wrctl_writes {t : State} (h : Leaf s e) (htx : e.tx? = none)
    (hw : writeControl s e (immNat w.a) (e.num s .n32 w.b) (e.num s .b64 w.c) = some t) : Completes s e (.wrctl w) t [] :=
  completes_done (w := w) h.laold (by rw [exec_wrctl h htx, hw])

theorem wrctl_denied (h : Leaf s e) (htx : e.tx? = none)
    (hw : writeControl s e (immNat w.a) (e.num s .n32 w.b) (e.num s .b64 w.c) = none) :
    exec (.wrctl w) s = .next (e.faultAll s .ctlAccess) := by
  rw [exec_wrctl h htx, hw]

/-- An event selection is listed when its rsvd bits are 0 and each code is at most 12. -/
theorem evselOk_iff {v : Nat} : evselOk v = true ↔ v < 2 ^ 32 ∧ ∀ j, j < 4 → v / 256 ^ j % 256 ≤ 12 := by
  simp only [evselOk, Bool.and_eq_true, decide_eq_true_eq, List.all_eq_true, List.mem_range]

theorem writeControl_evsel (s : State) (e : Exe) (i v : Nat) : writeControl s e 0x080 i v =
    if i = 0 ∧ evselOk v = true then some (s.setCore e.core { s.core e.core with evsel := v }) else none := by
  simp [writeControl]

theorem writeControl_evcnt (s : State) (e : Exe) (i v : Nat) : writeControl s e 0x081 i v =
    if i < 4 then some (s.setCore e.core { s.core e.core with evcnt := (s.core e.core).evcnt.set i v }) else none := by
  simp [writeControl]

theorem writeControl_other {k : Nat} (i v : Nat) (h0 : k ≠ 0x080) (h1 : k ≠ 0x081) : writeControl s e k i v = none := by
  simp [writeControl, h0, h1]

end

theorem controlRegisterWrites : Claims.ControlRegisterWrites := by
  unfold Claims.ControlRegisterWrites
  intro s e w h htx
  refine ⟨fun hk hi hv hc => wrctl_writes h htx ?_, fun hk hi => wrctl_writes h htx ?_, fun hk hbad => wrctl_denied h htx ?_,
    fun hk hi => wrctl_denied h htx ?_, fun h0 h1 => wrctl_denied h htx (writeControl_other _ _ h0 h1)⟩
  · rw [hk, writeControl_evsel, if_pos ⟨hi, evselOk_iff.mpr ⟨hv, hc⟩⟩]
  · rw [hk, writeControl_evcnt, if_pos hi]
  · rw [hk, writeControl_evsel, if_neg]
    rw [evselOk_iff]
    rintro ⟨hi, hv, hc⟩
    rcases hbad with hi' | hv' | ⟨j, hj, hj'⟩
    · exact hi' hi
    · omega
    · have := hc j hj
      omega
  · rw [hk, writeControl_evcnt, if_neg (by omega)]

/-! ### Round bits -/

/-- A queue's round bits once a candidate's is set. -/
def withRound (r : List (Nat × Nat)) (c : Nat × Nat) : List (Nat × Nat) := if r.contains c then r else c :: r

theorem mem_withRound {r : List (Nat × Nat)} {c d : Nat × Nat} : d ∈ withRound r c ↔ d ∈ r ∨ d = c := by
  unfold withRound
  split
  next h =>
    have hc : c ∈ r := by simpa using h
    exact ⟨.inl, fun hd => hd.elim id (· ▸ hc)⟩
  next => rw [List.mem_cons, or_comm]

/-- Setting a round bit changes the bits of its queue alone. -/
theorem setRound_eq (x : Core) (q : Nat) (c : Nat × Nat) (hq : q < x.rounds.length) :
    setRound x q c = { x with rounds := x.rounds.set q (withRound (x.rounds.getD q []) c) } := by
  unfold setRound withRound
  dsimp only
  split
  next =>
    have hset : x.rounds.set q (x.rounds.getD q []) = x.rounds := by simp [List.getD, hq]
    rw [hset]
  next => rfl

/-- R412: a yielding unit sets its bit at the three queues. -/
theorem setRound_all {x : Core} {r0 r1 r2 : List (Nat × Nat)} (c : Nat × Nat) (h : x.rounds = [r0, r1, r2]) :
    [0, 1, 2].foldl (fun x q => setRound x q c) x = { x with rounds := [withRound r0 c, withRound r1 c, withRound r2 c] } := by
  simp [setRound_eq, h]

/-! ### A lone unit -/

/-- Going past an instruction of Laold words defines no value. -/
theorem Thread.past_laold {th : Thread} (h : th.native = none) : th.past = th.after [] := by
  cases th
  cases h
  rfl

section
variable {s : State} {e : Exe}

/-- A lone unit is the one unit of its galley. -/
theorem Lone.units (h : Lone s e) : e.g.units = [(e.uid, e.th)] := by
  have hlive : e.th.mask ≠ 0#64 := h.live
  simp [Galley.units, h.paths, h.th, h.items, hlive, h.uid]

theorem Lone.galley (h : Lone s e) : s.galley? e.g.id = some e.g := by
  have hg := (Exe.stands h.runs).galley
  rwa [h.uid] at hg

end

theorem yieldAndNap : Claims.YieldAndNap := by
  unfold Claims.YieldAndNap
  intro s e w h
  refine ⟨fun r0 r1 r2 hr => ?_, ?_, fun hwait hrun hpre => ?_⟩
  · refine ⟨withRound r0 (e.g.id, 0), withRound r1 (e.g.id, 0), withRound r2 (e.g.id, 0), completes_done (w := w) h.laold ?_,
      fun c => ⟨mem_withRound, mem_withRound, mem_withRound⟩⟩
    have hx : exec (.yield w) s = execYield w s := rfl
    rw [hx, execYield, onUnit_runs h.runs]
    dsimp only
    rw [setRound_all _ hr, h.uid]
  · have hx : exec (.nap w) s = execNap w s := rfl
    exact hx.trans (onceForm_leaf h.toLeaf _ _)
  · have hx : exec (.napExpiry e.g.id) s = execNapExpiry e.g.id s := rfl
    have hput : putThread s e.uid e.th.past = e.put s (e.th.after []) := by rw [Thread.past_laold h.laold]; rfl
    rw [hx, execNapExpiry, h.galley]
    dsimp only
    rw [(Exe.stands h.runs).launch, h.units]
    simp only [List.find?_cons, hwait, beq_self_eq_true, hrun, hput]
    cases hp : (s.ctx e.l.tenant e.l.ctx).preempt with
    | none => rfl
    | some p => simp [hpre p hp]

/-- Settles O30: the branches of `writeControl`, the round bits of `setRound`, and a lone unit's nap. -/
theorem controlWritesAndTiming : Obligations.ControlWritesAndTiming := ⟨controlRegisterWrites, yieldAndNap⟩

end Sys2Proof.Machine
end

section
/-! Register-mapped queues, and the maintenance of code and caches: R118, R276, R408, R409. -/

namespace Sys2Proof.Machine

open Sys2Proof

section
variable {s : State} {e : Exe} {i : Instr} {w : Main}

/-- An instruction that changes the state to `t` and defines `vs`. -/
theorem completes_define_to {t : State} {vs : List TVal} (h : e.th.native = none) (hx : exec i s = .next (e.define t w vs)) :
    Completes s e i t (vs.map e.settle) := by
  rw [Completes, hx, Exe.define_laold h]

theorem laneIn_of_lanesIn {m : Mask} {l : Nat} (h : l ∈ lanesIn m) : laneIn m l = true := (List.mem_filter.mp h).2

/-- No type is wider than a lane holds. -/
theorem ty_pow_width_le (t : Ty) : 2 ^ t.width ≤ 2 ^ 128 := Nat.pow_le_pow_right (by decide) (by cases t <;> decide)

/-! ### Queues -/

theorem pushEntry_eq {l : Launch} {q h t v : Nat} {x : Core} (hq : x.queue q = (h, t)) : pushEntry l q x v =
    { x with spad := x.spad.writeNat (ringEntry l q t) 8 v, queues := x.queues.set q (h, (t + 1) % 2 ^ 16) } := by
  rw [pushEntry, hq]

theorem popEntries_one {l : Launch} {q h t lane : Nat} {x : Core} (hq : x.queue q = (h, t)) : popEntries l q [lane] x =
    ([(lane, x.spad.readNat (ringEntry l q h) 8)], { x with queues := x.queues.set q ((h + 1) % 2 ^ 16, t) }) := by
  rw [popEntries, hq]
  rfl

/-- R408: one lane's push goes to the tail where there is room and the group owes nothing. -/
theorem qpush_one {lane h t : Nat} (hleaf : Leaf s e) (htx : e.tx? = none) (hl : lanesIn e.act = [lane]) (hspad : 8192 ≤ e.l.spad)
    (hq : (s.core e.core).queue (immNat w.a) = (h, t)) :
    (queueCount (h, t) < 64 → e.owes s = false → Completes s e (.qpush w) (s.setCore e.core { s.core e.core with
      spad := (s.core e.core).spad.writeNat (ringEntry e.l (immNat w.a) t) 8 (e.lane (e.opnd s w.ty w.b) lane)
      queues := (s.core e.core).queues.set (immNat w.a) (h, (t + 1) % 2 ^ 16) }) []) ∧
    (64 ≤ queueCount (h, t) → exec (.qpush w) s = .next (e.put s { e.th with wait := .queueSpace (immNat w.a) 1 })) := by
  have hx : exec (.qpush w) s = execQpush w s := rfl
  rw [execQpush, queueForm_runs hleaf hspad, Exe.noTx_none htx, hl, hq] at hx
  dsimp only at hx
  refine ⟨fun hroom howes => completes_done (w := w) hleaf.laold ?_, fun hfull => ?_⟩
  · rw [hx, if_neg (by rw [List.length_singleton]; omega), howes, if_neg Bool.false_ne_true, List.foldl_cons, List.foldl_nil, pushEntry_eq hq]
  · rw [hx, if_pos (by rw [List.length_singleton]; omega)]
    rfl

/-- R408: one lane's pop takes the head where there is one and nothing that the group owes comes before. -/
theorem qpop_one {lane h t : Nat} (hleaf : Leaf s e) (htx : e.tx? = none) (hl : lanesIn e.act = [lane]) (hlane : lane < e.l.g)
    (hspad : 8192 ≤ e.l.spad) (hq : (s.core e.core).queue (immNat w.a) = (h, t)) :
    (0 < queueCount (h, t) → SpadFree s e (ringEntry e.l (immNat w.a) h) 8 → ∃ v, Completes s e (.qpop w) (s.setCore e.core
        { s.core e.core with queues := (s.core e.core).queues.set (immNat w.a) ((h + 1) % 2 ^ 16, t) }) [v] ∧ v.ty = w.ty ∧
      e.lane v lane = (s.core e.core).spad.readNat (ringEntry e.l (immNat w.a) h) 8 % 2 ^ w.ty.width) ∧
    (queueCount (h, t) = 0 → exec (.qpop w) s = .next (e.put s { e.th with wait := .queueData (immNat w.a) 1 })) := by
  have hx : exec (.qpop w) s = execQpop w s := rfl
  rw [execQpop, queueForm_runs hleaf hspad, Exe.noTx_none htx, hl, hq] at hx
  dsimp only at hx
  refine ⟨fun hsome hfree => ?_, fun hnone => ?_⟩
  · rw [if_neg (by rw [List.length_singleton]; omega), hfree.atomics, popEntries_one hq] at hx
    have hin : laneIn e.act lane = true := laneIn_of_lanesIn (hl ▸ List.mem_singleton_self lane)
    refine ⟨_, completes_define_to hleaf.laold (hx.trans (congrArg _ (if_neg (by simp [hfree.stores])))), e.settle_ty _, ?_⟩
    rw [Exe.lane_settle e _ hlane hin, Exe.perLane, Exe.lane_spread e _ _ hlane, if_pos hin, BitVec.toNat_ofNat]
    simp only [List.find?_cons, beq_self_eq_true]
    exact Nat.mod_eq_of_lt (lt_of_lt_of_le (Nat.mod_lt _ (Nat.two_pow_pos _)) (ty_pow_width_le w.ty))
  · rw [hx, if_pos (by simp [hnone])]
    rfl

theorem queuesPushAndPop : Claims.QueuesPushAndPop := by
  unfold Claims.QueuesPushAndPop
  intro s e w lane h htx hl hlane
  refine ⟨fun hspad => ?_, fun hspad => ?_⟩
  · obtain ⟨hpush, hfull⟩ := qpush_one (w := w) h htx hl hspad rfl
    obtain ⟨hpop, hempty⟩ := qpop_one (w := w) h htx hl hlane hspad rfl
    exact ⟨hpush, hfull, hpop, hempty⟩
  · have hx : exec (.qpush w) s = execQpush w s := rfl
    rw [hx, execQpush, queueForm, onUnit_runs h.runs, h.leafOnly, if_pos hspad]

/-! ### Maintenance -/

theorem rangeBad_iff {a n : Nat} : rangeBad a n = true ↔ 0 < n ∧ 2 ^ 57 < a + n := by
  simp only [rangeBad, Bool.and_eq_true, decide_eq_true_eq]
  omega

/-- R409: an empty range has no effect, one that ends at or below 2^57 starts an invalidation, and any other faults. -/
theorem icinv_rules {a n : Nat} (h : Leaf s e) (htx : e.tx? = none) (ha : e.num s .n64 w.a = a) (hn : e.num s .n64 w.b = n) :
    (n = 0 → Completes s e (.icinv w) s []) ∧
    (0 < n → a + n ≤ 2 ^ 57 → Completes s e (.icinv w) { s with
        icinvs := s.icinvs ++ [⟨s.nextId, e.l.tenant, e.l.ctx, a, n, e.l.id, e.g.first, e.g.count⟩], nextId := s.nextId + 1 } []) ∧
    (0 < n → 2 ^ 57 < a + n → exec (.icinv w) s = .next (takeFault s e.g e.l e.th .nonCanonical e.leadLane 0 a)) := by
  have hx : exec (.icinv w) s = execIcinv w s := rfl
  rw [execIcinv, onceForm_leaf h, Exe.noTx_none htx, ha, hn] at hx
  refine ⟨fun hn => completes_done (w := w) h.laold ?_, fun hpos hle => completes_done (w := w) h.laold ?_, fun hpos hgt => ?_⟩
  · rw [hx, if_neg (by rw [rangeBad_iff]; omega), if_pos hn]
  · rw [hx, if_neg (by rw [rangeBad_iff]; omega), if_neg (by omega)]
    rfl
  · rw [hx, if_pos (rangeBad_iff.mpr ⟨hpos, hgt⟩)]
    rfl

theorem l1inv_rules {a n : Nat} (h : Leaf s e) (ha : e.num s .n64 w.a = a) (hn : e.num s .n64 w.b = n) :
    (n = 0 → Completes s e (.l1inv w) (s.setCore e.core { s.core e.core with l1 := [] }) []) ∧
    (0 < n → a + n ≤ 2 ^ 57 → Completes s e (.l1inv w) (l1DropRange s e.core a n) []) ∧
    (0 < n → 2 ^ 57 < a + n → exec (.l1inv w) s = .next (takeFault s e.g e.l e.th .nonCanonical e.leadLane 0 a)) := by
  have hx : exec (.l1inv w) s = execL1inv w s := rfl
  rw [execL1inv, onceForm_leaf h, ha, hn] at hx
  refine ⟨fun hn => completes_done (w := w) h.laold ?_, fun hpos hle => completes_done (w := w) h.laold ?_, fun hpos hgt => ?_⟩
  · rw [hx, if_neg (by rw [rangeBad_iff]; omega), if_pos hn]
  · rw [hx, if_neg (by rw [rangeBad_iff]; omega), if_neg (by omega)]
  · rw [hx, if_pos (rangeBad_iff.mpr ⟨hpos, hgt⟩)]
    rfl

/-- An invalidation that another group of the launch may have started. -/
def IcInv.of (x : IcInv) (e : Exe) : Bool :=
  x.launch == e.l.id && decide (x.first < e.g.first + e.g.count) && decide (e.g.first < x.first + x.count)

theorem exec_fbar (h : Leaf s e) (htx : e.tx? = none) :
    exec (.fbar w) s = .next (if s.icinvs.any (fun x => x.of e) then e.park s .fbar else e.done s w) := by
  have hx : exec (.fbar w) s = execFbar w s := rfl
  exact hx.trans ((onUnit_runs h.runs _).trans (congrArg _ (Exe.noTx_none htx _ _)))

end

theorem codeAndCacheMaintenance : Claims.CodeAndCacheMaintenance := by
  unfold Claims.CodeAndCacheMaintenance
  intro s e w h htx
  obtain ⟨hic0, hicOk, hicBad⟩ := icinv_rules (w := w) h htx rfl rfl
  obtain ⟨hl0, hlOk, hlBad⟩ := l1inv_rules (w := w) h rfl rfl
  refine ⟨fun hn => ⟨hic0 hn, hl0 hn⟩, fun hpos hle => ⟨hicOk hpos hle, hlOk hpos hle⟩, fun hpos hgt => ⟨hicBad hpos hgt, hlBad hpos hgt⟩,
    fun hnone => completes_done (w := w) h.laold ?_, fun x hx hlaunch hlo hhi => ?_, fun x hx => ?_⟩
  · rw [exec_fbar h htx, if_neg]
    rw [Bool.not_eq_true, List.any_eq_false]
    intro x hx
    simp [IcInv.of, hnone x hx]
  · rw [exec_fbar h htx, if_pos]
    · rfl
    · refine List.any_eq_true.mpr ⟨x, hx, ?_⟩
      simp only [IcInv.of, hlaunch, beq_self_eq_true, Bool.true_and, Bool.and_eq_true, decide_eq_true_eq]
      have := h.one
      exact ⟨by omega, hhi⟩
  · have hdone : exec (.icinvDone x.id) s = execIcinvDone x.id s := rfl
    rw [hdone, execIcinvDone, hx]
    simp

/-- Settles O29: the ring of a queue, and the ranges of invalidations. -/
theorem queuesAndMaintenance : Obligations.QueuesAndMaintenance := ⟨queuesPushAndPop, codeAndCacheMaintenance⟩

end Sys2Proof.Machine
end

section
/-! Transfers that a unit takes as a whole, and the retirement of a leaf: R310 to R317. -/

namespace Sys2Proof.Machine

open Sys2Proof

section
variable {s : State} {e : Exe} {w : Main}

/-! ### Ways -/

/-- A target whose block declares its types names this way, and reading it changes nothing. -/
theorem Exe.way_of_blockTys {t : Target} {tys : List Ty} (h : e.blockTys s t.block = (some tys, s)) :
    e.way s t = (some ⟨t.block, e.args s tys t.args, none⟩, s) := by
  rw [Exe.way, h]

/-- The ways of two targets. -/
theorem Exe.ways_pair {t t' : Target} {tys tys' : List Ty} (h : e.blockTys s t.block = (some tys, s))
    (h' : e.blockTys s t'.block = (some tys', s)) : e.ways [t, t'] s =
    (some [⟨t.block, e.args s tys t.args, none⟩, ⟨t'.block, e.args s tys' t'.args, none⟩], s) := by
  simp only [Exe.ways, Exe.way_of_blockTys h, Exe.way_of_blockTys h']

theorem Exe.lane_u {v : TVal} {u : Bits} (h : v.val = .u u) (l : Nat) : e.lane v l = u.toNat := by
  rw [Exe.lane, h]
  rfl

/-! ### Branches and calls -/

theorem exec_br_whole {t : Target} {tys : List Ty} (hrun : exe? s = some e) (h : e.blockTys s t.block = (some tys, s)) :
    exec (.br w t) s = .next (e.follow s ⟨t.block, e.args s tys t.args, none⟩) := by
  have hx : exec (.br w t) s = execBr w t s := rfl
  rw [hx, execBr, onUnit_runs hrun, Exe.way_of_blockTys h]

/-- R311: a uniform condition takes one of the two ways. -/
theorem exec_brc_uniform {rc : Nat} {tt nt : Target} {ttys ntys : List Ty} {u : Bits} (hrun : exe? s = some e) (hact : e.act ≠ 0)
    (hu : (e.opnd s .p w.a).val = .u u) (htt : e.blockTys s tt.block = (some ttys, s)) (hnt : e.blockTys s nt.block = (some ntys, s)) :
    exec (.brc w rc tt nt) s = .next (e.follow s (if u.toNat % 2 = 1 then ⟨tt.block, e.args s ttys tt.args, none⟩
      else ⟨nt.block, e.args s ntys nt.args, none⟩)) := by
  have hx : exec (.brc w rc tt nt) s = execBrc w rc tt nt s := rfl
  rw [hx, execBrc, onUnit_runs hrun]
  dsimp only
  rw [Exe.ways_pair htt hnt]
  simp only [beq_eq_false_iff_ne.mpr hact, Bool.and_false, Bool.false_eq_true, if_false, hu]

/-- R312: a uniform index takes the case that it names, or the default. -/
theorem exec_brsw_uniform {rc : Nat} {d c : Target} {dtys ctys : List Ty} {u : Bits} (hrun : exe? s = some e) (hact : e.act ≠ 0)
    (hu : (e.opnd s .n32 w.a).val = .u u) (hd : e.blockTys s d.block = (some dtys, s)) (hc : e.blockTys s c.block = (some ctys, s)) :
    exec (.brsw w rc d [c]) s = .next (e.follow s (if u.toNat = 0 then ⟨c.block, e.args s ctys c.args, none⟩
      else ⟨d.block, e.args s dtys d.args, none⟩)) := by
  have hx : exec (.brsw w rc d [c]) s = execBrsw w rc d [c] s := rfl
  rw [hx, execBrsw, onUnit_runs hrun]
  dsimp only
  rw [Exe.ways_pair hd hc]
  simp only [beq_eq_false_iff_ne.mpr hact, Bool.and_false, Bool.false_eq_true, if_false, hu, Val.cls, if_true, Exe.lane_u hu,
    List.length_singleton, Nat.lt_one_iff]
  split
  next h0 => simp [h0]
  next => rfl

theorem exec_call_whole {t : Target} {b : Nat} {tys : List Ty} (hrun : exe? s = some e)
    (h : e.callee s (e.lane (e.opnd s .n32 w.a) e.leadLane) = (some (b, tys), s)) :
    exec (.call w t) s = .next (if e.th.stack.length < 32 then e.follow s ⟨b, e.args s tys t.args, some t.block⟩
      else e.faultAll s .callDepth) := by
  have hx : exec (.call w t) s = execCall w t s := rfl
  rw [hx, execCall, onUnit_runs hrun, h]
  dsimp only
  split
  next h32 => rw [if_neg (by omega)]
  next h32 => rw [if_pos (by omega)]

/-- R314 step 1 for the one function that a uniform operand names. -/
theorem exec_calli_uniform {t : Target} {o : CodeObj} {u : Bits} (hrun : exe? s = some e) (hu : (e.opnd s .n32 w.a).val = .u u)
    (ho : s.obj? e.l.tenant e.l.ctx e.l.obj = some o) :
    exec (.calli w t) s = .next (
      if o.nfunc ≤ u.toNat then e.faultAll s .callTarget
      else
        match e.callee s u.toNat with
        | (some (b, tys), s) =>
          if e.matchAll s tys t.args = false then e.faultAll s .callSignature
          else if e.th.stack.length < 32 then e.follow s ⟨b, e.args s tys t.args, some t.block⟩
          else e.faultAll s .callDepth
        | (none, s) => s) := by
  have hx : exec (.calli w t) s = execCalli w t s := rfl
  rw [hx, execCalli, onUnit_runs hrun]
  simp only [hu, Val.cls, beq_self_eq_true, Bool.true_or, Bool.not_true, Bool.false_and, Bool.false_eq_true, if_false, if_true,
    Exe.lane_u hu, Exe.calleeWays, Exe.checkCallee, ho]
  by_cases hf : o.nfunc ≤ u.toNat
  · simp only [hf, if_true]
    rfl
  · simp only [hf, if_false]
    generalize e.callee s u.toNat = r
    obtain ⟨_ | ⟨b, tys⟩, t'⟩ := r
    · rfl
    · by_cases hm : e.matchAll t' tys t.args = true
      · by_cases h32 : e.th.stack.length < 32
        · simp [hm, h32]
        · have h32' : 32 ≤ e.th.stack.length := by omega
          simp [hm, h32, h32']
      · simp only [hm, if_true]
        rfl

theorem exec_ret_into {xs : List X4} {c : Nat} {rest : List Nat} {tys : List Ty} (hrun : exe? s = some e) (hst : e.th.stack = c :: rest)
    (h : e.blockTys s c = (some tys, s)) :
    exec (.ret w xs) s = .next (
      if e.matchAll s tys (retOpnds w xs) = false then e.faultAll s .callSignature
      else if rest.length < e.th.split then e.faultAll s .reconvergeMismatch
      else atEntry (e.put s (e.th.enter c (e.args s tys (retOpnds w xs)) rest)) e.uid) := by
  have hx : exec (.ret w xs) s = execRet w xs s := rfl
  rw [hx, execRet, onUnit_runs hrun, hst]
  dsimp only
  rw [h]
  simp only [Bool.not_eq_true']

/-- A `ret` of the outermost function retires. -/
theorem exec_ret_outermost {xs : List X4} (hrun : exe? s = some e) (hst : e.th.stack = []) : exec (.ret w xs) s = exec (.retire w) s := by
  have hx : exec (.ret w xs) s = execRet w xs s := rfl
  have hy : exec (.retire w) s = execRetire w s := rfl
  rw [hx, hy, execRet, execRetire, onUnit_runs hrun, onUnit_runs hrun, hst]

end

theorem transfersEnterBlocks : Claims.TransfersEnterBlocks := by
  unfold Claims.TransfersEnterBlocks
  intro s e w h hact
  have hnop : exec (.nop w) s = execNop w s := rfl
  refine ⟨completes_done (w := w) h.laold (hnop.trans (onUnit_runs h.runs _)), fun t tys ht => exec_br_whole h.runs ht,
    fun rc tt nt ttys ntys u hu htt hnt => ?_, fun rc d c dtys ctys u hu hd hc => ?_, fun t b tys hc => exec_call_whole h.runs hc,
    fun t o u hu ho => exec_calli_uniform h.runs hu ho, fun xs c rest tys hst hc => exec_ret_into h.runs hst hc,
    fun xs hst => exec_ret_outermost h.runs hst⟩
  · rw [exec_brc_uniform h.runs hact hu htt hnt]
    split <;> rfl
  · rw [exec_brsw_uniform h.runs hact hu hd hc]
    split <;> rfl

/-! ### Retirement -/

section
variable {s : State} {e : Exe}

/-- The launch of the executing unit is found under its own number. -/
theorem Exe.launch_self (h : exe? s = some e) : s.launch? e.l.id = some e.l ∧ e.g.launch = e.l.id := by
  have hl := (Exe.stands h).launch
  have hid := List.find?_some (p := fun l : Launch => l.id == e.g.launch) hl
  have heq : e.l.id = e.g.launch := by simpa using hid
  exact ⟨by rw [heq]; exact hl, heq.symm⟩

/-- Outside transactions every lane of a leaf's thread retires. -/
theorem Exe.ends_closed (hdepth : (State.groupSt e.l e.g.first).tx.depth = 0) : e.ends = e.th.mask := by
  simp [Exe.ends, hdepth]

theorem retireTx_closed {g : Galley} {l : Launch} {lanes left : Mask} (h : (State.groupSt l g.first).tx.depth = 0) :
    retireTx s g l lanes left = s := by
  simp [retireTx, h]

/-- R116: a group that leaves a domain in which no group has arrived. -/
theorem leaveDomain_unarrived {l : Launch} {j : Nat} {split : Option Nat} (hl : s.launch? l.id = some l)
    (harr : (l.domains.getD (l.domainOf j) .empty).arrived = 0) : leaveDomain l.id j split s = s.setLaunch { l with
      retired := l.retired + 1
      domains := l.domains.set (l.domainOf j) { l.domains.getD (l.domainOf j) .empty with
        live := (l.domains.getD (l.domainOf j) .empty).live - 1
        expected := if split = some (l.domains.getD (l.domainOf j) .empty).phase then (l.domains.getD (l.domainOf j) .empty).expected
          else (l.domains.getD (l.domainOf j) .empty).expected - 1 } } := by
  rw [leaveDomain, hl]
  dsimp only
  rw [if_neg (by simp [harr])]
  simp only [beq_iff_eq]

/-- The last lanes of a lone unit retire with its galley. -/
theorem Lone.exec_retire {w : Main} (h : Lone s e) (hdepth : (State.groupSt e.l e.g.first).tx.depth = 0) :
    exec (.retire w) s = .next (leaveDomain e.l.id e.g.first (if e.g.pending then some e.g.recorded else none) (s.dropGalley e.g.id)) := by
  have hx : exec (.retire w) s = execRetire w s := rfl
  have hleft : e.g.paths.foldl (fun m p => m ||| p.th.mask) 0 &&& ~~~e.ends = 0 := by
    rw [h.paths, Exe.ends_closed hdepth, List.foldl_cons, List.foldl_nil, h.th]
    ext i
    simp
  rw [hx, execRetire, onUnit_runs h.runs, Exe.retire, (Exe.stands h.runs).galley]
  dsimp only
  rw [retireTx_closed hdepth, if_pos (.inl hleft), (Exe.launch_self h.runs).1]
  simp [retireGalley, h.one]

theorem retireFreesTheSlot : Claims.RetireFreesTheSlot := by
  unfold Claims.RetireFreesTheSlot
  intro s e w h hdepth d dom harr
  have hl : (s.dropGalley e.g.id).launch? e.l.id = some e.l := (Exe.launch_self h.runs).1
  rw [h.exec_retire hdepth, leaveDomain_unarrived hl harr]
  congr 5
  cases hp : e.g.pending <;> simp [dom, d]

/-- Settles O12: each transfer names the block that its unit enters, and the last lanes of a leaf take its galley with them. -/
theorem transfersAndRetirement : Obligations.TransfersAndRetirement := ⟨transfersEnterBlocks, retireFreesTheSlot⟩

end

end Sys2Proof.Machine
end

section
/-! Divergent branches and reconvergence: R105 to R107, R311. -/

namespace Sys2Proof.Machine

open Sys2Proof

/-! ### Masks of lists of lanes -/

theorem laneIn_maskOf (ls : List Nat) {i : Nat} (hi : i < 64) : laneIn (maskOf ls) i = decide (i ∈ ls) := by
  induction ls with
  | nil => simp [maskOf, laneIn]
  | cons l ls ih =>
    have hbit : (2 ^ l).testBit i = decide (i = l) := by rw [Nat.testBit_two_pow]; simp [eq_comm]
    rw [laneIn] at ih ⊢
    rw [maskOf, BitVec.getLsbD_or, ih, BitVec.getLsbD_ofNat, hbit]
    simp [hi, Bool.or_comm]

theorem laneIn_ge (m : Mask) {i : Nat} (hi : 64 ≤ i) : laneIn m i = false := BitVec.getLsbD_of_ge m i hi

theorem mem_lanesIn {m : Mask} {l : Nat} : l ∈ lanesIn m ↔ laneIn m l = true := by
  rw [lanesIn, List.mem_filter, List.mem_range]
  exact ⟨And.right, fun h => ⟨BitVec.lt_of_getLsbD h, h⟩⟩

/-! ### The ways that lanes take -/

/-- The outcomes of a list of lanes, in the order of their first lanes. -/
def outcomes (pick : Nat → Nat) : List Nat → List Nat
  | [] => []
  | l :: ls => pick l :: (outcomes pick ls).filter (fun k => k != pick l)

/-- The lanes of a list that have an outcome. -/
def outcomeMask (pick : Nat → Nat) (ls : List Nat) (k : Nat) : Mask := maskOf (ls.filter (fun l => pick l == k))

theorem mem_outcomes {pick : Nat → Nat} {ls : List Nat} {k : Nat} : k ∈ outcomes pick ls ↔ ∃ l ∈ ls, pick l = k := by
  induction ls with
  | nil => simp [outcomes]
  | cons l ls ih =>
    by_cases hk : k = pick l
    · simp [outcomes, hk]
    · simp [outcomes, hk, ih, Ne.symm hk]

theorem nodup_outcomes (pick : Nat → Nat) (ls : List Nat) : (outcomes pick ls).Nodup := by
  induction ls with
  | nil => exact List.nodup_nil
  | cons l ls ih => exact List.nodup_cons.mpr ⟨by simp, ih.filter _⟩

theorem outcomeMask_cons_same (pick : Nat → Nat) (l : Nat) (ls : List Nat) :
    outcomeMask pick (l :: ls) (pick l) = outcomeMask pick ls (pick l) ||| maskOf [l] := by
  simp [outcomeMask, maskOf]

theorem outcomeMask_cons_other {pick : Nat → Nat} {l k : Nat} (ls : List Nat) (h : k ≠ pick l) :
    outcomeMask pick (l :: ls) k = outcomeMask pick ls k := by
  simp [outcomeMask, Ne.symm h]

theorem outcomeMask_of_not_mem {pick : Nat → Nat} {ls : List Nat} {k : Nat} (h : k ∉ outcomes pick ls) : outcomeMask pick ls k = 0 := by
  have hnone : ls.filter (fun l => pick l == k) = [] := by
    rw [List.filter_eq_nil_iff]
    intro l hl hk
    exact h (mem_outcomes.mpr ⟨l, hl, by simpa using hk⟩)
  rw [outcomeMask, hnone]
  rfl

/-- R311: the ways of a divergence are the outcomes of its lanes, each with its lanes. -/
theorem groupWays_eq (ways : List Way) (pick : Nat → Nat) (ls : List Nat) :
    groupWays ways pick ls = (outcomes pick ls).map (fun k => (k, outcomeMask pick ls k)) := by
  induction ls with
  | nil => rfl
  | cons l ls ih =>
    have htail : ((outcomes pick ls).filter (fun k => k != pick l)).map (fun k => (k, outcomeMask pick (l :: ls) k)) =
        ((outcomes pick ls).map (fun k => (k, outcomeMask pick ls k))).filter (fun x => x.1 != pick l) := by
      rw [List.filter_map]
      refine List.map_congr_left fun k hk => ?_
      rw [outcomeMask_cons_other ls (by simpa using (List.mem_filter.mp hk).2)]
    simp only [groupWays, ih, outcomes, List.map_cons, htail, outcomeMask_cons_same]
    by_cases hk : pick l ∈ outcomes pick ls
    · have hfind : ((outcomes pick ls).map (fun k => (k, outcomeMask pick ls k))).find? (fun x => x.1 == pick l) =
          some (pick l, outcomeMask pick ls (pick l)) := by
        rw [List.find?_map, (List.find?_eq_some_iff_getElem (xs := outcomes pick ls) (b := pick l)).mpr]
        · rfl
        · obtain ⟨i, hi, hget⟩ := List.mem_iff_getElem.mp hk
          refine ⟨by simp, i, hi, hget, fun j hj => ?_⟩
          have hne : (outcomes pick ls)[j] ≠ (outcomes pick ls)[i] := fun heq => by
            have := (List.Nodup.getElem_inj_iff (nodup_outcomes pick ls)).mp heq
            omega
          simpa [hget] using hne
      rw [hfind]
    · have hfind : ((outcomes pick ls).map (fun k => (k, outcomeMask pick ls k))).find? (fun x => x.1 == pick l) = none := by
        rw [List.find?_eq_none]
        intro x hx heq
        obtain ⟨k, hk', rfl⟩ := List.mem_map.mp hx
        exact hk (by simpa [show k = pick l by simpa using heq] using hk')
      have hkeep : ((outcomes pick ls).map (fun k => (k, outcomeMask pick ls k))).filter (fun x => x.1 != pick l) =
          (outcomes pick ls).map (fun k => (k, outcomeMask pick ls k)) := by
        rw [List.filter_eq_self]
        intro x hx
        obtain ⟨k, hk', rfl⟩ := List.mem_map.mp hx
        have hne : k ≠ pick l := fun heq => hk (heq ▸ hk')
        simpa using hne
      rw [hfind, hkeep, outcomeMask_of_not_mem hk]
      simp

/-- Lanes with two outcomes go two ways, that of the first lane first. -/
theorem outcomes_two {pick : Nat → Nat} {l : Nat} {ls : List Nat} {k : Nat} (hk : k ≠ pick l) (hmem : ∃ x ∈ l :: ls, pick x = k)
    (hall : ∀ x ∈ l :: ls, pick x = pick l ∨ pick x = k) : outcomes pick (l :: ls) = [pick l, k] := by
  rw [outcomes]
  congr 1
  have hin : k ∈ (outcomes pick ls).filter (fun x => x != pick l) := by
    obtain ⟨x, hx, hxk⟩ := hmem
    rcases List.mem_cons.mp hx with rfl | hx
    · exact absurd hxk.symm hk
    · exact List.mem_filter.mpr ⟨mem_outcomes.mpr ⟨x, hx, hxk⟩, by simpa using hk⟩
  have honly : ∀ x ∈ (outcomes pick ls).filter (fun x => x != pick l), x = k := by
    intro x hx
    obtain ⟨hx, hne⟩ := List.mem_filter.mp hx
    obtain ⟨y, hy, rfl⟩ := mem_outcomes.mp hx
    exact (hall y (List.mem_cons_of_mem _ hy)).resolve_left (by simpa using hne)
  have hnodup := (nodup_outcomes pick ls).filter (fun x => x != pick l)
  generalize (outcomes pick ls).filter (fun x => x != pick l) = xs at hin honly hnodup
  match xs, hin, honly, hnodup with
  | [x], _, honly, _ => rw [honly x (List.mem_singleton_self x)]
  | x :: y :: r, _, honly, hnodup =>
    have hx := honly x (List.mem_cons_self ..)
    have hy := honly y (List.mem_cons_of_mem _ (List.mem_cons_self ..))
    exact absurd (hx.trans hy.symm) (fun h => (List.nodup_cons.mp hnodup).1 (h ▸ List.mem_cons_self ..))

theorem laneIn_outcomeMask (pick : Nat → Nat) (m : Mask) (k l : Nat) :
    laneIn (outcomeMask pick (lanesIn m) k) l = (laneIn m l && pick l == k) := by
  by_cases hl : l < 64
  · rw [outcomeMask, laneIn_maskOf _ hl]
    rw [Bool.eq_iff_iff]
    simp [mem_lanesIn]
  · rw [laneIn_ge _ (by omega), laneIn_ge m (by omega)]
    rfl

/-! ### Divergence -/

section
variable {s : State} {e : Exe}

/-- R105: a lone path whose lanes take both of two ways splits, and the path of the lowest lane comes first. -/
theorem Lone.diverge (h : Lone s e) (rc : Nat) (a b : Way) {pick : Nat → Nat} {l0 k : Nat} {ls : List Nat}
    (hlanes : lanesIn e.act = l0 :: ls) (hk : k ≠ pick l0) (hmem : ∃ x ∈ l0 :: ls, pick x = k)
    (hall : ∀ x ∈ l0 :: ls, pick x = pick l0 ∨ pick x = k) :
    let way (k : Nat) : Way := [b, a].getD k ⟨0, [], none⟩
    let sub (k : Nat) : Path := ⟨{ (e.th.enter (way k).block (way k).args ((way k).stack e.th.stack)) with
      mask := outcomeMask pick (lanesIn e.act) k, split := e.th.stack.length }, some rc, [], none, []⟩
    e.diverge s rc [b, a] pick =
      pathAtEntry (pathAtEntry (s.setGalley { e.g with paths := [sub (pick l0), sub k] }) e.g.id 0) e.g.id 1 := by
  have hidle : e.th.mask &&& ~~~e.act = 0 := by rw [h.lanes]; ext i; simp
  have hlive : e.path.live = true := by simpa [Path.live, h.th] using h.live
  have hone : decide ((e.g.paths.filter Path.live).length = 1) = true := by simp [h.paths, hlive]
  intro way sub
  rw [Exe.diverge, groupWays_eq, hlanes, outcomes_two hk hmem hall, hidle]
  simp only [List.map_cons, List.map_nil, h.uid, h.galley, hone, if_true]
  simp only [sub, hlanes]
  rw [show outcomeMask pick (l0 :: ls) (pick l0) ||| 0 = outcomeMask pick (l0 :: ls) (pick l0) from BitVec.or_zero]

/-- R311: a class S condition of a lone leaf sends its lanes apart. -/
theorem exec_brc_spread {w : Main} {rc : Nat} {tt nt : Target} {ttys ntys : List Ty} (h : Lone s e)
    (hcls : (e.opnd s .p w.a).val.cls = 2) (hcmp : ∀ p t b st u f, (e.opnd s .p w.a).val ≠ .cmp p t b st u f)
    (htt : e.blockTys s tt.block = (some ttys, s)) (hnt : e.blockTys s nt.block = (some ntys, s)) :
    exec (.brc w rc tt nt) s = .next (e.diverge s rc [⟨nt.block, e.args s ntys nt.args, none⟩, ⟨tt.block, e.args s ttys tt.args, none⟩]
      (fun l => e.lane (e.opnd s .p w.a) l % 2)) := by
  have hx : exec (.brc w rc tt nt) s = execBrc w rc tt nt s := rfl
  have hact : (e.act == 0) = false := by rw [h.lanes]; exact beq_eq_false_iff_ne.mpr h.live
  have hmulti : e.multi = false := by simp [Exe.multi, h.one]
  rw [hx, execBrc, onUnit_runs h.runs]
  dsimp only
  rw [Exe.ways_pair htt hnt]
  simp only [hact, hmulti, Bool.and_false, Bool.false_eq_true, if_false]
  cases hv : (e.opnd s .p w.a).val with
  | s ls => rfl
  | u v => simp [hv, Val.cls] at hcls
  | a b st => simp [hv, Val.cls] at hcls
  | cmp p t b st u f => exact absurd hv (hcmp p t b st u f)

end

theorem branchDiverges : Claims.BranchDiverges := by
  unfold Claims.BranchDiverges
  intro s e w rc tt nt ttys ntys h hcls hcmp htt hnt c htrue hfalse
  have hx := exec_brc_spread h hcls hcmp htt hnt (rc := rc)
  generalize hp : (fun l => e.lane (e.opnd s .p w.a) l % 2) = pick at hx
  have hc (l : Nat) : c l = (pick l == 1) := by rw [← hp]
  have hbit (l : Nat) : pick l < 2 := by rw [← hp]; exact Nat.mod_lt _ (by decide)
  have hnot (l : Nat) : (!c l) = (pick l == 0) := by
    have := hbit l
    rw [hc]
    interval_cases pick l <;> rfl
  refine ⟨outcomeMask pick (lanesIn e.act) 1, outcomeMask pick (lanesIn e.act) 0, fun l => ?_, fun l => ?_, ?_⟩
  · rw [laneIn_outcomeMask, hc]
  · rw [laneIn_outcomeMask, hnot]
  obtain ⟨lt, hlt, hct⟩ := htrue
  obtain ⟨lf, hlf, hcf⟩ := hfalse
  have hact : e.act ≠ 0 := h.lanes ▸ h.live
  obtain ⟨l0, ls, hlanes⟩ := List.exists_cons_of_ne_nil (lanesIn_ne_nil hact)
  have hlead : e.leadLane = l0 := by rw [Exe.leadLane_eq hact, hlanes]; rfl
  have hinT : ∃ x ∈ l0 :: ls, pick x = 1 := ⟨lt, hlanes ▸ mem_lanesIn.mpr hlt, by simpa [hc] using hct⟩
  have hinF : ∃ x ∈ l0 :: ls, pick x = 0 := ⟨lf, hlanes ▸ mem_lanesIn.mpr hlf, by
    have := hbit lf
    have := hc lf
    simp_all⟩
  rw [hx]
  congr 1
  have hcase : pick l0 = 0 ∨ pick l0 = 1 := by have := hbit l0; omega
  rcases hcase with h0 | h1
  · have hd := h.diverge rc ⟨tt.block, e.args s ttys tt.args, none⟩ ⟨nt.block, e.args s ntys nt.args, none⟩ (pick := pick) (k := 1) hlanes
      (by omega) hinT (fun x _ => by have := hbit x; omega)
    have hlow : c e.leadLane = false := by rw [hc, hlead, h0]; rfl
    rw [hd, h0, hlow]
    rfl
  · have hd := h.diverge rc ⟨tt.block, e.args s ttys tt.args, none⟩ ⟨nt.block, e.args s ntys nt.args, none⟩ (pick := pick) (k := 0) hlanes
      (by omega) hinF (fun x _ => by have := hbit x; omega)
    have hlow : c e.leadLane = true := by rw [hc, hlead, h1]; rfl
    rw [hd, h1, hlow]
    rfl

end Sys2Proof.Machine
end

section
/-! Waiting and merging at a reconvergence block: R106 and R107. -/

namespace Sys2Proof.Machine

open Sys2Proof

/-! ### Galleys put back -/

section
variable {s : State} {g h : Galley}

/-- A galley that is put back is found under its number. -/
theorem galley?_setGalley (hg : s.galley? g.id = some g) (hid : h.id = g.id) : (s.setGalley h).galley? g.id = some h := by
  unfold State.galley? State.setGalley at *
  have hid' := hid.symm
  generalize s.galleys = gs at hg
  induction gs with
  | nil => cases hg
  | cons x r ih =>
    rw [List.map_cons]
    by_cases hx : x.id = g.id
    · simp [hx, hid]
    · have hne : ¬ x.id = h.id := hid ▸ hx
      simp only [List.find?_cons, beq_eq_false_iff_ne.mpr hx, if_neg hne] at hg ⊢
      exact ih hg

/-- Setting a path's own thread changes that path alone. -/
theorem Galley.setThread_path {i : Nat} {th : Thread} (j : Nat) :
    (g.setThread ⟨g.id, i, none⟩ th).paths[j]? = (g.paths[j]?).map (fun p => if j = i then { p with th := th } else p) := by
  simp [Galley.setThread, List.getElem?_mapIdx]

/-- The units of a galley outside per-item mode are its live paths. -/
theorem Galley.units_thread (hitems : ∀ p ∈ g.paths, p.items = []) {u : UnitId × Thread} (hu : u ∈ g.units) : ∃ p ∈ g.paths, p.th = u.2 := by
  rw [Galley.units, List.mem_flatten] at hu
  obtain ⟨us, hus, hu⟩ := hu
  obtain ⟨i, hi, rfl⟩ := List.mem_mapIdx.mp hus
  have hmem := List.getElem_mem hi
  refine ⟨g.paths[i], hmem, ?_⟩
  split at hu
  next => cases hu
  next =>
    rw [hitems _ hmem, List.isEmpty_nil, if_pos rfl, List.mem_singleton] at hu
    rw [hu]

/-- While a live path still runs, the paths of a group do not merge. -/
theorem checkMerge_running {id : Nat} {q : Path} (hg : s.galley? id = some g) (hq : q ∈ g.paths) (hlive : q.th.mask ≠ 0)
    (hwait : q.th.wait ≠ .reconv) : checkMerge s id = s := by
  have hmem : q ∈ g.paths.filter Path.live := List.mem_filter.mpr ⟨hq, by simpa [Path.live] using hlive⟩
  have hall : (g.paths.filter Path.live).all (fun p => p.items.isEmpty && p.th.wait == .reconv) = false :=
    List.all_eq_false.mpr ⟨q, hmem, by simp [hwait]⟩
  rw [checkMerge, hg]
  dsimp only
  split
  next => rfl
  next => simp [hall]

/-- Where no unit stands at a barrier or a JOIN WAIT, no group arrives. -/
theorem checkArrival_none {id : Nat} (hg : s.galley? id = some g) (hitems : ∀ p ∈ g.paths, p.items = [])
    (hstand : ∀ p ∈ g.paths, p.th.stand = .running ∨ p.th.stand = .reconv) : checkArrival s id = s := by
  have hnone : g.units.find? (fun x => match x.2.stand with | .at_ _ _ _ _ => true | _ => false) = none := by
    rw [List.find?_eq_none]
    intro u hu
    obtain ⟨p, hp, hth⟩ := g.units_thread hitems hu
    rcases hstand p hp with h | h <;> simp [← hth, h]
  rw [checkArrival, hg]
  dsimp only
  split
  next => rfl
  next =>
    split
    next => rfl
    next u hu => exact absurd (hu.symm.trans hnone) (by simp)

end

theorem reconvergenceWaits : Claims.ReconvergenceWaits := by
  unfold Claims.ReconvergenceWaits
  intro s g p q i k hg hp hq hik hentering hwait hreconv hlive hitems hrun hall
  have hput : putThread s ⟨g.id, i, none⟩ { p.th with wait := .reconv } =
      s.setGalley (g.setThread ⟨g.id, i, none⟩ { p.th with wait := .reconv }) := by rw [putThread, hg]
  have hset := galley?_setGalley (h := g.setThread ⟨g.id, i, none⟩ { p.th with wait := .reconv }) hg rfl
  have hpaths : ∀ x ∈ (g.setThread ⟨g.id, i, none⟩ { p.th with wait := .reconv }).paths,
      x.items = [] ∧ (x.th.stand = .running ∨ x.th.stand = .reconv) := by
    intro x hx
    obtain ⟨j, hj⟩ := List.mem_iff_getElem?.mp hx
    rw [Galley.setThread_path] at hj
    obtain ⟨y, hy, rfl⟩ := Option.map_eq_some_iff.mp hj
    obtain ⟨hitems, hstand⟩ := hall y (List.mem_of_getElem? hy)
    split
    · exact ⟨hitems, .inr rfl⟩
    · exact ⟨hitems, .inl hstand⟩
  have hother : q ∈ (g.setThread ⟨g.id, i, none⟩ { p.th with wait := .reconv }).paths := by
    refine List.mem_iff_getElem?.mpr ⟨k, ?_⟩
    rw [Galley.setThread_path, hq, Option.map_some, if_neg hik.symm]
  have hmerge := checkMerge_running hset hother hlive (by simp [hrun])
  have harrive := checkArrival_none hset (fun x hx => (hpaths x hx).1) (fun x hx => (hpaths x hx).2)
  rw [pathAtEntry, hg]
  dsimp only
  rw [hp]
  dsimp only
  rw [if_neg (by simp [hentering, hwait]), if_pos hreconv, hput, hmerge, harrive]

/-! ### Arguments that meet -/

/-- In the low bits an affine value is that of its base and step. -/
theorem affineAt_low {W : Nat} (hW : W ≤ 64) (b st : Word) (o : Nat) :
    affineAt b st o % 2 ^ W = (b.toNat % 2 ^ W + st.toNat % 2 ^ W * o) % 2 ^ W := by
  rw [affineAt, Nat.mod_mod_of_dvd _ (pow_dvd_pow 2 hW)]
  exact Nat.ModEq.add (Nat.mod_modEq _ _).symm ((Nat.mod_modEq _ _).symm.mul_right o)

/-- A value of base and step that fits its type is affine in the item. -/
theorem Val.lane_affine {v : Val} {ty : Ty} {b st : Word} {g j l : Nat} (hW : ty.width ≤ 64) (haff : v.affine = some (b, st))
    (hfit : v.lane ty g j l < 2 ^ ty.width) : v.lane ty g j l = affineAt b st (j * g + l) % 2 ^ ty.width := by
  cases v with
  | u x =>
    obtain ⟨rfl, rfl⟩ := Prod.mk.inj (Option.some.inj haff)
    have hx : x.toNat < 2 ^ ty.width := hfit
    have hx64 : x.toNat < 2 ^ 64 := lt_of_lt_of_le hx (Nat.pow_le_pow_right (by decide) hW)
    rw [affineAt_low hW, BitVec.truncate_eq_setWidth, BitVec.toNat_setWidth, Nat.mod_eq_of_lt hx64]
    simp [Val.lane, Nat.mod_eq_of_lt hx]
  | a x y =>
    obtain ⟨rfl, rfl⟩ := Prod.mk.inj (Option.some.inj haff)
    rfl
  | cmp => cases haff
  | s => cases haff

/-- Two values have one base and step in the bits of the type (R96). -/
def SameAffine (ty : Ty) (v w : Val) : Prop :=
  ∃ x y x' y', v.affine = some (x, y) ∧ w.affine = some (x', y') ∧ x.toNat % 2 ^ ty.width = x'.toNat % 2 ^ ty.width ∧
    y.toNat % 2 ^ ty.width = y'.toNat % 2 ^ ty.width

theorem sameFun_iff {ty : Ty} {v w : Val} : sameFun ty v w = true ↔ SameAffine ty v w ∧ (ty.width ≤ 64 ∨ v = w) := by
  unfold sameFun SameAffine
  cases hv : v.affine with
  | none => simp
  | some p =>
    cases hw : w.affine with
    | none => simp
    | some q =>
      obtain ⟨x, y⟩ := p
      obtain ⟨x', y'⟩ := q
      simp only [Bool.and_eq_true, Bool.or_eq_true, beq_iff_eq, decide_eq_true_eq, Option.some.injEq, Prod.mk.injEq]
      constructor
      · rintro ⟨⟨hx, hy⟩, hor⟩
        exact ⟨⟨x, y, x', y', ⟨rfl, rfl⟩, ⟨rfl, rfl⟩, hx, hy⟩, hor⟩
      · rintro ⟨⟨_, _, _, _, ⟨rfl, rfl⟩, ⟨rfl, rfl⟩, hx, hy⟩, hor⟩
        exact ⟨⟨hx, hy⟩, hor⟩

theorem SameAffine.lane {ty : Ty} {v w : Val} {g j l : Nat} (h : SameAffine ty v w) (hW : ty.width ≤ 64)
    (hv : v.lane ty g j l < 2 ^ ty.width) (hw : w.lane ty g j l < 2 ^ ty.width) : v.lane ty g j l = w.lane ty g j l := by
  obtain ⟨x, y, x', y', hvx, hwx, hx, hy⟩ := h
  rw [Val.lane_affine hW hvx hv, Val.lane_affine hW hwx hw, affineAt_low hW, affineAt_low hW, hx, hy]

theorem Val.cls_zero {v : Val} (h : v.cls = 0) : ∃ u, v = .u u := by
  cases v with
  | u x => exact ⟨x, rfl⟩
  | a | cmp | s => simp [Val.cls] at h

/-- Which value two arguments of one type give: the first where both are one function, else a class S value of their lanes. -/
theorem mergeArg_two {g j : Nat} {m n : Mask} {b c : TVal} :
    (mergeArg g j [(m, b), (n, c)] = b ∧ SameAffine b.ty b.val c.val ∧ (b.ty.width ≤ 64 ∨ b.val = c.val)) ∨
    (mergeArg g j [(m, b), (n, c)] = ⟨b.ty, mergeLanes b.ty g j [(m, b), (n, c)]⟩ ∧
      ¬ (SameAffine b.ty b.val c.val ∧ (b.ty.width ≤ 64 ∨ b.val = c.val))) := by
  have heq : mergeArg g j [(m, b), (n, c)] =
      if [(m, b), (n, c)].all (fun p => p.2.val.cls == 0 && p.2.val == b.val) then b
      else if [(m, b), (n, c)].all (fun p => sameFun b.ty b.val p.2.val) then b
      else ⟨b.ty, mergeLanes b.ty g j [(m, b), (n, c)]⟩ := rfl
  rw [heq]
  split
  next hu =>
    simp only [List.all_cons, List.all_nil, Bool.and_true, Bool.and_eq_true, beq_iff_eq] at hu
    obtain ⟨⟨hb, -⟩, -, hcb⟩ := hu
    obtain ⟨u, hu⟩ := Val.cls_zero hb
    refine .inl ⟨rfl, ⟨u.truncate 64, 0, u.truncate 64, 0, by rw [hu]; rfl, by rw [hcb, hu]; rfl, rfl, rfl⟩, .inr hcb.symm⟩
  next =>
    split
    next hf =>
      simp only [List.all_cons, List.all_nil, Bool.and_true, Bool.and_eq_true, sameFun_iff] at hf
      exact .inl ⟨rfl, hf.2⟩
    next hf =>
      refine .inr ⟨rfl, fun hsame => hf ?_⟩
      have hself : SameAffine b.ty b.val b.val := by
        obtain ⟨⟨x, y, -, -, hb, -⟩, -⟩ := hsame
        exact ⟨x, y, x, y, hb, hb, rfl, rfl⟩
      simp only [List.all_cons, List.all_nil, Bool.and_true, Bool.and_eq_true, sameFun_iff]
      exact ⟨⟨hself, .inr trivial⟩, hsame⟩

/-- A lane of merged values is that of the first piece that holds it. -/
theorem mergeLanes_lane {ty : Ty} {g j l : Nat} {parts : List (Mask × TVal)} {m : Mask} {v : TVal} (hl : l < g)
    (hfind : parts.find? (fun p => laneIn p.1 l) = some (m, v)) (hW : ty.width ≤ 128) (hfit : v.val.lane ty g j l < 2 ^ ty.width) :
    (mergeLanes ty g j parts).lane ty g j l = v.val.lane ty g j l := by
  simp only [mergeLanes, Val.lane, List.getD, List.getElem?_map, List.getElem?_range hl, Option.map_some, Option.getD_some, hfind,
    BitVec.toNat_ofNat]
  exact Nat.mod_eq_of_lt (lt_of_lt_of_le hfit (Nat.pow_le_pow_right (by decide) hW))

/-- R106: an argument on which two paths agree keeps its class, and any other is S, with each lane's own value. -/
theorem mergeArg_meets {g j : Nat} {m n : Mask} {a b c : TVal} (ha : a = mergeArg g j [(m, b), (n, c)]) (hty : c.ty = b.ty)
    (hdisj : m &&& n = 0) :
    (b.ty.width ≤ 64 → (SameAffine b.ty b.val c.val → a = b) ∧ (¬ SameAffine b.ty b.val c.val → a.ty = b.ty ∧ a.val.cls = 2)) ∧
    (b.ty.width ≤ 128 → (∀ l, l < g → b.val.lane b.ty g j l < 2 ^ b.ty.width) → (∀ l, l < g → c.val.lane b.ty g j l < 2 ^ b.ty.width) →
      ∀ l, l < g → (laneIn m l = true → a.val.lane a.ty g j l = b.val.lane b.ty g j l) ∧
        (laneIn n l = true → a.val.lane a.ty g j l = c.val.lane c.ty g j l)) := by
  rcases mergeArg_two (g := g) (j := j) (m := m) (n := n) (b := b) (c := c) with ⟨hb, hsame, hor⟩ | ⟨hs, hdiff⟩
  · obtain rfl : a = b := ha.trans hb
    refine ⟨fun _ => ⟨fun _ => rfl, fun hno => absurd hsame hno⟩, fun hW hfb hfc l hl => ⟨fun _ => rfl, fun _ => ?_⟩⟩
    rw [hty]
    rcases hor with hW' | heq
    · exact hsame.lane hW' (hfb l hl) (hfc l hl)
    · rw [heq]
  · obtain rfl := ha.trans hs
    refine ⟨fun hW => ⟨fun hsame => absurd ⟨hsame, .inl hW⟩ hdiff, fun _ => ⟨rfl, rfl⟩⟩, fun hW hfb hfc l hl => ⟨fun hin => ?_, fun hin => ?_⟩⟩
    · exact mergeLanes_lane (m := m) hl (by simp [hin]) hW (hfb l hl)
    · have hout : laneIn m l = false := by
        have hbit : (m &&& n).getLsbD l = false := by rw [hdisj]; exact BitVec.getLsbD_zero
        rw [BitVec.getLsbD_and] at hbit
        simp only [laneIn] at hin ⊢
        simpa [hin] using hbit
      rw [hty]
      exact mergeLanes_lane (m := n) hl (by simp [hin, hout]) hW (hfc l hl)

theorem mergeArgs_two {g j i : Nat} {t u : Thread} {a b c : TVal} (ha : (mergeArgs g j [t, u])[i]? = some a) (hb : t.args[i]? = some b)
    (hc : u.args[i]? = some c) : a = mergeArg g j [(t.mask, b), (u.mask, c)] := by
  have hi : i < t.args.length := (List.getElem?_eq_some_iff.mp hb).1
  simp only [mergeArgs, List.getElem?_map, List.getElem?_range hi, Option.map_some, Option.some.injEq, List.map_cons, List.map_nil,
    List.getD, hb, hc, Option.getD_some] at ha
  exact ha.symm

/-! ### Merging -/

theorem reconvergenceMerges : Claims.ReconvergenceMerges := by
  unfold Claims.ReconvergenceMerges
  intro s g l p q hg hl hpaths hpi hqi hpm hqm hdisj hpw hqw
  have hps : g.paths.filter Path.live = [p, q] := by
    have hp : p.live = true := by simpa [Path.live] using hpm
    have hq : q.live = true := by simpa [Path.live] using hqm
    simp [hpaths, hp, hq]
  have hcheck : checkMerge s g.id =
      if p.th.block = q.th.block ∧ p.th.stack = q.th.stack then
        beginBlock (s.setGalley { g with paths := [⟨{ p.th with
          mask := p.th.mask ||| q.th.mask, instr := 0, args := mergeArgs l.g g.first [p.th, q.th], vals := [], split := 0, wait := .none,
          body := none, walks := [], native := none, entering := true }, none, [], none, []⟩] }) ⟨g.id, 0, none⟩
      else galleyFault s g l (⟨g.id, 0, none⟩, p.th) .reconvergeMismatch := by
    rw [checkMerge, hg]
    dsimp only
    rw [hl, hps]
    by_cases hb : p.th.block = q.th.block
    · by_cases hs : p.th.stack = q.th.stack
      · simp [hpi, hqi, hpw, hqw, hb, hs, mergedThread]
      · simp [hpi, hqi, hpw, hqw, hb, hs, Ne.symm hs, mergedThread]
    · simp [hpi, hqi, hpw, hqw, hb, Ne.symm hb]
  refine ⟨fun hne => ?_, fun hb hs => ?_⟩
  · rw [hcheck, if_neg]
    rintro ⟨hb, hs⟩
    exact hne.elim (· hb) (· hs)
  · rw [if_pos ⟨hb, hs⟩] at hcheck
    refine ⟨_, hcheck, rfl, rfl, rfl, rfl, rfl, by simp [mergeArgs], fun i a b c ha hpb hqc hty => ?_⟩
    exact mergeArg_meets (mergeArgs_two ha hpb hqc) hty hdisj

/-- Settles O13: lanes with two outcomes split, a path at its reconvergence block waits, and paths that meet there merge. -/
theorem branchesAndReconvergence : Obligations.BranchesAndReconvergence := ⟨branchDiverges, reconvergenceWaits, reconvergenceMerges⟩

end Sys2Proof.Machine
end

section
/-! Barrier arrivals and waits: R114, R407. -/

namespace Sys2Proof.Machine

open Sys2Proof

/-! ### A lone unit at a barrier -/

section
variable {s : State} {e : Exe} {w : Main}

/-- A lone unit with another thread in its place. -/
def Exe.lone (e : Exe) (th : Thread) : Galley := { e.g with paths := [{ e.path with th := th }] }

theorem Lone.setThread (h : Lone s e) (th : Thread) : e.g.setThread e.uid th = e.lone th := by
  simp [Galley.setThread, h.paths, h.uid, Exe.lone]

theorem Lone.put (h : Lone s e) (th : Thread) : e.put s th = s.setGalley (e.lone th) := by
  rw [Exe.put, (Exe.stands h.runs).galley]
  exact congrArg s.setGalley (h.setThread th)

theorem Lone.galley_put (h : Lone s e) (th : Thread) : (s.setGalley (e.lone th)).galley? e.g.id = some (e.lone th) :=
  galley?_setGalley (h := e.lone th) h.galley rfl

theorem Lone.units_lone (h : Lone s e) {th : Thread} (hlive : th.mask ≠ 0) : (e.lone th).units = [(⟨e.g.id, 0, none⟩, th)] := by
  have hlive' : th.mask ≠ 0#64 := hlive
  simp [Galley.units, Exe.lone, h.items, hlive']

theorem Lone.storesOwed_lone (h : Lone s e) {th : Thread} (hnat : th.native = none) : (e.lone th).storesOwed = false := by
  simp [Galley.storesOwed, Galley.threads, Exe.lone, h.items, hnat]

/-- The thread of a unit that arrives at a barrier. -/
def Exe.atBarrier (e : Exe) (cnt : Nat) (split : Bool) : Thread := { e.th with wait := .barrier cnt split }

/-- R176: a lone unit that owes nothing arrives as soon as it stands at the barrier. -/
theorem Lone.arrives (h : Lone s e) (howes : e.owes s = false) (harr : e.g.arrived = false) (cnt : Nat) (split : Bool) :
    checkArrival (e.park s (.barrier cnt split)) e.uid.galley =
      arriveGroups (s.setGalley (e.lone (e.atBarrier cnt split))) (e.lone (e.atBarrier cnt split)) e.l
        (⟨e.g.id, 0, none⟩, e.atBarrier cnt split) cnt split := by
  have hpark : e.park s (.barrier cnt split) = s.setGalley (e.lone (e.atBarrier cnt split)) := h.put _
  have hlaunch : (s.setGalley (e.lone (e.atBarrier cnt split))).launch? (e.lone (e.atBarrier cnt split)).launch = some e.l :=
    (Exe.stands h.runs).launch
  have hunits := h.units_lone (th := e.atBarrier cnt split) h.live
  have hgo : galleyOwes (s.setGalley (e.lone (e.atBarrier cnt split))) (e.lone (e.atBarrier cnt split)) = false := by
    rw [Exe.owes, Bool.or_eq_false_iff] at howes
    rw [galleyOwes, h.storesOwed_lone (th := e.atBarrier cnt split) h.laold, Bool.or_false]
    have := howes.1
    rwa [Exe.owed, ← (Exe.launch_self h.runs).2] at this
  have harr' : (e.lone (e.atBarrier cnt split)).arrived = false := harr
  have hstand : (e.atBarrier cnt split).stand = .at_ e.th.block e.th.instr cnt split := rfl
  rw [hpark, h.uid, checkArrival, h.galley_put]
  dsimp only
  rw [hlaunch]
  dsimp only
  rw [hunits]
  simp only [List.find?_cons, hstand, List.all_cons, List.all_nil, Stand.samePlace, beq_self_eq_true, Bool.and_self, Bool.not_true,
    Bool.false_eq_true, if_false, harr', List.any_cons, List.any_nil, hgo, Bool.or_false, reduceCtorEq, beq_iff_eq, Bool.or_eq_true, or_self]

/-- A barrier form of a lone leaf outside transactions is its arrival. -/
theorem Lone.arriveForm (h : Lone s e) (htx : e.tx? = none) (howes : e.owes s = false) (harr : e.g.arrived = false) (split : Bool) :
    arriveForm w split s = .next (arriveGroups (s.setGalley (e.lone (e.atBarrier (e.num s .n32 w.a) split)))
      (e.lone (e.atBarrier (e.num s .n32 w.a) split)) e.l (⟨e.g.id, 0, none⟩, e.atBarrier (e.num s .n32 w.a) split)
      (e.num s .n32 w.a) split) := by
  rw [Machine.arriveForm, onceForm_leaf h.toLeaf, Exe.noTx_none htx, h.arrives howes harr]

/-- A launch that is put back is found under its number. -/
theorem launch?_setLaunch {l l' : Launch} (hl : s.launch? l.id = some l) (hid : l'.id = l.id) :
    (s.setLaunch l').launch? l.id = some l' := by
  unfold State.launch? State.setLaunch at *
  generalize s.launches = ls at hl
  induction ls with
  | nil => cases hl
  | cons x r ih =>
    rw [List.map_cons]
    by_cases hx : x.id = l.id
    · simp [hx, hid]
    · have hne : ¬ x.id = l'.id := hid ▸ hx
      simp only [List.find?_cons, beq_eq_false_iff_ne.mpr hx, if_neg hne] at hl ⊢
      exact ih hl

/-! ### The first arrival of a phase -/

/-- A galley that is put back twice is put back once. -/
theorem setGalley_setGalley {g g' : Galley} (hid : g'.id = g.id) : (s.setGalley g).setGalley g' = s.setGalley g' := by
  simp only [State.setGalley, List.map_map]
  congr 1
  refine List.map_congr_left fun x _ => ?_
  simp only [Function.comp, hid]
  split <;> simp_all

/-- Arrivals that a count operand asks for: all live groups where it is 0. -/
def Domain.wanted (dom : Domain) (cnt : Nat) : Nat := if cnt = 0 then dom.live else cnt

/-- A domain once the first arrival of a phase is counted. -/
def Domain.counted (dom : Domain) (cnt : Nat) : Domain := { dom with expected := dom.wanted cnt, first := cnt, arrived := 1 }

/-- The galley once its arrival is counted: `bararr` goes on with the arrival pending, `barr` waits. -/
def Galley.arriving (g : Galley) (split : Bool) (phase : Nat) : Galley :=
  if split then Galley.pastBarrier { g with pending := true, recorded := phase } else { g with arrived := true }

/-- R114 steps 2 to 5 of the first arrival of a phase: it is counted, and completes the phase where no other is expected. -/
theorem arriveGroups_first {g : Galley} {l : Launch} {u : UnitId × Thread} {cnt d : Nat} {split : Bool} {dom : Domain} {t : State}
    (hd : l.domainOf g.first = d) (hdom : l.domains.getD d .empty = dom) (hg : s.galley? g.id = some g) (hone : g.count = 1)
    (hpend : g.pending = false) (hphase : g.phase = dom.phase) (hfresh : dom.arrived = 0) (hwant : 1 ≤ dom.wanted cnt)
    (ht : t = (s.setLaunch { l with domains := l.domains.set d (dom.counted cnt) }).setGalley (g.arriving split dom.phase)) :
    arriveGroups s g l u cnt split =
      if 1 = dom.wanted cnt then completePhase t l.id d
      else
        match t.launch? l.id with
        | some l => if domainScope t l then galleyFault t g l u .domainScope else t
        | none => t := by
  have hgal (x : Launch) : (s.setLaunch x).galley? g.id = some g := hg
  have hwanted : (if cnt ≠ 0 then cnt else dom.live) = dom.wanted cnt := by rw [Domain.wanted, ite_not]
  have hmin : dom.arrived + min g.count (dom.wanted cnt - dom.arrived) = 1 := by omega
  have hput (x : State) : (if split then x.setGalley (Galley.pastBarrier { g with pending := true, recorded := dom.phase })
      else x.setGalley { g with arrived := true }) = x.setGalley (g.arriving split dom.phase) := by cases split <;> rfl
  subst ht
  unfold Machine.arriveGroups
  dsimp only
  rw [hd, hdom, if_neg (by simp [hpend]), if_neg (not_not.mpr hphase), if_neg (by simp [hfresh])]
  simp only [hfresh, beq_self_eq_true, if_true, hwanted, hgal, hput] at hmin ⊢
  rw [if_neg (by omega), hmin]
  rfl

/-- The other groups of a domain that is no launch are resident with it (R117). -/
theorem domainScope_domain {l : Launch} (h : l.domLevel ≠ 0) : domainScope s l = false := by
  simp [domainScope, h]

/-- The state once a lone unit's first arrival of a phase is counted. -/
def Exe.arrivedState (e : Exe) (s : State) (cnt : Nat) (split : Bool) (d : Nat) (dom : Domain) : State :=
  (s.setLaunch { e.l with domains := e.l.domains.set d (dom.counted cnt) }).setGalley
    ((e.lone (e.atBarrier cnt split)).arriving split dom.phase)

/-- The first arrival of a lone unit. -/
theorem Lone.arriveForm_first (h : Lone s e) (htx : e.tx? = none) (howes : e.owes s = false) (split : Bool) {d : Nat} {dom : Domain}
    (hd : e.l.domainOf e.g.first = d) (hdom : e.l.domains.getD d .empty = dom) (hpend : e.g.pending = false) (harr : e.g.arrived = false)
    (hphase : e.g.phase = dom.phase) (hfresh : dom.arrived = 0) (hwant : 1 ≤ dom.wanted (e.num s .n32 w.a)) :
    Machine.arriveForm w split s = .next (
      let t := e.arrivedState s (e.num s .n32 w.a) split d dom
      if 1 = dom.wanted (e.num s .n32 w.a) then completePhase t e.l.id d
      else
        match t.launch? e.l.id with
        | some l => if domainScope t l then galleyFault t (e.lone (e.atBarrier (e.num s .n32 w.a) split)) l
            (⟨e.g.id, 0, none⟩, e.atBarrier (e.num s .n32 w.a) split) .domainScope else t
        | none => t) := by
  generalize hcnt : e.num s .n32 w.a = cnt at hwant
  have hg : (s.setGalley (e.lone (e.atBarrier cnt split))).galley? (e.lone (e.atBarrier cnt split)).id = some (e.lone (e.atBarrier cnt split)) :=
    h.galley_put _
  have hid : ((e.lone (e.atBarrier cnt split)).arriving split dom.phase).id = (e.lone (e.atBarrier cnt split)).id := by cases split <;> rfl
  have ht : e.arrivedState s cnt split d dom = ((s.setGalley (e.lone (e.atBarrier cnt split))).setLaunch { e.l with
      domains := e.l.domains.set d (dom.counted cnt) }).setGalley ((e.lone (e.atBarrier cnt split)).arriving split dom.phase) :=
    (setGalley_setGalley (s := s.setLaunch { e.l with domains := e.l.domains.set d (dom.counted cnt) }) hid).symm
  rw [h.arriveForm htx howes harr, hcnt]
  exact congrArg _ (arriveGroups_first hd hdom hg h.one hpend hphase hfresh hwant ht)

end

theorem barrierWaits : Claims.BarrierWaits := by
  unfold Claims.BarrierWaits
  intro s e w h htx howes d dom cnt hpend harr hphase hfresh hmore hlevel
  have hx : exec (.barr w) s = Machine.arriveForm w false s := rfl
  have hmore' : 1 < dom.wanted (e.num s .n32 w.a) := hmore
  rw [hx, h.arriveForm_first htx howes false rfl rfl hpend harr hphase hfresh hmore'.le]
  dsimp only
  rw [if_neg (Nat.ne_of_lt hmore'), h.setThread]
  have hlaunch : (e.arrivedState s (e.num s .n32 w.a) false d dom).launch? e.l.id =
      some { e.l with domains := e.l.domains.set d (dom.counted (e.num s .n32 w.a)) } :=
    launch?_setLaunch (s := s) (Exe.launch_self h.runs).1 rfl
  rw [hlaunch]
  dsimp only
  rw [if_neg (by simp [domainScope_domain, hlevel])]
  rfl

/-! ### A phase that completes -/

section
variable {t : State} {g : Galley} {l : Launch}

/-- A phase of a domain whose one galley is at no JOIN WAIT completes: the galley goes on where it has arrived. -/
theorem completePhase_single {d : Nat} (hl : t.launches = [l]) (hg : t.galleys = [g])
    (hjoin : ∀ p ∈ g.paths, p.items = [] ∧ p.th.wait ≠ .join) : completePhase t l.id d = { t with
      launches := [{ l with domains := l.domains.set d { l.domains.getD d .empty with
        phase := ((l.domains.getD d .empty).phase + 1) % 2 ^ 32, arrived := 0 } }]
      galleys := [if g.launch == l.id && l.domainOf g.first == d && g.arrived then g.release else g] } := by
  have hlaunch : t.launch? l.id = some l := by simp [State.launch?, hl]
  have hno : g.units.any (fun u => u.2.wait == .join) = false := by
    rw [List.any_eq_false]
    intro u hu
    obtain ⟨p, hp, hth⟩ := g.units_thread (fun p hp => (hjoin p hp).1) hu
    simpa [hth] using (hjoin p hp).2
  unfold completePhase
  rw [hlaunch]
  simp only [State.setLaunch, hl, hg, List.filter_cons, hno, Bool.and_false, Bool.false_eq_true, if_false, List.filter_nil, List.map_nil,
    List.map_cons, if_true, sortByFirst, List.foldr_nil]

/-- A galley that leaves its barrier goes on behind the instruction. -/
theorem pastBarrier_paths {p : Path} (hp : g.paths = [p]) (hitems : p.items = []) {cnt : Nat} {split : Bool}
    (hwait : p.th.wait = .barrier cnt split) : g.pastBarrier.paths = [{ p with th := p.th.past }] := by
  simp [Galley.pastBarrier, Galley.mapThreads, hp, hitems, Thread.pastBarrier, hwait]

end

/-- The first arrival of a lone galley on its device is the only one wanted: its phase completes. -/
theorem Lone.completePhase {s : State} {e : Exe} (h : Lone s e) (hgal : s.galleys = [e.g]) (hlaunch : s.launches = [e.l]) (cnt : Nat)
    (split : Bool) {d : Nat} {dom : Domain} (hd : e.l.domainOf e.g.first = d) (harr : e.g.arrived = false) :
    completePhase (e.arrivedState s cnt split d dom) e.l.id d = { s with
      launches := [{ e.l with domains := (e.l.domains.set d (dom.counted cnt)).set d { dom.counted cnt with
        phase := (dom.phase + 1) % 2 ^ 32, arrived := 0 } }]
      galleys := [if split then (e.lone (e.atBarrier cnt split)).arriving split dom.phase
        else ((e.lone (e.atBarrier cnt split)).arriving split dom.phase).release] } := by
  have hl : (e.arrivedState s cnt split d dom).launches = [{ e.l with domains := e.l.domains.set d (dom.counted cnt) }] := by
    simp [Exe.arrivedState, State.setGalley, State.setLaunch, hlaunch]
  have hg : (e.arrivedState s cnt split d dom).galleys = [(e.lone (e.atBarrier cnt split)).arriving split dom.phase] := by
    have hid : e.g.id = ((e.lone (e.atBarrier cnt split)).arriving split dom.phase).id := by cases split <;> rfl
    simp [Exe.arrivedState, State.setGalley, State.setLaunch, hgal, ← hid]
  have hjoin : ∀ p ∈ ((e.lone (e.atBarrier cnt split)).arriving split dom.phase).paths, p.items = [] ∧ p.th.wait ≠ .join := by
    cases split
    · intro p hp
      obtain rfl := List.mem_singleton.mp hp
      exact ⟨h.items, by simp [Exe.atBarrier]⟩
    · intro p hp
      rw [Galley.arriving, if_pos rfl, pastBarrier_paths (p := { e.path with th := e.atBarrier cnt true }) (cnt := cnt) (split := true)
        rfl h.items rfl] at hp
      obtain rfl := List.mem_singleton.mp hp
      exact ⟨h.items, by simp [Thread.past_laold (th := e.atBarrier cnt true) h.laold, Thread.after]⟩
  have hhere : (((e.lone (e.atBarrier cnt split)).arriving split dom.phase).launch == e.l.id &&
      e.l.domainOf ((e.lone (e.atBarrier cnt split)).arriving split dom.phase).first == d &&
      ((e.lone (e.atBarrier cnt split)).arriving split dom.phase).arrived) = !split := by
    have hlid := (Exe.launch_self h.runs).2
    cases split
    · simp [Galley.arriving, Exe.lone, hlid, hd]
    · simp [Galley.arriving, Galley.pastBarrier, Galley.mapThreads, Exe.lone, harr]
  have hc := completePhase_single (d := d) hl hg hjoin
  rw [show ({ e.l with domains := e.l.domains.set d (dom.counted cnt) } : Launch).domainOf = e.l.domainOf from rfl, hhere] at hc
  simp only [Tbl.getD_set, if_true] at hc
  cases split <;> exact hc

theorem barrierCompletes : Claims.BarrierCompletes := by
  unfold Claims.BarrierCompletes
  intro s e w h htx hdepth howes d dom cnt hpend harr hphase hfresh hone hgal hlaunch
  have hone' : dom.wanted (e.num s .n32 w.a) = 1 := hone
  have harrive (split : Bool) : Machine.arriveForm w split s = .next (completePhase (e.arrivedState s cnt split d dom) e.l.id d) := by
    rw [h.arriveForm_first htx howes split rfl rfl hpend harr hphase hfresh hone'.ge]
    exact congrArg _ (if_pos hone'.symm)
  have hpast (split : Bool) : (e.atBarrier cnt split).past = (e.atBarrier cnt split).after [] := Thread.past_laold h.laold
  have hpaths (split : Bool) {g : Galley} (hg : g.paths = [{ e.path with th := e.atBarrier cnt split }]) :
      g.pastBarrier.paths = [{ e.path with th := (e.atBarrier cnt split).after [] }] := by
    rw [pastBarrier_paths hg h.items rfl, hpast]
  have hbarr : exec (.barr w) s = Machine.arriveForm w false s := rfl
  have hbararr : exec (.bararr w) s = Machine.arriveForm w true s := rfl
  rw [harrive, h.completePhase hgal hlaunch cnt _ rfl harr] at hbarr hbararr
  have hwaited : ((e.lone (e.atBarrier cnt false)).arriving false dom.phase).release.paths =
      [{ e.path with th := (e.atBarrier cnt false).after [] }] := hpaths false rfl
  have hsplit : ((e.lone (e.atBarrier cnt true)).arriving true dom.phase).paths = [{ e.path with th := (e.atBarrier cnt true).after [] }] :=
    hpaths true rfl
  refine ⟨⟨_, _, hbarr, rfl, rfl, hpend, rfl, congrArg (List.map _) hwaited, congrArg (List.map _) hwaited, ?_, ?_, rfl, rfl⟩,
    ⟨_, _, hbararr, rfl, rfl, rfl, rfl, congrArg (List.map _) hsplit, congrArg (List.map _) hsplit, ?_, rfl, rfl⟩⟩ <;>
    simp [d]

theorem barrierWaitEnds : Claims.BarrierWaitEnds := by
  unfold Claims.BarrierWaitEnds
  intro s e w h htx dom
  have hx : exec (.barwait w) s = execBarwait w s := rfl
  rw [execBarwait, onUnit_runs h.runs, Exe.noTx_none htx] at hx
  refine ⟨fun hpend hne => completes_done (w := w) h.laold ?_, fun hpend heq => ?_, fun hpend => ?_⟩
  · rw [hx, if_neg (by simp [hpend]), if_pos]
    simpa [Exe.phaseDone, Exe.domPhase] using .inr hne
  · rw [hx, if_neg (by simp [hpend]), if_neg]
    · rfl
    · simp only [Exe.phaseDone, hpend, Bool.not_true, Bool.false_or, bne_iff_ne, ne_eq, not_not]
      exact heq
  · rw [hx, if_pos (by simp [hpend])]

/-- Settles O28: the first arrival of a phase is counted, and completes it where it is the only one wanted. -/
theorem barriers : Obligations.Barriers := ⟨barrierCompletes, barrierWaits, barrierWaitEnds⟩

end Sys2Proof.Machine
end

section
/-! The reset state and the worked words of the manual. -/

namespace Sys2Proof.Machine

open Sys2Proof

/-- Settles O55: the tables of the reset state are empty, so each register reads as its reset value. -/
theorem resetState : Obligations.ResetState := by
  unfold Obligations.ResetState
  refine ⟨⟨rfl, rfl, rfl, fun p hp => (List.not_mem_nil hp).elim, fun p hp => (List.not_mem_nil hp).elim, rfl⟩, rfl, rfl, rfl, rfl, rfl, rfl,
    fun _ _ => ⟨rfl, rfl, rfl⟩, rfl, rfl, rfl, fun _ => ⟨rfl, rfl⟩, fun _ => rfl⟩

/-- Settles O57: the decoder evaluates each word to its instruction. -/
theorem wordsDecode : Obligations.WordsDecode := by
  unfold Obligations.WordsDecode
  refine ⟨?_, ?_, ?_, ?_, ?_, ?_, ?_, ?_, ?_, ?_, ?_, ?_, ?_, ?_, ?_, ?_⟩ <;> rfl

end Sys2Proof.Machine
end

section
/-! One step at a fetched word. -/

namespace Sys2Proof.Machine

open Sys2Proof

section
variable {s : State} {u : UnitId} {us : List UnitId} {g : Galley} {l : Launch} {core : Nat} {th : Thread}

/-- The first unit of the issue slot that fetches an instruction runs it, and then leaves the slot. -/
theorem step_instr {i : Instr} {x : Thread} (hcur : s.cur = u :: us) (hg : s.galley? u.galley = some g) (hl : s.launch? g.launch = some l)
    (hc : g.core = some core) (hth : g.thread? u = some th) (hready : stillReady s l g core u th = true)
    (hf : fetch s l g core th = .instr i x) :
    let v := if x = th then s else putThread s u x
    let two := decide (1 < (g.paths.filter Path.live).length)
    (∀ t, exec i v = .next t → step s = .next (releaseCores (afterUnit u two (issueCycles v u i) (notIssued i g x t u)
      (if notIssued i g x t u then t else readPools core (th.body.bind v.xlat?) i t)))) ∧
    (∀ f, exec i v = .fault f → step s = .fault f) ∧ (∀ r, exec i v = .refused r → step s = .refused r) := by
  intro v two
  rw [step, hcur]
  dsimp only
  unfold runUnit
  rw [hg]
  dsimp only
  rw [hl, hc, hth]
  dsimp only
  rw [if_neg (by simp [hready]), hf]
  dsimp only
  refine ⟨fun t ht => ?_, fun f ht => ?_, fun r ht => ?_⟩ <;> simp only [v] at ht <;> rw [ht]

/-- The first unit of the issue slot that fetches no instruction faults. -/
theorem step_bad {c : Code} (hcur : s.cur = u :: us) (hg : s.galley? u.galley = some g) (hl : s.launch? g.launch = some l)
    (hc : g.core = some core) (hth : g.thread? u = some th) (hready : stillReady s l g core u th = true)
    (hf : fetch s l g core th = .bad c) : step s = .next (popUnit (takeFault s g l th c (faultLane u) 0 0)) := by
  rw [step, hcur]
  dsimp only
  unfold runUnit
  rw [hg]
  dsimp only
  rw [hl, hc, hth]
  dsimp only
  rw [if_neg (by simp [hready]), hf]

/-! ### What a unit fetches -/

/-- The instruction at an index is that of the words that follow the earlier ones. -/
theorem instrAt_eq {words ws rest : List Nat} {h : BlockHdr} {k : Nat} (hh : parseHdr words = some (h, ws))
    (hskip : skipInstrs k ws = some rest) : instrAt words k = (decode rest).map Prod.fst := by
  rw [instrAt, hh]
  dsimp only
  rw [hskip]

theorem fetch_laold {x : Xlat} {i : Instr} (hnat : th.native = none) (hx : th.body.bind s.xlat? = some x)
    (hi : instrAt x.words th.instr = some i) : fetch s l g core th = .instr i th := by
  unfold fetch
  rw [hnat]
  dsimp only
  rw [hx]
  dsimp only
  rw [hi]

theorem fetch_laold_bad {x : Xlat} (hnat : th.native = none) (hx : th.body.bind s.xlat? = some x)
    (hi : instrAt x.words th.instr = none) : fetch s l g core th = .bad .codeFormat := by
  unfold fetch
  rw [hnat]
  dsimp only
  rw [hx]
  dsimp only
  rw [hi]

theorem fetch_native {n : NativeRun} {v : Nat} (hnat : th.native = some n) (hv : n.headAt n.turn = some v) :
    fetch s l g core th = fetchNative s l g core th n v := by
  unfold fetch
  rw [hnat]
  dsimp only
  rw [hv]

/-- A native-only word decodes to the instruction that it is. -/
theorem decodeChifin_of_only {v : Nat} {i : Instr} (h : chifinOnly v = some i) : decodeChifin v = some i := by
  rw [decodeChifin, if_pos, h]
  by_contra hop
  rw [chifinOnly, if_neg (fun hall => hop hall.1)] at h
  cases h

end

/-- Settles O56: a step runs what `fetch` finds, from the block's words or from the word at the head of the queue in turn. -/
theorem stepRunsTheInstruction : Obligations.StepRunsTheInstruction := by
  unfold Obligations.StepRunsTheInstruction
  intro s u us g l core th hcur hg hl hc hth hready
  have hruns {i : Instr} {x : Thread} (hf : fetch s l g core th = .instr i x) := step_instr hcur hg hl hc hth hready hf
  refine ⟨fun x h ws rest hnat hx hh hskip => ?_, fun n v hnat hv hok => ⟨fun i hi => ⟨decodeChifin_of_only hi, hruns ?_⟩,
    fun r i x honly hraw hbound hpair hbind => hruns ?_⟩⟩
  · have hat := instrAt_eq hh hskip
    refine ⟨fun i hi => hruns (fetch_laold hnat hx (hat.trans hi)), fun hnone _ => step_bad hcur hg hl hc hth hready ?_⟩
    exact fetch_laold_bad hnat hx (by rw [hat, hnone]; rfl)
  · rw [fetch_native hnat hv, fetchNative, hok, hi]
    rfl
  · rw [fetch_native hnat hv, fetchNative, hok]
    simp only [Bool.not_true, Bool.false_eq_true, if_false, honly, hraw, hpair, hbound, hbind]

end Sys2Proof.Machine
end

section
/-! Transaction state: what the reports give, and what an abort leaves. -/

namespace Sys2Proof.Machine

open Sys2Proof

/-! ### A group's state -/

section
variable {s : State} {lid j : Nat} {l : Launch}

/-- A group's state that is set is read back. -/
theorem group_setGroup (hl : s.launch? lid = some l) (x : GroupSt) : (s.setGroup lid j x).group lid j = x := by
  have hid : l.id = lid := by simpa using List.find?_some (p := fun l : Launch => l.id == lid) hl
  subst hid
  have hput := launch?_setLaunch (l' := { l with groups := l.groups.set j x }) hl rfl
  rw [State.setGroup, hl]
  dsimp only
  rw [State.group, hput]
  simp

@[simp] theorem setGroup_mem (s : State) (lid j : Nat) (x : GroupSt) : (s.setGroup lid j x).mem = s.mem := by
  unfold State.setGroup; split <;> rfl

@[simp] theorem setGroup_hostMem (s : State) (lid j : Nat) (x : GroupSt) : (s.setGroup lid j x).hostMem = s.hostMem := by
  unfold State.setGroup; split <;> rfl

@[simp] theorem setGroup_peerMem (s : State) (lid j : Nat) (x : GroupSt) : (s.setGroup lid j x).peerMem = s.peerMem := by
  unfold State.setGroup; split <;> rfl

@[simp] theorem setGroup_galleys (s : State) (lid j : Nat) (x : GroupSt) : (s.setGroup lid j x).galleys = s.galleys := by
  unfold State.setGroup; split <;> rfl

@[simp] theorem countEvent_group (s : State) (c ev n lid j : Nat) : (countEvent s c ev n).group lid j = s.group lid j := rfl

/-- Replacing a transaction changes its group's state and event counts alone. -/
theorem putAborted_group (hl : s.launch? lid = some l) (x : Tx) :
    (putAborted s lid j x).group lid j = { s.group lid j with tx := x } := by
  unfold putAborted
  dsimp only
  split
  · rw [countEvent_group, group_setGroup hl]
  · rw [group_setGroup hl]

@[simp] theorem putAborted_mem (s : State) (lid j : Nat) (x : Tx) : (putAborted s lid j x).mem = s.mem := by
  unfold putAborted
  dsimp only
  split
  · exact setGroup_mem ..
  · exact setGroup_mem ..

@[simp] theorem putAborted_galleys (s : State) (lid j : Nat) (x : Tx) : (putAborted s lid j x).galleys = s.galleys := by
  unfold putAborted
  dsimp only
  split
  · exact setGroup_galleys ..
  · exact setGroup_galleys ..

/-- R200: outside serial mode the lanes of an open transaction abort in its log alone. -/
theorem abortLanes_open {lanes : Mask} {cause : Nat} (hdepth : (s.group lid j).tx.depth ≠ 0) (hserial : (s.group lid j).tx.serial = false) :
    abortLanes s lid j lanes cause = putAborted s lid j ((s.group lid j).tx.abort lanes cause) := by
  simp [abortLanes, hdepth, hserial]

/-- Setting causes for lanes gives each of them the cause. -/
theorem setCauses_getD (cs : Tbl Nat) (m : Mask) (cause k : Nat) :
    (setCauses cs m cause).getD k 0 = if laneIn m k = true then cause else cs.getD k 0 := by
  have hfold (ls : List Nat) (cs : Tbl Nat) :
      (ls.foldl (fun cs l => cs.set l cause) cs).getD k 0 = if k ∈ ls then cause else cs.getD k 0 := by
    induction ls generalizing cs with
    | nil => simp
    | cons x r ih =>
      rw [List.foldl_cons, ih, Tbl.getD_set]
      by_cases hr : k ∈ r
      · simp [hr]
      · by_cases hx : k = x
        · simp [hx]
        · simp [hr, hx]
  rw [setCauses, hfold]
  simp only [mem_lanesIn]

/-- The lanes of a mask operation. -/
theorem laneIn_and (m n : Mask) (l : Nat) : laneIn (m &&& n) l = (laneIn m l && laneIn n l) := BitVec.getLsbD_and

theorem laneIn_not {m : Mask} {l : Nat} (hl : l < 64) : laneIn (~~~m) l = !laneIn m l := by
  simp [laneIn, hl]

/-- The lanes that an abort newly takes. -/
theorem laneIn_newly (a b c : Mask) (l : Nat) : laneIn (a &&& b &&& ~~~c) l = (laneIn a l && laneIn b l && !laneIn c l) := by
  by_cases hl : l < 64
  · rw [laneIn_and, laneIn_and, laneIn_not hl]
  · simp [laneIn_ge _ (Nat.le_of_not_lt hl)]

theorem or_and_not (a b : Mask) : b ||| (a &&& ~~~b) = b ||| a := by
  ext i hi
  simp only [BitVec.getElem_or, BitVec.getElem_and, BitVec.getElem_not]
  cases b[i] <;> simp

end

/-! ### Reports -/

section
variable {s : State} {e : Exe} {w : Main} {i : Instr}

theorem gives_txReport {f : Tx → Nat} (h : Leaf s e) (hx : exec i s = txReport w f s) : Gives s e i w.ty (fun _ => f (e.tx s)) := by
  rw [txReport, onUnit_runs h.runs, h.leafOnly] at hx
  exact gives_ofNat h hx

theorem gives_txcause (h : Leaf s e) : Gives s e (.txcause w) w.ty (fun l => (e.tx s).causes.getD l 0) := by
  have hx : exec (.txcause w) s = execTxcause w s := rfl
  rw [execTxcause, onUnit_runs h.runs, h.leafOnly] at hx
  exact gives_perLane h hx

theorem exec_txabort (h : Leaf s e) : exec (.txabort w) s = .next (if (e.tx s).depth = 0 then e.txState s
    else e.done (abortLanes s e.l.id e.g.first e.act 3) w) := by
  have hx : exec (.txabort w) s = execTxabort w s := rfl
  rw [hx, execTxabort, onUnit_runs h.runs, h.leafOnly]

theorem exec_txend_closed (h : Leaf s e) (hdepth : (e.tx s).depth = 0) : exec (.txend w) s = .next (e.txState s) := by
  have hx : exec (.txend w) s = execTxend w s := rfl
  rw [hx, execTxend, onUnit_runs h.runs, h.leafOnly]
  dsimp only
  rw [if_pos hdepth]

end

/-- Settles O26: reports read the group's transaction, and an abort acts on its log. -/
theorem transactionReports : Obligations.TransactionReports := by
  unfold Obligations.TransactionReports
  intro s e w h x
  have hmask : exec (.txmask w) s = txReport w (fun x => x.mask.toNat) s := rfl
  have hdep : exec (.txdepth w) s = txReport w (fun x => x.depth + x.excess) s := rfl
  have hser : exec (.txserial w) s = txReport w (fun x => Word.ofBool x.serial + 256 * x.fails) s := rfl
  refine ⟨gives_txReport h hmask, gives_txReport h hdep, gives_txReport h hser, gives_txcause h, fun hdepth => ?_,
    fun hdepth hserial hl => ?_, fun hdepth => ⟨?_, exec_txend_closed h hdepth⟩, fun r rest hnone hq => ?_⟩
  · refine completes_done (w := w) h.laold ?_
    rw [exec_txabort h, if_neg (show (e.tx s).depth ≠ 0 from hdepth)]
  · have hab : abortLanes s e.l.id e.g.first e.act 3 = putAborted s e.l.id e.g.first (x.abort e.act 3) := abortLanes_open hdepth hserial
    have hnew := laneIn_newly e.act x.inTx x.aborted
    rw [hab]
    dsimp only
    rw [putAborted_group hl]
    refine ⟨?_, fun l => ?_, ?_, fun r hr => ?_, rfl, rfl, putAborted_mem .., putAborted_galleys ..⟩
    · exact or_and_not (e.act &&& x.inTx) x.aborted
    · simp only [Tx.abort, setCauses_getD, hnew]
      simp only [Bool.and_eq_true, Bool.not_eq_true', and_assoc]
    · simp only [Tx.abort, hnew]
    · obtain ⟨q, -, rfl⟩ := List.mem_map.mp hr
      ext i hi
      simp only [BitVec.getElem_and, BitVec.getElem_not]
      cases e.act[i] <;> cases x.inTx[i] <;> cases x.aborted[i] <;> simp
  · rw [exec_txabort h, if_pos (show (e.tx s).depth = 0 from hdepth)]
    rfl
  · have hx : exec .serialGrant s = execSerialGrant s := rfl
    rw [hx, execSerialGrant, hnone, hq]

end Sys2Proof.Machine
end

section
/-! How a transaction opens, commits and meets a conflict: R199, R204, R405. -/

namespace Sys2Proof.Machine

open Sys2Proof

/-! ### A lone unit at its transaction's bounds -/

section
variable {s : State} {e : Exe} {w : Main}

theorem Lone.othersOf (h : Lone s e) : othersOf e.g e.uid = [] := by
  simp [Machine.othersOf, h.units]

/-- R405: a lone unit waits for nobody. -/
theorem Lone.meets (h : Lone s e) (x : Tx) (beg : Bool) : meetUnits e.g x e.uid beg = .go := by
  cases beg <;> simp [meetUnits, h.othersOf]

theorem Lone.begLanes (h : Lone s e) : e.begLanes = e.act := by
  simp [Exe.begLanes, h.othersOf]

/-- A lone unit that passes a transaction's bound defines its own results. -/
theorem Lone.passAll (h : Lone s e) (t : State) (beg outer : Bool) (vs : List TVal) (hall : ∀ v ∈ vs, e.settle v = v) :
    e.passAll t w beg outer vs = e.put t (e.th.after vs) := by
  have hsettle : vs.map ({ e with act := if outer then e.th.mask else activeLanes e.l e.g e.th.mask } : Exe).settle = vs := by
    refine (List.map_congr_left fun v hv => ?_).trans (List.map_id vs)
    cases outer
    · exact (congrArg (fun m => ({ e with act := m } : Exe).settle v) (Exe.stands h.runs).act.symm).trans (hall v hv)
    · exact Exe.settle_all _ v rfl
  simp only [Exe.passAll, h.othersOf, List.filter_nil, List.foldl_cons, List.foldl_nil]
  rw [Exe.define_laold (by exact h.laold), hsettle]
  rfl

theorem Lone.settle (h : Lone s e) (v : TVal) : e.settle v = v := e.settle_all v h.lanes

theorem Lone.exec_txbeg (h : Lone s e) : exec (.txbeg w) s = .next (
    if (e.tx s).depth = 0 then e.openTx s w
    else if [(e.uid, e.th)].any (fun u => u.2.mask &&& (e.tx s).inTx == 0) then e.txState s
    else if (e.tx s).depth < 15 then e.passAll (e.setTx s { e.tx s with depth := (e.tx s).depth + 1 }) w true false []
    else if (e.tx s).excess = 65535 then e.txState s
    else e.passAll (e.setTx (abortLanes s e.l.id e.g.first e.begLanes 5)
      { e.tx (abortLanes s e.l.id e.g.first e.begLanes 5) with excess := (e.tx s).excess + 1 }) w true false []) := by
  have hx : exec (.txbeg w) s = execTxbeg w s := rfl
  rw [hx, execTxbeg, onUnit_runs h.runs, h.toLeaf.leafOnly]
  dsimp only
  rw [h.meets, h.othersOf]
  rfl

theorem transactionsOpen : Claims.TransactionsOpen := by
  unfold Claims.TransactionsOpen
  intro s e w h g
  refine ⟨fun hdepth hfails howes => ?_, fun hpos hlt hin => ?_⟩
  · have hdepth' : (e.tx s).depth = 0 := hdepth
    have hfails' : (e.tx s).fails < 8 := hfails
    rw [Completes, h.exec_txbeg, if_pos hdepth', Exe.openTx]
    dsimp only
    rw [howes, if_neg Bool.false_ne_true, if_pos hfails', h.passAll _ _ _ _ (fun v _ => h.settle v), h.begLanes]
    rfl
  · have hdepth' : (e.tx s).depth ≠ 0 := Nat.ne_of_gt hpos
    have hlt' : (e.tx s).depth < 15 := hlt
    have hin0 : (e.th.mask &&& (e.tx s).inTx == 0) = false := beq_eq_false_iff_ne.mpr hin
    have hin' : ¬ [(e.uid, e.th)].any (fun u => u.2.mask &&& (e.tx s).inTx == 0) = true := by
      rw [List.any_cons, List.any_nil, hin0]
      exact Bool.false_ne_true
    rw [Completes, h.exec_txbeg, if_neg hdepth', if_neg hin', if_pos hlt', h.passAll _ _ _ _ (fun v _ => h.settle v)]
    rfl

end

/-! ### Validation and the buffered bytes -/

section
variable {s : State}

theorem State.NoExact.spilling (h : s.NoExact) (pa : Nat) : s.spilling pa = false := by
  simp [State.spilling, (h (sliceOf pa)).2]

/-- With no exact entry held, bytes are written at their home and nothing else changes. -/
theorem writePhys_plain (h : s.NoExact) (pa : Nat) (bs : List Byte) :
    s.writePhys ⟨0, pa⟩ bs = { s with mem := s.mem.writeBytes pa bs } := by
  simp [State.writePhys, State.finalizeAt, State.finalizeSpan_plain h, State.memOf, State.setMemOf]

/-- The bytes of a write-log entry in device memory. -/
theorem writeBytes_fold (h : s.NoExact) (pa : Nat) (bs : List WByte) :
    bs.foldl (fun s (b : WByte) => s.writePhys ⟨0, pa + b.off⟩ [b.val]) s =
      { s with mem := bs.foldl (fun m (b : WByte) => m.writeBytes (pa + b.off) [b.val]) s.mem } := by
  induction bs generalizing s with
  | nil => rfl
  | cons b r ih =>
    rw [List.foldl_cons, writePhys_plain h]
    exact ih (s := { s with mem := s.mem.writeBytes (pa + b.off) [b.val] }) (fun i => h i)

/-- R204: applying a write log whose lanes have not aborted writes its bytes; but for the core's L1 nothing else changes. -/
theorem applyWrites_plain (core : Nat) {x : Tx} (h : s.NoExact) (htgt : ∀ y ∈ x.writes, y.tgt = 0)
    (keep : WByte → Bool) (hkeep : ∀ y ∈ x.writes, ∀ b ∈ y.bytes, (!laneIn x.aborted b.lane) = keep b) :
    ∃ cs, applyWrites s core x = { s with
      mem := x.writes.foldl (fun m y => (y.bytes.filter keep).foldl (fun m b => m.writeBytes (y.pa + b.off) [b.val]) m) s.mem, cores := cs } := by
  unfold applyWrites
  generalize x.writes = ws at htgt hkeep
  induction ws generalizing s with
  | nil => exact ⟨s.cores, rfl⟩
  | cons y r ih =>
    have hy : y.tgt = 0 := htgt y (List.mem_cons_self ..)
    have hbytes : y.bytes.filter (fun b => !laneIn x.aborted b.lane) = y.bytes.filter keep :=
      List.filter_congr fun b hb => hkeep y (List.mem_cons_self ..) b hb
    simp only [List.foldl_cons, hy, hbytes, writeBytes_fold h, l1Drop, ne_eq, not_true_eq_false, if_false]
    refine ih ?_ (fun z hz => htgt z (List.mem_cons_of_mem _ hz)) (fun z hz => hkeep z (List.mem_cons_of_mem _ hz))
    exact fun i => h i

/-- With no sector locked, no lane aborts for a lock. -/
theorem serialAborts_plain (hl : s.serial.locks = []) (lid j : Nat) : serialAborts s lid j = s := by
  have hnone (p : PTarget) : s.lockedBy (some ⟨lid, j⟩) p = false := by simp [State.lockedBy, State.lock?, hl]
  simp [serialAborts, hnone]

/-- Sectors that still hold what was read abort no lane. -/
theorem validate_unchanged (h : s.NoExact) (lid j : Nat) (rs : List ReadEnt) (hrs : ∀ r ∈ rs, r.tgt = 0 ∧ s.mem.readBytes r.pa 16 = r.val) :
    validate lid j rs s = s := by
  induction rs with
  | nil => rfl
  | cons r rs ih =>
    obtain ⟨htgt, hval⟩ := hrs r (List.mem_cons_self ..)
    rw [validate, htgt, State.readPhys_plain h]
    dsimp only
    rw [if_pos hval, ih fun q hq => hrs q (List.mem_cons_of_mem _ hq)]

/-- A sector that has changed aborts the lanes that read it. -/
theorem validate_changed (h : s.NoExact) (lid j : Nat) {r : ReadEnt} (htgt : r.tgt = 0) (hval : s.mem.readBytes r.pa 16 ≠ r.val) :
    validate lid j [r] s = abortLanes s lid j r.lanes 1 := by
  rw [validate, htgt, State.readPhys_plain h]
  dsimp only
  rw [if_neg hval]
  rfl

theorem exists_launch?_setGroup {lid : Nat} {l : Launch} (hl : s.launch? lid = some l) (j : Nat) (x : GroupSt) :
    ∃ l', (s.setGroup lid j x).launch? lid = some l' := by
  have hid : l.id = lid := by simpa using List.find?_some (p := fun l : Launch => l.id == lid) hl
  subst hid
  refine ⟨{ l with groups := l.groups.set j x }, ?_⟩
  rw [State.setGroup, hl]
  exact launch?_setLaunch hl rfl

end

/-! ### The outermost `txend` -/

section
variable {s : State} {e : Exe} {w : Main}

/-- R204: the outermost `txend` of a lone unit that nothing holds back closes its transaction. -/
theorem Lone.exec_txend (h : Lone s e) (hno : s.NoExact) (hdepth : (e.tx s).depth = 1) (hexcess : (e.tx s).excess = 0)
    (howes : e.owes s = false) (hlate : (e.tx s).lateFail s e.l.tenant = none)
    (hfree : ∀ p ∈ (e.tx s).sectors, s.engineOwned p.pa = false) : exec (.txend w) s = .next (e.closeOuter s w) := by
  have hx : exec (.txend w) s = execTxend w s := rfl
  have hstuck : (e.tx s).sectors.filter (fun p => p.tgt == 0 && (s.engineOwned p.pa || s.spilling p.pa)) = [] := by
    rw [List.filter_eq_nil_iff]
    intro p hp
    simp [hfree p hp, hno.spilling]
  rw [hx, execTxend, onUnit_runs h.runs, h.toLeaf.leafOnly]
  dsimp only
  rw [if_neg (by omega), h.meets]
  dsimp only
  rw [if_neg (by omega), if_neg (by omega), hstuck, if_neg (by simp), howes, if_neg Bool.false_ne_true, hlate, ite_self]

/-- What the end of a transaction leaves: the group's log is closed, and the unit has the abort mask. -/
theorem Lone.closeOuter {l : Launch} {t : State} (h : Lone s e) (hserial : (e.tx s).serial = false) (ht : commit s e.l.id e.g.first e.core = t)
    (hl : t.launch? e.l.id = some l) (hserial' : (e.tx t).serial = false) : ∃ u, e.closeOuter s w =
      e.put u (e.th.after [⟨w.ty, .ofNat (e.tx t).mask.toNat⟩]) ∧ u.mem = t.mem ∧ u.hostMem = t.hostMem ∧ u.peerMem = t.peerMem ∧
      (u.group e.l.id e.g.first).tx = (e.tx t).close := by
  have hclose (v : State) (hv : v = t ∨ v = countEvent t e.core 10 1) : (closeTx v e.l.id e.g.first).mem = t.mem ∧
      (closeTx v e.l.id e.g.first).hostMem = t.hostMem ∧ (closeTx v e.l.id e.g.first).peerMem = t.peerMem ∧
      ((closeTx v e.l.id e.g.first).group e.l.id e.g.first).tx = (e.tx t).close := by
    have hgroup : v.group e.l.id e.g.first = t.group e.l.id e.g.first := by rcases hv with rfl | rfl <;> rfl
    have hlv : v.launch? e.l.id = some l := by rcases hv with rfl | rfl <;> exact hl
    have hc : closeTx v e.l.id e.g.first = v.setGroup e.l.id e.g.first { t.group e.l.id e.g.first with tx := (e.tx t).close } := by
      rw [closeTx, hgroup]
      dsimp only
      rw [show (t.group e.l.id e.g.first).tx.serial = false from hserial', if_neg Bool.false_ne_true]
      rfl
    rw [hc, group_setGroup hlv, setGroup_mem, setGroup_hostMem, setGroup_peerMem]
    rcases hv with rfl | rfl <;> exact ⟨rfl, rfl, rfl, rfl⟩
  unfold Exe.closeOuter
  dsimp only
  rw [hserial, if_neg Bool.false_ne_true, ht, h.passAll _ _ _ _ (fun v _ => h.settle v)]
  exact ⟨_, rfl, hclose _ (by split <;> simp)⟩

end

theorem transactionsCommit : Claims.TransactionsCommit := by
  unfold Claims.TransactionsCommit
  intro s e w h hno hlocks hl x hdepth hexcess hserial haborted howes hlate hreads hwrites hfree
  have hlive (l : Nat) : (!laneIn x.aborted l) = true := by rw [haborted]; simp [laneIn]
  obtain ⟨cs, happly⟩ := applyWrites_plain e.core hno hwrites (fun _ => true) (fun y _ b _ => hlive b.lane)
  have hcommit : commit s e.l.id e.g.first e.core = applyWrites s e.core x := by
    rw [commit, serialAborts_plain hlocks, validate_unchanged hno _ _ _ fun r hr => hreads r (List.mem_filter.mp hr).1]
  obtain ⟨u, hclose, hmem, hhost, hpeer, hgroup⟩ := h.closeOuter (w := w) hserial (hcommit.trans happly) hl hserial
  refine ⟨u, _, (h.exec_txend hno hdepth hexcess howes hlate hfree).trans (congrArg _ hclose), rfl, fun l => ?_, ?_, hhost, hpeer, ?_, ?_⟩
  · have hmask : (e.tx s).mask = 0 := by
      rw [Tx.mask, show (e.tx s).aborted = 0 from haborted]
      exact BitVec.and_zero
    have hmask' : (e.tx { s with mem := x.writes.foldl (fun m y => (y.bytes.filter (fun _ => true)).foldl
        (fun m b => m.writeBytes (y.pa + b.off) [b.val]) m) s.mem, cores := cs }).mask = 0 := hmask
    rw [hmask']
    simp
  · rw [hmem]
    simp
  · rw [hgroup]; rfl
  · rw [hgroup]; rfl

/-! ### A conflict -/

section
variable {s : State} {lid j : Nat}

theorem setGroup_slice (s : State) (lid j : Nat) (x : GroupSt) (i : Nat) : (s.setGroup lid j x).slice i = s.slice i := by
  unfold State.setGroup; split <;> rfl

theorem putAborted_noExact (h : s.NoExact) (x : Tx) : (putAborted s lid j x).NoExact := by
  intro i
  have hset := setGroup_slice s lid j { s.group lid j with tx := x } i
  unfold putAborted
  dsimp only
  split
  · exact hset.symm ▸ h i
  · exact hset.symm ▸ h i

theorem exists_launch?_putAborted {l : Launch} (hl : s.launch? lid = some l) (x : Tx) : ∃ l', (putAborted s lid j x).launch? lid = some l' := by
  obtain ⟨l', hl'⟩ := exists_launch?_setGroup hl j { s.group lid j with tx := x }
  refine ⟨l', ?_⟩
  unfold putAborted
  dsimp only
  split
  · exact hl'
  · exact hl'

@[simp] theorem putAborted_hostMem (x : Tx) : (putAborted s lid j x).hostMem = s.hostMem := by
  unfold putAborted
  dsimp only
  split
  · exact setGroup_hostMem ..
  · exact setGroup_hostMem ..

/-- When all lanes of a transaction abort, none of its buffered bytes is left. -/
theorem abort_writes_nil {x : Tx} (cause : Nat) (hin : x.lanes = x.inTx) (hab : x.aborted = 0)
    (hw : ∀ y ∈ x.writes, ∀ b ∈ y.bytes, laneIn x.lanes b.lane = true) : ∀ y ∈ (x.abort x.lanes cause).writes, y.bytes = [] := by
  intro y hy
  obtain ⟨z, hz, rfl⟩ := List.mem_map.mp hy
  rw [List.filter_eq_nil_iff]
  intro b hb
  have hlane : x.lanes.getLsbD b.lane = true := hw z hz b hb
  rw [laneIn_newly, ← hin, hab]
  simp [hlane, laneIn]

end

theorem conflictsAbort : Claims.ConflictsAbort := by
  unfold Claims.ConflictsAbort
  intro s e w r h hno hlocks hl x hdepth hexcess hserial haborted hin howes hlate hreads htgt hval hlanes hlane0 hfree hwrites
  have hrest : x.reads.filter (fun r => r.lanes != 0) = [r] := by
    rw [hreads, List.filter_cons, if_pos (by exact bne_iff_ne.mpr hlane0), List.filter_nil]
  have hab : abortLanes s e.l.id e.g.first r.lanes 1 = putAborted s e.l.id e.g.first (x.abort x.lanes 1) := by
    rw [abortLanes_open (by rw [show (s.group e.l.id e.g.first).tx.depth = 1 from hdepth]; decide) hserial, hlanes]
  have hgroup : ((putAborted s e.l.id e.g.first (x.abort x.lanes 1)).group e.l.id e.g.first).tx = x.abort x.lanes 1 := by
    rw [putAborted_group hl]
  have hnil := abort_writes_nil 1 hin haborted fun y hy b hb => (hwrites y hy).2 b hb
  obtain ⟨cs, happly⟩ := applyWrites_plain e.core (putAborted_noExact (lid := e.l.id) (j := e.g.first) hno (x.abort x.lanes 1))
    (x := x.abort x.lanes 1) (fun y hy => by obtain ⟨z, hz, rfl⟩ := List.mem_map.mp hy; exact (hwrites z hz).1)
    (fun _ => false) (fun y hy b hb => by rw [hnil y hy] at hb; cases hb)
  have hcommit : commit s e.l.id e.g.first e.core = applyWrites (putAborted s e.l.id e.g.first (x.abort x.lanes 1)) e.core (x.abort x.lanes 1) := by
    rw [commit, serialAborts_plain hlocks, hrest, validate_changed hno _ _ htgt hval, hab, hgroup]
  obtain ⟨l', hl'⟩ := exists_launch?_putAborted (j := e.g.first) hl (x.abort x.lanes 1)
  obtain ⟨u, hclose, hmem, -, -, htx⟩ := h.closeOuter (w := w) hserial (hcommit.trans happly) hl'
    ((congrArg Tx.serial hgroup).trans hserial)
  have hall : (x.abort x.lanes 1).aborted = x.lanes := by
    refine (or_and_not (x.lanes &&& x.inTx) x.aborted).trans ?_
    rw [haborted, ← hin]
    simp
  have hetx := htx.trans (congrArg Tx.close hgroup)
  refine ⟨u, _, (h.exec_txend hno hdepth hexcess howes hlate hfree).trans (congrArg _ hclose), fun l => ?_, ?_, ?_, ?_, fun l hl => ?_⟩
  · have hmask : (x.abort x.lanes 1).mask = x.lanes := by
      rw [Tx.mask, hall]
      exact BitVec.and_self
    rw [Exe.lane_ofNat]
    refine (congrArg (fun m : Mask => m.toNat % 2 ^ 128) ((congrArg Tx.mask hgroup).trans hmask)).trans (Nat.mod_eq_of_lt ?_)
    exact lt_of_lt_of_le x.lanes.isLt (by decide)
  · rw [hmem]
    simp
  · rw [hetx]; rfl
  · rw [hetx]; exact hall
  · rw [hetx]
    simp only [Tx.close, Tx.abort, setCauses_getD, laneIn_newly, ← hin, haborted]
    rw [if_pos (by simp [laneIn, show x.lanes.getLsbD l = true from hl])]

/-- Settles O25: a lone unit's transaction opens over its lanes, and its end validates the log and applies it. -/
theorem transactions : Obligations.Transactions := ⟨transactionsOpen, transactionsCommit, conflictsAbort⟩

end Sys2Proof.Machine
end

section
/-! Writes of a tenant's registers and signer keys: each is a branch of the register's write. -/

namespace Sys2Proof.Machine

open Sys2Proof

/-! ### Tables -/

/-- A table whose values are rewritten under their keys. -/
theorem Tbl.get?_map_entry {α β : Type} (f : Nat → α → β) (t : Tbl α) (i : Nat) :
    Tbl.get? (t.map (fun p => (p.1, f p.1 p.2))) i = (t.get? i).map (f i) := by
  induction t with
  | nil => rfl
  | cons p r ih =>
    obtain ⟨k, x⟩ := p
    by_cases h : k = i
    · subst h; simp [Tbl.get?]
    · simp [Tbl.get?, h, ih]

theorem Tbl.getD_map_entry {α : Type} (f : Nat → α → α) (t : Tbl α) (i : Nat) (d : α) (hd : f i d = d) :
    Tbl.getD (t.map (fun p => (p.1, f p.1 p.2))) i d = f i (t.getD i d) := by
  unfold Tbl.getD
  rw [Tbl.get?_map_entry]
  cases t.get? i <;> simp [hd]

section
variable {s : State}

@[simp] theorem tenant_setTenant (s : State) (t : Nat) (x : Tenant) : (s.setTenant t x).tenant t = x := by
  simp [State.tenant]

/-! ### Clusters that change hands -/

@[simp] theorem gainCluster_mem (t : Nat) (s : State) (c : Nat) : (gainCluster t s c).mem = s.mem := by
  unfold gainCluster
  dsimp only
  split
  · rfl
  · rfl

theorem gainClusters_mem (t : Nat) (cs : List Nat) (s : State) : (cs.foldl (gainCluster t) s).mem = s.mem := by
  induction cs generalizing s with
  | nil => rfl
  | cons c r ih => rw [List.foldl_cons, ih, gainCluster_mem]

/-- No other tenant's mask meets the value. -/
theorem others_any_false {t n : Nat} {f : Nat → Nat} (h : ∀ i ∈ others t, f i &&& n = 0) :
    (others t).any (fun i => f i &&& n != 0) = false := by
  rw [List.any_eq_false]
  intro i hi
  simp [h i hi]

theorem clmaskWrite_ok {t n : Nat} (hn : n < 2 ^ 40) (hother : ∀ i ∈ others t, (s.tenant i).clmask &&& n = 0)
    (hbusy : ∀ c ∈ (s.tenant t).clusters, Word.bit n c = false → clusterBusy s c = false) :
    ∃ u, clmaskWrite s t n = u ∧ (u.tenant t).clmask = n ∧ u.mem = s.mem := by
  have hlost : ((s.tenant t).clusters.filter (fun c => !Word.bit n c)).any (clusterBusy s) = false := by
    rw [List.any_eq_false]
    intro c hc
    obtain ⟨hmem, hbit⟩ := List.mem_filter.mp hc
    simp [hbusy c hmem (by simpa using hbit)]
  refine ⟨_, rfl, ?_⟩
  unfold clmaskWrite
  dsimp only
  rw [if_neg (by simp only [others_any_false hother, hlost, Bool.false_eq_true, or_false]; omega)]
  exact ⟨by rw [tenant_setTenant], gainClusters_mem ..⟩

/-! ### The mode -/

/-- Setting the gate of a tenant's queues. -/
def setGates (s : State) (t : Nat) (set : Bool) (qs : List Nat) : State :=
  qs.foldl (fun s q => s.setQueue ⟨t, q⟩ { s.queue ⟨t, q⟩ with gateSet := set }) s

@[simp] theorem setGates_tenants (s : State) (t : Nat) (set : Bool) (qs : List Nat) : (setGates s t set qs).tenants = s.tenants := by
  unfold setGates
  induction qs generalizing s with
  | nil => rfl
  | cons q r ih => rw [List.foldl_cons, ih]; rfl

theorem queue_setQueue (s : State) (t q q' : Nat) (x : Queue) :
    (s.setQueue ⟨t, q⟩ x).queue ⟨t, q'⟩ = if q' = q then x else s.queue ⟨t, q'⟩ := by
  simp only [State.queue, State.setQueue, Tbl.getD_set, Nat.add_left_cancel_iff]

theorem setGates_gateSet (s : State) (t : Nat) (set : Bool) (qs : List Nat) (q : Nat) :
    ((setGates s t set qs).queue ⟨t, q⟩).gateSet = if q ∈ qs then set else (s.queue ⟨t, q⟩).gateSet := by
  unfold setGates
  induction qs generalizing s with
  | nil => rfl
  | cons k r ih =>
    rw [List.foldl_cons, ih, queue_setQueue]
    by_cases hr : q ∈ r
    · simp [hr]
    · by_cases hk : q = k
      · subst hk; simp
      · simp [hr, hk]

theorem hasObjects_none {t : Nat} (h : ∀ k, k < 16 → (s.ctx t k).objs = []) : hasObjects s t = false := by
  rw [hasObjects, List.any_eq_false]
  intro k hk
  simp [h k (List.mem_range.mp hk)]

theorem modeWrite_ok {t n : Nat} (hn : n < 2 ^ 32) (hhi : Word.field n 31 14 = 0) (hmid : Word.field n 7 6 = 0)
    (hobj : ∀ k, k < 16 → (s.ctx t k).objs = []) : modeWrite s t n =
      let v := s.setTenant t { s.tenant t with mode := n }
      if Word.bit n 0 != Word.bit (s.tenant t).mode 0 then setGates v t (Word.bit n 0) (List.range 64) else v := by
  have hmod : n % 2 ^ 32 = n := Nat.mod_eq_of_lt hn
  unfold modeWrite
  dsimp only
  rw [hmod, if_neg (by simp [hhi, hmid, hasObjects_none hobj])]
  by_cases hm : (Word.bit n 0 != Word.bit (s.tenant t).mode 0) = true
  · rw [if_neg (by rw [hm]; decide), if_pos hm]
    rfl
  · rw [if_pos (by rw [Bool.not_eq_true] at hm; rw [hm]; rfl), if_neg hm]

/-! ### Creation and removal -/

theorem tenCtlWrite_ok {t n : Nat} (hlow : n % 2 ^ 31 = 0)
    (hctx : Word.bit n 31 = true ∨ ∀ k, k < 16 → (s.ctx t k).enable = false) : tenCtlWrite s t n =
      let v := s.setTenant t { s.tenant t with enable := Word.bit n 31 }
      if Word.bit n 31 && !(s.tenant t).enable then writeImage v t else v := by
  have hrange : Word.bit n 31 = true ∨ (List.range 16).any (fun k => (s.ctx t k).enable) = false := by
    refine hctx.imp id fun h => ?_
    rw [List.any_eq_false]
    intro k hk
    simp [h k (List.mem_range.mp hk)]
  unfold tenCtlWrite
  dsimp only
  rw [if_neg]
  rintro (hne | ⟨hoff, -, hany⟩)
  · exact hne hlow
  · rcases hrange with hon | hnone
    · simp [hon] at hoff
    · rw [hnone] at hany
      exact Bool.false_ne_true hany

/-- A tenant that is created has its image written. -/
theorem tenCtlWrite_create {t n : Nat} (hlow : n % 2 ^ 31 = 0) (hon : Word.bit n 31 = true) (hen : (s.tenant t).enable = false) :
    tenCtlWrite s t n = writeImage (s.setTenant t { s.tenant t with enable := true }) t := by
  rw [tenCtlWrite_ok hlow (.inl hon)]
  simp only [hon, hen, Bool.not_false, Bool.and_self, if_true]

/-! ### Windows and fault buffers -/

theorem winWrite_invalid {t m n : Nat} (hbit : Word.bit (n % 2 ^ 32) 31 = false) (hrsvd : Word.field (n % 2 ^ 32) 30 9 = 0) :
    winWrite s t m n = s.setTenant t { s.tenant t with wins := (s.tenant t).wins.set m (n % 2 ^ 32) } := by
  unfold winWrite
  generalize n % 2 ^ 32 = v at hbit hrsvd
  dsimp only
  rw [if_neg (by simp [hbit, hrsvd]), hbit, if_neg Bool.false_ne_true]

theorem cancelWrite_ok {t d k n : Nat} (hk : k < ((s.tenant t).bufs.getD d .reset).entries.length) :
    ∃ u, cancelWrite s t d k n = u ∧ u.mem = s.mem ∧
      (((u.tenant t).bufs.getD d .reset).entries[k]?).map FbEntry.cancel = some (Word.bit n 0) ∧
      ∀ j, j ≠ k → ((u.tenant t).bufs.getD d .reset).entries[j]? = ((s.tenant t).bufs.getD d .reset).entries[j]? := by
  refine ⟨_, rfl, ?_⟩
  unfold cancelWrite
  dsimp only
  rw [if_pos hk]
  refine ⟨rfl, ?_, fun j hj => ?_⟩
  · simp [hk]
  · simp [hj]

end

/-! ### The registers -/

section
variable {s : State} {t : Nat} {v : Word}

theorem exec_tenEnable (hopen : s.pkg.open_ = true) (ht : t < 16) : exec (.tenEnable t v) s = .next (tenCtlWrite s t v.toNat) := by
  have hx : exec (.tenEnable t v) s = execTenEnable t v s := rfl
  rw [hx, execTenEnable, if_pos ⟨hopen, ht⟩]

theorem exec_tenModeWrite (hopen : s.pkg.open_ = true) (ht : t < 16) : exec (.tenModeWrite t v) s = .next (modeWrite s t v.toNat) := by
  have hx : exec (.tenModeWrite t v) s = execTenModeWrite t v s := rfl
  rw [hx, execTenModeWrite, if_pos ⟨hopen, ht⟩]

theorem exec_fbcfgWrite (hopen : s.pkg.open_ = true) (ht : t < 16) : exec (.fbcfgWrite t v) s = .next (fbcfgSet s t v.toNat) := by
  have hx : exec (.fbcfgWrite t v) s = execFbcfgWrite t v s := rfl
  rw [hx, execFbcfgWrite, if_pos ⟨hopen, ht⟩]

theorem exec_tenConfigWrite (hopen : s.pkg.open_ = true) (ht : t < 16) (reg : TenConfig) : exec (.tenConfigWrite t reg v) s = .next (
    match reg with
    | .clmask => clmaskWrite s t v.toNat
    | .cemask => cemaskWrite s t v.toNat
    | .win n => if n < 16 then winWrite s t n v.toNat else s) := by
  have hx : exec (.tenConfigWrite t reg v) s = execTenConfigWrite t reg v s := rfl
  rw [hx]
  unfold execTenConfigWrite
  rw [if_neg (by simp [hopen]; omega)] <;> rfl

theorem exec_signerKey (hopen : s.pkg.open_ = true) (ht : t < 16) :
    exec (.signerKeyRegister t v) s = .next (signctlWrite s t v.toNat) ∧ exec (.signerKeyRemove t v) s = .next (signctlWrite s t v.toNat) := by
  have hx : exec (.signerKeyRegister t v) s = execSignerKeyRegister t v s := rfl
  have hy : exec (.signerKeyRemove t v) s = execSignerKeyRemove t v s := rfl
  rw [hx, hy, execSignerKeyRegister, execSignerKeyRemove, if_pos ⟨hopen, ht⟩]
  exact ⟨rfl, rfl⟩

theorem cemaskWrite_ok {n : Nat} (hn : n < 2 ^ 32) (hother : ∀ i ∈ others t, (s.tenant i).cemask &&& n = 0)
    (hfree : ∀ e ∈ (s.tenant t).engines, Word.bit n e = false → ∀ c ∈ s.commands, c.engine ≠ some e) :
    cemaskWrite s t n = s.setTenant t { s.tenant t with cemask := n } := by
  have hlost : ((s.tenant t).engines.filter (fun c => !Word.bit n c)).any (fun e => s.commands.any (fun c => c.engine == some e)) = false := by
    rw [List.any_eq_false]
    intro e he
    obtain ⟨hmem, hbit⟩ := List.mem_filter.mp he
    rw [Bool.not_eq_true, List.any_eq_false]
    intro c hc
    simpa using hfree e hmem (by simpa using hbit) c hc
  unfold cemaskWrite
  dsimp only
  rw [if_neg (by simp only [others_any_false hother, hlost, Bool.false_eq_true, or_false]; omega)]

end

theorem cemaskWrite_wide {s : State} {t n : Nat} (hn : 2 ^ 32 ≤ n) : cemaskWrite s t n = refuseTen s t (tenOff t 0x18) := by
  unfold cemaskWrite
  dsimp only
  rw [if_pos (.inl hn)]

theorem bit_of_div_zero {n i : Nat} (h : n / 2 ^ i = 0) : Word.bit n i = false := by
  rw [Word.bit, h]
  rfl

theorem fbcfgSet_ok {s : State} {t n : Nat} (hlo : 3 ≤ n) (hhi : n ≤ 8) (hbufs : ∀ b ∈ (s.tenant t).bufs, b.2.entries = []) :
    fbcfgSet s t n = s.setTenant t { s.tenant t with fbLog := n } := by
  unfold fbcfgSet
  dsimp only
  rw [if_neg]
  rintro (h | h | h)
  · omega
  · omega
  · obtain ⟨b, hb, hne⟩ := List.any_eq_true.mp h
    simp [hbufs b hb] at hne

theorem fbcfgSet_bad {s : State} {t n : Nat} (hout : n < 3 ∨ 8 < n) : fbcfgSet s t n = refuseTen s t (tenOff t 0x30) := by
  unfold fbcfgSet
  dsimp only
  rw [if_pos (hout.imp id .inl)]

theorem tenantRegisters : Claims.TenantRegisters := by
  unfold Claims.TenantRegisters
  intro s t v hopen ht x n
  refine ⟨fun hn hother hfree => ?_, fun hn => ?_, fun hn hother hbusy => ?_, fun m hm hm' hrsvd => ?_, fun hlow hon hen => ?_,
    fun hlow hon hen => ?_, fun hlow hoff hctx => ?_, fun hbit => ?_, fun hbit => ?_, fun hhi hn hmid hobj => ?_, ?_, fun hlo hhi hbufs => ?_,
    fun hout => ?_, fun d k hd hk => ?_⟩
  · rw [exec_tenConfigWrite hopen ht]
    exact congrArg _ (cemaskWrite_ok hn hother hfree)
  · rw [exec_tenConfigWrite hopen ht]
    exact congrArg _ (cemaskWrite_wide hn)
  · rw [exec_tenConfigWrite hopen ht]
    obtain ⟨u, hu, hmask, hmem⟩ := clmaskWrite_ok hn hother hbusy
    exact ⟨u, congrArg _ hu, hmask, hmem⟩
  · rw [exec_tenConfigWrite hopen ht]
    dsimp only
    rw [if_pos hm]
    exact congrArg _ (winWrite_invalid (bit_of_div_zero hm') hrsvd)
  · rw [exec_tenEnable hopen ht, tenCtlWrite_ok hlow (.inl hon)]
    dsimp only
    rw [show (s.tenant t).enable = true from hen, if_neg (by simp)]
    exact congrArg _ (congrArg (fun b => s.setTenant t { x with enable := b }) hon)
  · rw [exec_tenEnable hopen ht]
    exact congrArg _ (tenCtlWrite_create hlow hon hen)
  · rw [exec_tenEnable hopen ht, tenCtlWrite_ok hlow (.inr hctx)]
    dsimp only
    rw [show Word.bit v.toNat 31 = false from hoff]
    rfl
  · have hx : exec (.refusedClear (some t) v) s = execRefusedClear (some t) v s := rfl
    rw [hx, execRefusedClear, if_pos ⟨hopen, ht⟩, tenStatusWrite, if_pos hbit]
  · have hx : exec (.refusedClear none v) s = execRefusedClear none v s := rfl
    have hwindow : s.pkg.window = true := by
      simp only [Package.open_, decide_eq_true_eq] at hopen
      simp only [Package.window, Bool.or_eq_true, decide_eq_true_eq]
      exact .inl (by omega)
    rw [hx, execRefusedClear, pfStatusWrite, hwindow, hbit]
    rfl
  · rw [exec_tenModeWrite hopen ht, modeWrite_ok hn hhi hmid hobj]
    refine ⟨_, rfl, ?_, fun hsame => ?_, fun hset hwas q hq => ?_⟩
    · dsimp only
      split
      · exact (congrArg (fun ts : Tbl Tenant => ts.getD t .reset) (setGates_tenants ..)).trans (tenant_setTenant ..)
      · exact tenant_setTenant ..
    · dsimp only
      rw [if_neg (by simpa using hsame)]
      rfl
    · dsimp only
      rw [if_pos (by rw [show Word.bit v.toNat 0 = true from hset, show Word.bit (s.tenant t).mode 0 = false from hwas]; rfl),
        setGates_gateSet, if_pos (List.mem_range.mpr hq)]
      exact hset
  · have hx : exec (.assistpendClear t v) s = execAssistpendClear t v s := rfl
    rw [hx, execAssistpendClear, if_pos ⟨hopen, ht⟩]
    rfl
  · rw [exec_fbcfgWrite hopen ht]
    exact congrArg _ (fbcfgSet_ok hlo hhi hbufs)
  · rw [exec_fbcfgWrite hopen ht]
    exact congrArg _ (fbcfgSet_bad hout)
  · have hx : exec (.faultCancelWrite t d k v) s = execFaultCancelWrite t d k v s := rfl
    rw [execFaultCancelWrite, if_pos ⟨hopen, ht, hd⟩] at hx
    obtain ⟨u, hu, hall⟩ := cancelWrite_ok (n := v.toNat) hk
    exact ⟨u, hx.trans (congrArg _ hu), hall⟩

theorem signerKeys : Claims.SignerKeys := by
  unfold Claims.SignerKeys
  intro s t v hopen ht x n hhi hmid hlow hgo
  have hrsvd : (Word.field n 29 24 != 0 || Word.field n 15 9 != 0 || Word.field n 7 3 != 0) = false := by simp [hhi, hmid, hlow]
  obtain ⟨hreg, hrem⟩ := exec_signerKey (v := v) hopen ht
  rw [signctlWrite] at hreg hrem
  dsimp only at hreg hrem
  rw [show (Word.field v.toNat 29 24 != 0 || Word.field v.toNat 15 9 != 0 || Word.field v.toNat 7 3 != 0) = false from hrsvd,
    show Word.bit v.toNat 31 = true from hgo] at hreg hrem
  refine ⟨fun hen hidle => ⟨fun hkeep hspan => ?_, fun hdrop => ?_⟩, fun hen => ?_, fun i hno hlocks hfree hbusy => ?_⟩
  · rw [hreg, show Word.bit v.toNat 8 = false from hkeep, show (s.tenant t).enable = false from hen,
      show (s.tenant t).signBusy = none from hidle, show (s.tenant t).spanIn (s.tenant t).signAddr 2592 = true from hspan]
    rfl
  · rw [hrem, show Word.bit v.toNat 8 = true from hdrop, show (s.tenant t).enable = false from hen,
      show (s.tenant t).signBusy = none from hidle]
    rfl
  · rw [hreg, show (s.tenant t).enable = true from hen]
    rfl
  · have hx : exec (.signerKeyCopyDone t) s = execSignerKeyCopyDone t s := rfl
    unfold execSignerKeyCopyDone at hx
    dsimp only at hx
    rw [show (s.tenant t).signBusy = some i from hbusy] at hx
    dsimp only at hx
    rw [show s.blockedSpan none false ⟨0, (s.tenant t).signAddr⟩ 2592 = false from hfree, if_neg Bool.false_ne_true,
      State.readFor_plain hno hlocks] at hx
    refine ⟨_, hx, ?_, ?_, rfl⟩
    · rw [tenant_setTenant]
    · rw [tenant_setTenant]
      simp [x]

/-- Settles O50: each accepted value passes the checks of its register's write, and each refused one fails one. -/
theorem tenantRegistersAndKeys : Obligations.TenantRegistersAndKeys := ⟨tenantRegisters, signerKeys⟩

end Sys2Proof.Machine
end

section
/-! What reads and writes at a home slice leave alone: all but the memories and the slices. -/

namespace Sys2Proof.Machine

open Sys2Proof

/-- What every update of a loop keeps, the loop keeps. -/
theorem foldl_keeps {σ α β : Type} (P : σ → β) {f : σ → α → σ} (h : ∀ s x, P (f s x) = P s) (xs : List α) (s : σ) :
    P (xs.foldl f s) = P s := by
  induction xs generalizing s with
  | nil => rfl
  | cons x r ih => rw [List.foldl_cons, ih, h]

/-- The state beside what memory accesses touch: the memories, the exact entries and the slices. -/
def State.beside (s : State) : State := { s with mem := [], hostMem := [], peerMem := [], peerAcc := [], slices := [] }

section
variable (s : State)

theorem setMemOf_beside (tgt : Nat) (m : Memory) : (s.setMemOf tgt m).beside = s.beside := by
  unfold State.setMemOf
  split
  · rfl
  · split <;> rfl

theorem completeSpill_beside (i : Nat) : (s.completeSpill i).beside = s.beside := by
  unfold State.completeSpill
  dsimp only
  split
  · rfl
  · split <;> rfl

theorem finalizeLine_beside (pa : Nat) : (s.finalizeLine pa).beside = s.beside := by
  unfold State.finalizeLine
  dsimp only
  have hspill : (if s.spilling pa then s.completeSpill (sliceOf pa) else s).beside = s.beside := by
    split
    · exact completeSpill_beside s _
    · rfl
  generalize (if s.spilling pa then s.completeSpill (sliceOf pa) else s) = t at hspill
  rw [← hspill]
  split
  · rfl
  · split <;> rfl

theorem finalizeAt_beside (t : PTarget) (n : Nat) : (s.finalizeAt t n).beside = s.beside := by
  unfold State.finalizeAt
  split
  · exact foldl_keeps State.beside finalizeLine_beside _ s
  · split <;> rfl

theorem readPhys_beside (t : PTarget) (n : Nat) : (s.readPhys t n).2.beside = s.beside := finalizeAt_beside s t n

theorem writePhys_beside (t : PTarget) (bs : List Byte) : (s.writePhys t bs).beside = s.beside := by
  unfold State.writePhys
  dsimp only
  rw [setMemOf_beside, finalizeAt_beside]

theorem undoRecord_beside (r : PTarget) : (undoRecord s r).beside = s.beside := by
  have hread := readPhys_beside s r 32
  unfold undoRecord
  dsimp only
  split
  · rw [writePhys_beside, hread]
  · exact hread

theorem finalizeCtx_beside (t k : Nat) : (finalizeCtx s t k).beside = s.beside :=
  foldl_keeps State.beside (fun s _ => foldl_keeps State.beside finalizeLine_beside _ s) _ s

/-- The restoration of a serial transaction changes memory and its own records alone. -/
theorem undoAll_beside : ∃ x, (undoAll s).beside = { s.beside with serial := x } := by
  have hundo : (s.serial.undo.foldl undoRecord s).beside = s.beside := foldl_keeps State.beside undoRecord_beside _ s
  have hlocks (ls : List SerialLock) (t : State) : (ls.foldl (fun s l => s.writePhys ⟨l.tgt, l.pa⟩ l.prior) t).beside = t.beside :=
    foldl_keeps State.beside (fun s l => writePhys_beside s _ _) _ t
  have hboth := (hlocks ((s.serial.undo.foldl undoRecord s).serial.locks.filter (fun l => l.wrote && l.tgt != 0))
    (s.serial.undo.foldl undoRecord s)).trans hundo
  exact ⟨(undoAll s).serial, congrArg (fun u : State => { u with serial := (undoAll s).serial }) hboth⟩

end

end Sys2Proof.Machine
end

section
/-! Writes of a context's registers, and what a RESET of a context leaves. -/

namespace Sys2Proof.Machine

open Sys2Proof

section
variable {s : State} {t k : Nat}

@[simp] theorem beside_packets (s : State) : s.beside.packets = s.packets := rfl
@[simp] theorem beside_queues (s : State) : s.beside.queues = s.queues := rfl

@[simp] theorem ctx_setCtx (s : State) (t k : Nat) (x : Ctx) : (s.setCtx t k x).ctx t k = x := by
  simp [State.ctx]

/-! ### A RESET -/

/-- A state without the packets of a context. -/
def withoutPackets (t k : Nat) (s : State) : State := { s with packets := s.packets.filter (fun p => !(p.q.owner == t && p.ctx == k)) }

theorem withoutPackets_beside (t k : Nat) (s : State) : (withoutPackets t k s).beside = withoutPackets t k s.beside := rfl

/-- A queue that is disabled by a reset. -/
def Queue.off (x : Queue) : Queue := { x with enable := false, state := .idle, blocker := none, walks := [], parsed := false, checked := false }

def queuesOff (s : State) (qs : List QId) : State := qs.foldl (fun s q => s.setQueue q (s.queue q).off) s

/-- Once the locks are gone, the commands own what they were to own later. -/
def resetOwned (v : State) : State := if v.serial.locks.isEmpty then v.ownLater else v

/-- The jobs of relayout that a reset leaves: the stopped ones with a tile under way. -/
def resetRelayouts (v : State) (t k : Nat) : State :=
  let v := stopRelayouts v t k
  { v with relayouts := v.relayouts.filter (fun r => !(r.tenant == t && r.ctx == k && r.active.isEmpty)) }

def resetCtx (v : State) (t k : Nat) : State :=
  v.setCtx t k { v.ctx t k with state := .disabled, enable := false, objs := [], fatal := none, preempt := none, energy := [], revoking := [] }

/-- What a reset does to the context once its work is dropped. -/
def resetEnd (s : State) (t k : Nat) : State :=
  let s := if s.serial.locks.isEmpty then s.ownLater else s
  let s := stopRelayouts s t k
  let s := { s with relayouts := s.relayouts.filter (fun r => !(r.tenant == t && r.ctx == k && r.active.isEmpty)) }
  let c := s.ctx t k
  s.setCtx t k { c with state := .disabled, enable := false, objs := [], fatal := none, preempt := none, energy := [], revoking := [] }

/-- A reset from the state where the writes of a serial transaction of the context are undone. -/
def resetFrom (w : State) (t k : Nat) : State :=
  let s := finalizeCtx w t k
  let s := withoutPackets t k s
  let s := queuesOff s (s.queuesOf t k)
  let s := dropWork s t k
  resetEnd s t k

theorem contextReset_from (s : State) (t k : Nat) : ∃ w, (w = s ∨ w = undoAll s) ∧ contextReset s t k = resetFrom w t k := by
  unfold contextReset resetFrom queuesOff Queue.off withoutPackets resetEnd
  split
  · split
    · exact ⟨undoAll s, .inr rfl, by with_reducible rfl⟩
    · exact ⟨s, .inl rfl, by with_reducible rfl⟩
  · exact ⟨s, .inl rfl, by with_reducible rfl⟩

/-- What `ownLater` keeps, the end of a reset keeps, where a relayout and the context do not matter. -/
theorem resetEnd_keeps (P : State → Prop) (hown : P s → P s.ownLater) (hrel : ∀ v r, P v → P { v with relayouts := r })
    (hctx : ∀ v t k x, P v → P (State.setCtx v t k x)) (h : P s) : P (resetEnd s t k) := by
  refine hctx _ _ _ _ (hrel _ _ (hrel _ _ ?_))
  split
  · exact hown h
  · exact h

theorem resetEnd_ctx (s : State) (t k : Nat) : ((resetEnd s t k).ctx t k).state = .disabled ∧ ((resetEnd s t k).ctx t k).enable = false ∧
    ((resetEnd s t k).ctx t k).objs = [] ∧ ((resetEnd s t k).ctx t k).fatal = none ∧ ((resetEnd s t k).ctx t k).preempt = none := by
  unfold resetEnd
  dsimp only
  rw [ctx_setCtx]
  exact ⟨rfl, rfl, rfl, rfl, rfl⟩

theorem queuesOff_keeps {β : Type} (P : State → β) (h : ∀ s q x, P (State.setQueue s q x) = P s) (s : State) (qs : List QId) :
    P (queuesOff s qs) = P s := foldl_keeps P (fun s q => h s q _) qs s

theorem queuesOff_enable (s : State) (qs : List QId) (t q : Nat) (hq : ∀ x ∈ qs, x.owner = t) :
    ((queuesOff s qs).queue ⟨t, q⟩).enable = if ⟨t, q⟩ ∈ qs then false else (s.queue ⟨t, q⟩).enable := by
  unfold queuesOff
  induction qs generalizing s with
  | nil => simp
  | cons x r ih =>
    obtain rfl : x.owner = t := hq x (List.mem_cons_self ..)
    obtain ⟨t, k⟩ := x
    rw [List.foldl_cons, ih _ fun y hy => hq y (List.mem_cons_of_mem _ hy), queue_setQueue]
    by_cases hr : (⟨t, q⟩ : QId) ∈ r
    · simp [hr]
    · by_cases hk : q = k
      · subst hk; simp [Queue.off]
      · simp [hr, hk]

/-- R92: what a RESET leaves of a context. -/
structure ContextGone (s u : State) (t k : Nat) : Prop where
  launches : ∀ l ∈ u.launches, ¬ (l.tenant = t ∧ l.ctx = k)
  commands : ∀ c ∈ u.commands, ¬ (c.tenant = t ∧ c.ctx = k)
  replays  : ∀ r ∈ u.replays, ¬ (r.tenant = t ∧ r.ctx = k)
  packets  : u.packets = s.packets.filter (fun p => !(p.q.owner == t && p.ctx == k))
  xlats    : ∀ y ∈ u.xlats, ¬ (y.tenant = t ∧ y.ctx = k)
  queues   : ∀ q, q < 64 → (s.queue ⟨t, q⟩).enable = true → (s.queue ⟨t, q⟩).ctx = k → (u.queue ⟨t, q⟩).enable = false
  ctx      : (u.ctx t k).state = .disabled ∧ (u.ctx t k).enable = false ∧ (u.ctx t k).objs = [] ∧ (u.ctx t k).fatal = none ∧
    (u.ctx t k).preempt = none

theorem dropWork_launches (v : State) : ∀ l ∈ (dropWork v t k).launches, ¬ (l.tenant = t ∧ l.ctx = k) := by
  rintro l hl ⟨ht, hk⟩
  obtain ⟨hmem, hkeep⟩ := List.mem_filter.mp hl
  have hgone : l.id ∈ (v.launches.filter (fun l => l.tenant == t && l.ctx == k)).map Launch.id :=
    List.mem_map_of_mem (List.mem_filter.mpr ⟨hmem, by simp [ht, hk]⟩)
  simp only [Bool.not_eq_true', List.contains_eq_mem, decide_eq_false_iff_not] at hkeep
  exact hkeep hgone

/-- What a filter on tenant and context keeps is of another. -/
theorem not_of_mem_filter {α : Type} {xs : List α} {x : α} {f g : α → Nat} (h : x ∈ xs.filter (fun x => !(f x == t && g x == k))) :
    ¬ (f x = t ∧ g x = k) := by
  have hx := (List.mem_filter.mp h).2
  rintro ⟨hf, hg⟩
  simp [hf, hg] at hx

theorem contextReset_gone (s : State) (t k : Nat) : ContextGone s (contextReset s t k) t k := by
  obtain ⟨w, hw, heq⟩ := contextReset_from s t k
  obtain ⟨x, hx⟩ : ∃ x, w.beside = { s.beside with serial := x } := by
    rcases hw with rfl | rfl
    · exact ⟨w.serial, rfl⟩
    · exact undoAll_beside s
  rw [heq]
  have hfin := (finalizeCtx_beside w t k).trans hx
  unfold resetFrom
  generalize finalizeCtx w t k = f at hfin
  have hpackets : f.packets = s.packets := (beside_packets _).symm.trans ((congrArg State.packets hfin :))
  have hqueues : f.queues = s.queues := (beside_queues _).symm.trans ((congrArg State.queues hfin :))
  have hqueue (q : QId) : (withoutPackets t k f).queue q = s.queue q := by simp only [State.queue, withoutPackets, hqueues]

  have hqs : (withoutPackets t k f).queuesOf t k = s.queuesOf t k := by simp only [State.queuesOf, hqueue]
  dsimp only
  generalize hu : queuesOff (withoutPackets t k f) ((withoutPackets t k f).queuesOf t k) = u
  constructor
  case launches =>
    exact resetEnd_keeps (fun w => ∀ l ∈ w.launches, ¬ (l.tenant = t ∧ l.ctx = k)) id (fun _ _ => id) (fun _ _ _ _ => id) (dropWork_launches u)
  case commands =>
    refine resetEnd_keeps (fun w => ∀ c ∈ w.commands, ¬ (c.tenant = t ∧ c.ctx = k)) (fun h c hc => ?_) (fun _ _ => id)
      (fun _ _ _ _ => id) fun c hc => not_of_mem_filter hc
    obtain ⟨d, hd, rfl⟩ := List.mem_map.mp hc
    exact h d hd
  case replays =>
    exact resetEnd_keeps (fun w => ∀ r ∈ w.replays, ¬ (r.tenant = t ∧ r.ctx = k)) id (fun _ _ => id) (fun _ _ _ _ => id)
      fun c hc => not_of_mem_filter hc
  case xlats =>
    exact resetEnd_keeps (fun w => ∀ y ∈ w.xlats, ¬ (y.tenant = t ∧ y.ctx = k)) id (fun _ _ => id) (fun _ _ _ _ => id)
      fun c hc => not_of_mem_filter hc
  case packets =>
    refine resetEnd_keeps (fun w => w.packets = s.packets.filter (fun p => !(p.q.owner == t && p.ctx == k))) id (fun _ _ => id)
      (fun _ _ _ _ => id) ?_
    rw [← hpackets, ← hu]
    exact queuesOff_keeps State.packets (fun _ _ _ => rfl) (withoutPackets t k f) _
  case queues =>
    intro q hq hen hctx
    have hmem : (⟨t, q⟩ : QId) ∈ s.queuesOf t k := by
      refine List.mem_filter.mpr ⟨List.mem_map.mpr ⟨q, List.mem_range.mpr hq, rfl⟩, ?_⟩
      simp [hen, hctx]
    refine resetEnd_keeps (fun w => (w.queue ⟨t, q⟩).enable = false) id (fun _ _ => id) (fun _ _ _ _ => id) ?_
    have hoff : (u.queue ⟨t, q⟩).enable = false := by
      rw [← hu, hqs, queuesOff_enable _ _ t q fun x hx => ?_, if_pos hmem]
      obtain ⟨i, -, rfl⟩ := List.mem_map.mp (List.mem_filter.mp hx).1
      rfl
    exact hoff
  case ctx => exact resetEnd_ctx _ t k


/-! ### CTX.CTL -/

section
variable (s : State) (t k n : Nat)

theorem ctxCtlWrite_on (h : n % 2 ^ 24 = 0) (h30 : Word.bit n 30 = false) (h31 : Word.bit n 31 = true) (hoff : (s.ctx t k).enable = false)
    (ht : (s.tenant t).enable = true) : ctxCtlWrite s t k n =
      s.setCtx t k { s.ctx t k with enable := true, fatalVec := Word.field n 29 24, state := .running } := by
  unfold ctxCtlWrite
  rw [if_neg (not_not_intro h)]
  simp [h30, h31, hoff, ht]

theorem ctxCtlWrite_off (h : n % 2 ^ 24 = 0) (h30 : Word.bit n 30 = false) (h31 : Word.bit n 31 = false) (hon : (s.ctx t k).enable = true)
    (hrun : (s.ctx t k).state = .running) (hfree : ctxInUse s t k = false) : ctxCtlWrite s t k n =
      s.setCtx t k { s.ctx t k with enable := false, fatalVec := Word.field n 29 24, state := .disabled } := by
  unfold ctxCtlWrite
  rw [if_neg (not_not_intro h)]
  simp [h30, h31, hon, hrun, hfree]

theorem ctxCtlWrite_reserved (h : n % 2 ^ 24 ≠ 0) : ctxCtlWrite s t k n = refuseTen s t (ctxOff k 0) := if_pos h

theorem ctxCtlWrite_reset (h : n % 2 ^ 24 = 0) (h30 : Word.bit n 30 = true) (hst : (s.ctx t k).state = .fatal ∨ (s.ctx t k).state = .preempted) :
    ctxCtlWrite s t k n = (contextReset s t k).setCtx t k { (contextReset s t k).ctx t k with fatalVec := Word.field n 29 24 } := by
  unfold ctxCtlWrite
  rw [if_neg (not_not_intro h), if_pos ⟨h30, hst⟩]

end

/-! ### CTX.INVAL -/

section
variable (s : State) (t k n : Nat)

/-- R150: what a CTX.INVAL that is not refused leaves. -/
theorem invalWrite_done (hfree : (s.ctx t k).invalBusy = false) (hhi : Word.field n 63 57 = 0) (hlo : Word.field n 15 3 = 0)
    (hsize : Word.field n 2 1 ≠ 3 ∨ Word.bit n 0 = true) :
    (invalWrite s t k n).ctx t k = { s.ctx t k with inval := n, invalBusy := true, invalFrom := s.nextId } ∧
    (invalWrite s t k n).mem = s.mem ∧
    (∀ c, ((invalWrite s t k n).core c).tlb = (s.core c).tlb.filter (fun e => !invalHits n t k e)) ∧
    (∀ c, ((invalWrite s t k n).cluster c).tlb = (s.cluster c).tlb.filter (fun e => !invalHits n t k e)) ∧
    (∀ c, ((invalWrite s t k n).cluster c).upper = (s.cluster c).upper.filter (fun e => !invalUpper n t k e)) := by
  have hgo : ¬ ((s.ctx t k).invalBusy ∨ Word.field n 63 57 ≠ 0 ∨ Word.field n 15 3 ≠ 0 ∨ (Word.field n 2 1 = 3 ∧ !Word.bit n 0)) := by
    simp only [hfree, hhi, hlo, ne_eq, not_true_eq_false, false_or, Bool.false_eq_true]
    rintro ⟨h3, h0⟩
    rcases hsize with h | h
    · exact h h3
    · simp [h] at h0
  unfold invalWrite
  dsimp only
  rw [if_neg hgo]
  have hcore (c : Nat) := Tbl.getD_map_entry (fun _ (x : Core) => { x with tlb := x.tlb.filter (fun e => !invalHits n t k e) }) s.cores c .reset rfl
  have hcluster (c : Nat) := Tbl.getD_map_entry (fun _ (x : Cluster) => { x with
    tlb := x.tlb.filter (fun e => !invalHits n t k e), upper := x.upper.filter (fun u => !invalUpper n t k u) }) s.clusters c .reset rfl
  refine ⟨ctx_setCtx s t k _, rfl, fun c => ?_, fun c => ?_, fun c => ?_⟩
  · exact congrArg Core.tlb (hcore c)
  · exact congrArg Cluster.tlb (hcluster c)
  · exact congrArg Cluster.upper (hcluster c)

theorem invalWrite_busy (h : (s.ctx t k).invalBusy = true) : invalWrite s t k n = refuseTen s t (ctxOff k 0x48) := if_pos (.inl h)

end

end

section
variable (s : State) (t k n : Nat)

theorem enbudgetSet_done (h : (s.ctx t k).state ≠ .running ∨ n % 2 ^ 32 = (s.ctx t k).enBudget) : enbudgetSet s t k n =
    s.setCtx t k { s.ctx t k with enUnlimited := Word.bit n 63, enBudget := n % 2 ^ 32 } := by
  refine if_neg ?_
  rintro ⟨hrun, hne⟩
  exact h.elim (absurd hrun) hne

theorem enrateSet_done (h : ((List.range 16).map (fun i => if i = k then n % 2 ^ 32 else (s.ctx t i).enRate % 2 ^ 32)).sum ≤ (s.tenant t).enAllow) :
    enrateSet s t k n = s.setCtx t k { s.ctx t k with enRate := n } := by
  unfold enrateSet
  dsimp only
  rw [if_neg (Nat.not_lt.mpr h)]

theorem enrateSet_refused (h : (s.tenant t).enAllow < ((List.range 16).map (fun i => if i = k then n % 2 ^ 32 else (s.ctx t i).enRate % 2 ^ 32)).sum) :
    enrateSet s t k n = refuseTen s t (ctxOff k 0x78) := by
  unfold enrateSet
  dsimp only
  rw [if_pos h]

theorem hitWrite_clears (h : Word.bit n 0 = true) : hitWrite s t k n = s.setCtx t k { s.ctx t k with dbgHit := false } := if_pos h

end

section
variable {s : State} {t k : Nat} (v : Word) (hopen : s.pkg.open_ = true) (ht : t < 16) (hk : k < 16)
include hopen ht hk

theorem exec_ctxEnable : exec (.ctxEnable t k v) s = .next (ctxCtlWrite s t k v.toNat) := by
  have hx : exec (.ctxEnable t k v) s = execCtxEnable t k v s := rfl
  rw [hx, execCtxEnable, if_pos ⟨hopen, ht, hk⟩]

theorem exec_ctxReset : exec (.ctxReset t k v) s = .next (ctxCtlWrite s t k v.toNat) := by
  have hx : exec (.ctxReset t k v) s = execCtxReset t k v s := rfl
  rw [hx, execCtxReset, if_pos ⟨hopen, ht, hk⟩]

theorem exec_ctxInval : exec (.ctxInval t k v) s = .next (invalWrite s t k v.toNat) := by
  have hx : exec (.ctxInval t k v) s = execCtxInval t k v s := rfl
  rw [hx, execCtxInval, if_pos ⟨hopen, ht, hk⟩]

theorem exec_enbudgetWrite : exec (.enbudgetWrite t k v) s = .next (enbudgetSet s t k v.toNat) := by
  have hx : exec (.enbudgetWrite t k v) s = execEnbudgetWrite t k v s := rfl
  rw [hx, execEnbudgetWrite, if_pos ⟨hopen, ht, hk⟩]

theorem exec_enrateWrite : exec (.enrateWrite t k v) s = .next (enrateSet s t k v.toNat) := by
  have hx : exec (.enrateWrite t k v) s = execEnrateWrite t k v s := rfl
  rw [hx, execEnrateWrite, if_pos ⟨hopen, ht, hk⟩]

theorem exec_dbgHitClear : exec (.dbgHitClear t k v) s = .next (hitWrite s t k v.toNat) := by
  have hx : exec (.dbgHitClear t k v) s = execDbgHitClear t k v s := rfl
  rw [hx, execDbgHitClear, if_pos ⟨hopen, ht, hk⟩]

end

/-- Settles O52, register by register; the RESET's clauses are `contextReset_gone`. -/
theorem contextRegisters : Obligations.ContextRegisters := by
  intro s t k v hopen ht hk
  have henable := exec_ctxEnable v hopen ht hk
  have hreset := exec_ctxReset v hopen ht hk
  have hinval := exec_ctxInval v hopen ht hk
  have hbudget := exec_enbudgetWrite v hopen ht hk
  have hrate := exec_enrateWrite v hopen ht hk
  have hhit := exec_dbgHitClear v hopen ht hk
  have gone := contextReset_gone s t k
  refine ⟨?_, ?_, ?_, ?_, ?_, ?_, ?_, ⟨?_, ?_⟩, ?_, ?_⟩
  · intro h h30 h31 hoff hten
    exact henable.trans (congrArg _ (ctxCtlWrite_on s t k _ h h30 h31 hoff hten))
  · intro h h30 h31 hon hrun hfree
    exact henable.trans (congrArg _ (ctxCtlWrite_off s t k _ h h30 h31 hon hrun hfree))
  · intro h
    exact henable.trans (congrArg _ (ctxCtlWrite_reserved s t k _ h))
  · intro h h30 hst
    rw [ctxCtlWrite_reset s t k _ h h30 hst] at hreset
    generalize contextReset s t k = u at gone hreset
    obtain ⟨hstate, hen, hobjs, hfatal, hpre⟩ := gone.ctx
    refine ⟨_, hreset, ?_, ?_, ?_, ?_, ?_, ?_, gone.launches, gone.commands,
      gone.replays, fun p hp => ?_, fun p hp hother => ?_, gone.xlats, gone.queues⟩
    · rw [ctx_setCtx]; exact hstate
    · rw [ctx_setCtx]; exact hen
    · rw [ctx_setCtx]; exact hobjs
    · rw [ctx_setCtx]; exact hfatal
    · rw [ctx_setCtx]; exact hpre
    · rw [ctx_setCtx]
    · refine not_of_mem_filter (f := fun p : Packet => p.q.owner) (g := Packet.ctx) (xs := s.packets) ?_
      exact gone.packets ▸ hp
    · refine gone.packets.symm ▸ List.mem_filter.mpr ⟨hp, ?_⟩
      simpa using not_and_or.mp hother
  · intro hfree hhi hlo hsize
    exact ⟨_, hinval, invalWrite_done s t k _ hfree hhi hlo hsize⟩
  · intro hbusy
    exact hinval.trans (congrArg _ (invalWrite_busy s t k _ hbusy))
  · intro h
    exact hbudget.trans (congrArg _ (enbudgetSet_done s t k _ h))
  · intro h
    exact hrate.trans (congrArg _ (enrateSet_done s t k _ h))
  · intro h
    exact hrate.trans (congrArg _ (enrateSet_refused s t k _ h))
  · have hx : exec .energyReplenish s = execEnergyReplenish s := rfl
    refine ⟨_, hx, rfl, fun y hy => ?_⟩
    have hmap := Tbl.get?_map_entry (fun _ (x : Ctx) =>
      { x with enBudget := min (x.enBudget + x.enRate % 2 ^ 32) (x.enRate / 2 ^ 32) }) s.ctxs (16 * t + k)
    rw [hy] at hmap
    exact congrArg Ctx.enBudget (congrArg (Option.getD · .reset) hmap)
  · intro h
    exact hhit.trans (congrArg _ (hitWrite_clears s t k _ h))

end Sys2Proof.Machine
end

section
/-! Bring-up, resets and recovery (O48). A tenant's reset keeps the tenants' registers through all that it finishes and drops. -/

namespace Sys2Proof.Machine

open Sys2Proof

/-! ### What keeps the tenants -/

theorem tenants_of_beside {s u : State} (h : u.beside = s.beside) : u.tenants = s.tenants := by
  have := congrArg State.tenants h
  exact this

theorem tenant_of_tenants {s u : State} (h : u.tenants = s.tenants) (n : Nat) : u.tenant n = s.tenant n := by rw [State.tenant, h, State.tenant]
theorem ctx_of_ctxs {s u : State} (h : u.ctxs = s.ctxs) (n k : Nat) : u.ctx n k = s.ctx n k := by rw [State.ctx, h, State.ctx]
theorem queue_of_queues {s u : State} (h : u.queues = s.queues) (q : QId) : u.queue q = s.queue q := by rw [State.queue, h, State.queue]

theorem tables_of_beside {s u : State} {x : Serial} (h : u.beside = { s.beside with serial := x }) : u.tenants = s.tenants ∧ u.ctxs = s.ctxs := by
  have ht := congrArg State.tenants h
  have hc := congrArg State.ctxs h
  exact ⟨ht, hc⟩

section
variable (s : State)

theorem readFor_tenants (me : Option GroupRef) (t : PTarget) (n : Nat) : (s.readFor me t n).2.tenants = s.tenants :=
  tenants_of_beside (readPhys_beside s t n)

theorem writePhys_tenants (t : PTarget) (bs : List Byte) : (s.writePhys t bs).tenants = s.tenants :=
  tenants_of_beside (writePhys_beside s t bs)

theorem atomicAt_tenants (t : PTarget) (aop rm : Nat) (signed ftz : Bool) (v c : Nat) :
    (s.atomicAt t aop rm signed ftz v c).2.tenants = s.tenants :=
  tenants_of_beside ((setMemOf_beside _ t.tgt _).trans (readPhys_beside s t _))

theorem addCounter_tenants (t : PTarget) (inc : Nat) : (s.addCounter t inc).tenants = s.tenants := by
  unfold State.addCounter State.atomicSeen
  dsimp only
  split
  · exact atomicAt_tenants s t 8 0 false false inc 0
  · exact atomicAt_tenants s t 8 0 false false inc 0

theorem setEntry_tenants (t : PTarget) (bit v : Nat) : (setEntry s t bit v).tenants = s.tenants :=
  (atomicAt_tenants _ t 10 0 false false _ 0).trans (atomicAt_tenants s t 9 0 false false _ 0)

theorem readSpan_tenants (ps : List ((Nat × Nat) × PTarget)) (va n : Nat) : (readSpan s ps va n).2.tenants = s.tenants := by
  refine foldl_keeps (fun acc : List Byte × State => acc.2.tenants) (fun acc i => ?_) _ ([], s)
  exact readFor_tenants acc.2 none _ 1

theorem writeSpan_tenants (ps : List ((Nat × Nat) × PTarget)) (va : Nat) (bs : List Byte) : (writeSpan s ps va bs).tenants = s.tenants :=
  foldl_keeps State.tenants (fun s _ => writePhys_tenants s _ _) _ s

theorem copyTile_tenants (r : Relayout) (a : TileConv) : (copyTile s r a).tenants = s.tenants :=
  foldl_keeps State.tenants (fun s u => by
    refine (writeSpan_tenants _ _ _ _).trans ((readSpan_tenants _ _ _ _).trans ?_)
    exact readSpan_tenants s _ _ _) _ s

theorem undoAll_tenants : (undoAll s).tenants = s.tenants := by
  obtain ⟨x, hx⟩ := undoAll_beside s
  have := congrArg State.tenants hx
  exact this

theorem putAborted_tenants (launch j : Nat) (x : Tx) : (putAborted s launch j x).tenants = s.tenants := by
  have hgroup (g : GroupSt) : (s.setGroup launch j g).tenants = s.tenants := by
    unfold State.setGroup
    split <;> rfl
  unfold putAborted
  dsimp only
  split
  · exact hgroup _
  · exact hgroup _

theorem abortLanes_tenants (launch j : Nat) (lanes : Mask) (cause : Nat) : (abortLanes s launch j lanes cause).tenants = s.tenants := by
  unfold abortLanes
  dsimp only
  split
  · rfl
  · split
    · rw [putAborted_tenants]
      split
      · exact undoAll_tenants s
      · rfl
    · exact putAborted_tenants s _ _ _

theorem abortTile_tenants (r : Relayout) (t : Nat) : (abortTile s r t).tenants = s.tenants :=
  foldl_keeps State.tenants (fun s l => foldl_keeps State.tenants (fun s g => by
    dsimp only
    split
    · rfl
    · exact abortLanes_tenants s _ _ _ _) _ s) _ s

theorem enterFatal_tenants (t k cause detail : Nat) (w : FaultAt) : (enterFatal s t k cause detail w).tenants = s.tenants := by
  unfold enterFatal
  dsimp only
  split
  · rfl
  · split
    · rfl
    · refine (foldl_keeps State.tenants (fun s q => ?_) _ _).trans ?_
      · split <;> rfl
      · rfl

theorem Relayout.fail_tenants (r : Relayout) (c : Code) (va : Nat) : (r.fail s c va).tenants = s.tenants :=
  enterFatal_tenants _ _ _ _ _ _

theorem Relayout.finish_tenants (r : Relayout) : (r.finish s).tenants = s.tenants := by
  unfold Relayout.finish
  dsimp only
  split
  · rfl
  · split
    · exact r.fail_tenants s _ _
    · refine (addCounter_tenants _ _ _).trans ?_
      exact (writePhys_tenants _ _ _).trans ((writePhys_tenants _ _ _).trans (writePhys_tenants _ _ _))

theorem Relayout.tileDone_tenants (r : Relayout) (a : TileConv) : (r.tileDone a s).tenants = s.tenants := by
  have hdone : (abortTile (setEntry (copyTile s r a) a.entry (mapPlace r.map a.tile).2 2) r a.tile).tenants = s.tenants := by
    rw [abortTile_tenants, setEntry_tenants, copyTile_tenants]
  unfold Relayout.tileDone
  dsimp only
  generalize abortTile (setEntry (copyTile s r a) a.entry (mapPlace r.map a.tile).2 2) r a.tile = u at hdone
  split
  · split
    · exact hdone
    · exact hdone
  · split
    · exact (Relayout.finish_tenants _ _).trans hdone
    · exact hdone

theorem finishTiles_tenants (t : Nat) : (finishTiles s t).tenants = s.tenants :=
  foldl_keeps State.tenants (fun s r => foldl_keeps State.tenants (fun s a => by
    split
    · exact Relayout.tileDone_tenants s _ a
    · rfl) _ s) _ s

theorem ctx_setCtx_ne (t k j : Nat) (x : Ctx) (h : j ≠ k) : (s.setCtx t k x).ctx t j = s.ctx t j := by
  simp [State.ctx, h]

/-- What the tables of tenants and contexts hold after a context's reset, but for that context, is what they held. -/
theorem contextReset_others (t k : Nat) :
    (contextReset s t k).tenants = s.tenants ∧ ∀ j, j ≠ k → (contextReset s t k).ctx t j = s.ctx t j := by
  obtain ⟨w, hw, heq⟩ := contextReset_from s t k
  obtain ⟨x, hx⟩ : ∃ x, w.beside = { s.beside with serial := x } := by
    rcases hw with rfl | rfl
    · exact ⟨w.serial, rfl⟩
    · exact undoAll_beside s
  have hfin := (finalizeCtx_beside w t k).trans hx
  obtain ⟨htenants, hctxs⟩ := tables_of_beside hfin
  rw [heq]
  unfold resetFrom
  dsimp only
  generalize finalizeCtx w t k = f at htenants hctxs
  have hut := (queuesOff_keeps State.tenants (fun _ _ _ => rfl) (withoutPackets t k f) ((withoutPackets t k f).queuesOf t k)).trans htenants
  have huc := (queuesOff_keeps State.ctxs (fun _ _ _ => rfl) (withoutPackets t k f) ((withoutPackets t k f).queuesOf t k)).trans hctxs
  generalize queuesOff (withoutPackets t k f) ((withoutPackets t k f).queuesOf t k) = u at hut huc ⊢
  refine ⟨resetEnd_keeps (fun u => u.tenants = s.tenants) id (fun _ _ => id) (fun _ _ _ _ => id) hut, fun j hj => ?_⟩
  unfold resetEnd
  dsimp only
  rw [ctx_setCtx_ne _ t k j _ hj]
  have hd : (dropWork u t k).ctx t j = s.ctx t j := ctx_of_ctxs (u := dropWork u t k) huc t j
  generalize dropWork u t k = d at hd
  split
  · exact hd
  · exact hd

end

/-! ### A tenant's reset -/

/-- What one update sets and no other update undoes holds after a loop that makes it. -/
theorem foldl_establishes {σ α : Type} (Q : σ → Prop) {f : σ → α → σ} {a : α} (hset : ∀ s, Q (f s a)) (hkeep : ∀ s b, Q s → Q (f s b))
    {xs : List α} (h : a ∈ xs) (s : σ) : Q (xs.foldl f s) := by
  induction xs generalizing s with
  | nil => cases h
  | cons x r ih =>
    rw [List.foldl_cons]
    rcases List.mem_cons.mp h with rfl | h
    · exact List.foldlRecOn r f (hset s) fun s hs b _ => hkeep s b hs
    · exact ih h _

section
variable (s : State) (n : Nat)

/-- A tenant's state once its relayouts and contexts are gone. -/
def tenantDropped (s : State) (n : Nat) : State :=
  let s := (List.range 16).foldl (fun s k => stopRelayouts s n k) (discardExact s n)
  (List.range 16).foldl (fun s k => contextReset s n k) (finishTiles s n)

theorem tenantDropped_tenants : (tenantDropped s n).tenants = s.tenants := by
  unfold tenantDropped
  dsimp only
  rw [foldl_keeps State.tenants (fun s k => (contextReset_others s n k).1), finishTiles_tenants,
    foldl_keeps State.tenants (f := fun s k => stopRelayouts s n k) (fun _ _ => rfl)]
  rfl

theorem tenantDropped_ctx (k : Nat) (h : k < 16) : ((tenantDropped s n).ctx n k).state = .disabled ∧
    ((tenantDropped s n).ctx n k).enable = false ∧ ((tenantDropped s n).ctx n k).objs = [] := by
  have hreset (u : State) : ((contextReset u n k).ctx n k).state = .disabled ∧ ((contextReset u n k).ctx n k).enable = false ∧
      ((contextReset u n k).ctx n k).objs = [] := by
    obtain ⟨hstate, henable, hobjs, -⟩ := (contextReset_gone u n k).ctx
    exact ⟨hstate, henable, hobjs⟩
  unfold tenantDropped
  dsimp only
  refine foldl_establishes (fun u : State => (u.ctx n k).state = .disabled ∧ (u.ctx n k).enable = false ∧ (u.ctx n k).objs = []) hreset
    (fun u j hu => ?_) (List.mem_range.mpr h) _
  by_cases hj : k = j
  · subst hj
    exact hreset u
  · rw [(contextReset_others u n j).2 k hj]
    exact hu

/-- The tenant's queues as after a reset, without its packets and messages. -/
def tenantQueuesReset (s : State) (n : Nat) : State :=
  { s with
    queues := s.queues.map (fun (p : Nat × Queue) => if p.1 / 64 = n then (p.1, { Queue.reset with logSize := p.2.logSize, base := p.2.base }) else p)
    packets := s.packets.filter (fun p => p.q.owner != n)
    msix := s.msix.filter (fun m => m.1 != n + 1) }

def clearClusters (s : State) (n : Nat) : State := (s.tenant n).clusters.foldl clearCluster s
def clearWindows (s : State) (n : Nat) : State := (s.tenant n).windows.foldl clearWindow s

theorem execVfFlr_eq : execVfFlr n s = .next (clearWindows (clearClusters (tenantQueuesReset (tenantDropped s n) n) n) n) := by
  unfold execVfFlr clearWindows clearClusters tenantQueuesReset tenantDropped
  with_reducible rfl

theorem tenantQueuesReset_tenants : (tenantQueuesReset s n).tenants = s.tenants := rfl

theorem tenantQueuesReset_ctxs : (tenantQueuesReset s n).ctxs = s.ctxs := rfl

theorem clearClusters_keeps {β : Type} (P : State → β) (h : ∀ s c, P (clearCluster s c) = P s) (s : State) (n : Nat) : P (clearClusters s n) = P s :=
  foldl_keeps P h _ _

theorem clearWindows_keeps {β : Type} (P : State → β) (h : ∀ s c, P (clearWindow s c) = P s) (s : State) (n : Nat) : P (clearWindows s n) = P s :=
  foldl_keeps P h _ _

theorem exec_vfFlr : exec (.vfFlr n) s = .next (clearWindows (clearClusters (tenantQueuesReset (tenantDropped s n) n) n) n) := by
  have hx : exec (.vfFlr n) s = execVfFlr n s := rfl
  rw [hx, execVfFlr_eq]

theorem tenantQueuesReset_queue (q : Nat) (h : q < 64) : ((tenantQueuesReset s n).queue ⟨n, q⟩).enable = false ∧
    ((tenantQueuesReset s n).queue ⟨n, q⟩).state = .idle := by
  have hentry : (tenantQueuesReset s n).queues = s.queues.map (fun p => (p.1, (fun (i : Nat) (x : Queue) =>
      if i / 64 = n then { Queue.reset with logSize := x.logSize, base := x.base } else x) p.1 p.2)) := by
    refine List.map_congr_left fun p _ => ?_
    dsimp only
    split <;> rfl
  have hq := Tbl.getD_map_entry (fun (i : Nat) (x : Queue) =>
    if i / 64 = n then { Queue.reset with logSize := x.logSize, base := x.base } else x) s.queues (64 * n + q) .reset (by split <;> rfl)
  rw [← hentry, if_pos (by omega)] at hq
  have hqueue : (tenantQueuesReset s n).queue ⟨n, q⟩ = _ := hq
  rw [hqueue]
  exact ⟨rfl, rfl⟩

/-- A byte that no cell holds reads as an unlisted one. -/
theorem Memory.read_of_not_mem {m : Memory} {a : Nat} (h : ∀ c ∈ m, c.1 ≠ a) : m.read a = 0 := by
  induction m with
  | nil => rfl
  | cons c r ih =>
    obtain ⟨k, b⟩ := c
    have hr := ih fun c hc => h c (List.mem_cons_of_mem _ hc)
    unfold Memory.read
    rw [if_neg (h (k, b) (List.mem_cons_self ..)), hr]
    split <;> rfl

/-- No cell of a zeroed block remains. -/
theorem Memory.not_mem_zero_block {m : Memory} {g a : Nat} (hg : 0 < g) {c : Nat × Byte} (hc : c ∈ m.zero (a / g * g) g) : c.1 ≠ a := by
  rintro rfl
  have hout := (List.mem_filter.mp hc).2
  rw [decide_eq_true (Nat.div_mul_le_self c.1 g), decide_eq_true (Nat.lt_div_mul_add hg)] at hout
  cases hout

theorem clearWindows_read (a : Nat) (h : (s.tenant n).inWindow a = true) : (clearWindows s n).mem.read a = 0 := by
  obtain ⟨w, hw, hin⟩ := List.any_eq_true.mp h
  obtain ⟨hvalid, hgib⟩ : Word.bit ((s.tenant n).wins.getD w 0) 31 = true ∧ (s.tenant n).wins.getD w 0 % 512 = a / 2 ^ 30 := by
    simpa using hin
  have hbase : (s.tenant n).wins.getD w 0 % 512 * 2 ^ 30 ∈ (s.tenant n).windows :=
    List.mem_filterMap.mpr ⟨w, hw, if_pos hvalid⟩
  refine Memory.read_of_not_mem ?_
  refine foldl_establishes (fun u : State => ∀ c ∈ u.mem, c.1 ≠ a) (fun u c hc => ?_) (fun u b hu c hc => hu c (List.mem_filter.mp hc).1)
    hbase s
  rw [hgib] at hc
  exact Memory.not_mem_zero_block (Nat.two_pow_pos 30) hc

end

/-- R23, R72: what a tenant's reset leaves. -/
theorem vfFlr_resets (s : State) (n : Nat) :
    ∃ t, exec (.vfFlr n) s = .next t ∧ (∀ k, k < 16 → (t.ctx n k).state = .disabled ∧ (t.ctx n k).enable = false ∧ (t.ctx n k).objs = []) ∧
      (∀ q, q < 64 → (t.queue ⟨n, q⟩).enable = false ∧ (t.queue ⟨n, q⟩).state = .idle) ∧ (t.tenant n).keys = (s.tenant n).keys ∧
      (∀ a, (s.tenant n).inWindow a = true → t.mem.read a = 0) ∧ (∀ p ∈ t.packets, p.q.owner ≠ n) := by
  have hx := exec_vfFlr s n
  have htenant : (tenantDropped s n).tenant n = s.tenant n := tenant_of_tenants (tenantDropped_tenants s n) n
  have hctx := tenantDropped_ctx s n
  generalize tenantDropped s n = d at hx htenant hctx
  have hten : (clearClusters (tenantQueuesReset d n) n).tenant n = s.tenant n :=
    (tenant_of_tenants ((clearClusters_keeps State.tenants (fun _ _ => rfl) _ n).trans (tenantQueuesReset_tenants d n)) n).trans htenant
  have hqs := clearClusters_keeps State.queues (fun _ _ => rfl) (tenantQueuesReset d n) n
  have hcs := (clearClusters_keeps State.ctxs (fun _ _ => rfl) (tenantQueuesReset d n) n).trans (tenantQueuesReset_ctxs d n)
  have hps := clearClusters_keeps State.packets (fun _ _ => rfl) (tenantQueuesReset d n) n
  generalize clearClusters (tenantQueuesReset d n) n = u at hx hten hqs hcs hps
  refine ⟨_, hx, fun k hk => ?_, fun q hq => ?_, ?_, fun a ha => ?_, fun p hp => ?_⟩
  · have hc : (clearWindows u n).ctx n k = d.ctx n k :=
      ctx_of_ctxs ((clearWindows_keeps State.ctxs (fun _ _ => rfl) u n).trans hcs) n k
    rw [hc]
    exact hctx k hk
  · have hc : (clearWindows u n).queue ⟨n, q⟩ = (tenantQueuesReset d n).queue ⟨n, q⟩ :=
      queue_of_queues ((clearWindows_keeps State.queues (fun _ _ => rfl) u n).trans hqs) _
    rw [hc]
    exact tenantQueuesReset_queue d n q hq
  · rw [tenant_of_tenants (clearWindows_keeps State.tenants (fun _ _ => rfl) u n) n, hten]
  · exact clearWindows_read u n a (hten.symm ▸ ha)
  · have hmem := ((clearWindows_keeps State.packets (fun _ _ => rfl) u n).trans hps) ▸ hp
    simpa using (List.mem_filter.mp hmem).2

/-! ### Bring-up, step by step -/

theorem powerGood_starts (s : State) : ∃ t, exec .powerGood s = .next t ∧ t.pkg.step = 1 ∧ t.pkg.ready = false ∧ t.mem = [] ∧ t.tenants = [] ∧
    t.ctxs = [] ∧ t.queues = [] ∧ t.launches = [] ∧ t.galleys = [] ∧ t.pkg.flash = s.pkg.flash ∧ t.hostMem = s.hostMem ∧ t.pkg.attests = 0 := by
  have hx : exec .powerGood s = execPowerGood s := rfl
  exact ⟨_, hx, rfl, rfl, rfl, rfl, rfl, rfl, rfl, rfl, rfl, rfl, rfl⟩

/-- A raised COOLWARN changes that bit and the messages. -/
theorem raiseCoolwarn_pkg (s : State) : (raiseCoolwarn s).pkg = { s.pkg with coolwarn := true } := by
  unfold raiseCoolwarn State.sendMsi
  split
  · next h => rw [← h]
  · rfl

theorem raiseCoolwarn_keeps {β : Type} (P : State → β) (hpkg : ∀ s p, P (State.setPkg s p) = P s)
    (hmsi : ∀ s m, P { s with msix := m } = P s) (s : State) : P (raiseCoolwarn s) = P s := by
  unfold raiseCoolwarn State.sendMsi
  split
  · rfl
  · exact (hmsi _ _).trans (hpkg _ _)

theorem warmReset_starts (s : State) : (warmReset s).pkg.step = 2 ∧ (warmReset s).pkg.ready = false ∧ (warmReset s).mem = s.mem ∧
    (warmReset s).tenants = [] ∧ (warmReset s).ctxs = [] ∧ (warmReset s).queues = [] ∧ (warmReset s).launches = [] ∧
    (warmReset s).galleys = [] ∧ (warmReset s).pkg.attests = s.pkg.attests := by
  unfold warmReset
  dsimp only
  split
  · rw [raiseCoolwarn_pkg]
    refine ⟨rfl, rfl, ?_, ?_, ?_, ?_, ?_, ?_, rfl⟩
    · exact raiseCoolwarn_keeps State.mem (fun _ _ => rfl) (fun _ _ => rfl) _
    · exact raiseCoolwarn_keeps State.tenants (fun _ _ => rfl) (fun _ _ => rfl) _
    · exact raiseCoolwarn_keeps State.ctxs (fun _ _ => rfl) (fun _ _ => rfl) _
    · exact raiseCoolwarn_keeps State.queues (fun _ _ => rfl) (fun _ _ => rfl) _
    · exact raiseCoolwarn_keeps State.launches (fun _ _ => rfl) (fun _ _ => rfl) _
    · exact raiseCoolwarn_keeps State.galleys (fun _ _ => rfl) (fun _ _ => rfl) _
  · exact ⟨rfl, rfl, rfl, rfl, rfl, rfl, rfl, rfl, rfl⟩

section
variable {s : State} (hok : s.pkg.failed = false)
include hok

theorem pcieLinkUp_1 (h : s.pkg.step = 1) : exec .pcieLinkUp s = .next (s.setPkg { s.pkg with linkUp := true }) := by
  have hx : exec .pcieLinkUp s = execPcieLinkUp s := rfl
  rw [hx, execPcieLinkUp]
  simp [hok, h]

theorem pcieLinkUp_2 (h : s.pkg.step = 2) : exec .pcieLinkUp s = .next (s.setPkg { s.pkg with linkUp := true, step := 3 }) := by
  have hx : exec .pcieLinkUp s = execPcieLinkUp s := rfl
  rw [hx, execPcieLinkUp]
  simp [hok, h]

theorem firmwareCheckDone_pass (h : s.pkg.step = 3) (hcode : firmwareCode s.pkg.image = none) :
    exec .firmwareCheckDone s = .next (nextStep (s.setPkg { s.pkg with fwHash := sha3 s.pkg.image })) := by
  have hx : exec .firmwareCheckDone s = execFirmwareCheckDone s := rfl
  rw [hx, execFirmwareCheckDone, if_neg (by simp [h, hok]), hcode]

theorem firmwareCheckDone_fail (h : s.pkg.step = 3) {c : Nat} (hcode : firmwareCode s.pkg.image = some c) :
    exec .firmwareCheckDone s = .next (stopBringUp s c 0xFF) := by
  have hx : exec .firmwareCheckDone s = execFirmwareCheckDone s := rfl
  rw [hx, execFirmwareCheckDone, if_neg (by simp [h, hok]), hcode]

theorem stacksReady_pass (h : s.pkg.step = 4) : exec (.stacksReady none) s = .next (nextStep { s with mem := [] }) := by
  have hx : exec (.stacksReady none) s = execStacksReady none s := rfl
  rw [hx, execStacksReady, if_neg (by simp [h, hok])]

theorem stacksReady_fail (h : s.pkg.step = 4) (f : StackFailure) :
    exec (.stacksReady (some f)) s = .next (stopBringUp s (if f.train then 4 else 3) f.stack) := by
  have hx : exec (.stacksReady (some f)) s = execStacksReady (some f) s := rfl
  rw [hx, execStacksReady, if_neg (by simp [h, hok])]

theorem linksTrained_pass (h : s.pkg.step = 5) (ports : Nat) : exec (.linksTrained none ports) s =
    .next (nextStep (s.setPkg { s.pkg with
      slots := []
      ports := (List.range 8).map (fun i => (i, if Word.bit ports i then PortState.up else PortState.down)) })) := by
  have hx : exec (.linksTrained none ports) s = execLinksTrained none ports s := rfl
  rw [hx, execLinksTrained, if_neg (by simp [h, hok])]

theorem linksTrained_fail (h : s.pkg.step = 5) (l ports : Nat) : exec (.linksTrained (some l) ports) s = .next (stopBringUp s 5 l) := by
  have hx : exec (.linksTrained (some l) ports) s = execLinksTrained (some l) ports s := rfl
  rw [hx, execLinksTrained, if_neg (by simp [h, hok])]

theorem diesLeaveReset_pass (h : s.pkg.step = 6) (h4 : s.pkg.level4 = false) : exec (.diesLeaveReset none) s =
    .next (nextStep { s with cores := [], clusters := [], slices := [], xlats := [] }) := by
  have hx : exec (.diesLeaveReset none) s = execDiesLeaveReset none s := rfl
  rw [hx, execDiesLeaveReset, if_neg (by simp [h, hok, h4])]

theorem diesLeaveReset_fail (h : s.pkg.step = 6) (h4 : s.pkg.level4 = false) (d : Nat) :
    exec (.diesLeaveReset (some d)) s = .next (stopBringUp s 6 d) := by
  have hx : exec (.diesLeaveReset (some d)) s = execDiesLeaveReset (some d) s := rfl
  rw [hx, execDiesLeaveReset, if_neg (by simp [h, hok, h4])]

theorem identityReady_pass (h : s.pkg.step = 7) (hr : s.pkg.ready = false) :
    exec (.identityReady true) s = .next (s.setPkg { s.pkg with ready := true, identity := true }) := by
  have hx : exec (.identityReady true) s = execIdentityReady true s := rfl
  rw [hx, execIdentityReady, if_neg (by simp [h, hok, hr])]
  rfl

theorem identityReady_fail (h : s.pkg.step = 7) (hr : s.pkg.ready = false) :
    exec (.identityReady false) s = .next (stopBringUp s 7 0xFF) := by
  have hx : exec (.identityReady false) s = execIdentityReady false s := rfl
  rw [hx, execIdentityReady, if_neg (by simp [h, hok, hr])]
  rfl

end

/-- A port's entry after the links are trained. -/
theorem trainedPort (ports p : Nat) (h : p < 8) :
    Tbl.getD ((List.range 8).map (fun i => (i, if Word.bit ports i then PortState.up else PortState.down))) p .error =
      if Word.bit ports p then .up else .down := by
  interval_cases p <;> rfl

theorem bringUpSteps : Claims.BringUpSteps := by
  intro s
  refine ⟨powerGood_starts s, fun i hi => ?_, vfFlr_resets s, fun hok => ⟨pcieLinkUp_1 hok, pcieLinkUp_2 hok, fun h => ⟨fun hc => ?_, fun c hc => ?_⟩,
    fun h => ⟨?_, fun f => ?_⟩, fun h ports => ⟨?_, fun l => ?_⟩, fun h h4 => ⟨?_, fun d => ?_⟩, fun h hr => ⟨?_, ?_⟩⟩⟩
  · have hx : exec i s = .next (warmReset s) := by
      rcases List.mem_cons.mp hi with rfl | hi
      · rfl
      · obtain rfl := List.mem_singleton.mp hi
        rfl
    exact ⟨_, hx, warmReset_starts s⟩
  · exact ⟨_, firmwareCheckDone_pass hok h hc, congrArg (· + 1) h, rfl⟩
  · exact ⟨_, firmwareCheckDone_fail hok h hc, h, rfl, rfl, rfl⟩
  · exact ⟨_, stacksReady_pass hok h, congrArg (· + 1) h, rfl⟩
  · exact ⟨_, stacksReady_fail hok h f, h, rfl, rfl, rfl⟩
  · exact ⟨_, linksTrained_pass hok h ports, congrArg (· + 1) h, rfl, fun p hp => trainedPort ports p hp⟩
  · exact ⟨_, linksTrained_fail hok h l ports, h, rfl, rfl, rfl⟩
  · exact ⟨_, diesLeaveReset_pass hok h h4, congrArg (· + 1) h, rfl, rfl, rfl, rfl, rfl⟩
  · exact ⟨_, diesLeaveReset_fail hok h h4 d, h, rfl, rfl, rfl⟩
  · exact ⟨_, identityReady_pass hok h hr, rfl⟩
  · exact ⟨_, identityReady_fail hok h hr, hr, rfl, rfl, rfl⟩

/-! ### Recovery -/

section
variable {s : State} {n : Nat} (hwin : s.pkg.window = true) (hres : Word.field n 29 13 = 0) (hgo : Word.bit n 31 = true)
include hwin hres hgo

theorem recoveryWrite_go (hidle : s.pkg.recBusy = false) (hfail : s.pkg.failed = true) (hlo : 1 ≤ n % 2 ^ 13) (hhi : n % 2 ^ 13 ≤ 4096) :
    recoveryWrite s n = s.setPkg { s.pkg with recBusy := true, recLen := n % 2 ^ 13 } := by
  unfold recoveryWrite
  dsimp only
  rw [hwin, hgo, hidle, hfail, if_neg (by decide), if_neg (by simp [hres]), if_neg (by decide), if_neg ?_]
  rintro (h | h | h | h)
  · cases h
  · cases h
  · omega
  · omega

theorem recoveryWrite_refused (h : s.pkg.recBusy = true ∨ s.pkg.failed = false ∨ n % 2 ^ 13 = 0 ∨ 4096 < n % 2 ^ 13) :
    recoveryWrite s n = refusePf s 0x20010 := by
  unfold recoveryWrite
  dsimp only
  rw [hwin, hgo, if_neg (by decide), if_neg (by simp [hres]), if_neg (by decide), if_pos ?_]
  simpa using h

end

theorem recoveryChecksTheBuffer : Claims.RecoveryChecksTheBuffer := by
  intro s v
  refine ⟨fun hwin hres hgo => ⟨fun hidle hfail hlo hhi => ?_, fun h => ?_⟩, fun hbusy => ?_⟩
  · have hx : exec (.recoveryGo v) s = execRecoveryGo v s := rfl
    rw [hx, execRecoveryGo, recoveryWrite_go hwin hres hgo hidle hfail hlo hhi]
  · have hx : exec (.recoveryGo v) s = execRecoveryGo v s := rfl
    rw [hx, execRecoveryGo, recoveryWrite_refused hwin hres hgo h]
  · have hx : exec .recoveryCheckDone s = execRecoveryCheckDone s := rfl
    rw [execRecoveryCheckDone, hbusy, if_neg (by decide)] at hx
    dsimp only at hx ⊢
    refine ⟨fun hcode => ?_, fun c hcode => ?_⟩
    · rw [hcode] at hx
      exact ⟨_, hx, rfl, rfl, rfl, rfl, rfl, rfl⟩
    · rw [hcode] at hx
      exact ⟨_, hx, rfl, rfl, rfl, rfl⟩

/-- Settles O48: each step of bring-up, the resets, and the check of the recovery buffer. -/
theorem bringUpAndRecovery : Obligations.BringUpAndRecovery := ⟨bringUpSteps, recoveryChecksTheBuffer⟩

end Sys2Proof.Machine
end

section
/-! Sensors, throttling, cooling, scrub errors, ports and slot tables (O49). -/

namespace Sys2Proof.Machine

open Sys2Proof

theorem pkg_of_beside {s u : State} (h : u.beside = s.beside) : u.pkg = s.pkg := by
  have := congrArg State.pkg h
  exact this

section
variable (s : State)

@[simp] theorem setPkg_pkg (p : Package) : (s.setPkg p).pkg = p := rfl

theorem die_setDie (d i : Nat) (x : Die) : (s.setDie d x).die i = if i = d then x else s.die i := by
  simp [State.die, State.setDie]

/-! ### Cooling -/

theorem raiseCoolwarn_msix : (raiseCoolwarn s).msix = s.msix ++ if s.pkg.coolwarn = false then [(0, 0)] else [] := by
  unfold raiseCoolwarn State.sendMsi
  cases h : s.pkg.coolwarn
  · rfl
  · simp

/-- R30: what a cooling reading leaves. -/
theorem coolRead_result (inlet flow : Nat) : (coolRead s inlet flow).pkg.coolBad = coolOff inlet flow ∧
    (coolRead s inlet flow).pkg.coolwarn = (s.pkg.coolwarn || coolOut inlet flow) ∧
    (coolRead s inlet flow).msix = s.msix ++ (if coolOut inlet flow = true ∧ s.pkg.coolwarn = false then [(0, 0)] else []) := by
  unfold coolRead
  dsimp only
  cases hout : coolOut inlet flow
  · rw [if_neg (by decide)]
    simp [State.setPkg]
  · rw [if_pos rfl, raiseCoolwarn_pkg, raiseCoolwarn_msix]
    cases s.pkg.coolwarn <;> simp [State.setPkg]

theorem coolRead_pkg (inlet flow : Nat) :
    (coolRead s inlet flow).pkg.level3 = s.pkg.level3 ∧ (coolRead s inlet flow).pkg.cooling3 = s.pkg.cooling3 ∧
    (coolRead s inlet flow).pkg.dies = s.pkg.dies := by
  unfold coolRead
  dsimp only
  split
  · rw [raiseCoolwarn_pkg]
    exact ⟨rfl, rfl, rfl⟩
  · exact ⟨rfl, rfl, rfl⟩

theorem mgmtstatWrite_clears (n : Nat) (hwin : s.pkg.window = true) (hbit : Word.bit n 25 = true) :
    (mgmtstatWrite s n).pkg.coolwarn = s.pkg.coolBad ∧ (mgmtstatWrite s n).mem = s.mem := by
  unfold mgmtstatWrite
  rw [hwin, hbit, if_neg (by decide)]
  dsimp only
  split
  · next h =>
    rw [raiseCoolwarn_pkg]
    exact ⟨h.symm, raiseCoolwarn_keeps State.mem (fun _ _ => rfl) (fun _ _ => rfl) _⟩
  · next h =>
    exact ⟨(Bool.not_eq_true _ ▸ h).symm, rfl⟩

/-! ### Throttling -/

/-- R26: the clock of a die steps down while a level acts, up while both are being released, and stays where none acts. -/
theorem clockStep_result (d : Nat) : ∃ t, exec (.clockStep d) s = .next t ∧
    (let x := s.die d
     (((x.level2 = true ∧ x.cooling2 = false) ∨ (s.pkg.level3 = true ∧ s.pkg.cooling3 = false)) → (t.die d).clkStep = min 7 (x.clkStep + 1)) ∧
     (x.level2 = true → x.cooling2 = true → (s.pkg.level3 = false ∨ s.pkg.cooling3 = true) → (t.die d).clkStep = x.clkStep - 1 ∧
       ((t.die d).level2 = true ↔ 2 ≤ x.clkStep)) ∧
     (x.level2 = false → s.pkg.level3 = false → t = s)) := by
  have hx : exec (.clockStep d) s = execClockStep d s := rfl
  refine ⟨_, hx, fun h => ?_, fun h2 hc2 h3 => ?_, fun h2 h3 => ?_⟩
  · dsimp only
    rw [if_pos (by rcases h with ⟨h, h'⟩ | ⟨h, h'⟩ <;> simp [h, h']), die_setDie, if_pos rfl]
  · dsimp only
    rw [if_neg (by rcases h3 with h3 | h3 <;> simp [hc2, h3]), if_neg (by simp [h2])]
    have hdie : ((s.setDie d { s.die d with clkStep := (s.die d).clkStep - 1, level2 := (s.die d).level2 && (s.die d).clkStep != 1 &&
        (s.die d).clkStep != 0 }).die d) = _ := (die_setDie s d d _).trans (if_pos rfl)
    have hlevel : ((s.die d).level2 && (s.die d).clkStep != 1 && (s.die d).clkStep != 0) = true ↔ 2 ≤ (s.die d).clkStep := by
      simp [h2]
      omega
    exact ⟨congrArg Die.clkStep hdie, (iff_of_eq (congrArg (fun x : Die => x.level2 = true) hdie)).trans hlevel⟩
  · dsimp only
    rw [if_neg (by simp [h2, h3]), if_pos (by simp [h2, h3])]

theorem fluxEstimateUpdate_result (pair flux : Nat) : ∃ t, exec (.fluxEstimateUpdate pair flux) s = .next t ∧
    (let d := dieOf (2 * pair)
     let f := (s.die d).flux.getD pair ⟨0, 0, false, false⟩
     let g := (t.die d).flux.getD pair ⟨0, 0, false, false⟩
     (g.high = true ↔ 750 < flux) ∧ g.above = (if 700 < flux then min 10 (f.above + 1) else 0) ∧ g.below = (if flux < 650 then min 10 (f.below + 1) else 0) ∧
     (g.above = 10 → g.acts = true) ∧ (g.above ≠ 10 → g.below = 10 → g.acts = false) ∧ (g.above ≠ 10 → g.below ≠ 10 → g.acts = f.acts)) := by
  have hx : exec (.fluxEstimateUpdate pair flux) s = execFluxEstimateUpdate pair flux s := rfl
  refine ⟨_, hx, ?_⟩
  dsimp only
  rw [die_setDie, if_pos rfl]
  dsimp only
  rw [Tbl.getD_set, if_pos rfl]
  refine ⟨by simp, rfl, rfl, fun h => if_pos h, fun h h' => ?_, fun h h' => ?_⟩
  · exact (if_neg h).trans (if_pos h')
  · exact (if_neg h).trans (if_neg h')

/-! ### Level 4 -/

section
variable (r : Readings)

/-- Level 2 changes the dies alone. -/
theorem readDie_keeps {β : Type} (P : State → β) (h : ∀ s d x, P (State.setDie s d x) = P s) (d : Nat) : P (readDie r s d) = P s := by
  unfold readDie
  dsimp only
  split
  · exact h _ _ _
  · split
    · exact h _ _ _
    · rfl

/-- R26: a hot junction starts level 2. -/
theorem readDie_hot (d : Nat) (h : 95 ≤ r.junction.getD d 0) :
    ((readDie r s d).die d).level2 = true ∧ ((readDie r s d).die d).cooling2 = false := by
  unfold readDie
  dsimp only
  rw [if_pos (.inl h), die_setDie, if_pos rfl]
  exact ⟨rfl, rfl⟩

theorem readDie_other (d i : Nat) (h : i ≠ d) : (readDie r s d).die i = s.die i := by
  unfold readDie
  dsimp only
  split
  · rw [die_setDie, if_neg h]
  · split
    · rw [die_setDie, if_neg h]
    · rfl

end

theorem enterFatal_pkg (t k cause detail : Nat) (w : FaultAt) : (enterFatal s t k cause detail w).pkg = s.pkg := by
  unfold enterFatal
  dsimp only
  split
  · rfl
  · split
    · rfl
    · refine (foldl_keeps State.pkg (fun s q => ?_) _ _).trans ?_
      · split <;> rfl
      · rfl

/-- What a context shows once it is fatal. -/
def Ctx.Struck (x : Ctx) (cause detail : Nat) : Prop := ∃ f, x.state = .fatal ∧ x.fatal = some f ∧ f.cause = cause ∧ f.detail = detail

/-- The queues of a fatal context are blocked, those already stopped stay so. -/
def blockQueues (s : State) (qs : List QId) : State :=
  qs.foldl (fun s q => let x := s.queue q; if x.state = .stopped then s else s.setQueue q { x with state := .blocked }) s

theorem blockQueues_keeps {β : Type} (P : State → β) (h : ∀ s q x, P (State.setQueue s q x) = P s) (qs : List QId) :
    P (blockQueues s qs) = P s :=
  foldl_keeps P (fun s q => by dsimp only; split; exacts [rfl, h _ _ _]) qs s

/-- The record of a context's first cause. -/
def firstFatal (s : State) (t cause detail : Nat) (w : FaultAt) : FatalRec :=
  { cause := cause, count := 1, die := w.die, core := w.core, time := s.pkg.clock, tag := w.tag, objId := w.objId,
    block := w.block, instr := w.instr, faddr := w.faddr, detail := detail, dumping := true,
    assisted := Word.bit (s.tenant t).mode 5 }

/-- R92: the first cause makes the context fatal, its queues blocked and its relayouts stopped. -/
theorem enterFatal_first (t k cause detail : Nat) (w : FaultAt) (hf : (s.ctx t k).fatal = none) (hs : (s.ctx t k).state ≠ .disabled) :
    enterFatal s t k cause detail w =
      stopRelayouts (blockQueues (s.setCtx t k { s.ctx t k with state := .fatal, fatal := some (firstFatal s t cause detail w) })
        (s.queuesOf t k)) t k := by
  unfold enterFatal
  dsimp only
  rw [hf]
  dsimp only
  rw [if_neg hs]
  rfl

/-- R92: a later cause only counts. -/
theorem enterFatal_again (t k cause detail : Nat) (w : FaultAt) {f : FatalRec} (hf : (s.ctx t k).fatal = some f) :
    enterFatal s t k cause detail w = s.setCtx t k { s.ctx t k with fatal := some { f with count := min (f.count + 1) 65535 } } := by
  unfold enterFatal
  dsimp only
  rw [hf]

theorem ctx_setCtx_eq (t k i j : Nat) (x : Ctx) (h : 16 * i + j = 16 * t + k) : (s.setCtx t k x).ctx i j = x := by
  simp [State.ctx, h]

theorem ctx_setCtx_other (t k i j : Nat) (x : Ctx) (h : 16 * i + j ≠ 16 * t + k) : (s.setCtx t k x).ctx i j = s.ctx i j := by
  simp [State.ctx, h]

theorem stopBlocked_ctx (t k i j : Nat) (qs : List QId) : (stopRelayouts (blockQueues s qs) t k).ctx i j = s.ctx i j :=
  ctx_of_ctxs (u := stopRelayouts (blockQueues s qs) t k) (blockQueues_keeps s State.ctxs (fun _ _ _ => rfl) qs) i j

/-- A context that can become fatal, or is so with this cause and detail, is so after the cause. -/
theorem enterFatal_struck (t k cause detail : Nat) (w : FaultAt) {i j : Nat} (h : 16 * i + j = 16 * t + k)
    (hx : ((s.ctx i j).fatal = none ∧ (s.ctx i j).state ≠ .disabled) ∨ (s.ctx i j).Struck cause detail) :
    ((enterFatal s t k cause detail w).ctx i j).Struck cause detail := by
  have hsame : s.ctx i j = s.ctx t k := by rw [State.ctx, State.ctx, h]
  rw [hsame] at hx
  rcases hx with ⟨hf, hs⟩ | ⟨f, hs, hf, hcause, hdetail⟩
  · rw [enterFatal_first s t k cause detail w hf hs, stopBlocked_ctx, ctx_setCtx_eq s t k i j _ h]
    exact ⟨_, rfl, rfl, rfl, rfl⟩
  · rw [enterFatal_again s t k cause detail w hf, ctx_setCtx_eq s t k i j _ h]
    exact ⟨_, hs, rfl, hcause, hdetail⟩

theorem enterFatal_ctx_other (t k cause detail : Nat) (w : FaultAt) {i j : Nat} (h : 16 * i + j ≠ 16 * t + k) :
    (enterFatal s t k cause detail w).ctx i j = s.ctx i j := by
  cases hf : (s.ctx t k).fatal with
  | some f => rw [enterFatal_again s t k cause detail w hf, ctx_setCtx_other s t k i j _ h]
  | none =>
    by_cases hs : (s.ctx t k).state = .disabled
    · have hnone : enterFatal s t k cause detail w = s := by
        unfold enterFatal
        dsimp only
        rw [hf]
        exact if_pos hs
      rw [hnone]
    · rw [enterFatal_first s t k cause detail w hf hs, stopBlocked_ctx, ctx_setCtx_other s t k i j _ h]

/-- What one update of a loop brings about from an invariant, and no update undoes. -/
theorem foldl_reaches {σ α : Type} (I Q : σ → Prop) {f : σ → α → σ} {a : α} (hinv : ∀ s b, I s → I (f s b)) (hset : ∀ s, I s → Q (f s a))
    (hkeep : ∀ s b, Q s → Q (f s b)) {xs : List α} (h : a ∈ xs) (s : σ) (hs : I s) : Q (xs.foldl f s) := by
  induction xs generalizing s with
  | nil => cases h
  | cons x r ih =>
    rw [List.foldl_cons]
    rcases List.mem_cons.mp h with rfl | h
    · exact List.foldlRecOn r f (hset s hs) fun s hs b _ => hkeep s b hs
    · exact ih h _ (hinv s x hs)

/-- Every context that can become fatal is so after `allFatal`. -/
theorem allFatal_struck (cause detail : Nat) {i k : Nat} (hi : i < 16) (hk : k < 16) (hf : (s.ctx i k).fatal = none)
    (hs : (s.ctx i k).state ≠ .disabled) : ((allFatal s cause detail).ctx i k).Struck cause detail := by
  let Q (u : State) : Prop := (u.ctx i k).Struck cause detail
  let I (u : State) : Prop := ((u.ctx i k).fatal = none ∧ (u.ctx i k).state ≠ .disabled) ∨ Q u
  have hstep (u : State) (t j : Nat) (hu : I u) : I (enterFatal u t j cause detail .nowhere) := by
    by_cases h : 16 * i + k = 16 * t + j
    · exact .inr (enterFatal_struck u t j cause detail _ h hu)
    · simpa only [I, Q, enterFatal_ctx_other u t j cause detail .nowhere h] using hu
  have hkeep (u : State) (t j : Nat) (hu : Q u) : Q (enterFatal u t j cause detail .nowhere) := by
    by_cases h : 16 * i + k = 16 * t + j
    · exact enterFatal_struck u t j cause detail _ h (.inr hu)
    · simpa only [Q, enterFatal_ctx_other u t j cause detail .nowhere h] using hu
  refine foldl_reaches I Q (a := i) (fun u t hu => ?_) (fun u hu => ?_) (fun u t hu => ?_) (List.mem_range.mpr hi) s (.inl ⟨hf, hs⟩)
  · exact List.foldlRecOn (List.range 16) _ hu fun v hv j _ => hstep v t j hv
  · exact foldl_reaches I Q (a := k) (fun v j => hstep v i j) (fun v hv => enterFatal_struck v i k cause detail _ rfl hv)
      (fun v j => hkeep v i j) (List.mem_range.mpr hk) u hu
  · exact List.foldlRecOn (List.range 16) _ hu fun v hv j _ => hkeep v t j hv

theorem allFatal_pkg (cause detail : Nat) : (allFatal s cause detail).pkg = s.pkg :=
  foldl_keeps State.pkg (fun s t => foldl_keeps State.pkg (fun s k => enterFatal_pkg s t k cause detail _) _ s) _ s

end

/-! ### The sensors' readings -/

section
variable (s : State) (r : Readings)

def readDies (s : State) (r : Readings) : State := (List.range 4).foldl (readDie r) s

def readModule (s : State) (r : Readings) : State :=
  if r.moduleOver then s.setPkg { s.pkg with level3 := true, cooling3 := false }
  else if s.pkg.level3 ∧ r.moduleUnder then s.setPkg { s.pkg with cooling3 := true } else s

def readCooling (s : State) (r : Readings) : State :=
  match level4Of r with
  | some d =>
    let s := s.setPkg { s.pkg with coolBad := coolOff r.inlet r.flow }
    if s.pkg.level4 then s else holdDies (allFatal (stopAll (s.setPkg { s.pkg with level4 := true })) 4 d)
  | none => coolRead s r.inlet r.flow

theorem exec_thermalTrigger : exec (.thermalTrigger r) s = .next (readCooling (readModule (readDies s r) r) r) := by
  have hx : exec (.thermalTrigger r) s = execThermalTrigger r s := rfl
  unfold readCooling readModule readDies
  exact hx

theorem holdDies_keeps : (holdDies s).pkg = s.pkg ∧ (holdDies s).ctxs = s.ctxs := by
  unfold holdDies
  split <;> exact ⟨rfl, rfl⟩

/-- R26: what the dies held in reset hold. -/
theorem holdDies_held (h4 : s.pkg.level4 = true) (h : s.ctxs.all (fun c => !(c.2.fatal.map FatalRec.dumping).getD false) = true) :
    (holdDies s).galleys = [] ∧ (holdDies s).commands = [] ∧ (holdDies s).relayouts = [] ∧ (holdDies s).walks = [] ∧ (holdDies s).cores = [] := by
  have hno : s.ctxs.any (fun c => (c.2.fatal.map FatalRec.dumping).getD false) = false := by
    rw [List.any_eq_false]
    intro c hc
    have := List.all_eq_true.mp h c hc
    simpa using this
  unfold holdDies
  rw [h4, hno, if_neg (by decide)]
  exact ⟨rfl, rfl, rfl, rfl, rfl⟩

theorem readCooling_level4 {n : Nat} (hn : level4Of r = some n) (h4 : s.pkg.level4 = false) : readCooling s r =
    holdDies (allFatal (stopAll (s.setPkg { s.pkg with coolBad := coolOff r.inlet r.flow, level4 := true })) 4 n) := by
  unfold readCooling
  rw [hn]
  exact if_neg (by simp [h4])

theorem readCooling_level3 : (readCooling s r).pkg.level3 = s.pkg.level3 ∧ (readCooling s r).pkg.cooling3 = s.pkg.cooling3 := by
  unfold readCooling
  split
  · dsimp only
    split
    · exact ⟨rfl, rfl⟩
    · rw [(holdDies_keeps _).1, allFatal_pkg]
      exact ⟨rfl, rfl⟩
  · obtain ⟨h3, hc3, -⟩ := coolRead_pkg s r.inlet r.flow
    exact ⟨h3, hc3⟩

theorem readCooling_dies (hn : level4Of r = none) : (readCooling s r).pkg.dies = s.pkg.dies := by
  unfold readCooling
  rw [hn]
  exact (coolRead_pkg s r.inlet r.flow).2.2

theorem readModule_keeps {β : Type} (P : State → β) (h : ∀ s a b, P (State.setPkg s { s.pkg with level3 := a, cooling3 := b }) = P s) :
    P (readModule s r) = P s := by
  unfold readModule
  split
  · exact h _ _ _
  · split
    · exact h _ _ _
    · rfl

theorem readModule_over (h : r.moduleOver = true) : (readModule s r).pkg.level3 = true ∧ (readModule s r).pkg.cooling3 = false := by
  unfold readModule
  rw [if_pos h]
  exact ⟨rfl, rfl⟩

theorem readDies_hot (d : Nat) (hd : d < 4) (h : 95 ≤ r.junction.getD d 0) :
    ((readDies s r).die d).level2 = true ∧ ((readDies s r).die d).cooling2 = false := by
  refine foldl_establishes (fun u : State => (u.die d).level2 = true ∧ (u.die d).cooling2 = false) (fun u => readDie_hot u r d h)
    (fun u b hu => ?_) (List.mem_range.mpr hd) s
  by_cases hb : d = b
  · subst hb
    exact readDie_hot u r d h
  · rw [readDie_other u r b d hb]
    exact hu

theorem readDies_keeps {β : Type} (P : State → β) (h : ∀ s d x, P (State.setDie s d x) = P s) : P (readDies s r) = P s :=
  foldl_keeps P (fun s d => readDie_keeps s r P h d) _ s

theorem thermalTrigger_result : ∃ t, exec (.thermalTrigger r) s = .next t ∧
    (level4Of r = none → (∀ d, d < 4 → 95 ≤ r.junction.getD d 0 → (t.die d).level2 = true ∧ (t.die d).cooling2 = false)) ∧
    (r.moduleOver = true → t.pkg.level3 = true ∧ t.pkg.cooling3 = false) ∧
    (∀ n, level4Of r = some n → s.pkg.level4 = false → t.pkg.level4 = true ∧ t.pkg.runs = false ∧
      t.pkg.coolBad = coolOff r.inlet r.flow ∧
      (t.ctxs.all (fun c => !(c.2.fatal.map FatalRec.dumping).getD false) = true →
        t.galleys = [] ∧ t.commands = [] ∧ t.relayouts = [] ∧ t.walks = [] ∧ t.cores = []) ∧
      ∀ i k, i < 16 → k < 16 → (s.ctx i k).fatal = none → (s.ctx i k).state ≠ .disabled →
        ∃ f, (t.ctx i k).state = .fatal ∧ (t.ctx i k).fatal = some f ∧ f.cause = 4 ∧ f.detail = n) := by
  refine ⟨_, exec_thermalTrigger s r, fun hnone d hd hhot => ?_, fun hover => ?_, fun n hn h4 => ?_⟩
  · have hdies : (readCooling (readModule (readDies s r) r) r).pkg.dies = (readDies s r).pkg.dies :=
      (readCooling_dies _ r hnone).trans (readModule_keeps _ r (fun u => u.pkg.dies) fun _ _ _ => rfl)
    have hdie : (readCooling (readModule (readDies s r) r) r).die d = (readDies s r).die d := by rw [State.die, hdies, State.die]
    rw [hdie]
    exact readDies_hot s r d hd hhot
  · obtain ⟨h3, hc3⟩ := readCooling_level3 (readModule (readDies s r) r) r
    rw [h3, hc3]
    exact readModule_over _ r hover
  · have hlevel : (readModule (readDies s r) r).pkg.level4 = false :=
      (readModule_keeps _ r (fun u => u.pkg.level4) fun _ _ _ => rfl).trans
        ((readDies_keeps s r (fun u => u.pkg.level4) fun _ _ _ => rfl).trans h4)
    have hctxs : (readModule (readDies s r) r).ctxs = s.ctxs :=
      (readModule_keeps _ r State.ctxs fun _ _ _ => rfl).trans (readDies_keeps s r State.ctxs fun _ _ _ => rfl)
    generalize readModule (readDies s r) r = u at hlevel hctxs
    rw [readCooling_level4 u r hn hlevel]
    have hpkg := allFatal_pkg (stopAll (u.setPkg { u.pkg with coolBad := coolOff r.inlet r.flow, level4 := true })) 4 n
    have hstruck {i k : Nat} := @allFatal_struck (stopAll (u.setPkg { u.pkg with coolBad := coolOff r.inlet r.flow, level4 := true })) 4 n i k
    have hctx (i k : Nat) : (stopAll (u.setPkg { u.pkg with coolBad := coolOff r.inlet r.flow, level4 := true })).ctx i k = s.ctx i k :=
      ctx_of_ctxs (u := stopAll (u.setPkg { u.pkg with coolBad := coolOff r.inlet r.flow, level4 := true })) hctxs i k
    generalize allFatal (stopAll (u.setPkg { u.pkg with coolBad := coolOff r.inlet r.flow, level4 := true })) 4 n = v at hpkg hstruck
    obtain ⟨hpkg', hctxs'⟩ := holdDies_keeps v
    have h4' : v.pkg.level4 = true := by rw [hpkg]; rfl
    refine ⟨?_, ?_, ?_, ?_, fun i k hi hk hf hs => ?_⟩
    · rw [hpkg', h4']
    · rw [hpkg', Package.runs, h4']
      simp
    · rw [hpkg', hpkg]
      rfl
    · rw [hctxs']
      exact holdDies_held v h4'
    · rw [ctx_of_ctxs hctxs']
      exact hstruck hi hk ((hctx i k).symm ▸ hf) ((hctx i k).symm ▸ hs)

end

/-! ### Scrubbing and ports -/

/-- What an error in the store may do to the translations of a die's part: each stays, or is live no more. -/
theorem hitXlats_result (d : Nat) (xs : List Xlat) (s : State) :
    (hitXlats d xs s).2.mem = s.mem ∧ (hitXlats d xs s).1.map Xlat.id = xs.map Xlat.id ∧
    ∀ x ∈ (hitXlats d xs s).1, x ∈ xs ∨ (x.live = false ∧ x.die = some d) := by
  induction xs generalizing s with
  | nil => exact ⟨rfl, rfl, fun x hx => .inl hx⟩
  | cons x xs ih =>
    have keep (u : State) (hu : u.mem = s.mem) : (hitXlats d xs u).2.mem = s.mem ∧
        (x :: (hitXlats d xs u).1).map Xlat.id = (x :: xs).map Xlat.id ∧
        ∀ y ∈ x :: (hitXlats d xs u).1, y ∈ x :: xs ∨ (y.live = false ∧ y.die = some d) := by
      obtain ⟨hmem, hid, hin⟩ := ih u
      refine ⟨hmem.trans hu, by rw [List.map_cons, hid, List.map_cons], fun y hy => ?_⟩
      rcases List.mem_cons.mp hy with rfl | hy
      · exact .inl (List.mem_cons_self ..)
      · exact (hin y hy).imp_left (List.mem_cons_of_mem _)
    unfold hitXlats
    dsimp only
    split
    · next hdie =>
      split
      · exact keep _ rfl
      · obtain ⟨hmem, hid, hin⟩ := ih (s.choose 2).2
        refine ⟨hmem, by rw [List.map_cons, hid, List.map_cons], fun y hy => ?_⟩
        rcases List.mem_cons.mp hy with rfl | hy
        · exact .inr ⟨rfl, hdie⟩
        · exact (hin y hy).imp_left (List.mem_cons_of_mem _)
    · exact keep s rfl

section
variable (s : State)

theorem scrubError_result (pa : Nat) :
    (∃ t, exec (.scrubError pa true) s = .next t ∧ t.pkg.softErrors = s.pkg.softErrors + 1 ∧ t.mem = s.mem ∧ t.pkg.poison = s.pkg.poison) ∧
    (reservedGiB pa = false → ∃ t, exec (.scrubError pa false) s = .next t ∧ t.mem = s.mem ∧
      ∀ p, p ∈ t.pkg.poison ↔ p ∈ s.pkg.poison ∨ p = pa / 16 * 16) ∧
    (reservedGiB pa = true → 2 ^ 29 ≤ pa % 2 ^ 30 → exec (.scrubError pa false) s = .next (allFatal s 5 pa)) ∧
    (reservedGiB pa = true → pa % 2 ^ 30 < 2 ^ 29 → ∃ t, exec (.scrubError pa false) s = .next t ∧ t.mem = s.mem ∧
      t.xlats.map Xlat.id = s.xlats.map Xlat.id ∧ ∀ x ∈ t.xlats, x ∈ s.xlats ∨ (x.live = false ∧ x.die = some (pa / 2 ^ 30 / 96))) := by
  have ht : exec (.scrubError pa true) s = execScrubError pa true s := rfl
  have hf : exec (.scrubError pa false) s = execScrubError pa false s := rfl
  rw [execScrubError, if_pos rfl] at ht
  rw [execScrubError, if_neg (by decide)] at hf
  refine ⟨⟨_, ht, rfl, rfl, rfl⟩, fun h => ?_, fun h hhi => ?_, fun h hlo => ?_⟩
  · rw [h, if_pos (by decide)] at hf
    refine ⟨_, hf, rfl, fun p => ?_⟩
    rw [setPkg_pkg]
    simp [or_comm]
  · rw [h, if_neg (by decide), if_neg (Nat.not_lt.mpr hhi)] at hf
    exact hf
  · rw [h, if_neg (by decide), if_pos hlo] at hf
    obtain ⟨hmem, hid, hin⟩ := hitXlats_result (pa / 2 ^ 30 / 96) s.xlats s
    exact ⟨_, hf, hmem, hid, hin⟩

theorem fabricPortStateChange_result (p : Nat) (st : PortState) (h : p < 8) : ∃ t, exec (.fabricPortStateChange p st) s = .next t ∧
    t.pkg.ports.getD p .down = st ∧ ∀ r, r ≠ p → t.pkg.ports.get? r = s.pkg.ports.get? r := by
  have hx : exec (.fabricPortStateChange p st) s = execFabricPortStateChange p st s := rfl
  rw [execFabricPortStateChange, if_pos h] at hx
  refine ⟨_, hx, ?_, fun r hr => ?_⟩
  · rw [setPkg_pkg, Tbl.getD_set, if_pos rfl]
  · rw [setPkg_pkg, Tbl.get?_set, if_neg hr]

theorem sensorsAct : Claims.SensorsAct := by
  intro s
  refine ⟨fun inlet flow => ?_, fun v hwin hbit => ?_, fluxEstimateUpdate_result s, clockStep_result s, thermalTrigger_result s, scrubError_result s,
    fabricPortStateChange_result s⟩
  · have hx : exec (.coolantOutOfRating inlet flow) s = execCoolantOutOfRating inlet flow s := rfl
    exact ⟨_, hx, coolRead_result s inlet flow⟩
  · have hx : exec (.coolwarnClear v) s = execCoolwarnClear v s := rfl
    exact ⟨_, hx, mgmtstatWrite_clears s v.toNat hwin hbit⟩

/-! ### Slot tables -/

theorem slotGrant_kept (res cycle : Nat) (ready : List Nat) (h : ready.contains (slotOwner s res (cycle % 64)) = true) :
    exec (.slotGrant res cycle ready) s = .next s := by
  have hx : exec (.slotGrant res cycle ready) s = execSlotGrant res cycle ready s := rfl
  rw [hx, execSlotGrant]
  dsimp only
  rw [if_pos (.inr h)]

theorem slotGrant_next (res cycle : Nat) (ready : List Nat) {t : Nat} (hres : res < 150)
    (h : ready.contains (slotOwner s res (cycle % 64)) = false) (ht : nextTenant ready (s.pkg.served.getD res 15) = some t) :
    exec (.slotGrant res cycle ready) s = .next (s.setPkg { s.pkg with served := s.pkg.served.set res t }) := by
  have hx : exec (.slotGrant res cycle ready) s = execSlotGrant res cycle ready s := rfl
  rw [hx, execSlotGrant]
  dsimp only
  rw [if_neg ?_, ht]
  rintro (hout | hown)
  · omega
  · rw [h] at hown
    cases hown

theorem nextTenant_some {ready : List Nat} {last t : Nat} (h : nextTenant ready last = some t) : t ∈ ready ∧ t < 16 := by
  have hready := List.find?_some h
  obtain ⟨i, -, rfl⟩ := List.mem_map.mp (List.mem_of_find?_eq_some h)
  exact ⟨List.contains_iff_mem.mp hready, Nat.mod_lt _ (by decide)⟩

theorem writeImage_keeps (t : Nat) : (writeImage s t).pkg = s.pkg ∧ (writeImage s t).tenants = s.tenants := by
  unfold writeImage
  dsimp only
  split
  · exact ⟨pkg_of_beside (writePhys_beside s _ _), tenants_of_beside (writePhys_beside s _ _)⟩
  · exact ⟨rfl, rfl⟩

theorem slotTableUpdate_one (res slot owner : Nat) (hres : res < 150) (hslot : slot < 64) (ho : owner < 16 ∨ owner = 31) :
    exec (.slotTableUpdate [⟨res, slot, owner⟩]) s =
      .next ((List.range 16).foldl writeImage (s.setPkg { s.pkg with slots := s.pkg.slots.set (64 * res + slot) owner, slotGen := s.pkg.slotGen + 2 })) := by
  have hx : exec (.slotTableUpdate [⟨res, slot, owner⟩]) s = execSlotTableUpdate [⟨res, slot, owner⟩] s := rfl
  rw [hx, execSlotTableUpdate]
  dsimp only
  rw [List.filter_cons, if_pos (by simpa [hres, hslot] using ho)]
  rfl

theorem slotTables : Claims.SlotTables := by
  intro s
  refine ⟨fun res cycle ready hres => ⟨slotGrant_kept s res cycle ready, fun t h ht => ?_⟩, fun res slot owner hres hslot ho => ?_⟩
  · obtain ⟨hmem, hlt⟩ := nextTenant_some ht
    refine ⟨hmem, hlt, _, slotGrant_next s res cycle ready hres h ht, ?_, rfl, rfl⟩
    rw [setPkg_pkg, Tbl.getD_set, if_pos rfl]
  · have himages (u : State) : ((List.range 16).foldl writeImage u).pkg = u.pkg ∧ ((List.range 16).foldl writeImage u).tenants = u.tenants :=
      ⟨foldl_keeps State.pkg (fun u t => (writeImage_keeps u t).1) _ u, foldl_keeps State.tenants (fun u t => (writeImage_keeps u t).2) _ u⟩
    obtain ⟨hpkg, htenants⟩ := himages
      (s.setPkg { s.pkg with slots := s.pkg.slots.set (64 * res + slot) owner, slotGen := s.pkg.slotGen + 2 })
    refine ⟨_, slotTableUpdate_one s res slot owner hres hslot ho, ?_, ?_, fun r i hi hne => ?_, htenants⟩
    · rw [slotOwner, hpkg, setPkg_pkg, Tbl.getD_set, if_pos rfl]
    · rw [hpkg]
      rfl
    · rw [slotOwner, hpkg, setPkg_pkg, Tbl.getD_set, if_neg ?_, slotOwner]
      intro h
      exact hne (by ext <;> dsimp only <;> omega)

end

/-- Settles O49: the sensors' events, and the grants and changes of slots. -/
theorem sensorsAndSlotTables : Obligations.SensorsAndSlotTables := ⟨sensorsAct, slotTables⟩

end Sys2Proof.Machine
end

section
/-! Writes of queue registers, and the decoding of register writes (O53). -/

namespace Sys2Proof.Machine

open Sys2Proof

/-! ### QUE.CTL -/

/-- A queue with the fields of QUE.CTL written and no packet parsed. -/
def Queue.written (x : Queue) (n : Nat) : Queue :=
  { x with errVec := Word.field n 29 24, ctx := Word.field n 23 20, logSize := n % 32,
           heads := if Word.field n 23 20 = x.ctx then x.heads else [], walks := [], parsed := false, checked := false }

section
variable {s : State} {q : QId} {v : Nat}

section
variable (hres : Word.field (v % 2 ^ 32) 19 5 = 0) (hlo : 12 ≤ v % 2 ^ 32 % 32) (hhi : v % 2 ^ 32 % 32 ≤ 24)
  (hmgmt : q.owner = 16 → Word.field (v % 2 ^ 32) 23 20 = 0)
include hres hlo hhi hmgmt

/-- The checks of QUE.CTL that come first pass. -/
theorem queueCtl_formed (hstay : (s.queue q).enable = true → Word.field (v % 2 ^ 32) 23 20 = (s.queue q).ctx ∧ v % 2 ^ 32 % 32 = (s.queue q).logSize) :
    ¬ (Word.field (v % 2 ^ 32) 19 5 ≠ 0 ∨ v % 2 ^ 32 % 32 < 12 ∨ 24 < v % 2 ^ 32 % 32 ∨
      ((s.queue q).enable && (Word.field (v % 2 ^ 32) 23 20 != (s.queue q).ctx || v % 2 ^ 32 % 32 != (s.queue q).logSize)) ∨
      (q.owner == 16 && Word.field (v % 2 ^ 32) 23 20 != 0)) := by
  rintro (h | h | h | h | h)
  · exact h hres
  · omega
  · omega
  · obtain ⟨hen, hmoved⟩ := Bool.and_eq_true_iff.mp h
    obtain ⟨hk, hlog⟩ := hstay hen
    simp [-Nat.reducePow, hk, hlog] at hmoved
  · obtain ⟨ho, hk⟩ := Bool.and_eq_true_iff.mp h
    simp [-Nat.reducePow, hmgmt (by simpa using ho)] at hk

theorem queueCtlWrite_enable (hon : Word.bit (v % 2 ^ 32) 31 = true) (hoff : (s.queue q).enable = false)
    (hbase : (s.queue q).base % 2 ^ (v % 2 ^ 32 % 32) = 0) (hring : ringPlaced s q (s.queue q).base (2 ^ (v % 2 ^ 32 % 32)) = true)
    (hctx : q.owner ≠ 16 → (s.tenant q.owner).enable = true ∧ (s.ctx q.owner (Word.field (v % 2 ^ 32) 23 20)).enable = true) :
    queueCtlWrite s q v = (dropAsks s q).setQueue q { (s.queue q).written (v % 2 ^ 32) with
      enable := true, rp := 0, wp := 0, gate := 0, state := .active, cause := 0, subcode := 0, gateSet := false } := by
  unfold queueCtlWrite
  dsimp only
  rw [if_neg (queueCtl_formed hres hlo hhi hmgmt (by simp [-Nat.reducePow, hoff])), if_pos (by simp [-Nat.reducePow, hon, hoff]), if_neg]
  · rfl
  · rintro (h | h | h)
    · exact h hbase
    · simp [-Nat.reducePow, hring] at h
    · obtain ⟨ho, hoff⟩ := Bool.and_eq_true_iff.mp h
      obtain ⟨ht, hk⟩ := hctx (by simpa using ho)
      simp [-Nat.reducePow, ht, hk] at hoff

theorem queueCtlWrite_disable (hoff : Word.bit (v % 2 ^ 32) 31 = false)
    (hstay : (s.queue q).enable = true → Word.field (v % 2 ^ 32) 23 20 = (s.queue q).ctx ∧ v % 2 ^ 32 % 32 = (s.queue q).logSize) :
    queueCtlWrite s q v = (dropAsks s q).setQueue q { (s.queue q).written (v % 2 ^ 32) with enable := false, state := .idle } := by
  unfold queueCtlWrite
  dsimp only
  rw [if_neg (queueCtl_formed hres hlo hhi hmgmt hstay), if_neg (by simp [-Nat.reducePow, hoff]), if_pos (by simp [-Nat.reducePow, hoff])]
  rfl

theorem queueCtlWrite_restart (hon : Word.bit (v % 2 ^ 32) 31 = true) (hrestart : Word.bit (v % 2 ^ 32) 30 = true)
    (hen : (s.queue q).enable = true) (hk : Word.field (v % 2 ^ 32) 23 20 = (s.queue q).ctx) (hlog : v % 2 ^ 32 % 32 = (s.queue q).logSize)
    (hst : (s.queue q).state = .stopped) :
    queueCtlWrite s q v = (dropAsks s q).setQueue q { (s.queue q).written (v % 2 ^ 32) with
      state := if (s.queue q).blocker.isSome then .blocked else .active, cause := 0, subcode := 0 } := by
  unfold queueCtlWrite
  dsimp only
  rw [if_neg (queueCtl_formed hres hlo hhi hmgmt fun _ => ⟨hk, hlog⟩), if_neg (by simp [-Nat.reducePow, hen]), if_neg (by simp [-Nat.reducePow, hon]), if_pos ⟨hrestart, hst⟩]
  rfl

end

theorem queueCtlWrite_moved (hen : (s.queue q).enable = true)
    (h : Word.field (v % 2 ^ 32) 23 20 ≠ (s.queue q).ctx ∨ v % 2 ^ 32 % 32 ≠ (s.queue q).logSize) : queueCtlWrite s q v = refuseQueue s q 8 := by
  unfold queueCtlWrite
  dsimp only
  exact if_pos (.inr (.inr (.inr (.inl (by simpa [-Nat.reducePow, hen] using h)))))

/-! ### QUE.GATE -/

theorem gateWrite_taken (h : assistedParsing s q = true → pointerOk (s.queue q) (v % 2 ^ 24) = true) :
    gateWrite s q v = s.setQueue q { s.queue q with gate := v % 2 ^ 24 } := by
  unfold gateWrite
  refine if_neg fun hbad => ?_
  obtain ⟨ha, hp⟩ := Bool.and_eq_true_iff.mp hbad
  rw [h ha] at hp
  cases hp

theorem gateWrite_stops (ha : assistedParsing s q = true) (hp : ¬ pointerOk (s.queue q) (v % 2 ^ 24) = true) (hen : (s.queue q).enable = true) :
    gateWrite s q v = stopQueue s q 1 8 := by
  unfold gateWrite
  dsimp only
  rw [if_pos (by simp [-Nat.reducePow, ha, hp]), if_pos hen]

end

section
variable {s : State} {q : QId} (h : queueMapped s q = true) (v : Word)
include h

theorem exec_queueEnable : exec (.queueEnable q v) s = .next (queueCtlWrite s q v.toNat) := by
  have hx : exec (.queueEnable q v) s = execQueueEnable q v s := rfl
  rw [hx, execQueueEnable, if_pos h]

theorem exec_queueDisable : exec (.queueDisable q v) s = .next (queueCtlWrite s q v.toNat) := by
  have hx : exec (.queueDisable q v) s = execQueueDisable q v s := rfl
  rw [hx, execQueueDisable, if_pos h]

theorem exec_queueRestart : exec (.queueRestart q v) s = .next (queueCtlWrite s q v.toNat) := by
  have hx : exec (.queueRestart q v) s = execQueueRestart q v s := rfl
  rw [hx, execQueueRestart, if_pos h]

theorem exec_queueGateWrite : exec (.queueGateWrite q v) s = .next (gateWrite s q v.toNat) := by
  have hx : exec (.queueGateWrite q v) s = execQueueGateWrite q v s := rfl
  rw [hx, execQueueGateWrite, if_pos h]

end

theorem queueRegisters : Claims.QueueRegisters := by
  intro s q v hmap
  refine ⟨fun hres hlo hhi hmgmt => ⟨fun hon hoff hbase hring hctx => ?_, fun hoff hstay => ?_, fun hon hre hen hk hlog hst => ?_,
    fun hen hmoved => ?_⟩, fun ha => ?_, fun ha h16 hsize => ?_, fun ha hbad hen => ?_⟩
  · exact (exec_queueEnable hmap v).trans (congrArg _ (queueCtlWrite_enable hres hlo hhi hmgmt hon hoff hbase hring hctx))
  · exact (exec_queueDisable hmap v).trans (congrArg _ (queueCtlWrite_disable hres hlo hhi hmgmt hoff hstay))
  · exact (exec_queueRestart hmap v).trans (congrArg _ (queueCtlWrite_restart hres hlo hhi hmgmt hon hre hen hk hlog hst))
  · exact (exec_queueEnable hmap v).trans (congrArg _ (queueCtlWrite_moved hen hmoved))
  · exact (exec_queueGateWrite hmap v).trans (congrArg _ (gateWrite_taken fun h => absurd (assistedParsing_iff.mp h) ha))
  · exact (exec_queueGateWrite hmap v).trans (congrArg _ (gateWrite_taken fun _ => pointerOk_iff.mpr ⟨h16, hsize⟩))
  · have hp : ¬ pointerOk (s.queue q) (v.toNat % 2 ^ 24) = true := fun hp => by
      obtain ⟨h16, hsize⟩ := pointerOk_iff.mp hp
      exact hbad.elim (absurd h16) (absurd hsize ∘ Nat.not_lt.mpr)
    have hq := stopQueue_queue s q 1 8
    refine ⟨_, (exec_queueGateWrite hmap v).trans (congrArg _ (gateWrite_stops (assistedParsing_iff.mpr ha) hp hen)),
      congrArg Queue.state hq, congrArg Queue.cause hq, congrArg Queue.subcode hq, congrArg Queue.opcode hq, stopQueue_msix s q 1 8,
      fun hplain => stopQueue_mem hplain q 1 8⟩

/-! ### Decoding -/

section
variable (s : State)

theorem exec_registerWrite_pf (off : Nat) (v : Word) (h : off % 8 = 0) : exec (.registerWrite 16 off v) s = .next (pfWrite s off v.toNat) := by
  have hx : exec (.registerWrite 16 off v) s = execRegisterWrite 16 off v s := rfl
  rw [hx, execRegisterWrite, if_neg (not_not_intro h), if_pos rfl]

theorem exec_registerWrite_vf (t off : Nat) (v : Word) (ht : t < 16) (h : off % 8 = 0) :
    exec (.registerWrite t off v) s = .next (vfWrite s t off v.toNat) := by
  have hx : exec (.registerWrite t off v) s = execRegisterWrite t off v s := rfl
  rw [hx, execRegisterWrite, if_neg (not_not_intro h), if_neg (by omega), if_pos ht]

theorem queueWrite_none (q : QId) (r v : Nat) (h : 0x30 ≤ r) : queueWrite s q r v = s := by
  unfold queueWrite
  dsimp only
  rw [if_neg (by omega), if_neg (by omega), if_neg (by omega), if_neg (by omega), if_neg (by omega), if_neg (by omega)]

theorem blockWrite_none (t r v : Nat) (h : (0x40 ≤ r ∧ r < 0x80) ∨ 0x110 ≤ r) : blockWrite s t r v = s := by
  unfold blockWrite
  rw [if_neg (by omega), if_neg (by omega), if_neg (by omega), if_neg (by omega), if_neg (by omega), if_neg (by omega), if_neg (by omega),
    if_neg (by omega), if_neg (by omega), if_neg (by omega), if_neg (by omega)]

theorem ctxWrite_none (t k r v : Nat) (h : r = 0x08 ∨ r = 0x50) : ctxWrite s t k r v = s := by
  rcases h with rfl | rfl <;> rfl

theorem pfWrite_none (off v : Nat) (h : (0x200 ≤ off ∧ off < 0x10000) ∨ (0x14000 ≤ off ∧ off < 0x20000) ∨ (0x20018 ≤ off ∧ off < 0x1000000) ∨
      0x2000000 ≤ off ∨ (off < 0x200 ∧ 0x30 ≤ off % 0x40) ∨
      (0x10000 ≤ off ∧ off < 0x14000 ∧ ((0x40 ≤ off % 0x400 ∧ off % 0x400 < 0x80) ∨ 0x110 ≤ off % 0x400))) : pfWrite s off v = s := by
  unfold pfWrite
  rw [if_neg (by omega), if_neg (by omega), if_neg (by omega), if_neg (by omega)]
  split
  · rfl
  · split
    · exact queueWrite_none s _ _ v (by omega)
    · split
      · exact blockWrite_none s _ _ v (by omega)
      · rfl

theorem vfWrite_none (t off v : Nat) (h : (0x1000 ≤ off ∧ off < 0x4000) ∨ (0x4800 ≤ off ∧ off < 0x5000) ∨
      (0x5000 ≤ off ∧ off < 0x6000 ∧ off ≠ 0x5008 ∧ off ≠ 0x5028) ∨ (0x6200 ≤ off ∧ off < 0x8000) ∨ 0x10000 ≤ off ∨
      (off < 0x1000 ∧ 0x30 ≤ off % 0x40) ∨ (0x4000 ≤ off ∧ off < 0x4800 ∧ (off % 0x80 = 0x08 ∨ off % 0x80 = 0x50))) : vfWrite s t off v = s := by
  unfold vfWrite
  split
  · rfl
  · split
    · exact queueWrite_none s _ _ v (by omega)
    · split
      · exact ctxWrite_none s t _ _ v (by omega)
      · rw [if_neg (by omega), if_neg (by omega), if_neg (by omega), if_neg (by omega)]

end

section
variable {s : State} (hopen : s.pkg.open_ = true)
include hopen

theorem vfWrite_queue (t q r v : Nat) (hq : q < 64) (hr : r < 0x40) : vfWrite s t (0x40 * q + r) v = queueWrite s ⟨t, q⟩ r v := by
  unfold vfWrite
  rw [hopen, if_neg (by decide), if_pos (by omega), show (0x40 * q + r) / 0x40 = q by omega, show (0x40 * q + r) % 0x40 = r by omega]

theorem pfWrite_queue (q r v : Nat) (hq : q < 8) (hr : r < 0x40) : pfWrite s (0x40 * q + r) v = queueWrite s ⟨16, q⟩ r v := by
  unfold pfWrite
  rw [if_neg (by omega), if_neg (by omega), if_neg (by omega), if_neg (by omega), hopen, if_neg (by decide), if_pos (by omega),
    show (0x40 * q + r) / 0x40 = q by omega, show (0x40 * q + r) % 0x40 = r by omega]

theorem vfWrite_ctx (t k r v : Nat) (hk : k < 16) (hr : r < 0x80) : vfWrite s t (0x4000 + 0x80 * k + r) v = ctxWrite s t k r v := by
  unfold vfWrite
  rw [hopen, if_neg (by decide), if_neg (by omega), if_pos (by omega), show (0x4000 + 0x80 * k + r - 0x4000) / 0x80 = k by omega,
    show (0x4000 + 0x80 * k + r) % 0x80 = r by omega]

theorem vfWrite_dbg (t k v : Nat) (hk : k < 16) : vfWrite s t (0x6000 + 0x20 * k) v = dbgWrite s t k 0 v := by
  unfold vfWrite
  rw [hopen, if_neg (by decide), if_neg (by omega), if_neg (by omega), if_neg (by omega), if_neg (by omega), if_pos (by omega),
    show (0x6000 + 0x20 * k - 0x6000) / 0x20 = k by omega, show (0x6000 + 0x20 * k) % 0x20 = 0 by omega]

theorem pfWrite_block (t r v : Nat) (ht : t < 16) (hr : r < 0x400) : pfWrite s (0x10000 + 0x400 * t + r) v = blockWrite s t r v := by
  unfold pfWrite
  rw [if_neg (by omega), if_neg (by omega), if_neg (by omega), if_neg (by omega), hopen, if_neg (by decide), if_neg (by omega), if_pos (by omega),
    show (0x10000 + 0x400 * t + r - 0x10000) / 0x400 = t by omega, show (0x10000 + 0x400 * t + r) % 0x400 = r by omega]

end

theorem within_iff (v hi lo : Nat) : within v hi lo = true ↔ v < 2 ^ (hi + 1) ∧ v % 2 ^ lo = 0 := by simp [within]

theorem registerWritesDecode : Claims.RegisterWritesDecode := by
  intro s v
  have hodd (fn off : Nat) (h : off % 8 ≠ 0) : exec (.registerWrite fn off v) s = .next s := by
    have hx : exec (.registerWrite fn off v) s = execRegisterWrite fn off v s := rfl
    rw [hx, execRegisterWrite, if_pos h]
  refine ⟨hodd, fun t off ht hclosed => ?_, fun off h => ?_, fun t off ht h => ?_, fun fn off h => ?_,
    fun hopen => ⟨fun t q ht hq => ?_, fun q hq => ?_, fun t k ht hk h12 h52 => ?_, fun t k ht hk h16 => ?_, fun t ht h32 => ?_,
      fun t ht h52 h8 => ?_⟩⟩
  · by_cases h : off % 8 = 0
    · rw [exec_registerWrite_vf s t off v ht h, vfWrite, hclosed]
      rfl
    · exact hodd t off h
  · by_cases h8 : off % 8 = 0
    · rw [exec_registerWrite_pf s off v h8, pfWrite_none s off _ h]
    · exact hodd 16 off h8
  · by_cases h8 : off % 8 = 0
    · rw [exec_registerWrite_vf s t off v ht h8, vfWrite_none s t off _ h]
    · exact hodd t off h8
  · have hx : exec (.registerWrite fn off v) s = execRegisterWrite fn off v s := rfl
    rw [hx, execRegisterWrite]
    split
    · rfl
    · rw [if_neg (by omega), if_neg (by omega)]
  · rw [exec_registerWrite_vf s t _ v ht (by omega), vfWrite_queue hopen t q 0x10 _ hq (by omega)]
    rfl
  · rw [exec_registerWrite_pf s _ v (by omega), pfWrite_queue hopen q 0x08 _ hq (by omega)]
    rfl
  · rw [exec_registerWrite_vf s t _ v ht (by omega), vfWrite_ctx hopen t k 0x10 _ hk (by omega)]
    exact congrArg _ (if_pos ((within_iff _ _ _).mpr ⟨h52, h12⟩))
  · rw [exec_registerWrite_vf s t _ v ht (by omega), vfWrite_dbg hopen t k _ hk]
    exact congrArg _ (if_pos ((within_iff _ _ _).mpr ⟨h16, Nat.mod_one _⟩))
  · rw [exec_registerWrite_pf s _ v (by omega), pfWrite_block hopen t 0x38 _ ht (by omega)]
    exact congrArg _ (if_neg (Nat.not_le.mpr h32))
  · rw [exec_registerWrite_pf s _ v (by omega), pfWrite_block hopen t 0x108 _ ht (by omega)]
    exact congrArg _ (if_neg (not_or.mpr ⟨Nat.not_le.mpr h52, not_not_intro h8⟩))

/-- Settles O53: the queue registers, and the decoding of a write's offset. -/
theorem queueAndMailboxRegisters : Obligations.QueueAndMailboxRegisters := ⟨queueRegisters, registerWritesDecode⟩

end Sys2Proof.Machine
end

section
/-! Faults of groups (O46). The statement asks that the cores keep what they hold; but where a group's transaction has depth 0 and is still
marked serial, the fault releases the grant, and the core's L1 copies of the locked sectors are dropped (R208). No run reaches such a
state: `closeTx` clears the mark. -/

namespace Sys2Proof.Machine

open Sys2Proof

/-- A launch of one group, whose transaction is marked serial at depth 0. -/
def serialIdleLaunch : Launch :=
  { id := 1, tenant := 0, ctx := 0, hdr := [], body := [], objId := 0, obj := 0, entry := 0, g := 1, n := 1, ext := [], budget := 0, spad := 0,
    domLevel := 0, domGroups := 0, clmask := 0, tag := 0, idem := false, args := [], status := none, packet := none, node := none,
    placed := true, restored := false, retired := 0, groups := [(0, { GroupSt.empty with tx := { Tx.empty with serial := true } })],
    domains := [] }

/-- Its group's galley, at core 0. -/
def serialIdleGalley : Galley :=
  { id := 2, launch := 1, first := 0, count := 1, core := some 0, slot := 0, age := 0, home := 0, paths := [], phase := 0,
    pending := false, recorded := 0, arrived := false, fixed := false }

/-- The group holds the serial grant, with one written lock, and no core's state is stored. -/
def serialIdle : State :=
  { State.reset with launches := [serialIdleLaunch], galleys := [serialIdleGalley], serial := ⟨some ⟨1, 0⟩, [], [⟨0, 0, [], true⟩], []⟩ }

/-- The fault drops L1 copies, and so stores a core's state. -/
theorem serialIdle_fault_cores :
    (takeFault serialIdle serialIdleGalley serialIdleLaunch Thread.empty .trap 0 0 0).cores.length = 1 := by decide

/-- Refutes O46: for `serialIdle` the fault does not keep the cores. -/
theorem not_fatalContextsAndDumps : ¬ Obligations.FatalContextsAndDumps := by
  rintro ⟨hfault, -⟩
  obtain ⟨-, -, -, -, hcores, -⟩ := hfault serialIdle serialIdleGalley serialIdleLaunch Thread.empty .trap 0 0 0 (by decide) (by decide)
  have hlen := serialIdle_fault_cores
  rw [hcores] at hlen
  exact absurd hlen (by decide)

end Sys2Proof.Machine
end

section
/-! The choice of an issue slot (O42): candidates in order of age, the leader, and companions in columns of their own. -/

namespace Sys2Proof.Machine

open Sys2Proof

/-! ### Candidates in order of age -/

theorem insertAge_perm (c : Cand) (cs : List Cand) : (insertAge c cs).Perm (c :: cs) := by
  induction cs with
  | nil => exact .refl _
  | cons x xs ih =>
    unfold insertAge
    split
    · exact .refl _
    · exact (ih.cons x).trans (.swap c x xs)

theorem insertAge_sorted (c : Cand) {cs : List Cand} (h : cs.Pairwise (fun a b => a.age ≤ b.age)) :
    (insertAge c cs).Pairwise (fun a b => a.age ≤ b.age) := by
  induction cs with
  | nil => exact List.pairwise_singleton _ _
  | cons x xs ih =>
    obtain ⟨hx, hxs⟩ := List.pairwise_cons.mp h
    unfold insertAge
    split
    · next hlt =>
      refine List.pairwise_cons.mpr ⟨fun y hy => ?_, h⟩
      rcases List.mem_cons.mp hy with rfl | hy
      · exact hlt.le
      · exact hlt.le.trans (hx y hy)
    · next hle =>
      refine List.pairwise_cons.mpr ⟨fun y hy => ?_, ih hxs⟩
      rcases List.mem_cons.mp ((insertAge_perm c xs).mem_iff.mp hy) with rfl | hy
      · exact Nat.not_lt.mp hle
      · exact hx y hy

theorem sortAge_sorted (cs : List Cand) : (sortAge cs).Pairwise (fun a b => a.age ≤ b.age) :=
  List.foldlRecOn cs _ List.Pairwise.nil fun _ h c _ => insertAge_sorted c h

theorem mem_of_mem_sortAge {c : Cand} {cs : List Cand} (h : c ∈ sortAge cs) : c ∈ cs := by
  refine List.foldlRecOn (motive := fun r => c ∈ r → c ∈ cs) cs _ (fun h => absurd h List.not_mem_nil) (fun r hr x hx hc => ?_) h
  rcases List.mem_cons.mp ((insertAge_perm x r).mem_iff.mp hc) with rfl | hc
  · exact hx
  · exact hr hc

theorem Galley.units_galley {g : Galley} {x : UnitId × Thread} (h : x ∈ g.units) : x.1.galley = g.id := by
  obtain ⟨us, hus, hx⟩ := List.mem_flatten.mp h
  obtain ⟨i, hi, rfl⟩ := List.mem_mapIdx.mp hus
  split at hx
  · cases hx
  · split at hx
    · rw [List.mem_singleton.mp hx]
    · obtain ⟨y, -, rfl⟩ := List.mem_map.mp hx
      rfl

/-- A candidate's age is its galley's. -/
theorem mem_galleyCands {s : State} {core q : Nat} {g : Galley} {c : Cand} (h : c ∈ galleyCands s core q g) : c.u.galley = g.id ∧ c.age = g.age := by
  unfold galleyCands at h
  split at h
  · cases h
  · obtain ⟨i, -, hi⟩ := List.mem_filterMap.mp h
    split at hi
    · cases hi
    · next x hx =>
      split at hi
      · obtain rfl := Option.some.inj hi
        exact ⟨Galley.units_galley (List.mem_filter.mp (List.mem_of_find?_eq_some hx)).1, rfl⟩
      · cases hi

/-- Candidates of one galley are of one age. -/
theorem candidates_age {s : State} {core q : Nat} (hnodup : (s.galleys.map Galley.id).Nodup) {c d : Cand} (hc : c ∈ candidates s core q)
    (hd : d ∈ candidates s core q) (h : d.u.galley = c.u.galley) : d.age = c.age := by
  obtain ⟨g, hg, hcg⟩ := List.mem_flatMap.mp (mem_of_mem_sortAge hc)
  obtain ⟨g', hg', hdg⟩ := List.mem_flatMap.mp (mem_of_mem_sortAge hd)
  obtain ⟨hcid, hcage⟩ := mem_galleyCands hcg
  obtain ⟨hdid, hdage⟩ := mem_galleyCands hdg
  have hsame : g' = g :=
    List.inj_on_of_nodup_map hnodup (List.mem_filter.mp hg').1 (List.mem_filter.mp hg).1 (hdid.symm.trans (h.trans hcid))
  rw [hdage, hcage, hsame]

/-! ### The leader and its companions -/

theorem leaderOf_none {x : Core} {q : Nat} {cs : List Cand} : leaderOf x q cs = none ↔ cs = [] := by
  cases cs with
  | nil => simp [leaderOf]
  | cons c cs =>
    unfold leaderOf
    dsimp only
    split
    · split <;> simp
    · simp

/-- R132: the leader is a candidate, and none is older. -/
theorem leaderOf_some {x : Core} {q : Nat} {cs : List Cand} {lead : Cand} (h : leaderOf x q cs = some lead)
    (hsorted : cs.Pairwise (fun a b => a.age ≤ b.age)) (hage : ∀ c ∈ cs, ∀ d ∈ cs, d.u.galley = c.u.galley → d.age = c.age) :
    lead ∈ cs ∧ ∀ c ∈ cs, lead.age ≤ c.age := by
  cases cs with
  | nil => cases h
  | cons c cs =>
    have hoLd : ∀ d ∈ c :: cs, c.age ≤ d.age := fun d hd => by
      rcases List.mem_cons.mp hd with rfl | hd
      · exact le_rfl
      · exact (List.pairwise_cons.mp hsorted).1 d hd
    have hfirst : c ∈ c :: cs ∧ ∀ d ∈ c :: cs, c.age ≤ d.age := ⟨List.mem_cons_self .., hoLd⟩
    unfold leaderOf at h
    dsimp only at h
    split at h
    · next d hd =>
      split at h
      · obtain rfl := Option.some.inj h
        have hmem := List.mem_cons_of_mem c (List.mem_of_find?_eq_some hd)
        have hsame := hage c (List.mem_cons_self ..) d hmem (by simpa using List.find?_some hd)
        exact ⟨hmem, fun e he => hsame ▸ hoLd e he⟩
      · obtain rfl := Option.some.inj h
        exact hfirst
    · obtain rfl := Option.some.inj h
      exact hfirst

/-- R133: companions are packable candidates at the leader's place, in columns of their own. -/
theorem companions_result (lead : Cand) (used : List Nat) (cs : List Cand) :
    (∀ c ∈ companions lead used cs, c ∈ cs ∧ c.pack = true ∧ c.place = lead.place ∧ c.col ∉ used) ∧
    ((companions lead used cs).map Cand.col).Nodup := by
  induction cs generalizing used with
  | nil => exact ⟨fun c hc => absurd hc List.not_mem_nil, List.nodup_nil⟩
  | cons x xs ih =>
    unfold companions
    split
    · next h =>
      obtain ⟨-, hpack, hcol, hplace⟩ := h
      have hcol : x.col ∉ used := by simpa using hcol
      obtain ⟨hin, hnodup⟩ := ih (x.col :: used)
      refine ⟨fun c hc => ?_, ?_⟩
      · rcases List.mem_cons.mp hc with rfl | hc
        · exact ⟨List.mem_cons_self .., hpack, hplace, hcol⟩
        · obtain ⟨hmem, hp, hpl, hout⟩ := hin c hc
          exact ⟨List.mem_cons_of_mem _ hmem, hp, hpl, fun hu => hout (List.mem_cons_of_mem _ hu)⟩
      · rw [List.map_cons, List.nodup_cons]
        refine ⟨fun hx => ?_, hnodup⟩
        obtain ⟨c, hc, hcx⟩ := List.mem_map.mp hx
        obtain ⟨-, -, -, hout⟩ := hin c hc
        exact hout (hcx ▸ List.mem_cons_self ..)
    · obtain ⟨hin, hnodup⟩ := ih used
      refine ⟨fun c hc => ?_, hnodup⟩
      obtain ⟨hmem, hrest⟩ := hin c hc
      exact ⟨List.mem_cons_of_mem _ hmem, hrest⟩

/-! ### The issue slot -/

theorem startUnit_mem (q : Nat) (s : State) (c : Cand) : (startUnit q s c).mem = s.mem := by
  unfold startUnit
  split
  · rfl
  · split
    · rfl
    · split <;> rfl

/-- Candidates whose bit of the round is clear. -/
def freshCands (v : State) (core q : Nat) : List Cand :=
  (candidates v core q).filter (fun c => !((v.core core).rounds.getD q []).contains (c.u.galley, c.u.path))

def eligibleCands (v : State) (core q : Nat) : List Cand :=
  if (freshCands v core q).isEmpty then candidates v core q else freshCands v core q

/-- The core once its queue's round is over, or as it is. -/
def roundCore (v : State) (core q : Nat) : Core :=
  if (freshCands v core q).isEmpty then { v.core core with rounds := (v.core core).rounds.set q [] } else v.core core

theorem issueAct_eq (core q : Nat) (s : State) : issueAct core q s =
    (let v := releaseCores (primeCore s core)
     match leaderOf (roundCore v core q) q (eligibleCands v core q) with
     | none => v.setCore core (roundCore v core q)
     | some lead =>
       let chosen := lead :: companions lead [lead.col] (candidates v core q)
       { chosen.foldl (startUnit q) (v.setCore core (roundCore v core q)) with
         cur := chosen.map Cand.u, slot := some ⟨core, q, slotEvent (v.setCore core (roundCore v core q)) q lead, lead.place, chosen.map Cand.u⟩ }) := by
  unfold issueAct roundCore eligibleCands freshCands
  rfl

theorem eligible_sublist (v : State) (core q : Nat) : (eligibleCands v core q).Sublist (candidates v core q) := by
  unfold eligibleCands
  split
  · exact .refl _
  · exact List.filter_sublist

theorem eligible_nil (v : State) (core q : Nat) (h : candidates v core q = []) : eligibleCands v core q = [] :=
  List.sublist_nil.mp (h ▸ eligible_sublist v core q)

theorem eligible_ne_nil (v : State) (core q : Nat) (h : candidates v core q ≠ []) : eligibleCands v core q ≠ [] := by
  unfold eligibleCands
  split
  · exact h
  · next hne => simpa using hne

section
variable {s : State} {core : Nat} {q : QName} (hcur : s.cur = []) (hruns : s.pkg.runs = true)

theorem exec_issueCycle_again (h : s.issuedAt core (queueNum q) = true) : exec (.issueCycle core q) s = .next s := by
  have hx : exec (.issueCycle core q) s = execIssueCycle core q s := rfl
  rw [hx, execIssueCycle, if_neg (by simp [h])]

include hcur hruns in
theorem exec_issueCycle (h : s.issuedAt core (queueNum q) = false) : exec (.issueCycle core q) s = .next (issueAct core (queueNum q) s) := by
  have hx : exec (.issueCycle core q) s = execIssueCycle core q s := rfl
  rw [hx, execIssueCycle, if_pos (by simp [h, hcur, hruns])]

end

/-- Settles O42: the leader is of the oldest eligible, its companions stand where it stands. -/
theorem issueChoosesTheOldest : Obligations.IssueChoosesTheOldest := by
  intro s core q hcur hruns
  refine ⟨exec_issueCycle_again, fun h => ?_⟩
  have hx := (exec_issueCycle hcur hruns h).trans (congrArg _ (issueAct_eq core (queueNum q) s))
  dsimp only at hx
  generalize hv : releaseCores (primeCore s core) = v at hx
  refine ⟨fun hnone => ?_, fun hsome hnodup => ?_⟩
  · have hfresh : (freshCands v core (queueNum q)).isEmpty = true := by
      unfold freshCands
      rw [hnone]
      rfl
    rw [leaderOf_none.mpr (eligible_nil v core _ hnone), roundCore, if_pos hfresh] at hx
    exact hx
  · cases hlead : leaderOf (roundCore v core (queueNum q)) (queueNum q) (eligibleCands v core (queueNum q)) with
    | none => exact absurd (leaderOf_none.mp hlead) (eligible_ne_nil v core _ hsome)
    | some lead =>
      rw [hlead] at hx
      have hsub := (eligible_sublist v core (queueNum q)).subset
      obtain ⟨hin, hold⟩ := leaderOf_some hlead ((sortAge_sorted _).sublist (eligible_sublist v core (queueNum q)))
        fun c hc d hd => candidates_age hnodup (hsub hc) (hsub hd)
      obtain ⟨hmates, hcols⟩ := companions_result lead [lead.col] (candidates v core (queueNum q))
      refine ⟨_, lead, companions lead [lead.col] (candidates v core (queueNum q)), hx, rfl, rfl, hin, hold, fun c hc => ?_, ?_, ?_⟩
      · obtain ⟨hmem, hpack, hplace, -⟩ := hmates c hc
        exact ⟨hmem, hpack, hplace⟩
      · rw [List.map_cons, List.nodup_cons]
        refine ⟨fun hl => ?_, hcols⟩
        obtain ⟨c, hc, hcl⟩ := List.mem_map.mp hl
        obtain ⟨-, -, -, hout⟩ := hmates c hc
        exact hout (hcl ▸ List.mem_cons_self ..)
      · exact foldl_keeps State.mem (fun s c => startUnit_mem _ s c) _ (v.setCore core (roundCore v core (queueNum q)))

end Sys2Proof.Machine
end

section
/-! SIGNAL at a counter of a peer module (O33). The statement asks that the packet changes the counter's eight bytes alone; but where this
module's groups have an exact entry at a line of a peer (R186, R192), the access first finalises it (R195), which the statement's `NoExact`,
that speaks of this module's slices, does not exclude. -/

namespace Sys2Proof.Machine

open Sys2Proof

/-- SIGNAL with VALUE 0 at 0x10000. -/
def peerSignalPacket : List Byte := leBytes 16 (3 + 2 * 2 ^ 16) ++ leBytes 8 0x10000 ++ leBytes 8 0

/-- Queue 0 of tenant 0, whose packet at RP is `b`, read and checked. -/
def peerQueue (b : List Byte) : Queue :=
  { Queue.reset with base := 0x40000, enable := true, logSize := 12, wp := b.length, state := .active, parsed := true, checked := true, packet := b }

/-- A page table that maps the page at 0x10000 of context 0 to a peer module, writable. -/
def peerTables : Memory :=
  [(0x100000, 0x200001), (0x200000, 0x300001), (0x300000, 0x400001), (0x400008, 0x10123)].foldl
    (fun (m : Memory) (w : Nat × Nat) => m.writeNat w.1 8 w.2) []

/-- An exact entry at the peer's line 0x10000: its element 8 has met a NaN. -/
def peerEntry : AccEntry := ⟨0x10000, 1, 0, 0, [(8, ⟨0, true, false, false, false⟩)]⟩

/-- Context 0 of tenant 0 runs, its queue 0 holds the packet, and the exact entry is the one thing else on the device. -/
def peerSignalState : State :=
  { State.reset with
    pkg := { Package.reset with step := 7, ready := true }
    mem := peerTables
    peerAcc := [peerEntry]
    tenants := [(0, { Tenant.reset with enable := true, wins := [(0, 2 ^ 31)] })]
    ctxs := [(0, { Ctx.reset with state := .running, enable := true, ptRoot := 0x100000 })]
    queues := [(0, peerQueue peerSignalPacket)] }

def peerSignalIn : PktIn := ⟨⟨0, 0⟩, Hdr.of (leNat (peerSignalPacket.take 16)), peerSignalPacket.drop 16, none⟩

theorem peerSignal_starts : Starts peerSignalState 3 ⟨0, 0⟩ peerSignalIn where
  plain _ := ⟨rfl, rfl⟩
  queue := rfl
  mapped := by decide
  enabled := rfl
  going := by decide
  checked := rfl
  head := rfl
  body := rfl
  type := by decide +kernel
  whole := by decide +kernel
  ready := by decide +kernel
  sig := by decide +kernel
  fresh := by simp [peerSignalState, State.reset]

theorem peerSignal_finds : Finds peerSignalState ⟨0, 0⟩ (peerSignalIn.field 0 8) 8 .qAtomic ⟨2, 0x10000⟩ := by
  unfold Finds
  decide +kernel

/-- The packet's step finalises the peer's entry, and so writes its element. -/
theorem peerSignal_writes : (startPacket 3 ⟨0, 0⟩ peerSignalState signalAct).peerMem ≠ [] := by decide +kernel

/-- Refutes O33: with `peerSignalState` SIGNAL also writes the finalised element of the peer's line. -/
theorem not_packetsAndCounterWaits : ¬ Obligations.PacketsAndCounterWaits := by
  rintro ⟨hpass, -⟩
  obtain ⟨-, -, hsignal⟩ := hpass peerSignalState ⟨0, 0⟩ peerSignalIn
  obtain ⟨t, ht, hpassed⟩ := hsignal ⟨2, 0x10000⟩ peerSignal_starts peerSignal_finds
  have hx : exec (.signal ⟨0, 0⟩) peerSignalState = .next (startPacket 3 ⟨0, 0⟩ peerSignalState signalAct) := rfl
  rw [hx] at ht
  injection ht with ht
  refine peerSignal_writes ((congrArg State.peerMem ht).trans (hpassed.peerMem.trans ?_))
  decide +kernel

end Sys2Proof.Machine
end

section
/-! A load at a peer module (O14). The statement asks that a load which goes to the home slice changes nothing but TLBs; but at a peer's line
of which this module's groups hold an exact entry it finalises that entry (R186, R195), which `NoExact` does not exclude. -/

namespace Sys2Proof.Machine

open Sys2Proof

/-- A launch of one group of one lane. -/
def oneLaneLaunch : Launch := { serialIdleLaunch with groups := [] }

def oneLanePath : Path := ⟨{ Thread.empty with mask := 1 }, none, [], none, []⟩

def oneLaneGalley : Galley := { serialIdleGalley with paths := [oneLanePath] }

/-- The one unit of core 0, whose L1 TLB maps the page at 0x10000 to a peer module, of which line 0x10000 has an exact entry. -/
def peerLeafState : State :=
  { State.reset with
    peerAcc := [peerEntry]
    launches := [oneLaneLaunch]
    galleys := [oneLaneGalley]
    cores := [(0, { Core.reset with tlb := [⟨0, 0, 0x10000, 0x10000, 0x10000, 2, false, true⟩] })]
    cur := [⟨2, 0, none⟩] }

def peerLeafExe : Exe := { uid := ⟨2, 0, none⟩, g := oneLaneGalley, l := oneLaneLaunch, core := 0, path := oneLanePath, th := oneLanePath.th, act := 1 }

theorem peerLeaf_leaf : Leaf peerLeafState peerLeafExe where
  runs := by decide +kernel
  one := rfl
  laold := rfl

/-- `ld.g n32` of 0x10000, past the L1. -/
def peerLoadWord : Main := ⟨.n32, 64, .imm 0x10000, .imm 0, .none, none⟩

theorem peerLoad_reaches : Reaches peerLeafState peerLeafExe .rd
    ((peerLeafExe.actors [peerLeafExe.opnd peerLeafState .n64 peerLoadWord.a, peerLeafExe.opnd peerLeafState .i64 peerLoadWord.b]).map (fun i =>
      ⟨i.1, i.2, peerLeafExe.ea (peerLeafExe.opnd peerLeafState .n64 peerLoadWord.a) (peerLeafExe.opnd peerLeafState .i64 peerLoadWord.b) i,
        peerLoadWord.ty.bytes, peerLoadWord.ty.bytes⟩))
    [(⟨0, 0, 0x10000, 4, 4⟩, ⟨2, 0x10000⟩, false)] peerLeafState where
  planned := by decide +kernel
  free := by decide +kernel
  own := by decide +kernel

/-- The state after the load, if there is one. -/
def peerLoaded : Option State :=
  match exec (.ldG peerLoadWord) peerLeafState with
  | .next t => some t
  | _ => none

theorem peerLoad_writes : peerLoaded.map (fun t => t.peerMem.isEmpty) = some false := by decide +kernel

/-- Refutes O14: with `peerLeafState` the load also writes the finalised element of the peer's line. -/
theorem not_loadsAndTheirFaults : ¬ Obligations.LoadsAndTheirFaults := by
  rintro ⟨hload, -, -⟩
  obtain ⟨v, hnext, -⟩ := hload peerLeafState peerLeafState peerLeafExe peerLoadWord _ peerLeaf_leaf (by decide +kernel) peerLoad_reaches
    (fun _ => ⟨rfl, rfl⟩) rfl (.inl (by decide))
  have hwrites := peerLoad_writes
  have hput : (peerLeafExe.put peerLeafState (peerLeafExe.th.after [v])).peerMem = [] := by
    unfold Exe.put
    split <;> rfl
  rw [peerLoaded, hnext] at hwrites
  simp [hput] at hwrites

end Sys2Proof.Machine
end

section
/-! Tensors in a peer module (O17), as the loads of O14: a `tnld` whose element lies at a peer's line of which this module's groups hold an
exact entry finalises that entry (R186, R195). -/

namespace Sys2Proof.Machine

open Sys2Proof

/-- A sealed record of one element of 32 bits (format 0x1B), untiled, at 0x10000; its generation is 0. -/
def peerRecord : List Byte :=
  leBytes 8 0x011B0101 ++ leBytes 8 0x10000 ++ [1, 1, 1, 1, 1, 1].flatMap (leBytes 4) ++ List.replicate 152 0

/-- `peerLeafState`, with the record in the cluster's cache. -/
def peerTensorState : State :=
  { peerLeafState with clusters := [(0, { Cluster.reset with recs := [(0, 0, 0x20000, peerRecord)] })] }

theorem peerTensor_leaf : Leaf peerTensorState peerLeafExe where
  runs := by decide +kernel
  one := rfl
  laold := rfl

/-- `tnld n32` of the record's one element, past the L1. -/
def peerTensorWord : Main := ⟨.n32, 8, .imm 0x20000, .imm 0, .imm 0, none⟩

def peerTensorExt : X4 := ⟨.imm 0, .imm 0, .imm 0, .imm 0⟩

/-- The state after the load, if there is one. -/
def peerTensorLoaded : Option State :=
  match exec (.tnld peerTensorWord peerTensorExt) peerTensorState with
  | .next t => some t
  | _ => none

theorem peerTensor_writes : peerTensorLoaded.map (fun t => t.peerMem.isEmpty) = some false := by decide +kernel

/-- Refutes O17: with `peerTensorState` the load also writes the finalised element of the peer's line. -/
theorem not_tensorTransfers : ¬ Obligations.TensorTransfers := by
  rintro ⟨hload, -⟩
  obtain ⟨v, hnext, -⟩ := hload peerTensorState peerTensorState peerLeafExe peerTensorWord peerTensorExt 0x20000 peerRecord
    [(⟨0, 0, 0x10000, 4, 4⟩, ⟨2, 0x10000⟩, false)] peerTensor_leaf (by decide +kernel) (by decide +kernel) (by decide +kernel)
    (by decide +kernel) (by decide +kernel) (by decide +kernel) (by decide +kernel) (by decide +kernel) (by decide)
    ⟨by decide +kernel, by decide +kernel, by decide +kernel⟩ (fun _ => ⟨rfl, rfl⟩) rfl
  have hwrites := peerTensor_writes
  have hput : (peerLeafExe.put peerTensorState (peerLeafExe.th.after [v])).peerMem = [] := by
    unfold Exe.put
    split <;> rfl
  rw [peerTensorLoaded, hnext] at hwrites
  simp [hput] at hwrites

end Sys2Proof.Machine
end

section
/-! The index of affine coordinates (O18). The statement asks for an affine index in a galley of any number of groups; in a galley of several
groups none of which has a live lane there is no item at which the record is read, and `execTnidx` then defines 0. No run reaches such a
galley: groups without lanes retire. -/

namespace Sys2Proof.Machine

open Sys2Proof

/-- A launch of no items. -/
def emptyLaunch : Launch := { oneLaneLaunch with n := 0 }

/-- A path that holds one affine value. -/
def affinePath : Path := ⟨{ Thread.empty with mask := 1, vals := [⟨.i64, .a 0 1⟩] }, none, [], none, []⟩

def emptyGalley : Galley := { oneLaneGalley with count := 2, paths := [affinePath] }

/-- A galley of two groups without lanes executes, and the cluster has cached a sealed record. -/
def emptyGalleyState : State :=
  { peerTensorState with launches := [emptyLaunch], galleys := [emptyGalley] }

def emptyGalleyExe : Exe :=
  { uid := ⟨2, 0, none⟩, g := emptyGalley, l := emptyLaunch, core := 0, path := affinePath, th := affinePath.th, act := 1 }

theorem emptyGalley_runs : Runs emptyGalleyState emptyGalleyExe where
  runs := by decide +kernel
  laold := rfl

/-- `tnidx n64` of the record with the affine value as its first coordinate. -/
def emptyIndexWord : Main := ⟨.n64, 0, .imm 0x20000, .dist 1, .imm 0, none⟩

/-- The values of the unit after the index, if it goes on. -/
def emptyIndexed : Option (List TVal) :=
  match exec (.tnidx emptyIndexWord peerTensorExt) emptyGalleyState with
  | .next t => (t.galleys.head?.bind (fun g => g.thread? ⟨2, 0, none⟩)).map Thread.vals
  | _ => none

theorem emptyIndex_uniform : emptyIndexed.bind List.head? = some ⟨.n64, .u 0⟩ := by decide +kernel

/-- Refutes O18: with `emptyGalleyState` the index is the uniform 0. -/
theorem not_tensorHandlesAndRelayout : ¬ Obligations.TensorHandlesAndRelayout := by
  rintro ⟨⟨hindex, -⟩, -⟩
  have hnext := hindex emptyGalleyState emptyGalleyExe emptyIndexWord peerTensorExt 0x20000 peerRecord
    [(0, 1), (0, 0), (0, 0), (0, 0), (0, 0), (0, 0)] emptyGalley_runs (by decide) rfl (by decide +kernel) (by decide +kernel)
    (by decide +kernel) (by decide +kernel) ⟨⟨.i64, .a 0 1⟩, by decide +kernel, rfl⟩
  have huni := emptyIndex_uniform
  rw [emptyIndexed, hnext] at huni
  revert huni
  decide +kernel

end Sys2Proof.Machine
end

section
/-! Atomics at a peer module (O23, O24). The statements ask that an atomic changes the bytes at its target alone; but at a peer's line of
which this module's groups hold an exact entry it finalises that entry (R186, R195), which `NoExact` does not exclude. -/

namespace Sys2Proof.Machine

open Sys2Proof

/-- An exact entry at a peer's line is the one thing on the device. -/
def peerEntryState : State := { State.reset with peerAcc := [peerEntry] }

theorem setMemOf_two_peerAcc (s : State) (m : Memory) : (s.setMemOf 2 m).peerAcc = s.peerAcc := rfl

/-- The atomic takes the entry away. -/
theorem peerEntry_atomic : (peerEntryState.atomicAt ⟨2, 0x10000⟩ 8 0 false false 0 0).2.peerAcc = [] := by decide +kernel

/-- Refutes O23: in `peerEntryState` an add of 0 at the peer's line also finalises its entry. -/
theorem not_atomicsAtTheSlice : ¬ Obligations.AtomicsAtTheSlice := by
  rintro ⟨hatomic, -⟩
  obtain ⟨-, m, hnext, -⟩ := hatomic peerEntryState ⟨2, 0x10000⟩ 8 0 0 0 false false (fun _ => ⟨rfl, rfl⟩) rfl (by decide) (by decide)
    (by decide)
  have hgone := peerEntry_atomic
  rw [hnext, setMemOf_two_peerAcc] at hgone
  exact absurd hgone (by decide)

/-- An add of 0 to the 8 bytes at the peer's 0x10000. -/
def peerQueueEntry : AqEntry := ⟨8 * 2 ^ 52 + 0x10000, 0, false, ⟨1, 0, 2, 0⟩⟩

/-- `peerEntryState`, with the add at the head of the queue of core 0. -/
def peerDrainState : State :=
  { peerEntryState with launches := [oneLaneLaunch], cores := [(0, { Core.reset with aq := [peerQueueEntry] })] }

/-- The exact entries of peers after the drain, if it goes on. -/
def peerDrained : Option (List AccEntry) :=
  match exec (.atomicQueueDrain 0) peerDrainState with
  | .next t => some t.peerAcc
  | _ => none

theorem peerDrain_empties : peerDrained = some [] := by decide +kernel

theorem popAtomic_peerAcc (s : State) (core : Nat) : (popAtomic s core).peerAcc = s.peerAcc := by
  unfold popAtomic
  dsimp only
  split <;> rfl

theorem landed_peerAcc (s : State) (p : PTarget) : (s.landed p).peerAcc = s.peerAcc := rfl

theorem l1Drop_peerAcc (s : State) (core : Nat) (p : PTarget) (n : Nat) : (l1Drop s core p n).peerAcc = s.peerAcc := by
  unfold l1Drop
  split <;> rfl

/-- Refutes O24: in `peerDrainState` the drain also finalises the entry of the peer's line. -/
theorem not_queuedAtomics : ¬ Obligations.QueuedAtomics := by
  rintro ⟨-, hdrain, -⟩
  obtain ⟨m, u, -, hu, hnext, -⟩ := hdrain peerDrainState 0 peerQueueEntry [] oneLaneLaunch (by decide +kernel) rfl (by decide +kernel)
    (fun _ => ⟨rfl, rfl⟩) (by decide) (by decide) (by decide) (by decide) (by decide) (by decide +kernel) (by decide +kernel)
  have hempty := peerDrain_empties
  have hkept : u.peerAcc = [peerEntry] := by
    rw [hu]
    split
    · exact landed_peerAcc _ _
    · rfl
  rw [peerDrained, hnext] at hempty
  simp only [popAtomic_peerAcc, l1Drop_peerAcc, hkept] at hempty
  exact absurd hempty (by decide)

end Sys2Proof.Machine
end

section
/-! The save area of a pre-emption (O38). The statement asks that the galleys of other contexts stay as they are; but the completion counter
of the PREEMPT packet is an add, which the `cntwait`s parked on that counter see (R162), so that a galley of another context may change. -/

namespace Sys2Proof.Machine

open Sys2Proof

/-- A page table that maps the page at 0x10000 of context 0 to the device page at 0x500000, writable. -/
def saveTables : Memory :=
  [(0x100000, 0x200001), (0x200000, 0x300001), (0x300000, 0x400001), (0x400008, 0x500023)].foldl
    (fun (m : Memory) (w : Nat × Nat) => m.writeNat w.1 8 w.2) []

/-- A PREEMPT packet whose completion counter is at 0x600000. -/
def savePacket : Packet :=
  { id := 5, q := ⟨0, 0⟩, ctx := 0, opcode := 9, hdr := [], body := [], sig := some ⟨0, 0x600000⟩, irq := false, vec := 0, status := none,
    walks := [] }

def savePreempt : Preempt :=
  { packet := some 5, mode := 0, stopping := true, txOver := false, saveVa := 0x10000, saveLen := 128, brk := false }

/-- A galley of no launch of the context, which waits until the counter is 1. -/
def counterGalley : Galley :=
  { serialIdleGalley with launch := 77, paths := [⟨{ Thread.empty with mask := 1, wait := .counter 0 0x600000 1 false }, none, [], none, []⟩] }

/-- Context 0 of tenant 0 is pre-empted while none of its groups is on the device. -/
def saveState : State :=
  { State.reset with
    pkg := { Package.reset with step := 7, ready := true }
    mem := saveTables
    tenants := [(0, { Tenant.reset with enable := true, wins := [(0, 2 ^ 31)] })]
    ctxs := [(0, { Ctx.reset with state := .running, enable := true, ptRoot := 0x100000, preempt := some savePreempt })]
    queues := [(0, { Queue.reset with base := 0x40000, enable := true, logSize := 12, state := .active })]
    packets := [savePacket]
    galleys := [counterGalley] }

theorem saveState_reached : SpanReached saveState ⟨0, 0⟩ 0 0x10000 128 := by
  have hparts : pageParts (128 / 65536 + 2) 0x10000 128 = [(0x10000, 128)] := by decide
  rw [SpanReached, hparts]
  intro x hx
  rw [List.mem_singleton.mp hx]
  exact ⟨0x500000, by unfold Reached; decide +kernel⟩

theorem saveState_area : (saveArea saveState 0 0 false).length = 124 := by decide +kernel

/-- The galleys after the save, if it goes on. -/
def savedGalleys : Option (List Galley) :=
  match exec (.preemptSaveDone 0 0) saveState with
  | .next t => some t.galleys
  | _ => none

theorem saved_lands : savedGalleys ≠ some [counterGalley] := by decide +kernel

/-- Refutes O38: in `saveState` the PREEMPT packet's completion ends the wait of `counterGalley`. -/
theorem not_preemptionAndResumption : ¬ Obligations.PreemptionAndResumption := by
  rintro ⟨hpreempt, -⟩
  obtain ⟨-, -, -, hsave⟩ := hpreempt saveState
  obtain ⟨-, u, hnext, -, -, hgalleys, -⟩ := hsave 0 0 savePreempt savePacket rfl (by decide) (by decide +kernel) rfl rfl (by decide +kernel)
    (by decide +kernel) (by rw [show savePreempt.brk = false from rfl, saveState_area]; decide)
    (by rw [show savePreempt.brk = false from rfl, saveState_area]; exact saveState_reached)
  have hlands := saved_lands
  rw [savedGalleys, hnext] at hlands
  exact hlands ((congrArg some hgalleys).trans (by decide +kernel))

end Sys2Proof.Machine
end

section
/-! Packets (O34 to O37, O39): how a checked packet starts, what its accesses find, and what completion signalling changes. A packet's
action changes its own queue, the list of packets and the next number; `State.withPackets` sets these three. -/

namespace Sys2Proof.Machine

open Sys2Proof

/-! ### Accesses that change nothing but memory and the galleys that wait for a counter -/

theorem State.finalizeAt_plain {s : State} (h : s.NoExact) (t : PTarget) (n : Nat) :
    s.finalizeAt t n = if t.tgt = 2 then s.finalizePeer t.pa n else s := by
  unfold State.finalizeAt
  split
  · rename_i h0
    rw [State.finalizeSpan_plain h, if_neg (by omega)]
  · rfl

/-- The queues, the packets and the next number of a state. -/
def State.withPackets (s : State) (qs : Tbl Queue) (ps : List Packet) (n : Nat) : State := { s with queues := qs, packets := ps, nextId := n }

theorem NoExact.withPackets {s : State} (h : s.NoExact) (qs : Tbl Queue) (ps : List Packet) (n : Nat) : (s.withPackets qs ps n).NoExact := h

theorem setMemOf_withPackets (s : State) (qs : Tbl Queue) (ps : List Packet) (n tgt : Nat) (m : Memory) :
    (s.withPackets qs ps n).setMemOf tgt m = (s.setMemOf tgt m).withPackets qs ps n := by
  unfold State.setMemOf
  split
  · rfl
  · split <;> rfl

theorem memOf_withPackets (s : State) (qs : Tbl Queue) (ps : List Packet) (n tgt : Nat) : (s.withPackets qs ps n).memOf tgt = s.memOf tgt := rfl

theorem NoExact.setMemOf {s : State} (h : s.NoExact) (tgt : Nat) (m : Memory) : (s.setMemOf tgt m).NoExact := by
  unfold State.setMemOf
  split
  · exact h
  · split <;> exact h

theorem NoExact.finalizeAt {s : State} (h : s.NoExact) (t : PTarget) (n : Nat) : (s.finalizeAt t n).NoExact := by
  rw [State.finalizeAt_plain h]
  split <;> exact h

theorem finalizeAt_withPackets {s : State} (h : s.NoExact) (qs : Tbl Queue) (ps : List Packet) (n : Nat) (t : PTarget) (k : Nat) :
    (s.withPackets qs ps n).finalizeAt t k = (s.finalizeAt t k).withPackets qs ps n := by
  rw [State.finalizeAt_plain h, State.finalizeAt_plain (NoExact.withPackets h qs ps n)]
  split <;> rfl

theorem NoExact.writePhys {s : State} (h : s.NoExact) (t : PTarget) (bs : List Byte) : (s.writePhys t bs).NoExact :=
  NoExact.setMemOf (NoExact.finalizeAt h t _) _ _

theorem writePhys_withPackets {s : State} (h : s.NoExact) (qs : Tbl Queue) (ps : List Packet) (n : Nat) (t : PTarget) (bs : List Byte) :
    (s.withPackets qs ps n).writePhys t bs = (s.writePhys t bs).withPackets qs ps n := by
  simp only [State.writePhys, finalizeAt_withPackets h, setMemOf_withPackets, memOf_withPackets]

theorem landed_withPackets (s : State) (qs : Tbl Queue) (ps : List Packet) (n : Nat) (t : PTarget) :
    (s.withPackets qs ps n).landed t = (s.landed t).withPackets qs ps n := rfl

theorem NoExact.landed {s : State} (h : s.NoExact) (t : PTarget) : (s.landed t).NoExact := h

theorem NoExact.atomicAt {s : State} (h : s.NoExact) (t : PTarget) (aop rm : Nat) (signed ftz : Bool) (v c : Nat) :
    (s.atomicAt t aop rm signed ftz v c).2.NoExact := NoExact.setMemOf (NoExact.finalizeAt h t _) _ _

theorem NoExact.addCounter {s : State} (h : s.NoExact) (t : PTarget) (inc : Nat) : (s.addCounter t inc).NoExact :=
  NoExact.landed (NoExact.atomicAt h t 8 0 false false inc 0) t

theorem atomicAt_withPackets {s : State} (h : s.NoExact) (qs : Tbl Queue) (ps : List Packet) (n : Nat) (t : PTarget) (aop rm : Nat)
    (signed ftz : Bool) (v c : Nat) : (s.withPackets qs ps n).atomicAt t aop rm signed ftz v c =
      ((s.atomicAt t aop rm signed ftz v c).1, (s.atomicAt t aop rm signed ftz v c).2.withPackets qs ps n) := by
  simp only [State.atomicAt, State.readPhysNat, State.readPhys, finalizeAt_withPackets h, setMemOf_withPackets, memOf_withPackets]

theorem addCounter_withPackets {s : State} (h : s.NoExact) (qs : Tbl Queue) (ps : List Packet) (n : Nat) (t : PTarget) (inc : Nat) :
    (s.withPackets qs ps n).addCounter t inc = (s.addCounter t inc).withPackets qs ps n := by
  have hadds : aopAdds 8 = true := by decide
  simp only [State.addCounter, State.atomicSeen, atomicAt_withPackets h, hadds, if_true, landed_withPackets]

theorem signals_withPackets {s : State} (h : s.NoExact) (qs : Tbl Queue) (ps : List Packet) (n : Nat) (sig : Option PTarget) :
    (s.withPackets qs ps n).signals sig = (s.signals sig).withPackets qs ps n := by
  cases sig with
  | none => rfl
  | some c => exact addCounter_withPackets h qs ps n c 1

theorem NoExact.signals {s : State} (h : s.NoExact) (sig : Option PTarget) : (s.signals sig).NoExact := by
  cases sig with
  | none => exact h
  | some c => exact NoExact.addCounter h c 1

/-! ### What signalling leaves alone -/

/-- The part of a state that no access to memory changes, nor a counter's add. -/
def State.aside (s : State) : State := { s.beside with galleys := [] }

theorem aside_of_beside {s u : State} (h : u.beside = s.beside) : u.aside = s.aside := congrArg (fun x : State => { x with galleys := [] }) h

theorem landed_aside (s : State) (t : PTarget) : (s.landed t).aside = s.aside := rfl

theorem setMemOf_aside (s : State) (tgt : Nat) (m : Memory) : (s.setMemOf tgt m).aside = s.aside := by
  unfold State.setMemOf
  split
  · rfl
  · split <;> rfl

theorem atomicAt_aside (s : State) (t : PTarget) (aop rm : Nat) (signed ftz : Bool) (v c : Nat) :
    (s.atomicAt t aop rm signed ftz v c).2.aside = s.aside :=
  (setMemOf_aside _ _ _).trans (aside_of_beside (finalizeAt_beside s t _))

theorem addCounter_aside (s : State) (t : PTarget) (inc : Nat) : (s.addCounter t inc).aside = s.aside :=
  (landed_aside _ t).trans (atomicAt_aside s t 8 0 false false inc 0)

theorem signals_aside (s : State) (sig : Option PTarget) : (s.signals sig).aside = s.aside := by
  cases sig with
  | none => rfl
  | some c => exact addCounter_aside s c 1

theorem writePhys_aside (s : State) (t : PTarget) (bs : List Byte) : (s.writePhys t bs).aside = s.aside :=
  aside_of_beside (writePhys_beside s t bs)

section
variable {s u : State} (h : u.aside = s.aside)
include h
theorem queues_of_aside : u.queues = s.queues := (congrArg State.queues h :)
theorem packets_of_aside : u.packets = s.packets := (congrArg State.packets h :)
theorem msix_of_aside : u.msix = s.msix := (congrArg State.msix h :)
theorem launches_of_aside : u.launches = s.launches := (congrArg State.launches h :)
theorem ctxs_of_aside : u.ctxs = s.ctxs := (congrArg State.ctxs h :)
theorem cores_of_aside : u.cores = s.cores := (congrArg State.cores h :)
theorem tenants_of_aside : u.tenants = s.tenants := (congrArg State.tenants h :)
theorem pkg_of_aside : u.pkg = s.pkg := (congrArg State.pkg h :)
theorem nextId_of_aside : u.nextId = s.nextId := (congrArg State.nextId h :)
theorem faults_of_aside : u.faults = s.faults := (congrArg State.faults h :)
theorem walks_of_aside : u.walks = s.walks := (congrArg State.walks h :)
theorem qe_of_aside : u.qe = s.qe := (congrArg State.qe h :)
theorem replays_of_aside : u.replays = s.replays := (congrArg State.replays h :)
end

/-! ### Late failures -/

theorem lateFail_of {s u : State} (hp : u.pkg = s.pkg) (ht : u.tenants = s.tenants) (hs : s.NoExact) (hu : u.NoExact) (t : Nat) (p : PTarget)
    (n : Nat) (read : Bool) : u.lateFail t p n read = s.lateFail t p n read := by
  have hpoison (x : PTarget) (k : Nat) : u.poisoned x k = s.poisoned x k := by rw [State.poisoned, State.poisoned, hp]
  have hrec (x : PTarget) (k : Nat) : u.recordPoisoned x k = s.recordPoisoned x k := by
    rw [State.recordPoisoned, State.recordPoisoned]
    simp only [(hs _).2, (hu _).2, List.any_nil]
  rw [State.lateFail, State.lateFail, tenant_of_tenants ht, hpoison, hrec, State.linkBroken, State.linkBroken, hp]

theorem queueLate_of {s u : State} (hp : u.pkg = s.pkg) (ht : u.tenants = s.tenants) (hs : s.NoExact) (hu : u.NoExact) (q : QId) (p : PTarget)
    (n : Nat) (read : Bool) : queueLate u q p n read = queueLate s q p n read := by
  rw [queueLate, queueLate, lateFail_of hp ht hs hu, State.poisoned, State.poisoned, hp]

theorem lateStore_found {s : State} {q : QId} {p : PTarget} {bs : List Byte} (h : queueLate s q p bs.length false = none) :
    lateStore s q p bs = s.writePhys p bs := by
  rw [lateStore, h]

theorem lateAdd_found {s : State} {q : QId} {p : PTarget} (h : queueLate s q p 8 true = none) : lateAdd s q p = s.addCounter p 1 := by
  rw [lateAdd, h]

/-! ### Starting -/

theorem checkPacket_checked {s : State} {q : QId} (h : (s.queue q).checked = true) : checkPacket s q = s := by
  rw [checkPacket, if_pos (by simp [h])]

theorem withTarget_finds {s : State} {q : QId} {va n : Nat} {a : Access} {c : PTarget} (h : Finds s q va n a c)
    (go : PTarget → State → State) : withTarget s q va n a go = go c s := by
  obtain ⟨hlook, hfree, -⟩ := h
  rw [withTarget, hlook]
  simp only [hfree, Bool.false_eq_true, if_false]

theorem withSpan_finds {s : State} {q : QId} {a : Access} {xs : List (Nat × Nat)} {ts : List (PTarget × Nat)}
    (h : List.Forall₂ (fun (x : Nat × Nat) (y : PTarget × Nat) => y.2 = x.2 ∧ Finds s q x.1 x.2 a y.1) xs ts)
    (go : List (PTarget × Nat) → State → State) : withSpan q a xs s go = go ts s := by
  induction h generalizing go with
  | nil => rfl
  | cons hxy _ ih =>
    obtain ⟨hn, hfinds⟩ := hxy
    rw [withSpan, withTarget_finds hfinds, ih, ← hn]

theorem startPacket_starts {s : State} {op : Nat} {q : QId} {p : PktIn} (h : Starts s op q p) (act : PktIn → State → State) :
    startPacket op q s act = act p s := by
  have hop : (Hdr.of (leNat ((s.queue q).packet.take 16))).op = op := h.head ▸ h.type
  have hwhole : ¬ avail s q < 16 * (Hdr.of (leNat ((s.queue q).packet.take 16))).len := by
    have := h.head ▸ h.whole
    omega
  have hready : mustWait s q (Hdr.of (leNat ((s.queue q).packet.take 16))) = false := h.head ▸ h.ready
  have hpkt (sig : Option PTarget) (hs : p.sig = sig) :
      (⟨q, Hdr.of (leNat ((s.queue q).packet.take 16)), (s.queue q).packet.drop 16, sig⟩ : PktIn) = p := by
    rw [← hs, ← h.body, ← h.head, ← h.queue]
  rw [startPacket, checkPacket_checked h.checked]
  simp only [h.mapped, h.enabled, h.checked, hop, hready, hwhole, h.going, beq_iff_eq, Bool.not_true, Bool.or_false, Bool.false_or,
    ne_eq, not_true_eq_false, if_false, decide_false]
  have hsig := h.sig
  rw [h.head] at hsig
  cases hon : (Hdr.of (leNat ((s.queue q).packet.take 16))).sig with
  | false =>
    rw [hon, if_neg (by decide)] at hsig
    rw [withTargetIf, if_neg (by decide), hpkt none hsig]
  | true =>
    rw [hon, if_pos rfl] at hsig
    obtain ⟨c, hc, hlook, hfree, hlate⟩ := hsig
    rw [withTargetIf, if_pos rfl, withTarget_finds ⟨hlook, hfree, hlate⟩, hpkt (some c) hc]

end Sys2Proof.Machine
end

section
/-! Completion signalling (R62), and what a packet that has started and completed leaves (`Passed`, `Ends`). -/

namespace Sys2Proof.Machine

open Sys2Proof

theorem queue_setQueue_other (s : State) {q r : QId} (hq : q.q < 64) (hr : r.q < 64) (h : r ≠ q) (x : Queue) :
    (s.setQueue q x).queue r = s.queue r := by
  have hne : 64 * r.owner + r.q ≠ 64 * q.owner + q.q := by
    intro he
    apply h
    obtain ⟨ro, rq⟩ := r
    obtain ⟨qo, qq⟩ := q
    simp only [QId.mk.injEq] at he ⊢
    dsimp only at hq hr he
    omega
  simp [State.queue, hne]

/-! ### Settling -/

/-- What `settle` may change of a queue: the state that it shows. -/
theorem settle_cases (s : State) (q : QId) :
    settle s q = s ∨ ∃ st, st ≠ .stopped ∧ settle s q = s.setQueue q { s.queue q with state := st } := by
  rw [settle]
  dsimp only
  split
  · exact .inl rfl
  · refine .inr ⟨_, ?_, rfl⟩
    split <;> decide

theorem settle_queue (s : State) (q : QId) : ∃ st, (settle s q).queue q = { s.queue q with state := st } ∧
    ((s.queue q).state ≠ .stopped → st ≠ .stopped) := by
  rcases settle_cases s q with h | ⟨st, hst, h⟩
  · exact ⟨(s.queue q).state, by rw [h], id⟩
  · exact ⟨st, by rw [h, State.queue_setQueue], fun _ => hst⟩

theorem settle_queue_other (s : State) {q r : QId} (hq : q.q < 64) (hr : r.q < 64) (h : r ≠ q) : (settle s q).queue r = s.queue r := by
  rcases settle_cases s q with hs | ⟨st, -, hs⟩
  · rw [hs]
  · rw [hs, queue_setQueue_other s hq hr h]

theorem settle_queues (s : State) (q : QId) : ∃ qs, settle s q = { s with queues := qs } := by
  rcases settle_cases s q with hs | ⟨st, -, hs⟩
  · exact ⟨s.queues, hs⟩
  · exact ⟨_, hs⟩

/-! ### Completing -/

/-- The state in which a packet that completes leaves its queue: signalled, and no longer outstanding. -/
def State.leaves (v : State) (k : Packet) : State :=
  { v.signals k.sig with
    msix := v.msix ++ completionMsg k.q k.irq k.vec
    packets := v.packets.filter (fun x => x.id != k.id) }

theorem queueMsi_message (s : State) (q : QId) (vec : Nat) : queueMsi s q vec = { s with msix := s.msix ++ message (ownerFn q) vec } := by
  by_cases h : vec < (if ownerFn q = 0 then 16 else 64)
  · rw [message, if_pos h]
    exact if_pos h
  · rw [message, if_neg h, List.append_nil]
    exact if_neg h

/-- The queue after a packet's completion, but for the state that it shows. -/
def Queue.freed (x : Queue) (i : Nat) : Queue := { x with blocker := if x.blocker = some i then none else x.blocker }

/-- What `completePacket` does once the counter is signalled. -/
def State.afterSignal (s : State) (k : Packet) : State :=
  let s := if k.irq then queueMsi s k.q k.vec else s
  let s := { s with packets := s.packets.filter (fun x => x.id != k.id) }
  let x := s.queue k.q
  settle (if x.blocker = some k.id then s.setQueue k.q { x with blocker := none } else s) k.q

theorem completePacket_signalled {v : State} {k : Packet} (h : ∀ c, k.sig = some c → queueLate v k.q c 8 true = none) :
    completePacket v k = (v.signals k.sig).afterSignal k := by
  obtain ⟨id, q, ctx, opcode, hdr, body, sig, irq, vec, status, walks⟩ := k
  cases sig with
  | none => rfl
  | some c => exact congrArg (fun s : State => s.afterSignal ⟨id, q, ctx, opcode, hdr, body, some c, irq, vec, status, walks⟩) (lateAdd_found (h c rfl))

theorem completePacket_leaves {v : State} {k : Packet} (h : ∀ c, k.sig = some c → queueLate v k.q c 8 true = none) :
    completePacket v k = settle (if (v.queue k.q).blocker = some k.id then
      (v.leaves k).setQueue k.q { v.queue k.q with blocker := none } else v.leaves k) k.q := by
  have haside := signals_aside v k.sig
  have hqueue : (v.signals k.sig).queue k.q = v.queue k.q := queue_of_queues (queues_of_aside haside) _
  have hleaves : v.leaves k = { (if k.irq then queueMsi (v.signals k.sig) k.q k.vec else v.signals k.sig) with
      packets := (v.signals k.sig).packets.filter (fun x => x.id != k.id) } := by
    rw [State.leaves, completionMsg, packets_of_aside haside, ← msix_of_aside haside]
    split
    · rw [queueMsi_message]
    · rw [List.append_nil]
  have hpackets : (if k.irq then queueMsi (v.signals k.sig) k.q k.vec else v.signals k.sig).packets = (v.signals k.sig).packets := by
    split
    · rw [queueMsi_message]
    · rfl
  rw [completePacket_signalled h, State.afterSignal]
  dsimp only
  rw [hpackets, ← hleaves, show (v.leaves k).queue k.q = v.queue k.q from hqueue]

theorem completePacket_queues {v : State} {k : Packet} (h : ∀ c, k.sig = some c → queueLate v k.q c 8 true = none) :
    ∃ qs, completePacket v k = { v.leaves k with queues := qs } := by
  rw [completePacket_leaves h]
  split
  · obtain ⟨qs, hs⟩ := settle_queues ((v.leaves k).setQueue k.q { v.queue k.q with blocker := none }) k.q
    exact ⟨qs, hs⟩
  · exact settle_queues _ _

theorem leaves_queue (v : State) (k : Packet) (r : QId) : (v.leaves k).queue r = v.queue r :=
  queue_of_queues (s := v) (u := v.leaves k) (queues_of_aside (signals_aside v k.sig) :) r

theorem completePacket_queue {v : State} {k : Packet} (h : ∀ c, k.sig = some c → queueLate v k.q c 8 true = none) :
    ∃ st, (completePacket v k).queue k.q = { (v.queue k.q).freed k.id with state := st } ∧ ((v.queue k.q).state ≠ .stopped → st ≠ .stopped) := by
  rw [completePacket_leaves h, Queue.freed]
  split
  · obtain ⟨st, hst, hgoing⟩ := settle_queue ((v.leaves k).setQueue k.q { v.queue k.q with blocker := none }) k.q
    rw [State.queue_setQueue] at hst hgoing
    exact ⟨st, hst, hgoing⟩
  · obtain ⟨st, hst, hgoing⟩ := settle_queue (v.leaves k) k.q
    rw [leaves_queue] at hst hgoing
    exact ⟨st, hst, hgoing⟩

theorem completePacket_queue_other {v : State} {k : Packet} (h : ∀ c, k.sig = some c → queueLate v k.q c 8 true = none) {r : QId}
    (hq : k.q.q < 64) (hr : r.q < 64) (hne : r ≠ k.q) : (completePacket v k).queue r = v.queue r := by
  rw [completePacket_leaves h, settle_queue_other _ hq hr hne]
  split
  · rw [queue_setQueue_other _ hq hr hne, leaves_queue]
  · exact leaves_queue v k r

theorem completePacket_ends {u : State} {x : Packet} (h : ∀ c, x.sig = some c → queueLate u x.q c 8 true = none) : Ends u x (completePacket u x) := by
  obtain ⟨qs, hqs⟩ := completePacket_queues h
  obtain ⟨st, hst, -⟩ := completePacket_queue h
  constructor
  case mem => rw [hqs]; rfl
  case hostMem => rw [hqs]; rfl
  case msix => rw [hqs]; rfl
  case packets => rw [hqs]; rfl
  case blocker =>
    intro hb
    rw [hst]
    simp [Queue.freed, hb]
  case rp =>
    rw [hst]
    rfl

/-! ### Beginning -/

/-- The packet that starts in state `s`. -/
def PktIn.packet (p : PktIn) (s : State) (status : Option PTarget) : Packet :=
  { id := s.nextId, q := p.q, ctx := (s.queue p.q).ctx, opcode := p.h.op, hdr := leBytes 16 p.h.raw, body := p.b, sig := p.sig, irq := p.h.irq,
    vec := p.h.vec, status := status, walks := [] }

/-- Its queue, whose RP has passed it. -/
def PktIn.past (p : PktIn) (s : State) : Queue := { (s.queue p.q).unparsed with rp := rpAfter (s.queue p.q) p.h }

/-- The state once it has started. -/
def PktIn.started (p : PktIn) (s : State) (status : Option PTarget) : State :=
  s.withPackets (s.queues.set (64 * p.q.owner + p.q.q) (p.past s)) (s.packets ++ [p.packet s status]) (s.nextId + 1)

theorem PktIn.begin_eq (p : PktIn) (s : State) (status : Option PTarget) : p.begin_ s status = (p.packet s status, p.started s status) := rfl

theorem started_queue (p : PktIn) (s : State) (status : Option PTarget) : (p.started s status).queue p.q = p.past s := by
  simp [PktIn.started, State.withPackets, State.queue]

theorem started_queue_other (p : PktIn) (s : State) (status : Option PTarget) (hq : p.q.q < 64) {r : QId} (hr : r.q < 64) (h : r ≠ p.q) :
    (p.started s status).queue r = s.queue r := queue_setQueue_other s hq hr h (p.past s)

theorem Starts.queue_lt {s : State} {op : Nat} {q : QId} {p : PktIn} (h : Starts s op q p) : p.q.q < 64 := by
  have hm := h.mapped
  rw [← h.queue, queueMapped] at hm
  simp only [Bool.and_eq_true, Bool.or_eq_true, decide_eq_true_eq, beq_iff_eq] at hm
  omega

theorem Starts.late {s : State} {op : Nat} {q : QId} {p : PktIn} (h : Starts s op q p) :
    ∀ c, p.sig = some c → queueLate s p.q c 8 true = none := by
  intro c hc
  have hsig := h.sig
  split at hsig
  · obtain ⟨d, hd, -, -, hlate⟩ := hsig
    rw [hc] at hd
    cases hd
    rw [h.queue]
    exact hlate
  · rw [hsig] at hc
    cases hc

theorem Starts.unblocked {s : State} {op : Nat} {q : QId} {p : PktIn} (h : Starts s op q p) : (s.queue p.q).blocker = none := by
  have hm := h.ready
  rw [← h.queue] at hm
  simp only [mustWait, Bool.or_eq_false_iff] at hm
  exact Option.isSome_eq_false_iff.mp hm.1.1.1 |> Option.isNone_iff_eq_none.mp

/-! ### Passing -/

/-- The packet completes in `v`, which is `u` but for the queues, the packets and the next number: it has started there, other queues and
packets are those of `s`, and its own queue still goes on. -/
structure Completing (s : State) (p : PktIn) (k : Packet) (u v : State) : Prop where
  plain   : u.NoExact
  rest    : v = u.withPackets v.queues v.packets v.nextId
  packet  : k.q = p.q ∧ k.sig = p.sig ∧ k.irq = p.h.irq ∧ k.vec = p.h.vec
  late    : ∀ c, p.sig = some c → queueLate u p.q c 8 true = none
  small   : p.q.q < 64
  left    : v.packets.filter (fun x => x.id != k.id) = s.packets
  rp      : (v.queue p.q).rp = rpAfter (s.queue p.q) p.h
  heads   : (v.queue p.q).heads = (s.queue p.q).heads
  enabled : (v.queue p.q).enable = true
  going   : (v.queue p.q).state ≠ .stopped
  free    : (v.queue p.q).blocker = none
  others  : ∀ r : QId, r.q < 64 → r ≠ p.q → v.queue r = s.queue r

theorem Completing.late_v {s : State} {p : PktIn} {k : Packet} {u v : State} (h : Completing s p k u v) :
    ∀ c, k.sig = some c → queueLate v k.q c 8 true = none := by
  intro c hc
  obtain ⟨hq, hsig, -, -⟩ := h.packet
  have hlate := h.late c (hsig ▸ hc)
  rw [hq, h.rest]
  exact (queueLate_of (s := u) rfl rfl h.plain h.plain p.q c 8 true).trans hlate

theorem Completing.passed {s : State} {p : PktIn} {k : Packet} {u v : State} (h : Completing s p k u v) : Passed s p u (completePacket v k) := by
  obtain ⟨qs, hqs⟩ := completePacket_queues h.late_v
  obtain ⟨st, hst, hgo⟩ := completePacket_queue h.late_v
  obtain ⟨hq, hsig, hirq, hvec⟩ := h.packet
  rw [hq] at hst hgo
  have hsignals : v.signals k.sig = (u.signals p.sig).withPackets v.queues v.packets v.nextId := by
    rw [hsig, ← signals_withPackets h.plain, ← h.rest]
  have haside := signals_aside u p.sig
  have hmsix : v.msix = u.msix := (congrArg State.msix h.rest :)
  have hstate : completePacket v k = { (u.signals p.sig).withPackets v.queues v.packets v.nextId with
      msix := u.msix ++ completionMsg p.q p.h.irq p.h.vec, packets := s.packets, queues := qs } := by
    rw [hqs, State.leaves, h.left, hsignals, hmsix, hq, hirq, hvec]
  constructor
  case mem => rw [hstate]; rfl
  case hostMem => rw [hstate]; rfl
  case peerMem => rw [hstate]; rfl
  case msix => rw [hstate]
  case packets => rw [hstate]
  case rp =>
    rw [hst]
    exact h.rp
  case heads =>
    rw [hst]
    exact h.heads
  case going =>
    rw [hst]
    refine ⟨h.enabled, hgo h.going, ?_⟩
    simp [Queue.freed, h.free]
  case others =>
    intro r hr hne
    rw [completePacket_queue_other h.late_v (hq ▸ h.small) hr (hq ▸ hne)]
    exact h.others r hr hne
  case launches => rw [hstate]; exact (launches_of_aside haside :)
  case galleys => rw [hstate]; rfl
  case ctxs => rw [hstate]; exact (ctxs_of_aside haside :)
  case cores => rw [hstate]; exact (cores_of_aside haside :)
  case tenants => rw [hstate]; exact (tenants_of_aside haside :)

end Sys2Proof.Machine
end

section
/-! ATTEST of a packet shorter than its LENGTH (O39). The statement asks that the report begins with 16 bytes and 64 bytes of nonce; but a
queue may hold, marked as checked, a packet that ends after its header, and the report then has no nonce. No run reaches such a state. -/

namespace Sys2Proof.Machine

open Sys2Proof

/-- A page table that maps the page at 0 of context 0 to the device page at 0x500000, writable. -/
def attestTables : Memory :=
  [(0x100000, 0x200001), (0x200000, 0x300001), (0x300000, 0x400001), (0x400000, 0x500023)].foldl
    (fun (m : Memory) (w : Nat × Nat) => m.writeNat w.1 8 w.2) []

/-- The header of an ATTEST packet, without a body. -/
def attestPacket : List Byte := leBytes 16 (12 + 6 * 2 ^ 16)

/-- Queue 0 of tenant 0 holds the header as a whole packet, and the firmware hash is the byte 1. -/
def attestState : State :=
  { State.reset with
    pkg := { Package.reset with step := 7, ready := true, fwHash := [1] }
    mem := attestTables
    tenants := [(0, { Tenant.reset with enable := true, wins := [(0, 2 ^ 31)] })]
    ctxs := [(0, { Ctx.reset with state := .running, enable := true, ptRoot := 0x100000 })]
    queues := [(0, { peerQueue attestPacket with wp := 96 })] }

def attestIn : PktIn := ⟨⟨0, 0⟩, Hdr.of (leNat (attestPacket.take 16)), attestPacket.drop 16, none⟩

theorem attest_starts : Starts attestState 12 ⟨0, 0⟩ attestIn where
  plain _ := ⟨rfl, rfl⟩
  queue := rfl
  mapped := by decide
  enabled := rfl
  going := by decide
  checked := rfl
  head := rfl
  body := rfl
  type := by decide +kernel
  whole := by decide +kernel
  ready := by decide +kernel
  sig := by decide +kernel
  fresh := by simp [attestState, State.reset]

theorem attest_finds : Finds attestState ⟨0, 0⟩ 0 4915 .qWr ⟨0, 0x500000⟩ := by
  unfold Finds
  decide +kernel

theorem attest_spans : List.Forall₂ (fun (x : Nat × Nat) (y : PTarget × Nat) => y.2 = x.2 ∧ Finds attestState ⟨0, 0⟩ x.1 x.2 .qWr y.1)
    (pageParts 3 (attestIn.field 64 8) 4915) [(⟨0, 0x500000⟩, 4915)] := by
  have hparts : pageParts 3 (attestIn.field 64 8) 4915 = [(0, 4915)] := by decide +kernel
  rw [hparts]
  exact .cons ⟨rfl, attest_finds⟩ .nil

/-- The first bytes of a report: MAGIC, VERSION, owner and the count. -/
def reportHead (s : State) (owner : Nat) : List Byte :=
  leBytes 4 0x4B460A01 ++ leBytes 2 1 ++ leBytes 1 (if owner = 16 then 0xFF else owner) ++ leBytes 1 0 ++ leBytes 8 (s.pkg.attests + 1)

theorem reportHead_length (s : State) (owner : Nat) : (reportHead s owner).length = 16 := by simp [reportHead]

theorem report_frame (s : State) (owner : Nat) (nonce : List Byte) :
    ∃ rest c, report s owner nonce =
      (reportHead s owner ++ (nonce ++ (s.pkg.fwHash ++ rest)), { s with pkg := { s.pkg with attests := s.pkg.attests + 1 }, choices := c }) := by
  unfold report measures reportHead
  by_cases ho : owner = 16
  · simp only [ho, if_true, freeBytes, List.append_assoc]
    exact ⟨_, _, rfl⟩
  · simp only [ho, if_false, List.append_assoc]
    exact ⟨_, _, rfl⟩

/-- Memory after a report whose seventeenth byte is `x`. -/
theorem read_report {m : Memory} (hm : m.wf = true) (pa : Nat) {a rest : List Byte} (ha : a.length = 16) (x : Byte) :
    (m.writeBytes pa ((a ++ ([] ++ ([x] ++ rest))).take 4915)).read (pa + 16) = x := by
  have hin : pa ≤ pa + 16 ∧ pa + 16 < pa + ((a ++ ([] ++ ([x] ++ rest))).take 4915).length := by simp [ha]
  rw [Memory.read_writeBytes hm, if_pos hin, Nat.add_sub_cancel_left, List.getD_eq_getElem?_getD, List.getElem?_take_of_lt (by decide),
    List.getElem?_append_right (by omega), ha]
  rfl

theorem attestState_wf : attestState.mem.wf = true := by decide +kernel

/-- What ATTEST leaves in memory where its report lies on one device page. -/
theorem attestAct_mem {s : State} {p : PktIn} (hs : s.NoExact) (hsig : p.sig = none) {pa n : Nat}
    (hspan : List.Forall₂ (fun (x : Nat × Nat) (y : PTarget × Nat) => y.2 = x.2 ∧ Finds s p.q x.1 x.2 .qWr y.1)
      (pageParts 3 (p.field 64 8) 4915) [(⟨0, pa⟩, n)]) :
    ∃ rest, (attestAct p s).mem =
      s.mem.writeBytes pa ((reportHead (p.started s none) p.q.owner ++ (p.b.take 64 ++ (s.pkg.fwHash ++ rest))).take n) := by
  obtain ⟨rest, c, hreport⟩ := report_frame (p.started s none) p.q.owner (p.b.take 64)
  have hgo : attestAct p s = completePacket
      (writeTargetsOf [(⟨0, pa⟩, n)] (report (p.started s none) p.q.owner (p.b.take 64)).1
        (report (p.started s none) p.q.owner (p.b.take 64)).2) (p.packet s none) := withSpan_finds hspan _
  refine ⟨rest, ?_⟩
  obtain ⟨qs, hqs⟩ := completePacket_queues (k := p.packet s none) (v := writeTargetsOf [(⟨0, pa⟩, n)]
    (report (p.started s none) p.q.owner (p.b.take 64)).1 (report (p.started s none) p.q.owner (p.b.take 64)).2)
    (fun c hc => by rw [PktIn.packet, hsig] at hc; cases hc)
  rw [hgo, hqs, State.leaves, PktIn.packet, hsig, hreport]
  exact congrArg State.mem (writePhys_plain (s := { p.started s none with
    pkg := { (p.started s none).pkg with attests := (p.started s none).pkg.attests + 1 }, choices := c }) hs _ _)

theorem attest_mem {s t : State} {q : QId} {p : PktIn} (h : exec (.attest q) s = .next t) (hs : Starts s 12 q p) (hsig : p.sig = none) {pa n : Nat}
    (hspan : List.Forall₂ (fun (x : Nat × Nat) (y : PTarget × Nat) => y.2 = x.2 ∧ Finds s p.q x.1 x.2 .qWr y.1)
      (pageParts 3 (p.field 64 8) 4915) [(⟨0, pa⟩, n)]) :
    ∃ rest, t.mem =
      s.mem.writeBytes pa ((reportHead (p.started s none) p.q.owner ++ (p.b.take 64 ++ (s.pkg.fwHash ++ rest))).take n) := by
  have hx : exec (.attest q) s = .next (startPacket 12 q s attestAct) := rfl
  rw [hx] at h
  injection h with h
  rw [← h, startPacket_starts hs]
  exact attestAct_mem hs.plain hsig hspan

/-- The ATTEST writes the byte of the firmware hash behind the head. -/
theorem attest_writes {t : State} (h : exec (.attest ⟨0, 0⟩) attestState = .next t) : t.mem.read (0x500000 + 16) = 1 := by
  obtain ⟨rest, hmem⟩ := attest_mem h attest_starts rfl attest_spans
  have hbody : attestIn.b.take 64 = [] := by decide +kernel
  rw [hbody, show attestState.pkg.fwHash = [1] from rfl] at hmem
  exact (congrArg (fun m : Memory => m.read (0x500000 + 16)) hmem).trans
    (read_report attestState_wf 0x500000 (reportHead_length (attestIn.started attestState none) 0) 1)

/-- Refutes O39: in `attestState` the report holds no nonce. -/
theorem not_queueEngineRounds : ¬ Obligations.QueueEngineRounds := by
  intro h
  obtain ⟨-, -, hattest, -⟩ := h attestState ⟨0, 0⟩ attestIn
  obtain ⟨t, r, hnext, hpassed, -, hhead⟩ := hattest _ attest_starts (by decide +kernel) attest_spans
  have hshort : r = r.take 80 := by
    refine (List.take_of_length_le ?_).symm
    have hlen := congrArg List.length hhead
    rw [List.length_take, show (leBytes 4 0x4B460A01 ++ leBytes 2 1 ++ leBytes 1 (if (⟨0, 0⟩ : QId).owner = 16 then 0xFF else (⟨0, 0⟩ : QId).owner) ++
      leBytes 1 0 ++ leBytes 8 (attestState.pkg.attests + 1) ++ attestIn.b.take 64).length = 16 by decide +kernel] at hlen
    omega
  have hlen : r.length = 16 := by
    rw [hshort, hhead]
    decide +kernel
  have hmem : t.mem = attestState.mem.writeBytes 0x500000 (r.take 4915) :=
    hpassed.mem.trans (congrArg State.mem (writePhys_plain (s := attestState) (fun _ => ⟨rfl, rfl⟩) _ _))
  have hzero : t.mem.read (0x500000 + 16) = attestState.mem.read (0x500000 + 16) := by
    rw [hmem, Memory.read_writeBytes_outside attestState_wf _ _ _ (.inr (by rw [List.length_take, hlen]; decide))]
  have hone : t.mem.read (0x500000 + 16) = 1 := attest_writes hnext
  rw [hone] at hzero
  exact absurd hzero (by decide +kernel)

end Sys2Proof.Machine
end

section
/-! A text page in a peer module (O40). The statement asks that a page whose bytes have their hash becomes a shadow and nothing else changes;
but the read of a page at a peer's lines finalises the exact entries that this module's groups hold there (R186, R195), which `NoExact` does
not exclude. -/

namespace Sys2Proof.Machine

open Sys2Proof

/-! ### Walks of a state without exact entries -/

theorem readPte_state {s : State} (h : s.NoExact) (t pa : Nat) : (readPte s t pa).2 = s := by
  unfold readPte
  split
  · rfl
  · split
    · rfl
    · simp [State.readFor, State.readPhys_plain h]

theorem largeEqual_state {s : State} (h : s.NoExact) (t tbl v i n : Nat) : (largeEqual t tbl v i n s).2 = s := by
  induction n generalizing i with
  | zero => rfl
  | succ n ih =>
    have hs := readPte_state h t (tbl + 8 * i)
    rw [largeEqual]
    split
    · rename_i he
      rw [he] at hs
      exact hs
    · rename_i he
      rw [he] at hs
      dsimp only at hs
      subst hs
      split
      · exact ih (i + 1)
      · rfl

theorem leafOut_state {s : State} (h : s.NoExact) (t k va tbl i n size v : Nat) : (leafOut s t k va tbl i n size v).2 = s := by
  have hs := largeEqual_state h t tbl v i n
  unfold leafOut
  dsimp only
  split
  · rfl
  · split <;> (rename_i he; rw [he] at hs; exact hs)

theorem walkFrom_state {s : State} (h : s.NoExact) (t k va fuel tbl : Nat) : (walkFrom t k va fuel tbl s).2 = s := by
  induction fuel generalizing tbl with
  | zero => rfl
  | succ fuel ih =>
    have hs := readPte_state h t (tbl + 8 * levelIndex (3 - fuel) va)
    rw [walkFrom]
    dsimp only
    split
    · rename_i he
      rw [he] at hs
      exact hs
    · rename_i he
      rw [he] at hs
      dsimp only at hs
      subst hs
      split
      · split
        · split <;> rfl
        · rfl
      · split
        · split
          · exact leafOut_state h _ _ _ _ _ _ _ _
          · split
            · exact leafOut_state h _ _ _ _ _ _ _ _
            · split
              · exact leafOut_state h _ _ _ _ _ _ _ _
              · rfl
        · split
          · rfl
          · exact ih _

theorem walk_state {s : State} (h : s.NoExact) (t k va : Nat) : (walk s t k va).2 = s := walkFrom_state h t k va 4 _

/-! ### The page -/

/-- The bytes of the page: its one byte at the peer's 0x10000, filled up with 0. -/
def fetchBytes : List Byte := Memory.readBytes [] 0x10000 1 ++ List.replicate (65536 - (Memory.readBytes [] 0x10000 1).length) 0

/-- An object of one byte of text at 0x10000, whose page has its hash. -/
def fetchObj : CodeObj :=
  { inst := 7, objId := 0, va := 0x10000, bytes := 1, minor := 0, behaviour := 0, signer := 0, pageBase := 0, npage := 1, nfunc := 1, nblock := 1,
    nsect := 0, funcOff := 0, blockOff := 0, textOff := 0, textWords := 1, sectOff := 0, hashes := [sha3 fetchBytes], shadows := [],
    digest := [] }

/-- An exact entry at the peer's line 0x10000 with no element. -/
def fetchEntry : AccEntry := ⟨0x10000, 1, 0, 0, []⟩

/-- Cluster 0 has a request for a block of the object, whose page lies at the peer's line of the exact entry. -/
def fetchState : State :=
  { peerSignalState with
    peerAcc := [fetchEntry]
    ctxs := [(0, { Ctx.reset with state := .running, enable := true, ptRoot := 0x100000, objs := [fetchObj] })]
    clusters := [(0, { Cluster.reset with queue := [⟨0, 0, 7, 0, 0, 0, ⟨0, false, []⟩⟩] })] }

/-- The page's translation. -/
def fetchTlb : TlbEntry := ⟨0, 0, 0x10000, 0x10000, 0x10000, 2, false, true⟩

theorem fetch_plain : fetchState.NoExact := fun _ => ⟨rfl, rfl⟩

theorem fetch_needed : (pageNeeded fetchState 0 0 7 0).isEmpty = false := by decide +kernel

theorem fetch_walk : walk fetchState 0 0 0x10000 = (.ok fetchTlb, fetchState) :=
  Prod.ext (by decide +kernel : (walk fetchState 0 0 0x10000).1 = .ok fetchTlb) (walk_state fetch_plain 0 0 0x10000)

/-- The read finalises the exact entry. -/
theorem fetch_read : fetchState.readPhys (fetchTlb.target 0x10000) 1 = (Memory.readBytes [] 0x10000 1, { fetchState with peerAcc := [] }) := rfl

theorem fetchPage_ok {s u : State} {t k inst p n : Nat} {o : CodeObj} {e : TlbEntry} {bs : List Byte} (ho : s.obj? t k inst = some o)
    (hw : walk s t k (o.va + o.pageBase + 65536 * p) = (.ok e, s)) (hn : o.pageLen p = n)
    (hc : entryCheck s e (o.va + o.pageBase + 65536 * p) n .rd = none)
    (hr : s.readPhys (e.target (o.va + o.pageBase + 65536 * p)) n = (bs, u))
    (hh : sha3 (bs ++ List.replicate (65536 - bs.length) 0) = o.hashes.getD p []) :
    fetchPage s t k inst p = (.ok, u.addShadow t k inst p (bs ++ List.replicate (65536 - bs.length) 0)) := by
  unfold fetchPage
  rw [ho]
  dsimp only
  rw [hw]
  dsimp only
  rw [hn, hc]
  dsimp only
  rw [hr]
  exact if_pos hh

theorem textPageFetchDone_ok {s u : State} {t k obj page : Nat} (hneed : (pageNeeded s t k obj page).isEmpty = false)
    (hrev : s.revoked t k obj = false) (hf : s.faults = []) (hw : s.walks = []) (hfetch : fetchPage s t k obj page = (.ok, u)) :
    exec (.textPageFetchDone t k obj page) s = .next u := by
  have hx : exec (.textPageFetchDone t k obj page) s = execTextPageFetchDone t k obj page s := rfl
  rw [hx, execTextPageFetchDone]
  dsimp only
  cases hp : pageNeeded s t k obj page with
  | nil =>
    rw [hp] at hneed
    cases hneed
  | cons x xs =>
    dsimp only
    rw [hrev, hf, hw, hfetch]
    rfl

theorem fetch_bytes : (fetchState.memOf fetchTlb.tgt).readBytes (fetchTlb.target (fetchObj.va + fetchObj.pageBase + 65536 * 0)).pa
    (fetchObj.pageLen 0) = Memory.readBytes [] 0x10000 1 := by decide +kernel

theorem fetch_hash : sha3 (Memory.readBytes [] 0x10000 1 ++ List.replicate (65536 - (Memory.readBytes [] 0x10000 1).length) 0) =
    fetchObj.hashes.getD 0 [] := by
  have hhashes : fetchObj.hashes = [sha3 fetchBytes] := by rw [fetchObj]
  rw [hhashes, List.getD_cons_zero, fetchBytes]

theorem fetch_page : ∃ bs, fetchPage fetchState 0 0 7 0 = (.ok, State.addShadow { fetchState with peerAcc := [] } 0 0 7 0 bs) :=
  ⟨_, fetchPage_ok (n := 1) (o := fetchObj) (e := fetchTlb) (bs := Memory.readBytes [] 0x10000 1) rfl fetch_walk (by decide)
    (by decide +kernel) fetch_read fetch_hash⟩

theorem addShadow_peerAcc (s : State) (t k inst p : Nat) (bs : List Byte) : (s.addShadow t k inst p bs).peerAcc = s.peerAcc := rfl

theorem next_unique {s u v : State} {i : Instr} (hu : exec i s = .next u) (hv : exec i s = .next v) : u = v := by
  rw [hu] at hv
  injection hv

theorem fetch_need : pageNeeded fetchState 0 0 7 0 ≠ [] := by
  intro he
  have hneed := fetch_needed
  rw [he] at hneed
  cases hneed

/-- Refutes O40: in `fetchState` the page's read also finalises the exact entry of the peer's line. -/
theorem not_translationsServe : ¬ Obligations.TranslationsServe := by
  intro h
  obtain ⟨-, -, hpage⟩ := h fetchState 0 ⟨0, 0, 7, 0, 0, 0, ⟨0, false, []⟩⟩
  have hhash : sha3 ((fetchState.memOf fetchTlb.tgt).readBytes (fetchTlb.target (fetchObj.va + fetchObj.pageBase + 65536 * 0)).pa
      (fetchObj.pageLen 0) ++ List.replicate (65536 - ((fetchState.memOf fetchTlb.tgt).readBytes
        (fetchTlb.target (fetchObj.va + fetchObj.pageBase + 65536 * 0)).pa (fetchObj.pageLen 0)).length) 0) = fetchObj.hashes.getD 0 [] := by
    rw [fetch_bytes]
    exact fetch_hash
  have hkept := hpage 0 0 7 0 fetchObj fetchTlb fetch_plain fetch_need
    rfl (fun _ hf => absurd hf (by exact List.not_mem_nil)) (fun _ hw => absurd hw (by exact List.not_mem_nil)) rfl fetch_walk
    (by decide +kernel) hhash
  obtain ⟨bs, hfetch⟩ := fetch_page
  have hdone := textPageFetchDone_ok fetch_needed rfl rfl rfl hfetch
  have hacc := congrArg State.peerAcc (next_unique hkept hdone)
  rw [addShadow_peerAcc, addShadow_peerAcc] at hacc
  cases hacc

end Sys2Proof.Machine
end

section
/-! Engine commands and matrix operations at issue: what a translation that goes on changes, how a command joins the device, and how its queue
waits behind the range checker. -/

namespace Sys2Proof.Machine

open Sys2Proof

/-! ### Translations that go on -/

/-- `t` is `s` but for the entries of L1 TLBs. -/
structure TlbOnly (s t : State) : Prop where
  rest : t = { s with cores := t.cores }
  core : ∀ c, t.core c = { s.core c with tlb := (t.core c).tlb }

theorem State.core_setCore (s : State) (c : Nat) (x : Core) : (s.setCore c x).core c = x := by
  simp [State.core, State.setCore]

theorem State.core_setCore_other (s : State) {c d : Nat} (x : Core) (h : d ≠ c) : (s.setCore c x).core d = s.core d := by
  simp [State.core, State.setCore, h]

theorem TlbOnly.refl (s : State) : TlbOnly s s := ⟨rfl, fun _ => rfl⟩

theorem TlbOnly.trans {s t u : State} (h : TlbOnly s t) (h' : TlbOnly t u) : TlbOnly s u where
  rest := by
    rw [h'.rest, h.rest]
  core c := by
    rw [h'.core c, h.core c]

theorem TlbOnly.setCore (s : State) (c : Nat) (es : List TlbEntry) : TlbOnly s (s.setCore c { s.core c with tlb := es }) where
  rest := rfl
  core d := by
    by_cases hd : d = c
    · subst hd
      rw [State.core_setCore]
    · rw [State.core_setCore_other s _ hd]

theorem lookPage_tlbOnly (s : State) (v : View) (va n al : Nat) (a : Access) : TlbOnly s (lookPage s v va n al a).2 := by
  unfold lookPage
  split
  · exact .refl s
  · split
    · exact .refl s
    · split
      · split <;> exact .refl s
      · dsimp only
        split
        · exact .refl s
        · split
          · dsimp only
            split
            · exact .setCore s _ _
            · exact .refl s
          · exact .refl s

theorem lookAll_tlbOnly (v : View) (a : Access) (rs : List Req) (s : State) : TlbOnly s (lookAll v a rs s).2 := by
  induction rs generalizing s with
  | nil => exact .refl s
  | cons r rs ih => exact (lookPage_tlbOnly s v r.va r.n r.al a).trans (ih _)

/-- A plan that goes on has looked every request up, and changed no more than TLBs. -/
theorem plan_go {s t : State} {v : View} {a : Access} {rs : List Req} {ts : List (Req × PTarget × Bool)} (h : plan s v a rs = (.go ts, t)) :
    t = (lookAll v a rs s).2 ∧
      ts = (lookAll v a rs s).1.filterMap (fun k => match k.2 with | .ok p tso => some (k.1, p, tso) | _ => none) := by
  unfold plan at h
  dsimp only at h
  split at h
  · cases h
  · split at h
    · cases h
    · split at h
      · cases h
      · simp only [Prod.mk.injEq, Plan.go.injEq] at h
        exact ⟨h.2.symm, h.1.symm⟩

theorem plan_tlbOnly {s t : State} {v : View} {a : Access} {rs : List Req} {ts : List (Req × PTarget × Bool)}
    (h : plan s v a rs = (.go ts, t)) : TlbOnly s t := by
  rw [(plan_go h).1]
  exact lookAll_tlbOnly v a rs s

section
variable {s t : State} {e : Exe} {w : Main}

/-! ### The unit's thread put back twice -/

theorem Galley.thread?_setThread {g : Galley} {u : UnitId} {th₀ : Thread} (h : g.thread? u = some th₀) (th : Thread) :
    (g.setThread u th).thread? u = some th := by
  obtain ⟨gid, i, item⟩ := u
  simp only [Galley.thread?, Galley.setThread, List.getElem?_mapIdx] at h ⊢
  cases hp : g.paths[i]? with
  | none => simp [hp] at h
  | some p =>
    cases item with
    | none => simp
    | some lane =>
      simp only [hp, Option.map_some, if_true, List.find?_map] at h ⊢
      obtain ⟨x, hx, -⟩ := Option.map_eq_some_iff.mp h
      have hsame : ((fun y : Item => y.lane == lane) ∘ fun y : Item => if y.lane = lane then { y with th := th } else y) =
          fun y => y.lane == lane := by
        funext y
        by_cases hy : y.lane = lane <;> simp [hy]
      have hlane : x.lane = lane := by simpa using List.find?_some (p := fun y : Item => y.lane == lane) hx
      rw [hsame, hx]
      simp [hlane]

theorem Galley.setThread_setThread (g : Galley) (u : UnitId) (th th' : Thread) : (g.setThread u th).setThread u th' = g.setThread u th' := by
  obtain ⟨gid, i, item⟩ := u
  simp only [Galley.setThread, List.mapIdx_mapIdx]
  congr 1
  refine List.mapIdx_eq_mapIdx_iff.mpr fun k hk => ?_
  by_cases hki : k = i
  · cases item with
    | none => simp [hki]
    | some lane =>
      simp only [Function.comp, hki, if_true, List.map_map]
      congr 1
      refine List.map_congr_left fun x _ => ?_
      by_cases hx : x.lane = lane <;> simp [hx]
  · simp [hki]

theorem Exe.put_found {g : Galley} (hg : s.galley? e.uid.galley = some g) (th : Thread) : e.put s th = s.setGalley (g.setThread e.uid th) := by
  rw [Exe.put, hg]

theorem Exe.put_put {g : Galley} (hg : s.galley? e.uid.galley = some g) (th th' : Thread) : e.put (e.put s th) th' = e.put s th' := by
  have hid : g.id = e.uid.galley := by simpa using List.find?_some (p := fun x : Galley => x.id == e.uid.galley) hg
  have hput : (e.put s th).galley? e.uid.galley = some (g.setThread e.uid th) := by
    rw [Exe.put_found hg, ← hid]
    exact galley?_setGalley (hid ▸ hg) rfl
  rw [Exe.put_found hput, Exe.put_found hg, Exe.put_found hg, setGalley_setGalley (g := g.setThread e.uid th) (g' := (g.setThread e.uid th).setThread e.uid th') rfl, Galley.setThread_setThread]

/-! ### A command joins the device -/

/-- A group-level engine form of a leaf outside transactions runs its meaning. -/
theorem engineForm_leaf (h : Leaf s e) (htx : e.tx? = none) (tys : List Ty) (f : Exe → State → State) :
    engineForm w tys f s = .next (f e s) := by
  rw [engineForm, onUnit_runs h.runs, h.leafOnly, Exe.noTx_none htx]

theorem heldBehind_of_commands (hc : s.commands = t.commands) (id : Nat) : s.heldBehind id = t.heldBehind id := by
  simp only [State.heldBehind, State.command?, State.before, hc]

theorem Exe.put_commands (e : Exe) (s : State) (th : Thread) : (e.put s th).commands = s.commands := by
  unfold Exe.put
  split <;> rfl

/-- After its instruction is done the unit goes on, or waits behind the range checker. -/
theorem Exe.holdQueue_done {g : Galley} {th₀ : Thread} (hnat : e.th.native = none) (hg : t.galley? e.uid.galley = some g)
    (hth : g.thread? e.uid = some th₀) (id : Nat) :
    e.holdQueue (e.done t w) id = e.put t { e.th.after [] with wait := if t.heldBehind id then .rangeHeld id else .none } := by
  have hid : g.id = e.uid.galley := by simpa using List.find?_some (p := fun x : Galley => x.id == e.uid.galley) hg
  have hdone : e.done t w = e.put t (e.th.after []) := Exe.define_laold hnat t w []
  have hfind : ((e.put t (e.th.after [])).galley? e.uid.galley).bind (fun g => g.thread? e.uid) = some (e.th.after []) := by
    rw [Exe.put_found hg, ← hid, galley?_setGalley (g := g) (h := g.setThread e.uid (e.th.after [])) (hid ▸ hg) rfl]
    exact Galley.thread?_setThread hth _
  rw [hdone, Exe.holdQueue, heldBehind_of_commands (e.put_commands t _), hfind]
  by_cases hheld : t.heldBehind id = true
  · rw [if_pos hheld, if_pos hheld]
    exact Exe.put_put hg _ _
  · rw [if_neg hheld, if_neg hheld]
    rfl

end

end Sys2Proof.Machine
end

section
/-! Engine commands at issue (R164, R365 to R371): an access that goes on, records answered from the cache, and the command that joins the
group's open batch. -/

namespace Sys2Proof.Machine

open Sys2Proof

section
variable {s t : State} {e : Exe} {w : Main} {i : Instr}

/-! ### Accesses that go on -/

theorem Exe.undoReqs_noTx (htx : e.tx? = none) (s : State) (a : Access) (ts : List (Req × PTarget × Bool)) : e.undoReqs s a ts = [] := by
  simp [Exe.undoReqs, htx]

/-- An access outside transactions that nothing holds back goes on with its targets. -/
theorem Reaches.accessAs {a : Access} {rs : List Req} {ts : List (Req × PTarget × Bool)} (h : Reaches s e a rs ts t) (htx : e.tx? = none)
    (plain : Bool) (go : List (Req × PTarget × Bool) → State → State) : e.accessAs s plain a rs go = go ts t := by
  have hown : ts.any (e.mustFollow t a (a.tx && e.tx? == some false)) = false := List.any_eq_false.mpr fun x hx => by simp [h.own x hx]
  have hfree : ∀ p : Req × PTarget × Bool → Bool, (ts.filter p).flatMap (fun x =>
      (sectorsOf x.2.1 x.1.n).filter (t.blocked e.me (a.write || a.atomic))) = [] := by
    intro p
    rw [List.flatMap_eq_nil_iff]
    intro x hx
    have hspan := h.free x (List.mem_filter.mp hx).1
    rw [State.blockedSpan, List.any_eq_false] at hspan
    exact List.filter_eq_nil_iff.mpr hspan
  unfold Exe.accessAs
  rw [h.planned]
  simp [hown, hfree, e.undoReqs_noTx htx]

theorem Reaches.access {a : Access} {rs : List Req} {ts : List (Req × PTarget × Bool)} (h : Reaches s e a rs ts t) (htx : e.tx? = none)
    (go : List (Req × PTarget × Bool) → State → State) : e.access s a rs go = go ts t :=
  h.accessAs htx false go

/-- No request needs nothing. -/
theorem reaches_nil (s : State) (e : Exe) (a : Access) : Reaches s e a [] [] s :=
  ⟨rfl, by simp, by simp⟩

/-- A handle whose record the cluster has cached and answers is served from there. -/
theorem Exe.records_cached (htx : e.tx? = none) {j : Nat × Nat} {h : Nat} {r : List Byte}
    (hr : cachedRec s (clusterOf e.core) e.l.tenant e.l.ctx (handleVa h) = some r) (hans : answers r h = true)
    (go : (Nat → List Byte) → State → State) :
    e.records s [(j, h)] go = go (fun h' => (cachedRec s (clusterOf e.core) e.l.tenant e.l.ctx (handleVa h')).getD []) s := by
  have hacc := (reaches_nil s e .rd).access htx
  simp [Exe.records, Exe.recordsOr, hr, hans, beforeFault, hacc, Exe.orFault]

/-- A counter's page that translates to device memory. -/
theorem Exe.counter_device {va inc : Nat} {a : Access} {c : Req × PTarget × Bool}
    (hp : plan s e.view a [⟨e.g.first, faultLane e.uid, va, 8, 8⟩] = (.go [c], t)) (htgt : c.2.1.tgt = 0)
    (go : Option (PTarget × Nat) → State → State) : e.counter s (some (va, inc)) a go = go (some (c.2.1, inc)) t := by
  simp [Exe.counter, Exe.translate, hp, htgt]

/-! ### A command at issue -/

theorem pickEngine_cores (s : State) (t core : Nat) : ∃ cl, (pickEngine s t core).2 = { s with clusters := cl } := by
  unfold pickEngine
  dsimp only
  split
  · exact ⟨_, rfl⟩
  · exact ⟨s.clusters, rfl⟩

theorem fits_iff {l : Launch} {r : Nat × Nat} : spadOut l r = false ↔ r.1 + r.2 ≤ l.spad := by
  simp [spadOut]

theorem openCommand_openCmds {l : Launch} {j id lid : Nat} (hl : s.launch? lid = some l) :
    ((openCommand s lid j id).group lid j).openCmds = (s.group lid j).openCmds ++ [id] := by
  rw [openCommand, group_setGroup hl]

theorem State.setGroup_only (s : State) (lid j : Nat) (x : GroupSt) : ∃ ls, s.setGroup lid j x = { s with launches := ls } := by
  unfold State.setGroup
  split
  · exact ⟨_, rfl⟩
  · exact ⟨s.launches, rfl⟩

theorem openCommand_only (s : State) (lid j id : Nat) : ∃ ls, openCommand s lid j id = { s with launches := ls } :=
  s.setGroup_only lid j _

/-- A command whose checks pass issues (R365). -/
theorem Exe.issue_issues (h : Leaf s e) {o : Order} {cnt : Option (PTarget × Nat)} (hx : exec i s = .next (e.issue s w o))
    (hfit : ∀ r ∈ o.reads ++ o.writes, r.1 + r.2 ≤ e.l.spad)
    (hcnt : ∀ go, e.counter s o.cnt .wr go = go cnt t) (hst : TlbOnly s t)
    (hroom : (s.held e.core).length < 64) (heng : (s.tenant e.l.tenant).engines ≠ []) :
    Issues s e i t o.kind cnt := by
  have hnone : (o.reads ++ o.writes).find? (spadOut e.l) = none :=
    List.find?_eq_none.mpr fun r hr => by simp [fits_iff.mpr (hfit r hr)]
  have heng' : (o.copy && (t.tenant e.l.tenant).engines.isEmpty) = false := by
    have : t.tenant e.l.tenant = s.tenant e.l.tenant := by rw [hst.rest]; rfl
    simp [this, heng]
  have hroom' : ¬ 64 ≤ (t.held e.core).length := by
    have : t.held e.core = s.held e.core := by rw [hst.rest]; rfl
    rw [this]
    omega
  have hstands := Exe.stands h.runs
  obtain ⟨hself, -⟩ := Exe.launch_self h.runs
  have hpick : ∃ cl, (if o.copy then pickEngine t e.l.tenant e.core else (none, t)).2 = { t with clusters := cl } := by
    split
    · exact pickEngine_cores t _ _
    · exact ⟨t.clusters, rfl⟩
  unfold Exe.issue at hx
  rw [hnone] at hx
  dsimp only at hx
  rw [hcnt] at hx
  simp only [heng', hroom', if_false] at hx
  generalize (if o.copy then pickEngine t e.l.tenant e.core else (none, t)) = p at hx hpick
  obtain ⟨eng, p⟩ := p
  obtain ⟨cl, rfl⟩ := hpick
  dsimp only [State.fresh] at hx
  generalize hc : Command.mk _ _ _ _ _ _ _ _ _ _ _ _ _ _ _ _ _ _ = c at hx
  obtain ⟨ls, hls⟩ := openCommand_only { t with clusters := cl, nextId := t.nextId + 1, commands := t.commands ++ [c] } e.l.id e.g.first t.nextId
  have hgal : t.galley? e.uid.galley = some e.g := by
    rw [hst.rest]
    exact hstands.galley
  have hlaunch : t.launch? e.l.id = some e.l := by
    rw [hst.rest]
    exact hself
  refine ⟨openCommand { t with clusters := cl, nextId := t.nextId + 1, commands := t.commands ++ [c] } e.l.id e.g.first t.nextId, c, ?_, ?_⟩
  · have hid : c.id = t.nextId := by rw [← hc]
    rw [Posts, hx, hid]
    congr 1
    refine Exe.holdQueue_done (g := e.g) (th₀ := e.th) h.laold ?_ hstands.thread _
    rw [hls]
    exact hgal
  · have hopen := openCommand_openCmds (s := { t with clusters := cl, nextId := t.nextId + 1, commands := t.commands ++ [c] }) (id := t.nextId)
      (j := e.g.first) hlaunch
    rw [hls] at hopen ⊢
    subst hc
    exact ⟨rfl, rfl, rfl, rfl, rfl, rfl, rfl, rfl, rfl, rfl, rfl, rfl, rfl, hopen⟩

end

end Sys2Proof.Machine
end

section
/-! The claims of O19: engine commands issue or fault, and batches and counters. -/

namespace Sys2Proof.Machine

open Sys2Proof

section
variable {s t : State} {e : Exe} {w : Main} {i : Instr}

theorem badCounter_some {va inc : Nat} (h : va % 8 = 0) : badCounter (some (va, inc)) = false := by
  simp [badCounter, h]

/-- A command with a counter, whose spans fit, issues. -/
theorem Exe.issue_counted (h : Leaf s e) {o : Order} {va inc : Nat} {c : Req × PTarget × Bool} (hx : exec i s = .next (e.issue s w o))
    (hroom : (s.held e.core).length < 64) (heng : (s.tenant e.l.tenant).engines ≠ []) (htgt : c.2.1.tgt = 0)
    (hp : plan s e.view .wr [⟨e.g.first, faultLane e.uid, va, 8, 8⟩] = (.go [c], t)) (hcnt : o.cnt = some (va, inc))
    (hfit : ∀ r ∈ o.reads ++ o.writes, r.1 + r.2 ≤ e.l.spad) :
    Issues s e i t o.kind (some (c.2.1, inc)) :=
  Exe.issue_issues h hx hfit (fun go => by rw [hcnt]; exact Exe.counter_device hp htgt go) (plan_tlbOnly hp) hroom heng

theorem mem_ite_singleton {p : Prop} [Decidable p] {r x : Nat × Nat} (h : x ∈ (if p then [r] else [])) : p ∧ x = r := by
  split at h
  · simp_all
  · simp at h

/-- A counter of device memory is read at its home. -/
theorem Exe.readCounter_plain (hplain : t.NoExact) (hlocks : t.serial.locks = []) {p : PTarget} (htgt : p.tgt = 0) (target : Nat) :
    e.readCounter t w p target =
      if target ≤ t.mem.readNat p.pa 8 then e.done t w else e.park t (.counter 0 p.pa target false) := by
  obtain ⟨tgt, pa⟩ := p
  subst htgt
  rw [Exe.readCounter, State.readFor_plain hplain hlocks]
  rfl

end

theorem engineCommandsIssue : Claims.EngineCommandsIssue := by
  unfold Claims.EngineCommandsIssue
  intro s t e w x y c h htx _ hroom heng htgt n32 n64 counts fits
  have run : ∀ (f : Exe → State → State), engineForm w [] f s = .next (f e s) := engineForm_leaf h htx []
  have hcpy : exec (.cpy w x) s = execCpy w x s := rfl
  have hgath : exec (.gath w x) s = execGath w x s := rfl
  have hspset : exec (.spset w x) s = execSpset w x s := rfl
  have hcpyh : exec (.cpyh w x y) s = execCpyh w x y s := rfl
  have hgathh : exec (.gathh w x) s = execGathh w x s := rfl
  refine ⟨?_, ?_, ?_, ?_, ?_⟩
  · intro hn hn' hc hr hw
    rw [execCpy, run] at hcpy
    dsimp only at hcpy
    rw [if_neg (not_or.mpr ⟨hn.ne', hn'.not_gt⟩), badCounter_some hc.1, if_neg (by decide)] at hcpy
    refine Exe.issue_counted h hcpy hroom heng htgt hc.2 rfl fun r hr' => ?_
    rcases List.mem_append.mp hr' with h' | h'
    · obtain ⟨hb, rfl⟩ := mem_ite_singleton h'
      exact hr hb
    · obtain ⟨hb, rfl⟩ := mem_ite_singleton h'
      exact hw hb
  · intro hn hn' hm hbase hc hix hsp
    rw [execGath, run] at hgath
    dsimp only at hgath
    rw [if_neg (not_or.mpr ⟨hn.ne', not_or.mpr ⟨hn'.not_gt, hm.not_gt⟩⟩), if_neg (not_not.mpr hbase), badCounter_some hc.1,
      if_neg (by decide)] at hgath
    refine Exe.issue_counted h hgath hroom heng htgt hc.2 rfl fun r hr => ?_
    simp only [List.mem_append, List.mem_singleton] at hr
    obtain rfl | rfl := hr
    · exact hix
    · exact hsp
  · intro hn hn' hx hc hsp
    rw [execSpset, run] at hspset
    dsimp only at hspset
    rw [if_neg (not_or.mpr ⟨hn.ne', hn'.not_gt⟩), if_neg hx, badCounter_some hc.1, if_neg (by decide)] at hspset
    refine Exe.issue_counted h hspset hroom heng htgt hc.2 rfl fun r hr => ?_
    simp only [List.nil_append, List.mem_singleton] at hr
    subst hr
    exact hsp
  · intro hd r hh hrec hans ha hb hc hu hu' _ hsp
    rw [execCpyh, run] at hcpyh
    dsimp only at hcpyh
    rw [if_neg (not_or.mpr ⟨ha.ne', hb.ne'⟩), badCounter_some hc.1, if_neg (by decide), hh, Exe.records_cached htx hrec hans] at hcpyh
    simp only [hrec, Option.getD_some] at hcpyh
    rw [if_neg (fun h' => h'.elim (fun h' => h' hu) (fun h' => h' hu'))] at hcpyh
    refine Exe.issue_counted h hcpyh hroom heng htgt hc.2 rfl fun r hr' => ?_
    rcases List.mem_append.mp hr' with h' | h'
    · rw [(mem_ite_singleton h').2]
      exact hsp
    · rw [(mem_ite_singleton h').2]
      exact hsp
  · intro hd r hh hrec hans hblk hbits hn hn' hc hix hsp
    rw [execGathh, run] at hgathh
    dsimp only at hgathh
    rw [if_neg (not_or.mpr ⟨hn.ne', hn'.not_gt⟩), badCounter_some hc.1, if_neg (by decide), hh, Exe.records_cached htx hrec hans] at hgathh
    simp only [hrec, Option.getD_some] at hgathh
    rw [if_neg (by simp [hblk, hbits])] at hgathh
    refine Exe.issue_counted h hgathh hroom heng htgt hc.2 rfl fun r hr => ?_
    simp only [List.mem_append, List.mem_singleton] at hr
    obtain rfl | rfl := hr
    · exact hix
    · exact hsp

theorem engineCommandsFault : Claims.EngineCommandsFault := by
  unfold Claims.EngineCommandsFault
  intro s e w x y h htx bad
  have run : ∀ (f : Exe → State → State), engineForm w [] f s = .next (f e s) := engineForm_leaf h htx []
  have hcpy : exec (.cpy w x) s = execCpy w x s := rfl
  have hgath : exec (.gath w x) s = execGath w x s := rfl
  have hspset : exec (.spset w x) s = execSpset w x s := rfl
  have hcpyh : exec (.cpyh w x y) s = execCpyh w x y s := rfl
  have hgathh : exec (.gathh w x) s = execGathh w x s := rfl
  rw [execCpy, run] at hcpy
  rw [execGath, run] at hgath
  rw [execGathh, run] at hgathh
  rw [execCpyh, run] at hcpyh
  rw [execSpset, run] at hspset
  dsimp only at hcpy hgath hgathh hcpyh hspset
  refine ⟨fun hn => ?_, fun hn => ⟨?_, ?_⟩, fun hn => ?_, fun hn => ?_, fun hn hn' hc => ?_⟩
  · rw [hcpy, if_pos hn]
  · rw [hgath, if_pos (by tauto)]
  · rw [hgathh, if_pos hn]
  · rw [hcpyh, if_pos hn]
  · rw [hspset, if_pos hn]
  · rw [hcpy, if_neg (by omega), if_pos]
    simpa [badCounter] using hc

theorem batchesAndCounters : Claims.BatchesAndCounters := by
  unfold Claims.BatchesAndCounters
  intro s e w h htx g left b
  have run : ∀ tys (f : Exe → State → State), engineForm w tys f s = .next (f e s) := engineForm_leaf h htx
  have hcbatch : exec (.cbatch w) s = execCbatch w s := rfl
  have hcwait : exec (.cwait w) s = execCwait w s := rfl
  have hcnt : exec (.cntwait w) s = execCntwait w s := rfl
  rw [execCbatch, run] at hcbatch
  rw [execCwait, run] at hcwait
  rw [execCntwait, onUnit_runs h.runs] at hcnt
  dsimp only at hcbatch hcwait hcnt
  have hunf : (s.group e.l.id e.g.first).unfinished s = left := rfl
  rw [hunf] at hcbatch hcwait
  have hmulti : e.multi = false := by simp [Exe.multi, h.one]
  rw [Exe.noTx_none htx, hmulti, Bool.and_false, if_neg (by decide)] at hcnt
  refine ⟨fun hn => ?_, fun hn => ?_, fun hb hleft => ?_, fun hb => ?_, fun a k n met hwait hmet => ?_, ?_⟩
  · rw [if_neg (Nat.not_le.mpr hn)] at hcbatch
    refine ⟨_, completes_define_to h.laold hcbatch, e.settle_ty _, fun l hl ha => ?_⟩
    rw [e.lane_settle _ hl ha, e.lane_ofNat]
    have : b < 2 ^ 64 := Nat.mod_lt _ (by decide)
    exact Nat.mod_eq_of_lt (by omega)
  · rw [if_pos hn] at hcbatch
    exact hcbatch
  · rw [if_neg (Nat.not_lt.mpr hb), if_neg] at hcwait
    · exact completes_done h.laold hcwait
    · simp only [List.any_eq_true, decide_eq_true_eq, not_exists, not_and, Nat.not_le]
      exact hleft
  · rw [if_pos hb] at hcwait
    exact hcwait
  · rw [hwait] at hcnt
    dsimp only at hcnt
    rw [if_pos hmet] at hcnt
    exact completes_done h.laold hcnt
  · intro t c hwait hal hr htgt hplain hlocks
    have hal' : ¬ e.scalar (e.opnd s .n64 w.a) % 8 ≠ 0 := not_not.mpr hal
    split at hcnt
    · exact absurd ‹_› (hwait _ _ _ _)
    have hr' : Reaches s e .rd [⟨e.g.first, faultLane e.uid, e.scalar (e.opnd s .n64 w.a), 8, 8⟩] [c] t := hr
    rw [if_neg hal', hr'.access htx] at hcnt
    dsimp only at hcnt
    rw [if_neg (not_not.mpr htgt), Exe.readCounter_plain hplain hlocks htgt] at hcnt
    constructor
    · intro hle
      have hle' : e.scalar (e.opnd s .n64 w.b) ≤ t.mem.readNat c.2.1.pa 8 := hle
      rw [if_pos hle'] at hcnt
      exact completes_done h.laold hcnt
    · intro hlt
      have hlt' : ¬ e.scalar (e.opnd s .n64 w.b) ≤ t.mem.readNat c.2.1.pa 8 := hlt.not_ge
      rw [if_neg hlt'] at hcnt
      exact hcnt

/-- Settles O19: engine forms run their checks one after another, a command that passes joins the device, and a counter's read comes from
its home slice. -/
theorem engineCommands : Obligations.EngineCommands :=
  ⟨engineCommandsIssue, engineCommandsFault, batchesAndCounters⟩

end Sys2Proof.Machine
end

section
/-! Sequencer slots and matrix rings as a group sets, starts and reads them (R244 to R247, R370, R376, R377). -/

namespace Sys2Proof.Machine

open Sys2Proof

section
variable {s t : State} {e : Exe} {w : Main} {i : Instr}

theorem gives2_ofNat {ty ty' : Ty} {n m : Nat} (h : Leaf s e) (hx : exec i s = .next (e.define s w [⟨ty, .ofNat n⟩, ⟨ty', .ofNat m⟩])) :
    Gives2 s e i ty ty' (fun _ => n) (fun _ => m) :=
  gives2_define (v := ⟨ty, .ofNat n⟩) (v' := ⟨ty', .ofNat m⟩) h.laold hx fun l _ _ => ⟨e.lane_ofNat ty n l, e.lane_ofNat ty' m l⟩

theorem Word.ofBool_eq (b : Bool) : Word.ofBool b = if b then 1 else 0 := by
  cases b <;> rfl

theorem spadOut_false {l : Launch} {a n : Nat} (h : a + n ≤ l.spad) : spadOut l (a, n) = false := fits_iff.mpr h

end

theorem sequencerSlots : Claims.SequencerSlots := by
  unfold Claims.SequencerSlots
  intro s e w h htx x k q p
  have run : ∀ (f : Exe → State → State), engineForm w [] f s = .next (f e s) := engineForm_leaf h htx []
  have hset : exec (.seqset w) s = execSeqset w s := rfl
  have hgo : exec (.seqgo w) s = execSeqgo w s := rfl
  have hstat : exec (.seqstat w) s = execSeqstat w s := rfl
  rw [execSeqset, run] at hset
  rw [execSeqgo, run] at hgo
  rw [execSeqstat, onUnit_runs h.runs, h.leafOnly] at hstat
  dsimp only at hset hgo hstat
  refine ⟨fun hal hfit hrun hst => ?_, fun hal hfit hrun => ?_, fun hrun => ?_, fun hrun hdesc => ?_, ?_⟩
  · have hidle : (x.seqs.getD k ⟨none, none⟩).run.isSome = false := Option.isSome_eq_false_iff.mpr (Option.isNone_iff_eq_none.mpr hrun)
    rw [if_neg (not_not.mpr hal), if_neg (by rw [spadOut_false hfit]; decide), if_neg (by rw [hidle]; decide),
      if_neg (by rw [hst]; decide)] at hset
    have hq : ({ x.seqs.getD k ⟨none, none⟩ with desc := some (x.spad.readBytes p 192) } : SeqSlot) =
        ⟨some (x.spad.readBytes p 192), none⟩ := congrArg (SeqSlot.mk _) hrun
    rw [Core.setSeq, hq] at hset
    exact completes_done h.laold hset
  · have hbusy : (x.seqs.getD k ⟨none, none⟩).run.isSome = true := Option.isSome_iff_ne_none.mpr hrun
    rw [if_neg (not_not.mpr hal), if_neg (by rw [spadOut_false hfit]; decide), if_pos hbusy] at hset
    exact hset
  · have hbusy : (x.seqs.getD k ⟨none, none⟩).run.isSome = true := Option.isSome_iff_ne_none.mpr hrun
    rw [if_pos hbusy] at hgo
    exact hgo
  · have hidle : (x.seqs.getD k ⟨none, none⟩).run.isSome = false := Option.isSome_eq_false_iff.mpr (Option.isNone_iff_eq_none.mpr hrun)
    have hnone : (x.seqs.getD k ⟨none, none⟩).desc = none := hdesc
    rw [if_neg (by rw [hidle]; decide)] at hgo
    rw [hgo]
    rw [hnone]
  · have hval : Word.ofBool q.run.isSome + 2 * Word.ofBool q.desc.isSome =
        (if q.run.isSome then 1 else 0) + (if q.desc.isSome then 2 else 0) := by
      cases q.run.isSome <;> cases q.desc.isSome <;> rfl
    rw [← hval]
    exact gives_ofNat h hstat

theorem sequencerStarts : Claims.SequencerStarts := by
  unfold Claims.SequencerStarts
  intro s t e w d c h htx x k hk hslot hok hcnt hlo hhi hp htgt heng
  have hgo : exec (.seqgo w) s = execSeqgo w s := rfl
  rw [execSeqgo, engineForm_leaf h htx] at hgo
  dsimp only at hgo
  have hst := plan_tlbOnly hp
  have hslot' : (s.core e.core).seqs.getD (immNat w.a) ⟨none, none⟩ = ⟨some d, none⟩ := hslot
  have hin : ¬ ((seqSpadSpan (s.core e.core) d).1 < 0 ∨ (e.l.spad : Int) < (seqSpadSpan (s.core e.core) d).2) :=
    not_or.mpr ⟨hlo.not_gt, hhi.not_gt⟩
  have hten : ((t.tenant e.l.tenant).engines.isEmpty) = false := by
    have : t.tenant e.l.tenant = s.tenant e.l.tenant := by rw [hst.rest]; rfl
    simp [this, heng]
  have hok' : seqBad (s.core e.core) d = false := hok
  have hlaunch : t.launch? e.l.id = some e.l := by
    rw [hst.rest]
    exact (Exe.launch_self h.runs).1
  have hcore := hst.core e.core
  simp only [hslot', Option.isSome_none, hok', hcnt, ne_eq, not_true_eq_false, hin, if_false, Exe.counter_device hp htgt, hten,
    Bool.false_eq_true, State.fresh, Option.map_some, Option.getD_some] at hgo
  generalize hrun : SeqRun.mk _ _ _ _ _ _ _ = run at hgo
  generalize hprod : (if seqRingAdv d = true then _ else _ : List RingRun) = prod at hgo
  generalize hy : ({ (State.core { t with nextId := t.nextId + 1 } e.core).setSeq (immNat w.a) ⟨some d, some run⟩ with
    runs := (State.core { t with nextId := t.nextId + 1 } e.core).runs ++ prod } : Core) = y at hgo
  have hseqs : y.seqs = (t.core e.core).seqs.set (immNat w.a) ⟨some d, some run⟩ := by rw [← hy]; rfl
  have hruns : y.runs = (t.core e.core).runs ++ prod := by rw [← hy]; rfl
  rw [hcore] at hseqs hruns
  obtain ⟨ls, hls⟩ := openCommand_only (State.setCore { t with nextId := t.nextId + 1 } e.core y) e.l.id e.g.first t.nextId
  have hopen := openCommand_openCmds (s := State.setCore { t with nextId := t.nextId + 1 } e.core y) (j := e.g.first) (id := t.nextId) hlaunch
  have hu : (openCommand (State.setCore { t with nextId := t.nextId + 1 } e.core y) e.l.id e.g.first t.nextId).core e.core = y := by
    rw [hls]
    exact State.core_setCore _ _ _
  refine ⟨_, run, completes_done h.laold hgo, ?_⟩
  rw [hu, hopen, hseqs, hruns, hls]
  subst hrun hprod
  refine ⟨?_, rfl, rfl, rfl, rfl, rfl, rfl, rfl, rfl, fun hadv => ?_, fun hadv => ?_⟩
  · exact (List.getD_eq_getElem?_getD ..).trans (by rw [List.getElem?_set_self hk]; rfl)
  · simp [hadv, x]
  · exact ⟨_, by rw [if_pos hadv], rfl, rfl⟩

theorem ringConfiguration : Claims.RingConfiguration := by
  unfold Claims.RingConfiguration
  intro s e w x h htx c k base n sz r
  have hcfg : exec (.ringcfg w x) s = execRingcfg w x s := rfl
  have hrd : exec (.ringrd w) s = execRingrd w s := rfl
  rw [execRingcfg, engineForm_leaf h htx] at hcfg
  rw [execRingrd, onUnit_runs h.runs, h.leafOnly] at hrd
  dsimp only at hcfg hrd
  refine ⟨fun h1 h2 h3 h4 h5 h6 h7 hfit hruns hmats hfree => ?_, fun hout h1 h2 h3 h4 h5 h6 h7 => ?_, gives2_ofNat h hrd⟩
  · have hbase : ¬ (base % 64 ≠ 0 ∨ base < 64) := by omega
    have hn : ¬ (n = 0 ∨ 256 < n) := by omega
    have hsz : ¬ (sz % 64 ≠ 0 ∨ sz < 64 ∨ 524224 < sz) := by omega
    have hidle : ¬ (c.produced k = true ∨ c.mats.any (fun m => m.names k) = true) := by
      simpa [Core.produced, hmats] using hruns
    rw [if_neg hbase, if_neg hn, if_neg hsz, if_neg hfit.not_gt, if_neg hidle, if_neg ?_] at hcfg
    · exact completes_done h.laold hcfg
    · have hstores : e.spadStoresAt (8 * immNat w.a) 8 = false := hfree.stores
      rw [hstores, hfree.atomics]
      decide
  · have hbase : ¬ (base % 64 ≠ 0 ∨ base < 64) := by omega
    have hn : ¬ (n = 0 ∨ 256 < n) := by omega
    have hsz : ¬ (sz % 64 ≠ 0 ∨ sz < 64 ∨ 524224 < sz) := by omega
    rw [if_neg hbase, if_neg hn, if_neg hsz, if_pos hout] at hcfg
    exact hcfg

/-- Settles O20: a slot or ring is set once its checks pass and no run names it, and a run starts at the first emission of its slot's
descriptor. -/
theorem sequencersAndRings : Obligations.SequencersAndRings :=
  ⟨sequencerSlots, sequencerStarts, ringConfiguration⟩

end Sys2Proof.Machine
end

section
/-! Matrix operations at issue (R378 to R381, R385): checks, energy and the slots they claim. -/

namespace Sys2Proof.Machine

open Sys2Proof

section
variable {s t : State} {e : Exe} {w : Main} {i : Instr} {op lit : Nat}

/-- The context once an operation of cost `cost` is paid for (R250). -/
def Ctx.paid (c : Ctx) (u : UnitId) (cost : Nat) : Ctx :=
  { c with enBudget := if c.enUnlimited then c.enBudget else c.enBudget - cost, energy := c.energy.filter (fun p => p.unit != u) }

/-- The budget covers the cost, and no other unit is before this one. -/
def Ctx.affords (c : Ctx) (u : UnitId) (cost : Nat) : Prop :=
  c.enUnlimited = true ∨ (cost ≤ c.enBudget ∧ ∀ p, c.energy.head? = some p → p.unit = u)

theorem Exe.payEnergy_paid {cost : Nat} (h : (s.ctx e.l.tenant e.l.ctx).affords e.uid cost) (go : State → State) :
    e.payEnergy s cost go = go (s.setCtx e.l.tenant e.l.ctx ((s.ctx e.l.tenant e.l.ctx).paid e.uid cost)) := by
  unfold Exe.payEnergy Ctx.paid
  generalize s.ctx e.l.tenant e.l.ctx = c at h
  dsimp only
  by_cases hun : c.enUnlimited = true
  · rw [if_pos hun, if_pos hun]
  · obtain ⟨hcost, hfirst⟩ := h.resolve_left hun
    rw [if_neg hun, if_neg hun]
    cases hen : c.energy with
    | nil => simp [hcost]
    | cons p ps => simp [hcost, hfirst p (by rw [hen]; rfl)]

/-- The checks of R381 steps 1 and 2 pass. -/
theorem Exe.matrixChecked_ok {ty : Ty} (hlead : e.core % 2 = 0)
    (hrings : ∀ r ∈ matRings op ty lit, ((s.core e.core).rings.getD r.1 .empty).valid = true ∧
      r.2 ≤ ((s.core e.core).rings.getD r.1 .empty).bytes) (go : State) : e.matrixChecked s op ty lit go = go := by
  rw [Exe.matrixChecked, if_neg (by omega), if_neg]
  simp only [List.any_eq_true, not_exists, not_and, Bool.or_eq_true, Bool.not_eq_true', decide_eq_true_eq, not_or, Nat.not_lt]
  exact fun r hr => ⟨by rw [(hrings r hr).1]; decide, (hrings r hr).2⟩

theorem Ring.spans_length (r : Ring) (first n : Nat) : (r.spans first n).length = n := by
  simp [Ring.spans]

theorem State.setCtx_only (s : State) (t k : Nat) (c : Ctx) : ∃ cs, s.setCtx t k c = { s with ctxs := cs } := ⟨_, rfl⟩

/-- An operation whose rings have free slots, and which the budget covers, issues. -/
theorem Exe.issueMatrix_posts (h : Leaf s e) {conv : Option (RecCopy × Nat × Nat)} (hx : exec i s = .next (e.issueMatrix s w op lit conv))
    (hroom : (s.held e.core).length < 64) (hpay : (s.ctx e.l.tenant e.l.ctx).affords e.uid (energyCost w.mod))
    (hfree : ∀ r ∈ matRings op w.ty lit,
      matNS lit ≤ ((s.core e.core).rings.getD r.1 .empty).full - (s.core e.core).claimed r.1) :
    ∃ m k, Posts s e i (({ s.setCtx e.l.tenant e.l.ctx ((s.ctx e.l.tenant e.l.ctx).paid e.uid (energyCost w.mod)) with
          nextId := s.nextId + 1, commands := s.commands ++ [k] }).setCore e.core
          { s.core e.core with mats := (s.core e.core).mats ++ [m] }) m.id ∧
        m.op = op ∧ m.ty = w.ty ∧ m.lit = lit ∧ m.launch = e.l.id ∧ m.group = e.g.first ∧ m.conv = conv ∧
        m.slotA = (((s.core e.core).rings.getD (matRA lit) .empty).head + (s.core e.core).claimed (matRA lit)) % 2 ^ 32 ∧
        m.slotB = (((s.core e.core).rings.getD (matRB lit) .empty).head + (s.core e.core).claimed (matRB lit)) % 2 ^ 32 ∧
        k.id = m.id ∧ k.core = e.core ∧ k.writes = [] ∧ k.reads.length = (matRings op w.ty lit).length * matNS lit := by
  have hslots : ((matRings op w.ty lit).map Prod.fst).any (fun k =>
      decide (((s.core e.core).rings.getD k .empty).full - (s.core e.core).claimed k < matNS lit)) = false := by
    refine List.any_eq_false.mpr fun k hk hlt => ?_
    obtain ⟨r, hr, rfl⟩ := List.mem_map.mp hk
    exact (hfree r hr).not_gt (of_decide_eq_true hlt)
  have hstands := Exe.stands h.runs
  unfold Exe.issueMatrix at hx
  dsimp only at hx
  rw [hslots, if_neg (by decide), if_neg (by omega), Exe.payEnergy_paid hpay] at hx
  dsimp only [State.fresh] at hx
  generalize hm : MatOp.mk _ _ _ _ _ _ _ _ _ _ _ = m at hx
  generalize hk : Command.mk _ _ _ _ _ _ _ _ _ _ _ _ _ _ _ _ _ _ = k at hx
  have hid : m.id = s.nextId := by rw [← hm]; rfl
  refine ⟨m, k, ?_, ?_⟩
  · rw [Posts, hx, hid]
    congr 1
    refine Exe.holdQueue_done (g := e.g) (th₀ := e.th) h.laold ?_ hstands.thread _
    exact hstands.galley
  · subst hm hk
    refine ⟨rfl, rfl, rfl, rfl, rfl, rfl, rfl, rfl, rfl, rfl, rfl, ?_⟩
    simp [List.length_flatMap, Ring.spans_length, Function.comp_def]

theorem matrixForm_run (h : Leaf s e) (htx : e.tx? = none) (hx : exec i s = matrixForm op w lit s) :
    exec i s = .next (e.matrixChecked s op w.ty lit (e.issueMatrix s w op lit none)) := by
  rw [hx, matrixForm, engineForm_leaf h htx]

theorem matRings_length (h : op ≠ 0x1CB) (ty : Ty) (lit : Nat) : (matRings op ty lit).length = 2 := by
  simp [matRings, h]

theorem matRB_mem_matRings (op : Nat) (ty : Ty) (lit : Nat) : (matRB lit, slotNeedB op ty lit) ∈ matRings op ty lit := by
  simp [matRings]

theorem Exe.matrixChecked_follower {ty : Ty} (hfol : e.core % 2 = 1) (go : State) :
    e.matrixChecked s op ty lit go = e.faultAll s .matrixFollower := by
  rw [Exe.matrixChecked, if_pos hfol]

theorem Exe.matrixChecked_unset {ty : Ty} (hlead : e.core % 2 = 0) (hunset : ((s.core e.core).rings.getD (matRB lit) .empty).valid = false)
    (go : State) : e.matrixChecked s op ty lit go = e.faultAll s .matrixFormat := by
  have hbad : (matRings op ty lit).any (fun r => let g := (s.core e.core).rings.getD r.1 .empty; !g.valid || decide (g.bytes < r.2)) = true :=
    List.any_eq_true.mpr ⟨_, matRB_mem_matRings op ty lit, by dsimp only; rw [hunset]; rfl⟩
  rw [Exe.matrixChecked, if_neg (by omega)]
  dsimp only
  rw [hbad, if_pos rfl]

end

theorem matrixOperationsIssue : Claims.MatrixOperationsIssue := by
  unfold Claims.MatrixOperationsIssue
  intro s e w lit h htx hlead hroom x c cost paid hpay p hp hrings
  have hrun : exec p.1 s = matrixForm p.2 w lit s ∧ p.2 ≠ 0x1CB := by
    simp only [List.mem_cons, List.not_mem_nil, or_false] at hp
    obtain rfl | rfl | rfl := hp
    · exact ⟨rfl, by dsimp only; decide⟩
    · exact ⟨rfl, by dsimp only; decide⟩
    · exact ⟨rfl, by dsimp only; decide⟩
  obtain ⟨hx, hop⟩ := hrun
  have hx := matrixForm_run h htx hx
  rw [Exe.matrixChecked_ok hlead (fun r hr => ⟨(hrings r hr).1, (hrings r hr).2.1⟩)] at hx
  have hissue := Exe.issueMatrix_posts h hx hroom hpay (fun r hr => (hrings r hr).2.2)
  rw [matRings_length hop] at hissue
  exact hissue

theorem matrixOperationsFault : Claims.MatrixOperationsFault := by
  unfold Claims.MatrixOperationsFault
  intro s e w lit x h htx bad
  have hmma := matrixForm_run (i := .mma w lit) h htx (lit := lit) (op := 0x1C8) rfl
  have hmmab := matrixForm_run (i := .mmab w lit) h htx (lit := lit) (op := 0x1C9) rfl
  have hmmas := matrixForm_run (i := .mmas w lit) h htx (lit := lit) (op := 0x1CA) rfl
  have hconv : exec (.mmaconv w lit x) s = execMmaconv w lit x s := rfl
  rw [execMmaconv, engineForm_leaf h htx] at hconv
  refine ⟨fun hfol => ?_, fun hlead hunset => ?_⟩
  · simp only [Exe.matrixChecked_follower hfol] at hmma hmmab hmmas hconv
    exact ⟨hmma, hmmab, hmmas, hconv⟩
  · simp only [Exe.matrixChecked_unset hlead hunset] at hmma hmmab hmmas hconv
    exact ⟨hmma, hmmab, hmmas, hconv⟩

theorem convolutionIssues : Claims.ConvolutionIssues := by
  unfold Claims.ConvolutionIssues
  intro s e w lit x r h htx hlead hroom hun c k0 hd g hrec hans hvalid hbytes hslots
  have hconv : exec (.mmaconv w lit x) s = execMmaconv w lit x s := rfl
  have hrings : matRings 0x1CB w.ty lit = [(matRB lit, slotNeedB 0x1CB w.ty lit)] := rfl
  have hok : ∀ r ∈ matRings 0x1CB w.ty lit, ((s.core e.core).rings.getD r.1 .empty).valid = true ∧
      r.2 ≤ ((s.core e.core).rings.getD r.1 .empty).bytes := by
    rw [hrings]
    rintro r hr
    rw [List.mem_singleton.mp hr]
    exact ⟨hvalid, hbytes⟩
  rw [execMmaconv, engineForm_leaf h htx] at hconv
  dsimp only at hconv
  rw [Exe.matrixChecked_ok hlead hok, Exe.records_cached htx hrec hans] at hconv
  have hrec' : cachedRec s (clusterOf e.core) e.l.tenant e.l.ctx (handleVa (e.num s .h x.a)) = some r := hrec
  simp only [hrec', Option.getD_some] at hconv
  refine ⟨fun hbit hfmt => ?_, fun hbit => ?_⟩
  · rw [if_neg (by simp [hbit, hfmt])] at hconv
    have hpaid : k0.paid e.uid (energyCost w.mod) = { k0 with energy := k0.energy.filter (fun p => p.unit != e.uid) } := by
      rw [Ctx.paid, if_pos hun]
    obtain ⟨m, k, hpost, hop, hty, hlit, hl, hg, hcv, hA, hB, hid, hcore, hw, hlen⟩ := Exe.issueMatrix_posts h hconv hroom (.inl hun) (by
      rw [hrings]
      rintro r hr
      rw [List.mem_singleton.mp hr]
      exact hslots)
    rw [hrings] at hlen
    rw [hpaid] at hpost
    exact ⟨m, k, hpost, hcv, hlit, by rw [hlen]; exact Nat.one_mul _⟩
  · rw [if_pos (by simp [hbit])] at hconv
    exact hconv

/-- Settles O21: the checks, the free slots and the budget decide, and the operation then joins the device. -/
theorem matrixIssue : Obligations.MatrixIssue :=
  ⟨matrixOperationsIssue, matrixOperationsFault, convolutionIssues⟩

end Sys2Proof.Machine
end

section
/-! Runs of bytes stored one after another: what a read inside, outside and across them returns. -/

namespace Sys2Proof.Machine

open Sys2Proof

/-! ### Numbers and their bytes -/

/-- Byte `i` of a number. -/
theorem leBytes_getElem? {n v i : Nat} (hi : i < n) : (leBytes n v)[i]? = some (BitVec.ofNat 8 (v / 256 ^ i)) := by
  induction n generalizing v i with
  | zero => omega
  | succ n ih =>
    cases i with
    | zero => simp [leBytes]
    | succ i =>
      rw [leBytes, List.getElem?_cons_succ, ih (by omega), Nat.div_div_eq_div_mul, Nat.pow_succ']

theorem leBytes_drop {n v k : Nat} (hk : k ≤ n) : (leBytes n v).drop k = leBytes (n - k) (v / 256 ^ k) := by
  refine List.ext_getElem? fun i => ?_
  rw [List.getElem?_drop]
  by_cases hi : k + i < n
  · rw [leBytes_getElem? hi, leBytes_getElem? (by omega), Nat.div_div_eq_div_mul, Nat.pow_add]
  · rw [List.getElem?_eq_none (by simpa using hi), List.getElem?_eq_none (by simp; omega)]

theorem leBytes_take {n v k : Nat} (hk : k ≤ n) : (leBytes n v).take k = leBytes k v := by
  refine List.ext_getElem? fun i => ?_
  by_cases hi : i < k
  · rw [List.getElem?_take_of_lt hi, leBytes_getElem? (by omega), leBytes_getElem? hi]
  · rw [List.getElem?_eq_none (by simp; omega), List.getElem?_eq_none (by simp; omega)]

/-! ### Reads of a memory -/

theorem Memory.readBytes_congr {m m' : Memory} {a n : Nat} (h : ∀ k, k < n → m.read (a + k) = m'.read (a + k)) :
    m.readBytes a n = m'.readBytes a n := by
  induction n generalizing a with
  | zero => rfl
  | succ n ih =>
    rw [Memory.readBytes, Memory.readBytes, show m.read a = m'.read a from h 0 (by omega),
      ih fun k hk => by rw [Nat.add_assoc, Nat.add_comm 1]; exact h (k + 1) (by omega)]

theorem Memory.readBytes_getElem? {m : Memory} {a n k : Nat} (hk : k < n) : (m.readBytes a n)[k]? = some (m.read (a + k)) := by
  induction n generalizing a k with
  | zero => omega
  | succ n ih =>
    cases k with
    | zero => rfl
    | succ k => rw [Memory.readBytes, List.getElem?_cons_succ, ih (by omega), Nat.add_assoc, Nat.add_comm 1]

/-- A run of bytes reads back. -/
theorem Memory.readBytes_writeBytes_inside {m : Memory} (h : m.wf = true) (a : Nat) (bs : List Byte) {k n : Nat} (hk : k + n ≤ bs.length) :
    (m.writeBytes a bs).readBytes (a + k) n = (bs.drop k).take n := by
  refine List.ext_getElem? fun i => ?_
  by_cases hi : i < n
  · rw [Memory.readBytes_getElem? hi, List.getElem?_take_of_lt hi, List.getElem?_drop, Memory.read_writeBytes h, if_pos (by omega),
      show a + k + i - a = k + i by omega, List.getD_eq_getElem?_getD, List.getElem?_eq_getElem (by omega)]
    rfl
  · rw [List.getElem?_eq_none (by simpa using hi), List.getElem?_eq_none (by simp; omega)]

theorem Memory.readBytes_writeBytes_outside {m : Memory} (h : m.wf = true) {a b n : Nat} {bs : List Byte}
    (hd : b + n ≤ a ∨ a + bs.length ≤ b) : (m.writeBytes a bs).readBytes b n = m.readBytes b n :=
  Memory.readBytes_congr fun k _ => Memory.read_writeBytes_outside h a bs _ (by omega)

/-! ### Many runs -/

/-- A memory after runs of bytes, each stored at its place. -/
def patched (m : Memory) (ps : List (Nat × List Byte)) : Memory := ps.foldl (fun m p => m.writeBytes p.1 p.2) m

theorem patched_cons (m : Memory) (p : Nat × List Byte) (ps : List (Nat × List Byte)) :
    patched m (p :: ps) = patched (m.writeBytes p.1 p.2) ps := rfl

theorem patched_append (m : Memory) (ps qs : List (Nat × List Byte)) : patched m (ps ++ qs) = patched (patched m ps) qs :=
  List.foldl_append

theorem wf_patched {m : Memory} (h : m.wf = true) (ps : List (Nat × List Byte)) : (patched m ps).wf = true := by
  induction ps generalizing m with
  | nil => exact h
  | cons p ps ih => exact ih (Memory.wf_writeBytes h p.1 p.2)

/-- A byte that no run covers keeps its value. -/
theorem read_patched_outside {m : Memory} (h : m.wf = true) {ps : List (Nat × List Byte)} {b : Nat}
    (hout : ∀ p ∈ ps, ¬ inSpan b p.1 p.2.length) : (patched m ps).read b = m.read b := by
  induction ps generalizing m with
  | nil => rfl
  | cons p ps ih =>
    have hp := hout p List.mem_cons_self
    rw [patched_cons, ih (Memory.wf_writeBytes h p.1 p.2) fun q hq => hout q (List.mem_cons_of_mem _ hq),
      Memory.read_writeBytes_outside h p.1 p.2 b (by rw [inSpan] at hp; omega)]

/-- Bytes that no run covers read as before. -/
theorem readBytes_patched_outside {m : Memory} (h : m.wf = true) {ps : List (Nat × List Byte)} {b n : Nat}
    (hout : ∀ p ∈ ps, b + n ≤ p.1 ∨ p.1 + p.2.length ≤ b) : (patched m ps).readBytes b n = m.readBytes b n :=
  Memory.readBytes_congr fun k _ => read_patched_outside h fun p hp hin => by
    have := hout p hp
    rw [inSpan] at hin
    omega

/-- The last run over some bytes is what they read as. -/
theorem readBytes_patched_last {m : Memory} (h : m.wf = true) {ps qs : List (Nat × List Byte)} {p : Nat × List Byte} {k n : Nat}
    (hk : k + n ≤ p.2.length) (hout : ∀ q ∈ qs, p.1 + k + n ≤ q.1 ∨ q.1 + q.2.length ≤ p.1 + k) :
    (patched m (ps ++ p :: qs)).readBytes (p.1 + k) n = (p.2.drop k).take n := by
  rw [patched_append, patched_cons, readBytes_patched_outside (Memory.wf_writeBytes (wf_patched h ps) p.1 p.2) hout,
    Memory.readBytes_writeBytes_inside (wf_patched h ps) p.1 p.2 hk]

/-- Where every run at a place stores the same bytes, and the others lie beside it, the place reads as those bytes. -/
theorem readBytes_patched_settled {m : Memory} (h : m.wf = true) {ps : List (Nat × List Byte)} {a : Nat} {bs : List Byte}
    (hps : ∀ p ∈ ps, p = (a, bs) ∨ a + bs.length ≤ p.1 ∨ p.1 + p.2.length ≤ a)
    (hset : m.readBytes a bs.length = bs ∨ (a, bs) ∈ ps) : (patched m ps).readBytes a bs.length = bs := by
  induction ps generalizing m with
  | nil => exact hset.resolve_right (by simp)
  | cons p ps ih =>
    refine ih (Memory.wf_writeBytes h p.1 p.2) (fun q hq => hps q (List.mem_cons_of_mem _ hq)) ?_
    rcases hps p List.mem_cons_self with rfl | hd
    · left
      have := Memory.readBytes_writeBytes_inside h a bs (k := 0) (n := bs.length) (by omega)
      simpa using this
    · rcases hset with hset | hset
      · exact .inl ((Memory.readBytes_writeBytes_outside h hd).trans hset)
      · rcases List.mem_cons.mp hset with rfl | hmem
        · left
          have := Memory.readBytes_writeBytes_inside h a bs (k := 0) (n := bs.length) (by omega)
          simpa using this
        · exact .inr hmem

end Sys2Proof.Machine
end

section
/-! Tile instructions (R375, R388 to R392): what a tile holds after elements are written, and what is read of it. -/

namespace Sys2Proof.Machine

open Sys2Proof

theorem leBytes_leNat (bs : List Byte) : leBytes bs.length (leNat bs) = bs := by
  induction bs with
  | nil => rfl
  | cons b bs ih =>
    have hb : (b.toNat + 256 * leNat bs) % 256 = b.toNat := by
      have := b.isLt
      omega
    have hq : (b.toNat + 256 * leNat bs) / 256 = leNat bs := by
      have := b.isLt
      omega
    have hhead : BitVec.ofNat 8 (b.toNat + 256 * leNat bs) = b := BitVec.eq_of_toNat_eq (by rw [BitVec.toNat_ofNat]; exact hb)
    rw [List.length_cons, leNat, leBytes, hhead, hq, ih]

theorem leNat_lt (bs : List Byte) : leNat bs < 256 ^ bs.length := by
  have h := leNat_leBytes bs.length (leNat bs)
  rw [leBytes_leNat] at h
  exact (Nat.mod_eq_iff_lt (by positivity)).mp h.symm

theorem readNat_four_lt (m : Memory) (a : Nat) : m.readNat a 4 < 2 ^ 32 := by
  have h := leNat_lt (m.readBytes a 4)
  rw [Memory.readBytes_length] at h
  exact h.trans_eq (by decide)

/-- Numbers that agree in their low bytes have the same bytes. -/
theorem leBytes_congr {n a b : Nat} (h : a % 256 ^ n = b % 256 ^ n) : leBytes n a = leBytes n b := by
  have hnat : leNat (leBytes n a) = leNat (leBytes n b) := by rw [leNat_leBytes, leNat_leBytes, h]
  have ha := leBytes_leNat (leBytes n a)
  have hb := leBytes_leNat (leBytes n b)
  rw [leBytes_length] at ha hb
  rw [← ha, hnat, hb]

section
variable {s : State} {e : Exe} {w : Main} {i : Instr} {x : Core}

/-! ### Tiles without a matrix operation in flight -/

theorem tileForm_leaf (h : Leaf s e) (f : Exe → State) : tileForm s f = .next (f e) := by
  rw [tileForm, onUnit_runs h.runs, h.leafOnly]

theorem Exe.withTiles_idle (hm : (s.core e.core).mats = []) (ts : List Nat) (f : Core → State) : e.withTiles s ts f = f (s.core e.core) := by
  have hnone : ts.find? (fun t => (s.core e.core).mats.any (fun m => matTD m.lit == t)) = none :=
    List.find?_eq_none.mpr fun t _ => by simp [hm]
  rw [Exe.withTiles, hnone]

theorem Exe.tileSpad_ok {sp n : Nat} {wr : Bool} (hal : sp % 16 = 0) (hfit : sp + n ≤ e.l.spad) (hst : e.spadStoresAt sp n = false)
    (hat : wr = true → e.owed s = []) (go : State) : e.tileSpad s sp n wr go = go := by
  have hdrain : (e.spadStoresAt sp n || (wr && !(e.owed s).isEmpty)) = false := by
    cases wr with
    | false => simp [hst]
    | true => simp [hst, hat rfl]
  rw [Exe.tileSpad, if_neg (not_not.mpr hal), if_neg hfit.not_gt, hdrain]
  rfl

/-! ### Elements written -/

/-- The bytes that an element (tile, row, column, bits) occupies. -/
def elemRun (v : Nat × Nat × Nat × Nat) : Nat × List Byte := (tileAt v.1 v.2.1 v.2.2.1, leBytes 4 v.2.2.2)

theorem foldl_setElem (x : Core) (vs : List (Nat × Nat × Nat × Nat)) :
    vs.foldl Core.setElem x = { x with tiles := patched x.tiles (vs.map elemRun) } := by
  induction vs generalizing x with
  | nil => rfl
  | cons v vs ih =>
    rw [List.foldl_cons, ih]
    rfl

theorem Core.keepTC_idle (hm : x.mats = []) (t : Nat) : x.keepTC t = x := by
  rw [Core.keepTC, hm, List.map_nil, ← hm]

theorem Exe.writeTile_idle (hm : x.mats = []) (t : Nat) (vs : List (Nat × Nat × Nat × Nat)) :
    e.writeTile s x t vs = s.setCore e.core { x with tiles := patched x.tiles (vs.map elemRun) } := by
  rw [Exe.writeTile, Core.keepTC_idle hm, foldl_setElem]

/-- Elements of one tile are the same four bytes or lie apart. -/
theorem tileAt_apart {t r c r' c' : Nat} (hc : c < 64) (hc' : c' < 64) (hne : ¬ (r = r' ∧ c = c')) :
    tileAt t r c + 4 ≤ tileAt t r' c' ∨ tileAt t r' c' + 4 ≤ tileAt t r c := by
  unfold tileAt
  omega

/-- The tile after its elements are written: each is as `f` gives it where every write agrees with `f`, and an element that is not written
already was. -/
theorem tile_patched {m : Memory} {t : Nat} {f : Nat → Nat → Nat} {vs : List (Nat × Nat × Nat × Nat)} (hwf : m.wf = true)
    (hvs : ∀ v ∈ vs, v.1 = t ∧ v.2.1 < 16 ∧ v.2.2.1 < 64 ∧ v.2.2.2 % 2 ^ 32 = f v.2.1 v.2.2.1 % 2 ^ 32)
    (hrest : ∀ r c, r < 16 → c < 64 → (∃ v ∈ vs, v.2.1 = r ∧ v.2.2.1 = c) ∨ m.readNat (tileAt t r c) 4 = f r c % 2 ^ 32) :
    (∀ r c, r < 16 → c < 64 → (patched m (vs.map elemRun)).readNat (tileAt t r c) 4 = f r c % 2 ^ 32) ∧
      ∀ b, ¬ inSpan b (4096 * t) 4096 → (patched m (vs.map elemRun)).read b = m.read b := by
  constructor
  · intro r c hr hc
    have hread : (patched m (vs.map elemRun)).readBytes (tileAt t r c) 4 = leBytes 4 (f r c) := by
      have hset := readBytes_patched_settled (a := tileAt t r c) (bs := leBytes 4 (f r c)) hwf (ps := vs.map elemRun)
      rw [leBytes_length] at hset
      refine hset (fun p hp => ?_) ?_
      · obtain ⟨v, hv, rfl⟩ := List.mem_map.mp hp
        obtain ⟨rfl, hr', hc', hval⟩ := hvs v hv
        by_cases heq : r = v.2.1 ∧ c = v.2.2.1
        · left
          rw [heq.1, heq.2, elemRun, leBytes_congr (n := 4) (by simpa using hval)]
        · right
          rw [elemRun, leBytes_length]
          exact tileAt_apart hc hc' heq
      · rcases hrest r c hr hc with ⟨v, hv, rfl, rfl⟩ | hold
        · right
          obtain ⟨rfl, -, -, hval⟩ := hvs v hv
          refine List.mem_map.mpr ⟨v, hv, ?_⟩
          rw [elemRun, leBytes_congr (n := 4) (by simpa using hval)]
        · left
          have hlen := leBytes_leNat (m.readBytes (tileAt t r c) 4)
          rw [Memory.readBytes_length] at hlen
          rw [← hlen]
          refine leBytes_congr ?_
          rw [Memory.readNat] at hold
          rw [hold]
          exact Nat.mod_mod _ _
    rw [Memory.readNat, hread, leNat_leBytes, show (256 : Nat) ^ 4 = 2 ^ 32 by decide]
  · intro b hb
    refine read_patched_outside hwf fun p hp hin => hb ?_
    obtain ⟨v, hv, rfl⟩ := List.mem_map.mp hp
    obtain ⟨rfl, hr, hc, -⟩ := hvs v hv
    rw [inSpan, elemRun, leBytes_length, tileAt] at hin
    rw [inSpan]
    omega

/-- An instruction that writes elements of a tile. -/
theorem writes_tile (h : Leaf s e) (hwf : (s.core e.core).tiles.wf = true) (hm : (s.core e.core).mats = []) {t : Nat} {f : Nat → Nat → Nat}
    {vs : List (Nat × Nat × Nat × Nat)} (hx : exec i s = .next (e.done (e.writeTile s (s.core e.core) t vs) w))
    (hvs : ∀ v ∈ vs, v.1 = t ∧ v.2.1 < 16 ∧ v.2.2.1 < 64 ∧ v.2.2.2 % 2 ^ 32 = f v.2.1 v.2.2.1 % 2 ^ 32)
    (hrest : ∀ r c, r < 16 → c < 64 → (∃ v ∈ vs, v.2.1 = r ∧ v.2.2.1 = c) ∨
      (s.core e.core).tiles.readNat (4096 * t + 256 * r + 4 * c) 4 = f r c % 2 ^ 32) :
    ∃ m : Memory, Completes s e i (s.setCore e.core { s.core e.core with tiles := m }) [] ∧ m.wf = true ∧
      (∀ r c, r < 16 → c < 64 → m.readNat (4096 * t + 256 * r + 4 * c) 4 = f r c % 2 ^ 32) ∧
      ∀ b, ¬ inSpan b (4096 * t) 4096 → m.read b = (s.core e.core).tiles.read b := by
  rw [Exe.writeTile_idle hm] at hx
  obtain ⟨hread, hframe⟩ := tile_patched hwf hvs hrest
  exact ⟨_, completes_done h.laold hx, wf_patched hwf _, hread, hframe⟩

theorem mem_tilePlaces {p : Nat × Nat} : p ∈ tilePlaces ↔ p.1 < 16 ∧ p.2 < 64 := by
  obtain ⟨r, c⟩ := p
  simp [tilePlaces]

/-- An instruction that writes every element of a tile. -/
theorem writes_whole_tile (h : Leaf s e) (hwf : (s.core e.core).tiles.wf = true) (hm : (s.core e.core).mats = []) {t : Nat}
    {f : Nat → Nat → Nat}
    (hx : exec i s = .next (e.done (e.writeTile s (s.core e.core) t (tilePlaces.map (fun p => (t, p.1, p.2, f p.1 p.2)))) w)) :
    ∃ m : Memory, Completes s e i (s.setCore e.core { s.core e.core with tiles := m }) [] ∧ m.wf = true ∧
      (∀ r c, r < 16 → c < 64 → m.readNat (4096 * t + 256 * r + 4 * c) 4 = f r c % 2 ^ 32) ∧
      ∀ b, ¬ inSpan b (4096 * t) 4096 → m.read b = (s.core e.core).tiles.read b := by
  refine writes_tile h hwf hm hx (fun v hv => ?_) fun r c hr hc => .inl ?_
  · obtain ⟨p, hp, rfl⟩ := List.mem_map.mp hv
    obtain ⟨hr, hc⟩ := mem_tilePlaces.mp hp
    exact ⟨rfl, hr, hc, rfl⟩
  · exact ⟨_, List.mem_map.mpr ⟨(r, c), mem_tilePlaces.mpr ⟨hr, hc⟩, rfl⟩, rfl, rfl⟩

/-! ### Slices -/

theorem Exe.oneSlice_ok {bound : Nat} (hk : e.slice s w e.leadLane < bound) (go : Nat → State) :
    e.oneSlice s w bound go = go (e.slice s w e.leadLane) := by
  rw [Exe.oneSlice, if_neg hk.not_ge]

theorem Exe.laneSlices_ok {bound : Nat} (hk : ∀ l, laneIn e.act l = true → e.slice s w l < bound) (go : State) :
    e.laneSlices s w bound go = go := by
  have hnone : (lanesIn e.act).find? (fun l => decide (bound ≤ e.slice s w l)) = none :=
    List.find?_eq_none.mpr fun l hl => by
      have := hk l (mem_lanesIn.mp hl)
      rw [decide_eq_true_eq]
      omega
  rw [Exe.laneSlices, hnone]

end

theorem tileWrites : Claims.TileWrites := by
  unfold Claims.TileWrites
  intro s e w h hwf hm x writes el sp t at_ k n
  have hlld : exec (.tlld w) s = execTlld w s := rfl
  have hzero : exec (.tlzero w) s = execTlzero w s := rfl
  have hmov : exec (.tlmov w) s = execTlmov w s := rfl
  have hrotr : exec (.tlrotr w) s = execTlrotr w s := rfl
  have hrotc : exec (.tlrotc w) s = execTlrotc w s := rfl
  have hbcr : exec (.tlbcr w) s = execTlbcr w s := rfl
  have hbcc : exec (.tlbcc w) s = execTlbcc w s := rfl
  have hputr : exec (.tlputr w) s = execTlputr w s := rfl
  have hel : ∀ a b c, el a b c % 2 ^ 32 = el a b c := fun a b c => Nat.mod_eq_of_lt (readNat_four_lt ..)
  refine ⟨fun hal hfit hst => ?_, ?_, ?_, fun hk => ?_, fun hk => ?_, fun hk => ?_, fun hk => ?_, fun hk => ?_⟩
  · rw [execTlld, tileForm_leaf h] at hlld
    dsimp only at hlld
    rw [Exe.tileSpad_ok hal hfit hst (by simp), Exe.withTiles_idle hm] at hlld
    exact writes_whole_tile h hwf hm hlld
  · rw [execTlzero, tileForm_leaf h] at hzero
    dsimp only at hzero
    rw [Exe.withTiles_idle hm] at hzero
    exact writes_whole_tile h hwf hm hzero
  · rw [execTlmov, tileForm_leaf h] at hmov
    dsimp only at hmov
    rw [Exe.withTiles_idle hm] at hmov
    exact writes_whole_tile h hwf hm hmov
  · rw [execTlrotr, tileShift, tileForm_leaf h, Exe.oneSlice_ok hk, Exe.withTiles_idle hm] at hrotr
    dsimp only at hrotr
    refine writes_tile h hwf hm hrotr (fun v hv => ?_) fun r c hr hc => ?_
    · simp only [List.map_map, List.mem_map, List.mem_range, Function.comp] at hv
      obtain ⟨c, hc, rfl⟩ := hv
      exact ⟨rfl, hk, hc, congrArg (· % 2 ^ 32) (if_pos rfl).symm⟩
    · by_cases hrk : r = k
      · left
        simp only [List.map_map, List.mem_map, List.mem_range, Function.comp]
        exact ⟨_, ⟨c, hc, rfl⟩, hrk.symm, rfl⟩
      · right
        rw [if_neg hrk]
        exact (hel t r c).symm
  · rw [execTlrotc, tileShift, tileForm_leaf h, Exe.oneSlice_ok hk, Exe.withTiles_idle hm] at hrotc
    dsimp only at hrotc
    refine writes_tile h hwf hm hrotc (fun v hv => ?_) fun r c hr hc => ?_
    · simp only [List.map_map, List.mem_map, List.mem_range, Function.comp] at hv
      obtain ⟨r, hr, rfl⟩ := hv
      exact ⟨rfl, hr, hk, congrArg (· % 2 ^ 32) (if_pos rfl).symm⟩
    · by_cases hck : c = k
      · left
        simp only [List.map_map, List.mem_map, List.mem_range, Function.comp]
        exact ⟨_, ⟨r, hr, rfl⟩, rfl, hck.symm⟩
      · right
        rw [if_neg hck]
        exact (hel t r c).symm
  · rw [execTlbcr, tileShift, tileForm_leaf h, Exe.oneSlice_ok hk, Exe.withTiles_idle hm] at hbcr
    dsimp only at hbcr
    rw [List.map_map] at hbcr
    exact writes_whole_tile (f := fun _ c => el t k c) h hwf hm hbcr
  · rw [execTlbcc, tileShift, tileForm_leaf h, Exe.oneSlice_ok hk, Exe.withTiles_idle hm] at hbcc
    dsimp only at hbcc
    rw [List.map_map] at hbcc
    exact writes_whole_tile (f := fun r _ => el t r k) h hwf hm hbcc
  · rw [execTlputr, tilePut, tileForm_leaf h, Exe.laneSlices_ok hk, Exe.withTiles_idle hm] at hputr
    dsimp only at hputr
    refine writes_tile h hwf hm hputr (fun v hv => ?_) fun r c hr hc => ?_
    · obtain ⟨l, hl, rfl⟩ := List.mem_map.mp hv
      have hact := mem_lanesIn.mp hl
      exact ⟨rfl, hk l hact, BitVec.lt_of_getLsbD hact, by rw [if_pos ⟨hact, rfl⟩]⟩
    · by_cases hat : laneIn e.act c = true ∧ at_ c = r
      · exact .inl ⟨_, List.mem_map.mpr ⟨c, mem_lanesIn.mpr hat.1, rfl⟩, hat.2, rfl⟩
      · right
        rw [if_neg hat]
        exact (hel t r c).symm

end Sys2Proof.Machine
end

section
/-! Tile instructions that read a tile, put columns and convert rows (R387, R390, R392). -/

namespace Sys2Proof.Machine

open Sys2Proof

section
variable {s : State} {e : Exe} {w : Main} {i : Instr}

/-- The lowest lane whose index lies outside the tile faults (R389). -/
theorem Exe.laneSlices_fault {bound l : Nat} (hl : laneIn e.act l = true) (hout : bound ≤ e.slice s w l)
    (hbelow : ∀ k, k < l → laneIn e.act k = true → e.slice s w k < bound) (go : State) :
    e.laneSlices s w bound go = e.fault s .tileIndex l := by
  have hfind : (lanesIn e.act).find? (fun l => decide (bound ≤ e.slice s w l)) = some l :=
    lanesIn_find?_eq_some hl (decide_eq_true hout) fun k hk hact => decide_eq_false (hbelow k hk hact).not_ge
  rw [Exe.laneSlices, hfind]

theorem gives_tileReduce {bound : Nat} {elems : Core → Nat → List Nat} (h : Leaf s e) (hm : (s.core e.core).mats = [])
    (hk : ∀ l, laneIn e.act l = true → e.slice s w l < bound) (hx : exec i s = tileReduce w bound elems s) :
    Gives s e i w.ty (fun l => redSum w.ty w.mod ((elems (s.core e.core) (e.slice s w l)).map (fun q => q % 2 ^ w.ty.width))) := by
  rw [tileReduce, tileForm_leaf h, Exe.laneSlices_ok hk, Exe.withTiles_idle hm] at hx
  dsimp only at hx
  split at hx
  next hcls =>
    refine (gives_ofNat h hx).congr fun l _ _ => ?_
    simp only [Exe.slice]
    rw [e.lane_uniform _ hcls e.leadLane l]
  next => exact gives_perLane h hx

theorem gives_tileGet {bound : Nat} {place : Nat → Nat → Nat × Nat} (h : Leaf s e) (hm : (s.core e.core).mats = [])
    (hk : ∀ l, laneIn e.act l = true → e.slice s w l < bound) (hx : exec i s = tileGet w bound place s) :
    Gives s e i w.ty (fun l => (s.core e.core).elem (selTile w) (place (e.slice s w l) l).1 (place (e.slice s w l) l).2) := by
  rw [tileGet, tileForm_leaf h, Exe.laneSlices_ok hk, Exe.withTiles_idle hm] at hx
  exact gives_perLane h hx

end

theorem tileReads : Claims.TileReads := by
  unfold Claims.TileReads
  intro s e w h hm x el sp t at_ cut
  have hlst : exec (.tlst w) s = execTlst w s := rfl
  have hget : exec (.tlgetr w) s = tileGet w 16 (fun x l => (x, l)) s := rfl
  have hput : exec (.tlputr w) s = tilePut w 16 (fun x l => (x, l)) s := rfl
  refine ⟨fun hal hfit hfree => ?_, fun hk => ⟨?_, ?_⟩, fun hk => ⟨?_, ?_⟩, fun l hl hout hbelow => ⟨?_, ?_⟩⟩
  · rw [execTlst, tileForm_leaf h] at hlst
    dsimp only at hlst
    rw [Exe.tileSpad_ok hal hfit hfree.stores (fun _ => hfree.atomics), Exe.withTiles_idle hm] at hlst
    exact completes_done h.laold hlst
  · exact gives_tileGet (bound := 16) (place := fun x l => (x, l)) h hm hk hget
  · refine (gives_tileReduce (bound := 16) (elems := fun x i => (List.range 64).map (x.elem (selTile w) i)) h hm hk rfl).congr
      fun l _ _ => congrArg (fun xs => redSum w.ty w.mod xs % 2 ^ 128) List.map_map
  · exact gives_tileGet (bound := 64) (place := fun x l => (l % 16, x)) h hm hk rfl
  · refine (gives_tileReduce (bound := 64) (elems := fun x j => (List.range 16).map (fun i => x.elem (selTile w) i j)) h hm hk rfl).congr
      fun l _ _ => congrArg (fun xs => redSum w.ty w.mod xs % 2 ^ 128) List.map_map
  · rw [hget, tileGet, tileForm_leaf h, Exe.laneSlices_fault hl hout hbelow]
    rfl
  · rw [hput, tilePut, tileForm_leaf h, Exe.laneSlices_fault hl hout hbelow]
    rfl

theorem tileColumnsPut : Claims.TileColumnsPut := by
  unfold Claims.TileColumnsPut
  intro s e w h hwf hm x t at_ hk
  have hput : exec (.tlputc w) s = tilePut w 64 (fun x l => (l % 16, x)) s := rfl
  rw [tilePut, tileForm_leaf h, Exe.laneSlices_ok hk, Exe.withTiles_idle hm] at hput
  dsimp only at hput
  rw [Exe.writeTile_idle hm, List.map_map] at hput
  refine ⟨_, completes_done h.laold hput, wf_patched hwf _, fun l hl hlast => ?_, fun b hb => ?_⟩
  · obtain ⟨lo, hi, hsplit⟩ := List.append_of_mem (mem_lanesIn.mpr hl)
    have hsorted : (lo ++ l :: hi).Pairwise (· < ·) := hsplit ▸ (List.pairwise_lt_range.sublist List.filter_sublist)
    have habove : ∀ k ∈ hi, l < k := (List.pairwise_cons.mp (List.pairwise_append.mp hsorted).2.1).1
    have hact : ∀ k ∈ hi, laneIn e.act k = true := fun k hk => mem_lanesIn.mp (by rw [hsplit]; simp [hk])
    rw [hsplit, List.map_append, List.map_cons, Memory.readNat]
    have hread := readBytes_patched_last (m := (s.core e.core).tiles) hwf (k := 0) (n := 4)
      (ps := lo.map (elemRun ∘ fun l => (selTile w, l % 16, e.slice s w l, e.lane (e.opnd s w.ty w.c) l)))
      (qs := hi.map (elemRun ∘ fun l => (selTile w, l % 16, e.slice s w l, e.lane (e.opnd s w.ty w.c) l)))
      (p := elemRun (selTile w, l % 16, e.slice s w l, e.lane (e.opnd s w.ty w.c) l)) (by simp [elemRun]) ?_
    · refine (congrArg leNat hread).trans ?_
      rw [elemRun, List.drop_zero, List.take_of_length_le (by rw [leBytes_length]), leNat_leBytes, show (256 : Nat) ^ 4 = 2 ^ 32 by decide]
    · intro q hq
      obtain ⟨k, hkhi, rfl⟩ := List.mem_map.mp hq
      have hne : ¬ (l % 16 = k % 16 ∧ e.slice s w l = e.slice s w k) := fun heq =>
        hlast k (habove k hkhi) (hact k hkhi) heq.1.symm heq.2.symm
      have hapart := tileAt_apart (t := selTile w) (hk l hl) (hk k (hact k hkhi)) hne
      simp only [elemRun, leBytes_length, Nat.add_zero, Function.comp]
      exact hapart
  · refine read_patched_outside hwf fun p hp hin => ?_
    obtain ⟨l, hl, rfl⟩ := List.mem_map.mp hp
    exact hb l (mem_lanesIn.mp hl) hin

/-! ### Rows converted and packed -/

theorem Memory.readBytes_within (m : Memory) (a : Nat) {k n q : Nat} (h : k + n ≤ q) :
    m.readBytes (a + k) n = ((m.readBytes a q).drop k).take n := by
  refine List.ext_getElem? fun i => ?_
  by_cases hi : i < n
  · rw [Memory.readBytes_getElem? hi, List.getElem?_take_of_lt hi, List.getElem?_drop, Memory.readBytes_getElem? (by omega), Nat.add_assoc]
  · rw [List.getElem?_eq_none (by simpa using hi), List.getElem?_eq_none (by simp; omega)]

/-- Codes of `b` bits beside one another: each is found at its place. -/
theorem packed_code (b : Nat) (xs : List Nat) (c : Nat) :
    (xs.mapIdx (fun j v => v % 2 ^ b * 2 ^ (b * j))).sum / 2 ^ (b * c) % 2 ^ b = xs.getD c 0 % 2 ^ b := by
  induction xs generalizing c with
  | nil => simp
  | cons x xs ih =>
    have hsum : (((x :: xs).mapIdx (fun j v => v % 2 ^ b * 2 ^ (b * j))).sum) =
        x % 2 ^ b + 2 ^ b * (xs.mapIdx (fun j v => v % 2 ^ b * 2 ^ (b * j))).sum := by
      rw [List.mapIdx_cons, List.sum_cons, List.mapIdx_eq_zipIdx_map, List.mapIdx_eq_zipIdx_map, ← List.sum_map_mul_left, Nat.mul_zero,
        Nat.pow_zero, Nat.mul_one]
      congr 3
      funext ⟨v, i⟩
      dsimp only
      rw [Nat.mul_succ, Nat.pow_add]
      ring
    have hpos : 0 < 2 ^ b := Nat.two_pow_pos b
    rw [hsum]
    cases c with
    | zero => simp
    | succ c =>
      rw [Nat.mul_succ, Nat.add_comm (b * c), Nat.pow_add, ← Nat.div_div_eq_div_mul, Nat.add_mul_div_left _ _ hpos,
        Nat.div_eq_of_lt (Nat.mod_lt _ hpos), Nat.zero_add, ih]
      rfl

theorem packRow_length (b : Nat) (xs : List Nat) : (packRow b xs).length = xs.length * b / 8 := leBytes_length _ _

/-- A code of whole bytes reads back from its row. -/
theorem packRow_code {n : Nat} {xs : List Nat} {c : Nat} (hc : c < xs.length) :
    leNat (((packRow (8 * n) xs).drop (n * c)).take n) = xs.getD c 0 % 2 ^ (8 * n) := by
  have h256 : ∀ k, 256 ^ k = 2 ^ (8 * k) := fun k => by rw [Nat.pow_mul]
  have hlen : xs.length * (8 * n) / 8 = n * xs.length := by
    rw [← Nat.mul_assoc, Nat.mul_comm xs.length 8, Nat.mul_assoc, Nat.mul_div_cancel_left _ (by decide), Nat.mul_comm]
  have hle : n * c + n ≤ n * xs.length := by
    rw [← Nat.mul_succ]
    exact Nat.mul_le_mul_left n hc
  rw [packRow, hlen, leBytes_drop (by omega), leBytes_take (by omega), leNat_leBytes, h256, h256, ← Nat.mul_assoc, packed_code]

/-- The types of at least eight bits are whole bytes. -/
theorem width_bytes {t : Ty} (h : 8 ≤ t.width) : t.width = 8 * t.bytes := by
  revert h
  cases t <;> decide

theorem tilesConvert : Claims.TilesConvert := by
  unfold Claims.TilesConvert
  intro s e w h hm hwf x sp src cols md q hal hfit hwidth hfree
  have hrd : exec (.mmard w) s = execMmard w s := rfl
  have hcols : matN src = cols := by
    unfold src cols
    split <;> rfl
  have hq : matN src * w.ty.width / 8 = q := by rw [hcols]
  rw [execMmard, tileForm_leaf h] at hrd
  dsimp only at hrd
  change exec (.mmard w) s = .next (e.tileSpad s sp (16 * (matN src * w.ty.width / 8)) true (e.withTiles s [immNat w.b] fun x =>
    e.done (s.setCore e.core { x with spad := (List.range 16).foldl (fun (m : Memory) i =>
      m.writeBytes (sp + matN src * w.ty.width / 8 * i) (mmardRow x (immNat w.b) i src w.ty w.mod)) x.spad }) w)) at hrd
  rw [hq, Exe.tileSpad_ok hal hfit hfree.stores (fun _ => hfree.atomics), Exe.withTiles_idle hm] at hrd
  have hrow : ∀ r, (mmardRow x (immNat w.b) r src w.ty w.mod).length = q := fun r => by
    rw [mmardRow, packRow_length, List.length_map, List.length_range, hcols]
  have hfold : (List.range 16).foldl (fun (m : Memory) i => m.writeBytes (sp + q * i) (mmardRow x (immNat w.b) i src w.ty w.mod)) x.spad =
      patched x.spad ((List.range 16).map fun i => (sp + q * i, mmardRow x (immNat w.b) i src w.ty w.mod)) := by
    rw [patched, List.foldl_map]
  rw [hfold] at hrd
  refine ⟨_, completes_done h.laold hrd, wf_patched hwf _, fun r c hr hc => ?_, fun b hb => ?_⟩
  · have hfull := readBytes_patched_settled (m := x.spad) (a := sp + q * r) (bs := mmardRow x (immNat w.b) r src w.ty w.mod) hwf
      (ps := (List.range 16).map fun i => (sp + q * i, mmardRow x (immNat w.b) i src w.ty w.mod)) (fun p hp => ?_)
      (.inr (List.mem_map.mpr ⟨r, List.mem_range.mpr hr, rfl⟩))
    · rw [hrow] at hfull
      have hbytes := width_bytes hwidth
      have hlen : ((List.range (matN src)).map fun j => Num.cvt src w.ty (arMode w.mod)
          (x.tiles.readNat (4096 * immNat w.b + 256 * r + src.bytes * j) src.bytes)).length = cols := by
        rw [List.length_map, List.length_range, hcols]
      have hfits : w.ty.width / 8 * c + w.ty.width / 8 ≤ q := by
        have hmul := Nat.mul_le_mul_left w.ty.bytes hc
        have hqb : q = w.ty.bytes * cols := by
          unfold q
          rw [hbytes, Nat.mul_left_comm, Nat.mul_div_cancel_left _ (by decide), Nat.mul_comm]
        rw [hqb]
        exact (Nat.mul_succ w.ty.bytes c) ▸ hmul
      rw [Memory.readNat, Memory.readBytes_within _ _ hfits, hfull, mmardRow]
      have hcode := packRow_code (n := w.ty.bytes) (xs := (List.range (matN src)).map fun j => Num.cvt src w.ty (arMode w.mod)
          (x.tiles.readNat (4096 * immNat w.b + 256 * r + src.bytes * j) src.bytes)) (c := c) (by omega)
      rw [← hbytes] at hcode
      refine hcode.trans ?_
      rw [List.getD_eq_getElem?_getD, List.getElem?_map, List.getElem?_range (by omega)]
      rfl
    · obtain ⟨i, hi, rfl⟩ := List.mem_map.mp hp
      rcases Nat.lt_trichotomy i r with hir | rfl | hir
      · have := Nat.mul_le_mul_left q hir
        rw [Nat.mul_succ] at this
        simp only [hrow]
        right
        omega
      · exact .inl rfl
      · have := Nat.mul_le_mul_left q hir
        rw [Nat.mul_succ] at this
        simp only [hrow]
        right
        omega
  · refine read_patched_outside hwf fun p hp hin => hb ?_
    obtain ⟨i, hi, rfl⟩ := List.mem_map.mp hp
    have hi' := Nat.mul_le_mul_left q (List.mem_range.mp hi)
    dsimp only at hin
    rw [inSpan, hrow] at hin
    rw [Nat.mul_succ] at hi'
    rw [inSpan]
    omega

/-- Settles O22: element writes settle one by one, and what is read is the elements at their places. -/
theorem tileTransfers : Obligations.TileTransfers :=
  ⟨tileWrites, tileReads, tileColumnsPut, tilesConvert⟩

end Sys2Proof.Machine
end

section
/-! The bytes that the lanes of a store leave (R109, R161): those no higher lane has stored, the highest lane's where lanes overlap. -/

namespace Sys2Proof.Machine

open Sys2Proof

section
variable {s : State} {e : Exe} {w : Main} {i : Instr}

/-! ### The bytes of one lane -/

theorem mem_ranked {sp a : Nat} {bs : List Byte} {p : Nat × Byte} :
    p ∈ e.ranked sp a bs ↔ bs[p.1]? = some p.2 ∧ e.outranked sp (a + p.1) = false := by
  obtain ⟨i, b⟩ := p
  simp only [Exe.ranked, List.mem_filter, List.mem_mapIdx, Bool.not_eq_true', Prod.mk.injEq]
  constructor
  · rintro ⟨⟨j, hj, rfl, rfl⟩, hout⟩
    exact ⟨List.getElem?_eq_getElem hj, hout⟩
  · rintro ⟨hb, hout⟩
    obtain ⟨hi, hb⟩ := List.getElem?_eq_some_iff.mp hb
    exact ⟨⟨i, hi, rfl, hb⟩, hout⟩

/-- A run of bytes as its bytes one by one. -/
theorem writeBytes_singles (m : Memory) (a : Nat) (bs : List Byte) :
    m.writeBytes a bs = patched m (bs.mapIdx (fun i b => (a + i, [b]))) := by
  induction bs generalizing m a with
  | nil => rfl
  | cons b bs ih =>
    rw [Memory.writeBytes, ih, List.mapIdx_cons, patched_cons]
    congr 1
    refine List.mapIdx_eq_mapIdx_iff.mpr fun i _ => ?_
    rw [Nat.add_assoc, Nat.add_comm 1]

/-- The runs that a lane's bytes make: one for each byte that no higher lane has stored. -/
def Exe.laneRuns (e : Exe) (sp a : Nat) (bs : List Byte) : List (Nat × List Byte) := (e.ranked sp a bs).map (fun p => (a + p.1, [p.2]))

theorem laneRuns_whole {sp a : Nat} {bs : List Byte} (h : (e.ranked sp a bs).length = bs.length) (m : Memory) :
    patched m (e.laneRuns sp a bs) = m.writeBytes a bs := by
  have hall : e.ranked sp a bs = bs.mapIdx (fun i b => (i, b)) :=
    List.filter_eq_self.mpr (List.length_filter_eq_length_iff.mp (h.trans List.length_mapIdx.symm))
  rw [Exe.laneRuns, hall, writeBytes_singles]
  congr 1
  exact List.ext_getElem (by simp) (by simp)

theorem mem_laneRuns {sp a : Nat} {bs : List Byte} {p : Nat × List Byte} (hp : p ∈ e.laneRuns sp a bs) :
    ∃ j b, bs[j]? = some b ∧ e.outranked sp (a + j) = false ∧ p = (a + j, [b]) := by
  obtain ⟨q, hq, rfl⟩ := List.mem_map.mp hp
  obtain ⟨hb, hout⟩ := mem_ranked.mp hq
  exact ⟨q.1, q.2, hb, hout, rfl⟩

/-! ### The bytes of many lanes -/

section
variable {ι : Type} (sp n : Nat) (at_ val : ι → Nat)

/-- The runs of many stores of `n` bytes, one after another. -/
def Exe.storeRuns (e : Exe) (xs : List ι) : List (Nat × List Byte) := xs.flatMap (fun x => e.laneRuns sp (at_ x) (leBytes n (val x)))

variable {sp n at_ val}

/-- A byte that no store covers, or only below a higher lane's, keeps its value. -/
theorem read_storeRuns_outside {m : Memory} (hm : m.wf = true) {xs : List ι} {b : Nat}
    (hout : ∀ x ∈ xs, inSpan b (at_ x) n → e.outranked sp b = true) : (patched m (e.storeRuns sp n at_ val xs)).read b = m.read b := by
  refine read_patched_outside hm fun p hp hin => ?_
  obtain ⟨x, hx, hp⟩ := List.mem_flatMap.mp hp
  obtain ⟨j, c, hc, hrank, rfl⟩ := mem_laneRuns hp
  obtain ⟨hj, -⟩ := List.getElem?_eq_some_iff.mp hc
  rw [leBytes_length] at hj
  rw [inSpan, List.length_singleton] at hin
  have hb : b = at_ x + j := by omega
  subst hb
  have hcov : inSpan (at_ x + j) (at_ x) n := ⟨by omega, by omega⟩
  rw [hout x hx hcov] at hrank
  cases hrank

/-- A byte that the last store over it may write is that store's. -/
theorem read_storeRuns_last {m : Memory} (hm : m.wf = true) {lo hi : List ι} {x : ι} {i : Nat} (hi' : i < n)
    (hrank : e.outranked sp (at_ x + i) = false) (hlast : ∀ y ∈ hi, ¬ inSpan (at_ x + i) (at_ y) n) :
    ((patched m (e.storeRuns sp n at_ val (lo ++ x :: hi))).read (at_ x + i)).toNat = val x / 256 ^ i % 256 := by
  have hmem : (at_ x + i, [BitVec.ofNat 8 (val x / 256 ^ i)]) ∈ e.storeRuns sp n at_ val (x :: hi) := by
    refine List.mem_flatMap.mpr ⟨x, List.mem_cons_self, List.mem_map.mpr ⟨(i, BitVec.ofNat 8 (val x / 256 ^ i)), ?_, rfl⟩⟩
    exact mem_ranked.mpr ⟨leBytes_getElem? hi', hrank⟩
  have hset := readBytes_patched_settled (a := at_ x + i) (bs := [BitVec.ofNat 8 (val x / 256 ^ i)])
    (wf_patched hm (e.storeRuns sp n at_ val lo)) (ps := e.storeRuns sp n at_ val (x :: hi)) (fun p hp => ?_) (.inr hmem)
  · rw [show e.storeRuns sp n at_ val (lo ++ x :: hi) = e.storeRuns sp n at_ val lo ++ e.storeRuns sp n at_ val (x :: hi) from
      List.flatMap_append, patched_append]
    have hread := (List.cons.inj hset).1
    rw [hread, BitVec.toNat_ofNat]
  · obtain ⟨y, hy, hp⟩ := List.mem_flatMap.mp hp
    obtain ⟨j, c, hc, -, rfl⟩ := mem_laneRuns hp
    obtain ⟨hj, -⟩ := List.getElem?_eq_some_iff.mp hc
    rw [leBytes_length] at hj
    by_cases heq : at_ y + j = at_ x + i
    · left
      rcases List.mem_cons.mp hy with rfl | hy
      · have hij : j = i := by omega
        subst hij
        rw [leBytes_getElem? hj] at hc
        rw [Option.some.inj hc]
      · exact absurd (show inSpan (at_ x + i) (at_ y) n from ⟨by omega, by omega⟩) (hlast y hy)
    · right
      simp only [List.length_singleton]
      omega

end

end

end Sys2Proof.Machine
end

section
/-! Scratchpad loads and stores (R354, R355). -/

namespace Sys2Proof.Machine

open Sys2Proof

section
variable {s : State} {e : Exe} {w : Main} {i : Instr}

/-! ### The lanes that act -/

theorem Leaf.multi (h : Leaf s e) : e.multi = false := by
  simp [Exe.multi, h.one]

theorem Leaf.items (h : Leaf s e) : e.items = (lanesIn e.act).map (fun l => (e.g.first, l)) := by
  simp [Exe.items, h.multi]

/-- The lanes for which a leaf's scratchpad access is made: one where `b` holds, else every active one. -/
def Exe.actingLanes (e : Exe) (b : Bool) : List Nat := if b then (lanesIn e.act).take 1 else lanesIn e.act

theorem Leaf.taken (h : Leaf s e) (b : Bool) : (if b = true then e.items.take 1 else e.items) = (e.actingLanes b).map (fun l => (e.g.first, l)) := by
  rw [h.items, Exe.actingLanes]
  cases b with
  | false => rfl
  | true => exact List.map_take.symm

theorem mem_actingLanes {b : Bool} {l : Nat} (h : l ∈ e.actingLanes b) : laneIn e.act l = true := by
  unfold Exe.actingLanes at h
  split at h
  · exact mem_lanesIn.mp (List.mem_of_mem_take h)
  · exact mem_lanesIn.mp h

/-- Every active lane has one that acts, with which it agrees on what is alike in all lanes where only one acts, and after which only higher
lanes act. -/
theorem actingLanes_last {α : Type} {b : Bool} {f : Nat → α} (hf : b = true → ∀ l l', f l = f l') {l : Nat} (hl : laneIn e.act l = true) :
    ∃ lo k hi, e.actingLanes b = lo ++ k :: hi ∧ f k = f l ∧ ∀ y ∈ hi, l < y ∧ laneIn e.act y = true := by
  obtain ⟨lo, hi, hsplit⟩ := List.append_of_mem (mem_lanesIn.mpr hl)
  unfold Exe.actingLanes
  cases b with
  | false =>
    have hsorted : (lo ++ l :: hi).Pairwise (· < ·) := hsplit ▸ (List.pairwise_lt_range.sublist List.filter_sublist)
    have habove := (List.pairwise_cons.mp (List.pairwise_append.mp hsorted).2.1).1
    exact ⟨lo, l, hi, hsplit, rfl, fun y hy => ⟨habove y hy, mem_lanesIn.mp (by rw [hsplit]; simp [hy])⟩⟩
  | true =>
    cases hlanes : lanesIn e.act with
    | nil => simp [hlanes] at hsplit
    | cons k ks => exact ⟨[], k, [], by simp, hf rfl k l, by simp⟩

theorem allU_uniform {vs : List TVal} (hu : allU vs = true) {v : TVal} (hv : v ∈ vs) (l l' : Nat) : e.lane v l = e.lane v l' :=
  e.lane_uniform v (by simpa using List.all_eq_true.mp hu v hv) l l'

/-! ### Checks of the offsets -/

/-- An offset that passes the check of R354. -/
def OffsetOk (l : Launch) (n : Nat) (x : Int) : Prop := x % n = 0 ∧ 0 ≤ x ∧ x + n ≤ l.spad

theorem spadCheck_none {l : Launch} {n : Nat} {x : Int} : spadCheck l x n = none ↔ OffsetOk l n x := by
  unfold spadCheck OffsetOk
  split
  · simp_all
  · split
    · constructor
      · intro h; cases h
      · rintro ⟨-, h1, h2⟩
        omega
    · constructor
      · intro
        omega
      · intro
        rfl

theorem spadCheck_bad {l : Launch} {n : Nat} {x : Int} (h : ¬ OffsetOk l n x) :
    spadCheck l x n = some (if x % n ≠ 0 then .misaligned else .spadRange) := by
  unfold spadCheck
  split
  · rfl
  · rw [if_pos]
    unfold OffsetOk at h
    omega

theorem spadFail_none {l : Launch} {n : Nat} {xs : List ((Nat × Nat) × Int)} (h : ∀ x ∈ xs, OffsetOk l n x.2) : spadFail l n xs = none := by
  induction xs with
  | nil => rfl
  | cons x xs ih =>
    rw [spadFail, spadCheck_none.mpr (h x List.mem_cons_self)]
    exact ih fun y hy => h y (List.mem_cons_of_mem _ hy)

theorem spadFail_first {l : Launch} {n : Nat} {lo hi : List ((Nat × Nat) × Int)} {x : (Nat × Nat) × Int} (hlo : ∀ y ∈ lo, OffsetOk l n y.2)
    (hx : ¬ OffsetOk l n x.2) : spadFail l n (lo ++ x :: hi) = some (x.1, x.2, if x.2 % n ≠ 0 then .misaligned else .spadRange) := by
  induction lo with
  | nil => rw [List.nil_append, spadFail, spadCheck_bad hx]
  | cons y lo ih =>
    rw [List.cons_append, spadFail, spadCheck_none.mpr (hlo y List.mem_cons_self)]
    exact ih fun z hz => hlo z (List.mem_cons_of_mem _ hz)

/-- The lowest lane whose offset fails is the one that the check finds, be there one acting lane or many. -/
theorem spadFail_lowest {b : Bool} {f : Nat → Int} {l n : Nat} (hf : b = true → ∀ l l', f l = f l') (hl : laneIn e.act l = true)
    (hbad : ¬ OffsetOk e.l n (f l)) (hlow : ∀ k, k < l → laneIn e.act k = true → OffsetOk e.l n (f k)) :
    spadFail e.l n ((e.actingLanes b).map (fun l => ((e.g.first, l), f l))) =
      some ((e.g.first, l), f l, if f l % n ≠ 0 then .misaligned else .spadRange) := by
  obtain ⟨lo, hi, hsplit⟩ := List.append_of_mem (mem_lanesIn.mpr hl)
  have hsorted : (lo ++ l :: hi).Pairwise (· < ·) := hsplit ▸ (List.pairwise_lt_range.sublist List.filter_sublist)
  have hbelow : ∀ k ∈ lo, OffsetOk e.l n (f k) := fun k hk =>
    hlow k ((List.pairwise_append.mp hsorted).2.2 k hk l List.mem_cons_self) (mem_lanesIn.mp (by rw [hsplit]; simp [hk]))
  have hacting : ∃ lo' hi', e.actingLanes b = lo' ++ l :: hi' ∧ ∀ k ∈ lo', OffsetOk e.l n (f k) := by
    unfold Exe.actingLanes
    cases b with
    | false => exact ⟨lo, hi, hsplit, hbelow⟩
    | true =>
      cases lo with
      | nil => exact ⟨[], [], by simp [hsplit], by simp⟩
      | cons k lo => exact absurd (hf rfl k l ▸ hbelow k List.mem_cons_self) hbad
  obtain ⟨lo', hi', hact, hlo'⟩ := hacting
  rw [hact, List.map_append, List.map_cons]
  refine spadFail_first (fun y hy => ?_) hbad
  obtain ⟨k, hk, rfl⟩ := List.mem_map.mp hy
  exact hlo' k hk

/-- No native store of the galley is outstanding. -/
theorem spadStoresAt_none (h : ∀ th ∈ e.g.threads, ∀ n, th.native = some n → n.stores = []) (a n : Nat) : e.spadStoresAt a n = false := by
  refine List.any_eq_false.mpr fun th hth => ?_
  split
  next x hx => simp [NativeRun.storesAt, h th hth x hx]
  next => simp

/-! ### The value loaded -/

/-- What a load of a leaf defines: in each active lane what was read for it. -/
theorem gives_loaded {ty : Ty} {b : Bool} {f : Nat → Nat} (h : Leaf s e) (hf : b = true → ∀ l l', f l = f l')
    (hx : exec i s = .next (e.define s w [⟨ty, e.loaded b ((e.actingLanes b).map (fun l => (l, f l)))⟩])) : Gives s e i ty f := by
  refine gives_define (v := ⟨ty, _⟩) h.laold hx fun l hl hact => ?_
  have hmem := mem_lanesIn.mpr hact
  unfold Exe.actingLanes
  cases b with
  | false =>
    have hfind : ((lanesIn e.act).map (fun l => (l, f l))).find? (fun x => x.1 == l) = some (l, f l) := by
      rw [List.find?_map]
      have : (lanesIn e.act).find? ((fun x : Nat × Nat => x.1 == l) ∘ fun l => (l, f l)) = some l :=
        lanesIn_find?_eq_some hact (by simp) fun k hk _ => by simp; omega
      rw [this]
      rfl
    cases hlanes : lanesIn e.act with
    | nil => rw [hlanes] at hmem; cases hmem
    | cons k ks =>
      rw [hlanes] at hfind
      simp only [Bool.false_eq_true, if_false, List.map_cons, Exe.loaded, Bool.false_and] at hfind ⊢
      rw [Exe.lane_spread e _ _ hl, hfind, BitVec.toNat_ofNat]
  | true =>
    cases hlanes : lanesIn e.act with
    | nil => rw [hlanes] at hmem; cases hmem
    | cons k ks =>
      simp only [if_true, List.take_succ_cons, List.take_zero, List.map_cons, List.map_nil, Exe.loaded]
      rw [hf rfl l k]
      simp

/-! ### The bytes stored -/

/-- The marks of items are the galley's; outside per-item mode none are made. -/
theorem Exe.mark_only (e : Exe) (s : State) (sp a : Nat) (is : List Nat) :
    ∃ gs, e.mark s sp a is = { s with galleys := gs } ∧ (e.uid.item = none → gs = s.galleys) := by
  unfold Exe.mark
  split
  next => exact ⟨s.galleys, rfl, fun _ => rfl⟩
  next lane hitem =>
    split
    next => exact ⟨s.galleys, rfl, fun _ => rfl⟩
    next g hg => exact ⟨_, rfl, fun h => absurd (hitem.symm.trans h) (by simp)⟩

/-- What stores to the scratchpad of the unit's core leave alone, and the scratchpad after them. -/
structure SpadStored (e : Exe) (s t : State) (spad : Memory) : Prop where
  core     : t.core e.core = { s.core e.core with spad := spad }
  others   : ∀ c, c ≠ e.core → t.core c = s.core c
  mem      : t.mem = s.mem
  launches : t.launches = s.launches
  ctxs     : t.ctxs = s.ctxs
  galleys  : e.uid.item = none → t.galleys = s.galleys

theorem SpadStored.trans {t u : State} {m m' : Memory} (h : SpadStored e s t m) (h' : SpadStored e t u m') : SpadStored e s u m' where
  core := by rw [h'.core, h.core]
  others c hc := (h'.others c hc).trans (h.others c hc)
  mem := h'.mem.trans h.mem
  launches := h'.launches.trans h.launches
  ctxs := h'.ctxs.trans h.ctxs
  galleys hi := (h'.galleys hi).trans (h.galleys hi)

theorem storeSpad_stored (e : Exe) (s : State) (a : Nat) (bs : List Byte) :
    SpadStored e s (e.storeSpad s a bs) (patched (s.core e.core).spad (e.laneRuns 3 a bs)) := by
  have hfold : (e.ranked 3 a bs).foldl (fun (m : Memory) p => m.write (a + p.1) p.2) (s.core e.core).spad =
      patched (s.core e.core).spad (e.laneRuns 3 a bs) := by
    rw [Exe.laneRuns, patched, List.foldl_map]
    rfl
  unfold Exe.storeSpad
  dsimp only
  rw [hfold]
  obtain ⟨gs, hgs, hkeep⟩ := e.mark_only (s.setCore e.core { s.core e.core with spad := patched (s.core e.core).spad (e.laneRuns 3 a bs) }) 3 a
    ((e.ranked 3 a bs).map Prod.fst)
  rw [hgs]
  exact ⟨State.core_setCore _ _ _, fun c hc => State.core_setCore_other _ _ hc, rfl, rfl, rfl, hkeep⟩

theorem storeSpads_stored {ι : Type} (n : Nat) (at_ val : ι → Nat) (xs : List ι) (s : State) :
    SpadStored e s (xs.foldl (fun s x => e.storeSpad s (at_ x) (leBytes n (val x))) s)
      (patched (s.core e.core).spad (e.storeRuns 3 n at_ val xs)) := by
  induction xs generalizing s with
  | nil => exact ⟨rfl, fun _ _ => rfl, rfl, rfl, rfl, fun _ => rfl⟩
  | cons x xs ih =>
    have hx := storeSpad_stored e s (at_ x) (leBytes n (val x))
    have hxs := ih (e.storeSpad s (at_ x) (leBytes n (val x)))
    rw [hx.core] at hxs
    have := hx.trans hxs
    rw [← patched_append] at this
    exact this

end

/-- Offsets that are multiples of the size are equal or a size apart. -/
theorem aligned_apart {n : Nat} {x y : Int} (hn : 1 ≤ n) (hx : x % n = 0) (hy : y % n = 0) (h0 : 0 ≤ x) (h0' : 0 ≤ y) (hne : x ≠ y) :
    x.toNat + n ≤ y.toNat ∨ y.toNat + n ≤ x.toNat := by
  obtain ⟨a, rfl⟩ := Int.dvd_of_emod_eq_zero hx
  obtain ⟨b, rfl⟩ := Int.dvd_of_emod_eq_zero hy
  have hn' : (0 : Int) < n := by omega
  rcases lt_trichotomy a b with hab | rfl | hab
  · have := mul_le_mul_of_nonneg_left (Int.add_one_le_iff.mpr hab) hn'.le
    rw [mul_add, mul_one] at this
    omega
  · exact absurd rfl hne
  · have := mul_le_mul_of_nonneg_left (Int.add_one_le_iff.mpr hab) hn'.le
    rw [mul_add, mul_one] at this
    omega

/-- A number whose bytes are read one by one. -/
theorem readNat_of_bytes {m : Memory} {a n v : Nat} (h : ∀ i, i < n → (m.read (a + i)).toNat = v / 256 ^ i % 256) :
    m.readNat a n = v % 256 ^ n := by
  have hbytes : m.readBytes a n = leBytes n v := by
    refine List.ext_getElem? fun i => ?_
    by_cases hi : i < n
    · rw [Memory.readBytes_getElem? hi, leBytes_getElem? hi]
      exact congrArg some (BitVec.eq_of_toNat_eq (by rw [h i hi, BitVec.toNat_ofNat]))
    · rw [List.getElem?_eq_none (by simpa using hi), List.getElem?_eq_none (by simpa using hi)]
  rw [Memory.readNat, hbytes, leNat_leBytes]

theorem Exe.storeData_laold {s : State} {e : Exe} (h : e.th.native = none) (w : Main) : e.storeData s w = none := by
  unfold Exe.storeData
  rw [h]
  split
  next heq => cases heq
  next => rfl

theorem Exe.storeAddr_laold {s : State} {e : Exe} (h : e.th.native = none) (w : Main) (spad : Bool) (n : Nat) (ts : List (Nat × Nat × Nat)) :
    e.storeAddr s w spad n ts = none := by
  unfold Exe.storeAddr
  rw [h]
  split
  next heq => cases heq
  next => rfl

/-- Settles O15: the check finds the lowest lane that fails, a load reads each lane's bytes, and of the bytes stored the highest lane's
stay. -/
theorem scratchpadAccess : Obligations.ScratchpadAccess := by
  unfold Obligations.ScratchpadAccess
  intro s e w h hn hwf hnat n off good
  have hld : exec (.ldS w) s = execLdS w s := rfl
  have hst : exec (.stS w) s = execStS w s := rfl
  rw [execLdS, onUnit_runs h.runs] at hld
  rw [execStS, onUnit_runs h.runs] at hst
  simp only [h.multi, Bool.and_false, Bool.false_eq_true, if_false, and_false, h.taken, List.map_map, Function.comp_def,
    Exe.storeData_laold h.laold, Exe.storeAddr_laold h.laold, List.foldl_map] at hld hst
  have huld : allU [e.opnd s .n32 w.a, e.opnd s .i32 w.b] = true → ∀ l l', off (e.opnd s .i32 w.b) l = off (e.opnd s .i32 w.b) l' :=
    fun hu l l' => by simp only [off, allU_uniform hu (v := e.opnd s .n32 w.a) (by simp) l l', allU_uniform hu (v := e.opnd s .i32 w.b) (by simp) l l']
  have hust : (allU [e.opnd s .n32 w.a, e.opB s w, e.opnd s .i32 w.c] && e.th.native.isNone) = true →
      ∀ l l', (off (e.opnd s .i32 w.c) l, e.lane (e.opB s w) l) = (off (e.opnd s .i32 w.c) l', e.lane (e.opB s w) l') := fun hu l l' => by
    have hu := (Bool.and_eq_true_iff.mp hu).1
    simp only [off, allU_uniform hu (v := e.opnd s .n32 w.a) (by simp) l l', allU_uniform hu (v := e.opnd s .i32 w.c) (by simp) l l',
      allU_uniform hu (v := e.opB s w) (by simp) l l']
  have hoff : ∀ o, (fun l => ((e.g.first, l), e.spadOff (e.opnd s .n32 w.a) o (e.g.first, l))) = fun l => ((e.g.first, l), off o l) := fun _ => rfl
  rw [hoff] at hld hst
  refine ⟨fun hgood => ?_, fun howed hgood => ?_, fun l hl => ⟨fun hbad hlow => ?_, fun hbad hlow => ?_⟩⟩
  · have hok : spadFail e.l w.ty.bytes ((e.actingLanes (allU [e.opnd s .n32 w.a, e.opnd s .i32 w.b])).map fun l =>
        ((e.g.first, l), off (e.opnd s .i32 w.b) l)) = none := spadFail_none fun x hx => by
      obtain ⟨l, hl, rfl⟩ := List.mem_map.mp hx
      exact hgood l (mem_actingLanes hl)
    rw [hok] at hld
    simp only [spadStoresAt_none hnat, List.any_eq_true, Bool.false_eq_true, and_false, exists_false, if_false] at hld
    exact gives_loaded (f := fun l => (s.core e.core).spad.readNat (off (e.opnd s .i32 w.b) l).toNat n) h
      (fun hu l l' => by rw [huld hu l l']) hld
  · have hok : spadFail e.l w.ty.bytes ((e.actingLanes (allU [e.opnd s .n32 w.a, e.opB s w, e.opnd s .i32 w.c] && e.th.native.isNone)).map
        fun l => ((e.g.first, l), off (e.opnd s .i32 w.c) l)) = none := spadFail_none fun x hx => by
      obtain ⟨l, hl, rfl⟩ := List.mem_map.mp hx
      exact hgood l (mem_actingLanes hl)
    rw [hok, howed] at hst
    simp only [List.isEmpty_nil, Bool.not_true, Bool.false_eq_true, if_false] at hst
    have hstored := storeSpads_stored (e := e) n (fun l => (off (e.opnd s .i32 w.c) l).toNat) (fun l => e.lane (e.opB s w) l)
      (e.actingLanes (allU [e.opnd s .n32 w.a, e.opB s w, e.opnd s .i32 w.c] && e.th.native.isNone)) s
    refine ⟨_, _, completes_done h.laold hst, hstored.core, hstored.others, hstored.mem, hstored.launches, hstored.ctxs, hstored.galleys,
      wf_patched hwf _, fun b hb => ?_, fun l hl hlast hrank => ?_⟩
    · exact read_storeRuns_outside hwf fun l hl => hb l (mem_actingLanes hl)
    · obtain ⟨lo, k, hi, hsplit, hk, hhi⟩ := actingLanes_last hust hl
      have hoffk := congrArg Prod.fst hk
      have hvalk := congrArg Prod.snd hk
      dsimp only at hoffk hvalk
      obtain ⟨hal, hlo, -⟩ := hgood l hl
      rw [hsplit]
      refine readNat_of_bytes fun i hi' => ?_
      have hread := read_storeRuns_last (e := e) (sp := 3) (n := n) (at_ := fun l => (off (e.opnd s .i32 w.c) l).toNat)
        (val := fun l => e.lane (e.opB s w) l) hwf (lo := lo) (x := k) (hi := hi) hi' (by rw [hoffk]; exact hrank i hi') fun y hy hin => ?_
      · rw [hoffk, hvalk] at hread
        exact hread
      · obtain ⟨hly, hact⟩ := hhi y hy
        obtain ⟨haly, hloy, -⟩ := hgood y hact
        have := aligned_apart hn haly hal hloy hlo (hlast y hly hact)
        rw [hoffk] at hin
        obtain ⟨h1, h2⟩ := hin
        change (off (e.opnd s .i32 w.c) y).toNat + n ≤ _ ∨ _ + n ≤ _ at this
        omega
  · have hfail := spadFail_lowest (f := off (e.opnd s .i32 w.b)) huld hl hbad hlow
    rw [hfail] at hld
    exact hld
  · have hfail := spadFail_lowest (f := off (e.opnd s .i32 w.c)) (fun hu l l' => congrArg Prod.fst (hust hu l l')) hl hbad hlow
    rw [hfail] at hst
    exact hst

end Sys2Proof.Machine
end

section
/-! Stores to memory and hints (R109, R161, R353, R356). -/

namespace Sys2Proof.Machine

open Sys2Proof

section
variable {s t u : State} {e : Exe} {w : Main} {i : Instr}

/-! ### What a plan's targets are of -/

theorem lookAll_map_fst (v : View) (a : Access) (rs : List Req) (s : State) : (lookAll v a rs s).1.map Prod.fst = rs := by
  induction rs generalizing s with
  | nil => rfl
  | cons r rs ih => exact congrArg (r :: ·) (ih _)

/-- The targets of a plan that goes on are those of its requests. -/
theorem plan_req {v : View} {a : Access} {rs : List Req} {ts : List (Req × PTarget × Bool)} (h : plan s v a rs = (.go ts, t))
    {x : Req × PTarget × Bool} (hx : x ∈ ts) : x.1 ∈ rs := by
  rw [(plan_go h).2] at hx
  obtain ⟨k, hk, hkx⟩ := List.mem_filterMap.mp hx
  have hmem := List.mem_map_of_mem (f := Prod.fst) hk
  rw [lookAll_map_fst] at hmem
  split at hkx
  · cases hkx
    exact hmem
  · cases hkx

/-- The actors of a leaf are lanes of its group. -/
theorem Leaf.actor (h : Leaf s e) {vs : List TVal} {j : Nat × Nat} (hj : j ∈ e.actors vs) : j.1 = e.g.first ∧ laneIn e.act j.2 = true := by
  have hmem : j ∈ e.items := by
    unfold Exe.actors at hj
    split at hj
    · exact List.mem_of_mem_take hj
    · exact hj
  rw [h.items] at hmem
  obtain ⟨l, hl, rfl⟩ := List.mem_map.mp hmem
  exact ⟨rfl, mem_lanesIn.mp hl⟩

/-! ### Stores -/

/-- `t` is `s` after stores to device memory: memory is `m`, and but for it only L1s and the marks of items have changed. -/
structure MemStored (e : Exe) (s t : State) (m : Memory) : Prop where
  rest    : t = { s with mem := m, cores := t.cores, galleys := t.galleys }
  galleys : e.uid.item = none → t.galleys = s.galleys

theorem MemStored.trans {m m' : Memory} (h : MemStored e s t m) (h' : MemStored e t u m') : MemStored e s u m' where
  rest := by rw [h'.rest, h.rest]
  galleys hi := (h'.galleys hi).trans (h.galleys hi)

theorem MemStored.noExact {m : Memory} (h : MemStored e s t m) (hs : s.NoExact) : t.NoExact := by
  rw [h.rest]
  exact hs

theorem MemStored.mem {m : Memory} (h : MemStored e s t m) : t.mem = m := by rw [h.rest]

theorem writePhys_runs (hs : s.NoExact) (pa : Nat) (ps : List (Nat × Byte)) :
    ps.foldl (fun s p => s.writePhys ⟨0, pa + p.1⟩ [p.2]) s = { s with mem := patched s.mem (ps.map (fun p => (pa + p.1, [p.2]))) } := by
  induction ps generalizing s with
  | nil => rfl
  | cons p ps ih =>
    rw [List.foldl_cons, writePhys_plain hs, ih (s := { s with mem := s.mem.writeBytes (pa + p.1) [p.2] }) hs]
    rfl

theorem l1Drop_only (s : State) (core : Nat) (p : PTarget) (n : Nat) : ∃ cs, l1Drop s core p n = { s with cores := cs } := by
  unfold l1Drop
  split
  · exact ⟨s.cores, rfl⟩
  · exact ⟨_, rfl⟩

theorem store_stored (hs : s.NoExact) (pa : Nat) (bs : List Byte) :
    MemStored e s (e.store s ⟨0, pa⟩ bs) (patched s.mem (e.laneRuns 0 pa bs)) := by
  have hwrite : (if (e.ranked 0 pa bs).length = bs.length then s.writePhys ⟨0, pa⟩ bs
      else (e.ranked 0 pa bs).foldl (fun s p => s.writePhys ⟨0, pa + p.1⟩ [p.2]) s) =
      { s with mem := patched s.mem (e.laneRuns 0 pa bs) } := by
    split
    next hlen => rw [writePhys_plain hs, laneRuns_whole hlen]
    next => exact writePhys_runs hs pa _
  unfold Exe.store
  dsimp only
  rw [hwrite]
  obtain ⟨cs, hcs⟩ := l1Drop_only { s with mem := patched s.mem (e.laneRuns 0 pa bs) } e.core ⟨0, pa⟩ bs.length
  rw [hcs]
  obtain ⟨gs, hgs, hkeep⟩ := e.mark_only { s with mem := patched s.mem (e.laneRuns 0 pa bs), cores := cs } 0 pa ((e.ranked 0 pa bs).map Prod.fst)
  rw [hgs]
  exact ⟨rfl, hkeep⟩

theorem stores_stored {ι : Type} (n : Nat) (at_ val : ι → Nat) (xs : List ι) (hs : s.NoExact) :
    MemStored e s (xs.foldl (fun s x => e.store s ⟨0, at_ x⟩ (leBytes n (val x))) s) (patched s.mem (e.storeRuns 0 n at_ val xs)) := by
  induction xs generalizing s with
  | nil => exact ⟨rfl, fun _ => rfl⟩
  | cons x xs ih =>
    have hx := store_stored (e := e) hs (at_ x) (leBytes n (val x))
    have hxs := ih (hx.noExact hs)
    rw [hx.mem] at hxs
    have := hx.trans hxs
    rw [← patched_append] at this
    exact this

end

theorem storesToMemory : Claims.StoresToMemory := by
  unfold Claims.StoresToMemory
  intro s t e w ts h htx howes a v o n hr hplain hwf htgt
  have hst : exec (.stG w) s = execStG w s := rfl
  rw [execStG, onUnit_runs h.runs] at hst
  have hacc : ({ Access.wr with tx := e.tx?.isSome } : Access) = Access.wr := by rw [htx]; rfl
  have hgrp : ∀ x ∈ ts, x.1.grp = e.g.first := fun x hx => by
    obtain ⟨j, hj, hjx⟩ := List.mem_map.mp (plan_req hr.planned hx)
    rw [← hjx]
    exact (h.actor hj).1
  dsimp only at hst
  rw [Exe.storeData_laold h.laold, h.multi, howes, hacc] at hst
  simp only [Bool.false_eq_true, and_false, if_false] at hst
  have hdata : ts.foldl (fun s (x : Req × PTarget × Bool) => e.store s x.2.1 (leBytes n (e.at_ v (x.1.grp, x.1.lane)))) t =
      ts.foldl (fun s (x : Req × PTarget × Bool) => e.store s ⟨0, x.2.1.pa⟩ (leBytes n (e.lane v x.1.lane))) t := by
    refine List.foldl_ext _ _ _ fun s x hx => ?_
    have hp : x.2.1 = ⟨0, x.2.1.pa⟩ := by rw [← htgt x hx]
    rw [hgrp x hx, hp]
    rfl
  rw [hr.access htx, Exe.storeAddr_laold h.laold, Exe.storeAll, htx] at hst
  rw [hdata] at hst
  have hstored := stores_stored (e := e) n (fun x : Req × PTarget × Bool => x.2.1.pa) (fun x => e.lane v x.1.lane) ts hplain
  refine ⟨_, completes_done h.laold hst, ?_⟩
  generalize ts.foldl (fun s (x : Req × PTarget × Bool) => e.store s ⟨0, x.2.1.pa⟩ (leBytes n (e.lane v x.1.lane))) t = u at hstored ⊢
  rw [hstored.mem]
  refine ⟨by rw [hstored.rest], by rw [hstored.rest], by rw [hstored.rest], by rw [hstored.rest], hstored.galleys, wf_patched hwf _,
    fun b hb => read_storeRuns_outside hwf hb, ?_⟩
  intro before after x hsplit i hi hrank hafter
  rw [hsplit]
  refine read_storeRuns_last (at_ := fun x : Req × PTarget × Bool => x.2.1.pa) (val := fun x => e.lane v x.1.lane) hwf hi hrank
    fun y hy hin => ?_
  rw [hafter y hy hin] at hrank
  cases hrank

/-! ### Hints -/

/-- `t` is `s` but for cores and the stream of free choices. -/
def CoresOnly (s t : State) : Prop := t = { s with cores := t.cores, choices := t.choices }

section
variable {s t u : State} {e : Exe}

theorem CoresOnly.trans (h : CoresOnly s t) (h' : CoresOnly t u) : CoresOnly s u := by
  unfold CoresOnly at *
  rw [h', h]

theorem CoresOnly.setCore (s : State) (c : Nat) (x : Core) : CoresOnly s (s.setCore c x) := rfl

/-- No exact entry and no serial lock: a read of device memory answers its bytes, and changes nothing. -/
def State.Quiet (s : State) : Prop := s.NoExact ∧ s.serial.locks = []

theorem CoresOnly.quiet (h : CoresOnly s t) (hs : s.Quiet) : t.Quiet := by
  rw [h]
  exact hs

theorem translateNow_state (hs : s.NoExact) (t k va n : Nat) (a : Access) : (translateNow s t k va n a).2 = s := by
  have hwalk := walk_state hs t k va
  unfold translateNow
  split
  · rfl
  · split
    next heq => rw [heq] at hwalk; exact hwalk
    next heq => rw [heq] at hwalk; exact hwalk
    next heq =>
      rw [heq] at hwalk
      dsimp only at hwalk
      subst hwalk
      split <;> rfl

theorem hintTarget_state (hs : s.NoExact) (va : Nat) : (e.hintTarget s va).2 = s := by
  have htr := translateNow_state hs e.l.tenant e.l.ctx va 1 .rd
  unfold Exe.hintTarget
  split
  next heq => rw [heq] at htr; exact htr
  next heq => rw [heq] at htr; exact htr

theorem l1Room_cores (s : State) (core line : Nat) : CoresOnly s (l1Room s core line) := by
  unfold l1Room
  dsimp only
  split <;> rfl

theorem l1Load_cores (hs : s.Quiet) (core : Nat) (me : Option GroupRef) (va : Nat) (p : PTarget) (n : Nat) :
    CoresOnly s (l1Load s core me va p n).2 := by
  unfold l1Load l1Serve
  dsimp only
  split
  next => rfl
  next =>
    rw [State.readFor_plain hs.1 hs.2]
    dsimp only
    refine CoresOnly.trans (t := countEvent s core 8 1) rfl ?_
    exact (l1Room_cores _ _ _).trans (.setCore _ _ _)

theorem l1Drop_cores (s : State) (core : Nat) (p : PTarget) (n : Nat) : CoresOnly s (l1Drop s core p n) := by
  obtain ⟨cs, hcs⟩ := l1Drop_only s core p n
  rw [hcs]
  rfl

/-- Steps that change only cores, one after another. -/
theorem foldl_cores {α : Type} {f : State → α → State} (hf : ∀ s x, s.Quiet → CoresOnly s (f s x)) (xs : List α) (hs : s.Quiet) :
    CoresOnly s (xs.foldl f s) := by
  induction xs generalizing s with
  | nil => rfl
  | cons x xs ih => exact (hf s x hs).trans (ih ((hf s x hs).quiet hs))

/-- What a change of cores alone leaves. -/
theorem CoresOnly.rest (h : CoresOnly s t) : t.mem = s.mem ∧ t.hostMem = s.hostMem ∧ t.peerMem = s.peerMem ∧ t.galleys = s.galleys ∧
    t.launches = s.launches ∧ t.ctxs = s.ctxs := by
  rw [h]
  exact ⟨rfl, rfl, rfl, rfl, rfl, rfl⟩

end

theorem hintsChangeNoMemory : Claims.HintsChangeNoMemory := by
  unfold Claims.HintsChangeNoMemory
  intro s e w h hplain hlocks
  have hpref : exec (.pref w) s = execPref w s := rfl
  have hevict : exec (.evict w) s = execEvict w s := rfl
  rw [execPref, onUnit_runs h.runs] at hpref
  rw [execEvict, onUnit_runs h.runs] at hevict
  constructor
  · refine ⟨_, completes_done h.laold hpref, CoresOnly.rest (foldl_cores (fun u i hu => ?_) _ ⟨hplain, hlocks⟩)⟩
    have htarget := hintTarget_state (e := e) hu.1 (e.at_ (e.opnd s .n64 w.a) i)
    split
    next p v heq =>
      rw [heq] at htarget
      dsimp only at htarget
      subst htarget
      split
      · exact l1Load_cores hu _ _ _ _ _
      · rfl
    next v heq =>
      rw [heq] at htarget
      dsimp only at htarget
      rw [htarget]
      rfl
  · refine ⟨_, completes_done h.laold hevict, CoresOnly.rest (foldl_cores (fun u i hu => ?_) _ ⟨hplain, hlocks⟩)⟩
    have htarget := hintTarget_state (e := e) hu.1 (e.at_ (e.opnd s .n64 w.a) i)
    split
    next p v heq =>
      rw [heq] at htarget
      dsimp only at htarget
      subst htarget
      exact l1Drop_cores _ _ _ _
    next v heq =>
      rw [heq] at htarget
      dsimp only at htarget
      rw [htarget]
      rfl

/-- Settles O16: stores leave the ranked bytes of their lanes, and hints change no more than cores. -/
theorem storesAndHints : Obligations.StoresAndHints := ⟨storesToMemory, hintsChangeNoMemory⟩

end Sys2Proof.Machine
end

section
/-! Packets that run their whole action at the start (O34, O35, O37): from the state in which the packet has started to the one it leaves. -/

namespace Sys2Proof.Machine

open Sys2Proof

section
variable {s u v : State} {op : Nat} {q : QId} {p : PktIn} {status : Option PTarget}

theorem blockedSpan_read {t : PTarget} {n : Nat} {me : Option GroupRef} (h : s.blockedSpan me true t n = false) (w : Bool) :
    s.blockedSpan me w t n = false := by
  rw [State.blockedSpan, List.any_eq_false] at h ⊢
  intro x hx hblocked
  refine h x hx ?_
  rw [State.blocked] at hblocked ⊢
  cases w with
  | false => simp_all
  | true => exact hblocked

/-- Of the packets of a state in which packet `p` has started the others are those before. -/
theorem Starts.left (h : Starts s op q p) (status : Option PTarget) :
    (s.packets ++ [p.packet s status]).filter (fun x => x.id != (p.packet s status).id) = s.packets := by
  have hkeep : s.packets.filter (fun x => x.id != s.nextId) = s.packets :=
    List.filter_eq_self.mpr fun x hx => by
      have := h.fresh x hx
      simp
      omega
  rw [List.filter_append, show (p.packet s status).id = s.nextId from rfl, hkeep]
  simp [PktIn.packet]

/-- A packet whose action has run in `u` completes there: `v` is `u` but for its own start. -/
theorem Starts.completing (h : Starts s op q p) (hu : u.NoExact) (hpkg : u.pkg = s.pkg) (hten : u.tenants = s.tenants)
    (hv : v = u.withPackets v.queues (s.packets ++ [p.packet s status]) v.nextId)
    (hqueue : ∃ b, v.queue p.q = { p.past s with actErr := b })
    (hothers : ∀ r : QId, r.q < 64 → r ≠ p.q → v.queue r = s.queue r) : Completing s p (p.packet s status) u v := by
  have hpackets : v.packets = s.packets ++ [p.packet s status] := (congrArg State.packets hv :)
  obtain ⟨b, hb⟩ := hqueue
  exact
    { plain := hu
      rest := by rw [hpackets]; exact hv
      packet := ⟨rfl, rfl, rfl, rfl⟩
      late := fun c hc => (queueLate_of hpkg hten h.plain hu p.q c 8 true).trans (h.late c hc)
      small := h.queue_lt
      left := by rw [hpackets]; exact h.left status
      rp := by rw [hb]; rfl
      heads := by rw [hb]; rfl
      enabled := by
        have hon := h.enabled
        rw [← h.queue] at hon
        rw [hb]
        exact hon
      going := by
        have hgo := h.going
        rw [← h.queue] at hgo
        rw [hb]
        exact hgo
      free := by rw [hb]; exact h.unblocked
      others := hothers }

/-- An action that failed: ACTERR of the packet's queue. -/
theorem actErr_started_queue (p : PktIn) (s : State) (status : Option PTarget) :
    (actErr (p.started s status) p.q).queue p.q = { p.past s with actErr := true } := by
  rw [actErr, State.queue_setQueue, started_queue]

theorem actErr_started_other (hq : p.q.q < 64) {r : QId} (hr : r.q < 64) (hne : r ≠ p.q) :
    (actErr (p.started s status) p.q).queue r = s.queue r := by
  rw [actErr, queue_setQueue_other _ hq hr hne, started_queue_other p s status hq hr hne]

/-- A status word found at the start is written once the packet ends. -/
theorem lateStore_withPackets (hu : u.NoExact) (hpkg : u.pkg = s.pkg) (hten : u.tenants = s.tenants) (hs : s.NoExact) {c : PTarget} {bs : List Byte}
    (hlate : queueLate s q c bs.length false = none) (qs : Tbl Queue) (ps : List Packet) (n : Nat) :
    lateStore (u.withPackets qs ps n) q c bs = (u.writePhys c bs).withPackets qs ps n := by
  rw [lateStore_found, writePhys_withPackets hu]
  exact (queueLate_of (s := s) (u := u.withPackets qs ps n) hpkg hten hs hu q c _ false).trans hlate

end

end Sys2Proof.Machine
end

section
/-! A LAUNCH packet starts its launch or fails a check (R74 to R78). -/

namespace Sys2Proof.Machine

open Sys2Proof

section
variable {s v : State} {q : QId} {p : PktIn} {c : PTarget} {k : Nat}

/-! ### The checks -/

/-- Text that is at hand is read without a fetch. -/
theorem queueText_ready {α : Type} {inst n : Nat} {f : CodeObj → Except TextStop α} {o : CodeObj} {a : α} (ho : s.obj? q.owner k inst = some o)
    (hf : f o = .ok a) : queueText q k inst f (n + 1) s = (.ok a, s) := by
  rw [queueText, ho]
  dsimp only
  rw [hf]

theorem lateTargets_reached {a : Access} (ha : a ∈ [Access.qRd, .qWr, .qAtomic]) {xs : List (Nat × Nat)} {ts : List (PTarget × Nat)}
    (h : List.Forall₂ (fun (x : Nat × Nat) (y : PTarget × Nat) => y.2 = x.2 ∧ y.1.tgt = 0 ∧ Reached s q k x.1 x.2 y.1.pa) xs ts) :
    lateTargets q k a xs s = (.ok ts, s) := by
  induction h with
  | nil => rfl
  | @cons x y xs ts hxy _ ih =>
    obtain ⟨hn, htgt, hreach⟩ := hxy
    obtain ⟨hwalk, hfree⟩ := hreach a ha
    have hp : (⟨0, y.1.pa⟩ : PTarget) = y.1 := by rw [← htgt]
    rw [lateTargets, hwalk]
    dsimp only
    rw [blockedSpan_read hfree, if_neg (by decide), ih]
    dsimp only
    rw [hp, ← hn]

/-- A span that is reached is read. -/
theorem lateRead_holds {va : Nat} {bs : List Byte} (h : Holds s q k va bs) : lateRead q k va bs.length s = (.ok bs, s) := by
  obtain ⟨ts, hts, hread⟩ := h
  rw [lateRead, lateTargets_reached (by simp) hts]
  dsimp only
  rw [hread]

/-- No object of the context has the OBJID (check 1). -/
theorem startLaunch_noObject {hdr b : List Byte} (h : ∀ o ∈ (s.ctx q.owner k).objs, o.objId ≠ fieldAt b 0 2) :
    startLaunch s q k hdr b = (.code 1, s) := by
  have hnone : (s.ctx q.owner k).objs.find? (fun o => o.objId == (launchOf q.owner k hdr b).objId) = none :=
    List.find?_eq_none.mpr fun o ho => by simpa [launchOf] using h o ho
  rw [startLaunch]
  dsimp only
  rw [hnone]

theorem startLaunch_ready {hdr b : List Byte} {o : CodeObj} {tys : List Ty} {bs : List Byte}
    (ho : (s.ctx q.owner k).objs.find? (fun x => x.objId == fieldAt b 0 2) = some o) (hinst : s.obj? q.owner k o.inst = some o)
    (htys : entryTypes (fieldAt b 4 4) o = .ok (some tys)) (hcheck : launchCheck s (launchOf q.owner k hdr b) = 0)
    (hlen : bs.length = 8 * tys.length) (hbs : Holds s q k (fieldAt b 0x28 8) bs) :
    startLaunch s q k hdr b = (.start { launchOf q.owner k hdr b with obj := o.inst, args := argValues tys bs }, s) := by
  have ho' : (s.ctx q.owner k).objs.find? (fun o => o.objId == (launchOf q.owner k hdr b).objId) = some o := ho
  have htext : queueText q k o.inst (entryTypes (launchOf q.owner k hdr b).entry) 8 s = (.ok (some tys), s) := queueText_ready hinst htys
  rw [startLaunch]
  dsimp only
  rw [ho']
  dsimp only
  rw [htext]
  dsimp only
  rw [hcheck, if_neg (not_not.mpr rfl), ← hlen, lateRead_holds hbs]

/-- A launch that passes is that of the body, with its object and arguments. -/
theorem startLaunch_start {hdr b : List Byte} {l : Launch} (h : startLaunch s q k hdr b = (.start l, v)) :
    ∃ i args, l = { launchOf q.owner k hdr b with obj := i, args := args } := by
  unfold startLaunch at h
  dsimp only at h
  repeat' split at h
  all_goals cases h
  exact ⟨_, _, rfl⟩

end

/-- What a packet's completion leaves of ACTERR. -/
theorem Completing.actErr {s u v : State} {p : PktIn} {k : Packet} (h : Completing s p k u v) :
    ((completePacket v k).queue p.q).actErr = (v.queue p.q).actErr := by
  obtain ⟨st, hst, -⟩ := completePacket_queue h.late_v
  rw [h.packet.1] at hst
  rw [hst]
  rfl

/-- A packet with a status word that fails: the code is written, ACTERR shows it, and the packet is past. -/
theorem Starts.fails {s : State} {op : Nat} {q : QId} {p : PktIn} {c : PTarget} (h : Starts s op q p) (hlate : queueLate s p.q c 8 false = none)
    (n : Nat) : Completing s p (p.packet s (some c)) (s.writePhys c (leBytes 8 n))
      (lateStore (actErr (p.started s (some c)) p.q) p.q c (leBytes 8 n)) ∧
    ((lateStore (actErr (p.started s (some c)) p.q) p.q c (leBytes 8 n)).queue p.q).actErr = true := by
  have hstate : lateStore (actErr (p.started s (some c)) p.q) p.q c (leBytes 8 n) =
      (s.writePhys c (leBytes 8 n)).withPackets (actErr (p.started s (some c)) p.q).queues (s.packets ++ [p.packet s (some c)]) (s.nextId + 1) :=
    lateStore_withPackets h.plain rfl rfl h.plain (by rw [leBytes_length]; exact hlate) _ _ _
  have haside := writePhys_aside s c (leBytes 8 n)
  have hqueues : ∀ r, (lateStore (actErr (p.started s (some c)) p.q) p.q c (leBytes 8 n)).queue r =
      (actErr (p.started s (some c)) p.q).queue r := fun r => by rw [hstate]; rfl
  refine ⟨h.completing (NoExact.writePhys h.plain _ _) (pkg_of_aside haside :) (tenants_of_aside haside :) ?_
    ⟨true, (hqueues _).trans (actErr_started_queue p s _)⟩ fun r hr hne => (hqueues r).trans (actErr_started_other h.queue_lt hr hne), ?_⟩
  · rw [hstate]
    rfl
  · rw [hqueues, actErr_started_queue]

/-- Settles O35: STATUSADDR is found first, then the checks decide whether the launch joins the device or its packet completes with their
code. -/
theorem launchesStart : Obligations.LaunchesStart := by
  unfold Obligations.LaunchesStart
  intro s q p c h hc
  obtain rfl := h.queue
  intro k
  have hrun : exec (.launch p.q) s = .next (startPacket 6 p.q s launchAct) := rfl
  rw [startPacket_starts h, launchAct, withTarget_finds hc] at hrun
  dsimp only at hrun
  refine ⟨fun n hcode => ?_, fun hnone => startLaunch_noObject hnone, ?_, ?_⟩
  · rw [hcode] at hrun
    obtain ⟨hcomp, herr⟩ := h.fails hc.2.2 n
    exact ⟨_, hrun, hcomp.actErr.trans herr, hcomp.passed⟩
  · intro o tys bs _ ho hinst htys l hcheck hlen hbs
    rw [hrun, startLaunch_ready ho hinst htys hcheck hlen hbs]
    rfl
  · intro l v hstart
    rw [hstart] at hrun
    obtain ⟨i, args, rfl⟩ := startLaunch_start hstart
    refine ⟨_, _, hrun, rfl, rfl, rfl, rfl, rfl, ?_, rfl, rfl, rfl, rfl, rfl, rfl, rfl, rfl⟩
    exact congrArg Queue.rp (started_queue p v (some c))

end Sys2Proof.Machine
end

section
/-! Walks see of a state only its memory, tenants, contexts, locks and package: two states without exact entries that agree in these
translate alike. -/

namespace Sys2Proof.Machine

open Sys2Proof

/-- Two states that agree in what a walk and its checks read. -/
structure SeesAlike (s u : State) : Prop where
  plain   : s.NoExact
  plain'  : u.NoExact
  pkg     : u.pkg = s.pkg
  tenants : u.tenants = s.tenants
  ctxs    : u.ctxs = s.ctxs
  mem     : u.mem = s.mem
  serial  : u.serial = s.serial

theorem SeesAlike.withPackets {s : State} (h : s.NoExact) (qs : Tbl Queue) (ps : List Packet) (n : Nat) : SeesAlike s (s.withPackets qs ps n) :=
  ⟨h, h, rfl, rfl, rfl, rfl, rfl⟩

section
variable {s u : State} (h : SeesAlike s u)
include h

theorem SeesAlike.readFor (pa n : Nat) : (u.readFor none ⟨0, pa⟩ n).1 = (s.readFor none ⟨0, pa⟩ n).1 := by
  simp only [State.readFor, State.readPhys_plain h.plain, State.readPhys_plain h.plain', State.priorBytes, h.serial, h.mem]

theorem SeesAlike.poisoned (p : PTarget) (n : Nat) : u.poisoned p n = s.poisoned p n := by
  rw [State.poisoned, State.poisoned, h.pkg]

theorem SeesAlike.readPte (t pa : Nat) : readPte u t pa = ((readPte s t pa).1, u) := by
  refine Prod.ext ?_ (readPte_state h.plain' t pa)
  simp only [Machine.readPte, tenant_of_tenants h.tenants, h.poisoned]
  split
  · rfl
  · split
    · rfl
    · simp only [h.readFor]

/-- A walk's step in two states that see alike: the same entry, and both states kept. -/
theorem SeesAlike.readPte_both (t pa : Nat) : ∃ r, Machine.readPte s t pa = (r, s) ∧ Machine.readPte u t pa = (r, u) :=
  ⟨(Machine.readPte s t pa).1, Prod.ext rfl (readPte_state h.plain t pa), h.readPte t pa⟩

theorem SeesAlike.largeEqual_both (t tbl v i n : Nat) : ∃ r, largeEqual t tbl v i n s = (r, s) ∧ largeEqual t tbl v i n u = (r, u) := by
  induction n generalizing i with
  | zero => exact ⟨_, rfl, rfl⟩
  | succ n ih =>
    obtain ⟨r, hs, hu⟩ := h.readPte_both t (tbl + 8 * i)
    rw [largeEqual, largeEqual, hs, hu]
    cases r with
    | error c => exact ⟨_, rfl, rfl⟩
    | ok x =>
      dsimp only
      split
      · exact ih (i + 1)
      · exact ⟨_, rfl, rfl⟩

theorem SeesAlike.leafOut_both (t k va tbl i n size v : Nat) :
    ∃ r, leafOut s t k va tbl i n size v = (r, s) ∧ leafOut u t k va tbl i n size v = (r, u) := by
  obtain ⟨r, hs, hu⟩ := h.largeEqual_both t tbl v i n
  unfold leafOut
  dsimp only
  split
  · exact ⟨_, rfl, rfl⟩
  · rw [hs, hu]
    cases r with
    | error c => exact ⟨_, rfl, rfl⟩
    | ok b => cases b <;> exact ⟨_, rfl, rfl⟩

theorem SeesAlike.walkFrom_both (t k va fuel tbl : Nat) : ∃ r, walkFrom t k va fuel tbl s = (r, s) ∧ walkFrom t k va fuel tbl u = (r, u) := by
  induction fuel generalizing tbl with
  | zero => exact ⟨_, rfl, rfl⟩
  | succ fuel ih =>
    obtain ⟨r, hs, hu⟩ := h.readPte_both t (tbl + 8 * levelIndex (3 - fuel) va)
    rw [walkFrom, walkFrom]
    dsimp only
    rw [hs, hu]
    cases r with
    | error c => exact ⟨_, rfl, rfl⟩
    | ok v =>
      dsimp only
      split
      · split
        · split <;> exact ⟨_, rfl, rfl⟩
        · exact ⟨_, rfl, rfl⟩
      · split
        · split
          · exact h.leafOut_both ..
          · split
            · exact h.leafOut_both ..
            · split
              · exact h.leafOut_both ..
              · exact ⟨_, rfl, rfl⟩
        · split
          · exact ⟨_, rfl, rfl⟩
          · exact ih _

theorem SeesAlike.walk_both (t k va : Nat) : ∃ r, walk s t k va = (r, s) ∧ walk u t k va = (r, u) := by
  have hctx : (u.ctx t k).ptRoot = (s.ctx t k).ptRoot := by rw [ctx_of_ctxs h.ctxs]
  unfold walk
  rw [hctx]
  exact h.walkFrom_both t k va 4 _

theorem SeesAlike.entryCheck (e : TlbEntry) (va n : Nat) (a : Access) : entryCheck u e va n a = entryCheck s e va n a := by
  have hrec (x : PTarget) (k : Nat) : u.recordPoisoned x k = s.recordPoisoned x k := by
    rw [State.recordPoisoned, State.recordPoisoned]
    simp only [(h.plain _).2, (h.plain' _).2, List.any_nil]
  have hlink (x : PTarget) : u.linkBroken x = s.linkBroken x := by rw [State.linkBroken, State.linkBroken, h.pkg]
  rw [Machine.entryCheck, Machine.entryCheck]
  rw [tenant_of_tenants h.tenants, hlink, h.poisoned, hrec]

theorem SeesAlike.translateNow (t k va n : Nat) (a : Access) : (translateNow u t k va n a).1 = (translateNow s t k va n a).1 := by
  obtain ⟨r, hs, hu⟩ := h.walk_both t k va
  unfold Machine.translateNow
  split
  · rfl
  · rw [hs, hu]
    cases r with
    | fail c => rfl
    | pageFault a b => rfl
    | ok e =>
      dsimp only
      rw [h.entryCheck]
      split <;> rfl

end

/-! ### What names an object -/

theorem readFor_withPackets {s : State} (h : s.NoExact) (qs : Tbl Queue) (ps : List Packet) (n : Nat) (me : Option GroupRef) (p : PTarget)
    (k : Nat) : ((s.withPackets qs ps n).readFor me p k).1 = (s.readFor me p k).1 := by
  simp only [State.readFor, State.readPhys, finalizeAt_withPackets h]
  rfl

theorem peekVa_withPackets {s : State} (h : s.NoExact) (qs : Tbl Queue) (ps : List Packet) (n t k va m : Nat) :
    peekVa (s.withPackets qs ps n) t k va m = peekVa s t k va m := by
  unfold peekVa
  rw [(SeesAlike.withPackets h qs ps n).translateNow]
  split
  · rw [readFor_withPackets h]
  · rfl

/-- An object is in use whatever the queues and packets are. -/
theorem objInUse_withPackets {s : State} (h : s.NoExact) (qs : Tbl Queue) (ps : List Packet) (n t k oid : Nat) :
    objInUse (s.withPackets qs ps n) t k oid = objInUse s t k oid := by
  have hnode : nodeNames (s.withPackets qs ps n) = nodeNames s := by
    funext r o m
    simp only [nodeNames, peekVa_withPackets h]
  rw [objInUse, objInUse, hnode]
  rfl

end Sys2Proof.Machine
end

section
/-! LOAD and UNLOAD (R45, R64, R65): the checks of an object in order, the result record, and when an object is freed. -/

namespace Sys2Proof.Machine

open Sys2Proof

section
variable {s u v : State} {op : Nat} {q : QId} {p : PktIn} {k : Packet}

/-! ### Completing an action that may take a number of its own -/

/-- A packet whose action has run in `u`, under a number that no packet has, completes there. -/
theorem Starts.completing_as (h : Starts s op q p) (hk : k.q = p.q ∧ k.sig = p.sig ∧ k.irq = p.h.irq ∧ k.vec = p.h.vec) (hid : s.nextId ≤ k.id)
    (hu : u.NoExact) (hpkg : u.pkg = s.pkg) (hten : u.tenants = s.tenants)
    (hv : v = u.withPackets v.queues (s.packets ++ [k]) v.nextId) (hqueue : ∃ b, v.queue p.q = { p.past s with actErr := b })
    (hothers : ∀ r : QId, r.q < 64 → r ≠ p.q → v.queue r = s.queue r) : Completing s p k u v := by
  have hpackets : v.packets = s.packets ++ [k] := (congrArg State.packets hv :)
  have hkeep : s.packets.filter (fun x => x.id != k.id) = s.packets :=
    List.filter_eq_self.mpr fun x hx => by
      have := h.fresh x hx
      simp
      omega
  have hbase := h.completing (u := s.withPackets v.queues (s.packets ++ [p.packet s none]) v.nextId)
    (v := s.withPackets v.queues (s.packets ++ [p.packet s none]) v.nextId) (status := none) h.plain rfl rfl rfl hqueue hothers
  exact
    { plain := hu
      rest := by rw [hpackets]; exact hv
      packet := hk
      late := fun c hc => (queueLate_of hpkg hten h.plain hu p.q c 8 true).trans (h.late c hc)
      small := h.queue_lt
      left := by rw [hpackets, List.filter_append, hkeep]; simp
      rp := hbase.rp
      heads := hbase.heads
      enabled := hbase.enabled
      going := hbase.going
      free := hbase.free
      others := hbase.others }

/-! ### Reading the object -/

theorem readFor_device (hs : s.NoExact) (pa n : Nat) : (s.readFor none ⟨0, pa⟩ n).2 = s := by
  simp [State.readFor, State.readPhys_plain hs]

/-- Parts that are reached in device memory are read one after another. -/
theorem loadBytes_reached (hs : s.NoExact) (hq : q.owner ≠ 16) {xs : List (Nat × Nat)} {ts : List (PTarget × Nat)}
    (h : List.Forall₂ (fun (x : Nat × Nat) (y : PTarget × Nat) => y.2 = x.2 ∧ y.1.tgt = 0 ∧ Reached s q (s.queue q).ctx x.1 x.2 y.1.pa) xs ts) :
    (readTargetsOf ts s).2 = s ∧ loadBytes q xs s = (.ok (readTargetsOf ts s).1, s) := by
  induction h with
  | nil => exact ⟨rfl, rfl⟩
  | @cons x y xs ts hxy _ ih =>
    obtain ⟨hn, htgt, hreach⟩ := hxy
    obtain ⟨hstate, hload⟩ := ih
    have hwalk := (hreach .qRd (by simp)).1
    have hp : y.1 = ⟨0, y.1.pa⟩ := by rw [← htgt]
    have hread := readFor_device hs y.1.pa y.2
    rw [loadBytes, readTargetsOf, queueLook, if_neg hq, hwalk, hp]
    dsimp only
    rw [if_neg (not_not.mpr rfl), ← hn, hread, hload]
    exact ⟨hstate, rfl⟩

theorem loadSpan_holds (hs : s.NoExact) (hq : q.owner ≠ 16) {va : Nat} {bs : List Byte} (h : Holds s q (s.queue q).ctx va bs) :
    loadSpan q va bs.length s = (.ok bs, s) := by
  obtain ⟨ts, hts, hread⟩ := h
  have := (loadBytes_reached hs hq hts).2
  rw [hread] at this
  exact this

theorem loadPages_reached (hq : q.owner ≠ 16) {va n : Nat}
    (h : ∀ i, i < n → ∃ pa, Reached s q (s.queue q).ctx (va + 65536 * i) 1 pa) : loadPages q va n s = (.ok (), s) := by
  induction n with
  | zero => rfl
  | succ n ih =>
    obtain ⟨pa, hpa⟩ := h n (by omega)
    have hwalk := (hpa .qRd (by simp)).1
    rw [loadPages, ih fun i hi => h i (by omega)]
    dsimp only
    rw [queueLook, if_neg hq, hwalk]
    rfl

/-! ### The checks of LOAD -/

/-- An object without sections fetches no page. -/
theorem loadShadows_none {o : CodeObj} (h : o.nsect = 0) : loadShadows q (o.pagesOf o.sectOff (32 * o.nsect)) o s = (.ok o, s) := by
  rw [h, CodeObj.pagesOf, if_pos rfl, loadShadows]

/-- Checks 3 to 7 pass for an object without sections. -/
theorem loadChecks_ok {o : CodeObj} {b key : List Byte} (hsign : o.signer < 8) (hkey : (s.tenant p.q.owner).keys.get? o.signer = some key)
    (hvalid : if Word.bit (s.tenant p.q.owner).mode 1 then p.field 18 1 = 1
      else Config.mlDsaVerify key o.digest ((b.drop 0x102).take 4627) = true)
    (harch : fieldAt b 0x07 1 = 1) (hminor : o.minor ≤ 2) (hbeh : o.behaviour ≤ 1) (hsect : o.nsect = 0) :
    loadChecks p o b s = (some ⟨0, 0, some o⟩, s) := by
  have hvalid' : (if Word.bit (s.tenant p.q.owner).mode 1 = true then p.field 18 1 == 1
      else Config.mlDsaVerify key o.digest ((b.drop 0x102).take 4627)) = true := by
    split at hvalid
    · rw [if_pos ‹_›]
      simpa using hvalid
    · rw [if_neg ‹_›]
      exact hvalid
  rw [loadChecks]
  dsimp only
  rw [if_pos hsign, hkey]
  dsimp only
  rw [hvalid', if_neg (by decide), if_neg (not_or.mpr ⟨not_not.mpr harch, hminor.not_gt⟩), if_neg hbeh.not_gt, loadShadows_none hsect]
  dsimp only
  rw [hsect]
  rfl

theorem loadObject_taken (h : (s.ctx p.q.owner (s.queue p.q).ctx).objs.any (fun o => o.objId == p.field 16 2) = true) :
    loadObject p s = (some ⟨8, 0, none⟩, s) := by
  rw [loadObject]
  dsimp only
  rw [if_pos h]
  rfl

theorem loadObject_misplaced (h : (s.ctx p.q.owner (s.queue p.q).ctx).objs.any (fun o => o.objId == p.field 16 2) = false)
    (hva : p.field 0 8 % 65536 ≠ 0 ∨ p.field 8 8 < 65536) : loadObject p s = (some ⟨1, 1, none⟩, s) := by
  rw [loadObject]
  dsimp only
  rw [if_neg (by rw [h]; decide), if_pos hva]
  rfl

/-- The region of the header is read, and the checks that follow decide. -/
theorem loadObject_read (hs : s.NoExact) (hq : p.q.owner ≠ 16) {h r : List Byte}
    (hfree : (s.ctx p.q.owner (s.queue p.q).ctx).objs.any (fun o => o.objId == p.field 16 2) = false)
    (hva : p.field 0 8 % 65536 = 0) (hsize : 65536 ≤ p.field 8 8) (hlen : h.length = 0x1400)
    (hh : Holds s p.q (s.queue p.q).ctx (p.field 0 8) h) (hok : headerOk h (p.field 8 8) = true)
    (hrlen : r.length = fieldAt h 0x18 8 - 0x1400) (hr : Holds s p.q (s.queue p.q).ctx (p.field 0 8 + 0x1400) r)
    (hpad : ∀ y ∈ r.drop (64 * fieldAt h 0x20 4), y = 0)
    (hpages : ∀ i, i < Word.ceilDiv (p.field 8 8) 65536 → ∃ pa, Reached s p.q (s.queue p.q).ctx (p.field 0 8 + 65536 * i) 1 pa) :
    loadObject p s = loadChecks p (objOf s.nextId (p.field 16 2) (p.field 0 8) (h ++ r)) (h ++ r) s := by
  have hpad' : (r.drop (64 * fieldAt h 0x20 4)).any (fun b => b != 0) = false := List.any_eq_false.mpr fun y hy => by simp [hpad y hy]
  rw [loadObject]
  dsimp only
  rw [if_neg (by rw [hfree]; decide), if_neg (by omega), ← hlen, loadSpan_holds hs hq hh]
  dsimp only
  rw [hok, if_neg (by decide), hlen, ← hrlen, loadSpan_holds hs hq hr]
  dsimp only
  rw [hpad', if_neg (by decide), loadPages_reached hq hpages]

end

/-- The packet of a LOAD whose object joins its context completes once the result record is written. -/
theorem Starts.loaded {s : State} {op : Nat} {q : QId} {p : PktIn} {c : PTarget} (h : Starts s op q p) (hlate : queueLate s p.q c 8 false = none)
    (k : Nat) (x : Ctx) (n : Nat) :
    Completing s p (p.packet { s.setCtx p.q.owner k x with nextId := s.nextId + 1 } (some c)) ((s.setCtx p.q.owner k x).writePhys c (leBytes 8 n))
      (lateStore (p.started { s.setCtx p.q.owner k x with nextId := s.nextId + 1 } (some c)) p.q c (leBytes 8 n)) := by
  have hset : (s.setCtx p.q.owner k x).NoExact := h.plain
  have hstate : lateStore (p.started { s.setCtx p.q.owner k x with nextId := s.nextId + 1 } (some c)) p.q c (leBytes 8 n) =
      ((s.setCtx p.q.owner k x).writePhys c (leBytes 8 n)).withPackets (p.started s (some c)).queues
        (s.packets ++ [p.packet { s.setCtx p.q.owner k x with nextId := s.nextId + 1 } (some c)]) (s.nextId + 1 + 1) :=
    lateStore_withPackets (s := s) hset rfl rfl h.plain (by rw [leBytes_length]; exact hlate) _ _ _
  have haside := writePhys_aside (s.setCtx p.q.owner k x) c (leBytes 8 n)
  rw [hstate]
  exact h.completing_as ⟨rfl, rfl, rfl, rfl⟩ (Nat.le_succ _) (NoExact.writePhys hset _ _) (pkg_of_aside haside :) (tenants_of_aside haside :) rfl
    ⟨(p.past s).actErr, started_queue p s (some c)⟩ fun r hr hne => started_queue_other p s (some c) h.queue_lt hr hne

/-- The packet of a LOAD that is refused completes with ACTERR shown. -/
theorem Starts.refused {s : State} {op : Nat} {q : QId} {p : PktIn} {c : PTarget} {bs : List Byte} (h : Starts s op q p)
    (hlate : queueLate s p.q c 8 false = none) (hlen : bs.length = 8) :
    Completing s p (p.packet (Machine.actErr s p.q) (some c)) (s.writePhys c bs)
      (lateStore (p.started (Machine.actErr s p.q) (some c)) p.q c bs) ∧
    ((lateStore (p.started (Machine.actErr s p.q) (some c)) p.q c bs).queue p.q).actErr = true := by
  have hpast : p.past (Machine.actErr s p.q) = { p.past s with actErr := true } := by
    rw [PktIn.past, Machine.actErr, State.queue_setQueue]
    rfl
  have hpacket : p.packet (Machine.actErr s p.q) (some c) = p.packet s (some c) := by
    simp only [PktIn.packet, Machine.actErr, State.queue_setQueue]
    rfl
  have hstate : lateStore (p.started (Machine.actErr s p.q) (some c)) p.q c bs = (s.writePhys c bs).withPackets
      (p.started (Machine.actErr s p.q) (some c)).queues (s.packets ++ [p.packet (Machine.actErr s p.q) (some c)]) (s.nextId + 1) :=
    lateStore_withPackets h.plain rfl rfl h.plain (by rw [hlen]; exact hlate) _ _ _
  have haside := writePhys_aside s c bs
  have hqueues : ∀ r, (lateStore (p.started (Machine.actErr s p.q) (some c)) p.q c bs).queue r = (p.started (Machine.actErr s p.q) (some c)).queue r :=
    fun r => by rw [hstate]; rfl
  have hmine : (lateStore (p.started (Machine.actErr s p.q) (some c)) p.q c bs).queue p.q = { p.past s with actErr := true } := by
    rw [hqueues, started_queue, hpast]
  refine ⟨h.completing_as (by rw [hpacket]; exact ⟨rfl, rfl, rfl, rfl⟩) (by rw [hpacket]; exact Nat.le_refl _) (NoExact.writePhys h.plain _ _)
    (pkg_of_aside haside :) (tenants_of_aside haside :) ?_ ⟨true, hmine⟩ fun r hr hne => ?_, by rw [hmine]⟩
  · rw [hstate]
    rfl
  · rw [hqueues, started_queue_other p _ _ h.queue_lt hr hne, Machine.actErr, queue_setQueue_other _ h.queue_lt hr hne]

theorem loadsObjects : Claims.LoadsObjects := by
  unfold Claims.LoadsObjects
  intro s q p c hst hc
  obtain rfl := hst.queue
  have hrun : exec (.load p.q) s = .next (startPacket 4 p.q s loadAct) := rfl
  rw [startPacket_starts hst, loadAct, withTarget_finds hc] at hrun
  dsimp only at hrun
  have hgood : ∀ r o, loadObject p s = (some r, s) → r.obj = some o → ∃ t, exec (.load p.q) s = .next t ∧
      Passed s p ((s.setCtx p.q.owner (s.queue p.q).ctx { s.ctx p.q.owner (s.queue p.q).ctx with
        objs := (s.ctx p.q.owner (s.queue p.q).ctx).objs ++ [o] }).writePhys c (leBytes 8 (r.code + 256 * r.step))) t := by
    intro r o hload ho
    rw [hload] at hrun
    dsimp only at hrun
    rw [ho] at hrun
    dsimp only at hrun
    exact ⟨_, hrun, (hst.loaded hc.2.2 _ _ _).passed⟩
  refine ⟨?_, fun r hload => ⟨fun o ho => hgood r o hload ho, fun hnone => ?_, fun hany => ?_, fun hany hbad => ?_⟩⟩
  · intro h r key k x b o howner hfree hva hsize hlen hh hok hrlen hr hpad hpages hsign hkey hvalid harch hminor hbeh hsect
    have hq : p.q.owner ≠ 16 := by omega
    have hload := loadObject_read hst.plain hq hfree hva hsize hlen hh hok hrlen hr hpad hpages
    rw [loadChecks_ok hsign hkey hvalid harch hminor hbeh hsect] at hload
    exact hgood ⟨0, 0, some o⟩ o hload rfl
  · rw [hload] at hrun
    dsimp only at hrun
    rw [hnone] at hrun
    dsimp only at hrun
    obtain ⟨hcomp, herr⟩ := hst.refused hc.2.2 (leBytes_length 8 (r.code + 256 * r.step))
    exact ⟨_, hrun, hcomp.actErr.trans herr, hcomp.passed⟩
  · exact Option.some.inj (congrArg Prod.fst (hload.symm.trans (loadObject_taken hany)))
  · exact Option.some.inj (congrArg Prod.fst (hload.symm.trans (loadObject_misplaced hany hbad)))

/-! ### UNLOAD -/

theorem blockOn_blocks {s : State} {op : Nat} {q : QId} {p : PktIn} (_ : Starts s op q p) :
    Blocks s p (blockOn (p.started s none) (p.packet s none)) := by
  have hqueue : (blockOn (p.started s none) (p.packet s none)).queue p.q = { p.past s with blocker := some s.nextId, state := .blocked } := by
    rw [blockOn, show (p.packet s none).q = p.q from rfl, State.queue_setQueue, started_queue]
    rfl
  constructor
  case mem => rfl
  case hostMem => rfl
  case msix => rfl
  case packets => exact ⟨p.packet s none, rfl, rfl, rfl, rfl, rfl, rfl⟩
  case rp => rw [hqueue]; rfl
  case blocker => rw [hqueue]
  case state => rw [hqueue]
  case ctxs => rfl
  case galleys => rfl

/-- A packet without a status word completes once its action has run. -/
theorem Starts.ended {s : State} {op : Nat} {q : QId} {p : PktIn} (h : Starts s op q p) {u v : State} (hu : u.NoExact) (hpkg : u.pkg = s.pkg)
    (hten : u.tenants = s.tenants) (hv : v = u.withPackets (p.started s none).queues (s.packets ++ [p.packet s none]) (s.nextId + 1)) :
    Completing s p (p.packet s none) u v := by
  subst hv
  exact h.completing hu hpkg hten rfl ⟨(p.past s).actErr, started_queue p s none⟩ fun r hr hne => started_queue_other p s none h.queue_lt hr hne

/-- A packet without a status word whose action fails completes with ACTERR shown. -/
theorem Starts.failed {s : State} {op : Nat} {q : QId} {p : PktIn} (h : Starts s op q p) :
    Completing s p (p.packet s none) s (Machine.actErr (p.started s none) p.q) :=
  h.completing h.plain rfl rfl rfl ⟨true, actErr_started_queue p s none⟩ fun _ hr hne => actErr_started_other h.queue_lt hr hne

theorem discardObj_objs {s : State} {t k oid : Nat} {o : CodeObj} (ho : o ∈ ((discardObj s t k oid).ctx t k).objs) :
    o.objId ≠ oid ∧ o ∈ (s.ctx t k).objs := by
  have hctx : (discardObj s t k oid).ctx t k = { s.ctx t k with objs := (s.ctx t k).objs.filter (fun o => o.objId != oid) } :=
    ctx_setCtx s t k _
  rw [hctx] at ho
  obtain ⟨hmem, hne⟩ := List.mem_filter.mp ho
  exact ⟨by simpa using hne, hmem⟩

theorem discardObj_xlats {s : State} {t k oid : Nat} {x : Xlat} (hx : x ∈ (discardObj s t k oid).xlats) :
    x ∈ s.xlats ∧ (x.tenant = t → x.ctx = k → ∀ o ∈ (s.ctx t k).objs, o.objId = oid → x.obj ≠ o.inst) := by
  obtain ⟨hmem, hkeep⟩ := List.mem_filter.mp hx
  refine ⟨hmem, fun ht hk o ho hoid hinst => ?_⟩
  have hgone : (((s.ctx t k).objs.filter (fun o => o.objId == oid)).map CodeObj.inst).contains x.obj = true := by
    rw [List.contains_iff_mem, hinst]
    exact List.mem_map.mpr ⟨o, List.mem_filter.mpr ⟨ho, by simp [hoid]⟩, rfl⟩
  rw [ht, hk, hgone] at hkeep
  simp at hkeep

theorem unloadsObjects : Claims.UnloadsObjects := by
  unfold Claims.UnloadsObjects
  intro s q
  have hexec : exec (.unload q) s = execUnload q s := rfl
  refine ⟨fun p hst => ?_, fun x hplain hblock hxq hop hheld hlate => ?_, fun t k oid => ⟨fun o ho => discardObj_objs ho, fun x hx => discardObj_xlats hx⟩⟩
  · obtain rfl := hst.queue
    intro k oid loaded
    have hnone : s.blockerOf p.q = none := by rw [State.blockerOf, hst.unblocked]; rfl
    rw [execUnload, hnone] at hexec
    dsimp only at hexec
    rw [startPacket_starts hst, unloadAct, PktIn.begin_eq] at hexec
    dsimp only at hexec
    have huse : objInUse (p.started s none) p.q.owner k oid = objInUse s p.q.owner k oid := objInUse_withPackets hst.plain _ _ _ _ _ _
    refine ⟨_, hexec, fun hload => ?_, fun hload huse' => ?_, fun hload huse' => ?_⟩
    · have hany : (((p.started s none).ctx p.q.owner (s.queue p.q).ctx).objs.any fun o => o.objId == p.field 0 2) = false := hload
      rw [hany, if_pos (by decide)]
      exact ⟨hst.failed.actErr.trans (congrArg Queue.actErr (actErr_started_queue p s none)), hst.failed.passed⟩
    · have hany : (((p.started s none).ctx p.q.owner (s.queue p.q).ctx).objs.any fun o => o.objId == p.field 0 2) = true := hload
      rw [hany, if_neg (by decide), if_pos (huse.trans huse')]
      exact blockOn_blocks hst
    · have hany : (((p.started s none).ctx p.q.owner (s.queue p.q).ctx).objs.any fun o => o.objId == p.field 0 2) = true := hload
      have hidle : objInUse (p.started s none) p.q.owner (s.queue p.q).ctx (p.field 0 2) = false := huse.trans huse'
      rw [hany, if_neg (by decide), hidle, if_neg (by decide)]
      exact (hst.ended (u := discardObj s p.q.owner k oid) hst.plain rfl rfl rfl).passed
  · subst hxq
    intro k oid
    rw [execUnload, hblock] at hexec
    dsimp only at hexec
    refine ⟨_, hexec, fun huse => ?_, fun huse => ?_⟩
    · have huse' : objInUse s x.q.owner x.ctx (fieldAt x.body 0 2) = true := huse
      rw [huse', if_neg (by simp)]
    · have huse' : objInUse s x.q.owner x.ctx (fieldAt x.body 0 2) = false := huse
      rw [huse', hheld, if_pos ⟨hop, by decide⟩]
      exact completePacket_ends fun c hc => (queueLate_of (s := s) (u := discardObj s x.q.owner x.ctx (fieldAt x.body 0 2)) rfl rfl hplain hplain
        x.q c 8 true).trans (hlate.sig c hc)

/-- Settles O34: LOAD's checks run in order over the header region, and UNLOAD frees an object that nothing uses. -/
theorem objectsLoadAndUnload : Obligations.ObjectsLoadAndUnload := ⟨loadsObjects, unloadsObjects⟩

end Sys2Proof.Machine
end

section
/-! Placement (R121, R125 to R128): the core that a galley is put on, its slot and age. -/

namespace Sys2Proof.Machine

open Sys2Proof

section
variable {s : State} {l : Launch} {g : Galley} {c : Nat}

/-! ### Taking a core -/

theorem takeCore_only (s : State) (l : Launch) (c : Nat) : ∃ cs, takeCore s l c = { s with cores := cs } := by
  unfold takeCore
  dsimp only
  split
  · exact ⟨s.cores, rfl⟩
  · exact ⟨_, rfl⟩

theorem takeCore_launch (s : State) (l : Launch) (c : Nat) : ((takeCore s l c).core c).launch = some l.id := by
  unfold takeCore
  dsimp only
  split
  next h => exact h
  next => rw [State.core_setCore]

theorem core_forgetL1 (s : State) (c : Nat) : (forgetL1 s c).core c = { s.core c with l1 := [] } := State.core_setCore s c _

theorem takeCore_forgetL1 (s : State) (l : Launch) (c : Nat) : ((takeCore (forgetL1 s c) l c).core c).l1 = [] ∧
    ((takeCore (forgetL1 s c) l c).core c).nextAge = ((takeCore s l c).core c).nextAge := by
  unfold takeCore
  dsimp only
  rw [core_forgetL1]
  dsimp only
  split
  next => rw [core_forgetL1]; exact ⟨rfl, rfl⟩
  next => rw [State.core_setCore, State.core_setCore]; exact ⟨rfl, rfl⟩

/-! ### Putting a galley there -/

/-- The galley once it stands on a core. -/
def placedGalley (s : State) (l : Launch) (g : Galley) (c : Nat) : Galley :=
  { g with core := some c, slot := lowestSlot s c, age := ((takeCore s l c).core c).nextAge, home := c, fixed := false }

/-- The state in which the galley stands on its core, before its paths begin. -/
def placedOn (s : State) (l : Launch) (g : Galley) (c : Nat) : State :=
  let t := takeCore (if g.home = c then s else forgetL1 s c) l c
  (t.setCore c { t.core c with nextAge := (t.core c).nextAge + 1 }).setGalley (placedGalley s l g c)

theorem placeOn_placedOn (s : State) (l : Launch) (g : Galley) (c : Nat) :
    placeOn s l g c = (List.range g.paths.length).foldl (fun s i => pathAtEntry s g.id i) (placedOn s l g c) := by
  have hgalleys : ∀ t : State, lowestSlot (takeCore t l c) c = lowestSlot t c := fun t => by
    obtain ⟨cs, hcs⟩ := takeCore_only t l c
    rw [hcs]
    rfl
  have hslot : lowestSlot (takeCore (if g.home = c then s else forgetL1 s c) l c) c = lowestSlot s c := by
    rw [hgalleys]
    split <;> rfl
  have hage : ((takeCore (if g.home = c then s else forgetL1 s c) l c).core c).nextAge = ((takeCore s l c).core c).nextAge := by
    split
    · rfl
    · exact (takeCore_forgetL1 s l c).2
  rw [placeOn, placedOn, placedGalley]
  dsimp only
  rw [hslot, hage]

theorem placedOn_rest (s : State) (l : Launch) (g : Galley) (c : Nat) :
    ∃ cs, placedOn s l g c = { s with cores := cs, galleys := (s.setGalley (placedGalley s l g c)).galleys } := by
  unfold placedOn
  dsimp only
  split
  · obtain ⟨cs, hcs⟩ := takeCore_only s l c
    rw [hcs]
    exact ⟨_, rfl⟩
  · obtain ⟨cs, hcs⟩ := takeCore_only (forgetL1 s c) l c
    rw [hcs]
    exact ⟨_, rfl⟩

theorem placedOn_core (s : State) (l : Launch) (g : Galley) (c : Nat) : ((placedOn s l g c).core c).launch = some l.id ∧
    ((placedOn s l g c).core c).nextAge = ((takeCore s l c).core c).nextAge + 1 ∧ (g.home ≠ c → ((placedOn s l g c).core c).l1 = []) := by
  have hcore : (placedOn s l g c).core c = { (takeCore (if g.home = c then s else forgetL1 s c) l c).core c with
      nextAge := ((takeCore (if g.home = c then s else forgetL1 s c) l c).core c).nextAge + 1 } := State.core_setCore _ _ _
  rw [hcore]
  refine ⟨takeCore_launch _ _ _, ?_, fun hhome => ?_⟩
  · dsimp only
    split
    · rfl
    · rw [(takeCore_forgetL1 s l c).2]
  · rw [if_neg hhome]
    exact (takeCore_forgetL1 s l c).1

theorem placedOn_galley {g₀ : Galley} (hg : s.galley? g.id = some g₀) : (placedOn s l g c).galley? g.id = some (placedGalley s l g c) := by
  obtain ⟨cs, hcs⟩ := placedOn_rest s l g c
  have hid : g₀.id = g.id := by simpa using List.find?_some (p := fun x : Galley => x.id == g.id) hg
  have hset := galley?_setGalley (s := s) (g := g₀) (h := placedGalley s l g c) (by rw [hid]; exact hg) hid.symm
  rw [hid] at hset
  rw [hcs]
  exact hset

/-! ### Groups that start -/

/-- A state with a new galley and number, on which groups start. -/
theorem startAt_placed {first n : Nat} (hfresh : ∀ g ∈ s.galleys, g.id < s.nextId) :
    ∃ u g, startAt s l first n c = pathAtEntry u g.id 0 ∧ u.galleys = s.galleys ++ [g] ∧ g.launch = l.id ∧ g.first = first ∧ g.count = n ∧
      g.core = some c ∧ g.slot = lowestSlot s c ∧ g.paths.map (fun p => (p.th.block, p.th.instr)) = [(l.entry, 0)] ∧
      (u.core c).launch = some l.id ∧ u.mem = s.mem ∧ u.tenants = s.tenants := by
  let g₀ := entryGalley l s.nextId first n c 0
  let v : State := { s with nextId := s.nextId + 1, galleys := s.galleys ++ [g₀] }
  have hstart : startAt s l first n c = placeOn v l g₀ c := rfl
  obtain ⟨cs, hcs⟩ := placedOn_rest v l g₀ c
  have hgalleys : (v.setGalley (placedGalley v l g₀ c)).galleys = s.galleys ++ [placedGalley v l g₀ c] := by
    have hkeep : s.galleys.map (fun x => if x.id = s.nextId then placedGalley v l g₀ c else x) = s.galleys :=
      (List.map_congr_left fun x hx => if_neg (hfresh x hx).ne).trans (List.map_id _)
    exact List.map_append.trans (congrArg (· ++ _) hkeep |>.trans (congrArg (s.galleys ++ [·]) (if_pos rfl)))
  have hslot : lowestSlot v c = lowestSlot s c := by
    unfold lowestSlot
    simp [v, g₀, entryGalley]
  refine ⟨placedOn v l g₀ c, placedGalley v l g₀ c, ?_, ?_, rfl, rfl, rfl, rfl, hslot, rfl, (placedOn_core v l g₀ c).1, ?_, ?_⟩
  · rw [hstart, placeOn_placedOn]
    rfl
  · rw [hcs]
    exact hgalleys
  · rw [hcs]
  · rw [hcs]

end

/-! ### What is placed next -/

theorem releaseCores_only (s : State) : ∃ cs, releaseCores s = { s with cores := cs } := ⟨_, rfl⟩

theorem mem_insertByFirst {g x : Galley} {gs : List Galley} : x ∈ insertByFirst g gs ↔ x = g ∨ x ∈ gs := by
  induction gs with
  | nil => simp [insertByFirst]
  | cons y r ih =>
    rw [insertByFirst]
    split
    · simp
    · simp only [List.mem_cons, ih]
      tauto

theorem insertByFirst_perm (g : Galley) (gs : List Galley) : (insertByFirst g gs).Perm (g :: gs) := by
  induction gs with
  | nil => exact .refl _
  | cons y r ih =>
    rw [insertByFirst]
    split
    · exact .refl _
    · exact (ih.cons y).trans (.swap g y r)

theorem sortByFirst_perm (gs : List Galley) : (sortByFirst gs).Perm gs := by
  induction gs with
  | nil => exact .refl _
  | cons g gs ih => exact (insertByFirst_perm g (sortByFirst gs)).trans (ih.cons g)

/-- A pending piece is one of the galleys. -/
theorem pieceOf_galley {s : State} {l : Launch} {g : Galley} {c : Nat} (h : pieceOf s l = some (g, c)) : ∃ g₀, s.galley? g.id = some g₀ := by
  obtain ⟨x, hx, hxc⟩ := List.exists_of_findSome?_eq_some h
  obtain ⟨c', -, hpair⟩ := Option.map_eq_some_iff.mp hxc
  cases hpair
  have hmem := (List.mem_filter.mp ((sortByFirst_perm _).mem_iff.mp hx)).1
  exact Option.isSome_iff_exists.mp (List.find?_isSome.mpr ⟨g, hmem, by simp⟩)

/-- The piece that is placed: that of the first launch whose lowest piece has a core that can be taken. -/
theorem placePiece_of {s : State} {l : Launch} {g : Galley} {c : Nat}
    (h : (s.launches.filter (fun l => dispatches s l && holdsCore s l)).findSome?
      (fun l => (pieceOf s l).bind (fun x => if settled s l x.2 then some (l, x) else none)) = some (l, g, c)) :
    placePiece s = some (placeOn s l g c) ∧ pieceOf s l = some (g, c) := by
  have hmap : placeLowest s = Option.map (fun y : Launch × Galley × Nat => placeOn s y.1 y.2.1 y.2.2) ∘
      fun l => (pieceOf s l).bind (fun x => if settled s l x.2 then some (l, x) else none) := by
    funext l
    rw [placeLowest, Function.comp]
    cases pieceOf s l with
    | none => rfl
    | some x =>
      dsimp only [Option.bind_some]
      split <;> rfl
  constructor
  · rw [placePiece, hmap, ← List.map_findSome?, h]
    rfl
  · obtain ⟨l', -, hl'⟩ := List.exists_of_findSome?_eq_some h
    obtain ⟨x, hx, hif⟩ := Option.bind_eq_some_iff.mp hl'
    split at hif
    · cases hif
      exact hx
    · cases hif

/-- With no piece to place, the first launch that can be placed is. -/
theorem placeWaiting_of {s : State} {l : Launch} (h : (s.launches.filter (dispatches s)).find? (fun l => (placeOf s l).isSome) = some l) :
    placeWaiting s = placeOf s l ∧ (placeOf s l).isSome = true := by
  have hl := List.find?_some (p := fun l => (placeOf s l).isSome) h
  refine ⟨?_, hl⟩
  rw [placeWaiting]
  generalize s.launches.filter (dispatches s) = ls at h
  induction ls with
  | nil => cases h
  | cons x r ih =>
    rw [List.find?_cons] at h
    rw [List.findSome?_cons]
    cases hx : placeOf s x with
    | some u =>
      rw [hx] at h
      cases h
      exact hx.symm
    | none =>
      rw [hx] at h
      exact ih h

/-- A launch of DOMLEVEL 0 at the core that the search found. -/
theorem placeHome_at {s : State} {l : Launch} {cl c : Nat} {w2 : Bool}
    (hwide : (searchOrder 0 16 (s.tenant l.tenant).w2ptr).findSome? (fun cl => (releasedCore s l cl).map (fun c => (cl, c))) =
      if w2 then some (cl, c) else none)
    (hnarrow : w2 = false → (searchOrder 16 24 (s.tenant l.tenant).n1ptr).findSome? (fun cl => (releasedCore s l cl).map (fun c => (cl, c))) =
      some (cl, c)) (hsome : (placeHome s l).isSome = true) :
    placeHome s l = some (startAt ((s.setTenant l.tenant (if w2 then { s.tenant l.tenant with w2ptr := cl }
      else { s.tenant l.tenant with n1ptr := cl })).setLaunch { l with placed := true }) { l with placed := true } 0 l.groupCount c) := by
  unfold placeHome at hsome ⊢
  dsimp only at hsome ⊢
  cases w2 with
  | true =>
    rw [hwide, if_pos rfl] at hsome ⊢
    dsimp only at hsome ⊢
    split at hsome
    · rw [if_pos ‹_›]
    · cases hsome
  | false =>
    rw [hwide, if_neg (by decide), hnarrow rfl] at hsome ⊢
    dsimp only at hsome ⊢
    split at hsome
    · rw [if_pos ‹_›]
    · cases hsome

/-- A launch whose domain `j` of `n` groups has a unit. -/
def Launch.withDomain (l : Launch) (j n : Nat) : Launch :=
  { l with placed := true, domains := l.domains.set j { Domain.empty with placed := true, live := n } }

/-- The next domain of a launch at the core that the unit's choice found. -/
theorem placeDomain_at {s : State} {l : Launch} {j n c : Nat} {cs : List Nat} (hj : l.nextDomain = some j)
    (hn : (if (leftOf s l j).isEmpty then l.domGroups else ((leftOf s l j).map Galley.count).sum) = n)
    (hunit : unitFor s l n = some cs) (hcore : cs.find? (fun c => decide (0 < freeSlots s l c)) = some c) (hset : settled s l c = true) :
    placeDomain s l = some (match leftOf s l j with
      | [] => startAt (s.setLaunch (l.withDomain j n)) (l.withDomain j n) (j * l.domGroups) n c
      | g :: gs => placeOn (gs.foldl (fun s x => s.setGalley { x with home := c }) (s.setLaunch (l.withDomain j n))) (l.withDomain j n)
          { g with home := c } c) := by
  rw [placeDomain, hj]
  dsimp only [Option.bind_some]
  rw [hn, hunit]
  dsimp only [Option.bind_some]
  rw [hcore]
  dsimp only [Option.bind_some]
  rw [hset, if_neg (by decide)]
  cases leftOf s l j with
  | nil => rfl
  | cons g gs => rfl

/-! ### Pieces that a RESUME has left -/

section
variable {s : State} {gs : List Galley} {c : Nat}

/-- A galley whose home is the core `c` where it is one of `gs`. -/
def Galley.homedIn (gs : List Galley) (c : Nat) (y : Galley) : Galley := if y.id ∈ gs.map Galley.id then { y with home := c } else y

theorem Galley.homedIn_rest (gs : List Galley) (c : Nat) (y : Galley) :
    (y.homedIn gs c).id = y.id ∧ (y.homedIn gs c).core = y.core ∧ (y.homedIn gs c).slot = y.slot := by
  rw [Galley.homedIn]
  split <;> exact ⟨rfl, rfl, rfl⟩

/-- Sending galleys of the state home, one after another. -/
theorem foldl_homed {gs : List Galley} (hnodup : (gs.map Galley.id).Nodup) :
    ∀ {s : State}, (∀ y ∈ s.galleys, ∀ x ∈ gs, y.id = x.id → y = x) →
      gs.foldl (fun s x => s.setGalley { x with home := c }) s = { s with galleys := s.galleys.map (Galley.homedIn gs c) } := by
  induction gs with
  | nil =>
    intro s _
    have hid : Galley.homedIn [] c = id := funext fun y => if_neg (List.not_mem_nil)
    rw [hid, List.map_id]
    rfl
  | cons g gs ih =>
    intro s hsame
    obtain ⟨hg, hgs⟩ := List.nodup_cons.mp hnodup
    have hone : s.setGalley { g with home := c } = { s with galleys := s.galleys.map (Galley.homedIn [g] c) } := by
      refine congrArg (fun gls => { s with galleys := gls }) (List.map_congr_left fun y hy => ?_)
      rw [Galley.homedIn]
      by_cases hyg : y.id = g.id
      · rw [if_pos hyg, if_pos (by simp [hyg]), hsame y hy g List.mem_cons_self hyg]
      · rw [if_neg hyg, if_neg (by simp [hyg])]
    rw [List.foldl_cons, hone, ih hgs ?_]
    · refine congrArg (fun gls => { s with galleys := gls }) ?_
      rw [List.map_map]
      refine List.map_congr_left fun y hy => ?_
      rw [Function.comp, Galley.homedIn, (y.homedIn_rest [g] c).1, Galley.homedIn, Galley.homedIn]
      simp only [List.map_cons, List.map_nil, List.mem_cons, List.not_mem_nil, or_false]
      by_cases hyg : y.id = g.id
      · rw [if_neg (by rw [hyg]; exact hg), if_pos hyg, if_pos (Or.inl hyg)]
      · simp [hyg]
    · intro y' hy' x hx hid
      obtain ⟨y, hy, rfl⟩ := List.mem_map.mp hy'
      rw [(y.homedIn_rest [g] c).1] at hid
      have hne : ¬y.id = g.id := fun hyg => hg (List.mem_map.mpr ⟨x, hx, hid.symm.trans hyg⟩)
      rw [Galley.homedIn, if_neg (by simpa using hne)]
      exact hsame y hy x (List.mem_cons_of_mem _ hx) hid

theorem lowestSlot_homed (s : State) (gs : List Galley) (c d : Nat) :
    lowestSlot { s with galleys := s.galleys.map (Galley.homedIn gs c) } d = lowestSlot s d := by
  have hcore : (fun g : Galley => g.core == some d) ∘ Galley.homedIn gs c = fun g => g.core == some d :=
    funext fun y => by rw [Function.comp, (y.homedIn_rest gs c).2.1]
  have hslot : Galley.slot ∘ Galley.homedIn gs c = Galley.slot := funext fun y => (y.homedIn_rest gs c).2.2
  unfold lowestSlot
  dsimp only
  rw [List.filter_map, hcore, List.map_map, hslot]

theorem galley?_homed (s : State) (gs : List Galley) (c i : Nat) :
    State.galley? { s with galleys := s.galleys.map (Galley.homedIn gs c) } i = (s.galley? i).map (Galley.homedIn gs c) := by
  have hid : (fun g : Galley => g.id == i) ∘ Galley.homedIn gs c = fun g => g.id == i :=
    funext fun y => by rw [Function.comp, (y.homedIn_rest gs c).1]
  unfold State.galley?
  rw [List.find?_map, hid]

/-- In a state whose galleys have numbers of their own, a galley is found under its number. -/
theorem galley?_of_mem {g : Galley} (hnodup : (s.galleys.map Galley.id).Nodup) (hg : g ∈ s.galleys) : s.galley? g.id = some g := by
  obtain ⟨x, hx⟩ := Option.isSome_iff_exists.mp (List.find?_isSome (p := fun x : Galley => x.id == g.id).mpr ⟨g, hg, by simp⟩)
  have hid : x.id = g.id := by simpa using List.find?_some (p := fun x : Galley => x.id == g.id) hx
  have hxg : x = g := List.inj_on_of_nodup_map hnodup (List.mem_of_find?_eq_some hx) hg hid
  rw [State.galley?, hx, hxg]

/-- What is left of a domain are galleys of the state, in an order of their own. -/
theorem leftOf_galleys (s : State) (l : Launch) (j : Nat) (hnodup : (s.galleys.map Galley.id).Nodup) :
    (∀ x ∈ leftOf s l j, x ∈ s.galleys) ∧ ((leftOf s l j).map Galley.id).Nodup := by
  have hperm := sortByFirst_perm (s.galleys.filter (fun g => g.launch == l.id && g.core.isNone && l.domainOf g.first == j))
  refine ⟨fun x hx => (List.mem_filter.mp (hperm.mem_iff.mp hx)).1, ?_⟩
  exact (hperm.map Galley.id).nodup_iff.mpr (hnodup.sublist (List.filter_sublist.map _))

theorem takeCore_age {s t : State} (hcores : t.cores = s.cores) {l m : Launch} (hid : m.id = l.id) (hspad : m.spad = l.spad) (c : Nat) :
    ((takeCore t m c).core c).nextAge = ((takeCore s l c).core c).nextAge := by
  have hcore : t.core c = s.core c := by rw [State.core, hcores, State.core]
  unfold takeCore
  dsimp only
  rw [hcore, hid, hspad]
  split
  · rw [hcore]
  · rw [State.core_setCore, State.core_setCore]

end

theorem galley?_setGalley_other {s : State} {h : Galley} {i : Nat} (hne : i ≠ h.id) : (s.setGalley h).galley? i = s.galley? i := by
  unfold State.galley? State.setGalley
  dsimp only
  induction s.galleys with
  | nil => rfl
  | cons y r ih =>
    rw [List.map_cons, List.find?_cons, List.find?_cons, ih]
    by_cases hy : y.id = h.id
    · rw [if_pos hy, hy, beq_false_of_ne hne.symm]
    · rw [if_neg hy]

theorem placementPutsGroups : Claims.PlacementPutsGroups := by
  unfold Claims.PlacementPutsGroups
  intro s v
  have hpiece : exec .piecePlacement s = .next ((placePiece v).getD v) := rfl
  have hlaunch : exec .launchPlacement s = .next (if (placePiece v).isSome then v else (placeWaiting v).getD v) := rfl
  refine ⟨fun l g c hfirst => ?_, fun l hnone hfirst hids => ?_⟩
  · obtain ⟨hplace, hpieceOf⟩ := placePiece_of hfirst
    obtain ⟨g₀, hg₀⟩ := pieceOf_galley hpieceOf
    obtain ⟨cs, hcs⟩ := placedOn_rest v l g c
    obtain ⟨hl, hage, hl1⟩ := placedOn_core v l g c
    rw [hplace, placeOn_placedOn] at hpiece
    exact ⟨_, hpiece, placedOn_galley hg₀, hl, hage, by rw [hcs]; rfl, by rw [hcs]; rfl, hl1⟩
  · intro wide narrow
    obtain ⟨hwait, hsome⟩ := placeWaiting_of hfirst
    rw [hnone, hwait] at hlaunch
    refine ⟨fun cl c hlevel hplaced hsearch => ?_, fun j cs c hlevel hj hleft hunit hcore hset => ?_,
      fun j g gs cs c hlevel hj hleft hnodup hunit hcore hset => ?_⟩
    · have hopen : placeOf v l = placeHome v l := by rw [placeOf, if_pos hlevel, hplaced, if_neg (by decide)]
      rw [hopen] at hlaunch hsome
      rcases hsearch with hwide | ⟨hwide, hnarrow⟩
      · obtain ⟨u, g, hstart, hgalleys, hgl, hfirst, hcount, hgc, hslot, hpaths, hl, hmem, hten⟩ :=
          startAt_placed (s := (v.setTenant l.tenant { v.tenant l.tenant with w2ptr := cl }).setLaunch { l with placed := true })
            (l := { l with placed := true }) (c := c) (first := 0) (n := l.groupCount) hids
        rw [placeHome_at (w2 := true) hwide nofun hsome] at hlaunch
        refine ⟨u, g, hlaunch.trans (congrArg _ hstart), hgalleys, hgl, hfirst, hcount, hgc, hslot, hpaths, hl, hmem, fun _ => ?_,
          fun hnowide => absurd (hwide.symm.trans hnowide) nofun⟩
        rw [tenant_of_tenants hten]
        exact congrArg Tenant.w2ptr (tenant_setTenant v _ _)
      · obtain ⟨u, g, hstart, hgalleys, hgl, hfirst, hcount, hgc, hslot, hpaths, hl, hmem, hten⟩ :=
          startAt_placed (s := (v.setTenant l.tenant { v.tenant l.tenant with n1ptr := cl }).setLaunch { l with placed := true })
            (l := { l with placed := true }) (c := c) (first := 0) (n := l.groupCount) hids
        rw [placeHome_at (w2 := false) hwide (fun _ => hnarrow) hsome] at hlaunch
        refine ⟨u, g, hlaunch.trans (congrArg _ hstart), hgalleys, hgl, hfirst, hcount, hgc, hslot, hpaths, hl, hmem,
          fun hisWide => absurd (hwide.symm.trans hisWide) nofun, fun _ => ?_⟩
        rw [tenant_of_tenants hten]
        exact congrArg Tenant.n1ptr (tenant_setTenant v _ _)
    · have hdom := placeDomain_at (s := v) (n := l.domGroups) hj (by rw [hleft]; rfl) hunit hcore hset
      rw [hleft] at hdom
      dsimp only at hdom
      have hplace : placeOf v l = some (startAt (v.setLaunch (l.withDomain j l.domGroups)) (l.withDomain j l.domGroups) (j * l.domGroups)
          l.domGroups c) := by
        rw [placeOf, if_neg hlevel, hdom]
      rw [hplace] at hlaunch
      obtain ⟨u, g, hstart, hgalleys, hgl, hfirst, hcount, hgc, hslot, -, hl, hmem, -⟩ :=
        startAt_placed (s := v.setLaunch (l.withDomain j l.domGroups)) (l := l.withDomain j l.domGroups) (c := c) (first := j * l.domGroups)
          (n := l.domGroups) hids
      exact ⟨u, g, hlaunch.trans (congrArg _ hstart), hgalleys, hgl, hfirst, hcount, hgc, hslot, hl, hmem⟩
    · have hdom := placeDomain_at (s := v) (n := ((g :: gs).map Galley.count).sum) hj (by rw [hleft]; rfl) hunit hcore hset
      rw [hleft] at hdom
      dsimp only at hdom
      generalize hm : l.withDomain j ((g :: gs).map Galley.count).sum = m at hdom
      have hmid : m.id = l.id := by rw [← hm]; rfl
      have hmspad : m.spad = l.spad := by rw [← hm]; rfl
      have hleftIn := leftOf_galleys v l j hnodup
      rw [hleft] at hleftIn
      obtain ⟨hin, hids'⟩ := hleftIn
      obtain ⟨hgout, hgs⟩ := List.nodup_cons.mp hids'
      have hfold := foldl_homed (c := c) hgs (s := v.setLaunch m) (fun y hy x hx hid =>
        List.inj_on_of_nodup_map hnodup hy (hin x (List.mem_cons_of_mem _ hx)) hid)
      rw [hfold, placeOn_placedOn] at hdom
      have hplace : placeOf v l = placeDomain v l := by rw [placeOf, if_neg hlevel, hdom]
      rw [hplace, hdom] at hlaunch
      generalize hw : ({ v.setLaunch m with galleys := (v.setLaunch m).galleys.map (Galley.homedIn gs c) } : State) = w at hlaunch
      have hfound (x : Galley) (hx : x ∈ g :: gs) : w.galley? x.id = some (x.homedIn gs c) := by
        rw [← hw, galley?_homed]
        exact congrArg (Option.map (Galley.homedIn gs c)) (galley?_of_mem (s := v.setLaunch m) hnodup (hin x hx))
      have hslot : lowestSlot w c = lowestSlot v c := by
        rw [← hw, lowestSlot_homed]
        rfl
      have hage : ((takeCore w m c).core c).nextAge = ((takeCore v l c).core c).nextAge := takeCore_age (by rw [← hw]; rfl) hmid hmspad c
      obtain ⟨cs', hcs'⟩ := placedOn_rest w m { g with home := c } c
      have hplaced := placedOn_galley (s := w) (l := m) (g := { g with home := c }) (c := c) (hfound g List.mem_cons_self)
      rw [placedGalley, hslot, hage] at hplaced
      refine ⟨_, hlaunch, hplaced, fun x hx => ?_, ?_, ?_⟩
      · have hne : x.id ≠ g.id := fun hid => hgout (List.mem_map.mpr ⟨x, hx, hid⟩)
        have hhomed : x.homedIn gs c = { x with home := c } := if_pos (List.mem_map_of_mem hx)
        rw [hcs', ← hhomed, ← hfound x (List.mem_cons_of_mem _ hx)]
        exact galley?_setGalley_other (s := w) (h := placedGalley w m { g with home := c } c) hne
      · rw [(placedOn_core w m _ c).1, hmid]
      · rw [hcs', ← hw]
        rfl

/-! ### Completion -/

/-- A status word that its write reaches. -/
theorem storeStatus_found {s : State} {t code : Nat} {c : PTarget} (h : s.lateFail t c 8 false = none) :
    storeStatus s t c code = s.writePhys c (leBytes 8 code) := by rw [storeStatus, h]

theorem launchesComplete : Claims.LaunchesComplete := by
  unfold Claims.LaunchesComplete
  intro s l hno hl hover hheld
  dsimp only
  generalize hv : ({ s with launches := s.launches.filter (fun x => x.id != l.id) } : State) = v
  have hnov : v.NoExact := by rw [← hv]; exact hno
  have hpkg : v.pkg = s.pkg := by rw [← hv]
  have hten : v.tenants = s.tenants := by rw [← hv]
  have hrun : exec (.launchComplete l.id) s = execLaunchComplete l.id s := rfl
  rw [execLaunchComplete, hl] at hrun
  dsimp only at hrun
  rw [hover, hheld, hv] at hrun
  refine ⟨fun i x c hpk hx hfree hst hcomp => ?_, fun hpk hlate => ?_⟩
  · have hstore : queueLate v x.q c (leBytes 8 0).length false = none :=
      (queueLate_of hpkg hten hno hnov x.q c _ false).trans (hcomp.status c hst)
    have hsig (d : PTarget) (hd : x.sig = some d) : queueLate (v.writePhys c (leBytes 8 0)) x.q d 8 true = none :=
      (queueLate_of ((pkg_of_aside (writePhys_aside v c _)).trans hpkg) ((tenants_of_aside (writePhys_aside v c _)).trans hten) hno
        (NoExact.writePhys hnov c _) x.q d 8 true).trans (hcomp.sig d hd)
    have hfinish : finishPacket v x 0 = completePacket (v.writePhys c (leBytes 8 0)) x := by
      rw [finishPacket, hst]
      dsimp only
      rw [lateStore_found hstore]
    have hlaunches : (completePacket (v.writePhys c (leBytes 8 0)) x).launches = v.launches := by
      obtain ⟨qs, hqs⟩ := completePacket_queues hsig
      rw [hqs]
      exact (launches_of_aside (signals_aside _ x.sig)).trans (launches_of_aside (writePhys_aside v c _))
    rw [hpk] at hrun
    dsimp only [Option.bind_some] at hrun
    simp only [hx] at hrun
    simp only [hfree] at hrun
    exact ⟨_, hrun.trans (congrArg _ hfinish), hlaunches.trans (by rw [← hv]), completePacket_ends hsig⟩
  · rw [hpk] at hrun
    rw [hrun]
    cases hst : l.status with
    | none => rfl
    | some c =>
      have hreach : v.lateFail l.tenant c 8 false = none := (lateFail_of hpkg hten hno hnov l.tenant c 8 false).trans (hlate c hst)
      exact congrArg _ (storeStatus_found hreach)

/-- Settles O36: placement puts a piece, a launch or a domain on the core that the rules choose, and a finished launch completes. -/
theorem launchesPlaceAndComplete : Obligations.LaunchesPlaceAndComplete := ⟨placementPutsGroups, launchesComplete⟩

end Sys2Proof.Machine
end

section
/-! Task graphs: replays begin, their nodes retire or are dispatched, and patches apply (R82 to R86). -/

namespace Sys2Proof.Machine

open Sys2Proof

/-! ### Reading does not depend on the patches under way -/

section
variable (s : State) (ps : List PatchOp)

/-- The state with other patches under way. -/
def State.withPatches : State := { s with patches := ps }

theorem completeSpill_withPatches (i : Nat) : (s.withPatches ps).completeSpill i = (s.completeSpill i).withPatches ps := by
  unfold State.completeSpill
  dsimp only
  have hslice : (s.withPatches ps).slice i = s.slice i := rfl
  rw [hslice]
  split
  · rfl
  · split <;> rfl

theorem finalizeLine_withPatches (pa : Nat) : (s.withPatches ps).finalizeLine pa = (s.finalizeLine pa).withPatches ps := by
  have hspill : (if (s.withPatches ps).spilling pa then (s.withPatches ps).completeSpill (sliceOf pa) else s.withPatches ps) =
      (if s.spilling pa then s.completeSpill (sliceOf pa) else s).withPatches ps := by
    have hsame : (s.withPatches ps).spilling pa = s.spilling pa := rfl
    rw [hsame, completeSpill_withPatches]
    split <;> rfl
  unfold State.finalizeLine
  dsimp only
  rw [hspill]
  generalize (if s.spilling pa then s.completeSpill (sliceOf pa) else s) = t
  have hslice : (t.withPatches ps).slice (sliceOf pa) = t.slice (sliceOf pa) := rfl
  rw [hslice]
  split
  · rfl
  · split <;> rfl

theorem finalizeAt_withPatches (t : PTarget) (n : Nat) : (s.withPatches ps).finalizeAt t n = (s.finalizeAt t n).withPatches ps := by
  have hspan (xs : List Nat) (u : State) : xs.foldl State.finalizeLine (u.withPatches ps) = (xs.foldl State.finalizeLine u).withPatches ps := by
    induction xs generalizing u with
    | nil => rfl
    | cons x xs ih => rw [List.foldl_cons, List.foldl_cons, finalizeLine_withPatches, ih]
  unfold State.finalizeAt State.finalizeSpan
  split
  · exact hspan _ s
  · split <;> rfl

theorem readFor_withPatches (me : Option GroupRef) (t : PTarget) (n : Nat) :
    (s.withPatches ps).readFor me t n = ((s.readFor me t n).1, (s.readFor me t n).2.withPatches ps) := by
  unfold State.readFor State.readPhys
  rw [finalizeAt_withPatches]
  rfl

theorem readPte_withPatches (t pa : Nat) : readPte (s.withPatches ps) t pa = ((readPte s t pa).1, (readPte s t pa).2.withPatches ps) := by
  unfold readPte
  rw [readFor_withPatches]
  have hten : (s.withPatches ps).tenant t = s.tenant t := rfl
  have hpoison : (s.withPatches ps).poisoned ⟨0, pa⟩ 8 = s.poisoned ⟨0, pa⟩ 8 := rfl
  rw [hten, hpoison]
  split
  · rfl
  · split <;> rfl

theorem largeEqual_withPatches (t tbl v i n : Nat) :
    largeEqual t tbl v i n (s.withPatches ps) = ((largeEqual t tbl v i n s).1, (largeEqual t tbl v i n s).2.withPatches ps) := by
  induction n generalizing i s with
  | zero => rfl
  | succ n ih =>
    rw [largeEqual, largeEqual, readPte_withPatches]
    rcases readPte s t (tbl + 8 * i) with ⟨c | x, u⟩
    · rfl
    · dsimp only
      split
      · exact ih u (i + 1)
      · rfl

theorem leafOut_withPatches (t k va tbl i n size v : Nat) : leafOut (s.withPatches ps) t k va tbl i n size v =
    ((leafOut s t k va tbl i n size v).1, (leafOut s t k va tbl i n size v).2.withPatches ps) := by
  unfold leafOut
  dsimp only
  split
  · rfl
  · rw [largeEqual_withPatches]
    rcases largeEqual t tbl v i n s with ⟨c | b, u⟩
    · rfl
    · cases b <;> rfl

theorem walkFrom_withPatches (t k va fuel tbl : Nat) :
    walkFrom t k va fuel tbl (s.withPatches ps) = ((walkFrom t k va fuel tbl s).1, (walkFrom t k va fuel tbl s).2.withPatches ps) := by
  induction fuel generalizing tbl s with
  | zero => rfl
  | succ fuel ih =>
    rw [walkFrom, walkFrom]
    dsimp only
    rw [readPte_withPatches]
    rcases readPte s t (tbl + 8 * levelIndex (3 - fuel) va) with ⟨c | v, u⟩
    · rfl
    · dsimp only
      split
      · split
        · split <;> rfl
        · rfl
      · split
        · split
          · exact leafOut_withPatches u ps ..
          · split
            · exact leafOut_withPatches u ps ..
            · split
              · exact leafOut_withPatches u ps ..
              · rfl
        · split
          · rfl
          · exact ih u _

theorem linesOf_withPatches (t k : Nat) (p : Nat × Nat) : (s.withPatches ps).linesOf t k p = s.linesOf t k p := by
  have hwalk : walk (s.withPatches ps) t k p.1 = ((walk s t k p.1).1, (walk s t k p.1).2.withPatches ps) := walkFrom_withPatches s ps _ _ _ _ _
  have hnow (a : Access) : (translateNow (s.withPatches ps) t k p.1 p.2 a).1 = (translateNow s t k p.1 p.2 a).1 := by
    unfold translateNow
    rw [hwalk]
    split
    · rfl
    · rcases walk s t k p.1 with ⟨e | c | ⟨x, pte⟩, u⟩
      · have hcheck : entryCheck (u.withPatches ps) e p.1 p.2 a = entryCheck u e p.1 p.2 a := rfl
        dsimp only
        rw [hcheck]
        split <;> rfl
      · rfl
      · rfl
  rw [State.linesOf, State.linesOf, hnow]

theorem engineOwned_withPatches (pa : Nat) : (s.withPatches ps).engineOwned pa = s.engineOwned pa := by
  simp only [State.engineOwned, State.commandOwns, linesOf_withPatches]
  rfl

theorem blockedSpan_withPatches (me : Option GroupRef) (write : Bool) (t : PTarget) (n : Nat) :
    (s.withPatches ps).blockedSpan me write t n = s.blockedSpan me write t n := by
  unfold State.blockedSpan
  refine congrArg _ (funext fun x => ?_)
  simp only [State.blocked, engineOwned_withPatches]
  rfl

theorem walkPath_withPatches (va fuel tbl : Nat) : walkPath (s.withPatches ps) va fuel tbl = walkPath s va fuel tbl := by
  induction fuel generalizing tbl with
  | zero => rfl
  | succ fuel ih => simp only [walkPath, readFor_withPatches, ih]

theorem walkHeld_withPatches (t k va : Nat) : (s.withPatches ps).walkHeld t k va = s.walkHeld t k va := by
  have howned : (s.withPatches ps).engineOwned = s.engineOwned := funext (engineOwned_withPatches s ps)
  unfold State.walkHeld
  rw [walkPath_withPatches, howned]
  rfl

/-- An access that is served at once is served so with other patches under way. -/
theorem queueWalk_withPatches {q : QId} {k va n : Nat} {a : Access} {p : PTarget} (h : queueWalk s q k va n a = (.ok p, s)) :
    queueWalk (s.withPatches ps) q k va n a = (.ok p, s.withPatches ps) := by
  have hwalk : walk (s.withPatches ps) q.owner k va = ((walk s q.owner k va).1, (walk s q.owner k va).2.withPatches ps) :=
    walkFrom_withPatches s ps _ _ _ _ _
  have hheld : heldCode ((s.withPatches ps).queue q).walks (pageOf va) = heldCode (s.queue q).walks (pageOf va) := rfl
  have hfaults : (s.withPatches ps).faults = s.faults := rfl
  have hwalkHeld : (s.withPatches ps).walkHeld q.owner k va = s.walkHeld q.owner k va := walkHeld_withPatches s ps _ _ _
  unfold queueWalk at h ⊢
  split at h
  · cases h
  next hva =>
    rw [if_neg hva, hheld]
    split at h
    · cases h
    next hnone =>
      rw [hfaults, hwalkHeld, hwalk]
      split at h
      · cases h
      next hmine =>
        rw [if_neg hmine]
        split at h
        · cases h
        next hother =>
          rw [if_neg hother]
          split at h
          · cases h
          next hfree =>
            rw [if_neg hfree]
            rcases hw : walk s q.owner k va with ⟨e | c | ⟨x, pte⟩, u⟩
            · rw [hw] at h
              dsimp only at h ⊢
              have hcheck : entryCheck (u.withPatches ps) e va n a = entryCheck u e va n a := rfl
              rw [hcheck]
              split at h
              · cases h
              next hok =>
                obtain ⟨hp, rfl⟩ := Prod.mk.inj h
                rw [hp]
            · rw [hw] at h
              cases h
            · rw [hw] at h
              dsimp only at h
              split at h <;> cases h

variable {s}

theorem Reached.withPatches {q : QId} {k va n pa : Nat} (h : Reached s q k va n pa) : Reached (s.withPatches ps) q k va n pa := by
  intro a ha
  obtain ⟨hwalk, hfree⟩ := h a ha
  exact ⟨queueWalk_withPatches s ps hwalk, by rw [blockedSpan_withPatches]; exact hfree⟩

theorem SpanReached.withPatches {q : QId} {k va n : Nat} (h : SpanReached s q k va n) : SpanReached (s.withPatches ps) q k va n := fun x hx =>
  let ⟨pa, hpa⟩ := h x hx
  ⟨pa, hpa.withPatches ps⟩

theorem Holds.withPatches {q : QId} {k va : Nat} {bs : List Byte} (h : Holds s q k va bs) : Holds (s.withPatches ps) q k va bs := by
  have hread (ts : List (PTarget × Nat)) (u : State) :
      readTargetsOf ts (u.withPatches ps) = ((readTargetsOf ts u).1, (readTargetsOf ts u).2.withPatches ps) := by
    induction ts generalizing u with
    | nil => rfl
    | cons x r ih => rw [readTargetsOf, readTargetsOf, readFor_withPatches]; dsimp only; rw [ih]
  obtain ⟨ts, hts, hbs⟩ := h
  refine ⟨ts, hts.imp fun x y hxy => ?_, ?_⟩
  · obtain ⟨hn, htgt, hreach⟩ := hxy
    exact ⟨hn, htgt, hreach.withPatches ps⟩
  · rw [hread, hbs]

end

/-! ### Reads and waits of structures that are reached -/

section
variable {s : State} {q : QId} {k : Nat}

theorem lateRead_of {va n : Nat} {bs : List Byte} (h : Holds s q k va bs) (hn : bs.length = n) : lateRead q k va n s = (.ok bs, s) := by
  rw [← hn]
  exact lateRead_holds h

/-- Spans that are reached hold nothing back. -/
theorem lateWaits_reached {a : Access} (ha : a ∈ [Access.qRd, .qWr, .qAtomic]) {xs : List (Nat × Nat)}
    (h : ∀ x ∈ xs, ∃ pa, Reached s q k x.1 x.2 pa) : lateWaits q k a xs s = (false, s) := by
  have hts : ∃ ts, List.Forall₂ (fun (x : Nat × Nat) (y : PTarget × Nat) => y.2 = x.2 ∧ y.1.tgt = 0 ∧ Reached s q k x.1 x.2 y.1.pa) xs ts := by
    induction xs with
    | nil => exact ⟨[], .nil⟩
    | cons x xs ih =>
      obtain ⟨pa, hpa⟩ := h x List.mem_cons_self
      obtain ⟨ts, hts⟩ := ih fun y hy => h y (List.mem_cons_of_mem _ hy)
      exact ⟨(⟨0, pa⟩, x.2) :: ts, .cons ⟨rfl, rfl, hpa⟩ hts⟩
  obtain ⟨ts, hts⟩ := hts
  rw [lateWaits, lateTargets_reached ha hts]
  exact congrArg _ (if_pos rfl)

/-- A header on its own 64 bytes lies in one page. -/
theorem pageParts_header {va : Nat} (h : va % 64 = 0) : pageParts 2 va 64 = [(va, 64)] := by
  have hmin : min 64 (65536 - va % 65536) = 64 := by omega
  rw [pageParts, if_neg (by decide)]
  dsimp only
  rw [hmin]
  rfl

theorem header_reached {va : Nat} {hb : List Byte} (hlen : hb.length = 64) (h : Holds s q k va hb) (halign : va % 64 = 0) :
    ∃ pa, Reached s q k va 64 pa := by
  obtain ⟨ts, hts, -⟩ := h
  rw [hlen, show 64 / 65536 + 2 = 2 from rfl, pageParts_header halign] at hts
  cases hts with
  | cons hxy _ => exact ⟨_, hxy.2.2⟩

theorem GraphHdr.ok_aligned {h : GraphHdr} {va : Nat} (hok : h.ok va = true) : va % 64 = 0 := by
  simp only [GraphHdr.ok, Bool.and_eq_true, beq_iff_eq] at hok
  exact hok.1.1.2

/-! ### What a node's retirement leaves of its replay -/

/-- Two views of one replay that differ in what is ready and why it is abandoned. -/
def Replay.sameRun (r x : Replay) : Prop := x.id = r.id ∧ x.retired = r.retired ∧ x.running = r.running

theorem Replay.sameRun_fails (r : Replay) (c n o : Nat) : r.sameRun (r.fails c n o) := by
  rw [Replay.fails]
  split <;> exact ⟨rfl, rfl, rfl⟩

theorem countDown_sameRun (tcb : Nat) (ms : List Nat) : ∀ (r : Replay) (s : State), r.sameRun (countDown q k tcb ms r s).1 := by
  induction ms with
  | nil => exact fun r s => ⟨rfl, rfl, rfl⟩
  | cons m ms ih =>
    intro r s
    rw [countDown]
    split
    · exact ⟨rfl, rfl, rfl⟩
    · split
      · exact r.sameRun_fails ..
      · split
        · dsimp only
          split
          · exact r.sameRun_fails ..
          · split
            · exact ih r _
            · split
              · exact r.sameRun_fails ..
              · exact ih { r with ready := r.ready ++ [m] } _
        · exact ih r _

theorem retireNode_retired (s : State) (r : Replay) (n code : Nat) :
    (retireNode s r n code).1.retired = r.retired + 1 ∧ n ∉ (retireNode s r n code).1.running ∧ (retireNode s r n code).1.id = r.id := by
  have hout : n ∉ r.running.filter (fun m => m != n) := by simp
  unfold retireNode
  dsimp only
  split
  · exact ⟨rfl, hout, rfl⟩
  · split
    · exact ⟨rfl, hout, rfl⟩
    · split
      · split
        · split
          · obtain ⟨hid, hretired, hrunning⟩ := countDown_sameRun (q := r.queue s) (k := r.ctx) _ _
              { r with running := r.running.filter (fun m => m != n), retired := r.retired + 1 } _
            exact ⟨hretired, by rw [hrunning]; exact hout, hid⟩
          · exact ⟨rfl, hout, rfl⟩
        · exact ⟨rfl, hout, rfl⟩
      · exact ⟨rfl, hout, rfl⟩

theorem retireNode_assisted {r : Replay} (n : Nat) (h : r.assisted = true) : (retireNode s r n 0).1.abandon = r.abandon := by
  rw [retireNode]
  dsimp only
  rw [if_pos h]

/-- In host-assisted mode a retirement writes its record. -/
theorem retireWaits_assisted {r : Replay} {n : Nat} (h : r.assisted = true)
    (hrec : ∀ x ∈ pageParts 2 (r.recAddr + 16 * r.records) 16, ∃ pa, Reached s (r.queue s) r.ctx x.1 x.2 pa) : retireWaits s r n = (false, s) := by
  rw [retireWaits]
  dsimp only
  rw [if_pos h]
  exact lateWaits_reached (by simp) hrec

/-- In hardware mode it reads its TCB and its successors, and writes their PREDLEFT words. -/
theorem retireWaits_counted {r : Replay} {n : Nat} {ta tb ss : List Byte} (h : r.assisted = false) (hta : ta.length = 8) (htb : tb.length = 32)
    (hroot : Holds s (r.queue s) r.ctx (r.graph + 0x10) ta) (htcb : Holds s (r.queue s) r.ctx (leNat ta + 32 * n) tb)
    (hss : ss.length = 4 * (Tcb.of tb).nsucc) (hsucc : Holds s (r.queue s) r.ctx (Tcb.of tb).succ ss)
    (hleft : ∀ i, i < (Tcb.of tb).nsucc → ∃ pa, Reached s (r.queue s) r.ctx (leNat ta + 32 * fieldAt ss (4 * i) 4 + 4) 4 pa) :
    retireWaits s r n = (false, s) := by
  rw [retireWaits]
  dsimp only
  rw [if_neg (by simp [h]), lateRead_of hroot hta]
  dsimp only
  rw [lateRead_of htcb htb]
  dsimp only
  rw [lateRead_of hsucc hss]
  refine lateWaits_reached (by simp) fun x hx => ?_
  obtain ⟨i, hi, rfl⟩ := List.mem_map.mp hx
  exact hleft i (List.mem_range.mp hi)

/-! ### Replays -/

/-- A waiting replay of a graph whose structures are reached begins. -/
theorem beginReplay_begins {r : Replay} {hb : List Byte} (hfree : graphBusy s r = false) (hheld : completionHeld s r.packet = false)
    (hlen : hb.length = 64) (hhdr : Holds s (r.queue s) r.ctx r.graph hb) (hok : (GraphHdr.of hb).ok r.graph = true)
    (hstate : (GraphHdr.of hb).state = 0)
    (htcbs : SpanReached s (r.queue s) r.ctx (GraphHdr.of hb).tcb (32 * (GraphHdr.of hb).nodes)) :
    beginReplay s r =
      (let n := resetNodes (r.queue s) r.ctx (GraphHdr.of hb).tcb (GraphHdr.of hb).nodes
         (softWrite (r.queue s) r.ctx (r.graph + 0x20) (leBytes 8 (GraphHdr.of hb).gen) (softWrite (r.queue s) r.ctx (r.graph + 0x30) (leBytes 4 1) s))
       runReplay n.2 { r with
         wait := false, gen := (GraphHdr.of hb).gen, nodes := (GraphHdr.of hb).nodes, ready := n.1,
         assisted := Word.bit (n.2.tenant r.tenant).mode 4 }) := by
  obtain ⟨pa, hpa⟩ := header_reached hlen hhdr (GraphHdr.ok_aligned hok)
  have hstart : startWaits (r.queue s) r (GraphHdr.of hb) s = (false, s) := by
    rw [startWaits, lateWaits_reached (by simp) (by simpa using ⟨pa, hpa⟩)]
    exact lateWaits_reached (by simp) htcbs
  rw [beginReplay]
  dsimp only
  rw [hfree, hheld, if_neg (by decide), lateRead_of hhdr hlen]
  dsimp only
  rw [hok, if_neg (by decide), if_neg (not_not.mpr hstate), hstart]

theorem beginReplay_busy {r : Replay} (h : graphBusy s r = true) : beginReplay s r = s := by
  rw [beginReplay]
  dsimp only
  rw [h, Bool.true_or, if_pos rfl]

end

theorem graphsReplay : Claims.GraphsReplay := by
  unfold Claims.GraphsReplay
  intro s
  refine ⟨fun q p c ts hst hnode hc hts => ?_, fun r hb hr hwait hgoes hqueue hfree hheld hlen hhdr hok hstate htcbs => ?_,
    fun r n hr hrun hnone hgoes hqueue hreach => ?_⟩
  · obtain rfl := hst.queue
    have hexec : exec (.graph p.q) s = .next (startPacket 7 p.q s graphPacket) := rfl
    rw [startPacket_starts hst, graphPacket, if_pos hnode, graphAct, withTarget_finds hc] at hexec
    dsimp only at hexec
    rw [withSpan_finds hts] at hexec
    exact ⟨⟨hexec, fun hbusy => hexec.trans (congrArg _ (beginReplay_busy hbusy))⟩, _, _, hexec, rfl, rfl, rfl, rfl, rfl, rfl, rfl, rfl,
      congrArg Queue.rp (started_queue p s (some c)), beginReplay_busy⟩
  · have hexec : exec (.graphReplayWaitEnd r.id) s = execGraphReplayWaitEnd r.id s := rfl
    rw [execGraphReplayWaitEnd, hr] at hexec
    dsimp only at hexec
    rw [hgoes, hqueue, if_neg (by decide), if_pos hwait, beginReplay_begins hfree hheld hlen hhdr hok hstate htcbs] at hexec
    exact ⟨hexec, _, hexec, rfl, rfl, rfl, rfl, rfl, rfl, rfl⟩
  · have hexec : exec (.graphNodeRetire r.id n) s = execGraphNodeRetire r.id n s := rfl
    have hwaits : retireWaits s r n = (false, s) := by
      rcases hreach with ⟨hassist, hrec⟩ | ⟨hassist, ta, tb, ss, hta, htb, hroot, htcb, hss, hsucc, hleft⟩
      · exact retireWaits_assisted hassist hrec
      · exact retireWaits_counted hassist hta htb hroot htcb hss hsucc hleft
    have hlaunches : s.launches.any (fun l => l.node == some (r.id, n)) = false := by
      rw [List.any_eq_false]
      exact fun l hl => by simpa using hnone l hl
    rw [execGraphNodeRetire, hr] at hexec
    dsimp only at hexec
    rw [List.contains_iff_mem.mpr hrun, hlaunches, hgoes, hqueue, if_neg (by decide), hwaits] at hexec
    obtain ⟨hretired, hrunning, hid⟩ := retireNode_retired s r n 0
    exact ⟨hexec, _, _, hexec, hretired, hrunning, hid⟩

/-! ### Nodes that the host dispatches -/

/-- A replay that the host assists. -/
theorem assistedReplay_assisted {s : State} {t k va : Nat} {r : Replay} (h : assistedReplay s t k va = some r) : r.assisted = true := by
  have hr := List.find?_some (p := fun r : Replay => r.tenant == t && r.ctx == k && r.graph == va && r.assisted && !r.wait) h
  simp only [Bool.and_eq_true] at hr
  exact hr.1.2

/-- A JOIN node is dispatched and retires at once. -/
theorem dispatchNode_join {s : State} {r : Replay} {n : Nat} {hb tb : List Byte} (hassist : r.assisted = true) (hlen : hb.length = 64)
    (hhdr : Holds s (r.queue s) r.ctx r.graph hb) (htb : tb.length = 32)
    (htcb : Holds s (r.queue s) r.ctx ((GraphHdr.of hb).tcb + 32 * n) tb) (hkind : (Tcb.of tb).kind = 1)
    (hrec : ∀ x ∈ pageParts 2 (r.recAddr + 16 * r.records) 16, ∃ pa, Reached s (r.queue s) r.ctx x.1 x.2 pa) :
    dispatchNode s r n = (some (retireNode s { r with dispatched := r.dispatched ++ [n] } n 0).1,
      (retireNode s { r with dispatched := r.dispatched ++ [n] } n 0).2) := by
  rw [dispatchNode]
  dsimp only
  rw [lateRead_of hhdr hlen]
  dsimp only
  rw [lateRead_of htcb htb]
  dsimp only
  rw [hkind, if_neg Nat.one_ne_zero, retireWaits_assisted hassist hrec]
  rfl

theorem nodesAreDispatched : Claims.NodesAreDispatched := by
  unfold Claims.NodesAreDispatched
  intro s q p c r hst hnode hc hr habandon
  obtain rfl := hst.queue
  have hassist := assistedReplay_assisted hr
  have hexec : exec (.graphNodeDispatch p.q) s = .next (startPacket 7 p.q s (fun p s => if p.field 24 4 = 0xFFFFFFFF then s else nodeAct p s)) := rfl
  rw [startPacket_starts hst, if_neg hnode, nodeAct, withTarget_finds hc] at hexec
  dsimp only at hexec
  rw [hr] at hexec
  dsimp only at hexec
  rw [habandon, if_neg (by decide)] at hexec
  have hdispatch {r' : Replay} {v : State} (hn : p.field 24 4 < r.nodes) (hnew : r.dispatched.contains (p.field 24 4) = false)
      (hnext : dispatchNode s r (p.field 24 4) = (some r', v)) (hgood : r'.abandon = none) :
      exec (.graphNodeDispatch p.q) s = .next (placeAll 4096 (finishPacket (p.started (settleReplay (v.setReplay r') r') (some c))
        (p.packet (settleReplay (v.setReplay r') r') (some c)) 0)) := by
    rw [if_neg (Nat.not_le.mpr hn), hnew, if_neg (by decide), hnext] at hexec
    dsimp only at hexec
    rw [hgood] at hexec
    exact hexec
  refine ⟨fun hb tb hn hnew hlen hhdr htb htcb hkind hrec => ?_, fun r' v hn hnew hnext hgood => ?_, fun hn => ?_⟩
  · exact hdispatch hn hnew (dispatchNode_join hassist hlen hhdr htb htcb hkind hrec)
      ((retireNode_assisted (r := { r with dispatched := r.dispatched ++ [p.field 24 4] }) _ hassist).trans habandon)
  · exact ⟨_, _, hdispatch hn hnew hnext hgood, rfl, hst.type, rfl, rfl, rfl⟩
  · have hcode : graphStatus 8 (p.field 24 4) 0 = 8 + p.field 24 4 % 2 ^ 32 * 2 ^ 8 := by rw [graphStatus, Nat.zero_mul, Nat.add_zero]
    rw [if_pos hn, hcode] at hexec
    refine ⟨_, _, hexec, rfl, rfl, ?_, rfl⟩
    rw [actErr, State.queue_setQueue]

/-! ### Patches -/

section
variable {s : State} {x : PatchOp}

/-- An earlier patch of the same graph goes first. -/
theorem runPatch_waits (h : ∃ y ∈ s.patches, y.tenant = x.tenant ∧ y.ctx = x.ctx ∧ y.graph = x.graph ∧ y.id < x.id) : runPatch s x = s := by
  obtain ⟨y, hy, ht, hk, hg, hid⟩ := h
  have hany : s.patches.any (fun y => (y.tenant == x.tenant && y.ctx == x.ctx && y.graph == x.graph) && decide (y.id < x.id)) = true :=
    List.any_eq_true.mpr ⟨y, hy, by simp [ht, hk, hg, hid]⟩
  rw [runPatch]
  dsimp only
  rw [hany, Bool.true_or, if_pos rfl]

/-- The only patch, of a graph whose structures are reached, applies. -/
theorem runPatch_applies {k : Packet} {hb src : List Byte} (hk : s.packet? x.packet = some k) (honly : s.patches = [x])
    (hheld : packetHeld s k = false) (hlen : hb.length = 64) (hhdr : Holds s k.q x.ctx x.graph hb) (hok : (GraphHdr.of hb).ok x.graph = true)
    (hbound : ∀ r ∈ s.replays, r.tenant = x.tenant → r.ctx = x.ctx → r.graph = x.graph → r.wait = false →
      r.gen + 1 ≠ x.gen.getD (GraphHdr.of hb).gen)
    (hsrc : src.length = 128 * x.count) (hentries : Holds s k.q x.ctx x.src src)
    (hnodes : ∀ i, i < x.count → fieldAt src (128 * i) 4 < (GraphHdr.of hb).nodes)
    (hslots : SpanReached s k.q x.ctx (GraphHdr.of hb).param (256 * (GraphHdr.of hb).nodes)) :
    runPatch s x = endPatch (softWrite k.q x.ctx (x.graph + 8) (leBytes 8 (x.gen.getD (GraphHdr.of hb).gen + 1))
      (patchSlots k.q x.ctx (GraphHdr.of hb) src x.count (x.gen.getD (GraphHdr.of hb).gen) (GraphHdr.of hb).nodes
        (s.withPatches [{ x with gen := some (x.gen.getD (GraphHdr.of hb).gen) }]))) x false := by
  obtain ⟨pa, hpa⟩ := header_reached hlen hhdr (GraphHdr.ok_aligned hok)
  generalize hg : x.gen.getD (GraphHdr.of hb).gen = g at hbound ⊢
  have hfirst : s.patches.any (fun y => (y.tenant == x.tenant && y.ctx == x.ctx && y.graph == x.graph) && decide (y.id < x.id)) = false := by
    rw [honly]
    simp
  have hcompletion : completionHeld s (some x.packet) = false := by
    rw [completionHeld, Option.bind_some, hk]
    exact hheld
  have hmap : ({ s with patches := s.patches.map (fun y => if y.id = x.id then { y with gen := some g } else y) } : State) =
      s.withPatches [{ x with gen := some g }] := by
    rw [honly]
    exact congrArg s.withPatches (congrArg (· :: []) (if_pos rfl))
  have hfree : s.replays.any
      (fun r => r.tenant == x.tenant && r.ctx == x.ctx && r.graph == x.graph && !r.wait && r.gen + 1 == g) = false := by
    rw [List.any_eq_false]
    intro r hr hb
    simp only [Bool.and_eq_true, beq_iff_eq, Bool.not_eq_true'] at hb
    obtain ⟨⟨⟨⟨ht, hc⟩, hgr⟩, hw⟩, hgen⟩ := hb
    exact hbound r hr ht hc hgr hw hgen
  have hin : (List.range x.count).any (fun i => decide ((GraphHdr.of hb).nodes ≤ fieldAt src (128 * i) 4)) = false := by
    rw [List.any_eq_false]
    intro i hi
    simpa using hnodes i (List.mem_range.mp hi)
  have hspans : ∀ y ∈ (x.graph, 64) :: pageParts (256 * (GraphHdr.of hb).nodes / 65536 + 2) (GraphHdr.of hb).param (256 * (GraphHdr.of hb).nodes),
      ∃ pa, Reached (s.withPatches [{ x with gen := some g }]) k.q x.ctx y.1 y.2 pa := by
    intro y hy
    rcases List.mem_cons.mp hy with rfl | hy
    · exact ⟨pa, hpa.withPatches _⟩
    · exact hslots.withPatches _ y hy
  rw [runPatch, hk]
  dsimp only
  rw [hfirst, hcompletion, if_neg (by decide), lateRead_of hhdr hlen]
  dsimp only
  simp only [hg, hmap]
  rw [hok, if_neg (by decide), hfree, if_neg (by decide), lateRead_of (hentries.withPatches _) hsrc]
  dsimp only
  rw [hin, if_neg (by decide), lateWaits_reached (by simp) hspans]

end

theorem patchesApply : Claims.PatchesApply := by
  unfold Claims.PatchesApply
  intro s
  refine ⟨fun q p ts hst hts => ?_, fun x k hx hgoes hk => ⟨fun hfirst => ?_, fun hb src honly hheld hlen hhdr => ?_⟩⟩
  · obtain rfl := hst.queue
    have hexec : exec (.patch p.q) s = .next (startPacket 8 p.q s patchAct) := rfl
    rw [startPacket_starts hst, patchAct, withSpan_finds hts] at hexec
    dsimp only at hexec
    refine ⟨⟨hexec, fun hfirst => ?_⟩, _, _, hexec, rfl, rfl, rfl, rfl, rfl, rfl, rfl, ?_⟩
    · rw [hexec]
      obtain ⟨y, hy, hearlier⟩ := hfirst
      exact congrArg _ (runPatch_waits ⟨y, List.mem_append_left _ hy, hearlier⟩)
    · exact congrArg Queue.rp (started_queue p s none)
  · have hexec : exec (.patchWaitEnd x.id) s = execPatchWaitEnd x.id s := rfl
    rw [execPatchWaitEnd, hx] at hexec
    dsimp only at hexec
    rw [if_pos hgoes, runPatch_waits hfirst] at hexec
    exact hexec
  · have hexec : exec (.patchWaitEnd x.id) s = execPatchWaitEnd x.id s := rfl
    rw [execPatchWaitEnd, hx] at hexec
    dsimp only at hexec
    rw [if_pos hgoes] at hexec
    intro h g v hok hbound hsrc hentries hnodes hslots
    rw [runPatch_applies hk honly hheld hlen hhdr hok hbound hsrc hentries hnodes hslots] at hexec
    exact hexec

/-- Settles O37: replays begin and go on, nodes are dispatched, and patches apply, where the graph's structures are reached. -/
theorem graphsReplayAndPatch : Obligations.GraphsReplayAndPatch := ⟨graphsReplay, nodesAreDispatched, patchesApply⟩

end Sys2Proof.Machine
end

section
/-! Every step keeps the memories canonical. The model writes a memory only by the operations of `Laws/Memory.lean`, which keep the form; so one
rule for each operation on the state, in the order of the model's files, says that it keeps the form, and each follows from the rules of the
operations that it is made of. This file has what these rules speak of: canonical cores, outcomes, folds. -/

namespace Sys2Proof.Machine

open Sys2Proof

/-- A core whose scratchpad and tiles are canonical. -/
def Core.Wf (x : Core) : Prop := x.spad.wf = true ∧ x.tiles.wf = true

/-- A table of such cores. -/
def CoresWf (cs : Tbl Core) : Prop := ∀ p ∈ cs, p.2.Wf

theorem Core.wf_iff (x : Core) : x.Wf ↔ x.spad.wf = true ∧ x.tiles.wf = true := Iff.rfl

theorem State.canonical_iff (s : State) :
    s.Canonical ↔ s.mem.wf = true ∧ s.hostMem.wf = true ∧ s.peerMem.wf = true ∧ CoresWf s.cores ∧ s.pkg.recBuf.wf = true :=
  ⟨fun h => ⟨h.mem, h.host, h.peer, fun p hp => ⟨h.spad p hp, h.tiles p hp⟩, h.buffer⟩,
    fun ⟨hm, hh, hp, hc, hb⟩ => ⟨hm, hh, hp, fun p h => (hc p h).1, fun p h => (hc p h).2, hb⟩⟩

/-- What leaves the memories, the cores and the recovery buffer alone keeps the form. -/
theorem State.Canonical.beside {s t : State} (h : s.Canonical) (hmem : t.mem = s.mem) (hhost : t.hostMem = s.hostMem)
    (hpeer : t.peerMem = s.peerMem) (hcores : t.cores = s.cores) (hbuf : t.pkg.recBuf = s.pkg.recBuf) : t.Canonical := by
  rw [State.canonical_iff] at h ⊢
  rw [hmem, hhost, hpeer, hcores, hbuf]
  exact h

theorem CoresWf.nil : CoresWf [] := fun _ h => absurd h List.not_mem_nil

theorem Memory.wf_nil : Memory.wf [] = true := rfl

theorem Core.reset_canonical : Core.reset.Wf := ⟨rfl, rfl⟩

theorem CoresWf.get {cs : Tbl Core} (h : CoresWf cs) (c : Nat) : (cs.getD c .reset).Wf := by
  have hget : ∀ cs : Tbl Core, CoresWf cs → ∀ x, cs.get? c = some x → x.Wf := by
    intro cs
    induction cs with
    | nil => exact fun _ x hx => absurd hx (Option.some_ne_none x).symm
    | cons p r ih =>
      intro h x hx
      rw [Tbl.get?] at hx
      split at hx
      · exact Option.some.inj hx ▸ h p List.mem_cons_self
      · exact ih (fun y hy => h y (List.mem_cons_of_mem _ hy)) x hx
  rw [Tbl.getD]
  split
  next x hx => exact hget cs h x hx
  next => exact Core.reset_canonical

theorem CoresWf.set {cs : Tbl Core} (h : CoresWf cs) (c : Nat) {x : Core} (hx : x.Wf) : CoresWf (cs.set c x) := by
  induction cs with
  | nil => exact fun p hp => List.mem_singleton.mp hp ▸ hx
  | cons p r ih =>
    have hp := h p List.mem_cons_self
    have hr : CoresWf r := fun y hy => h y (List.mem_cons_of_mem _ hy)
    rw [Tbl.set]
    split
    · exact List.forall_mem_cons.mpr ⟨hx, hr⟩
    · split
      · exact List.forall_mem_cons.mpr ⟨hx, h⟩
      · exact List.forall_mem_cons.mpr ⟨hp, ih hr⟩

theorem State.core_canonical {s : State} (h : s.Canonical) (c : Nat) : (s.core c).Wf := CoresWf.get ((State.canonical_iff s).mp h).2.2.2.1 c

/-- An outcome whose next state, if there is one, is canonical. -/
@[irreducible] def NextCanonical (o : type_of% (step State.reset)) : Prop := ∀ t, o = .next t → t.Canonical

theorem nextCanonical_next (t : State) : NextCanonical (.next t) ↔ t.Canonical :=
  by unfold NextCanonical; exact ⟨fun h => h t rfl, fun h u hu => by cases hu; exact h⟩

theorem NextCanonical.of_next {o : type_of% (step State.reset)} (h : NextCanonical o) {t : State} (ht : o = .next t) : t.Canonical :=
  (nextCanonical_next t).mp (ht ▸ h)

theorem nextCanonical_fault (r : Fault) : NextCanonical (.fault r) := by
  unfold NextCanonical
  exact fun _ h => nomatch h

theorem nextCanonical_refused (r : Refusal) : NextCanonical (.refused r) := by
  unfold NextCanonical
  exact fun _ h => nomatch h

/-- An optional state that is canonical where there is one. -/
@[irreducible] def SomeCanonical (o : Option State) : Prop := ∀ t, o = some t → t.Canonical

theorem someCanonical_some (t : State) : SomeCanonical (some t) ↔ t.Canonical := by
  unfold SomeCanonical
  exact ⟨fun h => h t rfl, fun h u hu => by cases hu; exact h⟩

theorem SomeCanonical.of_some {o : Option State} (h : SomeCanonical o) {t : State} (ht : o = some t) : t.Canonical :=
  (someCanonical_some t).mp (ht ▸ h)

theorem someCanonical_none : SomeCanonical none := by
  unfold SomeCanonical
  exact fun t h => absurd h (Option.some_ne_none t).symm

theorem getD_canonical {o : Option State} (h : SomeCanonical o) {s : State} (sC : s.Canonical) : (o.getD s).Canonical := by
  cases o with
  | none => exact sC
  | some t => exact h.of_some rfl

theorem SomeCanonical.bind {α : Type} {f : α → Option State} (hf : ∀ x, SomeCanonical (f x)) (o : Option α) : SomeCanonical (o.bind f) := by
  cases o with
  | none => exact someCanonical_none
  | some x => exact hf x

theorem SomeCanonical.findSome? {α : Type} {f : α → Option State} (hf : ∀ x, SomeCanonical (f x)) (xs : List α) :
    SomeCanonical (xs.findSome? f) := by
  cases hxs : xs.findSome? f with
  | none => exact someCanonical_none
  | some t =>
    obtain ⟨x, -, hx⟩ := List.exists_of_findSome?_eq_some hxs
    exact hx ▸ hf x

/-- The work of an engine that leaves a canonical state. -/
def Ran.Canonical : Ran → Prop
  | .wait s => s.Canonical
  | .fail s _ _ => s.Canonical
  | .go s _ => s.Canonical

/-- An exact add that leaves a canonical state. -/
def Exact.Canonical : Exact → Prop
  | .done s => s.Canonical
  | .wait s => s.Canonical
  | .fail _ s => s.Canonical

theorem CoresWf.map {cs : Tbl Core} (h : CoresWf cs) {f : Nat × Core → Core} (hf : ∀ p, p.2.Wf → (f p).Wf) :
    CoresWf (cs.map (fun p => (p.1, f p))) := by
  intro p hp
  obtain ⟨x, hx, rfl⟩ := List.mem_map.mp hp
  exact hf x (h x hx)

theorem CoresWf.filter {cs : Tbl Core} (h : CoresWf cs) (p : Nat × Core → Bool) : CoresWf (cs.filter p) :=
  fun x hx => h x (List.mem_of_mem_filter hx)

theorem ite_canonical {c : Prop} [Decidable c] {s t : State} (sC : s.Canonical) (tC : t.Canonical) : (if c then s else t).Canonical := by
  split
  · exact sC
  · exact tC

theorem foldl_canonical {α : Type} {F : State → α → State} {s : State} (h : s.Canonical) (hF : ∀ s x, s.Canonical → (F s x).Canonical)
    (xs : List α) : (xs.foldl F s).Canonical := by
  induction xs generalizing s with
  | nil => exact h
  | cons x xs ih => exact ih (hF s x h)

/-- The same where the fold gathers something else beside the state. -/
theorem foldl_gather {α β : Type} {F : β × State → α → β × State} (hF : ∀ acc x, acc.2.Canonical → (F acc x).2.Canonical) (xs : List α) :
    ∀ {acc : β × State}, acc.2.Canonical → (xs.foldl F acc).2.Canonical := by
  induction xs with
  | nil => exact fun h => h
  | cons x xs ih => exact fun h => ih (hF _ x h)

theorem foldl_wf {α : Type} {F : Memory → α → Memory} {m : Memory} (h : m.wf = true) (hF : ∀ m x, m.wf = true → (F m x).wf = true)
    (xs : List α) : (xs.foldl F m).wf = true := by
  induction xs generalizing m with
  | nil => exact h
  | cons x xs ih => exact ih (hF m x h)

theorem foldl_core {α : Type} {F : Core → α → Core} {x : Core} (h : x.Wf) (hF : ∀ x y, x.Wf → (F x y).Wf)
    (xs : List α) : (xs.foldl F x).Wf := by
  induction xs generalizing x with
  | nil => exact h
  | cons y xs ih => exact ih (hF x y h)

end Sys2Proof.Machine
end

section
/-! The operations of `Machine/State.lean` keep the memories canonical. -/

namespace Sys2Proof.Machine

open Sys2Proof

theorem State.reset_canonical : State.reset.Canonical := by
  constructor <;> decide

end Sys2Proof.Machine
end

section
/-! The operations of `Machine/Tables.lean` keep the memories canonical. -/

namespace Sys2Proof.Machine

open Sys2Proof

theorem State.setCore_canonical {s : State} {x : Core} (sC : s.Canonical) (xC : x.Wf) (c) : (State.setCore s c x).Canonical := by
  grind [State.setCore, State.canonical_iff, CoresWf.set]

theorem State.setCluster_canonical {s : State} (sC : s.Canonical) (c x) : (State.setCluster s c x).Canonical := by
  grind [State.setCluster, State.canonical_iff]

theorem State.setSlice_canonical {s : State} (sC : s.Canonical) (c x) : (State.setSlice s c x).Canonical := by
  grind [State.setSlice, State.canonical_iff]

theorem State.setTenant_canonical {s : State} (sC : s.Canonical) (t x) : (State.setTenant s t x).Canonical := by
  grind [State.setTenant, State.canonical_iff]

theorem State.setCtx_canonical {s : State} (sC : s.Canonical) (t k x) : (State.setCtx s t k x).Canonical := by
  grind [State.setCtx, State.canonical_iff]

theorem State.setQueue_canonical {s : State} (sC : s.Canonical) (q x) : (State.setQueue s q x).Canonical := by
  grind [State.setQueue, State.canonical_iff]

theorem State.setLaunch_canonical {s : State} (sC : s.Canonical) (l) : (State.setLaunch s l).Canonical := by
  grind [State.setLaunch, State.canonical_iff]

theorem State.setGalley_canonical {s : State} (sC : s.Canonical) (g) : (State.setGalley s g).Canonical := by
  grind [State.setGalley, State.canonical_iff]

theorem State.setCommand_canonical {s : State} (sC : s.Canonical) (c) : (State.setCommand s c).Canonical := by
  grind [State.setCommand, State.canonical_iff]

theorem State.setReplay_canonical {s : State} (sC : s.Canonical) (r) : (State.setReplay s r).Canonical := by
  grind [State.setReplay, State.canonical_iff]

theorem State.dropGalley_canonical {s : State} (sC : s.Canonical) (i) : (State.dropGalley s i).Canonical := by
  grind [State.dropGalley, State.canonical_iff]

theorem State.dropCommand_canonical {s : State} (sC : s.Canonical) (i) : (State.dropCommand s i).Canonical := by
  grind [State.dropCommand, State.canonical_iff]

theorem State.fresh_canonical {s : State} (sC : s.Canonical) : (State.fresh s).2.Canonical := by
  grind [State.fresh, State.canonical_iff]

theorem State.choose_canonical {s : State} (sC : s.Canonical) (n) : (State.choose s n).2.Canonical := by
  grind [State.choose, State.canonical_iff]

theorem State.sendMsi_canonical {s : State} (sC : s.Canonical) (fn vec) : (State.sendMsi s fn vec).Canonical := by
  grind [State.sendMsi, State.canonical_iff]

theorem State.setGroup_canonical {s : State} (sC : s.Canonical) (launch j x) : (State.setGroup s launch j x).Canonical := by
  have := @State.setLaunch_canonical
  grind [State.setGroup]

end Sys2Proof.Machine
end

section
/-! The operations of `Machine/Slices.lean` keep the memories canonical. -/

namespace Sys2Proof.Machine

open Sys2Proof

theorem writeElems_canonical {m : Memory} (mC : m.wf = true) (line fmt a) : (writeElems m line fmt a).wf = true := by
  fun_induction writeElems m line fmt a <;> grind [Memory.wf_writeNat, Core.wf_iff, State.canonical_iff]

theorem State.completeSpill_canonical {s : State} (sC : s.Canonical) (i) : (State.completeSpill s i).Canonical := by
  have := @State.setSlice_canonical
  grind [State.completeSpill, Memory.wf_writeBytes, State.canonical_iff]

theorem State.finalizeLine_canonical {s : State} (sC : s.Canonical) (pa) : (State.finalizeLine s pa).Canonical := by
  have := @State.completeSpill_canonical
  have := @State.setSlice_canonical
  have := @writeElems_canonical
  grind [State.finalizeLine, State.canonical_iff]

theorem State.finalizeSpan_canonical {s : State} (sC : s.Canonical) (pa n) : (State.finalizeSpan s pa n).Canonical := by
  have := @State.finalizeLine_canonical
  grind [State.finalizeSpan, foldl_canonical]

theorem State.memOf_canonical {s : State} (sC : s.Canonical) (tgt) : (State.memOf s tgt).wf = true := by
  grind [State.memOf, State.canonical_iff]

theorem State.setMemOf_canonical {s : State} {m : Memory} (sC : s.Canonical) (mC : m.wf = true) (tgt) :
    (State.setMemOf s tgt m).Canonical := by
  grind [State.setMemOf, State.canonical_iff]

theorem State.finalizePeer_canonical {s : State} (sC : s.Canonical) (pa n) : (State.finalizePeer s pa n).Canonical := by
  have := @writeElems_canonical
  grind [State.finalizePeer, State.canonical_iff, foldl_canonical, foldl_wf, foldl_core]

theorem State.finalizeAt_canonical {s : State} (sC : s.Canonical) (t n) : (State.finalizeAt s t n).Canonical := by
  have := @State.finalizeSpan_canonical
  have := @State.finalizePeer_canonical
  grind [State.finalizeAt]

theorem State.readPhys_canonical {s : State} (sC : s.Canonical) (t n) : (State.readPhys s t n).2.Canonical := by
  have := @State.finalizeAt_canonical
  have := @State.memOf_canonical
  grind [State.readPhys]

theorem State.writePhys_canonical {s : State} (sC : s.Canonical) (t bs) : (State.writePhys s t bs).Canonical := by
  have := @State.finalizeAt_canonical
  have := @State.setMemOf_canonical
  have := @State.memOf_canonical
  grind [State.writePhys, Memory.wf_writeBytes]

theorem State.readFor_canonical {s : State} (sC : s.Canonical) (me t n) : (State.readFor s me t n).2.Canonical :=
  State.readPhys_canonical sC ..

theorem l1Drop_canonical {s : State} (sC : s.Canonical) (core t n) : (l1Drop s core t n).Canonical := by
  have := @State.setCore_canonical
  grind [l1Drop, State.core_canonical, Core.wf_iff]

theorem State.readPhysNat_canonical {s : State} (sC : s.Canonical) (t n) : (State.readPhysNat s t n).2.Canonical :=
  State.readPhys_canonical sC ..

theorem State.landed_canonical {s : State} (sC : s.Canonical) (t) : (State.landed s t).Canonical := by
  have := @State.memOf_canonical
  grind [State.landed, State.canonical_iff]

theorem State.atomicAt_canonical {s : State} (sC : s.Canonical) (t aop rm signed ftz v c) :
    (State.atomicAt s t aop rm signed ftz v c).2.Canonical := by
  have := @State.readPhysNat_canonical
  have := @State.setMemOf_canonical
  have := @State.memOf_canonical
  grind [State.atomicAt, Memory.wf_writeNat]

theorem State.atomicSeen_canonical {s : State} (sC : s.Canonical) (t aop rm signed ftz v c) :
    (State.atomicSeen s t aop rm signed ftz v c).2.Canonical := by
  have := @State.atomicAt_canonical
  have := @State.landed_canonical
  grind [State.atomicSeen]

theorem State.addCounter_canonical {s : State} (sC : s.Canonical) (t inc) : (State.addCounter s t inc).Canonical :=
  State.atomicSeen_canonical sC ..

end Sys2Proof.Machine
end

section
/-! The operations of `Machine/Translate.lean` keep the memories canonical. -/

namespace Sys2Proof.Machine

open Sys2Proof

theorem readPte_canonical {s : State} (sC : s.Canonical) (t pa) : (readPte s t pa).2.Canonical := by
  have := @State.readFor_canonical
  grind [readPte]

theorem largeEqual_canonical {x2 : State} (x2C : x2.Canonical) (t tbl v a x1) : (largeEqual t tbl v a x1 x2).2.Canonical := by
  have := @readPte_canonical
  fun_induction largeEqual t tbl v a x1 x2 <;> grind

theorem leafOut_canonical {s : State} (sC : s.Canonical) (t k va tbl i n size v) : (leafOut s t k va tbl i n size v).2.Canonical := by
  have := @largeEqual_canonical
  grind [leafOut]

theorem walkFrom_canonical {x2 : State} (x2C : x2.Canonical) (t k va a x1) : (walkFrom t k va a x1 x2).2.Canonical := by
  have := @readPte_canonical
  have := @leafOut_canonical
  fun_induction walkFrom t k va a x1 x2 <;> grind

theorem walkVia_canonical {s : State} (sC : s.Canonical) (cl t k va) : (walkVia s cl t k va).2.Canonical := by
  have := @State.choose_canonical
  have := @walkFrom_canonical
  have := @State.setCluster_canonical
  grind [walkVia]

theorem walk_canonical {s : State} (sC : s.Canonical) (t k va) : (walk s t k va).2.Canonical :=
  walkFrom_canonical sC ..

theorem translateNow_canonical {s : State} (sC : s.Canonical) (t k va n a) : (translateNow s t k va n a).2.Canonical := by
  have := @walk_canonical
  grind [translateNow]

theorem fbRecord_canonical {s : State} (sC : s.Canonical) (t d e) : (fbRecord s t d e).2.Canonical := by
  have := @State.sendMsi_canonical
  have := @State.setTenant_canonical
  grind [fbRecord, State.canonical_iff]

theorem fbJoin_canonical {s : State} (sC : s.Canonical) (t d i n) : (fbJoin s t d i n).Canonical :=
  State.setTenant_canonical sC ..

theorem serviceFault_canonical {s : State} (sC : s.Canonical) (cl t k va access ft who) :
    (serviceFault s cl t k va access ft who).Canonical := by
  have := @fbJoin_canonical
  have := @State.fresh_canonical
  have := @fbRecord_canonical
  grind [serviceFault, State.canonical_iff]

theorem poolFind_canonical {s : State} (sC : s.Canonical) (map pages a x1) : (poolFind s map pages a x1).2.Canonical := by
  have := @State.readFor_canonical
  fun_induction poolFind s map pages a x1 <;> grind

theorem poolBit_canonical {s : State} (sC : s.Canonical) (map i v) : (poolBit s map i v).Canonical := by
  have := @State.atomicAt_canonical
  grind [poolBit]

end Sys2Proof.Machine
end

section
/-! The operations of `Machine/Ops.lean` keep the memories canonical. -/

namespace Sys2Proof.Machine

open Sys2Proof

theorem undoRecord_canonical {s : State} (sC : s.Canonical) (rec) : (undoRecord s rec).Canonical := by
  have := @State.readPhys_canonical
  have := @State.writePhys_canonical
  grind [undoRecord]

theorem undoAll_canonical {s : State} (sC : s.Canonical) : (undoAll s).Canonical := by
  have := @undoRecord_canonical
  have := @State.writePhys_canonical
  grind [undoAll, State.canonical_iff, foldl_canonical]

theorem countEvent_canonical {s : State} (sC : s.Canonical) (c event n) : (countEvent s c event n).Canonical := by
  have := @State.setCore_canonical
  grind [countEvent, State.core_canonical, Core.wf_iff]

theorem putAborted_canonical {s : State} (sC : s.Canonical) (launch j x) : (putAborted s launch j x).Canonical := by
  have := @State.setGroup_canonical
  have := @countEvent_canonical
  grind [putAborted]

theorem abortLanes_canonical {s : State} (sC : s.Canonical) (launch j lanes cause) : (abortLanes s launch j lanes cause).Canonical := by
  have := @putAborted_canonical
  have := @undoAll_canonical
  grind [abortLanes]

theorem State.ownLater_canonical {s : State} (sC : s.Canonical) : (State.ownLater s).Canonical := by
  grind [State.ownLater, State.canonical_iff]

theorem releaseSerial_canonical {s : State} (sC : s.Canonical) (launch j) : (releaseSerial s launch j).Canonical := by
  have := @l1Drop_canonical
  have := @State.ownLater_canonical
  grind [releaseSerial, State.canonical_iff, foldl_canonical]

theorem closeTx_canonical {s : State} (sC : s.Canonical) (launch j) : (closeTx s launch j).Canonical := by
  have := @releaseSerial_canonical
  have := @State.setGroup_canonical
  grind [closeTx]

theorem stopRelayouts_canonical {s : State} (sC : s.Canonical) (t k) : (stopRelayouts s t k).Canonical := by
  grind [stopRelayouts, State.canonical_iff]

theorem enterFatal_canonical {s : State} (sC : s.Canonical) (t k cause detail w) : (enterFatal s t k cause detail w).Canonical := by
  have := @State.setCtx_canonical
  have := @State.setQueue_canonical
  have := @stopRelayouts_canonical
  grind [enterFatal, foldl_canonical]

theorem faultTx_canonical {s : State} (sC : s.Canonical) (launch j lanes) : (faultTx s launch j lanes).Canonical := by
  have := @abortLanes_canonical
  have := @releaseSerial_canonical
  grind [faultTx]

theorem takeFault_canonical {s : State} (sC : s.Canonical) (g l th c lane sub faddr) : (takeFault s g l th c lane sub faddr).Canonical := by
  have := @faultTx_canonical
  have := @State.setGalley_canonical
  have := @enterFatal_canonical
  grind [takeFault]

theorem asyncFault_canonical {s : State} (sC : s.Canonical) (t k l core c faddr) : (asyncFault s t k l core c faddr).Canonical :=
  enterFatal_canonical sC ..

theorem codeIntegrity_canonical {s : State} (sC : s.Canonical) (t k inst page w) : (codeIntegrity s t k inst page w).Canonical := by
  have := @State.setCtx_canonical
  have := @enterFatal_canonical
  grind [codeIntegrity, State.canonical_iff]

theorem finalizeCtx_canonical {s : State} (sC : s.Canonical) (t k) : (finalizeCtx s t k).Canonical := by
  have := @State.finalizeLine_canonical
  grind [finalizeCtx, foldl_canonical]

theorem discardExact_canonical {s : State} (sC : s.Canonical) (t) : (discardExact s t).Canonical := by
  grind [discardExact, State.canonical_iff]

theorem Core.drop_canonical {x : Core} (xC : x.Wf) (mine) : (Core.drop x mine).Wf := by
  grind [Core.drop, Core.wf_iff]

theorem dropWork_canonical {s : State} (sC : s.Canonical) (t k) : (dropWork s t k).Canonical := by
  obtain ⟨hm, hh, hp, hc, hb⟩ := (State.canonical_iff s).mp sC
  refine (State.canonical_iff _).mpr ⟨hm, hh, hp, fun p hp => ?_, hb⟩
  obtain ⟨x, hx, rfl⟩ := List.mem_map.mp hp
  exact Core.drop_canonical (hc x hx) _

theorem contextReset_canonical {s : State} (sC : s.Canonical) (t k) : (contextReset s t k).Canonical := by
  unfold contextReset
  extract_lets s₁ s₂ s₃ s₄ s₅ s₆ s₇ s₈ c
  have h₁ : s₁.Canonical := by
    unfold s₁
    split
    · split
      · exact undoAll_canonical sC
      · exact sC
    · exact sC
  have h₂ : s₂.Canonical := finalizeCtx_canonical h₁ t k
  clear_value s₂
  have h₃ : s₃.Canonical := h₂.beside rfl rfl rfl rfl rfl
  clear_value s₃
  have h₄ : s₄.Canonical := foldl_canonical h₃ (fun u q uC => State.setQueue_canonical uC q _) _
  have h₅ : s₅.Canonical := dropWork_canonical h₄ t k
  have h₆ : s₆.Canonical := by
    unfold s₆
    split
    · exact State.ownLater_canonical h₅
    · exact h₅
  have h₇ : s₇.Canonical := stopRelayouts_canonical h₆ t k
  clear_value s₇
  have h₈ : s₈.Canonical := h₇.beside rfl rfl rfl rfl rfl
  exact State.setCtx_canonical h₈ t k _

end Sys2Proof.Machine
end

section
/-! The operations of `Machine/Operands.lean` keep the memories canonical. -/

namespace Sys2Proof.Machine

open Sys2Proof

theorem onUnit_canonical {s : State} {f} (sC : s.Canonical) (fC : ∀ a0, (f a0).Canonical) : NextCanonical (onUnit s f) := by
  grind [onUnit, nextCanonical_next]

theorem Exe.put_canonical {s : State} (sC : s.Canonical) (e th) : (Exe.put e s th).Canonical := by
  have := @State.setGalley_canonical
  grind [Exe.put]

theorem Exe.park_canonical {s : State} (sC : s.Canonical) (e w) : (Exe.park e s w).Canonical :=
  Exe.put_canonical sC ..

theorem Exe.fault_canonical {s : State} (sC : s.Canonical) (e c lane faddr sub) : (Exe.fault e s c lane faddr sub).Canonical :=
  takeFault_canonical sC ..

theorem Exe.faultAll_canonical {s : State} (sC : s.Canonical) (e c faddr) : (Exe.faultAll e s c faddr).Canonical :=
  Exe.fault_canonical sC ..

theorem Exe.nativeIssue_canonical {s : State} (sC : s.Canonical) (e n queue tokens reads held) :
    (Exe.nativeIssue e s n queue tokens reads held).Canonical := by
  have := @Exe.faultAll_canonical
  have := @Exe.put_canonical
  grind [Exe.nativeIssue]

theorem Exe.define_canonical {s : State} (sC : s.Canonical) (e w vs) : (Exe.define e s w vs).Canonical := by
  have := @Exe.nativeIssue_canonical
  have := @Exe.put_canonical
  grind [Exe.define]

theorem Exe.done_canonical {s : State} (sC : s.Canonical) (e w) : (Exe.done e s w).Canonical :=
  Exe.define_canonical sC ..

theorem unfold_canonical {s : State} (sC : s.Canonical) (l g core) : (unfold s l g core).Canonical := by
  unfold unfold
  have := @State.setGalley_canonical
  grind [State.canonical_iff]

theorem Exe.unfold_canonical {s : State} (sC : s.Canonical) (e) : (Exe.unfold e s).Canonical := by
  have := @Exe.park_canonical
  have := @Machine.unfold_canonical
  grind [Exe.unfold]

theorem Exe.lanewise_canonical {s : State} (sC : s.Canonical) (e w tys xs fs) : (Exe.lanewise e s w tys xs fs).Canonical := by
  have := @Exe.define_canonical
  have := @Exe.unfold_canonical
  grind [Exe.lanewise]

theorem Exe.affineOr_canonical {s : State} (sC : s.Canonical) (e w ty xs v f) : (Exe.affineOr e s w ty xs v f).Canonical := by
  unfold Exe.affineOr
  have := @Exe.define_canonical
  have := @Exe.lanewise_canonical
  grind

theorem Exe.leafOnly_canonical {s : State} {f : State} (sC : s.Canonical) (fC : f.Canonical) (e) : (Exe.leafOnly e s f).Canonical := by
  have := @Exe.unfold_canonical
  grind [Exe.leafOnly]

end Sys2Proof.Machine
end

section
/-! The operations of `Machine/Integer.lean` keep the memories canonical. -/

namespace Sys2Proof.Machine

open Sys2Proof

theorem unary_canonical {s : State} (sC : s.Canonical) (w f) : NextCanonical (unary w f s) := by
  have := @onUnit_canonical
  have := @Exe.lanewise_canonical
  grind [unary]

theorem binary_canonical {s : State} (sC : s.Canonical) (w f) : NextCanonical (binary w f s) := by
  have := @onUnit_canonical
  have := @Exe.lanewise_canonical
  grind [binary]

theorem ternary_canonical {s : State} (sC : s.Canonical) (w f) : NextCanonical (ternary w f s) := by
  have := @onUnit_canonical
  have := @Exe.lanewise_canonical
  grind [ternary]

theorem uniform_canonical {s : State} (sC : s.Canonical) (w f) : NextCanonical (uniform w f s) := by
  have := @onUnit_canonical
  have := @Exe.define_canonical
  grind [uniform]

theorem execItemidx_canonical {s : State} (sC : s.Canonical) (w) : NextCanonical (execItemidx w s) := by
  have := @onUnit_canonical
  have := @Exe.define_canonical
  grind [execItemidx]

theorem execCoord_canonical {s : State} (sC : s.Canonical) (w) : NextCanonical (execCoord w s) := by
  have := @onUnit_canonical
  have := @Exe.define_canonical
  have := @Exe.unfold_canonical
  grind [execCoord]

theorem execLaneid_canonical {s : State} (sC : s.Canonical) (w) : NextCanonical (execLaneid w s) := by
  have := @onUnit_canonical
  have := @Exe.leafOnly_canonical
  have := @Exe.define_canonical
  grind [execLaneid]

theorem execGroupid_canonical {s : State} (sC : s.Canonical) (w) : NextCanonical (execGroupid w s) := by
  have := @onUnit_canonical
  have := @Exe.leafOnly_canonical
  have := @Exe.define_canonical
  grind [execGroupid]

theorem execGwidth_canonical {s : State} (sC : s.Canonical) (w) : NextCanonical (execGwidth w s) :=
  uniform_canonical sC ..

theorem execNitems_canonical {s : State} (sC : s.Canonical) (w) : NextCanonical (execNitems w s) :=
  uniform_canonical sC ..

theorem execDimext_canonical {s : State} (sC : s.Canonical) (w) : NextCanonical (execDimext w s) :=
  uniform_canonical sC ..

theorem execDomid_canonical {s : State} (sC : s.Canonical) (w) : NextCanonical (execDomid w s) :=
  uniform_canonical sC ..

theorem execDomsize_canonical {s : State} (sC : s.Canonical) (w) : NextCanonical (execDomsize w s) :=
  uniform_canonical sC ..

theorem execCoreid_canonical {s : State} (sC : s.Canonical) (w) : NextCanonical (execCoreid w s) :=
  uniform_canonical sC ..

theorem execClusterid_canonical {s : State} (sC : s.Canonical) (w) : NextCanonical (execClusterid w s) :=
  uniform_canonical sC ..

theorem execDieid_canonical {s : State} (sC : s.Canonical) (w) : NextCanonical (execDieid w s) :=
  uniform_canonical sC ..

theorem execLaunchid_canonical {s : State} (sC : s.Canonical) (w) : NextCanonical (execLaunchid w s) :=
  uniform_canonical sC ..

theorem execActmask_canonical {s : State} (sC : s.Canonical) (w) : NextCanonical (execActmask w s) := by
  have := @onUnit_canonical
  have := @Exe.leafOnly_canonical
  have := @Exe.define_canonical
  grind [execActmask]

theorem intForm_canonical {s : State} (sC : s.Canonical) (w xs f aff) : NextCanonical (intForm w xs f aff s) := by
  have := @onUnit_canonical
  have := @Exe.affineOr_canonical
  grind [intForm]

theorem execAdd_canonical {s : State} (sC : s.Canonical) (w) : NextCanonical (execAdd w s) :=
  intForm_canonical sC ..

theorem execSub_canonical {s : State} (sC : s.Canonical) (w) : NextCanonical (execSub w s) :=
  intForm_canonical sC ..

theorem execMul_canonical {s : State} (sC : s.Canonical) (w) : NextCanonical (execMul w s) := by
  have := @onUnit_canonical
  have := @Exe.affineOr_canonical
  grind [execMul]

theorem execMulhi_canonical {s : State} (sC : s.Canonical) (w) : NextCanonical (execMulhi w s) :=
  binary_canonical sC ..

theorem execMad_canonical {s : State} (sC : s.Canonical) (w) : NextCanonical (execMad w s) :=
  ternary_canonical sC ..

theorem execNeg_canonical {s : State} (sC : s.Canonical) (w) : NextCanonical (execNeg w s) :=
  intForm_canonical sC ..

theorem execAbs_canonical {s : State} (sC : s.Canonical) (w) : NextCanonical (execAbs w s) :=
  unary_canonical sC ..

theorem execDiv_canonical {s : State} (sC : s.Canonical) (w) : NextCanonical (execDiv w s) :=
  binary_canonical sC ..

theorem execRem_canonical {s : State} (sC : s.Canonical) (w) : NextCanonical (execRem w s) :=
  binary_canonical sC ..

theorem execMin_canonical {s : State} (sC : s.Canonical) (w) : NextCanonical (execMin w s) :=
  binary_canonical sC ..

theorem execMax_canonical {s : State} (sC : s.Canonical) (w) : NextCanonical (execMax w s) :=
  binary_canonical sC ..

theorem execClamp_canonical {s : State} (sC : s.Canonical) (w) : NextCanonical (execClamp w s) :=
  ternary_canonical sC ..

theorem execAdiff_canonical {s : State} (sC : s.Canonical) (w) : NextCanonical (execAdiff w s) :=
  binary_canonical sC ..

theorem execAddc_canonical {s : State} (sC : s.Canonical) (w) : NextCanonical (execAddc w s) := by
  have := @onUnit_canonical
  have := @Exe.lanewise_canonical
  grind [execAddc]

theorem execSubb_canonical {s : State} (sC : s.Canonical) (w) : NextCanonical (execSubb w s) := by
  have := @onUnit_canonical
  have := @Exe.lanewise_canonical
  grind [execSubb]

theorem execAnd_canonical {s : State} (sC : s.Canonical) (w) : NextCanonical (execAnd w s) :=
  binary_canonical sC ..

theorem execOr_canonical {s : State} (sC : s.Canonical) (w) : NextCanonical (execOr w s) :=
  binary_canonical sC ..

theorem execXor_canonical {s : State} (sC : s.Canonical) (w) : NextCanonical (execXor w s) :=
  binary_canonical sC ..

theorem execNot_canonical {s : State} (sC : s.Canonical) (w) : NextCanonical (execNot w s) := by
  have := @onUnit_canonical
  have := @Exe.affineOr_canonical
  grind [execNot]

theorem execBfn3_canonical {s : State} (sC : s.Canonical) (w l) : NextCanonical (execBfn3 w l s) :=
  ternary_canonical sC ..

theorem shiftForm_canonical {s : State} (sC : s.Canonical) (w f) : NextCanonical (shiftForm w f s) := by
  have := @onUnit_canonical
  have := @Exe.lanewise_canonical
  grind [shiftForm]

theorem execShl_canonical {s : State} (sC : s.Canonical) (w) : NextCanonical (execShl w s) := by
  have := @onUnit_canonical
  have := @Exe.affineOr_canonical
  grind [execShl]

theorem execShr_canonical {s : State} (sC : s.Canonical) (w) : NextCanonical (execShr w s) :=
  shiftForm_canonical sC ..

theorem execSra_canonical {s : State} (sC : s.Canonical) (w) : NextCanonical (execSra w s) :=
  shiftForm_canonical sC ..

theorem execRotl_canonical {s : State} (sC : s.Canonical) (w) : NextCanonical (execRotl w s) :=
  shiftForm_canonical sC ..

theorem execBfe_canonical {s : State} (sC : s.Canonical) (w) : NextCanonical (execBfe w s) := by
  have := @onUnit_canonical
  have := @Exe.lanewise_canonical
  grind [execBfe]

theorem execBfi_canonical {s : State} (sC : s.Canonical) (w x) : NextCanonical (execBfi w x s) := by
  have := @onUnit_canonical
  have := @Exe.lanewise_canonical
  grind [execBfi]

theorem execClz_canonical {s : State} (sC : s.Canonical) (w) : NextCanonical (execClz w s) :=
  unary_canonical sC ..

theorem execCtz_canonical {s : State} (sC : s.Canonical) (w) : NextCanonical (execCtz w s) :=
  unary_canonical sC ..

theorem execBcnt_canonical {s : State} (sC : s.Canonical) (w) : NextCanonical (execBcnt w s) :=
  unary_canonical sC ..

theorem execBrev_canonical {s : State} (sC : s.Canonical) (w) : NextCanonical (execBrev w s) :=
  unary_canonical sC ..

theorem execBswap_canonical {s : State} (sC : s.Canonical) (w) : NextCanonical (execBswap w s) :=
  unary_canonical sC ..

theorem execCmp_canonical {s : State} (sC : s.Canonical) (w) : NextCanonical (execCmp w s) := by
  have := @onUnit_canonical
  have := @Exe.lanewise_canonical
  have := @Exe.define_canonical
  grind [execCmp]

theorem execSel_canonical {s : State} (sC : s.Canonical) (w) : NextCanonical (execSel w s) := by
  have := @onUnit_canonical
  have := @Exe.lanewise_canonical
  have := @Exe.define_canonical
  grind [execSel]

theorem execCvti_canonical {s : State} (sC : s.Canonical) (w) : NextCanonical (execCvti w s) := by
  have := @onUnit_canonical
  have := @Exe.affineOr_canonical
  grind [execCvti]

theorem execLea_canonical {s : State} (sC : s.Canonical) (w) : NextCanonical (execLea w s) := by
  have := @onUnit_canonical
  have := @Exe.lanewise_canonical
  grind [execLea]

theorem execMov_canonical {s : State} (sC : s.Canonical) (w) : NextCanonical (execMov w s) := by
  have := @onUnit_canonical
  have := @Exe.define_canonical
  grind [execMov]

end Sys2Proof.Machine
end

section
/-! The operations of `Machine/Float.lean` keep the memories canonical. -/

namespace Sys2Proof.Machine

open Sys2Proof

theorem floatForm_canonical {s : State} (sC : s.Canonical) (w ops f) : NextCanonical (floatForm w ops f s) := by
  have := @onUnit_canonical
  have := @Exe.lanewise_canonical
  grind [floatForm]

theorem float1_canonical {s : State} (sC : s.Canonical) (w f) : NextCanonical (float1 w f s) :=
  floatForm_canonical sC ..

theorem float2_canonical {s : State} (sC : s.Canonical) (w f) : NextCanonical (float2 w f s) :=
  floatForm_canonical sC ..

theorem execFadd_canonical {s : State} (sC : s.Canonical) (w) : NextCanonical (execFadd w s) :=
  float2_canonical sC ..

theorem execFsub_canonical {s : State} (sC : s.Canonical) (w) : NextCanonical (execFsub w s) :=
  float2_canonical sC ..

theorem execFmul_canonical {s : State} (sC : s.Canonical) (w) : NextCanonical (execFmul w s) :=
  float2_canonical sC ..

theorem execFdiv_canonical {s : State} (sC : s.Canonical) (w) : NextCanonical (execFdiv w s) :=
  float2_canonical sC ..

theorem execFma_canonical {s : State} (sC : s.Canonical) (w) : NextCanonical (execFma w s) :=
  floatForm_canonical sC ..

theorem execSqrt_canonical {s : State} (sC : s.Canonical) (w) : NextCanonical (execSqrt w s) :=
  float1_canonical sC ..

theorem execRcp_canonical {s : State} (sC : s.Canonical) (w) : NextCanonical (execRcp w s) :=
  float1_canonical sC ..

theorem execRsqrt_canonical {s : State} (sC : s.Canonical) (w) : NextCanonical (execRsqrt w s) :=
  float1_canonical sC ..

theorem execExp2_canonical {s : State} (sC : s.Canonical) (w) : NextCanonical (execExp2 w s) :=
  float1_canonical sC ..

theorem execLog2_canonical {s : State} (sC : s.Canonical) (w) : NextCanonical (execLog2 w s) :=
  float1_canonical sC ..

theorem execSin_canonical {s : State} (sC : s.Canonical) (w) : NextCanonical (execSin w s) :=
  float1_canonical sC ..

theorem execCos_canonical {s : State} (sC : s.Canonical) (w) : NextCanonical (execCos w s) :=
  float1_canonical sC ..

theorem execLdexp_canonical {s : State} (sC : s.Canonical) (w) : NextCanonical (execLdexp w s) := by
  have := @onUnit_canonical
  have := @Exe.lanewise_canonical
  grind [execLdexp]

theorem execFrexp_canonical {s : State} (sC : s.Canonical) (w) : NextCanonical (execFrexp w s) := by
  have := @onUnit_canonical
  have := @Exe.lanewise_canonical
  grind [execFrexp]

theorem execFrnd_canonical {s : State} (sC : s.Canonical) (w) : NextCanonical (execFrnd w s) :=
  float1_canonical sC ..

theorem execFmin_canonical {s : State} (sC : s.Canonical) (w) : NextCanonical (execFmin w s) := by
  have := @onUnit_canonical
  have := @Exe.lanewise_canonical
  grind [execFmin]

theorem execFmax_canonical {s : State} (sC : s.Canonical) (w) : NextCanonical (execFmax w s) := by
  have := @onUnit_canonical
  have := @Exe.lanewise_canonical
  grind [execFmax]

theorem execFclamp_canonical {s : State} (sC : s.Canonical) (w) : NextCanonical (execFclamp w s) :=
  ternary_canonical sC ..

theorem execFabs_canonical {s : State} (sC : s.Canonical) (w) : NextCanonical (execFabs w s) :=
  unary_canonical sC ..

theorem execFneg_canonical {s : State} (sC : s.Canonical) (w) : NextCanonical (execFneg w s) :=
  unary_canonical sC ..

theorem execFsgn_canonical {s : State} (sC : s.Canonical) (w) : NextCanonical (execFsgn w s) :=
  binary_canonical sC ..

theorem execFcmp_canonical {s : State} (sC : s.Canonical) (w) : NextCanonical (execFcmp w s) := by
  have := @onUnit_canonical
  have := @Exe.lanewise_canonical
  grind [execFcmp]

theorem execFclass_canonical {s : State} (sC : s.Canonical) (w) : NextCanonical (execFclass w s) := by
  have := @onUnit_canonical
  have := @Exe.lanewise_canonical
  grind [execFclass]

theorem execCvt_canonical {s : State} (sC : s.Canonical) (w) : NextCanonical (execCvt w s) := by
  have := @onUnit_canonical
  have := @Exe.lanewise_canonical
  grind [execCvt]

theorem execCvtef_canonical {s : State} (sC : s.Canonical) (w) : NextCanonical (execCvtef w s) := by
  have := @onUnit_canonical
  have := @Exe.lanewise_canonical
  grind [execCvtef]

end Sys2Proof.Machine
end

section
/-! The operations of `Machine/Vector.lean` keep the memories canonical. -/

namespace Sys2Proof.Machine

open Sys2Proof

theorem shuffle_canonical {s : State} (sC : s.Canonical) (w src) : NextCanonical (shuffle w src s) := by
  have := @onUnit_canonical
  have := @Exe.leafOnly_canonical
  have := @Exe.define_canonical
  grind [shuffle]

theorem execShfl_canonical {s : State} (sC : s.Canonical) (w) : NextCanonical (execShfl w s) :=
  shuffle_canonical sC ..

theorem execShflx_canonical {s : State} (sC : s.Canonical) (w) : NextCanonical (execShflx w s) :=
  shuffle_canonical sC ..

theorem execShfld_canonical {s : State} (sC : s.Canonical) (w) : NextCanonical (execShfld w s) :=
  shuffle_canonical sC ..

theorem execShflu_canonical {s : State} (sC : s.Canonical) (w) : NextCanonical (execShflu w s) :=
  shuffle_canonical sC ..

theorem execBcast_canonical {s : State} (sC : s.Canonical) (w) : NextCanonical (execBcast w s) := by
  have := @onUnit_canonical
  have := @Exe.leafOnly_canonical
  have := @Exe.define_canonical
  grind [execBcast]

theorem execBallot_canonical {s : State} (sC : s.Canonical) (w) : NextCanonical (execBallot w s) := by
  have := @onUnit_canonical
  have := @Exe.leafOnly_canonical
  have := @Exe.define_canonical
  grind [execBallot]

theorem execElect_canonical {s : State} (sC : s.Canonical) (w) : NextCanonical (execElect w s) := by
  have := @onUnit_canonical
  have := @Exe.leafOnly_canonical
  have := @Exe.define_canonical
  grind [execElect]

theorem execPopc_canonical {s : State} (sC : s.Canonical) (w) : NextCanonical (execPopc w s) := by
  have := @onUnit_canonical
  have := @Exe.lanewise_canonical
  grind [execPopc]

theorem reduce_canonical {s : State} (sC : s.Canonical) (w f) : NextCanonical (reduce w f s) := by
  have := @onUnit_canonical
  have := @Exe.leafOnly_canonical
  have := @Exe.define_canonical
  grind [reduce]

theorem execRedadd_canonical {s : State} (sC : s.Canonical) (w) : NextCanonical (execRedadd w s) :=
  reduce_canonical sC ..

theorem execRedmin_canonical {s : State} (sC : s.Canonical) (w) : NextCanonical (execRedmin w s) :=
  reduce_canonical sC ..

theorem execRedmax_canonical {s : State} (sC : s.Canonical) (w) : NextCanonical (execRedmax w s) :=
  reduce_canonical sC ..

theorem execRedand_canonical {s : State} (sC : s.Canonical) (w) : NextCanonical (execRedand w s) :=
  reduce_canonical sC ..

theorem execRedor_canonical {s : State} (sC : s.Canonical) (w) : NextCanonical (execRedor w s) :=
  reduce_canonical sC ..

theorem execSprs_canonical {s : State} (sC : s.Canonical) (w) : NextCanonical (execSprs w s) := by
  have := @onUnit_canonical
  have := @Exe.lanewise_canonical
  grind [execSprs]

theorem execRndk_canonical {s : State} (sC : s.Canonical) (w) : NextCanonical (execRndk w s) := by
  have := @onUnit_canonical
  have := @Exe.lanewise_canonical
  grind [execRndk]

end Sys2Proof.Machine
end


section
/-! The operations of `Machine/Packed.lean` keep the memories canonical. -/

namespace Sys2Proof.Machine

open Sys2Proof

theorem dotForm_canonical {s : State} (sC : s.Canonical) (w b m) : NextCanonical (dotForm w b m s) := by
  have := @onUnit_canonical
  have := @Exe.lanewise_canonical
  grind [dotForm]

theorem execDp4_canonical {s : State} (sC : s.Canonical) (w) : NextCanonical (execDp4 w s) :=
  dotForm_canonical sC ..

theorem execDp8_canonical {s : State} (sC : s.Canonical) (w) : NextCanonical (execDp8 w s) :=
  dotForm_canonical sC ..

theorem execDp2_canonical {s : State} (sC : s.Canonical) (w) : NextCanonical (execDp2 w s) := by
  have := @onUnit_canonical
  have := @Exe.lanewise_canonical
  grind [execDp2]

theorem execPack_canonical {s : State} (sC : s.Canonical) (w) : NextCanonical (execPack w s) := by
  have := @onUnit_canonical
  have := @Exe.lanewise_canonical
  grind [execPack]

theorem execUnpack_canonical {s : State} (sC : s.Canonical) (w) : NextCanonical (execUnpack w s) := by
  have := @onUnit_canonical
  have := @Exe.lanewise_canonical
  grind [execUnpack]

end Sys2Proof.Machine
end

section
/-! The operations of `Machine/Text.lean` keep the memories canonical. -/

namespace Sys2Proof.Machine

open Sys2Proof

theorem State.addShadow_canonical {s : State} (sC : s.Canonical) (t k inst p bs) : (State.addShadow s t k inst p bs).Canonical :=
  State.setCtx_canonical sC ..

theorem fetchPage_canonical {s : State} (sC : s.Canonical) (t k inst p) : (fetchPage s t k inst p).2.Canonical := by
  have := @walk_canonical
  have := @State.readPhys_canonical
  have := @State.addShadow_canonical
  grind [fetchPage]

end Sys2Proof.Machine
end

section
/-! The operations of `Machine/Bodies.lean` keep the memories canonical. -/

namespace Sys2Proof.Machine

open Sys2Proof

theorem countXlat_canonical {s : State} (sC : s.Canonical) (cl i n) : (countXlat s cl i n).Canonical :=
  State.setCluster_canonical sC ..

theorem restoreDesc_canonical {ns} (nsC : ns.2.wf = true) (multi j g v d) : (restoreDesc multi j g v ns d).2.wf = true := by
  grind [restoreDesc, Memory.wf_writeNat, foldl_canonical, foldl_wf, foldl_core]

theorem enterBody_canonical {spad : Memory} (spadC : spad.wf = true) (l core slot multi first key th c) :
    (enterBody l core slot multi first key th c spad).2.wf = true := by
  have hdescs (v : ConcVal) (ds : List Nat) : ∀ ns : NativeRun × Memory, ns.2.wf = true →
      (ds.foldl (restoreDesc multi first l.g (th.live v)) ns).2.wf = true := by
    induction ds with
    | nil => exact fun _ h => h
    | cons d ds ih => exact fun ns h => ih _ (restoreDesc_canonical h ..)
  have hvals (vs : List ConcVal) : ∀ ns : NativeRun × Memory, ns.2.wf = true →
      (vs.foldl (fun ns v => v.descs.foldl (restoreDesc multi first l.g (th.live v)) ns) ns).2.wf = true := by
    induction vs with
    | nil => exact fun _ h => h
    | cons v vs ih => exact fun ns h => ih _ (hdescs v v.descs ns h)
  exact hvals _ _ spadC

theorem putThread_canonical {s : State} (sC : s.Canonical) (u th) : (putThread s u th).Canonical := by
  have := @State.setGalley_canonical
  grind [putThread]

theorem cacheBody_canonical {s : State} (sC : s.Canonical) (cl x sh) : (cacheBody s cl x sh).Canonical := by
  have := @State.setCluster_canonical
  have := @countXlat_canonical
  grind [cacheBody]

theorem touchBody_canonical {s : State} (sC : s.Canonical) (x sh) : (touchBody s x sh).Canonical := by
  grind [touchBody, State.canonical_iff]

theorem takeBody_canonical {s : State} (sC : s.Canonical) (u x sh) : (takeBody s u x sh).Canonical := by
  unfold takeBody
  have := @putThread_canonical
  have := @enterBody_canonical
  have := @State.setCore_canonical
  grind [State.core_canonical, State.canonical_iff, Core.wf_iff]

theorem lookupBody_canonical {s : State} (sC : s.Canonical) (u) : (lookupBody s u).Canonical := by
  have := @State.setCluster_canonical
  have := @putThread_canonical
  have := @takeBody_canonical
  have := @cacheBody_canonical
  have := @touchBody_canonical
  have := @countXlat_canonical
  have := @takeFault_canonical
  grind [lookupBody]

end Sys2Proof.Machine
end

section
/-! The operations of `Machine/Paths.lean` keep the memories canonical. -/

namespace Sys2Proof.Machine

open Sys2Proof

theorem forgetL1_canonical {s : State} (sC : s.Canonical) (core) : (forgetL1 s core).Canonical := by
  have := @State.setCore_canonical
  grind [forgetL1, State.core_canonical, Core.wf_iff]

theorem mergeInto_canonical {s : State} (sC : s.Canonical) (p q) : (mergeInto s p q).Canonical := by
  have := @State.dropGalley_canonical
  have := @State.setGalley_canonical
  have := @forgetL1_canonical
  grind [mergeInto]

theorem mergeRun_canonical {a : State} (aC : a.Canonical) (l x1 x2) : (mergeRun l a x1 x2).1.Canonical := by
  have := @mergeInto_canonical
  fun_induction mergeRun l a x1 x2 <;> grind

theorem leaveJoin_canonical {s : State} (sC : s.Canonical) (id) : (leaveJoin s id).Canonical := by
  have := @putThread_canonical
  have := @lookupBody_canonical
  grind [leaveJoin, foldl_canonical]

theorem completePhase_canonical {s : State} (sC : s.Canonical) (lid d) : (completePhase s lid d).Canonical := by
  have := @State.setLaunch_canonical
  have := @mergeRun_canonical
  have := @leaveJoin_canonical
  grind [completePhase, State.canonical_iff, foldl_canonical]

theorem galleyFault_canonical {s : State} (sC : s.Canonical) (g l u c) : (galleyFault s g l u c).Canonical :=
  takeFault_canonical sC ..

theorem arriveGroups_canonical {s : State} (sC : s.Canonical) (g l u cnt split) : (arriveGroups s g l u cnt split).Canonical := by
  have := @leaveJoin_canonical
  have := @State.setGalley_canonical
  have := @galleyFault_canonical
  have := @State.setLaunch_canonical
  have := @completePhase_canonical
  grind [arriveGroups]

theorem checkArrival_canonical {s : State} (sC : s.Canonical) (id) : (checkArrival s id).Canonical := by
  unfold checkArrival
  split
  · exact sC
  · split
    · exact sC
    · split
      · exact sC
      · split
        · exact galleyFault_canonical sC ..
        · split
          · exact sC
          · split
            · exact arriveGroups_canonical sC ..
            · exact sC

theorem joinChoice_canonical {s : State} (sC : s.Canonical) (g l) : (joinChoice s g l).Canonical := by
  have := @State.choose_canonical
  have := @lookupBody_canonical
  have := @mergeInto_canonical
  grind [joinChoice]

theorem passJoin_canonical {s : State} (sC : s.Canonical) (u) : (passJoin s u).Canonical := by
  have := @putThread_canonical
  have := @abortLanes_canonical
  have := @galleyFault_canonical
  have := @checkArrival_canonical
  have := @joinChoice_canonical
  grind [passJoin]

theorem beginBlock_canonical {s : State} (sC : s.Canonical) (u) : (beginBlock s u).Canonical := by
  have := @lookupBody_canonical
  have := @passJoin_canonical
  grind [beginBlock]

theorem checkMerge_canonical {s : State} (sC : s.Canonical) (id) : (checkMerge s id).Canonical := by
  unfold checkMerge
  split
  · exact sC
  · split
    · exact sC
    · dsimp only
      split
      · exact sC
      · split
        · exact sC
        · split
          · exact galleyFault_canonical sC ..
          · split
            · exact galleyFault_canonical sC ..
            · exact beginBlock_canonical (State.setGalley_canonical sC _) _

theorem pathAtEntry_canonical {s : State} (sC : s.Canonical) (id i) : (pathAtEntry s id i).Canonical := by
  have := @checkArrival_canonical
  have := @checkMerge_canonical
  have := @putThread_canonical
  have := @beginBlock_canonical
  grind [pathAtEntry]

theorem checkReassemble_canonical {s : State} (sC : s.Canonical) (id i) : (checkReassemble s id i).Canonical := by
  unfold checkReassemble
  have := @galleyFault_canonical
  have := @pathAtEntry_canonical
  have := @State.setGalley_canonical
  grind

theorem atEntry_canonical {s : State} (sC : s.Canonical) (u) : (atEntry s u).Canonical := by
  have := @pathAtEntry_canonical
  have := @checkArrival_canonical
  have := @checkReassemble_canonical
  have := @putThread_canonical
  have := @beginBlock_canonical
  grind [atEntry]

theorem Exe.follow_canonical {s : State} (sC : s.Canonical) (e w) : (Exe.follow e s w).Canonical := by
  have := @atEntry_canonical
  have := @Exe.put_canonical
  grind [Exe.follow]

theorem Exe.itemise_canonical {s : State} (sC : s.Canonical) (e g idle outs sub rc) : (Exe.itemise e s g idle outs sub rc).Canonical := by
  have := @atEntry_canonical
  have := @State.setGalley_canonical
  grind [Exe.itemise, foldl_canonical]

theorem Exe.diverge_canonical {s : State} (sC : s.Canonical) (e rc ways pick) : (Exe.diverge e s rc ways pick).Canonical := by
  have := @Exe.follow_canonical
  have := @pathAtEntry_canonical
  have := @State.setGalley_canonical
  have := @Exe.itemise_canonical
  grind [Exe.diverge]

theorem leaveDomain_canonical {s : State} (sC : s.Canonical) (lid j split) : (leaveDomain lid j split s).Canonical := by
  have := @State.setLaunch_canonical
  have := @completePhase_canonical
  grind [leaveDomain]

theorem retireGalley_canonical {s : State} (sC : s.Canonical) (g l) : (retireGalley s g l).Canonical := by
  have := @leaveDomain_canonical
  have := @State.dropGalley_canonical
  grind [retireGalley, foldl_canonical]

theorem retireTx_canonical {s : State} (sC : s.Canonical) (g l lanes left) : (retireTx s g l lanes left).Canonical := by
  have := @abortLanes_canonical
  have := @closeTx_canonical
  grind [retireTx]

theorem Exe.retire_canonical {s : State} (sC : s.Canonical) (e) : (Exe.retire e s).Canonical := by
  have := @retireTx_canonical
  have := @retireGalley_canonical
  have := @State.setGroup_canonical
  have := @State.setGalley_canonical
  have := @checkMerge_canonical
  have := @checkReassemble_canonical
  have := @checkArrival_canonical
  grind [Exe.retire, foldl_canonical]

end Sys2Proof.Machine
end

section
/-! The operations of `Machine/Control.lean` keep the memories canonical. -/

namespace Sys2Proof.Machine

open Sys2Proof

theorem Exe.faultStart_canonical {s : State} (sC : s.Canonical) (e c) : (Exe.faultStart e s c).Canonical :=
  takeFault_canonical sC ..

theorem Exe.withText_canonical {α : Type} {s : State} (sC : s.Canonical) (e : Exe) (f : CodeObj → Except TextStop α) (n) :
    (Exe.withText e f n s).2.Canonical := by
  have := @Exe.faultStart_canonical
  have := @Exe.park_canonical
  have := @fetchPage_canonical
  have := @serviceFault_canonical
  have := @codeIntegrity_canonical
  fun_induction Exe.withText e f n s <;> grind

theorem Exe.blockTys_canonical {s : State} (sC : s.Canonical) (e b) : (Exe.blockTys e s b).2.Canonical := by
  unfold Exe.blockTys
  split
  · exact sC
  · split
    · exact sC
    · exact Exe.withText_canonical sC ..

theorem Exe.way_canonical {s : State} (sC : s.Canonical) (e t) : (Exe.way e s t).2.Canonical := by
  have := @Exe.blockTys_canonical
  grind [Exe.way]

theorem Exe.ways_canonical {x1 : State} (x1C : x1.Canonical) (e a) : (Exe.ways e a x1).2.Canonical := by
  have := @Exe.way_canonical
  fun_induction Exe.ways e a x1 <;> grind

theorem execNop_canonical {s : State} (sC : s.Canonical) (w) : NextCanonical (execNop w s) := by
  have := @onUnit_canonical
  have := @Exe.done_canonical
  grind [execNop]

theorem execBr_canonical {s : State} (sC : s.Canonical) (_w t) : NextCanonical (execBr _w t s) := by
  have := @onUnit_canonical
  have := @Exe.way_canonical
  have := @Exe.follow_canonical
  grind [execBr]

theorem Exe.cut_canonical {s : State} (sC : s.Canonical) (e c rc tt nt) : (Exe.cut e s c rc tt nt).Canonical := by
  have := @Exe.park_canonical
  have := @State.setGalley_canonical
  have := @pathAtEntry_canonical
  grind [Exe.cut, State.canonical_iff]

theorem execBrc_canonical {s : State} (sC : s.Canonical) (w rc tt nt) : NextCanonical (execBrc w rc tt nt s) := by
  have := @onUnit_canonical
  have := @Exe.ways_canonical
  have := @Exe.unfold_canonical
  have := @Exe.diverge_canonical
  have := @Exe.follow_canonical
  have := @Exe.cut_canonical
  grind [execBrc]

theorem execBrsw_canonical {s : State} (sC : s.Canonical) (w rc d cs) : NextCanonical (execBrsw w rc d cs s) := by
  have := @onUnit_canonical
  have := @Exe.ways_canonical
  have := @Exe.follow_canonical
  have := @Exe.unfold_canonical
  have := @Exe.diverge_canonical
  grind [execBrsw]

theorem Exe.callee_canonical {s : State} (sC : s.Canonical) (e f) : (Exe.callee e s f).2.Canonical := by
  unfold Exe.callee
  split
  · exact sC
  · exact Exe.withText_canonical sC ..

theorem execCall_canonical {s : State} (sC : s.Canonical) (w t) : NextCanonical (execCall w t s) := by
  have := @onUnit_canonical
  have := @Exe.callee_canonical
  have := @Exe.faultAll_canonical
  have := @Exe.follow_canonical
  grind [execCall]

theorem Exe.checkCallee_canonical {s : State} (sC : s.Canonical) (e f args lane) : (Exe.checkCallee e s f args lane).2.Canonical := by
  have := @Exe.fault_canonical
  have := @Exe.callee_canonical
  grind [Exe.checkCallee]

theorem Exe.calleeWays_canonical {x1 : State} (x1C : x1.Canonical) (e t lane a) : (Exe.calleeWays e t lane a x1).2.Canonical := by
  have := @Exe.checkCallee_canonical
  fun_induction Exe.calleeWays e t lane a x1 <;> grind

theorem execCalli_canonical {s : State} (sC : s.Canonical) (w t) : NextCanonical (execCalli w t s) := by
  have := @onUnit_canonical
  have := @Exe.unfold_canonical
  have := @Exe.calleeWays_canonical
  have := @Exe.faultAll_canonical
  have := @Exe.follow_canonical
  have := @Exe.diverge_canonical
  grind [execCalli]

theorem execRet_canonical {s : State} (sC : s.Canonical) (w xs) : NextCanonical (execRet w xs s) := by
  have := @onUnit_canonical
  have := @Exe.retire_canonical
  have := @Exe.blockTys_canonical
  have := @Exe.faultAll_canonical
  have := @atEntry_canonical
  have := @Exe.put_canonical
  grind [execRet]

theorem execRetire_canonical {s : State} (sC : s.Canonical) (_w) : NextCanonical (execRetire _w s) := by
  have := @onUnit_canonical
  have := @Exe.retire_canonical
  grind [execRetire]

end Sys2Proof.Machine
end

section
/-! The operations of `Machine/Access.lean` keep the memories canonical. -/

namespace Sys2Proof.Machine

open Sys2Proof

theorem lookPage_canonical {s : State} (sC : s.Canonical) (v va n al a) : (lookPage s v va n al a).2.Canonical := by
  have := @State.setCore_canonical
  grind [lookPage, State.core_canonical, Core.wf_iff]

theorem askWalk_canonical {s : State} (sC : s.Canonical) (v j va a) : (askWalk s v j va a).Canonical := by
  have := @State.fresh_canonical
  grind [askWalk, State.canonical_iff]

theorem joinFault_canonical {s : State} (sC : s.Canonical) (v j va a) : (joinFault s v j va a).Canonical := by
  have := @serviceFault_canonical
  grind [joinFault]

theorem lookAll_canonical {x2 : State} (x2C : x2.Canonical) (v a x1) : (lookAll v a x1 x2).2.Canonical := by
  have := @lookPage_canonical
  fun_induction lookAll v a x1 x2 <;> grind

theorem plan_canonical {s : State} (sC : s.Canonical) (v a rs pre) : (plan s v a rs pre).2.Canonical := by
  have := @lookAll_canonical
  have := @askWalk_canonical
  have := @joinFault_canonical
  grind [plan, foldl_canonical]

theorem l1Room_canonical {s : State} (sC : s.Canonical) (core line) : (l1Room s core line).Canonical := by
  have := @State.choose_canonical
  have := @State.setCore_canonical
  grind [l1Room, State.core_canonical, Core.wf_iff]

theorem l1Serve_canonical {s : State} {fill} (sC : s.Canonical) (fillC : ∀ a0, a0.Canonical → (fill a0).2.Canonical) (core key va) :
    (l1Serve s core key va fill).2.Canonical := by
  have := @countEvent_canonical
  have := @State.setCore_canonical
  have := @l1Room_canonical
  grind [l1Serve, State.core_canonical, Core.wf_iff]

theorem l1Load_canonical {s : State} (sC : s.Canonical) (core me va t n) : (l1Load s core me va t n).2.Canonical := by
  have := @l1Serve_canonical
  have := @State.readFor_canonical
  grind [l1Load]

theorem l1Pool_canonical {s : State} (sC : s.Canonical) (core x k n) : (l1Pool s core x k n).Canonical := by
  have := @l1Serve_canonical
  grind [l1Pool, foldl_canonical]

theorem Exe.load_canonical {s : State} (sC : s.Canonical) (e va t n plain) : (Exe.load e s va t n plain).2.Canonical := by
  have := @l1Load_canonical
  have := @State.readFor_canonical
  grind [Exe.load]

theorem Exe.mark_canonical {s : State} (sC : s.Canonical) (e space addr is) : (Exe.mark e s space addr is).Canonical := by
  have := @State.setGalley_canonical
  grind [Exe.mark]

theorem Exe.store_canonical {s : State} (sC : s.Canonical) (e t bs) : (Exe.store e s t bs).Canonical := by
  have := @State.writePhys_canonical
  have := @Exe.mark_canonical
  have := @l1Drop_canonical
  grind [Exe.store, foldl_canonical]

theorem Exe.storeSpad_canonical {s : State} (sC : s.Canonical) (e addr bs) : (Exe.storeSpad e s addr bs).Canonical := by
  have := @Exe.mark_canonical
  have := @State.setCore_canonical
  grind [Exe.storeSpad, State.core_canonical, Memory.wf_write, Core.wf_iff, foldl_canonical, foldl_wf, foldl_core]

theorem undoWrite_canonical {s : State} (sC : s.Canonical) (l pa prior) : (undoWrite s l pa prior).2.Canonical := by
  have := @translateNow_canonical
  have := @State.writePhys_canonical
  grind [undoWrite, State.canonical_iff]

theorem serialTouch_canonical {s : State} (sC : s.Canonical) (l t write) : (serialTouch s l t write).2.Canonical := by
  have := @State.readPhys_canonical
  have := @undoWrite_canonical
  grind [serialTouch, State.canonical_iff]

theorem txRead_canonical {s : State} (sC : s.Canonical) (l j lane t n) : (txRead s l j lane t n).2.Canonical := by
  have := @State.setGroup_canonical
  have := @abortLanes_canonical
  have := @State.readFor_canonical
  grind [txRead]

theorem txWrite_canonical {s : State} (sC : s.Canonical) (l j lane t bs later) : (txWrite s l j lane t bs later).Canonical := by
  have := @abortLanes_canonical
  have := @State.setGroup_canonical
  grind [txWrite]

end Sys2Proof.Machine
end

section
/-! The operations of `Machine/Loads.lean` keep the memories canonical. -/

namespace Sys2Proof.Machine

open Sys2Proof

theorem Exe.accessAs_canonical {s : State} {go} (sC : s.Canonical) (goC : ∀ a0 a1, a1.Canonical → (go a0 a1).Canonical) (e plain a rs pre) :
    (Exe.accessAs e s plain a rs go pre).Canonical := by
  have := @plan_canonical
  have := @Exe.park_canonical
  have := @Exe.fault_canonical
  grind [Exe.accessAs]

theorem Exe.access_canonical {s : State} {go} (sC : s.Canonical) (goC : ∀ a0 a1, a1.Canonical → (go a0 a1).Canonical) (e a rs pre) :
    (Exe.access e s a rs go pre).Canonical :=
  Exe.accessAs_canonical sC goC ..

theorem readLanes_canonical {f} {x1 : State} (fC : ∀ a0 a1, a0.Canonical → (f a0 a1).2.Canonical) (x1C : x1.Canonical) (a) :
    (readLanes f a x1).2.Canonical := by
  fun_induction readLanes f a x1 <;> grind

theorem touchAll_canonical {x1 : State} (x1C : x1.Canonical) (l write a) : (touchAll l write a x1).2.Canonical := by
  have := @serialTouch_canonical
  fun_induction touchAll l write a x1 <;> grind

theorem Exe.loadAll_canonical {s : State} (sC : s.Canonical) (e plain ts) : (Exe.loadAll e plain ts s).2.Canonical := by
  have := @readLanes_canonical
  have := @txRead_canonical
  have := @touchAll_canonical
  have := @State.readFor_canonical
  have := @Exe.load_canonical
  grind [Exe.loadAll]

theorem txWrites_canonical {x1 : State} (x1C : x1.Canonical) (l data rest a) : (txWrites l data rest a x1).Canonical := by
  have := @txWrite_canonical
  fun_induction txWrites l data rest a x1 <;> grind

theorem Exe.storeAll_canonical {s : State} (sC : s.Canonical) (e data ts rest) : (Exe.storeAll e data ts s rest).2.Canonical := by
  have := @txWrites_canonical
  have := @touchAll_canonical
  have := @Exe.store_canonical
  grind [Exe.storeAll, foldl_canonical]

theorem Exe.storeData_canonical {s : State} (sC : s.Canonical) (e w) : SomeCanonical (Exe.storeData e s w) := by
  have := @Exe.nativeIssue_canonical
  grind [Exe.storeData, someCanonical_some, someCanonical_none]

theorem Exe.storeAddr_canonical {s : State} (sC : s.Canonical) (e w spad bytes ts narrow) :
    SomeCanonical (Exe.storeAddr e s w spad bytes ts narrow) := by
  have := @State.fresh_canonical
  have := @Exe.nativeIssue_canonical
  grind [Exe.storeAddr, someCanonical_some, someCanonical_none]

theorem execLdG_canonical {s : State} (sC : s.Canonical) (w) : NextCanonical (execLdG w s) := by
  have := @onUnit_canonical
  have := @Exe.unfold_canonical
  have := @Exe.accessAs_canonical
  have := @Exe.loadAll_canonical
  have := @Exe.fault_canonical
  have := @Exe.define_canonical
  grind [execLdG]

theorem execStG_canonical {s : State} (sC : s.Canonical) (w) : NextCanonical (execStG w s) := by
  have := @onUnit_canonical
  have := @Exe.storeData_canonical
  have := @Exe.unfold_canonical
  have := @Exe.park_canonical
  have := @Exe.access_canonical
  have := @Exe.storeAddr_canonical
  have := @Exe.storeAll_canonical
  have := @Exe.fault_canonical
  have := @Exe.done_canonical
  grind [execStG, someCanonical_some, someCanonical_none]

theorem execLdS_canonical {s : State} (sC : s.Canonical) (w) : NextCanonical (execLdS w s) := by
  have := @onUnit_canonical
  have := @Exe.unfold_canonical
  have := @Exe.fault_canonical
  have := @Exe.park_canonical
  have := @Exe.define_canonical
  grind [execLdS, State.core_canonical]

theorem execStS_canonical {s : State} (sC : s.Canonical) (w) : NextCanonical (execStS w s) := by
  have := @onUnit_canonical
  have := @Exe.storeData_canonical
  have := @Exe.unfold_canonical
  have := @Exe.fault_canonical
  have := @Exe.park_canonical
  have := @Exe.storeAddr_canonical
  have := @Exe.done_canonical
  have := @Exe.storeSpad_canonical
  grind [execStS, foldl_canonical, someCanonical_some, someCanonical_none]

theorem Exe.hintTarget_canonical {s : State} (sC : s.Canonical) (e va) : (Exe.hintTarget e s va).2.Canonical := by
  have := @translateNow_canonical
  grind [Exe.hintTarget]

theorem execPref_canonical {s : State} (sC : s.Canonical) (w) : NextCanonical (execPref w s) := by
  have := @onUnit_canonical
  have := @Exe.hintTarget_canonical
  have := @l1Load_canonical
  have := @Exe.done_canonical
  grind [execPref, foldl_canonical]

theorem execEvict_canonical {s : State} (sC : s.Canonical) (w) : NextCanonical (execEvict w s) := by
  have := @onUnit_canonical
  have := @Exe.hintTarget_canonical
  have := @l1Drop_canonical
  have := @Exe.done_canonical
  grind [execEvict, foldl_canonical]

end Sys2Proof.Machine
end

section
/-! The operations of `Machine/Tensor.lean` keep the memories canonical. -/

namespace Sys2Proof.Machine

open Sys2Proof

theorem Exe.unsupported_canonical {s : State} (sC : s.Canonical) (e w tys) : (Exe.unsupported e s w tys).Canonical := by
  have := @abortLanes_canonical
  have := @Exe.define_canonical
  grind [Exe.unsupported]

theorem Exe.noTx_canonical {s : State} {f} (sC : s.Canonical) (fC : ∀ a0, (f a0).Canonical) (e w tys) :
    (Exe.noTx e s w tys f).Canonical := by
  have := @Exe.unsupported_canonical
  grind [Exe.noTx]

theorem cacheRec_canonical {s : State} (sC : s.Canonical) (cl t k va bs) : (cacheRec s cl t k va bs).Canonical :=
  State.setCluster_canonical sC ..

theorem dropRec_canonical {s : State} (sC : s.Canonical) (t k va) : (dropRec s t k va).Canonical := by
  grind [dropRec, State.canonical_iff]

theorem updateRec_canonical {s : State} (sC : s.Canonical) (t k va bs) : (updateRec s t k va bs).Canonical := by
  grind [updateRec, State.canonical_iff]

theorem readParts_canonical {s : State} (sC : s.Canonical) (me a) : (readParts s me a).2.Canonical := by
  have := @State.readFor_canonical
  fun_induction readParts s me a <;> grind

theorem Exe.orFault_canonical {s : State} {go : State} (sC : s.Canonical) (goC : go.Canonical) (e pre) :
    (Exe.orFault e s pre go).Canonical := by
  unfold Exe.orFault
  have := @Exe.fault_canonical
  grind

theorem Exe.recordsOr_canonical {s : State} {go} (sC : s.Canonical) (goC : ∀ a0 a1 a2, a2.Canonical → (go a0 a1 a2).Canonical) (e hs pre) :
    (Exe.recordsOr e s hs pre go).Canonical := by
  unfold Exe.recordsOr
  extract_lets cl hit pre hs miss
  refine Exe.access_canonical sC (fun ts u uC => ?_) ..
  have hmiss := foldl_gather (F := fun (acc : List (Nat × List Byte) × State) (h : (Nat × Nat) × Nat) =>
      let mine := ts.filter (fun t => decide (handleVa h.2 ≤ t.1.va) && decide (t.1.va < handleVa h.2 + 192))
      let (bs, s) := readParts acc.2 e.me mine
      (acc.1 ++ [(handleVa h.2, bs)], s)) (fun acc h accC => readParts_canonical accC ..) miss (acc := ([], u)) uC
  dsimp only
  split
  · exact goC _ _ _ hmiss
  · exact goC _ _ _ (foldl_canonical hmiss (fun v x vC => cacheRec_canonical vC ..) _)

theorem Exe.records_canonical {s : State} {go} (sC : s.Canonical) (goC : ∀ a0 a1, a1.Canonical → (go a0 a1).Canonical) (e hs) :
    (Exe.records e s hs go).Canonical := by
  have := @Exe.recordsOr_canonical
  have := @Exe.orFault_canonical
  grind [Exe.records]

theorem Exe.seal_canonical {s : State} (sC : s.Canonical) (e va ts) : (Exe.seal e s va ts).2.Canonical := by
  have := @readParts_canonical
  have := @Exe.store_canonical
  grind [Exe.seal]

theorem Exe.sealAll_canonical {x1 : State} (x1C : x1.Canonical) (e r ts a) : (Exe.sealAll e r ts a x1).2.Canonical := by
  have := @Exe.seal_canonical
  fun_induction Exe.sealAll e r ts a x1 <;> grind

theorem execTnseal_canonical {s : State} (sC : s.Canonical) (w) : NextCanonical (execTnseal w s) := by
  have := @onUnit_canonical
  have := @Exe.noTx_canonical
  have := @Exe.unfold_canonical
  have := @Exe.park_canonical
  have := @Exe.access_canonical
  have := @Exe.sealAll_canonical
  have := @Exe.orFault_canonical
  have := @Exe.define_canonical
  have := @Exe.fault_canonical
  grind [execTnseal]

theorem execTnflush_canonical {s : State} (sC : s.Canonical) (w) : NextCanonical (execTnflush w s) := by
  have := @onUnit_canonical
  have := @Exe.noTx_canonical
  have := @Exe.unfold_canonical
  have := @Exe.park_canonical
  have := @Exe.records_canonical
  have := @Exe.faultAll_canonical
  have := @Exe.access_canonical
  have := @Exe.store_canonical
  have := @Exe.done_canonical
  have := @dropRec_canonical
  grind [execTnflush, foldl_canonical]

theorem Exe.readEach_canonical {s : State} {go} (sC : s.Canonical) (goC : ∀ a0 a1, a1.Canonical → (go a0 a1).Canonical) (e xs n al pre) :
    (Exe.readEach e s xs n al pre go).Canonical := by
  have := @Exe.access_canonical
  have := @Exe.loadAll_canonical
  have := @Exe.fault_canonical
  grind [Exe.readEach]

theorem Exe.redirect_canonical {s : State} {go} (sC : s.Canonical) (goC : ∀ a0 a1, a1.Canonical → (go a0 a1).Canonical) (e xs pre) :
    (Exe.redirect e s xs pre go).Canonical := by
  have := @Exe.access_canonical
  have := @readLanes_canonical
  have := @State.readFor_canonical
  have := @Exe.park_canonical
  grind [Exe.redirect]

theorem Exe.noteTiles_canonical {s : State} (sC : s.Canonical) (e xs) : (Exe.noteTiles e s xs).Canonical := by
  have := @State.setGroup_canonical
  grind [Exe.noteTiles]

theorem Exe.elements_canonical {s : State} {go} (sC : s.Canonical) (goC : ∀ a0 a1, a1.Canonical → (go a0 a1).Canonical) (e xs pre) :
    (Exe.elements e s xs pre go).Canonical := by
  have := @Exe.redirect_canonical
  have := @Exe.readEach_canonical
  have := @Exe.noteTiles_canonical
  grind [Exe.elements]

theorem execTnld_canonical {s : State} (sC : s.Canonical) (w x) : NextCanonical (execTnld w x s) := by
  have := @onUnit_canonical
  have := @Exe.unfold_canonical
  have := @Exe.recordsOr_canonical
  have := @Exe.elements_canonical
  have := @Exe.accessAs_canonical
  have := @Exe.orFault_canonical
  have := @Exe.loadAll_canonical
  have := @Exe.fault_canonical
  have := @Exe.define_canonical
  grind [execTnld]

theorem Exe.putElems_canonical {x1 : State} (x1C : x1.Canonical) (e place v ts a) : (Exe.putElems e place v ts a x1).2.Canonical := by
  have := @Exe.storeAll_canonical
  have := @Exe.loadAll_canonical
  fun_induction Exe.putElems e place v ts a x1 <;> grind

theorem execTnst_canonical {s : State} (sC : s.Canonical) (w x y) : NextCanonical (execTnst w x y s) := by
  refine onUnit_canonical sC fun e => ?_
  dsimp only
  split
  next u hu => exact (Exe.storeData_canonical sC ..).of_some hu
  next =>
    split
    · exact Exe.unfold_canonical sC ..
    · split
      · exact Exe.park_canonical sC ..
      · refine Exe.recordsOr_canonical sC (fun rec_ pre u uC => ?_) ..
        refine Exe.elements_canonical uC (fun place u uC => ?_) ..
        refine Exe.access_canonical uC (fun ts u uC => ?_) ..
        refine Exe.orFault_canonical uC ?_ ..
        split
        next v hv => exact (Exe.storeAddr_canonical uC ..).of_some hv
        next =>
          have := @Exe.putElems_canonical
          have := @Exe.fault_canonical
          have := @Exe.done_canonical
          grind

theorem execTninfo_canonical {s : State} (sC : s.Canonical) (w) : NextCanonical (execTninfo w s) := by
  have := @onUnit_canonical
  have := @Exe.unfold_canonical
  have := @Exe.recordsOr_canonical
  have := @Exe.orFault_canonical
  have := @Exe.define_canonical
  have := @Exe.access_canonical
  have := @readLanes_canonical
  have := @State.readFor_canonical
  grind [execTninfo]

theorem execTnidx_canonical {s : State} (sC : s.Canonical) (w x) : NextCanonical (execTnidx w x s) := by
  refine onUnit_canonical sC fun e => ?_
  dsimp only
  split
  · exact Exe.unfold_canonical sC ..
  · refine Exe.records_canonical sC (fun rec_ u uC => ?_) ..
    split
    · split <;> exact Exe.define_canonical uC ..
    · exact Exe.define_canonical uC ..

theorem execTnpref_canonical {s : State} (sC : s.Canonical) (w x) : NextCanonical (execTnpref w x s) := by
  have := @onUnit_canonical
  have := @Exe.records_canonical
  have := @Exe.done_canonical
  grind [execTnpref]

theorem execTnrelay_canonical {s : State} (sC : s.Canonical) (w x) : NextCanonical (execTnrelay w x s) := by
  refine onUnit_canonical sC fun e => ?_
  refine Exe.noTx_canonical sC (fun _ => ?_) ..
  split
  · exact Exe.unfold_canonical sC ..
  · split
    · exact Exe.park_canonical sC ..
    · dsimp only
      split
      · exact Exe.faultAll_canonical sC ..
      · refine Exe.records_canonical sC (fun rec_ u uC => ?_) ..
        refine Exe.access_canonical uC (fun cts u uC => ?_) ..
        split
        · exact uC
        · split
          · exact Exe.faultAll_canonical uC ..
          · split
            · exact Exe.faultAll_canonical uC ..
            · split
              · exact Exe.faultAll_canonical uC ..
              · refine Exe.access_canonical uC (fun ts u uC => ?_) ..
                generalize hv : updateRec _ _ _ _ _ = v
                have vC : v.Canonical := by
                  rw [← hv]
                  exact updateRec_canonical (foldl_canonical uC (fun v q vC => Exe.store_canonical vC ..) _) ..
                refine Exe.done_canonical ?_ ..
                exact vC.beside rfl rfl rfl rfl rfl

end Sys2Proof.Machine
end

section
/-! The operations of `Machine/Engines.lean` keep the memories canonical. -/

namespace Sys2Proof.Machine

open Sys2Proof

theorem pickEngine_canonical {s : State} (sC : s.Canonical) (t core) : (pickEngine s t core).2.Canonical := by
  have := @State.setCluster_canonical
  grind [pickEngine]

theorem openCommand_canonical {s : State} (sC : s.Canonical) (launch j id) : (openCommand s launch j id).Canonical :=
  State.setGroup_canonical sC ..

theorem Exe.translate_canonical {s : State} {go} (sC : s.Canonical) (goC : ∀ a0 a1, a1.Canonical → (go a0 a1).Canonical) (e a r) :
    (Exe.translate e s a r go).Canonical := by
  have := @plan_canonical
  have := @Exe.park_canonical
  have := @Exe.fault_canonical
  grind [Exe.translate]

theorem Exe.counter_canonical {s : State} {go} (sC : s.Canonical) (goC : ∀ a0 a1, a1.Canonical → (go a0 a1).Canonical) (e cnt a) :
    (Exe.counter e s cnt a go).Canonical := by
  unfold Exe.counter
  have := @Exe.translate_canonical
  have := @Exe.faultAll_canonical
  grind

theorem Exe.holdQueue_canonical {s : State} (sC : s.Canonical) (e id) : (Exe.holdQueue e s id).Canonical := by
  have := @Exe.put_canonical
  grind [Exe.holdQueue]

theorem Exe.issue_canonical {s : State} (sC : s.Canonical) (e w o) : (Exe.issue e s w o).Canonical := by
  have := @Exe.faultAll_canonical
  have := @Exe.counter_canonical
  have := @Exe.park_canonical
  have := @pickEngine_canonical
  have := @State.fresh_canonical
  have := @Exe.holdQueue_canonical
  have := @Exe.done_canonical
  have := @openCommand_canonical
  grind [Exe.issue, State.canonical_iff]

theorem engineForm_canonical {f} {s : State} (fC : ∀ a0 a1, a1.Canonical → (f a0 a1).Canonical) (sC : s.Canonical) (w tys) :
    NextCanonical (engineForm w tys f s) := by
  have := @onUnit_canonical
  have := @Exe.leafOnly_canonical
  have := @Exe.noTx_canonical
  grind [engineForm]

theorem execCpy_canonical {s : State} (sC : s.Canonical) (w x) : NextCanonical (execCpy w x s) := by
  have := @engineForm_canonical
  have := @Exe.faultAll_canonical
  have := @Exe.issue_canonical
  grind [execCpy]

theorem execCpyh_canonical {s : State} (sC : s.Canonical) (w x y) : NextCanonical (execCpyh w x y s) := by
  have := @engineForm_canonical
  have := @Exe.faultAll_canonical
  have := @Exe.records_canonical
  have := @Exe.issue_canonical
  grind [execCpyh]

theorem execGath_canonical {s : State} (sC : s.Canonical) (w x) : NextCanonical (execGath w x s) := by
  have := @engineForm_canonical
  have := @Exe.faultAll_canonical
  have := @Exe.issue_canonical
  grind [execGath]

theorem execGathh_canonical {s : State} (sC : s.Canonical) (w x) : NextCanonical (execGathh w x s) := by
  have := @engineForm_canonical
  have := @Exe.faultAll_canonical
  have := @Exe.records_canonical
  have := @Exe.issue_canonical
  grind [execGathh]

theorem execSpset_canonical {s : State} (sC : s.Canonical) (w x) : NextCanonical (execSpset w x s) := by
  have := @engineForm_canonical
  have := @Exe.faultAll_canonical
  have := @Exe.issue_canonical
  grind [execSpset]

theorem Core.setSeq_canonical {x : Core} (xC : x.Wf) (k q) : (Core.setSeq x k q).Wf := by
  grind [Core.setSeq, Core.wf_iff]

theorem execSeqset_canonical {s : State} (sC : s.Canonical) (w) : NextCanonical (execSeqset w s) := by
  have := @engineForm_canonical
  have := @Exe.faultAll_canonical
  have := @Exe.park_canonical
  have := @Exe.done_canonical
  have := @State.setCore_canonical
  have := @Core.setSeq_canonical
  grind [execSeqset, State.core_canonical]

theorem execSeqgo_canonical {s : State} (sC : s.Canonical) (w) : NextCanonical (execSeqgo w s) := by
  have := @engineForm_canonical
  have := @Exe.park_canonical
  have := @Exe.faultAll_canonical
  have := @Exe.counter_canonical
  have := @State.fresh_canonical
  have := @State.setCore_canonical
  have := @Core.setSeq_canonical
  have := @Exe.done_canonical
  have := @openCommand_canonical
  grind [execSeqgo, State.core_canonical, Core.wf_iff]

theorem execSeqstat_canonical {s : State} (sC : s.Canonical) (w) : NextCanonical (execSeqstat w s) := by
  have := @onUnit_canonical
  have := @Exe.leafOnly_canonical
  have := @Exe.define_canonical
  grind [execSeqstat, State.core_canonical]

theorem execCbatch_canonical {s : State} (sC : s.Canonical) (w) : NextCanonical (execCbatch w s) := by
  have := @engineForm_canonical
  have := @Exe.park_canonical
  have := @Exe.define_canonical
  have := @State.setGroup_canonical
  grind [execCbatch]

theorem execCwait_canonical {s : State} (sC : s.Canonical) (w) : NextCanonical (execCwait w s) := by
  have := @engineForm_canonical
  have := @Exe.faultAll_canonical
  have := @Exe.park_canonical
  have := @Exe.done_canonical
  grind [execCwait]

theorem Exe.readCounter_canonical {s : State} (sC : s.Canonical) (e w p target) : (Exe.readCounter e s w p target).Canonical := by
  have := @State.readFor_canonical
  have := @Exe.done_canonical
  have := @Exe.park_canonical
  grind [Exe.readCounter]

theorem execCntwait_canonical {s : State} (sC : s.Canonical) (w) : NextCanonical (execCntwait w s) := by
  have := @onUnit_canonical
  have := @Exe.noTx_canonical
  have := @Exe.unfold_canonical
  have := @Exe.done_canonical
  have := @Exe.readCounter_canonical
  have := @Exe.faultAll_canonical
  have := @Exe.access_canonical
  grind [execCntwait]

end Sys2Proof.Machine
end

section
/-! The operations of `Machine/Matrix.lean` keep the memories canonical. -/

namespace Sys2Proof.Machine

open Sys2Proof

theorem execRingcfg_canonical {s : State} (sC : s.Canonical) (w x) : NextCanonical (execRingcfg w x s) := by
  have := @engineForm_canonical
  have := @Exe.faultAll_canonical
  have := @Exe.park_canonical
  have := @Exe.done_canonical
  have := @State.setCore_canonical
  grind [execRingcfg, State.core_canonical, Memory.wf_writeNat, Core.wf_iff]

theorem execRingrd_canonical {s : State} (sC : s.Canonical) (w) : NextCanonical (execRingrd w s) := by
  have := @onUnit_canonical
  have := @Exe.leafOnly_canonical
  have := @Exe.define_canonical
  grind [execRingrd, State.core_canonical]

theorem Exe.payEnergy_canonical {s : State} {go} (sC : s.Canonical) (goC : ∀ a0, a0.Canonical → (go a0).Canonical) (e cost) :
    (Exe.payEnergy e s cost go).Canonical := by
  have := @State.setCtx_canonical
  have := @Exe.park_canonical
  grind [Exe.payEnergy]

theorem Exe.issueMatrix_canonical {s : State} (sC : s.Canonical) (e w op lit conv) : (Exe.issueMatrix e s w op lit conv).Canonical := by
  have := @Exe.park_canonical
  have := @Exe.payEnergy_canonical
  have := @State.fresh_canonical
  have := @Exe.holdQueue_canonical
  have := @Exe.done_canonical
  have := @State.setCore_canonical
  grind [Exe.issueMatrix, State.core_canonical, State.canonical_iff, Core.wf_iff]

theorem Exe.matrixChecked_canonical {s : State} {go : State} (sC : s.Canonical) (goC : go.Canonical) (e op ty lit) :
    (Exe.matrixChecked e s op ty lit go).Canonical := by
  have := @Exe.faultAll_canonical
  grind [Exe.matrixChecked, State.core_canonical]

theorem matrixForm_canonical {s : State} (sC : s.Canonical) (op w l) : NextCanonical (matrixForm op w l s) := by
  have := @engineForm_canonical
  have := @Exe.matrixChecked_canonical
  have := @Exe.issueMatrix_canonical
  grind [matrixForm]

theorem execMma_canonical {s : State} (sC : s.Canonical) (w l) : NextCanonical (execMma w l s) :=
  matrixForm_canonical sC ..

theorem execMmab_canonical {s : State} (sC : s.Canonical) (w l) : NextCanonical (execMmab w l s) :=
  matrixForm_canonical sC ..

theorem execMmas_canonical {s : State} (sC : s.Canonical) (w l) : NextCanonical (execMmas w l s) :=
  matrixForm_canonical sC ..

theorem execMmaconv_canonical {s : State} (sC : s.Canonical) (w l x) : NextCanonical (execMmaconv w l x s) := by
  have := @engineForm_canonical
  have := @Exe.matrixChecked_canonical
  have := @Exe.records_canonical
  have := @Exe.faultAll_canonical
  have := @Exe.issueMatrix_canonical
  grind [execMmaconv]

theorem Core.setElem_canonical {x : Core} (xC : x.Wf) (v) : (Core.setElem x v).Wf := by
  grind [Core.setElem, Memory.wf_writeNat, Core.wf_iff]

theorem Core.keepTC_canonical {x : Core} (xC : x.Wf) (t) : (Core.keepTC x t).Wf := by
  grind [Core.keepTC, Core.wf_iff]

theorem Exe.withTiles_canonical {s : State} {f} (sC : s.Canonical) (fC : ∀ a0, a0.Wf → (f a0).Canonical) (e ts) :
    (Exe.withTiles e s ts f).Canonical := by
  have := @Exe.park_canonical
  grind [Exe.withTiles, State.core_canonical]

theorem Exe.writeTile_canonical {s : State} {x : Core} (sC : s.Canonical) (xC : x.Wf) (e t vs) : (Exe.writeTile e s x t vs).Canonical := by
  have := @State.setCore_canonical
  have := @Core.setElem_canonical
  have := @Core.keepTC_canonical
  grind [Exe.writeTile, foldl_canonical, foldl_wf, foldl_core]

theorem tileForm_canonical {s : State} {f} (sC : s.Canonical) (fC : ∀ a0, (f a0).Canonical) : NextCanonical (tileForm s f) := by
  have := @onUnit_canonical
  have := @Exe.leafOnly_canonical
  grind [tileForm]

theorem Exe.tileSpad_canonical {s : State} {go : State} (sC : s.Canonical) (goC : go.Canonical) (e sp n write) :
    (Exe.tileSpad e s sp n write go).Canonical := by
  have := @Exe.faultAll_canonical
  have := @Exe.park_canonical
  grind [Exe.tileSpad]

theorem execTlld_canonical {s : State} (sC : s.Canonical) (w) : NextCanonical (execTlld w s) := by
  have := @tileForm_canonical
  have := @Exe.tileSpad_canonical
  have := @Exe.withTiles_canonical
  have := @Exe.done_canonical
  have := @Exe.writeTile_canonical
  grind [execTlld]

theorem execTlst_canonical {s : State} (sC : s.Canonical) (w) : NextCanonical (execTlst w s) := by
  have := @tileForm_canonical
  have := @Exe.tileSpad_canonical
  have := @Exe.withTiles_canonical
  have := @Exe.done_canonical
  have := @State.setCore_canonical
  grind [execTlst, Memory.wf_writeBytes, Core.wf_iff]

theorem execTlzero_canonical {s : State} (sC : s.Canonical) (w) : NextCanonical (execTlzero w s) := by
  have := @tileForm_canonical
  have := @Exe.withTiles_canonical
  have := @Exe.done_canonical
  have := @Exe.writeTile_canonical
  grind [execTlzero]

theorem execTlmov_canonical {s : State} (sC : s.Canonical) (w) : NextCanonical (execTlmov w s) := by
  have := @tileForm_canonical
  have := @Exe.withTiles_canonical
  have := @Exe.done_canonical
  have := @Exe.writeTile_canonical
  grind [execTlmov]

theorem Exe.oneSlice_canonical {s : State} {go} (sC : s.Canonical) (goC : ∀ a0, (go a0).Canonical) (e w bound) :
    (Exe.oneSlice e s w bound go).Canonical := by
  have := @Exe.fault_canonical
  grind [Exe.oneSlice]

theorem Exe.laneSlices_canonical {s : State} {go : State} (sC : s.Canonical) (goC : go.Canonical) (e w bound) :
    (Exe.laneSlices e s w bound go).Canonical := by
  have := @Exe.fault_canonical
  grind [Exe.laneSlices]

theorem tileGet_canonical {s : State} (sC : s.Canonical) (w bound place) : NextCanonical (tileGet w bound place s) := by
  have := @tileForm_canonical
  have := @Exe.laneSlices_canonical
  have := @Exe.withTiles_canonical
  have := @Exe.define_canonical
  grind [tileGet]

theorem tilePut_canonical {s : State} (sC : s.Canonical) (w bound place) : NextCanonical (tilePut w bound place s) := by
  have := @tileForm_canonical
  have := @Exe.laneSlices_canonical
  have := @Exe.withTiles_canonical
  have := @Exe.done_canonical
  have := @Exe.writeTile_canonical
  grind [tilePut]

theorem execTlgetr_canonical {s : State} (sC : s.Canonical) (w) : NextCanonical (execTlgetr w s) :=
  tileGet_canonical sC ..

theorem execTlgetc_canonical {s : State} (sC : s.Canonical) (w) : NextCanonical (execTlgetc w s) :=
  tileGet_canonical sC ..

theorem execTlputr_canonical {s : State} (sC : s.Canonical) (w) : NextCanonical (execTlputr w s) :=
  tilePut_canonical sC ..

theorem execTlputc_canonical {s : State} (sC : s.Canonical) (w) : NextCanonical (execTlputc w s) :=
  tilePut_canonical sC ..

theorem tileShift_canonical {s : State} (sC : s.Canonical) (w bound moves) : NextCanonical (tileShift w bound moves s) := by
  have := @tileForm_canonical
  have := @Exe.oneSlice_canonical
  have := @Exe.withTiles_canonical
  have := @Exe.done_canonical
  have := @Exe.writeTile_canonical
  grind [tileShift]

theorem execTlrotr_canonical {s : State} (sC : s.Canonical) (w) : NextCanonical (execTlrotr w s) :=
  tileShift_canonical sC ..

theorem execTlrotc_canonical {s : State} (sC : s.Canonical) (w) : NextCanonical (execTlrotc w s) :=
  tileShift_canonical sC ..

theorem execTlbcr_canonical {s : State} (sC : s.Canonical) (w) : NextCanonical (execTlbcr w s) :=
  tileShift_canonical sC ..

theorem execTlbcc_canonical {s : State} (sC : s.Canonical) (w) : NextCanonical (execTlbcc w s) :=
  tileShift_canonical sC ..

theorem tileReduce_canonical {s : State} (sC : s.Canonical) (w bound elems) : NextCanonical (tileReduce w bound elems s) := by
  have := @tileForm_canonical
  have := @Exe.laneSlices_canonical
  have := @Exe.withTiles_canonical
  have := @Exe.define_canonical
  grind [tileReduce]

theorem execTlredr_canonical {s : State} (sC : s.Canonical) (w) : NextCanonical (execTlredr w s) :=
  tileReduce_canonical sC ..

theorem execTlredc_canonical {s : State} (sC : s.Canonical) (w) : NextCanonical (execTlredc w s) :=
  tileReduce_canonical sC ..

theorem execMmard_canonical {s : State} (sC : s.Canonical) (w) : NextCanonical (execMmard w s) := by
  have := @tileForm_canonical
  have := @Exe.tileSpad_canonical
  have := @Exe.withTiles_canonical
  have := @Exe.done_canonical
  have := @State.setCore_canonical
  grind [execMmard, Memory.wf_writeBytes, Core.wf_iff, foldl_canonical, foldl_wf, foldl_core, nextCanonical_next]

end Sys2Proof.Machine
end

section
/-! The operations of `Machine/Atomics.lean` keep the memories canonical. -/

namespace Sys2Proof.Machine

open Sys2Proof

theorem slicePerm_canonical {α : Type} {s : State} (sC : s.Canonical) (n) (xs : List α) : (slicePerm n xs s).2.Canonical := by
  have := @State.choose_canonical
  fun_induction slicePerm n xs s <;> grind

theorem laneOrder_canonical {s : State} (sC : s.Canonical) (ts) : (laneOrder ts s).2.Canonical := by
  unfold laneOrder
  split
  · exact sC
  · exact slicePerm_canonical sC ..

theorem Exe.atomics_canonical {x1 : State} (x1C : x1.Canonical) (e w f v c a) : (Exe.atomics e w f v c a x1).2.Canonical := by
  have := @State.atomicSeen_canonical
  have := @l1Drop_canonical
  fun_induction Exe.atomics e w f v c a x1 <;> grind

theorem pushAtomic_canonical {s : State} (sC : s.Canonical) (core spad m ws) : (pushAtomic s core spad m ws).Canonical := by
  have := @State.setCore_canonical
  have := @countEvent_canonical
  grind [pushAtomic, State.core_canonical, Memory.wf_writeNat, Core.wf_iff]

theorem Exe.noReturn_canonical {s : State} (sC : s.Canonical) (e w f) : (Exe.noReturn e s w f).Canonical := by
  have := @plan_canonical
  have := @Exe.park_canonical
  have := @Exe.fault_canonical
  have := @Exe.faultAll_canonical
  have := @State.fresh_canonical
  have := @pushAtomic_canonical
  have := @l1Drop_canonical
  have := @Exe.done_canonical
  grind [Exe.noReturn, State.core_canonical, foldl_canonical]

theorem atomicForm_canonical {s : State} (sC : s.Canonical) (w f) : NextCanonical (atomicForm w f s) := by
  have := @onUnit_canonical
  have := @Exe.unfold_canonical
  have := @Exe.noTx_canonical
  have := @Exe.noReturn_canonical
  have := @Exe.leafOnly_canonical
  have := @Exe.park_canonical
  have := @Exe.access_canonical
  have := @laneOrder_canonical
  have := @Exe.atomics_canonical
  have := @Exe.define_canonical
  grind [atomicForm]

theorem execAmoAdd_canonical {s : State} (sC : s.Canonical) (w) : NextCanonical (execAmoAdd w s) :=
  atomicForm_canonical sC ..

theorem execAmoAnd_canonical {s : State} (sC : s.Canonical) (w) : NextCanonical (execAmoAnd w s) :=
  atomicForm_canonical sC ..

theorem execAmoOr_canonical {s : State} (sC : s.Canonical) (w) : NextCanonical (execAmoOr w s) :=
  atomicForm_canonical sC ..

theorem execAmoXor_canonical {s : State} (sC : s.Canonical) (w) : NextCanonical (execAmoXor w s) :=
  atomicForm_canonical sC ..

theorem execAmoMin_canonical {s : State} (sC : s.Canonical) (w) : NextCanonical (execAmoMin w s) :=
  atomicForm_canonical sC ..

theorem execAmoMax_canonical {s : State} (sC : s.Canonical) (w) : NextCanonical (execAmoMax w s) :=
  atomicForm_canonical sC ..

theorem execAmoSwap_canonical {s : State} (sC : s.Canonical) (w) : NextCanonical (execAmoSwap w s) :=
  atomicForm_canonical sC ..

theorem execAmoCas_canonical {s : State} (sC : s.Canonical) (w) : NextCanonical (execAmoCas w s) :=
  atomicForm_canonical sC ..

theorem execAmoFaddRn_canonical {s : State} (sC : s.Canonical) (w) : NextCanonical (execAmoFaddRn w s) :=
  atomicForm_canonical sC ..

theorem execAmoFaddRz_canonical {s : State} (sC : s.Canonical) (w) : NextCanonical (execAmoFaddRz w s) :=
  atomicForm_canonical sC ..

theorem execAmoFaddRu_canonical {s : State} (sC : s.Canonical) (w) : NextCanonical (execAmoFaddRu w s) :=
  atomicForm_canonical sC ..

theorem execAmoFaddRd_canonical {s : State} (sC : s.Canonical) (w) : NextCanonical (execAmoFaddRd w s) :=
  atomicForm_canonical sC ..

theorem execAmoFaddX_canonical {s : State} (sC : s.Canonical) (w) : NextCanonical (execAmoFaddX w s) :=
  atomicForm_canonical sC ..

theorem execAmoFmin_canonical {s : State} (sC : s.Canonical) (w) : NextCanonical (execAmoFmin w s) :=
  atomicForm_canonical sC ..

theorem execAmoFmax_canonical {s : State} (sC : s.Canonical) (w) : NextCanonical (execAmoFmax w s) :=
  atomicForm_canonical sC ..

theorem execCas128_canonical {s : State} (sC : s.Canonical) (w) : NextCanonical (execCas128 w s) :=
  atomicForm_canonical sC ..

theorem placeRecord_canonical {s : State} (sC : s.Canonical) (i e) : (placeRecord s i e).2.Canonical := by
  unfold placeRecord
  split
  · exact sC
  · extract_lets c va part one
    have hone (u : State) (uC : u.Canonical) (va n) : (one u va n).2.Canonical := by
      have hwalk := walk_canonical uC e.tenant e.ctx va
      grind
    clear_value one
    grind

theorem startSpill_canonical {s : State} (sC : s.Canonical) (i t k a) : (startSpill s i t k a).2.Canonical := by
  have := @placeRecord_canonical
  have := @State.setSlice_canonical
  fun_induction startSpill s i t k a <;> grind

theorem exactAdd_canonical {s : State} (sC : s.Canonical) (t k kind pa v) : (exactAdd s t k kind pa v).Canonical := by
  have := @State.setSlice_canonical
  have := @startSpill_canonical
  grind [exactAdd, foldl_canonical, Exact.Canonical]

theorem peerExact_canonical {s : State} (sC : s.Canonical) (t k kind pa v) : (peerExact s t k kind pa v).Canonical := by
  grind [peerExact, State.canonical_iff, foldl_canonical, Exact.Canonical]

theorem popAtomic_canonical {s : State} (sC : s.Canonical) (core) : (popAtomic s core).Canonical := by
  have := @State.setCore_canonical
  grind [popAtomic, State.core_canonical, Core.wf_iff]

theorem execAtomicQueueDrain_canonical {s : State} (sC : s.Canonical) (core) : NextCanonical (execAtomicQueueDrain core s) := by
  unfold execAtomicQueueDrain
  have := @popAtomic_canonical
  have := @asyncFault_canonical
  have := @l1Drop_canonical
  have := @exactAdd_canonical
  have := @peerExact_canonical
  have := @State.atomicSeen_canonical
  grind [State.core_canonical, Exact.Canonical, nextCanonical_next]

theorem execAccSpillDone_canonical {s : State} (sC : s.Canonical) (slice) : NextCanonical (execAccSpillDone slice s) := by
  have := @State.completeSpill_canonical
  grind [execAccSpillDone, nextCanonical_next]

end Sys2Proof.Machine
end


section
/-! The operations of `Machine/Tx.lean` keep the memories canonical. -/

namespace Sys2Proof.Machine

open Sys2Proof

theorem Exe.passAll_canonical {s : State} (sC : s.Canonical) (e w beg outer vs) : (Exe.passAll e s w beg outer vs).Canonical := by
  have := @Exe.define_canonical
  grind [Exe.passAll, foldl_canonical]

theorem Exe.setTx_canonical {s : State} (sC : s.Canonical) (e x) : (Exe.setTx e s x).Canonical :=
  State.setGroup_canonical sC ..

theorem Exe.txState_canonical {s : State} (sC : s.Canonical) (e) : (Exe.txState e s).Canonical :=
  Exe.faultAll_canonical sC ..

theorem Exe.openTx_canonical {s : State} (sC : s.Canonical) (e w) : (Exe.openTx e s w).Canonical := by
  have := @Exe.park_canonical
  have := @Exe.passAll_canonical
  have := @Exe.setTx_canonical
  grind [Exe.openTx, State.canonical_iff]

theorem execTxbeg_canonical {s : State} (sC : s.Canonical) (w) : NextCanonical (execTxbeg w s) := by
  have := @onUnit_canonical
  have := @Exe.leafOnly_canonical
  have := @Exe.txState_canonical
  have := @Exe.park_canonical
  have := @Exe.openTx_canonical
  have := @Exe.passAll_canonical
  have := @Exe.setTx_canonical
  have := @abortLanes_canonical
  grind [execTxbeg]

theorem serialAborts_canonical {s : State} (sC : s.Canonical) (lid j) : (serialAborts s lid j).Canonical := by
  have := @abortLanes_canonical
  grind [serialAborts, foldl_canonical]

theorem validate_canonical {x1 : State} (x1C : x1.Canonical) (lid j a) : (validate lid j a x1).Canonical := by
  have := @State.readPhys_canonical
  have := @abortLanes_canonical
  fun_induction validate lid j a x1 <;> grind

theorem applyWrites_canonical {s : State} (sC : s.Canonical) (core x) : (applyWrites s core x).Canonical := by
  have := @State.writePhys_canonical
  have := @l1Drop_canonical
  grind [applyWrites, foldl_canonical]

theorem commit_canonical {s : State} (sC : s.Canonical) (lid j core) : (commit s lid j core).Canonical := by
  have := @serialAborts_canonical
  have := @validate_canonical
  have := @applyWrites_canonical
  grind [commit]

theorem Exe.closeOuter_canonical {s : State} (sC : s.Canonical) (e w) : (Exe.closeOuter e s w).Canonical := by
  have := @commit_canonical
  have := @countEvent_canonical
  have := @Exe.passAll_canonical
  have := @closeTx_canonical
  grind [Exe.closeOuter]

theorem execTxend_canonical {s : State} (sC : s.Canonical) (w) : NextCanonical (execTxend w s) := by
  have := @onUnit_canonical
  have := @Exe.leafOnly_canonical
  have := @Exe.txState_canonical
  have := @Exe.park_canonical
  have := @Exe.passAll_canonical
  have := @Exe.setTx_canonical
  have := @Exe.faultAll_canonical
  have := @Exe.closeOuter_canonical
  grind [execTxend]

theorem execTxabort_canonical {s : State} (sC : s.Canonical) (w) : NextCanonical (execTxabort w s) := by
  have := @onUnit_canonical
  have := @Exe.leafOnly_canonical
  have := @Exe.txState_canonical
  have := @Exe.done_canonical
  have := @abortLanes_canonical
  grind [execTxabort]

theorem txReport_canonical {s : State} (sC : s.Canonical) (w f) : NextCanonical (txReport w f s) := by
  have := @onUnit_canonical
  have := @Exe.leafOnly_canonical
  have := @Exe.define_canonical
  grind [txReport]

theorem execTxmask_canonical {s : State} (sC : s.Canonical) (w) : NextCanonical (execTxmask w s) :=
  txReport_canonical sC ..

theorem execTxdepth_canonical {s : State} (sC : s.Canonical) (w) : NextCanonical (execTxdepth w s) :=
  txReport_canonical sC ..

theorem execTxserial_canonical {s : State} (sC : s.Canonical) (w) : NextCanonical (execTxserial w s) :=
  txReport_canonical sC ..

theorem execTxcause_canonical {s : State} (sC : s.Canonical) (w) : NextCanonical (execTxcause w s) := by
  have := @onUnit_canonical
  have := @Exe.leafOnly_canonical
  have := @Exe.define_canonical
  grind [execTxcause]

theorem execSerialGrant_canonical {s : State} (sC : s.Canonical) : NextCanonical (execSerialGrant s) := by
  grind [execSerialGrant, State.canonical_iff, nextCanonical_next]

end Sys2Proof.Machine
end

section
/-! The operations of `Machine/Registers.lean` keep the memories canonical. -/

namespace Sys2Proof.Machine

open Sys2Proof

theorem writeControl_canonical {s : State} (sC : s.Canonical) (e k i v) : SomeCanonical (writeControl s e k i v) := by
  have := @State.setCore_canonical
  grind [writeControl, State.core_canonical, Core.wf_iff, someCanonical_some, someCanonical_none]

end Sys2Proof.Machine
end

section
/-! The operations of `Machine/Sync.lean` keep the memories canonical. -/

namespace Sys2Proof.Machine

open Sys2Proof

theorem onceForm_canonical {s : State} {f} (sC : s.Canonical) (fC : ∀ a0, (f a0).Canonical) (os) : NextCanonical (onceForm s os f) := by
  have := @onUnit_canonical
  have := @Exe.unfold_canonical
  grind [onceForm]

theorem Exe.report_canonical {s : State} (sC : s.Canonical) (e w v) : (Exe.report e s w v).Canonical :=
  Exe.define_canonical sC ..

theorem execFence_canonical {s : State} (sC : s.Canonical) (w) : NextCanonical (execFence w s) := by
  have := @onUnit_canonical
  have := @Exe.noTx_canonical
  have := @Exe.park_canonical
  have := @Exe.done_canonical
  grind [execFence]

theorem arriveForm_canonical {s : State} (sC : s.Canonical) (w split) : NextCanonical (arriveForm w split s) := by
  have := @onceForm_canonical
  have := @Exe.noTx_canonical
  have := @checkArrival_canonical
  have := @Exe.park_canonical
  grind [arriveForm]

theorem execBarr_canonical {s : State} (sC : s.Canonical) (w) : NextCanonical (execBarr w s) :=
  arriveForm_canonical sC ..

theorem execBararr_canonical {s : State} (sC : s.Canonical) (w) : NextCanonical (execBararr w s) :=
  arriveForm_canonical sC ..

theorem execBarwait_canonical {s : State} (sC : s.Canonical) (w) : NextCanonical (execBarwait w s) := by
  have := @onUnit_canonical
  have := @Exe.noTx_canonical
  have := @Exe.faultAll_canonical
  have := @Exe.done_canonical
  have := @State.setGalley_canonical
  have := @Exe.park_canonical
  grind [execBarwait]

theorem execBartest_canonical {s : State} (sC : s.Canonical) (w) : NextCanonical (execBartest w s) := by
  have := @onUnit_canonical
  have := @Exe.report_canonical
  grind [execBartest]

theorem execBarphase_canonical {s : State} (sC : s.Canonical) (w) : NextCanonical (execBarphase w s) := by
  have := @onUnit_canonical
  have := @Exe.report_canonical
  grind [execBarphase]

theorem execDmember_canonical {s : State} (sC : s.Canonical) (w) : NextCanonical (execDmember w s) := by
  have := @onUnit_canonical
  have := @Exe.report_canonical
  grind [execDmember]

theorem queueForm_canonical {s : State} {f} (sC : s.Canonical) (fC : ∀ a0 a1 a2, a2.Wf → (f a0 a1 a2).Canonical) (w) :
    NextCanonical (queueForm s w f) := by
  have := @onUnit_canonical
  have := @Exe.leafOnly_canonical
  have := @Exe.faultAll_canonical
  grind [queueForm, State.core_canonical]

theorem pushEntry_canonical {x : Core} (xC : x.Wf) (l q v) : (pushEntry l q x v).Wf := by
  grind [pushEntry, Memory.wf_writeNat, Core.wf_iff]

theorem popEntries_canonical {x1 : Core} (x1C : x1.Wf) (l q a) : (popEntries l q a x1).2.Wf := by
  fun_induction popEntries l q a x1 <;> grind [Core.wf_iff]

theorem execQpush_canonical {s : State} (sC : s.Canonical) (w) : NextCanonical (execQpush w s) := by
  have := @queueForm_canonical
  have := @Exe.noTx_canonical
  have := @Exe.park_canonical
  have := @Exe.done_canonical
  have := @State.setCore_canonical
  have := @pushEntry_canonical
  grind [execQpush, foldl_canonical, foldl_wf, foldl_core, nextCanonical_next]

theorem execQpop_canonical {s : State} (sC : s.Canonical) (w) : NextCanonical (execQpop w s) := by
  have := @queueForm_canonical
  have := @Exe.noTx_canonical
  have := @Exe.park_canonical
  have := @popEntries_canonical
  have := @Exe.define_canonical
  have := @State.setCore_canonical
  grind [execQpop]

theorem execQcount_canonical {s : State} (sC : s.Canonical) (w) : NextCanonical (execQcount w s) := by
  have := @queueForm_canonical
  have := @Exe.report_canonical
  grind [execQcount]

theorem execQspace_canonical {s : State} (sC : s.Canonical) (w) : NextCanonical (execQspace w s) := by
  have := @queueForm_canonical
  have := @Exe.report_canonical
  grind [execQspace]

theorem execIcinv_canonical {s : State} (sC : s.Canonical) (w) : NextCanonical (execIcinv w s) := by
  have := @onceForm_canonical
  have := @Exe.noTx_canonical
  have := @Exe.fault_canonical
  have := @Exe.done_canonical
  have := @State.fresh_canonical
  grind [execIcinv, State.canonical_iff]

theorem execFbar_canonical {s : State} (sC : s.Canonical) (w) : NextCanonical (execFbar w s) := by
  have := @onUnit_canonical
  have := @Exe.noTx_canonical
  have := @Exe.park_canonical
  have := @Exe.done_canonical
  grind [execFbar]

theorem l1DropRange_canonical {s : State} (sC : s.Canonical) (core a n) : (l1DropRange s core a n).Canonical := by
  have := @State.setCore_canonical
  grind [l1DropRange, State.core_canonical, Core.wf_iff]

theorem execL1inv_canonical {s : State} (sC : s.Canonical) (w) : NextCanonical (execL1inv w s) := by
  have := @onceForm_canonical
  have := @Exe.fault_canonical
  have := @Exe.done_canonical
  have := @State.setCore_canonical
  have := @l1DropRange_canonical
  grind [execL1inv, State.core_canonical, Core.wf_iff]

theorem discardText_canonical {s : State} (sC : s.Canonical) (t k a n) : (discardText s t k a n).Canonical := by
  have := @l1DropRange_canonical
  have := @State.setCtx_canonical
  grind [discardText, State.canonical_iff, foldl_canonical]

theorem execIcinvDone_canonical {s : State} (sC : s.Canonical) (id) : NextCanonical (execIcinvDone id s) := by
  have := @discardText_canonical
  grind [execIcinvDone, State.canonical_iff, nextCanonical_next]

theorem execRdctl_canonical {s : State} (sC : s.Canonical) (w) : NextCanonical (execRdctl w s) := by
  have := @onceForm_canonical
  have := @Exe.report_canonical
  have := @Exe.faultAll_canonical
  grind [execRdctl]

theorem execWrctl_canonical {s : State} (sC : s.Canonical) (w) : NextCanonical (execWrctl w s) := by
  have := @onceForm_canonical
  have := @Exe.noTx_canonical
  have := @writeControl_canonical
  have := @Exe.done_canonical
  have := @Exe.faultAll_canonical
  grind [execWrctl, someCanonical_some, someCanonical_none]

theorem execRdclk_canonical {s : State} (sC : s.Canonical) (w) : NextCanonical (execRdclk w s) := by
  have := @onUnit_canonical
  have := @Exe.report_canonical
  grind [execRdclk]

theorem execNap_canonical {s : State} (sC : s.Canonical) (w) : NextCanonical (execNap w s) := by
  have := @onceForm_canonical
  have := @Exe.park_canonical
  grind [execNap]

theorem execNapExpiry_canonical {s : State} (sC : s.Canonical) (g) : NextCanonical (execNapExpiry g s) := by
  have := @putThread_canonical
  grind [execNapExpiry, nextCanonical_next]

theorem setRound_canonical {x : Core} (xC : x.Wf) (q c) : (setRound x q c).Wf := by
  grind [setRound, Core.wf_iff]

theorem execYield_canonical {s : State} (sC : s.Canonical) (w) : NextCanonical (execYield w s) := by
  have := @onUnit_canonical
  have := @Exe.done_canonical
  have := @State.setCore_canonical
  have := @setRound_canonical
  grind [execYield, State.core_canonical, foldl_canonical]

theorem execHint_canonical {s : State} (sC : s.Canonical) (w) : NextCanonical (execHint w s) := by
  have := @onUnit_canonical
  have := @Exe.done_canonical
  grind [execHint]

theorem execTrap_canonical {s : State} (sC : s.Canonical) (w) : NextCanonical (execTrap w s) := by
  have := @onUnit_canonical
  have := @Exe.fault_canonical
  grind [execTrap]

theorem execChk_canonical {s : State} (sC : s.Canonical) (w) : NextCanonical (execChk w s) := by
  have := @onceForm_canonical
  have := @Exe.fault_canonical
  have := @Exe.done_canonical
  grind [execChk]

theorem execBrk_canonical {s : State} (sC : s.Canonical) (w) : NextCanonical (execBrk w s) := by
  have := @onUnit_canonical
  have := @Exe.done_canonical
  have := @Exe.park_canonical
  have := @State.setCtx_canonical
  grind [execBrk]

end Sys2Proof.Machine
end

section
/-! The operations of `Machine/Native.lean` keep the memories canonical. -/

namespace Sys2Proof.Machine

open Sys2Proof

theorem nativeUnit_canonical {s : State} {f} (sC : s.Canonical) (fC : ∀ a0 a1, (f a0 a1).Canonical) : NextCanonical (nativeUnit s f) := by
  have := @onUnit_canonical
  grind [nativeUnit]

theorem Exe.nativeDone_canonical {s : State} (sC : s.Canonical) (e w n) : (Exe.nativeDone e s w n).Canonical :=
  Exe.nativeIssue_canonical sC ..

theorem execSpill_canonical {s : State} (sC : s.Canonical) (w) : NextCanonical (execSpill w s) := by
  have := @nativeUnit_canonical
  have := @Exe.faultAll_canonical
  have := @Exe.nativeDone_canonical
  have := @State.setCore_canonical
  grind [execSpill, State.core_canonical, Memory.wf_writeNat, Core.wf_iff, foldl_canonical, foldl_wf, foldl_core, nextCanonical_next]

theorem execFill_canonical {s : State} (sC : s.Canonical) (w) : NextCanonical (execFill w s) := by
  have := @nativeUnit_canonical
  have := @Exe.faultAll_canonical
  have := @Exe.nativeDone_canonical
  grind [execFill, State.core_canonical]

theorem execMat_canonical {s : State} (sC : s.Canonical) (w) : NextCanonical (execMat w s) := by
  have := @nativeUnit_canonical
  have := @Exe.nativeDone_canonical
  grind [execMat]

theorem execTnop_canonical {s : State} (sC : s.Canonical) (w) : NextCanonical (execTnop w s) := by
  have := @nativeUnit_canonical
  have := @Exe.nativeDone_canonical
  grind [execTnop]

theorem execHmov_canonical {s : State} (sC : s.Canonical) (w) : NextCanonical (execHmov w s) := by
  have := @nativeUnit_canonical
  have := @Exe.nativeDone_canonical
  grind [execHmov]

theorem execLdk_canonical {s : State} (sC : s.Canonical) (w) : NextCanonical (execLdk w s) := by
  have := @nativeUnit_canonical
  have := @l1Pool_canonical
  have := @Exe.nativeDone_canonical
  grind [execLdk]

theorem execUnf_canonical {s : State} (sC : s.Canonical) (w) : NextCanonical (execUnf w s) := by
  have := @nativeUnit_canonical
  have := @Exe.park_canonical
  have := @unfold_canonical
  grind [execUnf]

theorem putNative_canonical {s : State} (sC : s.Canonical) (u n) : (putNative s u n).Canonical := by
  have := @galleyFault_canonical
  have := @State.setGalley_canonical
  grind [putNative]

theorem execMemoryReply_canonical {s : State} (sC : s.Canonical) (gid) : NextCanonical (execMemoryReply gid s) := by
  have := @State.choose_canonical
  have := @putNative_canonical
  grind [execMemoryReply, nextCanonical_next]

theorem Exe.storeEach_canonical {x2 : State} (x2C : x2.Canonical) (e a d x1) : (Exe.storeEach e a d x1 x2).Canonical := by
  have := @Exe.loadAll_canonical
  have := @Exe.storeAll_canonical
  have := @Exe.fault_canonical
  fun_induction Exe.storeEach e a d x1 x2 <;> grind

theorem Exe.performStore_canonical {s : State} (sC : s.Canonical) (e a d) : (Exe.performStore e s a d).Canonical := by
  have := @Exe.storeSpad_canonical
  have := @Exe.fault_canonical
  have := @Exe.storeEach_canonical
  grind [Exe.performStore, foldl_canonical]

theorem execStorePerformed_canonical {s : State} (sC : s.Canonical) (gid) : NextCanonical (execStorePerformed gid s) := by
  unfold execStorePerformed
  refine (nextCanonical_next _).mpr ?_
  split
  · exact sC
  · extract_lets us
    split
    · exact sC
    · have hu := State.choose_canonical sC us.length
      revert hu
      generalize s.choose us.length = r
      obtain ⟨i, u⟩ := r
      intro uC
      dsimp only
      split
      · exact uC
      · split
        · exact uC
        · split
          · split
            · exact uC
            · exact putNative_canonical (Exe.performStore_canonical uC ..) ..
          · exact uC

end Sys2Proof.Machine
end

section
/-! The operations of `Machine/EngineRun.lean` keep the memories canonical. -/

namespace Sys2Proof.Machine

open Sys2Proof

theorem engScan_canonical {s : State} (sC : s.Canonical) (v id a rs) : (engScan s v id a rs).2.Canonical := by
  have := @lookAll_canonical
  have := @askWalk_canonical
  have := @joinFault_canonical
  grind [engScan, foldl_canonical]

theorem readTargets_canonical {s : State} (sC : s.Canonical) (a) : (readTargets s a).2.Canonical := by
  have := @State.readFor_canonical
  fun_induction readTargets s a <;> grind

theorem engRead_canonical {s : State} {go} (sC : s.Canonical) (goC : ∀ a0 a1, a1.Canonical → (go a0 a1).Canonical) (v id rs) :
    (engRead s v id rs go).Canonical := by
  have := @engScan_canonical
  have := @readTargets_canonical
  grind [engRead, Ran.Canonical]

theorem readPlace_canonical {s : State} (sC : s.Canonical) (core p bits t) : (readPlace s core p bits t).2.Canonical := by
  have := @State.readFor_canonical
  grind [readPlace, State.core_canonical]

theorem writePlace_canonical {s : State} (sC : s.Canonical) (core p bits t v) : (writePlace s core p bits t v).Canonical := by
  have := @State.setCore_canonical
  have := @State.writePhys_canonical
  have := @State.readPhys_canonical
  grind [writePlace, State.core_canonical, Memory.wf_writeBytes, Core.wf_iff]

theorem Aim.make_canonical {s : State} (sC : s.Canonical) (core a) : (Aim.make core s a).Canonical := by
  have := @readPlace_canonical
  have := @writePlace_canonical
  grind [Aim.make]

theorem doMoves_canonical {s : State} (sC : s.Canonical) (core as) : (doMoves core as s).2.Canonical := by
  have := @Aim.make_canonical
  grind [doMoves, foldl_canonical]

theorem runMoves_canonical {s : State} (sC : s.Canonical) (v id core ms) : (runMoves s v id core ms).Canonical := by
  have := @engScan_canonical
  have := @doMoves_canonical
  have := @State.choose_canonical
  have := @Aim.make_canonical
  grind [runMoves, foldl_canonical, Ran.Canonical]

theorem overlapCopy_canonical {old : Memory} {x1 : Memory} {x2 : State} (oldC : old.wf = true) (x1C : x1.wf = true) (x2C : x2.Canonical)
    (src dst a) :
    (overlapCopy old src dst a x1 x2).1.wf = true ∧ (overlapCopy old src dst a x1 x2).2.Canonical := by
  have := @State.choose_canonical
  fun_induction overlapCopy old src dst a x1 x2 <;> grind [Memory.wf_write]

theorem engLayout_canonical {s : State} {go} (sC : s.Canonical) (goC : ∀ a0 a1 a2, a2.Canonical → (go a0 a1 a2).Canonical) (v id copy cs) :
    (engLayout s v id copy cs go).Canonical := by
  have := @engRead_canonical
  grind [engLayout, Ran.Canonical]

theorem engScales_canonical {s : State} {go} (sC : s.Canonical) (goC : ∀ a0 a1, a1.Canonical → (go a0 a1).Canonical) (v id r cs) :
    (engScales s v id r cs go).Canonical := by
  have := @engRead_canonical
  grind [engScales, Ran.Canonical]

theorem Command.begin_canonical {s : State} (sC : s.Canonical) (c) : (Command.begin c s).Canonical := by
  have := @State.choose_canonical
  have := @overlapCopy_canonical
  have := @State.setCore_canonical
  have := @runMoves_canonical
  have := @engLayout_canonical
  have := @engScales_canonical
  grind [Command.begin, State.core_canonical, Memory.wf_writeBytes, Core.wf_iff, Ran.Canonical]

theorem Command.run_canonical {s : State} (sC : s.Canonical) (c) : (Command.run c s).Canonical := by
  have := @runMoves_canonical
  have := @Command.begin_canonical
  grind [Command.run, Ran.Canonical]

theorem Core.ringDone_canonical {x : Core} (xC : x.Wf) (k j) : (Core.ringDone x k j).Wf := by
  grind [Core.ringDone, Core.wf_iff]

theorem Command.finish_canonical {s : State} (sC : s.Canonical) (c) : (Command.finish c s).Canonical := by
  have := @asyncFault_canonical
  have := @State.dropCommand_canonical
  have := @State.addCounter_canonical
  grind [Command.finish]

theorem Command.moved_canonical {s : State} (sC : s.Canonical) (c left) : (Command.moved c left s).Canonical := by
  unfold Command.moved
  have := @State.setCore_canonical
  have := @Core.ringDone_canonical
  have := @Command.finish_canonical
  have := @State.setCommand_canonical
  grind [State.core_canonical]

theorem execEngineCommandComplete_canonical {s : State} (sC : s.Canonical) (id) : NextCanonical (execEngineCommandComplete id s) := by
  have := @Command.finish_canonical
  have := @Command.run_canonical
  have := @Command.moved_canonical
  grind [execEngineCommandComplete, Ran.Canonical, nextCanonical_next]

theorem engElems_canonical {s : State} {go} (sC : s.Canonical) (goC : ∀ a0 a1, a1.Canonical → (go a0 a1).Canonical) (v id rc cs) :
    (engElems s v id rc cs go).Canonical := by
  have := @engLayout_canonical
  have := @engRead_canonical
  grind [engElems, Ran.Canonical]

theorem convElems_canonical {s : State} {go} (sC : s.Canonical) (goC : ∀ a0 a1, a1.Canonical → (go a0 a1).Canonical) (c m) :
    (convElems s c m go).Canonical := by
  have := @engElems_canonical
  grind [convElems, Ran.Canonical]

theorem execEngineAccessFault_canonical {s : State} (sC : s.Canonical) (id) : NextCanonical (execEngineAccessFault id s) := by
  have := @convElems_canonical
  have := @Command.run_canonical
  have := @State.setCore_canonical
  have := @State.dropCommand_canonical
  have := @asyncFault_canonical
  grind [execEngineAccessFault, State.core_canonical, Core.wf_iff, Ran.Canonical, nextCanonical_next]

theorem execSequencerEmit_canonical {s : State} (sC : s.Canonical) (core slot) : NextCanonical (execSequencerEmit core slot s) := by
  have := @pickEngine_canonical
  have := @State.fresh_canonical
  have := @State.setCore_canonical
  have := @Core.setSeq_canonical
  grind [execSequencerEmit, State.core_canonical, State.canonical_iff, nextCanonical_next]

end Sys2Proof.Machine
end

section
/-! The operations of `Machine/MatrixRun.lean` keep the memories canonical. -/

namespace Sys2Proof.Machine

open Sys2Proof

theorem MatIn.tiles_canonical {q : MatIn} (qC : q.x.Wf) : (MatIn.tiles q).wf = true :=
  foldl_wf qC.2 (fun _ _ mC => foldl_wf mC (fun _ _ mC => Memory.wf_writeNat mC ..) _) _

theorem MatIn.retire_canonical {q : MatIn} {s : State} (qC : q.x.Wf) (sC : s.Canonical) (core) : (MatIn.retire q s core).Canonical := by
  have := @State.dropCommand_canonical
  have := @State.setCore_canonical
  have := @MatIn.tiles_canonical
  grind [MatIn.retire, Core.wf_iff, foldl_canonical]

theorem execMatrixRetire_canonical {s : State} (sC : s.Canonical) (core) : NextCanonical (execMatrixRetire core s) := by
  have := @convElems_canonical
  have := @MatIn.retire_canonical
  grind [execMatrixRetire, State.core_canonical, Ran.Canonical, nextCanonical_next]

end Sys2Proof.Machine
end

section
/-! The operations of `Machine/Relayouts.lean` keep the memories canonical. -/

namespace Sys2Proof.Machine

open Sys2Proof

theorem State.setRelayout_canonical {s : State} (sC : s.Canonical) (r) : (State.setRelayout s r).Canonical := by
  grind [State.setRelayout, State.canonical_iff]

theorem Relayout.fail_canonical {s : State} (sC : s.Canonical) (r c va) : (Relayout.fail r s c va).Canonical := by
  have := @asyncFault_canonical
  have := @State.setRelayout_canonical
  grind [Relayout.fail]

theorem Relayout.finish_canonical {s : State} (sC : s.Canonical) (r) : (Relayout.finish r s).Canonical := by
  have := @Relayout.fail_canonical
  have := @State.writePhys_canonical
  have := @updateRec_canonical
  have := @State.addCounter_canonical
  grind [Relayout.finish, State.canonical_iff]

theorem execRelayoutTileQueue_canonical {s : State} (sC : s.Canonical) (id) : NextCanonical (execRelayoutTileQueue id s) := by
  have := @Relayout.finish_canonical
  have := @engScan_canonical
  have := @Relayout.fail_canonical
  have := @State.setRelayout_canonical
  grind [execRelayoutTileQueue, nextCanonical_next]

theorem setEntry_canonical {s : State} (sC : s.Canonical) (t bit v) : (setEntry s t bit v).Canonical := by
  have := @State.atomicAt_canonical
  grind [setEntry]

theorem tileScan_canonical {s : State} (sC : s.Canonical) (r t) : (tileScan s r t).2.Canonical := by
  have := @engScan_canonical
  grind [tileScan]

theorem readHalves_canonical {x1 : State} (x1C : x1.Canonical) (a) : (readHalves a x1).2.Canonical := by
  have := @State.readFor_canonical
  fun_induction readHalves a x1 <;> grind

theorem execTileConversionStart_canonical {s : State} (sC : s.Canonical) (stack) : NextCanonical (execTileConversionStart stack s) := by
  have := @tileScan_canonical
  have := @Relayout.fail_canonical
  have := @readHalves_canonical
  have := @setEntry_canonical
  have := @State.setRelayout_canonical
  grind [execTileConversionStart, nextCanonical_next]

theorem readSpan_canonical {s : State} (sC : s.Canonical) (ps va n) : (readSpan s ps va n).2.Canonical := by
  unfold readSpan
  refine foldl_gather (acc := ([], s)) (fun acc i accC => ?_) _ sC
  exact State.readFor_canonical accC none (targetOf ps (va + i)) 1

theorem writeSpan_canonical {s : State} (sC : s.Canonical) (ps va bs) : (writeSpan s ps va bs).Canonical := by
  have := @State.writePhys_canonical
  grind [writeSpan, foldl_canonical]

theorem copyTile_canonical {s : State} (sC : s.Canonical) (r a) : (copyTile s r a).Canonical := by
  have := @readSpan_canonical
  have := @writeSpan_canonical
  grind [copyTile, foldl_canonical]

theorem abortTile_canonical {s : State} (sC : s.Canonical) (r t) : (abortTile s r t).Canonical := by
  have := @abortLanes_canonical
  grind [abortTile, foldl_canonical]

theorem Relayout.tileDone_canonical {s : State} (sC : s.Canonical) (r : Relayout) (a : TileConv) : (r.tileDone a s).Canonical := by
  unfold Relayout.tileDone
  have := @copyTile_canonical
  have := @setEntry_canonical
  have := @abortTile_canonical
  have := @State.setRelayout_canonical
  have := @Relayout.finish_canonical
  grind [State.canonical_iff]

theorem execTileConversionDone_canonical {s : State} (sC : s.Canonical) (stack) : NextCanonical (execTileConversionDone stack s) := by
  have := @Relayout.fail_canonical
  have := @Relayout.tileDone_canonical
  grind [execTileConversionDone, nextCanonical_next]

theorem finishTiles_canonical {s : State} (sC : s.Canonical) (t) : (finishTiles s t).Canonical := by
  have := @Relayout.tileDone_canonical
  grind [finishTiles, foldl_canonical]

end Sys2Proof.Machine
end

section
/-! The operations of `Machine/Package.lean` keep the memories canonical. -/

namespace Sys2Proof.Machine

open Sys2Proof

theorem State.setPkg_canonical {s : State} {p : Package} (sC : s.Canonical) (pC : p.recBuf.wf = true) : (State.setPkg s p).Canonical := by
  grind [State.setPkg, State.canonical_iff]

theorem refusePf_canonical {s : State} (sC : s.Canonical) (off) : (refusePf s off).Canonical := by
  grind [refusePf, State.setPkg_canonical, State.canonical_iff]

theorem refuseTen_canonical {s : State} (sC : s.Canonical) (t off) : (refuseTen s t off).Canonical :=
  State.setTenant_canonical sC ..

theorem stopBringUp_canonical {s : State} (sC : s.Canonical) (code unit) : (stopBringUp s code unit).Canonical := by
  grind [stopBringUp, State.setPkg_canonical, State.canonical_iff]

theorem nextStep_canonical {s : State} (sC : s.Canonical) : (nextStep s).Canonical := by
  grind [nextStep, State.setPkg_canonical, State.canonical_iff]

theorem keepWorld_canonical {s : State} {n : State} (sC : s.Canonical) (nC : n.Canonical) : (keepWorld s n).Canonical := by
  grind [keepWorld, State.canonical_iff]

theorem execPowerGood_canonical {s : State} (sC : s.Canonical) : NextCanonical (execPowerGood s) := by
  have := @State.reset_canonical
  grind [execPowerGood, keepWorld_canonical, State.setPkg_canonical, State.canonical_iff, nextCanonical_next]

theorem raiseCoolwarn_canonical {s : State} (sC : s.Canonical) : (raiseCoolwarn s).Canonical := by
  have := @State.sendMsi_canonical
  grind [raiseCoolwarn, State.setPkg_canonical, State.canonical_iff]

theorem warmReset_canonical {s : State} (sC : s.Canonical) : (warmReset s).Canonical := by
  have := @State.reset_canonical
  have := @raiseCoolwarn_canonical
  grind [warmReset, keepWorld_canonical, State.canonical_iff]

theorem execPerst_canonical {s : State} (sC : s.Canonical) : NextCanonical (execPerst s) := by
  have := @warmReset_canonical
  grind [execPerst, nextCanonical_next]

theorem execPfFlr_canonical {s : State} (sC : s.Canonical) : NextCanonical (execPfFlr s) := by
  have := @warmReset_canonical
  grind [execPfFlr, nextCanonical_next]

theorem clearCluster_canonical {s : State} (sC : s.Canonical) (cl) : (clearCluster s cl).Canonical := by
  have := @State.setCluster_canonical
  grind [clearCluster, State.canonical_iff, CoresWf.filter]

theorem clearWindow_canonical {s : State} (sC : s.Canonical) (base) : (clearWindow s base).Canonical := by
  grind [clearWindow, Memory.wf_zero, State.canonical_iff]

theorem withQueues_canonical {s : State} (h : s.Canonical) (qs : Tbl Queue) (ps : List Packet) (ms : List (Nat × Nat)) :
    State.Canonical { s with queues := qs, packets := ps, msix := ms } := h.beside rfl rfl rfl rfl rfl

theorem execVfFlr_canonical {s : State} (sC : s.Canonical) (t) : NextCanonical (execVfFlr t s) := by
  unfold execVfFlr
  extract_lets s₁ s₂ x s₃ s₄
  have h₁ : s₁.Canonical := foldl_canonical (discardExact_canonical sC t) (fun _ _ h => stopRelayouts_canonical h ..) _
  have h₂ : s₂.Canonical := foldl_canonical (finishTiles_canonical h₁ t) (fun _ _ h => contextReset_canonical h ..) _
  have h₃ : s₃.Canonical := withQueues_canonical h₂ _ _ _
  have h₄ : s₄.Canonical := foldl_canonical h₃ (fun _ _ h => clearCluster_canonical h ..) _
  exact (nextCanonical_next _).mpr (foldl_canonical h₄ (fun _ _ h => clearWindow_canonical h ..) _)

theorem execPcieLinkUp_canonical {s : State} (sC : s.Canonical) : NextCanonical (execPcieLinkUp s) := by
  grind [execPcieLinkUp, State.setPkg_canonical, State.canonical_iff, nextCanonical_next]

theorem bringUpTick_canonical {s : State} (sC : s.Canonical) : (bringUpTick s).Canonical := by
  grind [bringUpTick, State.setPkg_canonical, State.canonical_iff]

theorem execFirmwareCheckDone_canonical {s : State} (sC : s.Canonical) : NextCanonical (execFirmwareCheckDone s) := by
  have := @nextStep_canonical
  have := @stopBringUp_canonical
  grind [execFirmwareCheckDone, State.setPkg_canonical, State.canonical_iff, nextCanonical_next]

theorem execStacksReady_canonical {s : State} (sC : s.Canonical) (f) : NextCanonical (execStacksReady f s) := by
  unfold execStacksReady
  have := @stopBringUp_canonical
  have := @nextStep_canonical
  grind [State.canonical_iff, Memory.wf_nil, nextCanonical_next]

theorem execLinksTrained_canonical {s : State} (sC : s.Canonical) (f ports) : NextCanonical (execLinksTrained f ports s) := by
  unfold execLinksTrained
  have := @stopBringUp_canonical
  have := @nextStep_canonical
  grind [State.setPkg_canonical, State.canonical_iff, nextCanonical_next]

theorem execDiesLeaveReset_canonical {s : State} (sC : s.Canonical) (f) : NextCanonical (execDiesLeaveReset f s) := by
  unfold execDiesLeaveReset
  have := @stopBringUp_canonical
  have := @nextStep_canonical
  grind [State.canonical_iff, CoresWf.nil, nextCanonical_next]

theorem execIdentityReady_canonical {s : State} (sC : s.Canonical) (ok) : NextCanonical (execIdentityReady ok s) := by
  have := @stopBringUp_canonical
  grind [execIdentityReady, State.setPkg_canonical, State.canonical_iff, nextCanonical_next]

theorem recoveryWrite_canonical {s : State} (sC : s.Canonical) (v) : (recoveryWrite s v).Canonical := by
  have := @refusePf_canonical
  grind [recoveryWrite, State.setPkg_canonical, State.canonical_iff]

theorem execRecoveryGo_canonical {s : State} (sC : s.Canonical) (v) : NextCanonical (execRecoveryGo v s) := by
  have := @recoveryWrite_canonical
  grind [execRecoveryGo, nextCanonical_next]

theorem execRecoveryCheckDone_canonical {s : State} (sC : s.Canonical) : NextCanonical (execRecoveryCheckDone s) := by
  grind [execRecoveryCheckDone, State.setPkg_canonical, State.canonical_iff, nextCanonical_next]

theorem coolRead_canonical {s : State} (sC : s.Canonical) (inlet flow) : (coolRead s inlet flow).Canonical := by
  have := @raiseCoolwarn_canonical
  grind [coolRead, State.setPkg_canonical, State.canonical_iff]

theorem execCoolantOutOfRating_canonical {s : State} (sC : s.Canonical) (inlet flow) :
    NextCanonical (execCoolantOutOfRating inlet flow s) := by
  have := @coolRead_canonical
  grind [execCoolantOutOfRating, nextCanonical_next]

theorem mgmtstatWrite_canonical {s : State} (sC : s.Canonical) (v) : (mgmtstatWrite s v).Canonical := by
  have := @raiseCoolwarn_canonical
  grind [mgmtstatWrite, State.setPkg_canonical, State.canonical_iff]

theorem execCoolwarnClear_canonical {s : State} (sC : s.Canonical) (v) : NextCanonical (execCoolwarnClear v s) := by
  have := @mgmtstatWrite_canonical
  grind [execCoolwarnClear, nextCanonical_next]

theorem State.setDie_canonical {s : State} (sC : s.Canonical) (d x) : (State.setDie s d x).Canonical := by
  grind [State.setDie, State.setPkg_canonical, State.canonical_iff]

theorem execFluxEstimateUpdate_canonical {s : State} (sC : s.Canonical) (pair flux) :
    NextCanonical (execFluxEstimateUpdate pair flux s) := by
  have := @State.setDie_canonical
  grind [execFluxEstimateUpdate, nextCanonical_next]

theorem execClockStep_canonical {s : State} (sC : s.Canonical) (d) : NextCanonical (execClockStep d s) := by
  have := @State.setDie_canonical
  grind [execClockStep, State.setPkg_canonical, State.canonical_iff, nextCanonical_next]

theorem readDie_canonical {s : State} (sC : s.Canonical) (r d) : (readDie r s d).Canonical := by
  have := @State.setDie_canonical
  grind [readDie]

theorem allFatal_canonical {s : State} (sC : s.Canonical) (cause detail) : (allFatal s cause detail).Canonical := by
  have := @enterFatal_canonical
  grind [allFatal, foldl_canonical]

theorem stopAll_canonical {s : State} (sC : s.Canonical) : (stopAll s).Canonical := by
  grind [stopAll, State.canonical_iff]

theorem holdDies_canonical {s : State} (sC : s.Canonical) : (holdDies s).Canonical := by
  grind [holdDies, State.canonical_iff, CoresWf.nil]

theorem execThermalTrigger_canonical {s : State} (sC : s.Canonical) (r) : NextCanonical (execThermalTrigger r s) := by
  unfold execThermalTrigger
  extract_lets s₁ p₁ s₂ p₂ s₃ p₃
  have h₁ : s₁.Canonical := foldl_canonical sC (fun _ _ h => readDie_canonical h ..) _
  have h₂ : s₂.Canonical :=
    ite_canonical (State.setPkg_canonical h₁ h₁.buffer) (ite_canonical (State.setPkg_canonical h₁ h₁.buffer) h₁)
  have h₃ : s₃.Canonical := State.setPkg_canonical h₂ h₂.buffer
  have h₄ := State.setPkg_canonical (p := { p₃ with level4 := true }) h₃ h₃.buffer
  refine (nextCanonical_next _).mpr ?_
  split
  · exact ite_canonical h₃ (holdDies_canonical (allFatal_canonical (stopAll_canonical h₄) ..))
  · exact coolRead_canonical h₂ ..

theorem hitXlats_canonical {x1 : State} (x1C : x1.Canonical) (d a) : (hitXlats d a x1).2.Canonical := by
  have := @State.choose_canonical
  fun_induction hitXlats d a x1 <;> grind

theorem execScrubError_canonical {s : State} (sC : s.Canonical) (pa corrected) : NextCanonical (execScrubError pa corrected s) := by
  have := @hitXlats_canonical
  have := @allFatal_canonical
  grind [execScrubError, State.setPkg_canonical, State.canonical_iff, nextCanonical_next]

theorem execFabricPortStateChange_canonical {s : State} (sC : s.Canonical) (p st) : NextCanonical (execFabricPortStateChange p st s) := by
  grind [execFabricPortStateChange, State.setPkg_canonical, State.canonical_iff, nextCanonical_next]

theorem execSlotGrant_canonical {s : State} (sC : s.Canonical) (res cycle ready) : NextCanonical (execSlotGrant res cycle ready s) := by
  grind [execSlotGrant, State.setPkg_canonical, State.canonical_iff, nextCanonical_next]

theorem writeImage_canonical {s : State} (sC : s.Canonical) (t) : (writeImage s t).Canonical := by
  have := @State.writePhys_canonical
  grind [writeImage]

theorem execSlotTableUpdate_canonical {s : State} (sC : s.Canonical) (cs) : NextCanonical (execSlotTableUpdate cs s) := by
  have := @writeImage_canonical
  grind [execSlotTableUpdate, State.setPkg_canonical, foldl_canonical, State.canonical_iff, nextCanonical_next]

end Sys2Proof.Machine
end

section
/-! The operations of `Machine/Writes.lean` keep the memories canonical. -/

namespace Sys2Proof.Machine

open Sys2Proof

theorem releaseCores_canonical {s : State} (sC : s.Canonical) : (releaseCores s).Canonical := by
  obtain ⟨hm, hh, hp, hc, hb⟩ := (State.canonical_iff s).mp sC
  exact (State.canonical_iff _).mpr ⟨hm, hh, hp, hc.map (f := fun p => { p.2 with launch := s.holds p.1 }) fun _ h => h, hb⟩

theorem gainCluster_canonical {s : State} (sC : s.Canonical) (t cl) : (gainCluster t s cl).Canonical := by
  have := @clearCluster_canonical
  grind [gainCluster, State.setPkg_canonical, State.canonical_iff]

theorem gainWindow_canonical {s : State} (sC : s.Canonical) (t gib) : (gainWindow t s gib).Canonical := by
  have := @clearWindow_canonical
  grind [gainWindow, State.setPkg_canonical, State.canonical_iff]

theorem clmaskWrite_canonical {s : State} (sC : s.Canonical) (t v) : (clmaskWrite s t v).Canonical := by
  have := @refuseTen_canonical
  have := @State.setTenant_canonical
  have := @gainCluster_canonical
  grind [clmaskWrite, foldl_canonical]

theorem cemaskWrite_canonical {s : State} (sC : s.Canonical) (t v) : (cemaskWrite s t v).Canonical := by
  have := @refuseTen_canonical
  have := @State.setTenant_canonical
  grind [cemaskWrite]

theorem winWrite_canonical {s : State} (sC : s.Canonical) (t n v) : (winWrite s t n v).Canonical := by
  have := @refuseTen_canonical
  have := @gainWindow_canonical
  have := @State.setTenant_canonical
  grind [winWrite]

theorem execTenConfigWrite_canonical {s : State} (sC : s.Canonical) (t reg v) : NextCanonical (execTenConfigWrite t reg v s) := by
  unfold execTenConfigWrite
  have := @clmaskWrite_canonical
  have := @cemaskWrite_canonical
  have := @winWrite_canonical
  grind [nextCanonical_next]

theorem tenCtlWrite_canonical {s : State} (sC : s.Canonical) (t v) : (tenCtlWrite s t v).Canonical := by
  have := @refuseTen_canonical
  have := @State.setTenant_canonical
  have := @writeImage_canonical
  grind [tenCtlWrite]

theorem execTenEnable_canonical {s : State} (sC : s.Canonical) (t v) : NextCanonical (execTenEnable t v s) := by
  have := @tenCtlWrite_canonical
  grind [execTenEnable, nextCanonical_next]

theorem tenStatusWrite_canonical {s : State} (sC : s.Canonical) (t v) : (tenStatusWrite s t v).Canonical := by
  have := @State.setTenant_canonical
  grind [tenStatusWrite]

theorem pfStatusWrite_canonical {s : State} (sC : s.Canonical) (v) : (pfStatusWrite s v).Canonical := by
  grind [pfStatusWrite, State.setPkg_canonical, State.canonical_iff]

theorem execRefusedClear_canonical {s : State} (sC : s.Canonical) (tgt v) : NextCanonical (execRefusedClear tgt v s) := by
  unfold execRefusedClear
  have := @pfStatusWrite_canonical
  have := @tenStatusWrite_canonical
  grind [nextCanonical_next]

theorem signctlWrite_canonical {s : State} (sC : s.Canonical) (t v) : (signctlWrite s t v).Canonical := by
  have := @refuseTen_canonical
  have := @State.setTenant_canonical
  grind [signctlWrite]

theorem signaddrWrite_canonical {s : State} (sC : s.Canonical) (t v) : (signaddrWrite s t v).Canonical := by
  have := @refuseTen_canonical
  have := @State.setTenant_canonical
  grind [signaddrWrite]

theorem execSignerKeyRegister_canonical {s : State} (sC : s.Canonical) (t v) : NextCanonical (execSignerKeyRegister t v s) := by
  have := @signctlWrite_canonical
  grind [execSignerKeyRegister, nextCanonical_next]

theorem execSignerKeyRemove_canonical {s : State} (sC : s.Canonical) (t v) : NextCanonical (execSignerKeyRemove t v s) := by
  have := @signctlWrite_canonical
  grind [execSignerKeyRemove, nextCanonical_next]

theorem execSignerKeyCopyDone_canonical {s : State} (sC : s.Canonical) (t) : NextCanonical (execSignerKeyCopyDone t s) := by
  have := @State.readFor_canonical
  have := @State.setTenant_canonical
  grind [execSignerKeyCopyDone, nextCanonical_next]

theorem modeWrite_canonical {s : State} (sC : s.Canonical) (t v) : (modeWrite s t v).Canonical := by
  have := @refuseTen_canonical
  have := @State.setTenant_canonical
  have := @State.setQueue_canonical
  grind [modeWrite, foldl_canonical]

theorem execTenModeWrite_canonical {s : State} (sC : s.Canonical) (t v) : NextCanonical (execTenModeWrite t v s) := by
  have := @modeWrite_canonical
  grind [execTenModeWrite, nextCanonical_next]

theorem assistWrite_canonical {s : State} (sC : s.Canonical) (t v) : (assistWrite s t v).Canonical :=
  State.setTenant_canonical sC ..

theorem execAssistpendClear_canonical {s : State} (sC : s.Canonical) (t v) : NextCanonical (execAssistpendClear t v s) := by
  have := @assistWrite_canonical
  grind [execAssistpendClear, nextCanonical_next]

theorem fbcfgSet_canonical {s : State} (sC : s.Canonical) (t v) : (fbcfgSet s t v).Canonical := by
  have := @refuseTen_canonical
  have := @State.setTenant_canonical
  grind [fbcfgSet]

theorem execFbcfgWrite_canonical {s : State} (sC : s.Canonical) (t v) : NextCanonical (execFbcfgWrite t v s) := by
  have := @fbcfgSet_canonical
  grind [execFbcfgWrite, nextCanonical_next]

theorem cancelWrite_canonical {s : State} (sC : s.Canonical) (t d k v) : (cancelWrite s t d k v).Canonical := by
  have := @State.setTenant_canonical
  grind [cancelWrite]

theorem execFaultCancelWrite_canonical {s : State} (sC : s.Canonical) (t d k v) : NextCanonical (execFaultCancelWrite t d k v s) := by
  have := @cancelWrite_canonical
  grind [execFaultCancelWrite, nextCanonical_next]

theorem enallowWrite_canonical {s : State} (sC : s.Canonical) (t v) : (enallowWrite s t v).Canonical := by
  have := @refuseTen_canonical
  have := @State.setTenant_canonical
  grind [enallowWrite]

theorem blockWrite_canonical {s : State} (sC : s.Canonical) (t r v) : (blockWrite s t r v).Canonical :=
  ite_canonical (tenCtlWrite_canonical sC ..) <| ite_canonical (tenStatusWrite_canonical sC ..) <|
  ite_canonical (clmaskWrite_canonical sC ..) <| ite_canonical (cemaskWrite_canonical sC ..) <|
  ite_canonical (modeWrite_canonical sC ..) <| ite_canonical (assistWrite_canonical sC ..) <|
  ite_canonical (fbcfgSet_canonical sC ..) <| ite_canonical (enallowWrite_canonical sC ..) <|
  ite_canonical (winWrite_canonical sC ..) <| ite_canonical (signctlWrite_canonical sC ..) <|
  ite_canonical (signaddrWrite_canonical sC ..) sC

theorem ctxCtlWrite_canonical {s : State} (sC : s.Canonical) (t k v) : (ctxCtlWrite s t k v).Canonical := by
  have := @refuseTen_canonical
  have := @contextReset_canonical
  have := @State.setCtx_canonical
  grind [ctxCtlWrite]

theorem execCtxEnable_canonical {s : State} (sC : s.Canonical) (t k v) : NextCanonical (execCtxEnable t k v s) := by
  have := @ctxCtlWrite_canonical
  grind [execCtxEnable, nextCanonical_next]

theorem execCtxReset_canonical {s : State} (sC : s.Canonical) (t k v) : NextCanonical (execCtxReset t k v s) := by
  have := @ctxCtlWrite_canonical
  grind [execCtxReset, nextCanonical_next]

theorem invalWrite_canonical {s : State} (sC : s.Canonical) (t k v) : (invalWrite s t k v).Canonical := by
  unfold invalWrite
  dsimp only
  split
  · exact refuseTen_canonical sC ..
  · obtain ⟨hm, hh, hp, hc, hb⟩ := (State.canonical_iff s).mp sC
    exact (State.canonical_iff _).mpr ⟨hm, hh, hp,
      hc.map (f := fun p => { p.2 with tlb := p.2.tlb.filter (fun e => !invalHits v t k e) }) fun _ h => h, hb⟩

theorem execCtxInval_canonical {s : State} (sC : s.Canonical) (t k v) : NextCanonical (execCtxInval t k v s) := by
  have := @invalWrite_canonical
  grind [execCtxInval, nextCanonical_next]

theorem execInvalDone_canonical {s : State} (sC : s.Canonical) (t k) : NextCanonical (execInvalDone t k s) := by
  have := @State.setCtx_canonical
  grind [execInvalDone, nextCanonical_next]

theorem enbudgetSet_canonical {s : State} (sC : s.Canonical) (t k v) : (enbudgetSet s t k v).Canonical := by
  have := @refuseTen_canonical
  have := @State.setCtx_canonical
  grind [enbudgetSet]

theorem execEnbudgetWrite_canonical {s : State} (sC : s.Canonical) (t k v) : NextCanonical (execEnbudgetWrite t k v s) := by
  have := @enbudgetSet_canonical
  grind [execEnbudgetWrite, nextCanonical_next]

theorem enrateSet_canonical {s : State} (sC : s.Canonical) (t k v) : (enrateSet s t k v).Canonical := by
  have := @refuseTen_canonical
  have := @State.setCtx_canonical
  grind [enrateSet]

theorem execEnrateWrite_canonical {s : State} (sC : s.Canonical) (t k v) : NextCanonical (execEnrateWrite t k v s) := by
  have := @enrateSet_canonical
  grind [execEnrateWrite, nextCanonical_next]

theorem execEnergyReplenish_canonical {s : State} (sC : s.Canonical) : NextCanonical (execEnergyReplenish s) := by
  grind [execEnergyReplenish, State.canonical_iff, nextCanonical_next]

theorem ctxWrite_canonical {s : State} (sC : s.Canonical) (t k r v) : (ctxWrite s t k r v).Canonical := by
  have hkeep (ok : Bool) (x) : (if ok then s.setCtx t k x else refuseTen s t (ctxOff k r)).Canonical :=
    ite_canonical (State.setCtx_canonical sC ..) (refuseTen_canonical sC ..)
  exact ite_canonical (ctxCtlWrite_canonical sC ..) <| ite_canonical (hkeep ..) <| ite_canonical (hkeep ..) <|
    ite_canonical (hkeep ..) <| ite_canonical (hkeep ..) <| ite_canonical (hkeep ..) <| ite_canonical (hkeep ..) <|
    ite_canonical (hkeep ..) <| ite_canonical (invalWrite_canonical sC ..) <| ite_canonical (hkeep ..) <|
    ite_canonical (hkeep ..) <| ite_canonical (hkeep ..) <| ite_canonical (enbudgetSet_canonical sC ..) <|
    ite_canonical (enrateSet_canonical sC ..) sC

theorem hitWrite_canonical {s : State} (sC : s.Canonical) (t k v) : (hitWrite s t k v).Canonical := by
  have := @State.setCtx_canonical
  grind [hitWrite]

theorem execDbgHitClear_canonical {s : State} (sC : s.Canonical) (t k v) : NextCanonical (execDbgHitClear t k v s) := by
  have := @hitWrite_canonical
  grind [execDbgHitClear, nextCanonical_next]

theorem dbgWrite_canonical {s : State} (sC : s.Canonical) (t k r v) : (dbgWrite s t k r v).Canonical := by
  have := @State.setCtx_canonical
  have := @refuseTen_canonical
  have := @hitWrite_canonical
  grind [dbgWrite]

theorem refuseQueue_canonical {s : State} (sC : s.Canonical) (q r) : (refuseQueue s q r).Canonical := by
  have := @refusePf_canonical
  have := @refuseTen_canonical
  grind [refuseQueue]

theorem queueMsi_canonical {s : State} (sC : s.Canonical) (q vec) : (queueMsi s q vec).Canonical :=
  State.sendMsi_canonical sC ..

theorem dropAsks_canonical {s : State} (sC : s.Canonical) (q) : (dropAsks s q).Canonical := by
  grind [dropAsks, State.canonical_iff]

theorem queueCtlWrite_canonical {s : State} (sC : s.Canonical) (q v) : (queueCtlWrite s q v).Canonical := by
  have := @refuseQueue_canonical
  have := @State.setQueue_canonical
  have := @dropAsks_canonical
  grind [queueCtlWrite]

theorem execQueueEnable_canonical {s : State} (sC : s.Canonical) (q v) : NextCanonical (execQueueEnable q v s) := by
  have := @queueCtlWrite_canonical
  grind [execQueueEnable, nextCanonical_next]

theorem execQueueDisable_canonical {s : State} (sC : s.Canonical) (q v) : NextCanonical (execQueueDisable q v s) := by
  have := @queueCtlWrite_canonical
  grind [execQueueDisable, nextCanonical_next]

theorem execQueueRestart_canonical {s : State} (sC : s.Canonical) (q v) : NextCanonical (execQueueRestart q v s) := by
  have := @queueCtlWrite_canonical
  grind [execQueueRestart, nextCanonical_next]

theorem shownOpcode_canonical {s : State} (sC : s.Canonical) (q) : (shownOpcode s q).2.Canonical := by
  have := @State.readFor_canonical
  grind [shownOpcode]

theorem stopQueue_canonical {s : State} (sC : s.Canonical) (q cause sub) : (stopQueue s q cause sub).Canonical := by
  have := @shownOpcode_canonical
  have := @dropAsks_canonical
  have := @queueMsi_canonical
  have := @State.setQueue_canonical
  grind [stopQueue]

theorem askAssist_canonical {s : State} (sC : s.Canonical) (t f) : (askAssist s t f).Canonical := by
  have := @State.sendMsi_canonical
  have := @State.setTenant_canonical
  grind [askAssist]

theorem wpWrite_canonical {s : State} (sC : s.Canonical) (q v) : (wpWrite s q v).Canonical := by
  have := @stopQueue_canonical
  have := @State.setQueue_canonical
  have := @askAssist_canonical
  grind [wpWrite]

theorem execQueueWpWrite_canonical {s : State} (sC : s.Canonical) (q v) : NextCanonical (execQueueWpWrite q v s) := by
  have := @wpWrite_canonical
  grind [execQueueWpWrite, nextCanonical_next]

theorem gateWrite_canonical {s : State} (sC : s.Canonical) (q v) : (gateWrite s q v).Canonical := by
  have := @stopQueue_canonical
  have := @State.setQueue_canonical
  grind [gateWrite]

theorem execQueueGateWrite_canonical {s : State} (sC : s.Canonical) (q v) : NextCanonical (execQueueGateWrite q v s) := by
  have := @gateWrite_canonical
  grind [execQueueGateWrite, nextCanonical_next]

theorem queueWrite_canonical {s : State} (sC : s.Canonical) (q r v) : (queueWrite s q r v).Canonical := by
  have := @refuseQueue_canonical
  have := @State.setQueue_canonical
  have := @queueCtlWrite_canonical
  have := @wpWrite_canonical
  have := @gateWrite_canonical
  grind [queueWrite]

theorem pfWrite_canonical {s : State} (sC : s.Canonical) (off v) : (pfWrite s off v).Canonical := by
  have hbuf (a) : ({ s.pkg with recBuf := s.pkg.recBuf.writeNat a 8 v } : Package).recBuf.wf = true := Memory.wf_writeNat sC.buffer ..
  exact ite_canonical (mgmtstatWrite_canonical sC ..) <| ite_canonical (pfStatusWrite_canonical sC ..) <|
    ite_canonical (recoveryWrite_canonical sC ..) <| ite_canonical (ite_canonical (State.setPkg_canonical sC (hbuf _)) sC) <|
    ite_canonical sC <| ite_canonical (queueWrite_canonical sC ..) <| ite_canonical (blockWrite_canonical sC ..) sC

theorem vfWrite_canonical {s : State} (sC : s.Canonical) (t off v) : (vfWrite s t off v).Canonical := by
  have := @queueWrite_canonical
  have := @ctxWrite_canonical
  have := @tenStatusWrite_canonical
  have := @assistWrite_canonical
  have := @dbgWrite_canonical
  have := @cancelWrite_canonical
  grind [vfWrite]

theorem execRegisterWrite_canonical {s : State} (sC : s.Canonical) (fn off v) : NextCanonical (execRegisterWrite fn off v s) := by
  have := @pfWrite_canonical
  have := @vfWrite_canonical
  grind [execRegisterWrite, nextCanonical_next]

end Sys2Proof.Machine
end


section
/-! The operations of `Machine/Queues.lean` keep the memories canonical. -/

namespace Sys2Proof.Machine

open Sys2Proof

theorem queueWalk_canonical {s : State} (sC : s.Canonical) (q k va n a) : (queueWalk s q k va n a).2.Canonical := by
  have := @serviceFault_canonical
  have := @walk_canonical
  grind [queueWalk]

theorem queueLook_canonical {s : State} (sC : s.Canonical) (q va n a) : (queueLook s q va n a).2.Canonical := by
  have := @queueWalk_canonical
  grind [queueLook]

theorem showBlocked_canonical {s : State} (sC : s.Canonical) (q) : (showBlocked s q).Canonical :=
  State.setQueue_canonical sC ..

theorem withTarget_canonical {s : State} {go} (sC : s.Canonical) (goC : ∀ a0 a1, a1.Canonical → (go a0 a1).Canonical) (q va n a) :
    (withTarget s q va n a go).Canonical := by
  have := @queueLook_canonical
  have := @stopQueue_canonical
  have := @showBlocked_canonical
  grind [withTarget]

theorem withTargetIf_canonical {s : State} {go} (sC : s.Canonical) (goC : ∀ a0 a1, a1.Canonical → (go a0 a1).Canonical) (on q va n a) :
    (withTargetIf on s q va n a go).Canonical := by
  have := @withTarget_canonical
  grind [withTargetIf]

theorem withSpan_canonical (q a xs) : ∀ {s : State} {go}, s.Canonical → (∀ ps s, s.Canonical → (go ps s).Canonical) →
    (withSpan q a xs s go).Canonical := by
  induction xs with
  | nil => exact fun sC goC => goC _ _ sC
  | cons x xs ih => exact fun sC goC => withTarget_canonical sC (fun p u uC => ih uC fun ps v vC => goC _ v vC) ..

theorem readTargetsOf_canonical {x1 : State} (x1C : x1.Canonical) (a) : (readTargetsOf a x1).2.Canonical := by
  have := @State.readFor_canonical
  fun_induction readTargetsOf a x1 <;> grind

theorem writeTargetsOf_canonical {x2 : State} (x2C : x2.Canonical) (a x1) : (writeTargetsOf a x1 x2).Canonical := by
  have := @State.writePhys_canonical
  fun_induction writeTargetsOf a x1 x2 <;> grind

theorem headAt_canonical {s : State} (sC : s.Canonical) (q) : (headAt s q).2.Canonical := by
  have := @State.readFor_canonical
  grind [headAt]

theorem packetBody_canonical {s : State} (sC : s.Canonical) (q x1) : (packetBody s q x1).2.Canonical :=
  State.readFor_canonical sC ..

theorem settle_canonical {s : State} (sC : s.Canonical) (q) : (settle s q).Canonical := by
  have := @State.setQueue_canonical
  grind [settle]

theorem checkBody_canonical {s : State} (sC : s.Canonical) (q x1) : (checkBody s q x1).Canonical := by
  have := @stopQueue_canonical
  have := @packetBody_canonical
  have := @State.setQueue_canonical
  grind [checkBody]

theorem checkPacket_canonical {s : State} (sC : s.Canonical) (q) : (checkPacket s q).Canonical := by
  have := @checkBody_canonical
  have := @stopQueue_canonical
  have := @headAt_canonical
  have := @State.setQueue_canonical
  grind [checkPacket]

theorem beginPacket_canonical {s : State} (sC : s.Canonical) (q x1 b sig status) : (beginPacket s q x1 b sig status).2.Canonical := by
  have := @State.fresh_canonical
  have := @State.setQueue_canonical
  grind [beginPacket, State.canonical_iff]

theorem actErr_canonical {s : State} (sC : s.Canonical) (q) : (actErr s q).Canonical :=
  State.setQueue_canonical sC ..

theorem lateStore_canonical {s : State} (sC : s.Canonical) (q p bs) : (lateStore s q p bs).Canonical := by
  have := @actErr_canonical
  have := @State.writePhys_canonical
  grind [lateStore]

theorem lateAdd_canonical {s : State} (sC : s.Canonical) (q p) : (lateAdd s q p).Canonical := by
  have := @actErr_canonical
  have := @State.addCounter_canonical
  grind [lateAdd]

theorem completePacket_canonical {s : State} (sC : s.Canonical) (p) : (completePacket s p).Canonical := by
  have := @lateAdd_canonical
  have := @queueMsi_canonical
  have := @settle_canonical
  have := @State.setQueue_canonical
  grind [completePacket, State.canonical_iff]

theorem blockOn_canonical {s : State} (sC : s.Canonical) (p) : (blockOn s p).Canonical :=
  State.setQueue_canonical sC ..

theorem finishPacket_canonical {s : State} (sC : s.Canonical) (p code) : (finishPacket s p code).Canonical := by
  have := @lateStore_canonical
  have := @completePacket_canonical
  grind [finishPacket]

theorem PktIn.begin__canonical {s : State} (sC : s.Canonical) (p status) : (PktIn.begin_ p s status).2.Canonical :=
  beginPacket_canonical sC ..

theorem startPacket_canonical {s : State} {act} (sC : s.Canonical) (actC : ∀ a0 a1, a1.Canonical → (act a0 a1).Canonical) (op q) :
    (startPacket op q s act).Canonical := by
  have := @checkPacket_canonical
  have := @withTargetIf_canonical
  grind [startPacket]

theorem nopAct_canonical {s : State} (sC : s.Canonical) (p) : (nopAct p s).Canonical := by
  have := @PktIn.begin__canonical
  have := @completePacket_canonical
  grind [nopAct]

theorem execNopPacket_canonical {s : State} (sC : s.Canonical) (q) : NextCanonical (execNopPacket q s) := by
  have := @startPacket_canonical
  have := @nopAct_canonical
  grind [execNopPacket, nextCanonical_next]

theorem execWrap_canonical {s : State} (sC : s.Canonical) (q) : NextCanonical (execWrap q s) := by
  have := @startPacket_canonical
  have := @nopAct_canonical
  grind [execWrap, nextCanonical_next]

theorem pollCounter_canonical {s : State} (sC : s.Canonical) (p t) : (pollCounter s p t).Canonical := by
  have := @actErr_canonical
  have := @State.readFor_canonical
  have := @completePacket_canonical
  grind [pollCounter]

theorem waitAct_canonical {s : State} (sC : s.Canonical) (p) : (waitAct p s).Canonical := by
  have := @withTarget_canonical
  have := @PktIn.begin__canonical
  have := @pollCounter_canonical
  have := @blockOn_canonical
  grind [waitAct]

theorem execWaitcnt_canonical {s : State} (sC : s.Canonical) (q) : NextCanonical (execWaitcnt q s) := by
  have := @startPacket_canonical
  have := @waitAct_canonical
  grind [execWaitcnt, nextCanonical_next]

theorem execWaitcntPoll_canonical {s : State} (sC : s.Canonical) (q) : NextCanonical (execWaitcntPoll q s) := by
  have := @pollCounter_canonical
  grind [execWaitcntPoll, nextCanonical_next]

theorem signalAct_canonical {s : State} (sC : s.Canonical) (p) : (signalAct p s).Canonical := by
  have := @withTarget_canonical
  have := @PktIn.begin__canonical
  have := @completePacket_canonical
  have := @State.atomicSeen_canonical
  grind [signalAct]

theorem execSignal_canonical {s : State} (sC : s.Canonical) (q) : NextCanonical (execSignal q s) := by
  have := @startPacket_canonical
  have := @signalAct_canonical
  grind [execSignal, nextCanonical_next]

theorem freeBytes_canonical {s : State} (sC : s.Canonical) (n) : (freeBytes n s).2.Canonical := by
  grind [freeBytes, State.canonical_iff]

theorem measures_canonical {s : State} (sC : s.Canonical) (owner) : (measures s owner).2.Canonical := by
  have := @freeBytes_canonical
  grind [measures]

theorem report_canonical {s : State} (sC : s.Canonical) (owner nonce) : (report s owner nonce).2.Canonical := by
  unfold report
  have := @measures_canonical
  grind [State.canonical_iff]

theorem attestAct_canonical {s : State} (sC : s.Canonical) (p) : (attestAct p s).Canonical := by
  have := @withSpan_canonical
  have := @PktIn.begin__canonical
  have := @report_canonical
  have := @completePacket_canonical
  have := @writeTargetsOf_canonical
  grind [attestAct]

theorem execAttest_canonical {s : State} (sC : s.Canonical) (q) : NextCanonical (execAttest q s) := by
  have := @startPacket_canonical
  have := @attestAct_canonical
  grind [execAttest, nextCanonical_next]

end Sys2Proof.Machine
end

section
/-! The operations of `Machine/Objects.lean` keep the memories canonical. -/

namespace Sys2Proof.Machine

open Sys2Proof

theorem loadBytes_canonical {x1 : State} (x1C : x1.Canonical) (q a) : (loadBytes q a x1).2.Canonical := by
  have := @queueLook_canonical
  have := @State.readFor_canonical
  fun_induction loadBytes q a x1 <;> grind

theorem loadSpan_canonical {s : State} (sC : s.Canonical) (q va n) : (loadSpan q va n s).2.Canonical :=
  loadBytes_canonical sC ..

theorem loadPages_canonical {x1 : State} (x1C : x1.Canonical) (q va a) : (loadPages q va a x1).2.Canonical := by
  have := @queueLook_canonical
  fun_induction loadPages q va a x1 <;> grind

theorem loadShadows_canonical {x2 : State} (x2C : x2.Canonical) (q a x1) : (loadShadows q a x1 x2).2.Canonical := by
  have := @loadSpan_canonical
  fun_induction loadShadows q a x1 x2 <;> grind

theorem loadChecks_canonical {s : State} (sC : s.Canonical) (p o x1) : (loadChecks p o x1 s).2.Canonical := by
  have := @loadShadows_canonical
  grind [loadChecks]

theorem loadObject_canonical {s : State} (sC : s.Canonical) (p) : (loadObject p s).2.Canonical := by
  unfold loadObject
  dsimp only
  split
  · exact sC
  · split
    · exact sC
    · have hspan := loadSpan_canonical sC p.q (p.field 0 8) 0x1400
      generalize loadSpan p.q (p.field 0 8) 0x1400 s = y at hspan ⊢
      obtain ⟨y, u⟩ := y
      cases y
      · dsimp only
        split
        · exact hspan
        · generalize fieldAt _ 0x18 8 - 0x1400 = n
          have hspan := loadSpan_canonical hspan p.q (p.field 0 8 + 0x1400) n
          generalize loadSpan p.q (p.field 0 8 + 0x1400) n u = y at hspan ⊢
          obtain ⟨y, v⟩ := y
          cases y
          · dsimp only
            have := @loadPages_canonical
            have := @loadChecks_canonical
            grind
          · exact hspan
          · exact hspan
      · exact hspan
      · exact hspan

theorem loadAct_canonical {s : State} (sC : s.Canonical) (p) : (loadAct p s).Canonical := by
  have := @withTarget_canonical
  have := @loadObject_canonical
  have := @showBlocked_canonical
  have := @State.setCtx_canonical
  have := @actErr_canonical
  have := @PktIn.begin__canonical
  have := @finishPacket_canonical
  grind [loadAct, State.canonical_iff]

theorem execLoad_canonical {s : State} (sC : s.Canonical) (q) : NextCanonical (execLoad q s) := by
  have := @startPacket_canonical
  have := @loadAct_canonical
  grind [execLoad, nextCanonical_next]

theorem discardObj_canonical {s : State} (sC : s.Canonical) (t k oid) : (discardObj s t k oid).Canonical := by
  have := @State.setCtx_canonical
  grind [discardObj, State.canonical_iff]

theorem unloadAct_canonical {s : State} (sC : s.Canonical) (p) : (unloadAct p s).Canonical := by
  have := @PktIn.begin__canonical
  have := @completePacket_canonical
  have := @actErr_canonical
  have := @blockOn_canonical
  have := @discardObj_canonical
  grind [unloadAct]

theorem execUnload_canonical {s : State} (sC : s.Canonical) (q) : NextCanonical (execUnload q s) := by
  have := @completePacket_canonical
  have := @discardObj_canonical
  have := @startPacket_canonical
  have := @unloadAct_canonical
  grind [execUnload, nextCanonical_next]

end Sys2Proof.Machine
end

section
/-! The operations of `Machine/Launches.lean` keep the memories canonical. -/

namespace Sys2Proof.Machine

open Sys2Proof

theorem queueText_canonical {α : Type} {s : State} (sC : s.Canonical) (q k inst) (f : CodeObj → Except TextStop α) (n) :
    (queueText q k inst f n s).2.Canonical := by
  have := @queueWalk_canonical
  have := @fetchPage_canonical
  fun_induction queueText q k inst f n s <;> grind

theorem lateTargets_canonical {x2 : State} (x2C : x2.Canonical) (q k a x1) : (lateTargets q k a x1 x2).2.Canonical := by
  have := @queueWalk_canonical
  have := @State.setQueue_canonical
  fun_induction lateTargets q k a x1 x2 <;> grind

theorem lateWaits_canonical {s : State} (sC : s.Canonical) (q k a ps) : (lateWaits q k a ps s).2.Canonical := by
  have := @State.setQueue_canonical
  have := @lateTargets_canonical
  grind [lateWaits]

theorem lateRead_canonical {s : State} (sC : s.Canonical) (q k va n) : (lateRead q k va n s).2.Canonical := by
  have := @lateTargets_canonical
  have := @readTargetsOf_canonical
  grind [lateRead]

theorem lateWrite_canonical {s : State} (sC : s.Canonical) (q k va bs) : (lateWrite q k va bs s).2.Canonical := by
  have := @lateTargets_canonical
  have := @writeTargetsOf_canonical
  grind [lateWrite]

theorem startLaunch_canonical {s : State} (sC : s.Canonical) (q k hdr b) : (startLaunch s q k hdr b).2.Canonical := by
  unfold startLaunch
  dsimp only
  split
  · exact sC
  next o _ =>
    have htext := queueText_canonical sC q k o.inst (entryTypes (launchOf q.owner k hdr b).entry) 8
    have := @lateRead_canonical
    grind

theorem launchHash_canonical {s : State} (sC : s.Canonical) (q k inst page b) : (launchHash s q k inst page b).Canonical :=
  codeIntegrity_canonical sC ..

theorem addLaunch_canonical {s : State} (sC : s.Canonical) (l) : (addLaunch s l).2.Canonical := by
  have := @State.fresh_canonical
  grind [addLaunch, State.canonical_iff]

theorem takeCore_canonical {s : State} (sC : s.Canonical) (l c) : (takeCore s l c).Canonical := by
  have := @State.setCore_canonical
  grind [takeCore, State.core_canonical, Core.reset_canonical, Memory.wf_zero, Core.wf_iff]

theorem placeOn_canonical {s : State} (sC : s.Canonical) (l g c) : (placeOn s l g c).Canonical := by
  have := @takeCore_canonical
  have := @forgetL1_canonical
  have := @State.setGalley_canonical
  have := @State.setCore_canonical
  have := @pathAtEntry_canonical
  grind [placeOn, State.core_canonical, Core.wf_iff, foldl_canonical]

theorem startAt_canonical {s : State} (sC : s.Canonical) (l first n c) : (startAt s l first n c).Canonical := by
  have := @State.fresh_canonical
  have := @placeOn_canonical
  grind [startAt, State.canonical_iff]

theorem placeLowest_canonical {s : State} (sC : s.Canonical) (l) : SomeCanonical (placeLowest s l) := by
  refine SomeCanonical.bind (fun x => ?_) _
  split
  · exact (someCanonical_some _).mpr (placeOn_canonical sC ..)
  · exact someCanonical_none

theorem placePiece_canonical {s : State} (sC : s.Canonical) : SomeCanonical (placePiece s) :=
  SomeCanonical.findSome? (fun l => placeLowest_canonical sC l) _

theorem placeHome_canonical {s : State} (sC : s.Canonical) (l) : SomeCanonical (placeHome s l) := by
  have := @State.setTenant_canonical
  have := @startAt_canonical
  have := @State.setLaunch_canonical
  grind [placeHome, someCanonical_some, someCanonical_none]

theorem placeDomain_canonical {s : State} (sC : s.Canonical) (l) : SomeCanonical (placeDomain s l) := by
  refine SomeCanonical.bind (fun j => ?_) _
  refine SomeCanonical.bind (fun cs => ?_) _
  refine SomeCanonical.bind (fun c => ?_) _
  split
  · exact someCanonical_none
  · dsimp only
    split
    · exact (someCanonical_some _).mpr (startAt_canonical (State.setLaunch_canonical sC _) ..)
    · exact (someCanonical_some _).mpr (placeOn_canonical
        (foldl_canonical (State.setLaunch_canonical sC _) (fun _ _ h => State.setGalley_canonical h _) _) ..)

theorem placeOf_canonical {s : State} (sC : s.Canonical) (l) : SomeCanonical (placeOf s l) := by
  have := @placeLowest_canonical
  have := @placeHome_canonical
  have := @placeDomain_canonical
  grind [placeOf, someCanonical_some, someCanonical_none]

theorem placeWaiting_canonical {s : State} (sC : s.Canonical) : SomeCanonical (placeWaiting s) :=
  SomeCanonical.findSome? (fun l => placeOf_canonical sC l) _

theorem placeAll_canonical {x1 : State} (x1C : x1.Canonical) (a) : (placeAll a x1).Canonical := by
  have := @releaseCores_canonical
  have := @placePiece_canonical
  have := @placeWaiting_canonical
  fun_induction placeAll a x1 <;> grind [someCanonical_some, someCanonical_none]

theorem execPiecePlacement_canonical {s : State} (sC : s.Canonical) : NextCanonical (execPiecePlacement s) := by
  have hcores := releaseCores_canonical sC
  exact (nextCanonical_next _).mpr (getD_canonical (placePiece_canonical hcores) hcores)

theorem execLaunchPlacement_canonical {s : State} (sC : s.Canonical) : NextCanonical (execLaunchPlacement s) := by
  have hcores := releaseCores_canonical sC
  refine (nextCanonical_next _).mpr ?_
  split
  · exact hcores
  · exact getD_canonical (placeWaiting_canonical hcores) hcores

theorem launchAct_canonical {s : State} (sC : s.Canonical) (p) : (launchAct p s).Canonical := by
  have := @withTarget_canonical
  have := @startLaunch_canonical
  have := @showBlocked_canonical
  have := @stopQueue_canonical
  have := @launchHash_canonical
  have := @PktIn.begin__canonical
  have := @finishPacket_canonical
  have := @actErr_canonical
  have := @addLaunch_canonical
  have := @placeAll_canonical
  grind [launchAct]

theorem execLaunch_canonical {s : State} (sC : s.Canonical) (q) : NextCanonical (execLaunch q s) := by
  have := @startPacket_canonical
  have := @launchAct_canonical
  grind [execLaunch, nextCanonical_next]

theorem storeStatus_canonical {s : State} (sC : s.Canonical) (t p code) : (storeStatus s t p code).Canonical := by
  have := @State.writePhys_canonical
  grind [storeStatus]

theorem execLaunchComplete_canonical {s : State} (sC : s.Canonical) (i) : NextCanonical (execLaunchComplete i s) := by
  have := @finishPacket_canonical
  have := @storeStatus_canonical
  grind [execLaunchComplete, State.canonical_iff, nextCanonical_next]

end Sys2Proof.Machine
end

section
/-! The operations of `Machine/Graphs.lean` keep the memories canonical. -/

namespace Sys2Proof.Machine

open Sys2Proof

theorem State.dropReplay_canonical {s : State} (sC : s.Canonical) (i) : (State.dropReplay s i).Canonical := by
  grind [State.dropReplay, State.canonical_iff]

theorem softWrite_canonical {s : State} (sC : s.Canonical) (q k va bs) : (softWrite q k va bs s).Canonical := by
  grind [softWrite, lateWrite_canonical, actErr_canonical]

theorem endWaits_canonical {s : State} (sC : s.Canonical) (r) : (endWaits s r).2.Canonical := by
  have := @lateWaits_canonical
  grind [endWaits]

theorem closeReplay_canonical {s : State} (sC : s.Canonical) (r) : (closeReplay s r).Canonical := by
  grind [closeReplay, lateRead_canonical, softWrite_canonical, actErr_canonical, State.dropReplay_canonical, finishPacket_canonical]

theorem endReplay_canonical {s : State} (sC : s.Canonical) (r) : (endReplay s r).Canonical := by
  have := @endWaits_canonical
  have := @State.setReplay_canonical
  have := @closeReplay_canonical
  grind [endReplay]

theorem settleReplay_canonical {s : State} (sC : s.Canonical) (r) : (settleReplay s r).Canonical := by
  have := @State.setReplay_canonical
  have := @endReplay_canonical
  grind [settleReplay]

theorem countDown_canonical {x2 : State} (x2C : x2.Canonical) (q k tcb a x1) : (countDown q k tcb a x1 x2).2.Canonical := by
  have := @lateRead_canonical
  have := @softWrite_canonical
  have := @actErr_canonical
  fun_induction countDown q k tcb a x1 x2 <;> grind

theorem postRecord_canonical {s : State} (sC : s.Canonical) (r n code) : (postRecord s r n code).Canonical := by
  have := @softWrite_canonical
  have := @askAssist_canonical
  grind [postRecord]

theorem retireWaits_canonical {s : State} (sC : s.Canonical) (r n) : (retireWaits s r n).2.Canonical := by
  have := @lateWaits_canonical
  have := @lateRead_canonical
  grind [retireWaits]

theorem retireNode_canonical {s : State} (sC : s.Canonical) (r n code) : (retireNode s r n code).2.Canonical := by
  grind [retireNode, postRecord_canonical, lateRead_canonical, countDown_canonical, actErr_canonical]

theorem nodeStatus_canonical {s : State} (sC : s.Canonical) (q k va) : (nodeStatus q k va s).2.Canonical := by
  have := @lateTargets_canonical
  have := @actErr_canonical
  grind [nodeStatus]

theorem launchNode_canonical {s : State} (sC : s.Canonical) (r) (h : GraphHdr) (n) : (launchNode s r h n).2.Canonical := by
  unfold launchNode
  extract_lets q r'
  have hread := lateRead_canonical sC q r.ctx (h.slot n r.gen) 112
  generalize lateRead q r.ctx (h.slot n r.gen) 112 s = x at hread ⊢
  obtain ⟨b | c | _, u⟩ := x
  · dsimp only at hread ⊢
    have hstatus := nodeStatus_canonical hread q r.ctx (fieldAt b 0x30 8)
    generalize nodeStatus q r.ctx (fieldAt b 0x30 8) u = y at hstatus ⊢
    obtain ⟨_ | st, v⟩ := y
    · exact hstatus
    · have := @startLaunch_canonical
      have := @actErr_canonical
      have := @launchHash_canonical
      have := @storeStatus_canonical
      have := @addLaunch_canonical
      grind
  · exact actErr_canonical hread q
  · exact hread

theorem dispatchNode_canonical {s : State} (sC : s.Canonical) (r n) : (dispatchNode s r n).2.Canonical := by
  have := @lateRead_canonical
  have := @actErr_canonical
  have := @retireWaits_canonical
  have := @launchNode_canonical
  have := @retireNode_canonical
  have := @lateTargets_canonical
  have := @State.addCounter_canonical
  grind [dispatchNode]

theorem pump_canonical {x2 : State} (x2C : x2.Canonical) (a x1) : (pump a x1 x2).2.Canonical := by
  have := @dispatchNode_canonical
  fun_induction pump a x1 x2 <;> grind

theorem runReplay_canonical {s : State} (sC : s.Canonical) (r) : (runReplay s r).Canonical := by
  have := @pump_canonical
  have := @placeAll_canonical
  have := @settleReplay_canonical
  have := @State.setReplay_canonical
  grind [runReplay]

theorem resetNodes_canonical {x1 : State} (x1C : x1.Canonical) (q k tcb a) : (resetNodes q k tcb a x1).2.Canonical := by
  have := @lateRead_canonical
  have := @softWrite_canonical
  have := @actErr_canonical
  fun_induction resetNodes q k tcb a x1 <;> grind

theorem tcbWaits_canonical {s : State} (sC : s.Canonical) (q k tcb n) : (tcbWaits q k tcb n s).2.Canonical :=
  lateWaits_canonical sC ..

theorem startWaits_canonical {s : State} (sC : s.Canonical) (q r x1) : (startWaits q r x1 s).2.Canonical := by
  have := @lateWaits_canonical
  have := @tcbWaits_canonical
  grind [startWaits]

theorem beginReplay_canonical {s : State} (sC : s.Canonical) (r) : (beginReplay s r).Canonical := by
  have := @lateRead_canonical
  have := @settleReplay_canonical
  have := @State.dropReplay_canonical
  have := @finishPacket_canonical
  have := @actErr_canonical
  have := @startWaits_canonical
  have := @softWrite_canonical
  have := @resetNodes_canonical
  have := @runReplay_canonical
  grind [beginReplay]

theorem nodeAct_canonical {s : State} (sC : s.Canonical) (p) : (nodeAct p s).Canonical := by
  unfold nodeAct
  have := @withTarget_canonical
  have := @PktIn.begin__canonical
  have := @finishPacket_canonical
  have := @actErr_canonical
  have := @settleReplay_canonical
  have := @dispatchNode_canonical
  have := @showBlocked_canonical
  have := @State.setReplay_canonical
  have := @placeAll_canonical
  grind

theorem graphAct_canonical {s : State} (sC : s.Canonical) (p) : (graphAct p s).Canonical := by
  have := @withTarget_canonical
  have := @withSpan_canonical
  have := @PktIn.begin__canonical
  have := @State.fresh_canonical
  have := @beginReplay_canonical
  grind [graphAct, State.canonical_iff]

theorem graphPacket_canonical {s : State} (sC : s.Canonical) (p) : (graphPacket p s).Canonical := by
  have := @graphAct_canonical
  have := @nodeAct_canonical
  grind [graphPacket]

theorem execGraph_canonical {s : State} (sC : s.Canonical) (q) : NextCanonical (execGraph q s) := by
  have := @startPacket_canonical
  have := @graphPacket_canonical
  grind [execGraph, nextCanonical_next]

theorem execGraphNodeDispatch_canonical {s : State} (sC : s.Canonical) (q) : NextCanonical (execGraphNodeDispatch q s) := by
  have := @startPacket_canonical
  have := @nodeAct_canonical
  grind [execGraphNodeDispatch, nextCanonical_next]

theorem execGraphReplayWaitEnd_canonical {s : State} (sC : s.Canonical) (i) : NextCanonical (execGraphReplayWaitEnd i s) := by
  have := @beginReplay_canonical
  have := @runReplay_canonical
  have := @settleReplay_canonical
  grind [execGraphReplayWaitEnd, nextCanonical_next]

theorem execGraphNodeRetire_canonical {s : State} (sC : s.Canonical) (i n) : NextCanonical (execGraphNodeRetire i n s) := by
  have := @retireWaits_canonical
  have := @retireNode_canonical
  have := @runReplay_canonical
  have := @State.setReplay_canonical
  grind [execGraphNodeRetire, nextCanonical_next]

theorem State.dropPatch_canonical {s : State} (sC : s.Canonical) (i) : (State.dropPatch s i).Canonical := by
  grind [State.dropPatch, State.canonical_iff]

theorem endPatch_canonical {s : State} (sC : s.Canonical) (p bad) : (endPatch s p bad).Canonical := by
  have := @State.dropPatch_canonical
  have := @completePacket_canonical
  have := @actErr_canonical
  grind [endPatch]

theorem patchSlots_canonical {x2 : State} (x2C : x2.Canonical) (q k x1 src count g a) : (patchSlots q k x1 src count g a x2).Canonical := by
  have := @softWrite_canonical
  have := @lateRead_canonical
  have := @actErr_canonical
  fun_induction patchSlots q k x1 src count g a x2 <;> grind

theorem runPatch_canonical {s : State} (sC : s.Canonical) (p) : (runPatch s p).Canonical := by
  unfold runPatch
  have := @lateRead_canonical
  have := @endPatch_canonical
  have := @lateWaits_canonical
  have := @patchSlots_canonical
  have := @softWrite_canonical
  grind [State.canonical_iff]

theorem patchAct_canonical {s : State} (sC : s.Canonical) (p) : (patchAct p s).Canonical := by
  have := @withSpan_canonical
  have := @PktIn.begin__canonical
  have := @State.fresh_canonical
  have := @runPatch_canonical
  grind [patchAct, State.canonical_iff]

theorem execPatch_canonical {s : State} (sC : s.Canonical) (q) : NextCanonical (execPatch q s) := by
  have := @startPacket_canonical
  have := @patchAct_canonical
  grind [execPatch, nextCanonical_next]

theorem execPatchWaitEnd_canonical {s : State} (sC : s.Canonical) (i) : NextCanonical (execPatchWaitEnd i s) := by
  have := @runPatch_canonical
  grind [execPatchWaitEnd, nextCanonical_next]

end Sys2Proof.Machine
end

section
/-! The operations of `Machine/Capture.lean` keep the memories canonical. -/

namespace Sys2Proof.Machine

open Sys2Proof

theorem writeNow_canonical {x2 : State} (x2C : x2.Canonical) (t k a x1) : (writeNow t k a x1 x2).2.Canonical := by
  have := @translateNow_canonical
  have := @State.writePhys_canonical
  fun_induction writeNow t k a x1 x2 <;> grind

theorem writeVa_canonical {s : State} (sC : s.Canonical) (t k va bs) : (writeVa t k va bs s).2.Canonical :=
  writeNow_canonical sC ..

theorem saveWrite_canonical {s : State} (sC : s.Canonical) (p t k va bs) : (saveWrite p t k va bs s).2.Canonical := by
  unfold saveWrite
  have := @lateWrite_canonical
  have := @writeVa_canonical
  grind

theorem withdraw_canonical {s : State} (sC : s.Canonical) (ids) : (withdraw s ids).Canonical := by
  grind [withdraw, State.canonical_iff]

theorem removeGroups_canonical {s : State} (sC : s.Canonical) (t k) : (removeGroups s t k).Canonical := by
  obtain ⟨hm, hh, hp, hc, hb⟩ := (State.canonical_iff _).mp (withdraw_canonical sC ((s.launchesOf t k).map Launch.id))
  refine (State.canonical_iff _).mpr ⟨hm, hh, hp, hc.map fun p hp => ?_, hb⟩
  dsimp only
  split
  · split <;> exact hp
  · exact hp

theorem finishSave_canonical {s : State} (sC : s.Canonical) (t k pk brk) : (finishSave s t k pk brk).Canonical := by
  unfold finishSave
  have := @removeGroups_canonical
  have := @State.setCtx_canonical
  have := @finishPacket_canonical
  have := @settle_canonical
  have := @State.sendMsi_canonical
  grind [foldl_canonical]

theorem failSave_canonical {s : State} (sC : s.Canonical) (t k pk) : (failSave s t k pk).Canonical := by
  unfold failSave
  have := @State.setCtx_canonical
  have := @finishPacket_canonical
  have := @actErr_canonical
  grind

theorem saveParts_canonical {x1 : State} (x1C : x1.Canonical) (pk t k a) : (saveParts pk t k a x1).Canonical := by
  have := @saveWrite_canonical
  have := @actErr_canonical
  fun_induction saveParts pk t k a x1 <;> grind

theorem saveWaits_canonical {s : State} (sC : s.Canonical) (pk k va n) : (saveWaits pk k va n s).2.Canonical := by
  unfold saveWaits
  have := @lateWaits_canonical
  grind

theorem execPreemptSaveDone_canonical {s : State} (sC : s.Canonical) (t k) : NextCanonical (execPreemptSaveDone t k s) := by
  have := @failSave_canonical
  have := @enterFatal_canonical
  have := @saveWaits_canonical
  have := @finishSave_canonical
  have := @saveParts_canonical
  grind [execPreemptSaveDone, nextCanonical_next]

end Sys2Proof.Machine
end

section
/-! The operations of `Machine/Preempt.lean` keep the memories canonical. -/

namespace Sys2Proof.Machine

open Sys2Proof

theorem preemptAct_canonical {s : State} (sC : s.Canonical) (p) : (preemptAct p s).Canonical := by
  have := @withTarget_canonical
  have := @PktIn.begin__canonical
  have := @State.setCtx_canonical
  have := @finishPacket_canonical
  have := @actErr_canonical
  grind [preemptAct]

theorem execPreempt_canonical {s : State} (sC : s.Canonical) (q) : NextCanonical (execPreempt q s) := by
  have := @startPacket_canonical
  have := @preemptAct_canonical
  grind [execPreempt, nextCanonical_next]

theorem execPreemptDrainExpiry_canonical {s : State} (sC : s.Canonical) (t k) : NextCanonical (execPreemptDrainExpiry t k s) := by
  have := @State.setCtx_canonical
  grind [execPreemptDrainExpiry, nextCanonical_next]

theorem cutTx_canonical {s : State} (sC : s.Canonical) (l j) : (cutTx s l j).Canonical := by
  have := @abortLanes_canonical
  grind [cutTx]

theorem execPreemptTxTimeout_canonical {s : State} (sC : s.Canonical) (t k) : NextCanonical (execPreemptTxTimeout t k s) := by
  have := @State.setCtx_canonical
  have := @cutTx_canonical
  grind [execPreemptTxTimeout, foldl_canonical, nextCanonical_next]

theorem readInfos_canonical (q k xs) : ∀ {s : State}, s.Canonical → (readInfos q k xs s).2.Canonical := by
  induction xs with
  | nil => exact fun sC => sC
  | cons x r ih =>
    obtain ⟨inst, b⟩ := x
    intro s sC
    rw [readInfos]
    have htext := queueText_canonical sC q k inst (blockInfo b) 8
    generalize queueText q k inst (blockInfo b) 8 s = y at htext ⊢
    obtain ⟨y, u⟩ := y
    have hrest := ih htext
    cases y <;> grind

theorem prepLaunch_canonical {s : State} (sC : s.Canonical) (q k used r) : (prepLaunch q k used r s).2.Canonical := by
  unfold prepLaunch
  extract_lets hdr body obj
  split
  · exact sC
  · have htext := queueText_canonical sC q k (obj.getD 0) (entryTypes (launchOf q.owner k hdr body).entry) 8
    dsimp only
    generalize queueText q k (obj.getD 0) (entryTypes (launchOf q.owner k hdr body).entry) 8 s = y at htext ⊢
    obtain ⟨y, u⟩ := y
    have := @lateRead_canonical
    have := @lateTargets_canonical
    cases y <;> grind

theorem prepLaunches_canonical {x2 : State} (x2C : x2.Canonical) (q k a x1) : (prepLaunches q k a x1 x2).2.Canonical := by
  have := @prepLaunch_canonical
  fun_induction prepLaunches q k a x1 x2 <;> grind

theorem lateReads_canonical {x1 : State} (x1C : x1.Canonical) (q k a) : (lateReads q k a x1).2.Canonical := by
  have := @lateRead_canonical
  fun_induction lateReads q k a x1 <;> grind

theorem prepGraphs_canonical {x1 : State} (x1C : x1.Canonical) (q k a) : (prepGraphs q k a x1).2.Canonical := by
  have := @lateRead_canonical
  have := @lateReads_canonical
  fun_induction prepGraphs q k a x1 <;> grind

theorem restoreImage_canonical {s : State} (sC : s.Canonical) (l b im c) : (restoreImage s l b im c).Canonical := by
  have hcore := takeCore_canonical sC l c
  exact State.setCore_canonical hcore
    ⟨Memory.wf_writeBytes (State.core_canonical hcore c).1 _ _, Memory.wf_writeBytes Memory.wf_nil _ _⟩ c

theorem restoreGalley_canonical {s : State} (sC : s.Canonical) (lid c held info r) : (restoreGalley s lid c held info r).Canonical := by
  have := @State.fresh_canonical
  have := @State.setLaunch_canonical
  have := @State.setCore_canonical
  grind [restoreGalley, State.core_canonical, State.canonical_iff, Core.wf_iff, foldl_canonical]

theorem primeGalley_canonical {s : State} (sC : s.Canonical) (g) : (primeGalley s g).Canonical := by
  have := @pathAtEntry_canonical
  have := @beginBlock_canonical
  grind [primeGalley, foldl_canonical]

theorem restoreRange_canonical {s : State} (sC : s.Canonical) (lid held r) : (restoreRange s lid held r).Canonical := by
  have := @State.setLaunch_canonical
  have := @State.fresh_canonical
  grind [restoreRange, State.canonical_iff, foldl_canonical]

theorem restoreLaunch_canonical {s : State} (sC : s.Canonical) (mask l) : (restoreLaunch s mask l).2.Canonical := by
  have := @State.setLaunch_canonical
  have := @State.fresh_canonical
  grind [restoreLaunch, State.canonical_iff]

theorem restoreLaunches_canonical {x1 : State} (x1C : x1.Canonical) (mask a) : (restoreLaunches mask a x1).2.Canonical := by
  have := @restoreLaunch_canonical
  fun_induction restoreLaunches mask a x1 <;> grind

theorem recount_canonical {s : State} (sC : s.Canonical) (held lid) : (recount s held lid).Canonical := by
  have := @State.setLaunch_canonical
  grind [recount]

theorem restoreGraph_canonical {s : State} (sC : s.Canonical) (q k fresh g) : (restoreGraph q k fresh s g).Canonical := by
  have := @State.setReplay_canonical
  have := @State.fresh_canonical
  grind [restoreGraph, State.canonical_iff]

theorem restoreAll_canonical {s : State} (sC : s.Canonical) (q k mask sv ls gs cores infos) :
    (restoreAll q k mask sv ls gs cores infos s).2.Canonical := by
  have := @restoreLaunches_canonical
  have := @restoreImage_canonical
  have := @restoreGalley_canonical
  have := @restoreRange_canonical
  have := @recount_canonical
  have := @restoreGraph_canonical
  have := @State.setCtx_canonical
  have := @primeGalley_canonical
  have := @placeAll_canonical
  grind [restoreAll, foldl_canonical]

theorem resumeGo_canonical {s : State} (sC : s.Canonical) (p) : (resumeGo s p).Canonical := by
  have := @finishPacket_canonical
  grind [resumeGo, State.canonical_iff]

theorem endResumes_canonical {s : State} (sC : s.Canonical) : (endResumes s).Canonical := by
  have := @resumeGo_canonical
  grind [endResumes, foldl_canonical]

theorem resumeAct_canonical {s : State} (sC : s.Canonical) (p) : (resumeAct p s).Canonical := by
  unfold resumeAct
  extract_lets va
  refine withTarget_canonical sC (fun t s sC => ?_) ..
  extract_lets k stop
  have hstop (u : State) (uC : u.Canonical) (code) : (stop u code).Canonical :=
    finishPacket_canonical (actErr_canonical (PktIn.begin__canonical uC ..) _) ..
  clear_value stop
  refine withSpan_canonical _ _ _ sC fun ts s sC => ?_
  have hread := readTargetsOf_canonical sC ts
  generalize readTargetsOf ts s = x at hread ⊢
  obtain ⟨h, s⟩ := x
  dsimp only at hread ⊢
  split
  · exact hstop _ hread _
  · refine withSpan_canonical _ _ _ hread fun ts s sC => ?_
    have hread := readTargetsOf_canonical sC ts
    generalize readTargetsOf ts s = x at hread ⊢
    obtain ⟨b, s⟩ := x
    dsimp only at hread ⊢
    split
    · exact hstop _ hread _
    · have hprep := prepLaunches_canonical hread p.q k (Save.parse b).launches []
      generalize prepLaunches p.q k (Save.parse b).launches [] s = x at hprep ⊢
      obtain ⟨ls | c | _, s⟩ := x
      · have hcores := releaseCores_canonical hprep
        dsimp only
        split
        · exact hstop _ hcores _
        · split
          · exact hstop _ hcores _
          · split
            · exact showBlocked_canonical hcores _
            · have := @prepGraphs_canonical
              have := @showBlocked_canonical
              have := @stopQueue_canonical
              have := @readInfos_canonical
              have := @PktIn.begin__canonical
              have := @restoreAll_canonical
              have := @resumeGo_canonical
              grind
      · exact stopQueue_canonical hprep ..
      · exact showBlocked_canonical hprep _

theorem execResume_canonical {s : State} (sC : s.Canonical) (q) : NextCanonical (execResume q s) := by
  have := @startPacket_canonical
  have := @resumeAct_canonical
  grind [execResume, nextCanonical_next]

end Sys2Proof.Machine
end

section
/-! The operations of `Machine/Dump.lean` keep the memories canonical. -/

namespace Sys2Proof.Machine

open Sys2Proof

theorem haltGalley_canonical {s : State} (sC : s.Canonical) (l g) : (haltGalley s l g).Canonical := by
  have := @putThread_canonical
  grind [haltGalley, foldl_canonical]

theorem execRevocationTimeout_canonical {s : State} (sC : s.Canonical) (t k) : NextCanonical (execRevocationTimeout t k s) := by
  have := @haltGalley_canonical
  grind [execRevocationTimeout, foldl_canonical, nextCanonical_next]

theorem abortOpen_canonical {s : State} (sC : s.Canonical) (t k) : (abortOpen s t k).Canonical := by
  have := @abortLanes_canonical
  have := @releaseSerial_canonical
  grind [abortOpen, foldl_canonical]

theorem dumpTargets_canonical {x1 : State} (x1C : x1.Canonical) (t k a) : (dumpTargets t k a x1).2.Canonical := by
  have := @translateNow_canonical
  fun_induction dumpTargets t k a x1 <;> grind

theorem endDump_canonical {s : State} (sC : s.Canonical) (t k) : (endDump s t k).Canonical := by
  have := @holdDies_canonical
  have := @State.sendMsi_canonical
  have := @State.setCtx_canonical
  grind [endDump]

theorem execDumpDone_canonical {s : State} (sC : s.Canonical) (t k) : NextCanonical (execDumpDone t k s) := by
  have := @abortOpen_canonical
  have := @endDump_canonical
  have := @State.sendMsi_canonical
  have := @State.setTenant_canonical
  have := @dumpTargets_canonical
  have := @State.writePhys_canonical
  grind [execDumpDone, foldl_canonical, nextCanonical_next]

end Sys2Proof.Machine
end

section
/-! The operations of `Machine/Compose.lean` keep the memories canonical. -/

namespace Sys2Proof.Machine

open Sys2Proof

theorem dropRequests_canonical {s : State} (sC : s.Canonical) (cl r) : (dropRequests s cl r).Canonical :=
  State.setCluster_canonical sC ..

theorem failWaiters_canonical {s : State} (sC : s.Canonical) (ws c sub) : (failWaiters s ws c sub).Canonical := by
  have := @takeFault_canonical
  grind [failWaiters, foldl_canonical]

theorem putImage_canonical {s : State} (sC : s.Canonical) (cl x) : (putImage s cl x).2.Canonical := by
  have := @countXlat_canonical
  grind [putImage, State.canonical_iff]

theorem uncache_canonical {s : State} (sC : s.Canonical) (cl x sh) : (uncache s cl x sh).Canonical := by
  unfold uncache
  have := @countXlat_canonical
  grind [State.canonical_iff]

theorem storeBodies_canonical {s : State} (sC : s.Canonical) (cl r t spill bs) : (storeBodies s cl r t spill bs).2.Canonical := by
  unfold storeBodies
  have := @putImage_canonical
  have := @cacheBody_canonical
  have := @uncache_canonical
  have := @State.fresh_canonical
  grind

theorem compose_canonical {s : State} (sC : s.Canonical) (cl r t share shs) : (compose s cl r t share shs).2.Canonical := by
  have := @storeBodies_canonical
  grind [compose, foldl_canonical]

theorem rebuild_canonical {s : State} (sC : s.Canonical) (cl r t share old shs) : (rebuild s cl r t share old shs).2.Canonical := by
  have := @countXlat_canonical
  have := @compose_canonical
  grind [rebuild, State.canonical_iff]

theorem serveShape_canonical {s : State} (sC : s.Canonical) (cl r t ws x) : (serveShape s cl r t ws x).2.Canonical := by
  have := @cacheBody_canonical
  have := @touchBody_canonical
  have := @countXlat_canonical
  have := @rebuild_canonical
  have := @storeBodies_canonical
  have := @compose_canonical
  grind [serveShape]

theorem giveBody_canonical {s : State} (sC : s.Canonical) (cl r sh w) : (giveBody s cl r sh w).Canonical := by
  have := @passJoin_canonical
  have := @takeBody_canonical
  grind [giveBody]

theorem serveShapes_canonical {s : State} (sC : s.Canonical) (cl r t xs) : (serveShapes s cl r t xs).Canonical := by
  have := @dropRequests_canonical
  have := @serveShape_canonical
  have := @giveBody_canonical
  have := @failWaiters_canonical
  have := @countXlat_canonical
  grind [serveShapes, foldl_canonical]

theorem execTranslationDone_canonical {s : State} (sC : s.Canonical) (cl) : NextCanonical (execTranslationDone cl s) := by
  have := @dropRequests_canonical
  have := @failWaiters_canonical
  have := @serveShapes_canonical
  grind [execTranslationDone, nextCanonical_next]

theorem failPage_canonical {s : State} (sC : s.Canonical) (need_ c) : (failPage s need_ c).Canonical := by
  have := @failWaiters_canonical
  have := @dropRequests_canonical
  grind [failPage, foldl_canonical]

theorem revokePage_canonical {s : State} (sC : s.Canonical) (need_ t k obj page) : (revokePage s need_ t k obj page).Canonical := by
  have := @State.setGalley_canonical
  have := @codeIntegrity_canonical
  grind [revokePage, State.canonical_iff]

theorem cancelFetch_canonical {s : State} (sC : s.Canonical) (t k obj page code) : (cancelFetch s t k obj page code).Canonical :=
  failPage_canonical sC ..

theorem execTextPageFetchDone_canonical {s : State} (sC : s.Canonical) (t k obj page) :
    NextCanonical (execTextPageFetchDone t k obj page s) := by
  have := @dropRequests_canonical
  have := @fetchPage_canonical
  have := @failPage_canonical
  have := @serviceFault_canonical
  have := @revokePage_canonical
  grind [execTextPageFetchDone, foldl_canonical, nextCanonical_next]

end Sys2Proof.Machine
end

section
/-! The operations of `Machine/Service.lean` keep the memories canonical. -/

namespace Sys2Proof.Machine

open Sys2Proof

theorem giveResult_canonical {s : State} (sC : s.Canonical) (r a) : (giveResult s r a).Canonical := by
  unfold giveResult
  have := @State.setGalley_canonical
  have := @State.setCommand_canonical
  have := @State.setRelayout_canonical
  have := @State.setQueue_canonical
  have := @cancelFetch_canonical
  grind

theorem giveAll_canonical {s : State} (sC : s.Canonical) (r as) : (giveAll s r as).Canonical := by
  have := @giveResult_canonical
  grind [giveAll, foldl_canonical]

theorem fillTlbs_canonical {s : State} (sC : s.Canonical) (cl e as) : (fillTlbs s cl e as).Canonical := by
  have := @State.setCluster_canonical
  have := @State.setCore_canonical
  grind [fillTlbs, State.core_canonical, Core.wf_iff, foldl_canonical]

theorem endReplays_canonical {s : State} (sC : s.Canonical) : (endReplays s).Canonical := by
  have := @completePacket_canonical
  grind [endReplays, foldl_canonical]

theorem execPageWalkDone_canonical {s : State} (sC : s.Canonical) (i) : NextCanonical (execPageWalkDone i s) := by
  grind [execPageWalkDone, walk_canonical, walkVia_canonical, giveAll_canonical, fillTlbs_canonical, serviceFault_canonical,
    endReplays_canonical, State.canonical_iff, nextCanonical_next]

theorem rewalk_canonical {s : State} (sC : s.Canonical) (f) : (rewalk s f).2.Canonical := by
  have := @State.fresh_canonical
  grind [rewalk, State.canonical_iff]

theorem failFault_canonical {s : State} (sC : s.Canonical) (f c) : (failFault s f c).Canonical := by
  have := @giveAll_canonical
  grind [failFault, State.canonical_iff]

theorem poolEmpty_canonical {s : State} (sC : s.Canonical) (f) : (poolEmpty s f).Canonical := by
  have := @fbRecord_canonical
  grind [poolEmpty, State.canonical_iff]

theorem touchPage_canonical {s : State} (sC : s.Canonical) (f i) : (touchPage s f i).Canonical := by
  have := @poolBit_canonical
  have := @failFault_canonical
  have := @State.finalizeSpan_canonical
  have := @walk_canonical
  have := @State.writePhys_canonical
  have := @giveAll_canonical
  have := @fillTlbs_canonical
  have := @rewalk_canonical
  grind [touchPage, Memory.wf_zero, State.canonical_iff]

theorem execFirstTouch_canonical {s : State} (sC : s.Canonical) (i) : NextCanonical (execFirstTouch i s) := by
  have := @failFault_canonical
  have := @poolFind_canonical
  have := @poolEmpty_canonical
  have := @touchPage_canonical
  grind [execFirstTouch, nextCanonical_next]

theorem replayFaults_canonical {x1 : State} (x1C : x1.Canonical) (a) : (replayFaults a x1).2.Canonical := by
  have := @failFault_canonical
  have := @rewalk_canonical
  fun_induction replayFaults a x1 <;> grind

theorem replayAct_canonical {s : State} (sC : s.Canonical) (p) : (replayAct p s).Canonical := by
  have := @PktIn.begin__canonical
  have := @State.setTenant_canonical
  have := @replayFaults_canonical
  have := @completePacket_canonical
  grind [replayAct, State.canonical_iff]

theorem execReplayAll_canonical {s : State} (sC : s.Canonical) (q) : NextCanonical (execReplayAll q s) := by
  have := @startPacket_canonical
  have := @replayAct_canonical
  grind [execReplayAll, nextCanonical_next]

end Sys2Proof.Machine
end


section
/-! The operations of `Machine/Round.lean` keep the memories canonical. -/

namespace Sys2Proof.Machine

open Sys2Proof

theorem beginRound_canonical {s : State} (sC : s.Canonical) : (beginRound s).Canonical := by
  unfold beginRound
  extract_lets s₁ s₂
  have h₁ : s₁.Canonical := endResumes_canonical (endReplays_canonical sC)
  have h₂ : s₂.Canonical := h₁.beside rfl rfl rfl rfl rfl
  exact foldl_canonical h₂ (fun _ _ h => settle_canonical h ..) _

theorem packetAct_canonical {s : State} (sC : s.Canonical) (op p) : (packetAct op p s).Canonical := by
  unfold packetAct
  split
  exacts [nopAct_canonical sC _, nopAct_canonical sC _, waitAct_canonical sC _, signalAct_canonical sC _, loadAct_canonical sC _,
    unloadAct_canonical sC _, launchAct_canonical sC _, graphPacket_canonical sC _, patchAct_canonical sC _, preemptAct_canonical sC _,
    resumeAct_canonical sC _, replayAct_canonical sC _, attestAct_canonical sC _]

theorem runOp_canonical {s : State} (sC : s.Canonical) (lanes op) : (runOp lanes s op).Canonical := by
  have := @startPacket_canonical
  have := @packetAct_canonical
  grind [runOp, foldl_canonical]

theorem execQueueEngineRound_canonical {s : State} (sC : s.Canonical) : NextCanonical (execQueueEngineRound s) := by
  have := @beginRound_canonical
  have := @checkPacket_canonical
  have := @runOp_canonical
  grind [execQueueEngineRound, State.canonical_iff, foldl_canonical, nextCanonical_next]

end Sys2Proof.Machine
end

section
/-! The operations of `Machine/Hosts.lean` keep the memories canonical. -/

namespace Sys2Proof.Machine

open Sys2Proof

theorem outside_canonical {s : State} {f} (sC : s.Canonical) (fC : ∀ a0, a0.Canonical → (f a0).Canonical) (pa n) :
    NextCanonical (outside pa n s f) := by
  unfold outside
  split
  · exact nextCanonical_fault _
  · split
    · exact (nextCanonical_next _).mpr (fC s sC)
    · exact (nextCanonical_next _).mpr sC

theorem outsideRead_canonical {x1 : State} (x1C : x1.Canonical) (a) : (outsideRead a x1).2.Canonical := by
  have := @State.readFor_canonical
  fun_induction outsideRead a x1 <;> grind

theorem outsideWriteAct_canonical {s : State} (sC : s.Canonical) (pa data) : (outsideWriteAct pa data s).Canonical := by
  have := @State.writePhys_canonical
  grind [outsideWriteAct]

theorem outsideReadAct_canonical {s : State} (sC : s.Canonical) (pa n) : (outsideReadAct pa n s).Canonical := by
  have := @outsideRead_canonical
  grind [outsideReadAct, State.canonical_iff]

theorem outsideAtomicAct_canonical {s : State} (sC : s.Canonical) (aop pa signed ftz rm v c) :
    (outsideAtomicAct aop pa signed ftz rm v c s).Canonical := by
  have := @State.atomicSeen_canonical
  grind [outsideAtomicAct, State.canonical_iff]

theorem inAperture_canonical {s : State} {f} (sC : s.Canonical) (fC : ∀ a0, a0.Canonical → (f a0).Canonical) (off n) :
    NextCanonical (inAperture off n s f) := by
  grind [inAperture, nextCanonical_next]

theorem configRead_canonical {s : State} (sC : s.Canonical) (bs) : (configRead s bs).Canonical := by
  grind [configRead, State.canonical_iff]

theorem configBytes_canonical {s : State} (sC : s.Canonical) (n) : (configBytes s n).2.Canonical := by
  grind [configBytes, State.canonical_iff]

theorem setAperture_canonical {s : State} (sC : s.Canonical) (gib) : (setAperture s gib).Canonical := by
  grind [setAperture, State.canonical_iff]

theorem execHostWrite_canonical {s : State} (sC : s.Canonical) (x data) : NextCanonical (execHostWrite x data s) := by
  unfold execHostWrite
  have := @outside_canonical
  have := @outsideWriteAct_canonical
  have := @inAperture_canonical
  have := @setAperture_canonical
  grind [nextCanonical_next]

theorem execHostRead_canonical {s : State} (sC : s.Canonical) (x n) : NextCanonical (execHostRead x n s) := by
  unfold execHostRead
  have := @outside_canonical
  have := @outsideReadAct_canonical
  have := @inAperture_canonical
  have := @configRead_canonical
  have := @configBytes_canonical
  grind [nextCanonical_next]

theorem execHostAtomic_canonical {s : State} (sC : s.Canonical) (op x size v c) : NextCanonical (execHostAtomic op x size v c s) := by
  unfold execHostAtomic
  have := @outsideAtomicAct_canonical
  have := @outside_canonical
  have := @inAperture_canonical
  grind [nextCanonical_next]

theorem peerExactAdd_canonical {x1 : State} (x1C : x1.Canonical) (kind pa v a) : (peerExactAdd kind pa v a x1).Canonical := by
  have := @exactAdd_canonical
  have := @State.completeSpill_canonical
  fun_induction peerExactAdd kind pa v a x1 <;> grind [Exact.Canonical]

theorem outsideExactAct_canonical {s : State} (sC : s.Canonical) (aop pa v) : (outsideExactAct aop pa v s).Canonical := by
  have := @peerExactAdd_canonical
  grind [outsideExactAct, State.canonical_iff]

theorem execPeerAccess_canonical {s : State} (sC : s.Canonical) (a) : NextCanonical (execPeerAccess a s) := by
  unfold execPeerAccess
  have := @outside_canonical
  have := @outsideReadAct_canonical
  have := @outsideWriteAct_canonical
  have := @outsideExactAct_canonical
  have := @outsideAtomicAct_canonical
  grind

end Sys2Proof.Machine
end

section
/-! The operations of `Machine/Issue.lean` keep the memories canonical. -/

namespace Sys2Proof.Machine

open Sys2Proof

theorem Core.setLast_canonical {x : Core} (xC : x.Wf) (g q p) : (Core.setLast x g q p).Wf := by
  grind [Core.setLast, Core.wf_iff]

theorem Core.clearLast_canonical {x : Core} (xC : x.Wf) (g) : (Core.clearLast x g).Wf := by
  grind [Core.clearLast, Core.wf_iff]

theorem startUnit_canonical {s : State} (sC : s.Canonical) (q c) : (startUnit q s c).Canonical := by
  have := @State.setGalley_canonical
  grind [startUnit]

theorem primeUnit_canonical {s : State} (sC : s.Canonical) (x) : (primeUnit s x).Canonical := by
  have := @atEntry_canonical
  have := @beginBlock_canonical
  grind [primeUnit]

theorem arriveLate_canonical {s : State} (sC : s.Canonical) (g) : (arriveLate s g).Canonical := by
  have := @checkArrival_canonical
  grind [arriveLate]

theorem primeCore_canonical {s : State} (sC : s.Canonical) (core) : (primeCore s core).Canonical := by
  have := @arriveLate_canonical
  have := @primeUnit_canonical
  grind [primeCore, foldl_canonical]

theorem issueAct_canonical {s : State} (sC : s.Canonical) (core q) : (issueAct core q s).Canonical := by
  have := @releaseCores_canonical
  have := @primeCore_canonical
  have := @State.setCore_canonical
  have := @startUnit_canonical
  grind [issueAct, State.core_canonical, State.canonical_iff, Core.wf_iff, foldl_canonical]

theorem execIssueCycle_canonical {s : State} (sC : s.Canonical) (core queue) : NextCanonical (execIssueCycle core queue s) := by
  have := @issueAct_canonical
  grind [execIssueCycle, nextCanonical_next]

end Sys2Proof.Machine
end

section
/-! The operations of `Machine/Dispatch.lean` keep the memories canonical. -/

namespace Sys2Proof.Machine

open Sys2Proof

theorem exec_canonical {s : State} (sC : s.Canonical) (i) : NextCanonical (exec i s) := by
  cases i with
  | nop w => exact execNop_canonical sC w
  | br w t => exact execBr_canonical sC w t
  | brc w rc tt nt => exact execBrc_canonical sC w rc tt nt
  | brsw w rc d cs => exact execBrsw_canonical sC w rc d cs
  | call w t => exact execCall_canonical sC w t
  | calli w t => exact execCalli_canonical sC w t
  | ret w xs => exact execRet_canonical sC w xs
  | retire w => exact execRetire_canonical sC w
  | itemidx w => exact execItemidx_canonical sC w
  | coord w => exact execCoord_canonical sC w
  | laneid w => exact execLaneid_canonical sC w
  | groupid w => exact execGroupid_canonical sC w
  | gwidth w => exact execGwidth_canonical sC w
  | nitems w => exact execNitems_canonical sC w
  | dimext w => exact execDimext_canonical sC w
  | domid w => exact execDomid_canonical sC w
  | domsize w => exact execDomsize_canonical sC w
  | coreid w => exact execCoreid_canonical sC w
  | clusterid w => exact execClusterid_canonical sC w
  | dieid w => exact execDieid_canonical sC w
  | launchid w => exact execLaunchid_canonical sC w
  | actmask w => exact execActmask_canonical sC w
  | add w => exact execAdd_canonical sC w
  | sub w => exact execSub_canonical sC w
  | mul w => exact execMul_canonical sC w
  | mulhi w => exact execMulhi_canonical sC w
  | mad w => exact execMad_canonical sC w
  | div w => exact execDiv_canonical sC w
  | rem w => exact execRem_canonical sC w
  | neg w => exact execNeg_canonical sC w
  | abs w => exact execAbs_canonical sC w
  | min w => exact execMin_canonical sC w
  | max w => exact execMax_canonical sC w
  | clamp w => exact execClamp_canonical sC w
  | adiff w => exact execAdiff_canonical sC w
  | addc w => exact execAddc_canonical sC w
  | subb w => exact execSubb_canonical sC w
  | and w => exact execAnd_canonical sC w
  | or w => exact execOr_canonical sC w
  | xor w => exact execXor_canonical sC w
  | not w => exact execNot_canonical sC w
  | bfn3 w l => exact execBfn3_canonical sC w l
  | shl w => exact execShl_canonical sC w
  | shr w => exact execShr_canonical sC w
  | sra w => exact execSra_canonical sC w
  | rotl w => exact execRotl_canonical sC w
  | bfe w => exact execBfe_canonical sC w
  | bfi w x => exact execBfi_canonical sC w x
  | clz w => exact execClz_canonical sC w
  | ctz w => exact execCtz_canonical sC w
  | bcnt w => exact execBcnt_canonical sC w
  | brev w => exact execBrev_canonical sC w
  | bswap w => exact execBswap_canonical sC w
  | cmp w => exact execCmp_canonical sC w
  | sel w => exact execSel_canonical sC w
  | cvti w => exact execCvti_canonical sC w
  | lea w => exact execLea_canonical sC w
  | mov w => exact execMov_canonical sC w
  | fadd w => exact execFadd_canonical sC w
  | fsub w => exact execFsub_canonical sC w
  | fmul w => exact execFmul_canonical sC w
  | fdiv w => exact execFdiv_canonical sC w
  | fma w => exact execFma_canonical sC w
  | sqrt w => exact execSqrt_canonical sC w
  | rcp w => exact execRcp_canonical sC w
  | rsqrt w => exact execRsqrt_canonical sC w
  | exp2 w => exact execExp2_canonical sC w
  | log2 w => exact execLog2_canonical sC w
  | sin w => exact execSin_canonical sC w
  | cos w => exact execCos_canonical sC w
  | ldexp w => exact execLdexp_canonical sC w
  | frexp w => exact execFrexp_canonical sC w
  | frnd w => exact execFrnd_canonical sC w
  | fmin w => exact execFmin_canonical sC w
  | fmax w => exact execFmax_canonical sC w
  | fclamp w => exact execFclamp_canonical sC w
  | fabs w => exact execFabs_canonical sC w
  | fneg w => exact execFneg_canonical sC w
  | fsgn w => exact execFsgn_canonical sC w
  | fcmp w => exact execFcmp_canonical sC w
  | fclass w => exact execFclass_canonical sC w
  | cvt w => exact execCvt_canonical sC w
  | cvtef w => exact execCvtef_canonical sC w
  | shfl w => exact execShfl_canonical sC w
  | shflx w => exact execShflx_canonical sC w
  | shfld w => exact execShfld_canonical sC w
  | shflu w => exact execShflu_canonical sC w
  | bcast w => exact execBcast_canonical sC w
  | ballot w => exact execBallot_canonical sC w
  | popc w => exact execPopc_canonical sC w
  | elect w => exact execElect_canonical sC w
  | redadd w => exact execRedadd_canonical sC w
  | redmin w => exact execRedmin_canonical sC w
  | redmax w => exact execRedmax_canonical sC w
  | redand w => exact execRedand_canonical sC w
  | redor w => exact execRedor_canonical sC w
  | sprs w => exact execSprs_canonical sC w
  | rndk w => exact execRndk_canonical sC w
  | ldG w => exact execLdG_canonical sC w
  | stG w => exact execStG_canonical sC w
  | ldS w => exact execLdS_canonical sC w
  | stS w => exact execStS_canonical sC w
  | pref w => exact execPref_canonical sC w
  | evict w => exact execEvict_canonical sC w
  | tnseal w => exact execTnseal_canonical sC w
  | tnflush w => exact execTnflush_canonical sC w
  | tnld w x => exact execTnld_canonical sC w x
  | tnst w x y => exact execTnst_canonical sC w x y
  | tninfo w => exact execTninfo_canonical sC w
  | tnrelay w x => exact execTnrelay_canonical sC w x
  | tnidx w x => exact execTnidx_canonical sC w x
  | tnpref w x => exact execTnpref_canonical sC w x
  | cpy w x => exact execCpy_canonical sC w x
  | cpyh w x y => exact execCpyh_canonical sC w x y
  | seqset w => exact execSeqset_canonical sC w
  | seqgo w => exact execSeqgo_canonical sC w
  | seqstat w => exact execSeqstat_canonical sC w
  | gath w x => exact execGath_canonical sC w x
  | gathh w x => exact execGathh_canonical sC w x
  | cbatch w => exact execCbatch_canonical sC w
  | cwait w => exact execCwait_canonical sC w
  | cntwait w => exact execCntwait_canonical sC w
  | spset w x => exact execSpset_canonical sC w x
  | ringcfg w x => exact execRingcfg_canonical sC w x
  | ringrd w => exact execRingrd_canonical sC w
  | mma w l => exact execMma_canonical sC w l
  | mmab w l => exact execMmab_canonical sC w l
  | mmas w l => exact execMmas_canonical sC w l
  | mmaconv w l x => exact execMmaconv_canonical sC w l x
  | mmard w => exact execMmard_canonical sC w
  | tlld w => exact execTlld_canonical sC w
  | tlst w => exact execTlst_canonical sC w
  | tlzero w => exact execTlzero_canonical sC w
  | tlmov w => exact execTlmov_canonical sC w
  | tlrotr w => exact execTlrotr_canonical sC w
  | tlrotc w => exact execTlrotc_canonical sC w
  | tlbcr w => exact execTlbcr_canonical sC w
  | tlbcc w => exact execTlbcc_canonical sC w
  | tlredr w => exact execTlredr_canonical sC w
  | tlredc w => exact execTlredc_canonical sC w
  | tlgetr w => exact execTlgetr_canonical sC w
  | tlgetc w => exact execTlgetc_canonical sC w
  | tlputr w => exact execTlputr_canonical sC w
  | tlputc w => exact execTlputc_canonical sC w
  | dp4 w => exact execDp4_canonical sC w
  | dp8 w => exact execDp8_canonical sC w
  | dp2 w => exact execDp2_canonical sC w
  | pack w => exact execPack_canonical sC w
  | unpack w => exact execUnpack_canonical sC w
  | amoAdd w => exact execAmoAdd_canonical sC w
  | amoAnd w => exact execAmoAnd_canonical sC w
  | amoOr w => exact execAmoOr_canonical sC w
  | amoXor w => exact execAmoXor_canonical sC w
  | amoMin w => exact execAmoMin_canonical sC w
  | amoMax w => exact execAmoMax_canonical sC w
  | amoSwap w => exact execAmoSwap_canonical sC w
  | amoCas w => exact execAmoCas_canonical sC w
  | amoFaddRn w => exact execAmoFaddRn_canonical sC w
  | amoFaddRz w => exact execAmoFaddRz_canonical sC w
  | amoFaddRu w => exact execAmoFaddRu_canonical sC w
  | amoFaddRd w => exact execAmoFaddRd_canonical sC w
  | amoFaddX w => exact execAmoFaddX_canonical sC w
  | amoFmin w => exact execAmoFmin_canonical sC w
  | amoFmax w => exact execAmoFmax_canonical sC w
  | cas128 w => exact execCas128_canonical sC w
  | txbeg w => exact execTxbeg_canonical sC w
  | txend w => exact execTxend_canonical sC w
  | txabort w => exact execTxabort_canonical sC w
  | txmask w => exact execTxmask_canonical sC w
  | txcause w => exact execTxcause_canonical sC w
  | txdepth w => exact execTxdepth_canonical sC w
  | txserial w => exact execTxserial_canonical sC w
  | fence w => exact execFence_canonical sC w
  | barr w => exact execBarr_canonical sC w
  | bararr w => exact execBararr_canonical sC w
  | barwait w => exact execBarwait_canonical sC w
  | bartest w => exact execBartest_canonical sC w
  | barphase w => exact execBarphase_canonical sC w
  | dmember w => exact execDmember_canonical sC w
  | qpush w => exact execQpush_canonical sC w
  | qpop w => exact execQpop_canonical sC w
  | qcount w => exact execQcount_canonical sC w
  | qspace w => exact execQspace_canonical sC w
  | icinv w => exact execIcinv_canonical sC w
  | fbar w => exact execFbar_canonical sC w
  | l1inv w => exact execL1inv_canonical sC w
  | rdctl w => exact execRdctl_canonical sC w
  | wrctl w => exact execWrctl_canonical sC w
  | rdclk w => exact execRdclk_canonical sC w
  | nap w => exact execNap_canonical sC w
  | yield w => exact execYield_canonical sC w
  | hint w => exact execHint_canonical sC w
  | trap w => exact execTrap_canonical sC w
  | brk w => exact execBrk_canonical sC w
  | chk w => exact execChk_canonical sC w
  | queueEngineRound => exact execQueueEngineRound_canonical sC
  | nopPacket q => exact execNopPacket_canonical sC q
  | wrap q => exact execWrap_canonical sC q
  | waitcnt q => exact execWaitcnt_canonical sC q
  | waitcntPoll q => exact execWaitcntPoll_canonical sC q
  | signal q => exact execSignal_canonical sC q
  | load q => exact execLoad_canonical sC q
  | unload q => exact execUnload_canonical sC q
  | launch q => exact execLaunch_canonical sC q
  | launchPlacement => exact execLaunchPlacement_canonical sC
  | launchComplete l => exact execLaunchComplete_canonical sC l
  | graph q => exact execGraph_canonical sC q
  | graphReplayWaitEnd r => exact execGraphReplayWaitEnd_canonical sC r
  | graphNodeDispatch q => exact execGraphNodeDispatch_canonical sC q
  | graphNodeRetire r n => exact execGraphNodeRetire_canonical sC r n
  | patch q => exact execPatch_canonical sC q
  | patchWaitEnd p => exact execPatchWaitEnd_canonical sC p
  | preempt q => exact execPreempt_canonical sC q
  | preemptSaveDone t k => exact execPreemptSaveDone_canonical sC t k
  | resume q => exact execResume_canonical sC q
  | replayAll q => exact execReplayAll_canonical sC q
  | attest q => exact execAttest_canonical sC q
  | invalDone t k => exact execInvalDone_canonical sC t k
  | issueCycle core queue => exact execIssueCycle_canonical sC core queue
  | piecePlacement => exact execPiecePlacement_canonical sC
  | translationDone cl => exact execTranslationDone_canonical sC cl
  | textPageFetchDone t k obj page => exact execTextPageFetchDone_canonical sC t k obj page
  | dumpDone t k => exact execDumpDone_canonical sC t k
  | pageWalkDone w => exact execPageWalkDone_canonical sC w
  | firstTouch f => exact execFirstTouch_canonical sC f
  | memoryReply g => exact execMemoryReply_canonical sC g
  | atomicQueueDrain core => exact execAtomicQueueDrain_canonical sC core
  | accSpillDone slice => exact execAccSpillDone_canonical sC slice
  | engineCommandComplete id => exact execEngineCommandComplete_canonical sC id
  | sequencerEmit core slot => exact execSequencerEmit_canonical sC core slot
  | matrixRetire core => exact execMatrixRetire_canonical sC core
  | relayoutTileQueue r => exact execRelayoutTileQueue_canonical sC r
  | tileConversionStart stack => exact execTileConversionStart_canonical sC stack
  | tileConversionDone stack => exact execTileConversionDone_canonical sC stack
  | serialGrant => exact execSerialGrant_canonical sC
  | napExpiry g => exact execNapExpiry_canonical sC g
  | spill n => exact execSpill_canonical sC n
  | fill n => exact execFill_canonical sC n
  | mat n => exact execMat_canonical sC n
  | tnop n => exact execTnop_canonical sC n
  | hmov n => exact execHmov_canonical sC n
  | ldk n => exact execLdk_canonical sC n
  | unf n => exact execUnf_canonical sC n
  | engineAccessFault id => exact execEngineAccessFault_canonical sC id
  | storePerformed g => exact execStorePerformed_canonical sC g
  | icinvDone id => exact execIcinvDone_canonical sC id
  | powerGood => exact execPowerGood_canonical sC
  | perst => exact execPerst_canonical sC
  | pfFlr => exact execPfFlr_canonical sC
  | vfFlr t => exact execVfFlr_canonical sC t
  | pcieLinkUp => exact execPcieLinkUp_canonical sC
  | firmwareCheckDone => exact execFirmwareCheckDone_canonical sC
  | stacksReady fail => exact execStacksReady_canonical sC fail
  | linksTrained fail portsUp => exact execLinksTrained_canonical sC fail portsUp
  | diesLeaveReset fail => exact execDiesLeaveReset_canonical sC fail
  | identityReady ok => exact execIdentityReady_canonical sC ok
  | recoveryGo v => exact execRecoveryGo_canonical sC v
  | recoveryCheckDone => exact execRecoveryCheckDone_canonical sC
  | coolwarnClear v => exact execCoolwarnClear_canonical sC v
  | refusedClear tgt v => exact execRefusedClear_canonical sC tgt v
  | registerWrite fn off v => exact execRegisterWrite_canonical sC fn off v
  | tenConfigWrite t reg v => exact execTenConfigWrite_canonical sC t reg v
  | tenEnable t v => exact execTenEnable_canonical sC t v
  | signerKeyRegister t v => exact execSignerKeyRegister_canonical sC t v
  | signerKeyCopyDone t => exact execSignerKeyCopyDone_canonical sC t
  | signerKeyRemove t v => exact execSignerKeyRemove_canonical sC t v
  | tenModeWrite t v => exact execTenModeWrite_canonical sC t v
  | assistpendClear t v => exact execAssistpendClear_canonical sC t v
  | fbcfgWrite t v => exact execFbcfgWrite_canonical sC t v
  | faultCancelWrite t d k v => exact execFaultCancelWrite_canonical sC t d k v
  | slotTableUpdate changes => exact execSlotTableUpdate_canonical sC changes
  | slotGrant res cycle ready => exact execSlotGrant_canonical sC res cycle ready
  | queueEnable q v => exact execQueueEnable_canonical sC q v
  | queueDisable q v => exact execQueueDisable_canonical sC q v
  | queueRestart q v => exact execQueueRestart_canonical sC q v
  | queueWpWrite q v => exact execQueueWpWrite_canonical sC q v
  | queueGateWrite q v => exact execQueueGateWrite_canonical sC q v
  | preemptDrainExpiry t k => exact execPreemptDrainExpiry_canonical sC t k
  | preemptTxTimeout t k => exact execPreemptTxTimeout_canonical sC t k
  | ctxEnable t k v => exact execCtxEnable_canonical sC t k v
  | ctxReset t k v => exact execCtxReset_canonical sC t k v
  | ctxInval t k v => exact execCtxInval_canonical sC t k v
  | enbudgetWrite t k v => exact execEnbudgetWrite_canonical sC t k v
  | enrateWrite t k v => exact execEnrateWrite_canonical sC t k v
  | energyReplenish => exact execEnergyReplenish_canonical sC
  | dbgHitClear t k v => exact execDbgHitClear_canonical sC t k v
  | fluxEstimateUpdate pair flux => exact execFluxEstimateUpdate_canonical sC pair flux
  | clockStep die => exact execClockStep_canonical sC die
  | thermalTrigger r => exact execThermalTrigger_canonical sC r
  | coolantOutOfRating inlet flow => exact execCoolantOutOfRating_canonical sC inlet flow
  | scrubError pa corrected => exact execScrubError_canonical sC pa corrected
  | fabricPortStateChange p st => exact execFabricPortStateChange_canonical sC p st
  | hostWrite pa data => exact execHostWrite_canonical sC pa data
  | hostRead pa n => exact execHostRead_canonical sC pa n
  | hostAtomic op pa size v c => exact execHostAtomic_canonical sC op pa size v c
  | peerAccess a => exact execPeerAccess_canonical sC a
  | revocationTimeout t k => exact execRevocationTimeout_canonical sC t k

end Sys2Proof.Machine
end

section
/-! The operations of `Machine/Run.lean` keep the memories canonical. -/

namespace Sys2Proof.Machine

open Sys2Proof

theorem popUnit_canonical {s : State} (sC : s.Canonical) : (popUnit s).Canonical := by
  grind [popUnit, State.canonical_iff]

theorem endSlot_canonical {s : State} (sC : s.Canonical) : (endSlot s).Canonical := by
  grind [endSlot, State.canonical_iff]

theorem readPools_canonical {s : State} (sC : s.Canonical) (core x i) : (readPools core x i s).Canonical := by
  unfold readPools
  have := @l1Pool_canonical
  grind [foldl_canonical]

theorem markIssued_canonical {s : State} (sC : s.Canonical) (k u two cycles) : (markIssued s k u two cycles).Canonical := by
  have := @setRound_canonical
  have := @State.setCore_canonical
  have := @Core.setLast_canonical
  have := @Core.clearLast_canonical
  have := @countEvent_canonical
  grind [markIssued, State.core_canonical, State.canonical_iff]

theorem swapCompanion_canonical {s : State} (sC : s.Canonical) (k u) : (swapCompanion s k u).Canonical := by
  have := @popUnit_canonical
  have := @startUnit_canonical
  grind [swapCompanion, State.canonical_iff]

theorem afterUnit_canonical {s : State} (sC : s.Canonical) (u two cycles parked) : (afterUnit u two cycles parked s).Canonical := by
  unfold afterUnit
  split
  · exact popUnit_canonical sC
  · split
    · exact ite_canonical (swapCompanion_canonical sC ..) (endSlot_canonical sC)
    · exact popUnit_canonical (markIssued_canonical sC ..)

theorem runUnit_canonical {s : State} (sC : s.Canonical) (u) : NextCanonical (runUnit s u) := by
  have hpop := (nextCanonical_next _).mpr (popUnit_canonical sC)
  unfold runUnit
  split
  · exact hpop
  · split
    next g _ _ _ _ l core th _ _ _ =>
      extract_lets two
      split
      · exact hpop
      · split
        · exact hpop
        · exact (nextCanonical_next _).mpr (popUnit_canonical (takeFault_canonical sC ..))
        · exact (nextCanonical_next _).mpr (afterUnit_canonical (putThread_canonical sC ..) ..)
        next i x _ =>
          have hthread : (if x = th then s else putThread s u x).Canonical := by
            split
            · exact sC
            · exact putThread_canonical sC ..
          generalize (if x = th then s else putThread s u x) = v at hthread
          dsimp only
          split
          next t ht =>
            have tC := (exec_canonical hthread i).of_next ht
            refine (nextCanonical_next _).mpr (releaseCores_canonical (afterUnit_canonical ?_ ..))
            split
            · exact tC
            · exact readPools_canonical tC ..
          · exact nextCanonical_fault _
          · exact nextCanonical_refused _
    · exact hpop

theorem tickCore_canonical {s : State} (sC : s.Canonical) (c) : (tickCore s c).Canonical := by
  have := @countEvent_canonical
  grind [tickCore]

theorem tickCluster_canonical {s : State} (sC : s.Canonical) (cl) : (tickCluster s cl).Canonical := by
  have := @countXlat_canonical
  grind [tickCluster]

theorem clockSteps_canonical {s : State} (sC : s.Canonical) : (clockSteps s).Canonical := by
  have := @execClockStep_canonical
  grind [clockSteps, foldl_canonical, nextCanonical_next]

theorem endRounds_canonical {s : State} (sC : s.Canonical) (core) : (endRounds s core).Canonical := by
  have := @State.setCore_canonical
  grind [endRounds, State.core_canonical, Core.wf_iff]

theorem State.cycleOn_canonical {s : State} (sC : s.Canonical) : (State.cycleOn s).Canonical := by
  grind [State.cycleOn, State.canonical_iff]

theorem tick_canonical {s : State} (sC : s.Canonical) : NextCanonical (tick s) := by
  unfold tick
  extract_lets s₁ c p s₂ s₃ s₄ s₅
  have h₁ : s₁.Canonical := foldl_canonical sC (fun _ _ h => endRounds_canonical h ..) _
  have hc : c.Canonical := State.cycleOn_canonical h₁
  have h₂ : s₂.Canonical := bringUpTick_canonical ⟨hc.mem, hc.host, hc.peer, hc.spad, hc.tiles, h₁.buffer⟩
  have h₃ : s₃.Canonical := foldl_canonical h₂ (fun _ _ h => tickCore_canonical h ..) _
  have h₄ : s₄.Canonical := foldl_canonical h₃ (fun _ _ h => tickCluster_canonical h ..) _
  have h₅ : s₅.Canonical := ite_canonical (clockSteps_canonical h₄) h₄
  split
  · exact execEnergyReplenish_canonical h₅
  · exact (nextCanonical_next _).mpr h₅

theorem Ev.run_canonical {s : State} (sC : s.Canonical) (a) : NextCanonical (Ev.run s a) := by
  unfold Ev.run
  have := @exec_canonical
  have := @execStorePerformed_canonical
  have := @execIcinvDone_canonical
  have := @execSignerKeyCopyDone_canonical
  have := @execPreemptDrainExpiry_canonical
  have := @execPreemptTxTimeout_canonical
  have := @execRevocationTimeout_canonical
  have := @tick_canonical
  grind [State.canonical_iff, nextCanonical_next]

theorem State.pick_canonical {s : State} (sC : s.Canonical) (first es) : (State.pick s first es).2.Canonical := by
  have := @State.choose_canonical
  grind [State.pick]

theorem runFree_canonical {s : State} (sC : s.Canonical) : NextCanonical (runFree s) := by
  have := @State.pick_canonical
  have := @Ev.run_canonical
  grind [runFree, State.canonical_iff, nextCanonical_next]

end Sys2Proof.Machine
end

section
/-! The operations of `Machine/Step.lean` keep the memories canonical. -/

namespace Sys2Proof.Machine

open Sys2Proof

theorem step_canonical {s : State} (sC : s.Canonical) : NextCanonical (step s) := by
  have := @runUnit_canonical
  have := @runFree_canonical
  grind [step]

/-- Settles O60, from the rule of `step`, which the rules of the operations give. -/
theorem stepsKeepMemoryCanonical : Obligations.StepsKeepMemoryCanonical := fun _ _ hs hstep => (step_canonical hs).of_next hstep

end Sys2Proof.Machine
end
